-- ==== Sys2Proof/Word.lean ====
section
/-!
DEFINITION. The word types of the L128 (R18, R63): bytes, 16-bit halves, 32-bit words and 64-bit lane masks.
-/

namespace Sys2Proof

/-- A byte of memory. -/
abbrev Byte := BitVec 8

/-- A 16-bit element (fp16, bf16). -/
abbrev Half := BitVec 16

/-- A register, code or memory word. -/
abbrev Word := BitVec 32

/-- A 64-bit pair, low word first in memory. -/
abbrev DWord := BitVec 64

/-- A mask with one bit for each lane of a group (R97). -/
abbrev Mask := BitVec 64

end Sys2Proof
end

