-- ==== Sys2Proof/Syntax.lean ====
section
/-!
DEFINITION. The instructions of the L128 and the events of its units, as data: one constructor for each row of
the table of operations and events (spec/opcode_table.json), with the operand kinds of R40 to R52.
-/

namespace Sys2Proof

/-- A register operand (R40): v0 to v191 are per lane, s0 to s63 per group. -/
inductive Reg where
  | v (n : Fin 192)
  | s (n : Fin 64)
  deriving DecidableEq, Repr

/-- Whether the operand names a scalar register (R40). -/
def Reg.isScalar : Reg → Bool
  | .v _ => false
  | .s _ => true

/-- Clause classes that hold instructions (R27); data clauses (0b110) hold none. -/
inductive ClauseClass where
  | alu | memory | async | sync | control | system
  deriving DecidableEq, Repr

/-- The special registers of R128. -/
inductive Special where
  | laneid | lpc | lage | helpers | groupid | blockid | gangid | agelimit | repeatCount | ctag | rmode | fflags
  | clockratio | cycle | tick | stepping | swapmin | replays | trapinfo | cpfault | bounds | launchid
  deriving DecidableEq, Repr

/-- MEM size codes (R44). -/
inductive MemSize where
  | ui8 | i8 | ui16 | i16 | b32 | b64 | b128
  deriving DecidableEq, Repr

/-- The bytes an access of the size touches (R44). -/
def MemSize.bytes : MemSize → Nat
  | .ui8 => 1
  | .i8 => 1
  | .ui16 => 2
  | .i16 => 2
  | .b32 => 4
  | .b64 => 8
  | .b128 => 16

/-- The registers an access of the size fills or reads (R44, R204). -/
def MemSize.regs : MemSize → Nat
  | .b64 => 2
  | .b128 => 4
  | .ui8 | .i8 | .ui16 | .i16 | .b32 => 1

/-- The size codes a store takes (R204). -/
def MemSize.storable : MemSize → Bool
  | .i8 | .i16 => false
  | .ui8 | .ui16 | .b32 | .b64 | .b128 => true

/-- Memory orders (R45). -/
inductive Order where
  | rlx | acq | rel | ar
  deriving DecidableEq, Repr

/-- Memory scopes (R45, R248). -/
inductive Scope where
  | grp | blk | gang | dev | sys
  deriving DecidableEq, Repr

/-- Barrier scopes (R46). -/
inductive BarScope where
  | block | gang | grid
  deriving DecidableEq, Repr

/-- A barrier as an instruction names it (R46). -/
structure BarName where
  scope : BarScope
  ix : BitVec 4
  deriving DecidableEq, Repr

/-- How many indexes a scope has (R46). -/
def BarScope.limit : BarScope → Nat
  | .block => 16
  | .gang => 8
  | .grid => 4

/-- Whether the index is one its scope has (R46). -/
def BarName.wf (b : BarName) : Bool := decide (b.ix.toNat < b.scope.limit)

/-- Atomic operations (R51). -/
inductive AtomOp where
  | add | min | max | and | or | xor | exch | cas | fadd
  deriving DecidableEq, Repr

/-- Atomic types (R51). -/
inductive AtomTy where
  | i32 | ui32 | f32 | b64
  deriving DecidableEq, Repr

/-- The pairs of operation and type that are instructions (R52). -/
def AtomOp.pairs (op : AtomOp) (ty : AtomTy) : Bool :=
  match ty with
  | .i32 | .ui32 => op != .fadd
  | .f32 => op == .min || op == .max || op == .exch || op == .cas || op == .fadd
  | .b64 => op == .add || op == .and || op == .or || op == .xor || op == .exch || op == .cas

/-- Scratchpad levels (R167, R180). -/
inductive Level where
  | core | cluster | die
  deriving DecidableEq, Repr

/-- A formats of MMA (R288). -/
inductive MmaFmt where
  | i8 | t8 | t6 | bf16 | f16 | f32
  deriving DecidableEq, Repr

/-- The formats MMA.sp takes (R288). -/
def MmaFmt.sparse : MmaFmt → Bool
  | .i8 | .t8 | .t6 => true
  | .bf16 | .f16 | .f32 => false

/-- Scratchpad formats of ACCLD and ACCST (R300). -/
inductive TileFmt where
  | f32 | i32 | bf16 | f16 | t8 | t6 | b32
  deriving DecidableEq, Repr

/-- Conversions of ACCRD and ACCWR (R297). -/
inductive AccCv where
  | raw | f32 | i32 | bf16 | f16
  deriving DecidableEq, Repr

/-- Source formats of SPCMP (R295). -/
inductive SpFmt where
  | i8 | t8 | t6
  deriving DecidableEq, Repr

/-- Operations of COLL (R427). -/
inductive CollOp where
  | put | arAdd | arMax | gather | bcast
  deriving DecidableEq, Repr

/-- The reducing collectives, the only ones whose type field counts (R427). -/
def CollOp.reduces : CollOp → Bool
  | .arAdd | .arMax => true
  | .put | .gather | .bcast => false

/-- One barrier of the part: which block, gang or launch owns it and its index there (R334, R336). -/
inductive BarId where
  | block (block ix : Nat)
  | gang (launch gang ix : Nat)
  | grid (launch ix : Nat)
  deriving DecidableEq, Repr

/-- The sensors of R411 and R423. -/
inductive Sensor where
  | coreTemp (core : Nat)
  | dieTemp (die : Nat)
  | stackTemp (stack : Nat)
  | hubTemp
  | domainCurrent (domain : Nat)
  | domainVoltage (domain : Nat)
  | power1ms
  | power10us
  deriving DecidableEq, Repr

/-- The SRAM arrays that hold retention segments (R186, R302). -/
inductive SramArray where
  | coreScratch (core : Nat)
  | clusterScratch (cluster : Nat)
  | dieScratch (die : Nat)
  | accStore (core : Nat)
  deriving DecidableEq, Repr

/-- What another rank of a communicator brings to a collective (R426, R428): its rank, which of its collectives on
the communicator it is, the command and its source bytes. -/
structure PeerCmd where
  rank : Nat
  nth : Nat
  op : CollOp
  ty : BitVec 2
  bytes : Nat
  peer : Nat
  source : List (BitVec 8)
  deriving DecidableEq, Repr

/-- A flit of a Graniale port (R424): its source and destination packages, whether it is of the ordered class, its
number among the flits sent between the two, and its 256 bytes. -/
structure Flit where
  src : Nat
  dst : Nat
  ordered : Bool
  seq : Nat
  payload : List (BitVec 8)
  deriving DecidableEq, Repr

/-- A place of stored data that an uncorrectable error makes unreadable (R185, R302, R231): 64-bit words of the
scratchpad allotments, of HBM and of a tile, a context's cell, a group's saved registers or its trap save area. `array`
is an error in an array whose data the model does not hold in such places, or lost flits of a link (R423, R433), by unit
and array, and the job it concerns. -/
inductive BadLoc where
  | coreScratch (block dword : Nat)
  | clusterScratch (launch gang dword : Nat)
  | dieScratch (launch die dword : Nat)
  | hbm (dword : Nat)
  | tile (block tile dword : Nat)
  | cell (tag obj gran : Nat)
  | registers (group : Nat)
  | saveArea (group : Nat)
  | array (unit arr : Nat) (job : Option Nat)
  deriving DecidableEq, Repr

/-- The steps of the part: one constructor for each row of the table of operations and events
(spec/opcode_table.json). The instructions carry their operand fields (R43, R49); the events carry which
unit, group or request moves. -/
inductive Instr where
  /-- NOP (R106): Takes one issue slot and has no other effect. -/
  | nop
  /-- BRA (R109): Sends the taken lanes of Exec to a clause header at a signed word offset and the other lanes to the next clause. -/
  | bra (neg : Bool) (p : BitVec 4) (pen : Bool) (off : BitVec 18)
  /-- JMPX (R110): Sends each lane to the target that its index selects in a data-clause jump table, or to the next clause when the index is out of range. -/
  | jmpx (a : Reg) (off : BitVec 16)
  /-- EXIT (R107): Exits the lanes of Exec, strikes them from every rejoin mask, evaluates releases and completes the group when every lane has exited. -/
  | exitG
  /-- ENROL (R111): Sets the bits of the lanes of Exec in rejoin mask jk and evaluates its release condition. -/
  | enrol (j : BitVec 3)
  /-- PARK (R111): Parks the lanes of Exec on rejoin mask jk with lpc at the next clause and evaluates its release condition. -/
  | park (j : BitVec 3)
  /-- STRIKE (R111): Clears the bits of the lanes of Exec in rejoin mask jk and evaluates its release condition. -/
  | strike (j : BitVec 3)
  /-- YIELD (R108): Moves the group to the latest active-set position, clears its wait count and ends the clause for its lanes. -/
  | yieldG
  /-- WAIT (R247): Holds the group until each named outstanding-operation counter is at or below its threshold. -/
  | waitC (ld : BitVec 4) (st : BitVec 4) (cp : BitVec 4) (tl : BitVec 4) (sg : BitVec 4) (cl : BitVec 4)
  /-- REPEAT (R112): Makes the next clause issue n times in a row, with the guard evaluated again at each iteration. -/
  | repeatN (n : BitVec 8)
  /-- TRAP (R362): Raises a TRAP cause after its word, with the imm16 value as the detail. -/
  | trapI (imm : BitVec 16)
  /-- BKPT (R362): Raises a BKPT cause after its word, or acts as NOP when the launch has no handler. -/
  | bkpt (imm : BitVec 8)
  /-- SLEEP (R114): Ends the clause and makes the group not ready for imm16 core cycles. -/
  | sleepI (imm : BitVec 16)
  /-- SLEEP_EXPIRE (R114): Makes a sleeping group ready again once its core-cycle count has passed while its job runs. -/
  | sleepExpire (g : Nat)
  /-- SRD (R130): Reads a special register into a scalar or vector register, and the result is scoreboarded. -/
  | srd (d : Reg) (sp : Special)
  /-- SWR (R131): Writes a scalar into a read-write special register before the group's next clause issues. -/
  | swr (a : Reg) (sp : Special)
  /-- TRET (R363): Waits for the handler's results, restores the saved registers and lane state, returns the save area and resumes the group. -/
  | tret
  /-- ILLEGAL_INSTRUCTION (R48): Raises an illegal-instruction fault when the group issues a word whose opcode, secondary opcode, field value or reserved bits make it no instruction. -/
  | illegalInstruction (w0 : BitVec 32) (w1 : BitVec 32)
  /-- IADD (R140): Adds two 32-bit integers modulo 2^32. -/
  | iadd (d : Reg) (a : Reg) (b : Reg)
  /-- ISUB (R140): Subtracts two 32-bit integers modulo 2^32. -/
  | isub (d : Reg) (a : Reg) (b : Reg)
  /-- IMUL (R140): Writes the low 32 bits of the product. -/
  | imul (d : Reg) (a : Reg) (b : Reg)
  /-- IMULHI_I32 (R140): Writes the high 32 bits of the signed product. -/
  | imulhiI32 (d : Reg) (a : Reg) (b : Reg)
  /-- IMULHI_UI32 (R140): Writes the high 32 bits of the unsigned product. -/
  | imulhiUi32 (d : Reg) (a : Reg) (b : Reg)
  /-- IMIN_I32 (R140): Writes the signed minimum. -/
  | iminI32 (d : Reg) (a : Reg) (b : Reg)
  /-- IMIN_UI32 (R140): Writes the unsigned minimum. -/
  | iminUi32 (d : Reg) (a : Reg) (b : Reg)
  /-- IMAX_I32 (R140): Writes the signed maximum. -/
  | imaxI32 (d : Reg) (a : Reg) (b : Reg)
  /-- IMAX_UI32 (R140): Writes the unsigned maximum. -/
  | imaxUi32 (d : Reg) (a : Reg) (b : Reg)
  /-- AND (R140): Writes the bitwise AND. -/
  | andR (d : Reg) (a : Reg) (b : Reg)
  /-- OR (R140): Writes the bitwise OR. -/
  | orR (d : Reg) (a : Reg) (b : Reg)
  /-- XOR (R140): Writes the bitwise XOR. -/
  | xorR (d : Reg) (a : Reg) (b : Reg)
  /-- SHL (R140): Shifts left by the low five bits of B. -/
  | shl (d : Reg) (a : Reg) (b : Reg)
  /-- SHR (R140): Shifts right logically by the low five bits of B. -/
  | shr (d : Reg) (a : Reg) (b : Reg)
  /-- SAR (R140): Shifts right arithmetically by the low five bits of B. -/
  | sar (d : Reg) (a : Reg) (b : Reg)
  /-- ROT (R140): Rotates left by the low five bits of B. -/
  | rot (d : Reg) (a : Reg) (b : Reg)
  /-- MOV (R141): Copies a register's bits. -/
  | mov (d : Reg) (a : Reg)
  /-- NOT (R141): Writes the bitwise complement. -/
  | notR (d : Reg) (a : Reg)
  /-- INEG (R141): Writes the wrapped negation. -/
  | ineg (d : Reg) (a : Reg)
  /-- IABS (R141): Writes the wrapped absolute value of a signed integer. -/
  | iabs (d : Reg) (a : Reg)
  /-- CLZ (R141): Counts the leading zero bits. -/
  | clz (d : Reg) (a : Reg)
  /-- POPC (R141): Counts the one bits. -/
  | popc (d : Reg) (a : Reg)
  /-- BREV (R141): Reverses the bit order. -/
  | brev (d : Reg) (a : Reg)
  /-- IADDSAT_I32 (R142): Adds with signed saturation. -/
  | iaddsatI32 (d : Reg) (a : Reg) (b : Reg)
  /-- ISUBSAT_I32 (R142): Subtracts with signed saturation. -/
  | isubsatI32 (d : Reg) (a : Reg) (b : Reg)
  /-- IADDSAT_UI32 (R142): Adds with unsigned saturation. -/
  | iaddsatUi32 (d : Reg) (a : Reg) (b : Reg)
  /-- IAMINI (R143): Writes the signed minimum of d and a plus a sign-extended immediate. -/
  | iamini (d : Reg) (a : Reg) (imm : BitVec 8)
  /-- IADDI (R144): Adds a sign-extended 8-bit immediate. -/
  | iaddi (d : Reg) (a : Reg) (imm : BitVec 8)
  /-- ANDI (R144): ANDs with a zero-extended 8-bit immediate. -/
  | andi (d : Reg) (a : Reg) (imm : BitVec 8)
  /-- ORI (R144): ORs with a zero-extended 8-bit immediate. -/
  | ori (d : Reg) (a : Reg) (imm : BitVec 8)
  /-- XORI (R144): XORs with a zero-extended 8-bit immediate. -/
  | xori (d : Reg) (a : Reg) (imm : BitVec 8)
  /-- SHLI (R144): Shifts left by an immediate count. -/
  | shli (d : Reg) (a : Reg) (imm : BitVec 8)
  /-- SHRI (R144): Shifts right logically by an immediate count. -/
  | shri (d : Reg) (a : Reg) (imm : BitVec 8)
  /-- SARI (R144): Shifts right arithmetically by an immediate count. -/
  | sari (d : Reg) (a : Reg) (imm : BitVec 8)
  /-- ROTI (R144): Rotates left by an immediate count. -/
  | roti (d : Reg) (a : Reg) (imm : BitVec 8)
  /-- MOVI (R144): Writes a sign-extended 16-bit immediate. -/
  | movi (d : Reg) (imm : BitVec 16)
  /-- MOVHI (R144): Writes imm16 into the upper half of d and keeps d's lower half. -/
  | movhi (d : Reg) (imm : BitVec 16)
  /-- IMULI (R144): Multiplies by a sign-extended 8-bit immediate. -/
  | imuli (d : Reg) (a : Reg) (imm : BitVec 8)
  /-- FADD (R146): Adds fp32 values, rounding by sr.rmode. -/
  | fadd (d : Reg) (a : Reg) (b : Reg)
  /-- FSUB (R146): Subtracts fp32 values, rounding by sr.rmode. -/
  | fsub (d : Reg) (a : Reg) (b : Reg)
  /-- FMUL (R146): Multiplies fp32 values, rounding by sr.rmode. -/
  | fmul (d : Reg) (a : Reg) (b : Reg)
  /-- FMIN (R146): Writes the minimumNumber of two fp32 values. -/
  | fmin (d : Reg) (a : Reg) (b : Reg)
  /-- FMAX (R146): Writes the maximumNumber of two fp32 values. -/
  | fmax (d : Reg) (a : Reg) (b : Reg)
  /-- FABS (R147): Clears the sign bit. -/
  | fabs (d : Reg) (a : Reg)
  /-- FNEG (R147): Inverts the sign bit. -/
  | fneg (d : Reg) (a : Reg)
  /-- FRCP (R147): Writes the correctly rounded reciprocal under sr.rmode. -/
  | frcp (d : Reg) (a : Reg)
  /-- FRSQ (R147): Writes the reciprocal square root, rounded to nearest even. -/
  | frsq (d : Reg) (a : Reg)
  /-- FSQRT (R147): Writes the correctly rounded square root under sr.rmode. -/
  | fsqrt (d : Reg) (a : Reg)
  /-- FEXP2 (R147): Writes 2^x, rounded to nearest even. -/
  | fexp2 (d : Reg) (a : Reg)
  /-- FLOG2 (R147): Writes log2 x, rounded to nearest even. -/
  | flog2 (d : Reg) (a : Reg)
  /-- FSIN (R147): Writes sin(2πx) with x in turns, rounded to nearest even. -/
  | fsin (d : Reg) (a : Reg)
  /-- FCOS (R147): Writes cos(2πx) with x in turns, rounded to nearest even. -/
  | fcos (d : Reg) (a : Reg)
  /-- FRND (R148): Rounds an fp32 value to an integral value in the direction that the mode selects. -/
  | frnd (d : Reg) (a : Reg) (mode : BitVec 8)
  /-- FCLASS (R149): Writes a one-hot class mask of an fp32 value. -/
  | fclass (d : Reg) (a : Reg)
  /-- HADD_F16 (R150): Adds packed fp16 pairs. -/
  | haddF16 (d : Reg) (a : Reg) (b : Reg)
  /-- HMUL_F16 (R150): Multiplies packed fp16 pairs. -/
  | hmulF16 (d : Reg) (a : Reg) (b : Reg)
  /-- HMIN_F16 (R150): Writes the minimumNumber of packed fp16 pairs. -/
  | hminF16 (d : Reg) (a : Reg) (b : Reg)
  /-- HMAX_F16 (R150): Writes the maximumNumber of packed fp16 pairs. -/
  | hmaxF16 (d : Reg) (a : Reg) (b : Reg)
  /-- HADD_BF16 (R150): Adds packed bf16 pairs. -/
  | haddBf16 (d : Reg) (a : Reg) (b : Reg)
  /-- HMUL_BF16 (R150): Multiplies packed bf16 pairs. -/
  | hmulBf16 (d : Reg) (a : Reg) (b : Reg)
  /-- HMIN_BF16 (R150): Writes the minimumNumber of packed bf16 pairs. -/
  | hminBf16 (d : Reg) (a : Reg) (b : Reg)
  /-- HMAX_BF16 (R150): Writes the maximumNumber of packed bf16 pairs. -/
  | hmaxBf16 (d : Reg) (a : Reg) (b : Reg)
  /-- ICMP_I32 (R157): Sets a predicate per lane from a signed integer comparison. -/
  | icmpI32 (pd : BitVec 4) (cond : BitVec 4) (a : Reg) (b : Reg)
  /-- ICMP_UI32 (R157): Sets a predicate per lane from an unsigned integer comparison. -/
  | icmpUi32 (pd : BitVec 4) (cond : BitVec 4) (a : Reg) (b : Reg)
  /-- FCMP (R157): Sets a predicate per lane from an fp32 comparison. -/
  | fcmp (pd : BitVec 4) (cond : BitVec 4) (a : Reg) (b : Reg)
  /-- PLOP (R132): Combines two predicates through a 4-bit truth table. -/
  | plop (pd : BitVec 4) (tt : BitVec 4) (pa : BitVec 4) (pb : BitVec 4)
  /-- PTOV (R133): Writes 1 or 0 per lane from a predicate. -/
  | ptov (d : Reg) (pa : BitVec 4)
  /-- VTOP (R133): Sets a predicate where a register is nonzero. -/
  | vtop (pd : BitVec 4) (a : Reg)
  /-- QSWZ (R160): Permutes a register within each quad according to a pattern. -/
  | qswz (d : Reg) (a : Reg) (imm : BitVec 8)
  /-- QBC (R160): Broadcasts one lane of each quad to the quad. -/
  | qbc (d : Reg) (a : Reg) (imm : BitVec 8)
  /-- LSHUP (R161): Shifts a register up across lanes by n, keeping d in vacated lanes. -/
  | lshup (d : Reg) (a : Reg) (imm : BitVec 8)
  /-- LSHDN (R161): Shifts a register down across lanes by n, keeping d in vacated lanes. -/
  | lshdn (d : Reg) (a : Reg) (imm : BitVec 8)
  /-- LSHFX (R161): Reads a register from the lane that each lane's index names. -/
  | lshfx (d : Reg) (a : Reg) (b : Reg)
  /-- GBAL (R163): Writes a 64-bit predicate ballot into a pair of scalars. -/
  | gbal (d : Reg) (pa : BitVec 4)
  /-- GREDI_ADD (R164): Writes the wrapped integer sum over the group. -/
  | grediAdd (d : Reg) (a : Reg)
  /-- GREDI_MIN (R164): Writes the signed minimum over the group. -/
  | grediMin (d : Reg) (a : Reg)
  /-- GREDI_MAX (R164): Writes the signed maximum over the group. -/
  | grediMax (d : Reg) (a : Reg)
  /-- GREDF_ADD (R165): Sums fp32 values over a fixed pairwise tree. -/
  | gredfAdd (d : Reg) (a : Reg)
  /-- GSCAN_ADD (R164): Writes the inclusive prefix sum over the group. -/
  | gscanAdd (d : Reg) (a : Reg)
  /-- RDLANE (R162): Reads one lane's register into a scalar or into every lane. -/
  | rdlane (d : Reg) (a : Reg) (imm : BitVec 8)
  /-- WRLANE (R162): Writes a scalar into one lane of a vector register. -/
  | wrlane (d : Reg) (a : Reg) (imm : BitVec 8)
  /-- GANY (R166): Sets a predicate true when any non-helper lane of Exec has it. -/
  | gany (pd : BitVec 4) (pa : BitVec 4)
  /-- GALL (R166): Sets a predicate true when every non-helper lane of Exec has it. -/
  | gall (pd : BitVec 4) (pa : BitVec 4)
  /-- XSET (R135): Sets an index register's base and length and clears its cursor. -/
  | xset (x : BitVec 3) (base : BitVec 8) (len : BitVec 8)
  /-- XINC (R135): Adds a signed increment to an index register's cursor. -/
  | xinc (x : BitVec 3) (imm : BitVec 8)
  /-- MOVXR (R136): Reads the vector register that each lane's index register selects, with a bounds check. -/
  | movxr (d : Reg) (x : BitVec 3) (imm : BitVec 8)
  /-- MOVXW (R136): Writes the vector register that each lane's index register selects, with a bounds check. -/
  | movxw (a : Reg) (x : BitVec 3) (imm : BitVec 8)
  /-- XRD (R136): Copies an index register into a vector register. -/
  | xrd (d : Reg) (x : BitVec 3)
  /-- LD (R204): Issues lane loads through a buffer record and marks the destination pending. -/
  | ld (d : Reg) (b : BitVec 5) (sz : MemSize) (vi : Reg)
  /-- ST (R204): Issues lane stores through a buffer record into the store-forwarding queue. -/
  | st (d : Reg) (b : BitVec 5) (sz : MemSize) (vi : Reg)
  /-- LDS (R176): Loads a core-scratchpad word per lane, with alignment and bounds checks. -/
  | lds (d : Reg) (a : Reg) (imm : BitVec 8)
  /-- STS (R176): Stores a core-scratchpad word per lane, the highest lane winning a shared word. -/
  | sts (d : Reg) (a : Reg) (imm : BitVec 8)
  /-- SLD (R204): Loads the element at a fixed index once for the group into a scalar. -/
  | sld (d : Reg) (b : BitVec 5) (sz : MemSize) (n : BitVec 8)
  /-- BSET (R206): Copies four scalars into a buffer record. -/
  | bset (a : Reg) (b : BitVec 5)
  /-- BGET (R206): Copies a buffer record into four scalars. -/
  | bget (d : Reg) (b : BitVec 5)
  /-- FENCE (R252): Holds the group until its earlier accesses are performed at the scope, or its earlier reads have returned, as the order requires. -/
  | fence (ord : Order) (scope : Scope)
  /-- TFENCE (R207): Waits for the group's stores to be acknowledged, then invalidates the job's extent caches and held descriptors. -/
  | tfence (scope : Scope)
  /-- BARA (R341): Releases at the barrier's scope, arrives at the barrier and returns a token. -/
  | bara (d : Reg) (bar : BarName)
  /-- BARW (R342): Holds the group until its arrival record of the token's generation clears, then acquires. -/
  | barw (a : Reg) (bar : BarName)
  /-- BARS (R343): Arrives at a barrier and waits for its release. -/
  | bars (bar : BarName)
  /-- BAREXP (R344): Adds a signed value to the barrier's expected byte count and evaluates the barrier. -/
  | barexp (a : Reg) (bar : BarName)
  /-- CTXNEW (R236): Creates a child context of the current tag, waiting for budget and a pool tag. -/
  | ctxnew (d : Reg)
  /-- CTXTRY (R236): Creates a child context when one is available at once, and otherwise reports failure. -/
  | ctxtry (d : Reg) (pd : BitVec 4)
  /-- CONTEXT_TAG_REGISTER (R236): Gives a waiting CTXNEW a pool tag once budget and pool allow it, registers the tag at the Sheepdog and writes sd. -/
  | contextTagRegister (g : Nat)
  /-- CTXSET (R237): Sets sr.ctag to a tag that is 0 or live in the job. -/
  | ctxset (a : Reg)
  /-- CTXRET_COMMIT (R238): Waits for the group's stores and copies, then begins committing a context into its parent. -/
  | ctxretCommit (d : Reg) (a : Reg)
  /-- CTXRET_DROP (R238): Waits for the group's stores and copies, then begins dropping a context. -/
  | ctxretDrop (d : Reg) (a : Reg)
  /-- CTXQ (R239): Returns a tag's state, depth and cell count. -/
  | ctxq (d : Reg) (a : Reg)
  /-- ACCCLR (R303): Queues a matrix-engine command that zeroes a tile. -/
  | accclr (acc : BitVec 9)
  /-- ACCREL (R303): Queues a matrix-engine command that discards a tile and gives up its ownership. -/
  | accrel (acc : BitVec 9)
  /-- CVT (R83): Converts between element formats by a conversion code. -/
  | cvt (d : Reg) (a : Reg) (code : BitVec 8)
  /-- PKH (R158): Narrows a register pair into packed 16-bit halves. -/
  | pkh (d : Reg) (a : Reg) (fmt : BitVec 8)
  /-- UPKH (R158): Widens packed 16-bit halves into a register pair. -/
  | upkh (d : Reg) (a : Reg) (fmt : BitVec 8)
  /-- QW (R276): Appends a word to a queue register's port buffer, and the eighth word issues a raw command. -/
  | qw (q : BitVec 4) (a : Reg)
  /-- QR (R276): Claims the next completion-queue word, leaving sd pending until it is present. -/
  | qr (q : BitVec 4) (d : Reg)
  /-- QTRY (R276): Takes the next completion-queue word if one is present and sets a predicate. -/
  | qtry (pd : BitVec 4) (q : BitVec 4) (d : Reg)
  /-- SGRET (R323): Merges recovered results into the originating lanes, or compares a shadow, then exits the lane. -/
  | sgret (a : Reg)
  /-- SGSTAT (R326): Reads one counter or property of a surrogate slot. -/
  | sgstat (d : Reg) (slot : BitVec 6) (code : BitVec 4)
  /-- BOOST (R408): Records or refuses the group's boost claim and returns a status. -/
  | boost (d : Reg) (imm : BitVec 16)
  /-- BOOSTREL (R408): Ends the group's boost claim. -/
  | boostrel
  /-- FFMA_F32 (R152): Writes fp32 A × B + C, rounded once. -/
  | ffmaF32 (d : Reg) (a : Reg) (b : Reg) (c : Reg)
  /-- HFMA_F16 (R152): Writes the packed fp16 fused multiply-add of each half. -/
  | hfmaF16 (d : Reg) (a : Reg) (b : Reg) (c : Reg)
  /-- HFMA_BF16 (R152): Writes the packed bf16 fused multiply-add of each half. -/
  | hfmaBf16 (d : Reg) (a : Reg) (b : Reg) (c : Reg)
  /-- IMAD (R152): Writes the wrapped integer A × B + C. -/
  | imad (d : Reg) (a : Reg) (b : Reg) (c : Reg)
  /-- SEL (R153): Selects a or b per lane by a predicate. -/
  | sel (d : Reg) (a : Reg) (b : Reg) (p : BitVec 4)
  /-- BFE (R154): Extracts a bit field, zero- or sign-extended. -/
  | bfe (d : Reg) (a : Reg) (sgn : Bool) (pos : BitVec 5) (len : BitVec 8)
  /-- BFI (R154): Inserts a bit field of A into B. -/
  | bfi (d : Reg) (a : Reg) (b : Reg) (pos : BitVec 5) (len : BitVec 8)
  /-- IAMIN (R143): Writes the signed minimum of a and b + c. -/
  | iamin (d : Reg) (a : Reg) (b : Reg) (c : Reg)
  /-- LOGT (R155): Applies a three-input truth table to every bit position. -/
  | logt (d : Reg) (a : Reg) (b : Reg) (c : Reg) (tt : BitVec 8)
  /-- DOT4_I8 (R156): Adds the dot product of four signed byte pairs to C. -/
  | dot4I8 (d : Reg) (a : Reg) (b : Reg) (c : Reg)
  /-- SPCMP (R295): Keeps the four largest of eight bytes and writes their 4-in-8 metadata. -/
  | spcmp (d : Reg) (a : Reg) (c : Reg) (fmt : SpFmt) (half : Bool)
  /-- IADDK (R145): Adds a 32-bit immediate. -/
  | iaddk (d : Reg) (a : Reg) (k : BitVec 32)
  /-- MOVK (R145): Writes a 32-bit immediate. -/
  | movk (d : Reg) (k : BitVec 32)
  /-- ANDK (R145): ANDs with a 32-bit immediate. -/
  | andk (d : Reg) (a : Reg) (k : BitVec 32)
  /-- ORK (R145): ORs with a 32-bit immediate. -/
  | ork (d : Reg) (a : Reg) (k : BitVec 32)
  /-- FADDK (R145): Adds an fp32 immediate as FADD does. -/
  | faddk (d : Reg) (a : Reg) (k : BitVec 32)
  /-- FMULK (R145): Multiplies by an fp32 immediate as FMUL does. -/
  | fmulk (d : Reg) (a : Reg) (k : BitVec 32)
  /-- LDL (R204): Issues lane loads with a 24-bit signed byte offset. -/
  | ldl (d : Reg) (b : BitVec 5) (sz : MemSize) (vi : Reg) (off : BitVec 24)
  /-- STL (R204): Issues lane stores with a 24-bit signed byte offset. -/
  | stl (d : Reg) (b : BitVec 5) (sz : MemSize) (vi : Reg) (off : BitVec 24)
  /-- LDX (R240): Loads in the context that a scalar's tag names, resolving each byte through its parent chain. -/
  | ldx (d : Reg) (b : BitVec 5) (sz : MemSize) (vi : Reg) (k : BitVec 6) (off : BitVec 18)
  /-- ATOM (R205): Issues per-lane atomics at their homes, returning the old values. -/
  | atom (d : Reg) (b : BitVec 5) (vi : Reg) (op : AtomOp) (ord : Order) (ty : AtomTy) (scope : Scope) (val : Reg)
  /-- RED (R205): Issues per-lane reductions at their homes without a return value. -/
  | red (b : BitVec 5) (vi : Reg) (op : AtomOp) (ord : Order) (ty : AtomTy) (scope : Scope) (val : Reg)
  /-- ATOMS (R179): Performs per-lane atomics on core-scratchpad words in ascending lane order. -/
  | atoms (d : Reg) (vi : Reg) (op : AtomOp) (ord : Order) (ty : AtomTy) (scope : Scope) (val : Reg)
  /-- TCOPY_LD (R263): Checks and queues a copy of a tensor box into a scratchpad image. -/
  | tcopyLd (d : Reg) (a : Reg) (b : Reg) (lvl : Level) (post : Option BarName) (n : BitVec 3) (sswz : BitVec 4)
  /-- TCOPY_ST (R263): Checks and queues a copy of a scratchpad image into a tensor box. -/
  | tcopySt (d : Reg) (a : Reg) (b : Reg) (lvl : Level) (post : Option BarName) (n : BitVec 3) (sswz : BitVec 4)
  /-- TCOPYI_PACK (R268): Checks and queues a copy of an image into a channel-interleaved tensor. -/
  | tcopyiPack (d : Reg) (a : Reg) (b : Reg) (lvl : Level) (post : Option BarName) (n : BitVec 3) (sswz : BitVec 4)
  /-- TCOPYI_UNPACK (R268): Checks and queues a copy of a channel-interleaved tensor into an image. -/
  | tcopyiUnpack (d : Reg) (a : Reg) (b : Reg) (lvl : Level) (post : Option BarName) (n : BitVec 3) (sswz : BitVec 4)
  /-- TMOV (R182): Checks and queues a move of 64-byte lines between scratchpad levels. -/
  | tmov (d : Reg) (a : Reg) (src : Level) (dst : Level) (post : Option BarName)
  /-- MMA (R291): Checks and queues a matrix multiply-accumulate into a tile. -/
  | mma (accLo : BitVec 8) (a : Reg) (b : Reg) (accHi : BitVec 1) (ru : Bool) (zf : Bool) (fmt : MmaFmt) (kb : BitVec 8)
  /-- MMA_SP (R293): Checks and queues a 4-in-8 sparse matrix multiply-accumulate into a tile. -/
  | mmaSp (accLo : BitVec 8) (a : Reg) (b : Reg) (accHi : BitVec 1) (ru : Bool) (zf : Bool) (fmt : MmaFmt) (m : Reg) (kb : BitVec 8)
  /-- ACCLD (R301): Queues a load of tile rows from the core scratchpad. -/
  | accld (a : Reg) (b : Reg) (fmt : TileFmt) (rows : BitVec 6) (acc : BitVec 9)
  /-- ACCST (R301): Queues a store of tile rows to the core scratchpad. -/
  | accst (a : Reg) (b : Reg) (fmt : TileFmt) (rows : BitVec 6) (acc : BitVec 9)
  /-- ACCRD (R298): Queues a read of eight tile columns into registers. -/
  | accrd (d : Reg) (cv : AccCv) (cg : BitVec 3) (acc : BitVec 9)
  /-- ACCWR (R298): Queues a write of registers into eight tile columns. -/
  | accwr (d : Reg) (cv : AccCv) (cg : BitVec 3) (acc : BitVec 9)
  /-- SGCALL (R317): Reserves recovery entries, captures the arguments and marks results and predicate pending for a surrogate call. -/
  | sgcall (d : Reg) (a : Reg) (slot : BitVec 6) (pd : BitVec 4)
  /-- SGLOAD_LOAD (R329): Queues the load of a region image from the core scratchpad into a slot. -/
  | sgloadLoad (d : Reg) (a : Reg) (slot : BitVec 6)
  /-- SGLOAD_QUAL (R329): Queues the replacement of a slot's quality register. -/
  | sgloadQual (d : Reg) (a : Reg) (slot : BitVec 6)
  /-- SGLOAD_REL (R329): Queues the emptying of a slot. -/
  | sgloadRel (d : Reg) (slot : BitVec 6)
  /-- SGLOAD_CLR (R329): Queues the clearing of a slot's counters. -/
  | sgloadClr (d : Reg) (slot : BitVec 6)
  /-- TDVIEW (R208): Writes a child descriptor as a view of a parent and returns a status. -/
  | tdview (d : Reg) (a : Reg) (ro : Bool)
  /-- COLL (R428): Checks and queues a collective operation on a communicator. -/
  | coll (d : Reg) (a : Reg) (op : CollOp) (ty : BitVec 2)
  /-- BPSET (R368): Sets or clears a breakpoint comparator of the job. -/
  | bpset (d : Reg) (a : Reg) (k : BitVec 3)
  /-- WPSET (R369): Translates a watched range and sets or clears a watchpoint unit of the core. -/
  | wpset (d : Reg) (a : Reg) (k : BitVec 2)
  /-- STEP_ARM (R372): Arms a one-shot single step on a target group. -/
  | stepArm (d : Reg) (a : Reg)
  /-- STEP_OFF (R372): Disarms single step on a target group. -/
  | stepOff (d : Reg) (a : Reg)
  /-- DBRD (R373): Reads an item of a target group's state by a debug selector. -/
  | dbrd (d : Reg) (a : Reg)
  /-- DBWR (R373): Writes an item of a target group's state by a debug selector. -/
  | dbwr (d : Reg) (a : Reg) (b : Reg)
  /-- BARRD (R374): Reads a word of a barrier state record. -/
  | barrd (d : Reg) (a : Reg)
  /-- BARWR (R374): Writes permitted fields of a barrier state record and evaluates the barrier. -/
  | barwr (d : Reg) (a : Reg) (b : Reg)
  /-- CLAUSE_ISSUE (R89): Chooses the group's issue address once thresholds and stall are met, checks the header, evaluates the guard and ages lanes. -/
  | clauseIssue (g : Nat)
  /-- ACTIVE_SET_ENTER (R122): Admits a ready held group to a free place in the slice's active set. -/
  | activeSetEnter (g : Nat)
  /-- ACTIVE_SET_LEAVE (R122): Removes a group that has been not ready for 256 slice cycles while a ready group waits outside. -/
  | activeSetLeave (g : Nat)
  /-- GROUP_ADMIT (R117): Admits a placed group to a residency place, held or swapped. -/
  | groupAdmit (g : Nat)
  /-- SWAP_OUT (R119): Moves a stalled group's registers to the swap reserve. -/
  | swapOut (g : Nat)
  /-- SWAP_IN (R119): Moves a ready swapped group's registers back into the files. -/
  | swapIn (g : Nat)
  /-- GROUP_FREE (R107): Frees a completed group's registers and residency once its counters are zero and no register is pending. -/
  | groupFree (g : Nat)
  /-- LOAD_RETURN (R243): Lands a load's or atomic's value in its registers, clears pending bits and decrements LD in issue order. -/
  | loadReturn (op : Nat) (line : Nat)
  /-- LINE_ARRIVE_HOME (R249): Places a store line at its home's coherence order, through the Kennel for tagged objects, and acknowledges it. -/
  | lineArriveHome (line : Nat)
  /-- ATOMIC_PERFORM (R205): Performs an atomic or reduction at its home as one indivisible step. -/
  | atomicPerform (op : Nat) (lane : Nat)
  /-- CELL_WAIT_GRANT (R227): Gives a write waiting at its home a cell once a retirement frees one. -/
  | cellWaitGrant (w : Nat)
  /-- TABLE_WALK (R197): Reads the object-table and extent-list entries for a missed extent and fills the extent cache. -/
  | tableWalk (die : Nat) (job : Nat) (obj : Nat) (ext : Nat)
  /-- METERING_WINDOW (R400): Starts a 1 µs metering window, renews the clusters' line budgets and grants waiting lines. -/
  | meteringWindow
  /-- COPY_START (R264): Starts a queued copy command, reading its descriptor and checking it. -/
  | copyStart (c : Nat)
  /-- COPY_LINE (R269): Completes one image line of a copy, all or nothing, in forward order. -/
  | copyLine (c : Nat)
  /-- COPY_COMPLETE (R272): Performs a copy's writes, posts its bytes, writes its status or completion record and decrements CP. -/
  | copyComplete (c : Nat)
  /-- MATRIX_COMMAND_EXECUTE (R285): Runs an accepted matrix-engine command on its tile in acceptance order and decrements TL. -/
  | matrixCommandExecute (core : Nat)
  /-- SURROGATE_EVALUATE (R318): Evaluates a call on one slot state, writes accepted lanes and enqueues fallbacks and shadows. -/
  | surrogateEvaluate (call : Nat) (timing : BitVec 64)
  /-- SGLOAD_COMPLETE (R330): Finishes a slot operation, writes its status and decrements SG. -/
  | sgloadComplete (op : Nat)
  /-- RECOVERY_GROUP_FORM (R321): Gathers queued entries of one key into a width-64 recovery group and places it. -/
  | recoveryGroupForm (core : Nat) (slice : Nat)
  /-- RETIRE_GRANULE (R229): Merges or frees one cell of a retiring context at its granule's home. -/
  | retireGranule (tag : Nat) (obj : Nat) (gran : Nat)
  /-- CONTEXT_RETIRE_COMPLETE (R231): Frees the tag, writes the CTXRET status word and decrements CL after the last granule. -/
  | contextRetireComplete (tag : Nat)
  /-- CONTEXT_STALL_TIMEOUT (R228): Ends a job's stalled launches after every unfinished group has been stalled on contexts for 100 µs. -/
  | contextStallTimeout (job : Nat)
  /-- BARRIER_PHASE_RELEASE (R350): Clears a core's arrival records of the released generation at its phase time. -/
  | barrierPhaseRelease (bar : BarId) (core : Nat)
  /-- RELEASE_WINDOW_END (R351): Ends a release window and completes any held generation. -/
  | releaseWindowEnd (bar : BarId)
  /-- TRAP_ENTRY (R357): Takes a save area, saves the top registers and trap record, sets lane state aside and starts the handler. -/
  | trapEntry (g : Nat)
  /-- WATCHPOINT_REPORT_DUE (R355): Delivers an undelivered imprecise report when its skid expires. -/
  | watchpointReportDue (g : Nat)
  /-- TIME_SLICE (R375): Stops, drains and saves a job for time-slice pre-emption. -/
  | timeSlice (job : Nat)
  /-- PREEMPT_DRAIN_TIMEOUT (R375): Saves each group as soon as its own operations drain once 50 µs have passed since the stop. -/
  | preemptDrainTimeout (job : Nat)
  /-- JOB_RESTORE (R376): Restores a time-sliced job with each block on the core it left. -/
  | jobRestore (job : Nat)
  /-- EVICT (R377): Freezes, drains and saves blocks on cores removed from a job's mask and requeues them. -/
  | evict (job : Nat) (cores : BitVec 128)
  /-- MIGRATE (R393): Freezes a block and moves it to another core of its cluster. -/
  | migrate (block : Nat) (core : Nat)
  /-- MIGRATION_ABANDON (R393): Abandons a migration whose counters have not drained within 50 µs. -/
  | migrationAbandon (block : Nat)
  /-- PLACE_BLOCKS (R391): Places released blocks of a gang on usable cores of a cluster. -/
  | placeBlocks (launch : Nat)
  /-- BLOCK_COMPLETION (R390): Reports a block's completion from a Pup to the Sheepdog. -/
  | blockCompletion (block : Nat)
  /-- TAG_POOL_REQUEST (R217): Asks the Sheepdog for 16 tags when a cluster pool falls below 8. -/
  | tagPoolRequest (cluster : Nat) (job : Nat)
  /-- TAG_POOL_GRANT (R217): Adds tags granted by the Sheepdog to a cluster pool. -/
  | tagPoolGrant (cluster : Nat) (job : Nat) (tags : List Nat)
  /-- STALL_REPORT (R228): Reports a group's stall on contexts from a Pup to the Sheepdog. -/
  | stallReport (g : Nat)
  /-- DISABLE_REPORT (R327): Reports a disabled surrogate id from a Pup to the Sheepdog. -/
  | disableReport (core : Nat) (sid : BitVec 32)
  /-- SURROGATE_DISABLE (R327): Disables every slot that holds a surrogate id on a core, between two evaluations. -/
  | surrogateDisable (core : Nat) (sid : BitVec 32)
  /-- TRAP_DISPATCH (R390): Carries a trap dispatch record from a Pup to the Sheepdog. -/
  | trapDispatch (g : Nat)
  /-- LAUNCH_COMPLETE (R220): Retires a launch's live tags and launch context after its last block and reports the launch complete. -/
  | launchComplete (launch : Nat)
  /-- BUNDLE_FETCH (R379): Reads a submission-queue entry up to the write pointer and advances the read pointer. -/
  | bundleFetch (port : Nat) (q : Nat)
  /-- BUNDLE_ADMIT (R387): Admits a ready bundle's launches, reserving code, leases, tags, barriers and maps, and starts its sub-launches. -/
  | bundleAdmit (bundle : Nat)
  /-- BUNDLE_RETIRE (R382): Performs a bundle's writes, writes its completion record, raises its vector and decrements or cancels its successors. -/
  | bundleRetire (bundle : Nat)
  /-- CODE_LOAD (R397): Rewrites and streams a kernel version into a cluster's code memory. -/
  | codeLoad (cluster : Nat) (launch : Nat) (base : Nat)
  /-- COPY_PROGRAM_RUN (R386): Runs a copy-program sub-launch's raw commands on the die copy engines. -/
  | copyProgramRun (bundle : Nat) (sub : Nat)
  /-- SURROGATE_LOAD_SUBLAUNCH (R386): Loads a region image into a slot on every core of the job's mask. -/
  | surrogateLoadSublaunch (bundle : Nat) (sub : Nat)
  /-- COLLECTIVE_SUBLAUNCH (R431): Runs a collective sub-launch record. -/
  | collectiveSublaunch (bundle : Nat) (sub : Nat)
  /-- COLLECTIVE_COMPLETE (R429): Performs a collective's writes at .dev, writes its status and decrements CL. -/
  | collectiveComplete (c : Nat) (peers : List PeerCmd) (fault : Nat)
  /-- BOOST_BOUNDARY (R404): Arbitrates boost places, spends and refills permits every 5 µs. -/
  | boostBoundary
  /-- SUSTAINED_POWER_LIMIT (R412): Lowers slice ceilings while the 1 ms power average exceeds 2,400 W without boost. -/
  | sustainedPowerLimit
  /-- EMERGENCY_POWER_LIMIT (R413): Drops boost and halves slice ceilings when the 10 µs average exceeds 2,900 W. -/
  | emergencyPowerLimit
  /-- SLICE_RATIO_CHANGE (R401): Changes a slice's clock ratio by one step at a slice-cycle boundary. -/
  | sliceRatioChange (core : Nat) (slice : Nat) (up : Bool)
  /-- SENSOR_SAMPLE (R411): Reads temperature, current and power sensors at their periods. -/
  | sensorSample (sensor : Sensor) (value : Int)
  /-- VOLTAGE_DROOP (R392): Records a droop event on a core. -/
  | voltageDroop (core : Nat)
  /-- CORE_AVOID (R392): Marks a core avoided on temperature or droop. -/
  | coreAvoid (core : Nat)
  /-- CORE_READMIT (R392): Readmits an avoided core once it has cooled and stayed free of droop for 1 ms. -/
  | coreReadmit (core : Nat)
  /-- WEAR_ACCUMULATE (R414): Adds the voltage- and temperature-weighted wear of each domain every 1 µs. -/
  | wearAccumulate
  /-- WEAR_REPORT_REFRESH (R416): Refreshes each domain's wear report every hour. -/
  | wearReportRefresh
  /-- RETENTION_ENTRY (R186): Moves an untouched scratchpad segment into low-voltage retention. -/
  | retentionEntry (arr : SramArray) (seg : Nat)
  /-- RETENTION_EXIT (R187): Brings a segment out of retention for an access. -/
  | retentionExit (arr : SramArray) (seg : Nat) (bad : List BadLoc)
  /-- HOST_LINK_DOWN (R418): Revokes the port's host leases, ends its jobs' launches and unregisters them. -/
  | hostLinkDown (port : Nat)
  /-- HOST_MEMORY_ACCESS (R419): Performs a BAR2 access to device memory in a frame of the port. -/
  | hostMemoryAccess (port : Nat) (addr : Nat) (len : Nat) (data : Option (List (BitVec 8)))
  /-- REGISTER_JOB (R421): Registers a job with its budget, capacity, tables, save area and queues. -/
  | registerJob (port : Nat)
  /-- UNREGISTER_JOB (R421): Cancels a job's launches and frees its queues, tags, cells, slots and id. -/
  | unregisterJob (port : Nat)
  /-- CLAIM_FRAMES (R421): Assigns HBM frames to the port. -/
  | claimFrames (port : Nat)
  /-- RELEASE_FRAMES (R421): Returns the port's HBM frames to neither port. -/
  | releaseFrames (port : Nat)
  /-- DEFINE_COMMUNICATOR (R421): Defines a job's communicator and its rank list. -/
  | defineCommunicator (port : Nat)
  /-- ATTEST (R435): Writes a signed attestation report with digests, wear and the nonce. -/
  | attest (port : Nat)
  /-- SQ_WRITE_POINTER (R379): Sets a submission queue's write pointer and lets the Sheepdog read entries up to it. -/
  | sqWritePointer (port : Nat) (q : Nat) (v : BitVec 32)
  /-- SQ_ENABLE (R422): Enables or disables a bound submission queue. -/
  | sqEnable (port : Nat) (q : Nat) (on : Bool)
  /-- REGISTER_WRITE (R422): Writes a host register that has no behaviour of its own. -/
  | registerWrite (port : Nat) (off : Nat) (v : BitVec 32)
  /-- GRANIALE_FLIT_RECEIVE (R424): Receives a flit, retrying it from the replay buffer on a CRC failure. -/
  | granialeFlitReceive (port : Nat) (flit : Flit) (crcOk : Bool)
  /-- LINK_WIDTH_CHANGE (R425): Sheds or restores a Graniale port's lanes without reordering ordered flits. -/
  | linkWidthChange (port : Nat) (lanes : Nat)
  /-- POWER_ON_RESET (R434): Verifies and starts the firmware and Sheepdog images, then opens the ports. -/
  | powerOnReset (fwOk : Bool) (shOk : Bool)
  /-- PEER_LOST (R429): A Graniale link or peer package is lost, so the collectives that depend on it complete with fault-link and the links-trained bit clears. -/
  | peerLost (pkg : Nat)
  /-- HOST_LINK_UP (R420): A PCI Express port's link comes up or its host becomes present, which sets the other port's peer bit. -/
  | hostLinkUp (port : Nat)
  deriving DecidableEq, Repr

/-- The events of the table: steps that no instruction word encodes. -/
def Instr.isEvent : Instr → Bool
  | .nop => false
  | .bra _ _ _ _ => false
  | .jmpx _ _ => false
  | .exitG => false
  | .enrol _ => false
  | .park _ => false
  | .strike _ => false
  | .yieldG => false
  | .waitC _ _ _ _ _ _ => false
  | .repeatN _ => false
  | .trapI _ => false
  | .bkpt _ => false
  | .sleepI _ => false
  | .sleepExpire _ => true
  | .srd _ _ => false
  | .swr _ _ => false
  | .tret => false
  | .illegalInstruction _ _ => true
  | .iadd _ _ _ => false
  | .isub _ _ _ => false
  | .imul _ _ _ => false
  | .imulhiI32 _ _ _ => false
  | .imulhiUi32 _ _ _ => false
  | .iminI32 _ _ _ => false
  | .iminUi32 _ _ _ => false
  | .imaxI32 _ _ _ => false
  | .imaxUi32 _ _ _ => false
  | .andR _ _ _ => false
  | .orR _ _ _ => false
  | .xorR _ _ _ => false
  | .shl _ _ _ => false
  | .shr _ _ _ => false
  | .sar _ _ _ => false
  | .rot _ _ _ => false
  | .mov _ _ => false
  | .notR _ _ => false
  | .ineg _ _ => false
  | .iabs _ _ => false
  | .clz _ _ => false
  | .popc _ _ => false
  | .brev _ _ => false
  | .iaddsatI32 _ _ _ => false
  | .isubsatI32 _ _ _ => false
  | .iaddsatUi32 _ _ _ => false
  | .iamini _ _ _ => false
  | .iaddi _ _ _ => false
  | .andi _ _ _ => false
  | .ori _ _ _ => false
  | .xori _ _ _ => false
  | .shli _ _ _ => false
  | .shri _ _ _ => false
  | .sari _ _ _ => false
  | .roti _ _ _ => false
  | .movi _ _ => false
  | .movhi _ _ => false
  | .imuli _ _ _ => false
  | .fadd _ _ _ => false
  | .fsub _ _ _ => false
  | .fmul _ _ _ => false
  | .fmin _ _ _ => false
  | .fmax _ _ _ => false
  | .fabs _ _ => false
  | .fneg _ _ => false
  | .frcp _ _ => false
  | .frsq _ _ => false
  | .fsqrt _ _ => false
  | .fexp2 _ _ => false
  | .flog2 _ _ => false
  | .fsin _ _ => false
  | .fcos _ _ => false
  | .frnd _ _ _ => false
  | .fclass _ _ => false
  | .haddF16 _ _ _ => false
  | .hmulF16 _ _ _ => false
  | .hminF16 _ _ _ => false
  | .hmaxF16 _ _ _ => false
  | .haddBf16 _ _ _ => false
  | .hmulBf16 _ _ _ => false
  | .hminBf16 _ _ _ => false
  | .hmaxBf16 _ _ _ => false
  | .icmpI32 _ _ _ _ => false
  | .icmpUi32 _ _ _ _ => false
  | .fcmp _ _ _ _ => false
  | .plop _ _ _ _ => false
  | .ptov _ _ => false
  | .vtop _ _ => false
  | .qswz _ _ _ => false
  | .qbc _ _ _ => false
  | .lshup _ _ _ => false
  | .lshdn _ _ _ => false
  | .lshfx _ _ _ => false
  | .gbal _ _ => false
  | .grediAdd _ _ => false
  | .grediMin _ _ => false
  | .grediMax _ _ => false
  | .gredfAdd _ _ => false
  | .gscanAdd _ _ => false
  | .rdlane _ _ _ => false
  | .wrlane _ _ _ => false
  | .gany _ _ => false
  | .gall _ _ => false
  | .xset _ _ _ => false
  | .xinc _ _ => false
  | .movxr _ _ _ => false
  | .movxw _ _ _ => false
  | .xrd _ _ => false
  | .ld _ _ _ _ => false
  | .st _ _ _ _ => false
  | .lds _ _ _ => false
  | .sts _ _ _ => false
  | .sld _ _ _ _ => false
  | .bset _ _ => false
  | .bget _ _ => false
  | .fence _ _ => false
  | .tfence _ => false
  | .bara _ _ => false
  | .barw _ _ => false
  | .bars _ => false
  | .barexp _ _ => false
  | .ctxnew _ => false
  | .ctxtry _ _ => false
  | .contextTagRegister _ => true
  | .ctxset _ => false
  | .ctxretCommit _ _ => false
  | .ctxretDrop _ _ => false
  | .ctxq _ _ => false
  | .accclr _ => false
  | .accrel _ => false
  | .cvt _ _ _ => false
  | .pkh _ _ _ => false
  | .upkh _ _ _ => false
  | .qw _ _ => false
  | .qr _ _ => false
  | .qtry _ _ _ => false
  | .sgret _ => false
  | .sgstat _ _ _ => false
  | .boost _ _ => false
  | .boostrel => false
  | .ffmaF32 _ _ _ _ => false
  | .hfmaF16 _ _ _ _ => false
  | .hfmaBf16 _ _ _ _ => false
  | .imad _ _ _ _ => false
  | .sel _ _ _ _ => false
  | .bfe _ _ _ _ _ => false
  | .bfi _ _ _ _ _ => false
  | .iamin _ _ _ _ => false
  | .logt _ _ _ _ _ => false
  | .dot4I8 _ _ _ _ => false
  | .spcmp _ _ _ _ _ => false
  | .iaddk _ _ _ => false
  | .movk _ _ => false
  | .andk _ _ _ => false
  | .ork _ _ _ => false
  | .faddk _ _ _ => false
  | .fmulk _ _ _ => false
  | .ldl _ _ _ _ _ => false
  | .stl _ _ _ _ _ => false
  | .ldx _ _ _ _ _ _ => false
  | .atom _ _ _ _ _ _ _ _ => false
  | .red _ _ _ _ _ _ _ => false
  | .atoms _ _ _ _ _ _ _ => false
  | .tcopyLd _ _ _ _ _ _ _ => false
  | .tcopySt _ _ _ _ _ _ _ => false
  | .tcopyiPack _ _ _ _ _ _ _ => false
  | .tcopyiUnpack _ _ _ _ _ _ _ => false
  | .tmov _ _ _ _ _ => false
  | .mma _ _ _ _ _ _ _ _ => false
  | .mmaSp _ _ _ _ _ _ _ _ _ => false
  | .accld _ _ _ _ _ => false
  | .accst _ _ _ _ _ => false
  | .accrd _ _ _ _ => false
  | .accwr _ _ _ _ => false
  | .sgcall _ _ _ _ => false
  | .sgloadLoad _ _ _ => false
  | .sgloadQual _ _ _ => false
  | .sgloadRel _ _ => false
  | .sgloadClr _ _ => false
  | .tdview _ _ _ => false
  | .coll _ _ _ _ => false
  | .bpset _ _ _ => false
  | .wpset _ _ _ => false
  | .stepArm _ _ => false
  | .stepOff _ _ => false
  | .dbrd _ _ => false
  | .dbwr _ _ _ => false
  | .barrd _ _ => false
  | .barwr _ _ _ => false
  | .clauseIssue _ => true
  | .activeSetEnter _ => true
  | .activeSetLeave _ => true
  | .groupAdmit _ => true
  | .swapOut _ => true
  | .swapIn _ => true
  | .groupFree _ => true
  | .loadReturn _ _ => true
  | .lineArriveHome _ => true
  | .atomicPerform _ _ => true
  | .cellWaitGrant _ => true
  | .tableWalk _ _ _ _ => true
  | .meteringWindow => true
  | .copyStart _ => true
  | .copyLine _ => true
  | .copyComplete _ => true
  | .matrixCommandExecute _ => true
  | .surrogateEvaluate _ _ => true
  | .sgloadComplete _ => true
  | .recoveryGroupForm _ _ => true
  | .retireGranule _ _ _ => true
  | .contextRetireComplete _ => true
  | .contextStallTimeout _ => true
  | .barrierPhaseRelease _ _ => true
  | .releaseWindowEnd _ => true
  | .trapEntry _ => true
  | .watchpointReportDue _ => true
  | .timeSlice _ => true
  | .preemptDrainTimeout _ => true
  | .jobRestore _ => true
  | .evict _ _ => true
  | .migrate _ _ => true
  | .migrationAbandon _ => true
  | .placeBlocks _ => true
  | .blockCompletion _ => true
  | .tagPoolRequest _ _ => true
  | .tagPoolGrant _ _ _ => true
  | .stallReport _ => true
  | .disableReport _ _ => true
  | .surrogateDisable _ _ => true
  | .trapDispatch _ => true
  | .launchComplete _ => true
  | .bundleFetch _ _ => true
  | .bundleAdmit _ => true
  | .bundleRetire _ => true
  | .codeLoad _ _ _ => true
  | .copyProgramRun _ _ => true
  | .surrogateLoadSublaunch _ _ => true
  | .collectiveSublaunch _ _ => true
  | .collectiveComplete _ _ _ => true
  | .boostBoundary => true
  | .sustainedPowerLimit => true
  | .emergencyPowerLimit => true
  | .sliceRatioChange _ _ _ => true
  | .sensorSample _ _ => true
  | .voltageDroop _ => true
  | .coreAvoid _ => true
  | .coreReadmit _ => true
  | .wearAccumulate => true
  | .wearReportRefresh => true
  | .retentionEntry _ _ => true
  | .retentionExit _ _ _ => true
  | .hostLinkDown _ => true
  | .hostMemoryAccess _ _ _ _ => true
  | .registerJob _ => true
  | .unregisterJob _ => true
  | .claimFrames _ => true
  | .releaseFrames _ => true
  | .defineCommunicator _ => true
  | .attest _ => true
  | .sqWritePointer _ _ _ => true
  | .sqEnable _ _ _ => true
  | .registerWrite _ _ _ => true
  | .granialeFlitReceive _ _ _ => true
  | .linkWidthChange _ _ => true
  | .powerOnReset _ _ => true
  | .peerLost _ => true
  | .hostLinkUp _ => true

/-- The clause class that admits the instruction (R27, R48, R49); an event has none. -/
def Instr.cls : Instr → Option ClauseClass
  | .nop => some .control
  | .bra _ _ _ _ => some .control
  | .jmpx _ _ => some .control
  | .exitG => some .control
  | .enrol _ => some .control
  | .park _ => some .control
  | .strike _ => some .control
  | .yieldG => some .control
  | .waitC _ _ _ _ _ _ => some .control
  | .repeatN _ => some .control
  | .trapI _ => some .control
  | .bkpt _ => some .control
  | .sleepI _ => some .control
  | .sleepExpire _ => none
  | .srd _ _ => some .control
  | .swr _ _ => some .control
  | .tret => some .control
  | .illegalInstruction _ _ => none
  | .iadd _ _ _ => some .alu
  | .isub _ _ _ => some .alu
  | .imul _ _ _ => some .alu
  | .imulhiI32 _ _ _ => some .alu
  | .imulhiUi32 _ _ _ => some .alu
  | .iminI32 _ _ _ => some .alu
  | .iminUi32 _ _ _ => some .alu
  | .imaxI32 _ _ _ => some .alu
  | .imaxUi32 _ _ _ => some .alu
  | .andR _ _ _ => some .alu
  | .orR _ _ _ => some .alu
  | .xorR _ _ _ => some .alu
  | .shl _ _ _ => some .alu
  | .shr _ _ _ => some .alu
  | .sar _ _ _ => some .alu
  | .rot _ _ _ => some .alu
  | .mov _ _ => some .alu
  | .notR _ _ => some .alu
  | .ineg _ _ => some .alu
  | .iabs _ _ => some .alu
  | .clz _ _ => some .alu
  | .popc _ _ => some .alu
  | .brev _ _ => some .alu
  | .iaddsatI32 _ _ _ => some .alu
  | .isubsatI32 _ _ _ => some .alu
  | .iaddsatUi32 _ _ _ => some .alu
  | .iamini _ _ _ => some .alu
  | .iaddi _ _ _ => some .alu
  | .andi _ _ _ => some .alu
  | .ori _ _ _ => some .alu
  | .xori _ _ _ => some .alu
  | .shli _ _ _ => some .alu
  | .shri _ _ _ => some .alu
  | .sari _ _ _ => some .alu
  | .roti _ _ _ => some .alu
  | .movi _ _ => some .alu
  | .movhi _ _ => some .alu
  | .imuli _ _ _ => some .alu
  | .fadd _ _ _ => some .alu
  | .fsub _ _ _ => some .alu
  | .fmul _ _ _ => some .alu
  | .fmin _ _ _ => some .alu
  | .fmax _ _ _ => some .alu
  | .fabs _ _ => some .alu
  | .fneg _ _ => some .alu
  | .frcp _ _ => some .alu
  | .frsq _ _ => some .alu
  | .fsqrt _ _ => some .alu
  | .fexp2 _ _ => some .alu
  | .flog2 _ _ => some .alu
  | .fsin _ _ => some .alu
  | .fcos _ _ => some .alu
  | .frnd _ _ _ => some .alu
  | .fclass _ _ => some .alu
  | .haddF16 _ _ _ => some .alu
  | .hmulF16 _ _ _ => some .alu
  | .hminF16 _ _ _ => some .alu
  | .hmaxF16 _ _ _ => some .alu
  | .haddBf16 _ _ _ => some .alu
  | .hmulBf16 _ _ _ => some .alu
  | .hminBf16 _ _ _ => some .alu
  | .hmaxBf16 _ _ _ => some .alu
  | .icmpI32 _ _ _ _ => some .alu
  | .icmpUi32 _ _ _ _ => some .alu
  | .fcmp _ _ _ _ => some .alu
  | .plop _ _ _ _ => some .alu
  | .ptov _ _ => some .alu
  | .vtop _ _ => some .alu
  | .qswz _ _ _ => some .alu
  | .qbc _ _ _ => some .alu
  | .lshup _ _ _ => some .alu
  | .lshdn _ _ _ => some .alu
  | .lshfx _ _ _ => some .alu
  | .gbal _ _ => some .alu
  | .grediAdd _ _ => some .alu
  | .grediMin _ _ => some .alu
  | .grediMax _ _ => some .alu
  | .gredfAdd _ _ => some .alu
  | .gscanAdd _ _ => some .alu
  | .rdlane _ _ _ => some .alu
  | .wrlane _ _ _ => some .alu
  | .gany _ _ => some .alu
  | .gall _ _ => some .alu
  | .xset _ _ _ => some .alu
  | .xinc _ _ => some .alu
  | .movxr _ _ _ => some .alu
  | .movxw _ _ _ => some .alu
  | .xrd _ _ => some .alu
  | .ld _ _ _ _ => some .memory
  | .st _ _ _ _ => some .memory
  | .lds _ _ _ => some .memory
  | .sts _ _ _ => some .memory
  | .sld _ _ _ _ => some .memory
  | .bset _ _ => some .memory
  | .bget _ _ => some .memory
  | .fence _ _ => some .memory
  | .tfence _ => some .memory
  | .bara _ _ => some .sync
  | .barw _ _ => some .sync
  | .bars _ => some .sync
  | .barexp _ _ => some .sync
  | .ctxnew _ => some .sync
  | .ctxtry _ _ => some .sync
  | .contextTagRegister _ => none
  | .ctxset _ => some .sync
  | .ctxretCommit _ _ => some .sync
  | .ctxretDrop _ _ => some .sync
  | .ctxq _ _ => some .sync
  | .accclr _ => some .async
  | .accrel _ => some .async
  | .cvt _ _ _ => some .alu
  | .pkh _ _ _ => some .alu
  | .upkh _ _ _ => some .alu
  | .qw _ _ => some .async
  | .qr _ _ => some .async
  | .qtry _ _ _ => some .async
  | .sgret _ => some .async
  | .sgstat _ _ _ => some .async
  | .boost _ _ => some .system
  | .boostrel => some .system
  | .ffmaF32 _ _ _ _ => some .alu
  | .hfmaF16 _ _ _ _ => some .alu
  | .hfmaBf16 _ _ _ _ => some .alu
  | .imad _ _ _ _ => some .alu
  | .sel _ _ _ _ => some .alu
  | .bfe _ _ _ _ _ => some .alu
  | .bfi _ _ _ _ _ => some .alu
  | .iamin _ _ _ _ => some .alu
  | .logt _ _ _ _ _ => some .alu
  | .dot4I8 _ _ _ _ => some .alu
  | .spcmp _ _ _ _ _ => some .alu
  | .iaddk _ _ _ => some .alu
  | .movk _ _ => some .alu
  | .andk _ _ _ => some .alu
  | .ork _ _ _ => some .alu
  | .faddk _ _ _ => some .alu
  | .fmulk _ _ _ => some .alu
  | .ldl _ _ _ _ _ => some .memory
  | .stl _ _ _ _ _ => some .memory
  | .ldx _ _ _ _ _ _ => some .memory
  | .atom _ _ _ _ _ _ _ _ => some .memory
  | .red _ _ _ _ _ _ _ => some .memory
  | .atoms _ _ _ _ _ _ _ => some .memory
  | .tcopyLd _ _ _ _ _ _ _ => some .async
  | .tcopySt _ _ _ _ _ _ _ => some .async
  | .tcopyiPack _ _ _ _ _ _ _ => some .async
  | .tcopyiUnpack _ _ _ _ _ _ _ => some .async
  | .tmov _ _ _ _ _ => some .async
  | .mma _ _ _ _ _ _ _ _ => some .async
  | .mmaSp _ _ _ _ _ _ _ _ _ => some .async
  | .accld _ _ _ _ _ => some .async
  | .accst _ _ _ _ _ => some .async
  | .accrd _ _ _ _ => some .async
  | .accwr _ _ _ _ => some .async
  | .sgcall _ _ _ _ => some .async
  | .sgloadLoad _ _ _ => some .async
  | .sgloadQual _ _ _ => some .async
  | .sgloadRel _ _ => some .async
  | .sgloadClr _ _ => some .async
  | .tdview _ _ _ => some .async
  | .coll _ _ _ _ => some .async
  | .bpset _ _ _ => some .system
  | .wpset _ _ _ => some .system
  | .stepArm _ _ => some .system
  | .stepOff _ _ => some .system
  | .dbrd _ _ => some .system
  | .dbwr _ _ _ => some .system
  | .barrd _ _ => some .system
  | .barwr _ _ _ => some .system
  | .clauseIssue _ => none
  | .activeSetEnter _ => none
  | .activeSetLeave _ => none
  | .groupAdmit _ => none
  | .swapOut _ => none
  | .swapIn _ => none
  | .groupFree _ => none
  | .loadReturn _ _ => none
  | .lineArriveHome _ => none
  | .atomicPerform _ _ => none
  | .cellWaitGrant _ => none
  | .tableWalk _ _ _ _ => none
  | .meteringWindow => none
  | .copyStart _ => none
  | .copyLine _ => none
  | .copyComplete _ => none
  | .matrixCommandExecute _ => none
  | .surrogateEvaluate _ _ => none
  | .sgloadComplete _ => none
  | .recoveryGroupForm _ _ => none
  | .retireGranule _ _ _ => none
  | .contextRetireComplete _ => none
  | .contextStallTimeout _ => none
  | .barrierPhaseRelease _ _ => none
  | .releaseWindowEnd _ => none
  | .trapEntry _ => none
  | .watchpointReportDue _ => none
  | .timeSlice _ => none
  | .preemptDrainTimeout _ => none
  | .jobRestore _ => none
  | .evict _ _ => none
  | .migrate _ _ => none
  | .migrationAbandon _ => none
  | .placeBlocks _ => none
  | .blockCompletion _ => none
  | .tagPoolRequest _ _ => none
  | .tagPoolGrant _ _ _ => none
  | .stallReport _ => none
  | .disableReport _ _ => none
  | .surrogateDisable _ _ => none
  | .trapDispatch _ => none
  | .launchComplete _ => none
  | .bundleFetch _ _ => none
  | .bundleAdmit _ => none
  | .bundleRetire _ => none
  | .codeLoad _ _ _ => none
  | .copyProgramRun _ _ => none
  | .surrogateLoadSublaunch _ _ => none
  | .collectiveSublaunch _ _ => none
  | .collectiveComplete _ _ _ => none
  | .boostBoundary => none
  | .sustainedPowerLimit => none
  | .emergencyPowerLimit => none
  | .sliceRatioChange _ _ _ => none
  | .sensorSample _ _ => none
  | .voltageDroop _ => none
  | .coreAvoid _ => none
  | .coreReadmit _ => none
  | .wearAccumulate => none
  | .wearReportRefresh => none
  | .retentionEntry _ _ => none
  | .retentionExit _ _ _ => none
  | .hostLinkDown _ => none
  | .hostMemoryAccess _ _ _ _ => none
  | .registerJob _ => none
  | .unregisterJob _ => none
  | .claimFrames _ => none
  | .releaseFrames _ => none
  | .defineCommunicator _ => none
  | .attest _ => none
  | .sqWritePointer _ _ _ => none
  | .sqEnable _ _ _ => none
  | .registerWrite _ _ _ => none
  | .granialeFlitReceive _ _ _ => none
  | .linkWidthChange _ _ => none
  | .powerOnReset _ _ => none
  | .peerLost _ => none
  | .hostLinkUp _ => none

/-- How many instruction words the instruction has (R43); an event has none. -/
def Instr.words : Instr → Nat
  | .nop => 1
  | .bra _ _ _ _ => 1
  | .jmpx _ _ => 1
  | .exitG => 1
  | .enrol _ => 1
  | .park _ => 1
  | .strike _ => 1
  | .yieldG => 1
  | .waitC _ _ _ _ _ _ => 1
  | .repeatN _ => 1
  | .trapI _ => 1
  | .bkpt _ => 1
  | .sleepI _ => 1
  | .sleepExpire _ => 0
  | .srd _ _ => 1
  | .swr _ _ => 1
  | .tret => 1
  | .illegalInstruction _ _ => 0
  | .iadd _ _ _ => 1
  | .isub _ _ _ => 1
  | .imul _ _ _ => 1
  | .imulhiI32 _ _ _ => 1
  | .imulhiUi32 _ _ _ => 1
  | .iminI32 _ _ _ => 1
  | .iminUi32 _ _ _ => 1
  | .imaxI32 _ _ _ => 1
  | .imaxUi32 _ _ _ => 1
  | .andR _ _ _ => 1
  | .orR _ _ _ => 1
  | .xorR _ _ _ => 1
  | .shl _ _ _ => 1
  | .shr _ _ _ => 1
  | .sar _ _ _ => 1
  | .rot _ _ _ => 1
  | .mov _ _ => 1
  | .notR _ _ => 1
  | .ineg _ _ => 1
  | .iabs _ _ => 1
  | .clz _ _ => 1
  | .popc _ _ => 1
  | .brev _ _ => 1
  | .iaddsatI32 _ _ _ => 1
  | .isubsatI32 _ _ _ => 1
  | .iaddsatUi32 _ _ _ => 1
  | .iamini _ _ _ => 1
  | .iaddi _ _ _ => 1
  | .andi _ _ _ => 1
  | .ori _ _ _ => 1
  | .xori _ _ _ => 1
  | .shli _ _ _ => 1
  | .shri _ _ _ => 1
  | .sari _ _ _ => 1
  | .roti _ _ _ => 1
  | .movi _ _ => 1
  | .movhi _ _ => 1
  | .imuli _ _ _ => 1
  | .fadd _ _ _ => 1
  | .fsub _ _ _ => 1
  | .fmul _ _ _ => 1
  | .fmin _ _ _ => 1
  | .fmax _ _ _ => 1
  | .fabs _ _ => 1
  | .fneg _ _ => 1
  | .frcp _ _ => 1
  | .frsq _ _ => 1
  | .fsqrt _ _ => 1
  | .fexp2 _ _ => 1
  | .flog2 _ _ => 1
  | .fsin _ _ => 1
  | .fcos _ _ => 1
  | .frnd _ _ _ => 1
  | .fclass _ _ => 1
  | .haddF16 _ _ _ => 1
  | .hmulF16 _ _ _ => 1
  | .hminF16 _ _ _ => 1
  | .hmaxF16 _ _ _ => 1
  | .haddBf16 _ _ _ => 1
  | .hmulBf16 _ _ _ => 1
  | .hminBf16 _ _ _ => 1
  | .hmaxBf16 _ _ _ => 1
  | .icmpI32 _ _ _ _ => 1
  | .icmpUi32 _ _ _ _ => 1
  | .fcmp _ _ _ _ => 1
  | .plop _ _ _ _ => 1
  | .ptov _ _ => 1
  | .vtop _ _ => 1
  | .qswz _ _ _ => 1
  | .qbc _ _ _ => 1
  | .lshup _ _ _ => 1
  | .lshdn _ _ _ => 1
  | .lshfx _ _ _ => 1
  | .gbal _ _ => 1
  | .grediAdd _ _ => 1
  | .grediMin _ _ => 1
  | .grediMax _ _ => 1
  | .gredfAdd _ _ => 1
  | .gscanAdd _ _ => 1
  | .rdlane _ _ _ => 1
  | .wrlane _ _ _ => 1
  | .gany _ _ => 1
  | .gall _ _ => 1
  | .xset _ _ _ => 1
  | .xinc _ _ => 1
  | .movxr _ _ _ => 1
  | .movxw _ _ _ => 1
  | .xrd _ _ => 1
  | .ld _ _ _ _ => 1
  | .st _ _ _ _ => 1
  | .lds _ _ _ => 1
  | .sts _ _ _ => 1
  | .sld _ _ _ _ => 1
  | .bset _ _ => 1
  | .bget _ _ => 1
  | .fence _ _ => 1
  | .tfence _ => 1
  | .bara _ _ => 1
  | .barw _ _ => 1
  | .bars _ => 1
  | .barexp _ _ => 1
  | .ctxnew _ => 1
  | .ctxtry _ _ => 1
  | .contextTagRegister _ => 0
  | .ctxset _ => 1
  | .ctxretCommit _ _ => 1
  | .ctxretDrop _ _ => 1
  | .ctxq _ _ => 1
  | .accclr _ => 1
  | .accrel _ => 1
  | .cvt _ _ _ => 1
  | .pkh _ _ _ => 1
  | .upkh _ _ _ => 1
  | .qw _ _ => 1
  | .qr _ _ => 1
  | .qtry _ _ _ => 1
  | .sgret _ => 1
  | .sgstat _ _ _ => 1
  | .boost _ _ => 1
  | .boostrel => 1
  | .ffmaF32 _ _ _ _ => 2
  | .hfmaF16 _ _ _ _ => 2
  | .hfmaBf16 _ _ _ _ => 2
  | .imad _ _ _ _ => 2
  | .sel _ _ _ _ => 2
  | .bfe _ _ _ _ _ => 2
  | .bfi _ _ _ _ _ => 2
  | .iamin _ _ _ _ => 2
  | .logt _ _ _ _ _ => 2
  | .dot4I8 _ _ _ _ => 2
  | .spcmp _ _ _ _ _ => 2
  | .iaddk _ _ _ => 2
  | .movk _ _ => 2
  | .andk _ _ _ => 2
  | .ork _ _ _ => 2
  | .faddk _ _ _ => 2
  | .fmulk _ _ _ => 2
  | .ldl _ _ _ _ _ => 2
  | .stl _ _ _ _ _ => 2
  | .ldx _ _ _ _ _ _ => 2
  | .atom _ _ _ _ _ _ _ _ => 2
  | .red _ _ _ _ _ _ _ => 2
  | .atoms _ _ _ _ _ _ _ => 2
  | .tcopyLd _ _ _ _ _ _ _ => 2
  | .tcopySt _ _ _ _ _ _ _ => 2
  | .tcopyiPack _ _ _ _ _ _ _ => 2
  | .tcopyiUnpack _ _ _ _ _ _ _ => 2
  | .tmov _ _ _ _ _ => 2
  | .mma _ _ _ _ _ _ _ _ => 2
  | .mmaSp _ _ _ _ _ _ _ _ _ => 2
  | .accld _ _ _ _ _ => 2
  | .accst _ _ _ _ _ => 2
  | .accrd _ _ _ _ => 2
  | .accwr _ _ _ _ => 2
  | .sgcall _ _ _ _ => 2
  | .sgloadLoad _ _ _ => 2
  | .sgloadQual _ _ _ => 2
  | .sgloadRel _ _ => 2
  | .sgloadClr _ _ => 2
  | .tdview _ _ _ => 2
  | .coll _ _ _ _ => 2
  | .bpset _ _ _ => 2
  | .wpset _ _ _ => 2
  | .stepArm _ _ => 2
  | .stepOff _ _ => 2
  | .dbrd _ _ => 2
  | .dbwr _ _ _ => 2
  | .barrd _ _ => 2
  | .barwr _ _ _ => 2
  | .clauseIssue _ => 0
  | .activeSetEnter _ => 0
  | .activeSetLeave _ => 0
  | .groupAdmit _ => 0
  | .swapOut _ => 0
  | .swapIn _ => 0
  | .groupFree _ => 0
  | .loadReturn _ _ => 0
  | .lineArriveHome _ => 0
  | .atomicPerform _ _ => 0
  | .cellWaitGrant _ => 0
  | .tableWalk _ _ _ _ => 0
  | .meteringWindow => 0
  | .copyStart _ => 0
  | .copyLine _ => 0
  | .copyComplete _ => 0
  | .matrixCommandExecute _ => 0
  | .surrogateEvaluate _ _ => 0
  | .sgloadComplete _ => 0
  | .recoveryGroupForm _ _ => 0
  | .retireGranule _ _ _ => 0
  | .contextRetireComplete _ => 0
  | .contextStallTimeout _ => 0
  | .barrierPhaseRelease _ _ => 0
  | .releaseWindowEnd _ => 0
  | .trapEntry _ => 0
  | .watchpointReportDue _ => 0
  | .timeSlice _ => 0
  | .preemptDrainTimeout _ => 0
  | .jobRestore _ => 0
  | .evict _ _ => 0
  | .migrate _ _ => 0
  | .migrationAbandon _ => 0
  | .placeBlocks _ => 0
  | .blockCompletion _ => 0
  | .tagPoolRequest _ _ => 0
  | .tagPoolGrant _ _ _ => 0
  | .stallReport _ => 0
  | .disableReport _ _ => 0
  | .surrogateDisable _ _ => 0
  | .trapDispatch _ => 0
  | .launchComplete _ => 0
  | .bundleFetch _ _ => 0
  | .bundleAdmit _ => 0
  | .bundleRetire _ => 0
  | .codeLoad _ _ _ => 0
  | .copyProgramRun _ _ => 0
  | .surrogateLoadSublaunch _ _ => 0
  | .collectiveSublaunch _ _ => 0
  | .collectiveComplete _ _ _ => 0
  | .boostBoundary => 0
  | .sustainedPowerLimit => 0
  | .emergencyPowerLimit => 0
  | .sliceRatioChange _ _ _ => 0
  | .sensorSample _ _ => 0
  | .voltageDroop _ => 0
  | .coreAvoid _ => 0
  | .coreReadmit _ => 0
  | .wearAccumulate => 0
  | .wearReportRefresh => 0
  | .retentionEntry _ _ => 0
  | .retentionExit _ _ _ => 0
  | .hostLinkDown _ => 0
  | .hostMemoryAccess _ _ _ _ => 0
  | .registerJob _ => 0
  | .unregisterJob _ => 0
  | .claimFrames _ => 0
  | .releaseFrames _ => 0
  | .defineCommunicator _ => 0
  | .attest _ => 0
  | .sqWritePointer _ _ _ => 0
  | .sqEnable _ _ _ => 0
  | .registerWrite _ _ _ => 0
  | .granialeFlitReceive _ _ _ => 0
  | .linkWidthChange _ _ => 0
  | .powerOnReset _ _ => 0
  | .peerLost _ => 0
  | .hostLinkUp _ => 0

end Sys2Proof
end

