-- ==== Sys2Proof/WellFormed.lean ====
section
/-!
DEFINITION. Which terms of the syntax are instructions: the reserved field values and the pairings that the
encoding chapter rules out (R46, R48, R50, R51, R52, R83, R288).
-/

namespace Sys2Proof

/-- The conversion codes of R83. -/
def cvtCodes : List Nat :=
  [0x00, 0x01, 0x02, 0x03, 0x04, 0x05, 0x08, 0x09, 0x0A, 0x0B, 0x0C, 0x0D, 0x0E, 0x0F, 0x10, 0x11,
   0x20, 0x21, 0x22, 0x23, 0x24, 0x25, 0x26, 0x27]

/-- A post names a barrier its scope has (R46, R180, R261). -/
def Post.wf : Option BarName → Bool
  | none => true
  | some b => b.wf

/-- The checks an instruction word must pass beyond its fields' own ranges: reserved field values and
encodings that are not instructions (R46, R48, R50 to R52, R54). Events are no words and pass. -/
def Instr.wellFormed : Instr → Bool
  | .nop => true
  | .bra neg p pen _ => pen || (!neg && p == 0#4)
  | .jmpx _ _ => true
  | .exitG => true
  | .enrol _ => true
  | .park _ => true
  | .strike _ => true
  | .yieldG => true
  | .waitC _ _ _ _ _ _ => true
  | .repeatN n => n != 0#8
  | .trapI _ => true
  | .bkpt _ => true
  | .sleepI _ => true
  | .sleepExpire _ => true
  | .srd _ _ => true
  | .swr _ _ => true
  | .tret => true
  | .illegalInstruction _ _ => true
  | .iadd _ _ _ => true
  | .isub _ _ _ => true
  | .imul _ _ _ => true
  | .imulhiI32 _ _ _ => true
  | .imulhiUi32 _ _ _ => true
  | .iminI32 _ _ _ => true
  | .iminUi32 _ _ _ => true
  | .imaxI32 _ _ _ => true
  | .imaxUi32 _ _ _ => true
  | .andR _ _ _ => true
  | .orR _ _ _ => true
  | .xorR _ _ _ => true
  | .shl _ _ _ => true
  | .shr _ _ _ => true
  | .sar _ _ _ => true
  | .rot _ _ _ => true
  | .mov _ _ => true
  | .notR _ _ => true
  | .ineg _ _ => true
  | .iabs _ _ => true
  | .clz _ _ => true
  | .popc _ _ => true
  | .brev _ _ => true
  | .iaddsatI32 _ _ _ => true
  | .isubsatI32 _ _ _ => true
  | .iaddsatUi32 _ _ _ => true
  | .iamini _ _ _ => true
  | .iaddi _ _ _ => true
  | .andi _ _ _ => true
  | .ori _ _ _ => true
  | .xori _ _ _ => true
  | .shli _ _ _ => true
  | .shri _ _ _ => true
  | .sari _ _ _ => true
  | .roti _ _ _ => true
  | .movi _ _ => true
  | .movhi _ _ => true
  | .imuli _ _ _ => true
  | .fadd _ _ _ => true
  | .fsub _ _ _ => true
  | .fmul _ _ _ => true
  | .fmin _ _ _ => true
  | .fmax _ _ _ => true
  | .fabs _ _ => true
  | .fneg _ _ => true
  | .frcp _ _ => true
  | .frsq _ _ => true
  | .fsqrt _ _ => true
  | .fexp2 _ _ => true
  | .flog2 _ _ => true
  | .fsin _ _ => true
  | .fcos _ _ => true
  | .frnd _ _ mode => decide (mode.toNat ≤ 3)
  | .fclass _ _ => true
  | .haddF16 _ _ _ => true
  | .hmulF16 _ _ _ => true
  | .hminF16 _ _ _ => true
  | .hmaxF16 _ _ _ => true
  | .haddBf16 _ _ _ => true
  | .hmulBf16 _ _ _ => true
  | .hminBf16 _ _ _ => true
  | .hmaxBf16 _ _ _ => true
  | .icmpI32 _ cond _ _ => decide (cond.toNat ≤ 5)
  | .icmpUi32 _ cond _ _ => decide (cond.toNat ≤ 5)
  | .fcmp _ _ _ _ => true
  | .plop _ _ _ _ => true
  | .ptov _ _ => true
  | .vtop _ _ => true
  | .qswz _ _ _ => true
  | .qbc _ _ imm => decide (imm.toNat ≤ 3)
  | .lshup _ _ imm => decide (imm.toNat ≤ 63)
  | .lshdn _ _ imm => decide (imm.toNat ≤ 63)
  | .lshfx _ _ _ => true
  | .gbal _ _ => true
  | .grediAdd _ _ => true
  | .grediMin _ _ => true
  | .grediMax _ _ => true
  | .gredfAdd _ _ => true
  | .gscanAdd _ _ => true
  | .rdlane _ _ imm => decide (imm.toNat ≤ 63)
  | .wrlane _ _ imm => decide (imm.toNat ≤ 63)
  | .gany _ _ => true
  | .gall _ _ => true
  | .xset _ _ _ => true
  | .xinc _ _ => true
  | .movxr _ _ _ => true
  | .movxw _ _ _ => true
  | .xrd _ _ => true
  | .ld _ _ _ _ => true
  | .st _ _ sz _ => sz.storable
  | .lds _ _ _ => true
  | .sts _ _ _ => true
  | .sld _ _ _ _ => true
  | .bset _ _ => true
  | .bget _ _ => true
  | .fence ord _ => ord != .rlx
  | .tfence scope => scope == .dev || scope == .sys
  | .bara _ bar => bar.wf
  | .barw _ bar => bar.wf
  | .bars bar => bar.wf
  | .barexp _ bar => bar.wf
  | .ctxnew _ => true
  | .ctxtry _ _ => true
  | .contextTagRegister _ => true
  | .ctxset _ => true
  | .ctxretCommit _ _ => true
  | .ctxretDrop _ _ => true
  | .ctxq _ _ => true
  | .accclr _ => true
  | .accrel _ => true
  | .cvt _ _ code => cvtCodes.contains code.toNat
  | .pkh _ _ fmt => decide (fmt.toNat ≤ 1)
  | .upkh _ _ fmt => decide (fmt.toNat ≤ 1)
  | .qw _ _ => true
  | .qr _ _ => true
  | .qtry _ _ _ => true
  | .sgret _ => true
  | .sgstat _ _ code => decide (code.toNat ≤ 11)
  | .boost _ _ => true
  | .boostrel => true
  | .ffmaF32 _ _ _ _ => true
  | .hfmaF16 _ _ _ _ => true
  | .hfmaBf16 _ _ _ _ => true
  | .imad _ _ _ _ => true
  | .sel _ _ _ _ => true
  | .bfe _ _ _ _ len => decide (len.toNat ≤ 32)
  | .bfi _ _ _ _ len => decide (len.toNat ≤ 32)
  | .iamin _ _ _ _ => true
  | .logt _ _ _ _ _ => true
  | .dot4I8 _ _ _ _ => true
  | .spcmp _ _ _ _ _ => true
  | .iaddk _ _ _ => true
  | .movk _ _ => true
  | .andk _ _ _ => true
  | .ork _ _ _ => true
  | .faddk _ _ _ => true
  | .fmulk _ _ _ => true
  | .ldl _ _ _ _ _ => true
  | .stl _ _ sz _ _ => sz.storable
  | .ldx _ _ _ _ _ _ => true
  | .atom _ _ _ op _ ty _ _ => op.pairs ty
  | .red _ _ op _ ty _ _ => op.pairs ty && op != .exch && op != .cas
  | .atoms _ _ op _ ty scope _ => op.pairs ty && (scope == .grp || scope == .blk)
  | .tcopyLd _ _ _ _ post n sswz => Post.wf post && decide (1 ≤ n.toNat) && decide (n.toNat ≤ 5) && decide (sswz.toNat ≤ 3)
  | .tcopySt _ _ _ _ post n sswz => Post.wf post && decide (1 ≤ n.toNat) && decide (n.toNat ≤ 5) && decide (sswz.toNat ≤ 3)
  | .tcopyiPack _ _ _ _ post n sswz => Post.wf post && decide (1 ≤ n.toNat) && decide (n.toNat ≤ 5) && decide (sswz.toNat ≤ 3)
  | .tcopyiUnpack _ _ _ _ post n sswz => Post.wf post && decide (1 ≤ n.toNat) && decide (n.toNat ≤ 5) && decide (sswz.toNat ≤ 3)
  | .tmov _ _ _ _ post => Post.wf post
  | .mma _ _ _ _ _ _ _ kb => decide (1 ≤ kb.toNat) && decide (kb.toNat ≤ 16)
  | .mmaSp _ _ _ _ _ _ fmt _ kb => decide (1 ≤ kb.toNat) && decide (kb.toNat ≤ 16) && fmt.sparse
  | .accld _ _ _ _ _ => true
  | .accst _ _ _ _ _ => true
  | .accrd _ _ _ _ => true
  | .accwr _ _ _ _ => true
  | .sgcall _ _ _ _ => true
  | .sgloadLoad _ _ _ => true
  | .sgloadQual _ _ _ => true
  | .sgloadRel _ _ => true
  | .sgloadClr _ _ => true
  | .tdview _ _ _ => true
  | .coll _ _ op ty => !(op.reduces && ty == 3#2)
  | .bpset _ _ _ => true
  | .wpset _ _ _ => true
  | .stepArm _ _ => true
  | .stepOff _ _ => true
  | .dbrd _ _ => true
  | .dbwr _ _ _ => true
  | .barrd _ _ => true
  | .barwr _ _ _ => true
  | .clauseIssue _ => true
  | .activeSetEnter _ => true
  | .activeSetLeave _ => true
  | .groupAdmit _ => true
  | .swapOut _ => true
  | .swapIn _ => true
  | .groupFree _ => true
  | .loadReturn _ _ => true
  | .lineArriveHome _ => true
  | .atomicPerform _ _ => true
  | .cellWaitGrant _ => true
  | .tableWalk _ _ _ _ => true
  | .meteringWindow => true
  | .copyStart _ => true
  | .copyLine _ => true
  | .copyComplete _ => true
  | .matrixCommandExecute _ => true
  | .surrogateEvaluate _ _ => true
  | .sgloadComplete _ => true
  | .recoveryGroupForm _ _ => true
  | .retireGranule _ _ _ => true
  | .contextRetireComplete _ => true
  | .contextStallTimeout _ => true
  | .barrierPhaseRelease _ _ => true
  | .releaseWindowEnd _ => true
  | .trapEntry _ => true
  | .watchpointReportDue _ => true
  | .timeSlice _ => true
  | .preemptDrainTimeout _ => true
  | .jobRestore _ => true
  | .evict _ _ => true
  | .migrate _ _ => true
  | .migrationAbandon _ => true
  | .placeBlocks _ => true
  | .blockCompletion _ => true
  | .tagPoolRequest _ _ => true
  | .tagPoolGrant _ _ _ => true
  | .stallReport _ => true
  | .disableReport _ _ => true
  | .surrogateDisable _ _ => true
  | .trapDispatch _ => true
  | .launchComplete _ => true
  | .bundleFetch _ _ => true
  | .bundleAdmit _ => true
  | .bundleRetire _ => true
  | .codeLoad _ _ _ => true
  | .copyProgramRun _ _ => true
  | .surrogateLoadSublaunch _ _ => true
  | .collectiveSublaunch _ _ => true
  | .collectiveComplete _ _ _ => true
  | .boostBoundary => true
  | .sustainedPowerLimit => true
  | .emergencyPowerLimit => true
  | .sliceRatioChange _ _ _ => true
  | .sensorSample _ _ => true
  | .voltageDroop _ => true
  | .coreAvoid _ => true
  | .coreReadmit _ => true
  | .wearAccumulate => true
  | .wearReportRefresh => true
  | .retentionEntry _ _ => true
  | .retentionExit _ _ _ => true
  | .hostLinkDown _ => true
  | .hostMemoryAccess _ _ _ _ => true
  | .registerJob _ => true
  | .unregisterJob _ => true
  | .claimFrames _ => true
  | .releaseFrames _ => true
  | .defineCommunicator _ => true
  | .attest _ => true
  | .sqWritePointer _ _ _ => true
  | .sqEnable _ _ _ => true
  | .registerWrite _ _ _ => true
  | .granialeFlitReceive _ _ _ => true
  | .linkWidthChange _ _ => true
  | .powerOnReset _ _ => true
  | .peerLost _ => true
  | .hostLinkUp _ => true

/-- An instruction (not an event) whose words the part executes. -/
def Instr.isInstruction (i : Instr) : Bool := !i.isEvent && i.wellFormed

end Sys2Proof
end

