-- ==== Sys2Proof/Decode.lean ====
section
/-!
DEFINITION. The decoder of instruction words (R43 to R52 and the chapters' encoding tables), total on any bytes,
and after it an encoder written from the same tables. A word the decoder refuses is no instruction: R48 and R54
raise an illegal-instruction fault for it.
-/

namespace Sys2Proof

/-- Why bytes are no instruction (R48, R50, R54). -/
inductive DecodeError where
  /-- fewer bytes than the instruction has -/
  | truncated
  /-- a reserved primary opcode (R48) -/
  | reservedOpcode
  /-- a reserved secondary opcode (R50) -/
  | reservedSecondary
  /-- a nonzero reserved bit (R19) -/
  | reservedBits
  /-- a reserved field value, or fields that do not pair (R52, R54) -/
  | reservedValue
  deriving DecidableEq, Repr

/-- R40: field values 0x00 to 0xBF are v0 to v191, 0xC0 to 0xFF are s0 to s63. -/
def Reg.ofBits (b : BitVec 8) : Reg :=
  if h : b.toNat < 192 then .v ⟨b.toNat, h⟩
  else .s ⟨b.toNat - 192, by have := b.isLt; omega⟩

def Reg.toBits : Reg → BitVec 8
  | .v n => BitVec.ofNat 8 n.val
  | .s n => BitVec.ofNat 8 (192 + n.val)

/-- R128: the special-register numbers. -/
def Special.ofBits? (b : BitVec 12) : Option Special :=
  match b.toNat with
  | 0x000 => some .laneid | 0x001 => some .lpc | 0x002 => some .lage | 0x003 => some .helpers
  | 0x004 => some .groupid | 0x005 => some .blockid | 0x006 => some .gangid | 0x007 => some .agelimit
  | 0x008 => some .repeatCount | 0x009 => some .ctag | 0x00A => some .rmode | 0x00B => some .fflags
  | 0x00C => some .clockratio | 0x00D => some .cycle | 0x00E => some .tick | 0x00F => some .stepping
  | 0x010 => some .swapmin | 0x011 => some .replays | 0x012 => some .trapinfo | 0x013 => some .cpfault
  | 0x014 => some .bounds | 0x015 => some .launchid
  | _ => none

def Special.toBits : Special → BitVec 12
  | .laneid => 0x000#12 | .lpc => 0x001#12 | .lage => 0x002#12 | .helpers => 0x003#12
  | .groupid => 0x004#12 | .blockid => 0x005#12 | .gangid => 0x006#12 | .agelimit => 0x007#12
  | .repeatCount => 0x008#12 | .ctag => 0x009#12 | .rmode => 0x00A#12 | .fflags => 0x00B#12
  | .clockratio => 0x00C#12 | .cycle => 0x00D#12 | .tick => 0x00E#12 | .stepping => 0x00F#12
  | .swapmin => 0x010#12 | .replays => 0x011#12 | .trapinfo => 0x012#12 | .cpfault => 0x013#12
  | .bounds => 0x014#12 | .launchid => 0x015#12

/-- R44. -/
def MemSize.ofBits? (b : BitVec 3) : Option MemSize :=
  match b.toNat with
  | 0 => some .ui8 | 1 => some .i8 | 2 => some .ui16 | 3 => some .i16 | 4 => some .b32 | 5 => some .b64
  | 6 => some .b128
  | _ => none

def MemSize.toBits : MemSize → BitVec 3
  | .ui8 => 0#3 | .i8 => 1#3 | .ui16 => 2#3 | .i16 => 3#3 | .b32 => 4#3 | .b64 => 5#3 | .b128 => 6#3

/-- R45. -/
def Order.ofBits (b : BitVec 2) : Order :=
  match b.toNat with
  | 0 => .rlx | 1 => .acq | 2 => .rel | _ => .ar

def Order.toBits : Order → BitVec 2
  | .rlx => 0#2 | .acq => 1#2 | .rel => 2#2 | .ar => 3#2

/-- R45. -/
def Scope.ofBits? (b : BitVec 3) : Option Scope :=
  match b.toNat with
  | 0 => some .grp | 1 => some .blk | 2 => some .gang | 3 => some .dev | 4 => some .sys
  | _ => none

def Scope.toBits : Scope → BitVec 3
  | .grp => 0#3 | .blk => 1#3 | .gang => 2#3 | .dev => 3#3 | .sys => 4#3

/-- R46: barrier scope codes. -/
def BarScope.ofBits? (b : BitVec 2) : Option BarScope :=
  match b.toNat with
  | 0 => some .block | 1 => some .gang | 2 => some .grid
  | _ => none

def BarScope.toBits : BarScope → BitVec 2
  | .block => 0#2 | .gang => 1#2 | .grid => 2#2

/-- R46: scope in [7:6], [5:4] reserved, index in [3:0]. -/
def BarName.ofBits? (b : BitVec 8) : Option BarName :=
  if b.extractLsb' 4 2 != 0#2 then none
  else (BarScope.ofBits? (b.extractLsb' 6 2)).map fun sc => ⟨sc, b.extractLsb' 0 4⟩

def BarName.toBits (b : BarName) : BitVec 8 := b.scope.toBits ++ 0#2 ++ b.ix

/-- R180, R261: post in the top bit, then scope and index, both reserved when post is 0. -/
def Post.ofBits? (b : BitVec 7) : Option (Option BarName) :=
  if b.extractLsb' 6 1 == 1#1 then
    (BarScope.ofBits? (b.extractLsb' 4 2)).map fun sc => some ⟨sc, b.extractLsb' 0 4⟩
  else if b == 0#7 then some none
  else none

def Post.toBits : Option BarName → BitVec 7
  | none => 0#7
  | some b => 1#1 ++ b.scope.toBits ++ b.ix

/-- R51. -/
def AtomOp.ofBits? (b : BitVec 4) : Option AtomOp :=
  match b.toNat with
  | 0 => some .add | 1 => some .min | 2 => some .max | 3 => some .and | 4 => some .or | 5 => some .xor
  | 6 => some .exch | 7 => some .cas | 8 => some .fadd
  | _ => none

def AtomOp.toBits : AtomOp → BitVec 4
  | .add => 0#4 | .min => 1#4 | .max => 2#4 | .and => 3#4 | .or => 4#4 | .xor => 5#4 | .exch => 6#4
  | .cas => 7#4 | .fadd => 8#4

/-- R51. -/
def AtomTy.ofBits (b : BitVec 2) : AtomTy :=
  match b.toNat with
  | 0 => .i32 | 1 => .ui32 | 2 => .f32 | _ => .b64

def AtomTy.toBits : AtomTy → BitVec 2
  | .i32 => 0#2 | .ui32 => 1#2 | .f32 => 2#2 | .b64 => 3#2

/-- R180, R261. -/
def Level.ofBits? (b : BitVec 2) : Option Level :=
  match b.toNat with
  | 0 => some .core | 1 => some .cluster | 2 => some .die
  | _ => none

def Level.toBits : Level → BitVec 2
  | .core => 0#2 | .cluster => 1#2 | .die => 2#2

/-- R288: fmt in the upper two bits, wide in the lowest. -/
def MmaFmt.ofBits? (b : BitVec 3) : Option MmaFmt :=
  match b.toNat with
  | 0 => some .i8 | 2 => some .t8 | 4 => some .t6 | 6 => some .bf16 | 1 => some .f16 | 3 => some .f32
  | _ => none

def MmaFmt.toBits : MmaFmt → BitVec 3
  | .i8 => 0#3 | .t8 => 2#3 | .t6 => 4#3 | .bf16 => 6#3 | .f16 => 1#3 | .f32 => 3#3

/-- R300. -/
def TileFmt.ofBits? (b : BitVec 3) : Option TileFmt :=
  match b.toNat with
  | 0 => some .f32 | 1 => some .i32 | 2 => some .bf16 | 3 => some .f16 | 4 => some .t8 | 5 => some .t6
  | 6 => some .b32
  | _ => none

def TileFmt.toBits : TileFmt → BitVec 3
  | .f32 => 0#3 | .i32 => 1#3 | .bf16 => 2#3 | .f16 => 3#3 | .t8 => 4#3 | .t6 => 5#3 | .b32 => 6#3

/-- R297. -/
def AccCv.ofBits? (b : BitVec 3) : Option AccCv :=
  match b.toNat with
  | 0 => some .raw | 1 => some .f32 | 2 => some .i32 | 3 => some .bf16 | 4 => some .f16
  | _ => none

def AccCv.toBits : AccCv → BitVec 3
  | .raw => 0#3 | .f32 => 1#3 | .i32 => 2#3 | .bf16 => 3#3 | .f16 => 4#3

/-- R295. -/
def SpFmt.ofBits? (b : BitVec 2) : Option SpFmt :=
  match b.toNat with
  | 0 => some .i8 | 1 => some .t8 | 2 => some .t6
  | _ => none

def SpFmt.toBits : SpFmt → BitVec 2
  | .i8 => 0#2 | .t8 => 1#2 | .t6 => 2#2

/-- R427. -/
def CollOp.ofBits? (b : BitVec 4) : Option CollOp :=
  match b.toNat with
  | 0 => some .put | 1 => some .arAdd | 2 => some .arMax | 3 => some .gather | 4 => some .bcast
  | _ => none

def CollOp.toBits : CollOp → BitVec 4
  | .put => 0#4 | .arAdd => 1#4 | .arMax => 2#4 | .gather => 3#4 | .bcast => 4#4

/-- The end of every decoding arm: reserved bits first, then field values and pairings (R54, class 2). -/
def finishDecode (reservedSet : Bool) (i : Option Instr) : Except DecodeError Instr :=
  if reservedSet then .error .reservedBits
  else match i with
    | none => .error .reservedValue
    | some i => if i.wellFormed then .ok i else .error .reservedValue

/-- First words with opcodes 0x00 to 0x0F (R48). -/
def decodeControl (w0 : Word) : Except DecodeError Instr :=
  match (w0.extractLsb' 24 8).toNat with
  | 0x00 => finishDecode ((w0 &&& 0x00FFFFFF#32) != 0#32) (some (.nop))
  | 0x01 => finishDecode (false) (some (.bra ((w0.extractLsb' 23 1) == 1#1) (w0.extractLsb' 19 4) ((w0.extractLsb' 18 1) == 1#1) (w0.extractLsb' 0 18)))
  | 0x02 => finishDecode (false) (some (.jmpx (Reg.ofBits (w0.extractLsb' 16 8)) (w0.extractLsb' 0 16)))
  | 0x03 => finishDecode ((w0 &&& 0x00FFFFFF#32) != 0#32) (some (.exitG))
  | 0x04 => finishDecode ((w0 &&& 0x00FFFFF8#32) != 0#32) (some (.enrol (w0.extractLsb' 0 3)))
  | 0x05 => finishDecode ((w0 &&& 0x00FFFFF8#32) != 0#32) (some (.park (w0.extractLsb' 0 3)))
  | 0x06 => finishDecode ((w0 &&& 0x00FFFFF8#32) != 0#32) (some (.strike (w0.extractLsb' 0 3)))
  | 0x07 => finishDecode ((w0 &&& 0x00FFFFFF#32) != 0#32) (some (.yieldG))
  | 0x08 => finishDecode (false) (some (.waitC (w0.extractLsb' 20 4) (w0.extractLsb' 16 4) (w0.extractLsb' 12 4) (w0.extractLsb' 8 4) (w0.extractLsb' 4 4) (w0.extractLsb' 0 4)))
  | 0x09 => finishDecode ((w0 &&& 0x00FFFF00#32) != 0#32) (some (.repeatN (w0.extractLsb' 0 8)))
  | 0x0A => finishDecode ((w0 &&& 0x00FF0000#32) != 0#32) (some (.trapI (w0.extractLsb' 0 16)))
  | 0x0B => finishDecode ((w0 &&& 0x00FFFF00#32) != 0#32) (some (.bkpt (w0.extractLsb' 0 8)))
  | 0x0C => finishDecode ((w0 &&& 0x00FF0000#32) != 0#32) (some (.sleepI (w0.extractLsb' 0 16)))
  | 0x0D => finishDecode ((w0 &&& 0x0000F000#32) != 0#32) ((Special.ofBits? (w0.extractLsb' 0 12)).bind fun sp => some (.srd (Reg.ofBits (w0.extractLsb' 16 8)) sp))
  | 0x0E => finishDecode ((w0 &&& 0x0000F000#32) != 0#32) ((Special.ofBits? (w0.extractLsb' 0 12)).bind fun sp => some (.swr (Reg.ofBits (w0.extractLsb' 16 8)) sp))
  | 0x0F => finishDecode ((w0 &&& 0x00FFFFFF#32) != 0#32) (some (.tret))
  | _ => .error .reservedOpcode

/-- First words with opcodes 0x10 to 0x2F (R48). -/
def decodeInteger (w0 : Word) : Except DecodeError Instr :=
  match (w0.extractLsb' 24 8).toNat with
  | 0x10 => finishDecode (false) (some (.iadd (Reg.ofBits (w0.extractLsb' 16 8)) (Reg.ofBits (w0.extractLsb' 8 8)) (Reg.ofBits (w0.extractLsb' 0 8))))
  | 0x11 => finishDecode (false) (some (.isub (Reg.ofBits (w0.extractLsb' 16 8)) (Reg.ofBits (w0.extractLsb' 8 8)) (Reg.ofBits (w0.extractLsb' 0 8))))
  | 0x12 => finishDecode (false) (some (.imul (Reg.ofBits (w0.extractLsb' 16 8)) (Reg.ofBits (w0.extractLsb' 8 8)) (Reg.ofBits (w0.extractLsb' 0 8))))
  | 0x13 => finishDecode (false) (some (.imulhiI32 (Reg.ofBits (w0.extractLsb' 16 8)) (Reg.ofBits (w0.extractLsb' 8 8)) (Reg.ofBits (w0.extractLsb' 0 8))))
  | 0x14 => finishDecode (false) (some (.imulhiUi32 (Reg.ofBits (w0.extractLsb' 16 8)) (Reg.ofBits (w0.extractLsb' 8 8)) (Reg.ofBits (w0.extractLsb' 0 8))))
  | 0x15 => finishDecode (false) (some (.iminI32 (Reg.ofBits (w0.extractLsb' 16 8)) (Reg.ofBits (w0.extractLsb' 8 8)) (Reg.ofBits (w0.extractLsb' 0 8))))
  | 0x16 => finishDecode (false) (some (.iminUi32 (Reg.ofBits (w0.extractLsb' 16 8)) (Reg.ofBits (w0.extractLsb' 8 8)) (Reg.ofBits (w0.extractLsb' 0 8))))
  | 0x17 => finishDecode (false) (some (.imaxI32 (Reg.ofBits (w0.extractLsb' 16 8)) (Reg.ofBits (w0.extractLsb' 8 8)) (Reg.ofBits (w0.extractLsb' 0 8))))
  | 0x18 => finishDecode (false) (some (.imaxUi32 (Reg.ofBits (w0.extractLsb' 16 8)) (Reg.ofBits (w0.extractLsb' 8 8)) (Reg.ofBits (w0.extractLsb' 0 8))))
  | 0x19 => finishDecode (false) (some (.andR (Reg.ofBits (w0.extractLsb' 16 8)) (Reg.ofBits (w0.extractLsb' 8 8)) (Reg.ofBits (w0.extractLsb' 0 8))))
  | 0x1A => finishDecode (false) (some (.orR (Reg.ofBits (w0.extractLsb' 16 8)) (Reg.ofBits (w0.extractLsb' 8 8)) (Reg.ofBits (w0.extractLsb' 0 8))))
  | 0x1B => finishDecode (false) (some (.xorR (Reg.ofBits (w0.extractLsb' 16 8)) (Reg.ofBits (w0.extractLsb' 8 8)) (Reg.ofBits (w0.extractLsb' 0 8))))
  | 0x1C => finishDecode (false) (some (.shl (Reg.ofBits (w0.extractLsb' 16 8)) (Reg.ofBits (w0.extractLsb' 8 8)) (Reg.ofBits (w0.extractLsb' 0 8))))
  | 0x1D => finishDecode (false) (some (.shr (Reg.ofBits (w0.extractLsb' 16 8)) (Reg.ofBits (w0.extractLsb' 8 8)) (Reg.ofBits (w0.extractLsb' 0 8))))
  | 0x1E => finishDecode (false) (some (.sar (Reg.ofBits (w0.extractLsb' 16 8)) (Reg.ofBits (w0.extractLsb' 8 8)) (Reg.ofBits (w0.extractLsb' 0 8))))
  | 0x1F => finishDecode (false) (some (.rot (Reg.ofBits (w0.extractLsb' 16 8)) (Reg.ofBits (w0.extractLsb' 8 8)) (Reg.ofBits (w0.extractLsb' 0 8))))
  | 0x20 => finishDecode ((w0 &&& 0x000000FF#32) != 0#32) (some (.mov (Reg.ofBits (w0.extractLsb' 16 8)) (Reg.ofBits (w0.extractLsb' 8 8))))
  | 0x21 => finishDecode ((w0 &&& 0x000000FF#32) != 0#32) (some (.notR (Reg.ofBits (w0.extractLsb' 16 8)) (Reg.ofBits (w0.extractLsb' 8 8))))
  | 0x22 => finishDecode ((w0 &&& 0x000000FF#32) != 0#32) (some (.ineg (Reg.ofBits (w0.extractLsb' 16 8)) (Reg.ofBits (w0.extractLsb' 8 8))))
  | 0x23 => finishDecode ((w0 &&& 0x000000FF#32) != 0#32) (some (.iabs (Reg.ofBits (w0.extractLsb' 16 8)) (Reg.ofBits (w0.extractLsb' 8 8))))
  | 0x24 => finishDecode ((w0 &&& 0x000000FF#32) != 0#32) (some (.clz (Reg.ofBits (w0.extractLsb' 16 8)) (Reg.ofBits (w0.extractLsb' 8 8))))
  | 0x25 => finishDecode ((w0 &&& 0x000000FF#32) != 0#32) (some (.popc (Reg.ofBits (w0.extractLsb' 16 8)) (Reg.ofBits (w0.extractLsb' 8 8))))
  | 0x26 => finishDecode ((w0 &&& 0x000000FF#32) != 0#32) (some (.brev (Reg.ofBits (w0.extractLsb' 16 8)) (Reg.ofBits (w0.extractLsb' 8 8))))
  | 0x27 => finishDecode (false) (some (.iaddsatI32 (Reg.ofBits (w0.extractLsb' 16 8)) (Reg.ofBits (w0.extractLsb' 8 8)) (Reg.ofBits (w0.extractLsb' 0 8))))
  | 0x28 => finishDecode (false) (some (.isubsatI32 (Reg.ofBits (w0.extractLsb' 16 8)) (Reg.ofBits (w0.extractLsb' 8 8)) (Reg.ofBits (w0.extractLsb' 0 8))))
  | 0x29 => finishDecode (false) (some (.iaddsatUi32 (Reg.ofBits (w0.extractLsb' 16 8)) (Reg.ofBits (w0.extractLsb' 8 8)) (Reg.ofBits (w0.extractLsb' 0 8))))
  | 0x2A => finishDecode (false) (some (.iamini (Reg.ofBits (w0.extractLsb' 16 8)) (Reg.ofBits (w0.extractLsb' 8 8)) (w0.extractLsb' 0 8)))
  | _ => .error .reservedOpcode

/-- First words with opcodes 0x30 to 0x3F (R48). -/
def decodeImmediate (w0 : Word) : Except DecodeError Instr :=
  match (w0.extractLsb' 24 8).toNat with
  | 0x30 => finishDecode (false) (some (.iaddi (Reg.ofBits (w0.extractLsb' 16 8)) (Reg.ofBits (w0.extractLsb' 8 8)) (w0.extractLsb' 0 8)))
  | 0x31 => finishDecode (false) (some (.andi (Reg.ofBits (w0.extractLsb' 16 8)) (Reg.ofBits (w0.extractLsb' 8 8)) (w0.extractLsb' 0 8)))
  | 0x32 => finishDecode (false) (some (.ori (Reg.ofBits (w0.extractLsb' 16 8)) (Reg.ofBits (w0.extractLsb' 8 8)) (w0.extractLsb' 0 8)))
  | 0x33 => finishDecode (false) (some (.xori (Reg.ofBits (w0.extractLsb' 16 8)) (Reg.ofBits (w0.extractLsb' 8 8)) (w0.extractLsb' 0 8)))
  | 0x34 => finishDecode (false) (some (.shli (Reg.ofBits (w0.extractLsb' 16 8)) (Reg.ofBits (w0.extractLsb' 8 8)) (w0.extractLsb' 0 8)))
  | 0x35 => finishDecode (false) (some (.shri (Reg.ofBits (w0.extractLsb' 16 8)) (Reg.ofBits (w0.extractLsb' 8 8)) (w0.extractLsb' 0 8)))
  | 0x36 => finishDecode (false) (some (.sari (Reg.ofBits (w0.extractLsb' 16 8)) (Reg.ofBits (w0.extractLsb' 8 8)) (w0.extractLsb' 0 8)))
  | 0x37 => finishDecode (false) (some (.roti (Reg.ofBits (w0.extractLsb' 16 8)) (Reg.ofBits (w0.extractLsb' 8 8)) (w0.extractLsb' 0 8)))
  | 0x38 => finishDecode (false) (some (.movi (Reg.ofBits (w0.extractLsb' 16 8)) (w0.extractLsb' 0 16)))
  | 0x39 => finishDecode (false) (some (.movhi (Reg.ofBits (w0.extractLsb' 16 8)) (w0.extractLsb' 0 16)))
  | 0x3A => finishDecode (false) (some (.imuli (Reg.ofBits (w0.extractLsb' 16 8)) (Reg.ofBits (w0.extractLsb' 8 8)) (w0.extractLsb' 0 8)))
  | _ => .error .reservedOpcode

/-- First words with opcodes 0x40 to 0x4F (R48). -/
def decodeFloat (w0 : Word) : Except DecodeError Instr :=
  match (w0.extractLsb' 24 8).toNat with
  | 0x40 => finishDecode (false) (some (.fadd (Reg.ofBits (w0.extractLsb' 16 8)) (Reg.ofBits (w0.extractLsb' 8 8)) (Reg.ofBits (w0.extractLsb' 0 8))))
  | 0x41 => finishDecode (false) (some (.fsub (Reg.ofBits (w0.extractLsb' 16 8)) (Reg.ofBits (w0.extractLsb' 8 8)) (Reg.ofBits (w0.extractLsb' 0 8))))
  | 0x42 => finishDecode (false) (some (.fmul (Reg.ofBits (w0.extractLsb' 16 8)) (Reg.ofBits (w0.extractLsb' 8 8)) (Reg.ofBits (w0.extractLsb' 0 8))))
  | 0x43 => finishDecode (false) (some (.fmin (Reg.ofBits (w0.extractLsb' 16 8)) (Reg.ofBits (w0.extractLsb' 8 8)) (Reg.ofBits (w0.extractLsb' 0 8))))
  | 0x44 => finishDecode (false) (some (.fmax (Reg.ofBits (w0.extractLsb' 16 8)) (Reg.ofBits (w0.extractLsb' 8 8)) (Reg.ofBits (w0.extractLsb' 0 8))))
  | 0x45 => finishDecode ((w0 &&& 0x000000FF#32) != 0#32) (some (.fabs (Reg.ofBits (w0.extractLsb' 16 8)) (Reg.ofBits (w0.extractLsb' 8 8))))
  | 0x46 => finishDecode ((w0 &&& 0x000000FF#32) != 0#32) (some (.fneg (Reg.ofBits (w0.extractLsb' 16 8)) (Reg.ofBits (w0.extractLsb' 8 8))))
  | 0x47 => finishDecode ((w0 &&& 0x000000FF#32) != 0#32) (some (.frcp (Reg.ofBits (w0.extractLsb' 16 8)) (Reg.ofBits (w0.extractLsb' 8 8))))
  | 0x48 => finishDecode ((w0 &&& 0x000000FF#32) != 0#32) (some (.frsq (Reg.ofBits (w0.extractLsb' 16 8)) (Reg.ofBits (w0.extractLsb' 8 8))))
  | 0x49 => finishDecode ((w0 &&& 0x000000FF#32) != 0#32) (some (.fsqrt (Reg.ofBits (w0.extractLsb' 16 8)) (Reg.ofBits (w0.extractLsb' 8 8))))
  | 0x4A => finishDecode ((w0 &&& 0x000000FF#32) != 0#32) (some (.fexp2 (Reg.ofBits (w0.extractLsb' 16 8)) (Reg.ofBits (w0.extractLsb' 8 8))))
  | 0x4B => finishDecode ((w0 &&& 0x000000FF#32) != 0#32) (some (.flog2 (Reg.ofBits (w0.extractLsb' 16 8)) (Reg.ofBits (w0.extractLsb' 8 8))))
  | 0x4C => finishDecode ((w0 &&& 0x000000FF#32) != 0#32) (some (.fsin (Reg.ofBits (w0.extractLsb' 16 8)) (Reg.ofBits (w0.extractLsb' 8 8))))
  | 0x4D => finishDecode ((w0 &&& 0x000000FF#32) != 0#32) (some (.fcos (Reg.ofBits (w0.extractLsb' 16 8)) (Reg.ofBits (w0.extractLsb' 8 8))))
  | 0x4E => finishDecode (false) (some (.frnd (Reg.ofBits (w0.extractLsb' 16 8)) (Reg.ofBits (w0.extractLsb' 8 8)) (w0.extractLsb' 0 8)))
  | 0x4F => finishDecode ((w0 &&& 0x000000FF#32) != 0#32) (some (.fclass (Reg.ofBits (w0.extractLsb' 16 8)) (Reg.ofBits (w0.extractLsb' 8 8))))
  | _ => .error .reservedOpcode

/-- First words with opcodes 0x50 to 0x5F (R48). -/
def decodePacked (w0 : Word) : Except DecodeError Instr :=
  match (w0.extractLsb' 24 8).toNat with
  | 0x50 => finishDecode (false) (some (.haddF16 (Reg.ofBits (w0.extractLsb' 16 8)) (Reg.ofBits (w0.extractLsb' 8 8)) (Reg.ofBits (w0.extractLsb' 0 8))))
  | 0x51 => finishDecode (false) (some (.hmulF16 (Reg.ofBits (w0.extractLsb' 16 8)) (Reg.ofBits (w0.extractLsb' 8 8)) (Reg.ofBits (w0.extractLsb' 0 8))))
  | 0x52 => finishDecode (false) (some (.hminF16 (Reg.ofBits (w0.extractLsb' 16 8)) (Reg.ofBits (w0.extractLsb' 8 8)) (Reg.ofBits (w0.extractLsb' 0 8))))
  | 0x53 => finishDecode (false) (some (.hmaxF16 (Reg.ofBits (w0.extractLsb' 16 8)) (Reg.ofBits (w0.extractLsb' 8 8)) (Reg.ofBits (w0.extractLsb' 0 8))))
  | 0x54 => finishDecode (false) (some (.haddBf16 (Reg.ofBits (w0.extractLsb' 16 8)) (Reg.ofBits (w0.extractLsb' 8 8)) (Reg.ofBits (w0.extractLsb' 0 8))))
  | 0x55 => finishDecode (false) (some (.hmulBf16 (Reg.ofBits (w0.extractLsb' 16 8)) (Reg.ofBits (w0.extractLsb' 8 8)) (Reg.ofBits (w0.extractLsb' 0 8))))
  | 0x56 => finishDecode (false) (some (.hminBf16 (Reg.ofBits (w0.extractLsb' 16 8)) (Reg.ofBits (w0.extractLsb' 8 8)) (Reg.ofBits (w0.extractLsb' 0 8))))
  | 0x57 => finishDecode (false) (some (.hmaxBf16 (Reg.ofBits (w0.extractLsb' 16 8)) (Reg.ofBits (w0.extractLsb' 8 8)) (Reg.ofBits (w0.extractLsb' 0 8))))
  | _ => .error .reservedOpcode

/-- First words with opcodes 0x60 to 0x6F (R48). -/
def decodeCompare (w0 : Word) : Except DecodeError Instr :=
  match (w0.extractLsb' 24 8).toNat with
  | 0x60 => finishDecode (false) (some (.icmpI32 (w0.extractLsb' 20 4) (w0.extractLsb' 16 4) (Reg.ofBits (w0.extractLsb' 8 8)) (Reg.ofBits (w0.extractLsb' 0 8))))
  | 0x61 => finishDecode (false) (some (.icmpUi32 (w0.extractLsb' 20 4) (w0.extractLsb' 16 4) (Reg.ofBits (w0.extractLsb' 8 8)) (Reg.ofBits (w0.extractLsb' 0 8))))
  | 0x62 => finishDecode (false) (some (.fcmp (w0.extractLsb' 20 4) (w0.extractLsb' 16 4) (Reg.ofBits (w0.extractLsb' 8 8)) (Reg.ofBits (w0.extractLsb' 0 8))))
  | 0x63 => finishDecode ((w0 &&& 0x0000F0F0#32) != 0#32) (some (.plop (w0.extractLsb' 20 4) (w0.extractLsb' 16 4) (w0.extractLsb' 8 4) (w0.extractLsb' 0 4)))
  | 0x64 => finishDecode ((w0 &&& 0x0000F0FF#32) != 0#32) (some (.ptov (Reg.ofBits (w0.extractLsb' 16 8)) (w0.extractLsb' 8 4)))
  | 0x65 => finishDecode ((w0 &&& 0x000F00FF#32) != 0#32) (some (.vtop (w0.extractLsb' 20 4) (Reg.ofBits (w0.extractLsb' 8 8))))
  | _ => .error .reservedOpcode

/-- First words with opcodes 0x70 to 0x7F (R48). -/
def decodeExchange (w0 : Word) : Except DecodeError Instr :=
  match (w0.extractLsb' 24 8).toNat with
  | 0x70 => finishDecode (false) (some (.qswz (Reg.ofBits (w0.extractLsb' 16 8)) (Reg.ofBits (w0.extractLsb' 8 8)) (w0.extractLsb' 0 8)))
  | 0x71 => finishDecode (false) (some (.qbc (Reg.ofBits (w0.extractLsb' 16 8)) (Reg.ofBits (w0.extractLsb' 8 8)) (w0.extractLsb' 0 8)))
  | 0x72 => finishDecode (false) (some (.lshup (Reg.ofBits (w0.extractLsb' 16 8)) (Reg.ofBits (w0.extractLsb' 8 8)) (w0.extractLsb' 0 8)))
  | 0x73 => finishDecode (false) (some (.lshdn (Reg.ofBits (w0.extractLsb' 16 8)) (Reg.ofBits (w0.extractLsb' 8 8)) (w0.extractLsb' 0 8)))
  | 0x74 => finishDecode (false) (some (.lshfx (Reg.ofBits (w0.extractLsb' 16 8)) (Reg.ofBits (w0.extractLsb' 8 8)) (Reg.ofBits (w0.extractLsb' 0 8))))
  | 0x75 => finishDecode ((w0 &&& 0x0000F0FF#32) != 0#32) (some (.gbal (Reg.ofBits (w0.extractLsb' 16 8)) (w0.extractLsb' 8 4)))
  | 0x76 => finishDecode ((w0 &&& 0x000000FF#32) != 0#32) (some (.grediAdd (Reg.ofBits (w0.extractLsb' 16 8)) (Reg.ofBits (w0.extractLsb' 8 8))))
  | 0x77 => finishDecode ((w0 &&& 0x000000FF#32) != 0#32) (some (.grediMin (Reg.ofBits (w0.extractLsb' 16 8)) (Reg.ofBits (w0.extractLsb' 8 8))))
  | 0x78 => finishDecode ((w0 &&& 0x000000FF#32) != 0#32) (some (.grediMax (Reg.ofBits (w0.extractLsb' 16 8)) (Reg.ofBits (w0.extractLsb' 8 8))))
  | 0x79 => finishDecode ((w0 &&& 0x000000FF#32) != 0#32) (some (.gredfAdd (Reg.ofBits (w0.extractLsb' 16 8)) (Reg.ofBits (w0.extractLsb' 8 8))))
  | 0x7A => finishDecode ((w0 &&& 0x000000FF#32) != 0#32) (some (.gscanAdd (Reg.ofBits (w0.extractLsb' 16 8)) (Reg.ofBits (w0.extractLsb' 8 8))))
  | 0x7B => finishDecode (false) (some (.rdlane (Reg.ofBits (w0.extractLsb' 16 8)) (Reg.ofBits (w0.extractLsb' 8 8)) (w0.extractLsb' 0 8)))
  | 0x7C => finishDecode (false) (some (.wrlane (Reg.ofBits (w0.extractLsb' 16 8)) (Reg.ofBits (w0.extractLsb' 8 8)) (w0.extractLsb' 0 8)))
  | 0x7D => finishDecode ((w0 &&& 0x000FF0FF#32) != 0#32) (some (.gany (w0.extractLsb' 20 4) (w0.extractLsb' 8 4)))
  | 0x7E => finishDecode ((w0 &&& 0x000FF0FF#32) != 0#32) (some (.gall (w0.extractLsb' 20 4) (w0.extractLsb' 8 4)))
  | _ => .error .reservedOpcode

/-- First words with opcodes 0x80 to 0x8F (R48). -/
def decodeIndex (w0 : Word) : Except DecodeError Instr :=
  match (w0.extractLsb' 24 8).toNat with
  | 0x80 => finishDecode ((w0 &&& 0x00F80000#32) != 0#32) (some (.xset (w0.extractLsb' 16 3) (w0.extractLsb' 8 8) (w0.extractLsb' 0 8)))
  | 0x81 => finishDecode ((w0 &&& 0x00F8FF00#32) != 0#32) (some (.xinc (w0.extractLsb' 16 3) (w0.extractLsb' 0 8)))
  | 0x82 => finishDecode ((w0 &&& 0x0000F800#32) != 0#32) (some (.movxr (Reg.ofBits (w0.extractLsb' 16 8)) (w0.extractLsb' 8 3) (w0.extractLsb' 0 8)))
  | 0x83 => finishDecode ((w0 &&& 0x0000F800#32) != 0#32) (some (.movxw (Reg.ofBits (w0.extractLsb' 16 8)) (w0.extractLsb' 8 3) (w0.extractLsb' 0 8)))
  | 0x84 => finishDecode ((w0 &&& 0x0000F8FF#32) != 0#32) (some (.xrd (Reg.ofBits (w0.extractLsb' 16 8)) (w0.extractLsb' 8 3)))
  | _ => .error .reservedOpcode

/-- First words with opcodes 0x90 to 0x9F (R48). -/
def decodeMemory (w0 : Word) : Except DecodeError Instr :=
  match (w0.extractLsb' 24 8).toNat with
  | 0x90 => finishDecode (false) ((MemSize.ofBits? (w0.extractLsb' 8 3)).bind fun sz => some (.ld (Reg.ofBits (w0.extractLsb' 16 8)) (w0.extractLsb' 11 5) sz (Reg.ofBits (w0.extractLsb' 0 8))))
  | 0x91 => finishDecode (false) ((MemSize.ofBits? (w0.extractLsb' 8 3)).bind fun sz => some (.st (Reg.ofBits (w0.extractLsb' 16 8)) (w0.extractLsb' 11 5) sz (Reg.ofBits (w0.extractLsb' 0 8))))
  | 0x92 => finishDecode (false) (some (.lds (Reg.ofBits (w0.extractLsb' 16 8)) (Reg.ofBits (w0.extractLsb' 8 8)) (w0.extractLsb' 0 8)))
  | 0x93 => finishDecode (false) (some (.sts (Reg.ofBits (w0.extractLsb' 16 8)) (Reg.ofBits (w0.extractLsb' 8 8)) (w0.extractLsb' 0 8)))
  | 0x94 => finishDecode (false) ((MemSize.ofBits? (w0.extractLsb' 8 3)).bind fun sz => some (.sld (Reg.ofBits (w0.extractLsb' 16 8)) (w0.extractLsb' 11 5) sz (w0.extractLsb' 0 8)))
  | 0x95 => finishDecode ((w0 &&& 0x000007FF#32) != 0#32) (some (.bset (Reg.ofBits (w0.extractLsb' 16 8)) (w0.extractLsb' 11 5)))
  | 0x96 => finishDecode ((w0 &&& 0x000007FF#32) != 0#32) (some (.bget (Reg.ofBits (w0.extractLsb' 16 8)) (w0.extractLsb' 11 5)))
  | 0x97 => finishDecode ((w0 &&& 0x00FFFFC8#32) != 0#32) ((Scope.ofBits? (w0.extractLsb' 0 3)).bind fun scope => some (.fence (Order.ofBits (w0.extractLsb' 4 2)) scope))
  | 0x98 => finishDecode ((w0 &&& 0x00FFFFF8#32) != 0#32) ((Scope.ofBits? (w0.extractLsb' 0 3)).bind fun scope => some (.tfence scope))
  | _ => .error .reservedOpcode

/-- First words with opcodes 0xA0 to 0xAF (R48). -/
def decodeSync (w0 : Word) : Except DecodeError Instr :=
  match (w0.extractLsb' 24 8).toNat with
  | 0xA0 => finishDecode ((w0 &&& 0x0000FF00#32) != 0#32) ((BarName.ofBits? (w0.extractLsb' 0 8)).bind fun bar => some (.bara (Reg.ofBits (w0.extractLsb' 16 8)) bar))
  | 0xA1 => finishDecode ((w0 &&& 0x0000FF00#32) != 0#32) ((BarName.ofBits? (w0.extractLsb' 0 8)).bind fun bar => some (.barw (Reg.ofBits (w0.extractLsb' 16 8)) bar))
  | 0xA2 => finishDecode ((w0 &&& 0x00FFFF00#32) != 0#32) ((BarName.ofBits? (w0.extractLsb' 0 8)).bind fun bar => some (.bars bar))
  | 0xA3 => finishDecode ((w0 &&& 0x0000FF00#32) != 0#32) ((BarName.ofBits? (w0.extractLsb' 0 8)).bind fun bar => some (.barexp (Reg.ofBits (w0.extractLsb' 16 8)) bar))
  | 0xA4 => finishDecode ((w0 &&& 0x0000FFFF#32) != 0#32) (some (.ctxnew (Reg.ofBits (w0.extractLsb' 16 8))))
  | 0xA5 => finishDecode ((w0 &&& 0x0000F0FF#32) != 0#32) (some (.ctxtry (Reg.ofBits (w0.extractLsb' 16 8)) (w0.extractLsb' 8 4)))
  | 0xA6 => finishDecode ((w0 &&& 0x00FF00FF#32) != 0#32) (some (.ctxset (Reg.ofBits (w0.extractLsb' 8 8))))
  | 0xA7 =>
    match (w0.extractLsb' 0 8).toNat with
    | 0 => finishDecode (false) (some (.ctxretCommit (Reg.ofBits (w0.extractLsb' 16 8)) (Reg.ofBits (w0.extractLsb' 8 8))))
    | 1 => finishDecode (false) (some (.ctxretDrop (Reg.ofBits (w0.extractLsb' 16 8)) (Reg.ofBits (w0.extractLsb' 8 8))))
    | _ => .error .reservedValue
  | 0xA8 => finishDecode ((w0 &&& 0x000000FF#32) != 0#32) (some (.ctxq (Reg.ofBits (w0.extractLsb' 16 8)) (Reg.ofBits (w0.extractLsb' 8 8))))
  | _ => .error .reservedOpcode

/-- First words with opcodes 0xB0 to 0xBF (R48). -/
def decodeTile (w0 : Word) : Except DecodeError Instr :=
  match (w0.extractLsb' 24 8).toNat with
  | 0xB0 => finishDecode ((w0 &&& 0x00FFFE00#32) != 0#32) (some (.accclr (w0.extractLsb' 0 9)))
  | 0xB1 => finishDecode ((w0 &&& 0x00FFFE00#32) != 0#32) (some (.accrel (w0.extractLsb' 0 9)))
  | _ => .error .reservedOpcode

/-- First words with opcodes 0xC0 to 0xCF (R48). -/
def decodeConvert (w0 : Word) : Except DecodeError Instr :=
  match (w0.extractLsb' 24 8).toNat with
  | 0xC0 => finishDecode (false) (some (.cvt (Reg.ofBits (w0.extractLsb' 16 8)) (Reg.ofBits (w0.extractLsb' 8 8)) (w0.extractLsb' 0 8)))
  | 0xC1 => finishDecode (false) (some (.pkh (Reg.ofBits (w0.extractLsb' 16 8)) (Reg.ofBits (w0.extractLsb' 8 8)) (w0.extractLsb' 0 8)))
  | 0xC2 => finishDecode (false) (some (.upkh (Reg.ofBits (w0.extractLsb' 16 8)) (Reg.ofBits (w0.extractLsb' 8 8)) (w0.extractLsb' 0 8)))
  | _ => .error .reservedOpcode

/-- First words with opcodes 0xD0 to 0xDF (R48). -/
def decodeAsync (w0 : Word) : Except DecodeError Instr :=
  match (w0.extractLsb' 24 8).toNat with
  | 0xD0 => finishDecode ((w0 &&& 0x00F0FF00#32) != 0#32) (some (.qw (w0.extractLsb' 16 4) (Reg.ofBits (w0.extractLsb' 0 8))))
  | 0xD1 => finishDecode ((w0 &&& 0x00F0FF00#32) != 0#32) (some (.qr (w0.extractLsb' 16 4) (Reg.ofBits (w0.extractLsb' 0 8))))
  | 0xD2 => finishDecode ((w0 &&& 0x0000FF00#32) != 0#32) (some (.qtry (w0.extractLsb' 20 4) (w0.extractLsb' 16 4) (Reg.ofBits (w0.extractLsb' 0 8))))
  | 0xD3 => finishDecode ((w0 &&& 0x00FF00FF#32) != 0#32) (some (.sgret (Reg.ofBits (w0.extractLsb' 8 8))))
  | 0xD4 => finishDecode ((w0 &&& 0x0000C0F0#32) != 0#32) (some (.sgstat (Reg.ofBits (w0.extractLsb' 16 8)) (w0.extractLsb' 8 6) (w0.extractLsb' 0 4)))
  | _ => .error .reservedOpcode

/-- First words with opcodes 0xE0 to 0xEF (R48). -/
def decodeSystem (w0 : Word) : Except DecodeError Instr :=
  match (w0.extractLsb' 24 8).toNat with
  | 0xE0 => finishDecode (false) (some (.boost (Reg.ofBits (w0.extractLsb' 16 8)) (w0.extractLsb' 0 16)))
  | 0xE1 => finishDecode ((w0 &&& 0x00FFFFFF#32) != 0#32) (some (.boostrel))
  | _ => .error .reservedOpcode

/-- Family 0xF0: two words, chosen by the secondary opcode (R49, R50). -/
def decodeF0 (w0 w1 : Word) : Except DecodeError Instr :=
  match (w1.extractLsb' 24 8).toNat with
  | 0x00 => finishDecode ((w1 &&& 0x0000FFFF#32) != 0#32) (some (.ffmaF32 (Reg.ofBits (w0.extractLsb' 16 8)) (Reg.ofBits (w0.extractLsb' 8 8)) (Reg.ofBits (w0.extractLsb' 0 8)) (Reg.ofBits (w1.extractLsb' 16 8))))
  | 0x01 => finishDecode ((w1 &&& 0x0000FFFF#32) != 0#32) (some (.hfmaF16 (Reg.ofBits (w0.extractLsb' 16 8)) (Reg.ofBits (w0.extractLsb' 8 8)) (Reg.ofBits (w0.extractLsb' 0 8)) (Reg.ofBits (w1.extractLsb' 16 8))))
  | 0x02 => finishDecode ((w1 &&& 0x0000FFFF#32) != 0#32) (some (.hfmaBf16 (Reg.ofBits (w0.extractLsb' 16 8)) (Reg.ofBits (w0.extractLsb' 8 8)) (Reg.ofBits (w0.extractLsb' 0 8)) (Reg.ofBits (w1.extractLsb' 16 8))))
  | 0x03 => finishDecode ((w1 &&& 0x0000FFFF#32) != 0#32) (some (.imad (Reg.ofBits (w0.extractLsb' 16 8)) (Reg.ofBits (w0.extractLsb' 8 8)) (Reg.ofBits (w0.extractLsb' 0 8)) (Reg.ofBits (w1.extractLsb' 16 8))))
  | 0x04 => finishDecode ((w1 &&& 0x00FFF0FF#32) != 0#32) (some (.sel (Reg.ofBits (w0.extractLsb' 16 8)) (Reg.ofBits (w0.extractLsb' 8 8)) (Reg.ofBits (w0.extractLsb' 0 8)) (w1.extractLsb' 8 4)))
  | 0x05 => finishDecode ((w0 &&& 0x000000FF#32) != 0#32 || (w1 &&& 0x00FF6000#32) != 0#32) (some (.bfe (Reg.ofBits (w0.extractLsb' 16 8)) (Reg.ofBits (w0.extractLsb' 8 8)) ((w1.extractLsb' 15 1) == 1#1) (w1.extractLsb' 8 5) (w1.extractLsb' 0 8)))
  | 0x06 => finishDecode ((w1 &&& 0x00FFE000#32) != 0#32) (some (.bfi (Reg.ofBits (w0.extractLsb' 16 8)) (Reg.ofBits (w0.extractLsb' 8 8)) (Reg.ofBits (w0.extractLsb' 0 8)) (w1.extractLsb' 8 5) (w1.extractLsb' 0 8)))
  | 0x07 => finishDecode ((w1 &&& 0x0000FFFF#32) != 0#32) (some (.iamin (Reg.ofBits (w0.extractLsb' 16 8)) (Reg.ofBits (w0.extractLsb' 8 8)) (Reg.ofBits (w0.extractLsb' 0 8)) (Reg.ofBits (w1.extractLsb' 16 8))))
  | 0x08 => finishDecode ((w1 &&& 0x0000FF00#32) != 0#32) (some (.logt (Reg.ofBits (w0.extractLsb' 16 8)) (Reg.ofBits (w0.extractLsb' 8 8)) (Reg.ofBits (w0.extractLsb' 0 8)) (Reg.ofBits (w1.extractLsb' 16 8)) (w1.extractLsb' 0 8)))
  | 0x09 => finishDecode ((w1 &&& 0x0000FFFF#32) != 0#32) (some (.dot4I8 (Reg.ofBits (w0.extractLsb' 16 8)) (Reg.ofBits (w0.extractLsb' 8 8)) (Reg.ofBits (w0.extractLsb' 0 8)) (Reg.ofBits (w1.extractLsb' 16 8))))
  | 0x0A => finishDecode ((w0 &&& 0x000000FF#32) != 0#32 || (w1 &&& 0x0000FCFE#32) != 0#32) ((SpFmt.ofBits? (w1.extractLsb' 8 2)).bind fun fmt => some (.spcmp (Reg.ofBits (w0.extractLsb' 16 8)) (Reg.ofBits (w0.extractLsb' 8 8)) (Reg.ofBits (w1.extractLsb' 16 8)) fmt ((w1.extractLsb' 0 1) == 1#1)))
  | _ => .error .reservedSecondary

/-- Family 0xF1: two words, chosen by the secondary opcode (R49, R50). -/
def decodeF1 (w0 w1 : Word) : Except DecodeError Instr :=
  match (w0.extractLsb' 0 8).toNat with
  | 0x00 => finishDecode (false) (some (.iaddk (Reg.ofBits (w0.extractLsb' 16 8)) (Reg.ofBits (w0.extractLsb' 8 8)) (w1)))
  | 0x01 => finishDecode ((w0 &&& 0x0000FF00#32) != 0#32) (some (.movk (Reg.ofBits (w0.extractLsb' 16 8)) (w1)))
  | 0x02 => finishDecode (false) (some (.andk (Reg.ofBits (w0.extractLsb' 16 8)) (Reg.ofBits (w0.extractLsb' 8 8)) (w1)))
  | 0x03 => finishDecode (false) (some (.ork (Reg.ofBits (w0.extractLsb' 16 8)) (Reg.ofBits (w0.extractLsb' 8 8)) (w1)))
  | 0x04 => finishDecode (false) (some (.faddk (Reg.ofBits (w0.extractLsb' 16 8)) (Reg.ofBits (w0.extractLsb' 8 8)) (w1)))
  | 0x05 => finishDecode (false) (some (.fmulk (Reg.ofBits (w0.extractLsb' 16 8)) (Reg.ofBits (w0.extractLsb' 8 8)) (w1)))
  | _ => .error .reservedSecondary

/-- Family 0xF2: two words, chosen by the secondary opcode (R49, R50). -/
def decodeF2 (w0 w1 : Word) : Except DecodeError Instr :=
  match (w1.extractLsb' 24 8).toNat with
  | 0x00 => finishDecode (false) ((MemSize.ofBits? (w0.extractLsb' 8 3)).bind fun sz => some (.ldl (Reg.ofBits (w0.extractLsb' 16 8)) (w0.extractLsb' 11 5) sz (Reg.ofBits (w0.extractLsb' 0 8)) (w1.extractLsb' 0 24)))
  | 0x01 => finishDecode (false) ((MemSize.ofBits? (w0.extractLsb' 8 3)).bind fun sz => some (.stl (Reg.ofBits (w0.extractLsb' 16 8)) (w0.extractLsb' 11 5) sz (Reg.ofBits (w0.extractLsb' 0 8)) (w1.extractLsb' 0 24)))
  | 0x02 => finishDecode (false) ((MemSize.ofBits? (w0.extractLsb' 8 3)).bind fun sz => some (.ldx (Reg.ofBits (w0.extractLsb' 16 8)) (w0.extractLsb' 11 5) sz (Reg.ofBits (w0.extractLsb' 0 8)) (w1.extractLsb' 18 6) (w1.extractLsb' 0 18)))
  | 0x03 => finishDecode ((w0 &&& 0x00000700#32) != 0#32 || (w1 &&& 0x00001F00#32) != 0#32) ((AtomOp.ofBits? (w1.extractLsb' 20 4)).bind fun op => (Scope.ofBits? (w1.extractLsb' 13 3)).bind fun scope => some (.atom (Reg.ofBits (w0.extractLsb' 16 8)) (w0.extractLsb' 11 5) (Reg.ofBits (w0.extractLsb' 0 8)) op (Order.ofBits (w1.extractLsb' 18 2)) (AtomTy.ofBits (w1.extractLsb' 16 2)) scope (Reg.ofBits (w1.extractLsb' 0 8))))
  | 0x04 => finishDecode ((w0 &&& 0x00FF0700#32) != 0#32 || (w1 &&& 0x00001F00#32) != 0#32) ((AtomOp.ofBits? (w1.extractLsb' 20 4)).bind fun op => (Scope.ofBits? (w1.extractLsb' 13 3)).bind fun scope => some (.red (w0.extractLsb' 11 5) (Reg.ofBits (w0.extractLsb' 0 8)) op (Order.ofBits (w1.extractLsb' 18 2)) (AtomTy.ofBits (w1.extractLsb' 16 2)) scope (Reg.ofBits (w1.extractLsb' 0 8))))
  | 0x05 => finishDecode ((w0 &&& 0x0000FF00#32) != 0#32 || (w1 &&& 0x00001F00#32) != 0#32) ((AtomOp.ofBits? (w1.extractLsb' 20 4)).bind fun op => (Scope.ofBits? (w1.extractLsb' 13 3)).bind fun scope => some (.atoms (Reg.ofBits (w0.extractLsb' 16 8)) (Reg.ofBits (w0.extractLsb' 0 8)) op (Order.ofBits (w1.extractLsb' 18 2)) (AtomTy.ofBits (w1.extractLsb' 16 2)) scope (Reg.ofBits (w1.extractLsb' 0 8))))
  | _ => .error .reservedSecondary

/-- Family 0xF3: two words, chosen by the secondary opcode (R49, R50). -/
def decodeF3 (w0 w1 : Word) : Except DecodeError Instr :=
  match (w1.extractLsb' 24 8).toNat with
  | 0x10 => finishDecode ((w1 &&& 0x0030003F#32) != 0#32) ((Level.ofBits? (w1.extractLsb' 22 2)).bind fun lvl => (Post.ofBits? (w1.extractLsb' 13 7)).bind fun post => some (.tcopyLd (Reg.ofBits (w0.extractLsb' 16 8)) (Reg.ofBits (w0.extractLsb' 8 8)) (Reg.ofBits (w0.extractLsb' 0 8)) lvl post (w1.extractLsb' 10 3) (w1.extractLsb' 6 4)))
  | 0x11 => finishDecode ((w1 &&& 0x0030003F#32) != 0#32) ((Level.ofBits? (w1.extractLsb' 22 2)).bind fun lvl => (Post.ofBits? (w1.extractLsb' 13 7)).bind fun post => some (.tcopySt (Reg.ofBits (w0.extractLsb' 16 8)) (Reg.ofBits (w0.extractLsb' 8 8)) (Reg.ofBits (w0.extractLsb' 0 8)) lvl post (w1.extractLsb' 10 3) (w1.extractLsb' 6 4)))
  | 0x12 => finishDecode ((w1 &&& 0x0030003F#32) != 0#32) ((Level.ofBits? (w1.extractLsb' 22 2)).bind fun lvl => (Post.ofBits? (w1.extractLsb' 13 7)).bind fun post => some (.tcopyiPack (Reg.ofBits (w0.extractLsb' 16 8)) (Reg.ofBits (w0.extractLsb' 8 8)) (Reg.ofBits (w0.extractLsb' 0 8)) lvl post (w1.extractLsb' 10 3) (w1.extractLsb' 6 4)))
  | 0x13 => finishDecode ((w1 &&& 0x0030003F#32) != 0#32) ((Level.ofBits? (w1.extractLsb' 22 2)).bind fun lvl => (Post.ofBits? (w1.extractLsb' 13 7)).bind fun post => some (.tcopyiUnpack (Reg.ofBits (w0.extractLsb' 16 8)) (Reg.ofBits (w0.extractLsb' 8 8)) (Reg.ofBits (w0.extractLsb' 0 8)) lvl post (w1.extractLsb' 10 3) (w1.extractLsb' 6 4)))
  | 0x14 => finishDecode ((w0 &&& 0x000000FF#32) != 0#32 || (w1 &&& 0x00001FFF#32) != 0#32) ((Level.ofBits? (w1.extractLsb' 22 2)).bind fun src => (Level.ofBits? (w1.extractLsb' 20 2)).bind fun dst => (Post.ofBits? (w1.extractLsb' 13 7)).bind fun post => some (.tmov (Reg.ofBits (w0.extractLsb' 16 8)) (Reg.ofBits (w0.extractLsb' 8 8)) src dst post))
  | 0x40 => finishDecode ((w1 &&& 0x0003FF00#32) != 0#32) ((MmaFmt.ofBits? (w1.extractLsb' 18 3)).bind fun fmt => some (.mma (w0.extractLsb' 16 8) (Reg.ofBits (w0.extractLsb' 8 8)) (Reg.ofBits (w0.extractLsb' 0 8)) (w1.extractLsb' 23 1) ((w1.extractLsb' 22 1) == 1#1) ((w1.extractLsb' 21 1) == 1#1) fmt (w1.extractLsb' 0 8)))
  | 0x41 => finishDecode ((w1 &&& 0x00030000#32) != 0#32) ((MmaFmt.ofBits? (w1.extractLsb' 18 3)).bind fun fmt => some (.mmaSp (w0.extractLsb' 16 8) (Reg.ofBits (w0.extractLsb' 8 8)) (Reg.ofBits (w0.extractLsb' 0 8)) (w1.extractLsb' 23 1) ((w1.extractLsb' 22 1) == 1#1) ((w1.extractLsb' 21 1) == 1#1) fmt (Reg.ofBits (w1.extractLsb' 8 8)) (w1.extractLsb' 0 8)))
  | 0x42 => finishDecode ((w0 &&& 0x00FF0000#32) != 0#32 || (w1 &&& 0x00007E00#32) != 0#32) ((TileFmt.ofBits? (w1.extractLsb' 21 3)).bind fun fmt => some (.accld (Reg.ofBits (w0.extractLsb' 8 8)) (Reg.ofBits (w0.extractLsb' 0 8)) fmt (w1.extractLsb' 15 6) (w1.extractLsb' 0 9)))
  | 0x43 => finishDecode ((w0 &&& 0x00FF0000#32) != 0#32 || (w1 &&& 0x00007E00#32) != 0#32) ((TileFmt.ofBits? (w1.extractLsb' 21 3)).bind fun fmt => some (.accst (Reg.ofBits (w0.extractLsb' 8 8)) (Reg.ofBits (w0.extractLsb' 0 8)) fmt (w1.extractLsb' 15 6) (w1.extractLsb' 0 9)))
  | 0x44 => finishDecode ((w0 &&& 0x0000FFFF#32) != 0#32 || (w1 &&& 0x0003FE00#32) != 0#32) ((AccCv.ofBits? (w1.extractLsb' 21 3)).bind fun cv => some (.accrd (Reg.ofBits (w0.extractLsb' 16 8)) cv (w1.extractLsb' 18 3) (w1.extractLsb' 0 9)))
  | 0x45 => finishDecode ((w0 &&& 0x0000FFFF#32) != 0#32 || (w1 &&& 0x0003FE00#32) != 0#32) ((AccCv.ofBits? (w1.extractLsb' 21 3)).bind fun cv => some (.accwr (Reg.ofBits (w0.extractLsb' 16 8)) cv (w1.extractLsb' 18 3) (w1.extractLsb' 0 9)))
  | 0x60 => finishDecode ((w0 &&& 0x000000FF#32) != 0#32 || (w1 &&& 0x00C00FFF#32) != 0#32) (some (.sgcall (Reg.ofBits (w0.extractLsb' 16 8)) (Reg.ofBits (w0.extractLsb' 8 8)) (w1.extractLsb' 16 6) (w1.extractLsb' 12 4)))
  | 0x61 =>
    match (w1.extractLsb' 14 2).toNat with
    | 0 => finishDecode ((w0 &&& 0x000000FF#32) != 0#32 || (w1 &&& 0x00C03FFF#32) != 0#32) (some (.sgloadLoad (Reg.ofBits (w0.extractLsb' 16 8)) (Reg.ofBits (w0.extractLsb' 8 8)) (w1.extractLsb' 16 6)))
    | 1 => finishDecode ((w0 &&& 0x000000FF#32) != 0#32 || (w1 &&& 0x00C03FFF#32) != 0#32) (some (.sgloadQual (Reg.ofBits (w0.extractLsb' 16 8)) (Reg.ofBits (w0.extractLsb' 8 8)) (w1.extractLsb' 16 6)))
    | 2 => finishDecode ((w0 &&& 0x0000FFFF#32) != 0#32 || (w1 &&& 0x00C03FFF#32) != 0#32) (some (.sgloadRel (Reg.ofBits (w0.extractLsb' 16 8)) (w1.extractLsb' 16 6)))
    | 3 => finishDecode ((w0 &&& 0x0000FFFF#32) != 0#32 || (w1 &&& 0x00C03FFF#32) != 0#32) (some (.sgloadClr (Reg.ofBits (w0.extractLsb' 16 8)) (w1.extractLsb' 16 6)))
    | _ => .error .reservedValue
  | 0x70 => finishDecode ((w0 &&& 0x000000FF#32) != 0#32 || (w1 &&& 0x007FFFFF#32) != 0#32) (some (.tdview (Reg.ofBits (w0.extractLsb' 16 8)) (Reg.ofBits (w0.extractLsb' 8 8)) ((w1.extractLsb' 23 1) == 1#1)))
  | 0x78 => finishDecode ((w0 &&& 0x000000FF#32) != 0#32 || (w1 &&& 0x0003FFFF#32) != 0#32) ((CollOp.ofBits? (w1.extractLsb' 20 4)).bind fun op => some (.coll (Reg.ofBits (w0.extractLsb' 16 8)) (Reg.ofBits (w0.extractLsb' 8 8)) op (w1.extractLsb' 18 2)))
  | _ => .error .reservedSecondary

/-- Family 0xF4: two words, chosen by the secondary opcode (R49, R50). -/
def decodeF4 (w0 w1 : Word) : Except DecodeError Instr :=
  match (w1.extractLsb' 24 8).toNat with
  | 0x00 => finishDecode ((w0 &&& 0x000000FF#32) != 0#32 || (w1 &&& 0x00FFFFF8#32) != 0#32) (some (.bpset (Reg.ofBits (w0.extractLsb' 16 8)) (Reg.ofBits (w0.extractLsb' 8 8)) (w1.extractLsb' 0 3)))
  | 0x01 => finishDecode ((w0 &&& 0x000000FF#32) != 0#32 || (w1 &&& 0x00FFFFFC#32) != 0#32) (some (.wpset (Reg.ofBits (w0.extractLsb' 16 8)) (Reg.ofBits (w0.extractLsb' 8 8)) (w1.extractLsb' 0 2)))
  | 0x02 =>
    match (w1.extractLsb' 0 1).toNat with
    | 1 => finishDecode ((w0 &&& 0x000000FF#32) != 0#32 || (w1 &&& 0x00FFFFFE#32) != 0#32) (some (.stepArm (Reg.ofBits (w0.extractLsb' 16 8)) (Reg.ofBits (w0.extractLsb' 8 8))))
    | 0 => finishDecode ((w0 &&& 0x000000FF#32) != 0#32 || (w1 &&& 0x00FFFFFE#32) != 0#32) (some (.stepOff (Reg.ofBits (w0.extractLsb' 16 8)) (Reg.ofBits (w0.extractLsb' 8 8))))
    | _ => .error .reservedValue
  | 0x03 => finishDecode ((w0 &&& 0x000000FF#32) != 0#32 || (w1 &&& 0x00FFFFFF#32) != 0#32) (some (.dbrd (Reg.ofBits (w0.extractLsb' 16 8)) (Reg.ofBits (w0.extractLsb' 8 8))))
  | 0x04 => finishDecode ((w1 &&& 0x00FFFFFF#32) != 0#32) (some (.dbwr (Reg.ofBits (w0.extractLsb' 16 8)) (Reg.ofBits (w0.extractLsb' 8 8)) (Reg.ofBits (w0.extractLsb' 0 8))))
  | 0x05 => finishDecode ((w0 &&& 0x000000FF#32) != 0#32 || (w1 &&& 0x00FFFFFF#32) != 0#32) (some (.barrd (Reg.ofBits (w0.extractLsb' 16 8)) (Reg.ofBits (w0.extractLsb' 8 8))))
  | 0x06 => finishDecode ((w1 &&& 0x00FFFFFF#32) != 0#32) (some (.barwr (Reg.ofBits (w0.extractLsb' 16 8)) (Reg.ofBits (w0.extractLsb' 8 8)) (Reg.ofBits (w0.extractLsb' 0 8))))
  | _ => .error .reservedSecondary

/-- The primary opcode of a first word (R43). -/
def opcodeOf (w0 : Word) : Nat := (w0.extractLsb' 24 8).toNat

/-- Whether a first word opens a two-word family (R43, R49). -/
def isTwoWord (w0 : Word) : Bool := decide (0xF0 ≤ opcodeOf w0 ∧ opcodeOf w0 ≤ 0xF4)

/-- The instruction of one word (R48). -/
def decodeOne (w0 : Word) : Except DecodeError Instr :=
  match opcodeOf w0 / 16 with
  | 0x0 => decodeControl w0
  | 0x1 => decodeInteger w0
  | 0x2 => decodeInteger w0
  | 0x3 => decodeImmediate w0
  | 0x4 => decodeFloat w0
  | 0x5 => decodePacked w0
  | 0x6 => decodeCompare w0
  | 0x7 => decodeExchange w0
  | 0x8 => decodeIndex w0
  | 0x9 => decodeMemory w0
  | 0xA => decodeSync w0
  | 0xB => decodeTile w0
  | 0xC => decodeConvert w0
  | 0xD => decodeAsync w0
  | 0xE => decodeSystem w0
  | _ => .error .reservedOpcode

/-- The instruction of two words (R49, R50). -/
def decodeTwo (w0 w1 : Word) : Except DecodeError Instr :=
  match opcodeOf w0 with
  | 0xF0 => decodeF0 w0 w1
  | 0xF1 => decodeF1 w0 w1
  | 0xF2 => decodeF2 w0 w1
  | 0xF3 => decodeF3 w0 w1
  | 0xF4 => decodeF4 w0 w1
  | _ => .error .reservedOpcode

/-- The instruction whose first word is `w0`, with the word after it where there is one. -/
def decodeWords (w0 : Word) (w1 : Option Word) : Except DecodeError Instr :=
  if isTwoWord w0 then
    match w1 with
    | some w1 => decodeTwo w0 w1
    | none => .error .truncated
  else decodeOne w0

/-- Four bytes as a word, least significant byte first (R18). -/
def wordOfBytes (b0 b1 b2 b3 : Byte) : Word := b3 ++ b2 ++ b1 ++ b0

/-- The bytes of a word, least significant first (R18). -/
def bytesOfWord (w : Word) : List Byte :=
  [w.extractLsb' 0 8, w.extractLsb' 8 8, w.extractLsb' 16 8, w.extractLsb' 24 8]

/-- The decoder over bytes: total, and any refusal is by name. Bytes after the instruction are ignored. -/
def decode : List Byte → Except DecodeError Instr
  | b0 :: b1 :: b2 :: b3 :: b4 :: b5 :: b6 :: b7 :: _ =>
      decodeWords (wordOfBytes b0 b1 b2 b3) (some (wordOfBytes b4 b5 b6 b7))
  | b0 :: b1 :: b2 :: b3 :: _ => decodeWords (wordOfBytes b0 b1 b2 b3) none
  | _ => .error .truncated

/-- The bytes of the `n` words that hold the number `w`, first word in its low bits. -/
def bytesOfNumber : Nat → Nat → List Byte
  | 0, _ => []
  | n + 1, w => bytesOfWord (BitVec.ofNat 32 w) ++ bytesOfNumber n (w / 2 ^ 32)

/-- What the decoder reads from an instruction whose bits are `w` (bit 0 is the least significant bit of the
first word); every bit above `nbits` is 0. -/
def decodeTableWord (nbits w : Nat) : Option Instr :=
  match decode (bytesOfNumber 2 (w % 2 ^ nbits)) with
  | .ok i => some i
  | .error _ => none

/-- The words of an instruction, first word first, from the encoding tables of the spec (R43 to R51 and the
chapters' own tables). An event has no words. -/
def encode : Instr → List Word
  | .nop => [(0x00#8 ++ 0#24 : BitVec 32)]
  | .bra neg p pen off => [(0x01#8 ++ (BitVec.ofBool neg) ++ p ++ (BitVec.ofBool pen) ++ off : BitVec 32)]
  | .jmpx a off => [(0x02#8 ++ a.toBits ++ off : BitVec 32)]
  | .exitG => [(0x03#8 ++ 0#24 : BitVec 32)]
  | .enrol j => [(0x04#8 ++ 0#21 ++ j : BitVec 32)]
  | .park j => [(0x05#8 ++ 0#21 ++ j : BitVec 32)]
  | .strike j => [(0x06#8 ++ 0#21 ++ j : BitVec 32)]
  | .yieldG => [(0x07#8 ++ 0#24 : BitVec 32)]
  | .waitC ld st cp tl sg cl => [(0x08#8 ++ ld ++ st ++ cp ++ tl ++ sg ++ cl : BitVec 32)]
  | .repeatN n => [(0x09#8 ++ 0#16 ++ n : BitVec 32)]
  | .trapI imm => [(0x0A#8 ++ 0#8 ++ imm : BitVec 32)]
  | .bkpt imm => [(0x0B#8 ++ 0#16 ++ imm : BitVec 32)]
  | .sleepI imm => [(0x0C#8 ++ 0#8 ++ imm : BitVec 32)]
  | .sleepExpire _ => []
  | .srd d sp => [(0x0D#8 ++ d.toBits ++ 0#4 ++ sp.toBits : BitVec 32)]
  | .swr a sp => [(0x0E#8 ++ a.toBits ++ 0#4 ++ sp.toBits : BitVec 32)]
  | .tret => [(0x0F#8 ++ 0#24 : BitVec 32)]
  | .illegalInstruction _ _ => []
  | .iadd d a b => [(0x10#8 ++ d.toBits ++ a.toBits ++ b.toBits : BitVec 32)]
  | .isub d a b => [(0x11#8 ++ d.toBits ++ a.toBits ++ b.toBits : BitVec 32)]
  | .imul d a b => [(0x12#8 ++ d.toBits ++ a.toBits ++ b.toBits : BitVec 32)]
  | .imulhiI32 d a b => [(0x13#8 ++ d.toBits ++ a.toBits ++ b.toBits : BitVec 32)]
  | .imulhiUi32 d a b => [(0x14#8 ++ d.toBits ++ a.toBits ++ b.toBits : BitVec 32)]
  | .iminI32 d a b => [(0x15#8 ++ d.toBits ++ a.toBits ++ b.toBits : BitVec 32)]
  | .iminUi32 d a b => [(0x16#8 ++ d.toBits ++ a.toBits ++ b.toBits : BitVec 32)]
  | .imaxI32 d a b => [(0x17#8 ++ d.toBits ++ a.toBits ++ b.toBits : BitVec 32)]
  | .imaxUi32 d a b => [(0x18#8 ++ d.toBits ++ a.toBits ++ b.toBits : BitVec 32)]
  | .andR d a b => [(0x19#8 ++ d.toBits ++ a.toBits ++ b.toBits : BitVec 32)]
  | .orR d a b => [(0x1A#8 ++ d.toBits ++ a.toBits ++ b.toBits : BitVec 32)]
  | .xorR d a b => [(0x1B#8 ++ d.toBits ++ a.toBits ++ b.toBits : BitVec 32)]
  | .shl d a b => [(0x1C#8 ++ d.toBits ++ a.toBits ++ b.toBits : BitVec 32)]
  | .shr d a b => [(0x1D#8 ++ d.toBits ++ a.toBits ++ b.toBits : BitVec 32)]
  | .sar d a b => [(0x1E#8 ++ d.toBits ++ a.toBits ++ b.toBits : BitVec 32)]
  | .rot d a b => [(0x1F#8 ++ d.toBits ++ a.toBits ++ b.toBits : BitVec 32)]
  | .mov d a => [(0x20#8 ++ d.toBits ++ a.toBits ++ 0#8 : BitVec 32)]
  | .notR d a => [(0x21#8 ++ d.toBits ++ a.toBits ++ 0#8 : BitVec 32)]
  | .ineg d a => [(0x22#8 ++ d.toBits ++ a.toBits ++ 0#8 : BitVec 32)]
  | .iabs d a => [(0x23#8 ++ d.toBits ++ a.toBits ++ 0#8 : BitVec 32)]
  | .clz d a => [(0x24#8 ++ d.toBits ++ a.toBits ++ 0#8 : BitVec 32)]
  | .popc d a => [(0x25#8 ++ d.toBits ++ a.toBits ++ 0#8 : BitVec 32)]
  | .brev d a => [(0x26#8 ++ d.toBits ++ a.toBits ++ 0#8 : BitVec 32)]
  | .iaddsatI32 d a b => [(0x27#8 ++ d.toBits ++ a.toBits ++ b.toBits : BitVec 32)]
  | .isubsatI32 d a b => [(0x28#8 ++ d.toBits ++ a.toBits ++ b.toBits : BitVec 32)]
  | .iaddsatUi32 d a b => [(0x29#8 ++ d.toBits ++ a.toBits ++ b.toBits : BitVec 32)]
  | .iamini d a imm => [(0x2A#8 ++ d.toBits ++ a.toBits ++ imm : BitVec 32)]
  | .iaddi d a imm => [(0x30#8 ++ d.toBits ++ a.toBits ++ imm : BitVec 32)]
  | .andi d a imm => [(0x31#8 ++ d.toBits ++ a.toBits ++ imm : BitVec 32)]
  | .ori d a imm => [(0x32#8 ++ d.toBits ++ a.toBits ++ imm : BitVec 32)]
  | .xori d a imm => [(0x33#8 ++ d.toBits ++ a.toBits ++ imm : BitVec 32)]
  | .shli d a imm => [(0x34#8 ++ d.toBits ++ a.toBits ++ imm : BitVec 32)]
  | .shri d a imm => [(0x35#8 ++ d.toBits ++ a.toBits ++ imm : BitVec 32)]
  | .sari d a imm => [(0x36#8 ++ d.toBits ++ a.toBits ++ imm : BitVec 32)]
  | .roti d a imm => [(0x37#8 ++ d.toBits ++ a.toBits ++ imm : BitVec 32)]
  | .movi d imm => [(0x38#8 ++ d.toBits ++ imm : BitVec 32)]
  | .movhi d imm => [(0x39#8 ++ d.toBits ++ imm : BitVec 32)]
  | .imuli d a imm => [(0x3A#8 ++ d.toBits ++ a.toBits ++ imm : BitVec 32)]
  | .fadd d a b => [(0x40#8 ++ d.toBits ++ a.toBits ++ b.toBits : BitVec 32)]
  | .fsub d a b => [(0x41#8 ++ d.toBits ++ a.toBits ++ b.toBits : BitVec 32)]
  | .fmul d a b => [(0x42#8 ++ d.toBits ++ a.toBits ++ b.toBits : BitVec 32)]
  | .fmin d a b => [(0x43#8 ++ d.toBits ++ a.toBits ++ b.toBits : BitVec 32)]
  | .fmax d a b => [(0x44#8 ++ d.toBits ++ a.toBits ++ b.toBits : BitVec 32)]
  | .fabs d a => [(0x45#8 ++ d.toBits ++ a.toBits ++ 0#8 : BitVec 32)]
  | .fneg d a => [(0x46#8 ++ d.toBits ++ a.toBits ++ 0#8 : BitVec 32)]
  | .frcp d a => [(0x47#8 ++ d.toBits ++ a.toBits ++ 0#8 : BitVec 32)]
  | .frsq d a => [(0x48#8 ++ d.toBits ++ a.toBits ++ 0#8 : BitVec 32)]
  | .fsqrt d a => [(0x49#8 ++ d.toBits ++ a.toBits ++ 0#8 : BitVec 32)]
  | .fexp2 d a => [(0x4A#8 ++ d.toBits ++ a.toBits ++ 0#8 : BitVec 32)]
  | .flog2 d a => [(0x4B#8 ++ d.toBits ++ a.toBits ++ 0#8 : BitVec 32)]
  | .fsin d a => [(0x4C#8 ++ d.toBits ++ a.toBits ++ 0#8 : BitVec 32)]
  | .fcos d a => [(0x4D#8 ++ d.toBits ++ a.toBits ++ 0#8 : BitVec 32)]
  | .frnd d a mode => [(0x4E#8 ++ d.toBits ++ a.toBits ++ mode : BitVec 32)]
  | .fclass d a => [(0x4F#8 ++ d.toBits ++ a.toBits ++ 0#8 : BitVec 32)]
  | .haddF16 d a b => [(0x50#8 ++ d.toBits ++ a.toBits ++ b.toBits : BitVec 32)]
  | .hmulF16 d a b => [(0x51#8 ++ d.toBits ++ a.toBits ++ b.toBits : BitVec 32)]
  | .hminF16 d a b => [(0x52#8 ++ d.toBits ++ a.toBits ++ b.toBits : BitVec 32)]
  | .hmaxF16 d a b => [(0x53#8 ++ d.toBits ++ a.toBits ++ b.toBits : BitVec 32)]
  | .haddBf16 d a b => [(0x54#8 ++ d.toBits ++ a.toBits ++ b.toBits : BitVec 32)]
  | .hmulBf16 d a b => [(0x55#8 ++ d.toBits ++ a.toBits ++ b.toBits : BitVec 32)]
  | .hminBf16 d a b => [(0x56#8 ++ d.toBits ++ a.toBits ++ b.toBits : BitVec 32)]
  | .hmaxBf16 d a b => [(0x57#8 ++ d.toBits ++ a.toBits ++ b.toBits : BitVec 32)]
  | .icmpI32 pd cond a b => [(0x60#8 ++ pd ++ cond ++ a.toBits ++ b.toBits : BitVec 32)]
  | .icmpUi32 pd cond a b => [(0x61#8 ++ pd ++ cond ++ a.toBits ++ b.toBits : BitVec 32)]
  | .fcmp pd cond a b => [(0x62#8 ++ pd ++ cond ++ a.toBits ++ b.toBits : BitVec 32)]
  | .plop pd tt pa pb => [(0x63#8 ++ pd ++ tt ++ 0#4 ++ pa ++ 0#4 ++ pb : BitVec 32)]
  | .ptov d pa => [(0x64#8 ++ d.toBits ++ 0#4 ++ pa ++ 0#8 : BitVec 32)]
  | .vtop pd a => [(0x65#8 ++ pd ++ 0#4 ++ a.toBits ++ 0#8 : BitVec 32)]
  | .qswz d a imm => [(0x70#8 ++ d.toBits ++ a.toBits ++ imm : BitVec 32)]
  | .qbc d a imm => [(0x71#8 ++ d.toBits ++ a.toBits ++ imm : BitVec 32)]
  | .lshup d a imm => [(0x72#8 ++ d.toBits ++ a.toBits ++ imm : BitVec 32)]
  | .lshdn d a imm => [(0x73#8 ++ d.toBits ++ a.toBits ++ imm : BitVec 32)]
  | .lshfx d a b => [(0x74#8 ++ d.toBits ++ a.toBits ++ b.toBits : BitVec 32)]
  | .gbal d pa => [(0x75#8 ++ d.toBits ++ 0#4 ++ pa ++ 0#8 : BitVec 32)]
  | .grediAdd d a => [(0x76#8 ++ d.toBits ++ a.toBits ++ 0#8 : BitVec 32)]
  | .grediMin d a => [(0x77#8 ++ d.toBits ++ a.toBits ++ 0#8 : BitVec 32)]
  | .grediMax d a => [(0x78#8 ++ d.toBits ++ a.toBits ++ 0#8 : BitVec 32)]
  | .gredfAdd d a => [(0x79#8 ++ d.toBits ++ a.toBits ++ 0#8 : BitVec 32)]
  | .gscanAdd d a => [(0x7A#8 ++ d.toBits ++ a.toBits ++ 0#8 : BitVec 32)]
  | .rdlane d a imm => [(0x7B#8 ++ d.toBits ++ a.toBits ++ imm : BitVec 32)]
  | .wrlane d a imm => [(0x7C#8 ++ d.toBits ++ a.toBits ++ imm : BitVec 32)]
  | .gany pd pa => [(0x7D#8 ++ pd ++ 0#8 ++ pa ++ 0#8 : BitVec 32)]
  | .gall pd pa => [(0x7E#8 ++ pd ++ 0#8 ++ pa ++ 0#8 : BitVec 32)]
  | .xset x base len => [(0x80#8 ++ 0#5 ++ x ++ base ++ len : BitVec 32)]
  | .xinc x imm => [(0x81#8 ++ 0#5 ++ x ++ 0#8 ++ imm : BitVec 32)]
  | .movxr d x imm => [(0x82#8 ++ d.toBits ++ 0#5 ++ x ++ imm : BitVec 32)]
  | .movxw a x imm => [(0x83#8 ++ a.toBits ++ 0#5 ++ x ++ imm : BitVec 32)]
  | .xrd d x => [(0x84#8 ++ d.toBits ++ 0#5 ++ x ++ 0#8 : BitVec 32)]
  | .ld d b sz vi => [(0x90#8 ++ d.toBits ++ b ++ sz.toBits ++ vi.toBits : BitVec 32)]
  | .st d b sz vi => [(0x91#8 ++ d.toBits ++ b ++ sz.toBits ++ vi.toBits : BitVec 32)]
  | .lds d a imm => [(0x92#8 ++ d.toBits ++ a.toBits ++ imm : BitVec 32)]
  | .sts d a imm => [(0x93#8 ++ d.toBits ++ a.toBits ++ imm : BitVec 32)]
  | .sld d b sz n => [(0x94#8 ++ d.toBits ++ b ++ sz.toBits ++ n : BitVec 32)]
  | .bset a b => [(0x95#8 ++ a.toBits ++ b ++ 0#11 : BitVec 32)]
  | .bget d b => [(0x96#8 ++ d.toBits ++ b ++ 0#11 : BitVec 32)]
  | .fence ord scope => [(0x97#8 ++ 0#18 ++ ord.toBits ++ 0#1 ++ scope.toBits : BitVec 32)]
  | .tfence scope => [(0x98#8 ++ 0#21 ++ scope.toBits : BitVec 32)]
  | .bara d bar => [(0xA0#8 ++ d.toBits ++ 0#8 ++ bar.toBits : BitVec 32)]
  | .barw a bar => [(0xA1#8 ++ a.toBits ++ 0#8 ++ bar.toBits : BitVec 32)]
  | .bars bar => [(0xA2#8 ++ 0#16 ++ bar.toBits : BitVec 32)]
  | .barexp a bar => [(0xA3#8 ++ a.toBits ++ 0#8 ++ bar.toBits : BitVec 32)]
  | .ctxnew d => [(0xA4#8 ++ d.toBits ++ 0#16 : BitVec 32)]
  | .ctxtry d pd => [(0xA5#8 ++ d.toBits ++ 0#4 ++ pd ++ 0#8 : BitVec 32)]
  | .contextTagRegister _ => []
  | .ctxset a => [(0xA6#8 ++ 0#8 ++ a.toBits ++ 0#8 : BitVec 32)]
  | .ctxretCommit d a => [(0xA7#8 ++ d.toBits ++ a.toBits ++ 0x0#8 : BitVec 32)]
  | .ctxretDrop d a => [(0xA7#8 ++ d.toBits ++ a.toBits ++ 0x1#8 : BitVec 32)]
  | .ctxq d a => [(0xA8#8 ++ d.toBits ++ a.toBits ++ 0#8 : BitVec 32)]
  | .accclr acc => [(0xB0#8 ++ 0#15 ++ acc : BitVec 32)]
  | .accrel acc => [(0xB1#8 ++ 0#15 ++ acc : BitVec 32)]
  | .cvt d a code => [(0xC0#8 ++ d.toBits ++ a.toBits ++ code : BitVec 32)]
  | .pkh d a fmt => [(0xC1#8 ++ d.toBits ++ a.toBits ++ fmt : BitVec 32)]
  | .upkh d a fmt => [(0xC2#8 ++ d.toBits ++ a.toBits ++ fmt : BitVec 32)]
  | .qw q a => [(0xD0#8 ++ 0#4 ++ q ++ 0#8 ++ a.toBits : BitVec 32)]
  | .qr q d => [(0xD1#8 ++ 0#4 ++ q ++ 0#8 ++ d.toBits : BitVec 32)]
  | .qtry pd q d => [(0xD2#8 ++ pd ++ q ++ 0#8 ++ d.toBits : BitVec 32)]
  | .sgret a => [(0xD3#8 ++ 0#8 ++ a.toBits ++ 0#8 : BitVec 32)]
  | .sgstat d slot code => [(0xD4#8 ++ d.toBits ++ 0#2 ++ slot ++ 0#4 ++ code : BitVec 32)]
  | .boost d imm => [(0xE0#8 ++ d.toBits ++ imm : BitVec 32)]
  | .boostrel => [(0xE1#8 ++ 0#24 : BitVec 32)]
  | .ffmaF32 d a b c => [(0xF0#8 ++ d.toBits ++ a.toBits ++ b.toBits : BitVec 32), (0x0#8 ++ c.toBits ++ 0#16 : BitVec 32)]
  | .hfmaF16 d a b c => [(0xF0#8 ++ d.toBits ++ a.toBits ++ b.toBits : BitVec 32), (0x1#8 ++ c.toBits ++ 0#16 : BitVec 32)]
  | .hfmaBf16 d a b c => [(0xF0#8 ++ d.toBits ++ a.toBits ++ b.toBits : BitVec 32), (0x2#8 ++ c.toBits ++ 0#16 : BitVec 32)]
  | .imad d a b c => [(0xF0#8 ++ d.toBits ++ a.toBits ++ b.toBits : BitVec 32), (0x3#8 ++ c.toBits ++ 0#16 : BitVec 32)]
  | .sel d a b p => [(0xF0#8 ++ d.toBits ++ a.toBits ++ b.toBits : BitVec 32), (0x4#8 ++ 0#12 ++ p ++ 0#8 : BitVec 32)]
  | .bfe d a sgn pos len => [(0xF0#8 ++ d.toBits ++ a.toBits ++ 0#8 : BitVec 32), (0x5#8 ++ 0#8 ++ (BitVec.ofBool sgn) ++ 0#2 ++ pos ++ len : BitVec 32)]
  | .bfi d a b pos len => [(0xF0#8 ++ d.toBits ++ a.toBits ++ b.toBits : BitVec 32), (0x6#8 ++ 0#11 ++ pos ++ len : BitVec 32)]
  | .iamin d a b c => [(0xF0#8 ++ d.toBits ++ a.toBits ++ b.toBits : BitVec 32), (0x7#8 ++ c.toBits ++ 0#16 : BitVec 32)]
  | .logt d a b c tt => [(0xF0#8 ++ d.toBits ++ a.toBits ++ b.toBits : BitVec 32), (0x8#8 ++ c.toBits ++ 0#8 ++ tt : BitVec 32)]
  | .dot4I8 d a b c => [(0xF0#8 ++ d.toBits ++ a.toBits ++ b.toBits : BitVec 32), (0x9#8 ++ c.toBits ++ 0#16 : BitVec 32)]
  | .spcmp d a c fmt half => [(0xF0#8 ++ d.toBits ++ a.toBits ++ 0#8 : BitVec 32), (0xA#8 ++ c.toBits ++ 0#6 ++ fmt.toBits ++ 0#7 ++ (BitVec.ofBool half) : BitVec 32)]
  | .iaddk d a k => [(0xF1#8 ++ d.toBits ++ a.toBits ++ 0x0#8 : BitVec 32), (k : BitVec 32)]
  | .movk d k => [(0xF1#8 ++ d.toBits ++ 0#8 ++ 0x1#8 : BitVec 32), (k : BitVec 32)]
  | .andk d a k => [(0xF1#8 ++ d.toBits ++ a.toBits ++ 0x2#8 : BitVec 32), (k : BitVec 32)]
  | .ork d a k => [(0xF1#8 ++ d.toBits ++ a.toBits ++ 0x3#8 : BitVec 32), (k : BitVec 32)]
  | .faddk d a k => [(0xF1#8 ++ d.toBits ++ a.toBits ++ 0x4#8 : BitVec 32), (k : BitVec 32)]
  | .fmulk d a k => [(0xF1#8 ++ d.toBits ++ a.toBits ++ 0x5#8 : BitVec 32), (k : BitVec 32)]
  | .ldl d b sz vi off => [(0xF2#8 ++ d.toBits ++ b ++ sz.toBits ++ vi.toBits : BitVec 32), (0x0#8 ++ off : BitVec 32)]
  | .stl d b sz vi off => [(0xF2#8 ++ d.toBits ++ b ++ sz.toBits ++ vi.toBits : BitVec 32), (0x1#8 ++ off : BitVec 32)]
  | .ldx d b sz vi k off => [(0xF2#8 ++ d.toBits ++ b ++ sz.toBits ++ vi.toBits : BitVec 32), (0x2#8 ++ k ++ off : BitVec 32)]
  | .atom d b vi op ord ty scope val => [(0xF2#8 ++ d.toBits ++ b ++ 0#3 ++ vi.toBits : BitVec 32), (0x3#8 ++ op.toBits ++ ord.toBits ++ ty.toBits ++ scope.toBits ++ 0#5 ++ val.toBits : BitVec 32)]
  | .red b vi op ord ty scope val => [(0xF2#8 ++ 0#8 ++ b ++ 0#3 ++ vi.toBits : BitVec 32), (0x4#8 ++ op.toBits ++ ord.toBits ++ ty.toBits ++ scope.toBits ++ 0#5 ++ val.toBits : BitVec 32)]
  | .atoms d vi op ord ty scope val => [(0xF2#8 ++ d.toBits ++ 0#8 ++ vi.toBits : BitVec 32), (0x5#8 ++ op.toBits ++ ord.toBits ++ ty.toBits ++ scope.toBits ++ 0#5 ++ val.toBits : BitVec 32)]
  | .tcopyLd d a b lvl post n sswz => [(0xF3#8 ++ d.toBits ++ a.toBits ++ b.toBits : BitVec 32), (0x10#8 ++ lvl.toBits ++ 0#2 ++ (Post.toBits post) ++ n ++ sswz ++ 0#6 : BitVec 32)]
  | .tcopySt d a b lvl post n sswz => [(0xF3#8 ++ d.toBits ++ a.toBits ++ b.toBits : BitVec 32), (0x11#8 ++ lvl.toBits ++ 0#2 ++ (Post.toBits post) ++ n ++ sswz ++ 0#6 : BitVec 32)]
  | .tcopyiPack d a b lvl post n sswz => [(0xF3#8 ++ d.toBits ++ a.toBits ++ b.toBits : BitVec 32), (0x12#8 ++ lvl.toBits ++ 0#2 ++ (Post.toBits post) ++ n ++ sswz ++ 0#6 : BitVec 32)]
  | .tcopyiUnpack d a b lvl post n sswz => [(0xF3#8 ++ d.toBits ++ a.toBits ++ b.toBits : BitVec 32), (0x13#8 ++ lvl.toBits ++ 0#2 ++ (Post.toBits post) ++ n ++ sswz ++ 0#6 : BitVec 32)]
  | .tmov d a src dst post => [(0xF3#8 ++ d.toBits ++ a.toBits ++ 0#8 : BitVec 32), (0x14#8 ++ src.toBits ++ dst.toBits ++ (Post.toBits post) ++ 0#13 : BitVec 32)]
  | .mma accLo a b accHi ru zf fmt kb => [(0xF3#8 ++ accLo ++ a.toBits ++ b.toBits : BitVec 32), (0x40#8 ++ accHi ++ (BitVec.ofBool ru) ++ (BitVec.ofBool zf) ++ fmt.toBits ++ 0#10 ++ kb : BitVec 32)]
  | .mmaSp accLo a b accHi ru zf fmt m kb => [(0xF3#8 ++ accLo ++ a.toBits ++ b.toBits : BitVec 32), (0x41#8 ++ accHi ++ (BitVec.ofBool ru) ++ (BitVec.ofBool zf) ++ fmt.toBits ++ 0#2 ++ m.toBits ++ kb : BitVec 32)]
  | .accld a b fmt rows acc => [(0xF3#8 ++ 0#8 ++ a.toBits ++ b.toBits : BitVec 32), (0x42#8 ++ fmt.toBits ++ rows ++ 0#6 ++ acc : BitVec 32)]
  | .accst a b fmt rows acc => [(0xF3#8 ++ 0#8 ++ a.toBits ++ b.toBits : BitVec 32), (0x43#8 ++ fmt.toBits ++ rows ++ 0#6 ++ acc : BitVec 32)]
  | .accrd d cv cg acc => [(0xF3#8 ++ d.toBits ++ 0#16 : BitVec 32), (0x44#8 ++ cv.toBits ++ cg ++ 0#9 ++ acc : BitVec 32)]
  | .accwr d cv cg acc => [(0xF3#8 ++ d.toBits ++ 0#16 : BitVec 32), (0x45#8 ++ cv.toBits ++ cg ++ 0#9 ++ acc : BitVec 32)]
  | .sgcall d a slot pd => [(0xF3#8 ++ d.toBits ++ a.toBits ++ 0#8 : BitVec 32), (0x60#8 ++ 0#2 ++ slot ++ pd ++ 0#12 : BitVec 32)]
  | .sgloadLoad d a slot => [(0xF3#8 ++ d.toBits ++ a.toBits ++ 0#8 : BitVec 32), (0x61#8 ++ 0#2 ++ slot ++ 0#2 ++ 0#14 : BitVec 32)]
  | .sgloadQual d a slot => [(0xF3#8 ++ d.toBits ++ a.toBits ++ 0#8 : BitVec 32), (0x61#8 ++ 0#2 ++ slot ++ 1#2 ++ 0#14 : BitVec 32)]
  | .sgloadRel d slot => [(0xF3#8 ++ d.toBits ++ 0#16 : BitVec 32), (0x61#8 ++ 0#2 ++ slot ++ 2#2 ++ 0#14 : BitVec 32)]
  | .sgloadClr d slot => [(0xF3#8 ++ d.toBits ++ 0#16 : BitVec 32), (0x61#8 ++ 0#2 ++ slot ++ 3#2 ++ 0#14 : BitVec 32)]
  | .tdview d a ro => [(0xF3#8 ++ d.toBits ++ a.toBits ++ 0#8 : BitVec 32), (0x70#8 ++ (BitVec.ofBool ro) ++ 0#23 : BitVec 32)]
  | .coll d a op ty => [(0xF3#8 ++ d.toBits ++ a.toBits ++ 0#8 : BitVec 32), (0x78#8 ++ op.toBits ++ ty ++ 0#18 : BitVec 32)]
  | .bpset d a k => [(0xF4#8 ++ d.toBits ++ a.toBits ++ 0#8 : BitVec 32), (0x0#8 ++ 0#21 ++ k : BitVec 32)]
  | .wpset d a k => [(0xF4#8 ++ d.toBits ++ a.toBits ++ 0#8 : BitVec 32), (0x1#8 ++ 0#22 ++ k : BitVec 32)]
  | .stepArm d a => [(0xF4#8 ++ d.toBits ++ a.toBits ++ 0#8 : BitVec 32), (0x2#8 ++ 0#23 ++ 1#1 : BitVec 32)]
  | .stepOff d a => [(0xF4#8 ++ d.toBits ++ a.toBits ++ 0#8 : BitVec 32), (0x2#8 ++ 0#23 ++ 0#1 : BitVec 32)]
  | .dbrd d a => [(0xF4#8 ++ d.toBits ++ a.toBits ++ 0#8 : BitVec 32), (0x3#8 ++ 0#24 : BitVec 32)]
  | .dbwr d a b => [(0xF4#8 ++ d.toBits ++ a.toBits ++ b.toBits : BitVec 32), (0x4#8 ++ 0#24 : BitVec 32)]
  | .barrd d a => [(0xF4#8 ++ d.toBits ++ a.toBits ++ 0#8 : BitVec 32), (0x5#8 ++ 0#24 : BitVec 32)]
  | .barwr d a b => [(0xF4#8 ++ d.toBits ++ a.toBits ++ b.toBits : BitVec 32), (0x6#8 ++ 0#24 : BitVec 32)]
  | .clauseIssue _ => []
  | .activeSetEnter _ => []
  | .activeSetLeave _ => []
  | .groupAdmit _ => []
  | .swapOut _ => []
  | .swapIn _ => []
  | .groupFree _ => []
  | .loadReturn _ _ => []
  | .lineArriveHome _ => []
  | .atomicPerform _ _ => []
  | .cellWaitGrant _ => []
  | .tableWalk _ _ _ _ => []
  | .meteringWindow => []
  | .copyStart _ => []
  | .copyLine _ => []
  | .copyComplete _ => []
  | .matrixCommandExecute _ => []
  | .surrogateEvaluate _ _ => []
  | .sgloadComplete _ => []
  | .recoveryGroupForm _ _ => []
  | .retireGranule _ _ _ => []
  | .contextRetireComplete _ => []
  | .contextStallTimeout _ => []
  | .barrierPhaseRelease _ _ => []
  | .releaseWindowEnd _ => []
  | .trapEntry _ => []
  | .watchpointReportDue _ => []
  | .timeSlice _ => []
  | .preemptDrainTimeout _ => []
  | .jobRestore _ => []
  | .evict _ _ => []
  | .migrate _ _ => []
  | .migrationAbandon _ => []
  | .placeBlocks _ => []
  | .blockCompletion _ => []
  | .tagPoolRequest _ _ => []
  | .tagPoolGrant _ _ _ => []
  | .stallReport _ => []
  | .disableReport _ _ => []
  | .surrogateDisable _ _ => []
  | .trapDispatch _ => []
  | .launchComplete _ => []
  | .bundleFetch _ _ => []
  | .bundleAdmit _ => []
  | .bundleRetire _ => []
  | .codeLoad _ _ _ => []
  | .copyProgramRun _ _ => []
  | .surrogateLoadSublaunch _ _ => []
  | .collectiveSublaunch _ _ => []
  | .collectiveComplete _ _ _ => []
  | .boostBoundary => []
  | .sustainedPowerLimit => []
  | .emergencyPowerLimit => []
  | .sliceRatioChange _ _ _ => []
  | .sensorSample _ _ => []
  | .voltageDroop _ => []
  | .coreAvoid _ => []
  | .coreReadmit _ => []
  | .wearAccumulate => []
  | .wearReportRefresh => []
  | .retentionEntry _ _ => []
  | .retentionExit _ _ _ => []
  | .hostLinkDown _ => []
  | .hostMemoryAccess _ _ _ _ => []
  | .registerJob _ => []
  | .unregisterJob _ => []
  | .claimFrames _ => []
  | .releaseFrames _ => []
  | .defineCommunicator _ => []
  | .attest _ => []
  | .sqWritePointer _ _ _ => []
  | .sqEnable _ _ _ => []
  | .registerWrite _ _ _ => []
  | .granialeFlitReceive _ _ _ => []
  | .linkWidthChange _ _ => []
  | .powerOnReset _ _ => []
  | .peerLost _ => []
  | .hostLinkUp _ => []

end Sys2Proof
end

