-- ==== Sys2Proof/Config.lean ====
section
/-!
DEFINITION. What one L128 fixes for itself and the values the spec leaves open. An opaque constant is a FREE
VALUE: nothing here says which value it has, and a statement holds whatever it is.
-/

namespace Sys2Proof

/-- What firmware sets while the part runs: a slice's ceiling (R401) and timing-safe point (R402), a core's swap reserve
in bytes and swapmin (R118, R119, R169), T_avoid in °C (R392), S_min (R410), a cluster's line budget at a stack (R399),
the time before retention in µs, and whether an array may enter it (R186). -/
inductive Setting where
  | sliceCeiling (core slice n : Nat)
  | safePoint (core slice n : Nat)
  | swapReserve (core bytes : Nat)
  | swapmin (core n : Nat)
  | tAvoid (deg : Nat)
  | sMin (n : Nat)
  | meter (cluster stack n : Nat)
  | retainAfter (us : Nat)
  | retainForbid (arr : SramArray) (on : Bool)
  deriving DecidableEq, Repr, Inhabited

/-- What moves next (assumption log 1): one slice takes one slice cycle (R103), with the timing errors detected in
its issue (R402), one event of the table happens, firmware sets something, or a unit of the package offers a flit to a
Graniale port (R424, R425). -/
inductive Act where
  | slice (core slice errors : Nat)
  | event (i : Instr)
  | firmware (f : Setting)
  | offer (port : Nat) (f : Flit)
  deriving DecidableEq, Repr, Inhabited

/-- One turn of the part's agents: the nanoseconds of the global time base that pass first (R21), the
uncorrectable errors that arise meanwhile (R185) and the corrected ones, as error-counter unit and array (R423),
and then what moves. -/
structure Turn where
  dt : Nat
  upsets : List BadLoc
  corrected : List (Nat × Nat)
  act : Act
  deriving DecidableEq, Repr, Inhabited

namespace Config

/-- The order in which the part's units move where the spec gives none: the turn taken when the agenda of the
state is empty. FREE VALUE (assumption log 1). -/
opaque turn : Nat → Turn

/-- Choices among equals that the spec leaves open: which tag of a pool (R217), which trap save area (R170),
which launch number (R389). FREE VALUE (assumption log 2). -/
opaque pick : Nat → Nat

/-- The result of a special function whose rounding the model's interval arithmetic leaves undecided at its
highest precision; no fp32 operand is known to reach it. FREE VALUE (assumption log 3). -/
opaque undecidedSpecial : Nat → Word → Word

/-- The version word of the loaded firmware (R420). FREE VALUE (assumption log 4). -/
opaque firmwareVersion : Word

/-- The digests of the loaded firmware and Sheepdog images (R435). FREE VALUE (assumption log 4). -/
opaque firmwareDigest : BitVec 512
opaque sheepdogDigest : BitVec 512

/-- The Ed25519 signature of the device identity key, which the spec does not give (R435). FREE VALUE (assumption
log 4). -/
opaque sign : List Byte → BitVec 512

/-- The cores a job may ever hold, set by firmware (R378). FREE VALUE (assumption log 5). -/
opaque coreMaskCeiling : Nat → BitVec 128

/-- Whether firmware forbids boost to a job (R408). FREE VALUE (assumption log 5). -/
opaque boostForbidden : Nat → Bool

/-- Whether the Kennel can back a cell capacity, in 2 MiB units, for one more job (R421). FREE VALUE
(assumption log 5). -/
opaque kennelCanBack : Nat → Bool

/-- The MSI-X vector that an uncorrectable error of a job raises (R433 gives no number), by job. FREE VALUE (assumption
log 52). -/
opaque errorVector : Nat → Nat

/-- What a lane reads from a byte of HBM whose 64-bit word is uncorrectable (R433 gives no value), by step and
address. FREE VALUE (assumption log 7). -/
opaque badData : Nat → Nat → Byte

/-- What a byte of a collective's destination holds after a collective fault (R429): its old value (none), or a value
the collective could have written there, which is this one where the sources that decide it are not known. FREE VALUE
(assumption log 9). -/
opaque collectiveFault : Nat → Nat → Option Byte

/-- The largest of some fp32 values where one of them is a NaN (R312, R323 state none). FREE VALUE (assumption log
10). -/
opaque largestWithNan : List Nat → Nat

/-- A word of a register or record that the spec leaves unstated: the value DBRD or BARRD leaves beside a status other
than ok, and words of a message that a log entry names. FREE VALUE (assumption log 12). -/
opaque unstated : Nat → Word

/-- The places that the spec leaves to the part or its firmware: the byte of its array at which an allotment begins, by
array and allotment (R168, R186), the die copy engine that takes a command, by command (R260, R386), and the byte
offset from a job's save area, and the bytes, of an event record (R433). FREE VALUE (assumption log 55). -/
opaque scratchBase : Nat → Nat → Nat
opaque dieEngine : Nat → Nat
opaque eventPlace : Nat → Nat
opaque eventByte : Nat → Nat → Byte

/-- Whether a read of an entry from a host's memory fails (R422), by draw. FREE VALUE (assumption log 15). -/
opaque hostFails : Nat → Bool

/-- Which bytes of an entry rewritten between the pointers are the old ones (R379), by draw and byte. FREE VALUE
(assumption log 15). -/
opaque oldByte : Nat → Nat → Bool

/-- The bytes of a job's save area that a launch needs at least (R378 gives no formula), by job and kernel name.
FREE VALUE (assumption log 40). -/
opaque saveNeed : Nat → List Byte → Nat

/-- A byte of a host's memory as the part reads it, by draw, port and address: the host may have written anything
there. FREE VALUE (assumption log 15). -/
opaque hostByte : Nat → Nat → Nat → Byte

/-- What a byte of HBM that nothing has written reads as. DESIGN CHOICE (assumption log 6). -/
def hbmFill : Byte := 0#8

/-- The stepping tag of the L128 of every stepping (R35). -/
def stepping : Nat := 0x01

/-- Bytes of one core scratchpad (R3). -/
def coreScratchBytes : Nat := 393216

/-- Bytes of one die's Kennel directory (R4, R17). -/
def kennelDirectoryBytes : Nat := 8388608

/-- Bytes of one cluster scratchpad (R4). -/
def clusterScratchBytes : Nat := 4194304

/-- Bytes of one die scratchpad (R4). -/
def dieScratchBytes : Nat := 50331648

/-- Bytes of one core's trap save pool: 16 areas of 4,224 bytes (R169). -/
def savePoolBytes : Nat := 67584

/-- Bytes of HBM: 384 GiB (R6). -/
def hbmBytes : Nat := 412316860416

/-- 2 MiB frames of HBM (R195, R419). -/
def hbmFrames : Nat := 196608

/-- Words of one cluster's code memory (R25). -/
def codeWords : Nat := 262144

/-- Entries of the recovery queue (R3). -/
def recoveryEntries : Nat := 1024

/-- Outstanding global requests of a core (R202). -/
def requestEntries : Nat := 8192

/-- Lines of the store-forwarding queue (R203). -/
def sfqLines : Nat := 512

/-- Places of the copy engine's command queue (R260) and of the matrix engine's (R284). -/
def copyQueue : Nat := 32
def matrixQueue : Nat := 16

/-- Places of the collective engine's command queue (17_links.md). -/
def collectiveQueue : Nat := 256

end Config

end Sys2Proof
end

