-- ==== Sys2Proof/Machine/Tab.lean ====
section
/-!
DEFINITION. Tables: sorted lists of a number and what stands under it, the plain-data form of every numbered
collection of the state, and the sparse byte memory.
-/

namespace Sys2Proof.Machine

/-- A table: entries in strictly rising order of their numbers. -/
abbrev Tab (α : Type) := List (Nat × α)

/-- What stands under a number. -/
def Tab.get? {α : Type} (t : Tab α) (k : Nat) : Option α :=
  match t with
  | [] => none
  | (k', x) :: t => if k' = k then some x else Tab.get? t k

/-- What stands under a number, or the given value where nothing does. -/
def Tab.getD {α : Type} (t : Tab α) (k : Nat) (d : α) : α := (Tab.get? t k).getD d

/-- Whether anything stands under a number. -/
def Tab.has {α : Type} (t : Tab α) (k : Nat) : Bool := (Tab.get? t k).isSome

/-- Puts a value under a number, keeping the order. -/
def Tab.set {α : Type} (t : Tab α) (k : Nat) (x : α) : Tab α :=
  match t with
  | [] => [(k, x)]
  | (k', y) :: t =>
    if k < k' then (k, x) :: (k', y) :: t
    else if k = k' then (k, x) :: t
    else (k', y) :: Tab.set t k x

/-- Takes away what stands under a number. -/
def Tab.del {α : Type} (t : Tab α) (k : Nat) : Tab α := t.filter fun e => e.1 ≠ k

/-- Changes what stands under a number, if anything does. -/
def Tab.upd {α : Type} (t : Tab α) (k : Nat) (f : α → α) : Tab α :=
  match t with
  | [] => []
  | (k', y) :: t => if k' = k then (k', f y) :: t else (k', y) :: Tab.upd t k f

/-- Changes every entry. -/
def Tab.mapVals {α β : Type} (t : Tab α) (f : Nat → α → β) : Tab β := t.map fun e => (e.1, f e.1 e.2)

/-- The entries a test keeps. -/
def Tab.keep {α : Type} (t : Tab α) (p : Nat → α → Bool) : Tab α := t.filter fun e => p e.1 e.2

/-- The numbers of a table. -/
def Tab.keys {α : Type} (t : Tab α) : List Nat := t.map Prod.fst

/-- The order of the entries' numbers is strictly rising. -/
def Tab.sorted {α : Type} : Tab α → Bool
  | [] => true
  | [_] => true
  | (a, _) :: (b, y) :: t => decide (a < b) && Tab.sorted ((b, y) :: t)

/-- A byte of a memory whose unlisted addresses read as `d`. -/
def memRead (d : Byte) (m : Tab Byte) (a : Nat) : Byte := Tab.getD m a d

/-- Writes a byte, keeping the one form: writing `d` takes the entry away. -/
def memWrite (d : Byte) (m : Tab Byte) (a : Nat) (x : Byte) : Tab Byte :=
  if x = d then Tab.del m a else Tab.set m a x

/-- The one form of a memory: rising addresses and no entry equal to what an unlisted address reads as. -/
def memWf (d : Byte) (m : Tab Byte) : Bool := Tab.sorted m && m.all fun e => e.2 != d

/-- The bytes from an address on, lowest address first. -/
def memBytes (d : Byte) (m : Tab Byte) (a : Nat) : Nat → List Byte
  | 0 => []
  | n + 1 => memRead d m a :: memBytes d m (a + 1) n

/-- Writes bytes from an address on. -/
def memWriteBytes (d : Byte) (m : Tab Byte) (a : Nat) : List Byte → Tab Byte
  | [] => m
  | x :: xs => memWriteBytes d (memWrite d m a x) (a + 1) xs

end Sys2Proof.Machine
end

