-- ==== Sys2Proof/Machine/Bits.lean ====
section
/-!
DEFINITION. Bit, byte-order and list helpers that the meanings share.
-/

namespace Sys2Proof.Machine

/-- The number of bits of a number: 0 for 0. -/
def bitLen (n : Nat) : Nat := if n = 0 then 0 else Nat.log2 n + 1

/-- The least k with 2^k at least n (n nonzero). -/
def ceilLog2 (n : Nat) : Nat := if n ≤ 1 then 0 else bitLen (n - 1)

/-- How many of the low `k` bits of a number are one. -/
def countOnes (n : Nat) : Nat → Nat
  | 0 => 0
  | k + 1 => (if n.testBit k then 1 else 0) + countOnes n k

/-- POPC of a word (R141). -/
def popc32 (w : Word) : Word := BitVec.ofNat 32 (countOnes w.toNat 32)

/-- CLZ of a word (R141). -/
def clz32 (w : Word) : Word := BitVec.ofNat 32 (32 - bitLen w.toNat)

/-- BREV of a word (R141): bit k moves to bit 31 − k. -/
def brev32 (w : Word) : Word := w.reverse

/-- A signed view of a word as an integer. -/
def sgn (w : Word) : Int := w.toInt

/-- Wrap32 (R64): an integer modulo 2^32. -/
def wrap32 (n : Int) : Word := BitVec.ofInt 32 n

/-- An integer clamped to a range. -/
def clampInt (lo hi n : Int) : Int := if n < lo then lo else if hi < n then hi else n

/-- The value of bytes, lowest address first, as the part stores numbers (R18, little-endian). -/
def bytesToNat : List Byte → Nat
  | [] => 0
  | b :: bs => b.toNat + 256 * bytesToNat bs

/-- The `n` bytes of a number, lowest first (R18). -/
def natToBytes (v : Nat) : Nat → List Byte
  | 0 => []
  | n + 1 => BitVec.ofNat 8 v :: natToBytes (v / 256) n

/-- The words of a byte list, four bytes each, little-endian. -/
def bytesToWords : List Byte → List Word
  | a :: b :: c :: d :: t => BitVec.ofNat 32 (bytesToNat [a, b, c, d]) :: bytesToWords t
  | _ => []

/-- The bytes of words, little-endian. -/
def wordsToBytes (ws : List Word) : List Byte := ws.flatMap fun w => natToBytes w.toNat 4

/-- The field of `w` bits of a number from bit `lo` on. -/
def bitsOf (n lo w : Nat) : Nat := (n >>> lo) % 2 ^ w

/-- A field as a two's complement integer. -/
def signedOf (n w : Nat) : Int := if 2 ^ w ≤ 2 * n then (n : Int) - 2 ^ w else n

/-- The numbers 0 to n − 1 that a mask of 64 bits names, rising. -/
def maskList (m : Mask) : List Nat := (List.range 64).filter fun i => m.getLsbD i

/-- The mask of the lanes a test names. -/
def maskOf (p : Nat → Bool) : Mask :=
  BitVec.ofNat 64 ((List.range 64).foldl (fun acc i => if p i then acc + 2 ^ i else acc) 0)

/-- The mask with one lane. -/
def laneBit (i : Nat) : Mask := BitVec.ofNat 64 (2 ^ i)

/-- The first element a test names. -/
def firstSome {α β : Type} (f : α → Option β) : List α → Option β
  | [] => none
  | x :: xs => match f x with
    | some y => some y
    | none => firstSome f xs

/-- The sum of a list of numbers. -/
def sumNat (l : List Nat) : Nat := l.foldl (· + ·) 0

/-- The largest number of a list, 0 for none. -/
def maxNat (l : List Nat) : Nat := l.foldl max 0

/-- A list without repeats, its first places kept. -/
def dedup {α : Type} [DecidableEq α] : List α → List α
  | [] => []
  | x :: xs => x :: (dedup xs).filter fun y => y ≠ x

/-- Replaces the n-th element. -/
def setAt {α : Type} (l : List α) (n : Nat) (x : α) : List α := l.set n x

/-- The least number below `n` that a test names. -/
def leastBelow (p : Nat → Bool) : Nat → Option Nat
  | 0 => none
  | n + 1 => match leastBelow p n with
    | some k => some k
    | none => if p n then some n else none

/-- All of a list's values, none where one is missing. -/
def allSome {α : Type} : List (Option α) → Option (List α)
  | [] => some []
  | none :: _ => none
  | some x :: xs => (allSome xs).map fun r => x :: r

end Sys2Proof.Machine
end

