-- ==== Sys2Proof/Machine/Float.lean ====
section
/-!
DEFINITION. The binary formats (R63, R65, R66): values, rounding, flags, and the arithmetic of IEEE 754-2019 on
exact dyadic numbers.
-/

namespace Sys2Proof.Machine

/-- A binary format: the widths of its exponent and fraction fields. -/
structure FFmt where
  ew : Nat
  fw : Nat
  deriving DecidableEq, Repr

/-- fp32, fp16 and bf16 (R63). -/
def fp32 : FFmt := ⟨8, 23⟩
def fp16 : FFmt := ⟨5, 10⟩
def bf16 : FFmt := ⟨8, 7⟩

/-- The exponent bias. -/
def FFmt.bias (f : FFmt) : Int := 2 ^ (f.ew - 1) - 1

/-- The exponent of the unit in the last place of a subnormal. -/
def FFmt.emin (f : FFmt) : Int := 1 - f.bias - f.fw

/-- The exponent field of infinities and NaNs. -/
def FFmt.emax (f : FFmt) : Nat := 2 ^ f.ew - 1

/-- The canonical quiet NaN (R68). -/
def FFmt.nan (f : FFmt) : Nat := f.emax * 2 ^ f.fw + 2 ^ (f.fw - 1)

/-- The sign bit. -/
def FFmt.sign (f : FFmt) (neg : Bool) : Nat := if neg then 2 ^ (f.ew + f.fw) else 0

/-- An infinity. -/
def FFmt.inf (f : FFmt) (neg : Bool) : Nat := f.sign neg + f.emax * 2 ^ f.fw

/-- A zero. -/
def FFmt.zero (f : FFmt) (neg : Bool) : Nat := f.sign neg

/-- The largest finite value of a sign. -/
def FFmt.big (f : FFmt) (neg : Bool) : Nat := f.sign neg + (f.emax * 2 ^ f.fw - 1)

/-- What a code of a format stands for: a finite value is (−1)^neg × m × 2^e. -/
inductive FVal where
  | nan (signalling : Bool)
  | inf (neg : Bool)
  | fin (neg : Bool) (m : Nat) (e : Int)
  deriving DecidableEq, Repr

/-- The value of a code. -/
def FFmt.unpack (f : FFmt) (w : Nat) : FVal :=
  let neg := w.testBit (f.ew + f.fw)
  let ex := bitsOf w f.fw f.ew
  let fr := bitsOf w 0 f.fw
  if ex = f.emax then
    if fr = 0 then .inf neg else .nan (!fr.testBit (f.fw - 1))
  else if ex = 0 then .fin neg fr f.emin
  else .fin neg (fr + 2 ^ f.fw) (f.emin + ex - 1)

/-- Rounding modes (R67). -/
inductive RMode where
  | even | zero | up | down
  deriving DecidableEq, Repr

/-- The mode that sr.rmode [1:0] names (R67). -/
def RMode.ofBits (b : BitVec 2) : RMode :=
  match b with
  | 0#2 => .even
  | 1#2 => .zero
  | 2#2 => .up
  | 3#2 => .down

/-- The flag bits of sr.fflags (R70). -/
abbrev FFlags := BitVec 5

def flInvalid : FFlags := 16#5
def flDivZero : FFlags := 8#5
def flOverflow : FFlags := 4#5
def flUnderflow : FFlags := 2#5
def flInexact : FFlags := 1#5

/-- Whether a discarded part moves a magnitude to the next one up: `rem` of `2^sh`, the kept part's parity. -/
def roundsUp (mode : RMode) (neg : Bool) (odd : Bool) (rem sh : Nat) : Bool :=
  if rem = 0 then false
  else match mode with
    | .even => decide (2 ^ sh < 2 * rem) || (decide (2 ^ sh = 2 * rem) && odd)
    | .zero => false
    | .up => !neg
    | .down => neg

/-- A magnitude m × 2^e as a whole multiple of 2^q, rounded; and whether it was inexact. -/
def roundTo (mode : RMode) (neg : Bool) (m : Nat) (e q : Int) : Nat × Bool :=
  if q ≤ e then (m <<< (e - q).toNat, false)
  else
    let sh := (q - e).toNat
    let k := m >>> sh
    let rem := m % 2 ^ sh
    ((if roundsUp mode neg (k % 2 = 1) rem sh then k + 1 else k), rem ≠ 0)

/-- (−1)^neg × m × 2^e rounded once to a format, with its flags (R65 to R67, R70: tiny is taken after rounding). -/
def FFmt.round (f : FFmt) (mode : RMode) (neg : Bool) (m : Nat) (e : Int) : Nat × FFlags :=
  if m = 0 then (f.zero neg, 0#5)
  else
    let top := (bitLen m : Int) + e
    let free := top - (f.fw + 1)
    let q := if free < f.emin then f.emin else free
    let (k, nx) := roundTo mode neg m e q
    let code := if k < 2 ^ f.fw then k else (q - f.emin).toNat * 2 ^ f.fw + k
    if f.emax * 2 ^ f.fw ≤ code then
      let toInf := match mode with
        | .even => true
        | .zero => false
        | .up => !neg
        | .down => neg
      ((if toInf then f.inf neg else f.big neg), flOverflow ||| flInexact)
    else
      let tiny := decide (free < f.emin) &&
        decide ((roundTo mode neg m e free).1 < 2 ^ (f.fw + 1) ∨ free + 1 < f.emin)
      (f.sign neg + code, (if nx then flInexact else 0#5) ||| (if nx && tiny then flUnderflow else 0#5))

/-- A signed integer multiple of 2^e, rounded; `zneg` is the sign of an exact zero. -/
def FFmt.roundInt (f : FFmt) (mode : RMode) (zneg : Bool) (n : Int) (e : Int) : Nat × FFlags :=
  if n = 0 then (f.zero zneg, 0#5) else f.round mode (decide (n < 0)) n.natAbs e

/-- The signed mantissa of a finite value. -/
def signedMant (neg : Bool) (m : Nat) : Int := if neg then -(m : Int) else m

/-- The exact sum of two dyadic numbers. -/
def dyAdd (a b : Int × Int) : Int × Int :=
  if a.1 = 0 then b else if b.1 = 0 then a
  else if a.2 ≤ b.2 then (a.1 + b.1 * 2 ^ (b.2 - a.2).toNat, a.2)
  else (a.1 * 2 ^ (a.2 - b.2).toNat + b.1, b.2)

/-- The exact sum of a list of dyadic numbers. -/
def dySum (l : List (Int × Int)) : Int × Int := l.foldl dyAdd (0, 0)

/-- The exact product of two dyadic numbers. -/
def dyMul (a b : Int × Int) : Int × Int := (a.1 * b.1, a.2 + b.2)

/-- Whether a value is a signalling NaN. -/
def FVal.isSnan : FVal → Bool
  | .nan s => s
  | .inf _ | .fin _ _ _ => false

/-- Whether a value is a NaN. -/
def FVal.isNan : FVal → Bool
  | .nan _ => true
  | .inf _ | .fin _ _ _ => false

/-- Invalid when an operand is a signalling NaN (R68). -/
def snanFlag (l : List FVal) : FFlags := if l.any FVal.isSnan then flInvalid else 0#5

/-- The sign an exact zero sum takes when its parts' signs differ (R146). -/
def zeroSumNeg (mode : RMode) (na nb : Bool) : Bool := if na = nb then na else decide (mode = .down)

/-- x + y in a format (R146). -/
def FFmt.addV (f : FFmt) (mode : RMode) (x y : FVal) : Nat × FFlags :=
  match x, y with
  | .nan _, _ => (f.nan, snanFlag [x, y])
  | _, .nan _ => (f.nan, snanFlag [x, y])
  | .inf a, .inf b => if a = b then (f.inf a, 0#5) else (f.nan, flInvalid)
  | .inf a, .fin _ _ _ => (f.inf a, 0#5)
  | .fin _ _ _, .inf b => (f.inf b, 0#5)
  | .fin na ma ea, .fin nb mb eb =>
    let s := dyAdd (signedMant na ma, ea) (signedMant nb mb, eb)
    f.roundInt mode (zeroSumNeg mode na nb) s.1 s.2

/-- A value with its sign changed. -/
def FVal.negate : FVal → FVal
  | .nan s => .nan s
  | .inf a => .inf (!a)
  | .fin n m e => .fin (!n) m e

/-- x × y in a format (R146). -/
def FFmt.mulV (f : FFmt) (mode : RMode) (x y : FVal) : Nat × FFlags :=
  match x, y with
  | .nan _, _ => (f.nan, snanFlag [x, y])
  | _, .nan _ => (f.nan, snanFlag [x, y])
  | .inf a, .inf b => (f.inf (a != b), 0#5)
  | .inf a, .fin nb mb _ => if mb = 0 then (f.nan, flInvalid) else (f.inf (a != nb), 0#5)
  | .fin na ma _, .inf b => if ma = 0 then (f.nan, flInvalid) else (f.inf (na != b), 0#5)
  | .fin na ma ea, .fin nb mb eb => f.round mode (na != nb) (ma * mb) (ea + eb)

/-- x × y + z rounded once (R152). -/
def FFmt.fmaV (f : FFmt) (mode : RMode) (x y z : FVal) : Nat × FFlags :=
  let prodInvalid := match x, y with
    | .inf _, .fin _ m _ => decide (m = 0)
    | .fin _ m _, .inf _ => decide (m = 0)
    | _, _ => false
  if prodInvalid then (f.nan, flInvalid)
  else match x, y, z with
    | .nan _, _, _ => (f.nan, snanFlag [x, y, z])
    | _, .nan _, _ => (f.nan, snanFlag [x, y, z])
    | _, _, .nan _ => (f.nan, snanFlag [x, y, z])
    | .fin na ma ea, .fin nb mb eb, .fin nc mc ec =>
      let s := dyAdd (dyMul (signedMant na ma, ea) (signedMant nb mb, eb)) (signedMant nc mc, ec)
      f.roundInt mode (zeroSumNeg mode (na != nb) nc) s.1 s.2
    | .fin _ _ _, .fin _ _ _, .inf c => (f.inf c, 0#5)
    | .inf a, .inf b, .inf c => if (a != b) = c then (f.inf c, 0#5) else (f.nan, flInvalid)
    | .inf a, .inf b, .fin _ _ _ => (f.inf (a != b), 0#5)
    | .inf a, .fin nb _ _, .inf c => if (a != nb) = c then (f.inf c, 0#5) else (f.nan, flInvalid)
    | .inf a, .fin nb _ _, .fin _ _ _ => (f.inf (a != nb), 0#5)
    | .fin na _ _, .inf b, .inf c => if (na != b) = c then (f.inf c, 0#5) else (f.nan, flInvalid)
    | .fin na _ _, .inf b, .fin _ _ _ => (f.inf (na != b), 0#5)

/-- Whether x is below y, −0 below +0 (R69); NaNs aside. -/
def FVal.below (x y : FVal) : Bool :=
  match x, y with
  | .nan _, _ => false
  | _, .nan _ => false
  | .inf a, .inf b => a && !b
  | .inf a, .fin _ _ _ => a
  | .fin _ _ _, .inf b => !b
  | .fin na ma ea, .fin nb mb eb =>
    let d := dyAdd (signedMant na ma, ea) (-(signedMant nb mb), eb)
    if d.1 = 0 then na && !nb && decide (ma = 0) else decide (d.1 < 0)

/-- minimumNumber and maximumNumber on codes (R69). -/
def FFmt.minCode (f : FFmt) (a b : Nat) : Nat × FFlags :=
  let x := f.unpack a; let y := f.unpack b
  let fl := snanFlag [x, y]
  if x.isNan && y.isNan then (f.nan, fl)
  else if x.isNan then (b, fl)
  else if y.isNan then (a, fl)
  else ((if y.below x then b else a), fl)

def FFmt.maxCode (f : FFmt) (a b : Nat) : Nat × FFlags :=
  let x := f.unpack a; let y := f.unpack b
  let fl := snanFlag [x, y]
  if x.isNan && y.isNan then (f.nan, fl)
  else if x.isNan then (b, fl)
  else if y.isNan then (a, fl)
  else ((if x.below y then b else a), fl)

/-- The arithmetic on codes. -/
def FFmt.add (f : FFmt) (mode : RMode) (a b : Nat) : Nat × FFlags := f.addV mode (f.unpack a) (f.unpack b)
def FFmt.sub (f : FFmt) (mode : RMode) (a b : Nat) : Nat × FFlags := f.addV mode (f.unpack a) (f.unpack b).negate
def FFmt.mul (f : FFmt) (mode : RMode) (a b : Nat) : Nat × FFlags := f.mulV mode (f.unpack a) (f.unpack b)
def FFmt.fma (f : FFmt) (mode : RMode) (a b c : Nat) : Nat × FFlags :=
  f.fmaV mode (f.unpack a) (f.unpack b) (f.unpack c)

/-- A code of one format rounded into another (R84). A NaN becomes the canonical NaN of the result's format (R68), of bf16
too, whose other values widen by their bits (R66). DEDUCED (assumption log 34). -/
def FFmt.convert (src dst : FFmt) (mode : RMode) (a : Nat) : Nat × FFlags :=
  match src.unpack a with
  | .nan s => (dst.nan, if s then flInvalid else 0#5)
  | .inf n => (dst.inf n, 0#5)
  | .fin n m e => dst.round mode n m e

/-- A finite value rounded to an integer; and whether a nonzero fraction went (R84, R148). -/
def roundToInt (mode : RMode) (neg : Bool) (m : Nat) (e : Int) : Int × Bool :=
  let r := roundTo mode neg m e 0
  (signedMant neg r.1, r.2)

/-- Float to integer with a range (R84); whether a value is beyond the range is judged after it is rounded.
DESIGN CHOICE (assumption log 34). -/
def FFmt.toInt (f : FFmt) (mode : RMode) (lo hi : Int) (a : Nat) : Int × FFlags :=
  match f.unpack a with
  | .nan _ => (0, flInvalid)
  | .inf n => ((if n then lo else hi), flInvalid)
  | .fin n m e =>
    let (k, nx) := roundToInt mode n m e
    if k < lo then (lo, flInvalid) else if hi < k then (hi, flInvalid)
    else (k, if nx then flInexact else 0#5)

/-- Integer to float (R83). -/
def FFmt.ofInt (f : FFmt) (mode : RMode) (n : Int) : Nat × FFlags := f.roundInt mode false n 0

/-- FRND (R148). -/
def frnd32 (mode : RMode) (a : Nat) : Nat × FFlags :=
  match fp32.unpack a with
  | .nan s => (fp32.nan, if s then flInvalid else 0#5)
  | .inf _ => (a, 0#5)
  | .fin n m e => if 0 ≤ e then (a, 0#5) else ((fp32.round .even n (roundToInt mode n m e).1.natAbs 0).1, 0#5)

/-- FCLASS (R149). -/
def fclass32 (a : Nat) : Nat :=
  match fp32.unpack a with
  | .nan s => if s then 1 else 2
  | .inf n => if n then 4 else 512
  | .fin n m _ =>
    if m = 0 then (if n then 32 else 64)
    else if m < 2 ^ 23 then (if n then 16 else 128)
    else (if n then 8 else 256)

/-- The fp32 sum rounded to nearest even, as reductions and the engines form it (R82, R165). -/
def addEven (a b : Nat) : Nat × FFlags := fp32.add .even a b

/-- The bits of a 32-bit result as a word. -/
def w32 (n : Nat) : Word := BitVec.ofNat 32 n

end Sys2Proof.Machine
end

