-- ==== Sys2Proof/Machine/Tapered.lean ====
section
/-!
DEFINITION. The tapered formats T8 and T6 and their scaled blocks (R72 to R77), the exact sums of the matrix
engine (R78 to R81) and the conversions between them and fp32 (R83 to R85).
-/

namespace Sys2Proof.Machine

/-- The length of the run of bits equal to `b` from bit `i` − 1 of the magnitude field down (R72). -/
def runLen (m : Nat) (b : Bool) : Nat → Nat
  | 0 => 0
  | i + 1 => if m.testBit i = b then 1 + runLen m b i else 0

/-- The value of a nonzero magnitude field of `l` bits, in units of 2^−12 (R72). -/
def tapMag (l m : Nat) : Nat :=
  let b := m.testBit (l - 1)
  let k := runLen m b l
  let regime : Int := if b then (k : Int) - 1 else -(k : Int)
  let rest := l - min (k + 1) l
  let e := if 1 ≤ rest then bitsOf m (rest - 1) 1 else 0
  let nf := if 1 ≤ rest then rest - 1 else 0
  let f := if 1 ≤ nf then bitsOf m 0 nf else 0
  ((2 ^ nf + f) * 2 ^ (2 * regime + e + 12).toNat) / 2 ^ nf

/-- The value of every magnitude field, 0 for the field 0. -/
def tapLattice (l m : Nat) : Nat := if m = 0 then 0 else tapMag l m

/-- DecodeTapered (R72): NX is the NaN. -/
def decodeTapered (w : Nat) (c : Nat) : FVal :=
  let l := w - 1
  let s := c.testBit (w - 1)
  let m := bitsOf c 0 l
  if m = 0 then (if s then .nan false else .fin false 0 0)
  else .fin s (tapMag l m) (-12)

/-- The code of NX (R72). -/
def tapNX (w : Nat) : Nat := 2 ^ (w - 1)

/-- maxT in units of 2^−12 (R76). -/
def tapMax (w : Nat) : Nat := tapLattice (w - 1) (2 ^ (w - 1) - 1)

/-- The nearest magnitude field to n / d units of 2^−12, ties to the even field (R77). -/
def tapNearest (l n d : Nat) : Nat :=
  (List.range (2 ^ l)).foldl (fun best c =>
    if c = 0 then best
    else
      let mid := (tapLattice l (c - 1) + tapLattice l c) * d
      if mid < 2 * n || (mid = 2 * n && c % 2 = 0) then c else best) 0

/-- RoundTapered of (−1)^neg × m × 2^e (R77). -/
def roundTapered (w : Nat) (neg : Bool) (m : Nat) (e : Int) : Nat :=
  let l := w - 1
  let e' := e + 12
  -- beyond 2^40 units every magnitude is above maxT: the exponent need not be spread out
  if m = 0 then 0
  else if 40 < (bitLen m : Int) + e' then (if neg then 2 ^ l else 0) + (2 ^ l - 1)
  else
    let n := if 0 ≤ e' then m * 2 ^ e'.toNat else m
    let d := if 0 ≤ e' then 1 else 2 ^ (-e').toNat
    let c := tapNearest l n d
    if c = 0 then 0 else (if neg then 2 ^ l else 0) + c

/-- Compares dyadic magnitudes: m × 2^e at most m' × 2^e'. -/
def dyLe (a b : Nat × Int) : Bool :=
  let d := dyAdd ((b.1 : Int), b.2) (-(a.1 : Int), a.2)
  decide (0 ≤ d.1)

/-- The flags of a conversion to a tapered element (R84). DEDUCED (assumption log 34). -/
def tapFlags (w : Nat) (v : FVal) : FFlags :=
  match v with
  | .nan _ => flInvalid
  | .inf _ => flInvalid
  | .fin n m e =>
    if !dyLe (m, e) (tapMax w, -12) then flOverflow ||| flInexact
    else
      let back := tapLattice (w - 1) (bitsOf (roundTapered w n m e) 0 (w - 1))
      if dyLe (m, e) (back, -12) && dyLe (back, -12) (m, e) then 0#5 else flInexact

/-- A value as a tapered element with scale 2^0 (R84). -/
def toTapered (w : Nat) (v : FVal) : Nat :=
  match v with
  | .nan _ => tapNX w
  | .inf _ => tapNX w
  | .fin n m e => roundTapered w n m e

/-- The larger of two dyadic magnitudes. -/
def dyMax (a b : Nat × Int) : Nat × Int := if dyLe a b then b else a

/-- The magnitude of a finite value, zero for any other. -/
def FVal.mag : FVal → Nat × Int
  | .nan _ => (0, 0)
  | .inf _ => (0, 0)
  | .fin _ m e => (m, e)

/-- A value times a power of two. -/
def FVal.scale (k : Int) : FVal → FVal
  | .nan s => .nan s
  | .inf n => .inf n
  | .fin n m e => .fin n m (e + k)

/-- The log2 of maxT: 4096 or 256 (R76). -/
def tapTop (w : Nat) : Int := if w = 8 then 12 else 8

/-- EncodeBlock (R76): the block exponent. -/
def blockExp (w : Nat) (x : List FVal) : Nat :=
  let m := (x.map FVal.mag).foldl dyMax (0, 0)
  if m.1 = 0 then 127 else (clampInt 1 254 ((ceilLog2 m.1 : Int) + m.2 - tapTop w + 127)).toNat

/-- EncodeBlock (R76): the μ byte of a block whose exponent is `ex`. -/
def blockMu (w ex : Nat) (x : List FVal) : Nat :=
  (List.range 8).foldl (fun acc p =>
    let pm := dyMax ((x.getD (2 * p) (.nan false)).mag) ((x.getD (2 * p + 1) (.nan false)).mag)
    if dyLe (pm.1, pm.2 - ((ex : Int) - 127)) (1, tapTop w - 1) then acc + 2 ^ p else acc) 0

/-- The scale exponent of element i of a block: E − 127 − μ (R75). -/
def blockScale (ex mu i : Nat) : Int := (ex : Int) - 127 - (if mu.testBit (i / 2) then 1 else 0)

/-- EncodeBlock (R76): the codes of 16 values. -/
def blockCodes (w ex mu : Nat) (x : List FVal) : List Nat :=
  x.mapIdx fun i v => toTapered w (v.scale (-blockScale ex mu i))

/-- Element i of a block (R75). -/
def blockDecode (w ex mu i c : Nat) : FVal :=
  if ex = 255 then .nan false else (decodeTapered w c).scale (blockScale ex mu i)

/-- A value as fp32, to nearest even (R85): NX without a flag. -/
def toFp32Even (v : FVal) : Nat × FFlags :=
  match v with
  | .nan _ => (fp32.nan, 0#5)
  | .inf n => (fp32.inf n, 0#5)
  | .fin n m e => fp32.round .even n m e

/-- A product inside a k-block: NaN, an infinity, or an exact number with the sign of a zero (R79). -/
def prodExact (x y : FVal) : FVal :=
  match x, y with
  | .nan _, _ => .nan false
  | _, .nan _ => .nan false
  | .inf a, .inf b => .inf (a != b)
  | .inf a, .fin b m _ => if m = 0 then .nan false else .inf (a != b)
  | .fin a m _, .inf b => if m = 0 then .nan false else .inf (a != b)
  | .fin a m e, .fin b m' e' => .fin (a != b) (m * m') (e + e')

/-- The exact sum of one k-block's products, rounded once to fp32 (R79). DEDUCED (assumption log 34). -/
def kblockSum (ps : List FVal) : Nat :=
  if ps.any FVal.isNan then fp32.nan
  else
    let pos := ps.any fun p => p == .inf false
    let neg := ps.any fun p => p == .inf true
    if pos && neg then fp32.nan
    else if pos then fp32.inf false
    else if neg then fp32.inf true
    else
      let s := dySum (ps.map fun p => match p with
        | .fin n m e => (signedMant n m, e)
        | .nan _ | .inf _ => (0, 0))
      let zneg := ps.all fun p => match p with
        | .fin n _ _ => n
        | .nan _ | .inf _ => false
      (fp32.roundInt .even zneg s.1 s.2).1

/-- The parts of an fp32 operand (R81): hi cut to 7 fraction bits, lo the rest rounded to bf16. -/
def splitHi (v : FVal) : FVal :=
  match v with
  | .nan s => .nan s
  | .inf n => .inf n
  | .fin n m e => .fin n (m / 2 ^ 16 * 2 ^ 16) e

def splitLo (v : FVal) : FVal :=
  match v with
  | .nan s => .nan s
  | .inf _ => .fin false 0 0
  | .fin n m e => bf16.unpack (bf16.round .even n (m % 2 ^ 16) e).1

end Sys2Proof.Machine
end

