-- ==== Sys2Proof/Machine/State.lean ====
section
/-!
DEFINITION. The state of the L128 as plain data: everything the spec gives the machine, from the registers of a
group to the host ports, and the machine right after power-on reset.
-/

namespace Sys2Proof.Machine

/-! ### Groups -/

/-- What a trap sets aside and a group otherwise holds for its lanes (R87, R94, R97, R112, R115, R357). Lane
conditions are masks: a lane in none of `active`, `parked`, `exited` is absent. -/
structure LaneState where
  active : Mask
  parked : Tab Mask
  exited : Mask
  lpc : Tab Nat
  lage : Tab Nat
  p : Tab Mask
  x : Tab Word
  j : Tab Mask
  rep : Nat
  repN : Nat
  repAddr : Nat
  agelimit : Nat
  rmode : BitVec 2
  fflags : BitVec 5
  ctag : BitVec 16
  deriving DecidableEq, Repr

/-- A place a result lands in: a register of a lane, a scalar, a predicate or an index register. -/
inductive Target where
  | v (r lane : Nat)
  | s (r : Nat)
  | p (k lane : Nat)
  | x (k lane : Nat)
  deriving DecidableEq, Repr

/-- A fixed-latency result on its way in native mode (R35): the issue slot from which reads see it. -/
structure Inflight where
  land : Nat
  target : Target
  val : Word
  deriving DecidableEq, Repr

/-- What the scoreboard marks (R127, R317). -/
inductive PReg where
  | v (r : Nat)
  | s (r : Nat)
  | p (k : Nat)
  deriving DecidableEq, Repr

/-- A pending bit: the operation that will clear it, whether its result goes to the trap save area (R357), and
whether a trap handler issued it (R363). -/
structure Pend where
  reg : PReg
  op : Nat
  saved : Bool
  handler : Bool
  deriving DecidableEq, Repr

/-- The clause a group is in the middle of (R26, R90): its header's address and word, the next word's index, the
lanes, the word index a resumed issue does not match breakpoints at (R365), and whether TRET has just re-entered it
(R364). -/
structure Clause where
  header : Nat
  hw : Word
  pos : Nat
  exec : Mask
  served : Mask
  skipBp : Nat
  reentry : Bool
  deriving DecidableEq, Repr

/-- A watchpoint report not yet delivered (R354, R355, R370): its cause, detail, object, offset and lanes, the words of
the group still to go before it falls due, the time and the core cycle at which it falls due at the latest (0 for none),
the copy command whose status waits for it, and whether it is due. -/
structure Report where
  cause : Nat
  detail : Nat
  obj : Nat
  off : Nat
  lanes : Option Mask
  left : Nat
  by_ : Nat
  cyc : Nat
  src : Nat
  due : Bool
  deriving DecidableEq, Repr

/-- A cause: its code, detail word, the lanes it concerns (none: Exec), object and offset (R354, R360). -/
structure Cause where
  code : Nat
  detail : Nat
  lanes : Option Mask
  obj : Nat
  off : Nat
  deriving DecidableEq, Repr

/-- A raised trap (R354 to R360): the record's words, the interrupted clause, whether it was taken at a header,
whether its handler has started, the save area it holds (none again while the job is saved), what entry sets aside, and
the further causes of the same word (R370). -/
structure TrapFrame where
  record : List Word
  clause : Option Clause
  header : Bool
  raised : Nat
  entered : Bool
  area : Option Nat
  lanes : LaneState
  sv : Tab Word
  ss : Tab Word
  more : List Cause
  deriving DecidableEq, Repr

/-- Where a group stands (R117, R375): waiting for a residency place, held in the files, swapped, or saved. -/
inductive Residency where
  | waiting | held | swapped | saved
  deriving DecidableEq, Repr

/-- A BOOST claim (R408): the boundaries it still lives through, none for one held until released. -/
structure Claim where
  left : Option Nat
  deriving DecidableEq, Repr

/-- A group (R12, R61, R115). `recov` is a recovery group's slot and the entries its lanes serve (R322). `fwd` are the
queue lines its loads were forwarded from (R252), `seen` those of its core's queue at its last acquire (R255), `behind`
those of the queue of a core it was moved off (R250); `wantedBy` is the trapped group whose DBRD or DBWR it is held
for (R373). -/
structure Group where
  launch : Nat
  block : Option Nat
  gix : Nat
  core : Nat
  slice : Nat
  width : Nat
  vregs : Nat
  sregs : Nat
  names : Nat
  helpers : Mask
  res : Residency
  since : Nat
  lanes : LaneState
  v : Tab Word
  s : Tab Word
  b : Tab Word
  slot : Nat
  inflight : List Inflight
  pend : List Pend
  clause : Option Clause
  trap : Option TrapFrame
  cnts : Tab (List (Nat × Bool))
  sleep : Option Nat
  hold : Option Nat
  ctxwait : Bool
  barsTok : Option Nat
  arrivals : Tab Nat
  fwd : List Nat
  seen : List Nat
  behind : List Nat
  wantedBy : Option Nat
  cpfault : Word
  bounds : Bool
  reports : List Report
  dropped : Nat
  step : Bool
  claim : Option Claim
  qbuf : Tab (List Word)
  qcmp : Tab (List Word)
  qclaims : Tab (List Nat)
  qout : Tab Nat
  done : Bool
  waitCnt : Nat
  readyCnt : Nat
  idleCnt : Nat
  stallWait : Option Nat
  recov : Option (Nat × List Nat)
  frozen : Bool
  deriving DecidableEq, Repr

/-! ### Slices, cores, clusters and dies -/

/-- A slice (R9, R103, R122, R401, R402): its active set in order of entry, its clock ratio, its ceiling, its
timing-safe point, its replays and when its ratio last changed. -/
structure Slice where
  active : List Nat
  ratio : Nat
  ceiling : Nat
  safe : Nat
  replays : Nat
  changed : Nat
  deriving DecidableEq, Repr

/-- A watchpoint unit (R369): the reporting group, the kinds watched, the object, the base and swizzle of the tensor
it was translated through, the watched tensor offsets and the byte mask. -/
structure Watch where
  group : Nat
  kinds : BitVec 5
  obj : Nat
  base : Nat
  swz : Nat
  off : Nat
  len : Nat
  mask : BitVec 16
  deriving DecidableEq, Repr

/-- A surrogate slot (R305, R325): owner, disabled or ready, image (header and body bytes), counters. -/
structure Slot where
  owner : Nat
  disabled : Bool
  image : List Byte
  bound : Word
  quality : Word
  calls : Nat
  accepted : Nat
  fallbacks : Nat
  timing : Nat
  samples : Nat
  errSum : Word
  errMax : Word
  violations : Nat
  sampleCount : Nat
  deriving DecidableEq, Repr

/-- A recovery entry (R320): the call it belongs to, its lane, its key, arguments and, for a shadow, results. -/
structure REntry where
  id : Nat
  call : Nat
  group : Nat
  lane : Nat
  slot : Nat
  launch : Nat
  version : Nat
  tag : BitVec 16
  rmode : BitVec 2
  args : List Word
  shadow : Option (List Word)
  running : Bool
  deriving DecidableEq, Repr

/-- A core (R3, R118, R169, R260, R392): swap settings, the groups holding its trap save areas, watchpoint units,
surrogate slots, the recovery queue, the temperature, avoidance and the droops of the last millisecond. -/
structure Core where
  swapmin : Nat
  reserve : Nat
  areas : Tab Nat
  watch : Tab Watch
  slots : Tab Slot
  recq : List REntry
  temp : Int
  avoided : Bool
  droops : List Nat
  deriving DecidableEq, Repr

/-- The bits of a tile (R280): whether its type is i32, and its elements by row × 64 + column. -/
structure TileData where
  isI32 : Bool
  el : Tab Word
  deriving DecidableEq, Repr

/-- A physical tile (R282): the job and block whose data it holds. -/
structure PhysTile where
  owner : Option (Nat × Nat)
  data : TileData
  deriving DecidableEq, Repr

/-- Code loaded into a cluster (R32, R397): which job's kernel version, of which code object by identifier and offset, where
it starts and how long it is. -/
structure CodeLoad where
  job : Nat
  kernel : List Byte
  version : Nat
  obj : Nat × Nat
  base : Nat
  len : Nat
  native : Bool
  deriving DecidableEq, Repr

/-- Boost states (R403). -/
inductive BoostState where
  | nominal | boosted | falling
  deriving DecidableEq, Repr

/-- A cluster (R4, R9, R217, R399, R403, R415): its clock, code memory, start bits, boost state, boost ceiling in
MHz, metering budgets by stack, the metering window they are spent in, and by stack the lines that wait for the next
one, as operation and line in order of arrival (R400). -/
structure Cluster where
  mhz : Nat
  cyc : Nat
  code : Tab Word
  starts : Tab Bool
  loads : List CodeLoad
  boost : BoostState
  ceil : Nat
  balance : Nat
  refill : Nat
  meter : Tab Nat
  window : Nat
  spent : Tab Nat
  arb : Tab (List (Nat × Nat))
  deriving DecidableEq, Repr

/-- The request paths of a die, or of the hub (R4, R197, R207): the extents its cache holds, by job, object and extent, and
the descriptors held. -/
structure Die where
  extents : List ((Nat × Nat × Nat) × Option Nat)
  descs : List ((Nat × Nat) × List Word)
  deriving DecidableEq, Repr

/-! ### The Kennel -/

/-- States of a tag other than free (R219): live, or retiring by commit or drop, with the cells done so far, the
CTXRET operation whose status it writes and whether an error was met. -/
inductive TagState where
  | live
  | retiring (commit : Bool) (op : Option Nat) (count : Nat) (bad : Bool)
  deriving DecidableEq, Repr

/-- A tag in use (R215, R219): its job, parent, creating launch and whether it is a launch context. -/
structure Tag where
  job : Nat
  parent : Nat
  launch : Nat
  ctx : Bool
  state : TagState
  cluster : Nat
  deriving DecidableEq, Repr

/-- A cell (R222): context, job, object, granule number, the address of the granule's root bytes, its bytes and its
written mask. -/
structure Cell where
  tag : Nat
  job : Nat
  obj : Nat
  gran : Nat
  phys : Nat
  data : List Byte
  mask : Mask
  deriving DecidableEq, Repr

/-- The Kennel and the tags (R17, R214 to R234): free tags of each cluster pool by cluster × 64 + job, requests
under way, the cells, and the store lines waiting for a cell in arrival order. -/
structure Kennel where
  tags : Tab Tag
  pools : Tab (List Nat)
  asked : Tab Bool
  cells : List Cell
  waits : List Nat
  deriving DecidableEq, Repr

/-! ### Outstanding operations -/

/-- What a memory operation does (R204, R205, R178). -/
inductive MemKind where
  | load
  | store
  | atomic (op : AtomOp) (ty : AtomTy) (ret : Bool) (ord : Order) (scope : Scope)
  | value
  deriving DecidableEq, Repr

/-- One lane of a memory operation: the object offset and physical address of its first byte, the bytes it
stores or its atomic's operands, what it got back, whether it is performed, and whether it waits at its home for a
cell (R227). -/
structure LaneAcc where
  lane : Nat
  off : Nat
  phys : Nat
  data : List Byte
  got : List Byte
  performed : Bool
  waits : Bool
  deriving DecidableEq, Repr

/-- An outstanding lane operation (R243). `zero` lists the lanes out of extent, which load zero; `lines` the
64-byte object lines still to be read, performed or acknowledged, `all` those it had; `ldx` marks an LDX (R240),
`handler` an operation of a trap handler (R358). `tag` is the context it carries, `rtag` the one its reads resolve in:
the parent once a retirement of `tag` has completed (R233). -/
structure MemOp where
  group : Nat
  core : Nat
  job : Nat
  launch : Nat
  kind : MemKind
  size : MemSize
  dst : Option Reg
  tag : Nat
  rtag : Nat
  tagged : Bool
  ldx : Bool
  handler : Bool
  obj : Nat
  accs : List LaneAcc
  zero : List Nat
  lines : List Nat
  all : List Nat
  cls : Nat
  deriving DecidableEq, Repr

/-- A line in a store-forwarding queue (R203): the store it belongs to and its written bytes by place; `after` are the
queue lines that must reach their home before it (R250). -/
structure SfqLine where
  op : Nat
  group : Nat
  core : Nat
  job : Nat
  launch : Nat
  tag : Nat
  tagged : Bool
  obj : Nat
  off : Nat
  phys : Nat
  bytes : Tab Byte
  waiting : Bool
  after : List Nat
  deriving DecidableEq, Repr

/-- Copy kinds (R261, R277). -/
inductive CopyKind where
  | ld | st | pack | unpack | move
  deriving DecidableEq, Repr

/-- Who hears of a copy command's completion: a status scalar, a completion queue with a user tag, or a bundle's
copy program (R272, R278, R386). -/
inductive CopyOwner where
  | scalar (group sd : Nat)
  | raw (group q : Nat) (user : Word)
  | program (bundle sub : Nat)
  deriving DecidableEq, Repr

/-- A copy command (R263, R278, R264): captured operands, the descriptor once started, the next line, the memory
lines of it already granted (R400), the granules that its line has reached and waits at for a
cell (R227, R232), the code it ends with when no fault
stops it and, once decided, the completion code and first faulting element; `posted` says that its post is made (R272).
`core` is 128 + die for a die copy engine, `move` a move's destination offset, rows, row bytes and strides. `tag`,
`rtag` and `handler` are as in a memory operation. -/
structure CopyCmd where
  owner : CopyOwner
  core : Nat
  engine : Nat
  job : Nat
  launch : Nat
  block : Option Nat
  gang : Nat
  kind : CopyKind
  level : Level
  dst : Level
  tensor : Nat
  coords : List Int
  image : Nat
  sswz : Nat
  move : List Nat
  post : Option BarId
  tag : Nat
  rtag : Nat
  handler : Bool
  desc : List Word
  started : Bool
  total : Nat
  next : Nat
  paid : Nat
  waitObj : Nat
  waitGran : List Nat
  clean : Nat
  code : Option Nat
  elem : Nat
  posted : Bool
  deriving DecidableEq, Repr

/-- A matrix-engine command (R284 to R303) with what it captured. -/
inductive MatOp where
  | mma (fmt : MmaFmt) (zero : Bool) (kb : Nat) (a : List (Option (List FVal))) (params : List Word)
  | ld (fmt : TileFmt) (addr pitch rows : Nat)
  | st (fmt : TileFmt) (addr pitch rows : Nat)
  | rd (cv : AccCv) (cg : Nat) (lanes : Mask) (d : Nat)
  | wr (cv : AccCv) (cg : Nat) (rows : List (Nat × List Word))
  | clr
  | rel
  deriving DecidableEq, Repr

structure MatCmd where
  group : Nat
  core : Nat
  block : Nat
  job : Nat
  tile : Nat
  op : MatOp
  width : Nat
  deriving DecidableEq, Repr

/-- A surrogate call (R317, R318) with its captured arguments; `open_` counts lanes not yet accepted or merged,
`evaluated` says whether the engine has taken it. -/
structure Call where
  group : Nat
  core : Nat
  job : Nat
  launch : Nat
  slot : Nat
  pd : Nat
  d : Nat
  resc : Nat
  argc : Nat
  lanes : Mask
  exec : Mask
  args : Tab (List Word)
  tag : BitVec 16
  rmode : BitVec 2
  version : Nat
  evaluated : Bool
  left : Nat
  deriving DecidableEq, Repr

/-- A slot operation under way (R328, R329). -/
structure SgOp where
  group : Nat
  core : Nat
  job : Nat
  launch : Nat
  block : Option Nat
  slot : Nat
  op : Nat
  addr : Nat
  quality : List Word
  deriving DecidableEq, Repr

/-- A value on its way to registers that no counter counts (R36, R107): status words and specials. -/
structure ValOp where
  group : Nat
  writes : List (Target × Word)
  deriving DecidableEq, Repr

/-- A collective command (R428, R430, R431), which of its communicator it is (R426), and its operand words. -/
structure CollCmd where
  owner : CopyOwner
  job : Nat
  launch : Nat
  nth : Nat
  op : CollOp
  ty : BitVec 2
  words : List Word
  bad : Bool
  deriving DecidableEq, Repr

/-- Everything under way (R243). -/
structure Ops where
  mem : Tab MemOp
  sfq : Tab SfqLine
  copies : Tab CopyCmd
  mats : Tab MatCmd
  calls : Tab Call
  sgs : Tab SgOp
  vals : Tab ValOp
  colls : Tab CollCmd
  deriving DecidableEq, Repr

/-! ### Work: jobs, bundles, launches, blocks -/

/-- A communicator (R426): its ranks as package and job, the own rank, and how many collectives were issued on it. -/
structure Comm where
  own : Nat
  ranks : List (Nat × Nat)
  issued : Nat
  deriving DecidableEq, Repr

/-- A breakpoint comparator (R368, R371). -/
structure Comparator where
  launch : Nat
  served : Bool
  word : Nat
  block : Word
  group : Nat
  lanes : Mask
  deriving DecidableEq, Repr

/-- Phases of a job's pre-emption (R375, R376). -/
inductive SliceState where
  | running
  | stopping (since : Nat)
  | out (at_ : Nat)
  deriving DecidableEq, Repr

/-- A job (R13, R378, R421): its registration, credits, comparators, communicators and fault records, how many event
records its save area has taken (R433), and the watchpoint units saved with it by core and unit (R375). -/
structure Job where
  port : Nat
  tagBudget : Nat
  capacity : Nat
  tensorTable : Nat
  objectTable : Nat
  saveArea : Nat
  saveSize : Nat
  queues : Mask
  coreMask : BitVec 128
  comms : Tab Comm
  comparators : Tab Comparator
  credits : List (Nat × Bool)
  faults : List (List Word)
  events : Nat
  slice : SliceState
  stalled : Option Nat
  savedWatch : List (Nat × Nat × Watch)
  digests : List (BitVec 512)
  deriving DecidableEq, Repr

/-- A lease (R211, R385). -/
structure Lease where
  obj : Nat
  start : Nat
  len : Nat
  rights : BitVec 3
  revoked : Bool
  deriving DecidableEq, Repr

/-- A region table entry (R395), its entry as a word offset from the kernel's first clause header in the loaded code, and
as jas wrote it, which an image repeats (R307). -/
structure Region where
  slot : Nat
  argc : Nat
  resc : Nat
  regs : Nat
  entry : Nat
  label : Nat
  deriving DecidableEq, Repr

/-- A kernel as the rewriter leaves it (R60, R395, R396): directives, region table, code, the word offsets of its
clause headers, whether it runs native, its external entries (the offset jas wrote and the one in the code), and the word
offsets at which the re-encoded code waits for the results on their way. -/
structure Kernel where
  name : List Byte
  version : Nat
  native : Bool
  width : Nat
  groups : Nat
  gang : Nat
  vregs : Nat
  sregs : Nat
  scratch : Nat
  cscratch : Nat
  acc : Nat
  blockBars : Nat
  gangBars : Nat
  gridBars : Nat
  ctxbudget : Nat
  regions : List Region
  code : List Word
  headers : List Nat
  external : List (Nat × Nat)
  waits : List Nat
  deriving DecidableEq, Repr

/-- A barrier (R336): the record, the phase bookkeeping of its release window, and the queued events of R351. `num`
counts its generations: the generation bit is `num` modulo 2; `relNum` is the one in release. `tails` are ended windows with
a record that still waits for a later phase, on a core that a block moved to: generation, start, map entry (R350). -/
structure Barrier where
  expected : Nat
  arrived : Nat
  expbytes : Nat
  posted : Nat
  num : Nat
  releasing : Bool
  held : Bool
  map : Nat
  members : Nat
  kept : Nat
  t0 : Nat
  relNum : Nat
  cleared : List Nat
  queue : List (Nat × Int)
  top : Nat
  tails : List (Nat × Nat × Nat)
  deriving DecidableEq, Repr

/-- A gang of a launch (R12, R335): where it stands, its cluster allotment and barriers. -/
structure Gang where
  cluster : Nat
  scratch : Tab Byte
  bars : Tab Barrier
  deriving DecidableEq, Repr

/-- A launch (R384, R387, R389) with its live state: its own map's spacing and phases as its record was read, whether it is
admitted, gangs, grid barriers, die allotments, and how it ended. -/
structure Launch where
  job : Nat
  bundle : Nat
  sub : Nat
  number : Nat
  kernel : Kernel
  codeObj : Nat × Nat
  gx : Nat
  gy : Nat
  gz : Nat
  lanes : Nat
  dieScratch : Nat
  arg : List Word
  leases : List Lease
  viewFirst : Nat
  viewCount : Nat
  handler : Option Nat
  bindings : List Nat
  coop : Bool
  wantCtx : Bool
  ctx : Option Nat
  commit : Bool
  map : Nat
  ownMap : Option (Nat × List Nat)
  admitted : Bool
  gangs : Tab Gang
  gridBars : Tab Barrier
  scratch : Tab (Tab Byte)
  blocksDone : Nat
  late : Nat
  status : Option Nat
  retired : Bool
  deriving DecidableEq, Repr

/-- Where a block stands (R375, R377, R393). -/
inductive BlockState where
  | running
  | migrating (dest since : Nat)
  | evicting
  | saved
  deriving DecidableEq, Repr

/-- A block placed on a core (R12, R171, R280): its allotment, tiles and barriers. -/
structure Block where
  launch : Nat
  index : Nat
  gang : Nat
  core : Nat
  groups : List Nat
  scratch : Tab Byte
  tiles : List Nat
  savedTiles : Tab TileData
  bars : Tab Barrier
  state : BlockState
  deriving DecidableEq, Repr

/-- A sub-launch of a bundle (R384, R386): its record, its launch if it is a kernel, and its status once it has
completed. -/
structure Sub where
  words : List Word
  launch : Option Nat
  running : Bool
  left : Nat
  bad : Bool
  status : Option Nat
  deriving DecidableEq, Repr

/-- A bundle (R380, R381); `checking` says that its launches stand in the table, not yet admitted (R387). -/
structure Bundle where
  job : Nat
  port : Nat
  queue : Nat
  bid : Nat
  stop : Bool
  count : Nat
  succs : List Nat
  irq : Option Nat
  record : Nat
  malformed : Bool
  cancelled : Bool
  checking : Bool
  admitted : Bool
  subs : List Sub
  order : Nat
  deriving DecidableEq, Repr

/-- The work of the part. -/
structure Work where
  jobs : Tab Job
  bundles : Tab Bundle
  launches : Tab Launch
  blocks : Tab Block
  deriving DecidableEq, Repr

/-! ### Hub and ports -/

/-- A phase map entry (R348): spacing, phases by core, the launch that loaded it. -/
structure PhaseMap where
  spacing : Nat
  phases : List Nat
  owner : Nat
  deriving DecidableEq, Repr

/-- Messages on the command links between a Pup and the Sheepdog (R390): the disable of a surrogate id on a core
(R327), either way, a block's completion, a request for tags (R217), a group's stall (R228) and a group's trap. -/
inductive HubMsg where
  | disable (core : Nat) (sid : Word)
  | blockDone (block launch : Nat)
  | tagRequest (job : Nat)
  | stall (group : Nat)
  | trap (group : Nat)
  deriving DecidableEq, Repr

/-- A Graniale port (R424, R425): trained, its lanes, how far each ordered stream has been delivered, the flits
delivered, a change of width under way, the ordered flits that wait for their turn, the transmit buffer, and the replay
buffer: the flits sent that the peer has not received yet. -/
structure Graniale where
  trained : Bool
  lanes : Nat
  ordered : List ((Nat × Nat) × Nat)
  received : List Flit
  retraining : Option (Nat × Nat)
  buffer : List Flit
  transmit : List Flit
  replay : List Flit
  deriving DecidableEq, Repr

/-- The hub die (R14, R327, R348, R411 to R416, R419, R424): phase maps, the frame map, what firmware sets of S_min,
T_avoid and retention, sensors, wear and the nanoseconds of service before this power-on, limits, links, the packages
lost (R429), error counters, and the messages on the links between the Pups and the Sheepdog (R390). -/
structure Hub where
  booted : Bool
  maps : Tab PhaseMap
  frames : Tab Nat
  sMin : Nat
  tAvoid : Int
  retainAfter : Nat
  noRetain : List SramArray
  sensors : List (Sensor × Int)
  wear : Tab Nat
  report : Tab (Nat × Nat × Nat)
  wearLog : List (Nat × Tab Nat)
  life : Nat
  emergency : Bool
  emergClear : Option Nat
  lastBoundary : Nat
  lastWindow : Nat
  lastWear : Nat
  lastReport : Nat
  graniale : Tab Graniale
  lostPkgs : List Nat
  errors : Tab (Nat × Nat)
  toHub : Tab (List HubMsg)
  toPup : Tab (List HubMsg)
  deriving DecidableEq, Repr

/-- A submission queue's registers (R379, R422), and each entry between the pointers as it stood in device memory when
the write pointer passed it. -/
structure Sq where
  base : Nat
  host : Bool
  size : Nat
  bound : Bool
  job : Nat
  wp : Nat
  rp : Nat
  enable : Bool
  error : Bool
  snap : List (List Byte)
  deriving DecidableEq, Repr

/-- A host port (R417 to R423): link and host presence, queues, mailbox, MSI-X, the host's memory, and the answer
to the last BAR2 access. -/
structure Port where
  up : Bool
  queues : Tab Sq
  mailIn : Tab Word
  doorbell : Option Nat
  result : Word
  mailOut : Tab Word
  irq : Word
  msix : Tab Word
  pending : Tab Bool
  vectors : List Nat
  hostMem : Tab Byte
  answer : List Byte
  abort : Bool
  deriving DecidableEq, Repr

/-- A descriptor that TDVIEW wrote and not every group sees yet (R210): the tensor, the descriptor before and after,
the group that made it with its launch, block and gang, the operation and the scalar of its status word, whether that
group has observed it, the issue slot from which a later word's result stands in the scalar (0: none in flight), the widest
scope of a release since, the groups that see it beside the maker, and the number from
which on launches started once a bundle's start had acquired it (R382). -/
structure View where
  job : Nat
  tensor : Nat
  old : List Word
  words : List Word
  owner : Nat
  launch : Nat
  block : Option Nat
  gang : Option Nat
  op : Nat
  sd : Nat
  observed : Bool
  lost : Option Nat
  released : Option Scope
  seen : List Nat
  shown : Option Nat
  deriving DecidableEq, Repr

/-- The machine. `turns` is the agenda of the agents (assumption log 1); `free` counts the free values drawn
(assumption log 2); `nextId` numbers operations in issue order; `cur` is the group that issues in this step and
`waited` says that its instruction did not issue; `bad` lists the places whose data is uncorrectable (R185);
`retained` the segments in low-voltage retention and `touched` when each was last accessed (R186); `views` are the
descriptors not every group sees yet (R210). -/
structure State where
  now : Nat
  free : Nat
  nextId : Nat
  turnCount : Nat
  turns : List Turn
  cur : Option Nat
  waited : Bool
  bad : List BadLoc
  retained : List (SramArray × Nat)
  touched : Tab Nat
  views : List View
  hbm : Tab Byte
  groups : Tab Group
  slices : Tab Slice
  cores : Tab Core
  clusters : Tab Cluster
  dies : Tab Die
  tiles : Tab PhysTile
  kennel : Kennel
  ops : Ops
  work : Work
  hub : Hub
  ports : Tab Port
  deriving DecidableEq, Repr

/-- Why the machine cannot take a step. -/
inductive Fault where
  /-- Raised by an instruction's meaning asked to issue where no group stands at a word (no issuing group, or one
  without a clause in progress): the part never issues such a word, so a step never raises it. Safe. -/
  | noIssuingGroup
  deriving DecidableEq, Repr

/-- Why an instruction has no meaning here. -/
inductive Refusal where
  /-- Raised by an arm of exec whose instruction the model does not give a meaning yet. Safe. -/
  | notModelled (mnemonic : String)
  deriving DecidableEq, Repr

/-- What a step answers. -/
abbrev Res := Host.Outcome State Fault Refusal

/-! ### Reset -/

/-- Firmware's default slice: ratio and ceiling 8, timing-safe point 12 (DESIGN CHOICE, assumption log 5). -/
def Slice.reset : Slice := ⟨[], 8, 8, 12, 0, 0⟩

/-- A core at reset: default swapmin (R118) and swap reserve (R119). -/
def Core.reset : Core := ⟨2000, 524288, [], [], [], [], 0, false, []⟩

/-- A cluster at reset (R403, R406, R399): a budget of 1,024 lines at each stack, the default. -/
def Cluster.reset : Cluster := ⟨1300, 0, [], [], [], .nominal, 1600, 64, 0, [], 0, [], []⟩

/-- A host port at reset: its link down. -/
def Port.reset : Port :=
  ⟨false, (List.range 64).map fun q => (q, ⟨0, false, 0, false, 0, 0, 0, false, false, []⟩), [], none, 0#32, [], 0#32,
    [], [], [], [], [], false⟩

/-- The default phase map, entry 0 (R348): S = 128 and a four-phase checkerboard. -/
def PhaseMap.default : PhaseMap :=
  ⟨128, (List.range 128).map fun c => (c % 4) % 2 + 2 * ((c / 4 % 8) % 2), 0⟩

/-- The hub at reset: entry 0 of the phase maps, no frame assigned, firmware's defaults, no port trained. -/
def Hub.reset : Hub where
  booted := false
  maps := [(0, PhaseMap.default)]
  frames := []
  sMin := 0
  tAvoid := 95 * 16
  retainAfter := 100
  noRetain := []
  sensors := []
  wear := []
  report := []
  wearLog := []
  life := 0
  emergency := false
  emergClear := none
  lastBoundary := 0
  lastWindow := 0
  lastWear := 0
  lastReport := 0
  graniale := (List.range 8).map fun p => (p, ⟨false, 4, [], [], none, [], [], []⟩)
  lostPkgs := []
  errors := []
  toHub := []
  toPup := []

/-- No operation under way. -/
def Ops.empty : Ops := ⟨[], [], [], [], [], [], [], []⟩

/-- The machine right after power-on, before the boot ROM has run (R434). DESIGN CHOICE (assumption log 17). -/
def State.reset : State where
  now := 0
  free := 0
  nextId := 1
  turnCount := 0
  turns := []
  cur := none
  waited := false
  bad := []
  retained := []
  touched := []
  views := []
  hbm := []
  groups := []
  slices := (List.range 768).map fun i => (i, Slice.reset)
  cores := (List.range 128).map fun i => (i, Core.reset)
  clusters := (List.range 32).map fun i => (i, Cluster.reset)
  dies := (List.range 5).map fun i => (i, ⟨[], []⟩)
  tiles := []
  kennel := ⟨[], [], [], [], []⟩
  ops := Ops.empty
  work := ⟨[], [], [], []⟩
  hub := Hub.reset
  ports := [(0, Port.reset), (1, Port.reset)]

end Sys2Proof.Machine
end

