-- ==== Sys2Proof/Machine/Ops.lean ====
section
/-!
DEFINITION. The named operations over the state: reading and writing registers and memory, fixed-latency results,
the scoreboard and the counters, ending a task, taking a trap and returning from one.
-/

namespace Sys2Proof.Machine

/-! ### Setters -/

def State.setGroup (s : State) (gid : Nat) (g : Group) : State := { s with groups := Tab.set s.groups gid g }
def State.updGroup (s : State) (gid : Nat) (f : Group → Group) : State := { s with groups := Tab.upd s.groups gid f }
def State.setOps (s : State) (o : Ops) : State := { s with ops := o }
def State.setWork (s : State) (w : Work) : State := { s with work := w }
def State.setKennel (s : State) (k : Kennel) : State := { s with kennel := k }
def State.setHub (s : State) (h : Hub) : State := { s with hub := h }
def State.updCore (s : State) (c : Nat) (f : Core → Core) : State := { s with cores := Tab.upd s.cores c f }
def State.updSlice (s : State) (i : Nat) (f : Slice → Slice) : State := { s with slices := Tab.upd s.slices i f }
def State.updCluster (s : State) (c : Nat) (f : Cluster → Cluster) : State :=
  { s with clusters := Tab.upd s.clusters c f }
def State.updDie (s : State) (d : Nat) (f : Die → Die) : State := { s with dies := Tab.upd s.dies d f }
def State.updPort (s : State) (p : Nat) (f : Port → Port) : State := { s with ports := Tab.upd s.ports p f }
def State.updJob (s : State) (j : Nat) (f : Job → Job) : State :=
  s.setWork { s.work with jobs := Tab.upd s.work.jobs j f }
def State.updLaunch (s : State) (l : Nat) (f : Launch → Launch) : State :=
  s.setWork { s.work with launches := Tab.upd s.work.launches l f }
def State.updBlock (s : State) (b : Nat) (f : Block → Block) : State :=
  s.setWork { s.work with blocks := Tab.upd s.work.blocks b f }
def State.updBundle (s : State) (b : Nat) (f : Bundle → Bundle) : State :=
  s.setWork { s.work with bundles := Tab.upd s.work.bundles b f }

/-- An MSI-X vector is raised (R417, R419): a masked one stays pending. -/
def Port.raise (p : Port) (v : Nat) : Port :=
  if (Tab.getD p.msix (4 * v + 3) 0#32).getLsbD 0 then { p with pending := Tab.set p.pending v true }
  else { p with vectors := p.vectors ++ [v] }

/-- The next operation number, in issue order. DEDUCED (assumption log 20). -/
def State.fresh (s : State) : Nat × State := (s.nextId, { s with nextId := s.nextId + 1 })

/-- A free value below n (assumption log 2). -/
def State.pickBelow (s : State) (n : Nat) : Nat × State := (Config.pick s.free % n, { s with free := s.free + 1 })

/-! ### Lookups -/

def State.launch? (s : State) (g : Group) : Option Launch := Tab.get? s.work.launches g.launch
def State.block? (s : State) (g : Group) : Option Block := g.block.bind fun b => Tab.get? s.work.blocks b
def State.jobOf (s : State) (g : Group) : Nat := ((s.launch? g).map Launch.job).getD 64
def clusterOf (core : Nat) : Nat := core / 4
def dieOf (core : Nat) : Nat := core / 32
def sliceKey (core sl : Nat) : Nat := core * 6 + sl

/-- The code of a launch's kernel version in a cluster (R397). -/
def State.codeOf (s : State) (cluster launch : Nat) : Option CodeLoad :=
  match Tab.get? s.work.launches launch, Tab.get? s.clusters cluster with
  | some l, some c =>
    c.loads.find? fun x => x.job = l.job && x.kernel = l.kernel.name && x.version = l.kernel.version && x.obj = l.codeObj
  | _, _ => none

/-- Whether the group runs in native mode, with the latencies of R35 in sight (R34). -/
def State.native (s : State) (g : Group) : Bool := ((s.launch? g).map fun l => l.kernel.native).getD false

/-- A word of the group's cluster's code memory (R25); what no load wrote is zero (R32). -/
def State.codeWord (s : State) (g : Group) (a : Nat) : Word :=
  match Tab.get? s.clusters (clusterOf g.core) with
  | some c => Tab.getD c.code a 0#32
  | none => 0#32

/-- Whether a code address is a clause header inside the issuing kernel's code object (R93), with its header. -/
def State.startAt (s : State) (g : Group) (a : Nat) : Option Word :=
  match Tab.get? s.clusters (clusterOf g.core), s.codeOf (clusterOf g.core) g.launch with
  | some c, some l =>
    if l.base ≤ a && a < l.base + l.len && Tab.getD c.starts a false then some (Tab.getD c.code a 0#32) else none
  | _, _ => none

/-- The header at a code address whose start bit is set (R93), of whichever code object. -/
def State.headerAt (s : State) (g : Group) (a : Nat) : Option Word :=
  match Tab.get? s.clusters (clusterOf g.core) with
  | some c => if Tab.getD c.starts a false then some (Tab.getD c.code a 0#32) else none
  | none => none

/-- The class field of a clause header (R26). -/
def hdrClass (h : Word) : Nat := bitsOf h.toNat 21 3
/-- N of a clause header (R26). -/
def hdrN (h : Word) : Nat := bitsOf h.toNat 24 4
/-- The guard predicate of a header (R26). -/
def hdrPred (h : Word) : Nat := bitsOf h.toNat 15 4
/-- The slice cycles of a stall code (R26). -/
def stallSlots (code : Nat) : Nat :=
  match code with
  | 0 => 0
  | 1 => 2
  | 2 => 4
  | _ => 8
/-- The slice cycles of a header's stall code (R26). -/
def hdrStall (h : Word) : Nat := stallSlots (bitsOf h.toNat 0 2)

/-- A legal branch target (R93). -/
def State.legalTarget (s : State) (g : Group) (a : Int) : Bool :=
  if a < 0 then false
  else match s.startAt g a.toNat with
    | some h => hdrClass h != 6
    | none => false

/-- Whether the group's trap handler runs (R358). -/
def Group.inHandler (g : Group) : Bool :=
  match g.trap with
  | some f => f.entered
  | none => false

/-- Whether a trap has been raised for the group, entered or not. -/
def Group.trapped (g : Group) : Bool := g.trap.isSome

/-! ### Registers -/

def Group.rdV (g : Group) (r lane : Nat) : Word := Tab.getD g.v (r * 64 + lane) 0#32
def Group.rdS (g : Group) (r : Nat) : Word := Tab.getD g.s r 0#32
def Group.rdP (g : Group) (k : Nat) : Mask := Tab.getD g.lanes.p k 0#64
def Group.rdX (g : Group) (k lane : Nat) : Word := Tab.getD g.lanes.x (k * 64 + lane) 0#32
def Group.rdJ (g : Group) (k : Nat) : Mask := Tab.getD g.lanes.j k 0#64
def Group.lpcOf (g : Group) (lane : Nat) : Nat := Tab.getD g.lanes.lpc lane 0
def Group.lageOf (g : Group) (lane : Nat) : Nat := Tab.getD g.lanes.lage lane 0

/-- A mask with one lane's bit set as given. -/
def setBit (m : Mask) (lane : Nat) (b : Bool) : Mask := if b then m ||| laneBit lane else m &&& ~~~(laneBit lane)

/-- A result lands. -/
def Group.land (g : Group) (t : Target) (w : Word) : Group :=
  match t with
  | .v r lane => { g with v := Tab.set g.v (r * 64 + lane) w }
  | .s r => { g with s := Tab.set g.s r w }
  | .p k lane => { g with lanes := { g.lanes with p := Tab.set g.lanes.p k (setBit (g.rdP k) lane (w != 0#32)) } }
  | .x k lane => { g with lanes := { g.lanes with x := Tab.set g.lanes.x (k * 64 + lane) w } }

def Group.landAll (g : Group) (ws : List (Target × Word)) : Group := ws.foldl (fun g w => g.land w.1 w.2) g

/-- The entries of the results on their way that a later-issued landed one discards (R35). -/
def stillFlying (slot : Nat) : List Inflight → List Inflight
  | [] => []
  | e :: es =>
    let rest := stillFlying slot es
    if e.land ≤ slot || es.any (fun f => f.target = e.target && f.land ≤ slot) then rest else e :: rest

/-- Fixed-latency results whose slot has come land, in issue order (R35). -/
def Group.landDue (g : Group) : Group :=
  { ((g.inflight.filter fun e => e.land ≤ g.slot).foldl (fun g e => g.land e.target e.val) g) with
    inflight := stillFlying g.slot g.inflight }

/-- Every pending fixed-latency write completes, in issue order (R37). -/
def Group.flush (g : Group) : Group :=
  { (g.inflight.foldl (fun g e => g.land e.target e.val) g) with inflight := [] }

/-- Results of a fixed-latency instruction (R35, R38): at once in interlocked mode, after `lat` slots in native. -/
def Group.fixed (g : Group) (native : Bool) (lat : Nat) (ws : List (Target × Word)) : Group :=
  if native then { g with inflight := g.inflight ++ ws.map fun w => ⟨g.slot + lat, w.1, w.2⟩ } else g.landAll ws

/-- The register that a target stands for on the scoreboard. -/
def Target.reg : Target → Option PReg
  | .v r _ => some (.v r)
  | .s r => some (.s r)
  | .p k _ => some (.p k)
  | .x _ _ => none

/-- A scoreboarded result of operation `op` lands, in the save area for a saved register (R357); elsewhere it replaces
any fixed-latency write still on its way to the same place. -/
def Group.landResult (g : Group) (op : Nat) (w : Target × Word) : Group :=
  if g.pend.any (fun e => e.op = op && e.saved && some e.reg = w.1.reg) then
    match g.trap, w.1 with
    | some f, .v r lane => { g with trap := some { f with sv := Tab.set f.sv (r * 64 + lane) w.2 } }
    | some f, .s r => { g with trap := some { f with ss := Tab.set f.ss r w.2 } }
    | some f, .p k lane =>
      let m := setBit (Tab.getD f.lanes.p k 0#64) lane (w.2 != 0#32)
      { g with trap := some { f with lanes := { f.lanes with p := Tab.set f.lanes.p k m } } }
    | _, _ => g
  else { g with inflight := g.inflight.filter fun e => e.target ≠ w.1 }.land w.1 w.2

/-- The pending bits an operation set are cleared. -/
def Group.clearPend (g : Group) (op : Nat) : Group := { g with pend := g.pend.filter fun e => e.op ≠ op }

/-- An operation marks registers pending (R127). -/
def Group.setPend (g : Group) (op : Nat) (rs : List PReg) : Group :=
  { g with pend := g.pend ++ rs.map fun r => ⟨r, op, false, g.inHandler⟩ }

/-- Whether a register is pending as the group's present view has it (R127, R357). -/
def Group.isPend (g : Group) (r : PReg) : Bool := g.pend.any fun e => !e.saved && e.reg = r

/-! ### Counters (R243 to R245) -/

/-- The numbers of the counters in the order of R243. -/
def cLD : Nat := 0
def cST : Nat := 1
def cCP : Nat := 2
def cTL : Nat := 3
def cSG : Nat := 4
def cCL : Nat := 5

/-- A counter's limit (R243). -/
def cntLimit (c : Nat) : Nat := if c ≤ 1 then 63 else 15

/-- The operations a class still counts, eldest first. -/
def Group.outs (g : Group) (c : Nat) : List (Nat × Bool) := Tab.getD g.cnts c []

/-- A counter's value: everything from the eldest incomplete operation on (R245). -/
def Group.cnt (g : Group) (c : Nat) : Nat := (g.outs c).length

/-- An operation counts. -/
def Group.count (g : Group) (c op : Nat) : Group := { g with cnts := Tab.set g.cnts c (g.outs c ++ [(op, false)]) }

/-- An operation is complete: the counter falls past it once no elder is incomplete (R245). -/
def Group.complete (g : Group) (c op : Nat) : Group :=
  let rest := ((g.outs c).map fun e => if e.1 = op then (op, true) else e).dropWhile fun e => e.2
  { g with cnts := Tab.set g.cnts c rest }

/-- All six counters are zero. -/
def Group.quiet (g : Group) : Bool := (List.range 6).all fun c => g.cnt c = 0

/-! ### Memory -/

/-- The form every memory of the state keeps: rising addresses, no entry equal to what is unlisted (assumption
log 6). -/
def Memory.wf (m : Tab Byte) : Bool := memWf Config.hbmFill m

def State.hbmRead (s : State) (a n : Nat) : List Byte := memBytes Config.hbmFill s.hbm a n
def State.hbmWrite (s : State) (a : Nat) (bs : List Byte) : State :=
  { s with hbm := memWriteBytes Config.hbmFill s.hbm a bs }

/-- A 32-bit word of device memory. -/
def State.hbmWord (s : State) (a : Nat) : Word := BitVec.ofNat 32 (bytesToNat (s.hbmRead a 4))

/-- Bytes written at the places a table names, from a base. -/
def writeAt (m : Tab Byte) (base : Nat) (bs : Tab Byte) : Tab Byte :=
  bs.foldl (fun m e => memWrite Config.hbmFill m (base + e.1) e.2) m

/-! ### Ending a task -/

/-- The number of a cluster's tag pool for a job (R217). -/
def poolKey (cluster job : Nat) : Nat := cluster * 64 + job

/-- A job has blocks on a cluster, so that its Pup keeps a pool of tags for it (R217). -/
def State.poolOwner (s : State) (cluster job : Nat) : Bool :=
  s.work.blocks.any fun e => clusterOf e.2.core = cluster && e.2.state != .saved &&
    ((Tab.get? s.work.launches e.2.launch).map Launch.job) = some job

/-- The tags of a pool whose job has left the cluster are free again (R217). DESIGN CHOICE (assumption log 28). -/
def State.trimPools (s : State) : State :=
  s.setKennel { s.kennel with
    pools := Tab.keep s.kennel.pools fun k _ => s.poolOwner (k / 64) (k % 64)
    asked := Tab.keep s.kennel.asked fun k _ => s.poolOwner (k / 64) (k % 64) }

/-- Takes groups off the part: their residency, active-set places, operations, save areas and the commands the
engines hold for them. Store lines already queued still drain (R107, R356); atomics and reductions not yet performed are
dropped. DESIGN CHOICE (assumption log 47). -/
def State.removeGroups (s : State) (dead : Nat → Bool) : State :=
  { s with
    groups := Tab.keep s.groups fun k _ => !dead k
    slices := Tab.mapVals s.slices fun _ sl => { sl with active := sl.active.filter fun k => !dead k }
    cores := Tab.mapVals s.cores fun _ c =>
      { c with
        areas := Tab.keep c.areas fun _ k => !dead k
        watch := Tab.keep c.watch fun _ w => !dead w.group }
    ops :=
      { s.ops with
        mem := Tab.keep s.ops.mem fun _ o => !dead o.group
        copies := Tab.keep s.ops.copies fun _ o =>
          match o.owner with
          | .scalar g _ => !dead g
          | .raw g _ _ => !dead g
          | .program _ _ => true
        mats := Tab.keep s.ops.mats fun _ o => !dead o.group
        calls := Tab.keep s.ops.calls fun _ o => !dead o.group
        sgs := Tab.keep s.ops.sgs fun _ o => !dead o.group
        vals := Tab.keep s.ops.vals fun _ o => !dead o.group
        colls := Tab.keep s.ops.colls fun _ o =>
          match o.owner with
          | .scalar g _ => !dead g
          | .raw g _ _ => !dead g
          | .program _ _ => true } }

/-- Completion status codes (R383). -/
def stResource : Nat := 1
def stLease : Nat := 2
def stCell : Nat := 3
def stTag : Nat := 4
def stSram : Nat := 5
def stGroup : Nat := 6
def stHandler : Nat := 7
def stMalformed : Nat := 8
def stCancelled : Nat := 9
def stCopy : Nat := 0xA
def stSurrogate : Nat := 0xB
def stCollective : Nat := 0xC

/-- The task ends: the launch's blocks are killed and it completes with a status (R212, R356); its queued
recovery entries are discarded (R320). DEDUCED (assumption log 47). -/
def State.killLaunch (s : State) (lid status : Nat) : State :=
  let dead := fun k => ((Tab.get? s.groups k).map fun g => decide (g.launch = lid)).getD false
  let s := s.removeGroups dead
  State.trimPools { s with
    cores := Tab.mapVals s.cores fun _ c => { c with recq := c.recq.filter fun e => e.launch ≠ lid }
    work :=
      { s.work with
        blocks := Tab.keep s.work.blocks fun _ b => b.launch ≠ lid
        launches := Tab.upd s.work.launches lid fun l =>
          if l.status.isNone then { l with status := some status } else l } }

/-! ### Arrays and their retention (R169, R170, R186, R187) -/

/-- The 64 KiB segments of an array (R186, R280). -/
def arrSegments : SramArray → Nat
  | .coreScratch _ => 6
  | .clusterScratch _ => 64
  | .dieScratch _ => 768
  | .accStore _ => 128

/-- A number for each array, and for each of its segments. -/
def arrCode : SramArray → Nat
  | .coreScratch c => c
  | .clusterScratch c => 128 + c
  | .dieScratch d => 160 + d
  | .accStore c => 164 + c

def segKey (p : SramArray × Nat) : Nat := arrCode p.1 * 1024 + p.2

/-- The byte of an array at which something numbered begins, on a 64-byte boundary: a free value (assumption log 55). -/
def arrBase (arr : SramArray) (n : Nat) : Nat := Config.scratchBase (arrCode arr) n / 64 * 64

/-- The segments of some bytes of an array. -/
def spanSegs (arr : SramArray) (base n : Nat) : List (SramArray × Nat) :=
  if n = 0 then []
  else (List.range ((base + n - 1) / 65536 + 1 - base / 65536)).map fun k => (arr, (base / 65536 + k) % arrSegments arr)

/-- An access to one of some segments waits until it leaves retention (R187). -/
def State.asleep (s : State) (ps : List (SramArray × Nat)) : Bool := ps.any fun p => s.retained.contains p

/-- Segments are accessed (R186). -/
def State.touch (s : State) (ps : List (SramArray × Nat)) : State :=
  { s with touched := (dedup ps).foldl (fun t p => Tab.set t (segKey p) s.now) s.touched }

/-- The number of scalar registers a group's allotment holds: .sregs rounded up to a multiple of 8 (R358). -/
def Group.sTop (g : Group) : Nat := (g.sregs + 7) / 8 * 8

/-- The bytes of a group's swap image (R117). -/
def Group.image (g : Group) : Nat := (g.vregs * g.width + g.sTop) * 4

/-- The segments of a group's image in its core's swap reserve, and of a trap save area, both in the die scratchpad (R169). -/
def Group.imageSegs (g : Group) (gid : Nat) : List (SramArray × Nat) :=
  let arr := SramArray.dieScratch (dieOf g.core)
  spanSegs arr (arrBase arr (2 ^ 40 + gid)) g.image
def areaSegs (core area : Nat) : List (SramArray × Nat) :=
  let arr := SramArray.dieScratch (dieOf core)
  spanSegs arr (arrBase arr (2 ^ 41 + core) + 4224 * area) 4224

/-- Where some registers of a group stand when an access from outside its slice reaches them: the save area, for registers
that a trap saved there, or a swapped group's image, for vector and scalar registers (R117, R357, R373). The image is one
access, whose places in it no rule gives: DEDUCED (assumption log 55). -/
def Group.homeSegs (g : Group) (gid : Nat) (saved : Bool) (rs : List PReg) : List (SramArray × Nat) :=
  if saved then ((g.trap.bind TrapFrame.area).map (areaSegs g.core)).getD []
  else if g.res = .swapped && rs.any (fun r => match r with
    | .v _ => true
    | .s _ => true
    | .p _ => false) then g.imageSegs gid
  else []

/-- The segments in which values land between two states: those of the registers that are pending no more, and of the
operations of which `part` says that values landed though they pend still (R117, R357). -/
def State.landSegs (s s' : State) (part : Nat → Bool) : List (SramArray × Nat) :=
  s.groups.flatMap fun e => match Tab.get? s'.groups e.1 with
    | none => []
    | some g' => (e.2.pend.filter fun p => part p.op || !g'.pend.contains p).flatMap fun p =>
        e.2.homeSegs e.1 p.saved [p.reg]

/-- Values land: an access to each segment that one of them lands in, which waits while that is in retention (R186,
R187). -/
def State.landing (s s' : State) (part : Nat → Bool) : State :=
  let segs := s.landSegs s' part
  if s.asleep segs then s else s'.touch segs

/-- What stands in the arrays: a kind, a number and the segments. -/
abbrev Spot := Nat × Nat × List (SramArray × Nat)

/-- The swap images and the trap save areas in use. -/
def State.groupSpots (s : State) : List Spot :=
  s.groups.flatMap fun e =>
    (if e.2.res = .swapped then [(0, e.1, e.2.imageSegs e.1)] else []) ++
      (match e.2.trap.bind TrapFrame.area with
       | some a => [(1, e.1, areaSegs e.2.core a)]
       | none => [])

/-- The segments of what comes to the arrays or leaves them. -/
def moveSegs (a b : List Spot) : List (SramArray × Nat) :=
  ((a.filter fun x => !b.contains x) ++ b.filter fun x => !a.contains x).flatMap fun x => x.2.2

/-- Register images and save areas are written to their arrays or read from them: an access to each segment, which waits
while one of them is in retention (R186, R187). -/
def State.moved (s s' : State) : State :=
  let segs := moveSegs s.groupSpots s'.groupSpots
  if s.asleep segs then s else s'.touch segs

/-! ### Traps (R354 to R366) -/

def Cause.plain (code : Nat) : Cause := ⟨code, 0, none, 0, 0⟩
def Cause.at (code : Nat) (lanes : Mask) : Cause := ⟨code, 0, some lanes, 0, 0⟩
def Cause.withDetail (code detail : Nat) : Cause := ⟨code, detail, none, 0, 0⟩

/-- Causes taken at a later word are imprecise (R354). -/
def Cause.precise (c : Cause) : Bool := c.code != 0x13 && c.code != 0x14

def loWord (n : Nat) : Word := BitVec.ofNat 32 n
def hiWord (n : Nat) : Word := BitVec.ofNat 32 (n / 2 ^ 32)

/-- The trap record (R360). `word` is the trapping word's index, `resume` where TRET re-enters. Only a delivered
report's record, which is imprecise, carries the count of dropped reports (R355), modulo 256 where it does not fit its
field: DESIGN CHOICE (assumption log 59). -/
def State.record (s : State) (g : Group) (cl : Clause) (c : Cause) (word resume dropped : Nat) : List Word :=
  let resumable := !(c.code = 0x0D || (c.code = 0x01 && cl.hw = 0#32))
  let iter := if g.lanes.rep = 0 then 0 else g.lanes.repN - g.lanes.rep + 1
  let lanes := (c.lanes.getD cl.exec).toNat
  let native := (s.launch? g).map (fun l => l.kernel.version)
  let blk := match s.block? g with
    | some b => b.index
    | none => 0xFFFFFFFF
  [ loWord (c.code + (if c.precise then 256 else 0) + (if g.recov.isSome then 512 else 0) +
      (if resumable then 1024 else 0)),
    loWord c.detail,
    loWord cl.header,
    loWord (word + resume * 2 ^ 8 + (if g.lanes.rep = 0 then 0 else g.lanes.rep) * 2 ^ 16 + iter % 256 * 2 ^ 24),
    loWord lanes, hiWord lanes,
    loWord cl.exec.toNat, hiWord cl.exec.toNat,
    loWord cl.served.toNat, hiWord cl.served.toNat,
    loWord (g.core * 2 ^ 16 + g.slice * 2 ^ 8 + (if g.recov.isSome then 15 else g.gix)),
    loWord blk,
    loWord (native.getD 0 % 2 ^ 16),
    loWord c.obj,
    loWord c.off, loWord (c.off / 2 ^ 32 % 2 ^ 16),
    loWord s.now, hiWord s.now,
    loWord ((if c.precise then 0 else dropped) % 256 * 256),
    0#32, 0#32, 0#32, 0#32, 0#32 ]

/-- The lane state a handler starts with (R358). -/
def handlerLanes (l : LaneState) (entry : Nat) : LaneState :=
  let act := l.active ||| (l.parked.foldl (fun m e => m ||| e.2) 0#64)
  { active := act, parked := [], exited := 0#64,
    lpc := (maskList act).map fun i => (i, entry), lage := [],
    p := [], x := [], j := [], rep := 0, repN := 0, repAddr := 0,
    agelimit := 256, rmode := 0#2, fflags := 0#5, ctag := 0#16 }

/-- Registers a trap saves: the top 16 vector and top 8 scalar registers of the allotment (R357). -/
def Group.savedReg (g : Group) : PReg → Bool
  | .v r => g.vregs - 16 ≤ r
  | .s r => g.sTop - 8 ≤ r
  | .p _ => true

/-- Taking a trap (R357, R358): the pending writes have completed, the top registers and the lane state are set aside in
save area `area`, and the handler starts at its entry. -/
def State.enterTrap (s : State) (gid area : Nat) : State :=
  match Tab.get? s.groups gid with
  | none => s
  | some g0 =>
    match g0.trap, s.launch? g0, s.codeOf (clusterOf g0.core) g0.launch with
    | some f, some l, some code =>
      let g := g0.flush
      let sv := Tab.keep g.v fun k _ => g.savedReg (.v (k / 64))
      let ss := Tab.keep g.s fun k _ => g.savedReg (.s k)
      let f' := { f with entered := true, area := some area, lanes := g.lanes, sv := sv, ss := ss }
      let g' := { g with
        trap := some f', clause := none, barsTok := none, stallWait := none,
        lanes := handlerLanes g.lanes (code.base + l.handler.getD 0),
        pend := g.pend.map fun e => { e with saved := g.savedReg e.reg } }
      (s.setGroup gid g').updCore g.core fun c => { c with areas := Tab.set c.areas area gid }
    | _, _, _ => s

/-- The save areas of a core not in use (R169, R170). -/
def State.freeAreas (s : State) (core : Nat) : List Nat :=
  match Tab.get? s.cores core with
  | some c => (List.range 16).filter fun a => !Tab.has c.areas a
  | none => []

/-- Whether an earlier raised trap of the core waits for a save area (R170). -/
def State.trapAhead (s : State) (g : Group) (raised : Nat) : Bool :=
  s.groups.any fun e => e.2.core = g.core && e.2.res != .saved && (match e.2.trap with
    | some f => f.area.isNone && decide (f.raised < raised)
    | none => false)

/-- A raised trap takes a save area, if one is free and no earlier trap waits; otherwise it stays held (R170), as it does
while the area's segment is in retention (R187). Which area is a free value (assumption log 2). A handler that had started
and whose group was saved takes an area again (R376). The area is written anew, and no error of an earlier one stands in it. -/
def State.tryEnter (s : State) (gid : Nat) : State :=
  match Tab.get? s.groups gid with
  | none => s
  | some g =>
    match g.trap with
    | none => s
    | some f =>
      let free := s.freeAreas g.core
      if f.area.isSome || free.isEmpty || g.res == .saved || s.trapAhead g f.raised then s
      else
        let (n, s1) := s.pickBelow free.length
        let s1 := { s1 with bad := s1.bad.filter fun b => b ≠ BadLoc.saveArea gid }
        let a := free.getD n 0
        s.moved (if f.entered then
          (s1.setGroup gid { g with trap := some { f with area := some a } }).updCore g.core fun c =>
            { c with areas := Tab.set c.areas a gid }
        else s1.enterTrap gid a)

/-- A raised trap's record, whose word 0 bit 10 the part keeps up to date for a park deadlock (R360). -/
def TrapFrame.current (f : TrapFrame) : List Word :=
  let w := f.record.headD 0#32
  if bitsOf w.toNat 0 8 = 0x0D then
    loWord (w.toNat - bitsOf w.toNat 10 1 * 1024 + (if f.lanes.active != 0#64 then 1024 else 0)) :: f.record.drop 1
  else f.record

/-- A trap cause meets a group (R354, R356, R359): with a handler the trap is raised, its pending writes complete (R357,
step 1), and it is taken; without one, or in the handler, the task ends and the records go to the job's fault record. After a breakpoint at the word of the resume
point that word matches no comparator until it has issued, whatever is taken before it meanwhile (R365). -/
def State.raise (s : State) (gid : Nat) (cl : Clause) (c : Cause) (word resume : Nat) (header : Bool) : State :=
  match Tab.get? s.groups gid with
  | none => s
  | some g =>
    let rec_ := s.record g cl c word resume g.dropped
    let job := s.jobOf g
    match g.trap with
    | some f =>
      (s.updJob job fun j => { j with faults := j.faults ++ [f.current, rec_] }).killLaunch g.launch stHandler
    | none =>
      match (s.launch? g).bind Launch.handler with
      | none => (s.updJob job fun j => { j with faults := j.faults ++ [rec_] }).killLaunch g.launch stGroup
      | some _ =>
        let (n, s) := s.fresh
        let skip := if c.code = 0x10 || cl.skipBp = resume then resume else 0
        let inner := if resume = 0 then none else some { cl with pos := resume, skipBp := skip, reentry := true }
        let g := g.flush
        let f : TrapFrame := ⟨rec_, inner, header, n, false, none, g.lanes, [], [], []⟩
        (s.setGroup gid { g with trap := some f, clause := none, ctxwait := false }).tryEnter gid

/-- The half of a 64-bit mask in two record words. -/
def maskWords (lo hi : Word) : Mask := BitVec.ofNat 64 (lo.toNat + hi.toNat * 2 ^ 32)

/-- Word k of a trap record. -/
def recWord (r : List Word) (k : Nat) : Word := r.getD k 0#32

/-- The resume index a record holds (R360, R364). -/
def recResume (r : List Word) : Nat := bitsOf (recWord r 3).toNat 8 4

/-- Lanes of a mask end a clause at an address (R90). -/
def setLpc (l : LaneState) (m : Mask) (a : Nat) : LaneState :=
  { l with lpc := (maskList m).foldl (fun t i => Tab.set t i a) l.lpc }

/-- The end of a clause (R90, R112, R366): served lanes outside Exec, and Exec unless its control instruction set
its own targets, go to the next clause; an iteration of a repeat counts down instead. -/
def endClause (l : LaneState) (cl : Clause) (own : Bool) : LaneState :=
  let next := cl.header + hdrN cl.hw + 1
  if l.rep ≠ 0 && l.repAddr = cl.header then
    let rep := l.rep - 1
    if rep ≠ 0 then { l with rep := rep }
    else
      let atC := (maskList l.active).foldl
        (fun m i => if Tab.getD l.lpc i 0 = cl.header then m ||| laneBit i else m) 0#64
      setLpc { l with rep := 0, repN := 0 } atC next
  else setLpc l (if own then cl.served &&& ~~~cl.exec else cl.served) next

/-- Whether a word index of a clause is the second word of a two-word instruction (R43, R364). -/
def secondWord (words : Nat → Word) (r : Nat) : Nat → Nat → Bool
  | _, 0 => false
  | p, fuel + 1 =>
    if r < p then false
    else if p = r then false
    else
      let two := isTwoWord (words p)
      if two && p + 1 = r then true else secondWord words r (if two then p + 2 else p + 1) fuel

/-- Whether TRET may resume as the record says (R364). -/
def State.resumeOk (s : State) (g : Group) (f : TrapFrame) : Bool :=
  let r := recResume f.record
  let exec := maskWords (recWord f.record 6) (recWord f.record 7)
  let served := maskWords (recWord f.record 8) (recWord f.record 9)
  let header := (recWord f.record 2).toNat
  let hw := s.codeWord g header
  let resumable := (recWord f.record 0).getLsbD 10
  let deadlock := bitsOf (recWord f.record 0).toNat 0 8 = 0x0D
  (exec &&& ~~~served == 0#64) && (if deadlock then f.lanes.active != 0#64 else resumable) &&
  (if f.header then r = 0
   else r = 0 ||
    (decide (r ≤ hdrN hw) && !secondWord (fun i => s.codeWord g (header + i)) r 1 15 &&
      (maskList served).all fun i => Tab.getD f.lanes.lpc i 0 = header))

/-- Returning from a trap (R363, R364): the handler's pending writes complete, registers and lane state are
restored, the area is returned, and the group resumes. -/
def State.leaveTrap (s : State) (gid : Nat) (g : Group) (f : TrapFrame) : State :=
  let g := g.flush
  let v := (Tab.keep g.v fun k _ => !g.savedReg (.v (k / 64)))
  let v := f.sv.foldl (fun t e => Tab.set t e.1 e.2) v
  let sr := (Tab.keep g.s fun k _ => !g.savedReg (.s k))
  let sr := f.ss.foldl (fun t e => Tab.set t e.1 e.2) sr
  let r := recResume f.record
  let exec := maskWords (recWord f.record 6) (recWord f.record 7)
  let served := maskWords (recWord f.record 8) (recWord f.record 9)
  let header := (recWord f.record 2).toNat
  let skip := (f.clause.map Clause.skipBp).getD 0
  let cl : Clause := ⟨header, s.codeWord g header, r, exec, served, if skip = r then r else 0, true⟩
  let edited := f.clause.isSome && r = 0 && !f.header
  let lanes := if edited then endClause f.lanes cl false else f.lanes
  let g' := { g with
    v := v, s := sr, lanes := lanes, trap := none
    clause := if r = 0 then none else some cl
    pend := g.pend.map fun e => { e with saved := false } }
  (s.setGroup gid g').updCore g.core fun c => { c with areas := Tab.keep c.areas fun _ k => k ≠ gid }

/-! ### The command links between the Pups and the Sheepdog (R390) -/

/-- A Pup sends the Sheepdog a message (R390). The messages of a link stand in the order they were sent; those beyond
the sender's permits are held by it, which is timing only. -/
def State.sendHub (s : State) (cluster : Nat) (m : HubMsg) : State :=
  s.setHub { s.hub with toHub := Tab.set s.hub.toHub cluster (Tab.getD s.hub.toHub cluster [] ++ [m]) }

/-- The oldest message of a link is consumed. -/
def State.takeHub (s : State) (cluster : Nat) : State :=
  s.setHub { s.hub with toHub := Tab.set s.hub.toHub cluster (Tab.getD s.hub.toHub cluster []).tail }

/-- A message goes from the Sheepdog to a Pup (R390). -/
def State.sendPup (s : State) (cluster : Nat) (m : HubMsg) : State :=
  s.setHub { s.hub with toPup := Tab.set s.hub.toPup cluster (Tab.getD s.hub.toPup cluster [] ++ [m]) }

/-- Nothing stands on the link to a Pup, so that the next message the Sheepdog sends acts when it is sent: what follows
on a link comes after what stands there (R390). -/
def State.linkClear (s : State) (cluster : Nat) : Bool := (Tab.getD s.hub.toPup cluster []).isEmpty

/-- A message that tells the Sheepdog something, and on which nothing else hangs, is consumed when it is the first of its
link, and sent when it is due and does not stand there (R390). DEDUCED (assumption log 48). -/
def State.relay (s : State) (m : HubMsg) (due : Option Nat) : State :=
  match s.hub.toHub.find? fun e => e.2.head? = some m, due with
  | some e, _ => s.takeHub e.1
  | none, some c => if (Tab.getD s.hub.toHub c []).contains m then s else s.sendHub c m
  | none, none => s

end Sys2Proof.Machine
end

