-- ==== Sys2Proof/Machine/Link.lean ====
section
/-!
DEFINITION. The Graniale ports (R424, R425): the transmitter with its transmit and replay buffers, the receiver with
its ordered streams, and a change of width.
-/

namespace Sys2Proof.Machine

def State.updGraniale (s : State) (port : Nat) (f : Graniale → Graniale) : State :=
  s.setHub { s.hub with graniale := Tab.upd s.hub.graniale port f }

/-! ### Receiving -/

/-- The next number of an ordered stream. -/
def Graniale.expected (g : Graniale) (f : Flit) : Nat :=
  ((g.ordered.find? fun e => e.1 = (f.src, f.dst)).map Prod.snd).getD 0

/-- A flit is delivered; an ordered one moves its stream on. -/
def Graniale.deliver (g : Graniale) (f : Flit) : Graniale :=
  if f.ordered then
    { g with
      received := g.received ++ [f]
      ordered := ((f.src, f.dst), f.seq + 1) :: g.ordered.filter fun e => e.1 ≠ (f.src, f.dst) }
  else { g with received := g.received ++ [f] }

/-- Ordered flits that wait for their turn are delivered when it has come; the first number bounds how many. -/
def Graniale.drain : Nat → Graniale → Graniale
  | 0, g => g
  | n + 1, g =>
    match g.buffer.find? fun f => f.seq = g.expected f with
    | none => g
    | some f => Graniale.drain n ({ g with buffer := g.buffer.filter fun x => x ≠ f }.deliver f)

/-- A flit with a good CRC arrives: an unordered one is delivered at once, an ordered one in its stream's order, and one
that has arrived before not again. DEDUCED (assumption log 44). -/
def Graniale.receive (g : Graniale) (f : Flit) : Graniale :=
  if !g.trained then g
  else if !f.ordered then g.deliver f
  else if f.seq < g.expected f || g.buffer.contains f then g
  else Graniale.drain (g.buffer.length + 1) { g with buffer := g.buffer ++ [f] }

/-! ### Sending -/

/-- Flits of the transmit buffer: 256 KiB (R425). -/
def transmitFlits : Nat := 1024

/-- A unit of the package offers a flit to the port (R424, R425): it is sent and kept for replay; during a change of
width an unordered one goes to another port, and an ordered one is held in the transmit buffer, or stays with its source
when that is full. -/
def Graniale.offer (g : Graniale) (f : Flit) : Graniale :=
  if !g.trained || f.payload.length ≠ 256 then g
  else if g.retraining.isNone && (!f.ordered || g.transmit.isEmpty) then { g with replay := g.replay ++ [f] }
  else if !f.ordered || transmitFlits ≤ g.transmit.length then g
  else { g with transmit := g.transmit ++ [f] }

/-- The peer has received a flit (R424): with a good CRC it leaves the replay buffer, else it is sent again from it. -/
def Graniale.acknowledge (g : Graniale) (f : Flit) (crcOk : Bool) : Graniale :=
  if crcOk then { g with replay := g.replay.erase f } else g

/-- A port begins to change its width, and has retrained once the flits sent have drained, unordered ones too: the held
ones go out in their order (R425). DEDUCED (assumption log 44). -/
def Graniale.width (g : Graniale) (now lanes : Nat) : Graniale :=
  match g.retraining with
  | none => if [1, 2, 4].contains lanes && lanes ≠ g.lanes then { g with retraining := some (lanes, now) } else g
  | some (l, _) =>
    if l = lanes && g.replay.isEmpty then
      { g with lanes := l, retraining := none, replay := g.transmit, transmit := [] }
    else g

def State.offerFlit (s : State) (port : Nat) (f : Flit) : State := s.updGraniale port fun g => g.offer f

/-- LINK_WIDTH_CHANGE (R425). -/
def execLinkWidthChange (port lanes : Nat) (s : State) : Res :=
  .next (s.updGraniale port fun g => g.width s.now lanes)

end Sys2Proof.Machine
end

