-- ==== Sys2Proof/Machine/Operands.lean ====
section
/-!
DEFINITION. Operands: which registers an instruction names and of which kind, how names denote registers, and how
sources are read (R40 to R42, R126, R138, R139, R358).
-/

namespace Sys2Proof

/-- The registers an operand of an atomic type takes (R51, R179). -/
def AtomTy.regs : AtomTy → Nat
  | .b64 => 2
  | .i32 | .ui32 | .f32 => 1

/-- The bytes an operand of an atomic type takes. -/
def AtomTy.bytes (t : AtomTy) : Nat := 4 * t.regs

/-- The registers a special fills (R128). -/
def Special.regs : Special → Nat
  | .helpers | .cycle | .tick => 2
  | .laneid | .lpc | .lage | .groupid | .blockid | .gangid | .agelimit | .repeatCount | .ctag | .rmode | .fflags
  | .clockratio | .stepping | .swapmin | .replays | .trapinfo | .cpfault | .bounds | .launchid => 1

/-- Lane-scope specials (R128, R130). -/
def Special.perLane : Special → Bool
  | .laneid | .lpc | .lage => true
  | .helpers | .cycle | .tick | .groupid | .blockid | .gangid | .agelimit | .repeatCount | .ctag | .rmode | .fflags
  | .clockratio | .stepping | .swapmin | .replays | .trapinfo | .cpfault | .bounds | .launchid => false

/-- Specials that SWR may write (R128, R131). -/
def Special.writable : Special → Bool
  | .agelimit | .rmode | .fflags | .bounds => true
  | .laneid | .lpc | .lage | .helpers | .cycle | .tick | .groupid | .blockid | .gangid | .repeatCount | .ctag
  | .clockratio | .stepping | .swapmin | .replays | .trapinfo | .cpfault | .launchid => false

/-- The data registers of one lane's row of A for K = 16 × kb (R288). -/
def MmaFmt.dataRegs (f : MmaFmt) (kb : Nat) : Nat :=
  match f with
  | .i8 | .t8 | .t6 => 4 * kb
  | .bf16 | .f16 => 8 * kb
  | .f32 => 16 * kb

/-- The scale words of one lane's row of A (R288). -/
def MmaFmt.scaleRegs (f : MmaFmt) (kb : Nat) : Nat :=
  match f with
  | .t8 | .t6 => kb
  | .i8 | .bf16 | .f16 | .f32 => 0

/-- The number of the register field's first register. -/
def Reg.num : Reg → Nat
  | .v n => n.val
  | .s n => n.val

end Sys2Proof

namespace Sys2Proof.Machine

/-- A register operand: its first register, how many follow on, the boundary it starts on, and whether it must be
scalar (`some true`) or vector (`some false`). -/
structure RUse where
  reg : Reg
  n : Nat
  align : Nat
  must : Option Bool
  deriving DecidableEq, Repr

def RUse.any (r : Reg) (n : Nat) : RUse := ⟨r, n, 1, none⟩
def RUse.vec (r : Reg) (n : Nat) : RUse := ⟨r, n, 1, some false⟩
def RUse.scal (r : Reg) (n align : Nat) : RUse := ⟨r, n, align, some true⟩

/-- What an instruction names: register runs and predicates. -/
structure Uses where
  regs : List RUse
  preds : List Nat
  deriving DecidableEq, Repr

/-- An ALU form (R40, R139): with a scalar destination every source must be scalar. -/
def Uses.alu (d : Reg) (n : Nat) (srcs : List (Reg × Nat)) : Uses :=
  ⟨⟨d, n, 1, none⟩ :: srcs.map fun x => ⟨x.1, x.2, 1, if d.isScalar then some true else none⟩, []⟩

/-- A load form (R42, R204): the destination run, aligned; a uniform load's index must be scalar. -/
def Uses.load (d : Reg) (sz : MemSize) (vi : Reg) : Uses :=
  ⟨[⟨d, sz.regs, sz.regs, none⟩, ⟨vi, 1, 1, if d.isScalar then some true else none⟩], []⟩

/-- The registers and predicates an instruction names, with the kinds each chapter gives its operands (R40, R42,
R139, R204, R205, R235 and the encoding tables). -/
def usesOf : Instr → Uses
  | .nop => .mk [] []
  | .bra _ p pen _ => .mk [] (if pen then [p.toNat] else [])
  | .jmpx a _ => .mk [.any a 1] []
  | .exitG => .mk [] []
  | .enrol _ => .mk [] []
  | .park _ => .mk [] []
  | .strike _ => .mk [] []
  | .yieldG => .mk [] []
  | .waitC _ _ _ _ _ _ => .mk [] []
  | .repeatN _ => .mk [] []
  | .trapI _ => .mk [] []
  | .bkpt _ => .mk [] []
  | .sleepI _ => .mk [] []
  | .sleepExpire _ => .mk [] []
  | .srd d sp => .mk [⟨d, sp.regs, sp.regs, if sp.perLane then some false else none⟩] []
  | .swr a _ => .mk [.scal a 1 1] []
  | .tret => .mk [] []
  | .iadd d a b => .alu d 1 [(a, 1), (b, 1)]
  | .isub d a b => .alu d 1 [(a, 1), (b, 1)]
  | .imul d a b => .alu d 1 [(a, 1), (b, 1)]
  | .imulhiI32 d a b => .alu d 1 [(a, 1), (b, 1)]
  | .imulhiUi32 d a b => .alu d 1 [(a, 1), (b, 1)]
  | .iminI32 d a b => .alu d 1 [(a, 1), (b, 1)]
  | .iminUi32 d a b => .alu d 1 [(a, 1), (b, 1)]
  | .imaxI32 d a b => .alu d 1 [(a, 1), (b, 1)]
  | .imaxUi32 d a b => .alu d 1 [(a, 1), (b, 1)]
  | .andR d a b => .alu d 1 [(a, 1), (b, 1)]
  | .orR d a b => .alu d 1 [(a, 1), (b, 1)]
  | .xorR d a b => .alu d 1 [(a, 1), (b, 1)]
  | .shl d a b => .alu d 1 [(a, 1), (b, 1)]
  | .shr d a b => .alu d 1 [(a, 1), (b, 1)]
  | .sar d a b => .alu d 1 [(a, 1), (b, 1)]
  | .rot d a b => .alu d 1 [(a, 1), (b, 1)]
  | .mov d a => .alu d 1 [(a, 1)]
  | .notR d a => .alu d 1 [(a, 1)]
  | .ineg d a => .alu d 1 [(a, 1)]
  | .iabs d a => .alu d 1 [(a, 1)]
  | .clz d a => .alu d 1 [(a, 1)]
  | .popc d a => .alu d 1 [(a, 1)]
  | .brev d a => .alu d 1 [(a, 1)]
  | .iaddsatI32 d a b => .alu d 1 [(a, 1), (b, 1)]
  | .isubsatI32 d a b => .alu d 1 [(a, 1), (b, 1)]
  | .iaddsatUi32 d a b => .alu d 1 [(a, 1), (b, 1)]
  | .iamini d a _ => .alu d 1 [(a, 1)]
  | .iaddi d a _ => .alu d 1 [(a, 1)]
  | .andi d a _ => .alu d 1 [(a, 1)]
  | .ori d a _ => .alu d 1 [(a, 1)]
  | .xori d a _ => .alu d 1 [(a, 1)]
  | .shli d a _ => .alu d 1 [(a, 1)]
  | .shri d a _ => .alu d 1 [(a, 1)]
  | .sari d a _ => .alu d 1 [(a, 1)]
  | .roti d a _ => .alu d 1 [(a, 1)]
  | .movi d _ => .alu d 1 []
  | .movhi d _ => .alu d 1 []
  | .imuli d a _ => .alu d 1 [(a, 1)]
  | .fadd d a b => .alu d 1 [(a, 1), (b, 1)]
  | .fsub d a b => .alu d 1 [(a, 1), (b, 1)]
  | .fmul d a b => .alu d 1 [(a, 1), (b, 1)]
  | .fmin d a b => .alu d 1 [(a, 1), (b, 1)]
  | .fmax d a b => .alu d 1 [(a, 1), (b, 1)]
  | .fabs d a => .alu d 1 [(a, 1)]
  | .fneg d a => .alu d 1 [(a, 1)]
  | .frcp d a => .alu d 1 [(a, 1)]
  | .frsq d a => .alu d 1 [(a, 1)]
  | .fsqrt d a => .alu d 1 [(a, 1)]
  | .fexp2 d a => .alu d 1 [(a, 1)]
  | .flog2 d a => .alu d 1 [(a, 1)]
  | .fsin d a => .alu d 1 [(a, 1)]
  | .fcos d a => .alu d 1 [(a, 1)]
  | .frnd d a _ => .alu d 1 [(a, 1)]
  | .fclass d a => .alu d 1 [(a, 1)]
  | .haddF16 d a b => .alu d 1 [(a, 1), (b, 1)]
  | .hmulF16 d a b => .alu d 1 [(a, 1), (b, 1)]
  | .hminF16 d a b => .alu d 1 [(a, 1), (b, 1)]
  | .hmaxF16 d a b => .alu d 1 [(a, 1), (b, 1)]
  | .haddBf16 d a b => .alu d 1 [(a, 1), (b, 1)]
  | .hmulBf16 d a b => .alu d 1 [(a, 1), (b, 1)]
  | .hminBf16 d a b => .alu d 1 [(a, 1), (b, 1)]
  | .hmaxBf16 d a b => .alu d 1 [(a, 1), (b, 1)]
  | .icmpI32 pd _ a b => .mk [.any a 1, .any b 1] [pd.toNat]
  | .icmpUi32 pd _ a b => .mk [.any a 1, .any b 1] [pd.toNat]
  | .fcmp pd _ a b => .mk [.any a 1, .any b 1] [pd.toNat]
  | .plop pd _ pa pb => .mk [] [pd.toNat, pa.toNat, pb.toNat]
  | .ptov d pa => .mk [.vec d 1] [pa.toNat]
  | .vtop pd a => .mk [.any a 1] [pd.toNat]
  | .qswz d a _ => .mk [.vec d 1, .any a 1] []
  | .qbc d a _ => .mk [.vec d 1, .any a 1] []
  | .lshup d a _ => .mk [.vec d 1, .any a 1] []
  | .lshdn d a _ => .mk [.vec d 1, .any a 1] []
  | .lshfx d a b => .mk [.vec d 1, .any a 1, .any b 1] []
  | .gbal d pa => .mk [.scal d 2 2] [pa.toNat]
  | .grediAdd d a => .mk [.vec d 1, .any a 1] []
  | .grediMin d a => .mk [.vec d 1, .any a 1] []
  | .grediMax d a => .mk [.vec d 1, .any a 1] []
  | .gredfAdd d a => .mk [.vec d 1, .any a 1] []
  | .gscanAdd d a => .mk [.vec d 1, .any a 1] []
  | .rdlane d a _ => .mk [.any d 1, .any a 1] []
  | .wrlane d a _ => .mk [.vec d 1, .scal a 1 1] []
  | .gany pd pa => .mk [] [pd.toNat, pa.toNat]
  | .gall pd pa => .mk [] [pd.toNat, pa.toNat]
  | .xset _ _ _ => .mk [] []
  | .xinc _ _ => .mk [] []
  | .movxr d _ _ => .mk [.vec d 1] []
  | .movxw a _ _ => .mk [.any a 1] []
  | .xrd d _ => .mk [.vec d 1] []
  | .ld d _ sz vi => .load d sz vi
  | .st d _ sz vi => .mk [⟨d, sz.regs, sz.regs, none⟩, .any vi 1] []
  | .lds d a _ => .alu d 1 [(a, 1)]
  | .sts d a _ => .mk [.any d 1, .any a 1] []
  | .sld d _ sz _ => .mk [.scal d sz.regs sz.regs] []
  | .bset a _ => .mk [.scal a 4 1] []
  | .bget d _ => .mk [.scal d 4 1] []
  | .fence _ _ => .mk [] []
  | .tfence _ => .mk [] []
  | .bara d _ => .mk [.scal d 1 1] []
  | .barw a _ => .mk [.scal a 1 1] []
  | .bars _ => .mk [] []
  | .barexp a _ => .mk [.scal a 1 1] []
  | .ctxnew d => .mk [.scal d 1 1] []
  | .ctxtry d pd => .mk [.scal d 1 1] [pd.toNat]
  | .contextTagRegister _ => .mk [] []
  | .ctxset a => .mk [.scal a 1 1] []
  | .ctxretCommit d a => .mk [.scal d 1 1, .scal a 1 1] []
  | .ctxretDrop d a => .mk [.scal d 1 1, .scal a 1 1] []
  | .ctxq d a => .mk [.scal d 1 1, .scal a 1 1] []
  | .accclr _ => .mk [] []
  | .accrel _ => .mk [] []
  | .cvt d a code => if code = 0x24#8 || code = 0x25#8 then .mk [.vec d 1, .any a 1] [] else .alu d 1 [(a, 1)]
  | .pkh d a _ => .alu d 1 [(a, 2)]
  | .upkh d a _ => .alu d 2 [(a, 1)]
  | .qw _ a => .mk [.scal a 1 1] []
  | .qr _ d => .mk [.scal d 1 1] []
  | .qtry pd _ d => .mk [.scal d 1 1] [pd.toNat]
  | .sgret a => .mk [.vec a 1] []
  | .sgstat d _ _ => .mk [.any d 1] []
  | .boost d _ => .mk [.scal d 1 1] []
  | .boostrel => .mk [] []
  | .ffmaF32 d a b c => .alu d 1 [(a, 1), (b, 1), (c, 1)]
  | .hfmaF16 d a b c => .alu d 1 [(a, 1), (b, 1), (c, 1)]
  | .hfmaBf16 d a b c => .alu d 1 [(a, 1), (b, 1), (c, 1)]
  | .imad d a b c => .alu d 1 [(a, 1), (b, 1), (c, 1)]
  | .sel d a b p => .mk [.vec d 1, .any a 1, .any b 1] [p.toNat]
  | .bfe d a _ _ _ => .alu d 1 [(a, 1)]
  | .bfi d a b _ _ => .alu d 1 [(a, 1), (b, 1)]
  | .iamin d a b c => .alu d 1 [(a, 1), (b, 1), (c, 1)]
  | .logt d a b c _ => .alu d 1 [(a, 1), (b, 1), (c, 1)]
  | .dot4I8 d a b c => .alu d 1 [(a, 1), (b, 1), (c, 1)]
  | .spcmp d a c _ _ => .mk [⟨d, 1, 1, some c.isScalar⟩, ⟨a, 2, 2, some c.isScalar⟩, .any c 1] []
  | .iaddk d a _ => .alu d 1 [(a, 1)]
  | .movk d _ => .alu d 1 []
  | .andk d a _ => .alu d 1 [(a, 1)]
  | .ork d a _ => .alu d 1 [(a, 1)]
  | .faddk d a _ => .alu d 1 [(a, 1)]
  | .fmulk d a _ => .alu d 1 [(a, 1)]
  | .ldl d _ sz vi _ => .load d sz vi
  | .stl d _ sz vi _ => .mk [⟨d, sz.regs, sz.regs, none⟩, .any vi 1] []
  | .ldx d _ sz vi k _ => let u := Uses.load d sz vi; .mk (u.regs ++ [.any (.s (Fin.ofNat 64 k.toNat)) 1]) []
  | .atom d _ vi op _ ty _ val => .mk [⟨d, ty.regs, ty.regs, some false⟩, .any vi 1, ⟨val, if op == .cas then 2 * ty.regs else ty.regs, ty.regs, none⟩] []
  | .red _ vi op _ ty _ val => .mk [.any vi 1, ⟨val, if op == .cas then 2 * ty.regs else ty.regs, ty.regs, none⟩] []
  | .atoms d vi op _ ty _ val => .mk [⟨d, ty.regs, ty.regs, some false⟩, .any vi 1, ⟨val, if op == .cas then 2 * ty.regs else ty.regs, ty.regs, none⟩] []
  | .tcopyLd d a b _ _ n _ => .mk [.scal d 1 1, .scal a (n.toNat + 1) 1, .scal b 1 1] []
  | .tcopySt d a b _ _ n _ => .mk [.scal d 1 1, .scal a (n.toNat + 1) 1, .scal b 1 1] []
  | .tcopyiPack d a b _ _ n _ => .mk [.scal d 1 1, .scal a (n.toNat + 1) 1, .scal b 1 1] []
  | .tcopyiUnpack d a b _ _ n _ => .mk [.scal d 1 1, .scal a (n.toNat + 1) 1, .scal b 1 1] []
  | .tmov d a _ _ _ => .mk [.scal d 1 1, .scal a 4 1] []
  | .mma _ a b _ _ _ fmt kb => .mk [.vec a (fmt.dataRegs kb.toNat + fmt.scaleRegs kb.toNat), .scal b 1 1] []
  | .mmaSp _ a b _ _ _ fmt m kb => .mk [.vec a (fmt.dataRegs kb.toNat / 2 + fmt.scaleRegs kb.toNat), .vec m kb.toNat, .scal b 1 1] []
  | .accld a b _ _ _ => .mk [.scal a 1 1, .scal b 1 1] []
  | .accst a b _ _ _ => .mk [.scal a 1 1, .scal b 1 1] []
  | .accrd d _ _ _ => .mk [.vec d 8] []
  | .accwr d _ _ _ => .mk [.vec d 8] []
  | .sgcall d a _ pd => .mk [.vec d 1, .vec a 1] [pd.toNat]
  | .sgloadLoad d a _ => .mk [.scal d 1 1, .scal a 1 1] []
  | .sgloadQual d a _ => .mk [.scal d 1 1, .scal a 2 1] []
  | .sgloadRel d _ => .mk [.scal d 1 1] []
  | .sgloadClr d _ => .mk [.scal d 1 1] []
  | .tdview d a _ => .mk [.scal d 1 1, .scal a 11 1] []
  | .coll d a _ _ => .mk [.scal d 1 1, .scal a 6 1] []
  | .bpset d a _ => .mk [.scal d 1 1, .scal a 5 1] []
  | .wpset d a _ => .mk [.scal d 1 1, .scal a 4 1] []
  | .stepArm d a => .mk [.scal d 1 1, .scal a 2 1] []
  | .stepOff d a => .mk [.scal d 1 1, .scal a 2 1] []
  | .dbrd d a => .mk [.scal d 2 2, .scal a 3 1] []
  | .dbwr d a b => .mk [.scal d 1 1, .scal a 3 1, .scal b 1 1] []
  | .barrd d a => .mk [.scal d 2 2, .scal a 1 1] []
  | .barwr d a b => .mk [.scal d 1 1, .scal a 1 1, .scal b 1 1] []
  | .clauseIssue _ => .mk [] []
  | .activeSetEnter _ => .mk [] []
  | .activeSetLeave _ => .mk [] []
  | .groupAdmit _ => .mk [] []
  | .swapOut _ => .mk [] []
  | .swapIn _ => .mk [] []
  | .groupFree _ => .mk [] []
  | .loadReturn _ _ => .mk [] []
  | .lineArriveHome _ => .mk [] []
  | .atomicPerform _ _ => .mk [] []
  | .cellWaitGrant _ => .mk [] []
  | .tableWalk _ _ _ _ => .mk [] []
  | .meteringWindow => .mk [] []
  | .copyStart _ => .mk [] []
  | .copyLine _ => .mk [] []
  | .copyComplete _ => .mk [] []
  | .matrixCommandExecute _ => .mk [] []
  | .surrogateEvaluate _ _ => .mk [] []
  | .sgloadComplete _ => .mk [] []
  | .recoveryGroupForm _ _ => .mk [] []
  | .retireGranule _ _ _ => .mk [] []
  | .contextRetireComplete _ => .mk [] []
  | .contextStallTimeout _ => .mk [] []
  | .barrierPhaseRelease _ _ => .mk [] []
  | .releaseWindowEnd _ => .mk [] []
  | .trapEntry _ => .mk [] []
  | .watchpointReportDue _ => .mk [] []
  | .timeSlice _ => .mk [] []
  | .preemptDrainTimeout _ => .mk [] []
  | .jobRestore _ => .mk [] []
  | .evict _ _ => .mk [] []
  | .migrate _ _ => .mk [] []
  | .migrationAbandon _ => .mk [] []
  | .placeBlocks _ => .mk [] []
  | .blockCompletion _ => .mk [] []
  | .tagPoolRequest _ _ => .mk [] []
  | .tagPoolGrant _ _ _ => .mk [] []
  | .stallReport _ => .mk [] []
  | .disableReport _ _ => .mk [] []
  | .surrogateDisable _ _ => .mk [] []
  | .trapDispatch _ => .mk [] []
  | .launchComplete _ => .mk [] []
  | .bundleFetch _ _ => .mk [] []
  | .bundleAdmit _ => .mk [] []
  | .bundleRetire _ => .mk [] []
  | .codeLoad _ _ _ => .mk [] []
  | .copyProgramRun _ _ => .mk [] []
  | .surrogateLoadSublaunch _ _ => .mk [] []
  | .collectiveSublaunch _ _ => .mk [] []
  | .collectiveComplete _ _ _ => .mk [] []
  | .boostBoundary => .mk [] []
  | .sustainedPowerLimit => .mk [] []
  | .emergencyPowerLimit => .mk [] []
  | .sliceRatioChange _ _ _ => .mk [] []
  | .sensorSample _ _ => .mk [] []
  | .voltageDroop _ => .mk [] []
  | .coreAvoid _ => .mk [] []
  | .coreReadmit _ => .mk [] []
  | .wearAccumulate => .mk [] []
  | .wearReportRefresh => .mk [] []
  | .retentionEntry _ _ => .mk [] []
  | .retentionExit _ _ _ => .mk [] []
  | .hostLinkDown _ => .mk [] []
  | .hostMemoryAccess _ _ _ _ => .mk [] []
  | .registerJob _ => .mk [] []
  | .unregisterJob _ => .mk [] []
  | .claimFrames _ => .mk [] []
  | .releaseFrames _ => .mk [] []
  | .defineCommunicator _ => .mk [] []
  | .attest _ => .mk [] []
  | .sqWritePointer _ _ _ => .mk [] []
  | .sqEnable _ _ _ => .mk [] []
  | .registerWrite _ _ _ => .mk [] []
  | .granialeFlitReceive _ _ _ => .mk [] []
  | .linkWidthChange _ _ => .mk [] []
  | .powerOnReset _ _ => .mk [] []
  | .illegalInstruction _ _ => .mk [] []
  | .peerLost _ => .mk [] []
  | .hostLinkUp _ => .mk [] []

/-- The first register operand of an instruction is a source. -/
def readsFirst : Instr → Bool
  | .jmpx _ _ | .swr _ _ | .icmpI32 _ _ _ _ | .icmpUi32 _ _ _ _ | .fcmp _ _ _ _ | .vtop _ _ | .movxw _ _ _
  | .st _ _ _ _ | .stl _ _ _ _ _ | .sts _ _ _ | .red _ _ _ _ _ _ _ | .bset _ _ | .barw _ _ | .barexp _ _ | .ctxset _
  | .qw _ _ | .sgret _ | .mma _ _ _ _ _ _ _ _ | .mmaSp _ _ _ _ _ _ _ _ _ | .accld _ _ _ _ _ | .accst _ _ _ _ _
  | .accwr _ _ _ _ | .iamini _ _ _ | .movhi _ _ => true
  | _ => false

/-- The register operands that an instruction reads. -/
def sourcesOf (i : Instr) : Uses :=
  let u := usesOf i
  if readsFirst i then u else ⟨u.regs.tail, u.preds⟩

/-- The register operands that an instruction writes; SPCMP writes its last one too, IAMINI and MOVHI write the one they
read (R143, R144, R295). -/
def resultsOf (i : Instr) : Uses :=
  let u := usesOf i
  match i with
  | .spcmp _ _ _ _ _ => ⟨u.regs.take 1 ++ u.regs.drop 2, []⟩
  | .iamini _ _ _ | .movhi _ _ => ⟨u.regs, []⟩
  | _ => if readsFirst i then ⟨[], []⟩ else ⟨u.regs.take 1, []⟩

/-- The vector register a name denotes in the group's present view (R42, R322, R358). -/
def Group.vName (g : Group) (n : Nat) : Option Nat :=
  if g.inHandler then
    if 176 ≤ n then (if n < 192 then some (g.vregs - 16 + (n - 176)) else none)
    else if n < g.vregs - 16 then some n else none
  else if n < g.names then some n else none

/-- The scalar register a name denotes in the group's present view (R42, R358). -/
def Group.sName (g : Group) (n : Nat) : Option Nat :=
  if g.inHandler then
    if 56 ≤ n then (if n < 64 then some (g.sTop - 8 + (n - 56)) else none)
    else if n < g.sTop - 8 then some n else none
  else if n < g.sregs then some n else none

/-- The register, k places after an operand's first, that the group's view denotes. -/
def Group.name (g : Group) (r : Reg) (k : Nat) : Option PReg :=
  match r with
  | .v n => (g.vName (n.val + k)).map PReg.v
  | .s n => (g.sName (n.val + k)).map PReg.s

/-- An operand that R42 and the instruction's own rule allow. -/
def RUse.ok (g : Group) (u : RUse) : Bool :=
  (match u.must with
   | none => true
   | some b => u.reg.isScalar == b) &&
  u.reg.num % u.align = 0 && (List.range u.n).all fun k => (g.name u.reg k).isSome

/-- The pending bits an instruction waits for (R127). -/
def Uses.pregs (u : Uses) (g : Group) : List PReg :=
  (u.regs.flatMap fun x => (List.range x.n).filterMap fun k => g.name x.reg k) ++ u.preds.map PReg.p

/-- The physical number of a register of an operand's run (checked beforehand; 0 never arises). -/
def Group.phys (g : Group) (r : Reg) (k : Nat) : Nat :=
  match g.name r k with
  | some (.v n) => n
  | some (.s n) => n
  | some (.p n) => n
  | none => 0

/-- Src (R138): lane i's value of a register, k places on; a scalar is broadcast. -/
def Group.src (g : Group) (r : Reg) (k lane : Nat) : Word :=
  match r with
  | .v _ => g.rdV (g.phys r k) lane
  | .s _ => g.rdS (g.phys r k)

/-- A scalar operand's value, k places on. -/
def Group.sval (g : Group) (r : Reg) (k : Nat) : Word := g.rdS (g.phys r k)

/-- The lanes of Exec of the clause in progress. -/
def Group.exec (g : Group) : Mask := (g.clause.map Clause.exec).getD 0#64

/-- The lanes of Exec that are no helper lanes (R88). -/
def Group.active (g : Group) : Mask := g.exec &&& ~~~g.helpers

/-- The lowest-numbered lane of a mask. -/
def lowest (m : Mask) : Option Nat := (maskList m).head?

/-- A destination register's writes: one per lane of Exec for a vector, one if a lane of Exec is no helper for a
scalar (R101, R138). -/
def Group.dest (g : Group) (d : Reg) (k : Nat) (f : Nat → Word) : List (Target × Word) :=
  match d with
  | .v _ => (maskList g.exec).map fun i => (.v (g.phys d k) i, f i)
  | .s _ => match lowest g.active with
    | some i => [(.s (g.phys d k), f i)]
    | none => []

/-- A predicate's writes in every lane of Exec. -/
def Group.destP (g : Group) (k : Nat) (f : Nat → Bool) : List (Target × Word) :=
  (maskList g.exec).map fun i => (.p k i, if f i then 1#32 else 0#32)

/-- The registers a destination run marks pending (R36). -/
def Group.pregs (g : Group) (d : Reg) (n : Nat) : List PReg := (List.range n).filterMap fun k => g.name d k

/-- A lane's 64-bit pair, low word first. -/
def pair (lo hi : Word) : Nat := lo.toNat + hi.toNat * 2 ^ 32

end Sys2Proof.Machine
end

