-- ==== Sys2Proof/Machine/Flags.lean ====
section
/-!
DEFINITION. The sticky flags of sr.fflags (R70) and the comparison conditions (R47).
-/

namespace Sys2Proof.Machine

/-- The flags an instruction raises: those of its lanes in Exec that are no helper lanes; for a scalar
destination those of its one execution (R70, R139). -/
def Group.flagsOf (g : Group) (d : Reg) (f : Nat → FFlags) : FFlags :=
  match d with
  | .v _ => (maskList g.active).foldl (fun acc i => acc ||| f i) 0#5
  | .s _ => match lowest g.active with
    | some i => f i
    | none => 0#5

/-- Flags stay set once raised (R70). -/
def Group.addFlags (g : Group) (fl : FFlags) : Group :=
  { g with lanes := { g.lanes with fflags := g.lanes.fflags ||| fl } }

/-- The group's rounding mode (R67). -/
def Group.mode (g : Group) : RMode := RMode.ofBits g.lanes.rmode

/-- The conditions of ICMP (R47) on integers. -/
def condInt (cond : Nat) (a b : Int) : Bool :=
  match cond with
  | 0 => a = b
  | 1 => a ≠ b
  | 2 => a < b
  | 3 => a ≤ b
  | 4 => b < a
  | _ => b ≤ a

/-- Whether two values compare equal, −0 with +0 (R47). -/
def FVal.eqv (x y : FVal) : Bool :=
  match x, y with
  | .inf a, .inf b => a == b
  | .fin na ma ea, .fin nb mb eb => decide ((dyAdd (signedMant na ma, ea) (-(signedMant nb mb), eb)).1 = 0)
  | .inf _, .fin _ _ _ => false
  | .fin _ _ _, .inf _ => false
  | .nan _, _ => false
  | _, .nan _ => false

/-- Whether x is less than y as a comparison has it, zeros equal (R47). -/
def FVal.lt (x y : FVal) : Bool := x.below y && !x.eqv y

/-- The conditions of FCMP (R47). -/
def condFp (cond : Nat) (x y : FVal) : Bool :=
  let uno := x.isNan || y.isNan
  match cond with
  | 0 => x.eqv y
  | 1 => uno || !x.eqv y
  | 2 => x.lt y
  | 3 => x.lt y || x.eqv y
  | 4 => y.lt x
  | 5 => y.lt x || x.eqv y
  | 6 => x.eqv y
  | 7 => !uno && !x.eqv y
  | 8 => uno || x.eqv y
  | 9 => uno || x.lt y
  | 10 => uno || x.lt y || x.eqv y
  | 11 => uno || y.lt x
  | 12 => uno || y.lt x || x.eqv y
  | 13 => !uno
  | 14 => uno
  | _ => uno || !x.eqv y

end Sys2Proof.Machine
end

