-- ==== Sys2Proof/Machine/Issue.lean ====
section
/-!
DEFINITION. How the part issues one word of a group: the checks every word passes first, in the order of R54 and
R355, what a meaning may answer, and what follows a word that executed.
-/

namespace Sys2Proof.Machine

/-- How a word leaves the addresses of the lanes of Exec: to the next clause at the clause's end, as the word
itself set them (R90, R91), or not at all, the group having left the clause (TRET, a killed task). -/
inductive Flow where
  | seq | own | gone
  deriving DecidableEq, Repr

/-- What a meaning answers for a word: it does not issue yet; it raises a cause before any effect; the task ends;
or it is done, with the causes taken after the word. -/
inductive Eff where
  | wait
  | trap (c : Cause)
  | kill (status : Nat)
  | done (s : State) (flow : Flow) (after : List Cause)
  deriving DecidableEq, Repr

/-- The word index after the instruction. -/
def Clause.nextPos (cl : Clause) (i : Instr) : Nat := cl.pos + i.words

/-- The number of the clause class that admits an instruction (R27). -/
def classNum : ClauseClass → Nat
  | .alu => 0
  | .memory => 1
  | .async => 2
  | .sync => 3
  | .control => 4
  | .system => 5

/-- Instructions that end the flow of a clause (R92). -/
def endsFlow : Instr → Bool
  | .bra _ _ _ _ | .jmpx _ _ | .exitG | .park _ | .yieldG | .repeatN _ | .sleepI _ | .tret | .sgret _ => true
  | _ => false

/-- Memory-class instructions a recovery group may issue (R322). -/
def recoveryMemory : Instr → Bool
  | .ld _ _ _ _ | .ldl _ _ _ _ _ | .sld _ _ _ _ | .ldx _ _ _ _ _ _ | .bset _ _ | .bget _ _ | .fence _ _ => true
  | _ => false

/-- Instructions that raise an illegal-instruction fault in a recovery group (R322). -/
def recoveryBanned (i : Instr) : Bool :=
  match i.cls with
  | some .memory => !recoveryMemory i
  | some .async => !(match i with
    | .sgret _ => true
    | _ => false)
  | some .sync => true
  | some .system => true
  | some .control => (match i with
    | .exitG => true
    | _ => false)
  | some .alu => false
  | none => false

/-- Instructions whose issue in trap-handler mode is a handler fault (R359). DESIGN CHOICE (assumption log 23). -/
def handlerBanned : Instr → Bool
  | .exitG | .enrol _ | .park _ | .strike _ | .bara _ _ | .barw _ _ | .bars _ | .barexp _ _ => true
  | _ => false

/-- The word of the clause in progress and the one after it (R43). -/
def State.fetch (s : State) (g : Group) (cl : Clause) : Word × Word :=
  (s.codeWord g (cl.header + cl.pos), s.codeWord g (cl.header + cl.pos + 1))

/-- The step that a pair of words stands for: their instruction, or ILLEGAL_INSTRUCTION (R48). -/
def wordStep (w : Word × Word) : Instr :=
  match decodeWords w.1 (some w.2) with
  | .ok i => i
  | .error _ => .illegalInstruction w.1 w.2

/-- Illegal-instruction faults of a well-formed word (R33, R92, R113, R322, R323, R359). That SGRET is one in a recovery
group's trap handler is the model's choice: DESIGN CHOICE (assumption log 23). -/
def illegalAt (g : Group) (cl : Clause) (i : Instr) : Bool :=
  let cls := (i.cls.map classNum).getD 7
  let last := decide (cl.nextPos i = hdrN cl.hw + 1)
  let tail := cls = 4 && last
  (cls ≠ hdrClass cl.hw && !tail) ||
  decide (hdrN cl.hw + 1 < cl.nextPos i) ||
  (endsFlow i && !last) ||
  (g.lanes.rep ≠ 0 && g.lanes.repAddr = cl.header && cls = 4) ||
  (g.recov.isSome && recoveryBanned i) ||
  (match i with
   | .sgret _ => g.recov.isNone || g.inHandler
   | _ => false) ||
  (g.inHandler && handlerBanned i)

/-- Privilege faults (R53, R130, R362). -/
def privilegeAt (g : Group) (i : Instr) : Bool :=
  !g.inHandler && (match i with
    | .tret | .bpset _ _ _ | .wpset _ _ _ | .stepArm _ _ | .stepOff _ _ | .dbrd _ _ | .dbwr _ _ _ | .barrd _ _
    | .barwr _ _ _ => true
    | .srd _ .trapinfo => true
    | _ => false)

/-- The buffer record a memory instruction names. -/
def recordOf : Instr → Option Nat
  | .ld _ b _ _ | .st _ b _ _ | .sld _ b _ _ | .ldl _ b _ _ _ | .stl _ b _ _ _ | .ldx _ b _ _ _ _
  | .atom _ b _ _ _ _ _ _ | .red b _ _ _ _ _ _ => some b.toNat
  | _ => none

/-- The tile an instruction names. -/
def tileOf : Instr → Option Nat
  | .mma lo _ _ hi _ _ _ _ => some (lo.toNat + 256 * hi.toNat)
  | .mmaSp lo _ _ hi _ _ _ _ _ => some (lo.toNat + 256 * hi.toNat)
  | .accld _ _ _ _ t | .accst _ _ _ _ t | .accrd _ _ _ t | .accwr _ _ _ t | .accclr t | .accrel t => some t.toNat
  | _ => none

/-- The barrier an instruction names. -/
def barOf : Instr → Option BarName
  | .bara _ b | .barw _ b | .bars b | .barexp _ b => some b
  | .tmov _ _ _ _ p | .tcopyLd _ _ _ _ p _ _ | .tcopySt _ _ _ _ p _ _ | .tcopyiPack _ _ _ _ p _ _
  | .tcopyiUnpack _ _ _ _ p _ _ => p
  | _ => none

/-- The queue register an instruction names, and whether it writes commands. -/
def queueOf : Instr → Option (Nat × Bool)
  | .qw q _ => some (q.toNat, true)
  | .qr q _ => some (q.toNat, false)
  | .qtry _ q _ => some (q.toNat, false)
  | _ => none

/-- Word k of buffer record b. -/
def Group.recWord (g : Group) (b k : Nat) : Word := Tab.getD g.b (4 * b + k) 0#32

/-- A malformed buffer record: reserved bits or a reserved swizzle (R198). -/
def Group.recBad (g : Group) (b : Nat) : Bool :=
  bitsOf (g.recWord b 2).toNat 18 14 ≠ 0 || decide (3 < bitsOf (g.recWord b 0).toNat 16 4)

/-- How many barriers of a scope the group may name (R42, R340). -/
def State.barCount (s : State) (g : Group) (sc : BarScope) : Nat :=
  if g.recov.isSome then 0
  else match s.launch? g, sc with
    | some l, .block => l.kernel.blockBars
    | some l, .gang => l.kernel.gangBars
    | some l, .grid => l.kernel.gridBars
    | none, _ => 0

/-- The region table entry of a slot in the issuing kernel (R316). -/
def State.region? (s : State) (g : Group) (slot : Nat) : Option Region :=
  (s.launch? g).bind fun l => l.kernel.regions.find? fun r => r.slot = slot

/-- A run of vector registers the group's view holds. -/
def Group.runOk (g : Group) (r : Reg) (n : Nat) : Bool := (List.range n).all fun k => (g.name r k).isSome

/-- Illegal-operand faults beyond register names (R42, R85, R131, R198, R276, R316, R323, R328). -/
def operandBad (s : State) (g : Group) (i : Instr) : Bool :=
  (match recordOf i with
   | some b => g.recBad b
   | none => false) ||
  (match tileOf i with
   | some t => decide (((s.block? g).map fun b => b.tiles.length).getD 0 ≤ t)
   | none => false) ||
  (match barOf i with
   | some b => decide (s.barCount g b.scope ≤ b.ix.toNat)
   | none => false) ||
  (match queueOf i with
   | some (q, wr) =>
     match (s.launch? g).map fun l => l.bindings.getD q 0 with
     | some 1 => !wr
     | some 3 => !wr
     | some 2 => wr
     | some 4 => wr
     | _ => true
   | none => false) ||
  (match i with
   | .cvt _ _ code => (code = 0x24#8 || code = 0x25#8) && g.width = 8
   | .swr _ sp => !sp.writable
   | .sgcall d a slot _ =>
     match s.region? g slot.toNat with
     | some r => !(g.runOk a r.argc && g.runOk d r.resc)
     | none => true
   | .sgloadLoad _ _ slot | .sgloadQual _ _ slot => (s.region? g slot.toNat).isNone
   | .sgret a =>
     match g.recov.bind fun r => s.region? g r.1 with
     | some r => !g.runOk a r.resc
     | none => false
   | _ => false)

/-- Whether the group of a comparator's launch meets it at the word (R368, R365). DEDUCED (assumption log 21). Of several that
match, the lowest-numbered is named: DESIGN CHOICE (assumption log 36). -/
def State.breakAt (s : State) (g : Group) (cl : Clause) : Option Cause :=
  if g.inHandler || cl.skipBp = cl.pos then none
  else match Tab.get? s.work.jobs (s.jobOf g), s.codeOf (clusterOf g.core) g.launch with
    | some j, some code =>
      firstSome (fun e =>
        let c : Comparator := e.2
        let sel := (if c.served then cl.served else cl.exec) &&& c.lanes
        let blk := ((s.block? g).map Block.index).getD 0xFFFFFFFF
        if c.launch = g.launch && c.word + code.base = cl.header + cl.pos &&
            (c.block = 0xFFFFFFFF#32 || c.block.toNat = blk) && (c.group = 255 || (g.recov.isNone && c.group = g.gix)) && sel != 0#64 then
          some (⟨0x10, e.1, some (sel &&& cl.exec &&& ~~~g.helpers), 0, 0⟩ : Cause)
        else none) j.comparators
    | _, _ => none

/-- The checks made before a word issues, in the order of R355 and R54: the cause it raises, if any. A BARS that has
arrived and waits has issued already (R343). -/
def State.checks (s : State) (g : Group) (cl : Clause) (i : Instr) : Option Cause :=
  match s.breakAt g cl with
  | some c => if g.barsTok.isSome then none else some c
  | none =>
    if g.barsTok.isSome then none
    else if illegalAt g cl i then some (.plain 0x02)
    else if privilegeAt g i then some (.plain 0x04)
    else if !((usesOf i).regs.all fun u => u.ok g) || operandBad s g i then some (.plain 0x03)
    else none

/-- The counter thresholds of a clause header are met (R28). -/
def Group.thresholds (g : Group) (h : Word) : Bool :=
  let met := fun c lo w =>
    bitsOf h.toNat lo w = 2 ^ w - 1 || decide (g.cnt c ≤ bitsOf h.toNat lo w)
  met cLD 11 4 && met cST 8 3 && met cCP 5 3 && met cTL 2 3

/-- Commands that a frozen block does not issue (R377, R393): copies, matrix-engine commands, SGCALL, SGLOAD, COLL
and the raw commands of a queue. DEDUCED (assumption log 47). -/
def frozenBan : Instr → Bool
  | .tcopyLd _ _ _ _ _ _ _ | .tcopySt _ _ _ _ _ _ _ | .tcopyiPack _ _ _ _ _ _ _ | .tcopyiUnpack _ _ _ _ _ _ _
  | .tmov _ _ _ _ _ | .qw _ _ | .mma _ _ _ _ _ _ _ _ | .mmaSp _ _ _ _ _ _ _ _ _ | .accld _ _ _ _ _
  | .accst _ _ _ _ _ | .accrd _ _ _ _ | .accwr _ _ _ _ | .accclr _ | .accrel _ | .sgcall _ _ _ _
  | .sgloadLoad _ _ _ | .sgloadQual _ _ _ | .sgloadRel _ _ | .sgloadClr _ _ | .coll _ _ _ _ => true
  | _ => false

/-- Whether the scoreboard, an earlier acquiring atomic (R127, R253), a waiting CTXNEW (R236), for a clause
re-entered by TRET the header's thresholds (R364), or a freeze holds the word. -/
def Group.blocked (g : Group) (cl : Clause) (i : Instr) : Bool :=
  ((usesOf i).pregs g).any g.isPend || g.hold.isSome || g.ctxwait || (cl.reentry && !g.thresholds cl.hw) ||
    (g.frozen && frozenBan i)

/-- The oldest undelivered report, when it or a later one is due: they are delivered in arrival order (R355), and none
past its own skid (R354); a BARS that has arrived and waits has issued already (R343).
DEDUCED (assumption log 22). -/
def Group.dueReport (g : Group) : Option Report :=
  if g.inHandler || g.barsTok.isSome then none
  else match g.reports with
    | r :: rs => if r.due || rs.any Report.due then some r else none
    | [] => none

/-- The due report is taken before the word, or before the clause issues, at its header (R355): the dropped count rides
on it. DEDUCED (assumption log 22). -/
def State.takeReport (s : State) (gid : Nat) (g : Group) (cl : Clause) (r : Report) : State :=
  let s := s.raise gid cl ⟨r.cause, r.detail, r.lanes, r.obj, r.off⟩ cl.pos cl.pos (cl.pos = 0)
  s.updGroup gid fun g' => { g' with reports := g.reports.tail, dropped := 0 }

/-- The group's instruction does not issue in this slice cycle. DEDUCED (assumption log 19). -/
def State.notIssued (s : State) : State := { s with waited := true }

/-- One further instruction of the group has executed: copy-write reports fall due at the sixteenth (R354). -/
def countReport (r : Report) : Report :=
  if r.cause = 0x13 && !r.due then { r with left := r.left - 1, due := decide (r.left ≤ 1) } else r

/-- After a word's own effect: the group moves to the next word or ends the clause (R90). -/
def Group.advance (g : Group) (cl : Clause) (i : Instr) (flow : Flow) : Group :=
  let p := cl.nextPos i
  let g := { g with slot := g.slot + 1, reports := g.reports.map countReport }
  if p ≤ hdrN cl.hw then { g with clause := some { cl with pos := p, skipBp := 0, reentry := false } }
  else { g with clause := none, lanes := endClause g.lanes cl (flow = .own) }

/-- A report joins a group's undelivered ones; a fifth is dropped and counted (R355). -/
def Group.report (g : Group) (r : Report) : Group :=
  if 4 ≤ g.reports.length then { g with dropped := g.dropped + 1 } else { g with reports := g.reports ++ [r] }

/-- A cause is taken after a word; the further lane-access causes of that word follow it, each after the return from the
one before (R370). DEDUCED (assumption log 22). -/
def State.raiseAll (s : State) (gid : Nat) (cl : Clause) (c : Cause) (cs : List Cause) (word resume : Nat) : State :=
  let s := s.raise gid cl c word resume false
  if cs.isEmpty then s
  else s.updGroup gid fun g => { g with trap := g.trap.map fun f => { f with more := cs } }

/-- The status word of a view stands in its scalar: it has landed, and no later result (R35). -/
def View.stands (v : View) (g : Group) : Bool :=
  !(g.pend.any fun e => e.op = v.op) &&
    v.lost.all fun n => g.inflight.any fun e => e.target = .s v.sd && e.land = n

/-- A word has written the scalar of a view's status: from which issue slot on its result stands there. -/
def View.overwrite (v : View) (g : Group) : View :=
  if v.lost.isSome then v
  else { v with lost := some (((g.inflight.find? fun e => e.target = .s v.sd).map Inflight.land).getD 0) }

/-- A group that reads the status word of its TDVIEW, as a source operand and while it stands in its scalar, has observed
it (R210). DEDUCED (assumption log 29). -/
def State.observe (s : State) (gid : Nat) (i : Instr) : State :=
  if s.views.isEmpty then s
  else match Tab.get? s.groups gid with
    | none => s
    | some g =>
      if g.active == 0#64 then s
      else
        { s with views := s.views.map fun v =>
            if v.owner ≠ gid || g.pend.any (fun e => e.op = v.op) then v
            else
              let v' := if ((sourcesOf i).pregs g).contains (.s v.sd) && v.stands g then { v with observed := true } else v
              if ((resultsOf i).pregs g).contains (.s v.sd) then v'.overwrite g else v' }

/-- Whether a group is left with parked lanes and no eligible lane (R100). -/
def Group.deadlocked (g : Group) : Bool :=
  !g.done && g.lanes.active == 0#64 && g.lanes.parked.any fun e => e.2 != 0#64

/-- What follows a word that executed: the advance, then the first of the causes taken after a word (R355): a
watchpoint, BKPT, TRAP or a park deadlock, the single step.
DEDUCED (assumption log 22). -/
def State.finish (s : State) (gid : Nat) (cl : Clause) (i : Instr) (flow : Flow) (after : List Cause) : State :=
  match flow with
  | .gone => s
  | .seq | .own =>
    match Tab.get? s.groups gid with
    | none => s
    | some g =>
      let g' := g.advance cl i flow
      let s := (s.observe gid i).setGroup gid g'
      let resume := if cl.nextPos i ≤ hdrN cl.hw then cl.nextPos i else 0
      match after with
      | c :: cs => s.raiseAll gid cl c cs cl.pos resume
      | [] =>
        if g'.deadlocked then s.raise gid cl (.plain 0x0D) cl.pos resume false
        else if g'.step && !g'.inHandler && !g'.done then
          (s.updGroup gid fun h => { h with step := false }).raise gid cl (.plain 0x15) cl.pos resume false
        else s

/-- One word of the issuing group: the checks, the scoreboard, a due report, then the meaning `eff` and what
follows. DEDUCED (assumption log 26). -/
def issue (i : Instr) (eff : State → Nat → Group → Clause → Eff) (s : State) : Res :=
  match s.cur with
  | none => .fault .noIssuingGroup
  | some gid =>
    match Tab.get? s.groups gid with
    | none => .fault .noIssuingGroup
    | some g0 =>
      match g0.clause with
      | none => .fault .noIssuingGroup
      | some cl =>
        let g := g0.landDue
        match s.checks g cl i with
        | some c => .next (s.raise gid cl c cl.pos cl.pos false)
        | none =>
          if g.blocked cl i then
            match g.dueReport with
            | some r => .next (s.takeReport gid g cl r)
            | none => .next s.notIssued
          else
            match eff (s.setGroup gid g) gid g cl with
            | .trap c =>
              let s := if c.code = 0x08 then s.updGroup gid fun g => { g with bounds := true } else s
              .next (s.raise gid cl c cl.pos cl.pos false)
            | .wait =>
              match g.dueReport with
              | some r => .next (s.takeReport gid g cl r)
              | none => .next s.notIssued
            | .kill st =>
              match g.dueReport with
              | some r => .next (s.takeReport gid g cl r)
              | none => .next (s.killLaunch g.launch st)
            | .done s' flow after =>
              match g.dueReport with
              | some r => .next (s.takeReport gid g cl r)
              | none => .next (s'.finish gid cl i flow after)

end Sys2Proof.Machine
end

