-- ==== Sys2Proof/Machine/Ordering.lean ====
section
/-!
DEFINITION. What the fences, atomics and barriers wait for (R248, R252, R253, R259), and the barrier units
(R334 to R351).
-/

namespace Sys2Proof.Machine

/-- Whether an operation still has a read to return (R248). -/
def MemOp.reads (o : MemOp) : Bool :=
  match o.kind with
  | .load | .value => true
  | .atomic _ _ ret _ _ => ret
  | .store => false

/-- Whether the scope reaches beyond the core (R248). -/
def Scope.far : Scope → Bool
  | .grp | .blk => false
  | .gang | .dev | .sys => true

/-- Whether an operation is unperformed at the scopes of one core while it is outstanding (R248): all but stores, which
stand in the store-forwarding queue from their issue on. -/
def MemOp.nearOpen (o : MemOp) : Bool := o.kind != .store

/-- The release half of FenceEffect is met (R252). -/
def State.releaseMet (s : State) (gid : Nat) (g : Group) (sc : Scope) : Bool :=
  if Scope.far sc then
    s.ops.mem.all (fun e => e.2.group ≠ gid) && g.fwd.all fun l => !Tab.has s.ops.sfq l
  else s.ops.mem.all fun e => e.2.group ≠ gid || !e.2.nearOpen

/-- The acquire half of FenceEffect is met (R252). -/
def State.acquireMet (s : State) (gid : Nat) : Bool := s.ops.mem.all fun e => e.2.group ≠ gid || !e.2.reads

/-- A fence of an order and scope is met (R252). -/
def State.fenceMet (s : State) (gid : Nat) (g : Group) (o : Order) (sc : Scope) : Bool :=
  match o with
  | .rlx => true
  | .acq => s.acquireMet gid
  | .rel => s.releaseMet gid g sc
  | .ar => s.releaseMet gid g sc && s.acquireMet gid

/-! ### Descriptors that are not seen by all (R210) and writes made visible (R255) -/

/-- How wide a scope is. -/
def Scope.rank : Scope → Nat
  | .grp => 0
  | .blk => 1
  | .gang => 2
  | .dev => 3
  | .sys => 4

/-- A group lies within a scope as seen from a view's maker, alive or not (R45, R254). -/
def State.within (s : State) (sc : Scope) (v : View) (gid : Nat) : Bool :=
  match Tab.get? s.groups gid with
  | some b =>
    (match sc with
     | .grp => v.owner = gid
     | .blk => v.block.isSome && v.block = b.block
     | .gang => v.launch = b.launch && v.gang.isSome && v.gang = (s.block? b).map Block.gang
     | .dev | .sys => true)
  | none => false

/-- A group has performed a release: the descriptors whose status it has observed are released at the scope (R210). -/
def State.released (s : State) (gid : Nat) (sc : Scope) : State :=
  { s with views := s.views.map fun v =>
      if v.owner = gid && v.observed && (v.released.all fun r => decide (Scope.rank r < Scope.rank sc)) then
        { v with released := some sc }
      else v }

/-- The queue lines of a core. -/
def State.queueOf (s : State) (core : Nat) : List Nat := (s.ops.sfq.filter fun e => e.2.core = core).map Prod.fst

/-- The queue lines that a later engine command of a group must observe once it acquires: those of its core's queue, and
of those it knew before, from a core it was moved off too, the ones that still stand (R254, R255, R393).
DEDUCED (assumption log 50). -/
def State.seenBy (s : State) (g : Group) : List Nat :=
  dedup (s.queueOf g.core ++ (g.seen ++ g.behind).filter fun k => Tab.has s.ops.sfq k)

/-- A group has performed an acquire: it sees the descriptors released within their scopes (R210), and a later engine
command of it must observe the stores it has come to see (R255). DEDUCED (assumption logs 29, 50). -/
def State.acquired (s : State) (gid : Nat) : State :=
  let see := fun (v : View) =>
    if (v.released.any fun sc => s.within sc v gid) && !v.seen.contains gid then
      { v with seen := v.seen ++ [gid] }
    else v
  let s := { s with views := s.views.map see }
  s.updGroup gid fun g => { g with seen := s.seenBy g }

/-- What an order's halves do once they are met. -/
def State.ordered (s : State) (gid : Nat) (o : Order) (sc : Scope) : State :=
  match o with
  | .rlx => s
  | .acq => s.acquired gid
  | .rel => s.released gid sc
  | .ar => (s.released gid sc).acquired gid

/-- The memory scope of a barrier (R259). -/
def barScopeOf : BarScope → Scope
  | .block => .blk
  | .gang => .gang
  | .grid => .dev

/-- The number of a barrier's arrival record (R337, R373: the BA field). -/
def arrKey (b : BarName) : Nat :=
  (match b.scope with
   | .block => 0
   | .gang => 64
   | .grid => 128) + b.ix.toNat

def barKey : BarId → Nat
  | .block _ ix => ix
  | .gang _ _ ix => 64 + ix
  | .grid _ ix => 128 + ix

/-- The barrier a group means by a name (R334). -/
def State.barId (s : State) (g : Group) (b : BarName) : BarId :=
  match b.scope with
  | .block => .block (g.block.getD 0) b.ix.toNat
  | .gang => .gang g.launch (((s.block? g).map Block.gang).getD 0) b.ix.toNat
  | .grid => .grid g.launch b.ix.toNat

def State.bar? (s : State) : BarId → Option Barrier
  | .block b ix => (Tab.get? s.work.blocks b).bind fun x => Tab.get? x.bars ix
  | .gang l g ix => ((Tab.get? s.work.launches l).bind fun x => Tab.get? x.gangs g).bind fun x => Tab.get? x.bars ix
  | .grid l ix => (Tab.get? s.work.launches l).bind fun x => Tab.get? x.gridBars ix

def State.setBar (s : State) (id : BarId) (b : Barrier) : State :=
  match id with
  | .block k ix => s.updBlock k fun x => { x with bars := Tab.upd x.bars ix fun _ => b }
  | .gang l g ix => s.updLaunch l fun x =>
      { x with gangs := Tab.upd x.gangs g fun y => { y with bars := Tab.upd y.bars ix fun _ => b } }
  | .grid l ix => s.updLaunch l fun x => { x with gridBars := Tab.upd x.gridBars ix fun _ => b }

/-- Whether a group belongs to a barrier's owner (R335). -/
def State.ownedBy (s : State) (id : BarId) (g : Group) : Bool :=
  g.recov.isNone && (match id with
    | .block b _ => g.block = some b
    | .gang l k _ => g.launch = l && ((s.block? g).map Block.gang) = some k
    | .grid l _ => g.launch = l)

/-- The groups that are members of a barrier: its owner's groups that have not completed (R335). -/
def State.members (s : State) (id : BarId) : List (Nat × Group) :=
  s.groups.filter fun e => !e.2.done && s.ownedBy id e.2

/-- A core's phase under a map entry (R348). -/
def State.phase (s : State) (map core : Nat) : Nat :=
  ((Tab.get? s.hub.maps map).map fun m => m.phases.getD core 0).getD 0

def State.spacing (s : State) (map : Nat) : Nat := ((Tab.get? s.hub.maps map).map PhaseMap.spacing).getD 0

/-- The arrival records of a generation clear on the groups a test names (R350). -/
def State.clearArrivals (s : State) (id : BarId) (gen : Nat) (p : Group → Bool) : State :=
  { s with groups := Tab.mapVals s.groups fun _ g =>
      if s.ownedBy id g && p g && Tab.get? g.arrivals (barKey id) = some gen then
        { g with arrivals := Tab.del g.arrivals (barKey id) }
      else g }

/-- The conditions of R338. -/
def Barrier.met (b : Barrier) : Bool :=
  decide (1 ≤ b.arrived) && b.arrived = b.expected && decide (b.expbytes ≤ b.posted)

/-- The clamp of expected bytes (R344) and the saturation of posted bytes (R336). -/
def clampBytes (n : Int) : Nat := (clampInt 0 (2 ^ 32 - 1) n).toNat

/-- An event on a barrier's counts (R341, R344, R345): 0 an arrival, 1 a BAREXP, 2 a post. An arrival at 65,535 counts on:
DESIGN CHOICE (assumption log 62). -/
def Barrier.event (b : Barrier) (e : Nat × Int) : Barrier :=
  if e.1 = 0 then { b with arrived := b.arrived + 1 }
  else if e.1 = 1 then { b with expbytes := clampBytes (b.expbytes + e.2) }
  else { b with posted := clampBytes (b.posted + e.2) }

/-- A generation completes (R338): its records are released, at once for a block barrier (R347), in phases over a
window otherwise (R350), whose length follows the cores that hold members now. -/
def State.completeBar (s : State) (id : BarId) (b : Barrier) : State :=
  let g := b.num
  let cores := ((s.members id).filter fun e => e.2.res != .saved).map fun e => e.2.core
  let b' := { b with
    num := g + 1, arrived := 0, expbytes := 0, posted := 0, expected := b.members + b.kept, kept := 0
    t0 := s.now, relNum := g, cleared := []
    top := maxNat (cores.map fun c => s.phase b.map c) }
  match id with
  | .block _ _ => (s.setBar id { b' with releasing := false }).clearArrivals id g fun _ => true
  | .gang _ _ _ | .grid _ _ => s.setBar id { b' with releasing := true }

/-- EvaluateBarrier (R338, R339): a met barrier completes, or is held while a window runs (R351). -/
def State.evalBar (s : State) (id : BarId) : State :=
  match s.bar? id with
  | none => s
  | some b =>
    if b.held || !b.met then s
    else if b.releasing then s.setBar id { b with held := true }
    else s.completeBar id b

/-- An event reaches a barrier's unit: queued while a completion is held (R351), else counted and evaluated. -/
def State.barEvent (s : State) (id : BarId) (e : Nat × Int) : State :=
  match s.bar? id with
  | none => s
  | some b =>
    if b.held then s.setBar id { b with queue := b.queue ++ [e] }
    else (s.setBar id (b.event e)).evalBar id

/-- Queued events apply to the new generation, in order (R351); those after a completion that is held again stay
queued. DEDUCED (assumption log 49). -/
def State.drainBar (s : State) (id : BarId) : List (Nat × Int) → State
  | [] => s
  | e :: es => (s.barEvent id e).drainBar id es

/-- The generation an arrival counts in (R341). -/
def Barrier.arriveGen (b : Barrier) : Nat := if b.held then b.num + 1 else b.num

/-- The generation bit (R336). -/
def Barrier.gen (b : Barrier) : Bool := b.num % 2 = 1

/-- A member group completes (R346). DEDUCED (assumption log 49). An expected count of 0 stays 0:
DESIGN CHOICE (assumption log 62). -/
def State.memberDone (s : State) (id : BarId) (g : Group) : State :=
  match s.bar? id with
  | none => s
  | some b =>
    let b' := { b with members := b.members - 1 }
    let clear := if b.held then s.setBar id b' else (s.setBar id { b' with expected := b.expected - 1 }).evalBar id
    match Tab.get? g.arrivals (barKey id) with
    | none => clear
    | some r =>
      if r < b.num then clear
      else if r = b.num then s.setBar id b'
      else s.setBar id { b' with kept := b.kept + 1 }

/-- Every barrier a completing group belongs to hears of it (R346). -/
def State.groupLeavesBarriers (s : State) (g : Group) : State :=
  if g.recov.isSome then s
  else
    let gang := ((s.block? g).map Block.gang).getD 0
    let ids := ((List.range 16).map fun i => BarId.block (g.block.getD 0) i) ++
      ((List.range 8).map fun i => BarId.gang g.launch gang i) ++ (List.range 4).map fun i => BarId.grid g.launch i
    ids.foldl (fun s id => s.memberDone id g) s

/-- Core cycles of the 1.3 GHz nominal clock have passed since a time (R349): n cycles take 10 n / 13 ns.
DEDUCED (assumption log 49). -/
def State.cyclesSince (s : State) (t0 n : Nat) : Bool := decide (t0 * 13 + n * 10 ≤ s.now * 13)

/-- A group's block has been evicted: its records stand in no core (R350, R377). -/
def State.evicted (s : State) (g : Group) : Bool := ((s.block? g).map Block.state) = some .saved

/-- The phase time of a core has come in a window that began at a time under a map entry (R350). -/
def State.phaseTime (s : State) (t0 map core : Nat) : Bool := s.cyclesSince t0 (s.phase map core * s.spacing map)

/-- The records of ended windows whose phase time on a core has come clear there (R350). -/
def State.clearTails (s : State) (id : BarId) (b : Barrier) (core : Nat) : State :=
  (b.tails.filter fun w => s.phaseTime w.2.1 w.2.2 core).foldl
    (fun (s' : State) w => s'.clearArrivals id w.1 fun g => g.core = core && !s.evicted g) s

/-- A core's phase time arrives: its records of the released generation clear (R350). -/
def State.phaseRelease (s : State) (id : BarId) (core : Nat) : State :=
  match s.bar? id with
  | none => s
  | some b =>
    let s := s.clearTails id b core
    if b.releasing && s.phaseTime b.t0 b.map core then
      let s' := s.clearArrivals id b.relNum fun g => g.core = core && !s.evicted g
      s'.setBar id { b with cleared := dedup (b.cleared ++ [core]) }
    else s

/-- The barrier that a record's number stands for in a group (R337). -/
def State.recordBar (s : State) (g : Group) (k : Nat) : BarId :=
  if k < 64 then .block (g.block.getD 0) k
  else if k < 128 then .gang g.launch (((s.block? g).map Block.gang).getD 0) (k - 64)
  else .grid g.launch (k - 128)

/-- A group stands on a core again (R350, R353): its records of generations released there, those whose phase time on
the core has passed among them, clear at once. -/
def State.settleBars (s : State) (gid : Nat) : State :=
  let keeps := fun (g : Group) (k n : Nat) =>
    match s.bar? (s.recordBar g k) with
    | some b => decide (b.num ≤ n) || (b.releasing && n = b.relNum && !s.phaseTime b.t0 b.map g.core) ||
        b.tails.any fun w => w.1 = n && !s.phaseTime w.2.1 w.2.2 g.core
    | none => true
  s.updGroup gid fun g => { g with arrivals := Tab.keep g.arrivals (keeps g) }

/-- The ended windows of a barrier that some member still holds a record of, the one that ends now among them (R350). -/
def State.tailsOf (s : State) (id : BarId) (b : Barrier) : List (Nat × Nat × Nat) :=
  (b.tails ++ [(b.relNum, b.t0, b.map)]).filter fun w =>
    (s.members id).any fun e => Tab.get? e.2.arrivals (barKey id) = some w.1

/-- A release window ends once every core that held a member at its start has had its phase, however members have moved
since (R350, R351): a held generation completes and the queued events follow. -/
def State.windowEnd (s : State) (id : BarId) : State :=
  match s.bar? id with
  | none => s
  | some b =>
    if b.releasing && s.cyclesSince b.t0 (b.top * s.spacing b.map + 64) &&
        (s.members id).all fun e => s.evicted e.2 || b.cleared.contains e.2.core || decide (b.top < s.phase b.map e.2.core) then
      let b := { b with tails := s.tailsOf id b }
      if b.held then
        let b' := { b with held := false, releasing := false, queue := [] }
        ((s.setBar id b').completeBar id b').drainBar id b.queue
      else s.setBar id { b with releasing := false }
    else s

end Sys2Proof.Machine
end

