-- ==== Sys2Proof/Machine/Control.lean ====
section
/-!
DEFINITION. The control class (R106 to R114, R129 to R131, R247, R362, R363): flow, rejoin masks, repeats, waits,
special registers, traps by instruction and the return from a handler.
-/

namespace Sys2Proof.Machine

/-- A word that changes the group only. -/
def doneG (s : State) (gid : Nat) (g : Group) (flow : Flow) : Eff := .done (s.setGroup gid g) flow []

/-- The address after a clause (R90). -/
def Clause.next (cl : Clause) : Nat := cl.header + hdrN cl.hw + 1

/-- EvaluateRelease (R98): lanes parked on a mask whose enrolled lanes are all parked there become active. -/
def evalRelease (l : LaneState) (k : Nat) : LaneState :=
  let pk := Tab.getD l.parked k 0#64
  let jk := Tab.getD l.j k 0#64
  if pk != 0#64 && (jk &&& ~~~pk) == 0#64 then
    { l with
      active := l.active ||| pk
      parked := Tab.del l.parked k
      j := Tab.del l.j k
      lage := (maskList pk).foldl (fun t i => Tab.del t i) l.lage }
  else l

/-- The lanes of Exec exit (R107): they leave every rejoin mask, and every mask is evaluated in ascending order. -/
def exitLanes (l : LaneState) (m : Mask) : LaneState :=
  let l := { l with
    active := l.active &&& ~~~m
    exited := l.exited ||| m
    j := Tab.mapVals l.j fun _ x => x &&& ~~~m }
  (List.range 8).foldl evalRelease l

/-- CompleteGroup (R107): the group ceases to issue and its fixed-latency results land (R37); its
barriers, its claim, its watchpoints and its partly filled port buffers go (R346, R369, R408, R279). -/
def State.completeGroup (s : State) (gid : Nat) (g : Group) : State :=
  let g := { g.flush with done := true, claim := none, clause := none, qbuf := [], qcmp := [], step := false }
  let s := s.setGroup gid g
  let s := s.updCore g.core fun c => { c with watch := Tab.keep c.watch fun _ w => w.group ≠ gid }
  s.groupLeavesBarriers g

/-- Whether every lane that is neither helper nor absent has exited (R107). -/
def allExited (g : Group) (l : LaneState) : Bool :=
  (l.active &&& ~~~g.helpers) == 0#64 && l.parked.all fun e => (e.2 &&& ~~~g.helpers) == 0#64

/-- The end of lanes by EXIT or SGRET, which changes no lpc, so that they end the clause at the next one (R90). -/
def exitEff (s : State) (gid : Nat) (g : Group) (cl : Clause) : Eff :=
  let l := exitLanes g.lanes g.exec
  if allExited g l then .done (s.completeGroup gid { g with lanes := endClause l cl false }) .gone []
  else doneG s gid { g with lanes := l } .seq

def execNop (s : State) : Res := issue .nop (fun s gid g _ => doneG s gid g .seq) s

/-- The lanes a branch takes (R109). -/
def braTaken (g : Group) (neg : Bool) (p : BitVec 4) (pen : Bool) : Mask :=
  if pen then g.exec &&& (if neg then ~~~(g.rdP p.toNat) else g.rdP p.toNat) else g.exec

def braEff (neg : Bool) (p : BitVec 4) (pen : Bool) (off : BitVec 18) (s : State) (gid : Nat) (g : Group)
    (cl : Clause) : Eff :=
  let t : Int := cl.header + off.toInt
  let taken := braTaken g neg p pen
  if taken != 0#64 && !s.legalTarget g t then .trap (.withDetail 0x05 (BitVec.ofInt 32 t).toNat)
  else doneG s gid { g with lanes := setLpc (setLpc g.lanes g.exec cl.next) taken t.toNat } .own

def execBra (neg : Bool) (p : BitVec 4) (pen : Bool) (off : BitVec 18) (s : State) : Res :=
  issue (.bra neg p pen off) (braEff neg p pen off) s

/-- The target a JMPX index selects, from the table or the next clause (R110). -/
def jmpxTarget (s : State) (g : Group) (h : Nat) (n : Nat) (next : Nat) (idx : Int) : Int × Bool :=
  if 0 ≤ idx && idx < n then ((h : Int) + sgn (s.codeWord g (h + 1 + idx.toNat)), true) else (next, false)

def jmpxEff (a : Reg) (off : BitVec 16) (s : State) (gid : Nat) (g : Group) (cl : Clause) : Eff :=
  let h : Int := cl.header + off.toInt
  let hdr := if h < 0 then none else s.headerAt g h.toNat
  match (hdr.filter fun w => hdrClass w = 6) with
  | none =>
    if g.exec != 0#64 then .trap (.withDetail 0x05 (BitVec.ofInt 32 h).toNat) else doneG s gid g .own
  | some w =>
    let tgt := (maskList g.exec).map fun i => (i, jmpxTarget s g h.toNat (hdrN w) cl.next (sgn (g.src a 0 i)))
    match tgt.find? fun e => e.2.2 && !s.legalTarget g e.2.1 with
    | some e => .trap (.withDetail 0x05 (BitVec.ofInt 32 e.2.1).toNat)
    | none => doneG s gid
        { g with lanes := tgt.foldl (fun l e => setLpc l (laneBit e.1) e.2.1.toNat) g.lanes } .own

def execJmpx (a : Reg) (off : BitVec 16) (s : State) : Res := issue (.jmpx a off) (jmpxEff a off) s

def execExitG (s : State) : Res := issue .exitG exitEff s

def execEnrol (j : BitVec 3) (s : State) : Res :=
  issue (.enrol j) (fun s gid g _ =>
    let l := { g.lanes with j := Tab.set g.lanes.j j.toNat (g.rdJ j.toNat ||| g.exec) }
    doneG s gid { g with lanes := evalRelease l j.toNat } .seq) s

/-- PARK (R111): the lanes of Exec park with lpc at the next clause, then the mask is evaluated. -/
def parkLanes (l : LaneState) (exec : Mask) (k next : Nat) : LaneState :=
  if exec == 0#64 then evalRelease l k
  else evalRelease
    { setLpc l exec next with
      active := l.active &&& ~~~exec
      parked := Tab.set l.parked k (Tab.getD l.parked k 0#64 ||| exec) } k

def execPark (j : BitVec 3) (s : State) : Res :=
  issue (.park j) (fun s gid g cl =>
    doneG s gid { g with lanes := parkLanes g.lanes g.exec j.toNat cl.next } .own) s

def execStrike (j : BitVec 3) (s : State) : Res :=
  issue (.strike j) (fun s gid g _ =>
    let l := { g.lanes with j := Tab.set g.lanes.j j.toNat (g.rdJ j.toNat &&& ~~~g.exec) }
    doneG s gid { g with lanes := evalRelease l j.toNat } .seq) s

/-- A group takes the latest place in its slice's active set (R108). -/
def State.latest (s : State) (gid : Nat) (g : Group) : State :=
  s.updSlice (sliceKey g.core g.slice) fun sl =>
    if sl.active.contains gid then { sl with active := (sl.active.filter fun k => k ≠ gid) ++ [gid] } else sl

def execYieldG (s : State) : Res :=
  issue .yieldG (fun s gid g _ =>
    if g.exec == 0#64 then doneG s gid g .seq
    else .done ((s.setGroup gid { g with waitCnt := 0 }).latest gid g) .seq []) s

/-- WAIT's thresholds (R247): 15 does not care. -/
def waitMet (g : Group) (ts : List (Nat × Nat)) : Bool := ts.all fun t => t.2 = 15 || decide (g.cnt t.1 ≤ t.2)

def execWaitC (ld st cp tl sg cl : BitVec 4) (s : State) : Res :=
  issue (.waitC ld st cp tl sg cl) (fun s gid g _ =>
    if g.exec == 0#64 ||
        waitMet g [(cLD, ld.toNat), (cST, st.toNat), (cCP, cp.toNat), (cTL, tl.toNat), (cSG, sg.toNat), (cCL, cl.toNat)]
    then doneG s gid g .seq else .wait) s

def execRepeatN (n : BitVec 8) (s : State) : Res :=
  issue (.repeatN n) (fun s gid g cl =>
    if g.exec == 0#64 then doneG s gid g .seq
    else doneG s gid { g with lanes :=
      { g.lanes with rep := n.toNat, repN := n.toNat, repAddr := cl.next } } .seq) s

/-- A cause raised after its own word (R362), when Exec holds a lane that is no helper. -/
def afterWord (s : State) (gid : Nat) (g : Group) (c : Cause) : Eff :=
  .done (s.setGroup gid g) .seq (if g.active == 0#64 then [] else [c])

def execTrapI (imm : BitVec 16) (s : State) : Res :=
  issue (.trapI imm) (fun s gid g _ => afterWord s gid g (.withDetail 0x16 imm.toNat)) s

/-- BKPT without a handler is a NOP (R356). -/
def execBkpt (imm : BitVec 8) (s : State) : Res :=
  issue (.bkpt imm) (fun s gid g _ =>
    if ((s.launch? g).bind Launch.handler).isNone then doneG s gid g .seq
    else afterWord s gid g (.withDetail 0x11 imm.toNat)) s

/-- Core cycles of a core since it left reset (R128). -/
def State.coreCycles (s : State) (core : Nat) : Nat := ((Tab.get? s.clusters (clusterOf core)).map Cluster.cyc).getD 0 / 1000

/-- SLEEP (R114): the group is not ready for the given core cycles. -/
def execSleepI (imm : BitVec 16) (s : State) : Res :=
  issue (.sleepI imm) (fun s gid g _ =>
    if g.exec == 0#64 || imm = 0#16 then doneG s gid g .seq
    else doneG s gid { g with sleep := some (s.coreCycles g.core + imm.toNat) } .seq) s

/-- sr.trapinfo in trap-handler mode (R361); a DBRD of it elsewhere gives 0. DESIGN CHOICE (assumption log 36). -/
def trapInfo (g : Group) : Nat :=
  match g.trap with
  | some f => bitsOf (recWord f.record 0).toNat 0 10 + f.area.getD 0 * 2 ^ 16
  | none => 0

/-- A special's value (R128), as it stands: lane-scope ones by lane, 64-bit ones whole. -/
def specialValue (s : State) (g : Group) (l : LaneState) (header : Nat) (sp : Special) (lane : Nat) : Nat :=
  let blk := s.block? g
  match sp with
  | .laneid => lane
  | .lpc => header
  | .lage => Tab.getD l.lage lane 0
  | .helpers => g.helpers.toNat
  | .groupid => if g.recov.isSome then 0xFFFFFFFF else g.gix
  | .blockid => if g.recov.isSome then 0xFFFFFFFF else (blk.map Block.index).getD 0
  | .gangid => if g.recov.isSome then 0xFFFFFFFF else (blk.map Block.gang).getD 0
  | .agelimit => l.agelimit
  | .repeatCount => l.rep
  | .ctag => l.ctag.toNat
  | .rmode => l.rmode.toNat
  | .fflags => l.fflags.toNat
  | .clockratio => ((Tab.get? s.slices (sliceKey g.core g.slice)).map Slice.ratio).getD 0
  | .cycle => s.coreCycles g.core
  | .tick => s.now
  | .stepping => Config.stepping
  | .swapmin => ((Tab.get? s.cores g.core).map Core.swapmin).getD 0
  | .replays => ((Tab.get? s.slices (sliceKey g.core g.slice)).map Slice.replays).getD 0
  | .trapinfo => trapInfo g
  | .cpfault => g.cpfault.toNat
  | .bounds => if g.bounds then 1 else 0
  | .launchid => ((s.launch? g).map Launch.number).getD 0

/-- A scoreboarded value that lands later (R36): the registers become pending until LOAD_RETURN brings it. -/
def State.sendVals (s : State) (gid : Nat) (g : Group) (ws : List (Target × Word)) : State × Group :=
  let (op, s) := s.fresh
  if ws.isEmpty then (s, g)
  else
    let regs := dedup (ws.filterMap fun w => w.1.reg)
    (s.setOps { s.ops with vals := Tab.set s.ops.vals op ⟨gid, ws⟩ }, g.setPend op regs)

/-- SRD (R130): the value as it stands at issue, scoreboarded. -/
def srdEff (d : Reg) (sp : Special) (s : State) (gid : Nat) (g : Group) (cl : Clause) : Eff :=
  let val := fun i => specialValue s g g.lanes cl.header sp i
  let ws := (List.range sp.regs).flatMap fun k => g.dest d k fun i => loWord (val i / 2 ^ (32 * k))
  let (s, g) := s.sendVals gid g ws
  doneG s gid g .seq

def execSrd (d : Reg) (sp : Special) (s : State) : Res := issue (.srd d sp) (srdEff d sp) s

/-- A write of a read-write special (R67, R70, R95, R200): each keeps its own bits. -/
def writeSpecial (g : Group) (l : LaneState) (sp : Special) (w : Word) : LaneState × Bool :=
  match sp with
  | .agelimit => ({ l with agelimit := max 16 (bitsOf w.toNat 0 12) }, g.bounds)
  | .rmode => ({ l with rmode := w.extractLsb' 0 2 }, g.bounds)
  | .fflags => ({ l with fflags := w.extractLsb' 0 5 }, g.bounds)
  | .bounds => (l, w.getLsbD 0)
  | .laneid | .lpc | .lage | .helpers | .groupid | .blockid | .gangid | .repeatCount | .ctag | .clockratio | .cycle
  | .tick | .stepping | .swapmin | .replays | .trapinfo | .cpfault | .launchid => (l, g.bounds)

/-- SWR (R131): a later word of the same clause reads the new value too, of which the rule says nothing.
DESIGN CHOICE (assumption log 54). -/
def execSwr (a : Reg) (sp : Special) (s : State) : Res :=
  issue (.swr a sp) (fun s gid g _ =>
    if g.active == 0#64 then doneG s gid g .seq
    else
      let (l, b) := writeSpecial g g.lanes sp (g.sval a 0)
      doneG s gid { g with lanes := l, bounds := b } .seq) s

/-- The clause and word that a trap record names, with its lanes (R360). -/
def State.recClause (s : State) (g : Group) (f : TrapFrame) : Clause :=
  let header := (recWord f.record 2).toNat
  ⟨header, s.codeWord g header, bitsOf (recWord f.record 3).toNat 0 4, maskWords (recWord f.record 6) (recWord f.record 7),
    maskWords (recWord f.record 8) (recWord f.record 9), 0, false⟩

/-- The group returns from its trap. A further cause of the trapped word is taken at once, with the resume point it
returned to (R370); otherwise, where the return leaves it between clauses with parked lanes only, the TRET's word raises a
park deadlock (R100). DEDUCED (assumption logs 22 and 24). -/
def State.tretDone (s : State) (gid : Nat) (g : Group) (cl : Clause) (f : TrapFrame) : State :=
  let s := s.leaveTrap gid g f
  match f.more with
  | c :: cs =>
    let at_ := s.recClause g f
    s.raiseAll gid at_ c cs at_.pos (recResume f.record)
  | [] =>
    match Tab.get? s.groups gid with
    | some g' =>
      if g'.clause.isNone && g'.deadlocked then s.raise gid cl (.plain 0x0D) cl.pos 0 false else s
    | none => s

/-- TRET (R363, R364): waits for the handler's results and for a save area in retention (R187), then returns from the trap; a resume point the rule
rejects is a handler fault. DESIGN CHOICE (assumption log 23). -/
def tretEff (s : State) (gid : Nat) (g : Group) (cl : Clause) : Eff :=
  match g.trap with
  | none => doneG s gid g .seq
  | some f =>
    if g.exec == 0#64 then doneG s gid g .seq
    else if g.pend.any fun e => e.handler then .wait
    else if s.asleep ((f.area.map (areaSegs g.core)).getD []) then .wait
    else if s.bad.any (fun b => b = .saveArea gid) then .kill stSram
    else if s.resumeOk g f then
      .done ((s.touch ((f.area.map (areaSegs g.core)).getD [])).tretDone gid g cl f) .gone []
    else .trap (.plain 0x02)

def execTret (s : State) : Res := issue .tret tretEff s

/-! ### Events of this chapter -/

/-- SLEEP_EXPIRE (R114). -/
def execSleepExpire (gid : Nat) (s : State) : Res :=
  .next (match Tab.get? s.groups gid with
    | some g =>
      match g.sleep with
      | some t =>
        if decide (t ≤ s.coreCycles g.core) && g.res != .saved then s.setGroup gid { g with sleep := none } else s
      | none => s
    | none => s)

/-- TRAP_ENTRY (R357): a raised trap takes its save area. -/
def execTrapEntry (gid : Nat) (s : State) : Res := .next (s.tryEnter gid)

/-- WATCHPOINT_REPORT_DUE (R355): the group's oldest undelivered report falls due. -/
def execWatchpointReportDue (gid : Nat) (s : State) : Res :=
  .next (s.updGroup gid fun g => { g with reports := match g.reports with
    | r :: rs => { r with due := true } :: rs
    | [] => [] })

/-- TRAP_DISPATCH (R390): a Pup tells the Sheepdog that a group's trap has gone to its handler. -/
def execTrapDispatch (gid : Nat) (s : State) : Res :=
  .next (s.relay (.trap gid) (((Tab.get? s.groups gid).filter Group.inHandler).map fun g => clusterOf g.core))

/-- ILLEGAL_INSTRUCTION (R48, R54): a word that is no instruction raises its fault before any effect. A matching
breakpoint comes first (R355). -/
def execIllegalInstruction (_w0 _w1 : BitVec 32) (s : State) : Res :=
  match s.cur with
  | none => .fault .noIssuingGroup
  | some gid =>
    match Tab.get? s.groups gid with
    | none => .fault .noIssuingGroup
    | some g =>
      match g.clause with
      | none => .fault .noIssuingGroup
      | some cl => .next (s.raise gid cl ((s.breakAt g cl).getD (.plain 0x02)) cl.pos cl.pos false)

end Sys2Proof.Machine
end

