-- ==== Sys2Proof/Machine/Special.lean ====
section
/-!
DEFINITION. The special functions of R71, correctly rounded: FRCP, FSQRT and FRSQ by integer division and square
root, the others in fixed point with 256 fraction bits, an error bound, and rounding of both ends of the interval.
-/

namespace Sys2Proof.Machine

/-- The whole part of a square root, bit by bit from bit `k` − 1 down. -/
def isqrtFrom (n : Nat) (r : Nat) : Nat → Nat
  | 0 => r
  | k + 1 =>
    let r' := r + 2 ^ k
    isqrtFrom n (if r' * r' ≤ n then r' else r) k

/-- The whole part of a square root. -/
def isqrt (n : Nat) : Nat := isqrtFrom n 0 (bitLen n / 2 + 1)

/-- A canonical NaN result of a NaN operand (R68). -/
def nanResult (s : Bool) : Nat × FFlags := (fp32.nan, if s then flInvalid else 0#5)

/-- FRCP (R71). -/
def frcp32 (mode : RMode) (a : Nat) : Nat × FFlags :=
  match fp32.unpack a with
  | .nan s => nanResult s
  | .inf n => (fp32.zero n, 0#5)
  | .fin n m e =>
    if m = 0 then (fp32.inf n, flDivZero)
    else
      let k := bitLen m + 32
      let q := 2 ^ k / m
      fp32.round mode n (2 * q + if q * m = 2 ^ k then 0 else 1) (-(k : Int) - e - 1)

/-- FSQRT (R71). -/
def fsqrt32 (mode : RMode) (a : Nat) : Nat × FFlags :=
  match fp32.unpack a with
  | .nan s => nanResult s
  | .inf n => if n then (fp32.nan, flInvalid) else (fp32.inf false, 0#5)
  | .fin n m e =>
    if m = 0 then (a, 0#5)
    else if n then (fp32.nan, flInvalid)
    else
      let odd := decide (e % 2 = 1)
      let m' := (if odd then 2 * m else m) * 2 ^ 64
      let e' := (if odd then e - 1 else e) - 64
      let r := isqrt m'
      fp32.round mode false (2 * r + if r * r = m' then 0 else 1) (e' / 2 - 1)

/-- FRSQ (R71). -/
def frsq32 (a : Nat) : Nat × FFlags :=
  match fp32.unpack a with
  | .nan s => nanResult s
  | .inf n => if n then (fp32.nan, flInvalid) else (fp32.zero false, 0#5)
  | .fin n m e =>
    if m = 0 then (fp32.inf n, flDivZero)
    else if n then (fp32.nan, flInvalid)
    else
      let odd := decide (e % 2 = 1)
      let m' := if odd then 2 * m else m
      let e' := if odd then e - 1 else e
      let r := isqrt (2 ^ 128 / m')
      fp32.round .even false (2 * r + if r * r * m' = 2 ^ 128 then 0 else 1) (-64 - e' / 2 - 1)

/-- 2^256 × π and 2^256 × ln 2, cut to whole numbers. -/
def fixPi : Nat := 363771576891766324280234942777729862653393377328392429958772151117938894466185
def fixLn2 : Nat := 80260960185991308862233904206310070533990667611589946606122867505419956976171

/-- The bound on the error of every fixed-point value below, in units of 2^−256. -/
def fixErr : Nat := 2 ^ 16

/-- A value known to within `fixErr`, not representable: (−1)^neg × a × 2^(e − 256) rounded to nearest even. -/
def fixRound (which : Nat) (x : Nat) (neg : Bool) (a : Nat) (e : Int) : Nat × FFlags :=
  let lo := fp32.round .even neg (2 * (a - fixErr) + 1) (e - 257)
  let hi := fp32.round .even neg (2 * (a + fixErr) + 1) (e - 257)
  if lo = hi then lo else ((Config.undecidedSpecial which (w32 x)).toNat, flInexact)

/-- The terms z^k / k! from the k-th on, in fixed point. -/
def expSeries (z t k : Nat) : Nat → Nat
  | 0 => 0
  | fuel + 1 =>
    let t' := (t * z) >>> 256 / k
    t' + expSeries z t' (k + 1) fuel

/-- FEXP2 (R71). -/
def fexp232 (a : Nat) : Nat × FFlags :=
  match fp32.unpack a with
  | .nan s => nanResult s
  | .inf n => (if n then fp32.zero false else fp32.inf false, 0#5)
  | .fin n m e =>
    if m = 0 then (0x3F800000, 0#5)
    else if 9 ≤ (bitLen m : Int) + e then
      (if n then fp32.round .even false 1 (-200) else (fp32.inf false, flOverflow ||| flInexact))
    else if (bitLen m : Int) + e ≤ -26 then (0x3F800000, flInexact)
    else
      let v := signedMant n m
      let whole := if 0 ≤ e then v * 2 ^ e.toNat else v / 2 ^ (-e).toNat
      let frac := if 0 ≤ e then 0 else (v % 2 ^ (-e).toNat).toNat
      if frac = 0 then fp32.round .even false 1 whole
      else
        let z := (frac * 2 ^ (256 - (-e).toNat) * fixLn2) >>> 256
        fixRound 0 a false (2 ^ 256 + expSeries z (2 ^ 256) 1 70) whole

/-- The terms u^(2k+1) / (2k+1), in fixed point; `p` is the power so far. -/
def atanhSeries (u2 p k : Nat) : Nat → Nat
  | 0 => 0
  | fuel + 1 => p / (2 * k + 1) + atanhSeries u2 ((p * u2) >>> 256) (k + 1) fuel

/-- FLOG2 (R71). -/
def flog232 (a : Nat) : Nat × FFlags :=
  match fp32.unpack a with
  | .nan s => nanResult s
  | .inf n => if n then (fp32.nan, flInvalid) else (fp32.inf false, 0#5)
  | .fin n m e =>
    if m = 0 then (fp32.inf true, flDivZero)
    else if n then (fp32.nan, flInvalid)
    else
      let top := bitLen m - 1
      let y := m * 2 ^ (256 - top)
      let k : Int := top + e
      if y = 2 ^ 256 then fp32.ofInt .even k
      else
        let u := ((y - 2 ^ 256) <<< 256) / (y + 2 ^ 256)
        let l := (2 * atanhSeries ((u * u) >>> 256) u 0 84) <<< 256 / fixLn2
        let v : Int := k * 2 ^ 256 + l
        fixRound 1 a (decide (v < 0)) v.natAbs 0

/-- The terms of the sine series from θ^(2k+1)/(2k+1)! on, alternately added and taken off. -/
def sinSeries (t2 p k : Nat) : Nat → Int
  | 0 => 0
  | fuel + 1 => (p : Int) - sinSeries t2 ((p * t2) >>> 256 / ((2 * k + 2) * (2 * k + 3))) (k + 1) fuel

/-- sin(2πr) for r of 2^256 units of a turn. -/
def sinTurns (which x r : Nat) : Nat × FFlags :=
  let half := 2 ^ 255
  let neg := decide (half ≤ r)
  let r1 := if neg then r - half else r
  let r2 := if 2 ^ 254 < r1 then half - r1 else r1
  if r2 = 0 then (fp32.zero false, 0#5)
  else if r2 = 2 ^ 254 then ((if neg then 0xBF800000 else 0x3F800000), 0#5)
  else
    let th := (r2 * (2 * fixPi)) >>> 256
    fixRound which x neg (sinSeries ((th * th) >>> 256) th 0 42).natAbs 0

/-- A finite value modulo one turn, in units of 2^−256. -/
def turnsOf (n : Bool) (m : Nat) (e : Int) : Nat := ((signedMant n m * 2 ^ (256 + e).toNat) % 2 ^ 256).toNat

/-- FSIN and FCOS (R71). -/
def fsin32 (a : Nat) : Nat × FFlags :=
  match fp32.unpack a with
  | .nan s => nanResult s
  | .inf _ => (fp32.nan, flInvalid)
  | .fin n m e => if m = 0 then (a, 0#5) else sinTurns 2 a (turnsOf n m e)

def fcos32 (a : Nat) : Nat × FFlags :=
  match fp32.unpack a with
  | .nan s => nanResult s
  | .inf _ => (fp32.nan, flInvalid)
  | .fin n m e => sinTurns 3 a ((turnsOf n m e + 2 ^ 254) % 2 ^ 256)

end Sys2Proof.Machine
end

