-- ==== Sys2Proof/Machine/Alu.lean ====
section
/-!
DEFINITION. The integer, fp32, packed and three-source arithmetic of the ALU class (R138 to R158): each destination
lane from the same lane of the sources, with the latencies of R35 and the flags of R70.
-/

namespace Sys2Proof.Machine

/-- A fixed-latency result in the lanes of Exec, or once for a scalar destination (R138, R139). -/
def aluEff (lat : Nat) (d : Reg) (f : Group → Nat → Word) (s : State) (gid : Nat) (g : Group) (_cl : Clause) : Eff :=
  doneG s gid (g.fixed (s.native g) lat (g.dest d 0 (f g))) .seq

/-- The same with flags (R70). -/
def fpEff (lat : Nat) (d : Reg) (f : Group → Nat → Nat × FFlags) (s : State) (gid : Nat) (g : Group)
    (_cl : Clause) : Eff :=
  let g' := g.fixed (s.native g) lat (g.dest d 0 fun i => w32 (f g i).1)
  doneG s gid (g'.addFlags (g.flagsOf d fun i => (f g i).2)) .seq

/-- Latencies of stepping tag 0x01 (R35). -/
def latInt : Nat := 2
def latFp : Nat := 4
def latExchange : Nat := 6
def latSpecial : Nat := 8

/-- A shift or rotate count (R64). -/
def shiftCount (b : Word) : Nat := b.toNat % 32

/-- The smaller and larger of two words in their signed and unsigned views (R140). -/
def minI32 (a b : Word) : Word := if sgn b < sgn a then b else a
def maxI32 (a b : Word) : Word := if sgn a < sgn b then b else a
def minU32 (a b : Word) : Word := if b.toNat < a.toNat then b else a
def maxU32 (a b : Word) : Word := if a.toNat < b.toNat then b else a

/-- Bits [63:32] of a product (R140). -/
def mulHiS (a b : Word) : Word := BitVec.ofInt 32 ((sgn a * sgn b) / 2 ^ 32)
def mulHiU (a b : Word) : Word := BitVec.ofNat 32 (a.toNat * b.toNat / 2 ^ 32)

/-- Saturating sums (R142). -/
def addSatS (a b : Word) : Word := wrap32 (clampInt (-2147483648) 2147483647 (sgn a + sgn b))
def subSatS (a b : Word) : Word := wrap32 (clampInt (-2147483648) 2147483647 (sgn a - sgn b))
def addSatU (a b : Word) : Word := wrap32 (clampInt 0 4294967295 ((a.toNat : Int) + b.toNat))

/-- IADD (R140). -/
def execIadd (d a b : Reg) (s : State) : Res :=
  issue (.iadd d a b) (aluEff latInt d fun g i => g.src a 0 i + g.src b 0 i) s

/-- ISUB (R140). -/
def execIsub (d a b : Reg) (s : State) : Res :=
  issue (.isub d a b) (aluEff latInt d fun g i => g.src a 0 i - g.src b 0 i) s

/-- IMUL (R140). -/
def execImul (d a b : Reg) (s : State) : Res :=
  issue (.imul d a b) (aluEff latInt d fun g i => g.src a 0 i * g.src b 0 i) s

/-- IMULHI.i32 (R140). -/
def execImulhiI32 (d a b : Reg) (s : State) : Res :=
  issue (.imulhiI32 d a b) (aluEff latInt d fun g i => mulHiS (g.src a 0 i) (g.src b 0 i)) s

/-- IMULHI.ui32 (R140). -/
def execImulhiUi32 (d a b : Reg) (s : State) : Res :=
  issue (.imulhiUi32 d a b) (aluEff latInt d fun g i => mulHiU (g.src a 0 i) (g.src b 0 i)) s

/-- IMIN.i32 (R140). -/
def execIminI32 (d a b : Reg) (s : State) : Res :=
  issue (.iminI32 d a b) (aluEff latInt d fun g i => minI32 (g.src a 0 i) (g.src b 0 i)) s

/-- IMIN.ui32 (R140). -/
def execIminUi32 (d a b : Reg) (s : State) : Res :=
  issue (.iminUi32 d a b) (aluEff latInt d fun g i => minU32 (g.src a 0 i) (g.src b 0 i)) s

/-- IMAX.i32 (R140). -/
def execImaxI32 (d a b : Reg) (s : State) : Res :=
  issue (.imaxI32 d a b) (aluEff latInt d fun g i => maxI32 (g.src a 0 i) (g.src b 0 i)) s

/-- IMAX.ui32 (R140). -/
def execImaxUi32 (d a b : Reg) (s : State) : Res :=
  issue (.imaxUi32 d a b) (aluEff latInt d fun g i => maxU32 (g.src a 0 i) (g.src b 0 i)) s

/-- AND (R140). -/
def execAndR (d a b : Reg) (s : State) : Res :=
  issue (.andR d a b) (aluEff latInt d fun g i => g.src a 0 i &&& g.src b 0 i) s

/-- OR (R140). -/
def execOrR (d a b : Reg) (s : State) : Res :=
  issue (.orR d a b) (aluEff latInt d fun g i => g.src a 0 i ||| g.src b 0 i) s

/-- XOR (R140). -/
def execXorR (d a b : Reg) (s : State) : Res :=
  issue (.xorR d a b) (aluEff latInt d fun g i => g.src a 0 i ^^^ g.src b 0 i) s

/-- SHL (R140). -/
def execShl (d a b : Reg) (s : State) : Res :=
  issue (.shl d a b) (aluEff latInt d fun g i => g.src a 0 i <<< shiftCount (g.src b 0 i)) s

/-- SHR (R140). -/
def execShr (d a b : Reg) (s : State) : Res :=
  issue (.shr d a b) (aluEff latInt d fun g i => g.src a 0 i >>> shiftCount (g.src b 0 i)) s

/-- SAR (R140). -/
def execSar (d a b : Reg) (s : State) : Res :=
  issue (.sar d a b) (aluEff latInt d fun g i => (g.src a 0 i).sshiftRight (shiftCount (g.src b 0 i))) s

/-- ROT (R140). -/
def execRot (d a b : Reg) (s : State) : Res :=
  issue (.rot d a b) (aluEff latInt d fun g i => (g.src a 0 i).rotateLeft (shiftCount (g.src b 0 i))) s

/-- IADDSAT.i32 (R142). -/
def execIaddsatI32 (d a b : Reg) (s : State) : Res :=
  issue (.iaddsatI32 d a b) (aluEff latInt d fun g i => addSatS (g.src a 0 i) (g.src b 0 i)) s

/-- ISUBSAT.i32 (R142). -/
def execIsubsatI32 (d a b : Reg) (s : State) : Res :=
  issue (.isubsatI32 d a b) (aluEff latInt d fun g i => subSatS (g.src a 0 i) (g.src b 0 i)) s

/-- IADDSAT.ui32 (R142). -/
def execIaddsatUi32 (d a b : Reg) (s : State) : Res :=
  issue (.iaddsatUi32 d a b) (aluEff latInt d fun g i => addSatU (g.src a 0 i) (g.src b 0 i)) s

/-- MOV (R141). -/
def execMov (d a : Reg) (s : State) : Res :=
  issue (.mov d a) (aluEff latInt d fun g i => g.src a 0 i) s

/-- NOT (R141). -/
def execNotR (d a : Reg) (s : State) : Res :=
  issue (.notR d a) (aluEff latInt d fun g i => ~~~(g.src a 0 i)) s

/-- INEG (R141). -/
def execIneg (d a : Reg) (s : State) : Res :=
  issue (.ineg d a) (aluEff latInt d fun g i => -(g.src a 0 i)) s

/-- IABS (R141). -/
def execIabs (d a : Reg) (s : State) : Res :=
  issue (.iabs d a) (aluEff latInt d fun g i => if (g.src a 0 i).msb then -(g.src a 0 i) else g.src a 0 i) s

/-- CLZ (R141). -/
def execClz (d a : Reg) (s : State) : Res :=
  issue (.clz d a) (aluEff latInt d fun g i => clz32 (g.src a 0 i)) s

/-- POPC (R141). -/
def execPopc (d a : Reg) (s : State) : Res :=
  issue (.popc d a) (aluEff latInt d fun g i => popc32 (g.src a 0 i)) s

/-- BREV (R141). -/
def execBrev (d a : Reg) (s : State) : Res :=
  issue (.brev d a) (aluEff latInt d fun g i => brev32 (g.src a 0 i)) s

/-- IAMINI (R143): reads d as a source. -/
def execIamini (d a : Reg) (imm : BitVec 8) (s : State) : Res :=
  issue (.iamini d a imm) (aluEff latFp d fun g i => minI32 (g.src d 0 i) (g.src a 0 i + imm.signExtend 32)) s

/-- IADDI (R144). -/
def execIaddi (d a : Reg) (imm : BitVec 8) (s : State) : Res :=
  issue (.iaddi d a imm) (aluEff latInt d fun g i => g.src a 0 i + imm.signExtend 32) s

/-- ANDI (R144). -/
def execAndi (d a : Reg) (imm : BitVec 8) (s : State) : Res :=
  issue (.andi d a imm) (aluEff latInt d fun g i => g.src a 0 i &&& imm.zeroExtend 32) s

/-- ORI (R144). -/
def execOri (d a : Reg) (imm : BitVec 8) (s : State) : Res :=
  issue (.ori d a imm) (aluEff latInt d fun g i => g.src a 0 i ||| imm.zeroExtend 32) s

/-- XORI (R144). -/
def execXori (d a : Reg) (imm : BitVec 8) (s : State) : Res :=
  issue (.xori d a imm) (aluEff latInt d fun g i => g.src a 0 i ^^^ imm.zeroExtend 32) s

/-- SHLI (R144). -/
def execShli (d a : Reg) (imm : BitVec 8) (s : State) : Res :=
  issue (.shli d a imm) (aluEff latInt d fun g i => g.src a 0 i <<< (imm.toNat % 32)) s

/-- SHRI (R144). -/
def execShri (d a : Reg) (imm : BitVec 8) (s : State) : Res :=
  issue (.shri d a imm) (aluEff latInt d fun g i => g.src a 0 i >>> (imm.toNat % 32)) s

/-- SARI (R144). -/
def execSari (d a : Reg) (imm : BitVec 8) (s : State) : Res :=
  issue (.sari d a imm) (aluEff latInt d fun g i => (g.src a 0 i).sshiftRight (imm.toNat % 32)) s

/-- ROTI (R144). -/
def execRoti (d a : Reg) (imm : BitVec 8) (s : State) : Res :=
  issue (.roti d a imm) (aluEff latInt d fun g i => (g.src a 0 i).rotateLeft (imm.toNat % 32)) s

/-- IMULI (R144). -/
def execImuli (d a : Reg) (imm : BitVec 8) (s : State) : Res :=
  issue (.imuli d a imm) (aluEff latInt d fun g i => g.src a 0 i * imm.signExtend 32) s

/-- MOVI (R144). -/
def execMovi (d : Reg) (imm : BitVec 16) (s : State) : Res :=
  issue (.movi d imm) (aluEff latInt d fun _ _ => imm.signExtend 32) s

/-- MOVHI (R144): keeps d's lower half. -/
def execMovhi (d : Reg) (imm : BitVec 16) (s : State) : Res :=
  issue (.movhi d imm) (aluEff latInt d fun g i => imm ++ (g.src d 0 i).extractLsb' 0 16) s

/-- IADDK (R145). -/
def execIaddk (d a : Reg) (k : BitVec 32) (s : State) : Res :=
  issue (.iaddk d a k) (aluEff latInt d fun g i => g.src a 0 i + k) s

/-- MOVK (R145). -/
def execMovk (d : Reg) (k : BitVec 32) (s : State) : Res := issue (.movk d k) (aluEff latInt d fun _ _ => k) s

/-- ANDK (R145). -/
def execAndk (d a : Reg) (k : BitVec 32) (s : State) : Res :=
  issue (.andk d a k) (aluEff latInt d fun g i => g.src a 0 i &&& k) s

/-- ORK (R145). -/
def execOrk (d a : Reg) (k : BitVec 32) (s : State) : Res :=
  issue (.ork d a k) (aluEff latInt d fun g i => g.src a 0 i ||| k) s

/-- FADDK (R145). -/
def execFaddk (d a : Reg) (k : BitVec 32) (s : State) : Res :=
  issue (.faddk d a k) (fpEff latFp d fun g i => fp32.add g.mode (g.src a 0 i).toNat k.toNat) s

/-- FMULK (R145). -/
def execFmulk (d a : Reg) (k : BitVec 32) (s : State) : Res :=
  issue (.fmulk d a k) (fpEff latFp d fun g i => fp32.mul g.mode (g.src a 0 i).toNat k.toNat) s

/-- FADD (R146). -/
def execFadd (d a b : Reg) (s : State) : Res :=
  issue (.fadd d a b) (fpEff latFp d fun g i => fp32.add g.mode (g.src a 0 i).toNat (g.src b 0 i).toNat) s

/-- FSUB (R146). -/
def execFsub (d a b : Reg) (s : State) : Res :=
  issue (.fsub d a b) (fpEff latFp d fun g i => fp32.sub g.mode (g.src a 0 i).toNat (g.src b 0 i).toNat) s

/-- FMUL (R146). -/
def execFmul (d a b : Reg) (s : State) : Res :=
  issue (.fmul d a b) (fpEff latFp d fun g i => fp32.mul g.mode (g.src a 0 i).toNat (g.src b 0 i).toNat) s

/-- FMIN (R146). -/
def execFmin (d a b : Reg) (s : State) : Res :=
  issue (.fmin d a b) (fpEff latFp d fun g i => fp32.minCode (g.src a 0 i).toNat (g.src b 0 i).toNat) s

/-- FMAX (R146). -/
def execFmax (d a b : Reg) (s : State) : Res :=
  issue (.fmax d a b) (fpEff latFp d fun g i => fp32.maxCode (g.src a 0 i).toNat (g.src b 0 i).toNat) s

/-- FABS (R147): the sign bit alone. -/
def execFabs (d a : Reg) (s : State) : Res :=
  issue (.fabs d a) (aluEff latFp d fun g i => g.src a 0 i &&& 0x7FFFFFFF#32) s

/-- FNEG (R147): the sign bit alone. -/
def execFneg (d a : Reg) (s : State) : Res :=
  issue (.fneg d a) (aluEff latFp d fun g i => g.src a 0 i ^^^ 0x80000000#32) s

/-- FRCP (R147, R71). -/
def execFrcp (d a : Reg) (s : State) : Res :=
  issue (.frcp d a) (fpEff latSpecial d fun g i => frcp32 g.mode (g.src a 0 i).toNat) s

/-- FRSQ (R147, R71). -/
def execFrsq (d a : Reg) (s : State) : Res :=
  issue (.frsq d a) (fpEff latSpecial d fun g i => frsq32 (g.src a 0 i).toNat) s

/-- FSQRT (R147, R71). -/
def execFsqrt (d a : Reg) (s : State) : Res :=
  issue (.fsqrt d a) (fpEff latSpecial d fun g i => fsqrt32 g.mode (g.src a 0 i).toNat) s

/-- FEXP2 (R147, R71). -/
def execFexp2 (d a : Reg) (s : State) : Res :=
  issue (.fexp2 d a) (fpEff latSpecial d fun g i => fexp232 (g.src a 0 i).toNat) s

/-- FLOG2 (R147, R71). -/
def execFlog2 (d a : Reg) (s : State) : Res :=
  issue (.flog2 d a) (fpEff latSpecial d fun g i => flog232 (g.src a 0 i).toNat) s

/-- FSIN (R147, R71). -/
def execFsin (d a : Reg) (s : State) : Res :=
  issue (.fsin d a) (fpEff latSpecial d fun g i => fsin32 (g.src a 0 i).toNat) s

/-- FCOS (R147, R71). -/
def execFcos (d a : Reg) (s : State) : Res :=
  issue (.fcos d a) (fpEff latSpecial d fun g i => fcos32 (g.src a 0 i).toNat) s

/-- FRND (R148): the direction is the immediate's. -/
def execFrnd (d a : Reg) (mode : BitVec 8) (s : State) : Res :=
  issue (.frnd d a mode) (fpEff latFp d fun g i =>
    frnd32 (RMode.ofBits (mode.extractLsb' 0 2)) (g.src a 0 i).toNat) s

/-- FCLASS (R149). -/
def execFclass (d a : Reg) (s : State) : Res :=
  issue (.fclass d a) (aluEff latFp d fun g i => w32 (fclass32 (g.src a 0 i).toNat)) s

/-- A packed operation: the same operation on each half, flags of either (R150). -/
def packed2 (op : Nat → Nat → Nat × FFlags) (a b : Nat) : Nat × FFlags :=
  let lo := op (a % 2 ^ 16) (b % 2 ^ 16)
  let hi := op (a / 2 ^ 16) (b / 2 ^ 16)
  (hi.1 * 2 ^ 16 + lo.1, hi.2 ||| lo.2)

def packed3 (op : Nat → Nat → Nat → Nat × FFlags) (a b c : Nat) : Nat × FFlags :=
  let lo := op (a % 2 ^ 16) (b % 2 ^ 16) (c % 2 ^ 16)
  let hi := op (a / 2 ^ 16) (b / 2 ^ 16) (c / 2 ^ 16)
  (hi.1 * 2 ^ 16 + lo.1, hi.2 ||| lo.2)

/-- HADD.f16 (R150). -/
def execHaddF16 (d a b : Reg) (s : State) : Res :=
  issue (.haddF16 d a b) (fpEff latFp d fun g i => packed2 (fp16.add g.mode) (g.src a 0 i).toNat (g.src b 0 i).toNat) s

/-- HMUL.f16 (R150). -/
def execHmulF16 (d a b : Reg) (s : State) : Res :=
  issue (.hmulF16 d a b) (fpEff latFp d fun g i => packed2 (fp16.mul g.mode) (g.src a 0 i).toNat (g.src b 0 i).toNat) s

/-- HMIN.f16 (R150). -/
def execHminF16 (d a b : Reg) (s : State) : Res :=
  issue (.hminF16 d a b) (fpEff latFp d fun g i => packed2 (fp16.minCode) (g.src a 0 i).toNat (g.src b 0 i).toNat) s

/-- HMAX.f16 (R150). -/
def execHmaxF16 (d a b : Reg) (s : State) : Res :=
  issue (.hmaxF16 d a b) (fpEff latFp d fun g i => packed2 (fp16.maxCode) (g.src a 0 i).toNat (g.src b 0 i).toNat) s

/-- HADD.bf16 (R150). -/
def execHaddBf16 (d a b : Reg) (s : State) : Res :=
  issue (.haddBf16 d a b) (fpEff latFp d fun g i => packed2 (bf16.add .even) (g.src a 0 i).toNat (g.src b 0 i).toNat) s

/-- HMUL.bf16 (R150). -/
def execHmulBf16 (d a b : Reg) (s : State) : Res :=
  issue (.hmulBf16 d a b) (fpEff latFp d fun g i => packed2 (bf16.mul .even) (g.src a 0 i).toNat (g.src b 0 i).toNat) s

/-- HMIN.bf16 (R150). -/
def execHminBf16 (d a b : Reg) (s : State) : Res :=
  issue (.hminBf16 d a b) (fpEff latFp d fun g i => packed2 (bf16.minCode) (g.src a 0 i).toNat (g.src b 0 i).toNat) s

/-- HMAX.bf16 (R150). -/
def execHmaxBf16 (d a b : Reg) (s : State) : Res :=
  issue (.hmaxBf16 d a b) (fpEff latFp d fun g i => packed2 (bf16.maxCode) (g.src a 0 i).toNat (g.src b 0 i).toNat) s

/-- FFMA.f32 (R152): one rounding. -/
def execFfmaF32 (d a b c : Reg) (s : State) : Res :=
  issue (.ffmaF32 d a b c) (fpEff latFp d fun g i => fp32.fma g.mode (g.src a 0 i).toNat (g.src b 0 i).toNat (g.src c 0 i).toNat) s

/-- HFMA.f16 (R152). -/
def execHfmaF16 (d a b c : Reg) (s : State) : Res :=
  issue (.hfmaF16 d a b c) (fpEff latFp d fun g i => packed3 (fp16.fma g.mode) (g.src a 0 i).toNat (g.src b 0 i).toNat (g.src c 0 i).toNat) s

/-- HFMA.bf16 (R152). -/
def execHfmaBf16 (d a b c : Reg) (s : State) : Res :=
  issue (.hfmaBf16 d a b c) (fpEff latFp d fun g i => packed3 (bf16.fma .even) (g.src a 0 i).toNat (g.src b 0 i).toNat (g.src c 0 i).toNat) s

/-- IMAD (R152). -/
def execImad (d a b c : Reg) (s : State) : Res :=
  issue (.imad d a b c) (aluEff latFp d fun g i => g.src a 0 i * g.src b 0 i + g.src c 0 i) s

/-- IAMIN (R143). -/
def execIamin (d a b c : Reg) (s : State) : Res :=
  issue (.iamin d a b c) (aluEff latFp d fun g i => minI32 (g.src a 0 i) (g.src b 0 i + g.src c 0 i)) s

/-- SEL (R153). -/
def execSel (d a b : Reg) (p : BitVec 4) (s : State) : Res :=
  issue (.sel d a b p) (aluEff latInt d fun g i =>
    if (g.rdP p.toNat).getLsbD i then g.src a 0 i else g.src b 0 i) s

/-- The field that BFE and BFI act on (R154): W := min(len, 32 − pos). -/
def fieldWidth (pos len : Nat) : Nat := min len (32 - pos)

/-- BFE (R154). -/
def bfeWord (a : Word) (sgn : Bool) (pos len : Nat) : Word :=
  let w := fieldWidth pos len
  let f := bitsOf a.toNat pos w
  if w = 0 then 0#32 else if sgn then BitVec.ofInt 32 (signedOf f w) else BitVec.ofNat 32 f

def execBfe (d a : Reg) (sgn : Bool) (pos : BitVec 5) (len : BitVec 8) (s : State) : Res :=
  issue (.bfe d a sgn pos len) (aluEff latInt d fun g i => bfeWord (g.src a 0 i) sgn pos.toNat len.toNat) s

/-- BFI (R154). -/
def bfiWord (a b : Word) (pos len : Nat) : Word :=
  let w := fieldWidth pos len
  let m := BitVec.ofNat 32 ((2 ^ w - 1) * 2 ^ pos)
  (b &&& ~~~m) ||| (BitVec.ofNat 32 (bitsOf a.toNat 0 w * 2 ^ pos) &&& m)

def execBfi (d a b : Reg) (pos : BitVec 5) (len : BitVec 8) (s : State) : Res :=
  issue (.bfi d a b pos len) (aluEff latInt d fun g i => bfiWord (g.src a 0 i) (g.src b 0 i) pos.toNat len.toNat) s

/-- LOGT (R155): bit k of the result is bit a_k + 2 b_k + 4 c_k of the table. -/
def logtWord (tt : BitVec 8) (a b c : Word) : Word :=
  BitVec.ofNat 32 ((List.range 32).foldl (fun acc k =>
    let ix := (a.getLsbD k).toNat + 2 * (b.getLsbD k).toNat + 4 * (c.getLsbD k).toNat
    if tt.getLsbD ix then acc + 2 ^ k else acc) 0)

def execLogt (d a b c : Reg) (tt : BitVec 8) (s : State) : Res :=
  issue (.logt d a b c tt) (aluEff latInt d fun g i => logtWord tt (g.src a 0 i) (g.src b 0 i) (g.src c 0 i)) s

/-- DOT4.i8 (R156). -/
def dot4 (a b c : Word) : Word :=
  wrap32 ((List.range 4).foldl (fun acc k =>
    acc + signedOf (bitsOf a.toNat (8 * k) 8) 8 * signedOf (bitsOf b.toNat (8 * k) 8) 8) (sgn c))

def execDot4I8 (d a b c : Reg) (s : State) : Res :=
  issue (.dot4I8 d a b c) (aluEff latFp d fun g i => dot4 (g.src a 0 i) (g.src b 0 i) (g.src c 0 i)) s

/-! ### Comparisons and conversions -/

/-- A predicate result in the lanes of Exec (R157). -/
def predEff (lat : Nat) (pd : BitVec 4) (f : Group → Nat → Bool) (s : State) (gid : Nat) (g : Group)
    (_cl : Clause) : Eff :=
  doneG s gid (g.fixed (s.native g) lat (g.destP pd.toNat (f g))) .seq

/-- ICMP.i32 (R157). -/
def execIcmpI32 (pd cond : BitVec 4) (a b : Reg) (s : State) : Res :=
  issue (.icmpI32 pd cond a b) (predEff latInt pd fun g i =>
    condInt cond.toNat (sgn (g.src a 0 i)) (sgn (g.src b 0 i))) s

/-- ICMP.ui32 (R157). -/
def execIcmpUi32 (pd cond : BitVec 4) (a b : Reg) (s : State) : Res :=
  issue (.icmpUi32 pd cond a b) (predEff latInt pd fun g i =>
    condInt cond.toNat (g.src a 0 i).toNat (g.src b 0 i).toNat) s

/-- FCMP (R157): never a flag. -/
def execFcmp (pd cond : BitVec 4) (a b : Reg) (s : State) : Res :=
  issue (.fcmp pd cond a b) (predEff latFp pd fun g i =>
    condFp cond.toNat (fp32.unpack (g.src a 0 i).toNat) (fp32.unpack (g.src b 0 i).toNat)) s

/-- PLOP (R132). -/
def execPlop (pd tt pa pb : BitVec 4) (s : State) : Res :=
  issue (.plop pd tt pa pb) (predEff latInt pd fun g i =>
    tt.getLsbD (2 * ((g.rdP pa.toNat).getLsbD i).toNat + ((g.rdP pb.toNat).getLsbD i).toNat)) s

/-- PTOV (R133). -/
def execPtov (d : Reg) (pa : BitVec 4) (s : State) : Res :=
  issue (.ptov d pa) (aluEff latInt d fun g i => if (g.rdP pa.toNat).getLsbD i then 1#32 else 0#32) s

/-- VTOP (R133). -/
def execVtop (pd : BitVec 4) (a : Reg) (s : State) : Res :=
  issue (.vtop pd a) (predEff latInt pd fun g i => g.src a 0 i != 0#32) s

/-- A word clamped to a small integer range, extended as its view says (R84). -/
def narrowInt (lo hi : Int) (a : Word) : Word := wrap32 (clampInt lo hi (sgn a))

/-- The conversions of R83 other than the block codes, with their flags (R84, R85). `ix` is the element's place in
its block. -/
def cvtWord (code : Nat) (mode : RMode) (a : Word) (ix : Nat) : Word × FFlags :=
  let n := a.toNat
  let lo16 := n % 2 ^ 16
  let fw := fun (r : Nat × FFlags) => (w32 r.1, r.2)
  let iw := fun (r : Int × FFlags) => (wrap32 r.1, r.2)
  let i32lo : Int := -2147483648
  match code with
  | 0x00 => fw (fp32.convert fp16 mode n)
  | 0x01 => fw (fp32.convert bf16 .even n)
  | 0x02 => fw (fp16.convert fp32 .even lo16)
  | 0x03 => fw (bf16.convert fp32 .even lo16)
  | 0x04 => fw (fp16.convert bf16 .even lo16)
  | 0x05 => fw (bf16.convert fp16 mode lo16)
  | 0x08 => iw (fp32.toInt .zero i32lo 2147483647 n)
  | 0x09 => iw (fp32.toInt mode i32lo 2147483647 n)
  | 0x0A => iw (fp32.toInt .zero 0 4294967295 n)
  | 0x0B => iw (fp32.toInt mode 0 4294967295 n)
  | 0x0C => fw (fp32.ofInt mode (sgn a))
  | 0x0D => fw (fp32.ofInt mode n)
  | 0x0E => iw (fp32.toInt .even (-128) 127 n)
  | 0x0F => fw (fp32.ofInt .even (signedOf (n % 256) 8))
  | 0x10 => (narrowInt (-128) 127 a, 0#5)
  | 0x11 => (narrowInt 0 255 a, 0#5)
  | 0x20 => (w32 (toTapered 8 (fp32.unpack n)), tapFlags 8 (fp32.unpack n))
  | 0x21 => (w32 (toTapered 6 (fp32.unpack n)), tapFlags 6 (fp32.unpack n))
  | 0x22 => fw (toFp32Even (decodeTapered 8 (n % 256)))
  | 0x23 => fw (toFp32Even (decodeTapered 6 (n % 64)))
  | 0x26 => fw (toFp32Even (blockDecode 8 (bitsOf n 8 8) (bitsOf n 16 8) ix (n % 256)))
  | _ => fw (toFp32Even (blockDecode 6 (bitsOf n 8 8) (bitsOf n 16 8) ix (n % 64)))

/-- The 16 inputs of a lane's block run (R85): helper lanes, absent lanes and lanes outside Exec supply +0. -/
def blockInputs (g : Group) (a : Reg) (run : Nat) : List FVal :=
  (List.range 16).map fun k =>
    let i := 16 * run + k
    if g.active.getLsbD i then fp32.unpack (g.src a 0 i).toNat else .fin false 0 0

/-- The block-encoding codes (R85). -/
def cvtBlock (w : Nat) (g : Group) (a : Reg) (i : Nat) : Nat × FFlags :=
  let x := blockInputs g a (i / 16)
  let ex := blockExp w x
  let mu := blockMu w ex x
  let code := (blockCodes w ex mu x).getD (i % 16) 0
  let v := (fp32.unpack (g.src a 0 i).toNat).scale (-blockScale ex mu (i % 16))
  -- a helper lane's code is that of the +0 it supplies
  (code + ex * 2 ^ 8 + mu * 2 ^ 16, tapFlags w v)

/-- CVT (R158, R83 to R86). -/
def execCvt (d a : Reg) (code : BitVec 8) (s : State) : Res :=
  issue (.cvt d a code)
    (if code = 0x24#8 then fpEff latFp d fun g i => cvtBlock 8 g a i
     else if code = 0x25#8 then fpEff latFp d fun g i => cvtBlock 6 g a i
     else fpEff latFp d fun g i =>
       let r := cvtWord code.toNat g.mode (g.src a 0 i) (if d.isScalar then 0 else i % 16)
       (r.1.toNat, r.2)) s

/-- Narrow (R158). -/
def narrow16 (fmt : BitVec 8) (mode : RMode) (a : Word) : Nat × FFlags :=
  if fmt = 0#8 then fp32.convert fp16 mode a.toNat else fp32.convert bf16 .even a.toNat

/-- PKH (R158). -/
def execPkh (d a : Reg) (fmt : BitVec 8) (s : State) : Res :=
  issue (.pkh d a fmt) (fpEff latFp d fun g i =>
    let lo := narrow16 fmt g.mode (g.src a 0 i)
    let hi := narrow16 fmt g.mode (g.src a 1 i)
    (hi.1 * 2 ^ 16 + lo.1, hi.2 ||| lo.2)) s

/-- Widen (R158): exact. -/
def widen16 (fmt : BitVec 8) (a : Nat) : Nat :=
  if fmt = 0#8 then (fp16.convert fp32 .even a).1 else (bf16.convert fp32 .even a).1

/-- UPKH (R158): the source is read before either destination is written; no flag. -/
def execUpkh (d a : Reg) (fmt : BitVec 8) (s : State) : Res :=
  issue (.upkh d a fmt) (fun s gid g _ =>
    let ws := (g.dest d 0 fun i => w32 (widen16 fmt ((g.src a 0 i).toNat % 2 ^ 16))) ++
      g.dest d 1 fun i => w32 (widen16 fmt ((g.src a 0 i).toNat / 2 ^ 16))
    doneG s gid (g.fixed (s.native g) latFp ws) .seq) s

/-- The magnitude of a source byte of SPCMP, NX above every value (R295). -/
def spMag (fmt : SpFmt) (x : Nat) : Nat :=
  let tap := fun (w c : Nat) => match decodeTapered w c with
    | .fin _ m _ => m
    | .nan _ | .inf _ => 2 ^ 40
  match fmt with
  | .i8 => (signedOf x 8).natAbs
  | .t8 => tap 8 x
  | .t6 => tap 6 (x % 64)

/-- The four kept indices, rising: the largest magnitudes, the lower index among equals (R295). -/
def spKept (fmt : SpFmt) (xs : List Nat) : List Nat :=
  (List.range 8).filter fun i =>
    decide (((List.range 8).filter fun j =>
      let mi := spMag fmt (xs.getD i 0)
      let mj := spMag fmt (xs.getD j 0)
      decide (mi < mj) || (mi = mj && decide (j < i))).length < 4)

/-- The data and metadata words of SPCMP (R295). -/
def spcmpWords (fmt : SpFmt) (half : Bool) (lo hi c : Word) : Word × Word :=
  let xs := ((List.range 4).map fun k => bitsOf lo.toNat (8 * k) 8) ++
    (List.range 4).map fun k => bitsOf hi.toNat (8 * k) 8
  let kept := spKept fmt xs
  let data := (List.range 4).foldl (fun acc j => acc + xs.getD (kept.getD j 0) 0 * 2 ^ (8 * j)) 0
  let meta_ := (List.range 4).foldl (fun acc j => acc + kept.getD j 0 * 2 ^ (3 * j)) 0
  let other := if half then c &&& 0x00000FFF#32 else c &&& 0x0FFF0000#32
  (w32 data, other ||| w32 (if half then meta_ * 2 ^ 16 else meta_))

/-- SPCMP (R295). Where its two results name one register, the second stands: DESIGN CHOICE (assumption log 57). -/
def execSpcmp (d a c : Reg) (fmt : SpFmt) (half : Bool) (s : State) : Res :=
  issue (.spcmp d a c fmt half) (fun s gid g _ =>
    let r := fun i => spcmpWords fmt half (g.src a 0 i) (g.src a 1 i) (g.src c 0 i)
    let ws := (g.dest d 0 fun i => (r i).1) ++ g.dest c 0 fun i => (r i).2
    doneG s gid (g.fixed (s.native g) latFp ws) .seq) s

end Sys2Proof.Machine
end

