-- ==== Sys2Proof/Machine/Translate.lean ====
section
/-!
DEFINITION. Descriptors, spans and swizzles (R188 to R193), objects and extents (R194 to R197), leases (R211,
R212) and watched bytes (R369, R370).
-/

namespace Sys2Proof.Machine

/-! ### Descriptors -/

/-- A descriptor's fields (R189): dimensions, boxes and byte strides by dimension. -/
structure Desc where
  space : Nat
  tagged : Bool
  ro : Bool
  rank : Nat
  fmt : Nat
  swz : Nat
  plane : Bool
  group : Nat
  partial_ : Bool
  unit : Nat
  obj : Nat
  base : Nat
  box : List Nat
  dims : List Nat
  strides : List Nat
  fill : Word
  deriving DecidableEq, Repr

def wnat (ws : List Word) (k : Nat) : Nat := (ws.getD k 0#32).toNat

/-- Whether a format is T8 or T6 blocks (R190). -/
def blockFmt (f : Nat) : Bool := f = 10 || f = 11

/-- Element bytes of a format (R190); for T8 and T6 the bytes of a block. -/
def fmtBytes (f : Nat) (plane : Bool) : Nat :=
  match f with
  | 0 | 1 => 1
  | 2 | 3 | 6 | 7 => 2
  | 9 => 8
  | 10 => if plane then 16 else 18
  | 11 => if plane then 12 else 14
  | _ => 4

/-- The stride unit's bytes (R189). -/
def strideUnit (c : Nat) : Nat :=
  match c with
  | 0 => 1
  | 1 => 16
  | 2 => 256
  | _ => 4096

/-- The fields of a descriptor's words (R189). -/
def Desc.read (ws : List Word) : Desc where
  space := bitsOf (wnat ws 0) 29 2
  tagged := (wnat ws 0).testBit 28
  ro := (wnat ws 0).testBit 27
  rank := bitsOf (wnat ws 0) 24 3
  fmt := bitsOf (wnat ws 0) 20 4
  swz := bitsOf (wnat ws 0) 16 4
  plane := bitsOf (wnat ws 0) 14 2 = 1
  group := bitsOf (wnat ws 0) 8 6 + 1
  partial_ := (wnat ws 0).testBit 7
  unit := strideUnit (bitsOf (wnat ws 0) 5 2)
  obj := bitsOf (wnat ws 1) 0 16
  base := wnat ws 2 + bitsOf (wnat ws 3) 0 16 * 2 ^ 32
  box := [bitsOf (wnat ws 3) 16 16, bitsOf (wnat ws 13) 0 16, bitsOf (wnat ws 13) 16 16, bitsOf (wnat ws 14) 0 16,
    bitsOf (wnat ws 14) 16 16]
  dims := [wnat ws 4, wnat ws 5, wnat ws 6, wnat ws 7, wnat ws 8]
  strides := [0, wnat ws 9, wnat ws 10, wnat ws 11, wnat ws 12]
  fill := ws.getD 15 0#32

def Desc.dim (d : Desc) (k : Nat) : Nat := d.dims.getD k 1
def Desc.boxOf (d : Desc) (k : Nat) : Nat := d.box.getD k 1
def Desc.stride (d : Desc) (k : Nat) : Nat := d.strides.getD k 0 * d.unit

/-- The fill value has its reserved bits zero (R189): DEDUCED; T6 counts as a format of 8 bits though its code has 6 (R267):
DESIGN CHOICE (assumption log 25). -/
def fillOk (f : Nat) (w : Word) : Bool :=
  match f with
  | 0 | 1 | 10 | 11 => bitsOf w.toNat 8 24 = 0
  | 2 | 3 | 6 | 7 => bitsOf w.toNat 16 16 = 0
  | _ => true

/-- Validity of the words of one descriptor (R191), the plane tensor apart. -/
def descWordsOk (ws : List Word) : Bool :=
  let d := Desc.read ws
  (wnat ws 0).testBit 31 && bitsOf (wnat ws 0) 0 5 = 0 && decide (1 ≤ d.rank) && decide (d.rank ≤ 5) &&
  decide (d.fmt ≤ 11) && decide (d.swz ≤ 3) &&
  decide (bitsOf (wnat ws 0) 14 2 ≤ if blockFmt d.fmt then 1 else 0) &&
  bitsOf (wnat ws 1) 16 16 = 0 && (d.space = 0 || (d.obj = 0 && !d.tagged)) &&
  (List.range 5).all (fun k => d.dim k ≠ 0 && d.boxOf k ≠ 0 &&
    (decide (k < d.rank) || (d.dim k = 1 && d.boxOf k = 1 && d.strides.getD k 0 = 0))) &&
  (!blockFmt d.fmt || d.dim 0 % 16 = 0) && fillOk d.fmt d.fill

/-- The plane tensor of a T8 or T6 tensor holds its scales (R190). -/
def planeOk (d : Desc) (ws : List Word) : Bool :=
  let p := Desc.read ws
  descWordsOk ws && p.fmt = 1 && p.rank = d.rank && p.dim 0 = 2 * d.dim 0 / 16 && p.dims.drop 1 = d.dims.drop 1

/-- The bytes of a row (R192). -/
def Desc.rowBytes (d : Desc) : Nat :=
  if blockFmt d.fmt then d.dim 0 / 16 * fmtBytes d.fmt d.plane else d.dim 0 * fmtBytes d.fmt d.plane

/-- The span (R192). -/
def Desc.span (d : Desc) : Nat :=
  d.rowBytes + sumNat (((List.range 5).filter fun k => decide (1 ≤ k ∧ k < d.rank)).map fun k =>
    (d.dim k - 1) * d.stride k)

/-- The offset of an element without swizzle (R192); for T8 and T6 that of its block. -/
def Desc.elemOff (d : Desc) (c : List Nat) : Nat :=
  (if blockFmt d.fmt then c.headD 0 / 16 else c.headD 0) * fmtBytes d.fmt d.plane +
    sumNat ((List.range 5).map fun k => if k = 0 then 0 else c.getD k 0 * d.stride k)

/-- Swizzle (R193). -/
def swizzle (code o : Nat) : Nat :=
  match code with
  | 1 => o ^^^ (bitsOf o 7 2 * 16)
  | 2 => o ^^^ (bitsOf o 7 3 * 16)
  | 3 => o ^^^ (bitsOf o 8 4 * 16)
  | _ => o

/-- The die that a unit stands on: a core's, or a die copy engine's (128 + die). -/
def unitDie (core : Nat) : Nat := if core < 128 then dieOf core else core - 128

/-- Whether a group sees a view (R210): its maker, a group that has acquired it, and one of a launch that started with the
bundle whose start acquired it or later (R382). A copy program of no group sees what a bundle's start has acquired.
DEDUCED (assumption log 29). -/
def State.sees (s : State) (who : Option Nat) (v : View) : Bool :=
  match who with
  | none => v.shown.isSome
  | some g => decide (g = v.owner) || v.seen.contains g ||
      v.shown.any fun n => ((Tab.get? s.groups g).map fun x => decide (n ≤ x.launch)).getD false

/-- A descriptor that not every group sees yet, as a group sees it (R210): its newest view there, else the one before
the first. None where every group sees the same. -/
def State.viewOf (s : State) (who : Option Nat) (job t : Nat) : Option (List Word) :=
  let vs := s.views.filter fun v => v.job = job && v.tensor = t
  match (vs.filter (s.sees who)).getLast? with
  | some v => some v.words
  | none => vs.head?.map View.old

/-- The words of a job's descriptor as the die holds them for a group (R191, R207): held from the first use on.
DEDUCED (assumption log 25). -/
def State.descWords (s : State) (who : Option Nat) (die job t : Nat) : List Word × State :=
  match s.viewOf who job t, Tab.get? s.dies die with
  | some ws, _ => (ws, s)
  | none, none => ([], s)
  | none, some d =>
    match d.descs.find? fun e => e.1 = (job, t) with
    | some e => (e.2, s)
    | none =>
      let at_ := ((Tab.get? s.work.jobs job).map Job.tensorTable).getD 0 + 64 * t
      let ws := bytesToWords (s.hbmRead at_ 64)
      (ws, s.updDie die fun d => { d with descs := ((job, t), ws) :: d.descs })

/-- Tensor t of a job (R188, R190, R191), none where it is invalid. -/
def State.desc (s : State) (who : Option Nat) (die job t : Nat) : Option Desc × State :=
  let (ws, s) := s.descWords who die job t
  if !descWordsOk ws then (none, s)
  else
    let d := Desc.read ws
    if !d.plane then (some d, s)
    else if 4095 ≤ t then (none, s)
    else
      let (ps, s) := s.descWords who die job (t + 1)
      (if planeOk d ps then some d else none, s)

/-! ### Objects -/

/-- Whether the frame of a physical address belongs to the job's port (R419). -/
def State.ownFrame (s : State) (job a : Nat) : Bool :=
  match Tab.get? s.work.jobs job with
  | some j => decide (a < Config.hbmBytes) && Tab.get? s.hub.frames (a / 2 ^ 21) = some j.port
  | none => false

/-- A walk (R194, R195, R212): the physical base of an extent, none for an invalid object or an extent that is not
present. DEDUCED (assumption log 25). -/
def State.walk (s : State) (job obj ext : Nat) : Option Nat :=
  match Tab.get? s.work.jobs job with
  | none => none
  | some j =>
    let ws := bytesToWords (s.hbmRead (j.objectTable + 16 * obj) 16)
    let list := wnat ws 2 + wnat ws 3 * 2 ^ 32
    let e := bytesToNat (s.hbmRead (list + 8 * ext) 8)
    let base := bitsOf e 21 18 * 2 ^ 21
    if wnat ws 0 = 2 ^ 31 && bitsOf (wnat ws 2) 0 6 = 0 && bitsOf (wnat ws 3) 7 25 = 0 && decide (ext < wnat ws 1) &&
        e.testBit 63 && bitsOf e 39 24 = 0 && bitsOf e 0 21 = 0 && s.ownFrame job base then some base
    else none

/-- The hub's request paths, which collectives use (R207, R428): their number in State.dies. Their extent cache holds as
many entries as a die's: DESIGN CHOICE (assumption log 25). -/
def hubPath : Nat := 4

/-- A walk fills the die's extent cache of 8,192 entries (R197), the least recently used leaving; one that fails is
held like any other. DESIGN CHOICE (assumption log 25). -/
def State.fillExtent (s : State) (die job obj ext : Nat) : Option Nat × State :=
  let r := s.walk job obj ext
  (r, s.updDie die fun d =>
    { d with extents := (((job, obj, ext), r) :: d.extents.filter fun e => e.1 ≠ (job, obj, ext)).take 8192 })

/-- The extent's base as the die has it (R197). -/
def State.extent (s : State) (die job obj ext : Nat) : Option Nat × State :=
  match Tab.get? s.dies die with
  | none => (none, s)
  | some d =>
    match d.extents.find? fun e => e.1 = (job, obj, ext) with
    | some e => (e.2, s.updDie die fun d =>
        { d with extents := e :: d.extents.filter fun x => x.1 ≠ (job, obj, ext) })
    | none => s.fillExtent die job obj ext

/-- The physical address of an object offset (R194). -/
def State.physOf (s : State) (die job obj off : Nat) : Option Nat × State :=
  let (b, s) := s.extent die job obj (off / 2 ^ 21)
  (if off < 2 ^ 48 then b.map fun x => x + off % 2 ^ 21 else none, s)

/-- TABLE_WALK (R197): a miss is walked. -/
def execTableWalk (die job obj ext : Nat) (s : State) : Res :=
  .next (if ((Tab.get? s.dies die).map fun d => d.extents.any fun e => e.1 = (job, obj, ext)).getD true then s
    else (s.fillExtent die job obj ext).2)

/-! ### Leases -/

/-- Rights of a lease (R385): read, write, atomic. -/
def rRead : Nat := 0
def rWrite : Nat := 1
def rAtomic : Nat := 2

/-- A lease of the job's running launches covers a line with a right (R211, R212, R213). -/
def State.leaseOk (s : State) (job obj line right : Nat) : Bool :=
  s.work.launches.any fun e => e.2.job = job && e.2.admitted && !e.2.retired && e.2.leases.any fun l =>
    l.obj = obj && !l.revoked && l.rights.getLsbD right && decide (l.start ≤ line) && decide (line + 64 ≤ l.start + l.len)

/-- A line of a lane access, translated and checked (R212): its physical address, none where the task ends. -/
def State.lineOk (s : State) (die job obj line right : Nat) : Option Nat × State :=
  let (p, s) := s.physOf die job obj line
  (if s.leaseOk job obj line right then p else none, s)

/-- The lines of an access, each with its physical address; none when one fails. -/
def State.linesOk (s : State) (die job obj right : Nat) : List Nat → Option (List (Nat × Nat)) × State
  | [] => (some [], s)
  | l :: ls =>
    let (p, s) := s.lineOk die job obj l right
    let (ps, s) := s.linesOk die job obj right ls
    (match p, ps with
     | some p, some ps => some ((l, p) :: ps)
     | _, _ => none, s)

/-! ### Watched bytes -/

/-- Kinds of watched accesses (R369). -/
def wLoad : Nat := 0
def wStore : Nat := 1
def wAtomic : Nat := 2
def wCopy : Nat := 3
def wRemote : Nat := 4

/-- The first watched byte of a unit that an access of some bytes of an object hits. DEDUCED (assumption log 36). -/
def Watch.hit (w : Watch) (obj off n : Nat) : Option Nat :=
  if w.obj ≠ obj then none
  else ((List.range n).find? fun k =>
    let o := swizzle w.swz (off + k - w.base)
    decide (w.base ≤ off + k) && decide (w.off ≤ o) && decide (o < w.off + w.len) && w.mask.getLsbD (o % 16)).map
      fun k => off + k

/-- The units of a core that an access of a job hits, with their reporting groups and first bytes (R370). -/
def State.watchHits (s : State) (core job kind obj off n : Nat) : List (Nat × Nat × Nat) :=
  match Tab.get? s.cores core with
  | none => []
  | some c => c.watch.filterMap fun e =>
      if e.2.kinds.getLsbD kind && ((Tab.get? s.groups e.2.group).map fun g => s.jobOf g) = some job then
        (e.2.hit obj off n).map fun b => (e.1, e.2.group, b)
      else none

/-- The mask of unit numbers. -/
def unitMask (us : List Nat) : Nat := sumNat ((dedup us).map fun u => 2 ^ u)

/-- The lane-access causes of some accesses of a group (R370): one for each reporting group whose units they hit, with
its units, lanes and first byte. DEDUCED (assumption log 36). -/
def State.watchLanes (s : State) (g : Group) (kind obj : Nat) (accs : List LaneAcc) (n : Nat) : List Cause :=
  if g.inHandler then []
  else
    let hits := accs.flatMap fun a =>
      if g.helpers.getLsbD a.lane then []
      else (s.watchHits g.core (s.jobOf g) kind obj a.off n).map fun h => (a.lane, h)
    (dedup (hits.map fun x => x.2.2.1)).map fun rg =>
      let mine := hits.filter fun x => x.2.2.1 = rg
      ⟨0x12, unitMask (mine.map fun x => x.2.1), some (mine.foldl (fun m x => m ||| laneBit x.1) 0#64), obj,
        (mine.head?.map fun x => x.2.2.2).getD 0⟩

end Sys2Proof.Machine
end

