-- ==== Sys2Proof/Machine/Cells.lean ====
section
/-!
DEFINITION. Tags and cells (R214 to R227): liveness, depth, the bytes a context reads, and a context's writes at a
granule's home.
-/

namespace Sys2Proof.Machine

/-! ### Tags -/

def State.tag? (s : State) (t : Nat) : Option Tag := Tab.get? s.kennel.tags t

/-- Whether a tag is 0 or live in a job (R219). -/
def State.tagLive (s : State) (job t : Nat) : Bool :=
  t = 0 || (match s.tag? t with
    | some x => x.job = job && x.state = .live
    | none => false)

/-- Whether a tag is 0, or live or retiring in a job (R240). -/
def State.tagKnown (s : State) (job t : Nat) : Bool :=
  t = 0 || (match s.tag? t with
    | some x => x.job = job
    | none => false)

/-- The depth of a tag (R215); chains hold at most three tags. -/
def Kennel.depth (k : Kennel) : Nat → Nat → Nat
  | 0, _ => 0
  | n + 1, t =>
    if t = 0 then 0
    else match Tab.get? k.tags t with
      | some x => 1 + k.depth n x.parent
      | none => 0

/-- A tag has a child, live or retiring (R215). -/
def State.hasChild (s : State) (t : Nat) : Bool := s.kennel.tags.any fun e => e.2.parent = t

def State.tagDepth (s : State) (t : Nat) : Nat := s.kennel.depth 4 t

/-- The tags that count against a launch's .ctxbudget (R216, R218). -/
def State.tagsOf (s : State) (launch : Nat) : Nat :=
  (s.kennel.tags.filter fun e => e.2.launch = launch && !e.2.ctx).length

/-! ### Cells -/

/-- A context's cell for a granule (R222). -/
def Kennel.cell? (k : Kennel) (job tag obj gran : Nat) : Option Cell :=
  k.cells.find? fun c => c.tag = tag && c.job = job && c.obj = obj && c.gran = gran

/-- Replaces a context's cell for a granule, or adds it. -/
def Kennel.putCell (k : Kennel) (c : Cell) : Kennel :=
  { k with cells := c :: k.cells.filter fun x => !(x.tag = c.tag && x.job = c.job && x.obj = c.obj && x.gran = c.gran) }

def Kennel.dropCell (k : Kennel) (job tag obj gran : Nat) : Kennel :=
  { k with cells := k.cells.filter fun x => !(x.tag = tag && x.job = job && x.obj = obj && x.gran = gran) }

/-- A cell's byte, where its mask has it (R222). -/
def Cell.byte? (c : Cell) (ix : Nat) : Option Byte :=
  if c.mask.getLsbD ix then some (c.data.getD ix 0#8) else none

/-- ResolveByte below the root (R223): the nearest context of the chain that wrote the byte, and the byte. -/
def Kennel.resolve (k : Kennel) (job obj gran ix : Nat) : Nat → Nat → Option (Nat × Byte)
  | 0, _ => none
  | n + 1, t =>
    if t = 0 then none
    else match (k.cell? job t obj gran).bind fun c => c.byte? ix with
      | some b => some (t, b)
      | none => match Tab.get? k.tags t with
        | some x => k.resolve job obj gran ix n x.parent
        | none => none

/-- The cells a job holds, and how many it may (R227). -/
def State.cellsFull (s : State) (job : Nat) : Bool :=
  match Tab.get? s.work.jobs job with
  | some j => decide (j.capacity * 16384 ≤ (s.kennel.cells.filter fun c => c.job = job).length)
  | none => true

/-! ### Bytes at their home -/

/-- A byte of root memory as a lane reads it; an uncorrectable one is free (assumption log 7). -/
def State.homeByte (s : State) (phys : Nat) : Byte :=
  if s.bad.any fun b => b = .hbm (phys / 8) then Config.badData s.turnCount phys
  else memRead Config.hbmFill s.hbm phys

/-- The byte of an object that a read in a context returns (R221, R223); one of an uncorrectable cell is free
(assumption log 7). -/
def State.ctxByte (s : State) (job : Nat) (tagged : Bool) (tag obj off phys : Nat) : Byte :=
  match if tagged then s.kennel.resolve job obj (off / 64) (off % 64) 4 tag else none with
  | some (t, b) => if s.bad.contains (.cell t obj (off / 64)) then Config.badData s.turnCount phys else b
  | none => s.homeByte phys

/-- Whether the byte a read in a context returns is uncorrectable (R270). -/
def State.byteBad (s : State) (job : Nat) (tagged : Bool) (tag obj off phys : Nat) : Bool :=
  match if tagged then s.kennel.resolve job obj (off / 64) (off % 64) 4 tag else none with
  | some (t, _) => s.bad.contains (.cell t obj (off / 64))
  | none => s.bad.contains (.hbm (phys / 8))

/-- The bytes an access reads. -/
def State.ctxBytes (s : State) (job : Nat) (tagged : Bool) (tag obj off phys n : Nat) : List Byte :=
  (List.range n).map fun k => s.ctxByte job tagged tag obj (off + k) (phys + k)

/-- A 64-bit word of HBM that is written whole loses its error. DEDUCED (assumption log 50). -/
def healHbm (bad : List BadLoc) (base : Nat) (bytes : Tab Byte) : List BadLoc :=
  bad.filter fun b => match b with
    | .hbm d => !((List.range 8).all fun k => decide (base ≤ 8 * d + k) && Tab.has bytes (8 * d + k - base))
    | _ => true

/-- Bytes written to root memory at their home, by place from a base. -/
def State.rootWrite (s : State) (base : Nat) (bytes : Tab Byte) : State :=
  { s with hbm := writeAt s.hbm base bytes, bad := healHbm s.bad base bytes }

/-- A cell with some bytes written (R222). -/
def Cell.write (c : Cell) (bytes : Tab Byte) : Cell :=
  { c with
    data := (List.range 64).map fun k => Tab.getD bytes k (c.data.getD k 0#8)
    mask := c.mask ||| maskOf fun k => Tab.has bytes k }

/-- A fresh cell, its mask clear (R222). -/
def Cell.fresh (tag job obj gran phys : Nat) : Cell := ⟨tag, job, obj, gran, phys, List.replicate 64 0#8, 0#64⟩

/-- A write that comes too late is counted against its launch (R232). -/
def State.lateWrite (s : State) (launch : Nat) : State :=
  s.updLaunch launch fun l => { l with late := min 0xFFFFFFFF (l.late + 1) }

/-- A line's write at its home (R222, R225, R232): into root memory or the context's cell; none where it needs a
cell and none is free (R227). `bytes` is by place in the line, `phys` the line's address; `waited` is a write that
reached its home before and waits there for a cell, so that it is not too late. -/
def State.ctxWrite (s : State) (job launch : Nat) (tagged : Bool) (tag obj line phys : Nat) (bytes : Tab Byte)
    (waited : Bool) : Option State :=
  if !tagged || tag = 0 then some (s.rootWrite phys bytes)
  else if !waited && !s.tagLive job tag then some (s.lateWrite launch)
  else match s.kennel.cell? job tag obj (line / 64) with
    | some c => some (s.setKennel (s.kennel.putCell (c.write bytes)))
    | none =>
      if s.cellsFull job then none
      else some (s.setKennel (s.kennel.putCell ((Cell.fresh tag job obj (line / 64) phys).write bytes)))

/-- The cell of an atomic (R224): where the context has none, one is made with the granule's resolved bytes and a
clear mask; none where no cell is free. -/
def State.atomicCell (s : State) (job tag obj line phys : Nat) : Option State :=
  match s.kennel.cell? job tag obj (line / 64) with
  | some _ => some s
  | none =>
    if s.cellsFull job then none
    else
      let data := (List.range 64).map fun k => s.ctxByte job true tag obj (line + k) (phys + k)
      some (s.setKennel (s.kennel.putCell { Cell.fresh tag job obj (line / 64) phys with data := data }))

end Sys2Proof.Machine
end

