-- ==== Sys2Proof/Machine/Memory.lean ====
section
/-!
DEFINITION. Global memory (R198 to R208, R240, R249 to R253): lane addresses, loads, stores, atomics and
reductions, buffer records and fences, and the events that perform them at their homes.
-/

namespace Sys2Proof

/-- The size code of an atomic type's operands. -/
def AtomTy.size (t : AtomTy) : MemSize := if t.regs = 2 then .b64 else .b32

/-- Whether an order has a release or an acquire half (R45). -/
def Order.releases (o : Order) : Bool := o == .rel || o == .ar
def Order.acquires (o : Order) : Bool := o == .acq || o == .ar

end Sys2Proof

namespace Sys2Proof.Machine

/-! ### Lane addresses -/

/-- LaneAddress (R199): the object offset of an access, none where it is out of extent. -/
def laneAddress (d : Option Desc) (r : Nat → Word) (idx : Nat) (off : Int) (size : Nat) (write : Bool) : Option Nat :=
  match d with
  | none => none
  | some d =>
    let base := (r 1).toNat + bitsOf (r 2).toNat 0 16 * 2 ^ 32
    let o : Int := (base + idx * bitsOf (r 0).toNat 0 16 : Nat) + off
    let sw := swizzle (bitsOf (r 0).toNat 16 4) o.toNat
    if d.space ≠ 0 || (r 3).toNat ≤ idx || o < 0 || d.span < sw + size ||
        (write && ((r 2).getLsbD 17 || d.ro)) then none
    else some (d.base + sw)

/-- What the lanes of an access come to (R200): the accesses by lane and object offset, the lanes that are out of
extent, and the non-helper lanes that are misaligned or out of extent. -/
structure Plan where
  accs : List (Nat × Nat)
  zero : List Nat
  mis : Mask
  out : Mask
  deriving DecidableEq, Repr

def Group.plan (g : Group) (lanes : List Nat) (uniform : Bool) (addr : Nat → Option Nat) (size : Nat) : Plan :=
  let aligned := fun i => (addr i).any fun a => a % size = 0
  let mask := fun (p : Nat → Bool) =>
    if uniform then (if lanes.any p then g.active else 0#64)
    else (lanes.filter p).foldl (fun m i => m ||| laneBit i) 0#64 &&& ~~~g.helpers
  { accs := (lanes.filter aligned).filterMap fun i => (addr i).map fun a => (i, a)
    zero := lanes.filter fun i => (addr i).isNone
    mis := mask fun i => (addr i).isSome && !aligned i
    out := mask fun i => (addr i).isNone }

/-- The 64-byte line of an offset. -/
def lineOf (a : Nat) : Nat := a / 64 * 64

/-- The request entries a core has in use (R202): the lines of its loads, atomics and reductions still to be answered,
and those of its stores, whose tasks may have ended, still to be acknowledged. -/
def State.requests (s : State) (core : Nat) : Nat :=
  sumNat ((s.ops.mem.filter fun e => e.2.core = core && e.2.kind ≠ .value && e.2.kind ≠ .store).map fun e =>
    e.2.lines.length) + (s.ops.sfq.filter fun e => e.2.core = core).length

/-- The lines of a core's store-forwarding queue in use (R203). -/
def State.queued (s : State) (core : Nat) : Nat :=
  (s.ops.sfq.filter fun e => e.2.core = core).length +
    sumNat (s.ops.mem.map fun e => match e.2.kind with
      | .atomic _ _ _ _ _ => if e.2.core = core then e.2.lines.length else 0
      | _ => 0)

/-- A lane access up to its translation (R200, R202, R203, R212, R232, R240): the faults in their order, the waits,
the kill of a failing line, and then the access itself on its lines' physical addresses. A word that raises a later fault
leaves sr.bounds as it was. DEDUCED (assumption log 26). -/
def State.access (s : State) (gid : Nat) (g : Group) (b : Nat) (lanes : List Nat) (uniform : Bool) (idx : Nat → Word) (off : Int)
    (size right cls : Nat) (ldx : Option Nat) (nohelp : Bool)
    (k : State → Group → Option Desc → Plan → List (Nat × Nat) → Eff) : Eff :=
  let job := s.jobOf g
  let die := dieOf g.core
  let (d, s) := s.desc (some gid) die job (bitsOf (g.recWord b 0).toNat 20 12)
  let p := g.plan lanes uniform
    (fun i => laneAddress d (g.recWord b) (idx i).toNat off size (right ≠ rRead)) size
  if p.mis != 0#64 then .trap (.at 0x09 p.mis)
  else if p.out != 0#64 && (g.recWord b 2).getLsbD 16 then .trap ⟨0x08, b, some p.out, 0, 0⟩
  else if !s.tagLive job g.lanes.ctag.toNat then .trap (.withDetail 0x0C 8)
  else if !(ldx.all fun t => s.tagKnown job t) then .trap (.withDetail 0x0C 7)
  else
    let p := if nohelp then { p with accs := p.accs.filter fun a => !g.helpers.getLsbD a.1 } else p
    let lines := dedup (p.accs.map fun a => lineOf a.2)
    if cntLimit cls ≤ g.cnt cls || Config.requestEntries < s.requests g.core + lines.length ||
        (right ≠ rRead && Config.sfqLines < s.queued g.core + lines.length) then .wait
    else
      let (ps, s) := s.linesOk die job ((d.map Desc.obj).getD 0) right lines
      match ps with
      | none => .kill stLease
      | some ps => k s { g with bounds := g.bounds || p.out != 0#64 } d p ps

/-- The physical address of an offset, from its line's. -/
def physIn (ps : List (Nat × Nat)) (a : Nat) : Nat :=
  match ps.find? fun e => e.1 = lineOf a with
  | some e => e.2 + a % 64
  | none => 0

/-! ### Landing -/

/-- Word k of a loaded item, extended as its size gives (R44, R204). -/
def loadedWord (sz : MemSize) (bs : List Byte) (k : Nat) : Word :=
  let n := bytesToNat bs
  match sz with
  | .i8 => BitVec.ofInt 32 (signedOf n 8)
  | .i16 => BitVec.ofInt 32 (signedOf n 16)
  | .ui8 | .ui16 | .b32 | .b64 | .b128 => BitVec.ofNat 32 (n / 2 ^ (32 * k))

/-- A register operand by its physical number, as an operation in flight keeps it. -/
def Group.physReg (g : Group) (r : Reg) : Reg :=
  match r with
  | .v _ => .v (Fin.ofNat 192 (g.phys r 0))
  | .s _ => .s (Fin.ofNat 64 (g.phys r 0))

/-- The write of a lane's word to a destination by physical number. -/
def physTarget (r : Reg) (k lane : Nat) : Target :=
  match r with
  | .v n => .v (n.val + k) lane
  | .s n => .s (n.val + k)

/-- The register writes of a completed operation (R200, R205). -/
def MemOp.writes (o : MemOp) : List (Target × Word) :=
  match o.dst with
  | none => []
  | some r => (List.range o.size.regs).flatMap fun k =>
      (o.accs.map fun a => (physTarget r k a.lane, loadedWord o.size a.got k)) ++
        o.zero.map fun i => (physTarget r k i, 0#32)

/-- The acquire half of an atomic is done (R253): the group goes on. -/
def State.releaseHold (s : State) (gid : Nat) : State :=
  match Tab.get? s.groups gid with
  | none => s
  | some g =>
    match g.hold with
    | none => s
    | some op =>
      if !Tab.has s.ops.mem op && s.ops.mem.all fun e => e.2.group ≠ gid || decide (op < e.1) || !e.2.reads then
        (s.setGroup gid { g with hold := none }).acquired gid
      else s

/-- An operation completes: its results land, its registers are no longer pending, its counter falls (R127, R243). -/
def State.finishMem (s : State) (op : Nat) (o : MemOp) : State :=
  let s := s.updGroup o.group fun g =>
    ((o.writes.foldl (fun g w => g.landResult op w) g).clearPend op).complete o.cls op
  (s.setOps { s.ops with mem := Tab.del s.ops.mem op }).releaseHold o.group

/-- A fresh operation of a group, counted, its destination pending (R127, R243). -/
def State.startMem (s : State) (g : Group) (o : MemOp) (regs : List PReg) : Nat × State × Group :=
  let (op, s) := s.fresh
  (op, s.setOps { s.ops with mem := Tab.set s.ops.mem op o }, (g.count o.cls op).setPend op regs)

/-- A counted instruction that is issued and performs nothing (R244): it counts, and completes at once. -/
def idleOp (cls : Nat) (s : State) (gid : Nat) (g : Group) : Eff :=
  if cntLimit cls ≤ g.cnt cls then .wait
  else
    let (op, s) := s.fresh
    doneG s gid ((g.count cls op).complete cls op) .seq

/-! ### Loads -/

/-- The load of R204 and R240 by its parts. `uniform` loads execute once, checked as one lane. -/
def loadEff (d : Reg) (b : BitVec 5) (sz : MemSize) (idx : Group → Nat → Word) (off : Int)
    (ldx : Group → Option Nat) (s : State) (gid : Nat) (g : Group) (_cl : Clause) : Eff :=
  let uniform := d.isScalar
  if (if uniform then g.active else g.exec) == 0#64 then idleOp cLD s gid g
  else
    let lanes := if uniform then [0] else maskList g.exec
    s.access gid g b.toNat lanes uniform (idx g) off sz.bytes rRead cLD (ldx g) false fun s g dd p ps =>
      let job := s.jobOf g
      let obj := (dd.map Desc.obj).getD 0
      let accs := p.accs.map fun a => (⟨a.1, a.2, physIn ps a.2, [], [], false, false⟩ : LaneAcc)
      let tag := (ldx g).getD g.lanes.ctag.toNat
      let o : MemOp :=
        { group := gid, core := g.core, job := job, launch := g.launch, kind := .load, size := sz
          dst := some (g.physReg d), tag := tag, rtag := tag, tagged := (dd.map Desc.tagged).getD false
          ldx := (ldx g).isSome, handler := g.inHandler, obj := obj, accs := accs, zero := p.zero, lines := ps.map Prod.fst
          all := ps.map Prod.fst, cls := cLD }
      let causes := (s.watchLanes g wLoad obj accs sz.bytes).map fun c =>
        if uniform then { c with lanes := some g.active } else c
      let (op, s, g) := s.startMem g o (g.pregs d sz.regs)
      let s := s.setGroup gid g
      .done (if accs.isEmpty then s.finishMem op o else s) .seq causes

/-- LD (R204). -/
def execLd (d : Reg) (b : BitVec 5) (sz : MemSize) (vi : Reg) (s : State) : Res :=
  issue (.ld d b sz vi) (loadEff d b sz (fun g i => g.src vi 0 i) 0 fun _ => none) s

/-- LDL (R204). -/
def execLdl (d : Reg) (b : BitVec 5) (sz : MemSize) (vi : Reg) (off : BitVec 24) (s : State) : Res :=
  issue (.ldl d b sz vi off) (loadEff d b sz (fun g i => g.src vi 0 i) off.toInt fun _ => none) s

/-- SLD (R204). -/
def execSld (d : Reg) (b : BitVec 5) (sz : MemSize) (n : BitVec 8) (s : State) : Res :=
  issue (.sld d b sz n) (loadEff d b sz (fun _ _ => n.zeroExtend 32) 0 fun _ => none) s

/-- LDX (R240): in the context that a scalar names. -/
def execLdx (d : Reg) (b : BitVec 5) (sz : MemSize) (vi : Reg) (k : BitVec 6) (off : BitVec 18) (s : State) : Res :=
  issue (.ldx d b sz vi k off) (loadEff d b sz (fun g i => g.src vi 0 i) off.toInt fun g =>
    some (bitsOf (g.sval (.s (Fin.ofNat 64 k.toNat)) 0).toNat 0 16)) s

/-! ### Stores -/

/-- The bytes a store writes in a line, by place, the highest lane's winning (R201). -/
def lineBytes (line : Nat) (accs : List LaneAcc) : Tab Byte :=
  accs.foldl (fun t a =>
    if lineOf a.off = line then
      (List.range a.data.length).foldl (fun t k => Tab.set t (a.off % 64 + k) (a.data.getD k 0#8)) t
    else t) []

/-- Whether a queue line holds one of some bytes of an object's line. -/
def SfqLine.shares (e : SfqLine) (job obj line : Nat) (bytes : Tab Byte) : Bool :=
  e.job = job && e.obj = obj && e.off = line && bytes.any fun b => Tab.has e.bytes b.1

/-- The queue lines a group's loads were forwarded from that hold one of some bytes (R250). -/
def State.readFrom (s : State) (gid job obj line : Nat) (bytes : Tab Byte) : List Nat :=
  (((Tab.get? s.groups gid).map Group.fwd).getD []).filter fun id =>
    ((Tab.get? s.ops.sfq id).map fun e => e.shares job obj line bytes).getD false

/-- The lines of a store enter the core's store-forwarding queue (R203), behind the stores its group has read there
(R250). -/
def State.enqueue (s : State) (op : Nat) (o : MemOp) : List (Nat × Nat) → State
  | [] => s
  | (line, phys) :: ls =>
    let (id, s) := s.fresh
    let bytes := lineBytes line o.accs
    let e : SfqLine :=
      { op := op, group := o.group, core := o.core, job := o.job, launch := o.launch, tag := o.tag, tagged := o.tagged
        obj := o.obj, off := line, phys := phys, bytes := bytes, waiting := false
        after := s.readFrom o.group o.job o.obj line bytes }
    (s.setOps { s.ops with sfq := Tab.set s.ops.sfq id e }).enqueue op o ls

/-- The store of R204 by its parts. -/
def storeEff (d : Reg) (b : BitVec 5) (sz : MemSize) (vi : Reg) (off : Int) (s : State) (gid : Nat) (g : Group)
    (_cl : Clause) : Eff :=
  if g.exec == 0#64 then idleOp cST s gid g
  else
    s.access gid g b.toNat (maskList g.exec) false (fun i => g.src vi 0 i) off sz.bytes rWrite cST none true
      fun s g dd p ps =>
        let obj := (dd.map Desc.obj).getD 0
        let data := fun i => natToBytes
          (sumNat ((List.range sz.regs).map fun k => (g.src d k i).toNat * 2 ^ (32 * k))) sz.bytes
        let accs := p.accs.map fun a => (⟨a.1, a.2, physIn ps a.2, data a.1, [], false, false⟩ : LaneAcc)
        let o : MemOp :=
          { group := gid, core := g.core, job := s.jobOf g, launch := g.launch, kind := .store, size := sz, dst := none
            tag := g.lanes.ctag.toNat, rtag := g.lanes.ctag.toNat, tagged := (dd.map Desc.tagged).getD false
            ldx := false, handler := g.inHandler, obj := obj, accs := accs, zero := [], lines := ps.map Prod.fst, all := ps.map Prod.fst, cls := cST }
        let causes := s.watchLanes g wStore obj accs sz.bytes
        let (op, s, g) := s.startMem g o []
        let s := (s.setGroup gid g).enqueue op o ps
        .done (if accs.isEmpty then s.finishMem op o else s) .seq causes

/-- ST (R204). -/
def execSt (d : Reg) (b : BitVec 5) (sz : MemSize) (vi : Reg) (s : State) : Res :=
  issue (.st d b sz vi) (storeEff d b sz vi 0) s

/-- STL (R204). -/
def execStl (d : Reg) (b : BitVec 5) (sz : MemSize) (vi : Reg) (off : BitVec 24) (s : State) : Res :=
  issue (.stl d b sz vi off) (storeEff d b sz vi off.toInt) s

/-! ### Atomics and reductions -/

/-- AtomOp (R179) on operands of the type's width. -/
def atomOp (op : AtomOp) (ty : AtomTy) (old v c : Nat) : Nat :=
  let w := 8 * ty.bytes
  match op with
  | .add => (old + v) % 2 ^ w
  | .min =>
    match ty with
    | .f32 => (fp32.minCode old v).1
    | .i32 => if signedOf v 32 < signedOf old 32 then v else old
    | .ui32 | .b64 => min old v
  | .max =>
    match ty with
    | .f32 => (fp32.maxCode old v).1
    | .i32 => if signedOf old 32 < signedOf v 32 then v else old
    | .ui32 | .b64 => max old v
  | .and => old &&& v
  | .or => old ||| v
  | .xor => old ^^^ v
  | .exch => v
  | .cas => if old = c then v else old
  | .fadd => (addEven old v).1

/-- The value and compare operands of a lane (R51, R179). -/
def Group.atomData (g : Group) (val : Reg) (op : AtomOp) (ty : AtomTy) (lane : Nat) : List Byte :=
  (List.range (if op = .cas then 2 * ty.regs else ty.regs)).flatMap fun k => natToBytes (g.src val k lane).toNat 4

/-- ATOM and RED (R205) by their parts: `dst` is ATOM's destination. -/
def atomEff (dst : Option Reg) (b : BitVec 5) (vi : Reg) (aop : AtomOp) (ord : Order) (ty : AtomTy) (scope : Scope)
    (val : Reg) (s : State) (gid : Nat) (g : Group) (_cl : Clause) : Eff :=
  let cls := if dst.isSome then cLD else cST
  if g.exec == 0#64 then idleOp cls s gid g
  else
    s.access gid g b.toNat (maskList g.exec) false (fun i => g.src vi 0 i) 0 ty.bytes rAtomic cls none true
      fun s g dd p ps =>
        let obj := (dd.map Desc.obj).getD 0
        let accs := p.accs.map fun a => (⟨a.1, a.2, physIn ps a.2, g.atomData val aop ty a.1, [], false, false⟩ : LaneAcc)
        let o : MemOp :=
          { group := gid, core := g.core, job := s.jobOf g, launch := g.launch
            kind := .atomic aop ty dst.isSome ord scope, size := ty.size, dst := dst.map g.physReg
            tag := g.lanes.ctag.toNat, rtag := g.lanes.ctag.toNat, tagged := (dd.map Desc.tagged).getD false
            ldx := false, handler := g.inHandler, obj := obj, accs := accs, zero := p.zero.filter fun i => !g.helpers.getLsbD i, lines := ps.map Prod.fst
            all := ps.map Prod.fst, cls := cls }
        let causes := s.watchLanes g wAtomic obj accs ty.bytes
        let regs := (dst.map fun d => g.pregs d ty.regs).getD []
        let (op, s, g) := s.startMem g o regs
        let s := s.setGroup gid (if ord.acquires then { g with hold := some op } else g)
        .done (if accs.isEmpty then s.finishMem op o else s) .seq causes

/-- ATOM (R205). -/
def execAtom (d : Reg) (b : BitVec 5) (vi : Reg) (op : AtomOp) (ord : Order) (ty : AtomTy) (scope : Scope) (val : Reg)
    (s : State) : Res :=
  issue (.atom d b vi op ord ty scope val) (atomEff (some d) b vi op ord ty scope val) s

/-- RED (R205). -/
def execRed (b : BitVec 5) (vi : Reg) (op : AtomOp) (ord : Order) (ty : AtomTy) (scope : Scope) (val : Reg)
    (s : State) : Res :=
  issue (.red b vi op ord ty scope val) (atomEff none b vi op ord ty scope val) s

/-! ### Performance at the homes -/

/-- The stack, and so the controller, of a physical address (R195). -/
def stackOf (phys : Nat) : Nat := phys / (48 * 2 ^ 30)

/-- A cluster's budget at a stack in lines (R399); 1,024 until firmware sets it. -/
def Cluster.budget (c : Cluster) (stack : Nat) : Nat := Tab.getD c.meter stack 1024

/-- The budgets of a metering window that has begun (R399, R400). -/
def Cluster.roll (c : Cluster) (window : Nat) : Cluster :=
  if c.window = window then c else { c with window := window, spent := [] }

/-- An operation is outstanding. -/
def State.inFlight (s : State) (id : Nat) : Bool :=
  Tab.has s.ops.mem id || Tab.has s.ops.sfq id || Tab.has s.ops.copies id

/-- A copy command that a line has ended moves no further one (R270). -/
def State.copyFaulted (s : State) (id : Nat) : Bool := ((Tab.get? s.ops.copies id).bind CopyCmd.code).isSome

/-- The lines that wait at a stack's arbiter, those of operations that are gone and of copies that have ended apart. -/
def State.arbiter (s : State) (c : Cluster) (stack : Nat) : List (Nat × Nat) :=
  (Tab.getD c.arb stack []).filter fun k => s.inFlight k.1 && !s.copyFaulted k.1

/-- The lines that wait at a stack's arbiter become these. -/
def Cluster.setQueue (c : Cluster) (stack : Nat) (q : List (Nat × Nat)) : Cluster :=
  { c with arb := if q.isEmpty then Tab.del c.arb stack else Tab.set c.arb stack q }

/-- A line waits at the arbiter no more. -/
def State.unqueue (s : State) (core phys id line : Nat) : State :=
  s.updCluster (clusterOf core) fun c =>
    c.setQueue (stackOf phys) ((s.arbiter c (stackOf phys)).filter fun k => k ≠ (id, line))

/-- The accesses of an operation not yet sampled or performed. -/
def MemOp.undone (o : MemOp) : List LaneAcc :=
  match o.kind with
  | .load => o.accs.filter fun a => o.lines.contains (lineOf a.off)
  | .atomic _ _ _ _ _ => o.accs.filter fun a => !a.performed
  | .store | .value => []

/-- Whether two byte ranges share a byte. -/
def overlap (a n b m : Nat) : Bool := decide (a < b + m) && decide (b < a + n)

/-- An earlier access of the group to some of the bytes is not performed yet (R250). -/
def State.elder (s : State) (gid op obj off n : Nat) : Bool :=
  s.ops.mem.any fun e => e.2.group = gid && decide (e.1 < op) && e.2.obj = obj &&
    e.2.undone.any fun a => overlap a.off e.2.size.bytes off n

/-- The lines of a load's core's queue that hold a byte of it, oldest first. -/
def State.holders (s : State) (o : MemOp) (a : Nat) : List (Nat × SfqLine) :=
  s.ops.sfq.filter fun e => e.2.core = o.core && e.2.shares o.job o.obj (lineOf a) [(a % 64, 0#8)]

/-- Whether a queue line is a later store of the load's own group. -/
def laterOwn (op : Nat) (o : MemOp) (e : Nat × SfqLine) : Bool := e.2.group = o.group && decide (op < e.2.op)

/-- The queue line a load's byte comes from (R203, R225): the newest of its core that holds it and stands before every
store that its own group issued later (R250). DEDUCED (assumption log 50). -/
def State.forwardLine (s : State) (op : Nat) (o : MemOp) (a : Nat) : Option (Nat × SfqLine) :=
  ((s.holders o a).takeWhile fun e => !laterOwn op o e).getLast?

/-- An access's byte stands in the queue of a core its group was moved off before: it waits there until it is
acknowledged (R250). -/
def State.leftBehind (s : State) (o : MemOp) (a : Nat) : Bool :=
  (((Tab.get? s.groups o.group).map Group.behind).getD []).any fun id =>
    ((Tab.get? s.ops.sfq id).map fun e => e.core ≠ o.core && e.shares o.job o.obj (lineOf a) [(a % 64, 0#8)]).getD
      false

/-- Queue line `id` reaches its home after another. -/
def State.orderAfter (s : State) (id other : Nat) : State :=
  if id = other then s
  else s.setOps { s.ops with sfq := Tab.upd s.ops.sfq id fun e => { e with after := dedup (e.after ++ [other]) } }

/-- A load's byte is forwarded from line `src`: what its group wrote there before or read there before comes before
`src` at the home, and what it writes there later comes after it (R250). -/
def State.orderForward (s : State) (op : Nat) (o : MemOp) (src a : Nat) : State :=
  let hs := s.holders o a
  let fwd := ((Tab.get? s.groups o.group).map Group.fwd).getD []
  let s := (hs.filter fun e => decide (e.1 < src) && (e.2.group = o.group || fwd.contains e.1)).foldl
    (fun (s : State) e => s.orderAfter src e.1) s
  (hs.filter (laterOwn op o)).foldl (fun (s : State) e => s.orderAfter e.1 src) s

/-- A queued store that the load may not be forwarded from: the load waits for it (R225, R240). -/
def barsForward (o : MemOp) (e : SfqLine) : Bool := e.tag ≠ o.tag && (e.tagged || o.tagged || o.ldx)

/-- Whether a store line may reach its home: its group's earlier stores to the line have, the lines that come before it,
and its group's earlier accesses to its bytes are performed (R249, R250). DEDUCED (assumption log 50). -/
def State.lineReady (s : State) (id : Nat) (e : SfqLine) : Bool :=
  e.after.all (fun l => !Tab.has s.ops.sfq l) &&
  s.ops.sfq.all (fun x => !(decide (x.1 < id) && x.2.group = e.group && x.2.job = e.job && x.2.obj = e.obj &&
    x.2.off = e.off)) &&
  e.bytes.all fun b => !s.elder e.group e.op e.obj (e.off + b.1) 1

/-- A line of a load waits for others: for earlier accesses of its group to its bytes, for a queued store it may not be
forwarded from, or for stores left behind (R250). -/
def State.loadBarred (s : State) (op : Nat) (o : MemOp) (line : Nat) : Bool :=
  let mine := o.accs.filter fun a => lineOf a.off = line
  let offs := mine.flatMap fun a => (List.range o.size.bytes).map fun k => a.off + k
  mine.any (fun a => s.elder o.group op o.obj a.off o.size.bytes) ||
    offs.any fun a => s.leftBehind o a || ((s.forwardLine op o a).map fun e => barsForward o e.2).getD false

/-- The release half of an atomic is met for the accesses of its group before it (R253). -/
def State.releaseBefore (s : State) (gid op : Nat) (sc : Scope) : Bool :=
  let before := s.ops.mem.filter fun e => e.2.group = gid && decide (e.1 < op)
  if Scope.far sc then
    before.isEmpty && (match Tab.get? s.groups gid with
      | some g => g.fwd.all fun l => match Tab.get? s.ops.sfq l with
        | some e => e.group = gid && decide (op < e.op)
        | none => true
      | none => true)
  else before.all fun e => !e.2.nearOpen

/-- A lane of an atomic or reduction may be performed (R203, R205, R250, R253). -/
def State.atomicReady (s : State) (op : Nat) (o : MemOp) (ord : Order) (scope : Scope) (a : LaneAcc) (n : Nat) : Bool :=
  !(o.accs.any fun x => x.off = a.off && decide (x.lane < a.lane) && !x.performed) &&
  !s.elder o.group op o.obj a.off n &&
  s.ops.sfq.all (fun e => !(e.2.core = o.core && decide (e.1 < op) && e.2.job = o.job && e.2.obj = o.obj &&
    e.2.off = lineOf a.off)) &&
  (s.readFrom o.group o.job o.obj (lineOf a.off) ((List.range n).map fun k => (a.off % 64 + k, 0#8))).isEmpty &&
  !((List.range n).any fun k => s.leftBehind o (a.off + k)) &&
  (!ord.releases || s.releaseBefore o.group op scope)

/-- The group of a command, if one issued it. -/
def CopyOwner.group : CopyOwner → Option Nat
  | .scalar g _ => some g
  | .raw g _ _ => some g
  | .program _ _ => none

/-- The accesses that a group issued before an engine command are performed, and so are the stores that an acquire before
the command made visible to it in its core's queue (R255). DEDUCED (assumption log 50). -/
def State.engineOrdered (s : State) (gid id : Nat) : Bool :=
  s.ops.mem.all (fun e => e.2.group ≠ gid || decide (id < e.1) || e.2.undone.isEmpty) &&
    s.ops.sfq.all (fun e => e.2.group ≠ gid || decide (id < e.2.op)) &&
    (((Tab.get? s.groups gid).map Group.seen).getD []).all fun l => decide (id < l) || !Tab.has s.ops.sfq l

/-- The same for a command that a group or a bundle's copy program issued. -/
def State.ownerOrdered (s : State) (id : Nat) (o : CopyOwner) : Bool :=
  match o.group with
  | none => true
  | some g => s.engineOrdered g id

/-- A line at the arbiter that waits for other lines too, which may stand behind it: it keeps its place and holds up none
(R400). An atomic's lane and a copy may have come to wait after they queued, for a line that a later load was forwarded from
(R250) or that a later acquire made visible (R255). DEDUCED (assumption log 27). -/
def State.lineHeld (s : State) (k : Nat × Nat) : Bool :=
  match Tab.get? s.ops.sfq k.1, Tab.get? s.ops.mem k.1, Tab.get? s.ops.copies k.1 with
  | some e, _, _ => !s.lineReady k.1 e
  | none, some o, _ =>
    (match o.kind with
     | .load => s.loadBarred k.1 o k.2
     | .atomic _ ty _ ord sc => o.accs.all fun a =>
         lineOf a.off ≠ k.2 || a.performed || !s.atomicReady k.1 o ord sc a ty.bytes
     | .store | .value => false)
  | none, none, some c => !s.ownerOrdered k.1 c.owner
  | none, none, none => false

/-- Line `line` of operation `id` of a core reaches its stack's arbiter (R399, R400): whether it is granted, charged to
its cluster's budget of the window; else it waits there, behind those that came before it
and wait for nothing else. Die copy engines are not
metered. DEDUCED (assumption log 27). -/
def State.charge (s : State) (core phys id line : Nat) : Bool × State :=
  let st := stackOf phys
  match if 128 ≤ core then none else Tab.get? s.clusters (clusterOf core) with
  | none => (true, s)
  | some c0 =>
    let c := c0.roll (s.now / 1000)
    let q := s.arbiter c st
    let n := Tab.getD c.spent st 0
    if ((q.find? fun k => !s.lineHeld k).all fun k => k = (id, line)) && decide (n < c.budget st) then
      (true, s.updCluster (clusterOf core) fun _ =>
        { c with spent := Tab.set c.spent st (n + 1) }.setQueue st (q.filter fun k => k ≠ (id, line)))
    else
      (false, s.updCluster (clusterOf core) fun _ =>
        c.setQueue st (if q.contains (id, line) then q else q ++ [(id, line)]))

/-- One line of a load is read (R249): each byte from its core's queue or at its home. -/
def State.sampleLine (s : State) (op : Nat) (o : MemOp) (line : Nat) : State :=
  let mine := o.accs.filter fun a => lineOf a.off = line
  let n := o.size.bytes
  let offs := mine.flatMap fun a => (List.range n).map fun k => a.off + k
  let srcs := offs.filterMap fun a => (s.forwardLine op o a).map fun e => (e, a)
  if mine.isEmpty || !o.lines.contains line || s.loadBarred op o line then s
  else
    let byte := fun (a : LaneAcc) k => match s.forwardLine op o (a.off + k) with
      | some e => Tab.getD e.2.bytes ((a.off + k) % 64) 0#8
      | none => s.ctxByte o.job o.tagged o.rtag o.obj (a.off + k) (a.phys + k)
    let accs := o.accs.map fun a =>
      if lineOf a.off = line then { a with got := (List.range n).map (byte a) } else a
    let o' := { o with accs := accs, lines := o.lines.filter fun l => l ≠ line }
    let phys := (mine.head?.map fun a => a.phys - a.off % 64).getD 0
    match if srcs.length = offs.length then (true, s.unqueue o.core phys op line) else s.charge o.core phys op line with
    | (false, s) => s
    | (true, s) =>
      let s := srcs.foldl (fun (s : State) e => s.orderForward op o e.1.1 e.2) s
      let s := s.updGroup o.group fun g => { g with fwd := dedup (g.fwd ++ srcs.map fun e => e.1.1) }
      if o'.lines.isEmpty then s.finishMem op o'
      else s.setOps { s.ops with mem := Tab.set s.ops.mem op o' }

/-- A value that no counter counts lands (R36). -/
def State.landVal (s : State) (op : Nat) (v : ValOp) : State :=
  let s := s.updGroup v.group fun g => (v.writes.foldl (fun g w => g.landResult op w) g).clearPend op
  s.setOps { s.ops with vals := Tab.del s.ops.vals op }

/-- LOAD_RETURN (R243): a line of a load is read, or an operation's value lands, in the image of a swapped group or a trap
save area too (R187). -/
def State.loadReturn (s : State) (op line : Nat) : State :=
  match Tab.get? s.ops.mem op with
  | some o =>
    match o.kind with
    | .load => s.sampleLine op o line
    | .store => s
    | .value => s.finishMem op o
    | .atomic _ _ ret _ _ => if ret && o.accs.all LaneAcc.performed then s.finishMem op o else s
  | none =>
    match Tab.get? s.ops.vals op with
    | some v => s.landVal op v
    | none => s

def execLoadReturn (op line : Nat) (s : State) : Res :=
  .next (s.landing (s.loadReturn op line) fun _ => false)

/-- A store line is acknowledged (R203, R243). -/
def State.ackLine (s : State) (id : Nat) (e : SfqLine) : State :=
  let s := s.setOps { s.ops with sfq := Tab.del s.ops.sfq id }
  let s := s.setKennel { s.kennel with waits := s.kennel.waits.filter fun w => w ≠ id }
  match Tab.get? s.ops.mem e.op with
  | none => s
  | some o =>
    let o' := { o with lines := o.lines.filter fun l => l ≠ e.off }
    if o'.lines.isEmpty then s.finishMem e.op o'
    else s.setOps { s.ops with mem := Tab.set s.ops.mem e.op o' }

/-- LINE_ARRIVE_HOME (R249): a store line takes its place in the coherence order, or waits for a cell (R227). -/
def State.lineArrive (s : State) (id : Nat) : State :=
  match Tab.get? s.ops.sfq id with
  | none => s
  | some e =>
    if !s.lineReady id e then s
    else match if e.waiting then (true, s) else s.charge e.core e.phys id e.off with
      | (false, s) => s
      | (true, s) =>
        match s.ctxWrite e.job e.launch e.tagged e.tag e.obj e.off e.phys e.bytes e.waiting with
        | some s => s.ackLine id e
        | none =>
          if e.waiting then s
          else (s.setOps { s.ops with sfq := Tab.set s.ops.sfq id { e with waiting := true } }).setKennel
            { s.kennel with waits := s.kennel.waits ++ [id] }

def execLineArriveHome (line : Nat) (s : State) : Res := .next (s.lineArrive line)

/-- Another core's watchpoints on a performed atomic (R370), a trap handler's own apart (R358): reports that fall due
within 2 µs. -/
def State.remoteReports (s : State) (o : MemOp) (off n : Nat) : State :=
  if o.handler then s
  else (s.cores.filter fun c => c.1 ≠ o.core).foldl (fun s c =>
    let hits := s.watchHits c.1 o.job wRemote o.obj off n
    (dedup (hits.map fun h => h.2.1)).foldl (fun s rg =>
      let mine := hits.filter fun h => h.2.1 = rg
      let r : Report := ⟨0x14, o.core * 2 ^ 16 + unitMask (mine.map Prod.fst), o.obj,
        (mine.head?.map fun h => h.2.2).getD 0, none, 0, s.now + 2000, 0, 0, false⟩
      s.updGroup rg fun g => g.report r) s) s

/-- A lane's atomic happens at its home (R205, R224, R233): none where it waits for a cell. The old bytes and the state
with the new ones. -/
def State.atomicAt (s : State) (o : MemOp) (aop : AtomOp) (ty : AtomTy) (a : LaneAcc) : Option (List Byte × State) :=
  let n := ty.bytes
  let old := s.ctxBytes o.job o.tagged o.rtag o.obj a.off a.phys n
  let new := natToBytes
    (atomOp aop ty (bytesToNat old) (bytesToNat (a.data.take n)) (bytesToNat (a.data.drop n))) n
  let bytes := (List.range n).map fun k => (a.off % 64 + k, new.getD k 0#8)
  let line := lineOf a.off
  let phys := a.phys - a.off % 64
  if o.tagged && o.tag ≠ 0 && (a.waits || s.tagLive o.job o.tag) then
    match s.atomicCell o.job o.tag o.obj line phys with
    | none => none
    | some s => (s.ctxWrite o.job o.launch o.tagged o.tag o.obj line phys bytes a.waits).map fun s => (old, s)
  else (s.ctxWrite o.job o.launch o.tagged o.tag o.obj line phys bytes a.waits).map fun s => (old, s)

/-- One lane of an operation changed. -/
def MemOp.updLane (o : MemOp) (lane : Nat) (f : LaneAcc → LaneAcc) : MemOp :=
  { o with accs := o.accs.map fun x => if x.lane = lane then f x else x }

/-- ATOMIC_PERFORM (R205): one lane of an atomic or reduction. -/
def State.atomicPerform (s : State) (op lane : Nat) : State :=
  match Tab.get? s.ops.mem op with
  | none => s
  | some o =>
    match o.kind, o.accs.find? fun a => a.lane = lane && !a.performed with
    | .atomic aop ty ret ord scope, some a =>
      let charged := o.accs.any fun x => lineOf x.off = lineOf a.off && (x.performed || x.waits)
      if !a.waits && !s.atomicReady op o ord scope a ty.bytes then s
      else match if charged then (true, s) else s.charge o.core a.phys op (lineOf a.off) with
      | (false, s) => s
      | (true, s) =>
        match s.atomicAt o aop ty a with
        | none =>
          let o' := o.updLane lane fun x => { x with waits := true }
          let ws := if s.kennel.waits.contains op then s.kennel.waits else s.kennel.waits ++ [op]
          (s.setOps { s.ops with mem := Tab.set s.ops.mem op o' }).setKennel { s.kennel with waits := ws }
        | some (old, s) =>
          let o1 := o.updLane lane fun x => { x with got := old, performed := true, waits := false }
          let o' := { o1 with lines := dedup ((o1.accs.filter fun x => !x.performed).map fun x => lineOf x.off) }
          let ws := if o'.accs.any LaneAcc.waits then s.kennel.waits else s.kennel.waits.filter fun w => w ≠ op
          let s := s.setKennel { s.kennel with waits := ws }
          let s := if ord.releases then s.released o.group scope else s
          let s := s.remoteReports o a.off ty.bytes
          if o'.lines.isEmpty && !ret then s.finishMem op o'
          else s.setOps { s.ops with mem := Tab.set s.ops.mem op o' }
    | _, _ => s

def execAtomicPerform (op lane : Nat) (s : State) : Res := .next (s.atomicPerform op lane)

/-! ### Records and fences -/

/-- BSET (R206). -/
def execBset (a : Reg) (b : BitVec 5) (s : State) : Res :=
  issue (.bset a b) (fun s gid g _ =>
    if g.active == 0#64 then doneG s gid g .seq
    else doneG s gid { g with
      b := (List.range 4).foldl (fun t k => Tab.set t (4 * b.toNat + k) (g.sval a k)) g.b } .seq) s

/-- BGET (R206). -/
def execBget (d : Reg) (b : BitVec 5) (s : State) : Res :=
  issue (.bget d b) (fun s gid g _ =>
    let ws := (List.range 4).flatMap fun k => g.dest d k fun _ => g.recWord b.toNat k
    let (s, g) := s.sendVals gid g ws
    doneG s gid g .seq) s

/-- FENCE (R252): the group waits here until the effect is met. -/
def execFence (ord : Order) (scope : Scope) (s : State) : Res :=
  issue (.fence ord scope) (fun s gid g _ =>
    if g.exec == 0#64 then doneG s gid g .seq
    else if s.fenceMet gid g ord scope then .done ((s.setGroup gid g).ordered gid ord scope) .seq []
    else .wait) s

/-- A descriptor of the tensor table as memory has it. -/
def State.tableWords (s : State) (job t : Nat) : List Word :=
  bytesToWords (s.hbmRead (((Tab.get? s.work.jobs job).map Job.tensorTable).getD 0 + 64 * t) 64)

/-- Every launch of a view's job has started once a bundle's start had acquired it (R382). -/
def State.shownToAll (s : State) (v : View) : Bool :=
  s.work.launches.all fun e => e.2.job ≠ v.job || e.2.retired || v.shown.any fun n => decide (n ≤ e.1)

/-- A view still stands (R207, R210): no store has changed its descriptor since TDVIEW wrote the newest one of its tensor,
and some launch of the job may see neither it nor a newer one. -/
def State.viewStands (s : State) (v : View) : Bool :=
  let same := s.views.filter fun x => x.job = v.job && x.tensor = v.tensor
  (same.getLast?.map View.words) = some (s.tableWords v.job v.tensor) &&
    same.all fun x => decide (x.op < v.op) || !s.shownToAll x

/-- Every extent cache entry and held descriptor of a job goes: on all dies, and in the hub's request paths at .sys (R207,
R382). A descriptor that a store has changed since is read as it stands in memory, by its TDVIEW's maker too.
DEDUCED (assumption log 29). -/
def State.invalidate (s : State) (job : Nat) (sc : Scope) : State :=
  { s with
    views := s.views.filter fun v => v.job ≠ job || s.viewStands v
    dies := Tab.mapVals s.dies fun k d =>
      if k = hubPath && sc ≠ .sys then d
      else { d with
        extents := d.extents.filter fun e => e.1.1 ≠ job
        descs := d.descs.filter fun e => e.1.1 ≠ job } }

/-- TFENCE (R207): waits until the group's stores and atomics are acknowledged, then invalidates at its scope. -/
def execTfence (scope : Scope) (s : State) : Res :=
  issue (.tfence scope) (fun s gid g _ =>
    if g.active == 0#64 then doneG s gid g .seq
    else if s.ops.mem.any (fun e => e.2.group = gid && !e.2.lines.isEmpty && e.2.kind ≠ .load) then .wait
    else .done ((s.invalidate (s.jobOf g) scope).setGroup gid g) .seq []) s

/-- METERING_WINDOW (R399, R400): a window of 1 µs begins at a multiple of 1,000 in sr.tick, and the clusters' line
budgets are renewed. A line that arrives before this event in the window is charged to the window too. -/
def execMeteringWindow (s : State) : Res :=
  .next { s with
    clusters := Tab.mapVals s.clusters fun _ c => c.roll (s.now / 1000)
    hub := { s.hub with lastWindow := s.now / 1000 } }

end Sys2Proof.Machine
end

