-- ==== Sys2Proof/Machine/Residency.lean ====
section
/-!
DEFINITION. Clause issue (R28 to R31, R89, R90, R94) and the residency of groups: admission, swapping, the active
set and the freeing of a completed group (R107, R116 to R122, R321).
-/

namespace Sys2Proof.Machine

/-! ### Clause issue -/

/-- The lanes of a mask that stand at an address. -/
def Group.lanesAt (g : Group) (m : Mask) (a : Nat) : Mask := m &&& maskOf fun i => m.getLsbD i && g.lpcOf i = a

/-- The issue address (R89): the repeat address, the lowest lane past the age limit, or the least lpc. Where more addresses
are in use than sr.agelimit + 1, R96's promise and this rule cannot both hold, and the model follows R89:
DESIGN CHOICE (assumption log 60). -/
def Group.issueAddr (g : Group) : Option Nat :=
  let el := maskList g.lanes.active
  if g.lanes.rep ≠ 0 && el.any fun i => g.lpcOf i = g.lanes.repAddr then some g.lanes.repAddr
  else match el.find? fun i => decide (g.lanes.agelimit ≤ g.lageOf i) with
    | some i => some (g.lpcOf i)
    | none => (el.map g.lpcOf).min?

/-- A repeat that no eligible lane stands at is abandoned (R89). DEDUCED (assumption log 24). -/
def Group.dropRepeat (g : Group) : Group :=
  if g.lanes.rep ≠ 0 && !(maskList g.lanes.active).any fun i => g.lpcOf i = g.lanes.repAddr then
    { g with lanes := { g.lanes with rep := 0, repN := 0 } }
  else g

/-- A malformed header (R29, R30). Of a data clause's header R31 ignores the guard bits, so it raises its branch-target
fault whatever they hold. DEDUCED (assumption log 24). -/
def badHeader (h : Word) : Bool :=
  bitsOf h.toNat 28 4 ≠ 0xB || hdrN h = 0 || hdrClass h = 7 ||
    (hdrClass h != 6 && !h.getLsbD 20 && bitsOf h.toNat 15 5 ≠ 0)

/-- The lanes whose guard is true (R29). -/
def Group.guard (g : Group) (h : Word) : Mask :=
  if h.getLsbD 20 then (if h.getLsbD 19 then ~~~(g.rdP (hdrPred h)) else g.rdP (hdrPred h)) else 0xFFFFFFFFFFFFFFFF#64

/-- Ages after a clause issue (R94): served lanes 0, other eligible lanes one more, up to 4,095. -/
def ageLanes (l : LaneState) (served : Mask) : LaneState :=
  { l with lage := (maskList l.active).foldl (fun t i =>
      if served.getLsbD i then Tab.del t i else Tab.set t i (min 4095 (Tab.getD t i 0 + 1))) l.lage }

/-- The stall the header asks for in the group's mode (R28, R38). -/
def State.stallOf (s : State) (g : Group) (h : Word) : Nat := if s.native g then hdrStall h else 0

/-- A trapped group of the job holds the group at its clause boundary for a debug access (R373). -/
def State.wanted (s : State) (g : Group) : Bool :=
  g.clause.isNone && ((g.wantedBy.bind fun k => Tab.get? s.groups k).map fun h =>
    h.inHandler && h.clause.isSome && h.res != .saved).getD false

/-- Whether a group may issue clauses at all: it is alive, has no sleep to wait out, no trap still to enter, and is not
being saved or held for a debug access (R103, R170, R373, R375). Recovery groups run on while their job drains
(R332). -/
def State.mayIssue (s : State) (g : Group) : Bool :=
  !g.done && g.sleep.isNone && !s.wanted g && (match g.trap with
    | some f => f.area.isSome
    | none => true) &&
  (g.recov.isSome || (!g.frozen && (match Tab.get? s.work.jobs (s.jobOf g) with
    | some j => j.slice = .running
    | none => false)))

/-- The clause at an address that has passed every wait begins (R29, R90, R94): guard, ages, and the stall's issue
slots (R35). -/
def Group.begin_ (g : Group) (a : Nat) (h : Word) (stall : Nat) : Group :=
  let g := { g with slot := g.slot + stall }.landDue
  let served := g.lanesAt g.lanes.active a
  { g with
    clause := some ⟨a, h, 1, served &&& g.guard h, served, 0, false⟩
    lanes := ageLanes g.lanes served, stallWait := none }

/-- The groups of a slice's active set. -/
def State.activeOf (s : State) (core sl : Nat) : List Nat :=
  ((Tab.get? s.slices (sliceKey core sl)).map Slice.active).getD []

/-- CLAUSE_ISSUE (R89): the group's next clause issues, or its header raises a trap, or the group waits. Only a held
group of the active set issues (R122). -/
def State.clauseIssue (s : State) (gid : Nat) : State :=
  match Tab.get? s.groups gid with
  | none => s
  | some g0 =>
    if !s.mayIssue g0 || g0.clause.isSome || g0.res != .held || !(s.activeOf g0.core g0.slice).contains gid then s.notIssued
    else
      let g := g0.dropRepeat
      match g.issueAddr with
      | none => s.notIssued
      | some a =>
        let h := s.codeWord g a
        let served := g.lanesAt g.lanes.active a
        let cl : Clause := ⟨a, h, 0, served, served, 0, false⟩
        if badHeader h then (s.setGroup gid g).raise gid cl (.plain 0x01) 0 0 true
        else if hdrClass h = 6 then (s.setGroup gid g).raise gid cl (.withDetail 0x05 a) 0 0 true
        else if !g.thresholds h || (h.getLsbD 20 && g.isPend (.p (hdrPred h))) ||
            (s.stallOf g h ≠ 0 && g.stallWait ≠ some 0) then s.notIssued
        else s.setGroup gid (g.begin_ a h (s.stallOf g h))

/-- The group at its next clause's header (R89): the clause as a trap there records it, and the group as if the clause
issued now, whatever it waits for. None where there is no such clause. -/
def State.headerOf (s : State) (gid : Nat) : Option (Group × Clause × Group) :=
  match Tab.get? s.groups gid with
  | none => none
  | some g0 =>
    if !s.mayIssue g0 || g0.clause.isSome then none
    else
      let g := g0.dropRepeat
      g.issueAddr.bind fun a =>
        let h := s.codeWord g a
        let served := g.lanesAt g.lanes.active a
        if badHeader h || hdrClass h = 6 then none
        else some (g, ⟨a, h, 0, served, served, 0, false⟩, g.begin_ a h (s.stallOf g h))

def execClauseIssue (g : Nat) (s : State) : Res := .next (s.clauseIssue g)

/-- One slice cycle of a header's stall code passes once its thresholds are met (R28).
DEDUCED (assumption log 24). -/
def State.stallTick (s : State) (gid : Nat) : State :=
  match Tab.get? s.groups gid with
  | none => s
  | some g =>
    if !s.mayIssue g || g.clause.isSome then s
    else
      match g.dropRepeat.issueAddr with
      | none => s
      | some a =>
        let h := s.codeWord g a
        if badHeader h || hdrClass h = 6 || !g.thresholds h || s.stallOf g h = 0 then s
        else s.setGroup gid { g with stallWait := some (match g.stallWait with
          | none => s.stallOf g h
          | some k => k - 1) }

/-! ### What the files hold (R116, R119, R121) -/

/-- The vector and scalar units of a group. -/
def Group.vUnits (g : Group) : Nat := (g.vregs + 7) / 8 * (g.width / 8)
def Group.sUnits (g : Group) : Nat := g.sTop / 8

/-- The groups of a slice that are in residence. -/
def State.resident (s : State) (core sl : Nat) : List (Nat × Group) :=
  s.groups.filter fun e => e.2.core = core && e.2.slice = sl && (e.2.res = .held || e.2.res = .swapped)

/-- The free residency places, vector units and scalar units of a slice. -/
def State.freePlaces (s : State) (core sl : Nat) : Nat := 48 - (s.resident core sl).length
def State.freeV (s : State) (core sl : Nat) : Nat :=
  1024 - sumNat (((s.resident core sl).filter fun e => e.2.res = .held).map fun e => e.2.vUnits)
def State.freeS (s : State) (core sl : Nat) : Nat :=
  192 - sumNat (((s.resident core sl).filter fun e => e.2.res = .held).map fun e => e.2.sUnits)

/-- The unbooked room of a core's swap reserve. -/
def State.swapRoom (s : State) (core : Nat) : Nat :=
  ((Tab.get? s.cores core).map Core.reserve).getD 0 -
    sumNat ((s.groups.filter fun e => e.2.core = core && e.2.res = .swapped).map fun e => e.2.image)

/-- The vector units of a recovery group for a region (R322). -/
def regionUnits (regs : Nat) : Nat := (max regs 16 + 7) / 8 * 8

/-- The vector units R321 keeps free on one slice of a core: those of the largest region of the kernels with a group in
residence there (R117), 0 where none has a region. -/
def State.recoveryNeed (s : State) (core : Nat) : Nat :=
  maxNat ((s.groups.filter fun e => e.2.core = core && e.2.recov.isNone && (e.2.res = .held || e.2.res = .swapped)).flatMap fun e =>
    match s.launch? e.2 with
    | some l => l.kernel.regions.map fun r => regionUnits r.regs
    | none => [])

/-- Some slice of the core keeps R321's reserve. DEDUCED (assumption log 35). -/
def State.reserveKept (s : State) (core : Nat) : Bool :=
  s.recoveryNeed core = 0 || (List.range 6).any fun sl =>
    decide (1 ≤ s.freePlaces core sl) && decide (s.recoveryNeed core ≤ s.freeV core sl) && decide (8 ≤ s.freeS core sl)

/-- The registers of a group fit the free units of its slice. -/
def State.fits (s : State) (g : Group) : Bool :=
  decide (g.vUnits ≤ s.freeV g.core g.slice) && decide (g.sUnits ≤ s.freeS g.core g.slice)

/-! ### Residency -/

/-- A group's residency becomes as given, since now. Its image is written anew, or is left: an error in one that stood before
is gone. -/
def State.setRes (s : State) (gid : Nat) (r : Residency) : State :=
  ({ s with bad := s.bad.filter fun b => b ≠ BadLoc.registers gid }).updGroup gid fun g =>
    { g with res := r, since := s.coreCycles g.core, readyCnt := 0, idleCnt := 0 }

/-- GROUP_ADMIT (R117): a placed group is held, or swapped where its units do not fit. One whose units fit only by taking
the reserve of R321 waits, and is not swapped instead. DESIGN CHOICE (assumption log 35). -/
def State.groupAdmit (s : State) (gid : Nat) : State :=
  match Tab.get? s.groups gid with
  | none => s
  | some g =>
    if g.res ≠ .waiting || s.freePlaces g.core g.slice = 0 then s
    else if s.fits g && (g.recov.isSome || (s.setRes gid .held).reserveKept g.core) then s.setRes gid .held
    else if g.image ≤ s.swapRoom g.core && (g.recov.isSome || (s.setRes gid .swapped).reserveKept g.core) &&
        !s.fits g then s.setRes gid .swapped
    else s

def execGroupAdmit (g : Nat) (s : State) : Res := .next (s.moved (s.groupAdmit g))

/-- A group's registers leave the file or the active set: its pending fixed-latency writes complete (R37). -/
def State.settle (s : State) (gid : Nat) : State := s.updGroup gid Group.flush

/-- A group leaves its slice's active set. -/
def State.inactive (s : State) (gid : Nat) (g : Group) : State :=
  s.updSlice (sliceKey g.core g.slice) fun sl => { sl with active := sl.active.filter fun k => k ≠ gid }

/-- The slice's last cycle found the group not ready (R118); a completed group that drains is never ready. -/
def State.idle (s : State) (gid : Nat) (g : Group) : Bool :=
  if (s.activeOf g.core g.slice).contains gid then decide (0 < g.idleCnt) else g.readyCnt = 0

/-- A held group has been stalled for at least sr.swapmin core cycles (R118). -/
def State.stalledLong (s : State) (gid : Nat) (g : Group) : Bool :=
  g.res = .held && s.idle gid g &&
    decide (((Tab.get? s.cores g.core).map Core.swapmin).getD 0 ≤ s.coreCycles g.core - g.since)

/-- A ready swapped group of the slice waits (R119), the oldest-ready first; of several ready equally long the one with
the lowest number. DESIGN CHOICE (assumption log 53). -/
def State.oldestReady (s : State) (core sl : Nat) : Option Nat :=
  let l := (s.resident core sl).filter fun e => e.2.res = .swapped && decide (0 < e.2.readyCnt)
  let m := maxNat (l.map fun e => e.2.readyCnt)
  (l.find? fun e => e.2.readyCnt = m).map Prod.fst

/-- SWAP_OUT (R119): a stalled group's registers go to unbooked room while units are wanted: by a swapped group that is
ready or a group that waits for admission on the slice. DEDUCED (assumption log 53). -/
def State.swapOut (s : State) (gid : Nat) : State :=
  match Tab.get? s.groups gid with
  | none => s
  | some g =>
    let wanted := (s.oldestReady g.core g.slice).isSome ||
      s.groups.any fun e => e.2.core = g.core && e.2.slice = g.slice && e.2.res = .waiting
    if s.stalledLong gid g && wanted && decide (g.image ≤ s.swapRoom g.core) then
      ((s.settle gid).inactive gid g).setRes gid .swapped
    else s

def execSwapOut (g : Nat) (s : State) : Res := .next (s.moved (s.swapOut g))

/-- The held group stalled longest among those stalled for sr.swapmin (R119); of several the one with the lowest
number. DESIGN CHOICE (assumption log 53). -/
def State.longestStalled (s : State) (core sl : Nat) : Option (Nat × Group) :=
  let l := (s.resident core sl).filter fun e => s.stalledLong e.1 e.2
  let m := (l.map fun e => e.2.since).min?.getD 0
  l.find? fun e => e.2.since = m

/-- An uncorrectable error stands in the group's image (R185). -/
def State.badImage (s : State) (gid : Nat) : Bool :=
  s.bad.any fun b => match b with
    | .registers g => g = gid
    | _ => false

/-- An exchange of a group for an incoming one leaves R321's reserve alone: the incoming one may use it, or it takes no
unit that the outgoing one did not hold, so that an exchange of equal images always succeeds (R119). -/
def Group.replaces (g o : Group) : Bool :=
  g.recov.isSome || (o.recov.isNone && decide (g.vUnits ≤ o.vUnits) && decide (g.sUnits ≤ o.sUnits))

/-- A swapped group comes in where its units fit, or exchanges with the held group stalled longest (R119); where the
outgoing group's units and the free ones do not fit it, it waits, and no other held group is tried.
DESIGN CHOICE (assumption log 53). -/
def State.comesIn (s : State) (gid : Nat) (g : Group) : Option State :=
  if s.fits g && (g.recov.isSome || (s.setRes gid .held).reserveKept g.core) then some (s.setRes gid .held)
  else match s.longestStalled g.core g.slice with
    | none => none
    | some (out, o) =>
      let s' := (((s.settle out).inactive out o).setRes out .swapped).setRes gid .held
      if decide (o.image ≤ s.swapRoom g.core + g.image) && decide (g.vUnits ≤ s.freeV g.core g.slice + o.vUnits) &&
          decide (g.sUnits ≤ s.freeS g.core g.slice + o.sUnits) && (g.replaces o || s'.reserveKept g.core) then some s'
      else none

/-- SWAP_IN (R119): the oldest-ready swapped group comes in, where it can; an uncorrectable error that its image meets then
ends the task (R185). -/
def State.swapIn (s : State) (gid : Nat) : State :=
  match Tab.get? s.groups gid with
  | none => s
  | some g =>
    if s.oldestReady g.core g.slice ≠ some gid then s
    else match s.comesIn gid g with
      | none => s
      | some s' => if s.badImage gid then s.killLaunch g.launch stSram else s'

def execSwapIn (g : Nat) (s : State) : Res := .next (s.moved (s.swapIn g))

/-- GROUP_FREE (R107): a completed group's registers, its active-set place and its residency are freed once its
counters are zero and nothing is pending. DEDUCED (assumption log 47). -/
def State.groupFree (s : State) (gid : Nat) : State :=
  match Tab.get? s.groups gid with
  | none => s
  | some g =>
    if g.done && g.quiet && g.pend.isEmpty then
      let s := s.inactive gid g
      { s with groups := Tab.del s.groups gid }
    else s

def execGroupFree (g : Nat) (s : State) : Res := .next (s.groupFree g)

/-- The ready held groups outside a slice's active set. -/
def State.outside (s : State) (core sl : Nat) : List (Nat × Group) :=
  let act := s.activeOf core sl
  (s.resident core sl).filter fun e => e.2.res = .held && !act.contains e.1 && decide (0 < e.2.readyCnt)

/-- ACTIVE_SET_ENTER (R122): the held group ready longest takes a free place, with a wait count of 0, of which no rule speaks
(R103). DESIGN CHOICE (assumption log 53). -/
def State.activeEnter (s : State) (gid : Nat) : State :=
  match Tab.get? s.groups gid with
  | none => s
  | some g =>
    let act := s.activeOf g.core g.slice
    let out := s.outside g.core g.slice
    if act.length < 8 && out.any (fun e => e.1 = gid) && out.all fun e => decide (e.2.readyCnt ≤ g.readyCnt) then
      (s.updGroup gid fun g => { g with readyCnt := 0, idleCnt := 0, waitCnt := 0 }).updSlice (sliceKey g.core g.slice)
        fun sl => { sl with active := sl.active ++ [gid] }
    else s

def execActiveSetEnter (g : Nat) (s : State) : Res := .next (s.activeEnter g)

/-- ACTIVE_SET_LEAVE (R122): not ready for 256 slice cycles while a ready held group waits outside. The group that waits
need wait only when the other leaves, and a completed group that still drains leaves too.
DESIGN CHOICE (assumption log 53). -/
def State.activeLeave (s : State) (gid : Nat) : State :=
  match Tab.get? s.groups gid with
  | none => s
  | some g =>
    if decide (256 ≤ g.idleCnt) && !(s.outside g.core g.slice).isEmpty then (s.settle gid).inactive gid g else s

def execActiveSetLeave (g : Nat) (s : State) : Res := .next (s.activeLeave g)

end Sys2Proof.Machine
end

