-- ==== Sys2Proof/Machine/Contexts.lean ====
section
/-!
DEFINITION. Contexts (R216 to R220, R228 to R239): the instructions that create, select, query and retire tags, the
tag pools, retirement granule by granule, and TDVIEW (R208 to R210).
-/

namespace Sys2Proof.Machine

/-! ### Pools -/

def State.pool (s : State) (cluster job : Nat) : List Nat := Tab.getD s.kennel.pools (poolKey cluster job) []

/-- The Pup asks for more tags, once until the answer comes (R217). -/
def State.askTags (s : State) (cluster job : Nat) : State :=
  if Tab.getD s.kennel.asked (poolKey cluster job) false then s
  else (s.setKennel { s.kennel with asked := Tab.set s.kennel.asked (poolKey cluster job) true }).sendHub cluster
    (.tagRequest job)

/-- TAG_POOL_REQUEST (R217): a pool below 8 tags asks for 16 more. -/
def State.tagRequest (s : State) (cluster job : Nat) : State :=
  if s.poolOwner cluster job && decide ((s.pool cluster job).length < 8) then s.askTags cluster job else s

def execTagPoolRequest (cluster job : Nat) (s : State) : Res := .next (s.tagRequest cluster job)

/-- Whether a tag is free and in no pool (R214, R217). -/
def State.tagFree (s : State) (t : Nat) : Bool :=
  decide (1 ≤ t) && decide (t ≤ 65535) && !Tab.has s.kennel.tags t && s.kennel.pools.all fun p => !p.2.contains t

/-- TAG_POOL_GRANT (R217, R390): the Sheepdog consumes the request at the head of the Pup's link, and up to 16 of the
free tags it brings join the pool, which holds at most 64; nothing joins where the job has left the cluster. -/
def State.tagGrant (s : State) (cluster job : Nat) (tags : List Nat) : State :=
  if s.linkClear cluster && (Tab.getD s.hub.toHub cluster []).head? = some (.tagRequest job) then
    let s := s.takeHub cluster
    let p := s.pool cluster job
    let new := if s.poolOwner cluster job then
        ((dedup tags).filter fun t => s.tagFree t).take (min 16 (64 - p.length))
      else []
    s.setKennel { s.kennel with
      asked := Tab.del s.kennel.asked (poolKey cluster job)
      pools := Tab.set s.kennel.pools (poolKey cluster job) (p ++ new) }
  else s

def execTagPoolGrant (cluster job : Nat) (tags : List Nat) (s : State) : Res :=
  .next (s.tagGrant cluster job tags)

/-! ### Creating and selecting -/

/-- Whether the launch holds fewer tags than its .ctxbudget and the cluster's pool holds a tag (R236). -/
def State.tagReady (s : State) (g : Group) : Bool :=
  decide (s.tagsOf g.launch < ((s.launch? g).map fun l => l.kernel.ctxbudget).getD 0) &&
    !(s.pool (clusterOf g.core) (s.jobOf g)).isEmpty

/-- TakeFromPool and the registration (R236): which tag of the pool is a free value (assumption log 2). -/
def State.takeTag (s : State) (g : Group) (parent : Nat) : Nat × State :=
  let k := poolKey (clusterOf g.core) (s.jobOf g)
  let p := s.pool (clusterOf g.core) (s.jobOf g)
  let (n, s) := s.pickBelow p.length
  let t := p.getD n 0
  let tag : Tag := ⟨s.jobOf g, parent, g.launch, false, .live, clusterOf g.core⟩
  (t, s.setKennel { s.kennel with
    pools := Tab.set s.kennel.pools k (p.filter fun x => x ≠ t)
    tags := Tab.set s.kennel.tags t tag })

/-- The faults of CTXNEW and CTXTRY (R236), in their order. -/
def State.childFault (s : State) (g : Group) : Option Nat :=
  if ((s.launch? g).map fun l => l.kernel.ctxbudget).getD 0 = 0 then some 3
  else if !s.tagLive (s.jobOf g) g.lanes.ctag.toNat then some 8
  else if s.tagDepth g.lanes.ctag.toNat = 3 then some 2
  else none

/-- CTXNEW (R236): with a tag at hand sd follows; else the group waits for one at its word. -/
def ctxnewEff (d : Reg) (s : State) (gid : Nat) (g : Group) (_cl : Clause) : Eff :=
  if g.active == 0#64 then doneG s gid g .seq
  else match s.childFault g with
    | some c => .trap (.withDetail 0x0C c)
    | none =>
      if s.tagReady g then
        let (t, s) := s.takeTag g g.lanes.ctag.toNat
        let (s, g) := s.sendVals gid g (g.dest d 0 fun _ => loWord t)
        doneG s gid g .seq
      else .done (s.setGroup gid { g with ctxwait := true }) .gone []

def execCtxnew (d : Reg) (s : State) : Res := issue (.ctxnew d) (ctxnewEff d) s

/-- The place that an operation's pending scalar stands for. -/
def Group.pendTarget (g : Group) (op : Nat) : Option Target :=
  firstSome (fun e => if e.op = op then (match e.reg with
    | .s r => some (Target.s r)
    | .v _ | .p _ => none) else none) g.pend

/-- A scalar result of an operation lands and its register is no longer pending (R36). -/
def Group.landScalar (g : Group) (op : Nat) (w : Word) : Group :=
  (match g.pendTarget op with
   | some t => g.landResult op (t, w)
   | none => g).clearPend op

/-- CONTEXT_TAG_REGISTER (R236): a waiting CTXNEW gets its tag and its word is done; one whose current tag has been
retired meanwhile raises the fault of R232. DEDUCED (assumption log 28). -/
def State.tagRegister (s : State) (gid : Nat) : State :=
  match Tab.get? s.groups gid with
  | none => s
  | some g =>
    match g.clause with
    | none => s
    | some cl =>
      if !g.ctxwait || g.res == .saved then s
      else match wordStep (s.fetch g cl) with
        | .ctxnew d =>
          match s.childFault g with
          | some c => s.raise gid cl (.withDetail 0x0C c) cl.pos cl.pos false
          | none =>
            if s.tagReady g then
              let (t, s) := s.takeTag g g.lanes.ctag.toNat
              let (s, g) := s.sendVals gid { g with ctxwait := false } (g.dest d 0 fun _ => loWord t)
              (s.setGroup gid g).finish gid cl (.ctxnew d) .seq []
            else s
        | _ => s

def execContextTagRegister (g : Nat) (s : State) : Res := .next (s.tagRegister g)

/-- CTXTRY (R236): without a tag at hand, sd is 0 and pd false, and an empty pool asks for more. -/
def ctxtryEff (d : Reg) (pd : BitVec 4) (s : State) (gid : Nat) (g : Group) (_cl : Clause) : Eff :=
  if g.active == 0#64 then doneG s gid g .seq
  else match s.childFault g with
    | some c => .trap (.withDetail 0x0C c)
    | none =>
      let ready := s.tagReady g
      let (t, s) :=
        if ready then s.takeTag g g.lanes.ctag.toNat
        else (0, if (s.pool (clusterOf g.core) (s.jobOf g)).isEmpty then s.askTags (clusterOf g.core) (s.jobOf g)
          else s)
      let ps := (maskList g.exec).map fun i => (Target.p pd.toNat i, if ready then 1#32 else 0#32)
      let (s, g) := s.sendVals gid g (g.dest d 0 (fun _ => loWord t) ++ ps)
      doneG s gid g .seq

def execCtxtry (d : Reg) (pd : BitVec 4) (s : State) : Res := issue (.ctxtry d pd) (ctxtryEff d pd) s

/-- The tag a scalar names (R235). -/
def Group.tagOf (g : Group) (a : Reg) : Nat := bitsOf (g.sval a 0).toNat 0 16

/-- CTXSET (R237). -/
def ctxsetEff (a : Reg) (s : State) (gid : Nat) (g : Group) (_cl : Clause) : Eff :=
  if g.active == 0#64 then doneG s gid g .seq
  else if s.tagLive (s.jobOf g) (g.tagOf a) then
    doneG s gid { g with lanes := { g.lanes with ctag := BitVec.ofNat 16 (g.tagOf a) } } .seq
  else .trap (.withDetail 0x0C 1)

def execCtxset (a : Reg) (s : State) : Res := issue (.ctxset a) (ctxsetEff a) s

/-- The cells a context holds (R239). -/
def State.cellCount (s : State) (t : Nat) : Nat := (s.kennel.cells.filter fun c => c.tag = t).length

/-- CTXQ's word (R239). -/
def State.tagWord (s : State) (job t : Nat) : Word :=
  if t = 0 then loWord (1 * 2 ^ 30)
  else match s.tag? t with
    | none => 0#32
    | some x =>
      if x.job ≠ job then 0#32
      else loWord ((if x.state = .live then 1 else 2) * 2 ^ 30 + s.tagDepth t % 4 * 2 ^ 28 +
        min 0x0FFFFFFF (s.cellCount t))

/-- CTXQ (R239); the value is the one at issue. DESIGN CHOICE (assumption log 58). -/
def ctxqEff (d a : Reg) (s : State) (gid : Nat) (g : Group) (_cl : Clause) : Eff :=
  if g.active == 0#64 then doneG s gid g .seq
  else
    let (s, g) := s.sendVals gid g (g.dest d 0 fun _ => s.tagWord (s.jobOf g) (g.tagOf a))
    doneG s gid g .seq

def execCtxq (d a : Reg) (s : State) : Res := issue (.ctxq d a) (ctxqEff d a) s

/-! ### Retiring -/

/-- A tag begins to retire (R219): which operation's status word it will write, if any. -/
def State.retireTag (s : State) (t cluster : Nat) (commit : Bool) (op : Option Nat) : State :=
  s.setKennel { s.kennel with tags := Tab.upd s.kennel.tags t fun x =>
    { x with state := .retiring commit op 0 false, cluster := cluster } }

/-- An ATOM or RED of the group is outstanding (R238). -/
def State.atomsOut (s : State) (gid : Nat) : Bool :=
  s.ops.mem.any fun e => e.2.group = gid && (match e.2.kind with
    | .atomic _ _ _ _ _ => true
    | .load | .store | .value => false)

/-- CTXRET's context faults (R238), in their order. -/
def State.retireFault (s : State) (g : Group) (t : Nat) : Option Nat :=
  if t = 0 || !s.tagLive (s.jobOf g) t then some 4
  else if t = g.lanes.ctag.toNat then some 6
  else if s.hasChild t then some 5
  else none

/-- CTXRET (R238): commit or drop. -/
def ctxretEff (commit : Bool) (d a : Reg) (s : State) (gid : Nat) (g : Group) (_cl : Clause) : Eff :=
  if g.active == 0#64 then idleOp cCL s gid g
  else if g.cnt cST ≠ 0 || g.cnt cCP ≠ 0 || s.atomsOut gid || cntLimit cCL ≤ g.cnt cCL then .wait
  else match s.retireFault g (g.tagOf a) with
    | some c => .trap (.withDetail 0x0C c)
    | none =>
      let (op, s) := s.fresh
      doneG (s.retireTag (g.tagOf a) (clusterOf g.core) commit (some op)) gid
        ((g.count cCL op).setPend op (g.pregs d 1)) .seq

def execCtxretCommit (d a : Reg) (s : State) : Res := issue (.ctxretCommit d a) (ctxretEff true d a) s

def execCtxretDrop (d a : Reg) (s : State) : Res := issue (.ctxretDrop d a) (ctxretEff false d a) s

/-- A write waits for a cell at a granule's home, so that a merge of the granule waits behind it (R227).
DEDUCED (assumption log 28). -/
def State.granuleHeld (s : State) (job obj gran : Nat) : Bool :=
  s.kennel.waits.any fun w =>
    (match Tab.get? s.ops.sfq w with
     | some e => e.job = job && e.obj = obj && e.off / 64 = gran
     | none => false) ||
    (match Tab.get? s.ops.mem w with
     | some o => o.job = job && o.obj = obj && o.accs.any fun a => a.waits && a.off / 64 = gran
     | none => false) ||
    (match Tab.get? s.ops.copies w with
     | some c => c.job = job && c.waitObj = obj && c.waitGran.any fun x => x = gran
     | none => false)

/-- The written bytes of a cell by place. -/
def Cell.written (c : Cell) : Tab Byte := (maskList c.mask).map fun k => (k, c.data.getD k 0#8)

/-- One granule of a retiring context is merged or freed (R229, R230, R231). DEDUCED (assumption log 28). -/
def State.retireGranule (s : State) (t obj gran : Nat) : State :=
  match s.tag? t with
  | none => s
  | some x =>
    match x.state with
    | .live => s
    | .retiring commit op n bad =>
      match s.kennel.cell? x.job t obj gran with
      | none => s
      | some c =>
        if commit && s.granuleHeld x.job obj gran then s
        else
          let lost := s.bad.contains (BadLoc.cell t obj gran)
          let s := s.setKennel (s.kennel.dropCell x.job t obj gran)
          let s := { s with bad := s.bad.filter fun b => b ≠ BadLoc.cell t obj gran }
          let s := s.setKennel { s.kennel with tags := Tab.upd s.kennel.tags t fun y =>
            { y with state := .retiring commit op (if commit && lost then n else n + 1) (bad || (commit && lost)) } }
          if !commit || lost then s
          else if x.parent = 0 then s.rootWrite c.phys c.written
          else match s.kennel.cell? x.job x.parent obj gran with
            | some p => s.setKennel (s.kennel.putCell (p.write c.written))
            | none => s.setKennel (s.kennel.putCell { c with tag := x.parent })

def execRetireGranule (tag obj gran : Nat) (s : State) : Res := .next (s.retireGranule tag obj gran)

/-- A write in a context waits for a cell, so that the context's retirement is not complete (R227, R228). -/
def State.tagHeld (s : State) (t : Nat) : Bool :=
  s.kennel.waits.any fun w =>
    (match Tab.get? s.ops.sfq w with
     | some e => e.tagged && e.tag = t
     | none => false) ||
    (match Tab.get? s.ops.mem w with
     | some o => o.tagged && o.tag = t && o.accs.any LaneAcc.waits
     | none => false) ||
    (match Tab.get? s.ops.copies w with
     | some c => c.tag = t && !c.waitGran.isEmpty
     | none => false)

/-- Requests of a context whose retirement has completed (R232, R233): their reads resolve through the parent, and
their writes come too late; the tag they carry stands for no context again. -/
def State.orphan (s : State) (t parent : Nat) : State :=
  let (n, s) := s.fresh
  let dead := fun (x : Nat) => if x = t then 65536 + n else x
  let up := fun (x : Nat) => if x = t then parent else x
  s.setOps { s.ops with
    mem := Tab.mapVals s.ops.mem fun _ o => { o with tag := dead o.tag, rtag := up o.rtag }
    sfq := Tab.mapVals s.ops.sfq fun _ e => { e with tag := dead e.tag }
    copies := Tab.mapVals s.ops.copies fun _ c => { c with tag := dead c.tag, rtag := up c.rtag } }

/-- The status word of R231. -/
def retireStatus (n : Nat) (bad : Bool) : Word := loWord ((if bad then 2 ^ 28 else 0) + min 0x0FFFFFFF n)

/-- CONTEXT_RETIRE_COMPLETE (R231, R217): the tag is free, its cluster's pool has it where the job still has one, and
sd and CL follow. DEDUCED (assumption log 28). -/
def State.retireComplete (s : State) (t : Nat) : State :=
  match s.tag? t with
  | none => s
  | some x =>
    match x.state with
    | .live => s
    | .retiring _ op n bad =>
      if s.kennel.cells.any (fun c => c.tag = t) || s.tagHeld t then s
      else
        let p := s.pool x.cluster x.job
        let s := (s.orphan t x.parent).setKennel { s.kennel with
          tags := Tab.del s.kennel.tags t
          pools := if p.length < 64 && !x.ctx && s.poolOwner x.cluster x.job then Tab.set s.kennel.pools (poolKey x.cluster x.job) (p ++ [t])
            else s.kennel.pools }
        match op with
        | none => s
        | some op =>
          { s with groups := Tab.mapVals s.groups fun _ g =>
              if (g.outs cCL).any fun e => e.1 = op then
                (g.landScalar op (retireStatus n bad)).complete cCL op
              else g }

def execContextRetireComplete (tag : Nat) (s : State) : Res :=
  .next (s.landing (s.retireComplete tag) fun _ => false)

/-! ### TDVIEW -/

/-- The status of a view (R209). DEDUCED (assumption log 29). -/
def viewStatus (l : Launch) (child : Nat) (c n : List Nat) : Option Desc → Nat
  | none => 1
  | some d =>
    if (List.range 5).any (fun k => n.getD k 0 = 0 || decide (d.dim k < c.getD k 0 + n.getD k 0) ||
        (decide (d.rank ≤ k) && (c.getD k 0 ≠ 0 || n.getD k 0 ≠ 1))) ||
        (blockFmt d.fmt && (c.headD 0 % 16 ≠ 0 || n.headD 0 % 16 ≠ 0)) then 2
    else if child < l.viewFirst || l.viewFirst + l.viewCount ≤ child then 3
    else if d.plane then 4
    else 0

/-- The view's descriptor words (R208); the base is taken modulo 2^48, the width of its field. DESIGN CHOICE
(assumption log 29). -/
def viewWords (ws : List Word) (d : Desc) (c n : List Nat) (ro : Bool) : List Word :=
  let base := d.base + d.elemOff c
  let w0 := if ro then ws.getD 0 0#32 ||| (1#32 <<< 27) else ws.getD 0 0#32
  let w3 := BitVec.ofNat 32 (wnat ws 3 / 2 ^ 16 * 2 ^ 16 + base / 2 ^ 32 % 2 ^ 16)
  [w0, ws.getD 1 0#32, loWord base, w3] ++ (List.range 5).map (fun k => loWord (n.getD k 0)) ++ ws.drop 9

/-- A descriptor is written to the tensor table; the issuing group sees it from then on, others as R210 says.
DEDUCED (assumption log 29). -/
def State.putDesc (s : State) (gid op sd die job t : Nat) (ws : List Word) : State :=
  let (old, s) := s.descWords (some gid) die job t
  let at_ := ((Tab.get? s.work.jobs job).map Job.tensorTable).getD 0 + 64 * t
  let bytes := wordsToBytes ws
  let s := s.rootWrite at_ ((List.range 64).map fun k => (k, bytes.getD k 0#8))
  let g := Tab.get? s.groups gid
  let gang := (g.bind s.block?).map Block.gang
  { s with views := s.views ++ [⟨job, t, old, ws, gid, (g.map Group.launch).getD 0, g.bind Group.block, gang, op, sd, false,
    none, none, [], none⟩] }

/-- TDVIEW (R208 to R210). -/
def tdviewEff (d a : Reg) (ro : Bool) (s : State) (gid : Nat) (g : Group) (_cl : Clause) : Eff :=
  if g.active == 0#64 then doneG s gid g .seq
  else match s.launch? g with
    | none => doneG s gid g .seq
    | some l =>
      let job := l.job
      let die := dieOf g.core
      let ids := (g.sval a 0).toNat
      let parent := bitsOf ids 0 12
      let child := bitsOf ids 16 12
      let c := (List.range 5).map fun k => (g.sval a (1 + k)).toNat
      let n := (List.range 5).map fun k => (g.sval a (6 + k)).toNat
      let (pd, s) := s.desc (some gid) die job parent
      let (ws, s) := s.descWords (some gid) die job parent
      let st := viewStatus l child c n pd
      let s := match pd with
        | some pd => if st = 0 then s.putDesc gid s.nextId (g.phys d 0) die job child (viewWords ws pd c n ro) else s
        | none => s
      let (s, g) := s.sendVals gid g (g.dest d 0 fun _ => loWord (st * 2 ^ 28))
      doneG s gid g .seq

def execTdview (d a : Reg) (ro : Bool) (s : State) : Res := issue (.tdview d a ro) (tdviewEff d a ro) s

end Sys2Proof.Machine
end

