-- ==== Sys2Proof/Machine/Scratch.lean ====
section
/-!
DEFINITION. The scratchpad arrays and their retention segments (R167, R168, R186, R187), and the core scratchpad (R172
to R179, R185): LDS, STS and ATOMS, performed at the bank when they issue, so that the accesses of a group to different
words keep their order too, which R173 allows. DEDUCED (assumption log 50).
-/

namespace Sys2Proof.Machine

/-! ### Arrays and retention -/

/-- An allotment: a block's on its core, a gang's on its cluster, a launch's on a die (R167). -/
inductive ScrLoc where
  | core (block : Nat)
  | cluster (launch gang : Nat)
  | die (launch die : Nat)
  deriving DecidableEq, Repr

/-- The array that an allotment lies in, and a number for the allotment. -/
def State.arrayOf (s : State) : ScrLoc → SramArray × Nat
  | .core b => (.coreScratch (((Tab.get? s.work.blocks b).map Block.core).getD 0), b)
  | .cluster l g =>
    (.clusterScratch ((((Tab.get? s.work.launches l).bind fun x => Tab.get? x.gangs g).map Gang.cluster).getD 0),
      l * 65536 + g)
  | .die l d => (.dieScratch d, l)

/-- The segment of a byte of an allotment (R186); where the allotment begins is free (assumption log 55). -/
def State.segOf (s : State) (loc : ScrLoc) (a : Nat) : SramArray × Nat :=
  let (arr, n) := s.arrayOf loc
  (arr, (arrBase arr n + a) / 65536 % arrSegments arr)

/-- The segment of a tile of a core (R280, R302): four tiles of 16 KiB each. -/
def tileSeg (core tile : Nat) : SramArray × Nat := (.accStore core, tile / 4 % 128)

/-! ### The core scratchpad -/

/-- What a byte of an allotment reads as before anything writes it (R168). -/
def scratchFill : Byte := 0#8

/-- Bytes of a block's core allotment. -/
def Block.read (b : Block) (a n : Nat) : List Byte := memBytes scratchFill b.scratch a n

/-- Bytes written to a block's core allotment. -/
def Block.write (b : Block) (a : Nat) (bs : List Byte) : Block :=
  { b with scratch := memWriteBytes scratchFill b.scratch a bs }

/-- The size of the issuing block's core allotment (R175). -/
def State.allot (s : State) (g : Group) : Nat := if g.block.isNone then 0 else ((s.launch? g).map fun l => l.kernel.scratch).getD 0

/-- The issuing block's bytes. -/
def State.scratchRead (s : State) (g : Group) (a n : Nat) : List Byte := ((s.block? g).map fun b => b.read a n).getD []

/-- Whether an access meets a 64-bit word in error (R185). -/
def State.badScratch (s : State) (block a n : Nat) : Bool :=
  s.bad.any fun b => match b with
    | .coreScratch k d => k = block && overlap (8 * d) 8 a n
    | _ => false

/-- The checks of R175 on the lanes of an access: those misaligned or out of bounds among the non-helper lanes, and
the lanes that access. A uniform LDS that faults names all non-helper lanes of Exec, where R177 speaks of one lane:
DEDUCED (assumption log 21). -/
structure ScratchPlan where
  mis : Mask
  oob : Mask
  lanes : List Nat
  deriving DecidableEq, Repr

def scratchPlan (g : Group) (lanes : List Nat) (uniform : Bool) (addr : Nat → Nat) (size allot : Nat) : ScratchPlan :=
  let mask := fun (p : Nat → Bool) =>
    if uniform then (if lanes.any p then g.active else 0#64)
    else (lanes.filter p).foldl (fun m i => m ||| laneBit i) 0#64 &&& ~~~g.helpers
  let mis := fun i => addr i % size ≠ 0
  let oob := fun i => addr i % size = 0 && decide (allot < addr i + size)
  { mis := mask fun i => decide (mis i), oob := mask oob
    lanes := lanes.filter fun i => !decide (mis i) && !oob i }

/-- A scratchpad access up to its performance: the faults of R175, the counter's limit and what else the word waits for,
segments in retention (R187), the uncorrectable errors (R185). -/
def State.scratchAccess (s : State) (g : Group) (lanes : List Nat) (uniform : Bool) (addr : Nat → Nat)
    (size cls : Nat) (nohelp waits : Bool) (k : State → List Nat → Eff) : Eff :=
  let p := scratchPlan g lanes uniform addr size (s.allot g)
  let acc := if nohelp then p.lanes.filter fun i => !g.helpers.getLsbD i else p.lanes
  let segs := acc.map fun i => s.segOf (.core (g.block.getD 0)) (addr i)
  if p.mis != 0#64 then .trap (.at 0x09 p.mis)
  else if p.oob != 0#64 then .trap (.at 0x07 p.oob)
  else if cntLimit cls ≤ g.cnt cls || (waits && !acc.isEmpty) || s.asleep segs then .wait
  else if acc.any fun i => s.badScratch (g.block.getD 0) (addr i) size then .kill stSram
  else k (s.touch segs) acc

/-- A scratchpad result on its way to its registers (R177, R179). -/
def scratchOp (s : State) (gid : Nat) (g : Group) (sz : MemSize) (d : Reg) (got : List (Nat × List Byte)) : MemOp :=
  { group := gid, core := g.core, job := s.jobOf g, launch := g.launch, kind := .value, size := sz
    dst := some (g.physReg d), tag := 0, rtag := 0, tagged := false, ldx := false, handler := g.inHandler, obj := 0
    accs := got.map fun e => ⟨e.1, 0, 0, [], e.2, true, false⟩, zero := [], lines := [], all := [], cls := cLD }

/-- LDS (R176, R177). -/
def ldsEff (d a : Reg) (imm : BitVec 8) (s : State) (gid : Nat) (g : Group) (_cl : Clause) : Eff :=
  let uniform := d.isScalar
  if (if uniform then g.active else g.exec) == 0#64 then idleOp cLD s gid g
  else
    let addr := fun i => (g.src a 0 i).toNat + 4 * imm.toNat
    s.scratchAccess g (if uniform then [0] else maskList g.exec) uniform addr 4 cLD false false fun s lanes =>
      if lanes.isEmpty then idleOp cLD s gid g else
      let o := scratchOp s gid g .b32 d (lanes.map fun i => (i, s.scratchRead g (addr i) 4))
      let (_, s, g) := s.startMem g o (g.pregs d 1)
      doneG s gid g .seq

def execLds (d a : Reg) (imm : BitVec 8) (s : State) : Res := issue (.lds d a imm) (ldsEff d a imm) s

/-- Bytes written by lanes in ascending order, the highest last (R174). -/
def Block.writeLanes (b : Block) (ws : List (Nat × List Byte)) : Block := ws.foldl (fun b w => b.write w.1 w.2) b

/-- STS (R176, R177): performed at its bank at once. -/
def stsEff (d a : Reg) (imm : BitVec 8) (s : State) (gid : Nat) (g : Group) (_cl : Clause) : Eff :=
  if g.exec == 0#64 then idleOp cST s gid g
  else
    let addr := fun i => (g.src a 0 i).toNat + 4 * imm.toNat
    s.scratchAccess g (maskList g.exec) false addr 4 cST true false fun s lanes =>
      let (op, s) := s.fresh
      let s := s.updBlock (g.block.getD 0) fun b =>
        b.writeLanes (lanes.map fun i => (addr i, natToBytes (g.src d 0 i).toNat 4))
      doneG s gid ((g.count cST op).complete cST op) .seq

def execSts (d a : Reg) (imm : BitVec 8) (s : State) : Res := issue (.sts d a imm) (stsEff d a imm) s

/-- The lanes' atomics in ascending order (R179): each lane's old bytes, and the allotment after. -/
def atomicLanes (aop : AtomOp) (ty : AtomTy) (addr : Nat → Nat) (data : Nat → List Byte) (b : Block) :
    List Nat → List (Nat × List Byte) × Block
  | [] => ([], b)
  | i :: is =>
    let n := ty.bytes
    let old := b.read (addr i) n
    let new := natToBytes
      (atomOp aop ty (bytesToNat old) (bytesToNat ((data i).take n)) (bytesToNat ((data i).drop n))) n
    let r := atomicLanes aop ty addr data (b.write (addr i) new) is
    ((i, old) :: r.1, r.2)

/-- ATOMS (R178, R179, R253). -/
def atomsEff (d vi : Reg) (aop : AtomOp) (ord : Order) (ty : AtomTy) (scope : Scope) (val : Reg) (s : State)
    (gid : Nat) (g : Group) (_cl : Clause) : Eff :=
  if g.exec == 0#64 then idleOp cLD s gid g
  else
    let addr := fun i => (g.src vi 0 i).toNat
    s.scratchAccess g (maskList g.exec) false addr ty.bytes cLD false (ord.releases && !s.releaseMet gid g scope)
      fun s lanes =>
        if lanes.isEmpty then idleOp cLD s gid g else
        let mine := lanes.filter fun i => !g.helpers.getLsbD i
        match s.block? g with
        | none => idleOp cLD s gid g
        | some b =>
          let r := atomicLanes aop ty addr (g.atomData val aop ty) b mine
          let s := s.updBlock (g.block.getD 0) fun _ => r.2
          let s := if ord.releases then s.released gid scope else s
          let helped := (lanes.filter fun i => g.helpers.getLsbD i).map fun i => (i, r.2.read (addr i) ty.bytes)
          let (op, s, g) := s.startMem g (scratchOp s gid g ty.size d (r.1 ++ helped)) (g.pregs d ty.regs)
          doneG s gid (if ord.acquires then { g with hold := some op } else g) .seq

def execAtoms (d vi : Reg) (op : AtomOp) (ord : Order) (ty : AtomTy) (scope : Scope) (val : Reg) (s : State) : Res :=
  issue (.atoms d vi op ord ty scope val) (atomsEff d vi op ord ty scope val) s

end Sys2Proof.Machine
end

