-- ==== Sys2Proof/Machine/Copy.lean ====
section
/-!
DEFINITION. The copy engines (R180 to R184, R260 to R274, R277 to R279): tensor copies, moves between scratchpad
levels, raw commands, and what happens to a command line by line.
-/

namespace Sys2Proof.Machine

/-! ### Scratchpad allotments of the three levels (R167, R181) -/

/-- The bytes of a launch's die request (R384). -/
def Launch.dieBytes (l : Launch) : Nat := l.dieScratch * 65536

/-- An allotment's size in bytes. -/
def State.scrSize (s : State) : ScrLoc → Nat
  | .core b =>
    (((Tab.get? s.work.blocks b).bind fun x => Tab.get? s.work.launches x.launch).map fun l => l.kernel.scratch).getD 0
  | .cluster l g => ((Tab.get? s.work.launches l).map fun x => if Tab.has x.gangs g then x.kernel.cscratch else 0).getD 0
  | .die l d => ((Tab.get? s.work.launches l).map fun x => if Tab.has x.scratch d then x.dieBytes else 0).getD 0

/-- An allotment's bytes. -/
def State.scrBytes (s : State) : ScrLoc → Tab Byte
  | .core b => ((Tab.get? s.work.blocks b).map Block.scratch).getD []
  | .cluster l g => (((Tab.get? s.work.launches l).bind fun x => Tab.get? x.gangs g).map Gang.scratch).getD []
  | .die l d => ((Tab.get? s.work.launches l).bind fun x => Tab.get? x.scratch d).getD []

def State.scrByte (s : State) (loc : ScrLoc) (a : Nat) : Byte := memRead scratchFill (s.scrBytes loc) a

/-- The 64-bit word of an allotment that a bad place is. -/
def ScrLoc.badWord (loc : ScrLoc) (b : BadLoc) : Option Nat :=
  match loc, b with
  | .core k, .coreScratch k' d => if k = k' then some d else none
  | .cluster l g, .clusterScratch l' g' d => if l = l' ∧ g = g' then some d else none
  | .die l k, .dieScratch l' k' d => if l = l' ∧ k = k' then some d else none
  | _, _ => none

/-- Whether a byte of an allotment is uncorrectable (R185). -/
def State.scrBad (s : State) (loc : ScrLoc) (a : Nat) : Bool := s.bad.any fun b => loc.badWord b = some (a / 8)

/-- Bytes written to an allotment, by offset. A 64-bit word that is written whole loses its error. -/
def State.scrPut (s : State) (loc : ScrLoc) (bytes : Tab Byte) : State :=
  let wr := fun (m : Tab Byte) => bytes.foldl (fun m e => memWrite scratchFill m e.1 e.2) m
  let s := { s with bad := s.bad.filter fun b => match loc.badWord b with
    | some d => !(List.range 8).all fun k => Tab.has bytes (8 * d + k)
    | none => true }
  match loc with
  | .core b => s.updBlock b fun x => { x with scratch := wr x.scratch }
  | .cluster l g => s.updLaunch l fun x =>
      { x with gangs := Tab.upd x.gangs g fun y => { y with scratch := wr y.scratch } }
  | .die l d => s.updLaunch l fun x => { x with scratch := Tab.upd x.scratch d wr }

/-- The allotment a command means at a level (R181, R386). -/
def CopyCmd.loc (c : CopyCmd) (lvl : Level) : Option ScrLoc :=
  match lvl with
  | .core => c.block.map ScrLoc.core
  | .cluster => c.block.map fun _ => .cluster c.launch c.gang
  | .die => some (.die c.launch (unitDie c.core))

/-- The level of a descriptor's scratchpad space (R189). -/
def spaceLevel (space : Nat) : Level :=
  match space with
  | 1 => .die
  | 2 => .cluster
  | _ => .core

/-! ### Geometry (R265 to R268) -/

/-- The shape of an image: elements of a block and their bytes, a row's bytes and lines, and all lines (R265). -/
structure Geo where
  per : Nat
  eb : Nat
  rb : Nat
  lpr : Nat
  lines : Nat
  deriving DecidableEq, Repr

def Desc.geo (d : Desc) : Geo :=
  let per := if blockFmt d.fmt then 16 else 1
  let eb := fmtBytes d.fmt d.plane
  let rb := d.boxOf 0 / per * eb
  let lpr := (rb + 63) / 64
  ⟨per, eb, rb, lpr, lpr * d.boxOf 1 * d.boxOf 2 * d.boxOf 3 * d.boxOf 4⟩

/-- Whether a command is of the channel-interleaved kinds (R268), and whether it fills the image (R261). -/
def CopyKind.interleaves (k : CopyKind) : Bool := k == .pack || k == .unpack
def CopyKind.fills (k : CopyKind) : Bool := k == .ld || k == .unpack

/-- The coordinates of an element of an image row: the `u`-th element or block of row r (R265, R266). -/
def elemCoords (d : Desc) (c : List Int) (r u : Nat) : List Int :=
  let e1 := r % d.boxOf 1
  let e2 := r / d.boxOf 1 % d.boxOf 2
  let e3 := r / (d.boxOf 1 * d.boxOf 2) % d.boxOf 3
  let e4 := r / (d.boxOf 1 * d.boxOf 2 * d.boxOf 3)
  [c.getD 0 0 / d.geo.per + u, c.getD 1 0 + e1, c.getD 2 0 + e2, c.getD 3 0 + e3, c.getD 4 0 + e4]

/-- The channels of a tensor with its padding channels (R268). -/
def Desc.padded (d : Desc) : Nat := (d.dim 1 + d.group - 1) / d.group * d.group

/-- Where an element stands (R266, R268). -/
inductive ElemClass where
  | inside | padding | outside
  deriving DecidableEq, Repr

def elemClass (k : CopyKind) (d : Desc) (x : List Int) : ElemClass :=
  let lim := fun i => if i = 0 then d.dim 0 / d.geo.per else d.dim i
  let ins := fun (i : Nat) => decide (0 ≤ x.getD i 0) && decide (x.getD i 0 < lim i)
  if (List.range 5).all ins then .inside
  else if k.interleaves && [0, 2, 3, 4].all ins && decide ((d.dim 1 : Int) ≤ x.getD 1 0) &&
      decide (x.getD 1 0 < d.padded) then .padding
  else .outside

/-- The tensor offset of an element inside (R266) or of a padding channel (R268). -/
def elemOffset (k : CopyKind) (d : Desc) (x : List Int) : Nat :=
  let n := fun i => (x.getD i 0).toNat
  let rest := n 2 * d.stride 2 + n 3 * d.stride 3 + n 4 * d.stride 4
  if k.interleaves then n 1 / d.group * d.stride 1 + (n 0 * d.group + n 1 % d.group) * d.geo.eb + rest
  else n 0 * d.geo.eb + n 1 * d.stride 1 + rest

/-- The bytes of the fill element (R267). -/
def Desc.fillBytes (d : Desc) : List Byte :=
  match d.fmt with
  | 10 => List.replicate 16 (d.fill.extractLsb' 0 8) ++ [127#8, 0#8]
  | 11 =>
    let f := bitsOf d.fill.toNat 0 6
    natToBytes (sumNat ((List.range 16).map fun j => f * 2 ^ (6 * j))) 12 ++ [127#8, 0#8]
  | _ => natToBytes d.fill.toNat 8

/-- One byte of an image row: a pad byte, or byte q of an element of a class at a tensor byte (R265, R266). -/
structure LineByte where
  pad : Bool
  cls : ElemClass
  q : Nat
  place : Nat
  deriving DecidableEq, Repr

/-- The bytes of an image line. -/
def lineMap (k : CopyKind) (d : Desc) (c : List Int) (line : Nat) : List LineByte :=
  let g := d.geo
  (List.range 64).map fun b =>
    let pos := line % g.lpr * 64 + b
    if g.rb ≤ pos then ⟨true, .outside, 0, 0⟩
    else
      let x := elemCoords d c (line / g.lpr) (pos / g.eb)
      let q := pos % g.eb
      ⟨false, elemClass k d x, q, d.base + swizzle d.swz (elemOffset k d x + q)⟩

/-- The allotment offset of byte b of an image line (R265). -/
def imageAt (c : CopyCmd) (line b : Nat) : Nat := swizzle c.sswz (c.image + 64 * line + b)

/-- The element that cpfault names for a line (R273). DEDUCED (assumption log 30). -/
def firstElem (d : Desc) (line : Nat) : Nat :=
  let g := d.geo
  line % g.lpr * 64 / g.eb * g.per + d.boxOf 0 * (line / g.lpr)

/-- How many elements of the box are inside, padding channels among them: all, some or none, as the code ok, clipped
or fully-outside (R266, R268). -/
def boxCode (k : CopyKind) (d : Desc) (c : List Int) : Nat :=
  let per := d.geo.per
  let lim := fun i => if i = 0 then d.dim 0 / per else if i = 1 ∧ k.interleaves then d.padded else d.dim i
  let box := fun i => if i = 0 then d.boxOf 0 / per else d.boxOf i
  let c0 := fun i => if i = 0 then c.getD 0 0 / per else c.getD i 0
  let cnt := fun i =>
    (min (lim i : Int) (c0 i + box i) - max 0 (c0 i)).toNat
  if (List.range 5).all fun i => cnt i = box i then 0
  else if (List.range 5).any fun i => cnt i = 0 then 2
  else 1

/-! ### Status words and records (R271, R276, R278) -/

/-- The status word (R271). -/
def copyStatus (code engine lines : Nat) : Word := loWord (code * 2 ^ 28 + engine * 2 ^ 24 + lines % 2 ^ 24)

/-- The claims of QRs on a completion queue take its words in order (R276). -/
def serveClaims (g : Group) (q : Nat) : List Nat → List Word → Group
  | op :: ops, w :: ws => serveClaims (g.landScalar op w) q ops ws
  | ops, ws => { g with qclaims := Tab.set g.qclaims q ops, qcmp := Tab.set g.qcmp q ws }

/-- A completion record enters the queue bound beside a command queue (R275, R278). Of a completed group only the QRs
outstanding take words of it: the rest is discarded (R107, R279). -/
def Group.popRecord (g : Group) (q : Nat) (ws : List Word) : Group :=
  let g := { g with qout := Tab.set g.qout q (Tab.getD g.qout q 0 - 1) }
  let g := serveClaims g (q + 1) (Tab.getD g.qclaims (q + 1) []) (Tab.getD g.qcmp (q + 1) [] ++ ws)
  if g.done then { g with qcmp := Tab.del g.qcmp (q + 1) } else g

/-! ### Acceptance -/

/-- A copy-write report of a command is not delivered yet (R370). -/
def State.reportOwed (s : State) (id : Nat) (o : CopyOwner) : Bool :=
  match o.group.bind fun gid => Tab.get? s.groups gid with
  | some g => !g.done && g.reports.any fun r => r.src = id
  | none => false

/-- A command has run to its end and made its post; all that it owes is a report, which is delivered before its
status (R370), with the group if that is saved meanwhile (R375). -/
def State.onlyOwes (s : State) (id : Nat) (c : CopyCmd) : Bool := c.posted && s.reportOwed id c.owner

/-- The commands a core's copy engine holds (R260); one that a saved group took with it is none of them. -/
def State.copiesOf (s : State) (core : Nat) : Nat :=
  (s.ops.copies.filter fun e => e.2.core = core &&
    !(s.onlyOwes e.1 e.2 && ((e.2.owner.group.bind fun k => Tab.get? s.groups k).map Group.res) = some .saved)).length

/-- A command as a group issues it, nothing decided. -/
def State.newCopy (s : State) (g : Group) (owner : CopyOwner) (kind : CopyKind) : CopyCmd :=
  { owner := owner, core := g.core, engine := g.core % 4, job := s.jobOf g, launch := g.launch, block := g.block
    gang := ((s.block? g).map Block.gang).getD 0, kind := kind, level := .core, dst := .core, tensor := 0, coords := []
    image := 0, sswz := 0, move := [], post := none, tag := g.lanes.ctag.toNat, rtag := g.lanes.ctag.toNat
    handler := g.inHandler, desc := [], started := false, total := 0, next := 0, paid := 0, waitObj := 0, waitGran := []
    clean := 0, code := none, elem := 0xFFFFFFFF, posted := false }

/-- No counted command is accepted while CP stands at 15 or the engine's queue is full (R182, R263). -/
def State.copyHeld (s : State) (g : Group) : Bool :=
  g.cnt cCP = 15 || decide (Config.copyQueue ≤ s.copiesOf g.core)

/-- A counted command is accepted (R263): CP counts it and sd is pending. -/
def State.acceptCopy (s : State) (gid : Nat) (g : Group) (d : Reg) (c : CopyCmd) : Eff :=
  if s.copyHeld g then .wait
  else
    let (op, s) := s.fresh
    doneG (s.setOps { s.ops with copies := Tab.set s.ops.copies op c }) gid ((g.count cCP op).setPend op (g.pregs d 1))
      .seq

/-- TCOPY and TCOPYI (R262, R263). -/
def tcopyEff (kind : CopyKind) (d a b : Reg) (lvl : Level) (post : Option BarName) (n : BitVec 3) (sswz : BitVec 4)
    (s : State) (gid : Nat) (g : Group) (_cl : Clause) : Eff :=
  if g.active == 0#64 then idleOp cCP s gid g
  else if (g.sval b 0).toNat % 64 ≠ 0 then .trap (.plain 0x09)
  else if !s.tagLive (s.jobOf g) g.lanes.ctag.toNat then .trap (.withDetail 0x0C 8)
  else s.acceptCopy gid g d { s.newCopy g (.scalar gid (g.phys d 0)) kind with
    level := lvl, tensor := bitsOf (g.sval a 0).toNat 0 12
    coords := (List.range 5).map fun k => if k < n.toNat then sgn (g.sval a (1 + k)) else 0
    image := (g.sval b 0).toNat, sswz := sswz.toNat, post := post.map (s.barId g) }

def execTcopyLd (d a b : Reg) (lvl : Level) (post : Option BarName) (n : BitVec 3) (sswz : BitVec 4) (s : State) :
    Res := issue (.tcopyLd d a b lvl post n sswz) (tcopyEff .ld d a b lvl post n sswz) s

def execTcopySt (d a b : Reg) (lvl : Level) (post : Option BarName) (n : BitVec 3) (sswz : BitVec 4) (s : State) :
    Res := issue (.tcopySt d a b lvl post n sswz) (tcopyEff .st d a b lvl post n sswz) s

def execTcopyiPack (d a b : Reg) (lvl : Level) (post : Option BarName) (n : BitVec 3) (sswz : BitVec 4) (s : State) :
    Res := issue (.tcopyiPack d a b lvl post n sswz) (tcopyEff .pack d a b lvl post n sswz) s

def execTcopyiUnpack (d a b : Reg) (lvl : Level) (post : Option BarName) (n : BitVec 3) (sswz : BitVec 4)
    (s : State) : Res := issue (.tcopyiUnpack d a b lvl post n sswz) (tcopyEff .unpack d a b lvl post n sswz) s

/-- A move's parameters (R181): destination offset, rows, row bytes and strides. -/
def moveParams (dst rr ss : Word) : List Nat :=
  [dst.toNat, bitsOf rr.toNat 16 16, bitsOf rr.toNat 0 16, bitsOf ss.toNat 16 16, bitsOf ss.toNat 0 16]

/-- Whether a move's addresses and row bytes are whole lines, and whether it stays in its allotments (R182). -/
def CopyCmd.moveAligned (c : CopyCmd) : Bool :=
  c.image % 64 = 0 && c.move.getD 0 0 % 64 = 0 && c.move.getD 2 0 % 64 = 0

def State.moveFits (s : State) (c : CopyCmd) : Bool :=
  let rows := c.move.getD 1 0
  let rb := c.move.getD 2 0
  let size := fun l => ((c.loc l).map s.scrSize).getD 0
  rows = 0 || rb = 0 ||
    (decide (c.image + (rows - 1) * c.move.getD 3 0 * 64 + rb ≤ size c.level) &&
     decide (c.move.getD 0 0 + (rows - 1) * c.move.getD 4 0 * 64 + rb ≤ size c.dst))

/-- A move of no bytes completes at once, with code ok and a post of no bytes (R182, R184, R244). -/
def State.emptyMove (s : State) (gid : Nat) (g : Group) (d : Reg) (c : CopyCmd) : Eff :=
  if s.copyHeld g then .wait
  else
    let (op, s) := s.fresh
    let g := (((g.count cCP op).setPend op (g.pregs d 1)).landScalar op (copyStatus 0 c.engine 0)).complete cCP op
    let s := s.setGroup gid g
    .done (match c.post with
      | some b => s.barEvent b (2, 0)
      | none => s) .seq []

/-- TMOV (R182). -/
def tmovEff (d a : Reg) (src dst : Level) (post : Option BarName) (s : State) (gid : Nat) (g : Group)
    (_cl : Clause) : Eff :=
  let c := { s.newCopy g (.scalar gid (g.phys d 0)) .move with
    level := src, dst := dst, image := (g.sval a 0).toNat
    move := moveParams (g.sval a 1) (g.sval a 2) (g.sval a 3), post := post.map (s.barId g) }
  if g.active == 0#64 then idleOp cCP s gid g
  else if !c.moveAligned then .trap (.plain 0x09)
  else if !s.moveFits c then .trap (.plain 0x07)
  else if !s.tagLive (s.jobOf g) g.lanes.ctag.toNat then .trap (.withDetail 0x0C 8)
  else if c.move.getD 1 0 = 0 || c.move.getD 2 0 = 0 then s.emptyMove gid g d c
  else s.acceptCopy gid g d c

def execTmov (d a : Reg) (src dst : Level) (post : Option BarName) (s : State) : Res :=
  issue (.tmov d a src dst post) (tmovEff d a src dst post) s

/-! ### Raw commands (R277 to R279) -/

/-- The barrier scope and level codes of R46 and R167. -/
def barScopeCode (n : Nat) : Option BarScope :=
  match n with
  | 0 => some .block
  | 1 => some .gang
  | 2 => some .grid
  | _ => none

def levelCode (n : Nat) : Option Level :=
  match n with
  | 0 => some .core
  | 1 => some .cluster
  | 2 => some .die
  | _ => none

def copyKindCode (n : Nat) : Option CopyKind :=
  match n with
  | 0 => some .ld
  | 1 => some .st
  | 2 => some .pack
  | 3 => some .unpack
  | 4 => some .move
  | _ => none

/-- The post of a raw command's word 0: none for a reserved field. -/
def rawPost (w : Nat) : Option (Option BarName) :=
  if w.testBit 25 then (barScopeCode (bitsOf w 23 2)).map fun sc => some ⟨sc, BitVec.ofNat 4 (bitsOf w 19 4)⟩
  else if bitsOf w 19 6 = 0 then some none else none

/-- The command that eight raw words are, over a fresh one; none for fault-command (R279). `bar` gives the barrier a
name means. That a reserved sswz code is a reserved field is the model's choice: DEDUCED (assumption log 30). -/
def rawCopy (bar : BarName → BarId) (base : CopyCmd) (ws : List Word) : Option CopyCmd :=
  let w := wnat ws 0
  let n := bitsOf w 16 3
  match copyKindCode (bitsOf w 28 4), levelCode (bitsOf w 26 2), rawPost w with
  | some .move, some src, some post =>
    match levelCode (bitsOf w 10 2) with
    | some dst =>
      if n = 0 ∧ bitsOf w 12 4 = 0 ∧ bitsOf w 0 10 = 0 ∧ wnat ws 5 = 0 ∧ wnat ws 6 = 0 then
        some { base with
          kind := .move, level := src, dst := dst, image := wnat ws 1
          move := moveParams (ws.getD 2 0#32) (ws.getD 3 0#32) (ws.getD 4 0#32), post := post.map bar }
      else none
    | none => none
  | some kind, some lvl, some post =>
    if 1 ≤ n ∧ n ≤ 5 ∧ bitsOf w 12 4 ≤ 3 ∧ (List.range 5).all fun k => decide (k < n) || wnat ws (2 + k) = 0 then
      some { base with
        kind := kind, level := lvl, tensor := bitsOf w 0 12
        coords := (List.range 5).map fun k => sgn (ws.getD (2 + k) 0#32)
        image := wnat ws 1, sswz := bitsOf w 12 4, post := post.map bar }
    else none
  | _, _, _ => none

/-- A command whose end is decided before anything moves. -/
def CopyCmd.ended (c : CopyCmd) (code : Nat) : CopyCmd := { c with started := true, code := some code }

/-- The barrier a post names exists (R278). -/
def State.postOk (s : State) (c : CopyCmd) : Bool :=
  match c.post with
  | some b => (s.bar? b).isSome
  | none => true

/-- The raw command of a port buffer is accepted (R278): its place among the engine's commands; one with a reserved
field completes at once (R279). -/
def State.acceptRaw (s : State) (gid : Nat) (g : Group) (q : Nat) (ws : List Word) : State :=
  let base := s.newCopy g (.raw gid q (ws.getD 7 0#32)) .ld
  match rawCopy (s.barId g) base ws with
  | some c =>
    let (op, s) := s.fresh
    s.setOps { s.ops with copies := Tab.set s.ops.copies op c }
  | none => s.updGroup gid fun g => g.popRecord q [copyStatus 0xC base.engine 0, ws.getD 7 0#32]

/-! ### Starting (R264 to R267) -/

/-- The descriptor faults of R264. -/
def startBad (k : CopyKind) (c : List Int) : Option Desc → Bool
  | none => true
  | some d =>
    let blk := blockFmt d.fmt
    (!k.fills && d.ro) || (!k.interleaves && 1 < d.group) ||
    (k.interleaves && (d.rank = 1 || blk || (d.partial_ && d.dim 1 % d.group ≠ 0) ||
      c.getD 1 0 % d.group ≠ 0 || d.boxOf 1 % d.group ≠ 0)) ||
    (blk && (c.getD 0 0 % 16 ≠ 0 || d.boxOf 0 % 16 ≠ 0))

/-- Every image byte, and every byte of a scratchpad tensor at an element that moves, lies in its allotment (R265,
R266). -/
def State.copyFits (s : State) (c : CopyCmd) (d : Desc) : Bool :=
  let size := fun l => ((c.loc l).map s.scrSize).getD 0
  let touched := fun (b : LineByte) => !b.pad &&
    (b.cls = .inside || (b.cls = .padding && c.kind = .pack))
  (List.range (4 * d.geo.lines)).all (fun i => decide (swizzle c.sswz (c.image + 16 * i) + 16 ≤ size c.level)) &&
  (d.space = 0 || (List.range d.geo.lines).all fun line =>
    (lineMap c.kind d c.coords line).all fun b => !touched b || decide (b.place < size (spaceLevel d.space)))

/-- COPY_START (R264): the descriptor is read and the command checked. DEDUCED (assumption log 30). A copy program's command that
starts where the kernel launch holds no allotment on the die ends in fault-bounds: DESIGN CHOICE (assumption log 31). -/
def State.copyStart (s : State) (id : Nat) : State :=
  match Tab.get? s.ops.copies id with
  | none => s
  | some c =>
    if c.started then s
    else
      let put := fun (s : State) c => s.setOps { s.ops with copies := Tab.set s.ops.copies id c }
      if !s.postOk c then put s (c.ended 0xA)
      else if c.kind = .move then
        if !c.moveAligned || !s.moveFits c then put s (c.ended 0xA)
        else put s { c with started := true, total := c.move.getD 1 0 * (c.move.getD 2 0 / 64) }
      else
        let die := unitDie c.core
        let (d, s) := s.desc c.owner.group die c.job c.tensor
        let (ws, s) := s.descWords c.owner.group die c.job c.tensor
        if c.image % 64 ≠ 0 then put s (c.ended 0xA)
        else if startBad c.kind c.coords d then put s (c.ended 0xB)
        else match d with
          | none => s
          | some d =>
            if !s.copyFits c d then put s (c.ended 0xA)
            else put s { c with
              desc := ws, started := true, total := d.geo.lines, clean := boxCode c.kind d c.coords }

def execCopyStart (c : Nat) (s : State) : Res := .next (s.copyStart c)

/-! ### Lines (R183, R269, R270) -/

/-- How many of a line's memory lines are granted, the first `n` having been before (R400).
DEDUCED (assumption log 27). -/
def State.grantLines (s : State) (core id n : Nat) : List (Nat × Nat) → Nat × State
  | [] => (0, s)
  | e :: es =>
    match n with
    | n + 1 =>
      let (k, s) := s.grantLines core id n es
      (k + 1, s)
    | 0 => match s.charge core e.2 id e.1 with
      | (false, s) => (0, s)
      | (true, s) =>
        let (k, s) := s.grantLines core id 0 es
        (k + 1, s)

/-- A line of a command is written on bytes that its core's watchpoints watch: a report to the group that issued it for
each reporting group whose units are hit (R370), within 512 core cycles or 16 instructions (R354). A trap handler's
command (R358), one of a completed group and one of a die copy engine report nothing. DEDUCED (assumption log 36). -/
def State.copyReports (s : State) (id : Nat) (c : CopyCmd) (obj : Nat) (offs : List Nat) : State :=
  match c.owner.group with
  | none => s
  | some gid =>
    if c.handler then s
    else
      let hits := offs.flatMap fun o => s.watchHits c.core c.job wCopy obj o 1
      (dedup (hits.map fun h => h.2.1)).foldl (fun (s : State) rg =>
        let mine := hits.filter fun h => h.2.1 = rg
        let r : Report := ⟨0x13, c.engine * 2 ^ 24 + unitMask (mine.map Prod.fst), obj,
          (mine.head?.map fun h => h.2.2).getD 0, none, 16, 0, s.coreCycles c.core + 512, id, false⟩
        s.updGroup gid fun g => if g.done then g else g.report r) s

/-- A line of a move (R183, R184). -/
def State.moveLine (s : State) (c : CopyCmd) : Option Nat × State :=
  let lpr := c.move.getD 2 0 / 64
  let r := c.next / lpr
  let l := c.next % lpr
  let src := c.image + (r * c.move.getD 3 0 + l) * 64
  let dst := c.move.getD 0 0 + (r * c.move.getD 4 0 + l) * 64
  match c.loc c.level, c.loc c.dst with
  | some a, some b =>
    if (List.range 64).any fun k => s.scrBad a (src + k) then (some 0x8, s)
    else (none, s.scrPut b ((List.range 64).map fun k => (dst + k, s.scrByte a (src + k))))
  | _, _ => (some 0x8, s)

/-- What becomes of an image line: a fault code, a wait for a cell at some granules, a wait for memory lines of
which some are granted, or done with the bytes of an object that were written. -/
inductive LineEnd where
  | fault (code : Nat)
  | cells (obj : Nat) (grans : List Nat) (paid : Nat)
  | lines (paid : Nat)
  | done (obj : Nat) (offs : List Nat)
  deriving DecidableEq, Repr

/-- A byte of the tensor as the command reads it (R233, R270). -/
def State.tensorByte (s : State) (c : CopyCmd) (d : Desc) (ps : List (Nat × Nat)) (o : Nat) : Byte :=
  if d.space = 0 then s.ctxByte c.job d.tagged c.rtag d.obj o (physIn ps o)
  else ((c.loc (spaceLevel d.space)).map fun loc => s.scrByte loc o).getD 0#8

def State.tensorBad (s : State) (c : CopyCmd) (d : Desc) (ps : List (Nat × Nat)) (o : Nat) : Bool :=
  if d.space = 0 then s.byteBad c.job d.tagged c.rtag d.obj o (physIn ps o)
  else ((c.loc (spaceLevel d.space)).map fun loc => s.scrBad loc o).getD false

/-- The memory lines of some tensor bytes, translated and checked; a scratchpad tensor has none. -/
def State.tensorLines (s : State) (c : CopyCmd) (d : Desc) (right : Nat) (offs : List Nat) :
    Option (List (Nat × Nat)) × State :=
  if d.space = 0 then s.linesOk (unitDie c.core) c.job d.obj right (dedup (offs.map lineOf)) else (some [], s)

/-- A line from the tensor to the image (R265 to R270). DEDUCED (assumption log 30). -/
def State.fillLine (s : State) (id : Nat) (c : CopyCmd) (d : Desc) : LineEnd × State :=
  let m := lineMap c.kind d c.coords c.next
  let offs := (m.filter fun b => !b.pad && b.cls = .inside).map LineByte.place
  let (ps, s) := s.tensorLines c d rRead offs
  match ps with
  | none => (.fault 0x9, s)
  | some ps =>
    if offs.any fun o => s.tensorBad c d ps o then (.fault 0x8, s)
    else
      let (n, s) := s.grantLines c.core id c.paid ps
      if n < ps.length then (.lines n, s)
      else
        let byte := fun (b : LineByte) =>
          if b.pad then 0#8
          else if b.cls = .inside then s.tensorByte c d ps b.place
          else d.fillBytes.getD b.q 0#8
        match c.loc c.level with
        | none => (.fault 0x8, s)
        | some loc =>
          let bytes := (List.range 64).foldl (fun t b => Tab.set t (imageAt c c.next b)
            ((m[b]?.map byte).getD 0#8)) []
          (.done 0 [], s.scrPut loc bytes)

/-- Bytes written to an object, line by line (R222, R226); none where one needs a cell and none is free. A line that
waited for one reached its home while its context was live (R232). -/
def State.putLines (s : State) (c : CopyCmd) (d : Desc) (bytes : Tab Byte) : List (Nat × Nat) → Option State
  | [] => some s
  | (line, phys) :: ls =>
    let mine := (bytes.filter fun e => lineOf e.1 = line).map fun e => (e.1 % 64, e.2)
    match s.ctxWrite c.job c.launch d.tagged c.tag d.obj line phys mine (c.waitGran.contains (line / 64)) with
    | some s => s.putLines c d bytes ls
    | none => none

/-- A line from the image to the tensor (R266 to R270). DEDUCED (assumption log 30). -/
def State.emptyLine (s : State) (id : Nat) (c : CopyCmd) (d : Desc) : LineEnd × State :=
  let m := (List.range 64).map fun b => (b, (lineMap c.kind d c.coords c.next)[b]?.getD ⟨true, .outside, 0, 0⟩)
  let ins := m.filter fun e => !e.2.pad && e.2.cls = .inside
  let pads := m.filter fun e => !e.2.pad && e.2.cls = .padding
  let offs := (ins ++ pads).map fun e => e.2.place
  match c.loc c.level with
  | none => (.fault 0x8, s)
  | some loc =>
    if ins.any fun e => s.scrBad loc (imageAt c c.next e.1) then (.fault 0x8, s)
    else
      let (ps, s) := s.tensorLines c d rWrite offs
      match ps with
      | none => (.fault 0x9, s)
      | some ps =>
        let (n, s) := s.grantLines c.core id c.paid ps
        if n < ps.length then (.lines n, s)
        else
          let bytes := (ins.map fun e => (e.2.place, s.scrByte loc (imageAt c c.next e.1))) ++
            pads.map fun e => (e.2.place, d.fillBytes.getD e.2.q 0#8)
          let bytes := bytes.foldl (fun t e => Tab.set t e.1 e.2) []
          if d.space = 0 then
            match s.putLines c d bytes ps with
            | some s => (.done d.obj offs, s)
            | none => (.cells d.obj (ps.map fun e => e.1 / 64) n, s)
          else match c.loc (spaceLevel d.space) with
            | some t => (.done 0 [], s.scrPut t bytes)
            | none => (.fault 0x8, s)

/-- The segments that a command's next line reads or writes (R186). -/
def State.copySegs (s : State) (c : CopyCmd) : List (SramArray × Nat) :=
  let segs := fun (l : Level) (as : List Nat) => ((c.loc l).map fun loc => as.map (s.segOf loc)).getD []
  if c.kind = .move then
    let lpr := c.move.getD 2 0 / 64
    segs c.level [c.image + (c.next / lpr * c.move.getD 3 0 + c.next % lpr) * 64] ++
      segs c.dst [c.move.getD 0 0 + (c.next / lpr * c.move.getD 4 0 + c.next % lpr) * 64]
  else
    let d := Desc.read c.desc
    let moved := (lineMap c.kind d c.coords c.next).filter fun b =>
      !b.pad && (b.cls = .inside || (b.cls = .padding && c.kind = .pack))
    segs c.level ((List.range 64).map (imageAt c c.next)) ++
      (if d.space = 0 then [] else segs (spaceLevel d.space) (moved.map LineByte.place))

/-- COPY_LINE (R183, R187, R269, R270): the command's next line, all or nothing. Its lines become visible in rising order,
where R256 promises none: DESIGN CHOICE (assumption log 30). -/
def State.copyLine (s : State) (id : Nat) : State :=
  match Tab.get? s.ops.copies id with
  | none => s
  | some c =>
    if !c.started || c.code.isSome || c.total ≤ c.next || !s.ownerOrdered id c.owner || s.asleep (s.copySegs c) then s
    else
      let s := s.touch (s.copySegs c)
      let put := fun (s : State) c => (s.setOps { s.ops with copies := Tab.set s.ops.copies id c }).setKennel
        { s.kennel with waits := s.kennel.waits.filter fun w => w ≠ id }
      if c.kind = .move then
        match s.moveLine c with
        | (some code, s) => put s { c with code := some code, elem := c.next }
        | (none, s) => put s { c with next := c.next + 1 }
      else
        let d := Desc.read c.desc
        match if c.kind.fills then s.fillLine id c d else s.emptyLine id c d with
        | (.fault code, s) => put s { c with code := some code, elem := firstElem d c.next }
        | (.lines n, s) => put s { c with paid := n }
        | (.cells obj grans n, s) =>
          let c' := { c with paid := n, waitObj := obj, waitGran := grans }
          let s := s.setOps { s.ops with copies := Tab.set s.ops.copies id c' }
          s.setKennel { s.kennel with waits :=
            if s.kennel.waits.contains id then s.kennel.waits else s.kennel.waits ++ [id] }
        | (.done obj offs, s) =>
          (put s { c with next := c.next + 1, paid := 0, waitGran := [] }).copyReports id c obj offs

def execCopyLine (c : Nat) (s : State) : Res := .next (s.copyLine c)

/-- CELL_WAIT_GRANT (R227): a waiting write tries for a cell again. -/
def State.cellGrant (s : State) (w : Nat) : State :=
  if !s.kennel.waits.contains w then s
  else if Tab.has s.ops.sfq w then s.lineArrive w
  else if Tab.has s.ops.copies w then s.copyLine w
  else match Tab.get? s.ops.mem w with
    | some o => match o.accs.find? LaneAcc.waits with
      | some a => s.atomicPerform w a.lane
      | none => s
    | none => s.setKennel { s.kennel with waits := s.kennel.waits.filter fun x => x ≠ w }

def execCellWaitGrant (w : Nat) (s : State) : Res := .next (s.cellGrant w)

/-! ### Completion (R271 to R273, R278) -/

/-- A command of a copy program or a collective sub-launch is complete; the last gives its status (R386, R431). -/
def Sub.tell (x : Sub) (bad : Bool) : Sub :=
  let bad := x.bad || bad
  let st := if bad then (if bitsOf (wnat x.words 0) 28 4 = 1 then stCopy else stCollective) else 0
  { x with left := x.left - 1, bad := bad, status := if x.left ≤ 1 then some st else x.status }

def State.subDone (s : State) (bundle sub : Nat) (bad : Bool) : State :=
  let f := fun (i : Nat) (x : Sub) => if i = sub then x.tell bad else x
  s.updBundle bundle fun b => { b with subs := b.subs.mapIdx f }

/-- COPY_COMPLETE (R272): the post, then the status word or record, before which the command's copy-write reports are
delivered (R370). -/
def State.copyComplete (s : State) (id : Nat) : State :=
  match Tab.get? s.ops.copies id with
  | none => s
  | some c =>
    if !c.started || (c.code.isNone && c.next < c.total) || !s.ownerOrdered id c.owner then s
    else
      let code := c.code.getD c.clean
      let s := s.setOps { s.ops with copies := Tab.set s.ops.copies id { c with posted := true } }
      let s := match c.post with
        | some b => if c.posted || 0xA ≤ code then s else s.barEvent b (2, c.next * 64)
        | none => s
      if s.reportOwed id c.owner then s
      else
      let s := s.setOps { s.ops with copies := Tab.del s.ops.copies id }
      let w := copyStatus code c.engine (if 0xA ≤ code then 0 else c.next)
      match c.owner with
      | .scalar gid _ => s.updGroup gid fun g =>
          let g := (g.landScalar id w).complete cCP id
          if 0x8 ≤ code then { g with cpfault := loWord (if 0xA ≤ code then 0xFFFFFFFF else c.elem) } else g
      | .raw gid q user => s.updGroup gid fun g => g.popRecord q [w, user]
      | .program b sub => s.subDone b sub (decide (0x8 ≤ code))

def execCopyComplete (c : Nat) (s : State) : Res := .next (s.landing (s.copyComplete c) fun _ => false)

end Sys2Proof.Machine
end

