-- ==== Sys2Proof/Machine/Matrix.lean ====
section
/-!
DEFINITION. The matrix engine and the accumulator store (R280 to R303): the commands a group issues, and their
execution on tiles in acceptance order.
-/

namespace Sys2Proof.Machine

/-! ### Acceptance -/

/-- The commands a core's engine holds (R284). -/
def State.matsOf (s : State) (core : Nat) : Nat := (s.ops.mats.filter fun e => e.2.core = core).length

/-- The segments of some ranges of a block's core allotment, each shorter than a segment (R186). -/
def State.rangeSegs (s : State) (block : Nat) (rs : List (Nat × Nat)) : List (SramArray × Nat) :=
  rs.flatMap fun r => [s.segOf (.core block) r.1, s.segOf (.core block) (r.1 + r.2 - 1)]

/-- A command is accepted (R284): TL counts it, and its destination registers are pending. -/
def State.acceptMat (s : State) (gid : Nat) (g : Group) (tile : Nat) (op : MatOp) (regs : List PReg) : Eff :=
  if g.cnt cTL = 15 || decide (Config.matrixQueue ≤ s.matsOf g.core) then .wait
  else
    let (n, s) := s.fresh
    let c : MatCmd := ⟨gid, g.core, g.block.getD 0, s.jobOf g, tile, op, g.width⟩
    doneG (s.setOps { s.ops with mats := Tab.set s.ops.mats n c }) gid ((g.count cTL n).setPend n regs) .seq

/-! ### MMA -/

/-- The element size exponent and codes of a half. -/
def halfFmt (fmt : MmaFmt) : FFmt :=
  match fmt with
  | .f16 => fp16
  | .bf16 | .i8 | .t8 | .t6 | .f32 => bf16

/-- An integer as an exact value. -/
def FVal.ofInt (n : Int) : FVal := .fin (decide (n < 0)) n.natAbs 0

/-- The zero of an A row (R289). -/
def FVal.zero : FVal := .fin false 0 0

/-- Element of A with stored place `n` and logical place `k` in a lane's registers (R288). -/
def aElem (g : Group) (fmt : MmaFmt) (a : Reg) (data : Nat) (lane n k : Nat) : FVal :=
  let reg := fun i => (g.src a i lane).toNat
  let scale := reg (data + k / 16)
  let byte := bitsOf (reg (n / 4)) (8 * (n % 4)) 8
  match fmt with
  | .i8 => FVal.ofInt (signedOf byte 8)
  | .t8 => blockDecode 8 (bitsOf scale 0 8) (bitsOf scale 8 8) (k % 16) byte
  | .t6 => blockDecode 6 (bitsOf scale 0 8) (bitsOf scale 8 8) (k % 16) (byte % 64)
  | .bf16 | .f16 => (halfFmt fmt).unpack (bitsOf (reg (n / 2)) (16 * (n % 2)) 16)
  | .f32 => fp32.unpack (reg n)

/-- Index j of group q's metadata (R293). -/
def metaIdx (g : Group) (m : Reg) (lane q j : Nat) : Nat :=
  bitsOf (g.src m (q / 2) lane).toNat (16 * (q % 2) + 3 * j) 3

/-- A lane's metadata is malformed (R293). -/
def metaBad (g : Group) (m : Reg) (kb lane : Nat) : Bool :=
  (List.range kb).any (fun h => let w := (g.src m h lane).toNat; bitsOf w 12 4 ≠ 0 || bitsOf w 28 4 ≠ 0) ||
  (List.range (2 * kb)).any fun q =>
    !((List.range 3).all fun j => decide (metaIdx g m lane q j < metaIdx g m lane q (j + 1)))

/-- A lane's row of A (R288, R293). DEDUCED (assumption log 33). -/
def aRow (g : Group) (fmt : MmaFmt) (a : Reg) (meta? : Option Reg) (kb lane : Nat) : List FVal :=
  match meta? with
  | none => (List.range (16 * kb)).map fun k => aElem g fmt a (fmt.dataRegs kb) lane k k
  | some m => (List.range (16 * kb)).map fun k =>
      match (List.range 4).find? fun j => metaIdx g m lane (k / 8) j = k % 8 with
      | some j => aElem g fmt a (fmt.dataRegs kb / 2) lane (4 * (k / 8) + j) k
      | none => FVal.zero

/-- The bytes of a column of B, and in plane placement of its scales (R290). -/
def colBytes (f kb : Nat) (plane : Bool) : Nat :=
  match f with
  | 0 => 16 * kb
  | 6 | 7 => 32 * kb
  | 8 => 64 * kb
  | 10 => if plane then 16 * kb else 18 * kb
  | _ => if plane then 12 * kb else 14 * kb

/-- Whether a B format pairs with A (R288). -/
def pairsWith (fmt : MmaFmt) (f : Nat) : Bool :=
  match fmt with
  | .i8 => f = 0
  | .t8 | .t6 => f = 10 || f = 11
  | .bf16 => f = 7
  | .f16 => f = 6
  | .f32 => f = 8

/-- The parameter block's fields (R290). -/
def pFmt (ws : List Word) : Nat := bitsOf (wnat ws 1) 16 4
def pPlane (ws : List Word) : Bool := (wnat ws 1).testBit 20
def pPitch (ws : List Word) : Nat := bitsOf (wnat ws 1) 0 16
def pPlanePitch (ws : List Word) : Nat := bitsOf (wnat ws 3) 0 16

/-- A reserved bit is nonzero or the formats do not pair (R290, R291). -/
def paramBad (fmt : MmaFmt) (ws : List Word) : Bool :=
  bitsOf (wnat ws 1) 21 11 ≠ 0 || bitsOf (wnat ws 3) 16 16 ≠ 0 || (List.range 4).any (fun k => wnat ws (4 + k) ≠ 0) ||
  !pairsWith fmt (pFmt ws) || (pPlane ws && !blockFmt (pFmt ws)) ||
  (!pPlane ws && (wnat ws 2 ≠ 0 || pPlanePitch ws ≠ 0))

/-- The faults of R291 after the parameter block is read, in their order; `metaLanes` are the lanes of malformed
metadata. -/
def mmaFault (fmt : MmaFmt) (kb allot : Nat) (ws : List Word) (metaLanes : Mask) : Option Cause :=
  if paramBad fmt ws then some (.plain 0x0B)
  else if [wnat ws 0, pPitch ws, wnat ws 2, pPlanePitch ws].any fun x => x % 4 ≠ 0 then some (.plain 0x09)
  else if allot < wnat ws 0 + 63 * pPitch ws + colBytes (pFmt ws) kb (pPlane ws) ||
      (pPlane ws && decide (allot < wnat ws 2 + 63 * pPlanePitch ws + 2 * kb)) then some (.plain 0x07)
  else if metaLanes != 0#64 then some (.at 0x0A metaLanes)
  else none

/-- MMA and MMA.sp (R291): each row of A is read from its lane of Exec, or is zero (R289). -/
def mmaEff (tile : Nat) (a b : Reg) (zf : Bool) (fmt : MmaFmt) (meta? : Option Reg) (kb : Nat) (s : State) (gid : Nat)
    (g : Group) (_cl : Clause) : Eff :=
  let p := (g.sval b 0).toNat
  let allot := s.allot g
  if g.active == 0#64 then doneG s gid g .seq
  else if p % 32 ≠ 0 then .trap (.plain 0x09)
  else if allot < p + 32 then .trap (.plain 0x07)
  else if s.asleep (s.rangeSegs (g.block.getD 0) [(p, 32)]) then .wait
  else if s.badScratch (g.block.getD 0) p 32 then .kill stSram
  else
    let s := s.touch (s.rangeSegs (g.block.getD 0) [(p, 32)])
    let ws := bytesToWords (s.scratchRead g p 32)
    let bad := match meta? with
      | some m => maskOf fun i => g.active.getLsbD i && metaBad g m kb i
      | none => 0#64
    match mmaFault fmt kb allot ws bad with
    | some c => .trap c
    | none =>
      let rows := (List.range g.width).map fun r =>
        if g.active.getLsbD r then some (aRow g fmt a meta? kb r) else none
      s.acceptMat gid g tile (.mma fmt zf kb rows ws) []

def execMma (accLo : BitVec 8) (a b : Reg) (accHi : BitVec 1) (ru zf : Bool) (fmt : MmaFmt) (kb : BitVec 8)
    (s : State) : Res :=
  issue (.mma accLo a b accHi ru zf fmt kb)
    (mmaEff (accLo.toNat + 256 * accHi.toNat) a b zf fmt none kb.toNat) s

def execMmaSp (accLo : BitVec 8) (a b : Reg) (accHi : BitVec 1) (ru zf : Bool) (fmt : MmaFmt) (m : Reg)
    (kb : BitVec 8) (s : State) : Res :=
  issue (.mmaSp accLo a b accHi ru zf fmt m kb)
    (mmaEff (accLo.toNat + 256 * accHi.toNat) a b zf fmt (some m) kb.toNat) s

/-! ### Tile transfers -/

/-- The bytes of a tile row in the scratchpad (R300). -/
def rowB (fmt : TileFmt) : Nat :=
  match fmt with
  | .f32 | .i32 | .b32 => 256
  | .bf16 | .f16 => 128
  | .t8 => 72
  | .t6 => 56

/-- ACCLD and ACCST (R301). -/
def accMoveEff (store : Bool) (a b : Reg) (fmt : TileFmt) (rows : BitVec 6) (acc : BitVec 9) (s : State) (gid : Nat)
    (g : Group) (_cl : Clause) : Eff :=
  let sa := (g.sval a 0).toNat
  let sb := (g.sval b 0).toNat
  let n := rows.toNat + 1
  if g.active == 0#64 then doneG s gid g .seq
  else if sa % 4 ≠ 0 || sb % 4 ≠ 0 then .trap (.plain 0x09)
  else if s.allot g < sa + (n - 1) * sb + rowB fmt then .trap (.plain 0x07)
  else s.acceptMat gid g acc.toNat (if store then .st fmt sa sb n else .ld fmt sa sb n) []

def execAccld (a b : Reg) (fmt : TileFmt) (rows : BitVec 6) (acc : BitVec 9) (s : State) : Res :=
  issue (.accld a b fmt rows acc) (accMoveEff false a b fmt rows acc) s

def execAccst (a b : Reg) (fmt : TileFmt) (rows : BitVec 6) (acc : BitVec 9) (s : State) : Res :=
  issue (.accst a b fmt rows acc) (accMoveEff true a b fmt rows acc) s

/-- ACCRD (R298). -/
def execAccrd (d : Reg) (cv : AccCv) (cg : BitVec 3) (acc : BitVec 9) (s : State) : Res :=
  issue (.accrd d cv cg acc) (fun s gid g _ =>
    if g.active == 0#64 then doneG s gid g .seq
    else s.acceptMat gid g acc.toNat (.rd cv cg.toNat g.exec (g.phys d 0)) (g.pregs d 8)) s

/-- ACCWR (R298). -/
def execAccwr (d : Reg) (cv : AccCv) (cg : BitVec 3) (acc : BitVec 9) (s : State) : Res :=
  issue (.accwr d cv cg acc) (fun s gid g _ =>
    if g.active == 0#64 then doneG s gid g .seq
    else s.acceptMat gid g acc.toNat (.wr cv cg.toNat ((maskList g.active).map fun i =>
      (i, (List.range 8).map fun j => g.src d j i))) []) s

/-- ACCCLR (R303). -/
def execAccclr (acc : BitVec 9) (s : State) : Res :=
  issue (.accclr acc) (fun s gid g _ =>
    if g.active == 0#64 then doneG s gid g .seq else s.acceptMat gid g acc.toNat .clr []) s

/-- ACCREL (R303). -/
def execAccrel (acc : BitVec 9) (s : State) : Res :=
  issue (.accrel acc) (fun s gid g _ =>
    if g.active == 0#64 then doneG s gid g .seq else s.acceptMat gid g acc.toNat .rel []) s

/-! ### Tiles (R280 to R283) -/

/-- A tile that reads as zero with type fp32. -/
def TileData.blank : TileData := ⟨false, []⟩

/-- The physical number of a block's tile on its core. -/
def Block.physTile (b : Block) (t : Nat) : Nat := b.core * 512 + b.tiles.getD t 0

/-- A command reaches its tile (R282): ownership passes to the block, another block's data is saved first. -/
def State.reachTile (s : State) (bid : Nat) (b : Block) (job t : Nat) : TileData × State :=
  let p := b.physTile t
  let cur := Tab.getD s.tiles p ⟨none, TileData.blank⟩
  if cur.owner = some (job, bid) then (cur.data, s)
  else
    let s := match cur.owner with
      | some (_, other) => s.updBlock other fun x => match x.tiles.findIdx? fun n => x.core * 512 + n = p with
        | some k => { x with savedTiles := Tab.set x.savedTiles k cur.data }
        | none => x
      | none => s
    let data := Tab.getD b.savedTiles t TileData.blank
    let s := s.updBlock bid fun x => { x with savedTiles := Tab.del x.savedTiles t }
    (data, { s with tiles := Tab.set s.tiles p ⟨some (job, bid), data⟩ })

/-- Element (r, n) of a tile (R280). -/
def TileData.get (d : TileData) (r n : Nat) : Word := Tab.getD d.el (r * 64 + n) 0#32
def TileData.put (d : TileData) (r n : Nat) (w : Word) : TileData := { d with el := Tab.set d.el (r * 64 + n) w }

/-- Elements written by place. -/
def TileData.putAll (d : TileData) (ws : List (Nat × Nat × Word)) : TileData :=
  ws.foldl (fun d w => d.put w.1 w.2.1 w.2.2) d

/-! ### Execution -/

/-- The products of one pair of elements (R79); fp32 operands go in two parts (R81). -/
def products (fmt : MmaFmt) (x y : FVal) : List FVal :=
  match fmt, x, y with
  | .f32, .fin _ _ _, .fin _ _ _ =>
    [prodExact (splitHi x) (splitHi y), prodExact (splitHi x) (splitLo y), prodExact (splitLo x) (splitHi y)]
  | _, _, _ => [prodExact x y]

/-- The 16 elements of k-block b. -/
def kblock (l : List FVal) (b : Nat) : List FVal := (l.drop (16 * b)).take 16

/-- An exact integer value. -/
def FVal.toInt : FVal → Int
  | .fin n m _ => signedMant n m
  | .inf _ | .nan _ => 0

/-- The products of a row's k-block with B's (R79). A row that no lane of Exec gives is zero and adds an exact zero (R289):
its product with what is not finite is one too, and what sign the others give it is R79's. DEDUCED (assumption log 33). -/
def blockProducts (fmt : MmaFmt) (a : Option (List FVal)) (b : List FVal) (k : Nat) : List FVal :=
  match a with
  | some a => (List.zipWith (products fmt) (kblock a k) (kblock b k)).flatten
  | none => (kblock b k).flatMap fun y => match y with
    | .fin _ _ _ => products fmt FVal.zero y
    | .inf _ | .nan _ => [FVal.zero]

/-- One output element of an MMA (R292); `a` is the row of A, none for a zero row (R289). -/
def mmaElem (fmt : MmaFmt) (kb : Nat) (a : Option (List FVal)) (b : List FVal) (acc : Word) : Word :=
  match fmt with
  | .i8 => wrap32 (sgn acc + (List.zipWith (fun x y => x.toInt * y.toInt) (a.getD []) b).foldl (· + ·) 0)
  | .t8 | .t6 | .bf16 | .f16 | .f32 =>
    w32 ((List.range kb).foldl (fun acc k => (addEven acc (kblockSum (blockProducts fmt a b k))).1) acc.toNat)

/-- The codes of a T8 or T6 block's elements in memory (R74). -/
def blockCode (w : Nat) (bs : List Byte) (i : Nat) : Nat :=
  if w = 8 then (bs.getD i 0#8).toNat else bitsOf (bytesToNat (bs.take 12)) (6 * i) 6

/-- Column n of B as the engine reads it (R290). -/
def bCol (rd : Nat → Nat → List Byte) (ws : List Word) (kb n : Nat) : List FVal :=
  let f := pFmt ws
  let plane := pPlane ws
  let at_ := wnat ws 0 + n * pPitch ws
  let bs := rd at_ (colBytes f kb plane)
  match f with
  | 0 => bs.map fun b => FVal.ofInt b.toInt
  | 6 => (List.range (16 * kb)).map fun k => fp16.unpack (bytesToNat ((bs.drop (2 * k)).take 2))
  | 7 => (List.range (16 * kb)).map fun k => bf16.unpack (bytesToNat ((bs.drop (2 * k)).take 2))
  | 8 => (List.range (16 * kb)).map fun k => fp32.unpack (bytesToNat ((bs.drop (4 * k)).take 4))
  | _ =>
    let w := if f = 10 then 8 else 6
    let size := fmtBytes f plane
    (List.range kb).flatMap fun b =>
      let blk := (bs.drop (size * b)).take size
      let sc := if plane then rd (wnat ws 2 + n * pPlanePitch ws + 2 * b) 2 else blk.drop (size - 2)
      (List.range 16).map fun i =>
        blockDecode w (sc.getD 0 0#8).toNat (sc.getD 1 0#8).toNat i (blockCode w blk i)

/-- An element converted as ACCRD and ACCST write it (R297, R300); an fp32 element read as fp32 stands as it is, a NaN too.
DEDUCED (assumption log 57). -/
def accOut (isI32 : Bool) (cv : AccCv) (x : Word) : Word :=
  let n := x.toNat
  match cv with
  | .raw => x
  | .f32 => if isI32 then w32 (fp32.ofInt .even (sgn x)).1 else x
  | .i32 => if isI32 then x else wrap32 (fp32.toInt .even (-2147483648) 2147483647 n).1
  | .bf16 => w32 (if isI32 then bf16.ofInt .even (sgn x) else fp32.convert bf16 .even n).1
  | .f16 => w32 (if isI32 then fp16.ofInt .even (sgn x) else fp32.convert fp16 .even n).1

/-- An element as ACCWR and ACCLD take it (R297, R300). -/
def accIn (cv : AccCv) (x : Word) : Word :=
  match cv with
  | .raw | .f32 | .i32 => x
  | .bf16 => w32 (bf16.convert fp32 .even (x.toNat % 2 ^ 16)).1
  | .f16 => w32 (fp16.convert fp32 .even (x.toNat % 2 ^ 16)).1

/-- The type a conversion gives the tile (R297). -/
def accType (cv : AccCv) (old : Bool) : Bool :=
  match cv with
  | .raw => old
  | .i32 => true
  | .f32 | .bf16 | .f16 => false

/-- The conversion of a scratchpad format that is not in blocks (R300). -/
def tileCv (fmt : TileFmt) : AccCv :=
  match fmt with
  | .f32 => .f32
  | .i32 => .i32
  | .bf16 => .bf16
  | .f16 => .f16
  | .b32 | .t8 | .t6 => .raw

/-- The block element width of a format, 0 for the others. -/
def tileW (fmt : TileFmt) : Nat :=
  match fmt with
  | .t8 => 8
  | .t6 => 6
  | .f32 | .i32 | .bf16 | .f16 | .b32 => 0

/-- The elements of a row read from the scratchpad (R300). -/
def rowIn (fmt : TileFmt) (bs : List Byte) : List Word :=
  if tileW fmt = 0 then
    let n := rowB fmt / 64
    (List.range 64).map fun k => accIn (tileCv fmt) (loWord (bytesToNat ((bs.drop (n * k)).take n)))
  else
    let n := rowB fmt / 4
    (List.range 4).flatMap fun j =>
      let blk := (bs.drop (n * j)).take n
      (List.range 16).map fun i => w32 (toFp32Even (blockDecode (tileW fmt) (blk.getD (n - 2) 0#8).toNat
        (blk.getD (n - 1) 0#8).toNat i (blockCode (tileW fmt) blk i))).1

/-- A block's bytes in memory (R74). -/
def blockBytes (w ex mu : Nat) (codes : List Nat) : List Byte :=
  (if w = 8 then codes.map (BitVec.ofNat 8)
   else natToBytes (sumNat (codes.mapIdx fun j c => c * 2 ^ (6 * j))) 12) ++ [BitVec.ofNat 8 ex, BitVec.ofNat 8 mu]

/-- The bytes of a tile row in the scratchpad (R300). -/
def rowOut (fmt : TileFmt) (isI32 : Bool) (ws : List Word) : List Byte :=
  if tileW fmt = 0 then ws.flatMap fun x => natToBytes (accOut isI32 (tileCv fmt) x).toNat (rowB fmt / 64)
  else
    (List.range 4).flatMap fun j =>
      let x := ((ws.drop (16 * j)).take 16).map fun x => if isI32 then FVal.ofInt (sgn x) else fp32.unpack x.toNat
      let ex := blockExp (tileW fmt) x
      let mu := blockMu (tileW fmt) ex x
      blockBytes (tileW fmt) ex mu (blockCodes (tileW fmt) ex mu x)

/-- The 64-bit words of its tile that a command reads: word d holds two elements of row d / 32 (R280, R302). -/
def MatOp.readsWord (op : MatOp) (d : Nat) : Bool :=
  match op with
  | .mma _ zf _ a _ => !zf && decide (d / 32 < a.length)
  | .st _ _ _ rows => decide (d / 32 < rows)
  | .rd _ cg lanes _ => lanes.getLsbD (d / 32) && d % 32 / 4 = cg
  | .ld _ _ _ _ | .wr _ _ _ | .clr | .rel => false

/-- The words of its tile that a command writes, each whole. -/
def MatOp.writesWord (op : MatOp) (d : Nat) : Bool :=
  match op with
  | .mma _ _ _ a _ => decide (d / 32 < a.length)
  | .ld _ _ _ rows => decide (d / 32 < rows)
  | .wr _ cg rows => d % 32 / 4 = cg && rows.any fun e => e.1 = d / 32
  | .clr | .rel => true
  | .st _ _ _ _ | .rd _ _ _ _ => false

/-- The ranges of the block's scratchpad that a command reads (R290, R300), and the one an ACCST writes. -/
def MatOp.scratchReads (op : MatOp) : List (Nat × Nat) :=
  match op with
  | .mma _ _ kb _ ws => (List.range 64).flatMap fun n =>
      (wnat ws 0 + n * pPitch ws, colBytes (pFmt ws) kb (pPlane ws)) ::
        if pPlane ws then [(wnat ws 2 + n * pPlanePitch ws, 2 * kb)] else []
  | .ld fmt addr pitch rows => (List.range rows).map fun r => (addr + r * pitch, rowB fmt)
  | .st _ _ _ _ | .rd _ _ _ _ | .wr _ _ _ | .clr | .rel => []

def MatOp.scratchWrites (op : MatOp) : List (Nat × Nat) :=
  match op with
  | .st fmt addr pitch rows => (List.range rows).map fun r => (addr + r * pitch, rowB fmt)
  | .mma _ _ _ _ _ | .ld _ _ _ _ | .rd _ _ _ _ | .wr _ _ _ | .clr | .rel => []

/-- Whether a command meets an uncorrectable error (R302): in a word of its tile, or in a scratchpad byte, that it reads.
DEDUCED (assumption log 33). -/
def State.matBad (s : State) (c : MatCmd) : Bool :=
  (s.bad.any fun x => match x with
    | .tile k t d => k = c.block && t = c.tile && c.op.readsWord d
    | _ => false) ||
  c.op.scratchReads.any fun r => s.badScratch c.block r.1 r.2

/-- A 64-bit word of the block's scratchpad whose eight bytes a command stores. -/
def MatOp.storesWord (op : MatOp) (d : Nat) : Bool :=
  (List.range 8).all fun k => op.scratchWrites.any fun r => decide (r.1 ≤ 8 * d + k) && decide (8 * d + k < r.1 + r.2)

/-- The segments of the accumulator store and of the core scratchpad that a command uses (R186, R302). -/
def State.matSegs (s : State) (c : MatCmd) (b : Block) : List (SramArray × Nat) :=
  tileSeg b.core (b.tiles.getD c.tile 0) :: s.rangeSegs c.block (c.op.scratchReads ++ c.op.scratchWrites)

/-- The tile after a command, `rd` reading the block's scratchpad. -/
def MatCmd.tileAfter (c : MatCmd) (rd : Nat → Nat → List Byte) (t : TileData) : TileData :=
  match c.op with
  | .mma fmt zf kb a ws =>
    let ps := (List.range 64).flatMap fun n =>
      let col := bCol rd ws kb n
      a.mapIdx fun r row => (r, n, mmaElem fmt kb row col (if zf then 0#32 else t.get r n))
    { t.putAll ps with isI32 := fmt == .i8 }
  | .ld fmt addr pitch rows =>
    let ps := (List.range rows).flatMap fun r =>
      (rowIn fmt (rd (addr + r * pitch) (rowB fmt))).mapIdx fun n w => (r, n, w)
    { t.putAll ps with isI32 := if fmt = .b32 then t.isI32 else decide (fmt = .i32) }
  | .wr cv cg rows =>
    let ps := rows.flatMap fun e => e.2.mapIdx fun j w => (e.1, 8 * cg + j, accIn cv w)
    { t.putAll ps with isI32 := accType cv t.isI32 }
  | .clr => { t with el := [] }
  | .rel => TileData.blank
  | .st _ _ _ _ | .rd _ _ _ _ => t

/-- The register writes of an ACCRD (R298). -/
def MatCmd.regWrites (c : MatCmd) (t : TileData) : List (Target × Word) :=
  match c.op with
  | .rd cv cg lanes d => (List.range 8).flatMap fun j => (maskList lanes).map fun i =>
      (.v (d + j) i, accOut t.isI32 cv (t.get i (8 * cg + j)))
  | _ => []

/-- The scratchpad after an ACCST (R300, R301): rows in rising order. -/
def MatCmd.scratchAfter (c : MatCmd) (t : TileData) (b : Block) : Block :=
  match c.op with
  | .st fmt addr pitch rows => (List.range rows).foldl (fun b r =>
      b.write (addr + r * pitch) (rowOut fmt t.isI32 ((List.range 64).map fun n => t.get r n))) b
  | _ => b

/-- MATRIX_COMMAND_EXECUTE (R285): the core's eldest command runs on its tile, once no segment it uses is in retention
(R187). It reads all of B at that one moment, where R292 allows each byte either value: DESIGN CHOICE. DEDUCED
(assumption log 33). -/
def State.matExecute (s : State) (core : Nat) : State :=
  match s.ops.mats.find? fun e => e.2.core = core with
  | none => s
  | some (id, c) =>
    match Tab.get? s.work.blocks c.block with
    | none => s
    | some b =>
      if !s.engineOrdered c.group id || s.asleep (s.matSegs c b) then s
      else
        let s := s.touch (s.matSegs c b)
        let launch := b.launch
        if s.matBad c then s.killLaunch launch stSram
        else
          let (t, s) := s.reachTile c.block b c.job c.tile
          let p := b.physTile c.tile
          let t' := c.tileAfter b.read t
          let s := s.setOps { s.ops with mats := Tab.del s.ops.mats id }
          let s := { s with
            tiles := if c.op = MatOp.rel then Tab.set s.tiles p ⟨none, TileData.blank⟩
              else Tab.set s.tiles p ⟨some (c.job, c.block), t'⟩
            bad := s.bad.filter fun x => match x with
              | .tile k t d => !(k = c.block && t = c.tile && c.op.writesWord d)
              | .coreScratch k d => !(k = c.block && c.op.storesWord d)
              | _ => true }
          let s := s.updBlock c.block (c.scratchAfter t)
          s.updGroup c.group fun g =>
            (((c.regWrites t).foldl (fun g w => g.landResult id w) g).clearPend id).complete cTL id

def execMatrixCommandExecute (core : Nat) (s : State) : Res := .next (s.landing (s.matExecute core) fun _ => false)

end Sys2Proof.Machine
end

