-- ==== Sys2Proof/Machine/Start.lean ====
section
/-!
DEFINITION. A group, a barrier and a lane state as they start (R61, R335).
-/

namespace Sys2Proof.Machine

/-- A barrier of some members (R335). -/
def Barrier.init (members map : Nat) : Barrier :=
  { expected := members, arrived := 0, expbytes := 0, posted := 0, num := 0, releasing := false, held := false
    map := map, members := members, kept := 0, t0 := 0, relNum := 0, cleared := [], queue := [], top := 0, tails := [] }

/-- The barriers of a directive's count. -/
def barsInit (n members map : Nat) : Tab Barrier := (List.range n).map fun k => (k, Barrier.init members map)

/-- The lane state of a group at its start (R61). -/
def LaneState.start (active : Mask) (entry : Nat) : LaneState :=
  { active := active, parked := [], exited := 0#64, lpc := (maskList active).map fun i => (i, entry), lage := []
    p := [], x := [], j := [], rep := 0, repN := 0, repAddr := 0, agelimit := 256, rmode := 0#2, fflags := 0#5
    ctag := 0#16 }

/-- A group at its start (R61), without registers' values. -/
def Group.start (launch : Nat) (block : Option Nat) (gix core slice : Nat) (k : Kernel) (active helpers : Mask)
    (entry : Nat) : Group :=
  { launch := launch, block := block, gix := gix, core := core, slice := slice, width := k.width, vregs := k.vregs
    sregs := k.sregs, names := k.vregs, helpers := helpers, res := .waiting, since := 0
    lanes := LaneState.start active entry, v := [], s := [], b := [], slot := 0, inflight := [], pend := []
    clause := none, trap := none, cnts := [], sleep := none, hold := none, ctxwait := false, barsTok := none
    arrivals := [], fwd := [], seen := [], behind := [], wantedBy := none, cpfault := 0#32, bounds := false
    reports := [], dropped := 0, step := false
    claim := none, qbuf := [], qcmp := [], qclaims := [], qout := [], done := false, waitCnt := 0, readyCnt := 0
    idleCnt := 0, stallWait := none, recov := none, frozen := false }

end Sys2Proof.Machine
end

