-- ==== Sys2Proof/Machine/Place.lean ====
section
/-!
DEFINITION. What blocks, gangs and launches hold (R168, R169, R171, R334), where the distributor and the Pups place
them (R391, R392, R445, R371), and how they end (R107, R220, R385, R390).
-/

namespace Sys2Proof.Machine

/-! ### What is held -/

/-- A job is on the part: no time slice has taken it off. -/
def State.jobHere (s : State) (job : Nat) : Bool :=
  match Tab.get? s.work.jobs job with
  | some j => (match j.slice with
    | .out _ => false
    | .running | .stopping _ => true)
  | none => false

/-- A job runs: it is neither stopping nor out. -/
def State.jobRuns (s : State) (job : Nat) : Bool := ((Tab.get? s.work.jobs job).map Job.slice) = some .running

/-- A block holds its core's resources: it is not saved, by eviction or with its job (R171, R375, R377). -/
def State.occupies (s : State) (b : Block) : Bool :=
  b.state != .saved && ((Tab.get? s.work.launches b.launch).map fun l => s.jobHere l.job).getD false

/-- The blocks of a core. -/
def State.blocksOn (s : State) (core : Nat) : List (Nat × Block) :=
  s.work.blocks.filter fun e => e.2.core = core && s.occupies e.2

/-- The kernel of a launch. -/
def State.launchUses (s : State) (lid : Nat) (f : Kernel → Nat) : Nat :=
  ((Tab.get? s.work.launches lid).map fun l => f l.kernel).getD 0

/-- What the blocks of a core hold of something (R168, R281, R334). -/
def State.coreUse (s : State) (core : Nat) (f : Kernel → Nat) : Nat :=
  sumNat ((s.blocksOn core).map fun e => s.launchUses e.2.launch f)

/-- A gang of a launch has a block that has not completed, evicted or not. -/
def State.gangLives (s : State) (lid gi : Nat) : Bool :=
  s.work.blocks.any fun e => e.2.launch = lid && e.2.gang = gi

/-- The job keeps a core of a cluster. -/
def State.keepsCluster (s : State) (job cluster : Nat) : Bool :=
  (List.range 4).any fun q =>
    ((Tab.get? s.work.jobs job).map fun j => j.coreMask.getLsbD (4 * cluster + q)).getD false

/-- A gang stands on its cluster: not once all its blocks are saved and the job keeps no core there, for its allotment is
then saved with them (R394). -/
def State.gangStands (s : State) (lid : Nat) (l : Launch) (gi cluster : Nat) : Bool :=
  s.gangLives lid gi && (s.keepsCluster l.job cluster ||
    s.work.blocks.any fun e => e.2.launch = lid && e.2.gang = gi && e.2.state != .saved)

/-- The gangs of a cluster, by launch and gang: their allotments and barriers live until their last blocks complete,
evicted ones among them (R168, R335, R394), and leave with their job (R375). -/
def State.gangsOn (s : State) (cluster : Nat) : List (Nat × Nat) :=
  s.work.launches.flatMap fun e =>
    if s.jobHere e.2.job then
      (e.2.gangs.filter fun g => g.2.cluster = cluster && s.gangStands e.1 e.2 g.1 cluster).map fun g => (e.1, g.1)
    else []

/-- What the gangs of a cluster hold of something (R168, R334). -/
def State.clusterUse (s : State) (cluster : Nat) (f : Kernel → Nat) : Nat :=
  sumNat ((s.gangsOn cluster).map fun e => s.launchUses e.1 f)

/-- What the launches with blocks on a die hold of its scratchpad. -/
def State.dieUse (s : State) (die : Nat) : Nat :=
  sumNat ((s.work.launches.filter fun e => Tab.has e.2.scratch die && !e.2.retired && s.jobHere e.2.job).map fun e =>
    e.2.dieBytes)

/-- The available size of a die scratchpad (R169). -/
def State.dieAvail (s : State) (die : Nat) : Nat :=
  Config.dieScratchBytes - 32 * Config.savePoolBytes -
    sumNat ((s.cores.filter fun e => dieOf e.1 = die).map fun e => e.2.reserve)

/-- The barrier places of a core, a cluster and the hub (R334). -/
def barPlaces : BarScope → Nat
  | .block => 256
  | .gang => 128
  | .grid => 64

/-- The segments of an allotment of n bytes. -/
def State.allotSegs (s : State) (loc : ScrLoc) (n : Nat) : List (SramArray × Nat) :=
  spanSegs (s.arrayOf loc).1 (arrBase (s.arrayOf loc).1 (s.arrayOf loc).2) n

/-- The allotments of blocks, gangs and launches that hold them, and the tiles with data (R167, R280). -/
def State.blockSpots (s : State) : List Spot :=
  ((s.work.blocks.filter fun e => s.occupies e.2).map fun e =>
    (2, e.1, s.allotSegs (.core e.1) (s.launchUses e.2.launch Kernel.scratch))) ++
  ((List.range 32).flatMap fun c => (s.gangsOn c).map fun e =>
    (3, e.1 * 65536 + e.2, s.allotSegs (.cluster e.1 e.2) (s.launchUses e.1 Kernel.cscratch))) ++
  ((s.work.launches.filter fun e => !e.2.retired && s.jobHere e.2.job).flatMap fun e => e.2.scratch.map fun d =>
    (4, e.1 * 4 + d.1, s.allotSegs (.die e.1 d.1) e.2.dieBytes)) ++
  ((s.tiles.filter fun e => e.2.owner.isSome).map fun e => (5, e.1, [tileSeg (e.1 / 512) (e.1 % 512)]))

/-- Allotments are created, saved, restored or moved, with the tiles, register images and save areas that move: an access
to each of their segments, which waits while one of them is in retention (R168, R186, R187). -/
def State.blocksMoved (s s' : State) : State :=
  let segs := moveSegs (s.groupSpots ++ s.blockSpots) (s'.groupSpots ++ s'.blockSpots)
  if s.asleep segs then s else s'.touch segs

/-! ### Jobs kept apart (R371) -/

/-- A job debugs on a core: it has an enabled comparator, or an enabled unit there. -/
def State.debugs (s : State) (job core : Nat) : Bool :=
  ((Tab.get? s.work.jobs job).map fun j => !j.comparators.isEmpty).getD false ||
  ((Tab.get? s.cores core).map fun c => c.watch.any fun w =>
    ((Tab.get? s.groups w.2.group).map s.jobOf) = some job).getD false

/-- A block of a job may come to a core beside the blocks there. -/
def State.apart (s : State) (job core : Nat) : Bool :=
  let others := (s.blocksOn core).filterMap fun e =>
    ((Tab.get? s.work.launches e.2.launch).map Launch.job).filter fun j => j ≠ job
  others.isEmpty || (!s.debugs job core && !(others.any fun j => s.debugs j core))

/-! ### Groups and blocks as they start (R61, R62, R445) -/

/-- The slice a group goes to (R445). -/
def State.sliceFor (s : State) (core : Nat) : Nat :=
  let n := fun sl => (s.resident core sl).length
  let free := (List.range 6).filter fun sl => decide (n sl < 48)
  let l := if free.isEmpty then List.range 6 else free
  let m := (l.map n).foldl min 768
  (l.find? fun sl => n sl = m).getD 0

/-- The blocks of a launch and its gangs (R62). -/
def Launch.blocks (l : Launch) : Nat := l.gx * l.gy * l.gz
def Launch.gangCount (l : Launch) : Nat := (l.blocks + l.kernel.gang - 1) / l.kernel.gang
def Launch.gangBlocks (l : Launch) (g : Nat) : List Nat :=
  (List.range (min l.kernel.gang (l.blocks - g * l.kernel.gang))).map fun k => g * l.kernel.gang + k

/-- A group of a block in its entry state (R61). A grid whose blocks number more than 32 bits hold, of which the spec says
nothing, leaves the low 32 bits of its indexes and counts (R62). DESIGN CHOICE (assumption log 56). -/
def Launch.groupAt (l : Launch) (lid bid ix gi core slice base : Nat) : Group :=
  let w := l.kernel.width
  let n := min w (l.lanes - gi * w)
  let full := (n + 3) / 4 * 4
  let g := Group.start lid (some bid) gi core slice l.kernel (maskOf fun i => decide (i < full))
    (maskOf fun i => decide (n ≤ i) && decide (i < full)) base
  let sc := [ix % l.gx, ix / l.gx % l.gy, ix / (l.gx * l.gy), gi, ix / l.kernel.gang, l.blocks]
  { g with
    s := (List.range 6).map fun k => (k, loWord (sc.getD k 0))
    v := (List.range full).map fun i => (i, loWord (gi * w + i))
    b := (List.range 4).map fun k => (k, l.arg.getD k 0#32)
    lanes := { g.lanes with ctag := BitVec.ofNat 16 (l.ctx.getD 0) } }

/-- The lowest free tile numbers of a core. -/
def State.freeTiles (s : State) (core n : Nat) : List Nat :=
  let used := (s.blocksOn core).flatMap fun e => e.2.tiles
  ((List.range 512).filter fun t => !used.contains t).take n

/-- A group is put on a slice of its block's core and admitted where R117 lets it. -/
def State.putGroup (s : State) (gid : Nat) (g : Group) : State := (s.setGroup gid g).groupAdmit gid

/-- A block starts on a core (R61, R168, R281, R335). -/
def State.newBlock (s : State) (lid : Nat) (l : Launch) (ix core base : Nat) : Nat × State :=
  let (bid, s) := s.fresh
  let k := l.kernel
  let b : Block :=
    { launch := lid, index := ix, gang := ix / k.gang, core := core, groups := [], scratch := []
      tiles := s.freeTiles core k.acc, savedTiles := [], bars := barsInit k.blockBars k.groups 0, state := .running }
  let s := s.setWork { s.work with blocks := Tab.set s.work.blocks bid b }
  (bid, (List.range k.groups).foldl (fun (s : State) gi =>
    let (gid, s) := s.fresh
    let s := s.updBlock bid fun b => { b with groups := b.groups ++ [gid] }
    s.putGroup gid (l.groupAt lid bid ix gi core (s.sliceFor core) base)) s)

/-- A core holds the registers of a block's groups: each is admitted, or, where the launch is not co-operative (R388),
waits on a slice that has no free place (R445). DEDUCED (assumption log 39). -/
def State.seated (s : State) (bid : Nat) : Bool :=
  ((Tab.get? s.work.blocks bid).map fun b =>
    let coop := ((Tab.get? s.work.launches b.launch).map Launch.coop).getD false
    b.groups.all fun g => ((Tab.get? s.groups g).map fun g =>
      g.res != .waiting || (!coop && s.freePlaces g.core g.slice = 0)).getD true).getD false

/-! ### Usable cores (R391) -/

/-- The core has room for a block of a kernel, and takes blocks of its job. -/
def State.coreTakes (s : State) (job : Nat) (k : Kernel) (core : Nat) : Bool :=
  ((Tab.get? s.work.jobs job).map fun j => j.coreMask.getLsbD core).getD false &&
  ((Tab.get? s.cores core).map fun c => !c.avoided).getD false &&
  decide (s.coreUse core Kernel.scratch + k.scratch ≤ Config.coreScratchBytes) &&
  decide (s.coreUse core Kernel.acc + k.acc ≤ 512) &&
  decide (s.coreUse core Kernel.blockBars + k.blockBars ≤ barPlaces .block) && s.apart job core

/-- The order among usable cores of a cluster: the colour, then the resident blocks, then the number (R391). -/
def State.coreRank (s : State) (core : Nat) : Nat :=
  ((core % 4 + clusterOf core % 8) % 2) * 2 ^ 20 + (s.blocksOn core).length * 4 + core % 4

/-- The first of some candidates in rank. -/
def bestOf {α : Type} : List (Nat × α) → Option (Nat × α)
  | [] => none
  | x :: xs => match bestOf xs with
    | some y => some (if y.1 < x.1 then y else x)
    | none => some x

/-- A block put on the best core of a cluster by a way of putting it there. -/
def State.onBestCore (s : State) (job : Nat) (k : Kernel) (cluster : Nat) (put : Nat → Nat × State) : Option State :=
  let cand := (List.range 4).filterMap fun q =>
    let core := 4 * cluster + q
    if s.coreTakes job k core then
      let r := put core
      if r.2.seated r.1 then some (s.coreRank core, r.2) else none
    else none
  (bestOf cand).map Prod.snd

/-- Blocks placed one after the other on a cluster. -/
def State.placeIn (s : State) (lid : Nat) (l : Launch) (cluster base : Nat) : List Nat → Option State
  | [] => some s
  | ix :: ixs =>
    match s.onBestCore l.job l.kernel cluster fun core => s.newBlock lid l ix core base with
    | some s => s.placeIn lid l cluster base ixs
    | none => none

/-! ### Clusters in order of headroom (R391) -/

/-- T_avoid less the temperature of the cluster's hottest core. -/
def State.headroom (s : State) (c : Nat) : Int :=
  let ts := (List.range 4).map fun q => ((Tab.get? s.cores (4 * c + q)).map Core.temp).getD 0
  s.hub.tAvoid - ts.foldl max (ts.headD 0)

/-- A cluster put before those of no more headroom. -/
def byHeadroom (f : Nat → Int) (c : Nat) : List Nat → List Nat
  | [] => [c]
  | x :: xs => if f x ≤ f c then c :: x :: xs else x :: byHeadroom f c xs

/-- The clusters in the order in which a block is offered to them: the most headroom first, the lower number on ties. -/
def State.clusterOrder (s : State) : List Nat := (List.range 32).foldr (byHeadroom s.headroom) []

/-- A cluster is open to a gang of a launch (R171, R334). -/
def State.clusterTakes (s : State) (l : Launch) (c : Nat) : Bool :=
  decide (s.clusterUse c Kernel.cscratch + l.kernel.cscratch ≤ Config.clusterScratchBytes) &&
  decide (s.clusterUse c Kernel.gangBars + l.kernel.gangBars ≤ barPlaces .gang) &&
  (Tab.has l.scratch (c / 8) || decide (s.dieUse (c / 8) + l.dieBytes ≤ s.dieAvail (c / 8)))

/-- The launch holds its allotment on a die (R171). -/
def State.openDie (s : State) (lid die : Nat) : State :=
  s.updLaunch lid fun l => if Tab.has l.scratch die then l else { l with scratch := Tab.set l.scratch die [] }

/-- A gang starts on a cluster (R335): its allotment and barriers, and with the launch's first the grid barriers. -/
def State.startGang (s : State) (lid : Nat) (l : Launch) (gi cluster : Nat) : State :=
  let g : Gang := ⟨cluster, [], barsInit l.kernel.gangBars ((l.gangBlocks gi).length * l.kernel.groups) l.map⟩
  (s.openDie lid (cluster / 8)).updLaunch lid fun l => { l with
    gangs := Tab.set l.gangs gi g
    gridBars := if l.gangs.isEmpty then barsInit l.kernel.gridBars (l.blocks * l.kernel.groups) l.map else l.gridBars }

/-- The next gang of a launch placed whole on the first open cluster that holds it; none where it waits. `idle` asks
only for room; otherwise the code must stand in the cluster (R397). DEDUCED (assumption log 39). -/
def State.placeGang (s : State) (lid gi : Nat) (idle : Bool) : Option State :=
  match Tab.get? s.work.launches lid with
  | none => none
  | some l =>
    let base := fun c => ((s.codeOf c lid).map CodeLoad.base).getD 0
    match firstSome (fun c =>
        if s.clusterTakes l c then (s.placeIn lid l c (base c) (l.gangBlocks gi)).map fun s => (c, s) else none)
        s.clusterOrder with
    | some (c, s') => if idle || (s.codeOf c lid).isSome then some (s'.startGang lid l gi c) else none
    | none => none

/-- Several gangs, all or none. -/
def State.placeGangs (s : State) (lid : Nat) (idle : Bool) : List Nat → Option State
  | [] => some s
  | g :: gs =>
    match s.placeGang lid g idle with
    | some s => s.placeGangs lid idle gs
    | none => none

/-- The gangs of a launch not yet started; they start in order. -/
def Launch.todo (l : Launch) : List Nat := (List.range (l.gangCount - l.gangs.length)).map fun k => l.gangs.length + k

/-- The next gang of a launch, if one is left. -/
def Launch.nextGang (l : Launch) : List Nat := if l.gangs.length < l.gangCount then [l.gangs.length] else []

/-- A co-operative launch that has been admitted and holds its places, not yet taken (R388). -/
def State.unplaced (s : State) (l : Launch) : Bool :=
  l.admitted && l.coop && l.status.isNone && !l.retired && s.jobRuns l.job && !l.nextGang.isEmpty

/-- The part with nothing resident and every core usable (R171, R388). -/
def State.emptied (s : State) : State :=
  { s with
    groups := []
    cores := Tab.mapVals s.cores fun _ c => { c with avoided := false, watch := [] }
    work := { s.work with
      blocks := []
      launches := Tab.mapVals s.work.launches fun _ l => { l with gangs := [], scratch := [] } } }

/-- The part once the admitted co-operative launches other than one have taken their places.
DEDUCED (assumption log 39). -/
def State.reserved (s : State) (lid : Nat) : State :=
  s.work.launches.foldl (fun (s' : State) e =>
    if e.1 ≠ lid && s.unplaced e.2 then (s'.placeGangs e.1 true e.2.todo).getD s' else s') s

/-- The co-operative launches admitted and not yet placed could still take their places, but for one launch (R388). -/
def State.keepsReserved (s : State) (lid : Nat) : Bool :=
  (s.work.launches.foldl (fun (t : Option State) e =>
    if e.1 ≠ lid && s.unplaced e.2 then t.bind fun s' => s'.placeGangs e.1 true e.2.todo else t) (some s)).isSome

/-- Whether a launch could ever fit: all its gangs at once for a co-operative one, else one gang (R335, R388). -/
def State.everFits (s : State) (lid : Nat) : Bool :=
  match Tab.get? s.work.launches lid with
  | none => false
  | some l => (s.emptied.placeGangs lid true (if l.coop then List.range l.gangCount else [0])).isSome

/-! ### Saved blocks (R353, R376, R377, R394) -/

/-- The tiles of a block leave their places; their contents stand with the block (R282, R283). -/
def State.liftTiles (s : State) (bid : Nat) : State :=
  match Tab.get? s.work.blocks bid with
  | none => s
  | some b =>
    (List.range b.tiles.length).foldl (fun (s : State) t =>
      match Tab.get? s.tiles (b.physTile t) with
      | none => s
      | some p =>
        if (p.owner.map Prod.snd) = some bid then
          ({ s with tiles := Tab.del s.tiles (b.physTile t) }).updBlock bid fun x =>
            { x with savedTiles := Tab.set x.savedTiles t p.data }
        else s) s

/-- A group comes to a slice of a core by R445 and waits for admission: a sleep and the skid of a report go on for what
is left of them (R114, R354), queue lines of the core it left stay before its stores (R250), commands that only owe it a
report come with it (R375), and barrier records whose generation has been released there clear (R350, R353). -/
def State.seatGroup (s : State) (core gid : Nat) : State :=
  match Tab.get? s.groups gid with
  | none => s
  | some g =>
    let left := fun (t : Nat) => s.coreCycles core + (t - s.coreCycles g.core)
    let g := { g with
      core := core, slice := s.sliceFor core, res := .waiting, frozen := false
      sleep := g.sleep.map left, behind := dedup (g.behind ++ s.queueOf g.core)
      reports := g.reports.map fun r => if r.cyc = 0 then r else { r with cyc := left r.cyc } }
    let follow := fun (c : CopyCmd) => if c.owner.group = some gid then { c with core := core } else c
    let s := s.setOps { s.ops with copies := Tab.mapVals s.ops.copies fun _ c => follow c }
    (s.putGroup gid g).settleBars gid

/-- A saved or moved block takes places on a core: its groups come to slices there, and its tiles are filled from their
saved copies. -/
def State.seatBlock (s : State) (bid core : Nat) : State :=
  match Tab.get? s.work.blocks bid with
  | none => s
  | some b =>
    let free := s.freeTiles core b.tiles.length
    let s := s.updBlock bid fun b => { b with core := core, tiles := free, state := .running }
    b.groups.foldl (fun (s : State) gid => s.seatGroup core gid) s

/-- The evicted blocks of a launch's gang. -/
def State.savedOf (s : State) (lid gi : Nat) : List (Nat × Block) :=
  s.work.blocks.filter fun e => e.2.launch = lid && e.2.gang = gi && e.2.state == .saved

/-- Blocks seated one after the other on a cluster. -/
def State.seatIn (s : State) (l : Launch) (cluster : Nat) : List Nat → Option State
  | [] => some s
  | bid :: bids =>
    match s.onBestCore l.job l.kernel cluster fun core => (bid, s.seatBlock bid core) with
    | some s => s.seatIn l cluster bids
    | none => none

/-- Evicted blocks come back (R394): to a remaining core of their cluster when the mask keeps one, else the gang as a
whole to another cluster that holds the kernel's code at the same address. DEDUCED (assumption log 39). -/
def State.reseat (s : State) (lid : Nat) (l : Launch) (gi : Nat) (g : Gang) : Option State :=
  let saved := s.savedOf lid gi
  if s.keepsCluster l.job g.cluster then s.seatIn l g.cluster ((saved.take 1).map Prod.fst)
  else if s.work.blocks.any fun e => e.2.launch = lid && e.2.gang = gi && e.2.state != .saved then none
  else
    let at_ := (s.codeOf g.cluster lid).map CodeLoad.base
    firstSome (fun c =>
      if s.clusterTakes l c && ((s.codeOf c lid).map CodeLoad.base) = at_ then
        (s.seatIn l c (saved.map Prod.fst)).map fun s =>
          (s.openDie lid (c / 8)).updLaunch lid fun l =>
            { l with gangs := Tab.upd l.gangs gi fun g => { g with cluster := c } }
      else none) s.clusterOrder

/-! ### Events -/

/-- PLACE_BLOCKS (R391, R394): evicted blocks first, then the next gang of the launch, or all of a co-operative one. A
launch waits behind the co-operative launches admitted before it, and one that is not co-operative behind all of them
(R388). -/
def State.placeBlocks (s : State) (lid : Nat) : State :=
  match Tab.get? s.work.launches lid with
  | none => s
  | some l =>
    if !l.admitted || l.status.isSome || l.retired || !s.jobRuns l.job ||
        s.work.launches.any (fun e => s.unplaced e.2 && e.1 ≠ lid && (!l.coop || decide (e.1 < lid))) then s
    else match l.gangs.find? fun e => !(s.savedOf lid e.1).isEmpty with
      | some (gi, g) => (s.reseat lid l gi g).getD s
      | none => (s.placeGangs lid false (if l.coop then l.todo else l.nextGang)).getD s

/-- A change of a block is the Sheepdog's order to its Pup: a placing, an eviction, or a migration (R390). -/
def Block.ordered (old : Option Block) (new : Block) : Bool :=
  match old.map Block.state, new.state with
  | none, _ => true
  | some a, .evicting => a != .evicting
  | some .saved, .running => true
  | some .running, .migrating _ _ => true
  | some _, _ => false

/-- Orders to Pups act once nothing stands before them on their links (R390). DEDUCED (assumption log 48). -/
def State.delivered (s s' : State) : State :=
  if s'.work.blocks.all fun e => !Block.ordered (Tab.get? s.work.blocks e.1) e.2 || s.linkClear (clusterOf e.2.core) then s'
  else s

def execPlaceBlocks (launch : Nat) (s : State) : Res := .next (s.blocksMoved (s.delivered (s.placeBlocks launch)))

/-- The places of errors that no longer exist go. -/
def State.dropBad (s : State) : State :=
  { s with bad := s.bad.filter fun b => match b with
    | .coreScratch b _ => Tab.has s.work.blocks b
    | .clusterScratch l g _ => ((Tab.get? s.work.launches l).map fun x => Tab.has x.gangs g).getD false
    | .dieScratch l d _ => ((Tab.get? s.work.launches l).map fun x => Tab.has x.scratch d).getD false
    | .tile b _ _ => Tab.has s.work.blocks b
    | .registers g => Tab.has s.groups g
    | .saveArea g => Tab.has s.groups g
    | .hbm _ => true
    | .cell _ _ _ => true
    | .array _ _ _ => true }

/-- All groups of a block are gone: its allotment and tiles are freed (R168), with its gang's last block the gang's, and
with the launch's last the grid barriers (R335); its Pup's pools go where the job has left the cluster (R217), and the Pup
tells the Sheepdog (R390). -/
def State.blockFreed (s : State) (bid : Nat) (b : Block) : State :=
  let s := { s with tiles := Tab.keep s.tiles fun _ p => (p.owner.map Prod.snd) ≠ some bid }
  let s := s.setWork { s.work with blocks := Tab.del s.work.blocks bid }
  let last := !s.gangLives b.launch b.gang
  let none_ := !(s.work.blocks.any fun e => e.2.launch = b.launch)
  let s := s.updLaunch b.launch fun l => { l with
    gangs := if last then Tab.upd l.gangs b.gang fun g => { g with scratch := [], bars := [] } else l.gangs
    gridBars := if none_ && l.nextGang.isEmpty then [] else l.gridBars }
  (s.trimPools.dropBad).sendHub (clusterOf b.core) (.blockDone bid b.launch)

/-- The message of a block's completion, when it is the first on its link (R390): the link's cluster and the launch. -/
def State.doneMessage (s : State) (bid : Nat) : Option (Nat × Nat) :=
  firstSome (fun (e : Nat × List HubMsg) => match e.2.head? with
    | some (.blockDone b l) => if b = bid then some (e.1, l) else none
    | some (.disable _ _) | some (.tagRequest _) | some (.stall _) | some (.trap _) | none => none) s.hub.toHub

/-- BLOCK_COMPLETION (R168, R390): a block all of whose groups are gone is freed and its Pup tells the Sheepdog, which
then counts it in its turn on the link. A raw command of the block that is still in flight holds its freeing:
DEDUCED (assumption log 30). -/
def State.blockDone (s : State) (bid : Nat) : State :=
  match Tab.get? s.work.blocks bid with
  | some b =>
    if b.groups.any (fun g => Tab.has s.groups g) || s.ops.copies.any (fun e => e.2.block = some bid) then s
    else s.blockFreed bid b
  | none => match s.doneMessage bid with
    | some (cluster, lid) => (s.takeHub cluster).updLaunch lid fun l => { l with blocksDone := l.blocksDone + 1 }
    | none => s

def execBlockCompletion (block : Nat) (s : State) : Res := .next (s.blockDone block)

/-- A launch has ended: by its status, or with its last block. -/
def Launch.ended (l : Launch) : Bool := l.status.isSome || decide (l.blocks ≤ l.blocksDone)

/-- Recovery work of a launch is still there (R331). -/
def State.recovering (s : State) (lid : Nat) : Bool :=
  s.groups.any (fun e => e.2.launch = lid) || s.cores.any fun c => c.2.recq.any fun e => e.launch = lid

/-- A command of a copy program works on the launch's die allotment. -/
def State.programRuns (s : State) (lid : Nat) : Bool :=
  s.ops.copies.any fun e => e.2.launch = lid && e.2.started && (match e.2.owner with
    | .program _ _ => true
    | .scalar _ _ | .raw _ _ _ => false)

/-- The tags a launch created, its context apart. -/
def State.launchTags (s : State) (lid : Nat) : List (Nat × Tag) :=
  s.kennel.tags.filter fun e => e.2.launch = lid && !e.2.ctx

/-- The deepest of a launch's live tags begin to retire as drops (R220). One with a child that another launch of the job made
waits until that child is gone: DEDUCED (assumption log 28). -/
def State.dropTags (s : State) (lid : Nat) : State :=
  let live := (s.launchTags lid).filter fun e => e.2.state == .live
  let deepest := maxNat (live.map fun e => s.tagDepth e.1)
  live.foldl (fun (s' : State) e =>
    if s.tagDepth e.1 = deepest && !s.hasChild e.1 then s'.retireTag e.1 e.2.cluster false none else s') s

/-- A launch's context, while the launch's tag of that number stands (R218). -/
def State.launchContext (s : State) (lid : Nat) (l : Launch) : Option (Nat × Tag) :=
  l.ctx.bind fun t => ((s.tag? t).filter fun x => x.ctx && x.launch = lid).map fun x => (t, x)

/-- Code that no launch of the job holds leaves code memory (R397): a running one, or one that waits in admission for it.
DEDUCED (assumption log 51). -/
def State.freeCode (s : State) : State :=
  { s with clusters := Tab.mapVals s.clusters fun _ c =>
      let used := fun (x : CodeLoad) => s.work.launches.any fun e =>
        e.2.job = x.job && e.2.kernel.name = x.kernel && e.2.kernel.version = x.version && e.2.codeObj = x.obj && !e.2.retired
      let dead := c.loads.filter fun x => !used x
      let gone := fun a => dead.any fun x => decide (x.base ≤ a) && decide (a < x.base + x.len)
      { c with
        loads := c.loads.filter used
        code := Tab.keep c.code fun a _ => !gone a
        starts := Tab.keep c.starts fun a _ => !gone a } }

/-- A launch is complete (R385, R389, R397): its status goes to its sub-launch, and what it held is freed. -/
def State.retireLaunch (s : State) (lid : Nat) (l : Launch) : State :=
  let s := s.updLaunch lid fun l => { l with
    retired := true, gangs := [], gridBars := [], scratch := [], status := some (l.status.getD 0) }
  let f := fun (i : Nat) (x : Sub) => if i = l.sub then { x with status := some (l.status.getD 0) } else x
  let s := s.updBundle l.bundle fun b => { b with subs := b.subs.mapIdx f }
  let s := if l.map ≠ 0 then s.setHub { s.hub with maps := Tab.del s.hub.maps l.map } else s
  (s.updJob l.job fun j => { j with comparators := Tab.keep j.comparators fun _ c => c.launch ≠ lid }).freeCode.dropBad

/-- LAUNCH_COMPLETE (R220): after the last block the launch's live tags are dropped, then its context is committed or
dropped, where no child of it is left that another launch made (R215; DEDUCED, assumption log 28), and once these retirements have finished the launch is complete. -/
def State.launchComplete (s : State) (lid : Nat) : State :=
  match Tab.get? s.work.launches lid with
  | none => s
  | some l =>
    if !l.admitted || l.retired || !l.ended || s.recovering lid || s.programRuns lid then s
    else if !(s.launchTags lid).isEmpty then s.dropTags lid
    else match s.launchContext lid l with
      | some (t, x) =>
        if x.state == .live && !s.hasChild t then s.retireTag t x.cluster l.commit none else s
      | none => s.retireLaunch lid l

def execLaunchComplete (launch : Nat) (s : State) : Res := .next (s.launchComplete launch)

end Sys2Proof.Machine
end

