-- ==== Sys2Proof/Machine/Collective.lean ====
section
/-!
DEFINITION. Collectives (R426 to R431) and the queue registers (R275, R276, R278): COLL, QW, QR, QTRY, and the
completion of a collective on this package.
-/

namespace Sys2Proof.Machine

/-! ### Acceptance -/

/-- Offsets and byte count are multiples of 64 (R428). -/
def collAligned (ws : List Word) : Bool := wnat ws 2 % 64 = 0 && wnat ws 3 % 64 = 0 && wnat ws 4 % 64 = 0

/-- The collective engine's queue is full (R428). -/
def State.collFull (s : State) : Bool := decide (Config.collectiveQueue ≤ s.ops.colls.length)

/-- The op codes of R427. -/
def collOpCode (n : Nat) : Option CollOp :=
  match n with
  | 0 => some .put
  | 1 => some .arAdd
  | 2 => some .arMax
  | 3 => some .gather
  | 4 => some .bcast
  | _ => none

/-- A command of raw fields (R430, R431): op and type, the bits that must be zero, and six operands. A reserved field
or a misaligned operand makes it one that ends in fault-command. -/
def rawColl (owner : CopyOwner) (job launch op ty rest : Nat) (ws : List Word) : CollCmd :=
  match collOpCode op with
  | some o =>
    ⟨owner, job, launch, 0, o, BitVec.ofNat 2 ty, ws,
      rest ≠ 0 || (o.reduces && ty = 3) || !collAligned ws⟩
  | none => ⟨owner, job, launch, 0, .put, 0#2, ws, true⟩

/-- The communicator a command names (R427). -/
def CollCmd.comm (c : CollCmd) : Nat := bitsOf (wnat c.words 5) 0 8

/-- A communicator of a job (R426). -/
def State.commIn (s : State) (job k : Nat) : Option Comm :=
  (Tab.get? s.work.jobs job).bind fun j => Tab.get? j.comms k

/-! ### Completion -/

/-- The communicator of the command's job (R426). -/
def State.commOf (s : State) (c : CollCmd) : Option Comm := s.commIn c.job c.comm

/-- The root or peer rank a command names (R427). -/
def CollCmd.peer (c : CollCmd) : Nat := bitsOf (wnat c.words 5) 16 10

/-- The bytes of the command's operation (R427). -/
def CollCmd.bytes (c : CollCmd) : Nat := wnat c.words 4

/-- Whether the op names a rank. -/
def collNames : CollOp → Bool
  | .put | .bcast => true
  | .arAdd | .arMax | .gather => false

/-- A tensor a collective may use (R429): valid, untagged, in HBM, and for a destination writable. -/
def collTensor (write : Bool) : Option Desc → Option Desc
  | some d => if d.space = 0 && !d.tagged && !(write && d.ro) then some d else none
  | none => none

/-- The object lines from an offset on. -/
def linesFrom (a n : Nat) : List Nat := (List.range (n / 64)).map fun k => a + 64 * k

/-- The bytes of the destination a collective covers. -/
def CollCmd.reach (c : CollCmd) (ranks : Nat) : Nat := if c.op = .gather then ranks * c.bytes else c.bytes

/-- One side of a collective: the object offset of its first byte and the lines under it, or a fault code (R429); the hub
reads its descriptor and walks its extents (R207).
DEDUCED (assumption log 32). -/
def State.collSide (s : State) (c : CollCmd) (write : Bool) (t off n : Nat) :
    (Nat ⊕ (Nat × Nat × List (Nat × Nat))) × State :=
  let (d, s) := s.desc c.owner.group hubPath c.job t
  match collTensor write d with
  | none => (.inl 0xB, s)
  | some d =>
    if d.span < off + n then (.inl 0xA, s)
    else
      let a := d.base + off
      let lines := dedup ((linesFrom (lineOf a) (n + 64)).filter fun l => decide (l < a + n))
      let (ps, s) := s.linesOk hubPath c.job d.obj (if write then rWrite else rRead) lines
      match ps with
      | none => (.inl 0x9, s)
      | some ps => (.inr (d.obj, a, ps), s)

/-- Element k of a rank's source as a number (R427). -/
def collElem (ty : BitVec 2) (src : List Byte) (k : Nat) : Nat :=
  let n := if ty = 2#2 then 2 else 4
  bytesToNat ((src.drop (k * n)).take n)

/-- The reduction of two elements (R428). -/
def collCombine (op : CollOp) (ty : BitVec 2) (x y : Nat) : Nat :=
  match op with
  | .arMax =>
    if ty = 0#2 then (if signedOf x 32 < signedOf y 32 then y else x)
    else if ty = 1#2 then (fp32.maxCode x y).1
    else (bf16.maxCode x y).1
  | .arAdd | .put | .gather | .bcast =>
    if ty = 0#2 then (x + y) % 2 ^ 32
    else if ty = 1#2 then (addEven x y).1
    else (bf16.add .even x y).1

/-- The reduction over the ranks' sources, in ascending rank order (R428). -/
def collReduce (op : CollOp) (ty : BitVec 2) (bytes : Nat) : List (List Byte) → List Byte
  | [] => []
  | src :: rest =>
    let n := if ty = 2#2 then 2 else 4
    (List.range (bytes / n)).flatMap fun k =>
      natToBytes (rest.foldl (fun acc r => collCombine op ty acc (collElem ty r k)) (collElem ty src k)) n

/-- What the destination of the own rank receives (R428): the bytes, none where nothing is written. Of several puts to
it the one that stands last is a free value (assumption log 2). -/
def collResult (c : CollCmd) (own : Nat) (ranks : List PeerCmd) (pick : Nat) : List Byte :=
  let srcs := ranks.map PeerCmd.source
  match c.op with
  | .put =>
    let mine := ranks.filter fun p => p.peer = own
    (mine[pick % max 1 mine.length]?.map PeerCmd.source).getD []
  | .arAdd | .arMax => collReduce c.op c.ty c.bytes srcs
  | .gather => srcs.flatten
  | .bcast => (srcs[c.peer]?).getD []

/-- The paired commands agree (R426, R429). DEDUCED (assumption log 32). -/
def collAgree (c : CollCmd) (p : PeerCmd) : Bool :=
  p.op = c.op && (p.ty = c.ty || !c.op.reduces) && p.bytes = c.bytes && (p.peer = c.peer || c.op ≠ .bcast)

/-- The words that a command's owner hears (R271, R429): in its status scalar, its completion queue or its
sub-launch. -/
def State.collTell (s : State) (id : Nat) (c : CollCmd) (code lines : Nat) : State :=
  let s := s.setOps { s.ops with colls := Tab.del s.ops.colls id }
  let w := copyStatus code 0 lines
  match c.owner with
  | .scalar gid _ => s.updGroup gid fun g => (g.landScalar id w).complete cCL id
  | .raw gid q user => s.updGroup gid fun g => g.popRecord q [w, user]
  | .program b sub => s.subDone b sub (code ≠ 0)

/-- Bytes written to root memory by object offset, line by line. -/
def State.rootPut (s : State) (ps : List (Nat × Nat)) (bytes : Tab Byte) : State :=
  ps.foldl (fun (s : State) e =>
    s.rootWrite e.2 ((bytes.filter fun b => lineOf b.1 = e.1).map fun b => (b.1 % 64, b.2))) s

/-- A collective of a job takes its place among those of its communicator (R426); one with a reserved field or a
misaligned operand ends at once and takes none (R279, R430). DEDUCED (assumption log 32). -/
def State.enterColl (s : State) (id : Nat) (c : CollCmd) : State :=
  if c.bad then s.collTell id c 0xC 0
  else
    let nth := ((s.commOf c).map Comm.issued).getD 0
    let s := s.updJob c.job fun j => { j with
      comms := Tab.upd j.comms c.comm fun m => { m with issued := m.issued + 1 } }
    s.setOps { s.ops with colls := Tab.set s.ops.colls id { c with nth := nth } }

/-- COLL (R428): accepted, CL counts it and sd is pending. -/
def collEff (d a : Reg) (op : CollOp) (ty : BitVec 2) (s : State) (gid : Nat) (g : Group) (_cl : Clause) : Eff :=
  let ws := (List.range 6).map fun k => g.sval a k
  if g.active == 0#64 then idleOp cCL s gid g
  else if !collAligned ws then .trap (.plain 0x09)
  else if g.cnt cCL = 15 || s.collFull then .wait
  else
    let (n, s) := s.fresh
    let c : CollCmd := ⟨.scalar gid (g.phys d 0), s.jobOf g, g.launch, 0, op, ty, ws, false⟩
    doneG (s.enterColl n c) gid ((g.count cCL n).setPend n (g.pregs d 1)) .seq

def execColl (d a : Reg) (op : CollOp) (ty : BitVec 2) (s : State) : Res := issue (.coll d a op ty) (collEff d a op ty) s

/-! ### Pairing (R426) -/

/-- A member of a collective on this package: its command and its rank. -/
structure Member where
  id : Nat
  cmd : CollCmd
  rank : Nat
  deriving DecidableEq, Repr

/-- Whether rank r of a command's communicator is a job of this package that has the communicator too, under the same
number. DEDUCED (assumption log 32). -/
def State.localRank (s : State) (c : CollCmd) (m : Comm) (r : Nat) : Bool :=
  r = m.own || (match m.ranks[r]?, m.ranks[m.own]? with
    | some (pkg, job), some (here, _) =>
      pkg = here && ((s.commIn job c.comm).any fun x => x.own = r && x.ranks = m.ranks)
    | _, _ => false)

/-- The command of a rank of this package that is paired with a command: the one that is as many on the communicator. -/
def State.pairedAt (s : State) (id : Nat) (c : CollCmd) (m : Comm) (r : Nat) : Option Member :=
  if r = m.own then some ⟨id, c, r⟩
  else (m.ranks[r]?).bind fun e =>
    (s.ops.colls.find? fun x => x.2.job = e.2 && x.2.comm = c.comm && x.2.nth = c.nth).map fun x => ⟨x.1, x.2, r⟩

/-- The paired commands of the ranks of this package, once all have been issued and are in order (R255). -/
def State.pairs (s : State) (id : Nat) (c : CollCmd) (m : Comm) : Option (List Member) :=
  let here := (List.range m.ranks.length).filter (s.localRank c m)
  let ms := here.filterMap (s.pairedAt id c m)
  if ms.length = here.length && ms.all fun x => s.ownerOrdered x.id x.cmd.owner then some ms else none

/-! ### A member's tensors and its end (R428, R429) -/

/-- What a member's tensors come to: its own fault code or 0, its source bytes, and its destination's first offset and
lines where it has one. -/
structure Sides where
  m : Member
  code : Nat
  source : List Byte
  dst : Option (Nat × List (Nat × Nat))
  deriving DecidableEq, Repr

/-- What a member brings to the others. -/
def Sides.head (e : Sides) : PeerCmd :=
  ⟨e.m.rank, e.m.cmd.nth, e.m.cmd.op, e.m.cmd.ty, e.m.cmd.bytes, e.m.cmd.peer, e.source⟩

/-- A member's tensors, in a communicator of n ranks. -/
def State.sides (s : State) (n : Nat) (x : Member) : Sides × State :=
  let c := x.cmd
  if c.bytes < 64 || 2 ^ 30 < c.bytes || (collNames c.op && decide (n ≤ c.peer)) then (⟨x, 0xC, [], none⟩, s)
  else
    let (src, s) := s.collSide c false (bitsOf (wnat c.words 0) 0 12) (wnat c.words 2) c.bytes
    let (dst, s) := s.collSide c true (bitsOf (wnat c.words 1) 0 12) (wnat c.words 3) (c.reach n)
    let place := match dst with
      | .inl _ => none
      | .inr (_, da, dps) => some (da, dps)
    let late := match dst with
      | .inl e => e
      | .inr _ => 0
    match src with
    | .inl e => (⟨x, e, [], place⟩, s)
    | .inr (_, sa, sps) =>
      let at_ := (List.range c.bytes).map fun k => physIn sps (sa + k)
      if late = 0 ∧ at_.any fun p => s.bad.contains (BadLoc.hbm (p / 8)) then (⟨x, 0x8, [], place⟩, s)
      else (⟨x, late, at_.map s.homeByte, place⟩, s)

/-- The members' tensors, in rank order. -/
def State.allSides (s : State) (n : Nat) : List Member → List Sides × State
  | [] => ([], s)
  | x :: xs =>
    let (e, s) := s.sides n x
    let (es, s) := s.allSides n xs
    (e :: es, s)

/-- The values that a collective could write at byte k of a destination of rank r, none for one that is not known
here; no entry where it writes nothing there (R428, R429), such as beyond a source's own count. `red` is the reduction,
where every source is known. -/
def collCands (c : CollCmd) (r : Nat) (ranks : List (Option PeerCmd)) (red : Option (List Byte)) (k : Nat) :
    List (Option Byte) :=
  let at_ := fun (k : Nat) (p : Option PeerCmd) => match p with
    | none => [none]
    | some p => if k < p.bytes then [p.source[k]?] else []
  match c.op with
  | .put => (ranks.filter fun p => p.all fun p => p.op = .put && p.peer = r).flatMap (at_ k)
  | .bcast => ranks[c.peer]?.toList.flatMap (at_ k)
  | .gather => ranks[k / max 1 c.bytes]?.toList.flatMap (at_ (k % max 1 c.bytes))
  | .arAdd | .arMax => [red.bind fun bs => bs[k]?]

/-- A destination byte after a fault (R429): one of the values that could have been written, or none, which leaves the
old one. FREE VALUE (assumption log 9). -/
def faultByte (f k : Nat) : List (Option Byte) → Option Byte
  | [] => none
  | x :: xs => match Config.collectiveFault f k with
    | some b => some (x.getD b)
    | none => faultByte (f + 1) k xs

/-- A member ends with a fault code (R429). The spec gives no line count where data may have moved: it is free
(assumption log 9). -/
def State.collFault (s : State) (n : Nat) (e : Sides) (code : Nat) (ranks : List (Option PeerCmd)) : State :=
  let c := e.m.cmd
  let counts := code = 0x8 || code = 0x9 || code = 0xD || code = 0xE
  let (lines, s) := s.pickBelow (c.bytes / 64 + 1)
  let s := match e.dst with
    | some (a, ps) =>
      let f := s.free
      let s := { s with free := s.free + n + 1 }
      let full := ranks.filterMap fun (p : Option PeerCmd) => p.bind fun p => if p.source.length = c.bytes then some p.source else none
      let red := if full.length = ranks.length then some (collReduce c.op c.ty c.bytes full) else none
      s.rootPut ps ((List.range (c.reach n)).filterMap fun k =>
        (faultByte f k (collCands c e.m.rank ranks red k)).map fun b => (a + k, b))
    | none => s
  s.collTell e.m.id c code (if counts then lines else 0)

/-- A member's part of a collective that succeeds (R428). -/
def State.collWrite (s : State) (ranks : List PeerCmd) (pick : Nat) (e : Sides) : State :=
  let out := collResult e.m.cmd e.m.rank ranks pick
  let s := match e.dst with
    | some (a, ps) => s.rootPut ps ((List.range out.length).map fun k => (a + k, out.getD k 0#8))
    | none => s
  s.collTell e.m.id e.m.cmd 0 (e.m.cmd.bytes / 64)

/-- A collective with a rank of a lost package ends, for each rank of this package whose earlier accesses are performed
(R255, R429). A rank of this package without a command in it, ended before or not yet issued, moves nothing.
DEDUCED (assumption log 32). -/
def State.collCut (s : State) (id : Nat) (c : CollCmd) (m : Comm) : State :=
  let n := m.ranks.length
  let ms := ((List.range n).filter fun r => r ≠ m.own && s.localRank c m r).filterMap (s.pairedAt id c m)
  let (es, s') := s.allSides n (⟨id, c, m.own⟩ :: ms)
  let heads := es.map Sides.head
  let idle := fun (r : Nat) => if s.localRank c m r then some ⟨r, c.nth, c.op, c.ty, 0, n, []⟩ else none
  let ranks := (List.range n).map fun r => (heads.find? fun (p : PeerCmd) => p.rank = r).orElse fun _ => idle r
  (es.filter fun e => e.m.id = id || s.ownerOrdered e.m.id e.m.cmd.owner).foldl
    (fun s e => s.collFault n e (if e.code = 0 then 0xD else e.code) ranks) s'

/-- A collective ends on this package, for every rank of it (R426, R428, R429). `peers` are the commands of the ranks
elsewhere and `fault` a fault met there, 0 for none. DEDUCED (assumption log 32). -/
def State.collEnd (s : State) (id : Nat) (peers : List PeerCmd) (fault : Nat) : State :=
  match Tab.get? s.ops.colls id with
  | none => s
  | some c =>
    match s.commOf c with
    | none => s.collTell id c 0xC 0
    | some m =>
      let n := m.ranks.length
      if m.ranks.any fun r => s.hub.lostPkgs.contains r.1 then s.collCut id c m
      else match s.pairs id c m with
        | none => s
        | some ms =>
          let far := (List.range n).filter fun r => !s.localRank c m r
          let others := peers.filter fun p => far.contains p.rank && p.nth = c.nth
          let here := far.all fun r => others.any fun p => p.rank = r
          if (fault = 0 && !here) || (fault ≠ 0 && far.isEmpty) then s
          else
            let (es, s) := s.allSides n ms
            let heads := es.map Sides.head ++ others
            let ranks := (List.range n).map fun r => heads.find? fun p => p.rank = r
            let other := if fault = 0 then ((es.map Sides.code).find? fun k => k ≠ 0).getD 0 else fault
            if !heads.all (collAgree c) then
              es.foldl (fun s e => s.collFault n e 0xE ranks) s
            else if other ≠ 0 then
              es.foldl (fun s e => s.collFault n e (if e.code = 0 then other else e.code) ranks) s
            else if !(others.all fun p => p.source.length = c.bytes) then s
            else
              let (pick, s) := s.pickBelow (n + 1)
              es.foldl (fun s e => s.collWrite (ranks.filterMap fun p => p) pick e) s

/-- COLLECTIVE_COMPLETE (R429): the fault codes that may come from elsewhere are memory, lease, bounds, descriptor,
command, link and mismatch. -/
def execCollectiveComplete (c : Nat) (peers : List PeerCmd) (fault : Nat) (s : State) : Res :=
  .next (match Tab.get? s.ops.colls c with
    | some x => if s.ownerOrdered c x.owner && (fault = 0 || (decide (0x8 ≤ fault) && decide (fault ≤ 0xE))) then
        s.landing (s.collEnd c peers fault) fun _ => false
      else s
    | none => s)

/-- The jobs with a collective that needs a package. -/
def State.lostJobs (s : State) (pkg : Nat) : List Nat :=
  dedup ((s.ops.colls.filter fun e => ((s.commOf e.2).map fun m => m.ranks.any fun r => r.1 = pkg).getD false).map fun e =>
    e.2.job)

/-- PEER_LOST (R429): a package is lost. The collectives with a rank of it end with fault-link: those whose group's
earlier accesses are performed, and whose status has its place at hand (R187), at once, the others at their
COLLECTIVE_COMPLETE (R255). -/
def State.collLost (s : State) (pkg : Nat) : State :=
  let s := s.setHub { s.hub with lostPkgs := dedup (pkg :: s.hub.lostPkgs) }
  (s.ops.colls.filter fun e => s.ownerOrdered e.1 e.2.owner &&
    ((s.commOf e.2).map fun m => m.ranks.any fun r => r.1 = pkg).getD false).foldl
      (fun s e => s.landing (s.collEnd e.1 [] 0) fun _ => false) s

/-! ### Queue registers (R275, R276, R278) -/

/-- The eighth word of a pair's command may be accepted (R278): a free place in the engine's queue, and room for its
record beside the records present and those still to come. -/
def State.pairReady (s : State) (g : Group) (q : Nat) (copy : Bool) : Bool :=
  decide ((Tab.getD g.qcmp (q + 1) []).length + 2 * Tab.getD g.qout q 0 + 2 ≤ 32) &&
  (if copy then decide (s.copiesOf g.core < Config.copyQueue) else !s.collFull)

/-- The command of eight words is accepted (R278, R279, R430). -/
def State.acceptPair (s : State) (gid : Nat) (g : Group) (q : Nat) (copy : Bool) (ws : List Word) : State :=
  if copy then s.acceptRaw gid g q ws
  else
    let w := wnat ws 0
    let c := rawColl (.raw gid q (ws.getD 7 0#32)) (s.jobOf g) g.launch (bitsOf w 28 4) (bitsOf w 26 2) (bitsOf w 0 26)
      ((ws.drop 1).take 6)
    let (n, s) := s.fresh
    s.enterColl n c

/-- QW (R276, R278): the record of a command that ends at once (R279) may land in a trap save area (R187, R357). -/
def qwEff (q : BitVec 4) (a : Reg) (s : State) (gid : Nat) (g : Group) (_cl : Clause) : Eff :=
  let k := q.toNat
  let copy := ((s.launch? g).map fun l => l.bindings.getD k 0) = some 1
  let ws := Tab.getD g.qbuf k [] ++ [g.sval a 0]
  if g.active == 0#64 then doneG s gid g .seq
  else if ws.length < 8 then doneG s gid { g with qbuf := Tab.set g.qbuf k ws } .seq
  else if !s.tagLive (s.jobOf g) g.lanes.ctag.toNat then .trap (.withDetail 0x0C 8)
  else if !s.pairReady g k copy then .wait
  else
    let s := s.setGroup gid { g with qbuf := Tab.set g.qbuf k [], qout := Tab.set g.qout k (Tab.getD g.qout k 0 + 1) }
    let s' := s.acceptPair gid g k copy ws
    let segs := s.landSegs s' fun _ => false
    if s.asleep segs then .wait else .done (s'.touch segs) .seq []

def execQw (q : BitVec 4) (a : Reg) (s : State) : Res := issue (.qw q a) (qwEff q a) s

/-- The next unclaimed word of a completion queue, and the group without it (R276). -/
def Group.takeWord (g : Group) (q : Nat) : Option (Word × Group) :=
  if !(Tab.getD g.qclaims q []).isEmpty then none
  else match Tab.getD g.qcmp q [] with
    | w :: ws => some (w, { g with qcmp := Tab.set g.qcmp q ws })
    | [] => none

/-- QR (R276). -/
def qrEff (q : BitVec 4) (d : Reg) (s : State) (gid : Nat) (g : Group) (_cl : Clause) : Eff :=
  if g.active == 0#64 then doneG s gid g .seq
  else match g.takeWord q.toNat with
    | some (w, g) =>
      let (s, g) := s.sendVals gid g (g.dest d 0 fun _ => w)
      doneG s gid g .seq
    | none =>
      let (op, s) := s.fresh
      let g := g.setPend op (g.pregs d 1)
      doneG s gid { g with qclaims := Tab.set g.qclaims q.toNat (Tab.getD g.qclaims q.toNat [] ++ [op]) } .seq

def execQr (q : BitVec 4) (d : Reg) (s : State) : Res := issue (.qr q d) (qrEff q d) s

/-- QTRY (R276). -/
def qtryEff (pd q : BitVec 4) (d : Reg) (s : State) (gid : Nat) (g : Group) (_cl : Clause) : Eff :=
  if g.active == 0#64 then doneG s gid g .seq
  else
    let (w, ok, g) := match g.takeWord q.toNat with
      | some (w, g) => (w, true, g)
      | none => (0#32, false, g)
    let ps := (maskList g.exec).map fun i => (Target.p pd.toNat i, if ok then 1#32 else 0#32)
    let (s, g) := s.sendVals gid g (g.dest d 0 (fun _ => w) ++ ps)
    doneG s gid g .seq

def execQtry (pd q : BitVec 4) (d : Reg) (s : State) : Res := issue (.qtry pd q d) (qtryEff pd q d) s

end Sys2Proof.Machine
end

