-- ==== Sys2Proof/Machine/Stalls.lean ====
section
/-!
DEFINITION. When a group is stalled on contexts, and what the Sheepdog does about it (R227, R228, R269).
-/

namespace Sys2Proof.Machine

/-- A number that is no counter's: raw commands count in none (R243). -/
def cNone : Nat := 6

/-- The group, operation and counter of a write that waits for a cell. -/
def State.waiter (s : State) (w : Nat) : Option (Nat × Nat × Nat) :=
  match Tab.get? s.ops.sfq w with
  | some e => some (e.group, e.op, cST)
  | none => match Tab.get? s.ops.mem w with
    | some o => some (o.group, w, o.cls)
    | none => match Tab.get? s.ops.copies w with
      | some c => (match c.owner with
        | .scalar g _ => some (g, w, cCP)
        | .raw g _ _ => some (g, w, cNone)
        | .program _ _ => none)
      | none => none

/-- The group's own operations that wait for a cell, with their counters. -/
def State.waitersOf (s : State) (gid : Nat) : List (Nat × Nat) :=
  (s.kennel.waits.filterMap s.waiter).filterMap fun w => if w.1 = gid then some w.2 else none

/-- The group's retirements that cannot complete because a write ahead of them waits for a cell (R228). -/
def State.retirersOf (s : State) (g : Group) : List (Nat × Nat) :=
  s.kennel.tags.filterMap fun e => match e.2.state with
    | .retiring commit (some op) _ _ =>
      if (g.outs cCL).any (fun o => o.1 = op) && (s.tagHeld e.1 || (commit &&
          s.kennel.cells.any fun c => c.tag = e.1 && s.granuleHeld e.2.job c.obj c.gran)) then some (op, cCL)
      else none
    | _ => none

/-- A threshold of a counter cannot be met before an operation completes. -/
def Group.covers (g : Group) (w : Nat × Nat) (c t : Nat) : Bool :=
  w.2 = c && decide (t < ((g.outs c).dropWhile fun e => e.1 ≠ w.1).length)

/-- A header's thresholds wait for an operation. -/
def Group.headerCovers (g : Group) (h : Word) (w : Nat × Nat) : Bool :=
  let met := fun c lo n => bitsOf h.toNat lo n ≠ 2 ^ n - 1 && g.covers w c (bitsOf h.toNat lo n)
  met cLD 11 4 || met cST 8 3 || met cCP 5 3 || met cTL 2 3

/-- An instruction waits at its word, as a memory instruction does while the core's entries or queue lines are full (R202,
R203), and a copy command or a QW while the engine's queue or the pair's is (R263, R278). -/
def State.memWaits (s : State) (gid : Nat) (g : Group) (cl : Clause) (i : Instr) : Bool :=
  let off := fun (b : BitVec 18) => b.toInt
  match i with
  | .ld d b sz vi => loadEff d b sz (fun g i => g.src vi 0 i) 0 (fun _ => none) s gid g cl = .wait
  | .ldl d b sz vi o => loadEff d b sz (fun g i => g.src vi 0 i) o.toInt (fun _ => none) s gid g cl = .wait
  | .sld d b sz n => loadEff d b sz (fun _ _ => n.zeroExtend 32) 0 (fun _ => none) s gid g cl = .wait
  | .ldx d b sz vi k o => loadEff d b sz (fun g i => g.src vi 0 i) (off o)
      (fun g => some (bitsOf (g.sval (.s (Fin.ofNat 64 k.toNat)) 0).toNat 0 16)) s gid g cl = .wait
  | .st d b sz vi => storeEff d b sz vi 0 s gid g cl = .wait
  | .stl d b sz vi o => storeEff d b sz vi o.toInt s gid g cl = .wait
  | .tcopyLd _ _ _ _ _ _ _ | .tcopySt _ _ _ _ _ _ _ | .tcopyiPack _ _ _ _ _ _ _ | .tcopyiUnpack _ _ _ _ _ _ _
  | .tmov _ _ _ _ _ => g.active != 0#64 && s.copyHeld g
  | .qw q a => qwEff q a s gid g cl = .wait
  | .atom d b vi op ord ty scope val => atomEff (some d) b vi op ord ty scope val s gid g cl = .wait
  | .red b vi op ord ty scope val => atomEff none b vi op ord ty scope val s gid g cl = .wait
  | _ => false

/-- The state without the outstanding entries, queue lines and engine places of some operations. -/
def State.without (s : State) (ws : List (Nat × Nat)) : State :=
  let mine := fun (op : Nat) => ws.any fun w => w.1 = op
  s.setOps { s.ops with
    mem := Tab.keep s.ops.mem fun k _ => !mine k
    sfq := Tab.keep s.ops.sfq fun _ e => !mine e.op
    copies := Tab.keep s.ops.copies fun k _ => !mine k }

/-- A group's raw commands on a pair. -/
def State.pairOf (s : State) (gid q : Nat) : List Nat :=
  (s.ops.copies.filter fun e => match e.2.owner with
    | .raw g k _ => g = gid && k = q
    | .scalar _ _ | .program _ _ => false).map Prod.fst

/-- The group without the places that some operations hold in its pairs (R278). -/
def State.withoutPairs (s : State) (gid : Nat) (g : Group) (ws : List (Nat × Nat)) : Group :=
  { g with qout := g.qout.map fun e => (e.1, e.2 - ((s.pairOf gid e.1).filter fun k => ws.any fun w => w.1 = k).length) }

/-- The QRs of the group whose words only some of its raw commands can bring (R269, R276): each further command brings two
words. -/
def State.qrsOf (s : State) (gid : Nat) (g : Group) (ws : List (Nat × Nat)) : List (Nat × Nat) :=
  g.qclaims.flatMap fun e =>
    let cmds := s.pairOf gid (e.1 - 1)
    let free := cmds.filter fun k => !ws.any fun w => w.1 = k
    if free.length = cmds.length then [] else (e.2.drop (2 * free.length)).map fun op => (op, cNone)

/-- An instruction is held because the entries, queue lines or engine places that some operations occupy are full (R227): it
would issue without them. DEDUCED (assumption log 28). -/
def State.memFull (s : State) (gid : Nat) (g : Group) (cl : Clause) (i : Instr) (ws : List (Nat × Nat)) : Bool :=
  !ws.isEmpty && s.memWaits gid g cl i && !(s.without ws).memWaits gid (s.withoutPairs gid g ws) cl i

/-- Operations before which a release of the group at a scope is not met (R252, R253): at the scopes of one core its
atomics and reductions, else its stores too. -/
def State.releaseWaits (s : State) (gid : Nat) (sc : Scope) (ws : List (Nat × Nat)) : Bool :=
  ws.any fun w => match Tab.get? s.ops.mem w.1 with
    | some o => o.group = gid && (Scope.far sc || o.nearOpen)
    | none => false

/-- Operations before which an acquire of the group is not met: those with a read to return. -/
def State.acquireWaits (s : State) (gid : Nat) (ws : List (Nat × Nat)) : Bool :=
  ws.any fun w => match Tab.get? s.ops.mem w.1 with
    | some o => o.group = gid && o.reads
    | none => false

/-- The group's releasing atomics and reductions that wait for one of some operations (R253). -/
def State.releasersOf (s : State) (gid : Nat) (ws : List (Nat × Nat)) : List (Nat × Nat) :=
  s.ops.mem.filterMap fun e => match e.2.kind with
    | .atomic _ _ _ ord sc =>
      if e.2.group = gid && ord.releases && e.2.accs.any (fun a => !a.performed && !a.waits) &&
          s.releaseWaits gid sc (ws.filter fun w => decide (w.1 < e.1)) then some (e.1, e.2.cls)
      else none
    | .load | .store | .value => none

/-- The counters that hold an instruction at their limit (R244). -/
def limitOf : Instr → Option Nat
  | .ld _ _ _ _ | .ldl _ _ _ _ _ | .sld _ _ _ _ | .ldx _ _ _ _ _ _ | .lds _ _ _ | .atom _ _ _ _ _ _ _ _
  | .atoms _ _ _ _ _ _ _ => some cLD
  | .st _ _ _ _ | .stl _ _ _ _ _ | .sts _ _ _ | .red _ _ _ _ _ _ _ => some cST
  | .tcopyLd _ _ _ _ _ _ _ | .tcopySt _ _ _ _ _ _ _ | .tcopyiPack _ _ _ _ _ _ _ | .tcopyiUnpack _ _ _ _ _ _ _
  | .tmov _ _ _ _ _ => some cCP
  | .ctxretCommit _ _ | .ctxretDrop _ _ | .coll _ _ _ _ => some cCL
  | _ => none

/-- A load of the group waits for a store of the group that waits for a cell (R225, R228). -/
def State.loadHeld (s : State) (gid : Nat) : Bool :=
  s.ops.mem.any fun e => e.2.group = gid && e.2.kind = .load && e.2.undone.any fun a =>
    (List.range e.2.size.bytes).any fun k => match s.forwardLine e.1 e.2 (a.off + k) with
      | some l => l.2.group = gid && barsForward e.2 l.2 && s.kennel.waits.contains l.1
      | none => false

/-- The group's next word cannot issue because of one of some operations (R227). -/
def State.heldBy (s : State) (gid : Nat) (g : Group) (ws : List (Nat × Nat)) : Bool :=
  let pend := fun (rs : List PReg) => g.pend.any fun e => !e.saved && rs.contains e.reg && ws.any fun w => w.1 = e.op
  match g.clause with
  | none =>
    match g.dropRepeat.issueAddr with
    | none => false
    | some a =>
      let h := s.codeWord g a
      ws.any (g.headerCovers h) || (h.getLsbD 20 && pend [.p (hdrPred h)])
  | some cl =>
    let i := wordStep (s.fetch g cl)
    pend ((usesOf i).pregs g) || (cl.reentry && ws.any (g.headerCovers cl.hw)) ||
    (g.hold.any fun op => ws.any fun w => w.1 = op || (decide (w.1 < op) && s.acquireWaits gid [w])) ||
    ((limitOf i).any fun c => ws.any fun w => w.2 = c && g.covers w c (cntLimit c - 1)) ||
    (match i with
     | .waitC ld st cp tl sg c =>
       ws.any fun w => [(cLD, ld), (cST, st), (cCP, cp), (cTL, tl), (cSG, sg), (cCL, c)].any fun t =>
         t.2 ≠ 15#4 && g.covers w t.1 t.2.toNat
     | .fence o sc => (o.releases && s.releaseWaits gid sc ws) || (o.acquires && s.acquireWaits gid ws)
     | .bara _ b => s.releaseWaits gid (barScopeOf b.scope) ws
     | .bars b => if g.barsTok.isSome then s.acquireWaits gid ws else s.releaseWaits gid (barScopeOf b.scope) ws
     | .barw _ _ => s.acquireWaits gid ws
     | .atoms _ _ _ o _ sc _ => o.releases && s.releaseWaits gid sc ws
     | .tfence _ => ws.any fun w => w.2 ≤ cST
     | .ctxretCommit _ _ | .ctxretDrop _ _ => ws.any fun w => w.2 ≤ cCP
     | _ => s.memFull gid g cl i ws)

/-- Whether an instruction of a group cannot issue or complete for want of a cell (R227, R228): it is held by a write of
the group that waits for one, by a releasing atomic or a QR that waits for such a write, or by a retirement behind such
a write. -/
def State.cellStalled (s : State) (gid : Nat) (g : Group) : Bool :=
  let ws := s.waitersOf gid
  let rs := s.releasersOf gid ws
  s.loadHeld gid || !rs.isEmpty || s.heldBy gid g (ws ++ rs ++ s.qrsOf gid g ws) || s.heldBy gid g (s.retirersOf g)

/-- Whether a group is stalled on contexts (R228). -/
def State.ctxStalled (s : State) (gid : Nat) (g : Group) : Bool := g.ctxwait || s.cellStalled gid g

/-- Whether a group waits for a cell (R228): it is stalled on one, or stalled with a write that waits for one. -/
def State.waitsForCell (s : State) (gid : Nat) (g : Group) : Bool :=
  s.cellStalled gid g || !(s.waitersOf gid).isEmpty

/-- Every unfinished group of a job is stalled on contexts, and there is one. -/
def State.allStalled (s : State) (job : Nat) : Bool :=
  let gs := s.groups.filter fun e => !e.2.done && s.jobOf e.2 = job
  !gs.isEmpty && gs.all fun e => s.ctxStalled e.1 e.2

/-- Since when a job's groups have all been stalled without a break (R228). DEDUCED (assumption log 28). -/
def State.markStalls (s : State) : State :=
  s.setWork { s.work with jobs := Tab.mapVals s.work.jobs fun k j =>
    { j with stalled := if s.allStalled k then (match j.stalled with
        | some t => some t
        | none => some s.now)
      else none } }

/-- CONTEXT_STALL_TIMEOUT (R228): after 100 µs each launch of the job with a stalled group ends. -/
def State.stallTimeout (s : State) (job : Nat) : State :=
  match (Tab.get? s.work.jobs job).bind Job.stalled with
  | none => s
  | some t =>
    if s.allStalled job && decide (t + 100000 ≤ s.now) then
      let gs := s.groups.filter fun e => !e.2.done && s.jobOf e.2 = job
      (dedup (gs.map fun e => e.2.launch)).foldl (fun s' l =>
        s'.killLaunch l (if gs.any fun e => e.2.launch = l && s.waitsForCell e.1 e.2 then stCell else stTag)) s
    else s

def execContextStallTimeout (job : Nat) (s : State) : Res := .next (s.stallTimeout job)

/-- STALL_REPORT (R228, R390): a Pup tells the Sheepdog that a group is stalled on contexts. -/
def execStallReport (gid : Nat) (s : State) : Res :=
  .next (s.relay (.stall gid) (((Tab.get? s.groups gid).filter fun g => !g.done && s.ctxStalled gid g).map fun g =>
    clusterOf g.core))

end Sys2Proof.Machine
end

