-- ==== Sys2Proof/Machine/Cycle.lean ====
section
/-!
DEFINITION. A turn of the part (assumption log 1): time passes, errors arise, and then one event of the table
happens or one slice takes one slice cycle (R103): it chooses a ready group, fetches its next word, decodes it and
runs it. `run` is the meaning of an instruction or event.
-/

namespace Sys2Proof.Machine

/-! ### Errors -/

/-- The pairs that the table of R423 names, by unit and array. -/
def errorNamed (u a : Nat) : Bool :=
  if u < 128 then decide (a ≤ 11)
  else if u < 160 then decide (a ≤ 1)
  else if u < 164 then decide (a ≤ 2)
  else decide (u ≤ 182) && a = 0

/-- The die at a physical address's home: each serves two of the eight stacks (R6, R196). -/
def homeDie (phys : Nat) : Nat := stackOf phys / 2

/-- The cells of a die's Kennel directory (R4, R17): those of the granules whose homes it has. -/
def State.directory (s : State) (die : Nat) : List Cell := s.kennel.cells.filter fun c => homeDie c.phys = die

/-- The error counter of a place (R423): 16 × unit + array. A cell's is that of the Kennel directory of its granule's home
(R4, R17). -/
def State.errorUnit (s : State) : BadLoc → Option Nat
  | .coreScratch b _ => (Tab.get? s.work.blocks b).map fun x => 16 * x.core + 6
  | .array u a _ => if errorNamed u a then some (16 * u + a) else none
  | .clusterScratch l g _ =>
    ((Tab.get? s.work.launches l).bind fun x => Tab.get? x.gangs g).map fun x => 16 * (128 + x.cluster)
  | .dieScratch _ d _ => some (16 * (160 + d))
  | .hbm d => some (16 * (165 + 8 * d / (48 * 2 ^ 30)))
  | .tile b _ _ => (Tab.get? s.work.blocks b).map fun x => 16 * x.core + 7
  | .cell t o g => ((List.range 4).find? fun d => (s.directory d).any fun c => c.tag = t && c.obj = o && c.gran = g).map
      fun d => 16 * (160 + d) + 1
  | .registers g => (Tab.get? s.groups g).map fun x => 16 * (160 + dieOf x.core)
  | .saveArea g => (Tab.get? s.groups g).map fun x => 16 * (160 + dieOf x.core)

/-- An extent list of a job names a frame of a range (R195, R421). -/
def State.namesFrame (s : State) (j : Job) (first n : Nat) : Bool :=
  (List.range 65536).any fun obj =>
    let ws := bytesToWords (s.hbmRead (j.objectTable + 16 * obj) 16)
    wnat ws 0 = 2 ^ 31 && (List.range (wnat ws 1)).any fun ext =>
      let e := bytesToNat (s.hbmRead (wnat ws 2 + wnat ws 3 * 2 ^ 32 + 8 * ext) 8)
      e.testBit 63 && decide (first ≤ bitsOf e 21 18) && decide (bitsOf e 21 18 < first + n)

/-- The job whose data a place of the part holds, device memory apart (R433). -/
def State.errorJob (s : State) : BadLoc → Option Nat
  | .coreScratch b _ => (Tab.get? s.work.blocks b).bind fun x => (Tab.get? s.work.launches x.launch).map Launch.job
  | .clusterScratch l _ _ => (Tab.get? s.work.launches l).map Launch.job
  | .dieScratch l _ _ => (Tab.get? s.work.launches l).map Launch.job
  | .hbm _ => none
  | .array _ _ j => j
  | .tile b _ _ => (Tab.get? s.work.blocks b).bind fun x => (Tab.get? s.work.launches x.launch).map Launch.job
  | .cell t _ _ => (Tab.get? s.kennel.tags t).map Tag.job
  | .registers g => (Tab.get? s.groups g).map fun x => s.jobOf x
  | .saveArea g => (Tab.get? s.groups g).map fun x => s.jobOf x

/-- The jobs that an error concerns (R433): of device memory those whose extents name its frame. -/
def State.errorJobs (s : State) : BadLoc → List Nat
  | .hbm d => (s.work.jobs.filter fun e => s.namesFrame e.2 (8 * d / 2 ^ 21) 1).map Prod.fst
  | b => (s.errorJob b).toList

/-- Adds to an error counter pair, saturating at 32 bits (R433). -/
def addErrors (t : Tab (Nat × Nat)) (k c u : Nat) : Tab (Nat × Nat) :=
  let e := Tab.getD t k (0, 0)
  Tab.set t k (min 0xFFFFFFFF (e.1 + c), min 0xFFFFFFFF (e.2 + u))

/-- The bytes of an event record. The spec gives no length: DESIGN CHOICE (assumption log 52). -/
def eventBytes : Nat := 64

/-- An event record of an error enters a job's save area (R433): its place there and its bytes are free values
(assumption log 52). -/
def State.eventRecord (s : State) (job : Nat) : State :=
  match Tab.get? s.work.jobs job with
  | none => s
  | some j =>
    let s := { s with free := s.free + 1 }
    let s := s.updJob job fun x => { x with events := x.events + 1 }
    if j.saveSize < eventBytes then s
    else
      let off := Config.eventPlace s.free % (j.saveSize - eventBytes + 1)
      s.hbmWrite (j.saveArea + off) ((List.range eventBytes).map fun k => Config.eventByte s.free k)

/-- A job hears of an uncorrectable error (R433): by an event record and its error vector. -/
def State.tellError (s : State) (job : Nat) : State :=
  let port := ((Tab.get? s.work.jobs job).map Job.port).getD 2
  (s.eventRecord job).updPort port fun p => p.raise (Config.errorVector job % 2048)

/-- An uncorrectable error arises: it is counted, and its job hears of it by an event record and its error vector, whose
number no rule gives (R185, R433). An error of an array whose data the model does not hold in such places, or a lost
flit, is counted and marks nothing. DESIGN CHOICE (assumption log 52). -/
def State.upset (s : State) (b : BadLoc) : State :=
  let s := match b with
    | .array _ _ _ => s
    | _ => { s with bad := dedup (b :: s.bad) }
  let s := match s.errorUnit b with
    | some k => s.setHub { s.hub with errors := addErrors s.hub.errors k 0 1 }
    | none => s
  (s.errorJobs b).foldl State.tellError s

/-- A report falls due when its time or its core cycle has come (R354, R370). -/
def Report.age (now cyc : Nat) (r : Report) : Report :=
  if (r.by_ ≠ 0 && decide (r.by_ ≤ now)) || (r.cyc ≠ 0 && decide (r.cyc ≤ cyc)) then { r with due := true } else r

/-- Time passes and errors arise before a turn's act; reports fall due, and stalls on contexts that last are marked
(R228). DESIGN CHOICE (assumption log 18). -/
def State.begin_ (s : State) (t : Turn) : State :=
  let s := s.markStalls
  let s := { s with
    now := s.now + t.dt
    turnCount := s.turnCount + 1
    cur := none
    waited := false
    clusters := Tab.mapVals s.clusters fun _ c => { c with cyc := c.cyc + t.dt * c.mhz }
    hub := { s.hub with errors := t.corrected.foldl (fun (e : Tab (Nat × Nat)) (c : Nat × Nat) =>
      if errorNamed c.1 c.2 then addErrors e (16 * c.1 + c.2) 1 0 else e) s.hub.errors } }
  let s := { s with groups := Tab.mapVals s.groups fun _ g =>
    { g with reports := g.reports.map (Report.age s.now (s.coreCycles g.core)) } }
  t.upsets.foldl State.upset s

/-- The next turn: the agenda's first, or a free one when the agenda is empty. -/
def State.nextTurn (s : State) : Turn × State :=
  match s.turns with
  | t :: ts => (t, { s with turns := ts })
  | [] => (Config.turn s.turnCount, s)

/-! ### Fetching and running a word -/

/-- The rewriter has the group's next word wait for the fixed-latency results on their way (R396).
DESIGN CHOICE (assumption log 16). -/
def State.waitsAt (s : State) (g : Group) (cl : Clause) : Bool :=
  match s.launch? g, s.codeOf (clusterOf g.core) g.launch with
  | some l, some c => decide (c.base ≤ cl.header + cl.pos) && l.kernel.waits.contains (cl.header + cl.pos - c.base)
  | _, _ => false

/-- A group's next word is run (R103); the results it waits for have landed by then. -/
def State.runWord (run : Instr → State → Res) (s : State) (gid : Nat) (g : Group) (cl : Clause) : Res :=
  let s := if s.waitsAt g cl then s.settle gid else s
  run (wordStep (s.fetch g cl)) { s with cur := some gid, waited := false }

/-- Whether a step took a report of the group. -/
def tookReport (n gid : Nat) : Res → Bool
  | .next s' => ((Tab.get? s'.groups gid).map fun g => decide (g.reports.length < n)).getD false
  | _ => false

/-- The state as if a group's launch had a handler: a cause is then a trap of its own, told from a report taken. -/
def State.handled (s : State) (g : Group) : State :=
  s.updLaunch g.launch fun l => { l with handler := some (l.handler.getD 0) }

/-- A due report taken at the header of the group's next clause (R355), where the clause's first word raises no cause
before it: one that has to wait, or could be taken at that word as well. None where there is none to take.
DEDUCED (assumption log 22). -/
def State.headerReport (run : Instr → State → Res) (s : State) (gid : Nat) : Option State :=
  match s.headerOf gid with
  | none => none
  | some (g, cl, g') => match g.dueReport, g'.clause with
    | some r, some cl' =>
      if tookReport g.reports.length gid (((s.setGroup gid g').handled g).runWord run gid g' cl') then
        some ((s.setGroup gid g).takeReport gid g cl r)
      else none
    | _, _ => none

/-- The state as if a group stood held in its slice's active set: whether a group elsewhere is ready is asked there
(R119, R122). DEDUCED (assumption log 19). -/
def State.asActive (s : State) (gid : Nat) (g : Group) : State :=
  if g.res == .held && (s.activeOf g.core g.slice).contains gid then s
  else (s.setGroup gid { g with res := .held }).updSlice (sliceKey g.core g.slice) fun sl =>
    { sl with active := sl.active ++ [gid] }

/-- A trap handler whose group was saved waits for a save area before it goes on (R376). -/
def Group.noArea (g : Group) : Bool :=
  match g.trap with
  | some f => f.area.isNone
  | none => false

/-- What a group's issue in this slice cycle comes to: its clause begins where one is due, then its word runs. A due
report may be taken at the header instead, and is where the clause waits; which of the two is a free value (assumption
log 2). None where the group is not ready (R103). DEDUCED (assumption log 19). -/
def State.trial (run : Instr → State → Res) (s : State) (gid : Nat) : Option Res :=
  match Tab.get? s.groups gid with
  | none => none
  | some g =>
    if g.done || g.res == .saved || g.res == .waiting || g.noArea then none
    else
      let go := fun (s : State) (g : Group) (cl : Clause) =>
        match s.runWord run gid g cl with
        | .next s' => if s'.waited then none else some (.next s')
        | r => some r
      match g.clause with
      | some cl => go s g cl
      | none =>
        let s := s.asActive gid g
        let atHeader := if g.dueReport.isSome then s.headerReport run gid else none
        match run (.clauseIssue gid) { s with waited := false } with
        | .next s' =>
          if s'.waited then atHeader.map fun s => .next s
          else match Tab.get? s'.groups gid with
            | none => some (.next s')
            | some g' => match g'.clause, atHeader with
              | none, _ => some (.next s')
              | some cl, none => go s' g' cl
              | some cl, some s0 =>
                if (s.pickBelow 2).1 = 0 then some (.next (s0.pickBelow 2).2) else go (s'.pickBelow 2).2 g' cl
        | r => some r

/-! ### The slice's choice -/

/-- The group of a list with the largest wait count of at least 4,096, the earliest place on ties (R103). -/
def State.starving (s : State) (ready : List Nat) : Option Nat :=
  let cnt := fun k => ((Tab.get? s.groups k).map Group.waitCnt).getD 0
  let m := maxNat (ready.map cnt)
  if 4096 ≤ m then ready.find? fun k => cnt k = m else none

/-- The group that issues, of the ready ones in order of entry (R103). -/
def State.choose (s : State) (ready : List Nat) : Option Nat :=
  match s.starving ready with
  | some k => some k
  | none =>
    match ready.find? fun k => ((Tab.get? s.groups k).map fun g => g.recov.isSome).getD false with
    | some k => some k
    | none => ready.head?

/-- The counts that a slice cycle changes on a group of the slice (R103, R118, R122). -/
def countGroup (active ready : List Nat) (chosen : Option Nat) (cyc gid : Nat) (g : Group) : Group :=
  let r := ready.contains gid
  let g := if r then { g with since := cyc } else g
  if active.contains gid then
    { g with
      waitCnt := if chosen = some gid then 0 else if r then g.waitCnt + 1 else g.waitCnt
      idleCnt := if r then 0 else g.idleCnt + 1 }
  else { g with readyCnt := if r then g.readyCnt + 1 else 0 }

/-- The end of a slice cycle: the counts, and the timing errors replayed in an issue above the timing-safe point
(R402). -/
def State.endCycle (core sl errors : Nat) (active all ready : List Nat) (chosen : Option Nat) (s : State) : State :=
  let cyc := s.coreCycles core
  let s := { s with
    cur := none
    groups := Tab.mapVals s.groups fun k g => if all.contains k then countGroup active ready chosen cyc k g else g }
  s.updSlice (sliceKey core sl) fun x =>
    if chosen.isSome && decide (x.safe < x.ratio) then { x with replays := min 0xFFFFFFFF (x.replays + errors) } else x

/-- One slice cycle (R103). -/
def State.sliceCycle (run : Instr → State → Res) (core sl errors : Nat) (s : State) : Res :=
  let active := s.activeOf core sl
  let all := (s.resident core sl).map Prod.fst
  let s := all.foldl State.stallTick s
  let ready := all.filter fun k => (s.trial run k).isSome
  let chosen := s.choose (active.filter fun k => ready.contains k)
  match chosen with
  | none => .next (s.endCycle core sl errors active all ready none)
  | some k =>
    match s.trial run k with
    | some (.next s') => .next (s'.endCycle core sl errors active all ready (some k))
    | some r => r
    | none => .next s

/-- The events that a turn may bring: those of the table that no word of a group raises and that are no part of a slice
cycle, as CLAUSE_ISSUE is (R103, R122). -/
def Instr.isTurn (i : Instr) : Bool :=
  i.isEvent && (match i with
    | .illegalInstruction _ _ => false
    | .clauseIssue _ => false
    | _ => true)

/-! ### Firmware (R118, R169, R186, R392, R399, R401, R402, R410) -/

/-- A swap reserve that firmware may set (R169): in steps of 64 KiB up to 1 MiB, while no launch holds an allotment of
the core's die. That a core with a group swapped out keeps its reserve is the model's: DESIGN CHOICE (assumption log 61). -/
def State.reserveOk (s : State) (core bytes : Nat) : Bool :=
  bytes % 65536 = 0 && decide (bytes ≤ 1048576) &&
    s.dieUse (dieOf core) = 0 &&
    s.groups.all fun e => e.2.core ≠ core || e.2.res != .swapped

/-- Entry 0 of the phase maps is never below S_min (R410). -/
def Hub.setSMin (h : Hub) (n : Nat) : Hub :=
  { h with sMin := n, maps := Tab.upd h.maps 0 fun m => { m with spacing := max PhaseMap.default.spacing n } }

/-- Firmware sets something; a value out of its range changes nothing. DESIGN CHOICE (assumption log 5). -/
def State.applySetting (s : State) (f : Setting) : State :=
  match f with
  | .sliceCeiling core sl n =>
    if 4 ≤ n ∧ n ≤ 12 ∧ sl < 6 then s.updSlice (sliceKey core sl) fun x => { x with ceiling := n } else s
  | .safePoint core sl n =>
    if 4 ≤ n ∧ n ≤ 12 ∧ sl < 6 then s.updSlice (sliceKey core sl) fun x => { x with safe := n } else s
  | .swapReserve core bytes => if s.reserveOk core bytes then s.updCore core fun c => { c with reserve := bytes } else s
  | .swapmin core n => if 256 ≤ n ∧ n ≤ 65535 then s.updCore core fun c => { c with swapmin := n } else s
  | .tAvoid deg => if 80 ≤ deg ∧ deg ≤ 105 then s.setHub { s.hub with tAvoid := (deg : Int) * 16 } else s
  | .sMin n => if n ≤ 4095 then s.setHub (s.hub.setSMin n) else s
  | .meter cluster stack n =>
    if n ≤ 65535 ∧ stack < 8 then s.updCluster cluster fun c => { c with meter := Tab.set c.meter stack n } else s
  | .retainAfter us => if 10 ≤ us ∧ us ≤ 10000 then s.setHub { s.hub with retainAfter := us } else s
  | .retainForbid arr on => s.setHub { s.hub with
      noRetain := if on then dedup (arr :: s.hub.noRetain) else s.hub.noRetain.filter fun a => a ≠ arr }

/-- One step of the part. -/
def stepWith (run : Instr → State → Res) (s : State) : Res :=
  let (t, s) := s.nextTurn
  let s := s.begin_ t
  match t.act with
  | .event i => if Instr.isTurn i then run i s else .next s
  | .firmware f => .next (s.applySetting f)
  | .offer port f => .next (s.offerFlit port f)
  | .slice core sl errors => s.sliceCycle run core sl errors

end Sys2Proof.Machine
end

