-- ==== Sys2Proof/Machine/Barriers.lean ====
section
/-!
DEFINITION. The barrier instructions (R340 to R344) and the events of a release window (R350, R351).
-/

namespace Sys2Proof.Machine

/-- The token of an arrival (R341): its generation bit above the BA field. -/
def barToken (gen : Nat) (b : BarName) : Word := BitVec.ofNat 32 (gen % 2 * 256 + b.toBits.toNat)

/-- The group's arrival at a barrier (R341): its release is performed (R259), its record is set and the unit counts or
queues it. Answers the generation it counts in. -/
def State.arrive (s : State) (gid : Nat) (g : Group) (b : BarName) : Nat × State :=
  let id := s.barId g b
  let gen := ((s.bar? id).map Barrier.arriveGen).getD 0
  (gen, ((s.released gid (barScopeOf b.scope)).setGroup gid
    { g with arrivals := Tab.set g.arrivals (arrKey b) gen }).barEvent id (0, 0))

/-- BARA (R341). -/
def baraEff (d : Reg) (b : BarName) (s : State) (gid : Nat) (g : Group) (_cl : Clause) : Eff :=
  if g.active == 0#64 then doneG s gid g .seq
  else if Tab.has g.arrivals (arrKey b) || !s.releaseMet gid g (barScopeOf b.scope) then .wait
  else
    let (gen, s) := s.arrive gid g b
    let (s, g) := s.sendVals gid ((Tab.get? s.groups gid).getD g) (g.dest d 0 fun _ => barToken gen b)
    doneG s gid g .seq

def execBara (d : Reg) (bar : BarName) (s : State) : Res := issue (.bara d bar) (baraEff d bar) s

/-- Whether BARW goes on (R342): the record is clear or of the other generation bit, and the acquire is met. -/
def State.barwMet (s : State) (gid : Nat) (g : Group) (b : BarName) (t : Bool) : Bool :=
  (Tab.get? g.arrivals (arrKey b)).map (fun n => decide (n % 2 = 1)) ≠ some t && s.acquireMet gid

/-- The group goes on from a barrier: the acquire of R259 is performed. -/
def barResume (s : State) (gid : Nat) (g : Group) : Eff := .done ((s.setGroup gid g).acquired gid) .seq []

/-- BARW (R342). -/
def barwEff (a : Reg) (b : BarName) (s : State) (gid : Nat) (g : Group) (_cl : Clause) : Eff :=
  if g.active == 0#64 then doneG s gid g .seq
  else if s.barwMet gid g b ((g.sval a 0).getLsbD 8) then barResume s gid g
  else .wait

def execBarw (a : Reg) (bar : BarName) (s : State) : Res := issue (.barw a bar) (barwEff a bar) s

/-- BARS (R343): it arrives and stays at its word; then it waits as BARW with its own token. -/
def barsEff (b : BarName) (s : State) (gid : Nat) (g : Group) (_cl : Clause) : Eff :=
  if g.active == 0#64 then doneG s gid g .seq
  else match g.barsTok with
    | some t =>
      if s.barwMet gid g b (t = 1) then barResume s gid { g with barsTok := none } else .wait
    | none =>
      if Tab.has g.arrivals (arrKey b) || !s.releaseMet gid g (barScopeOf b.scope) then .wait
      else
        let (gen, s) := s.arrive gid g b
        .done (s.updGroup gid fun g => { g with barsTok := some (gen % 2) }) .gone []

def execBars (bar : BarName) (s : State) : Res := issue (.bars bar) (barsEff bar) s

/-- BAREXP (R344). -/
def barexpEff (a : Reg) (b : BarName) (s : State) (gid : Nat) (g : Group) (_cl : Clause) : Eff :=
  if g.active == 0#64 then doneG s gid g .seq
  else .done ((s.setGroup gid g).barEvent (s.barId g b) (1, sgn (g.sval a 0))) .seq []

def execBarexp (a : Reg) (bar : BarName) (s : State) : Res := issue (.barexp a bar) (barexpEff a bar) s

/-- BARRIER_PHASE_RELEASE (R350). -/
def execBarrierPhaseRelease (bar : BarId) (core : Nat) (s : State) : Res := .next (s.phaseRelease bar core)

/-- RELEASE_WINDOW_END (R351). -/
def execReleaseWindowEnd (bar : BarId) (s : State) : Res := .next (s.windowEnd bar)

end Sys2Proof.Machine
end

