-- ==== Sys2Proof/Machine/Rename.lean ====
section
/-!
DEFINITION. The rewriter's renumbering of vector registers in a kernel's code (R396).
-/

namespace Sys2Proof.Machine

/-- An instruction with every register operand replaced; instructions and events without one are unchanged. -/
def mapRegs (f : Reg → Reg) : Instr → Instr
  | .jmpx a off => .jmpx (f a) off
  | .srd d sp => .srd (f d) sp
  | .swr a sp => .swr (f a) sp
  | .iadd d a b => .iadd (f d) (f a) (f b)
  | .isub d a b => .isub (f d) (f a) (f b)
  | .imul d a b => .imul (f d) (f a) (f b)
  | .imulhiI32 d a b => .imulhiI32 (f d) (f a) (f b)
  | .imulhiUi32 d a b => .imulhiUi32 (f d) (f a) (f b)
  | .iminI32 d a b => .iminI32 (f d) (f a) (f b)
  | .iminUi32 d a b => .iminUi32 (f d) (f a) (f b)
  | .imaxI32 d a b => .imaxI32 (f d) (f a) (f b)
  | .imaxUi32 d a b => .imaxUi32 (f d) (f a) (f b)
  | .andR d a b => .andR (f d) (f a) (f b)
  | .orR d a b => .orR (f d) (f a) (f b)
  | .xorR d a b => .xorR (f d) (f a) (f b)
  | .shl d a b => .shl (f d) (f a) (f b)
  | .shr d a b => .shr (f d) (f a) (f b)
  | .sar d a b => .sar (f d) (f a) (f b)
  | .rot d a b => .rot (f d) (f a) (f b)
  | .mov d a => .mov (f d) (f a)
  | .notR d a => .notR (f d) (f a)
  | .ineg d a => .ineg (f d) (f a)
  | .iabs d a => .iabs (f d) (f a)
  | .clz d a => .clz (f d) (f a)
  | .popc d a => .popc (f d) (f a)
  | .brev d a => .brev (f d) (f a)
  | .iaddsatI32 d a b => .iaddsatI32 (f d) (f a) (f b)
  | .isubsatI32 d a b => .isubsatI32 (f d) (f a) (f b)
  | .iaddsatUi32 d a b => .iaddsatUi32 (f d) (f a) (f b)
  | .iamini d a imm => .iamini (f d) (f a) imm
  | .iaddi d a imm => .iaddi (f d) (f a) imm
  | .andi d a imm => .andi (f d) (f a) imm
  | .ori d a imm => .ori (f d) (f a) imm
  | .xori d a imm => .xori (f d) (f a) imm
  | .shli d a imm => .shli (f d) (f a) imm
  | .shri d a imm => .shri (f d) (f a) imm
  | .sari d a imm => .sari (f d) (f a) imm
  | .roti d a imm => .roti (f d) (f a) imm
  | .movi d imm => .movi (f d) imm
  | .movhi d imm => .movhi (f d) imm
  | .imuli d a imm => .imuli (f d) (f a) imm
  | .fadd d a b => .fadd (f d) (f a) (f b)
  | .fsub d a b => .fsub (f d) (f a) (f b)
  | .fmul d a b => .fmul (f d) (f a) (f b)
  | .fmin d a b => .fmin (f d) (f a) (f b)
  | .fmax d a b => .fmax (f d) (f a) (f b)
  | .fabs d a => .fabs (f d) (f a)
  | .fneg d a => .fneg (f d) (f a)
  | .frcp d a => .frcp (f d) (f a)
  | .frsq d a => .frsq (f d) (f a)
  | .fsqrt d a => .fsqrt (f d) (f a)
  | .fexp2 d a => .fexp2 (f d) (f a)
  | .flog2 d a => .flog2 (f d) (f a)
  | .fsin d a => .fsin (f d) (f a)
  | .fcos d a => .fcos (f d) (f a)
  | .frnd d a mode => .frnd (f d) (f a) mode
  | .fclass d a => .fclass (f d) (f a)
  | .haddF16 d a b => .haddF16 (f d) (f a) (f b)
  | .hmulF16 d a b => .hmulF16 (f d) (f a) (f b)
  | .hminF16 d a b => .hminF16 (f d) (f a) (f b)
  | .hmaxF16 d a b => .hmaxF16 (f d) (f a) (f b)
  | .haddBf16 d a b => .haddBf16 (f d) (f a) (f b)
  | .hmulBf16 d a b => .hmulBf16 (f d) (f a) (f b)
  | .hminBf16 d a b => .hminBf16 (f d) (f a) (f b)
  | .hmaxBf16 d a b => .hmaxBf16 (f d) (f a) (f b)
  | .icmpI32 pd cond a b => .icmpI32 pd cond (f a) (f b)
  | .icmpUi32 pd cond a b => .icmpUi32 pd cond (f a) (f b)
  | .fcmp pd cond a b => .fcmp pd cond (f a) (f b)
  | .ptov d pa => .ptov (f d) pa
  | .vtop pd a => .vtop pd (f a)
  | .qswz d a imm => .qswz (f d) (f a) imm
  | .qbc d a imm => .qbc (f d) (f a) imm
  | .lshup d a imm => .lshup (f d) (f a) imm
  | .lshdn d a imm => .lshdn (f d) (f a) imm
  | .lshfx d a b => .lshfx (f d) (f a) (f b)
  | .gbal d pa => .gbal (f d) pa
  | .grediAdd d a => .grediAdd (f d) (f a)
  | .grediMin d a => .grediMin (f d) (f a)
  | .grediMax d a => .grediMax (f d) (f a)
  | .gredfAdd d a => .gredfAdd (f d) (f a)
  | .gscanAdd d a => .gscanAdd (f d) (f a)
  | .rdlane d a imm => .rdlane (f d) (f a) imm
  | .wrlane d a imm => .wrlane (f d) (f a) imm
  | .movxr d x imm => .movxr (f d) x imm
  | .movxw a x imm => .movxw (f a) x imm
  | .xrd d x => .xrd (f d) x
  | .ld d b sz vi => .ld (f d) b sz (f vi)
  | .st d b sz vi => .st (f d) b sz (f vi)
  | .lds d a imm => .lds (f d) (f a) imm
  | .sts d a imm => .sts (f d) (f a) imm
  | .sld d b sz n => .sld (f d) b sz n
  | .bset a b => .bset (f a) b
  | .bget d b => .bget (f d) b
  | .bara d bar => .bara (f d) bar
  | .barw a bar => .barw (f a) bar
  | .barexp a bar => .barexp (f a) bar
  | .ctxnew d => .ctxnew (f d)
  | .ctxtry d pd => .ctxtry (f d) pd
  | .ctxset a => .ctxset (f a)
  | .ctxretCommit d a => .ctxretCommit (f d) (f a)
  | .ctxretDrop d a => .ctxretDrop (f d) (f a)
  | .ctxq d a => .ctxq (f d) (f a)
  | .cvt d a code => .cvt (f d) (f a) code
  | .pkh d a fmt => .pkh (f d) (f a) fmt
  | .upkh d a fmt => .upkh (f d) (f a) fmt
  | .qw q a => .qw q (f a)
  | .qr q d => .qr q (f d)
  | .qtry pd q d => .qtry pd q (f d)
  | .sgret a => .sgret (f a)
  | .sgstat d slot code => .sgstat (f d) slot code
  | .boost d imm => .boost (f d) imm
  | .ffmaF32 d a b c => .ffmaF32 (f d) (f a) (f b) (f c)
  | .hfmaF16 d a b c => .hfmaF16 (f d) (f a) (f b) (f c)
  | .hfmaBf16 d a b c => .hfmaBf16 (f d) (f a) (f b) (f c)
  | .imad d a b c => .imad (f d) (f a) (f b) (f c)
  | .sel d a b p => .sel (f d) (f a) (f b) p
  | .bfe d a sgn pos len => .bfe (f d) (f a) sgn pos len
  | .bfi d a b pos len => .bfi (f d) (f a) (f b) pos len
  | .iamin d a b c => .iamin (f d) (f a) (f b) (f c)
  | .logt d a b c tt => .logt (f d) (f a) (f b) (f c) tt
  | .dot4I8 d a b c => .dot4I8 (f d) (f a) (f b) (f c)
  | .spcmp d a c fmt half => .spcmp (f d) (f a) (f c) fmt half
  | .iaddk d a k => .iaddk (f d) (f a) k
  | .movk d k => .movk (f d) k
  | .andk d a k => .andk (f d) (f a) k
  | .ork d a k => .ork (f d) (f a) k
  | .faddk d a k => .faddk (f d) (f a) k
  | .fmulk d a k => .fmulk (f d) (f a) k
  | .ldl d b sz vi off => .ldl (f d) b sz (f vi) off
  | .stl d b sz vi off => .stl (f d) b sz (f vi) off
  | .ldx d b sz vi k off => .ldx (f d) b sz (f vi) k off
  | .atom d b vi op ord ty scope val => .atom (f d) b (f vi) op ord ty scope (f val)
  | .red b vi op ord ty scope val => .red b (f vi) op ord ty scope (f val)
  | .atoms d vi op ord ty scope val => .atoms (f d) (f vi) op ord ty scope (f val)
  | .tcopyLd d a b lvl post n sswz => .tcopyLd (f d) (f a) (f b) lvl post n sswz
  | .tcopySt d a b lvl post n sswz => .tcopySt (f d) (f a) (f b) lvl post n sswz
  | .tcopyiPack d a b lvl post n sswz => .tcopyiPack (f d) (f a) (f b) lvl post n sswz
  | .tcopyiUnpack d a b lvl post n sswz => .tcopyiUnpack (f d) (f a) (f b) lvl post n sswz
  | .tmov d a src dst post => .tmov (f d) (f a) src dst post
  | .mma accLo a b accHi ru zf fmt kb => .mma accLo (f a) (f b) accHi ru zf fmt kb
  | .mmaSp accLo a b accHi ru zf fmt m kb => .mmaSp accLo (f a) (f b) accHi ru zf fmt (f m) kb
  | .accld a b fmt rows acc => .accld (f a) (f b) fmt rows acc
  | .accst a b fmt rows acc => .accst (f a) (f b) fmt rows acc
  | .accrd d cv cg acc => .accrd (f d) cv cg acc
  | .accwr d cv cg acc => .accwr (f d) cv cg acc
  | .sgcall d a slot pd => .sgcall (f d) (f a) slot pd
  | .sgloadLoad d a slot => .sgloadLoad (f d) (f a) slot
  | .sgloadQual d a slot => .sgloadQual (f d) (f a) slot
  | .sgloadRel d slot => .sgloadRel (f d) slot
  | .sgloadClr d slot => .sgloadClr (f d) slot
  | .tdview d a ro => .tdview (f d) (f a) ro
  | .coll d a op ty => .coll (f d) (f a) op ty
  | .bpset d a k => .bpset (f d) (f a) k
  | .wpset d a k => .wpset (f d) (f a) k
  | .stepArm d a => .stepArm (f d) (f a)
  | .stepOff d a => .stepOff (f d) (f a)
  | .dbrd d a => .dbrd (f d) (f a)
  | .dbwr d a b => .dbwr (f d) (f a) (f b)
  | .barrd d a => .barrd (f d) (f a)
  | .barwr d a b => .barwr (f d) (f a) (f b)
  | i => i

/-- A rename map: the run that replaces each aligned run of 8 vector registers. -/
abbrev Rename := List Nat

/-- The identity where an object has no rename maps. -/
def Rename.identity : Rename := List.range 24

/-- The new name of a vector register; names at or beyond .vregs, whose bytes are zero, stay (R395). -/
def Rename.num (m : Rename) (n : Nat) : Nat :=
  let r := m.getD (n / 8) 0
  if r = 0 then n else 8 * r + n % 8

def Rename.reg (m : Rename) : Reg → Reg
  | .v n => .v (Fin.ofNat 192 (m.num n.val))
  | .s n => .s n

/-- A run of registers does not cross two runs that the map does not keep adjacent. -/
def Rename.keeps (m : Rename) (r n : Nat) : Bool :=
  (List.range (n - 1)).all fun k => m.num (r + k + 1) = m.num (r + k) + 1

/-- A map of a kernel with V vector registers: it permutes the runs below V, fixes run 0 and the top two, and is zero
beyond. -/
def Rename.ok (m : Rename) (vregs : Nat) : Bool :=
  let n := vregs / 8
  let fixed := fun k => m.getD k 0 = k
  m.length = 24 && (List.range 24).all (fun k => if k < n then decide (m.getD k 0 < n) else m.getD k 0 = 0) &&
  (List.range n).all (fun k => (List.range n).any fun j => m.getD j 0 = k) &&
  decide (fixed 0) && decide (fixed (n - 1)) && decide (fixed (n - 2))

/-- The register runs of an instruction that the map must keep, those of a surrogate call among them, and of a
SGRET's results; `rets` are the result counts it may return (R323). DEDUCED (assumption log 35). -/
def renameRuns (i : Instr) (argc resc : Nat → Nat) (rets : List Nat) : List (Reg × Nat) :=
  ((usesOf i).regs.map fun u => (u.reg, u.n)) ++
    (match i with
     | .sgcall d a slot _ => [(a, argc slot.toNat), (d, resc slot.toNat)]
     | .sgret a => rets.map fun n => (a, n)
     | _ => [])

/-- An instruction renumbered, none where a run of it breaks; an index window moves with its registers (R135). -/
def Rename.instr (m : Rename) (argc resc : Nat → Nat) (rets : List Nat) (i : Instr) : Option Instr :=
  let ok := (renameRuns i argc resc rets).all fun e => match e.1 with
    | .v n => m.keeps n.val e.2
    | .s _ => true
  match i with
  | .xset x base len =>
    if base.toNat < 192 then
      (if m.keeps base.toNat len.toNat then some (.xset x (BitVec.ofNat 8 (m.num base.toNat)) len) else none)
    else some i
  | i => if ok then some (mapRegs m.reg i) else none

/-- The words of a clause renumbered; words that are no instruction stay as they are. -/
def Rename.words (m : Rename) (argc resc : Nat → Nat) (rets : List Nat) : Nat → List Word → Option (List Word)
  | 0, ws => some ws
  | _, [] => some []
  | n + 1, w :: ws =>
    match decodeWords w ws.head? with
    | .error _ => (m.words argc resc rets n ws).map fun r => w :: r
    | .ok i =>
      match m.instr argc resc rets i with
      | none => none
      | some i => (m.words argc resc rets n (ws.drop (i.words - 1))).map fun r => (encode i).take i.words ++ r

end Sys2Proof.Machine
end

