-- ==== Sys2Proof/Machine/Recode.lean ====
section
/-!
DEFINITION. The clauses of an object's code as the rewriter walks them, their renumbering, and their re-encoding for
this part: stall codes and clause packing from the hazard records, and the places that branches, tables, regions and
external entries name after it (R395, R396).
-/

namespace Sys2Proof.Machine

/-! ### Clauses, instructions and places (R26, R395) -/

/-- A clause of an object: its header's index among the object's code words, the header, and its words. -/
structure ObjClause where
  at_ : Nat
  hdr : Word
  body : List Word
  deriving DecidableEq, Repr

/-- The clauses of some code from a word index on, by walking it clause by clause (R26). The first number bounds the
walk. -/
def clausesOf : Nat → Nat → List Word → List ObjClause
  | 0, _, _ => []
  | _, _, [] => []
  | f + 1, k, w :: ws =>
    if bitsOf w.toNat 28 4 = 0xB && hdrN w ≠ 0 then
      ⟨k, w, ws.take (hdrN w)⟩ :: clausesOf f (k + 1 + hdrN w) (ws.drop (hdrN w))
    else []

/-- The instructions of some words from a word index on: the index of each one's first word, and its words (R43). The
first number bounds the walk. -/
def instrsOf : Nat → Nat → List Word → List (Nat × List Word)
  | 0, _, _ => []
  | _, _, [] => []
  | f + 1, k, w :: ws =>
    if 0xF0 ≤ bitsOf w.toNat 24 8 then (k, w :: ws.take 1) :: instrsOf f (k + 2) (ws.drop 1)
    else (k, [w]) :: instrsOf f (k + 1) ws

/-- A data clause (R31). -/
def ObjClause.isData (c : ObjClause) : Bool := hdrClass c.hdr = 6

/-- The instructions of a clause; a data clause has none (R31). -/
def ObjClause.instrs (c : ObjClause) : List (Nat × List Word) :=
  if c.isData then [] else instrsOf c.body.length (c.at_ + 1) c.body

/-- A place that the relocation table lists: its kind, its word index and its target's. -/
structure Site where
  kind : Nat
  site : Nat
  target : Int
  deriving DecidableEq, Repr

/-- The kind and the width of the offset that a word holds: a branch's or a JMPX's (R109, R110). -/
def offsetOf (w : Word) : Option (Nat × Nat) :=
  match bitsOf w.toNat 24 8 with
  | 1 => some (0, 18)
  | 2 => some (1, 16)
  | _ => none

/-- The place of an instruction whose clause header stands at h. -/
def branchSite (h : Nat) (e : Nat × List Word) : Option Site :=
  e.2.head?.bind fun w => (offsetOf w).map fun o => ⟨o.1, e.1, h + signedOf (bitsOf w.toNat 0 o.2) o.2⟩

/-- What the relocation table must list of a clause: its branches and JMPX, or its table words. -/
def ObjClause.sites (c : ObjClause) : List Site :=
  if c.isData then c.body.mapIdx fun j w => ⟨2, c.at_ + 1 + j, c.at_ + sgn w⟩
  else c.instrs.filterMap (branchSite c.at_)

/-! ### Renumbering (R396) -/

/-- Whether lanes may go on from a clause to the next one in the code: not past an unguarded EXIT, SGRET or branch. -/
def ObjClause.fallsThrough (c : ObjClause) : Bool :=
  c.hdr.getLsbD 20 || match c.instrs.getLast? with
    | none => true
    | some e => match wordStep (e.2.getD 0 0#32, e.2.getD 1 0#32) with
      | .exitG => false
      | .sgret _ => false
      | .bra _ _ pen _ => pen
      | _ => true

/-- The headers that lanes at a clause may come to next. -/
def ObjClause.next (c : ObjClause) : List Int :=
  (c.sites.map Site.target) ++ (if c.fallsThrough then [(c.at_ : Int) + 1 + hdrN c.hdr] else [])

/-- The headers reached from some in at most n clauses. -/
def reaches (cs : List ObjClause) : Nat → List Int → List Int
  | 0, at_ => at_
  | n + 1, at_ => reaches cs n
    (at_ ++ ((cs.filter fun c => at_.contains (c.at_ : Int)).flatMap ObjClause.next).filter fun h => !at_.contains h).eraseDups

/-- The result counts of the regions from whose exact entries lanes come to a clause, for its SGRET (R323).
DEDUCED (assumption log 35). -/
def returnsAt (cs : List ObjClause) (base : Nat) (regions : List Region) (c : ObjClause) : List Nat :=
  (regions.filter fun r => (reaches cs cs.length [(base : Int) + r.entry]).contains (c.at_ : Int)).map Region.resc

/-- The clauses renumbered, data clauses as they stand; none where a register run of one breaks. -/
def renameClauses (m : Rename) (argc resc : Nat → Nat) (rets : ObjClause → List Nat) (cs : List ObjClause) :
    Option (List Word) :=
  (allSome (cs.map fun c =>
    if c.isData then some (c.hdr :: c.body)
    else (m.words argc resc (rets c) c.body.length c.body).map fun b => c.hdr :: b)).map List.flatten

/-! ### Re-encoding (R34, R35, R396) -/

/-- The latency of an instruction's fixed-latency result on this part, 0 where it has none (R35). -/
def fixedLatency (i : Instr) : Nat :=
  match i with
  | .frcp _ _ | .frsq _ _ | .fsqrt _ _ | .fexp2 _ _ | .flog2 _ _ | .fsin _ _ | .fcos _ _ => 8
  | .qswz _ _ _ | .qbc _ _ _ | .lshup _ _ _ | .lshdn _ _ _ | .lshfx _ _ _ | .gbal _ _ | .grediAdd _ _ | .grediMin _ _
  | .grediMax _ _ | .gredfAdd _ _ | .gscanAdd _ _ | .rdlane _ _ _ | .wrlane _ _ _ | .gany _ _ | .gall _ _ => 6
  | .fadd _ _ _ | .fsub _ _ _ | .fmul _ _ _ | .faddk _ _ _ | .fmulk _ _ _ | .fmin _ _ _ | .fmax _ _ _ | .fabs _ _
  | .fneg _ _ | .frnd _ _ _ | .fclass _ _ | .fcmp _ _ _ _ | .haddF16 _ _ _ | .hmulF16 _ _ _ | .hminF16 _ _ _
  | .hmaxF16 _ _ _ | .haddBf16 _ _ _ | .hmulBf16 _ _ _ | .hminBf16 _ _ _ | .hmaxBf16 _ _ _ | .ffmaF32 _ _ _ _
  | .hfmaF16 _ _ _ _ | .hfmaBf16 _ _ _ _ | .imad _ _ _ _ | .iamin _ _ _ _ | .iamini _ _ _ | .dot4I8 _ _ _ _
  | .spcmp _ _ _ _ _ | .cvt _ _ _ | .pkh _ _ _ | .upkh _ _ _ => 4
  | i => if i.cls = some .alu then 2 else 0

/-- The predicate that an instruction writes. -/
def predWritten : Instr → Option Nat
  | .icmpI32 pd _ _ _ | .icmpUi32 pd _ _ _ | .fcmp pd _ _ _ | .plop pd _ _ _ | .vtop pd _ | .gany pd _ | .gall pd _
  | .ctxtry _ pd | .qtry pd _ _ | .sgcall _ _ _ pd => some pd.toNat
  | _ => none

/-- An instruction as the re-encoding passes it: its issue slot, its latency and the predicate it writes. -/
structure Passed where
  slot : Nat
  lat : Nat
  pred : Option Nat
  deriving DecidableEq, Repr

/-- A clause of the re-encoded code: the header it is cut from with its index, whether it begins that clause, its stall
code, its words, how many more its header counts than the code has, and which of its words wait for the results on their
way. -/
structure Piece where
  at_ : Nat
  hdr : Word
  opens : Bool
  stall : Nat
  body : List Word
  short : Nat
  waits : List Nat
  deriving DecidableEq, Repr

/-- The re-encoding under way: the issue slot of the next instruction, the instructions passed and the clauses made, the
latest first, and whether the next clause is the body of a REPEAT. -/
structure Recode where
  slot : Nat
  passed : List Passed
  pieces : List Piece
  body : Bool
  deriving DecidableEq, Repr

/-- The slots to wait until the results of a record's mask have landed: bit j names the (j + 1)-th instruction before. -/
def Recode.need (r : Recode) (mask : Nat) : Nat :=
  maxNat ((r.passed.take 16).mapIdx fun j e => if mask.testBit j then e.slot + e.lat - r.slot else 0)

/-- The slots to wait until the guard predicate of a header has landed (R29). -/
def Recode.guardNeed (r : Recode) (h : Word) : Nat :=
  if h.getLsbD 20 then maxNat ((r.passed.take 16).map fun e => if e.pred = some (hdrPred h) then e.slot + e.lat - r.slot else 0)
  else 0

/-- The stall code that waits at least some slots, at most 8 (R26). -/
def stallCode (n : Nat) : Nat := if n = 0 then 0 else if n ≤ 2 then 1 else if n ≤ 4 then 2 else 3

/-- A further clause begins, after a stall. -/
def Recode.open_ (r : Recode) (c : ObjClause) (opens : Bool) (n : Nat) : Recode :=
  { r with
    slot := r.slot + stallSlots (stallCode n)
    pieces := ⟨c.at_, c.hdr, opens, stallCode n, [], hdrN c.hdr - c.body.length, []⟩ :: r.pieces }

/-- An instruction joins the latest clause, waiting there at least n slots for the results on their way. -/
def Recode.put (r : Recode) (e : Nat × List Word) (n : Nat) : Recode :=
  let i := wordStep (e.2.getD 0 0#32, e.2.getD 1 0#32)
  { r with
    slot := r.slot + n + 1
    passed := ⟨r.slot + n, fixedLatency i, predWritten i⟩ :: r.passed
    pieces := match r.pieces with
      | p :: ps => { p with
          body := p.body ++ e.2
          waits := if n = 0 then p.waits else p.waits ++ [p.body.length] } :: ps
      | [] => [] }

/-- Whether an instruction writes the guard of its clause. -/
def ObjClause.writesGuard (c : ObjClause) (e : Nat × List Word) : Bool :=
  c.hdr.getLsbD 20 && predWritten (wordStep (e.2.getD 0 0#32, e.2.getD 1 0#32)) = some (hdrPred c.hdr)

/-- A clause all of whose words are there. -/
def ObjClause.whole (c : ObjClause) : Bool := decide (hdrN c.hdr ≤ c.body.length)

/-- The instructions of a clause after its first, with the records' masks: before one that reads a result too early the
clause is split, where it may be. It may not in the body of a REPEAT (R112), once a word of it has written its guard, whose
lanes the rest must keep (R29; `wrote` says so), or where words of it are missing; there the instruction waits for the
results on their way. DESIGN CHOICE (assumption log 16). -/
def Recode.rest (split : Bool) (c : ObjClause) (masks : Nat → Nat) : List (Nat × List Word) → Bool → Recode → Recode
  | [], _, r => r
  | e :: es, wrote, r =>
    let n := r.need (masks e.1)
    let r := if n = 0 || !split || r.body || wrote || !c.whole then r.put e n else (r.open_ c false n).put e 0
    Recode.rest split c masks es (wrote || c.writesGuard e) r

/-- Whether a clause ends in a REPEAT, so that the next one is its body (R112). -/
def ObjClause.repeats (c : ObjClause) : Bool :=
  match c.instrs.getLast? with
  | some e => (match wordStep (e.2.getD 0 0#32, e.2.getD 1 0#32) with
    | .repeatN _ => true
    | _ => false)
  | none => false

/-- A clause re-encoded. No record crosses a branch target or the iterations of a REPEAT, so these wait the longest
latency. -/
def Recode.clause (split : Bool) (masks : Nat → Nat) (targets : List Nat) (r : Recode) (c : ObjClause) : Recode :=
  if c.isData then { r with pieces := ⟨c.at_, c.hdr, true, bitsOf c.hdr.toNat 0 2, c.body, 0, []⟩ :: r.pieces }
  else
    let start := fun n => r.open_ c true (if r.body || targets.contains c.at_ then 8 else max (r.guardNeed c.hdr) n)
    match c.instrs with
    | [] => { start 0 with body := false }
    | e :: es =>
      { Recode.rest split c masks es (c.writesGuard e) ((start (r.need (masks e.1))).put e 0) with body := c.repeats }

/-- The clauses of a kernel re-encoded, in order. -/
def recodeClauses (split : Bool) (masks : Nat → Nat) (targets : List Nat) (cs : List ObjClause) : List Piece :=
  (cs.foldl (Recode.clause split masks targets) ⟨0, [], [], false⟩).pieces.reverse

/-- The header of a piece (R26): class and guard as they stood; the thresholds are waited for where the clause begins. -/
def Piece.header (p : Piece) : Word :=
  let w := p.hdr.toNat
  if hdrClass p.hdr = 6 then p.hdr
  else BitVec.ofNat 32 (0xB * 2 ^ 28 + (p.body.length + p.short) * 2 ^ 24 + bitsOf w 15 9 * 2 ^ 15 +
    (if p.opens then bitsOf w 2 13 else 0x1FFF) * 4 + p.stall)

/-- Each piece with the index its header takes, from an index on. -/
def placePieces : Nat → List Piece → List (Nat × Piece)
  | _, [] => []
  | k, p :: ps => (k, p) :: placePieces (k + 1 + p.body.length) ps

/-- Where the clauses of a kernel moved: its first index, its words before and after, and each header's new index. -/
structure Moves where
  base : Nat
  before : Nat
  after : Nat
  tbl : List (Nat × Nat)
  deriving DecidableEq, Repr

/-- The new index of a target; one outside the kernel's code stays outside it. -/
def Moves.of (m : Moves) (t : Int) : Int :=
  match m.tbl.find? fun e => (e.1 : Int) = t with
  | some e => e.2
  | none => if t < m.base + m.before then t else t + (m.after - m.before : Int)

/-- A word with its offset for the new places, its header having moved from h to h'; none where it does not fit. -/
def relocWord (m : Moves) (h h' : Nat) (w : Word) : Option Word :=
  match offsetOf w with
  | none => some w
  | some o =>
    let d := m.of (h + signedOf (bitsOf w.toNat 0 o.2) o.2) - h'
    if -(2 ^ (o.2 - 1) : Int) ≤ d && d < (2 ^ (o.2 - 1) : Int) then
      some (BitVec.ofNat 32 (w.toNat / 2 ^ o.2 * 2 ^ o.2) ||| BitVec.ofNat 32 (d % 2 ^ o.2).toNat)
    else none

/-- The words of a piece for the new places: table words, or its instructions' (R396). -/
def Piece.reloc (m : Moves) (h' : Nat) (p : Piece) : Option (List Word) :=
  if hdrClass p.hdr = 6 then some (p.body.map fun w => BitVec.ofInt 32 (m.of (p.at_ + sgn w) - h'))
  else (allSome ((instrsOf p.body.length 0 p.body).map fun e =>
    match e.2 with
    | [] => some []
    | w :: ws => (relocWord m p.at_ h' w).map fun w => w :: ws)).map List.flatten

/-- The re-encoded code of a kernel: where its clauses moved, its words, and the offsets of those that wait for the
results on their way. -/
structure Recoded where
  moves : Moves
  code : List Word
  waits : List Nat
  deriving DecidableEq, Repr

/-- The words of the code from index base on whose pieces make them wait. -/
def waitOffsets (base : Nat) (qs : List (Nat × Piece)) : List Nat :=
  qs.flatMap fun q => q.2.waits.map fun k => q.1 + 1 + k - base

/-- The re-encoded code of a kernel whose code begins at index base, its clauses split where that is needed; none where an
offset does not fit then. What follows the last clause stays behind it. -/
def recodeSplit (masks : Nat → Nat) (targets : List Nat) (base : Nat) (code : List Word) : Option Recoded :=
  let cs := clausesOf code.length base code
  let tail := code.drop (sumNat (cs.map fun c => 1 + c.body.length))
  let qs := placePieces base (recodeClauses true masks targets cs)
  let m : Moves := ⟨base, code.length, sumNat (qs.map fun q => 1 + q.2.body.length) + tail.length,
    (qs.filter fun q => q.2.opens).map fun q => (q.2.at_, q.1)⟩
  (allSome (qs.map fun q => (q.2.reloc m q.1).map fun b => q.2.header :: b)).map fun ws =>
    ⟨m, ws.flatten ++ tail, waitOffsets base qs⟩

/-- The same with every clause where it stood, so that every offset stands as it was. -/
def recodeInPlace (masks : Nat → Nat) (targets : List Nat) (base : Nat) (code : List Word) : Recoded :=
  let cs := clausesOf code.length base code
  let tail := code.drop (sumNat (cs.map fun c => 1 + c.body.length))
  let qs := placePieces base (recodeClauses false masks targets cs)
  ⟨⟨base, code.length, code.length, []⟩, (qs.flatMap fun q => q.2.header :: q.2.body) ++ tail, waitOffsets base qs⟩

/-- The re-encoded code of a kernel (R396). Where a moved offset no longer fits, no clause is split.
DESIGN CHOICE (assumption log 16). -/
def recode (masks : Nat → Nat) (targets : List Nat) (base : Nat) (code : List Word) : Recoded :=
  (recodeSplit masks targets base code).getD (recodeInPlace masks targets base code)

end Sys2Proof.Machine
end

