-- ==== Sys2Proof/Machine/Objects.lean ====
section
/-!
DEFINITION. Reading objects of a job, and Chaistok objects (R395, R396).
-/

namespace Sys2Proof.Machine

/-! ### Bytes of an object -/

/-- An uncorrectable word lies in a range of HBM. -/
def State.hbmBad (s : State) (a n : Nat) : Bool :=
  s.bad.any fun b => match b with
    | .hbm d => decide (a < 8 * d + 8) && decide (8 * d < a + n)
    | _ => false

/-- Bytes of an object from an offset, extent by extent; none where one is not readable. The first number bounds
the extents. -/
def State.objSeg (s : State) (job obj : Nat) : Nat → Nat → Nat → Option (List Byte)
  | 0, _, n => if n = 0 then some [] else none
  | f + 1, off, n =>
    if n = 0 then some []
    else
      let k := min n (2 ^ 21 - off % 2 ^ 21)
      match s.walk job obj (off / 2 ^ 21) with
      | none => none
      | some b =>
        let a := b + off % 2 ^ 21
        if s.hbmBad a k then none else (s.objSeg job obj f (off + k) (n - k)).map fun r => s.hbmRead a k ++ r

def State.objBytes (s : State) (job obj off n : Nat) : Option (List Byte) := s.objSeg job obj (n / 2 ^ 21 + 2) off n

def State.objWords (s : State) (job obj off n : Nat) : Option (List Word) := (s.objBytes job obj off (4 * n)).map bytesToWords

/-- A list of words cut into entries. -/
def chunks (k : Nat) : Nat → List Word → List (List Word)
  | 0, _ => []
  | n + 1, ws => ws.take k :: chunks k n (ws.drop k)

/-- A table of entries of k words in an object. -/
def State.objTable (s : State) (job obj off k n : Nat) : Option (List (List Word)) :=
  (s.objWords job obj off (k * n)).map (chunks k n)

/-! ### The header and its tables (R395) -/

/-- A section begins on a 64-byte boundary and lies in the object. -/
def sectionOk (off bytes size : Nat) : Bool := off % 64 = 0 && decide (off + bytes ≤ size)

/-- A field of a word above some bits is zero. -/
def topZero (ws : List Word) (k bits : Nat) : Bool := decide (wnat ws k < 2 ^ bits)

/-- The header keeps its rules. -/
def chaiHeaderOk (h : List Word) : Bool :=
  let w := wnat h
  let size := w 12
  bitsOf (w 0) 16 16 = 1 && bitsOf (w 0) 9 7 = 0 && w 1 = 0x314B4843 && topZero h 2 16 &&
  decide (1 ≤ w 3) && decide (w 3 ≤ 256) && decide (2 ≤ w 6) && decide (w 6 ≤ 262143) &&
  w 13 = 0 && w 14 = 0 && w 15 = 0 && decide (64 ≤ size) &&
  sectionOk (w 4) (128 * w 3) size && sectionOk (w 5) (4 * w 6) size && sectionOk (w 7) (8 * w 8) size &&
  (w 9 = 0 || sectionOk (w 9) (8 * w 10) size) && (w 11 = 0 || sectionOk (w 11) (24 * w 3) size)

/-- A kernel's name is ASCII, padded with zeros (R395). -/
def nameOk (bs : List Byte) : Bool :=
  bs.all (fun b => decide (b.toNat < 128)) && (bs.dropWhile fun b => b ≠ 0#8).all fun b => b = 0#8

/-- The directive values of a kernel table entry keep the limits of R60, and its code lies in the object's. -/
def kernelEntryOk (h e : List Word) : Bool :=
  let w := wnat e
  let f := fun k lo n => bitsOf (w k) lo n
  let wid := f 2 0 8
  topZero e 0 18 && topZero e 1 18 && decide (1 ≤ w 1) && decide (w 0 + w 1 ≤ wnat h 6) &&
  (wid = 8 || wid = 16 || wid = 32 || wid = 64) &&
  f 2 16 8 % 8 = 0 && decide (8 ≤ f 2 16 8) && decide (f 2 16 8 ≤ 192) && decide (8 ≤ f 2 24 8) && decide (f 2 24 8 ≤ 64) &&
  decide ((f 2 8 4 + 1) * wid ≤ 1024) &&
  w 3 % 64 = 0 && decide (w 3 ≤ 393216) && w 4 % 64 = 0 && decide (w 4 ≤ 4194304) &&
  f 5 31 1 = 0 && decide (f 5 28 3 ≤ 4) && decide (f 5 24 4 ≤ 8) && f 5 21 3 = 0 && decide (f 5 16 5 ≤ 16) &&
  f 5 10 6 = 0 && decide (f 5 0 10 ≤ 512) && f 6 23 9 = 0 && decide (f 6 16 7 ≤ 64) &&
  (f 6 16 7 = 0 || sectionOk (w 7) (8 * f 6 16 7) (wnat h 12)) &&
  nameOk (wordsToBytes ((e.drop 8).take 8)) && (e.drop 16).all fun x => x = 0#32

/-- A region table entry keeps its rules (R395, R60). -/
def regionEntryOk (k e : List Word) : Bool :=
  let w := wnat e 0
  let regs := bitsOf w 16 8
  bitsOf w 24 8 = 0 && bitsOf w 15 1 = 0 && bitsOf w 11 1 = 0 && bitsOf w 6 2 = 0 && topZero e 1 18 &&
  decide (wnat e 1 < wnat k 1) && regs % 8 = 0 && decide (8 ≤ regs) && decide (regs ≤ 192) &&
  decide (bitsOf w 8 3 + 1 ≤ regs) && decide (bitsOf w 12 3 + 1 ≤ regs)

def Region.ofWords (e : List Word) : Region :=
  let w := wnat e 0
  ⟨bitsOf w 0 6, bitsOf w 8 3 + 1, bitsOf w 12 3 + 1, bitsOf w 16 8, wnat e 1, wnat e 1⟩

/-- A relocation entry keeps its rules. -/
def relocOk (h e : List Word) : Bool :=
  let w := wnat e 0
  decide (bitsOf w 28 4 ≤ 4) && bitsOf w 18 10 = 0 && topZero e 1 18 && decide (bitsOf w 0 18 < wnat h 6) &&
    decide (wnat e 1 < wnat h 6) && (bitsOf w 28 4 ≠ 4 || bitsOf w 0 18 = wnat e 1)

/-- The fields of a hazard record keep their rules; hazardsOk says what it names. -/
def hazardOk (h e : List Word) : Bool := topZero e 0 18 && topZero e 1 16 && decide (wnat e 0 < wnat h 6)

/-! ### A kernel -/

/-- A Chaistok object's pieces, read and checked. -/
structure Chai where
  header : List Word
  kernels : List (List Word)
  relocs : List (List Word)
  hazards : List (List Word)
  renames : List (List Byte)
  deriving DecidableEq, Repr

/-- The 24 bytes of each rename map. -/
def State.renameMaps (s : State) (job obj off : Nat) (h : List Word) : Option (List (List Byte)) :=
  if wnat h 11 = 0 then some []
  else (s.objBytes job obj (off + wnat h 11) (24 * wnat h 3)).map fun bs =>
    (List.range (wnat h 3)).map fun k => (bs.drop (24 * k)).take 24

/-- A Chaistok object at an object's offset; none where it is malformed or cannot be read (R395). -/
def State.chai (s : State) (job obj off : Nat) : Option Chai :=
  match s.objWords job obj off 16 with
  | none => none
  | some h =>
    if !chaiHeaderOk h then none
    else match s.objTable job obj (off + wnat h 4) 32 (wnat h 3), s.objTable job obj (off + wnat h 7) 2 (wnat h 8),
        s.objTable job obj (off + wnat h 9) 2 (if wnat h 9 = 0 then 0 else wnat h 10), s.renameMaps job obj off h with
      | some ks, some rs, some hz, some rn =>
        if ks.all (kernelEntryOk h) && rs.all (relocOk h) && hz.all (hazardOk h) then some ⟨h, ks, rs, hz, rn⟩ else none
      | _, _, _, _ => none

/-- The rename map of a kernel. -/
def Chai.rename (c : Chai) (k : Nat) : Rename :=
  match c.renames[k]? with
  | some bs => bs.map BitVec.toNat
  | none => Rename.identity

/-- The regions of a kernel table entry, none where one breaks its rules. -/
def State.regionsOf (s : State) (job obj off : Nat) (e : List Word) : Option (List Region) :=
  match s.objTable job obj (off + wnat e 7) 2 (bitsOf (wnat e 6) 16 7) with
  | none => none
  | some rs => if rs.all (regionEntryOk e) then some (rs.map Region.ofWords) else none

/-- A kernel of an object as it stands there: its table entry, its regions, its clauses by word index of the object's
code, and its code renumbered. -/
structure KernelPart where
  entry : List Word
  regions : List Region
  clauses : List ObjClause
  code : List Word
  deriving DecidableEq, Repr

/-- Kernel k of an object; none where it breaks a rule that concerns it alone: its regions, its rename map, its first
word and its region entries, which are clause headers (R395, R396). -/
def State.kernelPart (s : State) (job obj off : Nat) (c : Chai) (k : Nat) : Option KernelPart :=
  match c.kernels[k]? with
  | none => none
  | some e =>
    match s.regionsOf job obj off e, s.objWords job obj (off + wnat c.header 5 + 4 * wnat e 0) (wnat e 1) with
    | some rs, some code =>
      let m := c.rename k
      let argc := fun slot => ((rs.find? fun r => r.slot = slot).map Region.argc).getD 1
      let resc := fun slot => ((rs.find? fun r => r.slot = slot).map Region.resc).getD 1
      let cs := clausesOf code.length (wnat e 0) code
      if (c.renames.isEmpty || m.ok (bitsOf (wnat e 2) 16 8)) && !cs.isEmpty &&
          rs.all fun r => cs.any fun x => x.at_ = wnat e 0 + r.entry then
        (renameClauses m argc resc (returnsAt cs (wnat e 0) rs) cs).map fun ws => ⟨e, rs, cs, ws ++ code.drop ws.length⟩
      else none
    | _, _ => none

/-- The relocation table lists every branch, JMPX, table word and region entry, and nothing else as such; its targets
are clause headers, and external entries no data clauses (R395). -/
def relocsOk (relocs : List (List Word)) (ks : List KernelPart) : Bool :=
  let cs := ks.flatMap KernelPart.clauses
  let rs := relocs.map fun r => (⟨bitsOf (wnat r 0) 28 4, bitsOf (wnat r 0) 0 18, wnat r 1⟩ : Site)
  let sites := cs.flatMap ObjClause.sites
  let exact := ks.flatMap fun k => k.regions.map fun r => (wnat k.entry 0 : Int) + r.entry
  sites.all (fun x => rs.contains x) && exact.all (fun t => rs.any fun x => x.kind = 3 && x.target = t) &&
  rs.all fun x => (cs.any fun y => (y.at_ : Int) = x.target && (x.kind ≠ 4 || !y.isData)) &&
    (match x.kind with
     | 3 => exact.contains x.target
     | 4 => true
     | _ => sites.contains x)

/-- The hazard section's records name instructions' first words (R395). -/
def hazardsOk (hazards : List (List Word)) (ks : List KernelPart) : Bool :=
  let firsts := (ks.flatMap KernelPart.clauses).flatMap fun c => c.instrs.map Prod.fst
  hazards.all fun e => firsts.contains (wnat e 0)

/-- An object of this part's stepping runs native, unless its flag says otherwise (R34). -/
def Chai.native (c : Chai) : Bool :=
  bitsOf (wnat c.header 0) 0 8 = Config.stepping && !(wnat c.header 0).testBit 8

/-- An object that the rewriter re-encodes: of another stepping, with a hazard section, its flag clear (R34, R396). -/
def Chai.foreign (c : Chai) : Bool :=
  bitsOf (wnat c.header 0) 0 8 ≠ Config.stepping && !(wnat c.header 0).testBit 8 && wnat c.header 9 ≠ 0

/-- The dependence mask of an instruction, 0 where it has no record (R395). -/
def Chai.mask (c : Chai) (k : Nat) : Nat := ((c.hazards.find? fun e => wnat e 0 = k).map fun e => wnat e 1).getD 0

/-- The headers that branches, JMPX and table words name (R395). -/
def Chai.targets (c : Chai) : List Nat := (c.relocs.filter fun r => bitsOf (wnat r 0) 28 4 ≤ 2).map fun r => wnat r 1

/-- The code of a part as the rewriter re-encodes it, none where it does not (R396). -/
def KernelPart.recoded (p : KernelPart) (c : Chai) : Option Recoded :=
  if c.foreign then some (recode c.mask c.targets (wnat p.entry 0) p.code) else none

/-- The kernel that a part is, in an object that keeps every rule: relocated where it is re-encoded, and then native, like an
object of this part's stepping (R34, R395, R396). -/
def KernelPart.kernel (p : KernelPart) (c : Chai) : Kernel :=
  let e := p.entry
  let f := fun k lo n => bitsOf (wnat e k) lo n
  let base := wnat e 0
  let again := p.recoded c
  let code := (again.map Recoded.code).getD p.code
  let move := fun k => match again with
    | some r => (r.moves.of ((base + k : Nat) : Int)).toNat - base
    | none => k
  let ext := c.relocs.filter fun r => bitsOf (wnat r 0) 28 4 = 4 && decide (base ≤ wnat r 1) &&
    decide (wnat r 1 < base + wnat e 1)
  { name := wordsToBytes ((e.drop 8).take 8), version := bitsOf (wnat c.header 2) 0 16
    native := c.native || c.foreign
    width := f 2 0 8, groups := f 2 8 4 + 1, gang := f 2 12 4 + 1, vregs := f 2 16 8, sregs := f 2 24 8
    scratch := wnat e 3, cscratch := wnat e 4, acc := f 5 0 10, blockBars := f 5 16 5, gangBars := f 5 24 4
    gridBars := f 5 28 3, ctxbudget := f 6 0 16, regions := p.regions.map fun r => { r with entry := move r.entry }
    code := code, headers := (clausesOf code.length 0 code).map ObjClause.at_
    external := ext.map fun r => (wnat r 1 - base, move (wnat r 1 - base))
    waits := (again.map Recoded.waits).getD [] }

/-- The kernel of an index in a Chaistok object as the rewriter leaves it; none where the object is malformed or
lacks it (R395, R396). -/
def State.kernelOf (s : State) (job obj off k : Nat) : Option Kernel :=
  match s.chai job obj off with
  | none => none
  | some c =>
    let ps := (List.range c.kernels.length).filterMap (s.kernelPart job obj off c)
    if ps.length = c.kernels.length && relocsOk c.relocs ps && hazardsOk c.hazards ps then (ps[k]?).map fun p => p.kernel c else none

end Sys2Proof.Machine
end

