-- ==== Sys2Proof/Machine/Region.lean ====
section
/-!
DEFINITION. Surrogate region images (R307 to R309), their evaluation (R310 to R313) and the error of a sample
(R323), on fp32 codes.
-/

namespace Sys2Proof.Machine

/-! ### The image (R307, R308) -/

/-- A 32-bit word and a half of an image by byte offset; the body starts at 64. -/
def imgAt (img : List Byte) (o : Nat) : Nat := bytesToNat ((img.drop o).take 4)
def imgHalf (img : List Byte) (o : Nat) : Nat := bytesToNat ((img.drop o).take 2)
def imgW (img : List Byte) (k : Nat) : Nat := imgAt img (4 * k)
def imgB (img : List Byte) (o : Nat) : Nat := imgAt img (64 + o)

def imgNetwork (img : List Byte) : Bool := bitsOf (imgW img 0) 28 4 = 1
def imgPred (img : List Byte) : Nat := bitsOf (imgW img 0) 24 4
def imgArgc (img : List Byte) : Nat := bitsOf (imgW img 0) 21 3 + 1
def imgResc (img : List Byte) : Nat := bitsOf (imgW img 0) 18 3 + 1
def imgRelative (img : List Byte) : Bool := (imgW img 0).testBit 17
def imgId (img : List Byte) : Word := loWord (imgW img 1)
def imgEntry (img : List Byte) : Nat := bitsOf (imgW img 2) 0 18
def imgRegs (img : List Byte) : Nat := bitsOf (imgW img 3) 16 8
def imgVersion (img : List Byte) : Nat := bitsOf (imgW img 3) 0 16
def imgLimit (img : List Byte) : Nat := imgW img 6
def imgThreshold (img : List Byte) : Nat := imgW img 7
def imgBody (img : List Byte) : Nat := imgW img 8
def imgDim (img : List Byte) (d : Nat) : Nat := bitsOf (imgW img 9) (8 * d) 8 + 1
def imgLayers (img : List Byte) : Nat := bitsOf (imgW img 9) 0 2 + 1
def imgPbase (img : List Byte) : Nat := imgW img 11
def imgHidden (img : List Byte) : Nat := bitsOf (imgW img 12) 0 4 + 1

/-- The width field of layer l, and the width itself: the last layer's is resc. -/
def imgField (img : List Byte) (l : Nat) : Nat := bitsOf (imgW img 9) (24 - 8 * l) 6 + 1
def imgWidth (img : List Byte) (l : Nat) : Nat := if l + 1 < imgLayers img then imgField img l else imgResc img
def imgIn (img : List Byte) (l : Nat) : Nat := if l = 0 then imgArgc img else imgWidth img (l - 1)

/-- Bytes rounded up to whole words. -/
def up4 (n : Nat) : Nat := (n + 3) / 4 * 4

/-- The bytes of layer l, and where it starts in the body. -/
def layerBytes (img : List Byte) (l : Nat) : Nat := up4 (8 + 2 * imgWidth img l * (1 + imgIn img l))
def layerAt (img : List Byte) (l : Nat) : Nat := sumNat ((List.range l).map (layerBytes img))

/-- The entries of a table. -/
def tableSize (img : List Byte) : Nat := ((List.range (imgArgc img)).map (imgDim img)).foldl (· * ·) 1

/-- The bytes of the predictor's parameters. -/
def predBytes (img : List Byte) : Nat :=
  match imgPred img with
  | 0 => 4 * (imgArgc img + 1)
  | 1 => up4 (2 * imgHidden img * (1 + imgArgc img)) + 4 + 4 * imgHidden img
  | _ => 0

/-- An fp32 code is a NaN or below +0. -/
def belowZero (x : Nat) : Bool := (fp32.unpack x).isNan || (fp32.unpack x).lt (.fin false 0 0)

/-- An fp32 code is finite. -/
def finite32 (x : Nat) : Bool :=
  match fp32.unpack x with
  | .fin _ _ _ => true
  | .inf _ | .nan _ => false

/-- A quality register that R307 or R309 forbids: bound and word 5. -/
def qualityBad (bound w5 : Nat) : Bool := belowZero bound || bitsOf w5 8 24 ≠ 0 || bitsOf w5 0 2 ≠ 0

/-- A malformed image (R309); its bytes are the header and the body. What R309 does not list is the model's choice: map words
of unused dimensions and layer padding may hold anything, and a pbase beyond the body is malformed under the curvature
predictor too, which has no parameters. DESIGN CHOICE (assumption log 35). -/
def imageBad (img : List Byte) : Bool :=
  let w := imgW img
  let argc := imgArgc img
  let resc := imgResc img
  let net := imgNetwork img
  let pr := imgPred img
  1 < bitsOf (w 0) 28 4 || (if net then 1 else 2) < pr || bitsOf (w 0) 0 17 ≠ 0 || bitsOf (w 2) 18 14 ≠ 0 ||
  bitsOf (w 3) 24 8 ≠ 0 || w 14 ≠ 0 || w 15 ≠ 0 || w 1 = 0 || qualityBad (w 4) (w 5) || belowZero (w 6) ||
  imgRegs img % 8 ≠ 0 || imgRegs img < max 8 (max argc resc) || 192 < imgRegs img ||
  w 8 % 64 ≠ 0 || 131008 < w 8 || w 11 % 4 ≠ 0 ||
  (if pr = 1 then bitsOf (w 12) 4 28 ≠ 0 else w 12 ≠ 0) ||
  (if pr = 2 then !finite32 (w 13) || belowZero (w 13) else w 13 ≠ 0) ||
  (if net then
    bitsOf (w 9) 30 2 ≠ 0 || bitsOf (w 9) 22 2 ≠ 0 || bitsOf (w 9) 14 2 ≠ 0 || bitsOf (w 9) 2 6 ≠ 0 ||
    (List.range 3).any (fun l => decide (imgLayers img ≤ l + 1) && imgField img l ≠ 1) ||
    bitsOf (w 10) 8 24 ≠ 0 || (List.range 4).any (fun l => bitsOf (w 10) (2 * l) 2 = 3) ||
    decide (w 8 < layerAt img (imgLayers img))
   else
    decide (4 < argc) || w 10 ≠ 0 ||
    (List.range 4).any (fun d => if d < argc then decide (imgDim img d < if pr = 2 then 3 else 2) else imgDim img d ≠ 1) ||
    decide (w 8 < 4 * (8 + resc * tableSize img))) ||
  decide (w 8 < imgPbase img + predBytes img)

/-! ### Evaluation (R310 to R313) -/

/-- FmaEven and RoundEven of a sum and of a difference (R310). -/
def fmaEven (a b c : Nat) : Nat := (fp32.fma .even a b c).1
def subEven (a b : Nat) : Nat := (fp32.sub .even a b).1

/-- Widen (R310). -/
def widen (h : Nat) : Nat := (fp16.convert fp32 .even h).1

/-- |x| of an fp32 code. -/
def absCode (x : Nat) : Nat := x % 2 ^ 31

/-- The largest of some values; with a NaN among them and no NaN too it is free (assumption log 10). -/
def largest (l : List Nat) : Nat :=
  let nan := fun x => (fp32.unpack x).isNan
  if l.any nan && !l.all nan then Config.largestWithNan l
  else if l.all nan then l.headD 0
  else l.foldl (fun a b => (fp32.maxCode a b).1) 0

/-- The interval and the fraction of one input (R310), none for REJECT. DEDUCED (assumption log 34). -/
def tableCoord (img : List Byte) (x : Nat) (d : Nat) : Option (Nat × Nat) :=
  let n := imgDim img d
  let top := (fp32.ofInt .even ((n : Int) - 1)).1
  let u := fmaEven x (imgB img (8 * d)) (imgB img (8 * d + 4))
  if (fp32.unpack u).isNan then none
  else
    let u := if (fp32.unpack u).lt (.fin false 0 0) then 0
      else if (fp32.unpack top).lt (fp32.unpack u) then top else u
    let i := min (fp32.toInt .down 0 ((n : Int) - 1) u).1.toNat (n - 2)
    some (i, subEven u (fp32.ofInt .even i).1)

/-- T(i, res) (R308, R310). -/
def tableEntry (img : List Byte) (ix : List Nat) (res : Nat) : Nat :=
  let lin := (List.range (imgArgc img)).foldr (fun d acc => ix.getD d 0 + imgDim img d * acc) 0
  imgB img (4 * (8 + res + imgResc img * lin))

/-- One dimension of the interpolation: corner pairs that differ in bit d. -/
def interpDim (t d : Nat) (v : List Nat) : List Nat :=
  v.mapIdx fun k x => if k.testBit d then x else fmaEven t (subEven (v.getD (k + 2 ^ d) 0) x) x

/-- TableEval (R310): the results and the intervals, none for REJECT. -/
def tableEval (img : List Byte) (x : List Nat) : Option (List Nat × List Nat) :=
  let n := imgArgc img
  let cs := (List.range n).map fun d => tableCoord img (x.getD d 0) d
  if cs.any Option.isNone then none
  else
    let ix := cs.map fun c => (c.getD (0, 0)).1
    let ts := cs.map fun c => (c.getD (0, 0)).2
    let y := (List.range (imgResc img)).map fun res =>
      let v := (List.range (2 ^ n)).map fun k =>
        tableEntry img (ix.mapIdx fun d i => if k.testBit d then i + 1 else i) res
      ((List.range n).foldl (fun v d => interpDim (ts.getD d 0) d v) v).getD 0 0
    some (y, ix)

/-- Act (R311). -/
def activate (act lo hi acc : Nat) : Nat :=
  let v := fp32.unpack acc
  match act with
  | 1 => if v.isNan then acc else if 2 ^ 31 ≤ acc then 0 else acc
  | 2 => if v.lt (fp32.unpack lo) then lo else if (fp32.unpack hi).lt v then hi else acc
  | _ => acc

/-- A sum of weights times inputs from a start value, in increasing input (R311, R312). -/
def dotFrom (start : Nat) (w : Nat → Nat) (a : List Nat) : Nat :=
  (a.zipIdx).foldl (fun acc e => fmaEven (w e.2) e.1 acc) start

/-- One layer (R311). -/
def layerEval (img : List Byte) (l : Nat) (a : List Nat) : List Nat :=
  let at_ := 64 + layerAt img l
  let w := imgWidth img l
  (List.range w).map fun o =>
    let row := at_ + 8 + 2 * w + 2 * (o * imgIn img l)
    activate (bitsOf (imgW img 10) (2 * l) 2) (imgAt img at_) (imgAt img (at_ + 4))
      (dotFrom (widen (imgHalf img (at_ + 8 + 2 * o))) (fun k => widen (imgHalf img (row + 2 * k))) a)

/-- A network's results (R311). -/
def netEval (img : List Byte) (x : List Nat) : List Nat :=
  (List.range (imgLayers img)).foldl (fun a l => layerEval img l a) x

/-- The predicted error (R312), with a table's intervals. -/
def predict (img : List Byte) (x ix : List Nat) : Nat :=
  let at_ := 64 + imgPbase img
  let n := imgArgc img
  match imgPred img with
  | 0 => absCode (dotFrom (imgAt img at_) (fun k => imgAt img (at_ + 4 * (k + 1))) x)
  | 1 =>
    let h := imgHidden img
    let vo := at_ + up4 (2 * h * (1 + n))
    let hs := (List.range h).map fun j =>
      activate 1 0 0 (dotFrom (widen (imgHalf img (at_ + 2 * j)))
        (fun k => widen (imgHalf img (at_ + 2 * h + 2 * (j * n + k)))) x)
    absCode (dotFrom (imgAt img vo) (fun j => imgAt img (vo + 4 + 4 * j)) hs)
  | _ =>
    let qs := (List.range n).flatMap fun d =>
      let j := min (max (ix.getD d 0) 1) (imgDim img d - 2)
      (List.range (imgResc img)).map fun res =>
        let t := fun k => tableEntry img (ix.set d k) res
        absCode (fmaEven 0xC0000000 (t j) (addEven (t (j - 1)) (t (j + 1))).1)
    (fp32.mul .even (imgW img 13) (largest qs)).1

/-- A lane's results where R313 accepts it, timing errors apart. -/
def evalLane (img : List Byte) (bound : Nat) (x : List Nat) : Option (List Nat) :=
  let r := if imgNetwork img then some (netEval img x, []) else tableEval img x
  match r with
  | none => none
  | some (y, ix) =>
    let p := fp32.unpack (predict img x ix)
    if y.all finite32 && !p.isNan && !(fp32.unpack bound).lt p then some y else none

/-! ### The error of a sample (R323) -/

/-- A quotient of dyadic magnitudes rounded once to fp32, the divisor nonzero. -/
def divEven (a b : Nat × Int) : Nat :=
  let k := bitLen b.1 + 32
  let q := a.1 * 2 ^ k / b.1
  (fp32.round .even false (2 * q + if q * b.1 = a.1 * 2 ^ k then 0 else 1) (a.2 - b.2 - k - 1)).1

/-- ErrAbs (R323). -/
def errAbs (relative : Bool) (x y : Nat) : Nat :=
  if !relative then absCode (subEven x y)
  else match fp32.unpack x, fp32.unpack y with
    | .fin nx mx ex, .fin ny my ey =>
      let d := dyAdd (signedMant nx mx, ex) (-(signedMant ny my), ey)
      divEven (d.1.natAbs, d.2) (if absCode x < 2 ^ 23 then (1, -126) else (mx, ex))
    | _, _ => fp32.nan

end Sys2Proof.Machine
end

