-- ==== Sys2Proof/Machine/Surrogate.lean ====
section
/-!
DEFINITION. Surrogate slots, SGCALL, the recovery queue and its groups, SGRET, SGSTAT and SGLOAD (R304 to R333).
-/

namespace Sys2Proof.Machine

/-! ### Slots (R304 to R306, R325) -/

def State.slot? (s : State) (core slot : Nat) : Option Slot :=
  (Tab.get? s.cores core).bind fun c => Tab.get? c.slots slot

def State.updSlot (s : State) (core slot : Nat) (f : Slot → Slot) : State :=
  s.updCore core fun c => { c with slots := Tab.upd c.slots slot f }

/-- The 64-byte units a slot's contents occupy (R304). -/
def Slot.units (x : Slot) : Nat := 1 + imgBody x.image / 64

/-- The units of the slots of a core but one. -/
def State.unitsBeside (s : State) (core slot : Nat) : Nat :=
  match Tab.get? s.cores core with
  | some c => sumNat ((c.slots.filter fun e => e.1 ≠ slot).map fun e => e.2.units)
  | none => 0

/-- An integer counter's increment, saturating (R325). -/
def satAdd (a n : Nat) : Nat := min 0xFFFFFFFF (a + n)

/-- A slot's counters and its sample count become zero (R325, R329). -/
def Slot.cleared (x : Slot) : Slot :=
  { x with
    calls := 0, accepted := 0, fallbacks := 0, timing := 0, samples := 0, errSum := 0#32, errMax := 0#32
    violations := 0, sampleCount := 0 }

/-- The contents a load puts into a slot (R329). -/
def Slot.loaded (owner : Nat) (image : List Byte) : Slot :=
  { owner := owner, disabled := false, image := image, bound := loWord (imgW image 4), quality := loWord (imgW image 5)
    calls := 0, accepted := 0, fallbacks := 0, timing := 0, samples := 0, errSum := 0#32, errMax := 0#32
    violations := 0, sampleCount := 0 }

/-! ### SGCALL (R316, R317) -/

/-- The entries of a core's recovery queue that are neither used nor reserved by a call still to be evaluated. -/
def State.freeEntries (s : State) (core : Nat) : Nat :=
  Config.recoveryEntries - ((Tab.get? s.cores core).map fun c => c.recq.length).getD 0 -
    sumNat ((s.ops.calls.filter fun e => e.2.core = core && !e.2.evaluated).map fun e => (maskList e.2.lanes).length)

/-- SGCALL (R317). -/
def sgcallEff (d a : Reg) (slot : BitVec 6) (pd : BitVec 4) (s : State) (gid : Nat) (g : Group) (_cl : Clause) : Eff :=
  if g.active == 0#64 then doneG s gid g .seq
  else match s.region? g slot.toNat with
    | none => .trap (.plain 0x03)
    | some r =>
      let lanes := maskList g.active
      if g.cnt cSG = 15 || decide (s.freeEntries g.core < lanes.length) ||
          (g.pregs d r.resc ++ g.pregs a r.argc).any g.isPend then .wait
      else
        let (op, s) := s.fresh
        let c : Call :=
          { group := gid, core := g.core, job := s.jobOf g, launch := g.launch, slot := slot.toNat, pd := pd.toNat
            d := g.phys d 0, resc := r.resc, argc := r.argc, lanes := g.active, exec := g.exec
            args := lanes.map fun i => (i, (List.range r.argc).map fun k => g.src a k i)
            tag := g.lanes.ctag, rmode := g.lanes.rmode
            version := ((s.launch? g).map fun l => l.kernel.version).getD 0, evaluated := false, left := 0 }
        doneG (s.setOps { s.ops with calls := Tab.set s.ops.calls op c }) gid
          ((g.count cSG op).setPend op (g.pregs d r.resc ++ [.p pd.toNat])) .seq

def execSgcall (d a : Reg) (slot : BitVec 6) (pd : BitVec 4) (s : State) : Res :=
  issue (.sgcall d a slot pd) (sgcallEff d a slot pd) s

/-! ### Evaluation (R313 to R318) -/

/-- What becomes of a lane of a call (R313, R315). -/
inductive SgLane where
  | accept (y : List Nat)
  | fallback
  | timing
  deriving DecidableEq, Repr

/-- A slot is ready for a call (R306); `loading` says that a load into it is under way. -/
def Slot.readyFor (x : Slot) (c : Call) (loading : Bool) : Bool :=
  !x.disabled && x.owner = c.job && !loading && imgArgc x.image = c.argc && imgResc x.image = c.resc

/-- The bits of word 5 of a quality register (R307). -/
def Slot.shift (x : Slot) : Nat := bitsOf x.quality.toNat 4 4
def Slot.reproducible (x : Slot) : Bool := x.quality.getLsbD 3
def Slot.relaxed (x : Slot) : Bool := x.quality.getLsbD 2

/-- The classification of a lane in a ready slot (R313, R315). -/
def Slot.classify (x : Slot) (args : List Word) (err : Bool) : SgLane :=
  if x.relaxed && !x.reproducible && err then .timing
  else match evalLane x.image x.bound.toNat (args.map BitVec.toNat) with
    | some y => .accept y
    | none => .fallback

/-- A recovery entry of a call. -/
def Call.entry (c : Call) (call id lane : Nat) (shadow : Option (List Word)) : REntry :=
  { id := id, call := call, group := c.group, lane := lane, slot := c.slot, launch := c.launch, version := c.version
    tag := c.tag, rmode := c.rmode, args := Tab.getD c.args lane [], shadow := shadow, running := false }

/-- An entry joins the end of a core's recovery queue. -/
def State.enqueueEntry (s : State) (c : Call) (call lane : Nat) (shadow : Option (List Word)) : State :=
  let (id, s) := s.fresh
  s.updCore c.core fun x => { x with recq := x.recq ++ [c.entry call id lane shadow] }

/-- The shadows of the accepted lanes, sampled (R318); `kept` entries of the call's reservation stand unused. -/
def State.sampleShadows (s : State) (c : Call) (call kept : Nat) (ys : List (Nat × List Nat)) : State :=
  ys.foldl (fun (s : State) e =>
    match s.slot? c.core c.slot with
    | none => s
    | some x =>
      let m := 2 ^ x.shift
      let s' := if x.shift ≠ 15 && x.sampleCount % m = m - 1 && decide (kept < s.freeEntries c.core) then
          s.enqueueEntry c call e.1 (some (e.2.map loWord))
        else s
      s'.updSlot c.core c.slot fun x => { x with sampleCount := (x.sampleCount + 1) % 2 ^ 32 }) s

/-- The counters of an evaluated call, on a slot its job owns (R306, R325). -/
def Slot.countCall (x : Slot) (c : Call) (all acc fall tim : Nat) : Slot :=
  if x.owner = c.job then
    { x with
      calls := satAdd x.calls all, accepted := satAdd x.accepted acc, fallbacks := satAdd x.fallbacks fall
      timing := satAdd x.timing tim }
  else x

/-- What a call's lanes become, one slot state for all of them (R318). -/
def Call.classes (c : Call) (x : Option Slot) (loading : Bool) (timing : BitVec 64) : List (Nat × SgLane) :=
  (maskList c.lanes).map fun i => (i, match x with
    | some x => if x.readyFor c loading then x.classify (Tab.getD c.args i []) (timing.getLsbD i) else .fallback
    | none => .fallback)

/-- The lanes of a class. -/
def SgLane.accepted : SgLane → Option (List Nat)
  | .accept y => some y
  | .fallback | .timing => none

/-- The results of an evaluated call land: those of accepted lanes, and pd in every lane of Exec (R318). -/
def Group.landCall (g : Group) (id : Nat) (c : Call) (ys : List (Nat × List Nat)) : Group :=
  let g := ys.foldl (fun (g : Group) e => (List.range c.resc).foldl (fun (g : Group) k =>
    g.landResult id (.v (c.d + k) e.1, loWord (e.2.getD k 0))) g) g
  let g := (maskList c.exec).foldl (fun (g : Group) i =>
    g.landResult id (.p c.pd i, if ys.any (fun e => e.1 = i) then 1#32 else 0#32)) g
  { g with pend := g.pend.filter fun e => !(e.op = id && e.reg = .p c.pd) }

/-- A call whose lanes are all accepted or merged completes (R319). -/
def Group.endCall (g : Group) (id : Nat) : Group := (g.clearPend id).complete cSG id

/-- SURROGATE_EVALUATE (R318). A load of the slot by its owner that is still to complete may already be under way, a
free choice (assumption log 2). DEDUCED (assumption log 35). -/
def State.sgEvaluate (s : State) (id : Nat) (timing : BitVec 64) : State :=
  match Tab.get? s.ops.calls id with
  | none => s
  | some c =>
    if c.evaluated then s
    else
      let loads := s.ops.sgs.any fun e => e.2.op = 0 && e.2.core = c.core && e.2.slot = c.slot && e.2.job = c.job
      let (n, s) := if loads then s.pickBelow 2 else (0, s)
      let cls := c.classes (s.slot? c.core c.slot) (n = 1) timing
      let ys := cls.filterMap fun e => e.2.accepted.map fun y => (e.1, y)
      let rest := (cls.filter fun e => e.2.accepted.isNone).map Prod.fst
      let tim := (cls.filter fun e => e.2 = .timing).length
      let c' := { c with evaluated := true, left := rest.length }
      let s := s.updSlot c.core c.slot fun x => x.countCall c cls.length ys.length (rest.length - tim) tim
      let s := s.updGroup c.group fun g => g.landCall id c ys
      let s := s.setOps { s.ops with calls := Tab.set s.ops.calls id c' }
      let s := rest.foldl (fun (s : State) i => s.enqueueEntry c id i none) s
      let s := s.sampleShadows c id (cls.length - rest.length) ys
      if rest.isEmpty then
        (s.setOps { s.ops with calls := Tab.del s.ops.calls id }).updGroup c.group fun g => g.endCall id
      else s

def execSurrogateEvaluate (call : Nat) (timing : BitVec 64) (s : State) : Res :=
  .next (s.landing (s.sgEvaluate call timing) fun op =>
    op = call && ((Tab.get? s.ops.calls call).map fun c => !c.evaluated).getD false)

/-! ### Recovery groups (R320 to R322) -/

/-- Two entries have one key (R320). -/
def REntry.sameKey (a b : REntry) : Bool :=
  a.launch = b.launch && a.slot = b.slot && a.version = b.version && a.tag = b.tag && a.rmode = b.rmode

/-- The recovery group of some entries (R322). -/
def State.recoveryGroup (s : State) (core sl : Nat) (l : Launch) (r : Region) (base : Nat) (es : List REntry) : Group :=
  let k := { l.kernel with width := 64, vregs := max r.regs 16, sregs := 64 }
  let act := maskOf fun i => decide (i < es.length)
  let g := Group.start ((es.head?.map REntry.launch).getD 0) none 0 core sl k act 0#64 (base + r.entry)
  let ix := (List.range es.length).zip es
  { g with
    names := r.regs, res := .held, since := s.coreCycles core
    lanes := { g.lanes with
      ctag := (es.head?.map REntry.tag).getD 0#16, rmode := (es.head?.map REntry.rmode).getD 0#2 }
    v := ix.foldl (fun t e => (List.range r.argc).foldl (fun t k => Tab.set t (k * 64 + e.1) (e.2.args.getD k 0#32)) t) []
    s := [(0, loWord r.slot), (1, loWord es.length)]
    b := (List.range 4).map fun k => (k, l.arg.getD k 0#32)
    recov := some (r.slot, es.map REntry.id) }

/-- RECOVERY_GROUP_FORM (R321): from the oldest queued entry, where the group can be placed.
DEDUCED (assumption log 35). -/
def State.formRecovery (s : State) (core sl : Nat) : State :=
  let q := ((Tab.get? s.cores core).map fun c => c.recq.filter fun e => !e.running).getD []
  match q.head? with
  | none => s
  | some e =>
    match Tab.get? s.work.launches e.launch, s.codeOf (clusterOf core) e.launch with
    | some l, some code =>
      match l.kernel.regions.find? fun r => r.slot = e.slot with
      | none => s
      | some r =>
        let es := (q.filter e.sameKey).take 64
        let g := s.recoveryGroup core sl l r code.base es
        if sl < 6 && decide (1 ≤ s.freePlaces core sl) && s.fits g then
          let (gid, s) := s.fresh
          let run := fun (x : REntry) => if es.any (fun y => y.id = x.id) then { x with running := true } else x
          (s.setGroup gid g).updCore core fun c => { c with recq := c.recq.map run }
        else s
    | _, _ => s

def execRecoveryGroupForm (core slice : Nat) (s : State) : Res := .next (s.formRecovery core slice)

/-! ### SGRET (R323, R327) -/

/-- A normal entry's results merge into the call's lane (R323). -/
def State.mergeEntry (s : State) (e : REntry) (vals : List Word) : State :=
  match Tab.get? s.ops.calls e.call with
  | none => s
  | some c =>
    let s := s.updGroup c.group fun g => (List.range c.resc).foldl (fun (g : Group) k =>
      g.landResult e.call (.v (c.d + k) e.lane, vals.getD k 0#32)) g
    if c.left ≤ 1 then
      (s.setOps { s.ops with calls := Tab.del s.ops.calls e.call }).updGroup c.group fun g => g.endCall e.call
    else s.setOps { s.ops with calls := Tab.set s.ops.calls e.call { c with left := c.left - 1 } }

/-- The counters of a slot after a compare of some error (R323, R325). -/
def Slot.compare (x : Slot) (err : Nat) : Slot :=
  let x := { x with samples := satAdd x.samples 1 }
  let v := fp32.unpack err
  if v.isNan then { x with violations := satAdd x.violations 1 }
  else
    { x with
      errSum := loWord (addEven x.errSum.toNat err).1, errMax := loWord (fp32.maxCode x.errMax.toNat err).1
      violations := if (fp32.unpack (imgLimit x.image)).lt v then satAdd x.violations 1 else x.violations }

/-- The disable threshold is reached (R327). -/
def Slot.overThreshold (x : Slot) : Bool := imgThreshold x.image ≠ 0 && decide (imgThreshold x.image ≤ x.violations)

/-- A shadow's compare on the core (R323, R325, R327). One whose slot the job has loaded again since is counted in the new
contents' counters, with the new image's limit and form of error: DESIGN CHOICE (assumption log 35). -/
def State.compareShadow (s : State) (core job slot : Nat) (y vals : List Word) : State :=
  match s.slot? core slot with
  | none => s
  | some x =>
    if x.owner ≠ job then s
    else
      let err := largest ((List.range y.length).map fun k =>
        errAbs (imgRelative x.image) (vals.getD k 0#32).toNat (y.getD k 0#32).toNat)
      let x' := x.compare err
      if x'.violations ≠ x.violations && x'.overThreshold && !x.disabled then
        (s.updSlot core slot fun _ => { x' with disabled := true }).sendHub (clusterOf core) (.disable core (imgId x.image))
      else s.updSlot core slot fun _ => x'

/-- One lane of SGRET: its entry is merged or compared, and freed. -/
def State.sgretLane (s : State) (g : Group) (a : Reg) (resc : Nat) (ids : List Nat) (lane : Nat) : State :=
  let id := ids.getD lane 0
  match ((Tab.get? s.cores g.core).map Core.recq).getD [] |>.find? fun e => e.id = id with
  | none => s
  | some e =>
    let vals := (List.range resc).map fun k => g.src a k lane
    let s := match e.shadow with
      | none => s.mergeEntry e vals
      | some y => s.compareShadow g.core (s.jobOf g) e.slot y vals
    s.updCore g.core fun c => { c with recq := c.recq.filter fun x => x.id ≠ id }

/-- The call that a recovery entry's lane merges into. -/
def State.mergesInto (s : State) (g : Group) (ids : List Nat) (lane : Nat) : Option Nat :=
  ((((Tab.get? s.cores g.core).map Core.recq).getD []).find? fun e => e.id = ids.getD lane 0 && e.shadow.isNone).map
    REntry.call

/-- SGRET (R323): then the lanes exit as under EXIT. Merged results may land in a swapped group's image or a save area,
which the word waits for while it is in retention (R187). -/
def sgretEff (a : Reg) (s : State) (gid : Nat) (g : Group) (cl : Clause) : Eff :=
  match g.recov.bind fun r => (s.region? g r.1).map fun x => (r.2, x.resc) with
  | none => .trap (.plain 0x02)
  | some (ids, resc) =>
    if (g.pregs a resc).any g.isPend then .wait
    else
      let s' := (maskList g.exec).foldl (fun (s : State) i => s.sgretLane g a resc ids i) s
      let segs := s.landSegs s' fun op => (maskList g.exec).any fun i => s.mergesInto g ids i = some op
      if s.asleep segs then .wait else exitEff (s'.touch segs) gid g cl

def execSgret (a : Reg) (s : State) : Res := issue (.sgret a) (sgretEff a) s

/-! ### SGSTAT (R326) -/

/-- The value of a code as a job reads it. -/
def statValue (x : Option Slot) (job code : Nat) : Word :=
  match x with
  | none => 0#32
  | some x =>
    if x.owner ≠ job then (if code = 8 then 3#32 else 0#32)
    else match code with
      | 0 => loWord x.calls
      | 1 => loWord x.accepted
      | 2 => loWord x.fallbacks
      | 3 => loWord x.timing
      | 4 => loWord x.samples
      | 5 => x.errSum
      | 6 => x.errMax
      | 7 => loWord x.violations
      | 8 => if x.disabled then 2#32 else 1#32
      | 9 => imgId x.image
      | 10 => x.bound
      | 11 => x.quality
      | _ => 0#32

/-- SGSTAT (R326); the value is the one at issue. DESIGN CHOICE (assumption log 58). -/
def sgstatEff (d : Reg) (slot : BitVec 6) (code : BitVec 4) (s : State) (gid : Nat) (g : Group) (_cl : Clause) : Eff :=
  let w := statValue (s.slot? g.core slot.toNat) (s.jobOf g) code.toNat
  let (s, g) := s.sendVals gid g (g.dest d 0 fun _ => w)
  doneG s gid g .seq

def execSgstat (d : Reg) (slot : BitVec 6) (code : BitVec 4) (s : State) : Res :=
  issue (.sgstat d slot code) (sgstatEff d slot code) s

/-! ### SGLOAD (R328 to R330) -/

/-- An SGLOAD is accepted (R328): SG counts it and sd is pending. -/
def sgloadAccept (d : Reg) (slot op addr : Nat) (quality : List Word) (s : State) (gid : Nat) (g : Group) : Eff :=
  if g.cnt cSG = 15 then .wait
  else
    let (id, s) := s.fresh
    let o : SgOp := ⟨gid, g.core, s.jobOf g, g.launch, g.block, slot, op, addr, quality⟩
    doneG (s.setOps { s.ops with sgs := Tab.set s.ops.sgs id o }) gid ((g.count cSG id).setPend id (g.pregs d 1)) .seq

def sgloadLoadEff (d a : Reg) (slot : BitVec 6) (s : State) (gid : Nat) (g : Group) (_cl : Clause) : Eff :=
  let sa := (g.sval a 0).toNat
  if g.active == 0#64 then idleOp cSG s gid g
  else if sa % 64 ≠ 0 then .trap (.plain 0x09)
  else if s.allot g < sa + 64 then .trap (.plain 0x07)
  else sgloadAccept d slot.toNat 0 sa [] s gid g

def execSgloadLoad (d a : Reg) (slot : BitVec 6) (s : State) : Res :=
  issue (.sgloadLoad d a slot) (sgloadLoadEff d a slot) s

def sgloadQualEff (d a : Reg) (slot : BitVec 6) (s : State) (gid : Nat) (g : Group) (_cl : Clause) : Eff :=
  if g.active == 0#64 then idleOp cSG s gid g
  else sgloadAccept d slot.toNat 1 0 [g.sval a 0, g.sval a 1] s gid g

def execSgloadQual (d a : Reg) (slot : BitVec 6) (s : State) : Res :=
  issue (.sgloadQual d a slot) (sgloadQualEff d a slot) s

/-- .rel and .clr, which capture nothing. -/
def sgloadBareEff (d : Reg) (slot : BitVec 6) (op : Nat) (s : State) (gid : Nat) (g : Group) (_cl : Clause) : Eff :=
  if g.active == 0#64 then idleOp cSG s gid g else sgloadAccept d slot.toNat op 0 [] s gid g

def execSgloadRel (d : Reg) (slot : BitVec 6) (s : State) : Res :=
  issue (.sgloadRel d slot) (sgloadBareEff d slot 2) s

def execSgloadClr (d : Reg) (slot : BitVec 6) (s : State) : Res :=
  issue (.sgloadClr d slot) (sgloadBareEff d slot 3) s

/-- What a load finds at its source: 64-byte lines one by one, none where a line cannot be read; `limit` is how many
bytes the source holds. -/
structure ImgSource where
  limit : Nat
  read : Nat → Option (List Byte)

/-- The bytes of n lines of a source. -/
def readLines (rd : Nat → Option (List Byte)) : Nat → Nat → Option (List Byte)
  | _, 0 => some []
  | k, n + 1 =>
    match rd k, readLines rd (k + 1) n with
    | some x, some xs => some (x ++ xs)
    | _, _ => none

/-- A load's status code and, at 0, the image (R304, R305, R309, R329). The order among several refusals is the
model's (assumption log 11). -/
def State.checkImage (s : State) (core slot job : Nat) (limit : Nat) (rd : Nat → Option (List Byte))
    (mismatch : List Byte → Bool) : Nat × List Byte :=
  if (s.slot? core slot).any (fun x => x.owner ≠ job) then (1, [])
  else match rd 0 with
    | none => (3, [])
    | some hdr =>
      if limit < 64 + imgBody hdr then (4, [])
      else match readLines rd 0 (1 + imgBody hdr / 64) with
        | none => (3, [])
        | some img =>
          if imageBad img then (3, [])
          else if 2048 < s.unitsBeside core slot + (1 + imgBody img / 64) then (2, [])
          else if mismatch img then (5, [])
          else (0, img)

/-- The image does not fit the region table entry of a launch (R329). -/
def regionMismatch (l : Option Launch) (slot : Nat) (img : List Byte) : Bool :=
  match l with
  | none => true
  | some l =>
    match l.kernel.regions.find? fun r => r.slot = slot with
    | none => true
    | some r => imgEntry img ≠ r.label || imgRegs img ≠ r.regs || imgArgc img ≠ r.argc || imgResc img ≠ r.resc ||
        imgVersion img ≠ l.kernel.version % 2 ^ 16

/-- A load succeeds: the slot holds the image, ready (R305, R329). -/
def State.installImage (s : State) (core slot job : Nat) (img : List Byte) : State :=
  s.updCore core fun c => { c with slots := Tab.set c.slots slot (Slot.loaded job img) }

/-- A 64-byte line of a block's scratchpad, none where it is uncorrectable (R185). -/
def State.scratchLine (s : State) (block : Nat) (a : Nat) : Option (List Byte) :=
  if s.badScratch block a 64 then none else some (((Tab.get? s.work.blocks block).map fun b => b.read a 64).getD [])

/-- The size of a block's allotment. -/
def State.blockAllot (s : State) (b : Option Nat) : Nat := (b.map fun b => s.scrSize (.core b)).getD 0

/-- The segments that a load's image lies in (R186). -/
def State.sgSegs (s : State) (o : SgOp) : List (SramArray × Nat) :=
  match o.op, o.block with
  | 0, some b =>
    let n := match s.scratchLine b o.addr with
      | some hdr => 1 + imgBody hdr / 64
      | none => 1
    (List.range n).map fun k => s.segOf (.core b) (o.addr + 64 * k)
  | _, _ => []

/-- The effect and the code of a slot operation (R329, R330). -/
def State.sgAct (s : State) (o : SgOp) : Nat × State :=
  match o.op with
  | 0 =>
    let (code, img) := s.checkImage o.core o.slot o.job (s.blockAllot o.block - o.addr)
      (fun k => s.scratchLine (o.block.getD 0) (o.addr + 64 * k)) (regionMismatch (Tab.get? s.work.launches o.launch) o.slot)
    if code = 0 then (0, s.installImage o.core o.slot o.job img) else (code, s)
  | op =>
    match s.slot? o.core o.slot with
    | none => (6, s)
    | some x =>
      if x.owner ≠ o.job then (1, s)
      else if op = 1 then
        let b := o.quality.getD 0 0#32
        let q := o.quality.getD 1 0#32
        if qualityBad b.toNat q.toNat then (3, s)
        else (0, s.updSlot o.core o.slot fun x => { x with bound := b, quality := q })
      else if op = 2 then (0, s.updCore o.core fun c => { c with slots := Tab.del c.slots o.slot })
      else (0, s.updSlot o.core o.slot Slot.cleared)

/-- SGLOAD's status word (R330). -/
def sgStatus (code units : Nat) : Word := loWord (code * 2 ^ 28 + units)

/-- SGLOAD_COMPLETE (R329): after the group's earlier stores. -/
def State.sgloadComplete (s : State) (id : Nat) : State :=
  match Tab.get? s.ops.sgs id with
  | none => s
  | some o =>
    if !s.engineOrdered o.group id || s.asleep (s.sgSegs o) then s
    else
      let s := s.touch (s.sgSegs o)
      let (code, s) := s.sgAct o
      let units := ((s.slot? o.core o.slot).map Slot.units).getD 0
      (s.setOps { s.ops with sgs := Tab.del s.ops.sgs id }).updGroup o.group fun g =>
        (g.landScalar id (sgStatus code units)).complete cSG id

def execSgloadComplete (op : Nat) (s : State) : Res := .next (s.landing (s.sgloadComplete op) fun _ => false)

/-! ### Disabling an id everywhere (R327) -/

/-- DISABLE_REPORT: the Sheepdog consumes a Pup's report of an id, when it is the first of its link (R390), and tells
every Pup to disable it on its cores. -/
def State.disableReport (s : State) (core : Nat) (sid : Word) : State :=
  if (Tab.getD s.hub.toHub (clusterOf core) []).head? = some (.disable core sid) then
    (List.range 128).foldl (fun (s : State) c => s.sendPup (clusterOf c) (.disable c sid)) (s.takeHub (clusterOf core))
  else s

def execDisableReport (core : Nat) (sid : BitVec 32) (s : State) : Res := .next (s.disableReport core sid)

/-- SURROGATE_DISABLE: a core applies a disable, between two evaluations. The cores of a cluster may apply one disable in
any order; another one comes after it (R390). -/
def State.sgDisable (s : State) (core : Nat) (sid : Word) : State :=
  let q := Tab.getD s.hub.toPup (clusterOf core) []
  let ofId := fun (m : HubMsg) => match m with
    | .disable _ x => x = sid
    | .blockDone _ _ | .tagRequest _ | .stall _ | .trap _ => false
  if (q.takeWhile ofId).contains (.disable core sid) then
    let s := s.setHub { s.hub with toPup := Tab.set s.hub.toPup (clusterOf core) (q.erase (.disable core sid)) }
    let off := fun (x : Slot) => if imgId x.image = sid then { x with disabled := true } else x
    s.updCore core fun c => { c with slots := Tab.mapVals c.slots fun _ x => off x }
  else s

def execSurrogateDisable (core : Nat) (sid : BitVec 32) (s : State) : Res := .next (s.sgDisable core sid)

end Sys2Proof.Machine
end

