-- ==== Sys2Proof/Machine/Bundle.lean ====
section
/-!
DEFINITION. Bundles (R379 to R383), sub-launch records (R384 to R386, R431), admission (R387 to R389) and code loading
(R397).
-/

namespace Sys2Proof.Machine

/-! ### Memory of a port -/

/-- A frame of HBM belongs to a port (R419). -/
def State.portFrame (s : State) (port a : Nat) : Bool :=
  decide (a < Config.hbmBytes) && Tab.get? s.hub.frames (a / 2 ^ 21) = some port

/-- A range of device memory of fewer than 2 MiB lies in a port's frames. -/
def State.portRange (s : State) (port a n : Nat) : Bool := s.portFrame port a && s.portFrame port (a + n - 1)

/-- Bytes of a host's memory as the part reads them: free values (assumption log 15). -/
def State.hostRead (s : State) (port a n : Nat) : List Byte × State :=
  ((List.range n).map fun k => Config.hostByte s.free port (a + k), { s with free := s.free + 1 })

/-- Bytes written to a host's memory. -/
def State.hostWrite (s : State) (port a : Nat) (bs : List Byte) : State :=
  s.updPort port fun p => { p with
    hostMem := (List.range bs.length).foldl (fun m k => Tab.set m (a + k) (bs.getD k 0#8)) p.hostMem }

/-! ### Fetching (R379, R380) -/

/-- The bytes of a submission-queue entry. -/
def entryBytes : Nat := 576

/-- A queue of a port. -/
def State.sq? (s : State) (port q : Nat) : Option Sq := (Tab.get? s.ports port).bind fun p => Tab.get? p.queues q

def State.updSq (s : State) (port q : Nat) (f : Sq → Sq) : State :=
  s.updPort port fun p => { p with queues := Tab.upd p.queues q f }

/-- A draw of free values. -/
def State.draw (s : State) : Nat × State := (s.free, { s with free := s.free + 1 })

/-- An entry that was rewritten between the pointers: each byte is the one that stood there when the write pointer passed
it or the one that stands there now (R379). FREE VALUE (assumption log 15). -/
def mixBytes (draw : Nat) (old new : List Byte) : List Byte :=
  (List.range new.length).map fun k =>
    if Config.oldByte draw k then old.getD k (new.getD k 0#8) else new.getD k 0#8

/-- The entry at a queue's read pointer; none where the read fails, which for a host's memory is a free choice (R422). -/
def State.readEntry (s : State) (port : Nat) (x : Sq) : Option (List Word) × State :=
  let a := x.base + entryBytes * x.rp
  let (n, s) := s.draw
  if x.host then
    let (bs, s) := s.hostRead port a entryBytes
    (if Config.hostFails n then none else some (bytesToWords bs), s)
  else if s.portRange port a entryBytes && !s.hbmBad a entryBytes then
    let new := s.hbmRead a entryBytes
    (some (bytesToWords (mixBytes n ((x.snap.head?).getD new) new)), s)
  else (none, s)

/-- A bundle header keeps its rules (R380). -/
def headerOk (h : List Word) : Bool :=
  let w := wnat h
  bitsOf (w 0) 4 12 = 0 && decide (1 ≤ bitsOf (w 0) 0 3) && decide (bitsOf (w 0) 0 3 ≤ 4) && topZero h 1 16 &&
  topZero h 2 4 && decide (w 2 ≤ 8) && bitsOf (w 7) 11 20 = 0 && w 8 % 16 = 0 &&
  [10, 11, 12, 13, 14, 15].all fun k => w k = 0

/-- The pending bundle of a job with an id (R381). -/
def State.pendingBundle (s : State) (job bid : Nat) : Option (Nat × Bundle) :=
  s.work.bundles.find? fun e => e.2.job = job && e.2.bid = bid && !e.2.malformed

/-- A bundle as its entry gives it (R380, R381, R383): its id's credits are consumed. -/
def State.newBundle (s : State) (port q job : Nat) (ws : List Word) : State :=
  let w := wnat ws
  let id := bitsOf (w 0) 16 16
  let bad := !headerOk ws || (s.pendingBundle job id).isSome
  let held := (((Tab.get? s.work.jobs job).map Job.credits).getD []).filter fun c => c.1 = id
  let (n, s) := s.fresh
  let b : Bundle :=
    { job := job, port := port, queue := q, bid := id, stop := (w 0).testBit 3
      count := bitsOf (w 1) 0 16 - (held.filter fun c => !c.2).length
      succs := if bad then [] else (List.range (w 2)).map fun k => bitsOf (w (3 + k / 2)) (16 * (k % 2)) 16
      irq := if (w 7).testBit 31 then some (bitsOf (w 7) 0 11) else none
      record := w 8 / 16 * 16 + w 9 * 2 ^ 32
      malformed := bad, cancelled := !bad && held.any fun c => c.2, checking := false, admitted := false
      subs := if bad then [] else (List.range (bitsOf (w 0) 0 3)).map fun k =>
        ⟨(ws.drop (16 + 32 * k)).take 32, none, false, 0, false, none⟩
      order := n }
  let s := s.setWork { s.work with bundles := Tab.set s.work.bundles n b }
  if bad then s else s.updJob job fun j => { j with credits := j.credits.filter fun c => c.1 ≠ id }

/-- BUNDLE_FETCH (R379, R422): an enabled queue's next entry is taken; a failed read disables the queue. -/
def State.bundleFetch (s : State) (port q : Nat) : State :=
  match s.sq? port q with
  | none => s
  | some x =>
    if !s.hub.booted || !x.enable || !x.bound || x.rp = x.wp then s
    else match s.readEntry port x with
      | (none, s) => s.updSq port q fun x => { x with enable := false, error := true }
      | (some ws, s) => (s.newBundle port q x.job ws).updSq port q fun x =>
          { x with rp := (x.rp + 1) % 2 ^ x.size, snap := x.snap.tail }

def execBundleFetch (port q : Nat) (s : State) : Res := .next (s.bundleFetch port q)

/-! ### Kernel launch records (R384, R385) -/

/-- The queue bindings of words 18 and 19. -/
def bindingsOf (ws : List Word) : List Nat := (List.range 16).map fun k => bitsOf (wnat ws (18 + k / 8)) (4 * (k % 8)) 4

/-- Bindings stand in pairs (R275). DESIGN CHOICE (assumption log 41). -/
def bindingsOk (bs : List Nat) : Bool :=
  (List.range 8).all fun k => [(0, 0), (1, 2), (3, 4)].contains (bs.getD (2 * k) 0, bs.getD (2 * k + 1) 0)

/-- A lease entry (R385). -/
def leaseOf (e : List Word) : Option Lease :=
  let w := wnat e
  if bitsOf (w 0) 19 13 = 0 && w 1 % 64 = 0 && bitsOf (w 2) 0 16 = 0 && w 3 % 64 = 0 && w 3 ≠ 0 then
    some ⟨bitsOf (w 0) 0 16, w 1 + bitsOf (w 2) 16 16 * 2 ^ 32, w 3, BitVec.ofNat 3 (bitsOf (w 0) 16 3), false⟩
  else none

/-- The leases a record declares. -/
def State.leasesOf (s : State) (job : Nat) (ws : List Word) : Option (List Lease) :=
  if wnat ws 13 = 0 then some []
  else (s.objTable job (bitsOf (wnat ws 14) 0 16) (wnat ws 15) 4 (wnat ws 13)).bind fun t => allSome (t.map leaseOf)

/-- The map image a record names: spacing and phases (R385); none where it cannot be read. -/
def State.mapOf (s : State) (job : Nat) (ws : List Word) : Option (Nat × List Nat) :=
  (s.objBytes job (bitsOf (wnat ws 20) 0 16) (wnat ws 21) 64).map fun bs =>
    let ph := bytesToNat ((bs.drop 4).take 48)
    (bitsOf (bytesToNat (bs.take 4)) 0 12, (List.range 128).map fun c => bitsOf ph (3 * c) 3)

/-- The record keeps its rules, whatever its kernel. -/
def recordOk (ws : List Word) : Bool :=
  let w := wnat ws
  bitsOf (w 0) 0 24 = 0 && topZero ws 1 16 && w 2 % 64 = 0 && topZero ws 3 16 &&
  [4, 5, 6].all (fun k => decide (1 ≤ w k) && decide (w k ≤ 65535)) && topZero ws 7 11 && topZero ws 8 16 &&
  decide (w 13 ≤ 256) && bindingsOk (bindingsOf ws) && (List.range 10).all fun k => w (22 + k) = 0

/-- The record fits its kernel: the lanes of a block, and a handler that is an external entry (R384, R395). -/
def recordFits (ws : List Word) (k : Kernel) : Bool :=
  let w := wnat ws
  decide ((k.groups - 1) * k.width < w 7) && decide (w 7 ≤ k.groups * k.width) &&
  (!(w 17).testBit 31 || k.external.any fun e => e.1 = bitsOf (w 17) 0 18)

/-- The launches of a job that hold what admission gave them. -/
def State.running (s : State) (job : Nat) : List (Nat × Launch) :=
  s.work.launches.filter fun e => e.2.job = job && e.2.admitted && !e.2.retired

/-- A launch's kernel and version come from another code object than a kernel does. -/
def Launch.clashes (l : Launch) (k : Kernel) (code : Nat × Nat) : Bool :=
  l.kernel.name = k.name && l.kernel.version = k.version && l.codeObj ≠ code

/-- A different code object of the same kernel and version is still referenced in the job (R397): by a running launch, with
which its groups, recovery entries and resume points stand. -/
def State.versionClash (s : State) (job : Nat) (k : Kernel) (code : Nat × Nat) : Bool :=
  (s.running job).any fun e => e.2.clashes k code

/-- The launch that a record asks for, unplaced and without the numbers that admission gives; none where the record is
malformed (R385, R395, R397). -/
def State.parseLaunch (s : State) (job bundle sub : Nat) (ws : List Word) : Option Launch :=
  let w := wnat ws
  let code := (bitsOf (w 1) 0 16, w 2)
  if !recordOk ws then none
  else match s.kernelOf job code.1 code.2 (w 3), s.leasesOf job ws with
    | some k, some ls =>
      let own := (w 0).testBit 24
      let img := if own then s.mapOf job ws else none
      if !recordFits ws k || s.versionClash job k code || (own && img.isNone) then none
      else some
        { job := job, bundle := bundle, sub := sub, number := 0, kernel := k, codeObj := code, gx := w 4, gy := w 5
          gz := w 6, lanes := w 7, dieScratch := w 8, arg := (ws.drop 9).take 4, leases := ls
          viewFirst := bitsOf (w 16) 0 12, viewCount := bitsOf (w 16) 16 12
          handler := if (w 17).testBit 31 then (k.external.find? fun e => e.1 = bitsOf (w 17) 0 18).map Prod.snd else none
          bindings := bindingsOf ws, coop := (w 0).testBit 25 || decide (0 < k.gridBars)
          wantCtx := (w 0).testBit 27, ctx := none, commit := (w 0).testBit 26, map := 0, ownMap := img
          admitted := false, gangs := []
          gridBars := [], scratch := [], blocksDone := 0, late := 0, status := none, retired := false }
    | _, _ => none

/-! ### Resident leases (R211) -/

/-- The extents of a lease. -/
def Lease.extents (l : Lease) : List Nat :=
  let first := l.start / 2 ^ 21
  (List.range ((l.start + l.len - 1) / 2 ^ 21 + 1 - first)).map fun k => first + k

/-- An object's entry in the object table: valid, with its extent count and the address of its extent list (R194). -/
def State.objectAt (s : State) (job obj : Nat) : Option (Nat × Nat) :=
  match Tab.get? s.work.jobs job with
  | none => none
  | some j =>
    let ws := bytesToWords (s.hbmRead (j.objectTable + 16 * obj) 16)
    if wnat ws 0 = 2 ^ 31 && bitsOf (wnat ws 2) 0 6 = 0 && bitsOf (wnat ws 3) 7 25 = 0 then
      some (wnat ws 1, wnat ws 2 + wnat ws 3 * 2 ^ 32)
    else none

/-- A frame that something of a job stands in: a table, its save area, an extent list or an extent (R194, R195, R378). -/
def State.frameUsed (s : State) (job : Nat) (j : Job) (f : Nat) : Bool :=
  let in_ := fun (a n : Nat) => decide (a < (f + 1) * 2 ^ 21) && decide (f * 2 ^ 21 < a + n)
  in_ j.tensorTable 262144 || in_ j.objectTable 1048576 || in_ j.saveArea j.saveSize ||
  (List.range 65536).any fun o => match s.objectAt job o with
    | none => false
    | some (n, list) => in_ list (8 * n) || (List.range n).any fun k => s.walk job o k = some (f * 2 ^ 21)

/-- The frames of a port that nothing of its jobs or queues stands in. -/
def State.freeFrames (s : State) (port : Nat) : List Nat :=
  ((s.hub.frames.filter fun e => e.2 = port).map Prod.fst).filter fun f =>
    !(s.work.jobs.any fun j => j.2.port = port && s.frameUsed j.1 j.2 f) &&
    !(((Tab.get? s.ports port).map Port.queues).getD []).any fun q => !q.2.host && decide (q.2.base < (f + 1) * 2 ^ 21) &&
      decide (f * 2 ^ 21 < q.2.base + entryBytes * 2 ^ q.2.size)

/-- The Sheepdog brings an absent extent of a lease in from host memory (R211): a frame that is free takes its bytes, whole,
because other leases may lie in it, and the extent list names it; the bytes are the host's. Which frame is a free value (assumption log 2); an object or extent
that does not exist cannot be made resident. DEDUCED (assumption log 40). -/
def State.bringIn (s : State) (job : Nat) (l : Lease) (ext : Nat) : State :=
  match Tab.get? s.work.jobs job, s.objectAt job l.obj with
  | some j, some (n, list) =>
    let free := s.freeFrames j.port
    let (k, s) := s.pickBelow free.length
    match free[k]? with
    | none => s
    | some f =>
      if n ≤ ext then s
      else
        let (bs, s) := s.hostRead j.port (ext * 2 ^ 21) (2 ^ 21)
        (s.hbmWrite (f * 2 ^ 21) bs).hbmWrite (list + 8 * ext) (natToBytes (2 ^ 63 + f * 2 ^ 21) 8)
  | _, _ => s

/-- The first extent of some leases that is not resident. -/
def State.absent (s : State) (job : Nat) (ls : List Lease) : Option (Lease × Nat) :=
  firstSome (fun (l : Lease) => (l.extents.find? fun e => (s.walk job l.obj e).isNone).map fun e => (l, e)) ls

/-! ### Admission (R387 to R389) -/

/-- The tags a launch reserves (R216, R218). -/
def Launch.tagNeed (l : Launch) : Nat := l.kernel.ctxbudget + if l.wantCtx then 1 else 0

/-- The dies that have a core in a job's mask. -/
def State.maskDies (s : State) (job : Nat) : List Nat :=
  (List.range 4).filter fun d => (List.range 32).any fun q =>
    ((Tab.get? s.work.jobs job).map fun j => j.coreMask.getLsbD (32 * d + q)).getD false

/-- The phase map entries free to load (R348, R385). -/
def State.freeMaps (s : State) : List Nat := (List.range 16).filter fun k => decide (1 ≤ k) && !Tab.has s.hub.maps k

/-- What the check of a launch comes to (R387, R397): it passes, waits, waits for an extent to be brought in, can never be
admitted, or is malformed. -/
inductive Check where
  | pass | wait | absent (l : Lease) (ext : Nat) | unfit | malformed
  deriving DecidableEq, Repr

/-- The next check, where one passes. -/
def Check.then_ (c d : Check) : Check := if c = .pass then d else c

/-- A check that waits, and one that refuses. -/
def Check.need (b : Bool) : Check := if b then .pass else .wait
def Check.must (b : Bool) : Check := if b then .pass else .unfit

/-- Step 1: the code fits a code memory, and stands in that of a cluster of the job's mask. -/
def State.checkCode (s : State) (lid : Nat) (l : Launch) : Check :=
  (Check.must (decide (l.kernel.code.length + 1 ≤ Config.codeWords))).then_
    (Check.need ((List.range 32).any fun c => s.keepsCluster l.job c && (s.codeOf c lid).isSome))

/-- Step 2: the leases of the job are few enough, and every leased range is resident (R211). -/
def State.checkLeases (s : State) (lid : Nat) (l : Launch) : Check :=
  let others := (s.running l.job).filter fun e => e.1 ≠ lid
  (Check.need (decide (sumNat (others.map fun e => e.2.leases.length) + l.leases.length ≤ 4096))).then_
    (match s.absent l.job l.leases with
     | some (x, e) => .absent x e
     | none => .pass)

/-- Step 3: the tags (R216, R218). -/
def State.checkTags (s : State) (lid : Nat) (l : Launch) : Check :=
  let others := (s.running l.job).filter fun e => e.1 ≠ lid
  let budget := ((Tab.get? s.work.jobs l.job).map Job.tagBudget).getD 0
  (Check.must (decide (l.tagNeed ≤ budget))).then_
    (Check.need (decide (sumNat (others.map fun e => e.2.tagNeed) + l.tagNeed ≤ budget)))

/-- Step 4: the grid barrier places, held until the last block completes (R334, R335), and a phase map entry. -/
def State.checkBars (s : State) (lid : Nat) (l : Launch) : Check :=
  let every := s.work.launches.filter fun e => e.1 ≠ lid && e.2.admitted && !e.2.retired && e.2.blocksDone < e.2.blocks
  Check.need (decide (sumNat (every.map fun e => e.2.kernel.gridBars) + l.kernel.gridBars ≤ barPlaces .grid) &&
    (l.ownMap.isNone || !s.freeMaps.isEmpty))

/-- Step 5: the die request (R171). -/
def State.checkDie (s : State) (l : Launch) : Check :=
  Check.must (!(s.maskDies l.job).all fun d => decide (s.dieAvail d < l.dieBytes))

/-- What no step names: registers for the handler (R356), a gang that could never be placed (R335), and a save area as
large as the launch needs (R378). DESIGN CHOICE (assumption log 40). -/
def State.checkFit (s : State) (lid : Nat) (l : Launch) : Check :=
  Check.must ((l.handler.isNone || decide (16 ≤ l.kernel.vregs)) && s.everFits lid &&
    decide (Config.saveNeed l.job l.kernel.name ≤ ((Tab.get? s.work.jobs l.job).map Job.saveSize).getD 0))

/-- Step 6: a co-operative launch fits now (R388). -/
def State.checkCoop (s : State) (lid : Nat) (l : Launch) : Check :=
  Check.need (!l.coop || ((s.reserved lid).placeGangs lid true (List.range l.gangCount)).isSome)

/-- Another code object of the launch's kernel and version is referenced now, by a running launch, or by one that a record
before it in its bundle admits with it (R397). DEDUCED (assumption log 51). -/
def State.checkVersion (s : State) (l : Launch) : Check :=
  if s.versionClash l.job l.kernel l.codeObj || s.work.launches.any (fun e =>
      e.2.bundle = l.bundle && !e.2.admitted && decide (e.2.sub < l.sub) && e.2.clashes l.kernel l.codeObj) then .malformed
  else .pass

/-- The checks of a launch in their order; the first that fails decides (R387). The version comes first, as it does where a
record is read (R397). -/
def State.check (s : State) (lid : Nat) (l : Launch) : Check :=
  (s.checkVersion l).then_ <| (s.checkCode lid l).then_ <| (s.checkLeases lid l).then_ <| (s.checkTags lid l).then_ <| (s.checkBars lid l).then_ <|
    (s.checkDie l).then_ <| (s.checkFit lid l).then_ (s.checkCoop lid l)

/-- The first number from one on that a test lets pass, in a ring; the first number bounds the search. -/
def ringFrom (ok : Nat → Bool) (n : Nat) : Nat → Nat → Option Nat
  | 0, _ => none
  | f + 1, k => if ok (k % n) then some (k % n) else ringFrom ok n f (k + 1)

/-- A free launch number of the job (R389): which is a free value (assumption log 2). -/
def State.freeNumber (s : State) (lid job : Nat) : Nat × State :=
  let (k, s) := s.pickBelow 65535
  let used := ((s.running job).filter fun e => e.1 ≠ lid).map fun e => e.2.number
  ((ringFrom (fun n => !used.contains n) 65535 (used.length + 1) k).getD 0, s)

/-- A launch context's tag (R218): a free tag, its parent 0; none where no tag is free. -/
def State.contextTag (s : State) (lid job : Nat) : Option (Nat × State) :=
  let (k, s) := s.pickBelow 65535
  (ringFrom (fun n => s.tagFree (n + 1)) 65535 65535 k).map fun n =>
    (n + 1, s.setKennel { s.kennel with tags := Tab.set s.kennel.tags (n + 1) ⟨job, 0, lid, true, .live, 0⟩ })

/-- A phase map entry loaded for a launch (R385, R410): its spacing is at least S_min. -/
def State.loadMap (s : State) (lid : Nat) (m : Nat × List Nat) : Nat × State :=
  let free := s.freeMaps
  let (k, s) := s.pickBelow free.length
  let n := free.getD k 0
  (n, s.setHub { s.hub with maps := Tab.set s.hub.maps n ⟨max m.1 s.hub.sMin, m.2, lid⟩ })

/-- A launch admitted (R218, R385, R389): its number, map entry and context; none where no tag is free. -/
def State.admitLaunch (s : State) (lid : Nat) (l : Launch) : Option State :=
  let (n, s) := s.freeNumber lid l.job
  let (m, s) := match l.ownMap with
    | some img => s.loadMap lid img
    | none => (0, s)
  let l := { l with number := n, map := m, admitted := true }
  if l.wantCtx then
    (s.contextTag lid l.job).map fun r => r.2.updLaunch lid fun _ => { l with ctx := some r.1 }
  else some (s.updLaunch lid fun _ => l)

/-- The sub-launches of a bundle change. -/
def State.updSub (s : State) (bid sub : Nat) (f : Sub → Sub) : State :=
  let g := fun (i : Nat) (x : Sub) => if i = sub then f x else x
  s.updBundle bid fun b => { b with subs := b.subs.mapIdx g }

/-- A sub-launch completes with a status. -/
def State.endSub (s : State) (bid sub status : Nat) : State := s.updSub bid sub fun x => { x with status := some status }

/-- A sub-launch of a bundle that comes to admission: its launch enters the table, or it is malformed and completes. -/
def State.enterSub (s : State) (bid : Nat) (b : Bundle) (sub : Nat) (ws : List Word) : State :=
  match bitsOf (wnat ws 0) 28 4 with
  | 0 =>
    match s.parseLaunch b.job bid sub ws with
    | none => s.endSub bid sub stMalformed
    | some l =>
      let (lid, s) := s.fresh
      (s.setWork { s.work with launches := Tab.set s.work.launches lid l }).updSub bid sub fun x =>
        { x with launch := some lid }
  | 1 => if 1 ≤ wnat ws 4 && wnat ws 4 ≤ 65535 && wnat ws 1 ≤ 3 then s else s.endSub bid sub stMalformed
  | 2 | 3 => s
  | _ => s.endSub bid sub stMalformed

/-- All sub-launches of a bundle come to admission. -/
def State.enterSubs (s : State) (bid : Nat) (b : Bundle) : State :=
  (List.range b.subs.length).foldl (fun (s : State) k =>
    s.enterSub bid b k (((b.subs[k]?).map Sub.words).getD [])) s

/-- A launch that is not admitted leaves the table, and its sub-launch completes with a status (R387, R397). -/
def State.refuseLaunch (s : State) (bid sub lid status : Nat) : State :=
  ((s.setWork { s.work with launches := Tab.del s.work.launches lid }).updSub bid sub fun x =>
    { x with launch := none, status := some status }).freeCode

/-- The kernel launches of a bundle that are in admission, each with its sub-launch. -/
def State.inAdmission (s : State) (b : Bundle) : List (Nat × Nat × Launch) :=
  (List.range b.subs.length).filterMap fun k =>
    (b.subs[k]?).bind fun x => x.launch.bind fun lid => (Tab.get? s.work.launches lid).bind fun l =>
      if l.admitted then none else some (k, lid, l)

/-- The launches of a bundle admitted one after the other, all or none (R382, R387). What the ones before have taken counts
against those after. DEDUCED (assumption log 40). -/
def State.admitAll (s : State) : List (Nat × Nat × Launch) → Option State
  | [] => some s
  | (_, lid, l) :: rest =>
    if s.check lid l = .pass then
      match s.admitLaunch lid l with
      | some s => s.admitAll rest
      | none => none
    else none

/-- A sub-launch starts: those of the other kinds have work to give out (R386). -/
def Sub.start (x : Sub) : Sub :=
  if x.status.isSome then x
  else match bitsOf (wnat x.words 0) 28 4 with
    | 1 => { x with running := true, left := wnat x.words 4 }
    | 2 => { x with running := true }
    | 3 => { x with running := true, left := 1 }
    | _ => x

/-- A bundle is ready (R381). -/
def Bundle.ready (b : Bundle) : Bool := b.count = 0 && !b.admitted && !b.malformed && !b.cancelled

/-- The launches of a bundle. -/
def State.launchesOf (s : State) (bid : Nat) : List (Nat × Launch) := s.work.launches.filter fun e => e.2.bundle = bid

/-- The start of a bundle is an acquire at .sys: its launches, and those after them, see the descriptors of the job released
at a scope that holds them (R210, R382). DEDUCED (assumption log 29). -/
def State.showViews (s : State) (job : Nat) (ls : List (Nat × Nat × Launch)) : State :=
  let first := ((ls.map fun e => e.2.1).min?).getD s.nextId
  { s with views := s.views.map fun v =>
      if v.job = job && v.shown.isNone && v.released.any (fun sc => decide (Scope.rank .dev ≤ Scope.rank sc)) then
        { v with shown := some first }
      else v }

/-- The retirement of a bundle is a release at .sys of all its launches wrote (R382). -/
def State.releaseViews (s : State) (bid : Nat) : State :=
  { s with views := s.views.map fun v =>
      if (s.launchesOf bid).any (fun l => l.1 = v.launch) then { v with released := some .sys } else v }

/-- The checks of a bundle in admission (R387): a launch that can never be admitted, or has become malformed (R397), is
refused, an extent that is absent is brought in, and once every launch passes they are admitted together. The job's extents and descriptors are forgotten
on all dies and in the hub before anything starts (R382). -/
def State.checkBundle (s : State) (bid : Nat) (b : Bundle) : State :=
  let ls := s.inAdmission b
  match ls.find? fun e => s.check e.2.1 e.2.2 ≠ .pass with
  | some (sub, lid, l) =>
    match s.check lid l with
    | .unfit => s.refuseLaunch bid sub lid stResource
    | .malformed => s.refuseLaunch bid sub lid stMalformed
    | .absent x e => s.bringIn b.job x e
    | .pass | .wait => s
  | none =>
    match ((s.showViews b.job ls).invalidate b.job .sys).admitAll ls with
    | some s => s.updBundle bid fun b => { b with admitted := true, checking := false, subs := b.subs.map Sub.start }
    | none => s

/-- BUNDLE_ADMIT (R382, R387): the earliest ready bundle of its queue comes to admission, is checked, and is admitted whole
or waits. DEDUCED (assumption log 40). -/
def State.bundleAdmit (s : State) (bid : Nat) : State :=
  match Tab.get? s.work.bundles bid with
  | none => s
  | some b =>
    if !b.ready || !s.jobRuns b.job || s.work.bundles.any (fun e =>
        e.2.port = b.port && e.2.queue = b.queue && e.2.ready && decide (e.2.order < b.order)) then s
    else if b.checking then s.checkBundle bid b
    else
      let s := (s.enterSubs bid b).updBundle bid fun b => { b with checking := true }
      match Tab.get? s.work.bundles bid with
      | some b => s.checkBundle bid b
      | none => s

def execBundleAdmit (bundle : Nat) (s : State) : Res := .next (s.bundleAdmit bundle)

/-! ### Code loading (R32, R397) -/

/-- A place for some words and their guard word, clear of the loads of a cluster and their guard words (R32). -/
def Cluster.roomAt (c : Cluster) (base n : Nat) : Bool :=
  decide (base + n + 1 ≤ Config.codeWords) && c.loads.all fun x =>
    decide (base + n + 1 ≤ x.base) || decide (x.base + x.len + 1 ≤ base)

/-- The words of a kernel and its start bits enter a cluster's code memory. -/
def Cluster.load (c : Cluster) (job : Nat) (k : Kernel) (obj : Nat × Nat) (base : Nat) : Cluster :=
  { c with
    code := (List.range k.code.length).foldl (fun t i => Tab.set t (base + i) (k.code.getD i 0#32)) c.code
    starts := k.headers.foldl (fun t h => Tab.set t (base + h) true) c.starts
    loads := c.loads ++ [⟨job, k.name, k.version, obj, base, k.code.length, k.native⟩] }

/-- The digest of a code object joins those of its job (R435). -/
def State.digestCode (s : State) (l : Launch) : State :=
  match (s.objWords l.job l.codeObj.1 l.codeObj.2 16).bind fun h => s.objBytes l.job l.codeObj.1 l.codeObj.2 (wnat h 12) with
  | none => s
  | some bs => s.updJob l.job fun j =>
      if j.digests.contains (sha512 bs) then j else { j with digests := j.digests ++ [sha512 bs] }

/-- CODE_LOAD (R397): a kernel version enters the code memory of a cluster, where room is free.
DEDUCED (assumption log 51). -/
def State.codeLoad (s : State) (cluster lid base : Nat) : State :=
  match Tab.get? s.work.launches lid, Tab.get? s.clusters cluster with
  | some l, some c =>
    if l.retired || l.status.isSome || (s.codeOf cluster lid).isSome || !s.keepsCluster l.job cluster ||
        !c.roomAt base l.kernel.code.length then s
    else (s.updCluster cluster fun c => c.load l.job l.kernel l.codeObj base).digestCode l
  | _, _ => s

def execCodeLoad (cluster launch base : Nat) (s : State) : Res := .next (s.codeLoad cluster launch base)

/-! ### Other sub-launches (R386, R431) -/

/-- A sub-launch of an admitted bundle that still has work to give out. -/
def State.sub? (s : State) (bid sub kind : Nat) : Option (Bundle × Sub) :=
  match Tab.get? s.work.bundles bid with
  | none => none
  | some b => match b.subs[sub]? with
    | none => none
    | some x =>
      if b.admitted && x.running && x.status.isNone && bitsOf (wnat x.words 0) 28 4 = kind then some (b, x) else none

/-- The kernel launch of a bundle: of several, the first sub-launch that holds a launch. DESIGN CHOICE (assumption log 31). -/
def Bundle.kernelLaunch (b : Bundle) : Option Nat := firstSome Sub.launch b.subs

/-- The raw command of a copy program (R386): any level but the die's ends in fault-command. A post names a grid
barrier of the launch; a block's or a gang's does not exist. DESIGN CHOICE (assumption log 31). -/
def programCopy (base : CopyCmd) (ws : List Word) : CopyCmd :=
  let bar := fun (n : BarName) => match n.scope with
    | .grid => BarId.grid base.launch n.ix.toNat
    | .block => .block base.launch 16
    | .gang => .gang base.launch base.gang 16
  match rawCopy bar base ws with
  | none => base.ended 0xC
  | some c => if c.level == .die && (c.kind != .move || c.dst == .die) then c else base.ended 0xC

/-- A command of a copy program, as its die's engine takes it. -/
def programBase (bid sub die job : Nat) (launch : Option Nat) : CopyCmd :=
  { owner := .program bid sub, core := 128 + die, engine := 8, job := job, launch := launch.getD 0, block := none
    gang := 0, kind := .ld, level := .core, dst := .core, tensor := 0, coords := [], image := 0, sswz := 0, move := []
    post := none, tag := 0, rtag := 0, handler := false, desc := [], started := false, total := 0, next := 0, paid := 0
    waitObj := 0, waitGran := [], clean := 0, code := none, elem := 0xFFFFFFFF, posted := false }

/-- COPY_PROGRAM_RUN (R260, R386): one of the die's engines, which is a free value (assumption log 55), takes the
program's next command, up to eight at once; a command that cannot be read, or without a kernel launch, ends in
fault-command. -/
def State.copyProgram (s : State) (bid sub : Nat) : State :=
  match s.sub? bid sub 1 with
  | none => s
  | some (b, x) =>
    let flying := (s.ops.copies.filter fun e => e.2.owner = .program bid sub).length
    let next := wnat x.words 4 - x.left + flying
    if 8 ≤ flying || wnat x.words 4 ≤ next then s
    else
      let base := programBase bid sub (wnat x.words 1) b.job b.kernelLaunch
      let c := match b.kernelLaunch, s.objWords b.job (bitsOf (wnat x.words 2) 0 16) (wnat x.words 3 + 32 * next) 8 with
        | some _, some ws => programCopy base ws
        | _, _ => base.ended 0xC
      let (op, s) := s.fresh
      s.setOps { s.ops with copies := Tab.set s.ops.copies op { c with engine := 8 + Config.dieEngine op % 8 } }

def execCopyProgramRun (bundle sub : Nat) (s : State) : Res := .next (s.copyProgram bundle sub)

/-- A region image loaded into a slot of each core of a list (R386); whether one refused. No group issues the load, so no
region table entry of a kernel is there to be compared with (R329): DESIGN CHOICE (assumption log 35). -/
def State.loadEverywhere (s : State) (job slot : Nat) (rd : Nat → Option (List Byte)) : List Nat → Bool × State
  | [] => (false, s)
  | c :: cs =>
    let r := s.checkImage c slot job (2 ^ 48) rd fun _ => false
    let s := if r.1 = 0 then s.installImage c slot job r.2 else s
    let rest := s.loadEverywhere job slot rd cs
    (r.1 ≠ 0 || rest.1, rest.2)

/-- SURROGATE_LOAD_SUBLAUNCH (R386). -/
def State.surrogateSub (s : State) (bid sub : Nat) : State :=
  match s.sub? bid sub 2 with
  | none => s
  | some (b, x) =>
    let rd := fun k => s.objBytes b.job (bitsOf (wnat x.words 1) 0 16) (wnat x.words 2 + 64 * k) 64
    let mask := ((Tab.get? s.work.jobs b.job).map Job.coreMask).getD 0#128
    let (bad, s) := s.loadEverywhere b.job (bitsOf (wnat x.words 3) 0 6) rd
      ((List.range 128).filter fun c => mask.getLsbD c)
    s.endSub bid sub (if bad then stSurrogate else 0)

def execSurrogateLoadSublaunch (bundle sub : Nat) (s : State) : Res := .next (s.surrogateSub bundle sub)

/-- COLLECTIVE_SUBLAUNCH (R431). -/
def State.collectiveSub (s : State) (bid sub : Nat) : State :=
  match s.sub? bid sub 3 with
  | none => s
  | some (b, x) =>
    if s.collFull then s
    else
      let w := wnat x.words 0
      let c := rawColl (.program bid sub) b.job 0 (bitsOf w 24 4) (bitsOf w 22 2) (bitsOf w 0 22) ((x.words.drop 1).take 6)
      let (op, s) := s.fresh
      (s.updSub bid sub fun x => { x with running := false }).enterColl op c

def execCollectiveSublaunch (bundle sub : Nat) (s : State) : Res := .next (s.collectiveSub bundle sub)

/-! ### Retirement (R381 to R383) -/

/-- A bundle's status and the sub-launch that gave it: the first in record order that is not ok (R383). -/
def Bundle.status (b : Bundle) : Nat × Nat :=
  if b.malformed then (stMalformed, 0)
  else if b.cancelled then (stCancelled, 0)
  else
    let st := fun k => ((b.subs[k]?).bind Sub.status).getD 0
    match (List.range b.subs.length).find? fun k => st k ≠ 0 with
    | some k => (st k, k)
    | none => (0, 0)

/-- All sub-launches have completed and every write of the bundle is performed (R382). -/
def State.bundleDone (s : State) (bid : Nat) (b : Bundle) : Bool :=
  b.malformed || b.cancelled ||
    (b.admitted && b.subs.all (fun x => x.status.isSome) &&
      s.ops.sfq.all fun e => !(s.launchesOf bid).any fun l => l.1 = e.2.launch)

/-- The completion record (R383). -/
def State.completion (s : State) (bid : Nat) (b : Bundle) : List Word :=
  let late := sumNat ((s.launchesOf bid).map fun e => e.2.late)
  [loWord (b.status.1 * 2 ^ 28 + b.status.2 * 2 ^ 16 + b.bid), loWord (min 0xFFFFFFFF late), loWord s.now, hiWord s.now]

/-- The record is written to the memory its queue's ring lies in. DESIGN CHOICE (assumption log 41). -/
def State.putRecord (s : State) (b : Bundle) (ws : List Word) : State :=
  let bs := wordsToBytes ws
  if ((s.sq? b.port b.queue).map Sq.host).getD false then s.hostWrite b.port b.record bs
  else if s.portRange b.port b.record 16 then s.rootWrite b.record ((List.range 16).map fun k => (k, bs.getD k 0#8))
  else s

/-- One successor hears of a retirement (R381, R383). -/
def State.tellSuccessor (s : State) (job : Nat) (cancel : Bool) (id : Nat) : State :=
  match s.pendingBundle job id with
  | none => s.updJob job fun j => { j with credits := j.credits ++ [(id, cancel)] }
  | some (n, _) => s.updBundle n fun x =>
      if x.count = 0 then x else if cancel then { x with cancelled := true } else { x with count := x.count - 1 }

/-- BUNDLE_RETIRE (R382): the record, the vector, then the successors; it waits while the job's credits would exceed
1,024. -/
def State.bundleRetire (s : State) (bid : Nat) : State :=
  match Tab.get? s.work.bundles bid with
  | none => s
  | some b =>
    let s1 := s.setWork { s.work with bundles := Tab.del s.work.bundles bid }
    let missing := b.succs.filter fun i => (s1.pendingBundle b.job i).isNone
    let held := ((Tab.get? s.work.jobs b.job).map fun j => j.credits.length).getD 0
    if !s.bundleDone bid b || (!missing.isEmpty && decide (1024 < held + missing.length)) then s
    else
      let s1 := (s1.releaseViews bid).putRecord b (s.completion bid b)
      let s1 := match b.irq with
        | some v => s1.updPort b.port fun p => p.raise v
        | none => s1
      let cancel := b.stop && b.status.1 ≠ 0
      let s1 := b.succs.foldl (fun (s : State) i => s.tellSuccessor b.job cancel i) s1
      s1.setWork { s1.work with launches := Tab.keep s1.work.launches fun _ l => l.bundle ≠ bid }

def execBundleRetire (bundle : Nat) (s : State) : Res := .next (s.bundleRetire bundle)

end Sys2Proof.Machine
end

