-- ==== Sys2Proof/Machine/Debug.lean ====
section
/-!
DEFINITION. The debug instructions of a trap handler (R367 to R374): breakpoints, watchpoints, single step, reading
and writing a group's registers and state, and barrier records.
-/

namespace Sys2Proof.Machine

/-! ### Status words (R367) -/

/-- The debug status codes. -/
def dbOk : Nat := 0
def dbGone : Nat := 1
def dbInvalid : Nat := 2
def dbRefused : Nat := 3
def dbUntrapped : Nat := 4

def dbStatus (code : Nat) : Word := loWord (code * 2 ^ 28)

/-- A status word is sent to sd. -/
def dbSend (s : State) (gid : Nat) (g : Group) (d : Reg) (code : Nat) : Eff :=
  let (s, g) := s.sendVals gid g (g.dest d 0 fun _ => dbStatus code)
  doneG s gid g .seq

/-- A value and its status are sent to sd and sd + 1; without a value sd is unstated (assumption log 12). -/
def dbSendVal (s : State) (gid : Nat) (g : Group) (d : Reg) (code : Nat) (v : Option Word) : Eff :=
  let w := v.getD (Config.unstated s.free)
  let s := if v.isNone then { s with free := s.free + 1 } else s
  let (s, g) := s.sendVals gid g ((g.dest d 0 fun _ => w) ++ g.dest d 1 fun _ => dbStatus code)
  doneG s gid g .seq

/-! ### BPSET (R368, R371) -/

/-- A word a breakpoint may stand on: inside the kernel's code, no clause header, in no data clause. -/
def Kernel.breakable (k : Kernel) (w : Nat) : Bool :=
  let h := maxNat (k.headers.filter fun x => decide (x ≤ w))
  decide (w < k.code.length) && !k.headers.contains w && k.headers.contains h && hdrClass (k.code.getD h 0#32) ≠ 6

def bpsetEff (d a : Reg) (k : BitVec 3) (s : State) (gid : Nat) (g : Group) (_cl : Clause) : Eff :=
  let w := (g.sval a 0).toNat
  let job := s.jobOf g
  if g.active == 0#64 then doneG s gid g .seq
  else if !w.testBit 31 then
    dbSend (s.updJob job fun j => { j with comparators := Tab.del j.comparators k.toNat }) gid g d dbOk
  else if ((s.launch? g).map fun l => l.kernel.breakable (bitsOf w 0 18)).getD false then
    let c : Comparator :=
      ⟨g.launch, w.testBit 30, bitsOf w 0 18, g.sval a 1, bitsOf (g.sval a 2).toNat 0 8,
        maskWords (g.sval a 3) (g.sval a 4)⟩
    dbSend (s.updJob job fun j => { j with comparators := Tab.set j.comparators k.toNat c }) gid g d dbOk
  else dbSend s gid g d dbRefused

def execBpset (d a : Reg) (k : BitVec 3) (s : State) : Res := issue (.bpset d a k) (bpsetEff d a k) s

/-! ### WPSET (R369) -/

/-- The range of a watchpoint breaks its rules or leaves the span. -/
def watchRangeBad (d : Desc) (off len : Nat) : Bool :=
  off % 16 ≠ 0 || len % 16 ≠ 0 || len < 16 || 4096 < len || d.span < off + len

/-- The unit of a core belongs to another job (R371). -/
def State.foreignUnit (s : State) (job core k : Nat) : Bool :=
  (((Tab.get? s.cores core).bind fun c => Tab.get? c.watch k).bind fun u =>
    (Tab.get? s.groups u.group).map fun g => decide (s.jobOf g ≠ job)).getD false

/-- A unit of another job is never reached (R371): clearing it changes nothing, setting it is refused. DESIGN CHOICE
(assumption log 36). -/
def wpsetEff (d a : Reg) (k : BitVec 2) (s : State) (gid : Nat) (g : Group) (_cl : Clause) : Eff :=
  let w := (g.sval a 0).toNat
  let off := (g.sval a 1).toNat + bitsOf (g.sval a 2).toNat 0 16 * 2 ^ 32
  let m := (g.sval a 3).toNat
  if g.active == 0#64 then doneG s gid g .seq
  else if !w.testBit 31 then
    dbSend (if s.foreignUnit (s.jobOf g) g.core k.toNat then s
      else s.updCore g.core fun c => { c with watch := Tab.del c.watch k.toNat }) gid g d dbOk
  else
    let (t, s) := s.desc (some gid) (dieOf g.core) (s.jobOf g) (bitsOf w 0 12)
    match t with
    | none => dbSend s gid g d dbRefused
    | some t =>
      if t.space ≠ 0 || t.tagged || s.foreignUnit (s.jobOf g) g.core k.toNat then dbSend s gid g d dbRefused
      else if watchRangeBad t off (bitsOf m 0 16) then dbSend s gid g d dbInvalid
      else
        let u : Watch :=
          ⟨gid, BitVec.ofNat 5 (bitsOf w 16 5), t.obj, t.base, t.swz, off, bitsOf m 0 16, BitVec.ofNat 16 (bitsOf m 16 16)⟩
        dbSend (s.updCore g.core fun c => { c with watch := Tab.set c.watch k.toNat u }) gid g d dbOk

def execWpset (d a : Reg) (k : BitVec 2) (s : State) : Res := issue (.wpset d a k) (wpsetEff d a k) s

/-! ### Targets (R372) -/

/-- The launch a target word names: the issuing group's own, or the job's running one with a number (R372, R389). One that
is not admitted yet has no number. -/
def State.dbLaunch (s : State) (g : Group) (n : Nat) : Option Nat :=
  if n = 0xFFFF then some g.launch
  else (s.work.launches.find? fun e => e.2.job = s.jobOf g && e.2.admitted && e.2.number = n && e.2.status.isNone && !e.2.retired).map
    Prod.fst

/-- The group that two target words name, none where there is none. With 0xFFFFFFFF the second word is not looked at. DESIGN
CHOICE (assumption log 36). -/
def State.dbTarget (s : State) (gid : Nat) (g : Group) (blk grp : Word) : Option Nat :=
  if blk = 0xFFFFFFFF#32 then some gid
  else match s.dbLaunch g (bitsOf grp.toNat 16 16) with
    | none => none
    | some l => (s.groups.find? fun e =>
        e.2.launch = l && !e.2.done && e.2.recov.isNone && e.2.gix = bitsOf grp.toNat 0 4 &&
          ((s.block? e.2).map Block.index) = some blk.toNat).map Prod.fst

/-- A step may be armed in the launch of a group: it has a handler (R356). -/
def State.steppable (s : State) (gid : Nat) : Bool :=
  (((Tab.get? s.groups gid).bind fun g => s.launch? g).bind Launch.handler).isSome

/-- STEP (R372): a one-shot arm. -/
def stepEff (arm : Bool) (d a : Reg) (s : State) (gid : Nat) (g : Group) (_cl : Clause) : Eff :=
  if g.active == 0#64 then doneG s gid g .seq
  else match s.dbTarget gid g (g.sval a 0) (g.sval a 1) with
    | none => dbSend s gid g d dbGone
    | some t =>
      if arm && !s.steppable t then dbSend s gid g d dbRefused
      else
      let s := s.updGroup t fun x => { x with step := arm }
      dbSend s gid ((Tab.get? s.groups gid).getD g) d dbOk

def execStepArm (d a : Reg) (s : State) : Res := issue (.stepArm d a) (stepEff true d a) s

def execStepOff (d a : Reg) (s : State) : Res := issue (.stepOff d a) (stepEff false d a) s

/-! ### The program state of a target (R357, R373) -/

/-- The program's lane state: set aside in trap-handler mode. -/
def Group.progLanes (t : Group) : LaneState :=
  match t.trap with
  | some f => if f.entered then f.lanes else t.lanes
  | none => t.lanes

def Group.setProgLanes (t : Group) (l : LaneState) : Group :=
  match t.trap with
  | some f => if f.entered then { t with trap := some { f with lanes := l } } else { t with lanes := l }
  | none => { t with lanes := l }

/-- The program's vector and scalar registers: the saved ones stand in the save area. -/
def Group.progV (t : Group) (r lane : Nat) : Word :=
  match t.trap with
  | some f => if f.entered && t.savedReg (.v r) then Tab.getD f.sv (r * 64 + lane) 0#32 else t.rdV r lane
  | none => t.rdV r lane

def Group.progS (t : Group) (r : Nat) : Word :=
  match t.trap with
  | some f => if f.entered && t.savedReg (.s r) then Tab.getD f.ss r 0#32 else t.rdS r
  | none => t.rdS r

def Group.setProgV (t : Group) (r lane : Nat) (w : Word) : Group :=
  match t.trap with
  | some f =>
    if f.entered && t.savedReg (.v r) then { t with trap := some { f with sv := Tab.set f.sv (r * 64 + lane) w } }
    else t.land (.v r lane) w
  | none => t.land (.v r lane) w

def Group.setProgS (t : Group) (r : Nat) (w : Word) : Group :=
  match t.trap with
  | some f =>
    if f.entered && t.savedReg (.s r) then { t with trap := some { f with ss := Tab.set f.ss r w } }
    else t.land (.s r) w
  | none => t.land (.s r) w

/-- Whether a register of the program is pending (R127, R333). -/
def Group.progPend (t : Group) (r : PReg) : Bool := t.pend.any fun e => e.reg = r && e.saved == (t.inHandler && t.savedReg r)

/-- Whether a target waits at a barrier, so that it reaches no clause boundary until the barrier releases it. -/
def State.atBarrier (s : State) (t : Group) (cl : Clause) : Bool :=
  match wordStep (s.fetch t cl) with
  | .barw a b => (Tab.get? t.arrivals (arrKey b)).map (fun n => decide (n % 2 = 1)) = some ((t.sval a 0).getLsbD 8)
  | .bars b => t.barsTok.isSome && Tab.has t.arrivals (arrKey b)
  | _ => false

/-- A target that runs in the middle of a clause: the access waits for the clause's end (R373), but not where the
target waits at a barrier, whose record the access may clear (DEDUCED, assumption log 13). -/
def State.dbHeld (s : State) (t : Group) : Bool :=
  !t.inHandler && t.res = .held && (match t.clause with
    | some cl => !s.atBarrier t cl
    | none => false)

/-- The record of a trapped target; its resumable bit for a park deadlock follows the set-aside lanes (R360). -/
def Group.dbRecord (t : Group) : Option (List Word) :=
  t.trap.map fun f => { f with lanes := t.progLanes }.current

/-- The access of a target is over: it runs on (R373). -/
def State.unwant (s : State) (gid k : Nat) : State :=
  s.updGroup k fun t => if t.wantedBy = some gid then { t with wantedBy := none } else t

/-- An access waits at its word; a running target, between clauses too, is asked to stop at its next clause boundary
and is not ready meanwhile (R373). -/
def State.dbAwait (s : State) (gid k : Nat) (t : Group) : Eff :=
  if t.inHandler || t.res ≠ .held || t.wantedBy = some gid then .wait
  else .done (s.updGroup k fun t => { t with wantedBy := some gid }) .gone []

/-! ### Selectors (R373) -/

/-- A debug selector. -/
structure Selector where
  space : Nat
  ix : Nat
  high : Bool
  lane : Nat
  deriving DecidableEq, Repr

def Selector.read (w : Word) : Selector :=
  ⟨bitsOf w.toNat 28 4, bitsOf w.toNat 8 16, w.getLsbD 6, bitsOf w.toNat 0 6⟩

/-- The special a selector names. -/
def Selector.special (x : Selector) : Option Special :=
  if x.ix < 4096 then Special.ofBits? (BitVec.ofNat 12 x.ix) else none

/-- The barrier a selector's index names. -/
def Selector.bar (x : Selector) : Option BarName := if x.ix < 256 then BarName.ofBits? (BitVec.ofNat 8 x.ix) else none

/-- The status of a selector no target answers: a reserved space, an index beyond its range, a lane the group has
not, a record of a target that is not trapped. DEDUCED (assumption log 36). -/
def State.selectorBad (s : State) (t : Group) (x : Selector) : Option Nat :=
  let bad := fun (b : Bool) => if b then some dbInvalid else none
  let noLane := decide (t.width ≤ x.lane)
  match x.space with
  | 0x0 => bad (decide (t.vregs ≤ x.ix) || noLane)
  | 0x1 => bad (decide (t.sTop ≤ x.ix))
  | 0x2 | 0x3 | 0x4 => bad (x.ix ≠ 0 || noLane)
  | 0x5 => bad (decide (16 ≤ x.ix))
  | 0x6 => bad (decide (8 ≤ x.ix) || noLane)
  | 0x7 =>
    match x.special with
    | none => some dbInvalid
    | some sp => bad (sp.perLane && noLane)
  | 0x8 => if t.trap.isNone then some dbUntrapped else bad (decide (24 ≤ x.ix))
  | 0x9 => bad (x.ix ≠ 0)
  | 0xA => bad (decide (128 ≤ x.ix))
  | 0xB =>
    match x.bar with
    | none => some dbInvalid
    | some b => bad (decide (s.barCount t b.scope ≤ b.ix.toNat))
  | _ => some dbInvalid

/-- The registers of a selector that must not be pending (R127, R333). -/
def Selector.pregs (x : Selector) : List PReg :=
  match x.space with
  | 0x0 => [.v x.ix]
  | 0x1 => [.s x.ix]
  | 0x2 => (List.range 16).map PReg.p
  | _ => []

/-- The state word of a lane (space 0x4). -/
def laneWord (t : Group) (l : LaneState) (i : Nat) : Word :=
  let park := (l.parked.find? fun e => e.2.getLsbD i).map Prod.fst
  let cond := if l.active.getLsbD i then 0 else if park.isSome then 1 else if l.exited.getLsbD i then 2 else 3
  loWord (Tab.getD l.lage i 0 * 2 ^ 16 + park.getD 0 * 2 ^ 4 + (if t.helpers.getLsbD i then 4 else 0) + cond)

/-- What DBRD reads of a target. -/
def State.dbRead (s : State) (t : Group) (x : Selector) : Word :=
  let l := t.progLanes
  match x.space with
  | 0x0 => t.progV x.ix x.lane
  | 0x1 => t.progS x.ix
  | 0x2 => loWord (sumNat ((List.range 16).map fun k => if (Tab.getD l.p k 0#64).getLsbD x.lane then 2 ^ k else 0))
  | 0x3 => loWord (Tab.getD l.lpc x.lane 0)
  | 0x4 => laneWord t l x.lane
  | 0x5 => loWord ((Tab.getD l.j (x.ix / 2) 0#64).toNat / 2 ^ (32 * (x.ix % 2)))
  | 0x6 => Tab.getD l.x (x.ix * 64 + x.lane) 0#32
  | 0x7 =>
    match x.special with
    | some sp => loWord (specialValue s t l (Tab.getD l.lpc x.lane 0) sp x.lane / 2 ^ (if x.high && sp.regs = 2 then 32 else 0))
    | none => 0#32
  | 0x8 => recWord (t.dbRecord.getD []) x.ix
  | 0x9 =>
    loWord (t.cnt cLD + t.cnt cST * 2 ^ 6 + t.cnt cCP * 2 ^ 12 + t.cnt cTL * 2 ^ 16 + t.cnt cSG * 2 ^ 20 +
      t.cnt cCL * 2 ^ 24)
  | 0xA => Tab.getD t.b x.ix 0#32
  | _ =>
    match x.bar.bind fun b => Tab.get? t.arrivals (arrKey b) with
    | some n => if n % 2 = 1 then 3#32 else 2#32
    | none => 0#32

/-! ### Writing (R373) -/

/-- An edit of a lane's state word; none where the Write column does not allow it. The age of an absent lane stays 0
(R88). Bits of the word that no edit uses are not looked at. DESIGN CHOICE (assumption log 36). -/
def laneEdit (t : Group) (l : LaneState) (i : Nat) (w : Word) : Option LaneState :=
  let old := (laneWord t l i).toNat
  let v := w.toNat
  let c := bitsOf old 0 2
  let age := bitsOf v 16 12
  if v.testBit 2 ≠ old.testBit 2 then none
  else match c, bitsOf v 0 2 with
    | 0, 0 => some { l with lage := Tab.set l.lage i age }
    | 0, 1 => some { l with
        active := setBit l.active i false
        parked := Tab.set l.parked (bitsOf v 4 3) (setBit (Tab.getD l.parked (bitsOf v 4 3) 0#64) i true)
        lage := Tab.set l.lage i age }
    | 1, 0 => some { l with
        active := setBit l.active i true
        parked := Tab.keep (Tab.mapVals l.parked fun _ m => setBit m i false) fun _ m => m != 0#64
        lage := Tab.del l.lage i }
    | 1, 1 => if bitsOf v 4 3 = bitsOf old 4 3 then some { l with lage := Tab.set l.lage i age } else none
    | 2, 2 => some { l with lage := Tab.set l.lage i age }
    | 3, 3 => if age = 0 then some l else none
    | _, _ => none

/-- A write of sr.repeat; `busy` says that an iteration is in progress. -/
def repeatEdit (l : LaneState) (busy : Bool) (m : Nat) : Option LaneState :=
  if l.rep = 0 then (if m = 0 then some l else none)
  else if 255 < m then none
  else if m ≠ 0 then some { l with rep := m, repN := l.repN - l.rep + m }
  else if busy then some { l with rep := 1, repN := l.repN - l.rep + 1 }
  else some { l with rep := 0, repN := 0 }

/-- Whether an iteration of a repeat is in progress in the program. -/
def Group.midRepeat (t : Group) : Bool :=
  match (match t.trap with
    | some f => f.clause
    | none => t.clause) with
  | some cl => t.progLanes.rep ≠ 0 && cl.header = t.progLanes.repAddr
  | none => false

/-- A write of a special: the read-write ones, sr.repeat, and sr.ctag to 0 or a live tag. -/
def State.specialEdit (s : State) (t : Group) (sp : Special) (w : Word) : Option Group :=
  let l := t.progLanes
  match sp with
  | .repeatCount => (repeatEdit l t.midRepeat w.toNat).map t.setProgLanes
  | .ctag =>
    if w = 0#32 || (decide (w.toNat < 65536) && s.tagLive (s.jobOf t) w.toNat) then
      some (t.setProgLanes { l with ctag := w.extractLsb' 0 16 })
    else none
  | sp =>
    if sp.writable then
      let (l', b) := writeSpecial t l sp w
      some { t.setProgLanes l' with bounds := b }
    else none

/-- A write of a trap record word. -/
def recordEdit (t : Group) (k : Nat) (w : Word) : Option Group :=
  match t.trap with
  | none => none
  | some f =>
    if k = 6 || k = 7 || (k = 3 && (w ^^^ recWord f.record 3) &&& 0xFFFFF0FF#32 == 0#32) then
      some { t with trap := some { f with record := f.record.set k w } }
    else none

/-- What DBWR makes of a target; none where the Write column refuses it. -/
def State.dbWrite (s : State) (t : Group) (x : Selector) (w : Word) : Option Group :=
  let l := t.progLanes
  match x.space with
  | 0x0 => some (t.setProgV x.ix x.lane w)
  | 0x1 => some (t.setProgS x.ix w)
  | 0x2 => some (t.setProgLanes { l with p := (List.range 16).foldl (fun p k =>
      Tab.set p k (setBit (Tab.getD p k 0#64) x.lane (w.getLsbD k))) l.p })
  | 0x3 =>
    if (l.active.getLsbD x.lane || l.parked.any fun e => e.2.getLsbD x.lane) && s.legalTarget t w.toNat then
      some (t.setProgLanes { l with lpc := Tab.set l.lpc x.lane w.toNat })
    else none
  | 0x4 => (laneEdit t l x.lane w).map t.setProgLanes
  | 0x5 =>
    let k := x.ix / 2
    let sh := 32 * (x.ix % 2)
    let j := Tab.getD l.j k 0#64
    let j' := (j &&& ~~~(BitVec.ofNat 64 (0xFFFFFFFF * 2 ^ sh))) ||| BitVec.ofNat 64 (w.toNat * 2 ^ sh)
    some (t.setProgLanes (evalRelease { l with j := Tab.set l.j k j' } k))
  | 0x6 => some (t.setProgLanes { l with x := Tab.set l.x (x.ix * 64 + x.lane) w })
  | 0x7 => x.special.bind fun sp => s.specialEdit t sp w
  | 0x8 => recordEdit t x.ix w
  | 0x9 => none
  | 0xA => some { t with b := Tab.set t.b x.ix w }
  | _ =>
    if w = 0#32 then x.bar.map fun b => { t with arrivals := Tab.del t.arrivals (arrKey b) } else none

/-- The segments that an access reaches, in a swapped target's image or in its trap save area, where the record stands too
(R357, R373). -/
def Selector.segs (x : Selector) (k : Nat) (t : Group) : List (SramArray × Nat) :=
  match x.space with
  | 0x0 => t.homeSegs k (t.inHandler && t.savedReg (.v x.ix)) [.v x.ix]
  | 0x1 => t.homeSegs k (t.inHandler && t.savedReg (.s x.ix)) [.s x.ix]
  | 0x8 => t.homeSegs k t.inHandler []
  | _ => []

/-- An access waits for its target: for the target's clause boundary, for a pending register (R127, R333), or for a segment
in retention (R187). It does not wait for fixed-latency results on their way, which R37 has land for other causes only: DESIGN
CHOICE (assumption log 36). -/
def State.dbWaits (s : State) (k : Nat) (t : Group) (x : Selector) : Bool :=
  s.dbHeld t || x.pregs.any t.progPend || s.asleep (x.segs k t)

/-- DBRD (R373). An uncorrectable error in the image or the save area that it reads, or that DBWR writes, has no effect. DESIGN
CHOICE (assumption log 52). -/
def dbrdEff (d a : Reg) (s : State) (gid : Nat) (g : Group) (_cl : Clause) : Eff :=
  let x := Selector.read (g.sval a 0)
  if g.active == 0#64 then doneG s gid g .seq
  else match (s.dbTarget gid g (g.sval a 1) (g.sval a 2)).bind fun k => (Tab.get? s.groups k).map fun t => (k, t) with
    | none => dbSendVal s gid g d dbGone none
    | some (k, t) =>
      match s.selectorBad t x with
      | some code => dbSendVal (s.unwant gid k) gid g d code none
      | none =>
        if s.dbWaits k t x then s.dbAwait gid k t
        else dbSendVal ((s.unwant gid k).touch (x.segs k t)) gid g d dbOk (some (s.dbRead t x))

def execDbrd (d a : Reg) (s : State) : Res := issue (.dbrd d a) (dbrdEff d a) s

/-- DBWR (R373). -/
def dbwrEff (d a b : Reg) (s : State) (gid : Nat) (g : Group) (_cl : Clause) : Eff :=
  let x := Selector.read (g.sval a 0)
  if g.active == 0#64 then doneG s gid g .seq
  else match (s.dbTarget gid g (g.sval a 1) (g.sval a 2)).bind fun k => (Tab.get? s.groups k).map fun t => (k, t) with
    | none => dbSend s gid g d dbGone
    | some (k, t) =>
      match s.selectorBad t x with
      | some code => dbSend (s.unwant gid k) gid g d code
      | none =>
        if s.dbWaits k t x then s.dbAwait gid k t
        else match s.dbWrite t x (g.sval b 0) with
          | none => dbSend (s.unwant gid k) gid g d dbRefused
          | some t' =>
            let s := ((s.setGroup k t').unwant gid k).touch (x.segs k t)
            dbSend s gid ((Tab.get? s.groups gid).getD g) d dbOk

def execDbwr (d a b : Reg) (s : State) : Res := issue (.dbwr d a b) (dbwrEff d a b) s

/-! ### Barrier records (R336, R374) -/

/-- The barrier of the issuing group that a word names, none beyond .bars. -/
def State.dbBar (s : State) (g : Group) (w : Word) : Option BarName :=
  (BarScope.ofBits? (w.extractLsb' 6 2)).bind fun sc =>
    if s.barCount g sc ≤ bitsOf w.toNat 0 4 then none else some ⟨sc, w.extractLsb' 0 4⟩

/-- The map field of a record: reserved for a block barrier. -/
def Barrier.mapField (b : Barrier) : BarId → Nat
  | .block _ _ => 0
  | .gang _ _ _ | .grid _ _ => b.map

/-- A word of a barrier's record. An arrived count beyond its 16 bits carries into the expected field of word 0:
DESIGN CHOICE (assumption log 62). -/
def Barrier.word (b : Barrier) (id : BarId) (k : Nat) : Word :=
  match k with
  | 0 => loWord (b.expected * 2 ^ 16 + b.arrived)
  | 1 => loWord b.expbytes
  | 2 => loWord b.posted
  | _ =>
    loWord ((if b.gen then 2 ^ 31 else 0) + (if b.releasing then 2 ^ 30 else 0) + (if b.held then 2 ^ 29 else 0) +
      b.mapField id * 2 ^ 16 + b.members)

/-- Whether a barrier may take a phase map entry: entry 0 or the one its launch loaded (R336). -/
def State.mapOk (s : State) (g : Group) (m : Nat) : Bool :=
  m = 0 || ((s.launch? g).map fun l => l.ownMap.isSome && l.map = m).getD false

/-- What BARWR makes of a barrier; none for status 0x3. -/
def State.barEdit (s : State) (g : Group) (id : BarId) (b : Barrier) (k : Nat) (w : Word) : Option Barrier :=
  if b.held then none
  else match k with
    | 0 => some { b with expected := bitsOf w.toNat 16 16, arrived := bitsOf w.toNat 0 16 }
    | 1 => some { b with expbytes := w.toNat }
    | 2 => some { b with posted := w.toNat }
    | _ =>
      let m := bitsOf w.toNat 16 4
      if (w ^^^ b.word id 3) &&& 0xFFF0FFFF#32 != 0#32 then none
      else if m = b.mapField id then some b
      else match id with
        | .block _ _ => none
        | .gang _ _ _ | .grid _ _ => if !b.releasing && s.mapOk g m then some { b with map := m } else none

/-- BARRD (R374). -/
def barrdEff (d a : Reg) (s : State) (gid : Nat) (g : Group) (_cl : Clause) : Eff :=
  if g.active == 0#64 then doneG s gid g .seq
  else
    let w := g.sval a 0
    match (s.dbBar g w).map (s.barId g) with
    | none => dbSendVal s gid g d dbInvalid none
    | some id =>
      match s.bar? id with
      | none => dbSendVal s gid g d dbInvalid none
      | some b => dbSendVal s gid g d dbOk (some (b.word id (bitsOf w.toNat 16 2)))

def execBarrd (d a : Reg) (s : State) : Res := issue (.barrd d a) (barrdEff d a) s

/-- BARWR (R374): the unit then evaluates the barrier. -/
def barwrEff (d a b : Reg) (s : State) (gid : Nat) (g : Group) (_cl : Clause) : Eff :=
  if g.active == 0#64 then doneG s gid g .seq
  else
    let w := g.sval a 0
    match (s.dbBar g w).map (s.barId g) with
    | none => dbSend s gid g d dbInvalid
    | some id =>
      match s.bar? id with
      | none => dbSend s gid g d dbInvalid
      | some br =>
        match s.barEdit g id br (bitsOf w.toNat 16 2) (g.sval b 0) with
        | none => dbSend s gid g d dbRefused
        | some br' =>
          let s := (s.setBar id br').evalBar id
          dbSend s gid ((Tab.get? s.groups gid).getD g) d dbOk

def execBarwr (d a b : Reg) (s : State) : Res := issue (.barwr d a b) (barwrEff d a b) s

end Sys2Proof.Machine
end

