-- ==== Sys2Proof/Machine/Exchange.lean ====
section
/-!
DEFINITION. The exchanges between the lanes of a group (R159 to R166): swizzles, shifts, votes, reductions and the
scan, with the latency of exchanges (R35).
-/

namespace Sys2Proof.Machine

/-- Whether a lane is neither absent nor beyond the group's lanes (R87). -/
def Group.present (g : Group) (lane : Nat) : Bool :=
  lane < g.width &&
    (g.lanes.active.getLsbD lane || g.lanes.exited.getLsbD lane || g.lanes.parked.any fun e => e.2.getLsbD lane)

/-- Peer (R159): a register of another lane; a scalar register is itself. -/
def Group.peer (g : Group) (r : Reg) (j : Nat) : Word :=
  match r with
  | .s _ => g.src r 0 j
  | .v _ => if g.present j then g.src r 0 j else 0#32

/-- Writes of a vector destination in those lanes of Exec that a test names. -/
def Group.destWhere (g : Group) (d : Reg) (p : Nat → Bool) (f : Nat → Word) : List (Target × Word) :=
  ((maskList g.exec).filter p).map fun i => (.v (g.phys d 0) i, f i)

/-- The first lane of a lane's quad (R160). -/
def quadOf (i : Nat) : Nat := i - i % 4

/-- What a lane contributes to a group-wide operation (R164): helper lanes and lanes outside Exec the identity. -/
def Group.contrib (g : Group) (a : Reg) (ident : Word) : List Word :=
  (List.range g.width).map fun i => if g.active.getLsbD i then g.src a 0 i else ident

/-- One level of GREDF's tree (R165): each pair rounds to nearest even. -/
def redLevel : List Nat → List (Nat × FFlags)
  | a :: b :: t => addEven a b :: redLevel t
  | [a] => [(a, 0#5)]
  | [] => []

/-- GREDF's tree (R165), the sum with its flags; the fuel is the number of levels. -/
def redTree : Nat → List Nat → Nat × FFlags
  | 0, l => (l.headD 0, 0#5)
  | n + 1, l =>
    let lv := redLevel l
    let r := redTree n (lv.map Prod.fst)
    (r.1, lv.foldl (fun f e => f ||| e.2) r.2)

/-- The ballot of a predicate (R163). -/
def Group.ballot (g : Group) (pa : BitVec 4) : Mask := g.active &&& g.rdP pa.toNat

/-- QSWZ (R160). -/
def execQswz (d a : Reg) (imm : BitVec 8) (s : State) : Res :=
  issue (.qswz d a imm) (aluEff latExchange d fun g i =>
    g.peer a (quadOf i + (imm.extractLsb' (2 * (i % 4)) 2).toNat)) s

/-- QBC (R160). -/
def execQbc (d a : Reg) (imm : BitVec 8) (s : State) : Res :=
  issue (.qbc d a imm) (aluEff latExchange d fun g i => g.peer a (quadOf i + imm.toNat)) s

/-- LSHUP (R161): vacated lanes keep d. -/
def execLshup (d a : Reg) (imm : BitVec 8) (s : State) : Res :=
  issue (.lshup d a imm) (fun s gid g _ =>
    doneG s gid (g.fixed (s.native g) latExchange
      (g.destWhere d (fun i => imm.toNat ≤ i) fun i => g.peer a (i - imm.toNat))) .seq) s

/-- LSHDN (R161): vacated lanes keep d. -/
def execLshdn (d a : Reg) (imm : BitVec 8) (s : State) : Res :=
  issue (.lshdn d a imm) (fun s gid g _ =>
    doneG s gid (g.fixed (s.native g) latExchange
      (g.destWhere d (fun i => i + imm.toNat < g.width) fun i => g.peer a (i + imm.toNat))) .seq) s

/-- LSHFX (R161). -/
def execLshfx (d a b : Reg) (s : State) : Res :=
  issue (.lshfx d a b) (aluEff latExchange d fun g i =>
    if (g.src b 0 i).toNat < g.width then g.peer a (g.src b 0 i).toNat else 0#32) s

/-- RDLANE (R48, R162): a lane at or beyond the group's width, or an absent one, yields 0, of a scalar source too, which
R159's helper returns for any lane. DEDUCED (assumption log 57). -/
def execRdlane (d a : Reg) (imm : BitVec 8) (s : State) : Res :=
  issue (.rdlane d a imm) (aluEff latExchange d fun g _ => if g.present imm.toNat then g.src a 0 imm.toNat else 0#32) s

/-- WRLANE (R162). -/
def execWrlane (d a : Reg) (imm : BitVec 8) (s : State) : Res :=
  issue (.wrlane d a imm) (fun s gid g _ =>
    doneG s gid (g.fixed (s.native g) latExchange
      (g.destWhere d (fun i => i = imm.toNat) fun _ => g.sval a 0)) .seq) s

/-- GBAL (R163). -/
def execGbal (d : Reg) (pa : BitVec 4) (s : State) : Res :=
  issue (.gbal d pa) (fun s gid g _ =>
    doneG s gid (g.fixed (s.native g) latExchange
      ((g.dest d 0 fun _ => loWord (g.ballot pa).toNat) ++ g.dest d 1 fun _ => hiWord (g.ballot pa).toNat)) .seq) s

/-- GREDI.add (R164). -/
def execGrediAdd (d a : Reg) (s : State) : Res :=
  issue (.grediAdd d a) (aluEff latExchange d fun g _ => (g.contrib a 0#32).foldl (· + ·) 0#32) s

/-- GREDI.min (R164). -/
def execGrediMin (d a : Reg) (s : State) : Res :=
  issue (.grediMin d a) (aluEff latExchange d fun g _ =>
    (g.contrib a 0x7FFFFFFF#32).foldl minI32 0x7FFFFFFF#32) s

/-- GREDI.max (R164). -/
def execGrediMax (d a : Reg) (s : State) : Res :=
  issue (.grediMax d a) (aluEff latExchange d fun g _ =>
    (g.contrib a 0x80000000#32).foldl maxI32 0x80000000#32) s

/-- GSCAN.add (R164): the inclusive prefix. -/
def execGscanAdd (d a : Reg) (s : State) : Res :=
  issue (.gscanAdd d a) (aluEff latExchange d fun g i =>
    ((g.contrib a 0#32).take (i + 1)).foldl (· + ·) 0#32) s

/-- GREDF.add's sum and flags (R165): −0 is the identity. -/
def gredf (g : Group) (a : Reg) : Nat × FFlags :=
  redTree (ceilLog2 g.width) ((g.contrib a 0x80000000#32).map BitVec.toNat)

/-- GREDF.add (R165). -/
def execGredfAdd (d a : Reg) (s : State) : Res :=
  issue (.gredfAdd d a) (fun s gid g _ =>
    let g' := g.fixed (s.native g) latExchange (g.dest d 0 fun _ => w32 (gredf g a).1)
    doneG s gid (g'.addFlags (if g.active == 0#64 then 0#5 else (gredf g a).2)) .seq) s

/-- GANY (R166). -/
def execGany (pd pa : BitVec 4) (s : State) : Res :=
  issue (.gany pd pa) (predEff latExchange pd fun g _ => g.ballot pa != 0#64) s

/-- GALL (R166). -/
def execGall (pd pa : BitVec 4) (s : State) : Res :=
  issue (.gall pd pa) (predEff latExchange pd fun g _ => g.ballot pa == g.active) s

end Sys2Proof.Machine
end

