-- ==== Sys2Proof/Machine/Power.lean ====
section
/-!
DEFINITION. Power, clocks and wear (R186, R187, R392, R401 to R416): BOOST and BOOSTREL, the boost arbiter, slice
ratios, limits, sensors, avoided cores, wear and retention.
-/

namespace Sys2Proof.Machine

/-! ### BOOST and BOOSTREL (R407 to R409) -/

/-- The clock of a cluster without boost, and the clock a falling cluster may not exceed (R403), in MHz. -/
def nominalMhz : Nat := 1300
def fallingMhz : Nat := 1450

def State.clusterAt (s : State) (c : Nat) : Cluster := (Tab.get? s.clusters c).getD Cluster.reset

/-- BOOST (R408, R409). -/
def boostEff (d : Reg) (imm : BitVec 16) (s : State) (gid : Nat) (g : Group) (_cl : Clause) : Eff :=
  if g.active == 0#64 then doneG s gid g .seq
  else
    let c := s.clusterAt (clusterOf g.core)
    let refused := c.ceil ≤ nominalMhz || Config.boostForbidden (s.jobOf g)
    let claim : Option Claim := if refused then none else some ⟨if imm = 0#16 then none else some imm.toNat⟩
    let code := if refused then 2 else if c.boost == .boosted then 0 else 1
    let (s, g) := s.sendVals gid { g with claim := claim } (g.dest d 0 fun _ => loWord (code * 2 ^ 28 + c.balance))
    doneG s gid g .seq

def execBoost (d : Reg) (imm : BitVec 16) (s : State) : Res := issue (.boost d imm) (boostEff d imm) s

/-- BOOSTREL (R408). -/
def boostrelEff (s : State) (gid : Nat) (g : Group) (_cl : Clause) : Eff :=
  doneG s gid (if g.active == 0#64 then g else { g with claim := none }) .seq

def execBoostrel (s : State) : Res := issue .boostrel boostrelEff s

/-! ### The boost arbiter (R403 to R406, R415) -/

/-- The boost ceiling at a fill of a domain's counter (R415). -/
def boostCeil (wear : Nat) : Nat :=
  let below := fun p => decide (wear * 100 < p * 2 ^ 56)
  if below 50 then 1600 else if below 70 then 1550 else if below 85 then 1500 else if below 95 then 1450 else nominalMhz

/-- The clock of a boost state under a ceiling (R403). -/
def boostMhz (b : BoostState) (ceil : Nat) : Nat :=
  match b with
  | .nominal => nominalMhz
  | .boosted => ceil
  | .falling => min fallingMhz ceil

/-- A claim's boundary: the imm16-th ends it (R408). DEDUCED (assumption log 37). -/
def Claim.tick (c : Claim) : Option Claim :=
  match c.left with
  | none => some c
  | some n => if n ≤ 1 then none else some ⟨some (n - 1)⟩

/-- A cluster is claiming (R404): a group of it holds a live claim while its job is not time-sliced out (R408). An evicted
group's claim counts on at the cluster it left. DESIGN CHOICE (assumption log 37). -/
def State.claiming (s : State) (c : Nat) : Bool :=
  s.groups.any fun e => clusterOf e.2.core = c && e.2.claim.isSome &&
    (match (Tab.get? s.work.jobs (s.jobOf e.2)).map Job.slice with
     | some (.out _) => false
     | _ => true)

/-- Steps 1 and 2 for one cluster; under emergency limiting a boosted one falls (R413). -/
def Cluster.stepDown (c : Cluster) (claims emergency : Bool) : Cluster :=
  match c.boost with
  | .nominal => c
  | .falling => { c with boost := .nominal }
  | .boosted =>
    if claims && !emergency && decide (1 ≤ c.balance) && decide (nominalMhz < c.ceil) then
      { c with balance := c.balance - 1 }
    else { c with boost := .falling }

/-- A cluster competes for a place at step 3. -/
def Cluster.competes (c : Cluster) (claims emergency : Bool) : Bool :=
  c.boost == .nominal && claims && !emergency && decide (1 ≤ c.balance) && decide (nominalMhz < c.ceil)

/-- Whether cluster j goes before cluster k at step 3. -/
def before (j k : Nat × Cluster) : Bool :=
  decide (k.2.balance < j.2.balance) || (j.2.balance = k.2.balance && decide (j.1 < k.1))

/-- Step 4 for a cluster that was nominal throughout. -/
def Cluster.earn (c : Cluster) : Cluster :=
  if c.refill = 3 then { c with refill := 0, balance := min 64 (c.balance + 1) } else { c with refill := c.refill + 1 }

/-- The arbitration of one boundary over the clusters. -/
def arbitrate (cs : Tab Cluster) (claims : Nat → Bool) (emergency : Bool) : Tab Cluster :=
  let mid := Tab.mapVals cs fun k c => c.stepDown (claims k) emergency
  let free := 16 - (mid.filter fun e => e.2.boost != .nominal).length
  let cand := mid.filter fun e => e.2.competes (claims e.1) emergency
  let won := fun e => cand.contains e && decide ((cand.filter fun x => before x e).length < free)
  mid.map fun e =>
    let was := ((Tab.get? cs e.1).map Cluster.boost).getD .nominal
    let c : Cluster :=
      if won e then { e.2 with boost := .boosted, balance := e.2.balance - 1, refill := 0 }
      else if e.2.boost == .nominal && was == .nominal then e.2.earn
      else e.2
    (e.1, { c with mhz := boostMhz c.boost c.ceil })

/-- The boost ceilings follow the fill of the clusters' counters (R415). -/
def State.followWear (s : State) : State :=
  { s with clusters := Tab.mapVals s.clusters fun k c => { c with ceil := boostCeil (Tab.getD s.hub.wear k 0) } }

/-- BOOST_BOUNDARY (R403, R404): at a multiple of 5,000 in sr.tick, the next one not yet arbitrated. -/
def State.boostBoundary (s : State) : State :=
  if s.now / 5000 ≤ s.hub.lastBoundary then s
  else
    let s := { s.followWear with
      groups := Tab.mapVals s.groups fun _ g => { g with claim := g.claim.bind Claim.tick }
      hub := { s.hub with lastBoundary := s.hub.lastBoundary + 1 } }
    { s with clusters := arbitrate s.clusters s.claiming s.hub.emergency }

def execBoostBoundary (s : State) : Res := .next s.boostBoundary

/-! ### Limits (R412, R413) -/

/-- The last sample of a sensor; 0 before the first (assumption log 14). -/
def State.sensor (s : State) (x : Sensor) : Int := ((s.hub.sensors.find? fun e => e.1 = x).map Prod.snd).getD 0

/-- SUSTAINED_POWER_LIMIT (R412): module power in mW. DEDUCED (assumption log 37). -/
def State.sustainedLimit (s : State) : State :=
  if 2400000 < s.sensor .power1ms && s.clusters.all fun e => e.2.boost == .nominal then
    { s with slices := Tab.mapVals s.slices fun _ x => { x with ceiling := max 4 (x.ceiling - 1) } }
  else s

def execSustainedPowerLimit (s : State) : Res := .next s.sustainedLimit

/-- EMERGENCY_POWER_LIMIT (R413): the limit begins, once until it ends. DEDUCED (assumption log 37). -/
def State.emergencyLimit (s : State) : State :=
  if 2900000 < s.sensor .power10us && !s.hub.emergency then
    { s with
      slices := Tab.mapVals s.slices fun _ x => { x with ceiling := max 4 (x.ceiling / 2) }
      hub := { s.hub with emergency := true, emergClear := none } }
  else s

def execEmergencyPowerLimit (s : State) : Res := .next s.emergencyLimit

/-- The end of emergency limiting (R413): the 1 ms average has stayed below 2,400 W for 1 ms. -/
def Hub.relax (h : Hub) (now : Nat) (p : Int) : Hub :=
  if !h.emergency then h
  else if 2400000 ≤ p then { h with emergClear := none }
  else match h.emergClear with
    | none => { h with emergClear := some now }
    | some t => if t + 1000000 ≤ now then { h with emergency := false, emergClear := none } else h

/-! ### Slice clocks (R401) -/

/-- SLICE_RATIO_CHANGE (R401): one step, at most one in any 1 µs, from 4 up to the ceiling. -/
def Slice.shift (x : Slice) (now : Nat) (up : Bool) : Slice :=
  if now < x.changed + 1000 then x
  else if up then (if x.ratio < x.ceiling then { x with ratio := x.ratio + 1, changed := now } else x)
  else if 4 < x.ratio then { x with ratio := x.ratio - 1, changed := now } else x

def execSliceRatioChange (core slice : Nat) (up : Bool) (s : State) : Res :=
  .next (if slice < 6 then s.updSlice (sliceKey core slice) fun x => x.shift s.now up else s)

/-! ### Sensors and avoided cores (R392, R411) -/

/-- SENSOR_SAMPLE (R411). -/
def State.sample (s : State) (x : Sensor) (v : Int) : State :=
  let s := s.setHub { s.hub with sensors := (x, v) :: s.hub.sensors.filter fun e => e.1 ≠ x }
  match x with
  | .coreTemp c => s.updCore c fun k => { k with temp := v }
  | .power1ms => s.setHub (s.hub.relax s.now v)
  | .dieTemp _ | .stackTemp _ | .hubTemp | .domainCurrent _ | .domainVoltage _ | .power10us => s

def execSensorSample (sensor : Sensor) (value : Int) (s : State) : Res := .next (s.sample sensor value)

/-- The droop events of the last millisecond (R392). -/
def Core.recent (c : Core) (now : Nat) : List Nat := c.droops.filter fun t => decide (now < t + 1000000)

/-- VOLTAGE_DROOP (R392). -/
def execVoltageDroop (core : Nat) (s : State) : Res :=
  .next (s.updCore core fun c => { c with droops := c.recent s.now ++ [s.now] })

/-- CORE_AVOID (R392). -/
def execCoreAvoid (core : Nat) (s : State) : Res :=
  .next (s.updCore core fun c =>
    if s.hub.tAvoid ≤ c.temp || decide (4 < (c.recent s.now).length) then { c with avoided := true } else c)

/-- CORE_READMIT (R392). -/
def execCoreReadmit (core : Nat) (s : State) : Res :=
  .next (s.updCore core fun c =>
    if c.temp < s.hub.tAvoid - 96 && (c.recent s.now).isEmpty then { c with avoided := false } else c)

/-! ### Wear (R414, R416) -/

/-- The largest m with m^800 ≤ t, by bits from 2^(n − 1) down, above m. -/
def root800 (t : Nat) : Nat → Nat → Nat
  | 0, m => m
  | n + 1, m => root800 t n (if (m + 2 ^ n) ^ 800 ≤ t then m + 2 ^ n else m)

/-- The steps of 2^−8 wear units of one µs (R414), V in mV and T in 1/16 °C: ⌊2^(8 + (V − 750)/25 + (T/16 − 85)/10)⌋.
DEDUCED (assumption log 38). -/
def wearStep (v t : Int) : Nat :=
  let e := 6400 + 32 * (v - 750) + 5 * (t - 1360)
  if e < 0 then 0 else root800 (2 ^ e.toNat) (e.toNat / 800 + 1) 0

/-- The hottest temperature of a domain: 0 to 31 the clusters, 32 to 35 the dies, 36 the hub (R414, R423). -/
def State.domainTemp (s : State) (d : Nat) : Int :=
  if d < 32 then
    let ts := (List.range 4).map fun q => ((Tab.get? s.cores (4 * d + q)).map Core.temp).getD 0
    ts.foldl max (ts.headD 0)
  else if d < 36 then s.sensor (.dieTemp (d - 32))
  else s.sensor .hubTemp

/-- WEAR_ACCUMULATE (R414): the next µs not yet counted. -/
def State.wearAccumulate (s : State) : State :=
  if s.now / 1000 ≤ s.hub.lastWear then s
  else s.setHub { s.hub with
    lastWear := s.hub.lastWear + 1
    wear := (List.range 37).map fun d =>
      (d, min (2 ^ 64 - 1) (Tab.getD s.hub.wear d 0 + wearStep (s.sensor (.domainVoltage d)) (s.domainTemp d))) }

def execWearAccumulate (s : State) : Res := .next s.wearAccumulate

/-- One hour and thirty days in the time base. -/
def hourNs : Nat := 3600 * 10 ^ 9
def monthNs : Nat := 720 * hourNs

/-- The end of life in hours at the mean rate since a time and count (R416, R423); none where it has no prediction.
DEDUCED (assumption log 38). -/
def wearEnd (now c t0 c0 : Nat) : Nat :=
  if 2 ^ 56 ≤ c then 0
  else if c ≤ c0 || now ≤ t0 then 0xFFFFFFFF
  else min 0xFFFFFFFF ((2 ^ 56 - c) * (now - t0) / ((c - c0) * hourNs))

/-- The part's time in service. -/
def State.service (s : State) : Nat := s.hub.life + s.now

/-- The entries of the wear log that are 30 days old or older; the last of them begins the 30 days. -/
def State.agedLog (s : State) : List (Nat × Tab Nat) := s.hub.wearLog.filter fun e => decide (e.1 + monthNs ≤ s.service)

/-- A domain's report: the counter, the fill in 0.01 % and the end of life, at the mean rate of the last 30 days, or of the
whole life when that is shorter. -/
def State.wearReport (s : State) (d : Nat) : Nat × Nat × Nat :=
  let c := Tab.getD s.hub.wear d 0
  let old := (s.agedLog.getLast?).getD (0, [])
  (c, c * 10000 / 2 ^ 56, wearEnd s.service c old.1 (Tab.getD old.2 d 0))

/-- The domains' reports are drawn up. -/
def State.reportWear (s : State) : State :=
  s.setHub { s.hub with report := (List.range 37).map fun d => (d, s.wearReport d) }

/-- WEAR_REPORT_REFRESH (R416): once an hour. -/
def State.wearRefresh (s : State) : State :=
  if s.now / hourNs ≤ s.hub.lastReport then s
  else
    let s := s.reportWear
    s.setHub { s.hub with
      lastReport := s.now / hourNs
      wearLog := s.agedLog.getLast?.toList ++ (s.hub.wearLog.filter fun e => decide (s.service < e.1 + monthNs)) ++
        [(s.service, s.hub.wear)] }

def execWearReportRefresh (s : State) : Res := .next s.wearRefresh

/-! ### Retention (R186, R187) -/

/-- RETENTION_ENTRY (R186): a segment of an array that firmware does not exempt, untouched for the time firmware sets.
DEDUCED (assumption log 38). -/
def State.retain (s : State) (a : SramArray) (seg : Nat) : State :=
  if seg < arrSegments a && !s.retained.contains (a, seg) && !s.hub.noRetain.contains a &&
      decide (Tab.getD s.touched (segKey (a, seg)) 0 + 1000 * s.hub.retainAfter ≤ s.now) then
    { s with retained := s.retained ++ [(a, seg)] }
  else s

def execRetentionEntry (arr : SramArray) (seg : Nat) (s : State) : Res := .next (s.retain arr seg)

/-- The segments that a place of an array's data stands in: a 64-bit word's, or those of a swapped group's registers or a
trap save area. -/
def State.segsOfWord (s : State) : BadLoc → List (SramArray × Nat)
  | .coreScratch k d => [s.segOf (.core k) (8 * d)]
  | .clusterScratch l g d => [s.segOf (.cluster l g) (8 * d)]
  | .dieScratch l k d => [s.segOf (.die l k) (8 * d)]
  | .tile k t _ => ((Tab.get? s.work.blocks k).map fun b => tileSeg b.core (b.tiles.getD t 0)).toList
  | .registers g => (s.groupSpots.filter fun x => x.1 = 0 && x.2.1 = g).flatMap fun x => x.2.2
  | .saveArea g => (s.groupSpots.filter fun x => x.1 = 1 && x.2.1 = g).flatMap fun x => x.2.2
  | .hbm _ | .cell _ _ _ | .array _ _ _ => []

/-- The four 64-bit words of the codeword that a word stands in. -/
def BadLoc.codeword (b : BadLoc) : List BadLoc :=
  (List.range 4).map fun k => match b with
    | .coreScratch x d => .coreScratch x (d / 4 * 4 + k)
    | .clusterScratch l g d => .clusterScratch l g (d / 4 * 4 + k)
    | .dieScratch l x d => .dieScratch l x (d / 4 * 4 + k)
    | .tile x t d => .tile x t (d / 4 * 4 + k)
    | b => b

/-- RETENTION_EXIT (R187): every word of a codeword of the segment with a triple error becomes uncorrectable. -/
def State.unretain (s : State) (a : SramArray) (seg : Nat) (bad : List BadLoc) : State :=
  if s.retained.contains (a, seg) then
    let hit := bad.filter fun b => (s.segsOfWord b).contains (a, seg)
    (dedup (hit.flatMap BadLoc.codeword)).foldl State.upset { s with retained := s.retained.erase (a, seg) }
  else s

def execRetentionExit (arr : SramArray) (seg : Nat) (bad : List BadLoc) (s : State) : Res :=
  .next (s.unretain arr seg bad)

end Sys2Proof.Machine
end

