-- ==== Sys2Proof/Machine/Host.lean ====
section
/-!
DEFINITION. The host ports, their register map and mailbox (R417 to R423, R435), the Graniale ports (R424, R425,
R429) and bring-up (R434).
-/

namespace Sys2Proof.Machine

/-- A port answers its host: the images have passed and its link is up (R418, R434). -/
def State.portOpen (s : State) (port : Nat) : Bool := s.hub.booted && ((Tab.get? s.ports port).map Port.up).getD false

/-! ### Submission-queue registers (R422) -/

/-- The queue with a new write pointer: the entries between the pointers of a ring in device memory as they stood when
the pointer passed them (R379). -/
def Sq.moveTo (x : Sq) (wp : Nat) (entry : Nat → List Byte) : Sq :=
  let n := 2 ^ x.size
  let count := (wp + n - x.rp % n) % n
  let kept := x.snap.take count
  let new := (List.range (count - kept.length)).map fun k => entry ((x.rp + kept.length + k) % n)
  { x with wp := wp, snap := if x.host then [] else kept ++ new }

/-- SQ_WRITE_POINTER (R379, R422): modulo the entry count. -/
def execSqWritePointer (port q : Nat) (v : BitVec 32) (s : State) : Res :=
  .next (if s.portOpen port then s.updSq port q fun x =>
      x.moveTo (bitsOf v.toNat 0 12 % 2 ^ x.size) fun k => s.hbmRead (x.base + entryBytes * k) entryBytes
    else s)

/-- SQ_ENABLE (R422): only a bound queue of a legal size can be enabled. -/
def execSqEnable (port q : Nat) (on : Bool) (s : State) : Res :=
  .next (if s.portOpen port then s.updSq port q fun x =>
      if !on then { x with enable := false }
      else if x.bound && decide (1 ≤ x.size) && decide (x.size ≤ 12) then { x with enable := true, error := false }
      else x
    else s)

/-- A write of a queue's base, host bit or size, while it is not enabled. -/
def Sq.write (x : Sq) (off : Nat) (v : Word) : Sq :=
  if x.enable then x
  else match off with
    | 0x00 => { x with base := x.base / 2 ^ 32 * 2 ^ 32 + v.toNat / 64 * 64, snap := [] }
    | 0x04 => { x with base := x.base % 2 ^ 32 + v.toNat * 2 ^ 32, snap := [] }
    | 0x08 => { x with host := v.getLsbD 31, size := bitsOf v.toNat 0 4, snap := [] }
    | _ => x

/-! ### Other register writes -/

/-- The result a mailbox command ends with (R421). -/
def mbOk : Nat := 0
def mbRefused : Nat := 1
def mbMalformed : Nat := 2
def mbNoRoom : Nat := 3

/-- A mailbox command ends: response words, result, the doorbell clear and the vector (R421). -/
def Port.answerCommand (p : Port) (code : Nat) (out : List Word) : Port :=
  let p := { p with
    mailOut := (List.range out.length).foldl (fun t k => Tab.set t k (out.getD k 0#32)) p.mailOut
    result := loWord (code * 2 ^ 28), doorbell := none }
  if p.irq.getLsbD 11 then p.raise (bitsOf p.irq.toNat 0 11) else p

/-- A write of the doorbell (R421): ignored while a command runs; a reserved code is malformed. -/
def Port.ring (p : Port) (v : Word) : Port :=
  let code := bitsOf v.toNat 0 8
  if p.doorbell.isSome then p
  else if decide (1 ≤ code) && decide (code ≤ 6) then { p with doorbell := some code }
  else p.answerCommand mbMalformed []

/-- A write of the MSI-X table: a vector pending when its mask clears is raised (PCI Express layout).
PRESUMED (assumption log 43). -/
def Port.msixWrite (p : Port) (k : Nat) (v : Word) : Port :=
  let p := { p with msix := Tab.set p.msix k v }
  if k % 4 = 3 && !v.getLsbD 0 && Tab.getD p.pending (k / 4) false then
    { p with pending := Tab.del p.pending (k / 4), vectors := p.vectors ++ [k / 4] }
  else p

/-- A write of a register of BAR0 (R419, R421, R422); an offset without a writable register ignores it. -/
def Port.regWrite (p : Port) (off : Nat) (v : Word) : Port :=
  if off % 4 ≠ 0 then p
  else if 0x1000 ≤ off ∧ off < 0x1100 then { p with mailIn := Tab.set p.mailIn ((off - 0x1000) / 4) v }
  else if off = 0x1100 then p.ring v
  else if off = 0x1108 then { p with irq := BitVec.ofNat 32 (bitsOf v.toNat 0 12) }
  else if 0x10000 ≤ off ∧ off < 0x11000 then
    { p with queues := Tab.upd p.queues ((off - 0x10000) / 64) fun x => x.write (off % 64) v }
  else if 0x40000 ≤ off ∧ off < 0x48000 then p.msixWrite ((off - 0x40000) / 4) v
  else p

/-- REGISTER_WRITE (R422). -/
def execRegisterWrite (port off : Nat) (v : BitVec 32) (s : State) : Res :=
  .next (if s.portOpen port then s.updPort port fun p => p.regWrite off v else s)

/-! ### Register reads (R419 to R423) -/

/-- The identification block (R420). -/
def State.identRead (s : State) (port off : Nat) : Nat :=
  let jobs := s.work.jobs.filter fun j => j.2.port = port
  match off with
  | 0x000 => 0x4C313238
  | 0x004 => Config.stepping
  | 0x008 => Config.firmwareVersion.toNat
  | 0x00C => (if s.hub.graniale.all fun g => g.2.trained then 1 else 0) +
      (if ((Tab.get? s.ports (1 - port)).map Port.up).getD false then 2 else 0)
  | 0x010 => port
  | 0x014 => Config.hbmFrames - s.hub.frames.length
  | 0x018 => (s.hub.frames.filter fun f => f.2 = port).length
  | 0x01C => jobs.length % 64
  | _ => 0

/-- A queue's registers (R422). -/
def Sq.read (x : Sq) (off : Nat) : Nat :=
  match off with
  | 0x00 => x.base % 2 ^ 32
  | 0x04 => x.base / 2 ^ 32 % 2 ^ 32
  | 0x08 => (if x.host then 2 ^ 31 else 0) + x.size
  | 0x0C => if x.bound then 2 ^ 31 + x.job else 0
  | 0x10 => x.wp
  | 0x14 => x.rp
  | 0x18 => (if x.enable then 1 else 0) + (if x.error then 2 else 0) + (if x.rp = x.wp then 4 else 0)
  | _ => 0

/-- A value as its low bits in two's complement. -/
def twos (n : Nat) (v : Int) : Nat := (v % (2 ^ n : Int)).toNat

/-- The sensors and wear block (R423). -/
def State.sensorRead (s : State) (off : Nat) : Nat :=
  let k := off / 4
  if off < 0x200 then twos 16 (((Tab.get? s.cores k).map Core.temp).getD 0)
  else if off < 0x210 then twos 16 (s.sensor (.dieTemp (k - 0x80)))
  else if off < 0x230 then twos 16 (s.sensor (.stackTemp (k - 0x84)))
  else if off = 0x230 then twos 16 (s.sensor .hubTemp)
  else if off = 0x240 then twos 32 (s.sensor .power1ms)
  else if off = 0x244 then twos 32 (s.sensor .power10us)
  else if 0x300 ≤ off ∧ off < 0x300 + 4 * 37 then twos 32 (s.sensor (.domainCurrent (k - 0xC0)))
  else if 0x400 ≤ off ∧ off < 0x400 + 16 * 37 then
    let r := Tab.getD s.hub.report ((off - 0x400) / 16) (0, 0, 0xFFFFFFFF)
    match k % 4 with
    | 0 => r.1 % 2 ^ 32
    | 1 => r.1 / 2 ^ 32 % 2 ^ 32
    | 2 => r.2.1 % 2 ^ 32
    | _ => r.2.2 % 2 ^ 32
  else 0

/-- The word a host reads at an offset of BAR0; offsets that nothing covers read as zero. -/
def State.regRead (s : State) (port off : Nat) : Word :=
  match Tab.get? s.ports port with
  | none => 0#32
  | some p =>
    if !s.portOpen port || off % 4 ≠ 0 then 0#32
    else if off < 0x1000 then loWord (s.identRead port off)
    else if off < 0x1100 then Tab.getD p.mailIn ((off - 0x1000) / 4) 0#32
    else if off = 0x1100 then loWord ((p.doorbell.map fun c => 2 ^ 31 + c).getD 0)
    else if off = 0x1104 then p.result
    else if off = 0x1108 then p.irq
    else if 0x1200 ≤ off ∧ off < 0x1300 then Tab.getD p.mailOut ((off - 0x1200) / 4) 0#32
    else if 0x10000 ≤ off ∧ off < 0x11000 then
      loWord (((Tab.get? p.queues ((off - 0x10000) / 64)).map fun x => x.read (off % 64)).getD 0)
    else if 0x20000 ≤ off ∧ off < 0x30000 then
      let k := (off - 0x20000) / 8
      let e := if errorNamed (k / 16) (k % 16) then Tab.getD s.hub.errors k (0, 0) else (0, 0)
      loWord (if off % 8 = 0 then e.1 else e.2)
    else if 0x30000 ≤ off ∧ off < 0x31000 then loWord (s.sensorRead (off - 0x30000))
    else if 0x40000 ≤ off ∧ off < 0x48000 then Tab.getD p.msix ((off - 0x40000) / 4) 0#32
    else if 0x48000 ≤ off ∧ off < 0x48100 then
      loWord (sumNat ((List.range 32).map fun k => if Tab.getD p.pending (8 * (off - 0x48000) + k) false then 2 ^ k else 0))
    else 0#32

/-! ### Device memory (R417, R419) -/

/-- Every frame of a range belongs to the port. -/
def State.ownsRange (s : State) (port a n : Nat) : Bool :=
  (List.range ((a + n - 1) / 2 ^ 21 + 1 - a / 2 ^ 21)).all fun k => s.portFrame port ((a / 2 ^ 21 + k) * 2 ^ 21)

/-- HOST_MEMORY_ACCESS (R419): a read (no data) or a write through BAR2. -/
def State.hostAccess (s : State) (port a n : Nat) (data : Option (List Byte)) : State :=
  if !s.portOpen port || n = 0 then s
  else if !s.ownsRange port a n then s.updPort port fun p => { p with abort := true, answer := [] }
  else match data with
    | none =>
      let bs := (List.range n).map fun k => s.homeByte (a + k)
      s.updPort port fun p => { p with abort := false, answer := bs }
    | some bs =>
      (s.rootWrite a ((List.range n).map fun k => (k, bs.getD k 0#8))).updPort port fun p =>
        { p with abort := false, answer := [] }

def execHostMemoryAccess (port addr len : Nat) (data : Option (List (BitVec 8))) (s : State) : Res :=
  .next (s.hostAccess port addr (match data with
    | some bs => bs.length
    | none => len) data)

/-! ### Jobs end (R418, R421) -/

/-- Bundles of a job end with it: those running with a status for what had none, the others cancelled; their records
are written and their vectors raised. DEDUCED (assumption log 42). -/
def State.endBundles (s : State) (job status : Nat) : State :=
  let mine := s.work.bundles.filter fun e => e.2.job = job
  mine.foldl (fun (s : State) e =>
    let b := e.2
    let b := if b.admitted || b.malformed then
        { b with subs := b.subs.map fun x => { x with status := some (x.status.getD
            (((x.launch.bind fun l => Tab.get? s.work.launches l).bind Launch.status).getD status)) } }
      else { b with cancelled := true }
    let s := s.putRecord b (s.completion e.1 b)
    match b.irq with
    | some v => s.updPort b.port fun p => p.raise v
    | none => s) s

/-- A job is unregistered (R421): its launches end with a status, its queues are disabled, and its tags, cells, slots,
code and id are freed. DEDUCED (assumption log 42). -/
def State.dropJob (s : State) (job status : Nat) : State :=
  let own := fun (l : Nat) => ((Tab.get? s.work.launches l).map Launch.job) = some job
  let ls := (s.work.launches.filter fun e => e.2.job = job).map Prod.fst
  let s := ls.foldl (fun (s : State) l => s.killLaunch l status) s
  let s := s.endBundles job status
  let s := (s.invalidate job .sys).setOps { s.ops with
    copies := Tab.keep s.ops.copies fun _ c => c.job ≠ job
    colls := Tab.keep s.ops.colls fun _ c => c.job ≠ job }
  let s := s.setKennel { s.kennel with
    tags := Tab.keep s.kennel.tags fun _ t => t.job ≠ job
    pools := Tab.keep s.kennel.pools fun k _ => k % 64 ≠ job
    asked := Tab.keep s.kennel.asked fun k _ => k % 64 ≠ job
    cells := s.kennel.cells.filter fun c => c.job ≠ job }
  let s := { s with
    cores := Tab.mapVals s.cores fun _ c => { c with slots := Tab.keep c.slots fun _ x => x.owner ≠ job }
    tiles := Tab.keep s.tiles fun _ p => (p.owner.map Prod.fst) ≠ some job
    ports := Tab.mapVals s.ports fun _ p => { p with queues := Tab.mapVals p.queues fun _ x =>
      if x.bound && x.job = job then { x with bound := false, enable := false } else x } }
  let s := s.setHub { s.hub with
    maps := Tab.keep s.hub.maps fun k m => k = 0 || !own m.owner
    toHub := Tab.mapVals s.hub.toHub fun _ ms => ms.filter fun m => m ≠ .tagRequest job }
  (s.setWork { s.work with
    jobs := Tab.del s.work.jobs job
    launches := Tab.keep s.work.launches fun _ l => l.job ≠ job
    bundles := Tab.keep s.work.bundles fun _ b => b.job ≠ job }).freeCode.dropBad

/-- The jobs of a port. -/
def State.portJobs (s : State) (port : Nat) : List (Nat × Job) := s.work.jobs.filter fun e => e.2.port = port

/-- LEASE_REVOKE (R213, R418): the leases of a job whose device goes. -/
def State.revokeLeases (s : State) (job : Nat) : State :=
  s.setWork { s.work with launches := Tab.mapVals s.work.launches fun _ l =>
    if l.job = job then { l with leases := l.leases.map fun x => { x with revoked := true } } else l }

/-- HOST_LINK_DOWN (R418): leases revoked, launches ended with lease-violation, jobs unregistered. -/
def State.linkDown (s : State) (port : Nat) : State :=
  let jobs := (s.portJobs port).map Prod.fst
  let s := jobs.foldl (fun (s : State) j => s.revokeLeases j) s
  let s := jobs.foldl (fun (s : State) j => s.dropJob j stLease) s
  s.updPort port fun p => { p with up := false, doorbell := none }

def execHostLinkDown (port : Nat) (s : State) : Res := .next (s.linkDown port)

/-- HOST_LINK_UP (R420). -/
def execHostLinkUp (port : Nat) (s : State) : Res := .next (s.updPort port fun p => { p with up := true })

/-! ### The mailbox (R421) -/

/-- What a command comes to: its result, its response words, and the state. -/
structure Reply where
  code : Nat
  out : List Word
  state : State

/-- A command that runs on a port does its work and ends. -/
def State.command (s : State) (port code : Nat) (act : Port → Reply) : State :=
  match Tab.get? s.ports port with
  | none => s
  | some p =>
    if s.portOpen port && p.doorbell = some code then
      let r := act p
      r.state.updPort port fun p => p.answerCommand r.code r.out
    else s

/-- Word k of a command, and the 64-bit value of two. -/
def Port.arg (p : Port) (k : Nat) : Nat := (Tab.getD p.mailIn k 0#32).toNat
def Port.arg64 (p : Port) (k : Nat) : Nat := p.arg k + p.arg (k + 1) * 2 ^ 32

/-- An address that is 64-byte aligned in the port's frames. -/
def State.portPlace (s : State) (port a : Nat) : Bool := a % 64 = 0 && s.portFrame port a

/-- Register job (R378, R421). DEDUCED (assumption log 43). -/
def State.registerJob (s : State) (port : Nat) (p : Port) : Reply :=
  let budget := bitsOf (p.arg 0) 0 16
  let cap := bitsOf (p.arg 1) 0 16
  let save := p.arg64 6
  let size := p.arg 8 * 65536
  let mask := p.arg64 9
  let qs := (List.range 64).filter fun q => mask.testBit q
  let taken := qs.any fun q => ((s.sq? port q).map Sq.bound).getD true
  if qs.isEmpty || 32768 < cap then ⟨mbMalformed, [], s⟩
  else match (List.range 64).find? fun j => !Tab.has s.work.jobs j with
    | none => ⟨mbRefused, [], s⟩
    | some id =>
      if 65535 < sumNat (s.work.jobs.map fun e => e.2.tagBudget) + budget || taken || !s.portPlace port (p.arg64 2) ||
          !s.portPlace port (p.arg64 4) || !s.portPlace port save || !s.ownsRange port save size then
        ⟨mbRefused, [], s⟩
      else if !Config.kennelCanBack cap then ⟨mbNoRoom, [], s⟩
      else
        let j : Job :=
          { port := port, tagBudget := budget, capacity := cap, tensorTable := p.arg64 2, objectTable := p.arg64 4
            saveArea := save, saveSize := size, queues := BitVec.ofNat 64 mask
            coreMask := Config.coreMaskCeiling id, comms := [], comparators := [], credits := [], faults := []
            events := 0, slice := .running, stalled := none, savedWatch := [], digests := [] }
        let s := s.setWork { s.work with jobs := Tab.set s.work.jobs id j }
        ⟨mbOk, [loWord id], qs.foldl (fun (s : State) q => s.updSq port q fun x => { x with bound := true, job := id }) s⟩

def execRegisterJob (port : Nat) (s : State) : Res := .next (s.command port 1 (s.registerJob port))

/-- A job of the port by its id. -/
def State.jobOfPort (s : State) (port job : Nat) : Bool := ((Tab.get? s.work.jobs job).map Job.port) = some port

/-- Unregister job (R421). -/
def State.unregisterJob (s : State) (port : Nat) (p : Port) : Reply :=
  if s.jobOfPort port (p.arg 0) then ⟨mbOk, [], s.dropJob (p.arg 0) stCancelled⟩ else ⟨mbRefused, [], s⟩

def execUnregisterJob (port : Nat) (s : State) : Res := .next (s.command port 2 (s.unregisterJob port))

/-- The frames a command names. -/
def Port.frameRange (p : Port) : Nat × Nat := (bitsOf (p.arg 0) 0 18, p.arg 1)

/-- The frames of a port, as a response word. -/
def State.frameCount (s : State) (port : Nat) : Word := loWord (s.hub.frames.filter fun f => f.2 = port).length

/-- Claim frames (R419, R421): frames of neither port, or its own. -/
def State.claimFrames (s : State) (port : Nat) (p : Port) : Reply :=
  let (first, n) := p.frameRange
  if Config.hbmFrames < first + n then ⟨mbMalformed, [], s⟩
  else if s.hub.frames.any fun f => decide (first ≤ f.1) && decide (f.1 < first + n) && f.2 ≠ port then
    ⟨mbRefused, [], s⟩
  else
    let fs := (List.range n).foldl (fun t k => Tab.set t (first + k) port) s.hub.frames
    let s := s.setHub { s.hub with frames := fs }
    ⟨mbOk, [s.frameCount port], s⟩

def execClaimFrames (port : Nat) (s : State) : Res := .next (s.command port 3 (s.claimFrames port))

/-- Release frames (R421): the port's frames of the range go to neither port. -/
def State.releaseFrames (s : State) (port : Nat) (p : Port) : Reply :=
  let (first, n) := p.frameRange
  if Config.hbmFrames < first + n then ⟨mbMalformed, [], s⟩
  else if (s.portJobs port).any fun e => s.namesFrame e.2 first n then ⟨mbRefused, [], s⟩
  else
    let s := s.setHub { s.hub with frames := s.hub.frames.filter fun f =>
      !(decide (first ≤ f.1) && decide (f.1 < first + n) && f.2 = port) }
    ⟨mbOk, [s.frameCount port], s⟩

def execReleaseFrames (port : Nat) (s : State) : Res := .next (s.command port 4 (s.releaseFrames port))

/-- Define communicator (R421, R426). -/
def State.defineComm (s : State) (port : Nat) (p : Port) : Reply :=
  let n := p.arg 2
  let a := p.arg64 4
  if 63 < p.arg 1 || n < 2 || 1024 < n || n ≤ p.arg 3 then ⟨mbMalformed, [], s⟩
  else if !s.jobOfPort port (p.arg 0) || !s.ownsRange port a (4 * n) then ⟨mbRefused, [], s⟩
  else
    let ranks := (bytesToWords (s.hbmRead a (4 * n))).map fun w => (bitsOf w.toNat 0 16, bitsOf w.toNat 16 6)
    ⟨mbOk, [], s.updJob (p.arg 0) fun j => { j with comms := Tab.set j.comms (p.arg 1) ⟨p.arg 3, ranks, 0⟩ }⟩

def execDefineCommunicator (port : Nat) (s : State) : Res := .next (s.command port 5 (s.defineComm port))

/-- The 64 bytes of a digest, in the order in which SHA-512 gives them. -/
def digestBytes (d : BitVec 512) : List Byte := (natToBytes d.toNat 64).reverse

/-- The attestation report before its signature (R421, R435). DEDUCED (assumption log 43). -/
def State.report (s : State) (port : Nat) (p : Port) : List Byte :=
  let ds := dedup ((s.portJobs port).flatMap fun e => e.2.digests)
  let wear := (List.range 37).flatMap fun d =>
    let r := Tab.getD s.hub.report d (0, 0, 0xFFFFFFFF)
    natToBytes r.1 8 ++ natToBytes r.2.1 8 ++ natToBytes r.2.2 8
  let body := digestBytes Config.firmwareDigest ++ digestBytes Config.sheepdogDigest ++
    natToBytes ds.length 4 ++ ds.flatMap digestBytes ++ wear ++
    wordsToBytes ((List.range 8).map fun k => Tab.getD p.mailIn k 0#32)
  natToBytes (4 + body.length + 64) 4 ++ body

/-- Attest (R421, R435). -/
def State.attestPort (s : State) (port : Nat) (p : Port) : Reply :=
  let a := p.arg64 8
  let r := s.report port p
  let bs := r ++ natToBytes (Config.sign r).toNat 64
  if !s.portPlace port a || !s.ownsRange port a bs.length then ⟨mbRefused, [], s⟩
  else ⟨mbOk, [loWord bs.length], s.rootWrite a ((List.range bs.length).map fun k => (k, bs.getD k 0#8))⟩

def execAttest (port : Nat) (s : State) : Res := .next (s.command port 6 (s.attestPort port))

/-! ### Graniale ports (R424, R429) -/

/-- GRANIALE_FLIT_RECEIVE (R424): at the peer, a flit of the port's replay buffer; else a flit of the peer at this port.
One that fails its CRC is retried, and counted (R423, R433). -/
def execGranialeFlitReceive (port : Nat) (flit : Flit) (crcOk : Bool) (s : State) : Res :=
  let s := s.updGraniale port fun g =>
    if g.replay.contains flit then g.acknowledge flit crcOk else if crcOk then g.receive flit else g
  .next (if crcOk || 8 ≤ port then s
    else s.setHub { s.hub with errors := addErrors s.hub.errors (16 * (173 + port)) 1 0 })

/-- A port loses its link: it is no longer trained, and the flits it held or had sent are lost and counted (R423, R433).
DEDUCED (assumption log 44). -/
def State.portLost (s : State) (port : Nat) : State :=
  let n := ((Tab.get? s.hub.graniale port).map fun g => g.transmit.length + g.replay.length).getD 0
  let s := s.setHub { s.hub with errors := addErrors s.hub.errors (16 * (173 + port)) 0 n }
  s.updGraniale port fun g => { g with trained := false, transmit := [], replay := [], retraining := none }

/-- PEER_LOST (R429, R420): the collectives that need the package end, and a port loses its link; which is a free
value (assumption log 2). The jobs of those collectives hear of the error (R433). -/
def execPeerLost (pkg : Nat) (s : State) : Res :=
  let jobs := s.lostJobs pkg
  let (k, s) := (s.collLost pkg).pickBelow 8
  .next (jobs.foldl State.tellError (s.portLost k))

/-! ### Bring-up (R434) -/

/-- POWER_ON_RESET (R434): the part as after reset, but for the wear counters and their log, which last (R414, R416), and
the boost ceilings and the wear report, which follow them (R415, R423); once both images pass, firmware has trained the
Graniale ports and opens the host ports. The agenda, and the counts of turns and free values, are the model's and go on. DEDUCED (assumption log 45). -/
def State.powerOn (s : State) (ok : Bool) : State :=
  let hub := { Hub.reset with wear := s.hub.wear, wearLog := s.hub.wearLog, life := s.service }
  let r := { State.reset with turns := s.turns, turnCount := s.turnCount, free := s.free, hub := hub }.followWear.reportWear
  if ok then
    r.setHub { r.hub with booted := true, graniale := Tab.mapVals r.hub.graniale fun _ g => { g with trained := true } }
  else r

def execPowerOnReset (fwOk shOk : Bool) (s : State) : Res := .next (s.powerOn (fwOk && shOk))

end Sys2Proof.Machine
end

