-- ==== Sys2Proof/Machine/Index.lean ====
section
/-!
DEFINITION. Index registers (R134 to R137): XSET, XINC, MOVXR, MOVXW and XRD.
-/

namespace Sys2Proof.Machine

/-- The fields of an index register (R134). -/
def xBase (x : Word) : Nat := bitsOf x.toNat 0 8
def xLen (x : Word) : Nat := bitsOf x.toNat 8 8
def xCursor (x : Word) : Int := signedOf (bitsOf x.toNat 16 16) 16

/-- An index register written in every lane of Exec. -/
def indexEff (k : BitVec 3) (f : Word → Word) (s : State) (gid : Nat) (g : Group) (_cl : Clause) : Eff :=
  doneG s gid (g.fixed (s.native g) latInt
    ((maskList g.exec).map fun i => (.x k.toNat i, f (g.rdX k.toNat i)))) .seq

/-- XSET (R135). -/
def execXset (x : BitVec 3) (base len : BitVec 8) (s : State) : Res :=
  issue (.xset x base len) (indexEff x fun _ => 0#16 ++ len ++ base) s

/-- XINC (R135). -/
def execXinc (x : BitVec 3) (imm : BitVec 8) (s : State) : Res :=
  issue (.xinc x imm) (indexEff x fun w =>
    (w.extractLsb' 16 16 + imm.signExtend 16) ++ w.extractLsb' 0 16) s

/-- The register a lane addresses through an index register (R136). -/
def xTarget (g : Group) (k : BitVec 3) (imm : BitVec 8) (lane : Nat) : Int :=
  let x := g.rdX k.toNat lane
  (xBase x : Int) + xCursor x + imm.toInt

/-- The physical register of a lane's access, none where it is out of bounds (R136). -/
def xReg (g : Group) (k : BitVec 3) (imm : BitVec 8) (lane : Nat) : Option Nat :=
  let x := g.rdX k.toNat lane
  let t := xTarget g k imm lane
  if t < xBase x || (xBase x + xLen x : Int) ≤ t then none else g.vName t.toNat

/-- The lanes of Exec whose access is out of bounds. -/
def xBad (g : Group) (k : BitVec 3) (imm : BitVec 8) : Mask :=
  g.active &&& maskOf fun i => (xReg g k imm i).isNone

/-- Whether a register a lane addresses is pending (R127). -/
def xPend (g : Group) (k : BitVec 3) (imm : BitVec 8) : Bool :=
  (maskList g.exec).any fun i => match xReg g k imm i with
    | some r => g.isPend (.v r)
    | none => false

/-- An access through an index register: bounds, the scoreboard, then the writes of its lanes (R136, R137). -/
def movxEff (k : BitVec 3) (imm : BitVec 8) (f : Group → Nat → Nat → Target × Word) (s : State) (gid : Nat)
    (g : Group) (_cl : Clause) : Eff :=
  if xBad g k imm != 0#64 then .trap (.at 0x06 (xBad g k imm))
  else if xPend g k imm then .wait
  else doneG s gid (g.fixed (s.native g) latInt
    ((maskList g.exec).filterMap fun i => (xReg g k imm i).map fun r => f g i r)) .seq

/-- MOVXR (R136). -/
def execMovxr (d : Reg) (x : BitVec 3) (imm : BitVec 8) (s : State) : Res :=
  issue (.movxr d x imm) (movxEff x imm fun g i r => (.v (g.phys d 0) i, g.rdV r i)) s

/-- MOVXW (R136). -/
def execMovxw (a : Reg) (x : BitVec 3) (imm : BitVec 8) (s : State) : Res :=
  issue (.movxw a x imm) (movxEff x imm fun g i r => (.v r i, g.src a 0 i)) s

/-- XRD (R136). -/
def execXrd (d : Reg) (x : BitVec 3) (s : State) : Res :=
  issue (.xrd d x) (aluEff latInt d fun g i => g.rdX x.toNat i) s

end Sys2Proof.Machine
end

