-- ==== Sys2Proof/Machine/Preempt.lean ====
section
/-!
DEFINITION. Pre-emption and migration (R353, R375 to R377, R393, R394).
-/

namespace Sys2Proof.Machine

/-! ### Draining and saving (R375) -/

/-- The groups of a job, recovery groups apart. -/
def State.jobGroups (s : State) (job : Nat) : List (Nat × Group) :=
  s.groups.filter fun e => s.jobOf e.2 = job && e.2.recov.isNone

/-- A word waits for something that no operation of its group brings: a tag, a barrier, a queue record that no command is
under way for, or the end of a freeze. DEDUCED (assumption log 46). -/
def State.wordStuck (s : State) (g : Group) (cl : Clause) : Bool :=
  let i := wordStep (s.fetch g cl)
  let claims := g.qclaims.flatMap fun e => e.2
  g.ctxwait || s.atBarrier g cl || (g.frozen && frozenBan i) ||
    (((usesOf i).pregs g).any fun r => g.pend.any fun p => p.reg = r && claims.contains p.op) ||
    (match i with
      | .bara _ b | .bars b => Tab.has g.arrivals (arrKey b)
      | _ => false)

/-- A group has stopped: at a clause boundary, at a word that waits for what only others bring, or at an access to a
target that stands at such a word (R373). DEDUCED (assumption log 46). -/
def State.stopped (s : State) (gid : Nat) (g : Group) : Bool :=
  match g.clause with
  | none => true
  | some cl => s.wordStuck g cl ||
      s.groups.any fun e => e.2.wantedBy = some gid && s.dbHeld e.2 && (match e.2.clause with
        | some c => s.wordStuck e.2 c
        | none => false)

/-- An owner of an engine command is a given group. -/
def CopyOwner.isGroup (o : CopyOwner) (gid : Nat) : Bool := o.group = some gid

/-- A group has no copy command or collective under way, those of its queue registers among them; a command that only
owes a report is saved with it. -/
def State.enginesIdle (s : State) (gid : Nat) : Bool :=
  !(s.ops.copies.any fun e => e.2.owner.isGroup gid && !s.onlyOwes e.1 e.2) && !(s.ops.colls.any fun e => e.2.owner.isGroup gid)

/-- A group's own operations have drained (R375): everything but retirements and the status of commands whose reports
are saved undelivered, its shadow evaluations among them (R332). -/
def State.drained (s : State) (gid : Nat) (g : Group) : Bool :=
  [cLD, cST, cTL, cSG].all (fun c => g.cnt c = 0) && (g.cnt cCP = 0 || s.ops.copies.any fun e => e.2.owner.isGroup gid) &&
    s.enginesIdle gid && s.stopped gid g &&
    s.cores.all fun c => c.2.recq.all fun e => e.group ≠ gid

/-- A group is saved: pending fixed-latency writes complete, and it leaves the files, the active set and its save area.
DEDUCED (assumption log 46). Its wait count becomes 0, and an uncorrectable error in its image goes without an effect: DESIGN
CHOICE (assumption logs 53 and 52). -/
def State.saveGroup (s : State) (gid : Nat) : State :=
  match Tab.get? s.groups gid with
  | none => s
  | some g =>
    let s := ((s.settle gid).inactive gid g).updCore g.core fun c =>
      { c with areas := Tab.keep c.areas fun _ k => k ≠ gid }
    (s.setRes gid .saved).updGroup gid fun x => { x with
      trap := x.trap.map fun f => { f with area := none }
      waitCnt := 0 }

/-- The cycles that a sleeping group still has to sleep, while its job is off the part; the count stops only then
(R114). -/
def State.stopSleep (s : State) (gid : Nat) : State :=
  s.updGroup gid fun g => { g with sleep := g.sleep.map fun t => t - s.coreCycles g.core }

/-- What was left of a sleep goes on. -/
def State.resumeSleep (s : State) (gid : Nat) : State :=
  s.updGroup gid fun g => { g with sleep := g.sleep.map fun t => s.coreCycles g.core + t }

/-- A group is saved with its job. -/
def State.saveSlice (s : State) (gid : Nat) : State := (s.saveGroup gid).stopSleep gid

/-- The groups of a job whose blocks have been evicted. -/
def State.evictedOf (s : State) (job : Nat) : List Nat :=
  ((s.jobGroups job).filter fun e => s.evicted e.2).map Prod.fst

/-- The watchpoint units of a job leave the cores and stand with the job (R371, R375). -/
def State.saveWatch (s : State) (job : Nat) : State :=
  let mine := fun (w : Watch) => ((Tab.get? s.groups w.group).map s.jobOf) = some job
  let units := s.cores.flatMap fun c => (c.2.watch.filter fun w => mine w.2).map fun w => (c.1, w.1, w.2)
  let s := { s with cores := Tab.mapVals s.cores fun _ c => { c with watch := Tab.keep c.watch fun _ w => !mine w } }
  s.updJob job fun j => { j with savedWatch := units }

/-- The recovery work of a job is done (R332). -/
def State.recovered (s : State) (job : Nat) : Bool :=
  let own := fun l => ((Tab.get? s.work.launches l).map Launch.job) = some job
  !(s.groups.any fun e => e.2.recov.isSome && s.jobOf e.2 = job) && s.cores.all fun c => c.2.recq.all fun e => !own e.launch

/-- The whole job is saved once its last group is; evicted groups, saved before, stop sleeping with it. -/
def State.jobOut (s : State) (job : Nat) : State :=
  if (s.jobGroups job).all (fun e => e.2.res == .saved) && s.recovered job then
    (((s.evictedOf job).foldl State.stopSleep s).saveWatch job).updJob job fun j => { j with slice := .out s.now }
  else s

/-- A time slice's messages act once nothing stands before them on the links of the job's clusters (R390). -/
def State.sliceClear (s : State) (job : Nat) : Bool := s.work.blocks.all fun e =>
  e.2.state == .saved || ((Tab.get? s.work.launches e.2.launch).map Launch.job) != some job || s.linkClear (clusterOf e.2.core)

/-- TIME_SLICE (R375): a running job stops; a stopped one whose groups have all drained and whose recovery entries are
done is saved. -/
def State.timeSlice (s : State) (job : Nat) : State :=
  match (Tab.get? s.work.jobs job).map Job.slice with
  | some .running =>
    if !s.sliceClear job || s.work.blocks.any fun e => e.2.state != .running && e.2.state != .saved &&
        ((Tab.get? s.work.launches e.2.launch).map Launch.job) = some job then s
    else s.updJob job fun j => { j with slice := .stopping s.now }
  | some (.stopping _) =>
    let gs := s.jobGroups job
    if gs.all (fun e => e.2.res == .saved || s.drained e.1 e.2) && s.recovered job then
      ((gs.filter fun e => e.2.res != .saved).foldl (fun (s : State) e => s.saveSlice e.1) s).jobOut job
    else s
  | some (.out _) => s
  | none => s

def execTimeSlice (job : Nat) (s : State) : Res := .next (s.blocksMoved (s.timeSlice job))

/-- PREEMPT_DRAIN_TIMEOUT (R375): 50 µs after the stop, each group is saved as soon as its own operations have
drained. -/
def State.drainTimeout (s : State) (job : Nat) : State :=
  match (Tab.get? s.work.jobs job).map Job.slice with
  | some (.stopping t) =>
    if s.now < t + 50000 then s
    else
      (((s.jobGroups job).filter fun e => e.2.res != .saved && s.drained e.1 e.2).foldl
        (fun (s : State) e => s.saveSlice e.1) s).jobOut job
  | _ => s

def execPreemptDrainTimeout (job : Nat) (s : State) : Res := .next (s.blocksMoved (s.drainTimeout job))

/-! ### Restoring (R376) -/

/-- The blocks of a job that its time slice took off the part. -/
def State.jobBlocks (s : State) (job : Nat) : List (Nat × Block) :=
  s.work.blocks.filter fun e => e.2.state != .saved && ((Tab.get? s.work.launches e.2.launch).map Launch.job) = some job

/-- No core, cluster or die holds more than it has (R168, R169, R281, R334), the clusters of wholly evicted gangs among
them, and jobs stay apart (R371). -/
def State.holds (s : State) (job : Nat) (bs : List (Nat × Block)) : Bool :=
  let cores := dedup (bs.map fun e => e.2.core)
  cores.all (fun c =>
    decide (s.coreUse c Kernel.scratch ≤ Config.coreScratchBytes) && decide (s.coreUse c Kernel.acc ≤ 512) &&
    decide (s.coreUse c Kernel.blockBars ≤ barPlaces .block) && s.apart job c) &&
  (List.range 32).all (fun c =>
    decide (s.clusterUse c Kernel.cscratch ≤ Config.clusterScratchBytes) &&
    decide (s.clusterUse c Kernel.gangBars ≤ barPlaces .gang)) &&
  (List.range 4).all fun d => decide (s.dieUse d ≤ s.dieAvail d)

/-- A block whose tiles another block of its core uses meanwhile takes others. -/
def State.untangle (s : State) (bid : Nat) (b : Block) : State :=
  let used := ((s.blocksOn b.core).filter fun e => e.1 ≠ bid).flatMap fun e => e.2.tiles
  if b.tiles.any used.contains then
    let s := s.liftTiles bid
    let s := s.updBlock bid fun x => { x with tiles := [] }
    let free := s.freeTiles b.core b.tiles.length
    s.updBlock bid fun x => { x with tiles := free }
  else s

/-- A release window of a barrier of the job runs; on the saved state of a job it runs to its end (R353). -/
def State.windowRuns (s : State) (job : Nat) : Bool :=
  let runs := fun (bs : Tab Barrier) => bs.any fun e => e.2.releasing
  s.work.launches.any fun e => e.2.job = job && (runs e.2.gridBars || e.2.gangs.any fun x => runs x.2.bars)

/-- A saved group comes back to its slice and waits for admission (R376). -/
def State.wakeGroup (s : State) (gid : Nat) : State :=
  let s := s.resumeSleep gid
  match Tab.get? s.groups gid with
  | none => s
  | some g => (s.putGroup gid { g with res := .waiting }).settleBars gid

/-- The watchpoint units saved with a job return to their cores. -/
def State.wakeWatch (s : State) (units : List (Nat × Nat × Watch)) : State :=
  units.foldl (fun (s : State) u => s.updCore u.1 fun c => { c with watch := Tab.set c.watch u.2.1 u.2.2 }) s

/-- A change of what stands on the part leaves the places of admitted co-operative launches alone (R388). -/
def State.respects (s s' : State) : Bool := !s.keepsReserved 0 || s'.keepsReserved 0

/-- JOB_RESTORE (R376): once no release window of the job runs any more (R353), each block returns to the core it left, where all of them find their places and leave alone those
that are reserved (R388). -/
def State.jobRestore (s : State) (job : Nat) : State :=
  match Tab.get? s.work.jobs job with
  | none => s
  | some j =>
    match j.slice with
    | .running | .stopping _ => s
    | .out _ =>
      let s1 := (s.updJob job fun j => { j with slice := .running, savedWatch := [] }).wakeWatch j.savedWatch
      let bs := s1.jobBlocks job
      if s.windowRuns job || !s.sliceClear job || !s1.holds job bs then s
      else
        let s1 := bs.foldl (fun (s : State) e => s.untangle e.1 e.2) s1
        let s1 := (bs.flatMap fun e => e.2.groups).foldl State.wakeGroup s1
        if bs.all (fun e => s1.seated e.1) && s.respects s1 then (s1.evictedOf job).foldl State.resumeSleep s1 else s

def execJobRestore (job : Nat) (s : State) : Res := .next (s.blocksMoved (s.jobRestore job))

/-! ### Eviction (R377, R394) -/

/-- A core that eviction leaves alone: one with an enabled watchpoint unit, or with a co-operative block of the job or
the place reserved for one (R388, R394). DEDUCED (assumption log 46). -/
def State.evictKeeps (s : State) (job core : Nat) : Bool :=
  ((Tab.get? s.cores core).map fun c => !c.watch.isEmpty).getD false ||
  (s.reserved 0).work.blocks.any fun e => e.2.core = core && ((Tab.get? s.work.launches e.2.launch).map fun l =>
    l.job = job && l.coop).getD false

/-- A block and its groups are frozen. -/
def State.freeze (s : State) (bid : Nat) (st : BlockState) (on : Bool) : State :=
  match Tab.get? s.work.blocks bid with
  | none => s
  | some b =>
    b.groups.foldl (fun (s : State) g => s.updGroup g fun x => { x with frozen := on })
      (s.updBlock bid fun x => { x with state := st })

/-- The groups of a block still on the part. -/
def State.groupsOf (s : State) (b : Block) : List (Nat × Group) :=
  b.groups.filterMap fun k => (Tab.get? s.groups k).map fun g => (k, g)

/-- An evicted block that has drained is saved, its tiles with it; with the job's last block on the cluster its Pup's pool
goes. DESIGN CHOICE (assumption log 28). -/
def State.saveBlock (s : State) (bid : Nat) : State :=
  match Tab.get? s.work.blocks bid with
  | none => s
  | some b =>
    if b.state == .evicting && (s.groupsOf b).all fun e => s.drained e.1 e.2 then
      let s' := (s.groupsOf b).foldl (fun (s : State) e => s.saveGroup e.1) s
      s.blocksMoved ((s'.liftTiles bid).updBlock bid fun x => { x with state := .saved }).trimPools
    else s

/-- EVICT (R377): cores leave the job's mask, the blocks on them are frozen, and those that have drained are saved and
requeued. -/
def State.evict (s : State) (job : Nat) (cores : BitVec 128) : State :=
  match Tab.get? s.work.jobs job with
  | none => s
  | some j =>
    if !s.jobRuns job then s
    else
      let gone := (List.range 128).filter fun c => cores.getLsbD c && j.coreMask.getLsbD c && !s.evictKeeps job c
      let mask := gone.foldl (fun (m : BitVec 128) c => m &&& ~~~(1#128 <<< c)) j.coreMask
      let s := s.updJob job fun j => { j with coreMask := mask }
      let mine := (s.jobBlocks job).filter fun e => gone.contains e.2.core && e.2.state != .evicting
      let s := mine.foldl (fun (s : State) e => s.freeze e.1 .evicting true) s
      ((s.jobBlocks job).filter fun e => e.2.state == .evicting).foldl (fun (s : State) e => s.saveBlock e.1) s

def execEvict (job : Nat) (cores : BitVec 128) (s : State) : Res := .next (s.delivered (s.evict job cores))

/-! ### Migration (R393) -/

/-- A block that may be migrated: no group of it trapped, no enabled watchpoint on its core. -/
def State.movable (s : State) (b : Block) : Bool :=
  (s.groupsOf b).all (fun e => !e.2.trapped) && ((Tab.get? s.cores b.core).map fun c => c.watch.isEmpty).getD false

/-- The counters that a migration waits for are zero, and the groups stand still. -/
def State.still (s : State) (b : Block) : Bool :=
  (s.groupsOf b).all fun e =>
    [cCP, cTL, cSG].all (fun c => e.2.cnt c = 0) && s.stopped e.1 e.2 && !(s.ops.copies.any fun c => c.2.owner.isGroup e.1)

/-- A drained block moves: its groups leave their slices, and it is seated on the other core; none where it finds no
place there. An uncorrectable error in a swapped group's image goes without an effect: DESIGN CHOICE (assumption log 52). -/
def State.moveBlock (s : State) (bid : Nat) (b : Block) (core : Nat) : Option State :=
  match Tab.get? s.work.launches b.launch with
  | none => none
  | some l =>
    let s := (s.groupsOf b).foldl (fun (s : State) e => ((s.settle e.1).inactive e.1 e.2).setRes e.1 .waiting) s
    let s := (s.liftTiles bid).updBlock bid fun x => { x with state := .saved }
    if s.coreTakes l.job l.kernel core then
      let s := s.seatBlock bid core
      if s.seated bid then some s else none
    else none

/-- MIGRATE (R393): a running block is frozen toward another core of its cluster; one whose counters have reached zero
within 50 µs moves, where it leaves reserved places alone (R388). -/
def State.migrate (s : State) (bid core : Nat) : State :=
  match Tab.get? s.work.blocks bid with
  | none => s
  | some b =>
    let job := ((Tab.get? s.work.launches b.launch).map Launch.job).getD 64
    match b.state with
    | .running =>
      if s.jobRuns job && clusterOf core = clusterOf b.core && core ≠ b.core && s.movable b then
        s.freeze bid (.migrating core s.now) true
      else s
    | .migrating dest t =>
      if s.jobRuns job && decide (s.now ≤ t + 50000) && s.movable b && s.still b then
        match s.moveBlock bid b dest with
        | some s' => if s.respects s' then s' else s
        | none => s
      else s
    | .evicting | .saved => s

def execMigrate (block core : Nat) (s : State) : Res := .next (s.blocksMoved (s.delivered (s.migrate block core)))

/-- MIGRATION_ABANDON (R393): after 50 µs a block that has not moved resumes on its own core. -/
def State.abandon (s : State) (bid : Nat) : State :=
  match Tab.get? s.work.blocks bid with
  | none => s
  | some b =>
    match b.state with
    | .migrating _ t => if s.now < t + 50000 then s else s.freeze bid .running false
    | .running | .evicting | .saved => s

def execMigrationAbandon (block : Nat) (s : State) : Res := .next (s.abandon block)

end Sys2Proof.Machine
end

