-- ==== Sys2Proof/Machine/Dispatch.lean ====
section
/-!
DEFINITION. What each instruction and event does: one arm for each constructor.
-/

namespace Sys2Proof.Machine

def exec (i : Instr) (s : State) : Host.Outcome State Fault Refusal :=
  match i with
  | .nop => Sys2Proof.Machine.execNop s
  | .bra neg p pen off => Sys2Proof.Machine.execBra neg p pen off s
  | .jmpx a off => Sys2Proof.Machine.execJmpx a off s
  | .exitG => Sys2Proof.Machine.execExitG s
  | .enrol j => Sys2Proof.Machine.execEnrol j s
  | .park j => Sys2Proof.Machine.execPark j s
  | .strike j => Sys2Proof.Machine.execStrike j s
  | .yieldG => Sys2Proof.Machine.execYieldG s
  | .waitC ld st cp tl sg cl => Sys2Proof.Machine.execWaitC ld st cp tl sg cl s
  | .repeatN n => Sys2Proof.Machine.execRepeatN n s
  | .trapI imm => Sys2Proof.Machine.execTrapI imm s
  | .bkpt imm => Sys2Proof.Machine.execBkpt imm s
  | .sleepI imm => Sys2Proof.Machine.execSleepI imm s
  | .sleepExpire g => Sys2Proof.Machine.execSleepExpire g s
  | .srd d sp => Sys2Proof.Machine.execSrd d sp s
  | .swr a sp => Sys2Proof.Machine.execSwr a sp s
  | .tret => Sys2Proof.Machine.execTret s
  | .illegalInstruction w0 w1 => Sys2Proof.Machine.execIllegalInstruction w0 w1 s
  | .iadd d a b => Sys2Proof.Machine.execIadd d a b s
  | .isub d a b => Sys2Proof.Machine.execIsub d a b s
  | .imul d a b => Sys2Proof.Machine.execImul d a b s
  | .imulhiI32 d a b => Sys2Proof.Machine.execImulhiI32 d a b s
  | .imulhiUi32 d a b => Sys2Proof.Machine.execImulhiUi32 d a b s
  | .iminI32 d a b => Sys2Proof.Machine.execIminI32 d a b s
  | .iminUi32 d a b => Sys2Proof.Machine.execIminUi32 d a b s
  | .imaxI32 d a b => Sys2Proof.Machine.execImaxI32 d a b s
  | .imaxUi32 d a b => Sys2Proof.Machine.execImaxUi32 d a b s
  | .andR d a b => Sys2Proof.Machine.execAndR d a b s
  | .orR d a b => Sys2Proof.Machine.execOrR d a b s
  | .xorR d a b => Sys2Proof.Machine.execXorR d a b s
  | .shl d a b => Sys2Proof.Machine.execShl d a b s
  | .shr d a b => Sys2Proof.Machine.execShr d a b s
  | .sar d a b => Sys2Proof.Machine.execSar d a b s
  | .rot d a b => Sys2Proof.Machine.execRot d a b s
  | .mov d a => Sys2Proof.Machine.execMov d a s
  | .notR d a => Sys2Proof.Machine.execNotR d a s
  | .ineg d a => Sys2Proof.Machine.execIneg d a s
  | .iabs d a => Sys2Proof.Machine.execIabs d a s
  | .clz d a => Sys2Proof.Machine.execClz d a s
  | .popc d a => Sys2Proof.Machine.execPopc d a s
  | .brev d a => Sys2Proof.Machine.execBrev d a s
  | .iaddsatI32 d a b => Sys2Proof.Machine.execIaddsatI32 d a b s
  | .isubsatI32 d a b => Sys2Proof.Machine.execIsubsatI32 d a b s
  | .iaddsatUi32 d a b => Sys2Proof.Machine.execIaddsatUi32 d a b s
  | .iamini d a imm => Sys2Proof.Machine.execIamini d a imm s
  | .iaddi d a imm => Sys2Proof.Machine.execIaddi d a imm s
  | .andi d a imm => Sys2Proof.Machine.execAndi d a imm s
  | .ori d a imm => Sys2Proof.Machine.execOri d a imm s
  | .xori d a imm => Sys2Proof.Machine.execXori d a imm s
  | .shli d a imm => Sys2Proof.Machine.execShli d a imm s
  | .shri d a imm => Sys2Proof.Machine.execShri d a imm s
  | .sari d a imm => Sys2Proof.Machine.execSari d a imm s
  | .roti d a imm => Sys2Proof.Machine.execRoti d a imm s
  | .movi d imm => Sys2Proof.Machine.execMovi d imm s
  | .movhi d imm => Sys2Proof.Machine.execMovhi d imm s
  | .imuli d a imm => Sys2Proof.Machine.execImuli d a imm s
  | .fadd d a b => Sys2Proof.Machine.execFadd d a b s
  | .fsub d a b => Sys2Proof.Machine.execFsub d a b s
  | .fmul d a b => Sys2Proof.Machine.execFmul d a b s
  | .fmin d a b => Sys2Proof.Machine.execFmin d a b s
  | .fmax d a b => Sys2Proof.Machine.execFmax d a b s
  | .fabs d a => Sys2Proof.Machine.execFabs d a s
  | .fneg d a => Sys2Proof.Machine.execFneg d a s
  | .frcp d a => Sys2Proof.Machine.execFrcp d a s
  | .frsq d a => Sys2Proof.Machine.execFrsq d a s
  | .fsqrt d a => Sys2Proof.Machine.execFsqrt d a s
  | .fexp2 d a => Sys2Proof.Machine.execFexp2 d a s
  | .flog2 d a => Sys2Proof.Machine.execFlog2 d a s
  | .fsin d a => Sys2Proof.Machine.execFsin d a s
  | .fcos d a => Sys2Proof.Machine.execFcos d a s
  | .frnd d a mode => Sys2Proof.Machine.execFrnd d a mode s
  | .fclass d a => Sys2Proof.Machine.execFclass d a s
  | .haddF16 d a b => Sys2Proof.Machine.execHaddF16 d a b s
  | .hmulF16 d a b => Sys2Proof.Machine.execHmulF16 d a b s
  | .hminF16 d a b => Sys2Proof.Machine.execHminF16 d a b s
  | .hmaxF16 d a b => Sys2Proof.Machine.execHmaxF16 d a b s
  | .haddBf16 d a b => Sys2Proof.Machine.execHaddBf16 d a b s
  | .hmulBf16 d a b => Sys2Proof.Machine.execHmulBf16 d a b s
  | .hminBf16 d a b => Sys2Proof.Machine.execHminBf16 d a b s
  | .hmaxBf16 d a b => Sys2Proof.Machine.execHmaxBf16 d a b s
  | .icmpI32 pd cond a b => Sys2Proof.Machine.execIcmpI32 pd cond a b s
  | .icmpUi32 pd cond a b => Sys2Proof.Machine.execIcmpUi32 pd cond a b s
  | .fcmp pd cond a b => Sys2Proof.Machine.execFcmp pd cond a b s
  | .plop pd tt pa pb => Sys2Proof.Machine.execPlop pd tt pa pb s
  | .ptov d pa => Sys2Proof.Machine.execPtov d pa s
  | .vtop pd a => Sys2Proof.Machine.execVtop pd a s
  | .qswz d a imm => Sys2Proof.Machine.execQswz d a imm s
  | .qbc d a imm => Sys2Proof.Machine.execQbc d a imm s
  | .lshup d a imm => Sys2Proof.Machine.execLshup d a imm s
  | .lshdn d a imm => Sys2Proof.Machine.execLshdn d a imm s
  | .lshfx d a b => Sys2Proof.Machine.execLshfx d a b s
  | .gbal d pa => Sys2Proof.Machine.execGbal d pa s
  | .grediAdd d a => Sys2Proof.Machine.execGrediAdd d a s
  | .grediMin d a => Sys2Proof.Machine.execGrediMin d a s
  | .grediMax d a => Sys2Proof.Machine.execGrediMax d a s
  | .gredfAdd d a => Sys2Proof.Machine.execGredfAdd d a s
  | .gscanAdd d a => Sys2Proof.Machine.execGscanAdd d a s
  | .rdlane d a imm => Sys2Proof.Machine.execRdlane d a imm s
  | .wrlane d a imm => Sys2Proof.Machine.execWrlane d a imm s
  | .gany pd pa => Sys2Proof.Machine.execGany pd pa s
  | .gall pd pa => Sys2Proof.Machine.execGall pd pa s
  | .xset x base len => Sys2Proof.Machine.execXset x base len s
  | .xinc x imm => Sys2Proof.Machine.execXinc x imm s
  | .movxr d x imm => Sys2Proof.Machine.execMovxr d x imm s
  | .movxw a x imm => Sys2Proof.Machine.execMovxw a x imm s
  | .xrd d x => Sys2Proof.Machine.execXrd d x s
  | .ld d b sz vi => Sys2Proof.Machine.execLd d b sz vi s
  | .st d b sz vi => Sys2Proof.Machine.execSt d b sz vi s
  | .lds d a imm => Sys2Proof.Machine.execLds d a imm s
  | .sts d a imm => Sys2Proof.Machine.execSts d a imm s
  | .sld d b sz n => Sys2Proof.Machine.execSld d b sz n s
  | .bset a b => Sys2Proof.Machine.execBset a b s
  | .bget d b => Sys2Proof.Machine.execBget d b s
  | .fence ord scope => Sys2Proof.Machine.execFence ord scope s
  | .tfence scope => Sys2Proof.Machine.execTfence scope s
  | .bara d bar => Sys2Proof.Machine.execBara d bar s
  | .barw a bar => Sys2Proof.Machine.execBarw a bar s
  | .bars bar => Sys2Proof.Machine.execBars bar s
  | .barexp a bar => Sys2Proof.Machine.execBarexp a bar s
  | .ctxnew d => Sys2Proof.Machine.execCtxnew d s
  | .ctxtry d pd => Sys2Proof.Machine.execCtxtry d pd s
  | .contextTagRegister g => Sys2Proof.Machine.execContextTagRegister g s
  | .ctxset a => Sys2Proof.Machine.execCtxset a s
  | .ctxretCommit d a => Sys2Proof.Machine.execCtxretCommit d a s
  | .ctxretDrop d a => Sys2Proof.Machine.execCtxretDrop d a s
  | .ctxq d a => Sys2Proof.Machine.execCtxq d a s
  | .accclr acc => Sys2Proof.Machine.execAccclr acc s
  | .accrel acc => Sys2Proof.Machine.execAccrel acc s
  | .cvt d a code => Sys2Proof.Machine.execCvt d a code s
  | .pkh d a fmt => Sys2Proof.Machine.execPkh d a fmt s
  | .upkh d a fmt => Sys2Proof.Machine.execUpkh d a fmt s
  | .qw q a => Sys2Proof.Machine.execQw q a s
  | .qr q d => Sys2Proof.Machine.execQr q d s
  | .qtry pd q d => Sys2Proof.Machine.execQtry pd q d s
  | .sgret a => Sys2Proof.Machine.execSgret a s
  | .sgstat d slot code => Sys2Proof.Machine.execSgstat d slot code s
  | .boost d imm => Sys2Proof.Machine.execBoost d imm s
  | .boostrel => Sys2Proof.Machine.execBoostrel s
  | .ffmaF32 d a b c => Sys2Proof.Machine.execFfmaF32 d a b c s
  | .hfmaF16 d a b c => Sys2Proof.Machine.execHfmaF16 d a b c s
  | .hfmaBf16 d a b c => Sys2Proof.Machine.execHfmaBf16 d a b c s
  | .imad d a b c => Sys2Proof.Machine.execImad d a b c s
  | .sel d a b p => Sys2Proof.Machine.execSel d a b p s
  | .bfe d a sgn pos len => Sys2Proof.Machine.execBfe d a sgn pos len s
  | .bfi d a b pos len => Sys2Proof.Machine.execBfi d a b pos len s
  | .iamin d a b c => Sys2Proof.Machine.execIamin d a b c s
  | .logt d a b c tt => Sys2Proof.Machine.execLogt d a b c tt s
  | .dot4I8 d a b c => Sys2Proof.Machine.execDot4I8 d a b c s
  | .spcmp d a c fmt half => Sys2Proof.Machine.execSpcmp d a c fmt half s
  | .iaddk d a k => Sys2Proof.Machine.execIaddk d a k s
  | .movk d k => Sys2Proof.Machine.execMovk d k s
  | .andk d a k => Sys2Proof.Machine.execAndk d a k s
  | .ork d a k => Sys2Proof.Machine.execOrk d a k s
  | .faddk d a k => Sys2Proof.Machine.execFaddk d a k s
  | .fmulk d a k => Sys2Proof.Machine.execFmulk d a k s
  | .ldl d b sz vi off => Sys2Proof.Machine.execLdl d b sz vi off s
  | .stl d b sz vi off => Sys2Proof.Machine.execStl d b sz vi off s
  | .ldx d b sz vi k off => Sys2Proof.Machine.execLdx d b sz vi k off s
  | .atom d b vi op ord ty scope val => Sys2Proof.Machine.execAtom d b vi op ord ty scope val s
  | .red b vi op ord ty scope val => Sys2Proof.Machine.execRed b vi op ord ty scope val s
  | .atoms d vi op ord ty scope val => Sys2Proof.Machine.execAtoms d vi op ord ty scope val s
  | .tcopyLd d a b lvl post n sswz => Sys2Proof.Machine.execTcopyLd d a b lvl post n sswz s
  | .tcopySt d a b lvl post n sswz => Sys2Proof.Machine.execTcopySt d a b lvl post n sswz s
  | .tcopyiPack d a b lvl post n sswz => Sys2Proof.Machine.execTcopyiPack d a b lvl post n sswz s
  | .tcopyiUnpack d a b lvl post n sswz => Sys2Proof.Machine.execTcopyiUnpack d a b lvl post n sswz s
  | .tmov d a src dst post => Sys2Proof.Machine.execTmov d a src dst post s
  | .mma accLo a b accHi ru zf fmt kb => Sys2Proof.Machine.execMma accLo a b accHi ru zf fmt kb s
  | .mmaSp accLo a b accHi ru zf fmt m kb => Sys2Proof.Machine.execMmaSp accLo a b accHi ru zf fmt m kb s
  | .accld a b fmt rows acc => Sys2Proof.Machine.execAccld a b fmt rows acc s
  | .accst a b fmt rows acc => Sys2Proof.Machine.execAccst a b fmt rows acc s
  | .accrd d cv cg acc => Sys2Proof.Machine.execAccrd d cv cg acc s
  | .accwr d cv cg acc => Sys2Proof.Machine.execAccwr d cv cg acc s
  | .sgcall d a slot pd => Sys2Proof.Machine.execSgcall d a slot pd s
  | .sgloadLoad d a slot => Sys2Proof.Machine.execSgloadLoad d a slot s
  | .sgloadQual d a slot => Sys2Proof.Machine.execSgloadQual d a slot s
  | .sgloadRel d slot => Sys2Proof.Machine.execSgloadRel d slot s
  | .sgloadClr d slot => Sys2Proof.Machine.execSgloadClr d slot s
  | .tdview d a ro => Sys2Proof.Machine.execTdview d a ro s
  | .coll d a op ty => Sys2Proof.Machine.execColl d a op ty s
  | .bpset d a k => Sys2Proof.Machine.execBpset d a k s
  | .wpset d a k => Sys2Proof.Machine.execWpset d a k s
  | .stepArm d a => Sys2Proof.Machine.execStepArm d a s
  | .stepOff d a => Sys2Proof.Machine.execStepOff d a s
  | .dbrd d a => Sys2Proof.Machine.execDbrd d a s
  | .dbwr d a b => Sys2Proof.Machine.execDbwr d a b s
  | .barrd d a => Sys2Proof.Machine.execBarrd d a s
  | .barwr d a b => Sys2Proof.Machine.execBarwr d a b s
  | .clauseIssue g => Sys2Proof.Machine.execClauseIssue g s
  | .activeSetEnter g => Sys2Proof.Machine.execActiveSetEnter g s
  | .activeSetLeave g => Sys2Proof.Machine.execActiveSetLeave g s
  | .groupAdmit g => Sys2Proof.Machine.execGroupAdmit g s
  | .swapOut g => Sys2Proof.Machine.execSwapOut g s
  | .swapIn g => Sys2Proof.Machine.execSwapIn g s
  | .groupFree g => Sys2Proof.Machine.execGroupFree g s
  | .loadReturn op line => Sys2Proof.Machine.execLoadReturn op line s
  | .lineArriveHome line => Sys2Proof.Machine.execLineArriveHome line s
  | .atomicPerform op lane => Sys2Proof.Machine.execAtomicPerform op lane s
  | .cellWaitGrant w => Sys2Proof.Machine.execCellWaitGrant w s
  | .tableWalk die job obj ext => Sys2Proof.Machine.execTableWalk die job obj ext s
  | .meteringWindow => Sys2Proof.Machine.execMeteringWindow s
  | .copyStart c => Sys2Proof.Machine.execCopyStart c s
  | .copyLine c => Sys2Proof.Machine.execCopyLine c s
  | .copyComplete c => Sys2Proof.Machine.execCopyComplete c s
  | .matrixCommandExecute core => Sys2Proof.Machine.execMatrixCommandExecute core s
  | .surrogateEvaluate call timing => Sys2Proof.Machine.execSurrogateEvaluate call timing s
  | .sgloadComplete op => Sys2Proof.Machine.execSgloadComplete op s
  | .recoveryGroupForm core slice => Sys2Proof.Machine.execRecoveryGroupForm core slice s
  | .retireGranule tag obj gran => Sys2Proof.Machine.execRetireGranule tag obj gran s
  | .contextRetireComplete tag => Sys2Proof.Machine.execContextRetireComplete tag s
  | .contextStallTimeout job => Sys2Proof.Machine.execContextStallTimeout job s
  | .barrierPhaseRelease bar core => Sys2Proof.Machine.execBarrierPhaseRelease bar core s
  | .releaseWindowEnd bar => Sys2Proof.Machine.execReleaseWindowEnd bar s
  | .trapEntry g => Sys2Proof.Machine.execTrapEntry g s
  | .watchpointReportDue g => Sys2Proof.Machine.execWatchpointReportDue g s
  | .timeSlice job => Sys2Proof.Machine.execTimeSlice job s
  | .preemptDrainTimeout job => Sys2Proof.Machine.execPreemptDrainTimeout job s
  | .jobRestore job => Sys2Proof.Machine.execJobRestore job s
  | .evict job cores => Sys2Proof.Machine.execEvict job cores s
  | .migrate block core => Sys2Proof.Machine.execMigrate block core s
  | .migrationAbandon block => Sys2Proof.Machine.execMigrationAbandon block s
  | .placeBlocks launch => Sys2Proof.Machine.execPlaceBlocks launch s
  | .blockCompletion block => Sys2Proof.Machine.execBlockCompletion block s
  | .tagPoolRequest cluster job => Sys2Proof.Machine.execTagPoolRequest cluster job s
  | .tagPoolGrant cluster job tags => Sys2Proof.Machine.execTagPoolGrant cluster job tags s
  | .stallReport g => Sys2Proof.Machine.execStallReport g s
  | .disableReport core sid => Sys2Proof.Machine.execDisableReport core sid s
  | .surrogateDisable core sid => Sys2Proof.Machine.execSurrogateDisable core sid s
  | .trapDispatch g => Sys2Proof.Machine.execTrapDispatch g s
  | .launchComplete launch => Sys2Proof.Machine.execLaunchComplete launch s
  | .bundleFetch port q => Sys2Proof.Machine.execBundleFetch port q s
  | .bundleAdmit bundle => Sys2Proof.Machine.execBundleAdmit bundle s
  | .bundleRetire bundle => Sys2Proof.Machine.execBundleRetire bundle s
  | .codeLoad cluster launch base => Sys2Proof.Machine.execCodeLoad cluster launch base s
  | .copyProgramRun bundle sub => Sys2Proof.Machine.execCopyProgramRun bundle sub s
  | .surrogateLoadSublaunch bundle sub => Sys2Proof.Machine.execSurrogateLoadSublaunch bundle sub s
  | .collectiveSublaunch bundle sub => Sys2Proof.Machine.execCollectiveSublaunch bundle sub s
  | .collectiveComplete c peers fault => Sys2Proof.Machine.execCollectiveComplete c peers fault s
  | .boostBoundary => Sys2Proof.Machine.execBoostBoundary s
  | .sustainedPowerLimit => Sys2Proof.Machine.execSustainedPowerLimit s
  | .emergencyPowerLimit => Sys2Proof.Machine.execEmergencyPowerLimit s
  | .sliceRatioChange core slice up => Sys2Proof.Machine.execSliceRatioChange core slice up s
  | .sensorSample sensor value => Sys2Proof.Machine.execSensorSample sensor value s
  | .voltageDroop core => Sys2Proof.Machine.execVoltageDroop core s
  | .coreAvoid core => Sys2Proof.Machine.execCoreAvoid core s
  | .coreReadmit core => Sys2Proof.Machine.execCoreReadmit core s
  | .wearAccumulate => Sys2Proof.Machine.execWearAccumulate s
  | .wearReportRefresh => Sys2Proof.Machine.execWearReportRefresh s
  | .retentionEntry arr seg => Sys2Proof.Machine.execRetentionEntry arr seg s
  | .retentionExit arr seg bad => Sys2Proof.Machine.execRetentionExit arr seg bad s
  | .hostLinkDown port => Sys2Proof.Machine.execHostLinkDown port s
  | .hostMemoryAccess port addr len data => Sys2Proof.Machine.execHostMemoryAccess port addr len data s
  | .registerJob port => Sys2Proof.Machine.execRegisterJob port s
  | .unregisterJob port => Sys2Proof.Machine.execUnregisterJob port s
  | .claimFrames port => Sys2Proof.Machine.execClaimFrames port s
  | .releaseFrames port => Sys2Proof.Machine.execReleaseFrames port s
  | .defineCommunicator port => Sys2Proof.Machine.execDefineCommunicator port s
  | .attest port => Sys2Proof.Machine.execAttest port s
  | .sqWritePointer port q v => Sys2Proof.Machine.execSqWritePointer port q v s
  | .sqEnable port q on => Sys2Proof.Machine.execSqEnable port q on s
  | .registerWrite port off v => Sys2Proof.Machine.execRegisterWrite port off v s
  | .granialeFlitReceive port flit crcOk => Sys2Proof.Machine.execGranialeFlitReceive port flit crcOk s
  | .linkWidthChange port lanes => Sys2Proof.Machine.execLinkWidthChange port lanes s
  | .powerOnReset fwOk shOk => Sys2Proof.Machine.execPowerOnReset fwOk shOk s
  | .peerLost pkg => Sys2Proof.Machine.execPeerLost pkg s
  | .hostLinkUp port => Sys2Proof.Machine.execHostLinkUp port s

end Sys2Proof.Machine
end

