-- ==== Sys2Proof/Machine/Step.lean ====
section
/-!
DEFINITION. One step of the part, and the state whose next step fetches and runs a given word (assumption log 8).
-/

namespace Sys2Proof.Machine

/-- One step: the next turn (R103, assumption log 1), with every instruction and event meaning what exec says. -/
def step (s : State) : Host.Outcome State Fault Refusal := stepWith exec s

/-- The kernel that withFetchWord stands in for a loaded one: one group of 8 lanes with every register name. -/
def probeKernel (code : List Word) : Kernel where
  name := []
  version := 0
  native := false
  width := 8
  groups := 1
  gang := 1
  vregs := 192
  sregs := 64
  scratch := 4096
  cscratch := 4096
  acc := 4
  blockBars := 16
  gangBars := 8
  gridBars := 4
  ctxbudget := 16
  regions := (List.range 64).map fun k => ⟨k, 1, 1, 16, 0, 0⟩
  code := code
  headers := [0]
  external := []
  waits := []

/-- The launch of the probe kernel. -/
def probeLaunch (code : List Word) : Launch :=
  { job := 0, bundle := 0, sub := 0, number := 0, kernel := probeKernel code, codeObj := (0, 0), gx := 1, gy := 1
    gz := 1, lanes := 8, dieScratch := 0, arg := [0#32, 0#32, 0#32, 0#32], leases := [], viewFirst := 0
    viewCount := 0, handler := none, bindings := [1, 2, 1, 2, 3, 4, 3, 4, 1, 2, 1, 2, 3, 4, 3, 4], coop := false
    wantCtx := false, ctx := none, commit := false, map := 0, ownMap := none, admitted := true
    gangs := [(0, ⟨0, [], barsInit 8 1 0⟩)]
    gridBars := barsInit 4 1 0, scratch := [], blocksDone := 0, late := 0
    status := none, retired := false }

/-- Its only block, on core 0. -/
def probeBlock : Block :=
  { launch := 0, index := 0, gang := 0, core := 0, groups := [0], scratch := [], tiles := [0, 1, 2, 3]
    savedTiles := [], bars := barsInit 16 1 0, state := .running }

/-- Its job. -/
def probeJob : Job :=
  { port := 0, tagBudget := 16, capacity := 1, tensorTable := 0, objectTable := 0, saveArea := 0, saveSize := 0
    queues := 0#64, coreMask := 1#128, comms := [], comparators := [], credits := [], faults := [], events := 0
    slice := .running, stalled := none, savedWatch := [], digests := [] }

/-- The header of a clause of n words of a class (R26), unguarded, without thresholds or stall. -/
def plainHeader (cls n : Nat) : Word :=
  BitVec.ofNat 32 (0xB * 2 ^ 28 + n * 2 ^ 24 + cls * 2 ^ 21 + 0x7FFC)

/-- The state whose next step fetches and runs one given instruction (assumption log 8): a kernel that holds it is
loaded in cluster 0, its one group stands at the instruction in the active set of slice 0 of core 0 with every lane
in Exec, and the next turn is that slice's. -/
def State.withFetchWord (s : State) (nbits w : Nat) : State :=
  let n := w % 2 ^ nbits
  let w0 : Word := BitVec.ofNat 32 n
  let w1 : Word := BitVec.ofNat 32 (n / 2 ^ 32)
  let words := if isTwoWord w0 then [w0, w1] else [w0]
  let cls := match decodeTableWord nbits w with
    | some i => (i.cls.map classNum).getD 0
    | none => 0
  let h := plainHeader cls words.length
  let code := h :: words
  let g := { Group.start 0 (some 0) 0 0 0 (probeKernel code) 0xFF#64 0#64 0 with
    res := .held, clause := some ⟨0, h, 1, 0xFF#64, 0xFF#64, 0, false⟩ }
  { s with
    turns := [⟨0, [], [], .slice 0 0 0⟩]
    groups := [(0, g)]
    slices := Tab.set s.slices 0 { Slice.reset with active := [0] }
    clusters := Tab.upd s.clusters 0 fun c => { c with
      code := (List.range code.length).map fun k => (k, code.getD k 0#32)
      starts := [(0, true)]
      loads := [⟨0, [], 0, (0, 0), 0, code.length, false⟩] }
    work := { s.work with
      jobs := [(0, probeJob)], launches := [(0, probeLaunch code)], blocks := [(0, probeBlock)] } }

end Sys2Proof.Machine
end

