-- ==== Sys2Proof/Safety.lean ====
section
/-!
DEFINITION. What counts as a safe step, in the terms the claims use: when a group's word is ready to issue, what the
rules say each register-only instruction leaves in its destinations, and the parts of the state a claim calls
unchanged.
-/

namespace Sys2Proof.Machine

/-! ### When a word issues -/

/-- The group `gid` stands at the instruction `i` of its clause `cl`, with the results due by now landed in `g`, and
nothing keeps the word from issuing: no check of R54 raises a cause, the scoreboard and the thresholds let it pass,
and no imprecise report falls due before it. -/
structure Ready (i : Instr) (s : State) (gid : Nat) (g : Group) (cl : Clause) : Prop where
  cur : s.cur = some gid
  group : (Tab.get? s.groups gid).map Group.landDue = some g
  clause : g.clause = some cl
  checked : s.checks g cl i = none
  free : g.blocked cl i = false
  report : g.dueReport = none

/-- No single step is armed, and some lane of the group is active, so that no park deadlock follows the word. -/
structure Steady (g : Group) : Prop where
  step : g.step = false
  lanes : g.lanes.active ≠ 0#64

/-- The state after a word of group `gid` that changes only the group, to `g'`, and moves on (R90); a word that reads
the status of the group's TDVIEW observes it (R210). -/
def State.after (s : State) (gid : Nat) (g' : Group) (cl : Clause) (i : Instr) : State :=
  ((s.setGroup gid g').observe gid i).setGroup gid (g'.advance cl i .seq)

/-- An answer that is a next state with a property. -/
def Answers (r : Res) (P : State → Prop) : Prop := ∃ t, r = .next t ∧ P t

/-- The group under a number after a step, with a property. -/
def State.GroupIs (t : State) (gid : Nat) (P : Group → Prop) : Prop := ∃ g', Tab.get? t.groups gid = some g' ∧ P g'

/-- Nothing but one group differs, and which descriptors of its own it has observed (R210). -/
structure OnlyGroup (s t : State) (gid : Nat) : Prop where
  others : ∀ k, k ≠ gid → Tab.get? t.groups k = Tab.get? s.groups k
  rest : t = { s with groups := t.groups, views := t.views }
  views : t.views.map (fun v => { v with observed := false, lost := none }) = s.views.map fun v =>
    { v with observed := false, lost := none }

/-- Every byte of device memory and every byte of every scratchpad of a block reads as before. -/
structure SameMemory (s t : State) : Prop where
  hbm : ∀ a n, t.hbmRead a n = s.hbmRead a n
  blocks : t.work.blocks = s.work.blocks
  launches : t.work.launches = s.work.launches
  cells : t.kennel = s.kennel

/-- What a read of a place a result lands in gives: a register of a lane, a scalar, a predicate's bit, an index
register. -/
def Group.reads (g : Group) : Target → Word
  | .v r lane => g.rdV r lane
  | .s r => g.rdS r
  | .p k lane => if (g.rdP k).getLsbD lane then 1#32 else 0#32
  | .x k lane => g.rdX k lane

/-- A place of one of the 64 lanes, or a scalar. -/
def Target.inLanes : Target → Prop
  | .v _ lane => lane < 64
  | .s _ => True
  | .p _ lane => lane < 64
  | .x _ lane => lane < 64

/-- A predicate's value is true or false. -/
def truthValue : Target × Word → Prop
  | (.p _ _, w) => w = 0#32 ∨ w = 1#32
  | _ => True

/-- The value a list of writes gives a place, or what it held. -/
def written (ws : List (Target × Word)) (t : Target) (old : Word) : Word :=
  ((ws.find? fun w => w.1 = t).map Prod.snd).getD old

/-- What R98 makes of a rejoin mask: `act` the active lanes, `jk` the enrolled lanes and `pk` the lanes parked on it
beforehand. -/
structure Rejoins (l : LaneState) (k : Nat) (act jk pk : Mask) : Prop where
  released : pk ≠ 0#64 → jk &&& ~~~pk = 0#64 →
    l.active = act ||| pk ∧ Tab.getD l.parked k 0#64 = 0#64 ∧ Tab.getD l.j k 0#64 = 0#64 ∧
      ∀ lane, lane < 64 → pk.getLsbD lane = true → Tab.getD l.lage lane 0 = 0
  waiting : (pk = 0#64 ∨ jk &&& ~~~pk ≠ 0#64) →
    l.active = act ∧ Tab.getD l.parked k 0#64 = pk ∧ Tab.getD l.j k 0#64 = jk

/-- The mask k releases its parked lanes once the lanes of `m` have left it (R98). -/
def LaneState.Releases (l : LaneState) (m : Mask) (k : Nat) : Prop :=
  Tab.getD l.parked k 0#64 ≠ 0#64 ∧ Tab.getD l.j k 0#64 &&& ~~~m &&& ~~~Tab.getD l.parked k 0#64 = 0#64

/-- What EXIT by the lanes of `m` makes of the lanes `l` (R98, R107): they have exited and left every mask, and each mask
that is then met releases its parked lanes. -/
structure Exits (l l' : LaneState) (m : Mask) : Prop where
  exited : l'.exited = l.exited ||| m
  released : ∀ k, k < 8 → l.Releases m k → Tab.getD l'.parked k 0#64 = 0#64 ∧ Tab.getD l'.j k 0#64 = 0#64 ∧
    ∀ lane, lane < 64 → (Tab.getD l.parked k 0#64).getLsbD lane = true → Tab.getD l'.lage lane 0 = 0
  waiting : ∀ k, k < 8 → ¬l.Releases m k → Tab.getD l'.parked k 0#64 = Tab.getD l.parked k 0#64 ∧
    Tab.getD l'.j k 0#64 = Tab.getD l.j k 0#64 &&& ~~~m
  active : ∀ lane, lane < 64 → (l'.active.getLsbD lane = true ↔
    (l.active.getLsbD lane = true ∧ m.getLsbD lane = false) ∨
      ∃ k, k < 8 ∧ l.Releases m k ∧ (Tab.getD l.parked k 0#64).getLsbD lane = true)

/-- A word's effect is done, in a state where the group is as `P` says, and leaves parked lanes only: it raises a park
deadlock, whose resume point is the clause's end (R100, R364). -/
def Deadlocks (i : Instr) (s : State) (gid : Nat) (cl : Clause) (P : Group → Prop) : Prop :=
  ∃ u : State, OnlyGroup s u gid ∧ u.GroupIs gid P ∧ exec i s = .next (u.raise gid cl (.plain 0x0D) cl.pos 0 false)

/-- The word raises a cause before any effect (R54, R355). -/
def Traps (i : Instr) (s : State) (gid : Nat) (cl : Clause) (c : Cause) : Prop :=
  exec i s = .next (s.raise gid cl c cl.pos cl.pos false)

/-- The word ends the task with a launch status: the launch's groups are gone (R212, R356). -/
def EndsTask (i : Instr) (s : State) (g : Group) (status : Nat) : Prop :=
  Answers (exec i s) fun t => t.hbm = s.hbm ∧
    (∀ k x, Tab.get? s.groups k = some x → x.launch = g.launch → Tab.get? t.groups k = none) ∧
    ∀ l, Tab.get? s.work.launches g.launch = some l → l.status = none →
      (Tab.get? t.work.launches g.launch).map Launch.status = some (some status)

/-- A mask of lanes holds those of Exec that are no helper lanes and that a test names. -/
def Group.Names (g : Group) (m : Mask) (p : Nat → Prop) : Prop :=
  ∀ k, k < 64 → (m.getLsbD k = true ↔ g.active.getLsbD k = true ∧ p k)

/-- The start of the n-th instruction of a clause whose words are given (R43). -/
def wordStart (words : Nat → Word) : Nat → Nat
  | 0 => 1
  | n + 1 => wordStart words n + if isTwoWord (words (wordStart words n)) then 2 else 1

/-- A resume point that TRET does not take (R364): `r` the record's resume index, `header` its clause. -/
structure BadResume (s : State) (g : Group) (f : TrapFrame) : Prop where
  bad : let r := recResume f.record
    let words := fun k => s.codeWord g ((recWord f.record 2).toNat + k)
    let exec := recWord f.record 7 ++ recWord f.record 6
    let served := recWord f.record 9 ++ recWord f.record 8
    exec &&& ~~~served ≠ 0#64 ∨
    ((recWord f.record 0).toNat % 2 ^ 8 ≠ 0x0D ∧ (recWord f.record 0).getLsbD 10 = false) ∨
    ((recWord f.record 0).toNat % 2 ^ 8 = 0x0D ∧ f.lanes.active = 0#64) ∨
    (f.header = true ∧ r ≠ 0) ∨
    (f.header = false ∧ (hdrN (words 0) < r ∨
      (∃ n, wordStart words n + 1 = r ∧ isTwoWord (words (wordStart words n)) = true) ∨
      (r ≠ 0 ∧ ∃ k, k < 64 ∧ served.getLsbD k = true ∧ Tab.getD f.lanes.lpc k 0 ≠ (recWord f.record 2).toNat)))

/-- The word index where a trap taken after an instruction re-enters its clause, 0 past its end (R360). -/
def resumeAfter (cl : Clause) (i : Instr) : Nat := if cl.nextPos i ≤ hdrN cl.hw then cl.nextPos i else 0

/-- A group's launch has a trap handler, its code is loaded, and a save area of its core is free with no earlier trap
waiting for one and no segment in retention, so that a trap raised now is entered at once (R357, R170, R187). -/
structure TrapEnters (s : State) (g : Group) (l : Launch) (code : CodeLoad) (handler : Nat) : Prop where
  trap : g.trap = none
  launch : s.launch? g = some l
  handler : l.handler = some handler
  code : s.codeOf (clusterOf g.core) g.launch = some code
  res : g.res ≠ .saved
  free : s.freeAreas g.core ≠ []
  first : ∀ n, s.trapAhead g n = false
  awake : s.retained = []

/-- The group `gid` of `t` runs its handler from its entry, with the lane state a handler starts with and `record` in
its save area, having interrupted a group in the state `g` (R357, R358). -/
structure InHandler (t : State) (gid : Nat) (g : Group) (entry : Nat) (record : List Word) (g' : Group) : Prop where
  here : Tab.get? t.groups gid = some g'
  entered : g'.inHandler = true
  frame : ∃ f area, g'.trap = some f ∧ f.record = record ∧ f.lanes = g.flush.lanes ∧ f.area = some area ∧ area < 16 ∧
    (Tab.get? t.cores g.core).bind (fun c => Tab.get? c.areas area) = some gid
  clause : g'.clause = none
  landed : g'.inflight = [] ∧ g'.v = g.flush.v ∧ g'.s = g.flush.s
  lanes : ∀ k, k < 64 → (g'.lanes.active.getLsbD k = true ↔
    g.flush.lanes.active.getLsbD k = true ∨ ∃ e ∈ g.flush.lanes.parked, e.2.getLsbD k = true)
  lpc : ∀ k, k < 64 → g'.lanes.active.getLsbD k = true → g'.lpcOf k = entry ∧ g'.lageOf k = 0
  fresh : g'.lanes.parked = [] ∧ g'.lanes.exited = 0#64 ∧ g'.lanes.p = [] ∧ g'.lanes.x = [] ∧ g'.lanes.j = [] ∧
    g'.lanes.rep = 0 ∧ g'.lanes.agelimit = 256 ∧ g'.lanes.rmode = 0#2 ∧ g'.lanes.fflags = 0#5 ∧ g'.lanes.ctag = 0#16

/-! ### What the rules give a register-only instruction -/

/-- The fixed latency, the destination and lane k's result of an integer, bit or sign-bit instruction (R140 to R145,
R147, R149, R152 to R156, R133, R136), computed from the sources as the rules word it. -/
def intResult (i : Instr) (g : Group) (k : Nat) : Option (Nat × Reg × Word) :=
  let int := fun (n : Int) => BitVec.ofInt 32 n
  let nat := fun (n : Nat) => BitVec.ofNat 32 n
  let rol := fun (a : Word) (n : Nat) => (a <<< n) ||| (a >>> (32 - n))
  let sar := fun (a : Word) (n : Nat) => BitVec.ofInt 32 (a.toInt / 2 ^ n)
  let A := fun (r : Reg) => g.src r 0 k
  match i with
  | .iadd d a b => some (2, d, nat ((A a).toNat + (A b).toNat))
  | .isub d a b => some (2, d, int ((A a).toNat - (A b).toNat))
  | .imul d a b => some (2, d, nat ((A a).toNat * (A b).toNat))
  | .imulhiI32 d a b => some (2, d, int ((A a).toInt * (A b).toInt / 2 ^ 32))
  | .imulhiUi32 d a b => some (2, d, nat ((A a).toNat * (A b).toNat / 2 ^ 32))
  | .iminI32 d a b => some (2, d, int (min (A a).toInt (A b).toInt))
  | .iminUi32 d a b => some (2, d, nat (min (A a).toNat (A b).toNat))
  | .imaxI32 d a b => some (2, d, int (max (A a).toInt (A b).toInt))
  | .imaxUi32 d a b => some (2, d, nat (max (A a).toNat (A b).toNat))
  | .andR d a b => some (2, d, A a &&& A b)
  | .orR d a b => some (2, d, A a ||| A b)
  | .xorR d a b => some (2, d, A a ^^^ A b)
  | .shl d a b => some (2, d, nat ((A a).toNat * 2 ^ ((A b).toNat % 32)))
  | .shr d a b => some (2, d, nat ((A a).toNat / 2 ^ ((A b).toNat % 32)))
  | .sar d a b => some (2, d, sar (A a) ((A b).toNat % 32))
  | .rot d a b => some (2, d, rol (A a) ((A b).toNat % 32))
  | .mov d a => some (2, d, A a)
  | .notR d a => some (2, d, nat (2 ^ 32 - 1 - (A a).toNat))
  | .ineg d a => some (2, d, int (-(A a).toInt))
  | .iabs d a => some (2, d, nat (A a).toInt.natAbs)
  | .clz d a => some (2, d, nat ((List.range 32).filter fun j => decide ((A a).toNat < 2 ^ j)).length)
  | .popc d a => some (2, d, nat ((List.range 32).filter fun j => (A a).getLsbD j).length)
  | .brev d a => some (2, d, (A a).reverse)
  | .iaddsatI32 d a b => some (2, d, int (max (-2 ^ 31) (min (2 ^ 31 - 1) ((A a).toInt + (A b).toInt))))
  | .isubsatI32 d a b => some (2, d, int (max (-2 ^ 31) (min (2 ^ 31 - 1) ((A a).toInt - (A b).toInt))))
  | .iaddsatUi32 d a b => some (2, d, nat (min (2 ^ 32 - 1) ((A a).toNat + (A b).toNat)))
  | .iamini d a imm => some (4, d, int (min (A d).toInt (int ((A a).toInt + imm.toInt)).toInt))
  | .iaddi d a imm => some (2, d, int ((A a).toInt + imm.toInt))
  | .andi d a imm => some (2, d, A a &&& nat imm.toNat)
  | .ori d a imm => some (2, d, A a ||| nat imm.toNat)
  | .xori d a imm => some (2, d, A a ^^^ nat imm.toNat)
  | .shli d a imm => some (2, d, nat ((A a).toNat * 2 ^ (imm.toNat % 32)))
  | .shri d a imm => some (2, d, nat ((A a).toNat / 2 ^ (imm.toNat % 32)))
  | .sari d a imm => some (2, d, sar (A a) (imm.toNat % 32))
  | .roti d a imm => some (2, d, rol (A a) (imm.toNat % 32))
  | .movi d imm => some (2, d, int imm.toInt)
  | .movhi d imm => some (2, d, nat (imm.toNat * 2 ^ 16 + (A d).toNat % 2 ^ 16))
  | .imuli d a imm => some (2, d, int ((A a).toInt * imm.toInt))
  | .iaddk d a c => some (2, d, nat ((A a).toNat + c.toNat))
  | .movk d c => some (2, d, c)
  | .andk d a c => some (2, d, A a &&& c)
  | .ork d a c => some (2, d, A a ||| c)
  | .fabs d a => some (4, d, nat ((A a).toNat % 2 ^ 31))
  | .fneg d a => some (4, d, nat ((A a).toNat + 2 ^ 31))
  | .fclass d a => some (4, d, nat (fclass32 (A a).toNat))
  | .imad d a b c => some (4, d, nat ((A a).toNat * (A b).toNat + (A c).toNat))
  | .iamin d a b c => some (4, d, int (min (A a).toInt (int ((A b).toInt + (A c).toInt)).toInt))
  | .sel d a b p => some (2, d, if (g.rdP p.toNat).getLsbD k then A a else A b)
  | .bfe d a sg pos len =>
    let w := min len.toNat (32 - pos.toNat)
    let f := (A a).toNat / 2 ^ pos.toNat % 2 ^ w
    some (2, d, if sg && decide (0 < w) && decide (2 ^ (w - 1) ≤ f) then int ((f : Int) - 2 ^ w) else nat f)
  | .bfi d a b pos len =>
    let w := min len.toNat (32 - pos.toNat)
    let lo := (A b).toNat % 2 ^ pos.toNat
    let hi := (A b).toNat / 2 ^ (pos.toNat + w)
    some (2, d, nat (lo + (A a).toNat % 2 ^ w * 2 ^ pos.toNat + hi * 2 ^ (pos.toNat + w)))
  | .logt d a b c tt => some (2, d, BitVec.ofFnLE fun (j : Fin 32) =>
      tt.getLsbD (((A a).getLsbD j).toNat + 2 * ((A b).getLsbD j).toNat + 4 * ((A c).getLsbD j).toNat))
  | .dot4I8 d a b c =>
    let el := fun (w : Word) (j : Nat) => (w.extractLsb' (8 * j) 8).toInt
    some (4, d, int ((A c).toInt + el (A a) 0 * el (A b) 0 + el (A a) 1 * el (A b) 1 + el (A a) 2 * el (A b) 2 +
      el (A a) 3 * el (A b) 3))
  | .ptov d pa => some (2, d, if (g.rdP pa.toNat).getLsbD k then 1#32 else 0#32)
  | .xrd d x => some (2, d, g.rdX x.toNat k)
  | _ => none

/-- The fixed latency, the destination, and lane k's result and flags of a floating-point instruction, a packed one
or a conversion (R145 to R152, R158), from the roundings of the numbers chapter (R66 to R86). -/
def fpResult (i : Instr) (g : Group) (k : Nat) : Option (Nat × Reg × (Nat × FFlags)) :=
  let A := fun (r : Reg) => (g.src r 0 k).toNat
  let lo := fun (n : Nat) => n % 2 ^ 16
  let hi := fun (n : Nat) => n / 2 ^ 16
  let two := fun (x y : Nat × FFlags) => (y.1 * 2 ^ 16 + x.1, y.2 ||| x.2)
  match i with
  | .fadd d a b => some (4, d, fp32.add g.mode (A a) (A b))
  | .fsub d a b => some (4, d, fp32.sub g.mode (A a) (A b))
  | .fmul d a b => some (4, d, fp32.mul g.mode (A a) (A b))
  | .faddk d a c => some (4, d, fp32.add g.mode (A a) c.toNat)
  | .fmulk d a c => some (4, d, fp32.mul g.mode (A a) c.toNat)
  | .fmin d a b => some (4, d, fp32.minCode (A a) (A b))
  | .fmax d a b => some (4, d, fp32.maxCode (A a) (A b))
  | .ffmaF32 d a b c => some (4, d, fp32.fma g.mode (A a) (A b) (A c))
  | .frcp d a => some (8, d, frcp32 g.mode (A a))
  | .frsq d a => some (8, d, frsq32 (A a))
  | .fsqrt d a => some (8, d, fsqrt32 g.mode (A a))
  | .fexp2 d a => some (8, d, fexp232 (A a))
  | .flog2 d a => some (8, d, flog232 (A a))
  | .fsin d a => some (8, d, fsin32 (A a))
  | .fcos d a => some (8, d, fcos32 (A a))
  | .frnd d a mode => some (4, d, frnd32 (RMode.ofBits (mode.extractLsb' 0 2)) (A a))
  | .haddF16 d a b => some (4, d, two (fp16.add g.mode (lo (A a)) (lo (A b))) (fp16.add g.mode (hi (A a)) (hi (A b))))
  | .hmulF16 d a b => some (4, d, two (fp16.mul g.mode (lo (A a)) (lo (A b))) (fp16.mul g.mode (hi (A a)) (hi (A b))))
  | .hminF16 d a b => some (4, d, two (fp16.minCode (lo (A a)) (lo (A b))) (fp16.minCode (hi (A a)) (hi (A b))))
  | .hmaxF16 d a b => some (4, d, two (fp16.maxCode (lo (A a)) (lo (A b))) (fp16.maxCode (hi (A a)) (hi (A b))))
  | .haddBf16 d a b => some (4, d, two (bf16.add .even (lo (A a)) (lo (A b))) (bf16.add .even (hi (A a)) (hi (A b))))
  | .hmulBf16 d a b => some (4, d, two (bf16.mul .even (lo (A a)) (lo (A b))) (bf16.mul .even (hi (A a)) (hi (A b))))
  | .hminBf16 d a b => some (4, d, two (bf16.minCode (lo (A a)) (lo (A b))) (bf16.minCode (hi (A a)) (hi (A b))))
  | .hmaxBf16 d a b => some (4, d, two (bf16.maxCode (lo (A a)) (lo (A b))) (bf16.maxCode (hi (A a)) (hi (A b))))
  | .hfmaF16 d a b c => some (4, d, two (fp16.fma g.mode (lo (A a)) (lo (A b)) (lo (A c)))
      (fp16.fma g.mode (hi (A a)) (hi (A b)) (hi (A c))))
  | .hfmaBf16 d a b c => some (4, d, two (bf16.fma .even (lo (A a)) (lo (A b)) (lo (A c)))
      (bf16.fma .even (hi (A a)) (hi (A b)) (hi (A c))))
  | .pkh d a fmt =>
    let narrow := fun (n : Nat) => if fmt = 0#8 then fp32.convert fp16 g.mode n else fp32.convert bf16 .even n
    some (4, d, two (narrow (A a)) (narrow (g.src a 1 k).toNat))
  | .cvt d a code => some (4, d,
      if code = 0x24#8 then cvtBlock 8 g a k
      else if code = 0x25#8 then cvtBlock 6 g a k
      else
        let r := cvtWord code.toNat g.mode (g.src a 0 k) (if d.isScalar then 0 else k % 16)
        (r.1.toNat, r.2))
  | _ => none

/-- The fixed latency, the predicate and lane k's truth of a predicate-writing ALU instruction (R132, R133, R157,
R166). -/
def predResult (i : Instr) (g : Group) (k : Nat) : Option (Nat × Nat × Bool) :=
  let P := fun (q : BitVec 4) (j : Nat) => (g.rdP q.toNat).getLsbD j
  match i with
  | .icmpI32 pd cond a b =>
    let x := (g.src a 0 k).toInt
    let y := (g.src b 0 k).toInt
    some (2, pd.toNat, match cond.toNat with
      | 0 => decide (x = y) | 1 => decide (x ≠ y) | 2 => decide (x < y)
      | 3 => decide (x ≤ y) | 4 => decide (x > y) | _ => decide (x ≥ y))
  | .icmpUi32 pd cond a b =>
    let x := (g.src a 0 k).toNat
    let y := (g.src b 0 k).toNat
    some (2, pd.toNat, match cond.toNat with
      | 0 => decide (x = y) | 1 => decide (x ≠ y) | 2 => decide (x < y)
      | 3 => decide (x ≤ y) | 4 => decide (x > y) | _ => decide (x ≥ y))
  | .fcmp pd cond a b =>
    some (4, pd.toNat, condFp cond.toNat (fp32.unpack (g.src a 0 k).toNat) (fp32.unpack (g.src b 0 k).toNat))
  | .plop pd tt pa pb => some (2, pd.toNat, tt.getLsbD (2 * (P pa k).toNat + (P pb k).toNat))
  | .vtop pd a => some (2, pd.toNat, decide (g.src a 0 k ≠ 0#32))
  | .gany pd pa => some (6, pd.toNat, (List.range 64).any fun j => g.active.getLsbD j && P pa j)
  | .gall pd pa => some (6, pd.toNat, (List.range 64).all fun j => !g.active.getLsbD j || P pa j)
  | _ => none

/-- The destination and lane k's result of a lane exchange (R160 to R162, R164), none where the lane keeps its
register. -/
def exchangeResult (i : Instr) (g : Group) (k : Nat) : Option (Reg × Option Word) :=
  let quad := k / 4 * 4
  let contrib := fun (a : Reg) (ident : Int) (j : Nat) => if g.active.getLsbD j then (g.src a 0 j).toInt else ident
  let fold := fun (f : Int → Int → Int) (init : Int) (x : Nat → Int) (n : Nat) =>
    BitVec.ofInt 32 ((List.range n).foldl (fun acc j => f acc (x j)) init)
  match i with
  | .qswz d a imm => some (d, some (g.peer a (quad + (imm.toNat / 4 ^ (k % 4)) % 4)))
  | .qbc d a imm => some (d, some (g.peer a (quad + imm.toNat)))
  | .lshup d a imm => some (d, if imm.toNat ≤ k then some (g.peer a (k - imm.toNat)) else none)
  | .lshdn d a imm => some (d, if k + imm.toNat < g.width then some (g.peer a (k + imm.toNat)) else none)
  | .lshfx d a b =>
    some (d, some (if (g.src b 0 k).toNat < g.width then g.peer a (g.src b 0 k).toNat else 0#32))
  | .rdlane d a imm => some (d, some (if g.present imm.toNat then g.src a 0 imm.toNat else 0#32))
  | .wrlane d a imm => some (d, if k = imm.toNat then some (g.sval a 0) else none)
  | .grediAdd d a => some (d, some (fold (· + ·) 0 (contrib a 0) g.width))
  | .grediMin d a => some (d, some (fold min (2 ^ 31 - 1) (contrib a (2 ^ 31 - 1)) g.width))
  | .grediMax d a => some (d, some (fold max (-2 ^ 31) (contrib a (-2 ^ 31)) g.width))
  | .gscanAdd d a => some (d, some (fold (· + ·) 0 (contrib a 0) (min g.width (k + 1))))
  | _ => none

/-- The fixed latency and the writes of an instruction that writes a register pair (R158, R163, R295), or of one that reads
or changes an index register (R136, R137), through which every access is in bounds and reaches no pending register. -/
def pairOrIndexWrites (i : Instr) (g : Group) : Option (Nat × List (Target × Word)) :=
  let through := fun (x : BitVec 3) (imm : BitVec 8) (f : Nat → Nat → Target × Word) =>
    if xBad g x imm = 0#64 ∧ xPend g x imm = false then
      some (2, (maskList g.exec).filterMap fun k => (xReg g x imm k).map fun r => f k r)
    else none
  match i with
  | .upkh d a fmt =>
    let wide := fun n => BitVec.ofNat 32 (if fmt = 0#8 then (fp16.convert fp32 .even n).1 else (bf16.convert fp32 .even n).1)
    some (4, (g.dest d 0 fun k => wide ((g.src a 0 k).toNat % 2 ^ 16)) ++
      g.dest d 1 fun k => wide ((g.src a 0 k).toNat / 2 ^ 16))
  | .gbal d pa =>
    let votes := g.exec &&& ~~~g.helpers &&& g.rdP pa.toNat
    some (6, (g.dest d 0 fun _ => votes.extractLsb' 0 32) ++ g.dest d 1 fun _ => votes.extractLsb' 32 32)
  | .spcmp d a c fmt half =>
    let r := fun k => spcmpWords fmt half (g.src a 0 k) (g.src a 1 k) (g.src c 0 k)
    some (4, (g.dest d 0 fun k => (r k).1) ++ g.dest c 0 fun k => (r k).2)
  | .xset x base len => some (2, (maskList g.exec).map fun k =>
      (Target.x x.toNat k, BitVec.ofNat 32 (len.toNat * 2 ^ 8 + base.toNat)))
  | .xinc x imm => some (2, (maskList g.exec).map fun k =>
      let w := g.rdX x.toNat k
      let cursor : BitVec 16 := BitVec.ofInt 16 ((w.toNat / 2 ^ 16 : Int) + imm.toInt)
      (Target.x x.toNat k, BitVec.ofNat 32 (cursor.toNat * 2 ^ 16 + w.toNat % 2 ^ 16)))
  | .movxr d x imm => through x imm fun k r => (Target.v (g.phys d 0) k, g.rdV r k)
  | .movxw a x imm => through x imm fun k r => (Target.v r k, g.src a 0 k)
  | _ => none

/-- The group as an exchange leaves it before it moves on: a lane that the exchange does not write keeps its register. -/
def Group.exchanged (g : Group) (native : Bool) (i : Instr) (d : Reg) : Group :=
  let r := fun k => (exchangeResult i g k).bind Prod.snd
  g.fixed native 6 (match d with
    | .v _ => (maskList g.exec).filterMap fun k => (r k).map fun w => (Target.v (g.phys d 0) k, w)
    | .s _ => g.dest d 0 fun k => (r k).getD 0#32)

/-- The group as the floating-point reduction leaves it before it moves on (R165). -/
def Group.reduced (g : Group) (native : Bool) (d a : Reg) : Group :=
  (g.fixed native 6 (g.dest d 0 fun _ => BitVec.ofNat 32 (gredf g a).1)).addFlags
    (if g.active = 0#64 then 0#5 else (gredf g a).2)

/-- The group as a register-only instruction leaves it before it moves on, by the results above. -/
structure RanOnce (i : Instr) (g : Group) (native : Bool) (g' : Group) : Prop where
  ran : (∃ lat d w, intResult i g 0 = some (lat, d, w) ∧
      g' = g.fixed native lat (g.dest d 0 fun k => ((intResult i g k).map fun r => r.2.2).getD 0#32)) ∨
    (∃ lat d w, fpResult i g 0 = some (lat, d, w) ∧
      let r := fun k => ((fpResult i g k).map fun r => r.2.2).getD (0, 0#5)
      g' = (g.fixed native lat (g.dest d 0 fun k => BitVec.ofNat 32 (r k).1)).addFlags (g.flagsOf d fun k => (r k).2)) ∨
    (∃ lat pd b, predResult i g 0 = some (lat, pd, b) ∧
      g' = g.fixed native lat (g.destP pd fun k => ((predResult i g k).map fun r => r.2.2).getD false)) ∨
    (∃ d o, exchangeResult i g 0 = some (d, o) ∧ g' = g.exchanged native i d) ∨
    (∃ lat ws, pairOrIndexWrites i g = some (lat, ws) ∧ g' = g.fixed native lat ws) ∨
    ∃ d a, i = .gredfAdd d a ∧ g' = g.reduced native d a

/-! ### The rounding of fp32 (R65, R67) -/

/-- A finite fp32 code. -/
def fpFinite (w : Nat) : Prop := w < 2 ^ 32 ∧ w / 2 ^ 23 % 2 ^ 8 ≠ 255

/-- The exact value of a finite fp32 code, in units of 2^-149. -/
def fpUnits (w : Nat) : Int :=
  let m : Nat := if w / 2 ^ 23 % 2 ^ 8 = 0 then w % 2 ^ 23 else (w % 2 ^ 23 + 2 ^ 23) * 2 ^ (w / 2 ^ 23 % 2 ^ 8 - 1)
  if w.testBit 31 then -(m : Int) else m

/-- The largest finite fp32 value, in units of 2^-149. -/
def fpMost : Nat := (2 ^ 24 - 1) * 2 ^ 253

/-- The code `w` is `x`, a number in units of 2^-298 within the finite range, rounded once to fp32: the nearest value, of
two the one with the even code, or the next one toward zero, above or below. -/
structure RoundsTo (mode : RMode) (x : Int) (w : Nat) : Prop where
  finite : fpFinite w
  sign : (0 < x → w.testBit 31 = false) ∧ (x < 0 → w.testBit 31 = true)
  even : mode = .even → ∀ c, fpFinite c →
    (fpUnits w * 2 ^ 149 - x).natAbs ≤ (fpUnits c * 2 ^ 149 - x).natAbs ∧
    ((fpUnits w * 2 ^ 149 - x).natAbs = (fpUnits c * 2 ^ 149 - x).natAbs → fpUnits c ≠ fpUnits w → w % 2 = 0)
  zero : mode = .zero → (fpUnits w * 2 ^ 149).natAbs ≤ x.natAbs ∧
    ∀ c, fpFinite c → (fpUnits c * 2 ^ 149).natAbs ≤ x.natAbs → (fpUnits c).natAbs ≤ (fpUnits w).natAbs
  up : mode = .up → x ≤ fpUnits w * 2 ^ 149 ∧ ∀ c, fpFinite c → x ≤ fpUnits c * 2 ^ 149 → fpUnits w ≤ fpUnits c
  down : mode = .down → fpUnits w * 2 ^ 149 ≤ x ∧ ∀ c, fpFinite c → fpUnits c * 2 ^ 149 ≤ x → fpUnits c ≤ fpUnits w

/-! ### Memory accesses -/

/-- The contexts a read in context `t` looks in, nearest first: a chain of at most three (R215, R223). -/
def State.chain (s : State) (t : Nat) : List Nat :=
  let up := fun (t : Nat) => if t = 0 then 0 else ((Tab.get? s.kennel.tags t).map Tag.parent).getD 0
  [t, up t, up (up t), up (up (up t))].takeWhile fun t => t ≠ 0

/-- The byte of an object that a read finds: of the nearest context of its chain that has written it, else of memory
(R223). -/
def State.resolved (s : State) (job : Nat) (tagged : Bool) (tag obj off phys : Nat) : Byte :=
  (if tagged then (s.chain tag).findSome? fun t => (s.kennel.cell? job t obj (off / 64)).bind fun c => c.byte? (off % 64)
    else none).getD (memRead Config.hbmFill s.hbm phys)

/-- What a line's write leaves in its context's cell: the bytes written, the others as they were (R222). -/
def CellWritten (s t : State) (job tag obj gran : Nat) (bytes : Nat → Option Byte) : Prop :=
  ∃ c, t.kennel.cell? job tag obj gran = some c ∧ ∀ k, k < 64 → c.byte? k =
    (match bytes k with
     | some b => some b
     | none => (s.kennel.cell? job tag obj gran).bind fun x => x.byte? k)

/-- What a load names (R204, R240): its destination, record, size, each lane's index, byte offset and, for LDX, the
tag of the context it reads in. -/
def loadForm (i : Instr) (g : Group) : Option (Reg × BitVec 5 × MemSize × (Nat → Word) × Int × Option Nat) :=
  match i with
  | .ld d b sz vi => some (d, b, sz, fun k => g.src vi 0 k, 0, none)
  | .ldl d b sz vi off => some (d, b, sz, fun k => g.src vi 0 k, off.toInt, none)
  | .sld d b sz n => some (d, b, sz, fun _ => BitVec.ofNat 32 n.toNat, 0, none)
  | .ldx d b sz vi k off =>
    some (d, b, sz, fun j => g.src vi 0 j, off.toInt, some ((g.sval (.s (Fin.ofNat 64 k.toNat)) 0).toNat % 2 ^ 16))
  | _ => none

/-- What a store names (R204): its source, record, size, each lane's index and the byte offset. -/
def storeForm (i : Instr) (g : Group) : Option (Reg × BitVec 5 × MemSize × (Nat → Word) × Int) :=
  match i with
  | .st d b sz vi => some (d, b, sz, fun k => g.src vi 0 k, 0)
  | .stl d b sz vi off => some (d, b, sz, fun k => g.src vi 0 k, off.toInt)
  | _ => none

/-- The tensor that a record names, and the state that has looked it up (R191, R198). -/
def State.recDesc (s : State) (gid : Nat) (g : Group) (b : Nat) : Option Desc × State :=
  s.desc (some gid) (dieOf g.core) (s.jobOf g) (bitsOf (g.recWord b 0).toNat 20 12)

/-- A global access that raises no fault and has room (R200 to R203): `d` is its tensor, `p` what its lanes come to, and
`lines` the lines it needs. `nohelp` marks accesses that helper lanes do not make (R88). -/
structure AccessReaches (s : State) (gid : Nat) (g : Group) (b : Nat) (lanes : List Nat) (uniform : Bool) (idx : Nat → Word)
    (off : Int) (size right cls : Nat) (ldx : Option Nat) (nohelp : Bool) (d : Option Desc) (p : Plan)
    (lines : List Nat) : Prop where
  desc : (s.recDesc gid g b).1 = d
  plan : p =
    let q := g.plan lanes uniform (fun k => laneAddress d (g.recWord b) (idx k).toNat off size (right ≠ rRead)) size
    { q with accs := q.accs.filter fun a => !nohelp || !g.helpers.getLsbD a.1 }
  aligned : p.mis = 0#64
  inExtent : p.out = 0#64 ∨ (g.recWord b 2).getLsbD 16 = false
  tag : s.tagLive (s.jobOf g) g.lanes.ctag.toNat = true
  known : ∀ t, ldx = some t → s.tagKnown (s.jobOf g) t = true
  named : lines = dedup (p.accs.map fun a => lineOf a.2)
  room : g.cnt cls < cntLimit cls ∧ s.requests g.core + lines.length ≤ Config.requestEntries ∧
    (right ≠ rRead → s.queued g.core + lines.length ≤ Config.sfqLines)

/-- The lines of an access of a tensor, each with its physical address; none where one of them fails (R212). -/
def State.translated (s : State) (gid : Nat) (g : Group) (b : Nat) (d : Option Desc) (right : Nat) (lines : List Nat) :
    Option (List (Nat × Nat)) :=
  ((s.recDesc gid g b).2.linesOk (dieOf g.core) (s.jobOf g) ((d.map Desc.obj).getD 0) right lines).1

/-- A global access that nothing stops: `ps` are the lines it needs, each with its physical address (R212). -/
structure AccessPasses (s : State) (gid : Nat) (g : Group) (b : Nat) (lanes : List Nat) (uniform : Bool) (idx : Nat → Word)
    (off : Int) (size right cls : Nat) (ldx : Option Nat) (nohelp : Bool) (d : Option Desc) (p : Plan)
    (ps : List (Nat × Nat)) : Prop where
  reaches : AccessReaches s gid g b lanes uniform idx off size right cls ldx nohelp d p (ps.map Prod.fst)
  lines : s.translated gid g b d right (ps.map Prod.fst) = some ps

/-- Where a global access traps or ends its task: a misaligned lane (R200), else one out of extent where the record asks
for the trap (R200), each with the mask of those lanes, a uniform access being checked as one lane; else a context that is
not live (R232), else LDX's unknown one (R240); and a line that fails its translation or its lease (R212). -/
structure AccessStops (i : Instr) (s : State) (gid : Nat) (g : Group) (cl : Clause) (b : Nat) (lanes : List Nat)
    (uniform : Bool) (idx : Nat → Word) (off : Int) (size right cls : Nat) (ldx : Option Nat) (nohelp : Bool) : Prop where
  stops : let d := (s.recDesc gid g b).1
    let addr := fun k => laneAddress d (g.recWord b) (idx (if uniform then 0 else k)).toNat off size (decide (right ≠ rRead))
    let mis := fun k => ∃ a, addr k = some a ∧ a % size ≠ 0
    let out := fun k => addr k = none
    let any := fun (p : Nat → Prop) => ∃ k, k < 64 ∧ g.active.getLsbD k = true ∧ p k
    (any mis → ∃ m, g.Names m mis ∧ Traps i s gid cl (.at 0x09 m)) ∧
    (¬any mis → any out → (g.recWord b 2).getLsbD 16 = true → ∃ m, g.Names m out ∧
      exec i s = .next ((s.updGroup gid fun x => { x with bounds := true }).raise gid cl ⟨0x08, b, some m, 0, 0⟩ cl.pos
        cl.pos false)) ∧
    (¬any mis → (¬any out ∨ (g.recWord b 2).getLsbD 16 = false) →
      (s.tagLive (s.jobOf g) g.lanes.ctag.toNat = false → Traps i s gid cl (.withDetail 0x0C 8)) ∧
      (s.tagLive (s.jobOf g) g.lanes.ctag.toNat = true → ∀ t, ldx = some t → s.tagKnown (s.jobOf g) t = false →
        Traps i s gid cl (.withDetail 0x0C 7))) ∧
    ∀ p lines, AccessReaches s gid g b lanes uniform idx off size right cls ldx nohelp d p lines →
      s.translated gid g b d right lines = none → EndsTask i s g 2

/-- The lane accesses of a plan, with the bytes a store or atomic brings. -/
def Plan.laneAccs (p : Plan) (ps : List (Nat × Nat)) (data : Nat → List Byte) : List LaneAcc :=
  p.accs.map fun a => ⟨a.1, a.2, physIn ps a.2, data a.1, [], false, false⟩

/-- An allotment that exists: its block, its gang or its launch's share of the die does (R167, R168). -/
def State.AllotExists (s : State) : ScrLoc → Prop
  | .core b => Tab.has s.work.blocks b = true
  | .cluster l k => ∃ x, Tab.get? s.work.launches l = some x ∧ Tab.has x.gangs k = true
  | .die l k => ∃ x, Tab.get? s.work.launches l = some x ∧ Tab.has x.scratch k = true

/-- The only register that operation `op` still owes group `g` is the scalar `sd`, of the program's own view. -/
def OwesScalar (g : Group) (op sd : Nat) : Prop := ∃ h, (g.pend.filter fun e => e.op = op) = [⟨.s sd, op, false, h⟩]

/-- Operation `op` is the eldest that counter `c` of group `g` counts, with `rest` after it. -/
structure Eldest (g : Group) (c op : Nat) (rest : List (Nat × Bool)) : Prop where
  first : g.outs c = (op, false) :: rest
  once : ∀ e ∈ rest, e.1 ≠ op

/-- The status `w` of operation `op` has landed in scalar `sd` of group `g`, now `g'`, nothing of the operation is
pending, and counter `c` has fallen past it (R127, R245). -/
structure StatusLanded (g g' : Group) (c op sd : Nat) (rest : List (Nat × Bool)) (w : Word) : Prop where
  counter : g'.outs c = rest.dropWhile fun e => e.2
  pending : ∀ e ∈ g'.pend, e.op ≠ op
  scalar : g'.rdS sd = w
  others : ∀ r, r ≠ sd → g'.rdS r = g.rdS r
  vectors : g'.v = g.v

/-- A value is on its way to its places, which are pending: operation `op` of group `gid`, now in the state `g'`
(R36). -/
structure Sends (t : State) (gid op : Nat) (g' : Group) (ws : List (Target × Word)) : Prop where
  value : Tab.get? t.ops.vals op = some ⟨gid, ws⟩
  pending : ∀ w ∈ ws, ∀ r, w.1.reg = some r → g'.isPend r = true

/-- Everything a group holds but its place in the clause, its pending bits and its ages is unchanged. -/
structure SameRegisters (g g' : Group) : Prop where
  v : g'.v = g.v
  s : g'.s = g.s
  b : g'.b = g.b
  p : g'.lanes.p = g.lanes.p
  x : g'.lanes.x = g.lanes.x
  flags : g'.lanes.fflags = g.lanes.fflags

/-- What a register-only instruction leaves unchanged besides the registers it does not name: every other group, all of
memory, the buffer records, index registers and rejoin masks, the lanes' conditions, the specials but sr.fflags, the
counters, the pending registers, the trap and the arrivals. -/
structure KeepsRest (s t : State) (gid : Nat) (g g' : Group) : Prop where
  only : OnlyGroup s t gid
  memory : SameMemory s t
  b : g'.b = g.b
  x : g'.lanes.x = g.lanes.x
  masks : g'.lanes.j = g.lanes.j ∧ g'.lanes.parked = g.lanes.parked
  conditions : g'.lanes.active = g.lanes.active ∧ g'.lanes.exited = g.lanes.exited
  specials : g'.lanes.agelimit = g.lanes.agelimit ∧ g'.lanes.rmode = g.lanes.rmode ∧ g'.lanes.ctag = g.lanes.ctag ∧
    g'.bounds = g.bounds ∧ g'.cpfault = g.cpfault
  counters : g'.cnts = g.cnts ∧ g'.pend = g.pend
  trap : g'.trap = g.trap
  arrivals : g'.arrivals = g.arrivals

/-- The registers and predicates other than the given one, and the lanes outside Exec of that one, read as before. -/
structure KeepsRegisters (g g' : Group) (d : PReg) : Prop where
  v : ∀ r lane, lane < 64 → (PReg.v r ≠ d ∨ g.exec.getLsbD lane = false) → g'.rdV r lane = g.rdV r lane
  s : ∀ r, PReg.s r ≠ d → g'.rdS r = g.rdS r
  p : ∀ k lane, lane < 64 → (PReg.p k ≠ d ∨ g.exec.getLsbD lane = false) →
    (g'.rdP k).getLsbD lane = (g.rdP k).getLsbD lane

/-- The place of a register in the group's allotment. -/
def Group.placeOf (g : Group) (d : Reg) : PReg :=
  match d with
  | .v _ => .v (g.phys d 0)
  | .s _ => .s (g.phys d 0)

/-- The address the group's next clause issues at (R89): the repeat's while an eligible lane stands there, else that of
the lowest eligible lane past the age limit, else the least among the eligible lanes. -/
structure IssuesAt (g : Group) (a : Nat) : Prop where
  some : g.lanes.active ≠ 0#64
  repeating : g.lanes.rep ≠ 0 → (∃ k, k < 64 ∧ g.lanes.active.getLsbD k = true ∧ g.lpcOf k = g.lanes.repAddr) →
    a = g.lanes.repAddr
  aged : (g.lanes.rep = 0 ∨ ∀ k, k < 64 → g.lanes.active.getLsbD k = true → g.lpcOf k ≠ g.lanes.repAddr) →
    ∀ k, k < 64 → g.lanes.active.getLsbD k = true → g.lanes.agelimit ≤ g.lageOf k →
      (∀ j, j < k → g.lanes.active.getLsbD j = true → g.lageOf j < g.lanes.agelimit) → a = g.lpcOf k
  least : (g.lanes.rep = 0 ∨ ∀ k, k < 64 → g.lanes.active.getLsbD k = true → g.lpcOf k ≠ g.lanes.repAddr) →
    (∀ k, k < 64 → g.lanes.active.getLsbD k = true → g.lageOf k < g.lanes.agelimit) →
      (∃ k, k < 64 ∧ g.lanes.active.getLsbD k = true ∧ g.lpcOf k = a) ∧
      ∀ k, k < 64 → g.lanes.active.getLsbD k = true → a ≤ g.lpcOf k

/-- An instruction is accepted by an engine: nothing but the engine's list and the group changes, counter `c` counts it,
and `regs` are pending. -/
structure Accepted (s t : State) (gid : Nat) (g : Group) (c : Nat) (regs : List PReg) : Prop where
  memory : SameMemory s t
  group : t.GroupIs gid fun g' => SameRegisters g g' ∧ g'.cnt c = g.cnt c + 1 ∧ ∀ r ∈ regs, g'.isPend r = true

/-- Where lane k of a clause stands after it (R90, R112): `own` gives a lane of Exec its own address. In a repeated clause
a served lane outside Exec stays at it, and with the last iteration every eligible lane at the clause goes on. -/
def laneAfter (g : Group) (cl : Clause) (own : Nat → Nat) (k : Nat) : Nat :=
  let next := cl.header + hdrN cl.hw + 1
  if g.lanes.rep = 0 ∨ g.lanes.repAddr ≠ cl.header then
    if g.exec.getLsbD k then own k else if cl.served.getLsbD k then next else g.lpcOf k
  else
    let a := if g.exec.getLsbD k then own k else g.lpcOf k
    if g.lanes.rep = 1 ∧ g.lanes.active.getLsbD k = true ∧ a = cl.header then next else a

/-- A word of LD's counter that performs nothing completes at once, and its destination stands (R244). -/
def Idles (i : Instr) (s : State) (gid : Nat) (g : Group) : Prop :=
  Answers (exec i s) fun t => SameMemory s t ∧ t.GroupIs gid fun g' =>
    SameRegisters g g' ∧ g'.pend = g.pend ∧ g'.hold = g.hold ∧ (g.cnt 0 = 0 → g'.cnt 0 = 0)

/-- A group as a change of its residency leaves it (R117 to R119). -/
def Group.moved (s : State) (g : Group) (r : Residency) : Group :=
  { g with res := r, since := s.coreCycles g.core, readyCnt := 0, idleCnt := 0 }

/-- The tile `d` that a command makes of a tile `old`, its block's scratchpad being `b` (R292, R297 to R303). -/
def TileBecomes (c : MatCmd) (b : Block) (old d : TileData) : Prop :=
  match c.op with
  | .mma fmt zf kb a ws =>
    d.isI32 = (fmt == .i8) ∧ ∀ r n, n < 64 → d.get r n = match a[r]? with
      | some row => mmaElem fmt kb row (bCol b.read ws kb n) (if zf then 0#32 else old.get r n)
      | none => old.get r n
  | .ld fmt addr pitch rows =>
    d.isI32 = (if fmt = .b32 then old.isI32 else decide (fmt = .i32)) ∧ ∀ r n, n < 64 → d.get r n =
      if r < rows then (rowIn fmt (b.read (addr + r * pitch) (rowB fmt))).getD n 0#32 else old.get r n
  | .wr cv cg rows =>
    d.isI32 = accType cv old.isI32 ∧
    (cg < 8 → (rows.map Prod.fst).Nodup → (∀ e ∈ rows, e.2.length = 8) →
      (∀ e ∈ rows, ∀ j, j < 8 → d.get e.1 (8 * cg + j) = accIn cv (e.2.getD j 0#32)) ∧
      ∀ r n, n < 64 → (n / 8 ≠ cg ∨ ∀ e ∈ rows, e.1 ≠ r) → d.get r n = old.get r n)
  | .clr => d.isI32 = old.isI32 ∧ ∀ r n, d.get r n = 0#32
  | .rel => d = TileData.blank
  | .st _ _ _ _ | .rd _ _ _ _ => d = old

/-- The lines of an object lie apart from each other in memory. -/
structure LinesApart (ps : List (Nat × Nat)) : Prop where
  lines : (ps.map Prod.fst).Nodup
  places : ∀ e ∈ ps, ∀ f ∈ ps, e.1 ≠ f.1 → e.2 + 64 ≤ f.2 ∨ f.2 + 64 ≤ e.2

/-- A mailbox command of port `port` has ended (R421): its result code, its response words from word 0 on, and the
doorbell clear. -/
structure Replied (t : State) (port code : Nat) (out : List Word) : Prop where
  reply : ∃ p, Tab.get? t.ports port = some p ∧ p.doorbell = none ∧ p.result = BitVec.ofNat 32 (code * 2 ^ 28) ∧
    ∀ k w, out[k]? = some w → Tab.getD p.mailOut k 0#32 = w

/-- The doorbell of an open port holds a command (R421). -/
structure Rings (s : State) (port code : Nat) (p : Port) : Prop where
  port : Tab.get? s.ports port = some p
  booted : s.hub.booted = true
  up : p.up = true
  code : p.doorbell = some code

end Sys2Proof.Machine
end

