-- ==== Sys2Proof/Certificates/Slice0/Obligations.lean ====
section
/-!
DEFINITION. The statements for the provers, each a proposition about the model, with the rules of the spec it
follows.
-/

open Sys2Proof Sys2Proof.Machine

/-! ### Encoding and stepping -/

/-- A few words written out from the encoding tables decode to the instructions they stand for (R43, R48 to R51). -/
def Obligations.SpecWordsDecode : Prop :=
  decodeWords 0x30050301#32 none = .ok (.iaddi (.v 5) (.v 3) 1#8) ∧
  decodeWords 0xF0050501#32 (some 0x07020000#32) = .ok (.iamin (.v 5) (.v 5) (.v 1) (.v 2)) ∧
  decodeWords 0x2A050401#32 none = .ok (.iamini (.v 5) (.v 4) 1#8) ∧
  decodeWords 0x38070000#32 none = .ok (.movi (.v 7) 0#16) ∧
  decodeWords 0x39073F80#32 none = .ok (.movhi (.v 7) 0x3F80#16) ∧
  decodeWords 0xF1020200#32 (some 0x000186A0#32) = .ok (.iaddk (.v 2) (.v 2) 100000#32) ∧
  decodeWords 0xF1080001#32 (some 0xBF800000#32) = .ok (.movk (.v 8) 0xBF800000#32) ∧
  decodeWords 0x2B000000#32 none = .error .reservedOpcode ∧
  decodeWords 0xF5000000#32 (some 0#32) = .error .reservedOpcode

/-- Every well-formed instruction is read back from its words, whatever word follows a one-word instruction. -/
def Obligations.DecodeOfEncode : Prop :=
  ∀ i : Instr, i.isInstruction = true →
    (∃ w, encode i = [w] ∧ ∀ next, decodeWords w next = .ok i) ∨
    (∃ w x, encode i = [w, x] ∧ decodeWords w (some x) = .ok i)

/-- No other words decode: what the decoder accepts is a well-formed instruction, and the words are its encoding. -/
def Obligations.EncodeOfDecode : Prop :=
  ∀ (w x : Word) (i : Instr), decodeWords w (some x) = .ok i →
    i.isInstruction = true ∧ (encode i = [w] ∨ encode i = [w, x])

/-- When a slice's turn comes and the group it chooses stands at words that decode to i, the step is exec of i, and then
the slice cycle's counts (R103); words that the decoder refuses run as ILLEGAL_INSTRUCTION, whose fault IllegalWords states
(R48, R54). That one step is one turn of an agenda, of a slice or of an event, and that an event's turn is the event's
meaning once the turn's time has passed, is the model's structure (logs 1 and 19), no rule of the spec; that results on their
way land before a word which the rewriter makes wait for them is the model's choice (log 16). -/
def Obligations.StepRunsDecoded : Prop :=
  (∀ (s : State) (turn : Turn) (rest : List Turn) (core sl errors gid : Nat) (g : Group) (cl : Clause) (i : Instr),
     s.turns = turn :: rest → turn.act = .slice core sl errors →
     let s₁ := { s with turns := rest }.begin_ turn
     let active := ((Tab.get? s₁.slices (sliceKey core sl)).map Slice.active).getD []
     let all := (s₁.resident core sl).map Prod.fst
     let s₂ := all.foldl State.stallTick s₁
     let ready := all.filter fun k => (s₂.trial exec k).isSome
     s₂.choose (active.filter fun k => ready.contains k) = some gid →
     Tab.get? s₂.groups gid = some g → g.clause = some cl →
     let w := s₂.codeWord g (cl.header + cl.pos)
     let x := s₂.codeWord g (cl.header + cl.pos + 1)
     (decodeWords w (some x) = .ok i ∨ ((∃ e, decodeWords w (some x) = .error e) ∧ i = .illegalInstruction w x)) →
     let s₃ := if s₂.waitsAt g cl then s₂.updGroup gid Group.flush else s₂
     step s = match exec i { s₃ with cur := some gid, waited := false } with
       | .next t => .next (t.endCycle core sl errors active all ready (some gid))
       | r => r) ∧
  (∀ (s : State) (turn : Turn) (rest : List Turn) (i : Instr),
     s.turns = turn :: rest → turn.act = .event i → Instr.isTurn i = true →
     step s = exec i ({ s with turns := rest }.begin_ turn))

/-! ### Invariants -/

/-- Every step keeps device memory in its one form: rising addresses and no entry equal to an unlisted byte. -/
def Obligations.StepKeepsMemoryForm : Prop :=
  ∀ s t : State, Memory.wf s.hbm = true → step s = .next t → Memory.wf t.hbm = true

/-- After reset every cluster's balance is 64 (R406) and every core's cycle count 0 (R128); by the model's own choice of
the values the spec leaves open (logs 5, 6 and 17) device memory has its one form, nothing is resident, every slice runs
at ratio 8 of at most 8 and every cluster at 1,300 MHz in the nominal boost state. -/
def Obligations.ResetState : Prop :=
  (∀ e ∈ State.reset.clusters, e.2.balance = 64) ∧ (∀ core, State.reset.coreCycles core = 0) ∧
  Memory.wf State.reset.hbm = true ∧ State.reset.groups = [] ∧ State.reset.work = ⟨[], [], [], []⟩ ∧
  State.reset.cores.length = 128 ∧ State.reset.slices.length = 768 ∧ State.reset.clusters.length = 32 ∧
  (∀ e ∈ State.reset.slices, e.2.ratio = 8 ∧ e.2.ceiling = 8 ∧ e.2.active = []) ∧
  (∀ e ∈ State.reset.cores, e.2.swapmin = 2000) ∧
  (∀ e ∈ State.reset.clusters, e.2.mhz = 1300 ∧ e.2.boost = .nominal)

/-- No step stops: from every state, step answers a next state. -/
def Obligations.StepAlwaysGoesOn : Prop :=
  ∀ s : State, ∃ t, step s = .next t

/-! ### Register-only instructions -/

/-- A fixed-latency result is read at once in interlocked mode (R38), and in native mode exactly from `lat` issue
slots after its instruction's on (R35). -/
def Obligations.FixedLatency : Prop :=
  ∀ (g : Group) (lat k : Nat) (ws : List (Target × Word)),
    (ws.map Prod.fst).Nodup → (∀ w ∈ ws, w.1.inLanes ∧ truthValue w) →
    ∀ t : Target, t.inLanes →
      (g.fixed false lat ws).reads t = written ws t (g.reads t) ∧
      (g.inflight = [] →
        ({ g.fixed true lat ws with slot := g.slot + k }.landDue).reads t =
          if lat ≤ k then written ws t (g.reads t) else g.reads t)

/-- The integer, bit and sign-bit instructions complete with the results of the rules, in their destinations and
with their latencies; the saturating ones are RRR words 0x27 to 0x29 (R140 to R145, R147, R149, R152 to R156, R133,
R136). -/
def Obligations.IntegerResults : Prop :=
  (∀ (d a b : Reg) (next : Option Word),
    decodeWords (0x27#8 ++ d.toBits ++ a.toBits ++ b.toBits) next = .ok (.iaddsatI32 d a b) ∧
    decodeWords (0x28#8 ++ d.toBits ++ a.toBits ++ b.toBits) next = .ok (.isubsatI32 d a b) ∧
    decodeWords (0x29#8 ++ d.toBits ++ a.toBits ++ b.toBits) next = .ok (.iaddsatUi32 d a b)) ∧
  ∀ (i : Instr) (s : State) (gid : Nat) (g : Group) (cl : Clause) (lat : Nat) (d : Reg) (w : Word),
    Ready i s gid g cl → Steady g → intResult i g 0 = some (lat, d, w) →
    exec i s = .next (s.after gid (g.fixed (s.native g) lat
      (g.dest d 0 fun k => ((intResult i g k).map fun r => r.2.2).getD 0#32)) cl i)

/-- The floating-point instructions, the packed ones and the conversions complete with their results, and raise the
flags of the lanes that are no helper lanes (R70, R145 to R152, R158). -/
def Obligations.FloatResults : Prop :=
  ∀ (i : Instr) (s : State) (gid : Nat) (g : Group) (cl : Clause) (lat : Nat) (d : Reg) (w : Nat × FFlags),
    Ready i s gid g cl → Steady g → fpResult i g 0 = some (lat, d, w) →
    let r := fun k => ((fpResult i g k).map fun r => r.2.2).getD (0, 0#5)
    exec i s = .next (s.after gid
      ((g.fixed (s.native g) lat (g.dest d 0 fun k => BitVec.ofNat 32 (r k).1)).addFlags
        (g.flagsOf d fun k => (r k).2)) cl i)

/-- The comparisons and predicate operations complete with their truth values in every lane of Exec and the other
lanes keep theirs; PLOP, GANY and GALL have the words of R132 and R166 (R132, R133, R157, R166). -/
def Obligations.PredicateResults : Prop :=
  (∀ (pd pa pb tt : BitVec 4) (next : Option Word),
    decodeWords (0x63#8 ++ pd ++ tt ++ 0#4 ++ pa ++ 0#4 ++ pb) next = .ok (.plop pd tt pa pb) ∧
    decodeWords (0x7D#8 ++ pd ++ 0#8 ++ pa ++ 0#8) next = .ok (.gany pd pa) ∧
    decodeWords (0x7E#8 ++ pd ++ 0#8 ++ pa ++ 0#8) next = .ok (.gall pd pa)) ∧
  ∀ (i : Instr) (s : State) (gid : Nat) (g : Group) (cl : Clause) (lat pd : Nat) (b : Bool),
    Ready i s gid g cl → Steady g → predResult i g 0 = some (lat, pd, b) →
    exec i s = .next (s.after gid (g.fixed (s.native g) lat
      (g.destP pd fun k => ((predResult i g k).map fun r => r.2.2).getD false)) cl i)

/-- The fp32 sum, difference, product and fused product and sum of finite numbers are the exact ones rounded once in the
mode: to the nearest number, of two the one with the even code, or to the next one toward zero, above or below, where the
exact result lies in the finite range (R65, R67, R146, R152). -/
def Obligations.RoundedOnce : Prop :=
  ∀ (mode : RMode) (a b c : Nat), fpFinite a → fpFinite b → fpFinite c →
    let inRange := fun (x : Int) => x.natAbs ≤ fpMost * 2 ^ 149
    (inRange ((fpUnits a + fpUnits b) * 2 ^ 149) →
      RoundsTo mode ((fpUnits a + fpUnits b) * 2 ^ 149) (fp32.add mode a b).1) ∧
    (inRange ((fpUnits a - fpUnits b) * 2 ^ 149) →
      RoundsTo mode ((fpUnits a - fpUnits b) * 2 ^ 149) (fp32.sub mode a b).1) ∧
    (inRange (fpUnits a * fpUnits b) → RoundsTo mode (fpUnits a * fpUnits b) (fp32.mul mode a b).1) ∧
    (inRange (fpUnits a * fpUnits b + fpUnits c * 2 ^ 149) →
      RoundsTo mode (fpUnits a * fpUnits b + fpUnits c * 2 ^ 149) (fp32.fma mode a b c).1)

/-- The lane exchanges complete with their results in the lanes of Exec that they write, as do the instructions that write a
pair and the floating-point reduction. XSET and XINC change the index register in the lanes of Exec; MOVXR and MOVXW copy
through it where every lane's access is in bounds and no register they address is pending, and raise the register-bounds
fault where one is not. Three points are the model's choices (log 57): an exchange of a scalar other than RDLANE gives the
scalar whatever lane it names, RDLANE of a scalar gives 0 for a lane that is absent, and an SPCMP whose results share a
register keeps the second (R48, R135 to R137, R158, R160 to R165, R295). -/
def Obligations.ExchangePairAndIndexResults : Prop :=
  (∀ (i : Instr) (s : State) (gid : Nat) (g : Group) (cl : Clause) (d : Reg) (o : Option Word),
    Ready i s gid g cl → Steady g → exchangeResult i g 0 = some (d, o) →
    exec i s = .next (s.after gid (g.exchanged (s.native g) i d) cl i)) ∧
  (∀ (i : Instr) (s : State) (gid : Nat) (g : Group) (cl : Clause) (lat : Nat) (ws : List (Target × Word)),
    Ready i s gid g cl → Steady g → pairOrIndexWrites i g = some (lat, ws) →
    exec i s = .next (s.after gid (g.fixed (s.native g) lat ws) cl i)) ∧
  (∀ (s : State) (gid : Nat) (g : Group) (cl : Clause),
     (∀ d a, Ready (.gredfAdd d a) s gid g cl → Steady g →
       exec (.gredfAdd d a) s = .next (s.after gid (g.reduced (s.native g) d a) cl (.gredfAdd d a))) ∧
     (∀ d x imm, Ready (.movxr d x imm) s gid g cl → xBad g x imm ≠ 0#64 →
       Traps (.movxr d x imm) s gid cl (.at 0x06 (xBad g x imm))) ∧
     (∀ a x imm, Ready (.movxw a x imm) s gid g cl → xBad g x imm ≠ 0#64 →
       Traps (.movxw a x imm) s gid cl (.at 0x06 (xBad g x imm))))

/-! ### Control flow -/

/-- NOP, a WAIT whose thresholds are met, and BKPT where the launch has no handler, complete and change nothing but the place
in the clause; a WAIT whose threshold is exceeded does not issue while a lane is in Exec. YIELD moves the group to the
latest place of its active set; REPEAT arms the next clause; SLEEP keeps the group from being ready for its core cycles,
and SLEEP 0 is as a NOP (R106, R108, R112, R114, R247, R356). -/
def Obligations.IdleAndFlowWords : Prop :=
  (∀ (s : State) (gid : Nat) (g : Group) (cl : Clause),
     (Ready .nop s gid g cl → Steady g → exec .nop s = .next (s.after gid g cl .nop)) ∧
     (∀ ld st cp tl sg cl', Ready (.waitC ld st cp tl sg cl') s gid g cl → Steady g →
       (∀ e ∈ [(0, ld), (1, st), (2, cp), (3, tl), (4, sg), (5, cl')], e.2 ≠ 15#4 → g.cnt e.1 ≤ e.2.toNat) →
       exec (.waitC ld st cp tl sg cl') s = .next (s.after gid g cl (.waitC ld st cp tl sg cl'))) ∧
     (∀ ld st cp tl sg cl', Ready (.waitC ld st cp tl sg cl') s gid g cl → g.exec ≠ 0#64 →
       (∃ e ∈ [(0, ld), (1, st), (2, cp), (3, tl), (4, sg), (5, cl')], e.2 ≠ 15#4 ∧ e.2.toNat < g.cnt e.1) →
       exec (.waitC ld st cp tl sg cl') s = .next s.notIssued) ∧
     (∀ imm, Ready (.bkpt imm) s gid g cl → Steady g → (s.launch? g).bind Launch.handler = none →
       exec (.bkpt imm) s = .next (s.after gid g cl (.bkpt imm)))) ∧
  (∀ (s : State) (gid : Nat) (g : Group) (cl : Clause), g.exec ≠ 0#64 → Steady g →
     (Ready .yieldG s gid g cl → ∀ sl, Tab.get? s.slices (sliceKey g.core g.slice) = some sl → gid ∈ sl.active →
       Answers (exec .yieldG s) fun t =>
         (Tab.get? t.slices (sliceKey g.core g.slice)).map Slice.active =
           some ((sl.active.filter fun k => k ≠ gid) ++ [gid]) ∧
         t.GroupIs gid fun g' => g'.waitCnt = 0 ∧ g'.clause = none ∧ g'.lanes = endClause g.lanes cl false) ∧
     (∀ n, Ready (.repeatN n) s gid g cl → Instr.wellFormed (.repeatN n) = true →
       Answers (exec (.repeatN n) s) fun t => OnlyGroup s t gid ∧ t.GroupIs gid fun g' =>
         g'.lanes.rep = n.toNat ∧ g'.lanes.repN = n.toNat ∧ g'.lanes.repAddr = cl.header + hdrN cl.hw + 1 ∧
         ∀ k, k < 64 → cl.served.getLsbD k = true → g'.lpcOf k = cl.header + hdrN cl.hw + 1) ∧
     (Ready (.sleepI 0#16) s gid g cl → exec (.sleepI 0#16) s = .next (s.after gid g cl (.sleepI 0#16))) ∧
     (∀ imm, Ready (.sleepI imm) s gid g cl → imm ≠ 0#16 →
       Answers (exec (.sleepI imm) s) fun t => OnlyGroup s t gid ∧ t.GroupIs gid fun g' =>
         g'.sleep = some (s.coreCycles g.core + imm.toNat) ∧ g'.clause = none))

/-- BRA sends the lanes it takes to its target and the other lanes of Exec to the next clause, where the target is
legal or no lane takes it; an illegal target that some lane takes raises a branch-target fault. JMPX sends each lane of
Exec to the target its index selects from the data clause, or to the next clause, and raises a branch-target fault, no lane
having moved, where its operand names no data clause or a lane selects an illegal target: of several the lowest lane's is the
fault's target by the model's choice (log 24) (R90, R93, R109, R110, R112). -/
def Obligations.FlowTargets : Prop :=
  (∀ (s : State) (gid : Nat) (g : Group) (cl : Clause) (neg : Bool) (p : BitVec 4) (pen : Bool) (off : BitVec 18),
     let i : Instr := .bra neg p pen off
     let target : Int := cl.header + off.toInt
     let takes := fun k => g.exec.getLsbD k && (!pen || (neg != (g.rdP p.toNat).getLsbD k))
     Ready i s gid g cl →
     (Steady g → ((∀ k, k < 64 → takes k = false) ∨ s.legalTarget g target = true) →
       Answers (exec i s) fun t => OnlyGroup s t gid ∧ t.GroupIs gid fun g' =>
         g'.clause = none ∧ g'.lanes.active = g.lanes.active ∧
         ∀ k, k < 64 → g'.lpcOf k = laneAfter g cl (fun k =>
           if takes k then target.toNat else cl.header + hdrN cl.hw + 1) k) ∧
     ((∃ k, k < 64 ∧ takes k = true) → s.legalTarget g target = false →
       Traps i s gid cl (.withDetail 0x05 (BitVec.ofInt 32 target).toNat))) ∧
  (∀ (s : State) (gid : Nat) (g : Group) (cl : Clause) (a : Reg) (off : BitVec 16) (h : Nat) (hw : Word),
     let i : Instr := .jmpx a off
     let target := fun k : Nat =>
       let idx := (g.src a 0 k).toInt
       if 0 ≤ idx ∧ idx < hdrN hw then (h : Int) + (s.codeWord g (h + 1 + idx.toNat)).toInt
       else (cl.header + hdrN cl.hw + 1 : Int)
     let illegal := fun k : Nat => k < 64 ∧ g.exec.getLsbD k = true ∧ 0 ≤ (g.src a 0 k).toInt ∧
       (g.src a 0 k).toInt < hdrN hw ∧ s.legalTarget g (target k) = false
     Ready i s gid g cl → (h : Int) = cl.header + off.toInt → s.headerAt g h = some hw → hdrClass hw = 6 →
     (Steady g → (∀ k, ¬illegal k) → Answers (exec i s) fun t => OnlyGroup s t gid ∧ t.GroupIs gid fun g' =>
       g'.clause = none ∧ g'.lanes.active = g.lanes.active ∧
       ∀ k, k < 64 → g'.lpcOf k = laneAfter g cl (fun k => (target k).toNat) k) ∧
     ∀ k, illegal k → (∀ n, n < k → ¬illegal n) →
       Traps i s gid cl (.withDetail 0x05 (BitVec.ofInt 32 (target k)).toNat)) ∧
  (∀ (s : State) (gid : Nat) (g : Group) (cl : Clause) (a : Reg) (off : BitVec 16),
     Ready (.jmpx a off) s gid g cl → g.exec ≠ 0#64 →
     (∀ (h : Nat) (hw : Word), (h : Int) = cl.header + off.toInt → s.headerAt g h = some hw → hdrClass hw ≠ 6) →
     Traps (.jmpx a off) s gid cl (.withDetail 0x05 (BitVec.ofInt 32 (cl.header + off.toInt)).toNat))

/-- EXIT: the lanes of Exec have exited and left every rejoin mask, and the masks that are then met release their parked
lanes (R98, R107); the served lanes end the clause at the next one (R90). Where every lane that is no helper lane has then
exited, the group completes (R107); where only parked lanes are left, a park deadlock is raised after the word (R100). -/
def Obligations.ExitEnds : Prop :=
  ∀ (s : State) (gid : Nat) (g : Group) (cl : Clause), Ready .exitG s gid g cl →
    let l := exitLanes g.lanes g.exec
    let ended := fun (g' : Group) => g'.done = g.done ∧ g'.clause = none ∧ g'.lanes.active = l.active ∧
      g'.lanes.exited = l.exited ∧ g'.lanes.parked = l.parked ∧ g'.lanes.j = l.j ∧ g'.lanes.lage = l.lage ∧
      ∀ k, k < 64 → g'.lpcOf k = if cl.served.getLsbD k then cl.header + hdrN cl.hw + 1 else g.lpcOf k
    Exits g.lanes l g.exec ∧
    (allExited g l = false → l.active ≠ 0#64 → g.step = false →
      Answers (exec .exitG s) fun t => OnlyGroup s t gid ∧ t.GroupIs gid ended) ∧
    (allExited g l = false → l.active = 0#64 → g.done = false → Deadlocks .exitG s gid cl ended) ∧
    (allExited g l = true →
      Answers (exec .exitG s) fun t => t.GroupIs gid fun g' =>
        g'.done = true ∧ g'.clause = none ∧ g'.claim = none ∧ g'.qbuf = [] ∧ g'.qcmp = [] ∧
        g'.lanes.exited = g.lanes.exited ||| g.exec)

/-- ENROL, STRIKE and PARK change the mask's enrolled or parked lanes, and release them by R98 (R98, R99, R111); a STRIKE or
PARK that leaves parked lanes only raises a park deadlock after its word (R100). -/
def Obligations.RejoinMasks : Prop :=
  ∀ (s : State) (gid : Nat) (g : Group) (cl : Clause) (j : BitVec 3),
    let pk := Tab.getD g.lanes.parked j.toNat 0#64
    (Ready (.enrol j) s gid g cl → Steady g →
      Answers (exec (.enrol j) s) fun t => OnlyGroup s t gid ∧ t.GroupIs gid fun g' =>
        Rejoins g'.lanes j.toNat g.lanes.active (g.rdJ j.toNat ||| g.exec) pk) ∧
    (Ready (.strike j) s gid g cl → Steady g →
      Answers (exec (.strike j) s) fun t => OnlyGroup s t gid ∧ t.GroupIs gid fun g' =>
        Rejoins g'.lanes j.toNat g.lanes.active (g.rdJ j.toNat &&& ~~~g.exec) pk) ∧
    (Ready (.park j) s gid g cl → g.step = false →
      (g.lanes.active &&& ~~~g.exec ≠ 0#64 ∨
        (pk ||| g.exec ≠ 0#64 ∧ g.rdJ j.toNat &&& ~~~(pk ||| g.exec) = 0#64)) →
      Answers (exec (.park j) s) fun t => OnlyGroup s t gid ∧ t.GroupIs gid fun g' =>
        g'.clause = none ∧
        Rejoins g'.lanes j.toNat (g.lanes.active &&& ~~~g.exec) (g.rdJ j.toNat) (pk ||| g.exec) ∧
        ∀ k, k < 64 → g.exec.getLsbD k = true → g'.lpcOf k = cl.header + hdrN cl.hw + 1) ∧
    (Ready (.strike j) s gid g cl → g.done = false → g.lanes.active = 0#64 → pk ≠ 0#64 →
      g.rdJ j.toNat &&& ~~~g.exec &&& ~~~pk ≠ 0#64 →
      ∃ u : State, OnlyGroup s u gid ∧ (u.GroupIs gid fun g' =>
        Rejoins g'.lanes j.toNat 0#64 (g.rdJ j.toNat &&& ~~~g.exec) pk) ∧
        exec (.strike j) s = .next (u.raise gid cl (.plain 0x0D) cl.pos (resumeAfter cl (.strike j)) false)) ∧
    (Ready (.park j) s gid g cl → g.done = false → g.exec ≠ 0#64 → g.lanes.active &&& ~~~g.exec = 0#64 →
      g.rdJ j.toNat &&& ~~~(pk ||| g.exec) ≠ 0#64 →
      Deadlocks (.park j) s gid cl fun g' => g'.clause = none ∧
        Rejoins g'.lanes j.toNat 0#64 (g.rdJ j.toNat) (pk ||| g.exec) ∧
        ∀ k, k < 64 → g.exec.getLsbD k = true → g'.lpcOf k = cl.header + hdrN cl.hw + 1)

/-- SLEEP_EXPIRE wakes a group whose core cycles have passed, WATCHPOINT_REPORT_DUE makes the eldest undelivered
report fall due, and TRAP_ENTRY starts the handler of a trap that waited for a save area. A stall report and a trap dispatch
record go to the Sheepdog on their Pup's link, where the message is consumed when it is the first; that one event sends and
consumes it, and that nothing else hangs on it, is the model's choice (log 48) (R114, R355, R170, R228, R390). -/
def Obligations.GroupEvents : Prop :=
  ∀ (s : State) (gid : Nat) (g : Group), Tab.get? s.groups gid = some g →
    (∀ n, g.sleep = some n → n ≤ s.coreCycles g.core → g.res ≠ .saved →
      exec (.sleepExpire gid) s = .next (s.setGroup gid { g with sleep := none })) ∧
    (∀ r rs, g.reports = r :: rs →
      Answers (exec (.watchpointReportDue gid) s) fun t => OnlyGroup s t gid ∧
        Tab.get? t.groups gid = some { g with reports := { r with due := true } :: rs }) ∧
    (∀ f l code handler, g.trap = some f → f.entered = false → f.area = none → g.res ≠ .saved →
      s.launch? g = some l → l.handler = some handler → s.codeOf (clusterOf g.core) g.launch = some code →
      s.freeAreas g.core ≠ [] → s.trapAhead g f.raised = false → s.retained = [] →
      Answers (exec (.trapEntry gid) s) fun t => ∃ g', InHandler t gid g (code.base + handler) f.record g') ∧
    ∀ i m due, (i, m, due) ∈ [(Instr.trapDispatch gid, HubMsg.trap gid, g.inHandler),
        (.stallReport gid, .stall gid, !g.done && s.ctxStalled gid g)] →
      let link := clusterOf g.core
      let becomes := fun (c : Nat) (ms : List HubMsg) =>
        exec i s = .next { s with hub := { s.hub with toHub := Tab.set s.hub.toHub c ms } }
      ((∀ e ∈ s.hub.toHub, e.2.head? ≠ some m) →
        (due = true → m ∉ Tab.getD s.hub.toHub link [] → becomes link (Tab.getD s.hub.toHub link [] ++ [m])) ∧
        ((due = false ∨ m ∈ Tab.getD s.hub.toHub link []) → exec i s = .next s)) ∧
      ∀ c ms, (s.hub.toHub.find? fun e => e.2.head? = some m) = some (c, ms) →
        becomes c (Tab.getD s.hub.toHub c []).tail

/-! ### Traps -/

/-- The words that raise no cause of their own: TRAP and BKPT raise theirs after their word, with the resume index
at the next word, when Exec holds a lane that is no helper lane (R362); an armed single step is taken after any
register-only word: the integer, bit, floating-point, packed, predicate and exchange words, those that write a pair, the
reduction, and those that read or change an index register in bounds (R372). -/
def Obligations.CausesAfterWords : Prop :=
  ∀ (s : State) (gid : Nat) (g : Group) (cl : Clause),
    (∀ imm, Ready (.trapI imm) s gid g cl → g.active ≠ 0#64 →
      exec (.trapI imm) s = .next ((s.after gid g cl (.trapI imm)).raise gid cl (.withDetail 0x16 imm.toNat) cl.pos
        (resumeAfter cl (.trapI imm)) false)) ∧
    (∀ imm, Ready (.trapI imm) s gid g cl → g.active = 0#64 → Steady g →
      exec (.trapI imm) s = .next (s.after gid g cl (.trapI imm))) ∧
    (∀ imm, Ready (.bkpt imm) s gid g cl → g.active ≠ 0#64 → (s.launch? g).bind Launch.handler ≠ none →
      exec (.bkpt imm) s = .next ((s.after gid g cl (.bkpt imm)).raise gid cl (.withDetail 0x11 imm.toNat) cl.pos
        (resumeAfter cl (.bkpt imm)) false)) ∧
    (∀ i g', Ready i s gid g cl → RanOnce i g (s.native g) g' → g.lanes.active ≠ 0#64 → g.step = true →
      g.inHandler = false → g.done = false →
      exec i s = .next (((s.after gid g' cl i).updGroup gid fun x => { x with step := false }).raise gid cl (.plain 0x15)
        cl.pos (resumeAfter cl i) false))

/-- A trap of a launch with a handler is entered: pending writes land, the lane state is set aside, the group takes a free
save area and its active and parked lanes start at the handler's entry. Without a handler it ends the task with status
group-fault, in the handler with handler-fault, and the records go to the job's fault record (R356 to R359). Words 0 to 9 of
the record are those of R360: the cause with its bits, detail, header, places and repeat, the lanes, Exec and the served
lanes; bit 10 of a park deadlock's record follows the set-aside lanes. -/
def Obligations.TrapsTaken : Prop :=
  (∀ (s : State) (gid : Nat) (g : Group) (cl : Clause) (c : Cause) (word resume : Nat) (header : Bool) (l : Launch)
     (code : CodeLoad) (handler : Nat),
     Tab.get? s.groups gid = some g → Tab.has s.cores g.core = true → TrapEnters s g l code handler →
     ∃ g', InHandler (s.raise gid cl c word resume header) gid g (code.base + handler)
       (s.record g cl c word resume g.dropped) g') ∧
  (∀ (s : State) (gid : Nat) (g : Group) (cl : Clause) (c : Cause) (word resume : Nat) (header : Bool) (l : Launch)
     (j : Job),
     Tab.get? s.groups gid = some g → s.launch? g = some l → l.status = none → Tab.get? s.work.jobs l.job = some j →
     let t := s.raise gid cl c word resume header
     (g.trap = none → l.handler = none →
       (Tab.get? t.work.launches g.launch).map Launch.status = some (some 6) ∧
       (Tab.get? t.work.jobs l.job).map Job.faults = some (j.faults ++ [s.record g cl c word resume g.dropped]) ∧
       Tab.get? t.groups gid = none) ∧
     (∀ f, g.trap = some f →
       (Tab.get? t.work.launches g.launch).map Launch.status = some (some 7) ∧
       (Tab.get? t.work.jobs l.job).map Job.faults =
         some (j.faults ++ [f.current, s.record g cl c word resume g.dropped]) ∧
       Tab.get? t.groups gid = none)) ∧
  (∀ (s : State) (g : Group) (cl : Clause) (c : Cause) (word resume dropped : Nat), c.code < 2 ^ 8 → c.detail < 2 ^ 32 →
     cl.header < 2 ^ 18 → word < 16 → resume < 16 → g.lanes.rep ≤ g.lanes.repN → g.lanes.repN < 2 ^ 8 →
     let r := recWord (s.record g cl c word resume dropped)
     (r 0).toNat = c.code + (if c.code = 0x13 ∨ c.code = 0x14 then 0 else 2 ^ 8) +
       (if g.recov.isSome then 2 ^ 9 else 0) + (if c.code = 0x0D ∨ (c.code = 0x01 ∧ cl.hw = 0#32) then 0 else 2 ^ 10) ∧
     (r 1).toNat = c.detail ∧ (r 2).toNat = cl.header ∧
     (r 3).toNat = word + resume * 2 ^ 8 + g.lanes.rep * 2 ^ 16 +
       (if g.lanes.rep = 0 then 0 else g.lanes.repN - g.lanes.rep + 1) * 2 ^ 24 ∧
     r 5 ++ r 4 = c.lanes.getD cl.exec ∧ r 7 ++ r 6 = cl.exec ∧ r 9 ++ r 8 = cl.served) ∧
  ∀ f : TrapFrame, (recWord f.record 0).toNat % 2 ^ 8 = 0x0D →
    (recWord f.current 0).getLsbD 10 = decide (f.lanes.active ≠ 0#64)

/-- TRET restores the saved registers, the set-aside lane state and the interrupted clause, and gives the save area
back; a resume point that R364 does not take is a handler fault and ends the task (R359), and that its record then has the
cause 0x02 is the model's choice (log 23). Where the return leaves only parked lanes between clauses it raises a park
deadlock, and a further cause of the trapped word is raised then: both are the model's choices (logs 24 and 22) (R100, R363,
R364, R370). -/
def Obligations.TretReturns : Prop :=
  ∀ (s : State) (gid : Nat) (g : Group) (cl : Clause) (f : TrapFrame), Ready .tret s gid g cl → g.trap = some f →
    g.exec ≠ 0#64 → (∀ e ∈ g.pend, e.handler = false) → BadLoc.saveArea gid ∉ s.bad →
    let area := (f.area.map (areaSegs g.core)).getD []
    s.asleep area = false →
    (BadResume s g f → Traps .tret s gid cl (.plain 0x02) ∧ EndsTask .tret s g 7) ∧
    ((f.sv.map Prod.fst).Nodup → (f.ss.map Prod.fst).Nodup → s.resumeOk g f = true → Tab.has s.cores g.core = true →
    let r := recResume f.record
    let left := ((s.setGroup gid g).touch area).leaveTrap gid g f
    (f.more = [] → r = 0 → f.lanes.active = 0#64 → (∃ e ∈ f.lanes.parked, e.2 ≠ 0#64) → g.done = false →
      exec .tret s = .next (left.raise gid cl (.plain 0x0D) cl.pos 0 false)) ∧
    (∀ c cs, f.more = c :: cs → exec .tret s = .next
      (left.raiseAll gid (left.recClause g f) c cs (left.recClause g f).pos r)) ∧
    (f.more = [] → (r = 0 → f.lanes.active = 0#64 → ∀ e ∈ f.lanes.parked, e.2 = 0#64) → Answers (exec .tret s) fun t =>
      (∀ area c, Tab.get? t.cores g.core = some c → (area, gid) ∉ c.areas) ∧
      t.GroupIs gid fun g' =>
        g'.trap = none ∧ g'.inflight = [] ∧
        (∀ k lane, lane < 64 → g.savedReg (.v k) = true → g'.rdV k lane = Tab.getD f.sv (k * 64 + lane) 0#32) ∧
        (∀ k lane, lane < 64 → g.savedReg (.v k) = false → (∀ e ∈ f.sv, g.savedReg (.v (e.1 / 64)) = true) →
          g'.rdV k lane = g.flush.rdV k lane) ∧
        (∀ k, g.savedReg (.s k) = true → g'.rdS k = Tab.getD f.ss k 0#32) ∧
        (r ≠ 0 → g'.lanes = f.lanes ∧ ∃ c, g'.clause = some c ∧ c.pos = r ∧
          c.header = (recWord f.record 2).toNat ∧ c.reentry = true ∧
          c.exec = recWord f.record 7 ++ recWord f.record 6 ∧ c.served = recWord f.record 9 ++ recWord f.record 8) ∧
        (r = 0 → g'.clause = none ∧ (f.clause = none ∨ f.header = true → g'.lanes = f.lanes))))

/-- Family 0xF4 outside trap-handler mode raises a privilege fault where no earlier class of fault applies, and in the
handler no privilege fault is raised (R53). -/
def Obligations.DebugIsPrivileged : Prop :=
  ∀ (i : Instr) (s : State) (gid : Nat) (g : Group) (cl : Clause),
    ((∃ w x, encode i = [w, x] ∧ w.extractLsb' 24 8 = 0xF4#8)) →
    (s.cur = some gid → (Tab.get? s.groups gid).map Group.landDue = some g → g.clause = some cl →
      g.inHandler = false → g.barsTok = none → s.breakAt g cl = none → illegalAt g cl i = false →
      exec i s = .next (s.raise gid cl (.plain 0x04) cl.pos cl.pos false)) ∧
    (g.inHandler = true → s.breakAt g cl = none → s.checks g cl i ≠ some (.plain 0x04))

/-- A word that is no instruction raises an illegal-instruction fault before any effect, unless a breakpoint matches
there (R48, R54, R355); an instruction of another class than its clause's, or one that ends the flow before the
clause's last word, raises it too (R33, R92). -/
def Obligations.IllegalWords : Prop :=
  ∀ (s : State) (gid : Nat) (g : Group) (cl : Clause), s.cur = some gid →
    (∀ w x, Tab.get? s.groups gid = some g → g.clause = some cl → s.breakAt g cl = none →
      exec (.illegalInstruction w x) s = .next (s.raise gid cl (.plain 0x02) cl.pos cl.pos false)) ∧
    (∀ i, i.isInstruction = true → (Tab.get? s.groups gid).map Group.landDue = some g → g.clause = some cl →
      g.barsTok = none → s.breakAt g cl = none →
      ((i.cls ≠ some .control ∧ i.cls.map classNum ≠ some (hdrClass cl.hw)) ∨
        (endsFlow i = true ∧ cl.pos + i.words ≠ hdrN cl.hw + 1)) →
      exec i s = .next (s.raise gid cl (.plain 0x02) cl.pos cl.pos false))

/-! ### Special registers, buffer records and values on their way -/

/-- SRD, BGET, CTXQ and SGSTAT send the value as it stands when they issue, its registers being pending until LOAD_RETURN
lands it, which clears them. For CTXQ and SGSTAT any moment between issue and result would do (R239, R326), and the moment
of issue is the model's choice (log 58) (R36, R127, R130, R206, R239, R326). -/
def Obligations.ValuesSentAndLanded : Prop :=
  (∀ (s : State) (gid : Nat) (g : Group) (cl : Clause), Steady g →
     let sent := fun (i : Instr) (ws : List (Target × Word)) => ws ≠ [] → Answers (exec i s) fun t =>
       SameMemory s t ∧ t.GroupIs gid fun g' => Sends t gid s.nextId g' ws ∧ SameRegisters g g'
     (∀ d sp, Ready (.srd d sp) s gid g cl →
       sent (.srd d sp) ((List.range sp.regs).flatMap fun k => g.dest d k fun lane =>
         BitVec.ofNat 32 (specialValue s g g.lanes cl.header sp lane / 2 ^ (32 * k)))) ∧
     (∀ d b, Ready (.bget d b) s gid g cl →
       sent (.bget d b) ((List.range 4).flatMap fun k => g.dest d k fun _ => Tab.getD g.b (4 * b.toNat + k) 0#32)) ∧
     (∀ d a, Ready (.ctxq d a) s gid g cl → g.active ≠ 0#64 →
       sent (.ctxq d a) (g.dest d 0 fun _ => s.tagWord (s.jobOf g) ((g.sval a 0).toNat % 2 ^ 16))) ∧
     (∀ d slot code, Ready (.sgstat d slot code) s gid g cl →
       sent (.sgstat d slot code) (g.dest d 0 fun _ =>
         statValue (s.slot? g.core slot.toNat) (s.jobOf g) code.toNat))) ∧
  (∀ (s : State) (op line : Nat) (v : ValOp) (g : Group),
     Tab.get? s.ops.mem op = none → Tab.get? s.ops.vals op = some v → Tab.get? s.groups v.group = some g →
     (v.writes.map Prod.fst).Nodup → (∀ w ∈ v.writes, w.1.inLanes ∧ truthValue w) →
     (∀ e ∈ g.pend, e.op = op → e.saved = false) → s.retained = [] →
     Answers (exec (.loadReturn op line) s) fun t => Tab.get? t.ops.vals op = none ∧ SameMemory s t ∧
       t.GroupIs v.group fun g' => (∀ e ∈ g'.pend, e.op ≠ op) ∧
         ∀ w, w.inLanes → g'.reads w = written v.writes w (g.reads w))

/-- SWR writes the writable specials, each with its own bits (R67, R70, R95, R131, R200), and BSET the four words of a
buffer record (R206). R131 asks for an SWR's effect before the next clause only: that it takes effect at once is the model's
choice (log 54). -/
def Obligations.WritesSpecials : Prop :=
  ∀ (s : State) (gid : Nat) (g : Group) (cl : Clause), Steady g → g.active ≠ 0#64 →
    (∀ a sp, Ready (.swr a sp) s gid g cl →
      let w := g.sval a 0
      Answers (exec (.swr a sp) s) fun t => OnlyGroup s t gid ∧ t.GroupIs gid fun g' =>
        g'.v = g.v ∧ g'.s = g.s ∧ g'.lanes.p = g.lanes.p ∧
        g'.lanes.agelimit = (if sp = .agelimit then max 16 (w.toNat % 2 ^ 12) else g.lanes.agelimit) ∧
        g'.lanes.rmode = (if sp = .rmode then BitVec.ofNat 2 w.toNat else g.lanes.rmode) ∧
        g'.lanes.fflags = (if sp = .fflags then BitVec.ofNat 5 w.toNat else g.lanes.fflags) ∧
        g'.bounds = (if sp = .bounds then decide (w.toNat % 2 = 1) else g.bounds)) ∧
    (∀ a b, Ready (.bset a b) s gid g cl →
      Answers (exec (.bset a b) s) fun t => OnlyGroup s t gid ∧ t.GroupIs gid fun g' =>
        g'.v = g.v ∧ g'.s = g.s ∧
        ∀ n, Tab.getD g'.b n 0#32 = if n / 4 = b.toNat then g.sval a (n % 4) else Tab.getD g.b n 0#32)

/-! ### Global memory -/

/-- A load that nothing stops is counted in LD, its destination is pending, and its lines are to be read at the
addresses its lanes name; no byte changes (R199, R200, R204, R240, R243). A misaligned lane, one out of extent where the
record asks for the trap, a context that is not live and LDX's unknown one raise their faults, in this order, and a line that
fails its translation or its lease ends the task with lease-violation (R200, R212, R232, R240). The model's choices are that a
uniform load's mask is that of Exec's non-helper lanes, that the context fault is raised with helper lanes only too (log 21),
and that sr.bounds stays as it was where a context fault follows an out-of-extent lane without the trap (log 26). -/
def Obligations.LoadsIssue : Prop :=
  ∀ (i : Instr) (s : State) (gid : Nat) (g : Group) (cl : Clause) (d : Reg) (b : BitVec 5) (sz : MemSize)
    (idx : Nat → Word) (off : Int) (ldx : Option Nat),
    let lanes := if d.isScalar then [0] else maskList g.exec
    Ready i s gid g cl → loadForm i g = some (d, b, sz, idx, off, ldx) →
    (if d.isScalar then g.active else g.exec) ≠ 0#64 →
    AccessStops i s gid g cl b.toNat lanes d.isScalar idx off sz.bytes rRead cLD ldx false ∧
    ∀ (t : Option Desc) (p : Plan) (ps : List (Nat × Nat)), Steady g →
    AccessPasses s gid g b.toNat lanes d.isScalar idx off sz.bytes rRead cLD ldx false t p ps → p.accs ≠ [] →
    (s.setGroup gid g).watchLanes g wLoad ((t.map Desc.obj).getD 0) (p.laneAccs ps fun _ => []) sz.bytes = [] →
    Answers (exec i s) fun t' => SameMemory s t' ∧
      (∃ o, Tab.get? t'.ops.mem s.nextId = some o ∧ o.group = gid ∧ o.kind = .load ∧ o.size = sz ∧
        o.accs = p.laneAccs ps (fun _ => []) ∧ o.zero = p.zero ∧ o.lines = ps.map Prod.fst ∧ o.cls = 0 ∧
        o.tag = ldx.getD g.lanes.ctag.toNat) ∧
      t'.GroupIs gid fun g' => SameRegisters g g' ∧ g'.cnt 0 = g.cnt 0 + 1 ∧
        (∀ r ∈ g.pregs d sz.regs, g'.isPend r = true) ∧ g'.bounds = (g.bounds || p.out != 0#64)

/-- A store that nothing stops is counted in ST and its lines enter the core's queue with the bytes of its lanes, the
highest lane's winning; no byte of memory changes before a line reaches its home (R201, R203, R204). It traps, and ends its
task, where a load does (R200, R212, R232), and the model's choices are the load's: the context fault with helper lanes only
(log 21), and sr.bounds as it was where a context fault follows an out-of-extent lane without the trap (log 26). -/
def Obligations.StoresIssue : Prop :=
  ∀ (i : Instr) (s : State) (gid : Nat) (g : Group) (cl : Clause) (d : Reg) (b : BitVec 5) (sz : MemSize)
    (idx : Nat → Word) (off : Int),
    Ready i s gid g cl → storeForm i g = some (d, b, sz, idx, off) → g.exec ≠ 0#64 →
    AccessStops i s gid g cl b.toNat (maskList g.exec) false idx off sz.bytes rWrite cST none true ∧
    ∀ (t : Option Desc) (p : Plan) (ps : List (Nat × Nat)), Steady g →
    AccessPasses s gid g b.toNat (maskList g.exec) false idx off sz.bytes rWrite cST none true t p ps →
    p.accs ≠ [] →
    let data := fun k => (List.range sz.bytes).map fun j => (g.src d (j / 4) k).extractLsb' (8 * (j % 4)) 8
    let accs := p.laneAccs ps data
    (s.setGroup gid g).watchLanes g wStore ((t.map Desc.obj).getD 0) accs sz.bytes = [] →
    Answers (exec i s) fun t' => SameMemory s t' ∧
      (∃ o, Tab.get? t'.ops.mem s.nextId = some o ∧ o.group = gid ∧ o.kind = .store ∧ o.accs = accs ∧
        o.lines = ps.map Prod.fst ∧ o.cls = 1) ∧
      (∀ n, n < ps.length → ∃ e, Tab.get? t'.ops.sfq (s.nextId + 1 + n) = some e ∧ e.op = s.nextId ∧
        e.off = (ps.getD n (0, 0)).1 ∧ e.phys = (ps.getD n (0, 0)).2 ∧ e.bytes = lineBytes e.off accs) ∧
      t'.GroupIs gid fun g' => SameRegisters g g' ∧ g'.cnt 1 = g.cnt 1 + 1

/-- ATOM and RED that nothing stops are counted, in LD and ST, with each lane's operands; ATOM's destination is
pending, and an acquiring order holds the group's later words (R205, R253). They trap, and end their task, where a load does
(R200, R212, R232), and the model's choices are the load's: the context fault with helper lanes only (log 21), and sr.bounds
as it was where a context fault follows an out-of-extent lane without the trap (log 26). -/
def Obligations.AtomicsIssue : Prop :=
  ∀ (s : State) (gid : Nat) (g : Group) (cl : Clause) (b : BitVec 5) (vi : Reg) (op : AtomOp) (ord : Order)
    (ty : AtomTy) (scope : Scope) (val : Reg) (dst : Option Reg),
    let i : Instr := match dst with
      | some d => .atom d b vi op ord ty scope val
      | none => .red b vi op ord ty scope val
    let cls := if dst.isSome then 0 else 1
    Ready i s gid g cl → g.exec ≠ 0#64 →
    AccessStops i s gid g cl b.toNat (maskList g.exec) false (fun k => g.src vi 0 k) 0 ty.bytes rAtomic cls none true ∧
    ∀ (t : Option Desc) (p : Plan) (ps : List (Nat × Nat)), Steady g →
    let accs := p.laneAccs ps (g.atomData val op ty)
    AccessPasses s gid g b.toNat (maskList g.exec) false (fun k => g.src vi 0 k) 0 ty.bytes rAtomic cls none true t p ps →
    p.accs ≠ [] → (s.setGroup gid g).watchLanes g wAtomic ((t.map Desc.obj).getD 0) accs ty.bytes = [] →
    Answers (exec i s) fun t' => SameMemory s t' ∧
      (∃ o, Tab.get? t'.ops.mem s.nextId = some o ∧ o.group = gid ∧ o.kind = .atomic op ty dst.isSome ord scope ∧
        o.accs = accs ∧ o.lines = ps.map Prod.fst ∧ o.cls = cls) ∧
      t'.GroupIs gid fun g' => SameRegisters g g' ∧ g'.cnt cls = g.cnt cls + 1 ∧
        (∀ d, dst = some d → ∀ r ∈ g.pregs d ty.regs, g'.isPend r = true) ∧
        (g'.hold = some s.nextId ↔ ord = .acq ∨ ord = .ar ∨ g.hold = some s.nextId)

/-- LOAD_RETURN of a load's last line, read at its home: each lane's registers get the bytes that the nearest context of
its chain has written, or else memory holds, extended as the size gives, out-of-extent lanes zero, and LD falls past the
load. LINE_ARRIVE_HOME in the root context: the line's bytes are written at their places, and no other byte of memory
changes; in a live context they are written to its cell, or wait where it needs one and none is free; in a dead one they are
dropped and counted. A line that does not wait leaves its queue, and with a store's last line ST falls past it (R200, R203,
R204, R222, R223, R227, R232, R243, R245, R249). -/
def Obligations.LinesPerform : Prop :=
  (∀ (s : State) (op line : Nat) (o : MemOp) (g : Group) (rest : List (Nat × Bool)) (first : LaneAcc),
     Tab.get? s.ops.mem op = some o → Tab.get? s.groups o.group = some g → o.kind = .load → o.lines = [line] →
     o.cls = 0 → Eldest g 0 op rest → o.accs.head? = some first → (∀ a ∈ o.accs, lineOf a.off = line) → s.bad = [] →
     (∀ a ∈ o.accs, s.elder o.group op o.obj a.off o.size.bytes = false) →
     (∀ a ∈ o.accs, ∀ k, k < o.size.bytes →
       s.forwardLine op o (a.off + k) = none ∧ s.leftBehind o (a.off + k) = false) →
     (s.charge o.core (first.phys - first.off % 64) op line).1 = true →
     (∀ e ∈ g.pend, e.op = op → e.saved = false) → s.retained = [] →
     let found := fun (a : LaneAcc) => (List.range o.size.bytes).map fun k =>
       s.resolved o.job o.tagged o.rtag o.obj (a.off + k) (a.phys + k)
     let o' := { o with accs := o.accs.map fun (a : LaneAcc) => { a with got := found a } }
     (o'.writes.map Prod.fst).Nodup → (∀ w ∈ o'.writes, w.1.inLanes) →
     Answers (exec (.loadReturn op line) s) fun t => Tab.get? t.ops.mem op = none ∧ SameMemory s t ∧
       t.GroupIs o.group fun g' => g'.outs 0 = (rest.dropWhile fun e => e.2) ∧ (∀ e ∈ g'.pend, e.op ≠ op) ∧
         ∀ w, w.inLanes → g'.reads w = written o'.writes w (g.reads w)) ∧
  (∀ (s : State) (id : Nat) (e : SfqLine),
     Tab.get? s.ops.sfq id = some e → s.lineReady id e = true → e.waiting = false →
     (s.charge e.core e.phys id e.off).1 = true → (e.bytes.map Prod.fst).Nodup →
     let cell := s.kennel.cell? e.job e.tag e.obj (e.off / 64)
     let acknowledged := fun (t : State) => Tab.get? t.ops.sfq id = none ∧
       ∀ o g rest, Tab.get? s.ops.mem e.op = some o → o.kind = .store → o.dst = none → o.cls = 1 →
         o.lines = [e.off] → Tab.get? s.groups o.group = some g → Eldest g 1 e.op rest →
         Tab.get? t.ops.mem e.op = none ∧ t.GroupIs o.group fun g' => g'.outs 1 = rest.dropWhile fun e => e.2
     ((e.tagged = false ∨ e.tag = 0) →
       Answers (exec (.lineArriveHome id) s) fun t => acknowledged t ∧ ∀ a, memRead Config.hbmFill t.hbm a =
         if e.phys ≤ a then (Tab.get? e.bytes (a - e.phys)).getD (memRead Config.hbmFill s.hbm a)
         else memRead Config.hbmFill s.hbm a) ∧
     (e.tagged = true → e.tag ≠ 0 →
       (s.tagLive e.job e.tag = true → (cell ≠ none ∨ s.cellsFull e.job = false) →
         Answers (exec (.lineArriveHome id) s) fun t => acknowledged t ∧ t.hbm = s.hbm ∧
           CellWritten s t e.job e.tag e.obj (e.off / 64) fun k => Tab.get? e.bytes k) ∧
       (s.tagLive e.job e.tag = true → cell = none → s.cellsFull e.job = true →
         Answers (exec (.lineArriveHome id) s) fun t => t.hbm = s.hbm ∧ t.kennel.cells = s.kennel.cells ∧
           Tab.get? t.ops.sfq id = some { e with waiting := true } ∧ id ∈ t.kennel.waits) ∧
       (s.tagLive e.job e.tag = false → ∀ l, Tab.get? s.work.launches e.launch = some l →
         Answers (exec (.lineArriveHome id) s) fun t => acknowledged t ∧ t.hbm = s.hbm ∧
           t.kennel.cells = s.kennel.cells ∧
           (Tab.get? t.work.launches e.launch).map Launch.late = some (min 0xFFFFFFFF (l.late + 1)))))

/-- ATOMIC_PERFORM: the lane's old bytes, those the nearest context of its chain has written or else memory holds, are
kept as its result. In the root context memory holds the bytes of the operation on them and nothing else changed; in a
live context its cell holds them, or the lane waits where it needs one and none is free; in a dead one they are
dropped; and what each operation makes of the old value, fadd rounding to nearest even whatever sr.rmode holds and f32
min and max as FMIN and FMAX (R51, R69, R179, R205, R223, R224, R227, R232). -/
def Obligations.AtomicsPerform : Prop :=
  (∀ (s : State) (op lane : Nat) (o : MemOp) (aop : AtomOp) (ty : AtomTy) (ret : Bool) (ord : Order) (scope : Scope)
     (a : LaneAcc),
     Tab.get? s.ops.mem op = some o → o.kind = .atomic aop ty ret ord scope →
     o.accs.find? (fun x => x.lane = lane && !x.performed) = some a → a.waits = false →
     s.atomicReady op o ord scope a ty.bytes = true → s.bad = [] →
     ((∃ x ∈ o.accs, lineOf x.off = lineOf a.off ∧ (x.performed = true ∨ x.waits = true)) ∨
       (s.charge o.core a.phys op (lineOf a.off)).1 = true) →
     a.off % 64 ≤ a.phys →
     let old := (List.range ty.bytes).map fun k => s.resolved o.job o.tagged o.rtag o.obj (a.off + k) (a.phys + k)
     let new := natToBytes (atomOp aop ty (bytesToNat old) (bytesToNat (a.data.take ty.bytes))
       (bytesToNat (a.data.drop ty.bytes))) ty.bytes
     let accs := o.accs.map fun x =>
       if x.lane = lane then { x with got := old, performed := true, waits := false } else x
     let cell := s.kennel.cell? o.job o.tag o.obj (a.off / 64)
     let performs := fun (t : State) =>
       ((ret = true ∨ ∃ x ∈ accs, x.performed = false) → (Tab.get? t.ops.mem op).map MemOp.accs = some accs) ∧
       (ret = false → (∀ x ∈ accs, x.performed = true) → Tab.get? t.ops.mem op = none)
     ((o.tagged = false ∨ o.tag = 0) →
       Answers (exec (.atomicPerform op lane) s) fun t => performs t ∧ t.hbmRead a.phys ty.bytes = new ∧
         ∀ x, (x < a.phys ∨ a.phys + ty.bytes ≤ x) → t.hbmRead x 1 = s.hbmRead x 1) ∧
     (o.tagged = true → o.tag ≠ 0 →
       (s.tagLive o.job o.tag = true → (cell ≠ none ∨ s.cellsFull o.job = false) →
         Answers (exec (.atomicPerform op lane) s) fun t => performs t ∧ t.hbm = s.hbm ∧
           CellWritten s t o.job o.tag o.obj (a.off / 64) fun k =>
             if a.off % 64 ≤ k ∧ k < a.off % 64 + ty.bytes then some (new.getD (k - a.off % 64) 0#8) else none) ∧
       (s.tagLive o.job o.tag = true → cell = none → s.cellsFull o.job = true →
         Answers (exec (.atomicPerform op lane) s) fun t => t.hbm = s.hbm ∧ t.kennel.cells = s.kennel.cells ∧
           op ∈ t.kennel.waits ∧ (Tab.get? t.ops.mem op).map MemOp.accs = some (o.accs.map fun x =>
             if x.lane = lane then { x with waits := true } else x)) ∧
       (s.tagLive o.job o.tag = false →
         Answers (exec (.atomicPerform op lane) s) fun t => performs t ∧ t.hbm = s.hbm ∧
           t.kennel.cells = s.kennel.cells))) ∧
  (∀ (ty : AtomTy) (old v c : Nat), old < 2 ^ (8 * ty.bytes) → v < 2 ^ (8 * ty.bytes) →
     atomOp .add ty old v c = (old + v) % 2 ^ (8 * ty.bytes) ∧
     atomOp .exch ty old v c = v ∧
     (atomOp .cas ty old v c = if old = c then v else old) ∧
     (∀ n, (atomOp .and ty old v c).testBit n = (old.testBit n && v.testBit n)) ∧
     (∀ n, (atomOp .or ty old v c).testBit n = (old.testBit n || v.testBit n)) ∧
     (∀ n, (atomOp .xor ty old v c).testBit n = (old.testBit n != v.testBit n)) ∧
     (ty = .i32 → (BitVec.ofNat 32 (atomOp .min ty old v c)).toInt =
       min (BitVec.ofNat 32 old).toInt (BitVec.ofNat 32 v).toInt) ∧
     (ty = .i32 → (BitVec.ofNat 32 (atomOp .max ty old v c)).toInt =
       max (BitVec.ofNat 32 old).toInt (BitVec.ofNat 32 v).toInt) ∧
     (ty = .ui32 ∨ ty = .b64 → atomOp .min ty old v c = min old v ∧ atomOp .max ty old v c = max old v) ∧
     (ty = .f32 → atomOp .fadd ty old v c = (fp32.add .even old v).1 ∧
       atomOp .min ty old v c = (fp32.minCode old v).1 ∧ atomOp .max ty old v c = (fp32.maxCode old v).1))

/-- FENCE and TFENCE let the group go on once their effect is met: FENCE changes no register and no memory, and its
acquire half makes the lines then in the core's queue, and those known before, ones that later engine commands wait
for; TFENCE drops the job's cached descriptors and extents on every die, and at .sys in the hub's request paths. Until
then the word does not issue (R207, R252, R255). TABLE_WALK fills the die's cache on a miss only, and METERING_WINDOW
renews the budgets of a window that has not begun (R197, R399, R400). Which lines an acquire makes engine commands
wait for, and that a failed walk fills the cache too, are the model's choices (logs 50 and 25). -/
def Obligations.FencesAndWalks : Prop :=
  ∀ (s : State) (gid : Nat) (g : Group) (cl : Clause),
    (∀ ord sc, Ready (.fence ord sc) s gid g cl → Steady g → g.exec ≠ 0#64 →
      (s.setGroup gid g).fenceMet gid g ord sc = true →
      Answers (exec (.fence ord sc) s) fun t => t = { s with groups := t.groups, views := t.views } ∧
        (∀ k, k ≠ gid → Tab.get? t.groups k = Tab.get? s.groups k) ∧
        Tab.get? t.groups gid = some { g.advance cl (.fence ord sc) .seq with
          seen := if ord = .acq ∨ ord = .ar then s.seenBy g else g.seen }) ∧
    (∀ ord sc, Ready (.fence ord sc) s gid g cl → Steady g → g.exec = 0#64 →
      exec (.fence ord sc) s = .next (s.after gid g cl (.fence ord sc))) ∧
    (∀ ord sc, Ready (.fence ord sc) s gid g cl → g.exec ≠ 0#64 → (s.setGroup gid g).fenceMet gid g ord sc = false →
      exec (.fence ord sc) s = .next s.notIssued) ∧
    (∀ sc, Ready (.tfence sc) s gid g cl → Steady g → g.active ≠ 0#64 →
      (∀ e ∈ s.ops.mem, e.2.group = gid → e.2.kind ≠ .load → e.2.lines = []) →
      Answers (exec (.tfence sc) s) fun t => SameMemory s t ∧
        (∀ d ∈ t.dies, (d.1 ≠ hubPath ∨ sc = .sys) →
          (∀ e ∈ d.2.descs, e.1.1 ≠ s.jobOf g) ∧ ∀ e ∈ d.2.extents, e.1.1 ≠ s.jobOf g) ∧
        (sc ≠ .sys → Tab.get? t.dies hubPath = Tab.get? s.dies hubPath) ∧
        Tab.get? t.groups gid = some (g.advance cl (.tfence sc) .seq)) ∧
    (∀ sc, Ready (.tfence sc) s gid g cl → g.active ≠ 0#64 →
      (∃ e ∈ s.ops.mem, e.2.group = gid ∧ e.2.kind ≠ .load ∧ e.2.lines ≠ []) →
      exec (.tfence sc) s = .next s.notIssued) ∧
    (∀ die job obj ext d, Tab.get? s.dies die = some d →
      ((∀ e ∈ d.extents, e.1 ≠ (job, obj, ext)) →
        Answers (exec (.tableWalk die job obj ext) s) fun t => SameMemory s t ∧
          ∃ d', Tab.get? t.dies die = some d' ∧ d'.extents.head? = some ((job, obj, ext), s.walk job obj ext)) ∧
      ((∃ e ∈ d.extents, e.1 = (job, obj, ext)) → exec (.tableWalk die job obj ext) s = .next s)) ∧
    (Answers (exec .meteringWindow s) fun t => SameMemory s t ∧ t.hub.lastWindow = s.now / 1000 ∧
      ∀ k c, Tab.get? s.clusters k = some c → Tab.get? t.clusters k =
        some (if c.window = s.now / 1000 then c else { c with window := s.now / 1000, spent := [] }))

/-! ### Scratchpads and copies -/

/-- LDS, STS and ATOMS whose non-helper lanes are aligned and inside the allotment complete: LDS sends the words at its
lanes' addresses, STS writes each byte of the highest lane that names it and no other byte, ATOMS performs its lanes in
ascending order and sends each the old bytes; LDS and ATOMS whose every lane is a helper lane that accesses nothing complete
at once (R244). A misaligned non-helper lane raises its cause instead, and an out-of-bounds
one raises its own where no lane is misaligned, with the mask of those lanes; a uniform LDS is checked as one lane, whose
mask is Exec's non-helper lanes by the model's choice (log 21). That the three are performed at their bank when they issue is
the model's choice too (log 50) (R88, R173 to R179, R244). -/
def Obligations.ScratchAccesses : Prop :=
  (∀ (s : State) (gid : Nat) (g : Group) (cl : Clause) (blk : Block) (d a : Reg) (imm : BitVec 8),
     let addr := fun k => (g.src a 0 k).toNat + 4 * imm.toNat
     let inside := fun k => addr k % 4 = 0 ∧ addr k + 4 ≤ s.allot g
     let fine := fun k => g.helpers.getLsbD k = true ∨ inside k
     s.block? g = some blk → s.bad = [] → s.retained = [] →
     (Ready (.lds d a imm) s gid g cl → Steady g → g.cnt 0 < 63 →
       (d.isScalar = false → (∃ k, k < 64 ∧ g.exec.getLsbD k = true ∧ inside k) ∧
         ∀ k, k < 64 → g.exec.getLsbD k = true → fine k) →
       (d.isScalar = true → g.active ≠ 0#64 ∧ addr 0 % 4 = 0 ∧ addr 0 + 4 ≤ s.allot g) →
       Answers (exec (.lds d a imm) s) fun t => SameMemory s t ∧
         (∃ o, Tab.get? t.ops.mem s.nextId = some o ∧ o.group = gid ∧ o.kind = .value ∧
           (o.accs.map fun x => (x.lane, x.got)) =
             ((if d.isScalar then [0] else maskList g.exec).filter fun k =>
               decide (addr k % 4 = 0 ∧ addr k + 4 ≤ s.allot g)).map fun k => (k, blk.read (addr k) 4)) ∧
         t.GroupIs gid fun g' => SameRegisters g g' ∧ g'.cnt 0 = g.cnt 0 + 1 ∧
           ∀ r ∈ g.pregs d 1, g'.isPend r = true) ∧
     (Ready (.lds d a imm) s gid g cl → Steady g → g.cnt 0 < 63 → d.isScalar = false → g.exec ≠ 0#64 → g.active = 0#64 →
       (∀ k, k < 64 → g.exec.getLsbD k = true → ¬inside k) → Idles (.lds d a imm) s gid g) ∧
     (Ready (.sts d a imm) s gid g cl → Steady g → g.cnt 1 < 63 → g.exec ≠ 0#64 →
       (∀ k, k < 64 → g.exec.getLsbD k = true → fine k) →
       Answers (exec (.sts d a imm) s) fun t => t.hbm = s.hbm ∧
         (t.GroupIs gid fun g' => SameRegisters g g' ∧ (g.cnt 1 = 0 → g'.cnt 1 = 0)) ∧
         ∃ blk', Tab.get? t.work.blocks (g.block.getD 0) = some blk' ∧ ∀ x, blk'.read x 1 =
           match ((maskList g.active).filter fun k => decide (addr k ≤ x ∧ x < addr k + 4)).getLast? with
           | some k => [(g.src d 0 k).extractLsb' (8 * (x - addr k)) 8]
           | none => blk.read x 1) ∧
     (Ready (.lds d a imm) s gid g cl → d.isScalar = false →
       (∃ k, k < 64 ∧ g.active.getLsbD k = true ∧ addr k % 4 ≠ 0) →
       ∃ m, (∀ k, k < 64 → (m.getLsbD k = true ↔ g.active.getLsbD k = true ∧ addr k % 4 ≠ 0)) ∧
         exec (.lds d a imm) s = .next (s.raise gid cl (.at 0x09 m) cl.pos cl.pos false)) ∧
     (Ready (.sts d a imm) s gid g cl → (∃ k, k < 64 ∧ g.active.getLsbD k = true ∧ addr k % 4 ≠ 0) →
       ∃ m, (∀ k, k < 64 → (m.getLsbD k = true ↔ g.active.getLsbD k = true ∧ addr k % 4 ≠ 0)) ∧
         exec (.sts d a imm) s = .next (s.raise gid cl (.at 0x09 m) cl.pos cl.pos false)) ∧
     (∀ i, (i = .sts d a imm ∨ (i = .lds d a imm ∧ d.isScalar = false)) → Ready i s gid g cl →
       (∀ k, k < 64 → g.active.getLsbD k = true → addr k % 4 = 0) →
       (∃ k, k < 64 ∧ g.active.getLsbD k = true ∧ s.allot g < addr k + 4) →
       ∃ m, (∀ k, k < 64 → (m.getLsbD k = true ↔ g.active.getLsbD k = true ∧ s.allot g < addr k + 4)) ∧
         exec i s = .next (s.raise gid cl (.at 0x07 m) cl.pos cl.pos false)) ∧
     (Ready (.lds d a imm) s gid g cl → d.isScalar = true → g.active ≠ 0#64 →
       (addr 0 % 4 ≠ 0 → exec (.lds d a imm) s = .next (s.raise gid cl (.at 0x09 g.active) cl.pos cl.pos false)) ∧
       (addr 0 % 4 = 0 → s.allot g < addr 0 + 4 →
         exec (.lds d a imm) s = .next (s.raise gid cl (.at 0x07 g.active) cl.pos cl.pos false)))) ∧
  (∀ (s : State) (gid : Nat) (g : Group) (cl : Clause) (blk : Block) (d vi val : Reg) (op : AtomOp) (ord : Order)
     (ty : AtomTy) (scope : Scope),
     let i : Instr := .atoms d vi op ord ty scope val
     let addr := fun k => (g.src vi 0 k).toNat
     let n := ty.bytes
     let perform := fun (st : List (Nat × List Byte) × Block) k =>
       let old := st.2.read (addr k) n
       let data := g.atomData val op ty k
       (st.1 ++ [(k, old)], st.2.write (addr k)
         (natToBytes (atomOp op ty (bytesToNat old) (bytesToNat (data.take n)) (bytesToNat (data.drop n))) n))
     let traps := fun (code : Nat) (p : Nat → Prop) => ∃ m, (∀ k, k < 64 →
       (m.getLsbD k = true ↔ g.active.getLsbD k = true ∧ p k)) ∧
         exec i s = .next (s.raise gid cl (.at code m) cl.pos cl.pos false)
     (Ready i s gid g cl → (∃ k, k < 64 ∧ g.active.getLsbD k = true ∧ addr k % n ≠ 0) →
       traps 0x09 fun k => addr k % n ≠ 0) ∧
     (Ready i s gid g cl → (∀ k, k < 64 → g.active.getLsbD k = true → addr k % n = 0) →
       (∃ k, k < 64 ∧ g.active.getLsbD k = true ∧ s.allot g < addr k + n) →
       traps 0x07 fun k => s.allot g < addr k + n) ∧
     (Ready i s gid g cl → Steady g → g.cnt 0 < 63 → g.exec ≠ 0#64 → g.active = 0#64 →
       (∀ k, k < 64 → g.exec.getLsbD k = true → ¬(addr k % n = 0 ∧ addr k + n ≤ s.allot g)) → Idles i s gid g) ∧
     (Ready i s gid g cl → Steady g → s.block? g = some blk → s.bad = [] → s.retained = [] →
     (∃ k, k < 64 ∧ g.exec.getLsbD k = true ∧ addr k % n = 0 ∧ addr k + n ≤ s.allot g) → g.cnt 0 < 63 →
     (∀ k, k < 64 → g.active.getLsbD k = true → addr k % n = 0 ∧ addr k + n ≤ s.allot g) →
     (ord.releases = true → (s.setGroup gid g).releaseMet gid g scope = true) →
     let r := (maskList g.active).foldl perform ([], blk)
     let helped := ((maskList g.exec).filter fun k =>
       g.helpers.getLsbD k && decide (addr k % n = 0 ∧ addr k + n ≤ s.allot g)).map fun k => (k, r.2.read (addr k) n)
     Answers (exec i s) fun t => t.hbm = s.hbm ∧ Tab.get? t.work.blocks (g.block.getD 0) = some r.2 ∧
       (∃ o, Tab.get? t.ops.mem s.nextId = some o ∧ o.kind = .value ∧ o.group = gid ∧
         (o.accs.map fun x => (x.lane, x.got)) = r.1 ++ helped) ∧
       t.GroupIs gid fun g' => g'.cnt 0 = g.cnt 0 + 1 ∧ ∀ p ∈ g.pregs d ty.regs, g'.isPend p = true))

/-- TCOPY, TCOPYI and TMOV, with aligned addresses, a move inside its allotments, a live context and a free place,
are accepted: CP counts them, the status scalar is pending and the command waits in the engine with what it captured. A
move of no bytes completes at once with the status word of code ok and 0 lines (R180 to R182, R184, R244, R261 to
R263). A misaligned address, a move beyond an allotment and a context that is not live raise their faults instead, in this
order (R182, R232, R263). -/
def Obligations.CopiesAccepted : Prop :=
  (∀ (s : State) (gid : Nat) (g : Group) (cl : Clause), g.active ≠ 0#64 →
    let live := s.tagLive (s.jobOf g) g.lanes.ctag.toNat
    (∀ (d a b : Reg) (lvl : Level) (post : Option BarName) (n : BitVec 3) (sswz : BitVec 4) (i : Instr),
      i ∈ [Instr.tcopyLd d a b lvl post n sswz, .tcopySt d a b lvl post n sswz, .tcopyiPack d a b lvl post n sswz,
        .tcopyiUnpack d a b lvl post n sswz] → Ready i s gid g cl →
      ((g.sval b 0).toNat % 64 ≠ 0 → Traps i s gid cl (.plain 0x09)) ∧
      ((g.sval b 0).toNat % 64 = 0 → live = false → Traps i s gid cl (.withDetail 0x0C 8))) ∧
    ∀ (d a : Reg) (src dst : Level) (post : Option BarName),
      let i : Instr := .tmov d a src dst post
      let w := fun k => (g.sval a k).toNat
      let misaligned := w 0 % 64 ≠ 0 ∨ w 1 % 64 ≠ 0 ∨ w 2 % 2 ^ 16 % 64 ≠ 0
      let size := fun (l : Level) => (((s.newCopy g (.scalar gid (g.phys d 0)) .move).loc l).map s.scrSize).getD 0
      let beyond := w 2 / 2 ^ 16 ≠ 0 ∧ w 2 % 2 ^ 16 ≠ 0 ∧
        (size src < w 0 + (w 2 / 2 ^ 16 - 1) * (w 3 / 2 ^ 16) * 64 + w 2 % 2 ^ 16 ∨
          size dst < w 1 + (w 2 / 2 ^ 16 - 1) * (w 3 % 2 ^ 16) * 64 + w 2 % 2 ^ 16)
      Ready i s gid g cl →
      (misaligned → Traps i s gid cl (.plain 0x09)) ∧
      (¬misaligned → beyond → Traps i s gid cl (.plain 0x07)) ∧
      (¬misaligned → ¬beyond → live = false → Traps i s gid cl (.withDetail 0x0C 8))) ∧
  ∀ (s : State) (gid : Nat) (g : Group) (cl : Clause), Steady g → g.active ≠ 0#64 → g.cnt 2 < 15 →
    s.copiesOf g.core < 32 → s.tagLive (s.jobOf g) g.lanes.ctag.toNat = true →
    let accepted := fun (i : Instr) (d : Reg) (c : CopyCmd) => Answers (exec i s) fun t => SameMemory s t ∧
      Tab.get? t.ops.copies s.nextId = some c ∧
      t.GroupIs gid fun g' => SameRegisters g g' ∧ g'.cnt 2 = g.cnt 2 + 1 ∧ ∀ r ∈ g.pregs d 1, g'.isPend r = true
    let command := fun (d : Reg) (kind : CopyKind) => s.newCopy g (.scalar gid (g.phys d 0)) kind
    (∀ (d a b : Reg) (lvl : Level) (post : Option BarName) (n : BitVec 3) (sswz : BitVec 4) (kind : CopyKind) (i : Instr),
      (i, kind) ∈ [(Instr.tcopyLd d a b lvl post n sswz, CopyKind.ld), (.tcopySt d a b lvl post n sswz, .st),
        (.tcopyiPack d a b lvl post n sswz, .pack), (.tcopyiUnpack d a b lvl post n sswz, .unpack)] →
      Ready i s gid g cl → (g.sval b 0).toNat % 64 = 0 →
      accepted i d { command d kind with
        level := lvl, tensor := (g.sval a 0).toNat % 2 ^ 12
        coords := (List.range 5).map fun k => if k < n.toNat then (g.sval a (1 + k)).toInt else 0
        image := (g.sval b 0).toNat, sswz := sswz.toNat, post := post.map (s.barId g) }) ∧
    (∀ (d a : Reg) (src dst : Level) (post : Option BarName),
      let w := fun k => (g.sval a k).toNat
      let c : CopyCmd := { command d .move with
        level := src, dst := dst, image := w 0, post := post.map (s.barId g)
        move := [w 1, w 2 / 2 ^ 16, w 2 % 2 ^ 16, w 3 / 2 ^ 16, w 3 % 2 ^ 16] }
      Ready (.tmov d a src dst post) s gid g cl → w 0 % 64 = 0 → w 1 % 64 = 0 → w 2 % 2 ^ 16 % 64 = 0 →
      (w 2 / 2 ^ 16 ≠ 0 → w 2 % 2 ^ 16 ≠ 0 → s.moveFits c = true → accepted (.tmov d a src dst post) d c) ∧
      (w 2 / 2 ^ 16 = 0 ∨ w 2 % 2 ^ 16 = 0 → (∀ e ∈ g.pend, e.op ≠ s.nextId) →
        Answers (exec (.tmov d a src dst post) s) fun t => t.hbm = s.hbm ∧ t.ops.copies = s.ops.copies ∧
          t.GroupIs gid fun g' => g'.v = g.v ∧ g'.rdS (g.phys d 0) = BitVec.ofNat 32 (g.core % 4 * 2 ^ 24) ∧
            (g.outs 2 = [] → g'.outs 2 = []) ∧ ∀ r ∈ g.pregs d 1, g'.isPend r = false))

/-- COPY_START starts a move whose extents fit, and ends one that does not with fault-bounds; COPY_LINE of a move
copies one 64-byte line between the allotments and changes no other byte of its destination (R181 to R184, R264). -/
def Obligations.MovesRun : Prop :=
  ∀ (s : State) (id : Nat) (c : CopyCmd), Tab.get? s.ops.copies id = some c → c.kind = .move →
    (c.started = false → s.postOk c = true →
      Answers (exec (.copyStart id) s) fun t => SameMemory s t ∧ ∃ c', Tab.get? t.ops.copies id = some c' ∧
        c'.started = true ∧
        (if c.moveAligned = true ∧ s.moveFits c = true then
          c'.code = c.code ∧ c'.total = c.move.getD 1 0 * (c.move.getD 2 0 / 64)
        else c'.code = some 0xA)) ∧
    (∀ a b, c.started = true → c.code = none → c.next < c.total → s.ownerOrdered id c.owner = true → s.bad = [] →
      s.asleep (s.copySegs c) = false → c.loc c.level = some a → c.loc c.dst = some b → s.AllotExists b →
      let lpr := c.move.getD 2 0 / 64
      let src := c.image + (c.next / lpr * c.move.getD 3 0 + c.next % lpr) * 64
      let dst := c.move.getD 0 0 + (c.next / lpr * c.move.getD 4 0 + c.next % lpr) * 64
      Answers (exec (.copyLine id) s) fun t => t.hbm = s.hbm ∧
        (Tab.get? t.ops.copies id).map CopyCmd.next = some (c.next + 1) ∧
        ∀ x, t.scrByte b x = if dst ≤ x ∧ x < dst + 64 then s.scrByte a (src + (x - dst)) else s.scrByte b x)

/-- COPY_LINE of a tensor copy into a scratchpad image writes the bytes of one image line: the tensor's bytes where the
element is inside, in a context those that its chain holds, the fill element elsewhere, zero in the pad. Of a copy out of an
image it writes the elements inside, and the fill element of its padding channels, to the tensor in memory, in its context's
cells or in a scratchpad, and no other byte of it; a dead context drops them (R222, R223, R232, R265 to R270). -/
def Obligations.TensorLinesFill : Prop :=
  ∀ (s s' : State) (id : Nat) (c : CopyCmd) (ps : List (Nat × Nat)) (loc : ScrLoc),
    Tab.get? s.ops.copies id = some c → c.started = true → c.code = none → c.next < c.total →
    s.ownerOrdered id c.owner = true → s.bad = [] → s.asleep (s.copySegs c) = false → c.loc c.level = some loc →
    s.AllotExists loc → c.kind ≠ .move →
    let d := Desc.read c.desc
    let places := lineMap c.kind d c.coords c.next
    let moved := places.filter fun b => !b.pad && (b.cls = .inside || (b.cls = .padding && c.kind = .pack))
    let right := if c.kind.fills then rRead else rWrite
    let offs := ((places.filter fun b => !b.pad && b.cls = .inside) ++
      if c.kind.fills then [] else places.filter fun b => !b.pad && b.cls = .padding).map LineByte.place
    (s.touch (s.copySegs c)).tensorLines c d right offs = (some ps, s') →
    (s'.grantLines c.core id c.paid ps).1 = ps.length →
    (c.kind.fills = true →
      Answers (exec (.copyLine id) s) fun t => t.hbm = s.hbm ∧
        (Tab.get? t.ops.copies id).map CopyCmd.next = some (c.next + 1) ∧
        ∀ (n : Nat) (b : LineByte), places[n]? = some b → t.scrByte loc (imageAt c c.next n) =
          if b.pad then 0#8
          else if b.cls = .inside then
            if d.space = 0 then s.resolved c.job d.tagged c.rtag d.obj b.place (physIn ps b.place)
            else s.tensorByte c d ps b.place
          else d.fillBytes.getD b.q 0#8) ∧
    (c.kind.fills = false → offs.Nodup →
      let value := fun (n : Nat) => match places[n]? with
        | some b => if b.cls = .inside then s.scrByte loc (imageAt c c.next n) else d.fillBytes.getD b.q 0#8
        | none => 0#8
      let source := fun (at_ : Nat → Nat) (a : Nat) => (List.range 64).find? fun n =>
        match places[n]? with
        | some b => moved.contains b && at_ b.place == a
        | none => false
      (d.space = 0 → (d.tagged = false ∨ c.tag = 0) → LinesApart ps →
        Answers (exec (.copyLine id) s) fun t => t.work.blocks = s.work.blocks ∧ t.work.launches = s.work.launches ∧
          (Tab.get? t.ops.copies id).map CopyCmd.next = some (c.next + 1) ∧
          ∀ a, memRead Config.hbmFill t.hbm a =
            ((source (physIn ps) a).map value).getD (memRead Config.hbmFill s.hbm a)) ∧
      (d.space = 0 → d.tagged = true → c.tag ≠ 0 → c.waitGran = [] → LinesApart ps →
        (s.tagLive c.job c.tag = true →
          (∃ j, Tab.get? s.work.jobs c.job = some j ∧
            (s.kennel.cells.filter fun x => x.job = c.job).length + ps.length ≤ j.capacity * 16384) →
          Answers (exec (.copyLine id) s) fun t => t.hbm = s.hbm ∧
            (Tab.get? t.ops.copies id).map CopyCmd.next = some (c.next + 1) ∧
            ∀ e ∈ ps, CellWritten s t c.job c.tag d.obj (e.1 / 64) fun k =>
              (source (fun x => x) (e.1 + k)).map value) ∧
        (s.tagLive c.job c.tag = false →
          Answers (exec (.copyLine id) s) fun t => t.hbm = s.hbm ∧ t.kennel.cells = s.kennel.cells ∧
            (Tab.get? t.ops.copies id).map CopyCmd.next = some (c.next + 1))) ∧
      (∀ to_, d.space ≠ 0 → c.loc (spaceLevel d.space) = some to_ → s.AllotExists to_ →
        Answers (exec (.copyLine id) s) fun t => t.hbm = s.hbm ∧
          (Tab.get? t.ops.copies id).map CopyCmd.next = some (c.next + 1) ∧
          ∀ a, t.scrByte to_ a = ((source (fun x => x) a).map value).getD (s.scrByte to_ a)))

/-- COPY_COMPLETE of a group's command whose lines are done lands the status word in its scalar, lets CP fall, posts
its bytes once to its barrier and records the fault point of a fault; while a copy-write report of the command is not
delivered, the status word waits (R271 to R273, R370). That the post is made while a report is still owed (log 22), and that
the status counts its lines modulo 2^24 (log 30), are the model's choices. -/
def Obligations.CopiesComplete : Prop :=
  ∀ (s : State) (id : Nat) (c : CopyCmd) (gid sd : Nat) (g : Group) (rest : List (Nat × Bool)),
    Tab.get? s.ops.copies id = some c → c.owner = .scalar gid sd → Tab.get? s.groups gid = some g →
    c.started = true → (c.code ≠ none ∨ c.total ≤ c.next) → s.ownerOrdered id c.owner = true →
    OwesScalar g id sd → Eldest g 2 id rest → s.retained = [] →
    let code := c.code.getD c.clean
    let posted := match c.post with
      | some b => if c.posted = false ∧ code < 0xA then (s.barEvent b (2, c.next * 64)).work else s.work
      | none => s.work
    (s.reportOwed id c.owner = true → Answers (exec (.copyComplete id) s) fun t => t.hbm = s.hbm ∧ t.work = posted ∧
      Tab.get? t.ops.copies id = some { c with posted := true } ∧
      t.GroupIs gid fun g' => g'.pend = g.pend ∧ g'.s = g.s ∧ g'.outs 2 = g.outs 2) ∧
    (s.reportOwed id c.owner = false →
    Answers (exec (.copyComplete id) s) fun t => Tab.get? t.ops.copies id = none ∧ t.hbm = s.hbm ∧ t.work = posted ∧
      t.GroupIs gid fun g' =>
        StatusLanded g g' 2 id sd rest
          (BitVec.ofNat 32 (code * 2 ^ 28 + c.engine * 2 ^ 24 + (if 0xA ≤ code then 0 else c.next % 2 ^ 24))) ∧
        g'.cpfault = (if code < 8 then g.cpfault
          else if 0xA ≤ code then 0xFFFFFFFF#32 else BitVec.ofNat 32 c.elem))

/-! ### Contexts -/

/-- CTXNEW and CTXTRY take a tag of the pool and register it as a live child of the group's context; without one CTXNEW
waits at its word until CONTEXT_TAG_REGISTER brings a tag, when the word is done, and CTXTRY answers 0 and false. Both raise a
context fault where the kernel has no budget (cause 3), else where the group's context is not live (8), else where it is the
third of its chain (2). That a waiting CTXNEW whose own context has been retired meanwhile takes the fault of its word then is the model's choice (log 28)
(R216, R217, R232, R236). -/
def Obligations.ContextsCreated : Prop :=
  ∀ (s : State) (gid : Nat) (g : Group) (cl : Clause),
    let job := s.jobOf g
    let pool := s.pool (clusterOf g.core) job
    let child : Tag := ⟨job, g.lanes.ctag.toNat, g.launch, false, .live, clusterOf g.core⟩
    let truths := fun (pd : BitVec 4) (w : Word) => (maskList g.exec).map fun k => (Target.p pd.toNat k, w)
    (∀ i d pd, i ∈ [Instr.ctxnew d, .ctxtry d pd] → Ready i s gid g cl → g.active ≠ 0#64 →
      ∀ l, Tab.get? s.work.launches g.launch = some l →
      (l.kernel.ctxbudget = 0 → Traps i s gid cl (.withDetail 0x0C 3)) ∧
      (l.kernel.ctxbudget ≠ 0 → s.tagLive job g.lanes.ctag.toNat = false → Traps i s gid cl (.withDetail 0x0C 8)) ∧
      (l.kernel.ctxbudget ≠ 0 → s.tagLive job g.lanes.ctag.toNat = true → s.tagDepth g.lanes.ctag.toNat = 3 →
        Traps i s gid cl (.withDetail 0x0C 2))) ∧
    (∀ d, Ready (.ctxnew d) s gid g cl → Steady g → g.active ≠ 0#64 → s.childFault g = none → s.tagReady g = true →
      Answers (exec (.ctxnew d) s) fun t => t.hbm = s.hbm ∧ ∃ tag, tag ∈ pool ∧
        Tab.get? t.kennel.tags tag = some child ∧ tag ∉ t.pool (clusterOf g.core) job ∧
        t.GroupIs gid fun g' => Sends t gid s.nextId g' (g.dest d 0 fun _ => BitVec.ofNat 32 tag)) ∧
    (∀ d, Ready (.ctxnew d) s gid g cl → Steady g → g.active ≠ 0#64 → s.childFault g = none → s.tagReady g = false →
      exec (.ctxnew d) s = .next (s.setGroup gid { g with ctxwait := true })) ∧
    (∀ d pd, Ready (.ctxtry d pd) s gid g cl → Steady g → g.active ≠ 0#64 → s.childFault g = none →
      s.tagReady g = true →
      Answers (exec (.ctxtry d pd) s) fun t => t.hbm = s.hbm ∧ ∃ tag, tag ∈ pool ∧
        Tab.get? t.kennel.tags tag = some child ∧
        t.GroupIs gid fun g' => Sends t gid s.nextId g' ((g.dest d 0 fun _ => BitVec.ofNat 32 tag) ++ truths pd 1#32)) ∧
    (∀ d pd, Ready (.ctxtry d pd) s gid g cl → Steady g → g.active ≠ 0#64 → s.childFault g = none →
      s.tagReady g = false →
      Answers (exec (.ctxtry d pd) s) fun t => t.hbm = s.hbm ∧ t.kennel.tags = s.kennel.tags ∧
        t.GroupIs gid fun g' => Sends t gid s.nextId g' ((g.dest d 0 fun _ => 0#32) ++ truths pd 0#32)) ∧
    (∀ d, Tab.get? s.groups gid = some g → g.clause = some cl → g.ctxwait = true → g.res ≠ .saved →
      wordStep (s.fetch g cl) = .ctxnew d →
      (Steady g → s.childFault g = none → s.tagReady g = true →
        Answers (exec (.contextTagRegister gid) s) fun t => t.hbm = s.hbm ∧ ∃ tag, tag ∈ pool ∧
          Tab.get? t.kennel.tags tag = some child ∧ tag ∉ t.pool (clusterOf g.core) job ∧
          t.GroupIs gid fun g' => g'.ctxwait = false ∧
            Sends t gid s.nextId g' (g.dest d 0 fun _ => BitVec.ofNat 32 tag)) ∧
      (∀ c, s.childFault g = some c →
        exec (.contextTagRegister gid) s = .next (s.raise gid cl (.withDetail 0x0C c) cl.pos cl.pos false)))

/-- CTXSET selects a live context of the job and faults on any other; CTXRET starts the retirement of a live child-free
context that is not the group's own, counted in CL, and raises a context fault on any other: cause 4 for tag 0 and for one
free, retiring or foreign, 6 for the group's own, 5 for one with a child (R237, R238). -/
def Obligations.ContextsSelectedAndRetired : Prop :=
  ∀ (s : State) (gid : Nat) (g : Group) (cl : Clause), g.active ≠ 0#64 →
    (∀ a, Ready (.ctxset a) s gid g cl →
      let t := (g.sval a 0).toNat % 2 ^ 16
      (Steady g → s.tagLive (s.jobOf g) t = true →
        Answers (exec (.ctxset a) s) fun t' => OnlyGroup s t' gid ∧ t'.GroupIs gid fun g' =>
          SameRegisters g g' ∧ g'.lanes.ctag = BitVec.ofNat 16 t) ∧
      (s.tagLive (s.jobOf g) t = false →
        exec (.ctxset a) s = .next (s.raise gid cl (.withDetail 0x0C 1) cl.pos cl.pos false))) ∧
    (∀ d a commit i, (i, commit) ∈ [(Instr.ctxretCommit d a, true), (.ctxretDrop d a, false)] →
      Ready i s gid g cl → g.cnt 1 = 0 → g.cnt 2 = 0 → (s.setGroup gid g).atomsOut gid = false → g.cnt 5 < 15 →
      let t := (g.sval a 0).toNat % 2 ^ 16
      (∀ x, Steady g → t ≠ 0 → s.tag? t = some x → x.job = s.jobOf g → x.state = .live → t ≠ g.lanes.ctag.toNat →
        (∀ e ∈ s.kennel.tags, e.2.parent ≠ t) →
        Answers (exec i s) fun t' => t'.hbm = s.hbm ∧ t'.kennel.cells = s.kennel.cells ∧
          Tab.get? t'.kennel.tags t =
            some { x with state := .retiring commit (some s.nextId) 0 false, cluster := clusterOf g.core } ∧
          t'.GroupIs gid fun g' => g'.cnt 5 = g.cnt 5 + 1 ∧ ∀ r ∈ g.pregs d 1, g'.isPend r = true) ∧
      (∀ cause, ((t = 0 ∨ (∀ x, s.tag? t = some x → x.job ≠ s.jobOf g ∨ x.state ≠ .live)) ∧ cause = 4) ∨
          (t ≠ 0 ∧ s.tagLive (s.jobOf g) t = true ∧
            ((t = g.lanes.ctag.toNat ∧ cause = 6) ∨
              (t ≠ g.lanes.ctag.toNat ∧ (∃ e ∈ s.kennel.tags, e.2.parent = t) ∧ cause = 5))) →
        exec i s = .next (s.raise gid cl (.withDetail 0x0C cause) cl.pos cl.pos false)))

/-- RETIRE_GRANULE commits a granule's written bytes to the parent context or to memory, or drops them, and frees the cell;
CONTEXT_RETIRE_COMPLETE frees the tag, lands the status word and lets reads under way resolve through the parent. The Pups'
pools ask for tags below 8 and take up to 16 free ones; a stall on contexts of 100 µs ends the job's stalled launches, and no
other, with cell-exhaustion where a group of the launch waits for a cell and with tag-exhaustion where none does; a waiting
write is tried again (R217, R227 to R231, R233). That reads and copies under way take the parent's tag once the retirement
has completed (log 28), and that a grant acts in one event where nothing stands before it on its link (log 48), are the
model's choices. -/
def Obligations.ContextEvents : Prop :=
  (∀ (s : State) (tag obj gran : Nat) (x : Tag) (commit : Bool) (op : Option Nat) (n : Nat) (bad : Bool) (c : Cell),
     s.tag? tag = some x → x.state = .retiring commit op n bad →
     (s.kennel.cell? x.job tag obj gran = some c → BadLoc.cell tag obj gran ∉ s.bad →
       (commit = true → s.granuleHeld x.job obj gran = false) →
       Answers (exec (.retireGranule tag obj gran) s) fun t =>
         (commit = false ∨ x.parent ≠ tag → t.kennel.cell? x.job tag obj gran = none) ∧
         (t.tag? tag).map Tag.state = some (.retiring commit op (n + 1) bad) ∧
         (commit = false → t.hbm = s.hbm) ∧
         (commit = true → x.parent = 0 → ∀ a, memRead Config.hbmFill t.hbm a =
           if c.phys ≤ a ∧ a < c.phys + 64 ∧ c.mask.getLsbD (a - c.phys) = true then c.data.getD (a - c.phys) 0#8
           else memRead Config.hbmFill s.hbm a) ∧
         (commit = true → x.parent ≠ 0 → x.parent ≠ tag → t.hbm = s.hbm ∧ ∃ p, t.kennel.cell? x.job x.parent obj gran = some p ∧
           ∀ k, k < 64 → c.mask.getLsbD k = true → p.byte? k = some (c.data.getD k 0#8))) ∧
     ((∀ e ∈ s.kennel.cells, e.tag ≠ tag) → s.tagHeld tag = false → s.retained = [] → ∀ o gid g sd rest, op = some o → Tab.get? s.groups gid = some g →
       OwesScalar g o sd → Eldest g 5 o rest →
       Answers (exec (.contextRetireComplete tag) s) fun t => t.tag? tag = none ∧ t.hbm = s.hbm ∧
         (∀ k m, Tab.get? s.ops.mem k = some m → m.rtag = tag →
           (Tab.get? t.ops.mem k).map MemOp.rtag = some x.parent) ∧
         (∀ k m, Tab.get? s.ops.copies k = some m → m.rtag = tag →
           (Tab.get? t.ops.copies k).map CopyCmd.rtag = some x.parent) ∧
         t.GroupIs gid fun g' => StatusLanded g g' 5 o sd rest
           (BitVec.ofNat 32 ((if bad then 2 ^ 28 else 0) + min 0x0FFFFFFF n)))) ∧
  (∀ (s : State) (cluster job : Nat),
     (s.poolOwner cluster job = true → (s.pool cluster job).length < 8 →
       Tab.getD s.kennel.asked (cluster * 64 + job) false = false →
       Answers (exec (.tagPoolRequest cluster job) s) fun t =>
         Tab.getD t.kennel.asked (cluster * 64 + job) false = true ∧ t.kennel.tags = s.kennel.tags ∧
         Tab.getD t.hub.toHub cluster [] = Tab.getD s.hub.toHub cluster [] ++ [.tagRequest job]) ∧
     (∀ tags, (Tab.getD s.hub.toHub cluster []).head? = some (.tagRequest job) → Tab.getD s.hub.toPup cluster [] = [] →
       Answers (exec (.tagPoolGrant cluster job tags) s) fun t =>
         Tab.getD t.kennel.asked (cluster * 64 + job) false = false ∧
         Tab.getD t.hub.toHub cluster [] = (Tab.getD s.hub.toHub cluster []).tail ∧
         ∃ new, t.pool cluster job = s.pool cluster job ++ new ∧ new.length ≤ 16 ∧
           (new ≠ [] → (t.pool cluster job).length ≤ 64) ∧ (∀ n ∈ new, n ∈ tags ∧ s.tagFree n = true) ∧
           (s.poolOwner cluster job = true → (s.pool cluster job).length ≤ 48 → tags.length ≤ 16 →
             ∀ n ∈ tags, s.tagFree n = true → n ∈ new)) ∧
     (∀ j t₀, Tab.get? s.work.jobs job = some j → j.stalled = some t₀ → t₀ + 100000 ≤ s.now →
       Tab.sorted s.groups = true →
       let mine := s.groups.filter fun e => !e.2.done && s.jobOf e.2 = job
       mine ≠ [] → (∀ e ∈ mine, s.ctxStalled e.1 e.2 = true) →
       Answers (exec (.contextStallTimeout job) s) fun t => ∀ lid l, Tab.get? s.work.launches lid = some l →
         ((∃ e ∈ mine, e.2.launch = lid) → l.status = none →
           (Tab.get? t.work.launches lid).map Launch.status = some (some
             (if mine.any fun e => e.2.launch = lid && s.waitsForCell e.1 e.2 then 3 else 4)) ∧
           (∀ e ∈ t.groups, e.2.launch ≠ lid) ∧ ∀ e ∈ t.work.blocks, e.2.launch ≠ lid) ∧
         ((∀ e ∈ mine, e.2.launch ≠ lid) → Tab.get? t.work.launches lid = some l)) ∧
     (∀ w e, w ∈ s.kennel.waits → Tab.get? s.ops.sfq w = some e → s.lineReady w e = true → e.waiting = true →
       e.tagged = true → e.tag ≠ 0 → s.cellsFull e.job = false →
       Answers (exec (.cellWaitGrant w) s) fun t => Tab.get? t.ops.sfq w = none ∧ w ∉ t.kennel.waits ∧ t.hbm = s.hbm ∧
         ∃ c, t.kennel.cell? e.job e.tag e.obj (e.off / 64) = some c ∧
           ∀ k b, k < 64 → Tab.get? e.bytes k = some b → c.byte? k = some b))

/-- TDVIEW writes the view's descriptor to the child's place of the tensor table and sends status 0: the issuing group sees
the view at once, another one what it saw before. With a status that is not 0 it writes nothing. That the descriptor is
written to the table in memory at issue, that a view with two defects reports the lowest status, and that its base is taken
modulo 2^48, are the model's choices (log 29) (R208 to R210). -/
def Obligations.ViewsWritten : Prop :=
  ∀ (s : State) (gid : Nat) (g : Group) (cl : Clause) (d a : Reg) (ro : Bool) (l : Launch) (pd : Desc) (j : Job),
    let ids := (g.sval a 0).toNat
    let words := fun k => (List.range 5).map fun i => (g.sval a (k + i)).toNat
    let child := ids / 2 ^ 16 % 2 ^ 12
    Ready (.tdview d a ro) s gid g cl → Steady g → g.active ≠ 0#64 → s.launch? g = some l →
    Tab.get? s.work.jobs l.job = some j →
    (s.desc (some gid) (dieOf g.core) l.job (ids % 2 ^ 12)).1 = some pd →
    let st := viewStatus l child (words 1) (words 6) (some pd)
    let ws := viewWords (s.descWords (some gid) (dieOf g.core) l.job (ids % 2 ^ 12)).1 pd (words 1) (words 6) ro
    Answers (exec (.tdview d a ro) s) fun t =>
      (t.GroupIs gid fun g' => Sends t gid s.nextId g' (g.dest d 0 fun _ => BitVec.ofNat 32 (st * 2 ^ 28))) ∧
      (st ≠ 0 → t.hbm = s.hbm) ∧
      (st = 0 → (t.descWords (some gid) (dieOf g.core) l.job child).1 = ws ∧
        (∀ who, who ≠ gid → (∀ v ∈ s.views, v.job = l.job → v.tensor ≠ child) →
          (t.descWords (some who) (dieOf g.core) l.job child).1 =
            (s.descWords (some who) (dieOf g.core) l.job child).1) ∧
        (∀ k, k < 64 → t.hbmRead (j.tensorTable + 64 * child + k) 1 = [(wordsToBytes ws).getD k 0#8]) ∧
        ∀ x, (x < j.tensorTable + 64 * child ∨ j.tensorTable + 64 * child + 64 ≤ x) → t.hbmRead x 1 = s.hbmRead x 1)

/-! ### Barriers -/

/-- What an event makes of a barrier: held, it is queued; else it is counted, and where the barrier's condition is then met
its generation completes, its block's records being released at once, or, while a release window runs, the completion is
held. A core's phase of a window clears the records of the released generation of its groups, whenever they came there, and
those of ended windows whose phase time there has come; the window ends when every member's core that has its phase in it has
had it, evicted members aside, and a held completion then follows (R338, R339, R341, R344 to R351). That generations and
their records are numbered, that evicted members, and members on cores of a later phase, hold up no window, and that a record
which a window leaves clears by its own window's time, are the model's choices (log 49). -/
def Obligations.BarrierEvents : Prop :=
  (∀ (s : State) (id : BarId) (b : Barrier) (e : Nat × Int), s.bar? id = some b →
     let b' := b.event e
     let t := s.barEvent id e
     (b.held = true → t.bar? id = some { b with queue := b.queue ++ [e] } ∧ t.groups = s.groups) ∧
     (b.held = false → b'.met = false → t.bar? id = some b' ∧ t.groups = s.groups) ∧
     (b.held = false → b'.met = true → b.releasing = true → t.bar? id = some { b' with held := true }) ∧
     (b.held = false → b'.met = true → b.releasing = false → ∃ n, t.bar? id = some n ∧
       n.gen = !b.gen ∧ n.arrived = 0 ∧ n.expbytes = 0 ∧ n.posted = 0 ∧ n.expected = b.members + b.kept ∧
       (n.releasing = true ↔ ∀ k ix, id ≠ .block k ix) ∧
       ((∃ k ix, id = .block k ix) → ∀ gid g, Tab.get? s.groups gid = some g → s.ownedBy id g = true →
         Tab.get? g.arrivals (barKey id) = some b.num → t.GroupIs gid fun g' => Tab.get? g'.arrivals (barKey id) = none))) ∧
  (∀ (s : State) (id : BarId) (b : Barrier), s.bar? id = some b → b.releasing = true →
     (∀ core, b.t0 * 13 + s.phase b.map core * s.spacing b.map * 10 ≤ s.now * 13 →
       Answers (exec (.barrierPhaseRelease id core) s) fun t =>
         (∃ n, t.bar? id = some n ∧ n = { b with cleared := n.cleared } ∧
           ∀ c, c ∈ n.cleared ↔ c ∈ b.cleared ∨ c = core) ∧
         ∀ gid g, Tab.get? s.groups gid = some g → s.ownedBy id g = true → g.core = core → s.evicted g = false →
           Tab.get? g.arrivals (barKey id) = some b.relNum →
           t.GroupIs gid fun g' => Tab.get? g'.arrivals (barKey id) = none) ∧
     (b.t0 * 13 + (b.top * s.spacing b.map + 64) * 10 ≤ s.now * 13 →
       (∀ e ∈ s.members id, s.evicted e.2 = false → e.2.core ∈ b.cleared ∨ b.top < s.phase b.map e.2.core) →
       Answers (exec (.releaseWindowEnd id) s) fun t =>
         (b.held = false → ∃ n, t.bar? id = some n ∧ n = { b with releasing := false, tails := n.tails } ∧
           ∀ w, w ∈ n.tails ↔ (w ∈ b.tails ∨ w = (b.relNum, b.t0, b.map)) ∧
             ∃ e ∈ s.members id, Tab.get? e.2.arrivals (barKey id) = some w.1) ∧
         (b.held = true → b.queue = [] → ∃ n, t.bar? id = some n ∧ n.gen = !b.gen ∧ n.held = false ∧ n.arrived = 0))) ∧
  ∀ (s : State) (id : BarId) (b : Barrier) (core gid : Nat) (g : Group), s.bar? id = some b →
     Tab.get? s.groups gid = some g → s.ownedBy id g = true → g.core = core → s.evicted g = false →
     ∀ w ∈ b.tails, w.2.1 * 13 + s.phase w.2.2 core * s.spacing w.2.2 * 10 ≤ s.now * 13 →
       Tab.get? g.arrivals (barKey id) = some w.1 →
       Answers (exec (.barrierPhaseRelease id core) s) fun t =>
         t.GroupIs gid fun g' => Tab.get? g'.arrivals (barKey id) = none

/-- BARA, BARS and BAREXP reach the barrier they name, BARA sending the arrival's token and BARS staying at its word;
BARW and an arrived BARS go on once their generation's record is clear and the group's loads are done, and wait until
then. That an arrival records its generation's number, and which lines the acquire of BARW and BARS makes engine commands
wait for, are the model's choices (logs 49 and 50) (R340 to R344). -/
def Obligations.BarrierInstructions : Prop :=
  ∀ (s : State) (gid : Nat) (g : Group) (cl : Clause) (bar : BarName) (b : Barrier), g.active ≠ 0#64 →
    let id := s.barId g bar
    let arrived := ((s.released gid (barScopeOf bar.scope)).setGroup gid
      { g with arrivals := Tab.set g.arrivals (arrKey bar) b.arriveGen }).barEvent id (0, 0)
    let token := BitVec.ofNat 32 (b.arriveGen % 2 * 256 + bar.toBits.toNat)
    let waits := fun (t : Bool) => (∃ n, Tab.get? g.arrivals (arrKey bar) = some n ∧ decide (n % 2 = 1) = t) ∨
      (s.setGroup gid g).acquireMet gid = false
    let goesOn := fun (i : Instr) (g₁ : Group) => Answers (exec i s) fun t =>
      t = { s with groups := t.groups, views := t.views } ∧ (∀ k, k ≠ gid → Tab.get? t.groups k = Tab.get? s.groups k) ∧
      Tab.get? t.groups gid = some { g₁.advance cl i .seq with seen := s.seenBy g }
    (∀ d, Ready (.bara d bar) s gid g cl → Steady g → s.bar? id = some b → Tab.has g.arrivals (arrKey bar) = false →
      (s.setGroup gid g).releaseMet gid g (barScopeOf bar.scope) = true →
      Answers (exec (.bara d bar) s) fun t => t.hbm = s.hbm ∧ t.work = arrived.work ∧
        t.GroupIs gid fun g' => Sends t gid arrived.nextId g' (g.dest d 0 fun _ => token)) ∧
    (∀ a, Ready (.barexp a bar) s gid g cl → Steady g → s.bar? id = some b →
      Answers (exec (.barexp a bar) s) fun t => t.hbm = s.hbm ∧
        t.work = ((s.setGroup gid g).barEvent id (1, (g.sval a 0).toInt)).work) ∧
    (∀ a, Ready (.barw a bar) s gid g cl → Steady g → ¬waits ((g.sval a 0).getLsbD 8) →
      goesOn (.barw a bar) g) ∧
    (∀ a, Ready (.barw a bar) s gid g cl → waits ((g.sval a 0).getLsbD 8) →
      exec (.barw a bar) s = .next s.notIssued) ∧
    (Ready (.bars bar) s gid g cl → g.barsTok = none → s.bar? id = some b → Tab.has g.arrivals (arrKey bar) = false →
      (s.setGroup gid g).releaseMet gid g (barScopeOf bar.scope) = true →
      Answers (exec (.bars bar) s) fun t => t.work = arrived.work ∧ t.GroupIs gid fun g' =>
        g'.barsTok = some (b.arriveGen % 2) ∧ g'.clause = some cl) ∧
    (∀ t, Ready (.bars bar) s gid g cl → g.barsTok = some t →
      (Steady g → ¬waits (decide (t = 1)) → goesOn (.bars bar) { g with barsTok := none }) ∧
      (waits (decide (t = 1)) → exec (.bars bar) s = .next s.notIssued))

/-! ### Clauses and residency -/

/-- The clause issue of a held group of the active set begins the clause at the address R89 chooses, where nothing holds
it: its served lanes are the eligible lanes there, its Exec those whose guard is true, their ages are 0 and the other
eligible lanes' one more, and the header's stall has been waited out in native mode (R28, R29, R35, R89, R90, R94, R122). A
malformed header there raises the illegal-header fault, and a data clause's the branch-target fault with its address, before
any word of the clause (R30, R31). That the guard bits of a data clause's header are not looked at (log 24), and that the
record's masks are then the served lanes (log 21), are the model's choices. -/
def Obligations.ClauseIssues : Prop :=
  ∀ (s : State) (gid : Nat) (g : Group) (a : Nat) (h : Word),
    Tab.get? s.groups gid = some g → g.res = .held → gid ∈ s.activeOf g.core g.slice →
    s.mayIssue g = true → g.clause = none → IssuesAt g a → s.codeWord g a = h →
    let here := fun k : Nat => g.lanes.active.getLsbD k && decide (g.lpcOf k = a)
    let stops := fun (c : Cause) => ∃ cl : Clause, cl.header = a ∧ cl.hw = h ∧ cl.skipBp = 0 ∧
      (∀ k, k < 64 → cl.served.getLsbD k = here k ∧ cl.exec.getLsbD k = here k) ∧
      exec (.clauseIssue gid) s = .next ((s.setGroup gid g.dropRepeat).raise gid cl c 0 0 true)
    let malformed := h.toNat / 2 ^ 28 ≠ 0xB ∨ hdrN h = 0 ∨ hdrClass h = 7 ∨
      (hdrClass h ≠ 6 ∧ h.getLsbD 20 = false ∧ h.toNat / 2 ^ 15 % 2 ^ 5 ≠ 0)
    (malformed → stops (.plain 0x01)) ∧
    (¬malformed → hdrClass h = 6 → stops (.withDetail 0x05 a)) ∧
    (badHeader h = false → hdrClass h ≠ 6 → g.thresholds h = true →
    (h.getLsbD 20 = true → g.isPend (.p (hdrPred h)) = false) →
    (s.native g = true → hdrStall h ≠ 0 → g.stallWait = some 0) →
    let stall := if s.native g then hdrStall h else 0
    let landed := { g with slot := g.slot + stall }.landDue
    Answers (exec (.clauseIssue gid) s) fun t => OnlyGroup s t gid ∧ t.GroupIs gid fun g' =>
      g'.slot = g.slot + stall ∧ g'.v = landed.v ∧ g'.s = landed.s ∧ g'.lanes.p = landed.lanes.p ∧
      g'.lanes.active = g.lanes.active ∧
      (∃ c, g'.clause = some c ∧ c.header = a ∧ c.hw = h ∧ c.pos = 1 ∧ c.reentry = false ∧ ∀ k, k < 64 →
        c.served.getLsbD k = here k ∧
        c.exec.getLsbD k = (here k && (!h.getLsbD 20 || (h.getLsbD 19 != (landed.rdP (hdrPred h)).getLsbD k)))) ∧
      ∀ k, k < 64 → g.lanes.active.getLsbD k = true →
        g'.lageOf k = if here k then 0 else min 4095 (g.lageOf k + 1))

/-- Where no segment is in retention, GROUP_ADMIT holds a waiting group whose units fit and swaps one whose units do not;
SWAP_OUT and SWAP_IN move a stalled group out, to an image without an error, and a ready one in, SWAP_IN by an exchange where
the free units do not do; an uncorrectable error in the image that comes in ends the task with sram-uncorrectable (R185); the
active set takes the ready held group that is ready longest and lets one go that was not ready for 256 slice cycles;
GROUP_FREE takes a completed group away. Which group waits outside the active set, with what wait count it enters and when
one leaves, when units are wanted, and the exchange rule are the model's choices (log 53), and so is what a recovery group
may take of the reserve and that a group whose units fit only by the reserve is not swapped instead (log 35) (R107, R117 to
R119, R122, R321). -/
def Obligations.ResidencyEvents : Prop :=
  ∀ (s : State) (gid : Nat) (g : Group), Tab.get? s.groups gid = some g → s.retained = [] →
    let moves := fun (i : Instr) (r : Residency) => Answers (exec i s) fun t =>
      t = { s with groups := t.groups, touched := t.touched, bad := s.bad.filter fun b => b ≠ .registers gid } ∧
      (∀ k, k ≠ gid → Tab.get? t.groups k = Tab.get? s.groups k) ∧
      Tab.get? t.groups gid = some (g.moved s r)
    let leaves := fun (t : State) => ∀ sl, Tab.get? s.slices (sliceKey g.core g.slice) = some sl →
      (Tab.get? t.slices (sliceKey g.core g.slice)).map Slice.active = some (sl.active.filter fun k => k ≠ gid)
    (g.res = .waiting → g.recov = none → s.freePlaces g.core g.slice ≠ 0 → s.fits g = true →
      (s.setRes gid .held).reserveKept g.core = true → moves (.groupAdmit gid) .held) ∧
    (g.res = .waiting → g.recov = none → s.fits g = true → (s.setRes gid .held).reserveKept g.core = false →
      exec (.groupAdmit gid) s = .next s) ∧
    (g.res = .waiting → g.recov = none → s.freePlaces g.core g.slice ≠ 0 → s.fits g = false →
      g.image ≤ s.swapRoom g.core → (s.setRes gid .swapped).reserveKept g.core = true →
      moves (.groupAdmit gid) .swapped) ∧
    (∀ c, Tab.get? s.cores g.core = some c → g.res = .held →
      (if gid ∈ s.activeOf g.core g.slice then 0 < g.idleCnt else g.readyCnt = 0) → c.swapmin ≤ s.coreCycles g.core - g.since →
      (∃ e ∈ s.groups, e.2.core = g.core ∧ e.2.slice = g.slice ∧
        (e.2.res = .waiting ∨ (e.2.res = .swapped ∧ 0 < e.2.readyCnt))) →
      g.image ≤ s.swapRoom g.core →
      Answers (exec (.swapOut gid) s) fun t => leaves t ∧ Tab.get? t.groups gid = some (g.flush.moved s .swapped) ∧
        BadLoc.registers gid ∉ t.bad) ∧
    (∀ l, s.oldestReady g.core g.slice = some gid → BadLoc.registers gid ∈ s.bad → s.fits g = true →
      (s.setRes gid .held).reserveKept g.core = true → Tab.get? s.work.launches g.launch = some l → l.status = none →
      Answers (exec (.swapIn gid) s) fun t => Tab.get? t.groups gid = none ∧
        (Tab.get? t.work.launches g.launch).map Launch.status = some (some 5)) ∧
    (s.oldestReady g.core g.slice = some gid → BadLoc.registers gid ∉ s.bad →
      let fits := s.fits g && (g.recov.isSome || (s.setRes gid .held).reserveKept g.core)
      (fits = true → moves (.swapIn gid) .held) ∧
      (∀ out o, fits = false → s.longestStalled g.core g.slice = some (out, o) → Tab.get? s.groups out = some o →
        out ≠ gid → o.core = g.core → o.slice = g.slice → o.image ≤ s.swapRoom g.core + g.image →
        g.recov = none → o.recov = none → g.vUnits ≤ o.vUnits → g.sUnits ≤ o.sUnits →
        Answers (exec (.swapIn gid) s) fun t => Tab.get? t.groups gid = some (g.moved s .held) ∧
          Tab.get? t.groups out = some (o.flush.moved s .swapped) ∧ out ∉ t.activeOf g.core g.slice)) ∧
    (∀ sl, Tab.get? s.slices (sliceKey g.core g.slice) = some sl → g.res = .held → 0 < g.readyCnt →
      gid ∉ sl.active → sl.active.length < 8 →
      (∀ e ∈ s.groups, e.2.core = g.core → e.2.slice = g.slice → e.2.res = .held → e.1 ∉ sl.active →
        e.2.readyCnt ≤ g.readyCnt) →
      Answers (exec (.activeSetEnter gid) s) fun t =>
        (Tab.get? t.slices (sliceKey g.core g.slice)).map Slice.active = some (sl.active ++ [gid]) ∧
        Tab.get? t.groups gid = some { g with readyCnt := 0, idleCnt := 0, waitCnt := 0 }) ∧
    (∀ sl, Tab.get? s.slices (sliceKey g.core g.slice) = some sl → 256 ≤ g.idleCnt →
      (∃ e ∈ s.groups, e.2.core = g.core ∧ e.2.slice = g.slice ∧ e.2.res = .held ∧ e.1 ∉ sl.active ∧
        0 < e.2.readyCnt) →
      Answers (exec (.activeSetLeave gid) s) fun t => leaves t ∧ Tab.get? t.groups gid = some g.flush) ∧
    (g.done = true → (∀ c, c < 6 → g.cnt c = 0) → g.pend = [] →
      Answers (exec (.groupFree gid) s) fun t => leaves t ∧ Tab.get? t.groups gid = none ∧ t.hbm = s.hbm ∧
        ∀ k, k ≠ gid → Tab.get? t.groups k = Tab.get? s.groups k)

/-- What a register-only instruction does not name it does not change: the other registers and predicates, the lanes of
the destination outside Exec, the status bits but the flags a floating-point instruction may raise, the other specials,
the accumulated state of the group and all of memory. -/
def Obligations.RegisterOnlyFrame : Prop :=
  ∀ (i : Instr) (s t : State) (gid : Nat) (g : Group) (cl : Clause), Ready i s gid g cl → Steady g →
    exec i s = .next t →
    (∀ lat d w, intResult i g 0 = some (lat, d, w) → t.GroupIs gid fun g' =>
      KeepsRest s t gid g g' ∧ KeepsRegisters g g' (g.placeOf d) ∧ g'.lanes.fflags = g.lanes.fflags) ∧
    (∀ lat d w, fpResult i g 0 = some (lat, d, w) → t.GroupIs gid fun g' =>
      KeepsRest s t gid g g' ∧ KeepsRegisters g g' (g.placeOf d) ∧
      g'.lanes.fflags &&& g.lanes.fflags = g.lanes.fflags) ∧
    (∀ lat pd b, predResult i g 0 = some (lat, pd, b) → t.GroupIs gid fun g' =>
      KeepsRest s t gid g g' ∧ KeepsRegisters g g' (.p pd) ∧ g'.lanes.fflags = g.lanes.fflags) ∧
    (∀ d o, exchangeResult i g 0 = some (d, o) → t.GroupIs gid fun g' =>
      KeepsRest s t gid g g' ∧ KeepsRegisters g g' (g.placeOf d) ∧ g'.lanes.fflags = g.lanes.fflags)

/-! ### Queue registers and collectives -/

/-- QW adds its word to the command, and with the eighth gives the command to its engine where there is room, one with a
reserved field ending at once with its record, and the eighth word under a context that is not live raising the context
fault; QR takes the next word of its queue or waits for it as a claim, and QTRY answers whether there was one (R232, R275,
R276, R278, R279, R430). That a reserved ordering code, a nonzero reserved bit and a nonzero word of a coordinate beyond n
make a raw command end so is the model's choice (log 30). No segment is in retention, for which that record would wait where
it lands (R187). -/
def Obligations.QueueRegisters : Prop :=
  ∀ (s : State) (gid : Nat) (g : Group) (cl : Clause) (q : BitVec 4), Steady g → g.active ≠ 0#64 →
    let k := q.toNat
    let words := fun (a : Reg) => Tab.getD g.qbuf k [] ++ [g.sval a 0]
    let truths := fun (pd : BitVec 4) (w : Word) => (maskList g.exec).map fun n => (Target.p pd.toNat n, w)
    (∀ a, Ready (.qw q a) s gid g cl → (words a).length < 8 →
      exec (.qw q a) s = .next (s.after gid { g with qbuf := Tab.set g.qbuf k (words a) } cl (.qw q a))) ∧
    (∀ a, Ready (.qw q a) s gid g cl → 8 ≤ (words a).length → s.tagLive (s.jobOf g) g.lanes.ctag.toNat = false →
      Traps (.qw q a) s gid cl (.withDetail 0x0C 8)) ∧
    (∀ a l, Ready (.qw q a) s gid g cl → g.done = false → 8 ≤ (words a).length → s.retained = [] →
      s.tagLive (s.jobOf g) g.lanes.ctag.toNat = true → s.launch? g = some l →
      s.pairReady g k (decide (l.bindings.getD k 0 = 1)) = true →
      let user := (words a).getD 7 0#32
      let w := ((words a).getD 0 0#32).toNat
      let raw := rawCopy (s.barId g) (s.newCopy g (.raw gid k user) .ld) (words a)
      let coll := rawColl (.raw gid k user) (s.jobOf g) g.launch (w / 2 ^ 28 % 2 ^ 4) (w / 2 ^ 26 % 2 ^ 2) (w % 2 ^ 26)
        (((words a).drop 1).take 6)
      let ends := fun (t : State) (engine : Nat) => t.GroupIs gid fun g' =>
        Tab.getD g'.qbuf k [] = [] ∧ Tab.getD g'.qout k 0 = Tab.getD g.qout k 0 ∧
        (Tab.getD g.qclaims (k + 1) [] = [] → Tab.getD g'.qcmp (k + 1) [] =
          Tab.getD g.qcmp (k + 1) [] ++ [BitVec.ofNat 32 (0xC * 2 ^ 28 + engine * 2 ^ 24), user])
      let enters := fun (t : State) => t.GroupIs gid fun g' =>
        Tab.getD g'.qbuf k [] = [] ∧ Tab.getD g'.qout k 0 = Tab.getD g.qout k 0 + 1
      Answers (exec (.qw q a) s) fun t => SameMemory s t ∧
        (l.bindings.getD k 0 = 1 → match raw with
          | some c => Tab.get? t.ops.copies s.nextId = some c ∧ enters t
          | none => t.ops.copies = s.ops.copies ∧ ends t (g.core % 4)) ∧
        (l.bindings.getD k 0 ≠ 1 → if coll.bad then Tab.get? t.ops.colls s.nextId = none ∧ ends t 0
          else ∃ n, Tab.get? t.ops.colls s.nextId = some { coll with nth := n } ∧ enters t)) ∧
    (∀ d w ws, Ready (.qr q d) s gid g cl → Tab.getD g.qclaims k [] = [] → Tab.getD g.qcmp k [] = w :: ws →
      Answers (exec (.qr q d) s) fun t => SameMemory s t ∧ t.GroupIs gid fun g' =>
        Tab.getD g'.qcmp k [] = ws ∧ Sends t gid s.nextId g' (g.dest d 0 fun _ => w)) ∧
    (∀ d, Ready (.qr q d) s gid g cl → (Tab.getD g.qclaims k [] ≠ [] ∨ Tab.getD g.qcmp k [] = []) →
      Answers (exec (.qr q d) s) fun t => SameMemory s t ∧ t.GroupIs gid fun g' =>
        Tab.getD g'.qclaims k [] = Tab.getD g.qclaims k [] ++ [s.nextId] ∧ ∀ r ∈ g.pregs d 1, g'.isPend r = true) ∧
    (∀ pd d w ws, Ready (.qtry pd q d) s gid g cl → Tab.getD g.qclaims k [] = [] → Tab.getD g.qcmp k [] = w :: ws →
      Answers (exec (.qtry pd q d) s) fun t => SameMemory s t ∧ t.GroupIs gid fun g' =>
        Tab.getD g'.qcmp k [] = ws ∧ Sends t gid s.nextId g' ((g.dest d 0 fun _ => w) ++ truths pd 1#32)) ∧
    (∀ pd d, Ready (.qtry pd q d) s gid g cl → (Tab.getD g.qclaims k [] ≠ [] ∨ Tab.getD g.qcmp k [] = []) →
      Answers (exec (.qtry pd q d) s) fun t => SameMemory s t ∧ t.GroupIs gid fun g' =>
        g'.qcmp = g.qcmp ∧ Sends t gid s.nextId g' ((g.dest d 0 fun _ => 0#32) ++ truths pd 0#32))

/-- COLL with aligned operands is accepted and takes its place on its communicator, and raises a misaligned-access fault where
an offset or the byte count is no multiple of 64 (R428); it waits until every rank of this
package has issued its own; one that every rank has joined writes its result to the destination and lands its status word;
the collectives in order with a rank of a lost package end. That a lost peer makes one free port untrained, and the count
of lines in the status at the moment a collective ends, are the model's choices (logs 44 and 32) (R426 to R429). -/
def Obligations.CollectivesRun : Prop :=
  ∀ (s : State),
    (∀ gid g cl d a op ty, Ready (.coll d a op ty) s gid g cl → g.active ≠ 0#64 →
      (∃ k ∈ [2, 3, 4], (g.sval a k).toNat % 64 ≠ 0) → Traps (.coll d a op ty) s gid cl (.plain 0x09)) ∧
    (∀ gid g cl d a op ty, Ready (.coll d a op ty) s gid g cl → Steady g → g.active ≠ 0#64 → g.cnt 5 < 15 →
      s.ops.colls.length < 256 →
      let ws := (List.range 6).map fun k => g.sval a k
      (∀ k ∈ [2, 3, 4], wnat ws k % 64 = 0) →
      Answers (exec (.coll d a op ty) s) fun t => Accepted s t gid g 5 (g.pregs d 1) ∧
        ∃ c, Tab.get? t.ops.colls s.nextId = some c ∧
          c = ⟨.scalar gid (g.phys d 0), s.jobOf g, g.launch, c.nth, op, ty, ws, false⟩ ∧
          ∀ m, s.commOf c = some m → c.nth = m.issued ∧ t.commOf c = some { m with issued := m.issued + 1 }) ∧
    (∀ id c m peers fault, Tab.get? s.ops.colls id = some c → s.commOf c = some m →
      (∀ r ∈ m.ranks, r.1 ∉ s.hub.lostPkgs) → s.pairs id c m = none →
      exec (.collectiveComplete id peers fault) s = .next s) ∧
    (∀ id c gid sd g rest m s₁ s₂ sobj sa sps dobj da dps peers,
      Tab.get? s.ops.colls id = some c → c.owner = .scalar gid sd → Tab.get? s.groups gid = some g →
      s.engineOrdered gid id = true → OwesScalar g id sd → Eldest g 5 id rest → s.bad = [] → s.retained = [] →
      s.commOf c = some m → (∀ r ∈ m.ranks, r.1 ∉ s.hub.lostPkgs) → m.own < m.ranks.length →
      (∀ r, r < m.ranks.length → r ≠ m.own → s.localRank c m r = false) → 64 ≤ c.bytes → c.bytes ≤ 2 ^ 30 →
      (collNames c.op = true → c.peer < m.ranks.length) →
      s.collSide c false (wnat c.words 0 % 2 ^ 12) (wnat c.words 2) c.bytes = (.inr (sobj, sa, sps), s₁) →
      s₁.collSide c true (wnat c.words 1 % 2 ^ 12) (wnat c.words 3) (c.reach m.ranks.length) =
        (.inr (dobj, da, dps), s₂) →
      LinesApart dps → (∀ r, r < m.ranks.length → r ≠ m.own → ∃ p ∈ peers, p.rank = r) →
      (∀ p ∈ peers, collAgree c p = true ∧ p.source.length = c.bytes ∧ p.nth = c.nth) →
      let own : PeerCmd := ⟨m.own, c.nth, c.op, c.ty, c.bytes, c.peer,
        (List.range c.bytes).map fun k => memRead Config.hbmFill s.hbm (physIn sps (sa + k))⟩
      let ranks := (List.range m.ranks.length).filterMap fun r => (own :: peers).find? fun p => p.rank = r
      Answers (exec (.collectiveComplete id peers 0) s) fun t => Tab.get? t.ops.colls id = none ∧ t.work = s.work ∧
        (t.GroupIs gid fun g' => StatusLanded g g' 5 id sd rest (BitVec.ofNat 32 (c.bytes / 64 % 2 ^ 24))) ∧
        ∃ n, let out := collResult c m.own ranks n
          ∀ k, k < out.length → memRead Config.hbmFill t.hbm (physIn dps (da + k)) = out.getD k 0#8) ∧
    (∀ pkg, s.retained = [] → Answers (exec (.peerLost pkg) s) fun t => pkg ∈ t.hub.lostPkgs ∧
      (∀ id c m, Tab.get? s.ops.colls id = some c → s.ownerOrdered id c.owner = true → s.commOf c = some m →
        (∃ r ∈ m.ranks, r.1 = pkg) → Tab.get? t.ops.colls id = none) ∧
      ∃ p, p < 8 ∧ ∀ g, Tab.get? t.hub.graniale p = some g → g.trained = false)

/-! ### The matrix engine -/

/-- The matrix-engine commands are accepted with what they capture: MMA and MMA.sp with a parameter block in the
allotment that no rule of R291 faults, the tile transfers inside the allotment, and the register transfers and ACCCLR
and ACCREL always; TL counts them. Else MMA and MMA.sp raise the first of R291's faults, a sparse-metadata fault with the
lanes of malformed metadata, and the tile transfers R301's (R284, R288 to R291, R293, R298, R301, R303). -/
def Obligations.MatrixCommandsIssue : Prop :=
  (∀ (s : State) (gid : Nat) (g : Group) (cl : Clause), g.active ≠ 0#64 →
    (∀ lo a b hi ru zf fmt m kb i, i = (match m with
        | none => Instr.mma lo a b hi ru zf fmt kb
        | some r => .mmaSp lo a b hi ru zf fmt r kb) → Ready i s gid g cl →
      let p := (g.sval b 0).toNat
      let ws := bytesToWords (s.scratchRead g p 32)
      let pitch := wnat ws 1 % 2 ^ 16
      let f := wnat ws 1 / 2 ^ 16 % 2 ^ 4
      let plane := (wnat ws 1).testBit 20
      let planePitch := wnat ws 3 % 2 ^ 16
      let wrong := wnat ws 1 / 2 ^ 21 ≠ 0 ∨ wnat ws 3 / 2 ^ 16 ≠ 0 ∨ (∃ k, k < 4 ∧ wnat ws (4 + k) ≠ 0) ∨
        pairsWith fmt f = false ∨ (plane = true ∧ blockFmt f = false) ∨
        (plane = false ∧ (wnat ws 2 ≠ 0 ∨ planePitch ≠ 0))
      let unaligned := wnat ws 0 % 4 ≠ 0 ∨ pitch % 4 ≠ 0 ∨ wnat ws 2 % 4 ≠ 0 ∨ planePitch % 4 ≠ 0
      let beyond := s.allot g < wnat ws 0 + 63 * pitch + colBytes f kb.toNat plane ∨
        (plane = true ∧ s.allot g < wnat ws 2 + 63 * planePitch + 2 * kb.toNat)
      (p % 32 ≠ 0 → Traps i s gid cl (.plain 0x09)) ∧
      (p % 32 = 0 → s.allot g < p + 32 → Traps i s gid cl (.plain 0x07)) ∧
      (p % 32 = 0 → p + 32 ≤ s.allot g → s.bad = [] → s.retained = [] →
        (wrong → Traps i s gid cl (.plain 0x0B)) ∧
        (¬wrong → unaligned → Traps i s gid cl (.plain 0x09)) ∧
        (¬wrong → ¬unaligned → beyond → Traps i s gid cl (.plain 0x07)) ∧
        ∀ r mask, m = some r → ¬wrong → ¬unaligned → ¬beyond → mask ≠ 0#64 →
          (g.Names mask fun k => metaBad g r kb.toNat k = true) → Traps i s gid cl (.at 0x0A mask))) ∧
    ∀ a b fmt rows acc i, i ∈ [Instr.accld a b fmt rows acc, .accst a b fmt rows acc] → Ready i s gid g cl →
      let sa := (g.sval a 0).toNat
      let sb := (g.sval b 0).toNat
      (sa % 4 ≠ 0 ∨ sb % 4 ≠ 0 → Traps i s gid cl (.plain 0x09)) ∧
      (sa % 4 = 0 → sb % 4 = 0 → s.allot g < sa + rows.toNat * sb + rowB fmt → Traps i s gid cl (.plain 0x07))) ∧
  ∀ (s : State) (gid : Nat) (g : Group) (cl : Clause), Steady g → g.active ≠ 0#64 → g.cnt 3 < 15 →
    s.matsOf g.core < 16 →
    let accepted := fun (i : Instr) (tile : Nat) (op : MatOp) (regs : List PReg) => Ready i s gid g cl →
      Answers (exec i s) fun t => Accepted s t gid g 3 regs ∧
        Tab.get? t.ops.mats s.nextId = some ⟨gid, g.core, g.block.getD 0, s.jobOf g, tile, op, g.width⟩
    (∀ lo a b hi ru zf fmt m kb i, i = (match m with
        | none => Instr.mma lo a b hi ru zf fmt kb
        | some r => .mmaSp lo a b hi ru zf fmt r kb) →
      let p := (g.sval b 0).toNat
      let ws := bytesToWords (s.scratchRead g p 32)
      p % 32 = 0 → p + 32 ≤ s.allot g → s.bad = [] → s.retained = [] →
      (∀ r, m = some r → ∀ k, k < 64 → g.active.getLsbD k = true → metaBad g r kb.toNat k = false) →
      mmaFault fmt kb.toNat (s.allot g) ws 0#64 = none →
      accepted i (lo.toNat + 256 * hi.toNat)
        (.mma fmt zf kb.toNat ((List.range g.width).map fun r =>
          if g.active.getLsbD r then some (aRow g fmt a m kb.toNat r) else none) ws) []) ∧
    (∀ a b fmt rows acc, (g.sval a 0).toNat % 4 = 0 → (g.sval b 0).toNat % 4 = 0 →
      (g.sval a 0).toNat + rows.toNat * (g.sval b 0).toNat + rowB fmt ≤ s.allot g →
      accepted (.accld a b fmt rows acc) acc.toNat
        (.ld fmt (g.sval a 0).toNat (g.sval b 0).toNat (rows.toNat + 1)) [] ∧
      accepted (.accst a b fmt rows acc) acc.toNat
        (.st fmt (g.sval a 0).toNat (g.sval b 0).toNat (rows.toNat + 1)) []) ∧
    (∀ d cv cg acc, accepted (.accrd d cv cg acc) acc.toNat (.rd cv cg.toNat g.exec (g.phys d 0)) (g.pregs d 8)) ∧
    (∀ d cv cg acc, accepted (.accwr d cv cg acc) acc.toNat (.wr cv cg.toNat ((maskList g.active).map fun k =>
      (k, (List.range 8).map fun j => g.src d j k))) []) ∧
    (∀ acc, accepted (.accclr acc) acc.toNat .clr [] ∧ accepted (.accrel acc) acc.toNat .rel [])

/-- MATRIX_COMMAND_EXECUTE runs the core's eldest command on its tile: the tile becomes what the command makes of it, an
ACCRD's registers get the converted elements, an ACCST's rows are written to the block's scratchpad, and TL falls. That an
MMA reads all of B as it stands at this one moment, and which zero a row that no lane of Exec gives adds beside an infinity or
NaN of B, are the model's choices (log 33) (R282, R289, R285, R292, R297 to R303). -/
def Obligations.MatrixCommandsExecute : Prop :=
  ∀ (s : State) (core id : Nat) (c : MatCmd) (b : Block) (g : Group) (rest : List (Nat × Bool)),
    (s.ops.mats.find? fun e => e.2.core = core) = some (id, c) → Tab.get? s.work.blocks c.block = some b →
    s.engineOrdered c.group id = true → s.bad = [] → s.retained = [] →
    Tab.get? s.groups c.group = some g → Eldest g 3 id rest →
    (∀ e ∈ g.pend, e.op = id → e.saved = false) →
    let old := (s.reachTile c.block b c.job c.tile).1
    Answers (exec (.matrixCommandExecute core) s) fun t => t.hbm = s.hbm ∧ Tab.get? t.ops.mats id = none ∧
      (∃ p, Tab.get? t.tiles (b.physTile c.tile) = some p ∧ TileBecomes c b old p.data ∧
        p.owner = if c.op = .rel then none else some (c.job, c.block)) ∧
      (∃ b', Tab.get? t.work.blocks c.block = some b' ∧ ∀ x, b'.read x 1 = (c.scratchAfter old b).read x 1) ∧
      t.GroupIs c.group fun g' => g'.outs 3 = (rest.dropWhile fun e => e.2) ∧ (∀ e ∈ g'.pend, e.op ≠ id) ∧
        g'.s = g.s ∧ ∀ r lane, lane < 64 → g'.rdV r lane = written (c.regWrites old) (.v r lane) (g.rdV r lane)

/-! ### Surrogates -/

/-- SGCALL is accepted with its lanes' arguments where the queue has an entry for each. SURROGATE_EVALUATE of a call on a
ready slot lands the results of the lanes the table accepts and pd, counts the lanes in the slot's counters, the timing
rejects apart, and queues an entry for every other lane, in lane order; it completes the call where there is none. One
without a slot queues every lane and leaves pd false (R313, R315 to R319, R325). -/
def Obligations.SurrogateCalls : Prop :=
  ∀ (s : State),
    (∀ gid g cl d a slot pd r, Ready (.sgcall d a slot pd) s gid g cl → Steady g → g.active ≠ 0#64 →
      s.region? g slot.toNat = some r → g.cnt 4 < 15 → (maskList g.active).length ≤ s.freeEntries g.core →
      (∀ x ∈ g.pregs d r.resc ++ g.pregs a r.argc, g.isPend x = false) →
      Answers (exec (.sgcall d a slot pd) s) fun t => Accepted s t gid g 4 (g.pregs d r.resc ++ [.p pd.toNat]) ∧
        ∃ c, Tab.get? t.ops.calls s.nextId = some c ∧ c.group = gid ∧ c.core = g.core ∧ c.slot = slot.toNat ∧
          c.pd = pd.toNat ∧ c.d = g.phys d 0 ∧ c.resc = r.resc ∧ c.argc = r.argc ∧ c.lanes = g.active ∧
          c.exec = g.exec ∧ c.evaluated = false ∧ c.tag = g.lanes.ctag ∧ c.rmode = g.lanes.rmode ∧
          ∀ k, k < 64 → g.active.getLsbD k = true →
            Tab.get? c.args k = some ((List.range r.argc).map fun j => g.src a j k)) ∧
    (∀ id c g x rest timing (acc tim : Mask) (y : Nat → List Nat), Tab.get? s.ops.calls id = some c →
      c.evaluated = false → s.ops.sgs = [] → s.retained = [] →
      Tab.get? s.groups c.group = some g → (∀ e ∈ g.pend, e.op = id → e.saved = false) →
      s.slot? c.core c.slot = some x → x.readyFor c false = true → x.shift = 15 →
      (∀ k, k < 64 → (tim.getLsbD k = true ↔ c.lanes.getLsbD k = true ∧ x.quality.getLsbD 2 = true ∧
        x.quality.getLsbD 3 = false ∧ timing.getLsbD k = true)) →
      (∀ k, k < 64 → acc.getLsbD k = true → c.lanes.getLsbD k = true ∧ tim.getLsbD k = false ∧
        evalLane x.image x.bound.toNat ((Tab.getD c.args k []).map BitVec.toNat) = some (y k) ∧ (y k).length = c.resc) →
      (∀ k, k < 64 → c.lanes.getLsbD k = true → tim.getLsbD k = false → acc.getLsbD k = false →
        evalLane x.image x.bound.toNat ((Tab.getD c.args k []).map BitVec.toNat) = none) →
      let count := fun (m : Mask) => (maskList m).length
      let left := c.lanes &&& ~~~acc
      Answers (exec (.surrogateEvaluate id timing) s) fun t => t.hbm = s.hbm ∧
        (∃ x', t.slot? c.core c.slot = some x' ∧ x'.calls = min 0xFFFFFFFF (x.calls + count c.lanes) ∧
          x'.accepted = min 0xFFFFFFFF (x.accepted + count acc) ∧
          x'.fallbacks = min 0xFFFFFFFF (x.fallbacks + count (left &&& ~~~tim)) ∧
          x'.timing = min 0xFFFFFFFF (x.timing + count tim)) ∧
        (∃ new, (Tab.get? t.cores c.core).map Core.recq = ((Tab.get? s.cores c.core).map fun q => q.recq ++ new) ∧
          new.map REntry.lane = maskList left ∧ ∀ e ∈ new, e.call = id ∧ e.group = c.group ∧ e.slot = c.slot ∧
            e.shadow = none ∧ e.running = false ∧ e.args = Tab.getD c.args e.lane []) ∧
        (left ≠ 0#64 → Tab.get? t.ops.calls id = some { c with evaluated := true, left := count left } ∧
          t.GroupIs c.group fun g' => g'.outs 4 = g.outs 4) ∧
        (left = 0#64 → Eldest g 4 id rest → Tab.get? t.ops.calls id = none ∧ t.GroupIs c.group fun g' =>
          g'.outs 4 = (rest.dropWhile fun e => e.2) ∧ ∀ e ∈ g'.pend, e.op ≠ id) ∧
        t.GroupIs c.group fun g' => (∀ e ∈ g'.pend, e.op = id → e.reg ≠ .p c.pd) ∧
          (∀ k n, k < 64 → n < c.resc → g'.rdV (c.d + n) k =
            if acc.getLsbD k then BitVec.ofNat 32 ((y k).getD n 0) else g.rdV (c.d + n) k) ∧
          ∀ k, k < 64 → (g'.rdP c.pd).getLsbD k =
            if c.exec.getLsbD k then acc.getLsbD k else (g.rdP c.pd).getLsbD k) ∧
    (∀ id c g k timing, Tab.get? s.ops.calls id = some c → c.evaluated = false → s.ops.sgs = [] → s.retained = [] →
      Tab.get? s.groups c.group = some g → (∀ e ∈ g.pend, e.op = id → e.saved = false) →
      Tab.get? s.cores c.core = some k → Tab.get? k.slots c.slot = none → c.lanes ≠ 0#64 →
      Answers (exec (.surrogateEvaluate id timing) s) fun t =>
        Tab.get? t.ops.calls id = some { c with evaluated := true, left := (maskList c.lanes).length } ∧
        (∃ new, (Tab.get? t.cores c.core).map Core.recq = some (k.recq ++ new) ∧
          (new.map REntry.lane) = maskList c.lanes ∧ ∀ e ∈ new, e.call = id ∧ e.group = c.group ∧ e.slot = c.slot ∧
            e.shadow = none ∧ e.running = false ∧ e.args = Tab.getD c.args e.lane []) ∧
        t.GroupIs c.group fun g' => g'.outs 4 = g.outs 4 ∧ g'.v = g.v ∧
          ∀ n, n < 64 → (g'.rdP c.pd).getLsbD n = if c.exec.getLsbD n then false else (g.rdP c.pd).getLsbD n)

/-- RECOVERY_GROUP_FORM places a recovery group for the oldest queued entry and up to 63 others of its key, its lanes
holding their arguments; SGRET frees its lanes' entries, whose lanes exit, a normal entry's results go to the call's lane,
the last completing the call, and a shadow entry's are compared with the surrogate's and counted in its owner's slot, which
the compare that brings the violations to the threshold disables and reports (R320 to R323, R325, R327). No segment is in
retention (R187). That a shadow is counted in the slot as it now stands, also where it was loaded again since, is the model's
choice (log 35); the largest of errors of which some are NaN is a free value (log 10). -/
def Obligations.RecoveryRuns : Prop :=
  ∀ (s : State),
    (∀ core sl k e l code r, Tab.get? s.cores core = some k →
      (k.recq.filter fun x => !x.running).head? = some e → Tab.get? s.work.launches e.launch = some l →
      s.codeOf (clusterOf core) e.launch = some code → (l.kernel.regions.find? fun x => x.slot = e.slot) = some r →
      sl < 6 → 1 ≤ s.freePlaces core sl →
      let es := ((k.recq.filter fun x => !x.running).filter fun x => e.sameKey x).take 64
      s.fits (s.recoveryGroup core sl l r code.base es) = true →
      Answers (exec (.recoveryGroupForm core sl) s) fun t => ∃ g, Tab.get? t.groups s.nextId = some g ∧
        g.core = core ∧ g.slice = sl ∧ g.res = .held ∧ g.recov = some (r.slot, es.map REntry.id) ∧ g.block = none ∧
        g.lanes.ctag = e.tag ∧ g.lanes.rmode = e.rmode ∧ g.rdS 0 = BitVec.ofNat 32 r.slot ∧
        g.rdS 1 = BitVec.ofNat 32 es.length ∧
        (∀ i x, es[i]? = some x → g.lanes.active.getLsbD i = true ∧ g.lpcOf i = code.base + r.entry ∧
          ∀ n, n < r.argc → g.rdV n i = x.args.getD n 0#32) ∧
        ∃ q, (Tab.get? t.cores core).map Core.recq = some q ∧
          ∀ x ∈ q, (∃ z ∈ es, z.id = x.id) → x.running = true) ∧
    (∀ gid g cl a slot ids r, Ready (.sgret a) s gid g cl → g.step = false → g.recov = some (slot, ids) →
      s.region? g slot = some r → (∀ x ∈ g.pregs a r.resc, g.isPend x = false) → s.retained = [] →
      (allExited g (exitLanes g.lanes g.exec) = true ∨ (exitLanes g.lanes g.exec).active ≠ 0#64) →
      (Answers (exec (.sgret a) s) fun t => t.hbm = s.hbm ∧
        (∀ q, Tab.get? t.cores g.core = some q → ∀ x ∈ q.recq, ∀ k, k < 64 → g.exec.getLsbD k = true →
          x.id ≠ ids.getD k 0) ∧
        t.GroupIs gid fun g' => g'.clause = none ∧
          g'.lanes.exited &&& g.exec = g.exec ∧
          (g'.done = true ↔ g.done = true ∨ allExited g (exitLanes g.lanes g.exec) = true)) ∧
      (∀ k q e y x, maskList g.exec = [k] → Tab.get? s.cores g.core = some q →
        (q.recq.find? fun x => x.id = ids.getD k 0) = some e → e.shadow = some y → s.slot? g.core e.slot = some x →
        let err := largest ((List.range y.length).map fun n =>
          errAbs (imgRelative x.image) (if n < r.resc then g.src a n k else 0#32).toNat (y.getD n 0#32).toNat)
        let nan := (fp32.unpack err).isNan
        let exceeds := nan || (fp32.unpack (imgLimit x.image)).lt (fp32.unpack err)
        let viol := if exceeds then min 0xFFFFFFFF (x.violations + 1) else x.violations
        let disables := viol ≠ x.violations ∧ imgThreshold x.image ≠ 0 ∧ imgThreshold x.image ≤ viol ∧ x.disabled = false
        (x.owner ≠ s.jobOf g → Answers (exec (.sgret a) s) fun t => t.slot? g.core e.slot = some x) ∧
        (x.owner = s.jobOf g → Answers (exec (.sgret a) s) fun t => (∃ x', t.slot? g.core e.slot = some x' ∧
            x' =
              { x with samples := x'.samples, errSum := x'.errSum, errMax := x'.errMax, violations := x'.violations,
                       disabled := x'.disabled } ∧ x'.violations = viol ∧
            x'.samples = min 0xFFFFFFFF (x.samples + 1) ∧ (x'.disabled = true ↔ x.disabled = true ∨ disables) ∧
            x'.errSum = (if nan then x.errSum else BitVec.ofNat 32 (addEven x.errSum.toNat err).1) ∧
            x'.errMax = if nan then x.errMax else BitVec.ofNat 32 (fp32.maxCode x.errMax.toNat err).1) ∧
          (disables → Tab.getD t.hub.toHub (clusterOf g.core) [] =
            Tab.getD s.hub.toHub (clusterOf g.core) [] ++ [HubMsg.disable g.core (imgId x.image)]) ∧
          (¬disables → t.hub.toHub = s.hub.toHub))) ∧
      ∀ k q e c go, maskList g.exec = [k] → Tab.get? s.cores g.core = some q →
        (q.recq.find? fun x => x.id = ids.getD k 0) = some e → e.shadow = none → Tab.get? s.ops.calls e.call = some c →
        c.group ≠ gid → Tab.get? s.groups c.group = some go → (∀ x ∈ go.pend, x.op = e.call → x.saved = false) →
        c.resc = r.resc →
        Answers (exec (.sgret a) s) fun t =>
          (Tab.get? t.ops.calls e.call = if c.left ≤ 1 then none else some { c with left := c.left - 1 }) ∧
          t.GroupIs c.group fun g' => ∀ n, n < r.resc → g'.rdV (c.d + n) e.lane = g.src a n k)

/-- SGLOAD is accepted with what it captures, SGLOAD.load raising its misaligned-access and scratch-bounds faults;
SGLOAD_COMPLETE loads a well-formed matching image, writes the quality
register, releases the slot or clears its counters, refuses by its code, and lands the status word; a reported id is
disabled on every core, the messages of a link being consumed in their order. That a slot of another job answers busy
before anything else of the command is looked at is the model's choice (log 11) (R304, R305, R325, R327 to R330, R390). -/
def Obligations.SlotOperations : Prop :=
  ∀ (s : State),
    (∀ gid g cl d a slot, g.active ≠ 0#64 → Ready (.sgloadLoad d a slot) s gid g cl →
      ((g.sval a 0).toNat % 64 ≠ 0 → Traps (.sgloadLoad d a slot) s gid cl (.plain 0x09)) ∧
      ((g.sval a 0).toNat % 64 = 0 → s.allot g < (g.sval a 0).toNat + 64 →
        Traps (.sgloadLoad d a slot) s gid cl (.plain 0x07))) ∧
    (∀ gid g cl d a slot, Steady g → g.active ≠ 0#64 → g.cnt 4 < 15 →
      let accepted := fun (i : Instr) (op addr : Nat) (quality : List Word) => Ready i s gid g cl →
        Answers (exec i s) fun t => Accepted s t gid g 4 (g.pregs d 1) ∧
          Tab.get? t.ops.sgs s.nextId =
            some ⟨gid, g.core, s.jobOf g, g.launch, g.block, BitVec.toNat slot, op, addr, quality⟩
      ((g.sval a 0).toNat % 64 = 0 → (g.sval a 0).toNat + 64 ≤ s.allot g →
        accepted (.sgloadLoad d a slot) 0 (g.sval a 0).toNat []) ∧
      accepted (.sgloadQual d a slot) 1 0 [g.sval a 0, g.sval a 1] ∧ accepted (.sgloadRel d slot) 2 0 [] ∧
      accepted (.sgloadClr d slot) 3 0 []) ∧
    (∀ id o g sd rest c, Tab.get? s.ops.sgs id = some o → s.engineOrdered o.group id = true →
      s.retained = [] →
      Tab.get? s.groups o.group = some g → OwesScalar g id sd → Eldest g 4 id rest →
      Tab.get? s.cores o.core = some c →
      let run := fun (code : Nat) (slot' : Option Slot) =>
        Answers (exec (.sgloadComplete id) s) fun t => Tab.get? t.ops.sgs id = none ∧ SameMemory s t ∧
          t.slot? o.core o.slot = slot' ∧ t.GroupIs o.group fun g' => StatusLanded g g' 4 id sd rest
            (BitVec.ofNat 32 (code * 2 ^ 28 + (slot'.map Slot.units).getD 0))
      (∀ img, o.op = 0 →
        s.checkImage o.core o.slot o.job (s.blockAllot o.block - o.addr)
          (fun k => s.scratchLine (o.block.getD 0) (o.addr + 64 * k))
          (regionMismatch (Tab.get? s.work.launches o.launch) o.slot) = (0, img) →
        run 0 (some (Slot.loaded o.job img))) ∧
      (∀ x, Tab.get? c.slots o.slot = some x → x.owner = o.job → o.op = 1 →
        qualityBad (wnat o.quality 0) (wnat o.quality 1) = false →
        run 0 (some { x with bound := o.quality.getD 0 0#32, quality := o.quality.getD 1 0#32 })) ∧
      (∀ x, Tab.get? c.slots o.slot = some x → x.owner = o.job → o.op = 1 →
        qualityBad (wnat o.quality 0) (wnat o.quality 1) = true → run 3 (some x)) ∧
      (∀ x, Tab.get? c.slots o.slot = some x → x.owner = o.job → o.op = 2 → run 0 none) ∧
      (∀ x, Tab.get? c.slots o.slot = some x → x.owner = o.job → o.op = 3 → run 0 (some x.cleared)) ∧
      (∀ x, Tab.get? c.slots o.slot = some x → x.owner ≠ o.job → run 1 (some x)) ∧
      (Tab.get? c.slots o.slot = none → o.op ≠ 0 → run 6 none)) ∧
    (∀ core sid, (Tab.getD s.hub.toHub (clusterOf core) []).head? = some (.disable core sid) →
      Answers (exec (.disableReport core sid) s) fun t => SameMemory s t ∧
        Tab.getD t.hub.toHub (clusterOf core) [] = (Tab.getD s.hub.toHub (clusterOf core) []).tail ∧
        (∀ p, ∃ new, Tab.getD t.hub.toPup p [] = Tab.getD s.hub.toPup p [] ++ new) ∧
        ∀ k, k < 128 → HubMsg.disable k sid ∈ Tab.getD t.hub.toPup (clusterOf k) []) ∧
    (∀ core sid c pre post, Tab.get? s.cores core = some c →
      Tab.getD s.hub.toPup (clusterOf core) [] = pre ++ HubMsg.disable core sid :: post →
      (∀ m ∈ pre, ∃ k, k ≠ core ∧ m = .disable k sid) →
      Answers (exec (.surrogateDisable core sid) s) fun t => SameMemory s t ∧
        Tab.getD t.hub.toPup (clusterOf core) [] = pre ++ post ∧ ∀ n x, Tab.get? c.slots n = some x →
          t.slot? core n = some (if imgId x.image = sid then { x with disabled := true } else x))

/-! ### Debug -/

/-- In a handler BPSET and WPSET set and clear comparators and watchpoint units, STEP arms and disarms its target, and BARRD
and BARWR read and edit a barrier of the group; each sends its status. DBRD sends what a selector names in its target and
DBWR makes the edit the selector allows, at a clause boundary and with no pending register, a running target being held
there for it; each answers 1 without a target, the selector's own code for one no target answers, and DBWR 3 for an edit it
refuses; STEP refuses to arm in a launch without a handler. That the value register is written beside a status other than ok
(log 12), that a target waiting at a barrier is reached there (log 13), the order of the statuses, the answer for a unit of
another job, which is never reached, a second target word that does not count beside 0xFFFFFFFF, results on their way that
are not waited for (log 36), and an error in an image that has no effect (log 52), are the model's choices (R356, R367 to
R369, R371 to R374). -/
def Obligations.DebugWords : Prop :=
  (∀ (s : State) (gid : Nat) (g : Group) (cl : Clause) (d a : Reg), Steady g → g.active ≠ 0#64 →
     let s₀ := s.setGroup gid g
     let w := (g.sval a 0).toNat
     let status := fun (t : State) (code : Nat) => t.GroupIs gid fun g' =>
       Sends t gid s.nextId g' (g.dest d 0 fun _ => BitVec.ofNat 32 (code * 2 ^ 28))
     (∀ k l j, Ready (.bpset d a k) s gid g cl → s.launch? g = some l → Tab.get? s.work.jobs l.job = some j →
       Answers (exec (.bpset d a k) s) fun t => t.hbm = s.hbm ∧ (Tab.get? t.work.jobs l.job).map Job.comparators = some (
           if w.testBit 31 = false then Tab.del j.comparators k.toNat
           else if l.kernel.breakable (w % 2 ^ 18) then Tab.set j.comparators k.toNat
             ⟨g.launch, w.testBit 30, w % 2 ^ 18, g.sval a 1, (g.sval a 2).toNat % 2 ^ 8,
               maskWords (g.sval a 3) (g.sval a 4)⟩
           else j.comparators) ∧
         status t (if w.testBit 31 = true ∧ l.kernel.breakable (w % 2 ^ 18) = false then 3 else 0)) ∧
     (∀ k c, Ready (.wpset d a k) s gid g cl → Tab.get? s.cores g.core = some c →
       let off := (g.sval a 1).toNat + (g.sval a 2).toNat % 2 ^ 16 * 2 ^ 32
       let len := (g.sval a 3).toNat % 2 ^ 16
       let watched := fun (t : State) => (Tab.get? t.cores g.core).bind fun c' => Tab.get? c'.watch k.toNat
       let foreign := s.foreignUnit (s.jobOf g) g.core k.toNat
       (w.testBit 31 = false → Answers (exec (.wpset d a k) s) fun t => SameMemory s t ∧
         watched t = (if foreign then Tab.get? c.watch k.toNat else none) ∧ status t 0) ∧
       (∀ x, w.testBit 31 = true → (s.desc (some gid) (dieOf g.core) (s.jobOf g) (w % 2 ^ 12)).1 = some x → x.space = 0 →
         x.tagged = false → foreign = false → watchRangeBad x off len = false →
         Answers (exec (.wpset d a k) s) fun t => SameMemory s t ∧ status t 0 ∧ watched t =
           some ⟨gid, BitVec.ofNat 5 (w / 2 ^ 16), x.obj, x.base, x.swz, off, len,
             BitVec.ofNat 16 ((g.sval a 3).toNat / 2 ^ 16)⟩) ∧
       (∀ x, w.testBit 31 = true → (s.desc (some gid) (dieOf g.core) (s.jobOf g) (w % 2 ^ 12)).1 = x →
         (∀ y, x = some y → y.space ≠ 0 ∨ y.tagged = true ∨ foreign = true ∨ watchRangeBad y off len = true) →
         Answers (exec (.wpset d a k) s) fun t => SameMemory s t ∧ watched t = Tab.get? c.watch k.toNat ∧
           status t (match x with
             | some y => if y.space ≠ 0 ∨ y.tagged = true ∨ foreign = true then 3 else 2
             | none => 3))) ∧
     (∀ i arm, (i, arm) ∈ [(Instr.stepArm d a, true), (.stepOff d a, false)] → Ready i s gid g cl →
       (∀ k x, s₀.dbTarget gid g (g.sval a 0) (g.sval a 1) = some k → Tab.get? s₀.groups k = some x →
         (arm = false ∨ s₀.steppable k = true →
           Answers (exec i s) fun t => SameMemory s t ∧ status t 0 ∧ t.GroupIs k fun x' => x'.step = arm) ∧
         (arm = true → s₀.steppable k = false → Answers (exec i s) fun t => SameMemory s t ∧ status t 3)) ∧
       (s₀.dbTarget gid g (g.sval a 0) (g.sval a 1) = none → Answers (exec i s) fun t => SameMemory s t ∧
         status t 1)) ∧
     (Ready (.barrd d a) s gid g cl →
       (∀ n b, s.dbBar g (g.sval a 0) = some n → s.bar? (s.barId g n) = some b →
         Answers (exec (.barrd d a) s) fun t => SameMemory s t ∧ t.GroupIs gid fun g' => Sends t gid s.nextId g'
           ((g.dest d 0 fun _ => b.word (s.barId g n) (w / 2 ^ 16 % 4)) ++ g.dest d 1 fun _ => 0#32)) ∧
       (s.dbBar g (g.sval a 0) = none → Answers (exec (.barrd d a) s) fun t => SameMemory s t ∧
         t.GroupIs gid fun g' => ∃ v, Sends t gid s.nextId g'
           ((g.dest d 0 fun _ => v) ++ g.dest d 1 fun _ => BitVec.ofNat 32 (2 * 2 ^ 28)))) ∧
     (∀ b, Ready (.barwr d a b) s gid g cl →
       (∀ n x x', s.dbBar g (g.sval a 0) = some n → s.bar? (s.barId g n) = some x →
         s.barEdit g (s.barId g n) x (w / 2 ^ 16 % 4) (g.sval b 0) = some x' →
         Answers (exec (.barwr d a b) s) fun t => t.hbm = s.hbm ∧ status t 0 ∧
           t.work = ((s₀.setBar (s.barId g n) x').evalBar (s.barId g n)).work) ∧
       (∀ n x, s.dbBar g (g.sval a 0) = some n → s.bar? (s.barId g n) = some x →
         s.barEdit g (s.barId g n) x (w / 2 ^ 16 % 4) (g.sval b 0) = none →
         Answers (exec (.barwr d a b) s) fun t => SameMemory s t ∧ status t 3))) ∧
  (∀ (s : State) (gid : Nat) (g : Group) (cl : Clause) (d a : Reg), Steady g → g.active ≠ 0#64 →
     let s₀ := s.setGroup gid g
     let x := Selector.read (g.sval a 0)
     let target := (s₀.dbTarget gid g (g.sval a 1) (g.sval a 2)).bind fun k => (Tab.get? s₀.groups k).map fun y => (k, y)
     let code := fun (n : Nat) => BitVec.ofNat 32 (n * 2 ^ 28)
     let held := fun (i : Instr) (k : Nat) (y : Group) =>
       (s₀.dbHeld y = true ∨ (∃ r ∈ x.pregs, y.progPend r = true) ∨ ∃ e ∈ x.segs k y, e ∈ s.retained) → exec i s = .next
       (if y.inHandler = true ∨ y.res ≠ .held ∨ y.wantedBy = some gid then s.notIssued
         else s₀.updGroup k fun z => { z with wantedBy := some gid })
     (Ready (.dbrd d a) s gid g cl →
       let answers := fun (c : Nat) (v : Word) => Answers (exec (.dbrd d a) s) fun t => SameMemory s t ∧
         t.GroupIs gid fun g' => Sends t gid s.nextId g' ((g.dest d 0 fun _ => v) ++ g.dest d 1 fun _ => code c)
       (∀ k y, target = some (k, y) → s₀.selectorBad y x = none → s₀.dbHeld y = false →
         (∀ r ∈ x.pregs, y.progPend r = false) → (∀ e ∈ x.segs k y, e ∉ s.retained) → answers 0 (s₀.dbRead y x)) ∧
       (∀ k y, target = some (k, y) → s₀.selectorBad y x = none → held (.dbrd d a) k y) ∧
       (∀ k y c, target = some (k, y) → s₀.selectorBad y x = some c → ∃ v, answers c v) ∧
       (target = none → ∃ v, answers 1 v)) ∧
     (∀ b, Ready (.dbwr d a b) s gid g cl →
       let status := fun (t : State) (c : Nat) => t.GroupIs gid fun g' =>
         Sends t gid s.nextId g' (g.dest d 0 fun _ => code c)
       (∀ k y y', target = some (k, y) → s₀.selectorBad y x = none → s₀.dbHeld y = false →
         (∀ r ∈ x.pregs, y.progPend r = false) → (∀ e ∈ x.segs k y, e ∉ s.retained) →
         s₀.dbWrite y x (g.sval b 0) = some y' →
         Answers (exec (.dbwr d a b) s) fun t => SameMemory s t ∧ status t 0 ∧
           (k ≠ gid → t.GroupIs k fun z => z = { y' with wantedBy := z.wantedBy } ∧ z.wantedBy ≠ some gid) ∧
           t.GroupIs k fun z => z.trap = y'.trap ∧ z.v = y'.v ∧ z.s = y'.s ∧ z.b = y'.b ∧ z.arrivals = y'.arrivals) ∧
       (∀ k y, target = some (k, y) → s₀.selectorBad y x = none → s₀.dbHeld y = false →
         (∀ r ∈ x.pregs, y.progPend r = false) → (∀ e ∈ x.segs k y, e ∉ s.retained) →
         s₀.dbWrite y x (g.sval b 0) = none →
         Answers (exec (.dbwr d a b) s) fun t => SameMemory s t ∧ status t 3) ∧
       (∀ k y, target = some (k, y) → s₀.selectorBad y x = none → held (.dbwr d a b) k y) ∧
       (∀ k y c, target = some (k, y) → s₀.selectorBad y x = some c →
         Answers (exec (.dbwr d a b) s) fun t => SameMemory s t ∧ status t c) ∧
       (target = none → Answers (exec (.dbwr d a b) s) fun t => SameMemory s t ∧ status t 1)))

/-! ### Power, clocks and wear -/

/-- BOOST makes or refuses a claim and answers the balance, BOOSTREL ends it; a boost boundary spends, ends, grants and
earns by the arbiter's four steps and sets each clock, with at most 16 clusters out of the nominal state: of the clusters
that compete, the free places go to those with the higher balance, the lower number on a tie; the power
limits lower ceilings; a slice's ratio moves one step, at most once a microsecond. That a claim with a count ends at its
last boundary before the arbitration, that an evicted group's claim counts on at the cluster it left, and that the sustained
limit lowers every ceiling by one, are the model's choices (log 37) (R401, R403 to R405, R408, R409, R412, R413, R415). -/
def Obligations.PowerEvents : Prop :=
  ∀ (s : State),
    (∀ gid g cl d imm, Ready (.boost d imm) s gid g cl → Steady g → g.active ≠ 0#64 →
      let c := s.clusterAt (clusterOf g.core)
      let refused := decide (c.ceil ≤ 1300) || Config.boostForbidden (s.jobOf g)
      Answers (exec (.boost d imm) s) fun t => SameMemory s t ∧ t.clusters = s.clusters ∧ t.GroupIs gid fun g' =>
        g'.claim = (if refused then none else some ⟨if imm = 0#16 then none else some imm.toNat⟩) ∧
        Sends t gid s.nextId g' (g.dest d 0 fun _ => BitVec.ofNat 32
          ((if refused then 2 else if c.boost = .boosted then 0 else 1) * 2 ^ 28 + c.balance))) ∧
    (∀ gid g cl, Ready .boostrel s gid g cl → Steady g → g.active ≠ 0#64 →
      exec .boostrel s = .next (s.after gid { g with claim := none } cl .boostrel)) ∧
    (s.hub.lastBoundary < s.now / 5000 →
      let claims := fun k => { s with groups := Tab.mapVals s.groups fun _ (g : Group) =>
        { g with claim := g.claim.bind Claim.tick } }.claiming k
      let may := fun (k : Nat) (c : Cluster) => claims k && !s.hub.emergency && decide (1 ≤ c.balance) &&
        decide (1300 < boostCeil (Tab.getD s.hub.wear k 0))
      let places := 16 - (s.clusters.filter fun e => e.2.boost == .boosted).length
      let first := fun (k : Nat) (c : Cluster) => (s.clusters.filter fun e => e.2.boost != .boosted && may e.1 e.2 &&
        (decide (c.balance < e.2.balance) || (c.balance = e.2.balance && decide (e.1 < k)))).length
      Answers (exec .boostBoundary s) fun t => t.hub.lastBoundary = s.hub.lastBoundary + 1 ∧ SameMemory s t ∧
        (∀ k g, Tab.get? s.groups k = some g → (Tab.get? t.groups k).map Group.claim = some (g.claim.bind Claim.tick)) ∧
        (∀ k c, Tab.get? s.clusters k = some c → ∃ c', Tab.get? t.clusters k = some c' ∧
          c'.ceil = boostCeil (Tab.getD s.hub.wear k 0) ∧
          (c.boost = .boosted → (if may k c then c'.boost = .boosted ∧ c'.balance = c.balance - 1
            else c'.boost = .falling ∧ c'.balance = c.balance)) ∧
          (c.boost ≠ .boosted → if may k c = true ∧ first k c < places
            then c'.boost = .boosted ∧ c'.balance = c.balance - 1 else c'.boost = .nominal) ∧
          (c.boost = .falling → c'.boost = .nominal → c'.balance = c.balance) ∧
          (c.boost = .nominal → c'.boost = .nominal →
            if c.refill = 3 then c'.refill = 0 ∧ c'.balance = min 64 (c.balance + 1)
            else c'.refill = c.refill + 1 ∧ c'.balance = c.balance) ∧
          c'.mhz = (match c'.boost with
            | .nominal => 1300
            | .boosted => c'.ceil
            | .falling => min 1450 c'.ceil)) ∧
        (Tab.sorted s.clusters = true → (s.clusters.filter fun e => e.2.boost != .nominal).length ≤ 16 →
          (t.clusters.filter fun e => e.2.boost != .nominal).length ≤ 16)) ∧
    (2400000 < s.sensor .power1ms → (∀ e ∈ s.clusters, e.2.boost = .nominal) →
      Answers (exec .sustainedPowerLimit s) fun t => SameMemory s t ∧ ∀ k x, Tab.get? s.slices k = some x →
        Tab.get? t.slices k = some { x with ceiling := max 4 (x.ceiling - 1) }) ∧
    (2900000 < s.sensor .power10us → s.hub.emergency = false →
      Answers (exec .emergencyPowerLimit s) fun t => SameMemory s t ∧ t.hub.emergency = true ∧
        ∀ k x, Tab.get? s.slices k = some x → Tab.get? t.slices k = some { x with ceiling := max 4 (x.ceiling / 2) }) ∧
    (∀ core sl up x, sl < 6 → Tab.get? s.slices (core * 6 + sl) = some x → x.changed + 1000 ≤ s.now →
      (if up then x.ratio < x.ceiling else 4 < x.ratio) →
      Answers (exec (.sliceRatioChange core sl up) s) fun t => SameMemory s t ∧
        Tab.get? t.slices (core * 6 + sl) =
          some { x with ratio := if up then x.ratio + 1 else x.ratio - 1, changed := s.now })

/-- A sensor's sample is kept; droops of the last millisecond and the temperature avoid and readmit a core; wear adds one
microsecond's step to every domain's counter and is reported hourly; a segment untouched for the time firmware sets enters
low-voltage retention, and with it leaves the words of codewords that have become uncorrectable. Life is reported in hours
(R423); that life and fill are rounded down and bounded to 32 bits is the model's choice (log 38) (R186, R187, R392, R411,
R414, R416, R423). -/
def Obligations.HealthEvents : Prop :=
  ∀ (s : State),
    (∀ x v, Answers (exec (.sensorSample x v) s) fun t => SameMemory s t ∧ t.sensor x = v ∧
      (∀ y, y ≠ x → t.sensor y = s.sensor y) ∧
      ∀ c, x = .coreTemp c → Tab.has s.cores c = true → (Tab.get? t.cores c).map Core.temp = some v) ∧
    (∀ core c, Tab.get? s.cores core = some c →
      let recent := c.droops.filter fun n => decide (s.now < n + 1000000)
      (Answers (exec (.voltageDroop core) s) fun t => SameMemory s t ∧
        Tab.get? t.cores core = some { c with droops := recent ++ [s.now] }) ∧
      (s.hub.tAvoid ≤ c.temp ∨ 4 < recent.length → Answers (exec (.coreAvoid core) s) fun t => SameMemory s t ∧
        Tab.get? t.cores core = some { c with avoided := true }) ∧
      (c.temp < s.hub.tAvoid - 6 * 16 → recent = [] → Answers (exec (.coreReadmit core) s) fun t =>
        SameMemory s t ∧ Tab.get? t.cores core = some { c with avoided := false })) ∧
    (s.hub.lastWear < s.now / 1000 → Answers (exec .wearAccumulate s) fun t => SameMemory s t ∧
      t.hub.lastWear = s.hub.lastWear + 1 ∧ ∀ n, n < 37 → Tab.get? t.hub.wear n =
        some (min (2 ^ 64 - 1) (Tab.getD s.hub.wear n 0 + wearStep (s.sensor (.domainVoltage n)) (s.domainTemp n)))) ∧
    (s.hub.lastReport < s.now / (3600 * 10 ^ 9) → Answers (exec .wearReportRefresh s) fun t => SameMemory s t ∧
      t.hub.lastReport = s.now / (3600 * 10 ^ 9) ∧ ∀ n, n < 37 → ∃ life, Tab.get? t.hub.report n =
        some (Tab.getD s.hub.wear n 0, Tab.getD s.hub.wear n 0 * 10000 / 2 ^ 56, life) ∧
        (2 ^ 56 ≤ Tab.getD s.hub.wear n 0 → life = 0) ∧
        (Tab.getD s.hub.wear n 0 < 2 ^ 56 → 0 < Tab.getD s.hub.wear n 0 → s.service < 720 * (3600 * 10 ^ 9) →
          life = min 0xFFFFFFFF ((2 ^ 56 - Tab.getD s.hub.wear n 0) * s.service /
            (Tab.getD s.hub.wear n 0 * (3600 * 10 ^ 9))))) ∧
    (∀ a n, n < arrSegments a → (a, n) ∉ s.retained → a ∉ s.hub.noRetain →
      Tab.getD s.touched (segKey (a, n)) 0 + 1000 * s.hub.retainAfter ≤ s.now →
      exec (.retentionEntry a n) s = .next { s with retained := s.retained ++ [(a, n)] }) ∧
    (∀ a n bad, (a, n) ∈ s.retained → (∀ b ∈ bad, (a, n) ∈ s.segsOfWord b) →
      Answers (exec (.retentionExit a n bad) s) fun t => t.retained = s.retained.erase (a, n) ∧
        (bad = [] → t.hbm = s.hbm) ∧ (∀ b ∈ bad, ∀ c ∈ BadLoc.codeword b, c ∈ t.bad) ∧
        ∀ c ∈ t.bad, c ∈ s.bad ∨ ∃ b ∈ bad, c ∈ BadLoc.codeword b)

/-! ### Pre-emption, placement and bundles -/

/-- A time slice stops a running job and saves it once its groups have drained, those drained after 50 µs one by one; a
job is restored where its blocks find their places and leave the reserved ones alone; eviction takes cores from the mask,
freezes the groups of the blocks there and saves each block that has drained; a migration freezes a block, moves it to the
other core once it has drained within 50 µs, and is abandoned after them: all of it where no segment is in retention, and
the messages that start it where nothing stands before them on their links. What a saved group takes with it (log 46), that
these messages act when they are sent (log 48), and that a restore waits for the job's release windows (log 49), are the
model's choices (R187, R353, R375 to R377, R388, R390, R393, R394). -/
def Obligations.PreemptionEvents : Prop :=
  ∀ (s : State), s.retained = [] →
    (∀ job j, Tab.get? s.work.jobs job = some j →
      let saves := fun (i : Instr) => Answers (exec i s) fun t => t.hbm = s.hbm ∧
        (Tab.get? t.work.jobs job).map Job.slice = some (.out s.now) ∧
        ∀ e ∈ t.groups, t.jobOf e.2 = job → e.2.recov = none → e.2.res = .saved
      (j.slice = .running → s.sliceClear job = true →
        (∀ e ∈ s.work.blocks, e.2.state = .running ∨ e.2.state = .saved) →
        Answers (exec (.timeSlice job) s) fun t => t.hbm = s.hbm ∧ t.groups = s.groups ∧
          Tab.get? t.work.jobs job = some { j with slice := .stopping s.now }) ∧
      (∀ n, j.slice = .stopping n → s.recovered job = true → Tab.sorted s.groups = true →
        (∀ e ∈ s.jobGroups job, e.2.res = .saved ∨ s.drained e.1 e.2 = true) →
        saves (.timeSlice job) ∧ (n + 50000 ≤ s.now → saves (.preemptDrainTimeout job))) ∧
      (∀ n gid g, j.slice = .stopping n → n + 50000 ≤ s.now → Tab.sorted s.groups = true →
        Tab.get? s.groups gid = some g → s.jobOf g = job → g.recov = none → s.drained gid g = true →
        Answers (exec (.preemptDrainTimeout job) s) fun t => t.GroupIs gid fun g' => g'.res = .saved) ∧
      (∀ n, j.slice = .out n →
        let s₁ := (s.updJob job fun j => { j with slice := .running, savedWatch := [] }).wakeWatch j.savedWatch
        let bs := s₁.jobBlocks job
        let s₂ := (bs.flatMap fun e => e.2.groups).foldl State.wakeGroup
          (bs.foldl (fun (u : State) e => u.untangle e.1 e.2) s₁)
        let s₃ := (s₂.evictedOf job).foldl State.resumeSleep s₂
        s.windowRuns job = false → s.sliceClear job = true →
        Tab.sorted s.work.blocks = true → s₁.holds job bs = true → (∀ e ∈ bs, s₂.seated e.1 = true) →
        s.respects s₂ = true →
        exec (.jobRestore job) s = .next (s.blocksMoved s₃) ∧ (s.blocksMoved s₃).groups = s₃.groups ∧
          (s.blocksMoved s₃).work = s₃.work ∧ (Tab.get? s₃.work.jobs job).map Job.slice = some .running ∧
          ∀ e ∈ bs, ∀ k ∈ e.2.groups, ∀ g, Tab.get? s₃.groups k = some g → g.res ≠ .saved) ∧
      (∀ cores, j.slice = .running → (∀ c, s.linkClear c = true) → Answers (exec (.evict job cores) s) fun t =>
        (∀ c, c < 128 → ((Tab.get? t.work.jobs job).map fun x => x.coreMask.getLsbD c) =
          some (j.coreMask.getLsbD c && (!cores.getLsbD c || s.evictKeeps job c))) ∧
        ∀ bid b l, Tab.get? s.work.blocks bid = some b → b.state ≠ .saved →
          Tab.get? s.work.launches b.launch = some l → l.job = job → b.core < 128 → cores.getLsbD b.core = true →
          j.coreMask.getLsbD b.core = true → s.evictKeeps job b.core = false →
          ((Tab.get? t.work.blocks bid).map Block.state = some .evicting ∨
            (Tab.get? t.work.blocks bid).map Block.state = some .saved) ∧
          (b.state ≠ .evicting → ∀ k ∈ b.groups, ∀ g, Tab.get? t.groups k = some g → g.frozen = true) ∧
          ((∀ k ∈ b.groups, ∀ g, Tab.get? s.groups k = some g → g.clause = none ∧ (∀ n, n < 5 → g.cnt n = 0) ∧
              s.enginesIdle k = true ∧ ∀ c ∈ s.cores, ∀ e ∈ c.2.recq, e.group ≠ k) →
            (Tab.get? t.work.blocks bid).map Block.state = some .saved ∧
              ∀ k ∈ b.groups, ∀ g, Tab.get? t.groups k = some g → g.res = .saved))) ∧
    (∀ bid b, Tab.get? s.work.blocks bid = some b →
      let job := ((Tab.get? s.work.launches b.launch).map Launch.job).getD 64
      (∀ core, b.state = .running → s.jobRuns job = true → clusterOf core = clusterOf b.core → core ≠ b.core →
        s.movable b = true → s.linkClear (clusterOf b.core) = true →
        Answers (exec (.migrate bid core) s) fun t =>
          (Tab.get? t.work.blocks bid).map Block.state = some (.migrating core s.now) ∧
          ∀ g ∈ b.groups, ∀ x, Tab.get? t.groups g = some x → x.frozen = true) ∧
      (∀ core dest n t, b.state = .migrating dest n → s.jobRuns job = true → s.movable b = true → s.still b = true →
        s.now ≤ n + 50000 → s.moveBlock bid b dest = some t → s.respects t = true →
        exec (.migrate bid core) s = .next (s.blocksMoved t) ∧
          ∃ b', Tab.get? (s.blocksMoved t).work.blocks bid = some b' ∧ b'.core = dest ∧ b'.state = .running) ∧
      (∀ dest n, b.state = .migrating dest n → n + 50000 ≤ s.now →
        Answers (exec (.migrationAbandon bid) s) fun t =>
          (Tab.get? t.work.blocks bid).map Block.state = some .running ∧
          ∀ g ∈ b.groups, ∀ x, Tab.get? t.groups g = some x → x.frozen = false))

/-- PLACE_BLOCKS starts the next gang of a launch whole, a block on a core for each of its blocks, and of a co-operative launch
all that are left or none; before that the blocks of an evicted gang come back, the first of them where the job keeps a core
of their cluster, else all to one other cluster. BLOCK_COMPLETION frees a block whose groups are gone, its gang's allotment
with the gang's last, and the hub counts it in its turn on the Pup's link; LAUNCH_COMPLETE gives the launch's status to its
sub-launch once nothing of it is left; CODE_LOAD puts the kernel's words, start bits and load into a cluster's free room.
Gangs are placed where no segment is in retention and nothing stands on the links to the Pups, from where the order acts at
once (log 48); what an evicted gang keeps and where it returns are the model's choices too (log 39) (R32, R168, R187, R220,
R388, R390, R391, R394, R397). -/
def Obligations.PlacementEvents : Prop :=
  ∀ (s : State),
    let starts := fun (t : State) (lid : Nat) (l : Launch) (gi : Nat) =>
      ((Tab.get? t.work.launches lid).map fun l' => Tab.has l'.gangs gi) = some true ∧
      ∀ ix ∈ l.gangBlocks gi, ∃ bid b, Tab.get? t.work.blocks bid = some b ∧ b.launch = lid ∧
        b.index = ix ∧ b.gang = gi ∧ b.state = .running
    let answers := fun (lid : Nat) (t : State) => exec (.placeBlocks lid) s = .next (s.blocksMoved t) ∧
      (s.blocksMoved t).hbm = s.hbm ∧ (s.blocksMoved t).work = t.work
    (∀ lid l, Tab.get? s.work.launches lid = some l → l.admitted = true → l.status = none → l.retired = false →
      s.jobRuns l.job = true → 1 ≤ l.kernel.gang → s.retained = [] → (∀ c, s.linkClear c = true) →
      (∀ t, (∀ e ∈ s.work.launches, s.unplaced e.2 = true → e.1 = lid) → l.coop = false →
        (∀ e ∈ l.gangs, s.savedOf lid e.1 = []) → l.gangs.length < l.gangCount →
        s.placeGang lid l.gangs.length false = some t → answers lid t ∧ starts t lid l l.gangs.length) ∧
      ((∀ e ∈ s.work.launches, s.unplaced e.2 = true → lid ≤ e.1) → l.coop = true →
        (∀ e ∈ l.gangs, s.savedOf lid e.1 = []) →
        (∀ t, s.placeGangs lid false l.todo = some t → answers lid t ∧
          ∀ gi, l.gangs.length ≤ gi → gi < l.gangCount → starts t lid l gi) ∧
        (s.placeGangs lid false l.todo = none → exec (.placeBlocks lid) s = .next s)) ∧
      (∀ gi g t, (∀ e ∈ s.work.launches, s.unplaced e.2 = true → e.1 = lid) →
        (l.gangs.find? fun e => !(s.savedOf lid e.1).isEmpty) = some (gi, g) → s.reseat lid l gi g = some t →
        answers lid t ∧
        let runsOn := fun (bid cluster : Nat) =>
          ∃ b, Tab.get? t.work.blocks bid = some b ∧ b.state = .running ∧ b.core / 4 = cluster
        if s.keepsCluster l.job g.cluster = true then ∃ e, (s.savedOf lid gi).head? = some e ∧ runsOn e.1 g.cluster
        else ∃ c, ((Tab.get? t.work.launches lid).bind fun l' => (Tab.get? l'.gangs gi).map Gang.cluster) = some c ∧
          ∀ e ∈ s.savedOf lid gi, runsOn e.1 c)) ∧
    (∀ bid b l, Tab.get? s.work.blocks bid = some b → Tab.get? s.work.launches b.launch = some l →
      (∀ g ∈ b.groups, Tab.get? s.groups g = none) → (∀ e ∈ s.ops.copies, e.2.block ≠ some bid) →
      Answers (exec (.blockCompletion bid) s) fun t => Tab.get? t.work.blocks bid = none ∧ t.hbm = s.hbm ∧
        (∀ e ∈ t.tiles, e.2.owner.map Prod.snd ≠ some bid) ∧
        Tab.getD t.hub.toHub (clusterOf b.core) [] =
          Tab.getD s.hub.toHub (clusterOf b.core) [] ++ [.blockDone bid b.launch] ∧
        (Tab.get? t.work.launches b.launch).map Launch.blocksDone = some l.blocksDone ∧
        ((∀ e ∈ s.work.blocks, e.1 ≠ bid → e.2.launch = b.launch → e.2.gang ≠ b.gang) →
          ∀ x y, Tab.get? t.work.launches b.launch = some x → Tab.get? x.gangs b.gang = some y →
            y.scratch = [] ∧ y.bars = [])) ∧
    (∀ bid cluster lid l, Tab.get? s.work.blocks bid = none → s.doneMessage bid = some (cluster, lid) →
      Tab.get? s.work.launches lid = some l →
      Answers (exec (.blockCompletion bid) s) fun t => t.hbm = s.hbm ∧
        Tab.getD t.hub.toHub cluster [] = (Tab.getD s.hub.toHub cluster []).tail ∧
        (Tab.get? t.work.launches lid).map Launch.blocksDone = some (l.blocksDone + 1)) ∧
    (∀ lid l bd sub x, Tab.get? s.work.launches lid = some l → l.admitted = true → l.retired = false → l.ended = true →
      s.recovering lid = false → s.programRuns lid = false → s.launchTags lid = [] → l.ctx = none →
      Tab.get? s.work.bundles l.bundle = some bd → l.sub = sub → bd.subs[sub]? = some x →
      Answers (exec (.launchComplete lid) s) fun t => t.hbm = s.hbm ∧
        (∃ l', Tab.get? t.work.launches lid = some l' ∧ l'.retired = true ∧ l'.status = some (l.status.getD 0)) ∧
        ((Tab.get? t.work.bundles l.bundle).bind fun b => (b.subs[sub]?).bind Sub.status) =
          some (l.status.getD 0)) ∧
    (∀ cluster lid base l c, Tab.get? s.work.launches lid = some l → Tab.get? s.clusters cluster = some c →
      l.retired = false → l.status = none → s.codeOf cluster lid = none → s.keepsCluster l.job cluster = true →
      c.roomAt base l.kernel.code.length = true →
      Answers (exec (.codeLoad cluster lid base) s) fun t => t.hbm = s.hbm ∧ ∃ c', Tab.get? t.clusters cluster = some c' ∧
        c'.loads = c.loads ++ [⟨l.job, l.kernel.name, l.kernel.version, l.codeObj, base, l.kernel.code.length, l.kernel.native⟩] ∧
        (∀ n w, l.kernel.code[n]? = some w → Tab.get? c'.code (base + n) = some w) ∧
        ∀ h ∈ l.kernel.headers, Tab.getD c'.starts (base + h) false = true)

/-- BUNDLE_FETCH takes the entry at an enabled queue's read pointer, or disables the queue where the read fails;
BUNDLE_ADMIT brings the earliest ready bundle of its queue to admission, ends a sub-launch that no record allows or
that can never be admitted, or whose version another code object has taken meanwhile (R397), and admits the bundle whole
once every launch passes its checks; the other sub-launches give their work out; BUNDLE_RETIRE ends a bundle that is done,
writes its completion record and tells each of its successors, a credit standing for one that has not come. The model's
choices are that a sub-launch of a reserved kind ends with launch-malformed on its own and where the record goes (log 41),
that a surrogate load meets no region table entry (log 35), and when the version is asked for again (log 51) (R379 to R384,
R386, R387, R397, R431). -/
def Obligations.BundleEvents : Prop :=
  ∀ (s : State),
    (∀ port q x p, Tab.get? s.ports port = some p → Tab.get? p.queues q = some x → s.hub.booted = true →
      x.enable = true → x.bound = true → x.rp ≠ x.wp →
      (∀ ws s₁, s.readEntry port x = (some ws, s₁) → Answers (exec (.bundleFetch port q) s) fun t => t.hbm = s.hbm ∧
        (t.sq? port q).map Sq.rp = some ((x.rp + 1) % 2 ^ x.size) ∧ ∃ b, Tab.get? t.work.bundles s.nextId = some b ∧
          b.job = x.job ∧ b.port = port ∧ b.queue = q ∧ b.bid = wnat ws 0 / 2 ^ 16 ∧ b.admitted = false) ∧
      (∀ s₁, s.readEntry port x = (none, s₁) → Answers (exec (.bundleFetch port q) s) fun t =>
        t.sq? port q = some { x with enable := false, error := true } ∧ t.work = s.work)) ∧
    (∀ bid b, Tab.get? s.work.bundles bid = some b → b.ready = true → s.jobRuns b.job = true →
      (∀ e ∈ s.work.bundles, e.2.port = b.port → e.2.queue = b.queue → e.2.ready = true → b.order ≤ e.2.order) →
      let ls := s.inAdmission b
      let status := fun (t : State) (sub : Nat) =>
        ((Tab.get? t.work.bundles bid).bind fun y => (y.subs[sub]?).bind Sub.status)
      (∀ sub x, b.checking = false → b.subs[sub]? = some x → x.launch = none → 4 ≤ wnat x.words 0 / 2 ^ 28 % 2 ^ 4 →
        Answers (exec (.bundleAdmit bid) s) fun t => status t sub = some 8) ∧
      (∀ t, b.checking = true → (∀ e ∈ ls, s.check e.2.1 e.2.2 = .pass) → ((s.showViews b.job ls).invalidate b.job .sys).admitAll ls = some t →
        Answers (exec (.bundleAdmit bid) s) fun t' => t'.hbm = t.hbm ∧
          (Tab.get? t'.work.bundles bid).map Bundle.admitted = some true) ∧
      (∀ sub lid l, b.checking = true → (ls.find? fun e => s.check e.2.1 e.2.2 ≠ .pass) = some (sub, lid, l) →
        (s.check lid l = .wait → exec (.bundleAdmit bid) s = .next s) ∧
        (s.check lid l = .unfit → Answers (exec (.bundleAdmit bid) s) fun t => t.hbm = s.hbm ∧ status t sub = some 1 ∧
          Tab.get? t.work.launches lid = none) ∧
        (s.check lid l = .malformed → Answers (exec (.bundleAdmit bid) s) fun t => t.hbm = s.hbm ∧
          status t sub = some 8 ∧ Tab.get? t.work.launches lid = none))) ∧
    (∀ lid l e, e ∈ s.work.launches → e.2.job = l.job → e.2.retired = false → e.2.kernel.name = l.kernel.name →
      e.2.kernel.version = l.kernel.version → e.2.codeObj ≠ l.codeObj →
      (e.2.admitted = true ∨ (e.2.bundle = l.bundle ∧ e.2.sub < l.sub)) → s.check lid l = .malformed) ∧
    (∀ bid sub b x, s.sub? bid sub 1 = some (b, x) →
      let flying := (s.ops.copies.filter fun e => e.2.owner = .program bid sub).length
      flying < 8 → wnat x.words 4 - x.left + flying < wnat x.words 4 →
      Answers (exec (.copyProgramRun bid sub) s) fun t => SameMemory s t ∧
        ∃ c, Tab.get? t.ops.copies s.nextId = some c ∧ c.owner = .program bid sub ∧ c.core = 128 + wnat x.words 1 ∧
          8 ≤ c.engine ∧ c.engine < 16) ∧
    (∀ bid sub b x, s.sub? bid sub 2 = some (b, x) →
      let r := s.loadEverywhere b.job (wnat x.words 3 % 2 ^ 6)
        (fun k => s.objBytes b.job (wnat x.words 1 % 2 ^ 16) (wnat x.words 2 + 64 * k) 64)
        ((List.range 128).filter fun c => (((Tab.get? s.work.jobs b.job).map Job.coreMask).getD 0#128).getLsbD c)
      Answers (exec (.surrogateLoadSublaunch bid sub) s) fun t => t.hbm = s.hbm ∧ t.cores = r.2.cores ∧
        ((Tab.get? t.work.bundles bid).bind fun y => (y.subs[sub]?).bind Sub.status) =
          some (if r.1 then 0xB else 0)) ∧
    (∀ bid sub b x, s.sub? bid sub 3 = some (b, x) → s.ops.colls.length < 256 →
      let w := wnat x.words 0
      let c := rawColl (.program bid sub) b.job 0 (w / 2 ^ 24 % 2 ^ 4) (w / 2 ^ 22 % 2 ^ 2) (w % 2 ^ 22)
        ((x.words.drop 1).take 6)
      Answers (exec (.collectiveSublaunch bid sub) s) fun t => t.hbm = s.hbm ∧
        ((Tab.get? t.work.bundles bid).bind fun y => (y.subs[sub]?).map Sub.running) = some false ∧
        (c.bad = false → ∃ n, Tab.get? t.ops.colls s.nextId = some { c with nth := n }) ∧
        (c.bad = true → x.left ≤ 1 → Tab.get? t.ops.colls s.nextId = none ∧
          ((Tab.get? t.work.bundles bid).bind fun y => (y.subs[sub]?).bind Sub.status) = some 0xC)) ∧
    (∀ bid b j, Tab.get? s.work.bundles bid = some b → s.bundleDone bid b = true →
      Tab.get? s.work.jobs b.job = some j → (s.work.bundles.map Prod.fst).Nodup →
      let s' := s.setWork { s.work with bundles := Tab.del s.work.bundles bid }
      let missing := b.succs.filter fun i => (s'.pendingBundle b.job i).isNone
      missing = [] ∨ j.credits.length + missing.length ≤ 1024 →
      let cancel := b.stop && decide (b.status.1 ≠ 0)
      let late := ((s.work.launches.filter fun e => e.2.bundle = bid).map fun e => e.2.late).sum
      let bytes := fun (k : Nat) => ([BitVec.ofNat 32 (b.status.1 * 2 ^ 28 + b.status.2 * 2 ^ 16 + b.bid),
        BitVec.ofNat 32 (min (2 ^ 32 - 1) late), BitVec.ofNat 32 s.now, BitVec.ofNat 32 (s.now / 2 ^ 32)].getD (k / 4) 0#32).extractLsb'
          (8 * (k % 4)) 8
      let host := ((s.sq? b.port b.queue).map Sq.host).getD false
      Answers (exec (.bundleRetire bid) s) fun t => Tab.get? t.work.bundles bid = none ∧
        (∀ e ∈ t.work.launches, e.2.bundle ≠ bid) ∧
        (host = true → t.hbm = s.hbm ∧ ∀ p, Tab.get? s.ports b.port = some p → ∃ p', Tab.get? t.ports b.port = some p' ∧
          ∀ k, k < 16 → Tab.get? p'.hostMem (b.record + k) = some (bytes k)) ∧
        (host = false → ∀ a, memRead Config.hbmFill t.hbm a =
          if s.portRange b.port b.record 16 = true ∧ b.record ≤ a ∧ a < b.record + 16 then bytes (a - b.record)
          else memRead Config.hbmFill s.hbm a) ∧
        (Tab.get? t.work.jobs b.job).map Job.credits = some (j.credits ++ missing.map fun i => (i, cancel)) ∧
        ∀ i n x, i ∈ b.succs → s'.pendingBundle b.job i = some (n, x) → Tab.get? t.work.bundles n = some
          (if x.count = 0 then x else if cancel then { x with cancelled := true }
           else { x with count := x.count - b.succs.count i }))

/-! ### The hosts -/

/-- The host ports: a link that goes down ends the jobs of its port; an open port answers reads and writes of its own
frames and aborts others without an effect, writes its registers, and moves and enables its queues, the entries that its
write pointer passes being kept; the Graniale ports deliver unordered flits at once and ordered ones in turn and once, keep
a sent flit until the peer has it, count bad ones, and change width; power-on reset gives the part after reset but for the
wear, and for the boost ceilings that follow it. That a write of the write pointer keeps the entries it passes as they then
stand (log 15), that enabling a queue clears its error bit (log 43), that a flit stays in the replay buffer until it is
received and the moment a change of width ends (log 44), and what lasts over a power-on (log 45) are the model's choices
(R379, R414, R415, R417 to R420, R422 to R425, R433, R434). -/
def Obligations.HostEvents : Prop :=
  ∀ (s : State),
    (∀ port p, Tab.get? s.ports port = some p →
      (Answers (exec (.hostLinkUp port) s) fun t => Tab.get? t.ports port = some { p with up := true } ∧
        SameMemory s t) ∧
      (Answers (exec (.hostLinkDown port) s) fun t => (Tab.get? t.ports port).map Port.up = some false ∧
        ∀ e ∈ t.work.jobs, e.2.port ≠ port) ∧
      (s.hub.booted = true → p.up = true →
        (∀ a n, 0 < n → s.ownsRange port a n = true → s.bad = [] →
          Answers (exec (.hostMemoryAccess port a n none) s) fun t => SameMemory s t ∧
            (Tab.get? t.ports port).map Port.answer = some ((List.range n).map fun k =>
              memRead Config.hbmFill s.hbm (a + k))) ∧
        (∀ a n bs, 0 < bs.length → s.ownsRange port a bs.length = true →
          Answers (exec (.hostMemoryAccess port a n (some bs)) s) fun t => t.work = s.work ∧
            ∀ x, memRead Config.hbmFill t.hbm x =
              if a ≤ x ∧ x < a + bs.length then bs.getD (x - a) 0#8 else memRead Config.hbmFill s.hbm x) ∧
        (∀ a n, 0 < n → s.ownsRange port a n = false → Answers (exec (.hostMemoryAccess port a n none) s) fun t =>
          SameMemory s t ∧ (Tab.get? t.ports port).map Port.abort = some true) ∧
        (∀ a n bs, 0 < bs.length → s.ownsRange port a bs.length = false →
          Answers (exec (.hostMemoryAccess port a n (some bs)) s) fun t => SameMemory s t ∧ t.hbm = s.hbm ∧
            (Tab.get? t.ports port).map Port.abort = some true) ∧
        (∀ k v, k < 64 → Answers (exec (.registerWrite port (0x1000 + 4 * k) v) s) fun t => SameMemory s t ∧
          ((Tab.get? t.ports port).map fun p' => Tab.getD p'.mailIn k 0#32) = some v) ∧
        (∀ v, p.doorbell = none → 1 ≤ v.toNat % 256 → v.toNat % 256 ≤ 6 →
          Answers (exec (.registerWrite port 0x1100 v) s) fun t => SameMemory s t ∧
            (Tab.get? t.ports port).map Port.doorbell = some (some (v.toNat % 256))) ∧
        (∀ q x v, Tab.get? p.queues q = some x → Answers (exec (.sqWritePointer port q v) s) fun t =>
          SameMemory s t ∧ ∃ y, t.sq? port q = some y ∧ y = { x with wp := y.wp, snap := y.snap } ∧
            y.wp = v.toNat % 2 ^ 12 % 2 ^ x.size ∧
            (x.host = false → x.snap = [] → y.snap = (List.range ((y.wp + 2 ^ x.size - x.rp) % 2 ^ x.size)).map fun k =>
              s.hbmRead (x.base + 576 * ((x.rp + k) % 2 ^ x.size)) 576)) ∧
        (∀ q x, Tab.get? p.queues q = some x → x.bound = true → 1 ≤ x.size → x.size ≤ 12 →
          Answers (exec (.sqEnable port q true) s) fun t => SameMemory s t ∧
            t.sq? port q = some { x with enable := true, error := false }) ∧
        (∀ q x, Tab.get? p.queues q = some x → Answers (exec (.sqEnable port q false) s) fun t => SameMemory s t ∧
          t.sq? port q = some { x with enable := false }))) ∧
    (∀ port g f, Tab.get? s.hub.graniale port = some g →
      (g.trained = true → f ∉ g.replay → f.ordered = false → Answers (exec (.granialeFlitReceive port f true) s) fun t =>
        SameMemory s t ∧ Tab.get? t.hub.graniale port = some { g with received := g.received ++ [f] }) ∧
      (f ∈ g.replay → Answers (exec (.granialeFlitReceive port f true) s) fun t => SameMemory s t ∧
        Tab.get? t.hub.graniale port = some { g with replay := g.replay.erase f }) ∧
      (f ∉ g.replay → f.ordered = true → f.seq < g.expected f →
        Answers (exec (.granialeFlitReceive port f true) s) fun t => SameMemory s t ∧
          Tab.get? t.hub.graniale port = some g) ∧
      (g.trained = true → f ∉ g.replay → f.ordered = true → f.seq = g.expected f → g.buffer = [] →
        Answers (exec (.granialeFlitReceive port f true) s) fun t => ∃ g', SameMemory s t ∧
          Tab.get? t.hub.graniale port = some g' ∧ g'.received = g.received ++ [f] ∧ g'.buffer = [] ∧
          g'.expected f = f.seq + 1) ∧
      (port < 8 → Answers (exec (.granialeFlitReceive port f false) s) fun t => SameMemory s t ∧
        Tab.get? t.hub.graniale port = some g ∧ (Tab.getD t.hub.errors (16 * (173 + port)) (0, 0)).1 =
          min 0xFFFFFFFF ((Tab.getD s.hub.errors (16 * (173 + port)) (0, 0)).1 + 1)) ∧
      (∀ lanes, lanes ∈ [1, 2, 4] → lanes ≠ g.lanes → g.retraining = none →
        Answers (exec (.linkWidthChange port lanes) s) fun t => SameMemory s t ∧
          Tab.get? t.hub.graniale port = some { g with retraining := some (lanes, s.now) }) ∧
      (∀ lanes n, g.retraining = some (lanes, n) → g.replay = [] →
        Answers (exec (.linkWidthChange port lanes) s) fun t => SameMemory s t ∧ Tab.get? t.hub.graniale port =
          some { g with lanes := lanes, retraining := none, replay := g.transmit, transmit := [] }) ∧
      (∀ lanes n, g.retraining = some (lanes, n) → g.replay ≠ [] →
        Answers (exec (.linkWidthChange port lanes) s) fun t => SameMemory s t ∧
          Tab.get? t.hub.graniale port = some g)) ∧
    ∀ fw sh, Answers (exec (.powerOnReset fw sh) s) fun t => t.hub.booted = (fw && sh) ∧ t.groups = [] ∧ t.hbm = [] ∧
      t.work = ⟨[], [], [], []⟩ ∧ t.slices = State.reset.slices ∧ t.now = 0 ∧ t.hub.wear = s.hub.wear ∧
      ∀ k c, Tab.get? State.reset.clusters k = some c →
        Tab.get? t.clusters k = some { c with ceil := boostCeil (Tab.getD s.hub.wear k 0) }

/-- The mailbox commands of a ringing port: a job is registered with its queues bound, or unregistered and its work
ended; frames are claimed and released; a communicator is defined; a report is attested; each ends with its result and
response. The codes that R421 does not give for a command, such as refused for a job that is not the port's, are the
model's choices (log 43) (R378, R419, R421, R426, R435). -/
def Obligations.MailboxCommands : Prop :=
  ∀ (s : State) (port : Nat) (p : Port),
    (∀ r, Rings s port 1 p → s.registerJob port p = r → Answers (exec (.registerJob port) s) fun t =>
      Replied t port r.code r.out ∧ t.hbm = s.hbm ∧
      (r.code = 0 → ∃ id j, r.out = [BitVec.ofNat 32 id] ∧ id < 64 ∧ Tab.get? s.work.jobs id = none ∧
        Tab.get? t.work.jobs id = some j ∧ j.port = port ∧ j.tagBudget = p.arg 0 % 2 ^ 16 ∧
        j.capacity = p.arg 1 % 2 ^ 16 ∧ j.tensorTable = p.arg64 2 ∧ j.objectTable = p.arg64 4 ∧ j.slice = .running ∧
        ∀ q, q < 64 → (p.arg64 9).testBit q = true → ∀ x, t.sq? port q = some x → x.bound = true ∧ x.job = id) ∧
      (r.code ≠ 0 → t.work = s.work)) ∧
    (Rings s port 2 p → (s.jobOfPort port (p.arg 0) = true →
      Answers (exec (.unregisterJob port) s) fun t => Replied t port 0 [] ∧ Tab.get? t.work.jobs (p.arg 0) = none ∧
        (∀ e ∈ t.work.launches, e.2.job ≠ p.arg 0) ∧ ∀ e ∈ t.kennel.tags, e.2.job ≠ p.arg 0) ∧
      (s.jobOfPort port (p.arg 0) = false → Answers (exec (.unregisterJob port) s) fun t => Replied t port 1 [] ∧
        SameMemory s t)) ∧
    (Rings s port 3 p → p.arg 0 % 2 ^ 18 + p.arg 1 ≤ Config.hbmFrames →
      (∀ f ∈ s.hub.frames, p.arg 0 % 2 ^ 18 ≤ f.1 → f.1 < p.arg 0 % 2 ^ 18 + p.arg 1 → f.2 = port) →
      Answers (exec (.claimFrames port) s) fun t => SameMemory s t ∧ Replied t port 0 [t.frameCount port] ∧
        (∀ k, k < p.arg 1 → Tab.get? t.hub.frames (p.arg 0 % 2 ^ 18 + k) = some port) ∧
        ∀ k, (k < p.arg 0 % 2 ^ 18 ∨ p.arg 0 % 2 ^ 18 + p.arg 1 ≤ k) →
          Tab.get? t.hub.frames k = Tab.get? s.hub.frames k) ∧
    (Rings s port 4 p → p.arg 0 % 2 ^ 18 + p.arg 1 ≤ Config.hbmFrames →
      (∀ e ∈ s.portJobs port, s.namesFrame e.2 (p.arg 0 % 2 ^ 18) (p.arg 1) = false) →
      Answers (exec (.releaseFrames port) s) fun t => SameMemory s t ∧ Replied t port 0 [t.frameCount port] ∧
        ∀ f, f ∈ t.hub.frames ↔
          f ∈ s.hub.frames ∧ (f.1 < p.arg 0 % 2 ^ 18 ∨ p.arg 0 % 2 ^ 18 + p.arg 1 ≤ f.1 ∨ f.2 ≠ port)) ∧
    (∀ j, Rings s port 5 p → p.arg 1 ≤ 63 → 2 ≤ p.arg 2 → p.arg 2 ≤ 1024 → p.arg 3 < p.arg 2 →
      Tab.get? s.work.jobs (p.arg 0) = some j → j.port = port → s.ownsRange port (p.arg64 4) (4 * p.arg 2) = true →
      Answers (exec (.defineCommunicator port) s) fun t => Replied t port 0 [] ∧ t.hbm = s.hbm ∧
        ((Tab.get? t.work.jobs (p.arg 0)).bind fun j' => Tab.get? j'.comms (p.arg 1)) =
          some ⟨p.arg 3, (bytesToWords (s.hbmRead (p.arg64 4) (4 * p.arg 2))).map fun w =>
            (w.toNat % 2 ^ 16, w.toNat / 2 ^ 16 % 2 ^ 6), 0⟩) ∧
    (Rings s port 6 p →
      let r := s.report port p
      let bs := r ++ natToBytes (Config.sign r).toNat 64
      p.arg64 8 % 64 = 0 → s.portFrame port (p.arg64 8) = true → s.ownsRange port (p.arg64 8) bs.length = true →
      Answers (exec (.attest port) s) fun t => Replied t port 0 [BitVec.ofNat 32 bs.length] ∧ t.work = s.work ∧
        t.hbmRead (p.arg64 8) bs.length = bs)
end

