-- ==== Sys2Proof/Laws/Bits.lean ====
section
/-!
SUPPORT. Masks as the lanes they name, and numbers as the bytes they are stored in.
-/

namespace Sys2Proof.Machine

/-! ### Masks -/

theorem mem_maskList {m : Mask} {i : Nat} : i ∈ maskList m ↔ i < 64 ∧ m.getLsbD i = true := by
  simp [maskList]

theorem nodup_maskList (m : Mask) : (maskList m).Nodup := List.Nodup.filter _ List.nodup_range

theorem maskList_eq_nil {m : Mask} : maskList m = [] ↔ m = 0#64 := by
  constructor
  · intro h
    apply BitVec.eq_of_getLsbD_eq
    intro i hi
    by_contra hc
    have : i ∈ maskList m := mem_maskList.2 ⟨hi, by simpa using hc⟩
    simp [h] at this
  · rintro rfl
    simp [maskList]

theorem maskSum_testBit (p : Nat → Bool) (n : Nat) :
    (∀ k, ((List.range n).foldl (fun acc i => if p i then acc + 2 ^ i else acc) 0).testBit k =
      (decide (k < n) && p k)) ∧ (List.range n).foldl (fun acc i => if p i then acc + 2 ^ i else acc) 0 < 2 ^ n := by
  induction n with
  | zero => simp
  | succ n ih =>
    rw [List.range_succ, List.foldl_append]
    simp only [List.foldl_cons, List.foldl_nil]
    generalize (List.range n).foldl (fun acc i => if p i then acc + 2 ^ i else acc) 0 = x at ih
    obtain ⟨ih, hx⟩ := ih
    by_cases hp : p n = true
    · rw [if_pos hp]
      constructor
      · intro k
        rcases Nat.lt_trichotomy k n with h | h | h
        · have h1 : k < n + 1 := by omega
          rw [Nat.add_comm, Nat.testBit_two_pow_add_gt h, ih k]
          simp [h, h1]
        · subst h
          rw [Nat.add_comm, Nat.testBit_two_pow_add_eq, ih k]
          simp [hp]
        · have h1 : x + 2 ^ n < 2 ^ k :=
            Nat.lt_of_lt_of_le (by rw [Nat.pow_succ]; omega : x + 2 ^ n < 2 ^ (n + 1)) (Nat.pow_le_pow_right (by omega) h)
          rw [Nat.testBit_lt_two_pow h1]
          have h2 : ¬ k < n + 1 := by omega
          simp [h2]
      · rw [Nat.pow_succ]; omega
    · rw [if_neg hp]
      refine ⟨fun k => ?_, by rw [Nat.pow_succ]; omega⟩
      rw [ih k]
      by_cases hk : k = n
      · subst hk; simp [hp]
      · have : (k < n + 1) ↔ k < n := by omega
        simp [this]

theorem getLsbD_maskOf (p : Nat → Bool) (k : Nat) : (maskOf p).getLsbD k = (decide (k < 64) && p k) := by
  unfold maskOf
  rw [BitVec.getLsbD_ofNat, (maskSum_testBit p 64).1 k]
  by_cases h : k < 64 <;> simp [h]

theorem getLsbD_laneBit (i k : Nat) : (laneBit i).getLsbD k = (decide (k < 64) && decide (i = k)) := by
  unfold laneBit
  rw [BitVec.getLsbD_ofNat, Nat.testBit_two_pow]

theorem getLsbD_setBit (m : Mask) (lane : Nat) (b : Bool) (k : Nat) (h : k < 64) :
    (setBit m lane b).getLsbD k = if k = lane then b else m.getLsbD k := by
  have hl := getLsbD_laneBit lane k
  by_cases hk : k = lane
  · subst hk
    simp only [h, decide_true, Bool.and_self] at hl
    cases b <;> simp [setBit, BitVec.getLsbD_or, BitVec.getLsbD_and, BitVec.getLsbD_not, hl]
  · have h2 : ¬ lane = k := fun h3 => hk h3.symm
    simp only [h2, decide_false, Bool.and_false] at hl
    rw [if_neg hk]
    cases b
    · rw [setBit, if_neg Bool.false_ne_true, BitVec.getLsbD_and, BitVec.getLsbD_not, hl]
      simp [h]
    · rw [setBit, if_pos rfl, BitVec.getLsbD_or, hl, Bool.or_false]

/-! ### Bytes -/

@[simp] theorem length_natToBytes (v n : Nat) : (natToBytes v n).length = n := by
  induction n generalizing v with
  | zero => rfl
  | succ n ih => simp [natToBytes, ih]

theorem bytesToNat_natToBytes (v n : Nat) : bytesToNat (natToBytes v n) = v % 256 ^ n := by
  induction n generalizing v with
  | zero => simp [natToBytes, bytesToNat, Nat.mod_one]
  | succ n ih =>
    have h : 256 ^ (n + 1) = 256 * 256 ^ n := by rw [Nat.pow_succ, Nat.mul_comm]
    rw [natToBytes, bytesToNat, ih, BitVec.toNat_ofNat, h, Nat.mod_mul]

theorem bitsOf_lt (n lo w : Nat) : bitsOf n lo w < 2 ^ w := Nat.mod_lt _ (Nat.two_pow_pos w)

theorem bitsOf_eq (n lo w : Nat) : bitsOf n lo w = n / 2 ^ lo % 2 ^ w := by
  rw [bitsOf, Nat.shiftRight_eq_div_pow]

end Sys2Proof.Machine
end

