-- ==== Sys2Proof/Laws/Tab.lean ====
section
/-!
SUPPORT. What the table and memory operations do, said once: reads after writes, and the order and the one form they
keep.
-/

namespace Sys2Proof.Machine

/-! ### Reads after writes -/

@[simp] theorem Tab.get?_nil {α : Type} (k : Nat) : Tab.get? ([] : Tab α) k = none := rfl

theorem Tab.get?_cons {α : Type} (e : Nat × α) (t : Tab α) (k : Nat) :
    Tab.get? (e :: t) k = if e.1 = k then some e.2 else Tab.get? t k := rfl

theorem Tab.get?_set {α : Type} (t : Tab α) (k j : Nat) (x : α) :
    Tab.get? (Tab.set t k x) j = if j = k then some x else Tab.get? t j := by
  induction t with
  | nil => by_cases h : k = j <;> simp [Tab.set, Tab.get?_cons, h, eq_comm]
  | cons e t ih =>
    obtain ⟨n, y⟩ := e
    simp only [Tab.set]
    split
    · by_cases h : k = j <;> simp [Tab.get?_cons, h, eq_comm]
    · split
      · rename_i _ h
        subst h
        by_cases h : k = j <;> simp [Tab.get?_cons, h, eq_comm]
      · rename_i _ h
        by_cases h1 : n = j
        · subst h1
          have : ¬ n = k := fun h2 => h h2.symm
          simp [Tab.get?_cons, this]
        · simp [Tab.get?_cons, h1, ih]

@[simp] theorem Tab.get?_set_same {α : Type} (t : Tab α) (k : Nat) (x : α) : Tab.get? (Tab.set t k x) k = some x := by
  simp [Tab.get?_set]

theorem Tab.get?_set_ne {α : Type} (t : Tab α) {k j : Nat} (x : α) (h : j ≠ k) :
    Tab.get? (Tab.set t k x) j = Tab.get? t j := by
  simp [Tab.get?_set, h]

theorem Tab.get?_del {α : Type} (t : Tab α) (k j : Nat) :
    Tab.get? (Tab.del t k) j = if j = k then none else Tab.get? t j := by
  induction t with
  | nil => simp [Tab.del]
  | cons e t ih =>
    obtain ⟨n, y⟩ := e
    have hd : Tab.del ((n, y) :: t) k = if n = k then Tab.del t k else (n, y) :: Tab.del t k := by
      by_cases h : n = k <;> simp [Tab.del, h]
    rw [hd]
    by_cases h : n = k
    · subst h
      by_cases h1 : j = n
      · subst h1; simp [ih]
      · rw [if_pos rfl, ih, if_neg h1, if_neg h1, Tab.get?_cons, if_neg fun h2 => h1 h2.symm]
    · rw [if_neg h, Tab.get?_cons, Tab.get?_cons, ih]
      by_cases h1 : n = j
      · subst h1; simp [h]
      · simp [h1]

theorem Tab.get?_upd {α : Type} (t : Tab α) (k j : Nat) (f : α → α) :
    Tab.get? (Tab.upd t k f) j = if j = k then (Tab.get? t k).map f else Tab.get? t j := by
  induction t with
  | nil => simp [Tab.upd]
  | cons e t ih =>
    obtain ⟨n, y⟩ := e
    by_cases h : n = k
    · subst h
      by_cases h1 : n = j
      · subst h1; simp [Tab.upd, Tab.get?_cons]
      · have h2 : ¬ j = n := fun h3 => h1 h3.symm
        simp [Tab.upd, Tab.get?_cons, h1, h2]
    · simp only [Tab.upd, h, if_false, Tab.get?_cons, ih]
      by_cases h1 : n = j
      · subst h1; simp [h]
      · simp [h1]

theorem Tab.get?_mapVals {α β : Type} (t : Tab α) (f : Nat → α → β) (k : Nat) :
    Tab.get? (Tab.mapVals t f) k = (Tab.get? t k).map (f k) := by
  induction t with
  | nil => rfl
  | cons e t ih =>
    obtain ⟨n, y⟩ := e
    have hc : Tab.mapVals ((n, y) :: t) f = (n, f n y) :: Tab.mapVals t f := rfl
    rw [hc, Tab.get?_cons, Tab.get?_cons, ih]
    by_cases h : n = k
    · subst h; simp
    · simp [h]

theorem Tab.getD_set {α : Type} (t : Tab α) (k j : Nat) (x d : α) :
    Tab.getD (Tab.set t k x) j d = if j = k then x else Tab.getD t j d := by
  unfold Tab.getD
  rw [Tab.get?_set]
  split <;> rfl

theorem Tab.has_set {α : Type} (t : Tab α) (k j : Nat) (x : α) :
    Tab.has (Tab.set t k x) j = (decide (j = k) || Tab.has t j) := by
  unfold Tab.has
  rw [Tab.get?_set]
  by_cases h : j = k <;> simp [h]

theorem Tab.get?_mem {α : Type} {t : Tab α} {k : Nat} {x : α} (h : Tab.get? t k = some x) : (k, x) ∈ t := by
  induction t with
  | nil => simp at h
  | cons e t ih =>
    rw [Tab.get?_cons] at h
    split at h
    · rename_i h1
      subst h1
      obtain ⟨n, y⟩ := e
      simp_all
    · exact List.mem_cons_of_mem _ (ih h)

/-! ### Order -/

/-- The numbers of the tail of a sorted table are above its first. -/
theorem Tab.sorted_cons {α : Type} (n : Nat) (y : α) (t : Tab α) :
    Tab.sorted ((n, y) :: t) = true ↔ (∀ e ∈ t, n < e.1) ∧ Tab.sorted t = true := by
  induction t generalizing n y with
  | nil => simp [Tab.sorted]
  | cons e t ih =>
    obtain ⟨m, z⟩ := e
    simp only [Tab.sorted, Bool.and_eq_true, decide_eq_true_eq]
    rw [ih m z]
    constructor
    · rintro ⟨h, h1, h2⟩
      refine ⟨fun e he => ?_, h1, h2⟩
      rcases List.mem_cons.1 he with h3 | h3
      · subst h3; exact h
      · exact Nat.lt_trans h (h1 e h3)
    · rintro ⟨h, h1, h2⟩
      exact ⟨h (m, z) (List.mem_cons_self ..), h1, h2⟩

theorem Tab.mem_set {α : Type} {t : Tab α} {k : Nat} {x : α} {e : Nat × α} (h : e ∈ Tab.set t k x) :
    e = (k, x) ∨ e ∈ t := by
  induction t with
  | nil => simpa [Tab.set] using h
  | cons a t ih =>
    obtain ⟨n, y⟩ := a
    simp only [Tab.set] at h
    split at h
    · simpa using h
    · split at h
      · rcases List.mem_cons.1 h with h1 | h1
        · exact .inl h1
        · exact .inr (List.mem_cons_of_mem _ h1)
      · rcases List.mem_cons.1 h with h1 | h1
        · exact .inr (h1 ▸ List.mem_cons_self ..)
        · rcases ih h1 with h2 | h2
          · exact .inl h2
          · exact .inr (List.mem_cons_of_mem _ h2)

theorem Tab.sorted_set {α : Type} {t : Tab α} (k : Nat) (x : α) (h : Tab.sorted t = true) :
    Tab.sorted (Tab.set t k x) = true := by
  induction t with
  | nil => rfl
  | cons a t ih =>
    obtain ⟨n, y⟩ := a
    have h0 := (Tab.sorted_cons n y t).1 h
    simp only [Tab.set]
    split
    · rename_i h1
      refine (Tab.sorted_cons k x _).2 ⟨fun e he => ?_, h⟩
      rcases List.mem_cons.1 he with h2 | h2
      · subst h2; exact h1
      · exact Nat.lt_trans h1 (h0.1 e h2)
    · split
      · rename_i h1
        subst h1
        exact (Tab.sorted_cons k x t).2 h0
      · rename_i h1 h2
        refine (Tab.sorted_cons n y _).2 ⟨fun e he => ?_, ih h0.2⟩
        rcases Tab.mem_set he with h3 | h3
        · subst h3; simp only; omega
        · exact h0.1 e h3

theorem Tab.sorted_filter {α : Type} {t : Tab α} (p : Nat × α → Bool) (h : Tab.sorted t = true) :
    Tab.sorted (t.filter p) = true := by
  induction t with
  | nil => rfl
  | cons a t ih =>
    obtain ⟨n, y⟩ := a
    have h0 := (Tab.sorted_cons n y t).1 h
    by_cases hp : p (n, y) = true
    · rw [List.filter_cons_of_pos hp]
      exact (Tab.sorted_cons n y _).2 ⟨fun e he => h0.1 e (List.mem_filter.1 he).1, ih h0.2⟩
    · rw [List.filter_cons_of_neg hp]
      exact ih h0.2

theorem Tab.sorted_del {α : Type} {t : Tab α} (k : Nat) (h : Tab.sorted t = true) : Tab.sorted (Tab.del t k) = true :=
  Tab.sorted_filter _ h

theorem Tab.sorted_keep {α : Type} {t : Tab α} (p : Nat → α → Bool) (h : Tab.sorted t = true) :
    Tab.sorted (Tab.keep t p) = true :=
  Tab.sorted_filter _ h

/-- In a sorted table an entry is what its number reads as. -/
theorem Tab.get?_of_mem {α : Type} {t : Tab α} {k : Nat} {x : α} (h : Tab.sorted t = true) (hm : (k, x) ∈ t) :
    Tab.get? t k = some x := by
  induction t with
  | nil => simp at hm
  | cons a t ih =>
    obtain ⟨n, y⟩ := a
    have h0 := (Tab.sorted_cons n y t).1 h
    rw [Tab.get?_cons]
    rcases List.mem_cons.1 hm with h1 | h1
    · cases h1; simp
    · have : n < k := h0.1 _ h1
      simp [Nat.ne_of_lt this, ih h0.2 h1]

/-! ### Memory -/

theorem memRead_memWrite (d : Byte) (m : Tab Byte) (a b : Nat) (x : Byte) :
    memRead d (memWrite d m a x) b = if b = a then x else memRead d m b := by
  unfold memRead memWrite
  split
  · rename_i h
    unfold Tab.getD
    rw [Tab.get?_del]
    split
    · simp [h]
    · rfl
  · exact Tab.getD_set m a b x d

theorem memRead_memWriteBytes (d : Byte) (m : Tab Byte) (a b : Nat) (xs : List Byte) :
    memRead d (memWriteBytes d m a xs) b = if a ≤ b ∧ b < a + xs.length then xs.getD (b - a) d else memRead d m b := by
  induction xs generalizing m a with
  | nil =>
    rw [memWriteBytes, if_neg]
    simp only [List.length_nil]
    omega
  | cons x xs ih =>
    rw [memWriteBytes, ih, memRead_memWrite]
    simp only [List.length_cons]
    by_cases h : b = a
    · subst h
      have h1 : ¬ (b + 1 ≤ b ∧ b < b + 1 + xs.length) := by omega
      have h2 : b ≤ b ∧ b < b + (xs.length + 1) := by omega
      rw [if_neg h1, if_pos rfl, if_pos h2]
      simp
    · by_cases h1 : a + 1 ≤ b ∧ b < a + 1 + xs.length
      · have h2 : a ≤ b ∧ b < a + (xs.length + 1) := by omega
        have h3 : b - a = b - (a + 1) + 1 := by omega
        rw [if_pos h1, if_pos h2, h3, List.getD_cons_succ]
      · have h2 : ¬ (a ≤ b ∧ b < a + (xs.length + 1)) := by omega
        rw [if_neg h1, if_neg h, if_neg h2]

/-- A write of a byte keeps the one form of a memory. -/
theorem memWf_memWrite {d : Byte} {m : Tab Byte} (a : Nat) (x : Byte) (h : memWf d m = true) :
    memWf d (memWrite d m a x) = true := by
  simp only [memWf, Bool.and_eq_true, List.all_eq_true] at h ⊢
  unfold memWrite
  split
  · exact ⟨Tab.sorted_del a h.1, fun e he => h.2 e (List.mem_filter.1 he).1⟩
  · rename_i hx
    refine ⟨Tab.sorted_set a x h.1, fun e he => ?_⟩
    rcases Tab.mem_set he with h1 | h1
    · subst h1; simpa using hx
    · exact h.2 e h1

theorem memWf_memWriteBytes {d : Byte} {m : Tab Byte} (a : Nat) (xs : List Byte) (h : memWf d m = true) :
    memWf d (memWriteBytes d m a xs) = true := by
  induction xs generalizing m a with
  | nil => exact h
  | cons x xs ih => exact ih (a + 1) (memWf_memWrite a x h)

end Sys2Proof.Machine
end

