-- ==== Sys2Proof/Laws/State.lean ====
section
/-!
SUPPORT. What each named update of the state and of a group does to each field, true by unfolding.
-/

namespace Sys2Proof.Machine

/-! ### Updates of the state -/

@[simp] theorem State.setGroup_now (s : State) (gid : Nat) (g : Group) : (s.setGroup gid g).now = s.now := rfl
@[simp] theorem State.setGroup_free (s : State) (gid : Nat) (g : Group) : (s.setGroup gid g).free = s.free := rfl
@[simp] theorem State.setGroup_nextId (s : State) (gid : Nat) (g : Group) : (s.setGroup gid g).nextId = s.nextId := rfl
@[simp] theorem State.setGroup_turnCount (s : State) (gid : Nat) (g : Group) : (s.setGroup gid g).turnCount =
    s.turnCount := rfl
@[simp] theorem State.setGroup_turns (s : State) (gid : Nat) (g : Group) : (s.setGroup gid g).turns = s.turns := rfl
@[simp] theorem State.setGroup_cur (s : State) (gid : Nat) (g : Group) : (s.setGroup gid g).cur = s.cur := rfl
@[simp] theorem State.setGroup_waited (s : State) (gid : Nat) (g : Group) : (s.setGroup gid g).waited = s.waited := rfl
@[simp] theorem State.setGroup_bad (s : State) (gid : Nat) (g : Group) : (s.setGroup gid g).bad = s.bad := rfl
@[simp] theorem State.setGroup_retained (s : State) (gid : Nat) (g : Group) : (s.setGroup gid g).retained =
    s.retained := rfl
@[simp] theorem State.setGroup_touched (s : State) (gid : Nat) (g : Group) : (s.setGroup gid g).touched =
    s.touched := rfl
@[simp] theorem State.setGroup_views (s : State) (gid : Nat) (g : Group) : (s.setGroup gid g).views = s.views := rfl
@[simp] theorem State.setGroup_hbm (s : State) (gid : Nat) (g : Group) : (s.setGroup gid g).hbm = s.hbm := rfl
@[simp] theorem State.setGroup_groups (s : State) (gid : Nat) (g : Group) : (s.setGroup gid g).groups =
    Tab.set s.groups gid g := rfl
@[simp] theorem State.setGroup_slices (s : State) (gid : Nat) (g : Group) : (s.setGroup gid g).slices = s.slices := rfl
@[simp] theorem State.setGroup_cores (s : State) (gid : Nat) (g : Group) : (s.setGroup gid g).cores = s.cores := rfl
@[simp] theorem State.setGroup_clusters (s : State) (gid : Nat) (g : Group) : (s.setGroup gid g).clusters =
    s.clusters := rfl
@[simp] theorem State.setGroup_dies (s : State) (gid : Nat) (g : Group) : (s.setGroup gid g).dies = s.dies := rfl
@[simp] theorem State.setGroup_tiles (s : State) (gid : Nat) (g : Group) : (s.setGroup gid g).tiles = s.tiles := rfl
@[simp] theorem State.setGroup_kennel (s : State) (gid : Nat) (g : Group) : (s.setGroup gid g).kennel = s.kennel := rfl
@[simp] theorem State.setGroup_ops (s : State) (gid : Nat) (g : Group) : (s.setGroup gid g).ops = s.ops := rfl
@[simp] theorem State.setGroup_work (s : State) (gid : Nat) (g : Group) : (s.setGroup gid g).work = s.work := rfl
@[simp] theorem State.setGroup_hub (s : State) (gid : Nat) (g : Group) : (s.setGroup gid g).hub = s.hub := rfl
@[simp] theorem State.setGroup_ports (s : State) (gid : Nat) (g : Group) : (s.setGroup gid g).ports = s.ports := rfl

@[simp] theorem State.updGroup_now (s : State) (gid : Nat) (f : Group → Group) : (s.updGroup gid f).now = s.now := rfl
@[simp] theorem State.updGroup_free (s : State) (gid : Nat) (f : Group → Group) : (s.updGroup gid f).free =
    s.free := rfl
@[simp] theorem State.updGroup_nextId (s : State) (gid : Nat) (f : Group → Group) : (s.updGroup gid f).nextId =
    s.nextId := rfl
@[simp] theorem State.updGroup_turnCount (s : State) (gid : Nat) (f : Group → Group) : (s.updGroup gid f).turnCount =
    s.turnCount := rfl
@[simp] theorem State.updGroup_turns (s : State) (gid : Nat) (f : Group → Group) : (s.updGroup gid f).turns =
    s.turns := rfl
@[simp] theorem State.updGroup_cur (s : State) (gid : Nat) (f : Group → Group) : (s.updGroup gid f).cur = s.cur := rfl
@[simp] theorem State.updGroup_waited (s : State) (gid : Nat) (f : Group → Group) : (s.updGroup gid f).waited =
    s.waited := rfl
@[simp] theorem State.updGroup_bad (s : State) (gid : Nat) (f : Group → Group) : (s.updGroup gid f).bad = s.bad := rfl
@[simp] theorem State.updGroup_retained (s : State) (gid : Nat) (f : Group → Group) : (s.updGroup gid f).retained =
    s.retained := rfl
@[simp] theorem State.updGroup_touched (s : State) (gid : Nat) (f : Group → Group) : (s.updGroup gid f).touched =
    s.touched := rfl
@[simp] theorem State.updGroup_views (s : State) (gid : Nat) (f : Group → Group) : (s.updGroup gid f).views =
    s.views := rfl
@[simp] theorem State.updGroup_hbm (s : State) (gid : Nat) (f : Group → Group) : (s.updGroup gid f).hbm = s.hbm := rfl
@[simp] theorem State.updGroup_groups (s : State) (gid : Nat) (f : Group → Group) : (s.updGroup gid f).groups =
    Tab.upd s.groups gid f := rfl
@[simp] theorem State.updGroup_slices (s : State) (gid : Nat) (f : Group → Group) : (s.updGroup gid f).slices =
    s.slices := rfl
@[simp] theorem State.updGroup_cores (s : State) (gid : Nat) (f : Group → Group) : (s.updGroup gid f).cores =
    s.cores := rfl
@[simp] theorem State.updGroup_clusters (s : State) (gid : Nat) (f : Group → Group) : (s.updGroup gid f).clusters =
    s.clusters := rfl
@[simp] theorem State.updGroup_dies (s : State) (gid : Nat) (f : Group → Group) : (s.updGroup gid f).dies =
    s.dies := rfl
@[simp] theorem State.updGroup_tiles (s : State) (gid : Nat) (f : Group → Group) : (s.updGroup gid f).tiles =
    s.tiles := rfl
@[simp] theorem State.updGroup_kennel (s : State) (gid : Nat) (f : Group → Group) : (s.updGroup gid f).kennel =
    s.kennel := rfl
@[simp] theorem State.updGroup_ops (s : State) (gid : Nat) (f : Group → Group) : (s.updGroup gid f).ops = s.ops := rfl
@[simp] theorem State.updGroup_work (s : State) (gid : Nat) (f : Group → Group) : (s.updGroup gid f).work =
    s.work := rfl
@[simp] theorem State.updGroup_hub (s : State) (gid : Nat) (f : Group → Group) : (s.updGroup gid f).hub = s.hub := rfl
@[simp] theorem State.updGroup_ports (s : State) (gid : Nat) (f : Group → Group) : (s.updGroup gid f).ports =
    s.ports := rfl

@[simp] theorem State.setOps_now (s : State) (o : Ops) : (s.setOps o).now = s.now := rfl
@[simp] theorem State.setOps_free (s : State) (o : Ops) : (s.setOps o).free = s.free := rfl
@[simp] theorem State.setOps_nextId (s : State) (o : Ops) : (s.setOps o).nextId = s.nextId := rfl
@[simp] theorem State.setOps_turnCount (s : State) (o : Ops) : (s.setOps o).turnCount = s.turnCount := rfl
@[simp] theorem State.setOps_turns (s : State) (o : Ops) : (s.setOps o).turns = s.turns := rfl
@[simp] theorem State.setOps_cur (s : State) (o : Ops) : (s.setOps o).cur = s.cur := rfl
@[simp] theorem State.setOps_waited (s : State) (o : Ops) : (s.setOps o).waited = s.waited := rfl
@[simp] theorem State.setOps_bad (s : State) (o : Ops) : (s.setOps o).bad = s.bad := rfl
@[simp] theorem State.setOps_retained (s : State) (o : Ops) : (s.setOps o).retained = s.retained := rfl
@[simp] theorem State.setOps_touched (s : State) (o : Ops) : (s.setOps o).touched = s.touched := rfl
@[simp] theorem State.setOps_views (s : State) (o : Ops) : (s.setOps o).views = s.views := rfl
@[simp] theorem State.setOps_hbm (s : State) (o : Ops) : (s.setOps o).hbm = s.hbm := rfl
@[simp] theorem State.setOps_groups (s : State) (o : Ops) : (s.setOps o).groups = s.groups := rfl
@[simp] theorem State.setOps_slices (s : State) (o : Ops) : (s.setOps o).slices = s.slices := rfl
@[simp] theorem State.setOps_cores (s : State) (o : Ops) : (s.setOps o).cores = s.cores := rfl
@[simp] theorem State.setOps_clusters (s : State) (o : Ops) : (s.setOps o).clusters = s.clusters := rfl
@[simp] theorem State.setOps_dies (s : State) (o : Ops) : (s.setOps o).dies = s.dies := rfl
@[simp] theorem State.setOps_tiles (s : State) (o : Ops) : (s.setOps o).tiles = s.tiles := rfl
@[simp] theorem State.setOps_kennel (s : State) (o : Ops) : (s.setOps o).kennel = s.kennel := rfl
@[simp] theorem State.setOps_ops (s : State) (o : Ops) : (s.setOps o).ops = o := rfl
@[simp] theorem State.setOps_work (s : State) (o : Ops) : (s.setOps o).work = s.work := rfl
@[simp] theorem State.setOps_hub (s : State) (o : Ops) : (s.setOps o).hub = s.hub := rfl
@[simp] theorem State.setOps_ports (s : State) (o : Ops) : (s.setOps o).ports = s.ports := rfl

@[simp] theorem State.setWork_now (s : State) (w : Work) : (s.setWork w).now = s.now := rfl
@[simp] theorem State.setWork_free (s : State) (w : Work) : (s.setWork w).free = s.free := rfl
@[simp] theorem State.setWork_nextId (s : State) (w : Work) : (s.setWork w).nextId = s.nextId := rfl
@[simp] theorem State.setWork_turnCount (s : State) (w : Work) : (s.setWork w).turnCount = s.turnCount := rfl
@[simp] theorem State.setWork_turns (s : State) (w : Work) : (s.setWork w).turns = s.turns := rfl
@[simp] theorem State.setWork_cur (s : State) (w : Work) : (s.setWork w).cur = s.cur := rfl
@[simp] theorem State.setWork_waited (s : State) (w : Work) : (s.setWork w).waited = s.waited := rfl
@[simp] theorem State.setWork_bad (s : State) (w : Work) : (s.setWork w).bad = s.bad := rfl
@[simp] theorem State.setWork_retained (s : State) (w : Work) : (s.setWork w).retained = s.retained := rfl
@[simp] theorem State.setWork_touched (s : State) (w : Work) : (s.setWork w).touched = s.touched := rfl
@[simp] theorem State.setWork_views (s : State) (w : Work) : (s.setWork w).views = s.views := rfl
@[simp] theorem State.setWork_hbm (s : State) (w : Work) : (s.setWork w).hbm = s.hbm := rfl
@[simp] theorem State.setWork_groups (s : State) (w : Work) : (s.setWork w).groups = s.groups := rfl
@[simp] theorem State.setWork_slices (s : State) (w : Work) : (s.setWork w).slices = s.slices := rfl
@[simp] theorem State.setWork_cores (s : State) (w : Work) : (s.setWork w).cores = s.cores := rfl
@[simp] theorem State.setWork_clusters (s : State) (w : Work) : (s.setWork w).clusters = s.clusters := rfl
@[simp] theorem State.setWork_dies (s : State) (w : Work) : (s.setWork w).dies = s.dies := rfl
@[simp] theorem State.setWork_tiles (s : State) (w : Work) : (s.setWork w).tiles = s.tiles := rfl
@[simp] theorem State.setWork_kennel (s : State) (w : Work) : (s.setWork w).kennel = s.kennel := rfl
@[simp] theorem State.setWork_ops (s : State) (w : Work) : (s.setWork w).ops = s.ops := rfl
@[simp] theorem State.setWork_work (s : State) (w : Work) : (s.setWork w).work = w := rfl
@[simp] theorem State.setWork_hub (s : State) (w : Work) : (s.setWork w).hub = s.hub := rfl
@[simp] theorem State.setWork_ports (s : State) (w : Work) : (s.setWork w).ports = s.ports := rfl

@[simp] theorem State.setKennel_now (s : State) (k : Kennel) : (s.setKennel k).now = s.now := rfl
@[simp] theorem State.setKennel_free (s : State) (k : Kennel) : (s.setKennel k).free = s.free := rfl
@[simp] theorem State.setKennel_nextId (s : State) (k : Kennel) : (s.setKennel k).nextId = s.nextId := rfl
@[simp] theorem State.setKennel_turnCount (s : State) (k : Kennel) : (s.setKennel k).turnCount = s.turnCount := rfl
@[simp] theorem State.setKennel_turns (s : State) (k : Kennel) : (s.setKennel k).turns = s.turns := rfl
@[simp] theorem State.setKennel_cur (s : State) (k : Kennel) : (s.setKennel k).cur = s.cur := rfl
@[simp] theorem State.setKennel_waited (s : State) (k : Kennel) : (s.setKennel k).waited = s.waited := rfl
@[simp] theorem State.setKennel_bad (s : State) (k : Kennel) : (s.setKennel k).bad = s.bad := rfl
@[simp] theorem State.setKennel_retained (s : State) (k : Kennel) : (s.setKennel k).retained = s.retained := rfl
@[simp] theorem State.setKennel_touched (s : State) (k : Kennel) : (s.setKennel k).touched = s.touched := rfl
@[simp] theorem State.setKennel_views (s : State) (k : Kennel) : (s.setKennel k).views = s.views := rfl
@[simp] theorem State.setKennel_hbm (s : State) (k : Kennel) : (s.setKennel k).hbm = s.hbm := rfl
@[simp] theorem State.setKennel_groups (s : State) (k : Kennel) : (s.setKennel k).groups = s.groups := rfl
@[simp] theorem State.setKennel_slices (s : State) (k : Kennel) : (s.setKennel k).slices = s.slices := rfl
@[simp] theorem State.setKennel_cores (s : State) (k : Kennel) : (s.setKennel k).cores = s.cores := rfl
@[simp] theorem State.setKennel_clusters (s : State) (k : Kennel) : (s.setKennel k).clusters = s.clusters := rfl
@[simp] theorem State.setKennel_dies (s : State) (k : Kennel) : (s.setKennel k).dies = s.dies := rfl
@[simp] theorem State.setKennel_tiles (s : State) (k : Kennel) : (s.setKennel k).tiles = s.tiles := rfl
@[simp] theorem State.setKennel_kennel (s : State) (k : Kennel) : (s.setKennel k).kennel = k := rfl
@[simp] theorem State.setKennel_ops (s : State) (k : Kennel) : (s.setKennel k).ops = s.ops := rfl
@[simp] theorem State.setKennel_work (s : State) (k : Kennel) : (s.setKennel k).work = s.work := rfl
@[simp] theorem State.setKennel_hub (s : State) (k : Kennel) : (s.setKennel k).hub = s.hub := rfl
@[simp] theorem State.setKennel_ports (s : State) (k : Kennel) : (s.setKennel k).ports = s.ports := rfl

@[simp] theorem State.setHub_now (s : State) (h : Hub) : (s.setHub h).now = s.now := rfl
@[simp] theorem State.setHub_free (s : State) (h : Hub) : (s.setHub h).free = s.free := rfl
@[simp] theorem State.setHub_nextId (s : State) (h : Hub) : (s.setHub h).nextId = s.nextId := rfl
@[simp] theorem State.setHub_turnCount (s : State) (h : Hub) : (s.setHub h).turnCount = s.turnCount := rfl
@[simp] theorem State.setHub_turns (s : State) (h : Hub) : (s.setHub h).turns = s.turns := rfl
@[simp] theorem State.setHub_cur (s : State) (h : Hub) : (s.setHub h).cur = s.cur := rfl
@[simp] theorem State.setHub_waited (s : State) (h : Hub) : (s.setHub h).waited = s.waited := rfl
@[simp] theorem State.setHub_bad (s : State) (h : Hub) : (s.setHub h).bad = s.bad := rfl
@[simp] theorem State.setHub_retained (s : State) (h : Hub) : (s.setHub h).retained = s.retained := rfl
@[simp] theorem State.setHub_touched (s : State) (h : Hub) : (s.setHub h).touched = s.touched := rfl
@[simp] theorem State.setHub_views (s : State) (h : Hub) : (s.setHub h).views = s.views := rfl
@[simp] theorem State.setHub_hbm (s : State) (h : Hub) : (s.setHub h).hbm = s.hbm := rfl
@[simp] theorem State.setHub_groups (s : State) (h : Hub) : (s.setHub h).groups = s.groups := rfl
@[simp] theorem State.setHub_slices (s : State) (h : Hub) : (s.setHub h).slices = s.slices := rfl
@[simp] theorem State.setHub_cores (s : State) (h : Hub) : (s.setHub h).cores = s.cores := rfl
@[simp] theorem State.setHub_clusters (s : State) (h : Hub) : (s.setHub h).clusters = s.clusters := rfl
@[simp] theorem State.setHub_dies (s : State) (h : Hub) : (s.setHub h).dies = s.dies := rfl
@[simp] theorem State.setHub_tiles (s : State) (h : Hub) : (s.setHub h).tiles = s.tiles := rfl
@[simp] theorem State.setHub_kennel (s : State) (h : Hub) : (s.setHub h).kennel = s.kennel := rfl
@[simp] theorem State.setHub_ops (s : State) (h : Hub) : (s.setHub h).ops = s.ops := rfl
@[simp] theorem State.setHub_work (s : State) (h : Hub) : (s.setHub h).work = s.work := rfl
@[simp] theorem State.setHub_hub (s : State) (h : Hub) : (s.setHub h).hub = h := rfl
@[simp] theorem State.setHub_ports (s : State) (h : Hub) : (s.setHub h).ports = s.ports := rfl

@[simp] theorem State.updCore_now (s : State) (c : Nat) (f : Core → Core) : (s.updCore c f).now = s.now := rfl
@[simp] theorem State.updCore_free (s : State) (c : Nat) (f : Core → Core) : (s.updCore c f).free = s.free := rfl
@[simp] theorem State.updCore_nextId (s : State) (c : Nat) (f : Core → Core) : (s.updCore c f).nextId = s.nextId := rfl
@[simp] theorem State.updCore_turnCount (s : State) (c : Nat) (f : Core → Core) : (s.updCore c f).turnCount =
    s.turnCount := rfl
@[simp] theorem State.updCore_turns (s : State) (c : Nat) (f : Core → Core) : (s.updCore c f).turns = s.turns := rfl
@[simp] theorem State.updCore_cur (s : State) (c : Nat) (f : Core → Core) : (s.updCore c f).cur = s.cur := rfl
@[simp] theorem State.updCore_waited (s : State) (c : Nat) (f : Core → Core) : (s.updCore c f).waited = s.waited := rfl
@[simp] theorem State.updCore_bad (s : State) (c : Nat) (f : Core → Core) : (s.updCore c f).bad = s.bad := rfl
@[simp] theorem State.updCore_retained (s : State) (c : Nat) (f : Core → Core) : (s.updCore c f).retained =
    s.retained := rfl
@[simp] theorem State.updCore_touched (s : State) (c : Nat) (f : Core → Core) : (s.updCore c f).touched =
    s.touched := rfl
@[simp] theorem State.updCore_views (s : State) (c : Nat) (f : Core → Core) : (s.updCore c f).views = s.views := rfl
@[simp] theorem State.updCore_hbm (s : State) (c : Nat) (f : Core → Core) : (s.updCore c f).hbm = s.hbm := rfl
@[simp] theorem State.updCore_groups (s : State) (c : Nat) (f : Core → Core) : (s.updCore c f).groups = s.groups := rfl
@[simp] theorem State.updCore_slices (s : State) (c : Nat) (f : Core → Core) : (s.updCore c f).slices = s.slices := rfl
@[simp] theorem State.updCore_cores (s : State) (c : Nat) (f : Core → Core) : (s.updCore c f).cores =
    Tab.upd s.cores c f := rfl
@[simp] theorem State.updCore_clusters (s : State) (c : Nat) (f : Core → Core) : (s.updCore c f).clusters =
    s.clusters := rfl
@[simp] theorem State.updCore_dies (s : State) (c : Nat) (f : Core → Core) : (s.updCore c f).dies = s.dies := rfl
@[simp] theorem State.updCore_tiles (s : State) (c : Nat) (f : Core → Core) : (s.updCore c f).tiles = s.tiles := rfl
@[simp] theorem State.updCore_kennel (s : State) (c : Nat) (f : Core → Core) : (s.updCore c f).kennel = s.kennel := rfl
@[simp] theorem State.updCore_ops (s : State) (c : Nat) (f : Core → Core) : (s.updCore c f).ops = s.ops := rfl
@[simp] theorem State.updCore_work (s : State) (c : Nat) (f : Core → Core) : (s.updCore c f).work = s.work := rfl
@[simp] theorem State.updCore_hub (s : State) (c : Nat) (f : Core → Core) : (s.updCore c f).hub = s.hub := rfl
@[simp] theorem State.updCore_ports (s : State) (c : Nat) (f : Core → Core) : (s.updCore c f).ports = s.ports := rfl

@[simp] theorem State.updSlice_now (s : State) (i : Nat) (f : Slice → Slice) : (s.updSlice i f).now = s.now := rfl
@[simp] theorem State.updSlice_free (s : State) (i : Nat) (f : Slice → Slice) : (s.updSlice i f).free = s.free := rfl
@[simp] theorem State.updSlice_nextId (s : State) (i : Nat) (f : Slice → Slice) : (s.updSlice i f).nextId =
    s.nextId := rfl
@[simp] theorem State.updSlice_turnCount (s : State) (i : Nat) (f : Slice → Slice) : (s.updSlice i f).turnCount =
    s.turnCount := rfl
@[simp] theorem State.updSlice_turns (s : State) (i : Nat) (f : Slice → Slice) : (s.updSlice i f).turns = s.turns := rfl
@[simp] theorem State.updSlice_cur (s : State) (i : Nat) (f : Slice → Slice) : (s.updSlice i f).cur = s.cur := rfl
@[simp] theorem State.updSlice_waited (s : State) (i : Nat) (f : Slice → Slice) : (s.updSlice i f).waited =
    s.waited := rfl
@[simp] theorem State.updSlice_bad (s : State) (i : Nat) (f : Slice → Slice) : (s.updSlice i f).bad = s.bad := rfl
@[simp] theorem State.updSlice_retained (s : State) (i : Nat) (f : Slice → Slice) : (s.updSlice i f).retained =
    s.retained := rfl
@[simp] theorem State.updSlice_touched (s : State) (i : Nat) (f : Slice → Slice) : (s.updSlice i f).touched =
    s.touched := rfl
@[simp] theorem State.updSlice_views (s : State) (i : Nat) (f : Slice → Slice) : (s.updSlice i f).views = s.views := rfl
@[simp] theorem State.updSlice_hbm (s : State) (i : Nat) (f : Slice → Slice) : (s.updSlice i f).hbm = s.hbm := rfl
@[simp] theorem State.updSlice_groups (s : State) (i : Nat) (f : Slice → Slice) : (s.updSlice i f).groups =
    s.groups := rfl
@[simp] theorem State.updSlice_slices (s : State) (i : Nat) (f : Slice → Slice) : (s.updSlice i f).slices =
    Tab.upd s.slices i f := rfl
@[simp] theorem State.updSlice_cores (s : State) (i : Nat) (f : Slice → Slice) : (s.updSlice i f).cores = s.cores := rfl
@[simp] theorem State.updSlice_clusters (s : State) (i : Nat) (f : Slice → Slice) : (s.updSlice i f).clusters =
    s.clusters := rfl
@[simp] theorem State.updSlice_dies (s : State) (i : Nat) (f : Slice → Slice) : (s.updSlice i f).dies = s.dies := rfl
@[simp] theorem State.updSlice_tiles (s : State) (i : Nat) (f : Slice → Slice) : (s.updSlice i f).tiles = s.tiles := rfl
@[simp] theorem State.updSlice_kennel (s : State) (i : Nat) (f : Slice → Slice) : (s.updSlice i f).kennel =
    s.kennel := rfl
@[simp] theorem State.updSlice_ops (s : State) (i : Nat) (f : Slice → Slice) : (s.updSlice i f).ops = s.ops := rfl
@[simp] theorem State.updSlice_work (s : State) (i : Nat) (f : Slice → Slice) : (s.updSlice i f).work = s.work := rfl
@[simp] theorem State.updSlice_hub (s : State) (i : Nat) (f : Slice → Slice) : (s.updSlice i f).hub = s.hub := rfl
@[simp] theorem State.updSlice_ports (s : State) (i : Nat) (f : Slice → Slice) : (s.updSlice i f).ports = s.ports := rfl

@[simp] theorem State.updCluster_now (s : State) (c : Nat) (f : Cluster → Cluster) : (s.updCluster c f).now =
    s.now := rfl
@[simp] theorem State.updCluster_free (s : State) (c : Nat) (f : Cluster → Cluster) : (s.updCluster c f).free =
    s.free := rfl
@[simp] theorem State.updCluster_nextId (s : State) (c : Nat) (f : Cluster → Cluster) : (s.updCluster c f).nextId =
    s.nextId := rfl
@[simp] theorem State.updCluster_turnCount (s : State) (c : Nat) (f : Cluster → Cluster) : (s.updCluster c f).turnCount =
    s.turnCount := rfl
@[simp] theorem State.updCluster_turns (s : State) (c : Nat) (f : Cluster → Cluster) : (s.updCluster c f).turns =
    s.turns := rfl
@[simp] theorem State.updCluster_cur (s : State) (c : Nat) (f : Cluster → Cluster) : (s.updCluster c f).cur =
    s.cur := rfl
@[simp] theorem State.updCluster_waited (s : State) (c : Nat) (f : Cluster → Cluster) : (s.updCluster c f).waited =
    s.waited := rfl
@[simp] theorem State.updCluster_bad (s : State) (c : Nat) (f : Cluster → Cluster) : (s.updCluster c f).bad =
    s.bad := rfl
@[simp] theorem State.updCluster_retained (s : State) (c : Nat) (f : Cluster → Cluster) : (s.updCluster c f).retained =
    s.retained := rfl
@[simp] theorem State.updCluster_touched (s : State) (c : Nat) (f : Cluster → Cluster) : (s.updCluster c f).touched =
    s.touched := rfl
@[simp] theorem State.updCluster_views (s : State) (c : Nat) (f : Cluster → Cluster) : (s.updCluster c f).views =
    s.views := rfl
@[simp] theorem State.updCluster_hbm (s : State) (c : Nat) (f : Cluster → Cluster) : (s.updCluster c f).hbm =
    s.hbm := rfl
@[simp] theorem State.updCluster_groups (s : State) (c : Nat) (f : Cluster → Cluster) : (s.updCluster c f).groups =
    s.groups := rfl
@[simp] theorem State.updCluster_slices (s : State) (c : Nat) (f : Cluster → Cluster) : (s.updCluster c f).slices =
    s.slices := rfl
@[simp] theorem State.updCluster_cores (s : State) (c : Nat) (f : Cluster → Cluster) : (s.updCluster c f).cores =
    s.cores := rfl
@[simp] theorem State.updCluster_clusters (s : State) (c : Nat) (f : Cluster → Cluster) : (s.updCluster c f).clusters =
    Tab.upd s.clusters c f := rfl
@[simp] theorem State.updCluster_dies (s : State) (c : Nat) (f : Cluster → Cluster) : (s.updCluster c f).dies =
    s.dies := rfl
@[simp] theorem State.updCluster_tiles (s : State) (c : Nat) (f : Cluster → Cluster) : (s.updCluster c f).tiles =
    s.tiles := rfl
@[simp] theorem State.updCluster_kennel (s : State) (c : Nat) (f : Cluster → Cluster) : (s.updCluster c f).kennel =
    s.kennel := rfl
@[simp] theorem State.updCluster_ops (s : State) (c : Nat) (f : Cluster → Cluster) : (s.updCluster c f).ops =
    s.ops := rfl
@[simp] theorem State.updCluster_work (s : State) (c : Nat) (f : Cluster → Cluster) : (s.updCluster c f).work =
    s.work := rfl
@[simp] theorem State.updCluster_hub (s : State) (c : Nat) (f : Cluster → Cluster) : (s.updCluster c f).hub =
    s.hub := rfl
@[simp] theorem State.updCluster_ports (s : State) (c : Nat) (f : Cluster → Cluster) : (s.updCluster c f).ports =
    s.ports := rfl

@[simp] theorem State.updDie_now (s : State) (d : Nat) (f : Die → Die) : (s.updDie d f).now = s.now := rfl
@[simp] theorem State.updDie_free (s : State) (d : Nat) (f : Die → Die) : (s.updDie d f).free = s.free := rfl
@[simp] theorem State.updDie_nextId (s : State) (d : Nat) (f : Die → Die) : (s.updDie d f).nextId = s.nextId := rfl
@[simp] theorem State.updDie_turnCount (s : State) (d : Nat) (f : Die → Die) : (s.updDie d f).turnCount =
    s.turnCount := rfl
@[simp] theorem State.updDie_turns (s : State) (d : Nat) (f : Die → Die) : (s.updDie d f).turns = s.turns := rfl
@[simp] theorem State.updDie_cur (s : State) (d : Nat) (f : Die → Die) : (s.updDie d f).cur = s.cur := rfl
@[simp] theorem State.updDie_waited (s : State) (d : Nat) (f : Die → Die) : (s.updDie d f).waited = s.waited := rfl
@[simp] theorem State.updDie_bad (s : State) (d : Nat) (f : Die → Die) : (s.updDie d f).bad = s.bad := rfl
@[simp] theorem State.updDie_retained (s : State) (d : Nat) (f : Die → Die) : (s.updDie d f).retained =
    s.retained := rfl
@[simp] theorem State.updDie_touched (s : State) (d : Nat) (f : Die → Die) : (s.updDie d f).touched = s.touched := rfl
@[simp] theorem State.updDie_views (s : State) (d : Nat) (f : Die → Die) : (s.updDie d f).views = s.views := rfl
@[simp] theorem State.updDie_hbm (s : State) (d : Nat) (f : Die → Die) : (s.updDie d f).hbm = s.hbm := rfl
@[simp] theorem State.updDie_groups (s : State) (d : Nat) (f : Die → Die) : (s.updDie d f).groups = s.groups := rfl
@[simp] theorem State.updDie_slices (s : State) (d : Nat) (f : Die → Die) : (s.updDie d f).slices = s.slices := rfl
@[simp] theorem State.updDie_cores (s : State) (d : Nat) (f : Die → Die) : (s.updDie d f).cores = s.cores := rfl
@[simp] theorem State.updDie_clusters (s : State) (d : Nat) (f : Die → Die) : (s.updDie d f).clusters =
    s.clusters := rfl
@[simp] theorem State.updDie_dies (s : State) (d : Nat) (f : Die → Die) : (s.updDie d f).dies =
    Tab.upd s.dies d f := rfl
@[simp] theorem State.updDie_tiles (s : State) (d : Nat) (f : Die → Die) : (s.updDie d f).tiles = s.tiles := rfl
@[simp] theorem State.updDie_kennel (s : State) (d : Nat) (f : Die → Die) : (s.updDie d f).kennel = s.kennel := rfl
@[simp] theorem State.updDie_ops (s : State) (d : Nat) (f : Die → Die) : (s.updDie d f).ops = s.ops := rfl
@[simp] theorem State.updDie_work (s : State) (d : Nat) (f : Die → Die) : (s.updDie d f).work = s.work := rfl
@[simp] theorem State.updDie_hub (s : State) (d : Nat) (f : Die → Die) : (s.updDie d f).hub = s.hub := rfl
@[simp] theorem State.updDie_ports (s : State) (d : Nat) (f : Die → Die) : (s.updDie d f).ports = s.ports := rfl

@[simp] theorem State.updPort_now (s : State) (p : Nat) (f : Port → Port) : (s.updPort p f).now = s.now := rfl
@[simp] theorem State.updPort_free (s : State) (p : Nat) (f : Port → Port) : (s.updPort p f).free = s.free := rfl
@[simp] theorem State.updPort_nextId (s : State) (p : Nat) (f : Port → Port) : (s.updPort p f).nextId = s.nextId := rfl
@[simp] theorem State.updPort_turnCount (s : State) (p : Nat) (f : Port → Port) : (s.updPort p f).turnCount =
    s.turnCount := rfl
@[simp] theorem State.updPort_turns (s : State) (p : Nat) (f : Port → Port) : (s.updPort p f).turns = s.turns := rfl
@[simp] theorem State.updPort_cur (s : State) (p : Nat) (f : Port → Port) : (s.updPort p f).cur = s.cur := rfl
@[simp] theorem State.updPort_waited (s : State) (p : Nat) (f : Port → Port) : (s.updPort p f).waited = s.waited := rfl
@[simp] theorem State.updPort_bad (s : State) (p : Nat) (f : Port → Port) : (s.updPort p f).bad = s.bad := rfl
@[simp] theorem State.updPort_retained (s : State) (p : Nat) (f : Port → Port) : (s.updPort p f).retained =
    s.retained := rfl
@[simp] theorem State.updPort_touched (s : State) (p : Nat) (f : Port → Port) : (s.updPort p f).touched =
    s.touched := rfl
@[simp] theorem State.updPort_views (s : State) (p : Nat) (f : Port → Port) : (s.updPort p f).views = s.views := rfl
@[simp] theorem State.updPort_hbm (s : State) (p : Nat) (f : Port → Port) : (s.updPort p f).hbm = s.hbm := rfl
@[simp] theorem State.updPort_groups (s : State) (p : Nat) (f : Port → Port) : (s.updPort p f).groups = s.groups := rfl
@[simp] theorem State.updPort_slices (s : State) (p : Nat) (f : Port → Port) : (s.updPort p f).slices = s.slices := rfl
@[simp] theorem State.updPort_cores (s : State) (p : Nat) (f : Port → Port) : (s.updPort p f).cores = s.cores := rfl
@[simp] theorem State.updPort_clusters (s : State) (p : Nat) (f : Port → Port) : (s.updPort p f).clusters =
    s.clusters := rfl
@[simp] theorem State.updPort_dies (s : State) (p : Nat) (f : Port → Port) : (s.updPort p f).dies = s.dies := rfl
@[simp] theorem State.updPort_tiles (s : State) (p : Nat) (f : Port → Port) : (s.updPort p f).tiles = s.tiles := rfl
@[simp] theorem State.updPort_kennel (s : State) (p : Nat) (f : Port → Port) : (s.updPort p f).kennel = s.kennel := rfl
@[simp] theorem State.updPort_ops (s : State) (p : Nat) (f : Port → Port) : (s.updPort p f).ops = s.ops := rfl
@[simp] theorem State.updPort_work (s : State) (p : Nat) (f : Port → Port) : (s.updPort p f).work = s.work := rfl
@[simp] theorem State.updPort_hub (s : State) (p : Nat) (f : Port → Port) : (s.updPort p f).hub = s.hub := rfl
@[simp] theorem State.updPort_ports (s : State) (p : Nat) (f : Port → Port) : (s.updPort p f).ports =
    Tab.upd s.ports p f := rfl

@[simp] theorem State.updJob_now (s : State) (j : Nat) (f : Job → Job) : (s.updJob j f).now = s.now := rfl
@[simp] theorem State.updJob_free (s : State) (j : Nat) (f : Job → Job) : (s.updJob j f).free = s.free := rfl
@[simp] theorem State.updJob_nextId (s : State) (j : Nat) (f : Job → Job) : (s.updJob j f).nextId = s.nextId := rfl
@[simp] theorem State.updJob_turnCount (s : State) (j : Nat) (f : Job → Job) : (s.updJob j f).turnCount =
    s.turnCount := rfl
@[simp] theorem State.updJob_turns (s : State) (j : Nat) (f : Job → Job) : (s.updJob j f).turns = s.turns := rfl
@[simp] theorem State.updJob_cur (s : State) (j : Nat) (f : Job → Job) : (s.updJob j f).cur = s.cur := rfl
@[simp] theorem State.updJob_waited (s : State) (j : Nat) (f : Job → Job) : (s.updJob j f).waited = s.waited := rfl
@[simp] theorem State.updJob_bad (s : State) (j : Nat) (f : Job → Job) : (s.updJob j f).bad = s.bad := rfl
@[simp] theorem State.updJob_retained (s : State) (j : Nat) (f : Job → Job) : (s.updJob j f).retained =
    s.retained := rfl
@[simp] theorem State.updJob_touched (s : State) (j : Nat) (f : Job → Job) : (s.updJob j f).touched = s.touched := rfl
@[simp] theorem State.updJob_views (s : State) (j : Nat) (f : Job → Job) : (s.updJob j f).views = s.views := rfl
@[simp] theorem State.updJob_hbm (s : State) (j : Nat) (f : Job → Job) : (s.updJob j f).hbm = s.hbm := rfl
@[simp] theorem State.updJob_groups (s : State) (j : Nat) (f : Job → Job) : (s.updJob j f).groups = s.groups := rfl
@[simp] theorem State.updJob_slices (s : State) (j : Nat) (f : Job → Job) : (s.updJob j f).slices = s.slices := rfl
@[simp] theorem State.updJob_cores (s : State) (j : Nat) (f : Job → Job) : (s.updJob j f).cores = s.cores := rfl
@[simp] theorem State.updJob_clusters (s : State) (j : Nat) (f : Job → Job) : (s.updJob j f).clusters =
    s.clusters := rfl
@[simp] theorem State.updJob_dies (s : State) (j : Nat) (f : Job → Job) : (s.updJob j f).dies = s.dies := rfl
@[simp] theorem State.updJob_tiles (s : State) (j : Nat) (f : Job → Job) : (s.updJob j f).tiles = s.tiles := rfl
@[simp] theorem State.updJob_kennel (s : State) (j : Nat) (f : Job → Job) : (s.updJob j f).kennel = s.kennel := rfl
@[simp] theorem State.updJob_ops (s : State) (j : Nat) (f : Job → Job) : (s.updJob j f).ops = s.ops := rfl
@[simp] theorem State.updJob_work (s : State) (j : Nat) (f : Job → Job) : (s.updJob j f).work =
    { s.work with jobs := Tab.upd s.work.jobs j f } := rfl
@[simp] theorem State.updJob_hub (s : State) (j : Nat) (f : Job → Job) : (s.updJob j f).hub = s.hub := rfl
@[simp] theorem State.updJob_ports (s : State) (j : Nat) (f : Job → Job) : (s.updJob j f).ports = s.ports := rfl

@[simp] theorem State.updLaunch_now (s : State) (l : Nat) (f : Launch → Launch) : (s.updLaunch l f).now = s.now := rfl
@[simp] theorem State.updLaunch_free (s : State) (l : Nat) (f : Launch → Launch) : (s.updLaunch l f).free =
    s.free := rfl
@[simp] theorem State.updLaunch_nextId (s : State) (l : Nat) (f : Launch → Launch) : (s.updLaunch l f).nextId =
    s.nextId := rfl
@[simp] theorem State.updLaunch_turnCount (s : State) (l : Nat) (f : Launch → Launch) : (s.updLaunch l f).turnCount =
    s.turnCount := rfl
@[simp] theorem State.updLaunch_turns (s : State) (l : Nat) (f : Launch → Launch) : (s.updLaunch l f).turns =
    s.turns := rfl
@[simp] theorem State.updLaunch_cur (s : State) (l : Nat) (f : Launch → Launch) : (s.updLaunch l f).cur = s.cur := rfl
@[simp] theorem State.updLaunch_waited (s : State) (l : Nat) (f : Launch → Launch) : (s.updLaunch l f).waited =
    s.waited := rfl
@[simp] theorem State.updLaunch_bad (s : State) (l : Nat) (f : Launch → Launch) : (s.updLaunch l f).bad = s.bad := rfl
@[simp] theorem State.updLaunch_retained (s : State) (l : Nat) (f : Launch → Launch) : (s.updLaunch l f).retained =
    s.retained := rfl
@[simp] theorem State.updLaunch_touched (s : State) (l : Nat) (f : Launch → Launch) : (s.updLaunch l f).touched =
    s.touched := rfl
@[simp] theorem State.updLaunch_views (s : State) (l : Nat) (f : Launch → Launch) : (s.updLaunch l f).views =
    s.views := rfl
@[simp] theorem State.updLaunch_hbm (s : State) (l : Nat) (f : Launch → Launch) : (s.updLaunch l f).hbm = s.hbm := rfl
@[simp] theorem State.updLaunch_groups (s : State) (l : Nat) (f : Launch → Launch) : (s.updLaunch l f).groups =
    s.groups := rfl
@[simp] theorem State.updLaunch_slices (s : State) (l : Nat) (f : Launch → Launch) : (s.updLaunch l f).slices =
    s.slices := rfl
@[simp] theorem State.updLaunch_cores (s : State) (l : Nat) (f : Launch → Launch) : (s.updLaunch l f).cores =
    s.cores := rfl
@[simp] theorem State.updLaunch_clusters (s : State) (l : Nat) (f : Launch → Launch) : (s.updLaunch l f).clusters =
    s.clusters := rfl
@[simp] theorem State.updLaunch_dies (s : State) (l : Nat) (f : Launch → Launch) : (s.updLaunch l f).dies =
    s.dies := rfl
@[simp] theorem State.updLaunch_tiles (s : State) (l : Nat) (f : Launch → Launch) : (s.updLaunch l f).tiles =
    s.tiles := rfl
@[simp] theorem State.updLaunch_kennel (s : State) (l : Nat) (f : Launch → Launch) : (s.updLaunch l f).kennel =
    s.kennel := rfl
@[simp] theorem State.updLaunch_ops (s : State) (l : Nat) (f : Launch → Launch) : (s.updLaunch l f).ops = s.ops := rfl
@[simp] theorem State.updLaunch_work (s : State) (l : Nat) (f : Launch → Launch) : (s.updLaunch l f).work =
    { s.work with launches := Tab.upd s.work.launches l f } := rfl
@[simp] theorem State.updLaunch_hub (s : State) (l : Nat) (f : Launch → Launch) : (s.updLaunch l f).hub = s.hub := rfl
@[simp] theorem State.updLaunch_ports (s : State) (l : Nat) (f : Launch → Launch) : (s.updLaunch l f).ports =
    s.ports := rfl

@[simp] theorem State.updBlock_now (s : State) (b : Nat) (f : Block → Block) : (s.updBlock b f).now = s.now := rfl
@[simp] theorem State.updBlock_free (s : State) (b : Nat) (f : Block → Block) : (s.updBlock b f).free = s.free := rfl
@[simp] theorem State.updBlock_nextId (s : State) (b : Nat) (f : Block → Block) : (s.updBlock b f).nextId =
    s.nextId := rfl
@[simp] theorem State.updBlock_turnCount (s : State) (b : Nat) (f : Block → Block) : (s.updBlock b f).turnCount =
    s.turnCount := rfl
@[simp] theorem State.updBlock_turns (s : State) (b : Nat) (f : Block → Block) : (s.updBlock b f).turns = s.turns := rfl
@[simp] theorem State.updBlock_cur (s : State) (b : Nat) (f : Block → Block) : (s.updBlock b f).cur = s.cur := rfl
@[simp] theorem State.updBlock_waited (s : State) (b : Nat) (f : Block → Block) : (s.updBlock b f).waited =
    s.waited := rfl
@[simp] theorem State.updBlock_bad (s : State) (b : Nat) (f : Block → Block) : (s.updBlock b f).bad = s.bad := rfl
@[simp] theorem State.updBlock_retained (s : State) (b : Nat) (f : Block → Block) : (s.updBlock b f).retained =
    s.retained := rfl
@[simp] theorem State.updBlock_touched (s : State) (b : Nat) (f : Block → Block) : (s.updBlock b f).touched =
    s.touched := rfl
@[simp] theorem State.updBlock_views (s : State) (b : Nat) (f : Block → Block) : (s.updBlock b f).views = s.views := rfl
@[simp] theorem State.updBlock_hbm (s : State) (b : Nat) (f : Block → Block) : (s.updBlock b f).hbm = s.hbm := rfl
@[simp] theorem State.updBlock_groups (s : State) (b : Nat) (f : Block → Block) : (s.updBlock b f).groups =
    s.groups := rfl
@[simp] theorem State.updBlock_slices (s : State) (b : Nat) (f : Block → Block) : (s.updBlock b f).slices =
    s.slices := rfl
@[simp] theorem State.updBlock_cores (s : State) (b : Nat) (f : Block → Block) : (s.updBlock b f).cores = s.cores := rfl
@[simp] theorem State.updBlock_clusters (s : State) (b : Nat) (f : Block → Block) : (s.updBlock b f).clusters =
    s.clusters := rfl
@[simp] theorem State.updBlock_dies (s : State) (b : Nat) (f : Block → Block) : (s.updBlock b f).dies = s.dies := rfl
@[simp] theorem State.updBlock_tiles (s : State) (b : Nat) (f : Block → Block) : (s.updBlock b f).tiles = s.tiles := rfl
@[simp] theorem State.updBlock_kennel (s : State) (b : Nat) (f : Block → Block) : (s.updBlock b f).kennel =
    s.kennel := rfl
@[simp] theorem State.updBlock_ops (s : State) (b : Nat) (f : Block → Block) : (s.updBlock b f).ops = s.ops := rfl
@[simp] theorem State.updBlock_work (s : State) (b : Nat) (f : Block → Block) : (s.updBlock b f).work =
    { s.work with blocks := Tab.upd s.work.blocks b f } := rfl
@[simp] theorem State.updBlock_hub (s : State) (b : Nat) (f : Block → Block) : (s.updBlock b f).hub = s.hub := rfl
@[simp] theorem State.updBlock_ports (s : State) (b : Nat) (f : Block → Block) : (s.updBlock b f).ports = s.ports := rfl

@[simp] theorem State.updBundle_now (s : State) (b : Nat) (f : Bundle → Bundle) : (s.updBundle b f).now = s.now := rfl
@[simp] theorem State.updBundle_free (s : State) (b : Nat) (f : Bundle → Bundle) : (s.updBundle b f).free =
    s.free := rfl
@[simp] theorem State.updBundle_nextId (s : State) (b : Nat) (f : Bundle → Bundle) : (s.updBundle b f).nextId =
    s.nextId := rfl
@[simp] theorem State.updBundle_turnCount (s : State) (b : Nat) (f : Bundle → Bundle) : (s.updBundle b f).turnCount =
    s.turnCount := rfl
@[simp] theorem State.updBundle_turns (s : State) (b : Nat) (f : Bundle → Bundle) : (s.updBundle b f).turns =
    s.turns := rfl
@[simp] theorem State.updBundle_cur (s : State) (b : Nat) (f : Bundle → Bundle) : (s.updBundle b f).cur = s.cur := rfl
@[simp] theorem State.updBundle_waited (s : State) (b : Nat) (f : Bundle → Bundle) : (s.updBundle b f).waited =
    s.waited := rfl
@[simp] theorem State.updBundle_bad (s : State) (b : Nat) (f : Bundle → Bundle) : (s.updBundle b f).bad = s.bad := rfl
@[simp] theorem State.updBundle_retained (s : State) (b : Nat) (f : Bundle → Bundle) : (s.updBundle b f).retained =
    s.retained := rfl
@[simp] theorem State.updBundle_touched (s : State) (b : Nat) (f : Bundle → Bundle) : (s.updBundle b f).touched =
    s.touched := rfl
@[simp] theorem State.updBundle_views (s : State) (b : Nat) (f : Bundle → Bundle) : (s.updBundle b f).views =
    s.views := rfl
@[simp] theorem State.updBundle_hbm (s : State) (b : Nat) (f : Bundle → Bundle) : (s.updBundle b f).hbm = s.hbm := rfl
@[simp] theorem State.updBundle_groups (s : State) (b : Nat) (f : Bundle → Bundle) : (s.updBundle b f).groups =
    s.groups := rfl
@[simp] theorem State.updBundle_slices (s : State) (b : Nat) (f : Bundle → Bundle) : (s.updBundle b f).slices =
    s.slices := rfl
@[simp] theorem State.updBundle_cores (s : State) (b : Nat) (f : Bundle → Bundle) : (s.updBundle b f).cores =
    s.cores := rfl
@[simp] theorem State.updBundle_clusters (s : State) (b : Nat) (f : Bundle → Bundle) : (s.updBundle b f).clusters =
    s.clusters := rfl
@[simp] theorem State.updBundle_dies (s : State) (b : Nat) (f : Bundle → Bundle) : (s.updBundle b f).dies =
    s.dies := rfl
@[simp] theorem State.updBundle_tiles (s : State) (b : Nat) (f : Bundle → Bundle) : (s.updBundle b f).tiles =
    s.tiles := rfl
@[simp] theorem State.updBundle_kennel (s : State) (b : Nat) (f : Bundle → Bundle) : (s.updBundle b f).kennel =
    s.kennel := rfl
@[simp] theorem State.updBundle_ops (s : State) (b : Nat) (f : Bundle → Bundle) : (s.updBundle b f).ops = s.ops := rfl
@[simp] theorem State.updBundle_work (s : State) (b : Nat) (f : Bundle → Bundle) : (s.updBundle b f).work =
    { s.work with bundles := Tab.upd s.work.bundles b f } := rfl
@[simp] theorem State.updBundle_hub (s : State) (b : Nat) (f : Bundle → Bundle) : (s.updBundle b f).hub = s.hub := rfl
@[simp] theorem State.updBundle_ports (s : State) (b : Nat) (f : Bundle → Bundle) : (s.updBundle b f).ports =
    s.ports := rfl

@[simp] theorem State.fresh_now (s : State) : s.fresh.2.now = s.now := rfl
@[simp] theorem State.fresh_free (s : State) : s.fresh.2.free = s.free := rfl
@[simp] theorem State.fresh_nextId (s : State) : s.fresh.2.nextId = s.nextId + 1 := rfl
@[simp] theorem State.fresh_turnCount (s : State) : s.fresh.2.turnCount = s.turnCount := rfl
@[simp] theorem State.fresh_turns (s : State) : s.fresh.2.turns = s.turns := rfl
@[simp] theorem State.fresh_cur (s : State) : s.fresh.2.cur = s.cur := rfl
@[simp] theorem State.fresh_waited (s : State) : s.fresh.2.waited = s.waited := rfl
@[simp] theorem State.fresh_bad (s : State) : s.fresh.2.bad = s.bad := rfl
@[simp] theorem State.fresh_retained (s : State) : s.fresh.2.retained = s.retained := rfl
@[simp] theorem State.fresh_touched (s : State) : s.fresh.2.touched = s.touched := rfl
@[simp] theorem State.fresh_views (s : State) : s.fresh.2.views = s.views := rfl
@[simp] theorem State.fresh_hbm (s : State) : s.fresh.2.hbm = s.hbm := rfl
@[simp] theorem State.fresh_groups (s : State) : s.fresh.2.groups = s.groups := rfl
@[simp] theorem State.fresh_slices (s : State) : s.fresh.2.slices = s.slices := rfl
@[simp] theorem State.fresh_cores (s : State) : s.fresh.2.cores = s.cores := rfl
@[simp] theorem State.fresh_clusters (s : State) : s.fresh.2.clusters = s.clusters := rfl
@[simp] theorem State.fresh_dies (s : State) : s.fresh.2.dies = s.dies := rfl
@[simp] theorem State.fresh_tiles (s : State) : s.fresh.2.tiles = s.tiles := rfl
@[simp] theorem State.fresh_kennel (s : State) : s.fresh.2.kennel = s.kennel := rfl
@[simp] theorem State.fresh_ops (s : State) : s.fresh.2.ops = s.ops := rfl
@[simp] theorem State.fresh_work (s : State) : s.fresh.2.work = s.work := rfl
@[simp] theorem State.fresh_hub (s : State) : s.fresh.2.hub = s.hub := rfl
@[simp] theorem State.fresh_ports (s : State) : s.fresh.2.ports = s.ports := rfl

@[simp] theorem State.pickBelow_now (s : State) (n : Nat) : (s.pickBelow n).2.now = s.now := rfl
@[simp] theorem State.pickBelow_free (s : State) (n : Nat) : (s.pickBelow n).2.free = s.free + 1 := rfl
@[simp] theorem State.pickBelow_nextId (s : State) (n : Nat) : (s.pickBelow n).2.nextId = s.nextId := rfl
@[simp] theorem State.pickBelow_turnCount (s : State) (n : Nat) : (s.pickBelow n).2.turnCount = s.turnCount := rfl
@[simp] theorem State.pickBelow_turns (s : State) (n : Nat) : (s.pickBelow n).2.turns = s.turns := rfl
@[simp] theorem State.pickBelow_cur (s : State) (n : Nat) : (s.pickBelow n).2.cur = s.cur := rfl
@[simp] theorem State.pickBelow_waited (s : State) (n : Nat) : (s.pickBelow n).2.waited = s.waited := rfl
@[simp] theorem State.pickBelow_bad (s : State) (n : Nat) : (s.pickBelow n).2.bad = s.bad := rfl
@[simp] theorem State.pickBelow_retained (s : State) (n : Nat) : (s.pickBelow n).2.retained = s.retained := rfl
@[simp] theorem State.pickBelow_touched (s : State) (n : Nat) : (s.pickBelow n).2.touched = s.touched := rfl
@[simp] theorem State.pickBelow_views (s : State) (n : Nat) : (s.pickBelow n).2.views = s.views := rfl
@[simp] theorem State.pickBelow_hbm (s : State) (n : Nat) : (s.pickBelow n).2.hbm = s.hbm := rfl
@[simp] theorem State.pickBelow_groups (s : State) (n : Nat) : (s.pickBelow n).2.groups = s.groups := rfl
@[simp] theorem State.pickBelow_slices (s : State) (n : Nat) : (s.pickBelow n).2.slices = s.slices := rfl
@[simp] theorem State.pickBelow_cores (s : State) (n : Nat) : (s.pickBelow n).2.cores = s.cores := rfl
@[simp] theorem State.pickBelow_clusters (s : State) (n : Nat) : (s.pickBelow n).2.clusters = s.clusters := rfl
@[simp] theorem State.pickBelow_dies (s : State) (n : Nat) : (s.pickBelow n).2.dies = s.dies := rfl
@[simp] theorem State.pickBelow_tiles (s : State) (n : Nat) : (s.pickBelow n).2.tiles = s.tiles := rfl
@[simp] theorem State.pickBelow_kennel (s : State) (n : Nat) : (s.pickBelow n).2.kennel = s.kennel := rfl
@[simp] theorem State.pickBelow_ops (s : State) (n : Nat) : (s.pickBelow n).2.ops = s.ops := rfl
@[simp] theorem State.pickBelow_work (s : State) (n : Nat) : (s.pickBelow n).2.work = s.work := rfl
@[simp] theorem State.pickBelow_hub (s : State) (n : Nat) : (s.pickBelow n).2.hub = s.hub := rfl
@[simp] theorem State.pickBelow_ports (s : State) (n : Nat) : (s.pickBelow n).2.ports = s.ports := rfl

@[simp] theorem State.hbmWrite_now (s : State) (a : Nat) (bs : List Byte) : (s.hbmWrite a bs).now = s.now := rfl
@[simp] theorem State.hbmWrite_free (s : State) (a : Nat) (bs : List Byte) : (s.hbmWrite a bs).free = s.free := rfl
@[simp] theorem State.hbmWrite_nextId (s : State) (a : Nat) (bs : List Byte) : (s.hbmWrite a bs).nextId =
    s.nextId := rfl
@[simp] theorem State.hbmWrite_turnCount (s : State) (a : Nat) (bs : List Byte) : (s.hbmWrite a bs).turnCount =
    s.turnCount := rfl
@[simp] theorem State.hbmWrite_turns (s : State) (a : Nat) (bs : List Byte) : (s.hbmWrite a bs).turns = s.turns := rfl
@[simp] theorem State.hbmWrite_cur (s : State) (a : Nat) (bs : List Byte) : (s.hbmWrite a bs).cur = s.cur := rfl
@[simp] theorem State.hbmWrite_waited (s : State) (a : Nat) (bs : List Byte) : (s.hbmWrite a bs).waited =
    s.waited := rfl
@[simp] theorem State.hbmWrite_bad (s : State) (a : Nat) (bs : List Byte) : (s.hbmWrite a bs).bad = s.bad := rfl
@[simp] theorem State.hbmWrite_retained (s : State) (a : Nat) (bs : List Byte) : (s.hbmWrite a bs).retained =
    s.retained := rfl
@[simp] theorem State.hbmWrite_touched (s : State) (a : Nat) (bs : List Byte) : (s.hbmWrite a bs).touched =
    s.touched := rfl
@[simp] theorem State.hbmWrite_views (s : State) (a : Nat) (bs : List Byte) : (s.hbmWrite a bs).views = s.views := rfl
@[simp] theorem State.hbmWrite_hbm (s : State) (a : Nat) (bs : List Byte) : (s.hbmWrite a bs).hbm =
    memWriteBytes Config.hbmFill s.hbm a bs := rfl
@[simp] theorem State.hbmWrite_groups (s : State) (a : Nat) (bs : List Byte) : (s.hbmWrite a bs).groups =
    s.groups := rfl
@[simp] theorem State.hbmWrite_slices (s : State) (a : Nat) (bs : List Byte) : (s.hbmWrite a bs).slices =
    s.slices := rfl
@[simp] theorem State.hbmWrite_cores (s : State) (a : Nat) (bs : List Byte) : (s.hbmWrite a bs).cores = s.cores := rfl
@[simp] theorem State.hbmWrite_clusters (s : State) (a : Nat) (bs : List Byte) : (s.hbmWrite a bs).clusters =
    s.clusters := rfl
@[simp] theorem State.hbmWrite_dies (s : State) (a : Nat) (bs : List Byte) : (s.hbmWrite a bs).dies = s.dies := rfl
@[simp] theorem State.hbmWrite_tiles (s : State) (a : Nat) (bs : List Byte) : (s.hbmWrite a bs).tiles = s.tiles := rfl
@[simp] theorem State.hbmWrite_kennel (s : State) (a : Nat) (bs : List Byte) : (s.hbmWrite a bs).kennel =
    s.kennel := rfl
@[simp] theorem State.hbmWrite_ops (s : State) (a : Nat) (bs : List Byte) : (s.hbmWrite a bs).ops = s.ops := rfl
@[simp] theorem State.hbmWrite_work (s : State) (a : Nat) (bs : List Byte) : (s.hbmWrite a bs).work = s.work := rfl
@[simp] theorem State.hbmWrite_hub (s : State) (a : Nat) (bs : List Byte) : (s.hbmWrite a bs).hub = s.hub := rfl
@[simp] theorem State.hbmWrite_ports (s : State) (a : Nat) (bs : List Byte) : (s.hbmWrite a bs).ports = s.ports := rfl

@[simp] theorem State.notIssued_now (s : State) : (s.notIssued).now = s.now := rfl
@[simp] theorem State.notIssued_free (s : State) : (s.notIssued).free = s.free := rfl
@[simp] theorem State.notIssued_nextId (s : State) : (s.notIssued).nextId = s.nextId := rfl
@[simp] theorem State.notIssued_turnCount (s : State) : (s.notIssued).turnCount = s.turnCount := rfl
@[simp] theorem State.notIssued_turns (s : State) : (s.notIssued).turns = s.turns := rfl
@[simp] theorem State.notIssued_cur (s : State) : (s.notIssued).cur = s.cur := rfl
@[simp] theorem State.notIssued_waited (s : State) : (s.notIssued).waited = true := rfl
@[simp] theorem State.notIssued_bad (s : State) : (s.notIssued).bad = s.bad := rfl
@[simp] theorem State.notIssued_retained (s : State) : (s.notIssued).retained = s.retained := rfl
@[simp] theorem State.notIssued_touched (s : State) : (s.notIssued).touched = s.touched := rfl
@[simp] theorem State.notIssued_views (s : State) : (s.notIssued).views = s.views := rfl
@[simp] theorem State.notIssued_hbm (s : State) : (s.notIssued).hbm = s.hbm := rfl
@[simp] theorem State.notIssued_groups (s : State) : (s.notIssued).groups = s.groups := rfl
@[simp] theorem State.notIssued_slices (s : State) : (s.notIssued).slices = s.slices := rfl
@[simp] theorem State.notIssued_cores (s : State) : (s.notIssued).cores = s.cores := rfl
@[simp] theorem State.notIssued_clusters (s : State) : (s.notIssued).clusters = s.clusters := rfl
@[simp] theorem State.notIssued_dies (s : State) : (s.notIssued).dies = s.dies := rfl
@[simp] theorem State.notIssued_tiles (s : State) : (s.notIssued).tiles = s.tiles := rfl
@[simp] theorem State.notIssued_kennel (s : State) : (s.notIssued).kennel = s.kennel := rfl
@[simp] theorem State.notIssued_ops (s : State) : (s.notIssued).ops = s.ops := rfl
@[simp] theorem State.notIssued_work (s : State) : (s.notIssued).work = s.work := rfl
@[simp] theorem State.notIssued_hub (s : State) : (s.notIssued).hub = s.hub := rfl
@[simp] theorem State.notIssued_ports (s : State) : (s.notIssued).ports = s.ports := rfl

@[simp] theorem State.fresh_1 (s : State) : s.fresh.1 = s.nextId := rfl

/-! ### Updates of a group -/

@[simp] theorem Group.setPend_launch (g : Group) (op : Nat) (rs : List PReg) : (g.setPend op rs).launch =
    g.launch := rfl
@[simp] theorem Group.setPend_block (g : Group) (op : Nat) (rs : List PReg) : (g.setPend op rs).block = g.block := rfl
@[simp] theorem Group.setPend_gix (g : Group) (op : Nat) (rs : List PReg) : (g.setPend op rs).gix = g.gix := rfl
@[simp] theorem Group.setPend_core (g : Group) (op : Nat) (rs : List PReg) : (g.setPend op rs).core = g.core := rfl
@[simp] theorem Group.setPend_slice (g : Group) (op : Nat) (rs : List PReg) : (g.setPend op rs).slice = g.slice := rfl
@[simp] theorem Group.setPend_width (g : Group) (op : Nat) (rs : List PReg) : (g.setPend op rs).width = g.width := rfl
@[simp] theorem Group.setPend_vregs (g : Group) (op : Nat) (rs : List PReg) : (g.setPend op rs).vregs = g.vregs := rfl
@[simp] theorem Group.setPend_sregs (g : Group) (op : Nat) (rs : List PReg) : (g.setPend op rs).sregs = g.sregs := rfl
@[simp] theorem Group.setPend_names (g : Group) (op : Nat) (rs : List PReg) : (g.setPend op rs).names = g.names := rfl
@[simp] theorem Group.setPend_helpers (g : Group) (op : Nat) (rs : List PReg) : (g.setPend op rs).helpers =
    g.helpers := rfl
@[simp] theorem Group.setPend_res (g : Group) (op : Nat) (rs : List PReg) : (g.setPend op rs).res = g.res := rfl
@[simp] theorem Group.setPend_since (g : Group) (op : Nat) (rs : List PReg) : (g.setPend op rs).since = g.since := rfl
@[simp] theorem Group.setPend_lanes (g : Group) (op : Nat) (rs : List PReg) : (g.setPend op rs).lanes = g.lanes := rfl
@[simp] theorem Group.setPend_v (g : Group) (op : Nat) (rs : List PReg) : (g.setPend op rs).v = g.v := rfl
@[simp] theorem Group.setPend_s (g : Group) (op : Nat) (rs : List PReg) : (g.setPend op rs).s = g.s := rfl
@[simp] theorem Group.setPend_b (g : Group) (op : Nat) (rs : List PReg) : (g.setPend op rs).b = g.b := rfl
@[simp] theorem Group.setPend_slot (g : Group) (op : Nat) (rs : List PReg) : (g.setPend op rs).slot = g.slot := rfl
@[simp] theorem Group.setPend_inflight (g : Group) (op : Nat) (rs : List PReg) : (g.setPend op rs).inflight =
    g.inflight := rfl
@[simp] theorem Group.setPend_pend (g : Group) (op : Nat) (rs : List PReg) : (g.setPend op rs).pend =
    g.pend ++ rs.map fun r => ⟨r, op, false, g.inHandler⟩ := rfl
@[simp] theorem Group.setPend_clause (g : Group) (op : Nat) (rs : List PReg) : (g.setPend op rs).clause =
    g.clause := rfl
@[simp] theorem Group.setPend_trap (g : Group) (op : Nat) (rs : List PReg) : (g.setPend op rs).trap = g.trap := rfl
@[simp] theorem Group.setPend_cnts (g : Group) (op : Nat) (rs : List PReg) : (g.setPend op rs).cnts = g.cnts := rfl
@[simp] theorem Group.setPend_sleep (g : Group) (op : Nat) (rs : List PReg) : (g.setPend op rs).sleep = g.sleep := rfl
@[simp] theorem Group.setPend_hold (g : Group) (op : Nat) (rs : List PReg) : (g.setPend op rs).hold = g.hold := rfl
@[simp] theorem Group.setPend_ctxwait (g : Group) (op : Nat) (rs : List PReg) : (g.setPend op rs).ctxwait =
    g.ctxwait := rfl
@[simp] theorem Group.setPend_barsTok (g : Group) (op : Nat) (rs : List PReg) : (g.setPend op rs).barsTok =
    g.barsTok := rfl
@[simp] theorem Group.setPend_arrivals (g : Group) (op : Nat) (rs : List PReg) : (g.setPend op rs).arrivals =
    g.arrivals := rfl
@[simp] theorem Group.setPend_fwd (g : Group) (op : Nat) (rs : List PReg) : (g.setPend op rs).fwd = g.fwd := rfl
@[simp] theorem Group.setPend_seen (g : Group) (op : Nat) (rs : List PReg) : (g.setPend op rs).seen = g.seen := rfl
@[simp] theorem Group.setPend_behind (g : Group) (op : Nat) (rs : List PReg) : (g.setPend op rs).behind =
    g.behind := rfl
@[simp] theorem Group.setPend_wantedBy (g : Group) (op : Nat) (rs : List PReg) : (g.setPend op rs).wantedBy =
    g.wantedBy := rfl
@[simp] theorem Group.setPend_cpfault (g : Group) (op : Nat) (rs : List PReg) : (g.setPend op rs).cpfault =
    g.cpfault := rfl
@[simp] theorem Group.setPend_bounds (g : Group) (op : Nat) (rs : List PReg) : (g.setPend op rs).bounds =
    g.bounds := rfl
@[simp] theorem Group.setPend_reports (g : Group) (op : Nat) (rs : List PReg) : (g.setPend op rs).reports =
    g.reports := rfl
@[simp] theorem Group.setPend_dropped (g : Group) (op : Nat) (rs : List PReg) : (g.setPend op rs).dropped =
    g.dropped := rfl
@[simp] theorem Group.setPend_step (g : Group) (op : Nat) (rs : List PReg) : (g.setPend op rs).step = g.step := rfl
@[simp] theorem Group.setPend_claim (g : Group) (op : Nat) (rs : List PReg) : (g.setPend op rs).claim = g.claim := rfl
@[simp] theorem Group.setPend_qbuf (g : Group) (op : Nat) (rs : List PReg) : (g.setPend op rs).qbuf = g.qbuf := rfl
@[simp] theorem Group.setPend_qcmp (g : Group) (op : Nat) (rs : List PReg) : (g.setPend op rs).qcmp = g.qcmp := rfl
@[simp] theorem Group.setPend_qclaims (g : Group) (op : Nat) (rs : List PReg) : (g.setPend op rs).qclaims =
    g.qclaims := rfl
@[simp] theorem Group.setPend_qout (g : Group) (op : Nat) (rs : List PReg) : (g.setPend op rs).qout = g.qout := rfl
@[simp] theorem Group.setPend_done (g : Group) (op : Nat) (rs : List PReg) : (g.setPend op rs).done = g.done := rfl
@[simp] theorem Group.setPend_waitCnt (g : Group) (op : Nat) (rs : List PReg) : (g.setPend op rs).waitCnt =
    g.waitCnt := rfl
@[simp] theorem Group.setPend_readyCnt (g : Group) (op : Nat) (rs : List PReg) : (g.setPend op rs).readyCnt =
    g.readyCnt := rfl
@[simp] theorem Group.setPend_idleCnt (g : Group) (op : Nat) (rs : List PReg) : (g.setPend op rs).idleCnt =
    g.idleCnt := rfl
@[simp] theorem Group.setPend_stallWait (g : Group) (op : Nat) (rs : List PReg) : (g.setPend op rs).stallWait =
    g.stallWait := rfl
@[simp] theorem Group.setPend_recov (g : Group) (op : Nat) (rs : List PReg) : (g.setPend op rs).recov = g.recov := rfl
@[simp] theorem Group.setPend_frozen (g : Group) (op : Nat) (rs : List PReg) : (g.setPend op rs).frozen =
    g.frozen := rfl

@[simp] theorem Group.clearPend_launch (g : Group) (op : Nat) : (g.clearPend op).launch = g.launch := rfl
@[simp] theorem Group.clearPend_block (g : Group) (op : Nat) : (g.clearPend op).block = g.block := rfl
@[simp] theorem Group.clearPend_gix (g : Group) (op : Nat) : (g.clearPend op).gix = g.gix := rfl
@[simp] theorem Group.clearPend_core (g : Group) (op : Nat) : (g.clearPend op).core = g.core := rfl
@[simp] theorem Group.clearPend_slice (g : Group) (op : Nat) : (g.clearPend op).slice = g.slice := rfl
@[simp] theorem Group.clearPend_width (g : Group) (op : Nat) : (g.clearPend op).width = g.width := rfl
@[simp] theorem Group.clearPend_vregs (g : Group) (op : Nat) : (g.clearPend op).vregs = g.vregs := rfl
@[simp] theorem Group.clearPend_sregs (g : Group) (op : Nat) : (g.clearPend op).sregs = g.sregs := rfl
@[simp] theorem Group.clearPend_names (g : Group) (op : Nat) : (g.clearPend op).names = g.names := rfl
@[simp] theorem Group.clearPend_helpers (g : Group) (op : Nat) : (g.clearPend op).helpers = g.helpers := rfl
@[simp] theorem Group.clearPend_res (g : Group) (op : Nat) : (g.clearPend op).res = g.res := rfl
@[simp] theorem Group.clearPend_since (g : Group) (op : Nat) : (g.clearPend op).since = g.since := rfl
@[simp] theorem Group.clearPend_lanes (g : Group) (op : Nat) : (g.clearPend op).lanes = g.lanes := rfl
@[simp] theorem Group.clearPend_v (g : Group) (op : Nat) : (g.clearPend op).v = g.v := rfl
@[simp] theorem Group.clearPend_s (g : Group) (op : Nat) : (g.clearPend op).s = g.s := rfl
@[simp] theorem Group.clearPend_b (g : Group) (op : Nat) : (g.clearPend op).b = g.b := rfl
@[simp] theorem Group.clearPend_slot (g : Group) (op : Nat) : (g.clearPend op).slot = g.slot := rfl
@[simp] theorem Group.clearPend_inflight (g : Group) (op : Nat) : (g.clearPend op).inflight = g.inflight := rfl
@[simp] theorem Group.clearPend_pend (g : Group) (op : Nat) : (g.clearPend op).pend =
    g.pend.filter fun e => e.op ≠ op := rfl
@[simp] theorem Group.clearPend_clause (g : Group) (op : Nat) : (g.clearPend op).clause = g.clause := rfl
@[simp] theorem Group.clearPend_trap (g : Group) (op : Nat) : (g.clearPend op).trap = g.trap := rfl
@[simp] theorem Group.clearPend_cnts (g : Group) (op : Nat) : (g.clearPend op).cnts = g.cnts := rfl
@[simp] theorem Group.clearPend_sleep (g : Group) (op : Nat) : (g.clearPend op).sleep = g.sleep := rfl
@[simp] theorem Group.clearPend_hold (g : Group) (op : Nat) : (g.clearPend op).hold = g.hold := rfl
@[simp] theorem Group.clearPend_ctxwait (g : Group) (op : Nat) : (g.clearPend op).ctxwait = g.ctxwait := rfl
@[simp] theorem Group.clearPend_barsTok (g : Group) (op : Nat) : (g.clearPend op).barsTok = g.barsTok := rfl
@[simp] theorem Group.clearPend_arrivals (g : Group) (op : Nat) : (g.clearPend op).arrivals = g.arrivals := rfl
@[simp] theorem Group.clearPend_fwd (g : Group) (op : Nat) : (g.clearPend op).fwd = g.fwd := rfl
@[simp] theorem Group.clearPend_seen (g : Group) (op : Nat) : (g.clearPend op).seen = g.seen := rfl
@[simp] theorem Group.clearPend_behind (g : Group) (op : Nat) : (g.clearPend op).behind = g.behind := rfl
@[simp] theorem Group.clearPend_wantedBy (g : Group) (op : Nat) : (g.clearPend op).wantedBy = g.wantedBy := rfl
@[simp] theorem Group.clearPend_cpfault (g : Group) (op : Nat) : (g.clearPend op).cpfault = g.cpfault := rfl
@[simp] theorem Group.clearPend_bounds (g : Group) (op : Nat) : (g.clearPend op).bounds = g.bounds := rfl
@[simp] theorem Group.clearPend_reports (g : Group) (op : Nat) : (g.clearPend op).reports = g.reports := rfl
@[simp] theorem Group.clearPend_dropped (g : Group) (op : Nat) : (g.clearPend op).dropped = g.dropped := rfl
@[simp] theorem Group.clearPend_step (g : Group) (op : Nat) : (g.clearPend op).step = g.step := rfl
@[simp] theorem Group.clearPend_claim (g : Group) (op : Nat) : (g.clearPend op).claim = g.claim := rfl
@[simp] theorem Group.clearPend_qbuf (g : Group) (op : Nat) : (g.clearPend op).qbuf = g.qbuf := rfl
@[simp] theorem Group.clearPend_qcmp (g : Group) (op : Nat) : (g.clearPend op).qcmp = g.qcmp := rfl
@[simp] theorem Group.clearPend_qclaims (g : Group) (op : Nat) : (g.clearPend op).qclaims = g.qclaims := rfl
@[simp] theorem Group.clearPend_qout (g : Group) (op : Nat) : (g.clearPend op).qout = g.qout := rfl
@[simp] theorem Group.clearPend_done (g : Group) (op : Nat) : (g.clearPend op).done = g.done := rfl
@[simp] theorem Group.clearPend_waitCnt (g : Group) (op : Nat) : (g.clearPend op).waitCnt = g.waitCnt := rfl
@[simp] theorem Group.clearPend_readyCnt (g : Group) (op : Nat) : (g.clearPend op).readyCnt = g.readyCnt := rfl
@[simp] theorem Group.clearPend_idleCnt (g : Group) (op : Nat) : (g.clearPend op).idleCnt = g.idleCnt := rfl
@[simp] theorem Group.clearPend_stallWait (g : Group) (op : Nat) : (g.clearPend op).stallWait = g.stallWait := rfl
@[simp] theorem Group.clearPend_recov (g : Group) (op : Nat) : (g.clearPend op).recov = g.recov := rfl
@[simp] theorem Group.clearPend_frozen (g : Group) (op : Nat) : (g.clearPend op).frozen = g.frozen := rfl

@[simp] theorem Group.count_launch (g : Group) (c op : Nat) : (g.count c op).launch = g.launch := rfl
@[simp] theorem Group.count_block (g : Group) (c op : Nat) : (g.count c op).block = g.block := rfl
@[simp] theorem Group.count_gix (g : Group) (c op : Nat) : (g.count c op).gix = g.gix := rfl
@[simp] theorem Group.count_core (g : Group) (c op : Nat) : (g.count c op).core = g.core := rfl
@[simp] theorem Group.count_slice (g : Group) (c op : Nat) : (g.count c op).slice = g.slice := rfl
@[simp] theorem Group.count_width (g : Group) (c op : Nat) : (g.count c op).width = g.width := rfl
@[simp] theorem Group.count_vregs (g : Group) (c op : Nat) : (g.count c op).vregs = g.vregs := rfl
@[simp] theorem Group.count_sregs (g : Group) (c op : Nat) : (g.count c op).sregs = g.sregs := rfl
@[simp] theorem Group.count_names (g : Group) (c op : Nat) : (g.count c op).names = g.names := rfl
@[simp] theorem Group.count_helpers (g : Group) (c op : Nat) : (g.count c op).helpers = g.helpers := rfl
@[simp] theorem Group.count_res (g : Group) (c op : Nat) : (g.count c op).res = g.res := rfl
@[simp] theorem Group.count_since (g : Group) (c op : Nat) : (g.count c op).since = g.since := rfl
@[simp] theorem Group.count_lanes (g : Group) (c op : Nat) : (g.count c op).lanes = g.lanes := rfl
@[simp] theorem Group.count_v (g : Group) (c op : Nat) : (g.count c op).v = g.v := rfl
@[simp] theorem Group.count_s (g : Group) (c op : Nat) : (g.count c op).s = g.s := rfl
@[simp] theorem Group.count_b (g : Group) (c op : Nat) : (g.count c op).b = g.b := rfl
@[simp] theorem Group.count_slot (g : Group) (c op : Nat) : (g.count c op).slot = g.slot := rfl
@[simp] theorem Group.count_inflight (g : Group) (c op : Nat) : (g.count c op).inflight = g.inflight := rfl
@[simp] theorem Group.count_pend (g : Group) (c op : Nat) : (g.count c op).pend = g.pend := rfl
@[simp] theorem Group.count_clause (g : Group) (c op : Nat) : (g.count c op).clause = g.clause := rfl
@[simp] theorem Group.count_trap (g : Group) (c op : Nat) : (g.count c op).trap = g.trap := rfl
@[simp] theorem Group.count_cnts (g : Group) (c op : Nat) : (g.count c op).cnts =
    Tab.set g.cnts c (g.outs c ++ [(op, false)]) := rfl
@[simp] theorem Group.count_sleep (g : Group) (c op : Nat) : (g.count c op).sleep = g.sleep := rfl
@[simp] theorem Group.count_hold (g : Group) (c op : Nat) : (g.count c op).hold = g.hold := rfl
@[simp] theorem Group.count_ctxwait (g : Group) (c op : Nat) : (g.count c op).ctxwait = g.ctxwait := rfl
@[simp] theorem Group.count_barsTok (g : Group) (c op : Nat) : (g.count c op).barsTok = g.barsTok := rfl
@[simp] theorem Group.count_arrivals (g : Group) (c op : Nat) : (g.count c op).arrivals = g.arrivals := rfl
@[simp] theorem Group.count_fwd (g : Group) (c op : Nat) : (g.count c op).fwd = g.fwd := rfl
@[simp] theorem Group.count_seen (g : Group) (c op : Nat) : (g.count c op).seen = g.seen := rfl
@[simp] theorem Group.count_behind (g : Group) (c op : Nat) : (g.count c op).behind = g.behind := rfl
@[simp] theorem Group.count_wantedBy (g : Group) (c op : Nat) : (g.count c op).wantedBy = g.wantedBy := rfl
@[simp] theorem Group.count_cpfault (g : Group) (c op : Nat) : (g.count c op).cpfault = g.cpfault := rfl
@[simp] theorem Group.count_bounds (g : Group) (c op : Nat) : (g.count c op).bounds = g.bounds := rfl
@[simp] theorem Group.count_reports (g : Group) (c op : Nat) : (g.count c op).reports = g.reports := rfl
@[simp] theorem Group.count_dropped (g : Group) (c op : Nat) : (g.count c op).dropped = g.dropped := rfl
@[simp] theorem Group.count_step (g : Group) (c op : Nat) : (g.count c op).step = g.step := rfl
@[simp] theorem Group.count_claim (g : Group) (c op : Nat) : (g.count c op).claim = g.claim := rfl
@[simp] theorem Group.count_qbuf (g : Group) (c op : Nat) : (g.count c op).qbuf = g.qbuf := rfl
@[simp] theorem Group.count_qcmp (g : Group) (c op : Nat) : (g.count c op).qcmp = g.qcmp := rfl
@[simp] theorem Group.count_qclaims (g : Group) (c op : Nat) : (g.count c op).qclaims = g.qclaims := rfl
@[simp] theorem Group.count_qout (g : Group) (c op : Nat) : (g.count c op).qout = g.qout := rfl
@[simp] theorem Group.count_done (g : Group) (c op : Nat) : (g.count c op).done = g.done := rfl
@[simp] theorem Group.count_waitCnt (g : Group) (c op : Nat) : (g.count c op).waitCnt = g.waitCnt := rfl
@[simp] theorem Group.count_readyCnt (g : Group) (c op : Nat) : (g.count c op).readyCnt = g.readyCnt := rfl
@[simp] theorem Group.count_idleCnt (g : Group) (c op : Nat) : (g.count c op).idleCnt = g.idleCnt := rfl
@[simp] theorem Group.count_stallWait (g : Group) (c op : Nat) : (g.count c op).stallWait = g.stallWait := rfl
@[simp] theorem Group.count_recov (g : Group) (c op : Nat) : (g.count c op).recov = g.recov := rfl
@[simp] theorem Group.count_frozen (g : Group) (c op : Nat) : (g.count c op).frozen = g.frozen := rfl

@[simp] theorem Group.complete_launch (g : Group) (c op : Nat) : (g.complete c op).launch = g.launch := rfl
@[simp] theorem Group.complete_block (g : Group) (c op : Nat) : (g.complete c op).block = g.block := rfl
@[simp] theorem Group.complete_gix (g : Group) (c op : Nat) : (g.complete c op).gix = g.gix := rfl
@[simp] theorem Group.complete_core (g : Group) (c op : Nat) : (g.complete c op).core = g.core := rfl
@[simp] theorem Group.complete_slice (g : Group) (c op : Nat) : (g.complete c op).slice = g.slice := rfl
@[simp] theorem Group.complete_width (g : Group) (c op : Nat) : (g.complete c op).width = g.width := rfl
@[simp] theorem Group.complete_vregs (g : Group) (c op : Nat) : (g.complete c op).vregs = g.vregs := rfl
@[simp] theorem Group.complete_sregs (g : Group) (c op : Nat) : (g.complete c op).sregs = g.sregs := rfl
@[simp] theorem Group.complete_names (g : Group) (c op : Nat) : (g.complete c op).names = g.names := rfl
@[simp] theorem Group.complete_helpers (g : Group) (c op : Nat) : (g.complete c op).helpers = g.helpers := rfl
@[simp] theorem Group.complete_res (g : Group) (c op : Nat) : (g.complete c op).res = g.res := rfl
@[simp] theorem Group.complete_since (g : Group) (c op : Nat) : (g.complete c op).since = g.since := rfl
@[simp] theorem Group.complete_lanes (g : Group) (c op : Nat) : (g.complete c op).lanes = g.lanes := rfl
@[simp] theorem Group.complete_v (g : Group) (c op : Nat) : (g.complete c op).v = g.v := rfl
@[simp] theorem Group.complete_s (g : Group) (c op : Nat) : (g.complete c op).s = g.s := rfl
@[simp] theorem Group.complete_b (g : Group) (c op : Nat) : (g.complete c op).b = g.b := rfl
@[simp] theorem Group.complete_slot (g : Group) (c op : Nat) : (g.complete c op).slot = g.slot := rfl
@[simp] theorem Group.complete_inflight (g : Group) (c op : Nat) : (g.complete c op).inflight = g.inflight := rfl
@[simp] theorem Group.complete_pend (g : Group) (c op : Nat) : (g.complete c op).pend = g.pend := rfl
@[simp] theorem Group.complete_clause (g : Group) (c op : Nat) : (g.complete c op).clause = g.clause := rfl
@[simp] theorem Group.complete_trap (g : Group) (c op : Nat) : (g.complete c op).trap = g.trap := rfl
@[simp] theorem Group.complete_sleep (g : Group) (c op : Nat) : (g.complete c op).sleep = g.sleep := rfl
@[simp] theorem Group.complete_hold (g : Group) (c op : Nat) : (g.complete c op).hold = g.hold := rfl
@[simp] theorem Group.complete_ctxwait (g : Group) (c op : Nat) : (g.complete c op).ctxwait = g.ctxwait := rfl
@[simp] theorem Group.complete_barsTok (g : Group) (c op : Nat) : (g.complete c op).barsTok = g.barsTok := rfl
@[simp] theorem Group.complete_arrivals (g : Group) (c op : Nat) : (g.complete c op).arrivals = g.arrivals := rfl
@[simp] theorem Group.complete_fwd (g : Group) (c op : Nat) : (g.complete c op).fwd = g.fwd := rfl
@[simp] theorem Group.complete_seen (g : Group) (c op : Nat) : (g.complete c op).seen = g.seen := rfl
@[simp] theorem Group.complete_behind (g : Group) (c op : Nat) : (g.complete c op).behind = g.behind := rfl
@[simp] theorem Group.complete_wantedBy (g : Group) (c op : Nat) : (g.complete c op).wantedBy = g.wantedBy := rfl
@[simp] theorem Group.complete_cpfault (g : Group) (c op : Nat) : (g.complete c op).cpfault = g.cpfault := rfl
@[simp] theorem Group.complete_bounds (g : Group) (c op : Nat) : (g.complete c op).bounds = g.bounds := rfl
@[simp] theorem Group.complete_reports (g : Group) (c op : Nat) : (g.complete c op).reports = g.reports := rfl
@[simp] theorem Group.complete_dropped (g : Group) (c op : Nat) : (g.complete c op).dropped = g.dropped := rfl
@[simp] theorem Group.complete_step (g : Group) (c op : Nat) : (g.complete c op).step = g.step := rfl
@[simp] theorem Group.complete_claim (g : Group) (c op : Nat) : (g.complete c op).claim = g.claim := rfl
@[simp] theorem Group.complete_qbuf (g : Group) (c op : Nat) : (g.complete c op).qbuf = g.qbuf := rfl
@[simp] theorem Group.complete_qcmp (g : Group) (c op : Nat) : (g.complete c op).qcmp = g.qcmp := rfl
@[simp] theorem Group.complete_qclaims (g : Group) (c op : Nat) : (g.complete c op).qclaims = g.qclaims := rfl
@[simp] theorem Group.complete_qout (g : Group) (c op : Nat) : (g.complete c op).qout = g.qout := rfl
@[simp] theorem Group.complete_done (g : Group) (c op : Nat) : (g.complete c op).done = g.done := rfl
@[simp] theorem Group.complete_waitCnt (g : Group) (c op : Nat) : (g.complete c op).waitCnt = g.waitCnt := rfl
@[simp] theorem Group.complete_readyCnt (g : Group) (c op : Nat) : (g.complete c op).readyCnt = g.readyCnt := rfl
@[simp] theorem Group.complete_idleCnt (g : Group) (c op : Nat) : (g.complete c op).idleCnt = g.idleCnt := rfl
@[simp] theorem Group.complete_stallWait (g : Group) (c op : Nat) : (g.complete c op).stallWait = g.stallWait := rfl
@[simp] theorem Group.complete_recov (g : Group) (c op : Nat) : (g.complete c op).recov = g.recov := rfl
@[simp] theorem Group.complete_frozen (g : Group) (c op : Nat) : (g.complete c op).frozen = g.frozen := rfl

end Sys2Proof.Machine
end

