-- ==== Sys2Proof/Laws/Ops.lean ====
section
/-!
SUPPORT. One lemma for each shared operation, saying once what it can do: landing results, the counters, device memory,
raising and leaving a trap, ending a task, and issuing a word.
-/

namespace Sys2Proof.Machine

/-! ### Registers -/

/-- A result that lands is what its place reads as, and every other place reads as before. -/
theorem Group.reads_land (g : Group) (t u : Target) (w : Word) (ht : t.inLanes) (hu : u.inLanes)
    (hw : truthValue (t, w)) : (g.land t w).reads u = if u = t then w else g.reads u := by
  cases t with
  | v a b =>
    cases u with
    | v c d =>
      have h : (c * 64 + d = a * 64 + b) ↔ Target.v c d = Target.v a b := by
        simp only [Target.v.injEq, Target.inLanes] at *
        omega
      simp only [Group.land, Group.reads, Group.rdV, Tab.getD_set, h]
    | s _ | p _ _ | x _ _ => rw [if_neg (by simp)]; rfl
  | s a =>
    cases u with
    | s c => simp only [Group.land, Group.reads, Group.rdS, Tab.getD_set, Target.s.injEq]
    | v _ _ | p _ _ | x _ _ => rw [if_neg (by simp)]; rfl
  | p a b =>
    cases u with
    | p c d =>
      have hr : (g.land (.p a b) w).rdP c = if c = a then setBit (g.rdP a) b (w != 0#32) else g.rdP c := by
        simp only [Group.land, Group.rdP, Tab.getD_set]
      have h2 : (g.land (.p a b) w).reads (.p c d) = if ((g.land (.p a b) w).rdP c).getLsbD d then 1#32 else 0#32 := rfl
      rw [h2, hr]
      by_cases h : c = a
      · subst h
        rw [if_pos rfl, getLsbD_setBit _ _ _ _ hu]
        by_cases h1 : d = b
        · subst h1
          rw [if_pos rfl, if_pos rfl]
          rcases hw with h3 | h3 <;> subst h3 <;> rfl
        · have h3 : ¬ Target.p c d = Target.p c b := by simp [h1]
          rw [if_neg h1, if_neg h3]
          rfl
      · have h3 : ¬ Target.p c d = Target.p a b := by simp [h]
        rw [if_neg h, if_neg h3]
        rfl
    | v _ _ | s _ | x _ _ => rw [if_neg (by simp)]; rfl
  | x a b =>
    cases u with
    | x c d =>
      have h : (c * 64 + d = a * 64 + b) ↔ Target.x c d = Target.x a b := by
        simp only [Target.x.injEq, Target.inLanes] at *
        omega
      simp only [Group.land, Group.reads, Group.rdX, Tab.getD_set, h]
    | v _ _ | s _ | p _ _ => rw [if_neg (by simp)]; rfl

/-- Results that land at once: the last one to a place is what it reads as. -/
theorem Group.reads_landAll (g : Group) (ws : List (Target × Word)) (u : Target)
    (h : ∀ w ∈ ws, w.1.inLanes ∧ truthValue w) (hu : u.inLanes) (hn : (ws.map Prod.fst).Nodup) :
    (g.landAll ws).reads u = written ws u (g.reads u) := by
  induction ws generalizing g with
  | nil => rfl
  | cons w ws ih =>
    obtain ⟨t, x⟩ := w
    rw [List.map_cons, List.nodup_cons] at hn
    have h0 := h (t, x) (List.mem_cons_self ..)
    have h1 : g.landAll ((t, x) :: ws) = (g.land t x).landAll ws := rfl
    rw [h1, ih _ (fun w hw => h w (List.mem_cons_of_mem _ hw)) hn.2, Group.reads_land g t u x h0.1 hu h0.2]
    by_cases hut : u = t
    · subst hut
      have hf : ws.find? (fun w => w.1 = u) = none := by
        rw [List.find?_eq_none]
        intro w hw
        have h3 : w.1 ∈ ws.map Prod.fst := List.mem_map_of_mem hw
        have : w.1 ≠ u := fun h2 => hn.1 (h2 ▸ h3)
        simpa using this
      simp [written, hf]
    · have htu : ¬ t = u := fun h2 => hut h2.symm
      simp [written, hut, htu]

/-- In interlocked mode a fixed-latency result is there at once (R38); in native mode it lands after its slots (R35). -/
theorem Group.fixed_eq (g : Group) (native : Bool) (lat : Nat) (ws : List (Target × Word)) :
    g.fixed native lat ws =
      if native then { g with inflight := g.inflight ++ ws.map fun w => ⟨g.slot + lat, w.1, w.2⟩ } else g.landAll ws := rfl

/-- Landing changes registers, predicates and index registers only. -/
theorem Group.land_frame (g : Group) (t : Target) (w : Word) :
    g.land t w = { g with
      v := (g.land t w).v, s := (g.land t w).s
      lanes := { g.lanes with p := (g.land t w).lanes.p, x := (g.land t w).lanes.x } } := by
  cases t <;> rfl

theorem Group.landAll_frame (g : Group) (ws : List (Target × Word)) :
    g.landAll ws = { g with
      v := (g.landAll ws).v, s := (g.landAll ws).s
      lanes := { g.lanes with p := (g.landAll ws).lanes.p, x := (g.landAll ws).lanes.x } } := by
  induction ws generalizing g with
  | nil => rfl
  | cons w ws ih =>
    have h1 : g.landAll (w :: ws) = (g.land w.1 w.2).landAll ws := rfl
    rw [h1, ih, Group.land_frame g w.1 w.2]

/-! ### Counters (R243 to R245) -/

@[simp] theorem Group.cnt_count (g : Group) (c op : Nat) : (g.count c op).cnt c = g.cnt c + 1 := by
  simp [Group.cnt, Group.outs, Group.count, Tab.getD_set]

theorem Group.outs_count (g : Group) (c d op : Nat) :
    (g.count c op).outs d = if d = c then g.outs c ++ [(op, false)] else g.outs d := by
  simp [Group.outs, Group.count, Tab.getD_set]

/-- The eldest operation of a counter completes: the counter falls past it and the complete ones after it. -/
theorem Group.outs_complete (g : Group) (c op : Nat) (rest : List (Nat × Bool)) (h : Eldest g c op rest) :
    (g.complete c op).outs c = rest.dropWhile fun e => e.2 := by
  have h1 : (rest.map fun e => if e.1 = op then (op, true) else e) = rest := by
    conv_rhs => rw [← List.map_id rest]
    exact List.map_congr_left fun e he => by simp [h.once e he]
  simp only [Group.complete, Group.outs, Tab.getD_set, if_true]
  have h2 := h.first
  unfold Group.outs at h2
  rw [h2]
  simp [h1]

/-! ### Device memory -/

/-- Bytes written at places keep the one form of a memory. -/
theorem memWf_writeAt {m : Tab Byte} (base : Nat) (bs : Tab Byte) (h : Memory.wf m = true) :
    Memory.wf (writeAt m base bs) = true := by
  unfold writeAt
  induction bs generalizing m with
  | nil => exact h
  | cons b bs ih => exact ih (memWf_memWrite _ _ h)

theorem State.hbmWrite_wf (s : State) (a : Nat) (bs : List Byte) (h : Memory.wf s.hbm = true) :
    Memory.wf (s.hbmWrite a bs).hbm = true :=
  memWf_memWriteBytes a bs h

theorem State.rootWrite_wf (s : State) (base : Nat) (bytes : Tab Byte) (h : Memory.wf s.hbm = true) :
    Memory.wf (s.rootWrite base bytes).hbm = true :=
  memWf_writeAt base bytes h

/-- After reset device memory has its one form. -/
theorem State.reset_wf : Memory.wf State.reset.hbm = true := rfl

/-- A write through a table of places: the places named read as written, the others as before. -/
theorem memRead_writeAt (m : Tab Byte) (base a : Nat) (bs : Tab Byte) (hn : (bs.map Prod.fst).Nodup) :
    memRead Config.hbmFill (writeAt m base bs) a =
      if base ≤ a then Tab.getD bs (a - base) (memRead Config.hbmFill m a) else memRead Config.hbmFill m a := by
  unfold writeAt
  induction bs generalizing m with
  | nil => simp [Tab.getD]
  | cons b bs ih =>
    obtain ⟨k, x⟩ := b
    rw [List.map_cons, List.nodup_cons] at hn
    rw [List.foldl_cons, ih _ hn.2, memRead_memWrite]
    by_cases h : base ≤ a
    · simp only [h, if_true, Tab.getD, Tab.get?_cons]
      by_cases h1 : k = a - base
      · subst h1
        have h2 : Tab.get? bs (a - base) = none := by
          cases h3 : Tab.get? bs (a - base) with
          | none => rfl
          | some y => exact absurd (List.mem_map_of_mem (f := Prod.fst) (Tab.get?_mem h3)) hn.1
        have h4 : a = base + (a - base) := by omega
        simp [h2, ← h4]
      · have h4 : ¬ a = base + k := by omega
        simp [h1, h4]
    · have h4 : ¬ a = base + k := by omega
      simp [h, h4]

/-! ### Values on their way (R36) -/

/-- A value is sent: it is under way under the next operation number, and its registers are pending. -/
theorem State.sendVals_eq (s : State) (gid : Nat) (g : Group) (ws : List (Target × Word)) (h : ws ≠ []) :
    s.sendVals gid g ws =
      (s.fresh.2.setOps { s.ops with vals := Tab.set s.ops.vals s.nextId ⟨gid, ws⟩ },
        g.setPend s.nextId (dedup (ws.filterMap fun w => w.1.reg))) := by
  cases ws with
  | nil => exact absurd rfl h
  | cons w ws => rfl

theorem State.sendVals_hbm (s : State) (gid : Nat) (g : Group) (ws : List (Target × Word)) :
    (s.sendVals gid g ws).1.hbm = s.hbm := by
  cases ws <;> rfl

/-! ### Ending a task (R212, R356) -/

/-- A task that ends changes none of this. -/
theorem State.killLaunch_frame (s : State) (lid status : Nat) :
    (s.killLaunch lid status).hbm = s.hbm ∧ (s.killLaunch lid status).kennel.cells = s.kennel.cells ∧
    (s.killLaunch lid status).kennel.tags = s.kennel.tags ∧
    (s.killLaunch lid status).hub = s.hub ∧ (s.killLaunch lid status).ports = s.ports ∧
    (s.killLaunch lid status).dies = s.dies ∧
    (s.killLaunch lid status).tiles = s.tiles ∧ (s.killLaunch lid status).work.jobs = s.work.jobs ∧
    (s.killLaunch lid status).work.bundles = s.work.bundles ∧ (s.killLaunch lid status).ops.sfq = s.ops.sfq :=
  ⟨rfl, rfl, rfl, rfl, rfl, rfl, rfl, rfl, rfl, rfl⟩

@[simp] theorem State.killLaunch_hbm (s : State) (lid status : Nat) : (s.killLaunch lid status).hbm = s.hbm := rfl

/-- The launch's status is its first one. -/
theorem State.killLaunch_status (s : State) (lid status : Nat) (l : Launch)
    (h : Tab.get? s.work.launches lid = some l) :
    (Tab.get? (s.killLaunch lid status).work.launches lid).map Launch.status =
      some (some (l.status.getD status)) := by
  have h1 : (s.killLaunch lid status).work.launches = Tab.upd s.work.launches lid fun l =>
      if l.status.isNone then { l with status := some status } else l := rfl
  rw [h1, Tab.get?_upd, if_pos rfl, h]
  cases hs : l.status <;> simp [hs]

/-! ### Traps (R354 to R366) -/

@[simp] theorem State.enterTrap_hbm (s : State) (gid area : Nat) : (s.enterTrap gid area).hbm = s.hbm := by
  unfold State.enterTrap
  repeat' split
  all_goals rfl

/-- What moves images or save areas either waits, the state as it was, or happens and marks the segments accessed (R186,
R187). -/
theorem State.moved_cases (s t : State) : s.moved t = s ∨ ∃ ps, s.moved t = t.touch ps := by
  unfold State.moved
  dsimp only
  split
  · exact .inl rfl
  · exact .inr ⟨_, rfl⟩

/-- With nothing in retention it happens. -/
theorem State.moved_awake (s t : State) (h : s.retained = []) : ∃ ps, s.moved t = t.touch ps := by
  refine ⟨moveSegs s.groupSpots t.groupSpots, ?_⟩
  simp [State.moved, State.asleep, h]

theorem State.moved_hbm (s t : State) (h : t.hbm = s.hbm) : (s.moved t).hbm = s.hbm := by
  obtain e | ⟨ps, e⟩ := s.moved_cases t
  · rw [e]
  · rw [e]
    exact h

/-- Values land, their places being touched, or nothing happens (R186, R187). -/
theorem State.landing_cases (s t : State) (part : Nat → Bool) :
    s.landing t part = s ∨ ∃ ps, s.landing t part = t.touch ps := by
  unfold State.landing
  dsimp only
  split
  · exact .inl rfl
  · exact .inr ⟨_, rfl⟩

/-- With nothing in retention they land. -/
theorem State.landing_awake (s t : State) (part : Nat → Bool) (h : s.retained = []) :
    ∃ ps, s.landing t part = t.touch ps := by
  refine ⟨s.landSegs t part, ?_⟩
  simp [State.landing, State.asleep, h]

theorem State.landing_hbm (s t : State) (part : Nat → Bool) (h : t.hbm = s.hbm) : (s.landing t part).hbm = s.hbm := by
  obtain e | ⟨ps, e⟩ := s.landing_cases t part
  · rw [e]
  · rw [e]
    exact h

@[simp] theorem State.tryEnter_hbm (s : State) (gid : Nat) : (s.tryEnter gid).hbm = s.hbm := by
  unfold State.tryEnter
  split
  · rfl
  split
  · rfl
  dsimp only
  split
  · rfl
  apply State.moved_hbm
  split
  · simp
  · rw [State.enterTrap_hbm, State.pickBelow_hbm]

@[simp] theorem State.raise_hbm (s : State) (gid : Nat) (cl : Clause) (c : Cause) (word resume : Nat) (header : Bool) :
    (s.raise gid cl c word resume header).hbm = s.hbm := by
  unfold State.raise
  split
  · rfl
  dsimp only
  split
  · simp
  split
  · simp
  · rw [State.tryEnter_hbm]
    rfl

@[simp] theorem State.leaveTrap_hbm (s : State) (gid : Nat) (g : Group) (f : TrapFrame) :
    (s.leaveTrap gid g f).hbm = s.hbm := rfl

/-- A cause of a group outside a handler, whose launch has none: the record joins the job's faults and the task ends
(R356). -/
theorem State.raise_ends (s : State) (gid : Nat) (cl : Clause) (c : Cause) (word resume : Nat) (header : Bool) (g : Group)
    (h : Tab.get? s.groups gid = some g) (ht : g.trap = none) (hl : (s.launch? g).bind Launch.handler = none) :
    s.raise gid cl c word resume header =
      (s.updJob (s.jobOf g) fun j => { j with faults := j.faults ++ [s.record g cl c word resume g.dropped] }).killLaunch
        g.launch stGroup := by
  simp [State.raise, h, ht, hl]

/-- A cause of a group in its handler, or with a trap raised: both records join the faults and the task ends (R359). -/
theorem State.raise_again (s : State) (gid : Nat) (cl : Clause) (c : Cause) (word resume : Nat) (header : Bool)
    (g : Group) (f : TrapFrame) (h : Tab.get? s.groups gid = some g) (ht : g.trap = some f) :
    s.raise gid cl c word resume header =
      (s.updJob (s.jobOf g) fun j =>
        { j with faults := j.faults ++ [f.current, s.record g cl c word resume g.dropped] }).killLaunch
        g.launch stHandler := by
  simp [State.raise, h, ht]

/-- A cause of a group whose launch has a handler: its pending writes land, the trap is raised, and entered where an area is
free (R354, R357, R170). -/
theorem State.raise_takes (s : State) (gid : Nat) (cl : Clause) (c : Cause) (word resume : Nat) (header : Bool)
    (g : Group) (n : Nat) (h : Tab.get? s.groups gid = some g) (ht : g.trap = none)
    (hl : (s.launch? g).bind Launch.handler = some n) :
    s.raise gid cl c word resume header =
      (s.fresh.2.setGroup gid { g.flush with
        trap := some ⟨s.record g cl c word resume g.dropped,
          if resume = 0 then none else some { cl with
            pos := resume, skipBp := if c.code = 0x10 ∨ cl.skipBp = resume then resume else 0, reentry := true },
          header, s.nextId, false, none, g.flush.lanes, [], [], []⟩
        clause := none
        ctxwait := false }).tryEnter gid := by
  simp [State.raise, h, ht, hl, State.fresh]

/-! ### Issuing a word -/

/-- What a ready word comes to is what its meaning answers. -/
theorem issue_ready {i : Instr} {s : State} {gid : Nat} {g : Group} {cl : Clause} (h : Ready i s gid g cl)
    (eff : State → Nat → Group → Clause → Eff) :
    issue i eff s = match eff (s.setGroup gid g) gid g cl with
      | .trap c => .next ((if c.code = 0x08 then s.updGroup gid (fun g => { g with bounds := true }) else s).raise gid cl c
          cl.pos cl.pos false)
      | .wait => .next s.notIssued
      | .kill st => .next (s.killLaunch g.launch st)
      | .done s' flow after => .next (s'.finish gid cl i flow after) := by
  obtain ⟨g0, hg, rfl⟩ := Option.map_eq_some_iff.1 h.group
  have hc : g0.clause = some cl := by
    have h1 := h.clause
    have h2 : ∀ (l : List Inflight) (g : Group),
        (l.foldl (fun g e => g.land e.target e.val) g).clause = g.clause := by
      intro l
      induction l with
      | nil => exact fun _ => rfl
      | cons e l ih => exact fun g => by rw [List.foldl_cons, ih]; cases e.target <;> rfl
    simp only [Group.landDue, h2] at h1
    exact h1
  unfold issue
  simp only [h.cur, hg, hc, h.checked, h.free, Bool.false_eq_true, if_false]
  split <;> rename_i he <;> simp [he, h.report]

/-- What a word observes changes the views alone (R210). -/
theorem State.observe_frame (s : State) (gid : Nat) (i : Instr) :
    s.observe gid i = { s with views := (s.observe gid i).views } := by
  unfold State.observe
  repeat' split
  all_goals rfl

@[simp] theorem State.observe_hbm (s : State) (gid : Nat) (i : Instr) : (s.observe gid i).hbm = s.hbm := by
  rw [State.observe_frame]

@[simp] theorem State.observe_groups (s : State) (gid : Nat) (i : Instr) : (s.observe gid i).groups = s.groups := by
  rw [State.observe_frame]

/-- With no view under way there is nothing to observe. -/
theorem State.observe_none (s : State) (gid : Nat) (i : Instr) (h : s.views = []) : s.observe gid i = s := by
  simp [State.observe, h]

/-- A word whose meaning changes the group alone, of a group that is steady afterwards, leaves it advanced (R90). -/
theorem finish_after (s : State) (gid : Nat) (g : Group) (cl : Clause) (i : Instr) (flow : Flow) (hf : flow ≠ .gone)
    (h : Tab.get? s.groups gid = some g) (hd : (g.advance cl i flow).deadlocked = false)
    (hs : (g.advance cl i flow).step = false) :
    s.finish gid cl i flow [] = (s.observe gid i).setGroup gid (g.advance cl i flow) := by
  unfold State.finish
  cases flow with
  | gone => exact absurd rfl hf
  | seq => simp [h, hd, hs]
  | own => simp [h, hd, hs]

@[simp] theorem State.takeReport_hbm (s : State) (gid : Nat) (g : Group) (cl : Clause) (r : Report) :
    (s.takeReport gid g cl r).hbm = s.hbm := by
  simp [State.takeReport]

@[simp] theorem State.raiseAll_hbm (s : State) (gid : Nat) (cl : Clause) (c : Cause) (cs : List Cause)
    (word resume : Nat) : (s.raiseAll gid cl c cs word resume).hbm = s.hbm := by
  unfold State.raiseAll
  dsimp only
  split <;> simp

/-- The only cause after a word is raised as such. -/
@[simp] theorem State.raiseAll_one (s : State) (gid : Nat) (cl : Clause) (c : Cause) (word resume : Nat) :
    s.raiseAll gid cl c [] word resume = s.raise gid cl c word resume false := rfl

@[simp] theorem State.finish_hbm (s : State) (gid : Nat) (cl : Clause) (i : Instr) (flow : Flow) (after : List Cause) :
    (s.finish gid cl i flow after).hbm = s.hbm := by
  unfold State.finish
  repeat' split
  all_goals try simp
  all_goals repeat' split
  all_goals simp

/-- An issued word answers a next state, but where no group stands at a word. -/
theorem issue_answers (i : Instr) (eff : State → Nat → Group → Clause → Eff) (s : State) :
    issue i eff s = .fault .noIssuingGroup ∨ ∃ t, issue i eff s = .next t := by
  unfold issue
  split
  · exact .inl rfl
  split
  · exact .inl rfl
  split
  · exact .inl rfl
  right
  dsimp only
  repeat' split
  all_goals exact ⟨_, rfl⟩

/-- Device memory after an issued word has every property that it had before and that the meaning's own effect keeps. -/
theorem issue_memory (P : Tab Byte → Prop) {i : Instr} {eff : State → Nat → Group → Clause → Eff} {s t : State}
    (h : issue i eff s = .next t) (hs : P s.hbm)
    (he : ∀ gid g cl s' flow after, eff (s.setGroup gid g) gid g cl = .done s' flow after → P s'.hbm) : P t.hbm := by
  unfold issue at h
  dsimp only at h
  split at h
  · cases h
  split at h
  · cases h
  split at h
  · cases h
  repeat' split at h
  all_goals cases h
  all_goals simp only [State.raise_hbm, State.takeReport_hbm, State.notIssued_hbm, State.killLaunch_hbm,
    State.finish_hbm, State.updGroup_hbm]
  all_goals first
    | exact hs
    | exact he _ _ _ _ _ _ (by assumption)

end Sys2Proof.Machine
end

