-- ==== Sys2Proof/Laws/Memory.lean ====
section
/-!
SUPPORT. What translation, barriers, metering and a context's writes do to device memory: nothing, or a write that keeps
its one form.
-/

namespace Sys2Proof.Machine

/-! ### Translation reads only (R191 to R197, R212) -/

@[simp] theorem State.descWords_hbm (s : State) (gid : Option Nat) (die job t : Nat) :
    (s.descWords gid die job t).2.hbm = s.hbm := by
  unfold State.descWords
  repeat' split
  all_goals rfl

@[simp] theorem State.desc_hbm (s : State) (gid : Option Nat) (die job t : Nat) :
    (s.desc gid die job t).2.hbm = s.hbm := by
  unfold State.desc
  dsimp only
  repeat' split
  all_goals simp

@[simp] theorem State.fillExtent_hbm (s : State) (die job obj ext : Nat) :
    (s.fillExtent die job obj ext).2.hbm = s.hbm := rfl

@[simp] theorem State.extent_hbm (s : State) (die job obj ext : Nat) : (s.extent die job obj ext).2.hbm = s.hbm := by
  unfold State.extent
  repeat' split
  all_goals rfl

@[simp] theorem State.physOf_hbm (s : State) (die job obj off : Nat) : (s.physOf die job obj off).2.hbm = s.hbm := by
  simp [State.physOf]

@[simp] theorem State.lineOk_hbm (s : State) (die job obj line right : Nat) :
    (s.lineOk die job obj line right).2.hbm = s.hbm := by
  simp [State.lineOk]

@[simp] theorem State.linesOk_hbm (s : State) (die job obj right : Nat) (ls : List Nat) :
    (s.linesOk die job obj right ls).2.hbm = s.hbm := by
  induction ls generalizing s with
  | nil => rfl
  | cons l ls ih => simp [State.linesOk, ih]

/-! ### Barriers (R336 to R351) -/

@[simp] theorem State.setBar_hbm (s : State) (id : BarId) (b : Barrier) : (s.setBar id b).hbm = s.hbm := by
  cases id <;> rfl

@[simp] theorem State.clearArrivals_hbm (s : State) (id : BarId) (gen : Nat) (p : Group → Bool) :
    (s.clearArrivals id gen p).hbm = s.hbm := rfl

@[simp] theorem State.completeBar_hbm (s : State) (id : BarId) (b : Barrier) : (s.completeBar id b).hbm = s.hbm := by
  cases id <;> simp [State.completeBar]

@[simp] theorem State.evalBar_hbm (s : State) (id : BarId) : (s.evalBar id).hbm = s.hbm := by
  unfold State.evalBar
  repeat' split
  all_goals simp

@[simp] theorem State.barEvent_hbm (s : State) (id : BarId) (e : Nat × Int) : (s.barEvent id e).hbm = s.hbm := by
  unfold State.barEvent
  repeat' split
  all_goals simp

@[simp] theorem State.drainBar_hbm (s : State) (id : BarId) (es : List (Nat × Int)) :
    (s.drainBar id es).hbm = s.hbm := by
  induction es generalizing s with
  | nil => rfl
  | cons e es ih => simp [State.drainBar, ih]

@[simp] theorem State.memberDone_hbm (s : State) (id : BarId) (g : Group) : (s.memberDone id g).hbm = s.hbm := by
  unfold State.memberDone
  dsimp only
  repeat' split
  all_goals simp

@[simp] theorem State.groupLeavesBarriers_hbm (s : State) (g : Group) : (s.groupLeavesBarriers g).hbm = s.hbm := by
  have h : ∀ (l : List BarId) (s : State), (l.foldl (fun s id => s.memberDone id g) s).hbm = s.hbm := by
    intro l
    induction l with
    | nil => exact fun _ => rfl
    | cons id l ih => exact fun s => by rw [List.foldl_cons, ih, State.memberDone_hbm]
  unfold State.groupLeavesBarriers
  split
  · rfl
  · exact h _ _

@[simp] theorem State.completeGroup_hbm (s : State) (gid : Nat) (g : Group) : (s.completeGroup gid g).hbm = s.hbm := by
  simp [State.completeGroup]

@[simp] theorem State.clearTails_hbm (s : State) (id : BarId) (b : Barrier) (core : Nat) :
    (s.clearTails id b core).hbm = s.hbm := by
  have h : ∀ (l : List (Nat × Nat × Nat)) (s' : State), s'.hbm = s.hbm →
      (l.foldl (fun (s' : State) w => s'.clearArrivals id w.1 fun g => g.core = core && !s.evicted g) s').hbm = s.hbm := by
    intro l
    induction l with
    | nil => exact fun _ h => h
    | cons e l ih => exact fun s' h => ih _ (by simp [h])
  exact h _ _ rfl

@[simp] theorem State.phaseRelease_hbm (s : State) (id : BarId) (core : Nat) : (s.phaseRelease id core).hbm = s.hbm := by
  unfold State.phaseRelease
  dsimp only
  repeat' split
  all_goals simp

@[simp] theorem State.windowEnd_hbm (s : State) (id : BarId) : (s.windowEnd id).hbm = s.hbm := by
  unfold State.windowEnd
  dsimp only
  repeat' split
  all_goals simp

/-! ### Metering (R399, R400) -/

/-- What a request at an arbiter changes is its cluster's budget and queue. -/
theorem State.charge_frame (s : State) (core phys id line : Nat) :
    (s.charge core phys id line).2 = { s with clusters := (s.charge core phys id line).2.clusters } := by
  unfold State.charge
  repeat' split
  all_goals first
    | rfl
    | (dsimp only; split <;> rfl)

@[simp] theorem State.charge_hbm (s : State) (core phys id line : Nat) :
    (s.charge core phys id line).2.hbm = s.hbm := by
  rw [State.charge_frame]

@[simp] theorem State.grantLines_hbm (s : State) (core id n : Nat) (ls : List (Nat × Nat)) :
    (s.grantLines core id n ls).2.hbm = s.hbm := by
  induction ls generalizing s n with
  | nil => rfl
  | cons e es ih =>
    unfold State.grantLines
    split
    · simp [ih]
    · have h := State.charge_hbm s core e.2 id e.1
      split
      · rename_i hc
        exact (congrArg (fun r => r.2.hbm) hc).symm.trans h
      · rename_i hc
        dsimp only
        rw [ih]
        exact (congrArg (fun r => r.2.hbm) hc).symm.trans h

/-! ### A context's writes (R222 to R227, R232) -/

@[simp] theorem State.lateWrite_hbm (s : State) (l : Nat) : (s.lateWrite l).hbm = s.hbm := rfl

theorem State.atomicCell_hbm {s t : State} {job tag obj line phys : Nat}
    (h : s.atomicCell job tag obj line phys = some t) : t.hbm = s.hbm := by
  unfold State.atomicCell at h
  repeat' split at h
  all_goals cases h
  all_goals rfl

/-- A line's write at its home keeps the one form of device memory. -/
theorem State.ctxWrite_wf {s t : State} {job launch tag obj line phys : Nat} {tagged waited : Bool}
    {bytes : Tab Byte} (h : s.ctxWrite job launch tagged tag obj line phys bytes waited = some t) (hs : Memory.wf s.hbm = true) :
    Memory.wf t.hbm = true := by
  unfold State.ctxWrite at h
  repeat' split at h
  all_goals cases h
  · exact State.rootWrite_wf _ _ _ hs
  all_goals exact hs

/-- A write in a context below the root leaves root memory as it was. -/
theorem State.ctxWrite_tagged {s t : State} {job launch tag obj line phys : Nat} {bytes : Tab Byte} {waited : Bool}
    (ht : tag ≠ 0) (h : s.ctxWrite job launch true tag obj line phys bytes waited = some t) : t.hbm = s.hbm := by
  unfold State.ctxWrite at h
  simp only [Bool.not_true, Bool.false_or, decide_eq_true_eq, ht, if_false] at h
  repeat' split at h
  all_goals cases h
  all_goals rfl

/-- An atomic at its home keeps the one form of device memory. -/
theorem State.atomicAt_wf {s : State} {o : MemOp} {aop : AtomOp} {ty : AtomTy} {a : LaneAcc} {r : List Byte × State}
    (h : s.atomicAt o aop ty a = some r) (hs : Memory.wf s.hbm = true) : Memory.wf r.2.hbm = true := by
  unfold State.atomicAt at h
  dsimp only at h
  split at h
  · split at h
    · cases h
    · rename_i hc
      obtain ⟨t, ht, rfl⟩ := Option.map_eq_some_iff.1 h
      exact State.ctxWrite_wf ht (State.atomicCell_hbm hc ▸ hs)
  · obtain ⟨t, ht, rfl⟩ := Option.map_eq_some_iff.1 h
    exact State.ctxWrite_wf ht hs

/-- A copy's line of bytes keeps the one form of device memory. -/
theorem State.putLines_wf {c : CopyCmd} {d : Desc} {bytes : Tab Byte} (ps : List (Nat × Nat)) {s t : State}
    (h : s.putLines c d bytes ps = some t) (hs : Memory.wf s.hbm = true) : Memory.wf t.hbm = true := by
  induction ps generalizing s with
  | nil => cases h; exact hs
  | cons p ps ih =>
    unfold State.putLines at h
    dsimp only at h
    split at h
    · rename_i hw
      exact ih h (State.ctxWrite_wf hw hs)
    · cases h

/-! ### Operations that land -/

@[simp] theorem State.releaseHold_hbm (s : State) (gid : Nat) : (s.releaseHold gid).hbm = s.hbm := by
  unfold State.releaseHold
  repeat' split
  all_goals rfl

@[simp] theorem State.finishMem_hbm (s : State) (op : Nat) (o : MemOp) : (s.finishMem op o).hbm = s.hbm := by
  simp [State.finishMem]

@[simp] theorem State.startMem_hbm (s : State) (g : Group) (o : MemOp) (regs : List PReg) :
    (s.startMem g o regs).2.1.hbm = s.hbm := rfl

@[simp] theorem State.landVal_hbm (s : State) (op : Nat) (v : ValOp) : (s.landVal op v).hbm = s.hbm := rfl

@[simp] theorem State.enqueue_hbm (s : State) (op : Nat) (o : MemOp) (ls : List (Nat × Nat)) :
    (s.enqueue op o ls).hbm = s.hbm := by
  induction ls generalizing s with
  | nil => rfl
  | cons e es ih => obtain ⟨a, b⟩ := e; simp [State.enqueue, ih]

@[simp] theorem State.ackLine_hbm (s : State) (id : Nat) (e : SfqLine) : (s.ackLine id e).hbm = s.hbm := by
  unfold State.ackLine
  dsimp only
  repeat' split
  all_goals simp

/-- A store line at its home keeps the one form of device memory. -/
theorem State.lineArrive_wf (s : State) (id : Nat) (hs : Memory.wf s.hbm = true) :
    Memory.wf (s.lineArrive id).hbm = true := by
  unfold State.lineArrive
  split
  · exact hs
  rename_i e _
  split
  · exact hs
  have h0 : (if e.waiting then (true, s) else s.charge e.core e.phys id e.off).2.hbm = s.hbm := by
    split
    · rfl
    · exact State.charge_hbm ..
  split
  · rename_i s' hc
    rw [hc] at h0
    exact h0 ▸ hs
  rename_i s' hc
  rw [hc] at h0
  replace h0 : s'.hbm = s.hbm := h0
  split
  · rename_i t ht
    rw [State.ackLine_hbm]
    exact State.ctxWrite_wf ht (h0 ▸ hs)
  · split
    · exact h0 ▸ hs
    · simpa [h0] using hs

end Sys2Proof.Machine
end

