-- ==== Sys2Proof/Laws/PerInstr.lean ====
section
/-!
SUPPORT. The length and the shape of every encoding, one lemma for each constructor.
-/

namespace Sys2Proof.Laws

set_option Elab.async false

/-- The high bits of joined fields are those of the field on the left. -/
theorem extract_left {m n : Nat} (x : BitVec m) (y : BitVec n) (k w : Nat) (h : n ≤ k) :
    (x ++ y).extractLsb' k w = x.extractLsb' (k - n) w := by
  ext i hi
  simp only [BitVec.getElem_extractLsb', BitVec.getLsbD_append]
  rw [if_neg (by omega)]
  congr 1
  omega

/-- What the decoder sees of an instruction's length: an event has no words, and the first word of any other
instruction says how many there are (R43). -/
def Encodes.Statement (i : Instr) : Prop :=
  (encode i).length = i.words ∧
  match (encode i).head? with
  | none => i.isEvent = true
  | some w => i.isEvent = false ∧ (isTwoWord w = true ↔ i.words = 2)

/-- An event has no words. -/
theorem encodes_none {i : Instr} (h : encode i = []) (hw : i.words = 0) (he : i.isEvent = true) :
    Encodes.Statement i := by
  simp [Encodes.Statement, h, hw, he]

/-- An instruction of one word. -/
theorem encodes_one {i : Instr} {w : Word} (h : encode i = [w]) (hw : i.words = 1) (he : i.isEvent = false)
    (c : BitVec 8) (hc : w.extractLsb' 24 8 = c) (ht : c.toNat < 0xF0 := by decide) : Encodes.Statement i := by
  have h2 : isTwoWord w = false := by
    simp only [isTwoWord, opcodeOf, hc, decide_eq_false_iff_not]
    omega
  simp [Encodes.Statement, h, hw, he, h2]

/-- An instruction of two words. -/
theorem encodes_two {i : Instr} {w x : Word} (h : encode i = [w, x]) (hw : i.words = 2) (he : i.isEvent = false)
    (c : BitVec 8) (hc : w.extractLsb' 24 8 = c) (ht : 0xF0 ≤ c.toNat ∧ c.toNat ≤ 0xF4 := by decide) :
    Encodes.Statement i := by
  have h2 : isTwoWord w = true := by
    simpa only [isTwoWord, opcodeOf, hc, decide_eq_true_eq] using ht
  simp [Encodes.Statement, h, hw, he, h2]

namespace Encodes

theorem nop : Statement .nop :=
  encodes_one rfl rfl rfl 0x00#8 (by simp only [extract_left, Nat.reduceLeDiff, Nat.reduceSub]; rfl)
theorem bra : ∀ a b c d, Statement (.bra a b c d) :=
  fun _ _ _ _ => encodes_one rfl rfl rfl 0x01#8 (by simp only [extract_left, Nat.reduceLeDiff, Nat.reduceSub]; rfl)
theorem jmpx : ∀ a b, Statement (.jmpx a b) :=
  fun _ _ => encodes_one rfl rfl rfl 0x02#8 (by simp only [extract_left, Nat.reduceLeDiff, Nat.reduceSub]; rfl)
theorem exitG : Statement .exitG :=
  encodes_one rfl rfl rfl 0x03#8 (by simp only [extract_left, Nat.reduceLeDiff, Nat.reduceSub]; rfl)
theorem enrol : ∀ a, Statement (.enrol a) :=
  fun _ => encodes_one rfl rfl rfl 0x04#8 (by simp only [extract_left, Nat.reduceLeDiff, Nat.reduceSub]; rfl)
theorem park : ∀ a, Statement (.park a) :=
  fun _ => encodes_one rfl rfl rfl 0x05#8 (by simp only [extract_left, Nat.reduceLeDiff, Nat.reduceSub]; rfl)
theorem strike : ∀ a, Statement (.strike a) :=
  fun _ => encodes_one rfl rfl rfl 0x06#8 (by simp only [extract_left, Nat.reduceLeDiff, Nat.reduceSub]; rfl)
theorem yieldG : Statement .yieldG :=
  encodes_one rfl rfl rfl 0x07#8 (by simp only [extract_left, Nat.reduceLeDiff, Nat.reduceSub]; rfl)
theorem waitC : ∀ a b c d e f, Statement (.waitC a b c d e f) :=
  fun _ _ _ _ _ _ => encodes_one rfl rfl rfl 0x08#8 (by simp only [extract_left, Nat.reduceLeDiff, Nat.reduceSub]; rfl)
theorem repeatN : ∀ a, Statement (.repeatN a) :=
  fun _ => encodes_one rfl rfl rfl 0x09#8 (by simp only [extract_left, Nat.reduceLeDiff, Nat.reduceSub]; rfl)
theorem trapI : ∀ a, Statement (.trapI a) :=
  fun _ => encodes_one rfl rfl rfl 0x0A#8 (by simp only [extract_left, Nat.reduceLeDiff, Nat.reduceSub]; rfl)
theorem bkpt : ∀ a, Statement (.bkpt a) :=
  fun _ => encodes_one rfl rfl rfl 0x0B#8 (by simp only [extract_left, Nat.reduceLeDiff, Nat.reduceSub]; rfl)
theorem sleepI : ∀ a, Statement (.sleepI a) :=
  fun _ => encodes_one rfl rfl rfl 0x0C#8 (by simp only [extract_left, Nat.reduceLeDiff, Nat.reduceSub]; rfl)
theorem sleepExpire : ∀ a, Statement (.sleepExpire a) := fun _ => encodes_none rfl rfl rfl
theorem srd : ∀ a b, Statement (.srd a b) :=
  fun _ _ => encodes_one rfl rfl rfl 0x0D#8 (by simp only [extract_left, Nat.reduceLeDiff, Nat.reduceSub]; rfl)
theorem swr : ∀ a b, Statement (.swr a b) :=
  fun _ _ => encodes_one rfl rfl rfl 0x0E#8 (by simp only [extract_left, Nat.reduceLeDiff, Nat.reduceSub]; rfl)
theorem tret : Statement .tret :=
  encodes_one rfl rfl rfl 0x0F#8 (by simp only [extract_left, Nat.reduceLeDiff, Nat.reduceSub]; rfl)
theorem illegalInstruction : ∀ a b, Statement (.illegalInstruction a b) := fun _ _ => encodes_none rfl rfl rfl
theorem iadd : ∀ a b c, Statement (.iadd a b c) :=
  fun _ _ _ => encodes_one rfl rfl rfl 0x10#8 (by simp only [extract_left, Nat.reduceLeDiff, Nat.reduceSub]; rfl)
theorem isub : ∀ a b c, Statement (.isub a b c) :=
  fun _ _ _ => encodes_one rfl rfl rfl 0x11#8 (by simp only [extract_left, Nat.reduceLeDiff, Nat.reduceSub]; rfl)
theorem imul : ∀ a b c, Statement (.imul a b c) :=
  fun _ _ _ => encodes_one rfl rfl rfl 0x12#8 (by simp only [extract_left, Nat.reduceLeDiff, Nat.reduceSub]; rfl)
theorem imulhiI32 : ∀ a b c, Statement (.imulhiI32 a b c) :=
  fun _ _ _ => encodes_one rfl rfl rfl 0x13#8 (by simp only [extract_left, Nat.reduceLeDiff, Nat.reduceSub]; rfl)
theorem imulhiUi32 : ∀ a b c, Statement (.imulhiUi32 a b c) :=
  fun _ _ _ => encodes_one rfl rfl rfl 0x14#8 (by simp only [extract_left, Nat.reduceLeDiff, Nat.reduceSub]; rfl)
theorem iminI32 : ∀ a b c, Statement (.iminI32 a b c) :=
  fun _ _ _ => encodes_one rfl rfl rfl 0x15#8 (by simp only [extract_left, Nat.reduceLeDiff, Nat.reduceSub]; rfl)
theorem iminUi32 : ∀ a b c, Statement (.iminUi32 a b c) :=
  fun _ _ _ => encodes_one rfl rfl rfl 0x16#8 (by simp only [extract_left, Nat.reduceLeDiff, Nat.reduceSub]; rfl)
theorem imaxI32 : ∀ a b c, Statement (.imaxI32 a b c) :=
  fun _ _ _ => encodes_one rfl rfl rfl 0x17#8 (by simp only [extract_left, Nat.reduceLeDiff, Nat.reduceSub]; rfl)
theorem imaxUi32 : ∀ a b c, Statement (.imaxUi32 a b c) :=
  fun _ _ _ => encodes_one rfl rfl rfl 0x18#8 (by simp only [extract_left, Nat.reduceLeDiff, Nat.reduceSub]; rfl)
theorem andR : ∀ a b c, Statement (.andR a b c) :=
  fun _ _ _ => encodes_one rfl rfl rfl 0x19#8 (by simp only [extract_left, Nat.reduceLeDiff, Nat.reduceSub]; rfl)
theorem orR : ∀ a b c, Statement (.orR a b c) :=
  fun _ _ _ => encodes_one rfl rfl rfl 0x1A#8 (by simp only [extract_left, Nat.reduceLeDiff, Nat.reduceSub]; rfl)
theorem xorR : ∀ a b c, Statement (.xorR a b c) :=
  fun _ _ _ => encodes_one rfl rfl rfl 0x1B#8 (by simp only [extract_left, Nat.reduceLeDiff, Nat.reduceSub]; rfl)
theorem shl : ∀ a b c, Statement (.shl a b c) :=
  fun _ _ _ => encodes_one rfl rfl rfl 0x1C#8 (by simp only [extract_left, Nat.reduceLeDiff, Nat.reduceSub]; rfl)
theorem shr : ∀ a b c, Statement (.shr a b c) :=
  fun _ _ _ => encodes_one rfl rfl rfl 0x1D#8 (by simp only [extract_left, Nat.reduceLeDiff, Nat.reduceSub]; rfl)
theorem sar : ∀ a b c, Statement (.sar a b c) :=
  fun _ _ _ => encodes_one rfl rfl rfl 0x1E#8 (by simp only [extract_left, Nat.reduceLeDiff, Nat.reduceSub]; rfl)
theorem rot : ∀ a b c, Statement (.rot a b c) :=
  fun _ _ _ => encodes_one rfl rfl rfl 0x1F#8 (by simp only [extract_left, Nat.reduceLeDiff, Nat.reduceSub]; rfl)
theorem mov : ∀ a b, Statement (.mov a b) :=
  fun _ _ => encodes_one rfl rfl rfl 0x20#8 (by simp only [extract_left, Nat.reduceLeDiff, Nat.reduceSub]; rfl)
theorem notR : ∀ a b, Statement (.notR a b) :=
  fun _ _ => encodes_one rfl rfl rfl 0x21#8 (by simp only [extract_left, Nat.reduceLeDiff, Nat.reduceSub]; rfl)
theorem ineg : ∀ a b, Statement (.ineg a b) :=
  fun _ _ => encodes_one rfl rfl rfl 0x22#8 (by simp only [extract_left, Nat.reduceLeDiff, Nat.reduceSub]; rfl)
theorem iabs : ∀ a b, Statement (.iabs a b) :=
  fun _ _ => encodes_one rfl rfl rfl 0x23#8 (by simp only [extract_left, Nat.reduceLeDiff, Nat.reduceSub]; rfl)
theorem clz : ∀ a b, Statement (.clz a b) :=
  fun _ _ => encodes_one rfl rfl rfl 0x24#8 (by simp only [extract_left, Nat.reduceLeDiff, Nat.reduceSub]; rfl)
theorem popc : ∀ a b, Statement (.popc a b) :=
  fun _ _ => encodes_one rfl rfl rfl 0x25#8 (by simp only [extract_left, Nat.reduceLeDiff, Nat.reduceSub]; rfl)
theorem brev : ∀ a b, Statement (.brev a b) :=
  fun _ _ => encodes_one rfl rfl rfl 0x26#8 (by simp only [extract_left, Nat.reduceLeDiff, Nat.reduceSub]; rfl)
theorem iaddsatI32 : ∀ a b c, Statement (.iaddsatI32 a b c) :=
  fun _ _ _ => encodes_one rfl rfl rfl 0x27#8 (by simp only [extract_left, Nat.reduceLeDiff, Nat.reduceSub]; rfl)
theorem isubsatI32 : ∀ a b c, Statement (.isubsatI32 a b c) :=
  fun _ _ _ => encodes_one rfl rfl rfl 0x28#8 (by simp only [extract_left, Nat.reduceLeDiff, Nat.reduceSub]; rfl)
theorem iaddsatUi32 : ∀ a b c, Statement (.iaddsatUi32 a b c) :=
  fun _ _ _ => encodes_one rfl rfl rfl 0x29#8 (by simp only [extract_left, Nat.reduceLeDiff, Nat.reduceSub]; rfl)
theorem iamini : ∀ a b c, Statement (.iamini a b c) :=
  fun _ _ _ => encodes_one rfl rfl rfl 0x2A#8 (by simp only [extract_left, Nat.reduceLeDiff, Nat.reduceSub]; rfl)
theorem iaddi : ∀ a b c, Statement (.iaddi a b c) :=
  fun _ _ _ => encodes_one rfl rfl rfl 0x30#8 (by simp only [extract_left, Nat.reduceLeDiff, Nat.reduceSub]; rfl)
theorem andi : ∀ a b c, Statement (.andi a b c) :=
  fun _ _ _ => encodes_one rfl rfl rfl 0x31#8 (by simp only [extract_left, Nat.reduceLeDiff, Nat.reduceSub]; rfl)
theorem ori : ∀ a b c, Statement (.ori a b c) :=
  fun _ _ _ => encodes_one rfl rfl rfl 0x32#8 (by simp only [extract_left, Nat.reduceLeDiff, Nat.reduceSub]; rfl)
theorem xori : ∀ a b c, Statement (.xori a b c) :=
  fun _ _ _ => encodes_one rfl rfl rfl 0x33#8 (by simp only [extract_left, Nat.reduceLeDiff, Nat.reduceSub]; rfl)
theorem shli : ∀ a b c, Statement (.shli a b c) :=
  fun _ _ _ => encodes_one rfl rfl rfl 0x34#8 (by simp only [extract_left, Nat.reduceLeDiff, Nat.reduceSub]; rfl)
theorem shri : ∀ a b c, Statement (.shri a b c) :=
  fun _ _ _ => encodes_one rfl rfl rfl 0x35#8 (by simp only [extract_left, Nat.reduceLeDiff, Nat.reduceSub]; rfl)
theorem sari : ∀ a b c, Statement (.sari a b c) :=
  fun _ _ _ => encodes_one rfl rfl rfl 0x36#8 (by simp only [extract_left, Nat.reduceLeDiff, Nat.reduceSub]; rfl)
theorem roti : ∀ a b c, Statement (.roti a b c) :=
  fun _ _ _ => encodes_one rfl rfl rfl 0x37#8 (by simp only [extract_left, Nat.reduceLeDiff, Nat.reduceSub]; rfl)
theorem movi : ∀ a b, Statement (.movi a b) :=
  fun _ _ => encodes_one rfl rfl rfl 0x38#8 (by simp only [extract_left, Nat.reduceLeDiff, Nat.reduceSub]; rfl)
theorem movhi : ∀ a b, Statement (.movhi a b) :=
  fun _ _ => encodes_one rfl rfl rfl 0x39#8 (by simp only [extract_left, Nat.reduceLeDiff, Nat.reduceSub]; rfl)
theorem imuli : ∀ a b c, Statement (.imuli a b c) :=
  fun _ _ _ => encodes_one rfl rfl rfl 0x3A#8 (by simp only [extract_left, Nat.reduceLeDiff, Nat.reduceSub]; rfl)
theorem fadd : ∀ a b c, Statement (.fadd a b c) :=
  fun _ _ _ => encodes_one rfl rfl rfl 0x40#8 (by simp only [extract_left, Nat.reduceLeDiff, Nat.reduceSub]; rfl)
theorem fsub : ∀ a b c, Statement (.fsub a b c) :=
  fun _ _ _ => encodes_one rfl rfl rfl 0x41#8 (by simp only [extract_left, Nat.reduceLeDiff, Nat.reduceSub]; rfl)
theorem fmul : ∀ a b c, Statement (.fmul a b c) :=
  fun _ _ _ => encodes_one rfl rfl rfl 0x42#8 (by simp only [extract_left, Nat.reduceLeDiff, Nat.reduceSub]; rfl)
theorem fmin : ∀ a b c, Statement (.fmin a b c) :=
  fun _ _ _ => encodes_one rfl rfl rfl 0x43#8 (by simp only [extract_left, Nat.reduceLeDiff, Nat.reduceSub]; rfl)
theorem fmax : ∀ a b c, Statement (.fmax a b c) :=
  fun _ _ _ => encodes_one rfl rfl rfl 0x44#8 (by simp only [extract_left, Nat.reduceLeDiff, Nat.reduceSub]; rfl)
theorem fabs : ∀ a b, Statement (.fabs a b) :=
  fun _ _ => encodes_one rfl rfl rfl 0x45#8 (by simp only [extract_left, Nat.reduceLeDiff, Nat.reduceSub]; rfl)
theorem fneg : ∀ a b, Statement (.fneg a b) :=
  fun _ _ => encodes_one rfl rfl rfl 0x46#8 (by simp only [extract_left, Nat.reduceLeDiff, Nat.reduceSub]; rfl)
theorem frcp : ∀ a b, Statement (.frcp a b) :=
  fun _ _ => encodes_one rfl rfl rfl 0x47#8 (by simp only [extract_left, Nat.reduceLeDiff, Nat.reduceSub]; rfl)
theorem frsq : ∀ a b, Statement (.frsq a b) :=
  fun _ _ => encodes_one rfl rfl rfl 0x48#8 (by simp only [extract_left, Nat.reduceLeDiff, Nat.reduceSub]; rfl)
theorem fsqrt : ∀ a b, Statement (.fsqrt a b) :=
  fun _ _ => encodes_one rfl rfl rfl 0x49#8 (by simp only [extract_left, Nat.reduceLeDiff, Nat.reduceSub]; rfl)
theorem fexp2 : ∀ a b, Statement (.fexp2 a b) :=
  fun _ _ => encodes_one rfl rfl rfl 0x4A#8 (by simp only [extract_left, Nat.reduceLeDiff, Nat.reduceSub]; rfl)
theorem flog2 : ∀ a b, Statement (.flog2 a b) :=
  fun _ _ => encodes_one rfl rfl rfl 0x4B#8 (by simp only [extract_left, Nat.reduceLeDiff, Nat.reduceSub]; rfl)
theorem fsin : ∀ a b, Statement (.fsin a b) :=
  fun _ _ => encodes_one rfl rfl rfl 0x4C#8 (by simp only [extract_left, Nat.reduceLeDiff, Nat.reduceSub]; rfl)
theorem fcos : ∀ a b, Statement (.fcos a b) :=
  fun _ _ => encodes_one rfl rfl rfl 0x4D#8 (by simp only [extract_left, Nat.reduceLeDiff, Nat.reduceSub]; rfl)
theorem frnd : ∀ a b c, Statement (.frnd a b c) :=
  fun _ _ _ => encodes_one rfl rfl rfl 0x4E#8 (by simp only [extract_left, Nat.reduceLeDiff, Nat.reduceSub]; rfl)
theorem fclass : ∀ a b, Statement (.fclass a b) :=
  fun _ _ => encodes_one rfl rfl rfl 0x4F#8 (by simp only [extract_left, Nat.reduceLeDiff, Nat.reduceSub]; rfl)
theorem haddF16 : ∀ a b c, Statement (.haddF16 a b c) :=
  fun _ _ _ => encodes_one rfl rfl rfl 0x50#8 (by simp only [extract_left, Nat.reduceLeDiff, Nat.reduceSub]; rfl)
theorem hmulF16 : ∀ a b c, Statement (.hmulF16 a b c) :=
  fun _ _ _ => encodes_one rfl rfl rfl 0x51#8 (by simp only [extract_left, Nat.reduceLeDiff, Nat.reduceSub]; rfl)
theorem hminF16 : ∀ a b c, Statement (.hminF16 a b c) :=
  fun _ _ _ => encodes_one rfl rfl rfl 0x52#8 (by simp only [extract_left, Nat.reduceLeDiff, Nat.reduceSub]; rfl)
theorem hmaxF16 : ∀ a b c, Statement (.hmaxF16 a b c) :=
  fun _ _ _ => encodes_one rfl rfl rfl 0x53#8 (by simp only [extract_left, Nat.reduceLeDiff, Nat.reduceSub]; rfl)
theorem haddBf16 : ∀ a b c, Statement (.haddBf16 a b c) :=
  fun _ _ _ => encodes_one rfl rfl rfl 0x54#8 (by simp only [extract_left, Nat.reduceLeDiff, Nat.reduceSub]; rfl)
theorem hmulBf16 : ∀ a b c, Statement (.hmulBf16 a b c) :=
  fun _ _ _ => encodes_one rfl rfl rfl 0x55#8 (by simp only [extract_left, Nat.reduceLeDiff, Nat.reduceSub]; rfl)
theorem hminBf16 : ∀ a b c, Statement (.hminBf16 a b c) :=
  fun _ _ _ => encodes_one rfl rfl rfl 0x56#8 (by simp only [extract_left, Nat.reduceLeDiff, Nat.reduceSub]; rfl)
theorem hmaxBf16 : ∀ a b c, Statement (.hmaxBf16 a b c) :=
  fun _ _ _ => encodes_one rfl rfl rfl 0x57#8 (by simp only [extract_left, Nat.reduceLeDiff, Nat.reduceSub]; rfl)
theorem icmpI32 : ∀ a b c d, Statement (.icmpI32 a b c d) :=
  fun _ _ _ _ => encodes_one rfl rfl rfl 0x60#8 (by simp only [extract_left, Nat.reduceLeDiff, Nat.reduceSub]; rfl)
theorem icmpUi32 : ∀ a b c d, Statement (.icmpUi32 a b c d) :=
  fun _ _ _ _ => encodes_one rfl rfl rfl 0x61#8 (by simp only [extract_left, Nat.reduceLeDiff, Nat.reduceSub]; rfl)
theorem fcmp : ∀ a b c d, Statement (.fcmp a b c d) :=
  fun _ _ _ _ => encodes_one rfl rfl rfl 0x62#8 (by simp only [extract_left, Nat.reduceLeDiff, Nat.reduceSub]; rfl)
theorem plop : ∀ a b c d, Statement (.plop a b c d) :=
  fun _ _ _ _ => encodes_one rfl rfl rfl 0x63#8 (by simp only [extract_left, Nat.reduceLeDiff, Nat.reduceSub]; rfl)
theorem ptov : ∀ a b, Statement (.ptov a b) :=
  fun _ _ => encodes_one rfl rfl rfl 0x64#8 (by simp only [extract_left, Nat.reduceLeDiff, Nat.reduceSub]; rfl)
theorem vtop : ∀ a b, Statement (.vtop a b) :=
  fun _ _ => encodes_one rfl rfl rfl 0x65#8 (by simp only [extract_left, Nat.reduceLeDiff, Nat.reduceSub]; rfl)
theorem qswz : ∀ a b c, Statement (.qswz a b c) :=
  fun _ _ _ => encodes_one rfl rfl rfl 0x70#8 (by simp only [extract_left, Nat.reduceLeDiff, Nat.reduceSub]; rfl)
theorem qbc : ∀ a b c, Statement (.qbc a b c) :=
  fun _ _ _ => encodes_one rfl rfl rfl 0x71#8 (by simp only [extract_left, Nat.reduceLeDiff, Nat.reduceSub]; rfl)
theorem lshup : ∀ a b c, Statement (.lshup a b c) :=
  fun _ _ _ => encodes_one rfl rfl rfl 0x72#8 (by simp only [extract_left, Nat.reduceLeDiff, Nat.reduceSub]; rfl)
theorem lshdn : ∀ a b c, Statement (.lshdn a b c) :=
  fun _ _ _ => encodes_one rfl rfl rfl 0x73#8 (by simp only [extract_left, Nat.reduceLeDiff, Nat.reduceSub]; rfl)
theorem lshfx : ∀ a b c, Statement (.lshfx a b c) :=
  fun _ _ _ => encodes_one rfl rfl rfl 0x74#8 (by simp only [extract_left, Nat.reduceLeDiff, Nat.reduceSub]; rfl)
theorem gbal : ∀ a b, Statement (.gbal a b) :=
  fun _ _ => encodes_one rfl rfl rfl 0x75#8 (by simp only [extract_left, Nat.reduceLeDiff, Nat.reduceSub]; rfl)
theorem grediAdd : ∀ a b, Statement (.grediAdd a b) :=
  fun _ _ => encodes_one rfl rfl rfl 0x76#8 (by simp only [extract_left, Nat.reduceLeDiff, Nat.reduceSub]; rfl)
theorem grediMin : ∀ a b, Statement (.grediMin a b) :=
  fun _ _ => encodes_one rfl rfl rfl 0x77#8 (by simp only [extract_left, Nat.reduceLeDiff, Nat.reduceSub]; rfl)
theorem grediMax : ∀ a b, Statement (.grediMax a b) :=
  fun _ _ => encodes_one rfl rfl rfl 0x78#8 (by simp only [extract_left, Nat.reduceLeDiff, Nat.reduceSub]; rfl)
theorem gredfAdd : ∀ a b, Statement (.gredfAdd a b) :=
  fun _ _ => encodes_one rfl rfl rfl 0x79#8 (by simp only [extract_left, Nat.reduceLeDiff, Nat.reduceSub]; rfl)
theorem gscanAdd : ∀ a b, Statement (.gscanAdd a b) :=
  fun _ _ => encodes_one rfl rfl rfl 0x7A#8 (by simp only [extract_left, Nat.reduceLeDiff, Nat.reduceSub]; rfl)
theorem rdlane : ∀ a b c, Statement (.rdlane a b c) :=
  fun _ _ _ => encodes_one rfl rfl rfl 0x7B#8 (by simp only [extract_left, Nat.reduceLeDiff, Nat.reduceSub]; rfl)
theorem wrlane : ∀ a b c, Statement (.wrlane a b c) :=
  fun _ _ _ => encodes_one rfl rfl rfl 0x7C#8 (by simp only [extract_left, Nat.reduceLeDiff, Nat.reduceSub]; rfl)
theorem gany : ∀ a b, Statement (.gany a b) :=
  fun _ _ => encodes_one rfl rfl rfl 0x7D#8 (by simp only [extract_left, Nat.reduceLeDiff, Nat.reduceSub]; rfl)
theorem gall : ∀ a b, Statement (.gall a b) :=
  fun _ _ => encodes_one rfl rfl rfl 0x7E#8 (by simp only [extract_left, Nat.reduceLeDiff, Nat.reduceSub]; rfl)
theorem xset : ∀ a b c, Statement (.xset a b c) :=
  fun _ _ _ => encodes_one rfl rfl rfl 0x80#8 (by simp only [extract_left, Nat.reduceLeDiff, Nat.reduceSub]; rfl)
theorem xinc : ∀ a b, Statement (.xinc a b) :=
  fun _ _ => encodes_one rfl rfl rfl 0x81#8 (by simp only [extract_left, Nat.reduceLeDiff, Nat.reduceSub]; rfl)
theorem movxr : ∀ a b c, Statement (.movxr a b c) :=
  fun _ _ _ => encodes_one rfl rfl rfl 0x82#8 (by simp only [extract_left, Nat.reduceLeDiff, Nat.reduceSub]; rfl)
theorem movxw : ∀ a b c, Statement (.movxw a b c) :=
  fun _ _ _ => encodes_one rfl rfl rfl 0x83#8 (by simp only [extract_left, Nat.reduceLeDiff, Nat.reduceSub]; rfl)
theorem xrd : ∀ a b, Statement (.xrd a b) :=
  fun _ _ => encodes_one rfl rfl rfl 0x84#8 (by simp only [extract_left, Nat.reduceLeDiff, Nat.reduceSub]; rfl)
theorem ld : ∀ a b c d, Statement (.ld a b c d) :=
  fun _ _ _ _ => encodes_one rfl rfl rfl 0x90#8 (by simp only [extract_left, Nat.reduceLeDiff, Nat.reduceSub]; rfl)
theorem st : ∀ a b c d, Statement (.st a b c d) :=
  fun _ _ _ _ => encodes_one rfl rfl rfl 0x91#8 (by simp only [extract_left, Nat.reduceLeDiff, Nat.reduceSub]; rfl)
theorem lds : ∀ a b c, Statement (.lds a b c) :=
  fun _ _ _ => encodes_one rfl rfl rfl 0x92#8 (by simp only [extract_left, Nat.reduceLeDiff, Nat.reduceSub]; rfl)
theorem sts : ∀ a b c, Statement (.sts a b c) :=
  fun _ _ _ => encodes_one rfl rfl rfl 0x93#8 (by simp only [extract_left, Nat.reduceLeDiff, Nat.reduceSub]; rfl)
theorem sld : ∀ a b c d, Statement (.sld a b c d) :=
  fun _ _ _ _ => encodes_one rfl rfl rfl 0x94#8 (by simp only [extract_left, Nat.reduceLeDiff, Nat.reduceSub]; rfl)
theorem bset : ∀ a b, Statement (.bset a b) :=
  fun _ _ => encodes_one rfl rfl rfl 0x95#8 (by simp only [extract_left, Nat.reduceLeDiff, Nat.reduceSub]; rfl)
theorem bget : ∀ a b, Statement (.bget a b) :=
  fun _ _ => encodes_one rfl rfl rfl 0x96#8 (by simp only [extract_left, Nat.reduceLeDiff, Nat.reduceSub]; rfl)
theorem fence : ∀ a b, Statement (.fence a b) :=
  fun _ _ => encodes_one rfl rfl rfl 0x97#8 (by simp only [extract_left, Nat.reduceLeDiff, Nat.reduceSub]; rfl)
theorem tfence : ∀ a, Statement (.tfence a) :=
  fun _ => encodes_one rfl rfl rfl 0x98#8 (by simp only [extract_left, Nat.reduceLeDiff, Nat.reduceSub]; rfl)
theorem bara : ∀ a b, Statement (.bara a b) :=
  fun _ _ => encodes_one rfl rfl rfl 0xA0#8 (by simp only [extract_left, Nat.reduceLeDiff, Nat.reduceSub]; rfl)
theorem barw : ∀ a b, Statement (.barw a b) :=
  fun _ _ => encodes_one rfl rfl rfl 0xA1#8 (by simp only [extract_left, Nat.reduceLeDiff, Nat.reduceSub]; rfl)
theorem bars : ∀ a, Statement (.bars a) :=
  fun _ => encodes_one rfl rfl rfl 0xA2#8 (by simp only [extract_left, Nat.reduceLeDiff, Nat.reduceSub]; rfl)
theorem barexp : ∀ a b, Statement (.barexp a b) :=
  fun _ _ => encodes_one rfl rfl rfl 0xA3#8 (by simp only [extract_left, Nat.reduceLeDiff, Nat.reduceSub]; rfl)
theorem ctxnew : ∀ a, Statement (.ctxnew a) :=
  fun _ => encodes_one rfl rfl rfl 0xA4#8 (by simp only [extract_left, Nat.reduceLeDiff, Nat.reduceSub]; rfl)
theorem ctxtry : ∀ a b, Statement (.ctxtry a b) :=
  fun _ _ => encodes_one rfl rfl rfl 0xA5#8 (by simp only [extract_left, Nat.reduceLeDiff, Nat.reduceSub]; rfl)
theorem contextTagRegister : ∀ a, Statement (.contextTagRegister a) := fun _ => encodes_none rfl rfl rfl
theorem ctxset : ∀ a, Statement (.ctxset a) :=
  fun _ => encodes_one rfl rfl rfl 0xA6#8 (by simp only [extract_left, Nat.reduceLeDiff, Nat.reduceSub]; rfl)
theorem ctxretCommit : ∀ a b, Statement (.ctxretCommit a b) :=
  fun _ _ => encodes_one rfl rfl rfl 0xA7#8 (by simp only [extract_left, Nat.reduceLeDiff, Nat.reduceSub]; rfl)
theorem ctxretDrop : ∀ a b, Statement (.ctxretDrop a b) :=
  fun _ _ => encodes_one rfl rfl rfl 0xA7#8 (by simp only [extract_left, Nat.reduceLeDiff, Nat.reduceSub]; rfl)
theorem ctxq : ∀ a b, Statement (.ctxq a b) :=
  fun _ _ => encodes_one rfl rfl rfl 0xA8#8 (by simp only [extract_left, Nat.reduceLeDiff, Nat.reduceSub]; rfl)
theorem accclr : ∀ a, Statement (.accclr a) :=
  fun _ => encodes_one rfl rfl rfl 0xB0#8 (by simp only [extract_left, Nat.reduceLeDiff, Nat.reduceSub]; rfl)
theorem accrel : ∀ a, Statement (.accrel a) :=
  fun _ => encodes_one rfl rfl rfl 0xB1#8 (by simp only [extract_left, Nat.reduceLeDiff, Nat.reduceSub]; rfl)
theorem cvt : ∀ a b c, Statement (.cvt a b c) :=
  fun _ _ _ => encodes_one rfl rfl rfl 0xC0#8 (by simp only [extract_left, Nat.reduceLeDiff, Nat.reduceSub]; rfl)
theorem pkh : ∀ a b c, Statement (.pkh a b c) :=
  fun _ _ _ => encodes_one rfl rfl rfl 0xC1#8 (by simp only [extract_left, Nat.reduceLeDiff, Nat.reduceSub]; rfl)
theorem upkh : ∀ a b c, Statement (.upkh a b c) :=
  fun _ _ _ => encodes_one rfl rfl rfl 0xC2#8 (by simp only [extract_left, Nat.reduceLeDiff, Nat.reduceSub]; rfl)
theorem qw : ∀ a b, Statement (.qw a b) :=
  fun _ _ => encodes_one rfl rfl rfl 0xD0#8 (by simp only [extract_left, Nat.reduceLeDiff, Nat.reduceSub]; rfl)
theorem qr : ∀ a b, Statement (.qr a b) :=
  fun _ _ => encodes_one rfl rfl rfl 0xD1#8 (by simp only [extract_left, Nat.reduceLeDiff, Nat.reduceSub]; rfl)
theorem qtry : ∀ a b c, Statement (.qtry a b c) :=
  fun _ _ _ => encodes_one rfl rfl rfl 0xD2#8 (by simp only [extract_left, Nat.reduceLeDiff, Nat.reduceSub]; rfl)
theorem sgret : ∀ a, Statement (.sgret a) :=
  fun _ => encodes_one rfl rfl rfl 0xD3#8 (by simp only [extract_left, Nat.reduceLeDiff, Nat.reduceSub]; rfl)
theorem sgstat : ∀ a b c, Statement (.sgstat a b c) :=
  fun _ _ _ => encodes_one rfl rfl rfl 0xD4#8 (by simp only [extract_left, Nat.reduceLeDiff, Nat.reduceSub]; rfl)
theorem boost : ∀ a b, Statement (.boost a b) :=
  fun _ _ => encodes_one rfl rfl rfl 0xE0#8 (by simp only [extract_left, Nat.reduceLeDiff, Nat.reduceSub]; rfl)
theorem boostrel : Statement .boostrel :=
  encodes_one rfl rfl rfl 0xE1#8 (by simp only [extract_left, Nat.reduceLeDiff, Nat.reduceSub]; rfl)
theorem ffmaF32 : ∀ a b c d, Statement (.ffmaF32 a b c d) :=
  fun _ _ _ _ => encodes_two rfl rfl rfl 0xF0#8 (by simp only [extract_left, Nat.reduceLeDiff, Nat.reduceSub]; rfl)
theorem hfmaF16 : ∀ a b c d, Statement (.hfmaF16 a b c d) :=
  fun _ _ _ _ => encodes_two rfl rfl rfl 0xF0#8 (by simp only [extract_left, Nat.reduceLeDiff, Nat.reduceSub]; rfl)
theorem hfmaBf16 : ∀ a b c d, Statement (.hfmaBf16 a b c d) :=
  fun _ _ _ _ => encodes_two rfl rfl rfl 0xF0#8 (by simp only [extract_left, Nat.reduceLeDiff, Nat.reduceSub]; rfl)
theorem imad : ∀ a b c d, Statement (.imad a b c d) :=
  fun _ _ _ _ => encodes_two rfl rfl rfl 0xF0#8 (by simp only [extract_left, Nat.reduceLeDiff, Nat.reduceSub]; rfl)
theorem sel : ∀ a b c d, Statement (.sel a b c d) :=
  fun _ _ _ _ => encodes_two rfl rfl rfl 0xF0#8 (by simp only [extract_left, Nat.reduceLeDiff, Nat.reduceSub]; rfl)
theorem bfe : ∀ a b c d e, Statement (.bfe a b c d e) :=
  fun _ _ _ _ _ => encodes_two rfl rfl rfl 0xF0#8 (by simp only [extract_left, Nat.reduceLeDiff, Nat.reduceSub]; rfl)
theorem bfi : ∀ a b c d e, Statement (.bfi a b c d e) :=
  fun _ _ _ _ _ => encodes_two rfl rfl rfl 0xF0#8 (by simp only [extract_left, Nat.reduceLeDiff, Nat.reduceSub]; rfl)
theorem iamin : ∀ a b c d, Statement (.iamin a b c d) :=
  fun _ _ _ _ => encodes_two rfl rfl rfl 0xF0#8 (by simp only [extract_left, Nat.reduceLeDiff, Nat.reduceSub]; rfl)
theorem logt : ∀ a b c d e, Statement (.logt a b c d e) :=
  fun _ _ _ _ _ => encodes_two rfl rfl rfl 0xF0#8 (by simp only [extract_left, Nat.reduceLeDiff, Nat.reduceSub]; rfl)
theorem dot4I8 : ∀ a b c d, Statement (.dot4I8 a b c d) :=
  fun _ _ _ _ => encodes_two rfl rfl rfl 0xF0#8 (by simp only [extract_left, Nat.reduceLeDiff, Nat.reduceSub]; rfl)
theorem spcmp : ∀ a b c d e, Statement (.spcmp a b c d e) :=
  fun _ _ _ _ _ => encodes_two rfl rfl rfl 0xF0#8 (by simp only [extract_left, Nat.reduceLeDiff, Nat.reduceSub]; rfl)
theorem iaddk : ∀ a b c, Statement (.iaddk a b c) :=
  fun _ _ _ => encodes_two rfl rfl rfl 0xF1#8 (by simp only [extract_left, Nat.reduceLeDiff, Nat.reduceSub]; rfl)
theorem movk : ∀ a b, Statement (.movk a b) :=
  fun _ _ => encodes_two rfl rfl rfl 0xF1#8 (by simp only [extract_left, Nat.reduceLeDiff, Nat.reduceSub]; rfl)
theorem andk : ∀ a b c, Statement (.andk a b c) :=
  fun _ _ _ => encodes_two rfl rfl rfl 0xF1#8 (by simp only [extract_left, Nat.reduceLeDiff, Nat.reduceSub]; rfl)
theorem ork : ∀ a b c, Statement (.ork a b c) :=
  fun _ _ _ => encodes_two rfl rfl rfl 0xF1#8 (by simp only [extract_left, Nat.reduceLeDiff, Nat.reduceSub]; rfl)
theorem faddk : ∀ a b c, Statement (.faddk a b c) :=
  fun _ _ _ => encodes_two rfl rfl rfl 0xF1#8 (by simp only [extract_left, Nat.reduceLeDiff, Nat.reduceSub]; rfl)
theorem fmulk : ∀ a b c, Statement (.fmulk a b c) :=
  fun _ _ _ => encodes_two rfl rfl rfl 0xF1#8 (by simp only [extract_left, Nat.reduceLeDiff, Nat.reduceSub]; rfl)
theorem ldl : ∀ a b c d e, Statement (.ldl a b c d e) :=
  fun _ _ _ _ _ => encodes_two rfl rfl rfl 0xF2#8 (by simp only [extract_left, Nat.reduceLeDiff, Nat.reduceSub]; rfl)
theorem stl : ∀ a b c d e, Statement (.stl a b c d e) :=
  fun _ _ _ _ _ => encodes_two rfl rfl rfl 0xF2#8 (by simp only [extract_left, Nat.reduceLeDiff, Nat.reduceSub]; rfl)
theorem ldx : ∀ a b c d e f, Statement (.ldx a b c d e f) :=
  fun _ _ _ _ _ _ => encodes_two rfl rfl rfl 0xF2#8 (by simp only [extract_left, Nat.reduceLeDiff, Nat.reduceSub]; rfl)
theorem atom : ∀ a b c d e f g h, Statement (.atom a b c d e f g h) :=
  fun _ _ _ _ _ _ _ _ => encodes_two rfl rfl rfl 0xF2#8 (by simp only [extract_left, Nat.reduceLeDiff, Nat.reduceSub]; rfl)
theorem red : ∀ a b c d e f g, Statement (.red a b c d e f g) :=
  fun _ _ _ _ _ _ _ => encodes_two rfl rfl rfl 0xF2#8 (by simp only [extract_left, Nat.reduceLeDiff, Nat.reduceSub]; rfl)
theorem atoms : ∀ a b c d e f g, Statement (.atoms a b c d e f g) :=
  fun _ _ _ _ _ _ _ => encodes_two rfl rfl rfl 0xF2#8 (by simp only [extract_left, Nat.reduceLeDiff, Nat.reduceSub]; rfl)
theorem tcopyLd : ∀ a b c d e f g, Statement (.tcopyLd a b c d e f g) :=
  fun _ _ _ _ _ _ _ => encodes_two rfl rfl rfl 0xF3#8 (by simp only [extract_left, Nat.reduceLeDiff, Nat.reduceSub]; rfl)
theorem tcopySt : ∀ a b c d e f g, Statement (.tcopySt a b c d e f g) :=
  fun _ _ _ _ _ _ _ => encodes_two rfl rfl rfl 0xF3#8 (by simp only [extract_left, Nat.reduceLeDiff, Nat.reduceSub]; rfl)
theorem tcopyiPack : ∀ a b c d e f g, Statement (.tcopyiPack a b c d e f g) :=
  fun _ _ _ _ _ _ _ => encodes_two rfl rfl rfl 0xF3#8 (by simp only [extract_left, Nat.reduceLeDiff, Nat.reduceSub]; rfl)
theorem tcopyiUnpack : ∀ a b c d e f g, Statement (.tcopyiUnpack a b c d e f g) :=
  fun _ _ _ _ _ _ _ => encodes_two rfl rfl rfl 0xF3#8 (by simp only [extract_left, Nat.reduceLeDiff, Nat.reduceSub]; rfl)
theorem tmov : ∀ a b c d e, Statement (.tmov a b c d e) :=
  fun _ _ _ _ _ => encodes_two rfl rfl rfl 0xF3#8 (by simp only [extract_left, Nat.reduceLeDiff, Nat.reduceSub]; rfl)
theorem mma : ∀ a b c d e f g h, Statement (.mma a b c d e f g h) :=
  fun _ _ _ _ _ _ _ _ => encodes_two rfl rfl rfl 0xF3#8 (by simp only [extract_left, Nat.reduceLeDiff, Nat.reduceSub]; rfl)
theorem mmaSp : ∀ a b c d e f g h i, Statement (.mmaSp a b c d e f g h i) :=
  fun _ _ _ _ _ _ _ _ _ => encodes_two rfl rfl rfl 0xF3#8 (by simp only [extract_left, Nat.reduceLeDiff, Nat.reduceSub]; rfl)
theorem accld : ∀ a b c d e, Statement (.accld a b c d e) :=
  fun _ _ _ _ _ => encodes_two rfl rfl rfl 0xF3#8 (by simp only [extract_left, Nat.reduceLeDiff, Nat.reduceSub]; rfl)
theorem accst : ∀ a b c d e, Statement (.accst a b c d e) :=
  fun _ _ _ _ _ => encodes_two rfl rfl rfl 0xF3#8 (by simp only [extract_left, Nat.reduceLeDiff, Nat.reduceSub]; rfl)
theorem accrd : ∀ a b c d, Statement (.accrd a b c d) :=
  fun _ _ _ _ => encodes_two rfl rfl rfl 0xF3#8 (by simp only [extract_left, Nat.reduceLeDiff, Nat.reduceSub]; rfl)
theorem accwr : ∀ a b c d, Statement (.accwr a b c d) :=
  fun _ _ _ _ => encodes_two rfl rfl rfl 0xF3#8 (by simp only [extract_left, Nat.reduceLeDiff, Nat.reduceSub]; rfl)
theorem sgcall : ∀ a b c d, Statement (.sgcall a b c d) :=
  fun _ _ _ _ => encodes_two rfl rfl rfl 0xF3#8 (by simp only [extract_left, Nat.reduceLeDiff, Nat.reduceSub]; rfl)
theorem sgloadLoad : ∀ a b c, Statement (.sgloadLoad a b c) :=
  fun _ _ _ => encodes_two rfl rfl rfl 0xF3#8 (by simp only [extract_left, Nat.reduceLeDiff, Nat.reduceSub]; rfl)
theorem sgloadQual : ∀ a b c, Statement (.sgloadQual a b c) :=
  fun _ _ _ => encodes_two rfl rfl rfl 0xF3#8 (by simp only [extract_left, Nat.reduceLeDiff, Nat.reduceSub]; rfl)
theorem sgloadRel : ∀ a b, Statement (.sgloadRel a b) :=
  fun _ _ => encodes_two rfl rfl rfl 0xF3#8 (by simp only [extract_left, Nat.reduceLeDiff, Nat.reduceSub]; rfl)
theorem sgloadClr : ∀ a b, Statement (.sgloadClr a b) :=
  fun _ _ => encodes_two rfl rfl rfl 0xF3#8 (by simp only [extract_left, Nat.reduceLeDiff, Nat.reduceSub]; rfl)
theorem tdview : ∀ a b c, Statement (.tdview a b c) :=
  fun _ _ _ => encodes_two rfl rfl rfl 0xF3#8 (by simp only [extract_left, Nat.reduceLeDiff, Nat.reduceSub]; rfl)
theorem coll : ∀ a b c d, Statement (.coll a b c d) :=
  fun _ _ _ _ => encodes_two rfl rfl rfl 0xF3#8 (by simp only [extract_left, Nat.reduceLeDiff, Nat.reduceSub]; rfl)
theorem bpset : ∀ a b c, Statement (.bpset a b c) :=
  fun _ _ _ => encodes_two rfl rfl rfl 0xF4#8 (by simp only [extract_left, Nat.reduceLeDiff, Nat.reduceSub]; rfl)
theorem wpset : ∀ a b c, Statement (.wpset a b c) :=
  fun _ _ _ => encodes_two rfl rfl rfl 0xF4#8 (by simp only [extract_left, Nat.reduceLeDiff, Nat.reduceSub]; rfl)
theorem stepArm : ∀ a b, Statement (.stepArm a b) :=
  fun _ _ => encodes_two rfl rfl rfl 0xF4#8 (by simp only [extract_left, Nat.reduceLeDiff, Nat.reduceSub]; rfl)
theorem stepOff : ∀ a b, Statement (.stepOff a b) :=
  fun _ _ => encodes_two rfl rfl rfl 0xF4#8 (by simp only [extract_left, Nat.reduceLeDiff, Nat.reduceSub]; rfl)
theorem dbrd : ∀ a b, Statement (.dbrd a b) :=
  fun _ _ => encodes_two rfl rfl rfl 0xF4#8 (by simp only [extract_left, Nat.reduceLeDiff, Nat.reduceSub]; rfl)
theorem dbwr : ∀ a b c, Statement (.dbwr a b c) :=
  fun _ _ _ => encodes_two rfl rfl rfl 0xF4#8 (by simp only [extract_left, Nat.reduceLeDiff, Nat.reduceSub]; rfl)
theorem barrd : ∀ a b, Statement (.barrd a b) :=
  fun _ _ => encodes_two rfl rfl rfl 0xF4#8 (by simp only [extract_left, Nat.reduceLeDiff, Nat.reduceSub]; rfl)
theorem barwr : ∀ a b c, Statement (.barwr a b c) :=
  fun _ _ _ => encodes_two rfl rfl rfl 0xF4#8 (by simp only [extract_left, Nat.reduceLeDiff, Nat.reduceSub]; rfl)
theorem clauseIssue : ∀ a, Statement (.clauseIssue a) := fun _ => encodes_none rfl rfl rfl
theorem activeSetEnter : ∀ a, Statement (.activeSetEnter a) := fun _ => encodes_none rfl rfl rfl
theorem activeSetLeave : ∀ a, Statement (.activeSetLeave a) := fun _ => encodes_none rfl rfl rfl
theorem groupAdmit : ∀ a, Statement (.groupAdmit a) := fun _ => encodes_none rfl rfl rfl
theorem swapOut : ∀ a, Statement (.swapOut a) := fun _ => encodes_none rfl rfl rfl
theorem swapIn : ∀ a, Statement (.swapIn a) := fun _ => encodes_none rfl rfl rfl
theorem groupFree : ∀ a, Statement (.groupFree a) := fun _ => encodes_none rfl rfl rfl
theorem loadReturn : ∀ a b, Statement (.loadReturn a b) := fun _ _ => encodes_none rfl rfl rfl
theorem lineArriveHome : ∀ a, Statement (.lineArriveHome a) := fun _ => encodes_none rfl rfl rfl
theorem atomicPerform : ∀ a b, Statement (.atomicPerform a b) := fun _ _ => encodes_none rfl rfl rfl
theorem cellWaitGrant : ∀ a, Statement (.cellWaitGrant a) := fun _ => encodes_none rfl rfl rfl
theorem tableWalk : ∀ a b c d, Statement (.tableWalk a b c d) := fun _ _ _ _ => encodes_none rfl rfl rfl
theorem meteringWindow : Statement .meteringWindow := encodes_none rfl rfl rfl
theorem copyStart : ∀ a, Statement (.copyStart a) := fun _ => encodes_none rfl rfl rfl
theorem copyLine : ∀ a, Statement (.copyLine a) := fun _ => encodes_none rfl rfl rfl
theorem copyComplete : ∀ a, Statement (.copyComplete a) := fun _ => encodes_none rfl rfl rfl
theorem matrixCommandExecute : ∀ a, Statement (.matrixCommandExecute a) := fun _ => encodes_none rfl rfl rfl
theorem surrogateEvaluate : ∀ a b, Statement (.surrogateEvaluate a b) := fun _ _ => encodes_none rfl rfl rfl
theorem sgloadComplete : ∀ a, Statement (.sgloadComplete a) := fun _ => encodes_none rfl rfl rfl
theorem recoveryGroupForm : ∀ a b, Statement (.recoveryGroupForm a b) := fun _ _ => encodes_none rfl rfl rfl
theorem retireGranule : ∀ a b c, Statement (.retireGranule a b c) := fun _ _ _ => encodes_none rfl rfl rfl
theorem contextRetireComplete : ∀ a, Statement (.contextRetireComplete a) := fun _ => encodes_none rfl rfl rfl
theorem contextStallTimeout : ∀ a, Statement (.contextStallTimeout a) := fun _ => encodes_none rfl rfl rfl
theorem barrierPhaseRelease : ∀ a b, Statement (.barrierPhaseRelease a b) := fun _ _ => encodes_none rfl rfl rfl
theorem releaseWindowEnd : ∀ a, Statement (.releaseWindowEnd a) := fun _ => encodes_none rfl rfl rfl
theorem trapEntry : ∀ a, Statement (.trapEntry a) := fun _ => encodes_none rfl rfl rfl
theorem watchpointReportDue : ∀ a, Statement (.watchpointReportDue a) := fun _ => encodes_none rfl rfl rfl
theorem timeSlice : ∀ a, Statement (.timeSlice a) := fun _ => encodes_none rfl rfl rfl
theorem preemptDrainTimeout : ∀ a, Statement (.preemptDrainTimeout a) := fun _ => encodes_none rfl rfl rfl
theorem jobRestore : ∀ a, Statement (.jobRestore a) := fun _ => encodes_none rfl rfl rfl
theorem evict : ∀ a b, Statement (.evict a b) := fun _ _ => encodes_none rfl rfl rfl
theorem migrate : ∀ a b, Statement (.migrate a b) := fun _ _ => encodes_none rfl rfl rfl
theorem migrationAbandon : ∀ a, Statement (.migrationAbandon a) := fun _ => encodes_none rfl rfl rfl
theorem placeBlocks : ∀ a, Statement (.placeBlocks a) := fun _ => encodes_none rfl rfl rfl
theorem blockCompletion : ∀ a, Statement (.blockCompletion a) := fun _ => encodes_none rfl rfl rfl
theorem tagPoolRequest : ∀ a b, Statement (.tagPoolRequest a b) := fun _ _ => encodes_none rfl rfl rfl
theorem tagPoolGrant : ∀ a b c, Statement (.tagPoolGrant a b c) := fun _ _ _ => encodes_none rfl rfl rfl
theorem stallReport : ∀ a, Statement (.stallReport a) := fun _ => encodes_none rfl rfl rfl
theorem disableReport : ∀ a b, Statement (.disableReport a b) := fun _ _ => encodes_none rfl rfl rfl
theorem surrogateDisable : ∀ a b, Statement (.surrogateDisable a b) := fun _ _ => encodes_none rfl rfl rfl
theorem trapDispatch : ∀ a, Statement (.trapDispatch a) := fun _ => encodes_none rfl rfl rfl
theorem launchComplete : ∀ a, Statement (.launchComplete a) := fun _ => encodes_none rfl rfl rfl
theorem bundleFetch : ∀ a b, Statement (.bundleFetch a b) := fun _ _ => encodes_none rfl rfl rfl
theorem bundleAdmit : ∀ a, Statement (.bundleAdmit a) := fun _ => encodes_none rfl rfl rfl
theorem bundleRetire : ∀ a, Statement (.bundleRetire a) := fun _ => encodes_none rfl rfl rfl
theorem codeLoad : ∀ a b c, Statement (.codeLoad a b c) := fun _ _ _ => encodes_none rfl rfl rfl
theorem copyProgramRun : ∀ a b, Statement (.copyProgramRun a b) := fun _ _ => encodes_none rfl rfl rfl
theorem surrogateLoadSublaunch : ∀ a b, Statement (.surrogateLoadSublaunch a b) := fun _ _ => encodes_none rfl rfl rfl
theorem collectiveSublaunch : ∀ a b, Statement (.collectiveSublaunch a b) := fun _ _ => encodes_none rfl rfl rfl
theorem collectiveComplete : ∀ a b c, Statement (.collectiveComplete a b c) := fun _ _ _ => encodes_none rfl rfl rfl
theorem boostBoundary : Statement .boostBoundary := encodes_none rfl rfl rfl
theorem sustainedPowerLimit : Statement .sustainedPowerLimit := encodes_none rfl rfl rfl
theorem emergencyPowerLimit : Statement .emergencyPowerLimit := encodes_none rfl rfl rfl
theorem sliceRatioChange : ∀ a b c, Statement (.sliceRatioChange a b c) := fun _ _ _ => encodes_none rfl rfl rfl
theorem sensorSample : ∀ a b, Statement (.sensorSample a b) := fun _ _ => encodes_none rfl rfl rfl
theorem voltageDroop : ∀ a, Statement (.voltageDroop a) := fun _ => encodes_none rfl rfl rfl
theorem coreAvoid : ∀ a, Statement (.coreAvoid a) := fun _ => encodes_none rfl rfl rfl
theorem coreReadmit : ∀ a, Statement (.coreReadmit a) := fun _ => encodes_none rfl rfl rfl
theorem wearAccumulate : Statement .wearAccumulate := encodes_none rfl rfl rfl
theorem wearReportRefresh : Statement .wearReportRefresh := encodes_none rfl rfl rfl
theorem retentionEntry : ∀ a b, Statement (.retentionEntry a b) := fun _ _ => encodes_none rfl rfl rfl
theorem retentionExit : ∀ a b c, Statement (.retentionExit a b c) := fun _ _ _ => encodes_none rfl rfl rfl
theorem hostLinkDown : ∀ a, Statement (.hostLinkDown a) := fun _ => encodes_none rfl rfl rfl
theorem hostMemoryAccess : ∀ a b c d, Statement (.hostMemoryAccess a b c d) := fun _ _ _ _ => encodes_none rfl rfl rfl
theorem registerJob : ∀ a, Statement (.registerJob a) := fun _ => encodes_none rfl rfl rfl
theorem unregisterJob : ∀ a, Statement (.unregisterJob a) := fun _ => encodes_none rfl rfl rfl
theorem claimFrames : ∀ a, Statement (.claimFrames a) := fun _ => encodes_none rfl rfl rfl
theorem releaseFrames : ∀ a, Statement (.releaseFrames a) := fun _ => encodes_none rfl rfl rfl
theorem defineCommunicator : ∀ a, Statement (.defineCommunicator a) := fun _ => encodes_none rfl rfl rfl
theorem attest : ∀ a, Statement (.attest a) := fun _ => encodes_none rfl rfl rfl
theorem sqWritePointer : ∀ a b c, Statement (.sqWritePointer a b c) := fun _ _ _ => encodes_none rfl rfl rfl
theorem sqEnable : ∀ a b c, Statement (.sqEnable a b c) := fun _ _ _ => encodes_none rfl rfl rfl
theorem registerWrite : ∀ a b c, Statement (.registerWrite a b c) := fun _ _ _ => encodes_none rfl rfl rfl
theorem granialeFlitReceive : ∀ a b c, Statement (.granialeFlitReceive a b c) := fun _ _ _ => encodes_none rfl rfl rfl
theorem linkWidthChange : ∀ a b, Statement (.linkWidthChange a b) := fun _ _ => encodes_none rfl rfl rfl
theorem powerOnReset : ∀ a b, Statement (.powerOnReset a b) := fun _ _ => encodes_none rfl rfl rfl
theorem peerLost : ∀ a, Statement (.peerLost a) := fun _ => encodes_none rfl rfl rfl
theorem hostLinkUp : ∀ a, Statement (.hostLinkUp a) := fun _ => encodes_none rfl rfl rfl

end Encodes

end Sys2Proof.Laws
end

