-- ==== Sys2Proof/Laws/Place.lean ====
section
/-!
SUPPORT. What the movers of blocks and the Sheepdog's orders do beside their own effect: mark the segments they access, or
wait (R168, R186, R187, R390).
-/

namespace Sys2Proof.Machine

/-- What moves allotments either waits, the state as it was, or happens and marks the segments accessed. -/
theorem State.blocksMoved_cases (s t : State) : s.blocksMoved t = s ∨ ∃ ps, s.blocksMoved t = t.touch ps := by
  unfold State.blocksMoved
  dsimp only
  split
  · exact .inl rfl
  · exact .inr ⟨_, rfl⟩

/-- With nothing in retention it happens. -/
theorem State.blocksMoved_awake (s t : State) (h : s.retained = []) : ∃ ps, s.blocksMoved t = t.touch ps := by
  refine ⟨moveSegs (s.groupSpots ++ s.blockSpots) (t.groupSpots ++ t.blockSpots), ?_⟩
  simp [State.blocksMoved, State.asleep, h]

theorem State.blocksMoved_hbm (s t : State) (h : t.hbm = s.hbm) : (s.blocksMoved t).hbm = s.hbm := by
  obtain e | ⟨ps, e⟩ := s.blocksMoved_cases t
  · rw [e]
  · rw [e]
    exact h

/-- With nothing on the links to the Pups, an order acts when it is sent. -/
theorem State.delivered_clear (s t : State) (h : ∀ c, s.linkClear c = true) : s.delivered t = t := by
  simp [State.delivered, h]

/-- An order acts, or waits behind what stands on a link. -/
theorem State.delivered_cases (s t : State) : s.delivered t = t ∨ s.delivered t = s := by
  unfold State.delivered
  split
  · exact .inl rfl
  · exact .inr rfl

end Sys2Proof.Machine
end

