-- ==== Sys2Proof/Tests/Slice0.lean ====
section
/-!
SUPPORT. The model's own checks: terms that no instruction word stands for, words written out from the spec's encodings
and examples, worked results of the spec, and for each statement with hypotheses a state that meets them.
-/

namespace Sys2Proof.Tests

set_option Elab.async false

open Sys2Proof Sys2Proof.Machine

/-! ### Well-formedness: one ill-formed term for each check -/

def v (n : Fin 192) : Reg := .v n
def r (n : Fin 64) : Reg := .s n

theorem test_ill_formed_fields :
    ([.bra true 0#4 false 1#18, .bra false 3#4 false 1#18, .repeatN 0#8, .frnd (v 0) (v 1) 4#8,
      .icmpI32 0#4 6#4 (v 0) (v 1), .icmpUi32 0#4 15#4 (v 0) (v 1), .qbc (v 0) (v 1) 4#8, .lshup (v 0) (v 1) 64#8,
      .lshdn (v 0) (v 1) 64#8, .rdlane (r 0) (v 1) 64#8, .wrlane (v 0) (r 1) 64#8, .cvt (v 0) (v 1) 0x06#8,
      .cvt (v 0) (v 1) 0x28#8, .pkh (v 0) (v 1) 2#8, .upkh (v 0) (v 1) 2#8, .sgstat (r 0) 0#6 12#4,
      .bfe (v 0) (v 1) false 0#5 33#8, .bfi (v 0) (v 1) (v 2) 0#5 33#8] : List Instr).any Instr.wellFormed = false := by
  decide

theorem test_ill_formed_memory :
    ([.st (v 0) 0#5 .i8 (v 1), .st (v 0) 0#5 .i16 (v 1), .stl (v 0) 0#5 .i8 (v 1) 0#24, .fence .rlx .dev,
      .tfence .grp, .tfence .blk, .tfence .gang, .atom (v 0) 0#5 (v 1) .fadd .rlx .i32 .dev (v 2),
      .atom (v 0) 0#5 (v 1) .min .rlx .b64 .dev (v 2), .red 0#5 (v 1) .exch .rlx .i32 .dev (v 2),
      .red 0#5 (v 1) .cas .rlx .i32 .dev (v 2), .red 0#5 (v 1) .add .rlx .f32 .dev (v 2),
      .atoms (v 0) (v 1) .add .rlx .i32 .dev (v 2), .atoms (v 0) (v 1) .or .rlx .f32 .blk (v 2)] : List Instr).any
        Instr.wellFormed = false := by
  decide

theorem test_ill_formed_commands :
    ([.bara (r 0) ⟨.gang, 8#4⟩, .barw (r 0) ⟨.grid, 4#4⟩, .bars ⟨.gang, 15#4⟩, .barexp (r 0) ⟨.grid, 7#4⟩,
      .tcopyLd (r 0) (r 1) (r 2) .core none 0#3 0#4, .tcopySt (r 0) (r 1) (r 2) .core none 6#3 0#4,
      .tcopyiPack (r 0) (r 1) (r 2) .core none 1#3 4#4, .tcopyiUnpack (r 0) (r 1) (r 2) .core (some ⟨.grid, 4#4⟩) 1#3 0#4,
      .tmov (r 0) (r 1) .core .die (some ⟨.gang, 8#4⟩), .mma 0#8 (v 0) (r 1) 0#1 false false .i8 0#8,
      .mma 0#8 (v 0) (r 1) 0#1 false false .i8 17#8, .mmaSp 0#8 (v 0) (r 1) 0#1 false false .bf16 (v 2) 4#8,
      .mmaSp 0#8 (v 0) (r 1) 0#1 false false .i8 (v 2) 0#8, .coll (r 0) (r 1) .arAdd 3#2,
      .coll (r 0) (r 1) .arMax 3#2] : List Instr).any Instr.wellFormed = false := by
  decide

/-! ### Words of the spec's own examples -/

/-- Whether each first word, with the word after it, decodes to the instruction beside it. -/
def reads (ws : List (Word × Word × Instr)) : Bool :=
  ws.all fun e => match decodeWords e.1 (some e.2.1) with
    | .ok i => decide (i = e.2.2)
    | .error _ => false

/-- R106 to R114, R247, R362 and the rejoin example of R98. -/
theorem test_decode_control :
    reads [(0x00000000#32, 0#32, .nop), (0x03000000#32, 0#32, .exitG), (0x07000000#32, 0#32, .yieldG),
      (0x018C000C#32, 0#32, .bra true 1#4 true 12#18), (0x01140000#32, 0#32, .bra false 2#4 true 0#18),
      (0x0103FFFB#32, 0#32, .bra false 0#4 false 0x3FFFB#18), (0x05000000#32, 0#32, .park 0#3),
      (0x04000003#32, 0#32, .enrol 3#3), (0x06000007#32, 0#32, .strike 7#3), (0x02040010#32, 0#32, .jmpx (v 4) 16#16),
      (0x09000004#32, 0#32, .repeatN 4#8), (0x0C0001F4#32, 0#32, .sleepI 500#16),
      (0x080F2FFF#32, 0#32, .waitC 0#4 15#4 2#4 15#4 15#4 15#4), (0x0A000001#32, 0#32, .trapI 1#16),
      (0x0B000007#32, 0#32, .bkpt 7#8), (0x0F000000#32, 0#32, .tret), (0x0D040000#32, 0#32, .srd (v 4) .laneid),
      (0x0EC2000A#32, 0#32, .swr (r 2) .rmode)] = true := by
  decide +kernel

/-- R132, R133, R135 to R137, R143, R144, R154 to R158. -/
theorem test_decode_alu :
    reads [(0x100A0A06#32, 0#32, .iadd (v 10) (v 10) (v 6)), (0x63180203#32, 0#32, .plop 1#4 8#4 2#4 3#4),
      (0x64060100#32, 0#32, .ptov (v 6) 1#4), (0x65400700#32, 0#32, .vtop 4#4 (v 7)),
      (0x80011008#32, 0#32, .xset 1#3 16#8 8#8), (0x83050103#32, 0#32, .movxw (v 5) 1#3 3#8),
      (0x81010002#32, 0#32, .xinc 1#3 2#8), (0x82090101#32, 0#32, .movxr (v 9) 1#3 1#8),
      (0x840A0100#32, 0#32, .xrd (v 10) 1#3), (0xF0010203#32, 0x08040096#32, .logt (v 1) (v 2) (v 3) (v 4) 0x96#8),
      (0xF0090A0B#32, 0x090C0000#32, .dot4I8 (v 9) (v 10) (v 11) (v 12)),
      (0x60120203#32, 0#32, .icmpI32 1#4 2#4 (v 2) (v 3)), (0x622E0808#32, 0#32, .fcmp 2#4 14#4 (v 8) (v 8)),
      (0xF0080506#32, 0x00070000#32, .ffmaF32 (v 8) (v 5) (v 6) (v 7)),
      (0x40090808#32, 0#32, .fadd (v 9) (v 8) (v 8)), (0x42010000#32, 0#32, .fmul (v 1) (v 0) (v 0)),
      (0x20D3D000#32, 0#32, .mov (r 19) (r 16))] = true := by
  decide +kernel

/-- The exchange fragment of 05. -/
theorem test_decode_exchange :
    reads [(0x31010001#32, 0#32, .andi (v 1) (v 0) 1#8), (0x65300100#32, 0#32, .vtop 3#4 (v 1)),
      (0x76020000#32, 0#32, .grediAdd (v 2) (v 0)), (0x7A030000#32, 0#32, .gscanAdd (v 3) (v 0)),
      (0x75CA0300#32, 0#32, .gbal (r 10) 3#4), (0x7004001B#32, 0#32, .qswz (v 4) (v 0) 0x1B#8),
      (0x7D200300#32, 0#32, .gany 2#4 3#4), (0x7E200300#32, 0#32, .gall 2#4 3#4)] = true := by
  decide +kernel

/-- The examples of 06, 07, 08, 09 and 10. -/
theorem test_decode_memory :
    reads [(0x93060400#32, 0#32, .sts (v 6) (v 4) 0#8),
      (0xF2070004#32, 0x05002008#32, .atoms (v 7) (v 4) .add .rlx .i32 .blk (v 8)),
      (0x92050402#32, 0#32, .lds (v 5) (v 4) 2#8), (0xF3D4C800#32, 0x14100000#32, .tmov (r 20) (r 8) .core .cluster none),
      (0x95C81800#32, 0#32, .bset (r 8) 3#5), (0x90091C02#32, 0#32, .ld (v 9) 3#5 .b32 (v 2)),
      (0x91030C01#32, 0#32, .st (v 3) 1#5 .b32 (v 1)), (0xF2081D02#32, 0x022C0000#32, .ldx (v 8) 3#5 .b64 (v 2) 11#6 0#18),
      (0xA7D0CC00#32, 0#32, .ctxretCommit (r 16) (r 12)), (0x97000023#32, 0#32, .fence .rel .dev),
      (0x97000013#32, 0#32, .fence .acq .dev), (0x97000033#32, 0#32, .fence .ar .dev),
      (0x97000021#32, 0#32, .fence .rel .blk),
      (0xF3D4C8CC#32, 0x10082800#32, .tcopyLd (r 20) (r 8) (r 12) .core (some ⟨.block, 1#4⟩) 2#3 0#4),
      (0xD00400C9#32, 0#32, .qw 4#4 (r 9)), (0xD10500C3#32, 0#32, .qr 5#4 (r 3)),
      (0xD22500C3#32, 0#32, .qtry 2#4 5#4 (r 3))] = true := by
  decide +kernel

/-- The examples of 11, 12, 13, 16 and 17. -/
theorem test_decode_engines :
    reads [(0xF30014C8#32, 0x40280001#32, .mma 0#8 (v 20) (r 8) 0#1 false true .t8 1#8),
      (0xF30014C8#32, 0x40080001#32, .mma 0#8 (v 20) (r 8) 0#1 false false .t8 1#8),
      (0xF3280000#32, 0x44000000#32, .accrd (v 40) .raw 0#3 0#9), (0xF0060200#32, 0x0A080000#32, .spcmp (v 6) (v 2) (v 8) .i8 false),
      (0xB0000000#32, 0#32, .accclr 0#9), (0xB100012C#32, 0#32, .accrel 300#9),
      (0xD4CA0300#32, 0#32, .sgstat (r 10) 3#6 0#4), (0xF3080400#32, 0x60031000#32, .sgcall (v 8) (v 4) 3#6 1#4),
      (0xD3000100#32, 0#32, .sgret (v 1)), (0xA0CD0040#32, 0#32, .bara (r 13) ⟨.gang, 0#4⟩),
      (0xA1CD0040#32, 0#32, .barw (r 13) ⟨.gang, 0#4⟩), (0xA2000080#32, 0#32, .bars ⟨.grid, 0#4⟩),
      (0xA3CC0001#32, 0#32, .barexp (r 12) ⟨.block, 1#4⟩), (0xE0C90028#32, 0#32, .boost (r 9) 40#16),
      (0xE1000000#32, 0#32, .boostrel), (0xF3D4C800#32, 0x78140000#32, .coll (r 20) (r 8) .arAdd 1#2)] = true := by
  decide +kernel

/-- Words that are no instruction: an unused opcode, a reserved bit, a reserved field value, a missing second word
(R43, R48). -/
theorem test_decode_refuses :
    (decodeWords 0x2B000000#32 none).toOption = none ∧ (decodeWords 0x00000001#32 none).toOption = none ∧
    (decodeWords 0x09000000#32 none).toOption = none ∧ (decodeWords 0x71000004#32 none).toOption = none ∧
    (decodeWords 0xF0080506#32 none).toOption = none ∧ (decodeWords 0xF0080506#32 (some 0xFF070000#32)).toOption = none ∧
    (decodeWords 0xF0080506#32 (some 0x00070001#32)).toOption = none := by
  decide +kernel

/-- R208, R237, R240, R329, R367: words written out from their tables. -/
theorem test_decode_system :
    reads [(0xF4C8CA00#32, 0x00000005#32, .bpset (r 8) (r 10) 5#3), (0xF4C8CA00#32, 0x01000003#32, .wpset (r 8) (r 10) 3#2),
      (0xF4C8CA00#32, 0x02000001#32, .stepArm (r 8) (r 10)), (0xF4C8CA00#32, 0x02000000#32, .stepOff (r 8) (r 10)),
      (0xF4C8CA00#32, 0x03000000#32, .dbrd (r 8) (r 10)), (0xF4C8CACC#32, 0x04000000#32, .dbwr (r 8) (r 10) (r 12)),
      (0xF4C8CA00#32, 0x05000000#32, .barrd (r 8) (r 10)), (0xF4C8CACC#32, 0x06000000#32, .barwr (r 8) (r 10) (r 12)),
      (0xF3C8CA00#32, 0x70800000#32, .tdview (r 8) (r 10) true), (0xA4C80000#32, 0#32, .ctxnew (r 8)),
      (0xA8C8CA00#32, 0#32, .ctxq (r 8) (r 10)), (0xF3C8CA00#32, 0x613F0000#32, .sgloadLoad (r 8) (r 10) 63#6)] = true := by
  decide +kernel

/-! ### States that meet the statements' hypotheses

One group of 8 lanes, none of them helpers, stands at the instruction (withFetchWord); a test changes what it needs. -/

/-- The words of an instruction as the host numbers their bits. -/
def wordsOf (i : Instr) : Nat :=
  match encode i with
  | [w] => w.toNat
  | [w, x] => w.toNat + x.toNat * 2 ^ 32
  | _ => 0

/-- The state in which group 0 issues `i`, with the group changed by `f`. -/
def at_ (i : Instr) (f : Group → Group) : State :=
  let s := State.reset.withFetchWord 64 (wordsOf i)
  { s with cur := some 0, groups := Tab.mapVals s.groups fun _ g => f g }

/-- The group 0 of a state as an instruction finds it. -/
def grp (s : State) : Group :=
  ((Tab.get? s.groups 0).map Group.landDue).getD (Group.start 0 none 0 0 0 (probeKernel []) 0#64 0#64 0)

/-- Its clause. -/
def cls (s : State) : Clause := (grp s).clause.getD ⟨0, 0#32, 0, 0#64, 0#64, 0, false⟩

/-- The checks of Ready, evaluated. -/
def ready (i : Instr) (s : State) : Bool :=
  decide (s.cur = some 0) && decide ((Tab.get? s.groups 0).map Group.landDue = some (grp s)) &&
    decide ((grp s).clause = some (cls s)) && (s.checks (grp s) (cls s) i).isNone && !(grp s).blocked (cls s) i &&
    (grp s).dueReport.isNone

/-- The checks of Ready and Steady, evaluated. -/
def steady (i : Instr) (s : State) : Bool := ready i s && !(grp s).step && (grp s).lanes.active != 0#64

theorem ready_of {i : Instr} {s : State} (h : ready i s = true) : Ready i s 0 (grp s) (cls s) := by
  simp only [ready, Bool.and_eq_true, decide_eq_true_eq, Bool.not_eq_true', Option.isNone_iff_eq_none] at h
  obtain ⟨⟨⟨⟨⟨a, b⟩, c⟩, d⟩, e⟩, f⟩ := h
  exact ⟨a, b, c, d, e, f⟩

theorem steady_of {i : Instr} {s : State} (h : steady i s = true) : Steady (grp s) := by
  simp only [steady, Bool.and_eq_true, Bool.not_eq_true', bne_iff_ne] at h
  exact ⟨h.1.2, h.2⟩

/-- The group with v1 holding 3 + k in lane k, v2 holding 0x80000000 - k, s1 holding 70 and p1 true in lane 1. -/
def filled (g : Group) : Group :=
  { g with
    v := ((List.range 8).map fun k => (64 + k, BitVec.ofNat 32 (3 + k))) ++
      (List.range 8).map fun k => (128 + k, BitVec.ofNat 32 (0x80000000 - k))
    s := [(1, 70#32)]
    lanes := { g.lanes with p := [(1, 2#64)], x := (List.range 8).map fun k => (64 + k, 0x00000810#32) } }

/-- One instruction for each line of intResult. -/
def intForms : List Instr :=
  [.iadd (v 5) (v 1) (v 2), .isub (v 5) (v 1) (v 2), .imul (v 5) (v 1) (r 1), .imulhiI32 (v 5) (v 1) (v 2),
   .imulhiUi32 (v 5) (v 1) (v 2), .iminI32 (v 5) (v 1) (v 2), .iminUi32 (v 5) (v 1) (v 2), .imaxI32 (v 5) (v 1) (v 2),
   .imaxUi32 (v 5) (v 1) (v 2), .andR (v 5) (v 1) (v 2), .orR (v 5) (v 1) (v 2), .xorR (r 5) (r 1) (r 2),
   .shl (v 5) (v 1) (r 1), .shr (v 5) (v 2) (r 1), .sar (v 5) (v 2) (r 1), .rot (v 5) (v 2) (r 1), .mov (r 5) (r 1),
   .notR (v 5) (v 1), .ineg (v 5) (v 2), .iabs (v 5) (v 2), .clz (v 5) (v 1), .popc (v 5) (v 1), .brev (v 5) (v 1),
   .iaddsatI32 (v 5) (v 2) (v 2), .isubsatI32 (v 5) (v 2) (v 1), .iaddsatUi32 (v 5) (v 2) (v 2),
   .iamini (v 1) (v 2) 0xFF#8, .iaddi (v 5) (v 1) 0x80#8, .andi (v 5) (v 1) 6#8, .ori (v 5) (v 1) 6#8,
   .xori (v 5) (v 1) 6#8, .shli (v 5) (v 1) 33#8, .shri (v 5) (v 1) 1#8, .sari (v 5) (v 2) 31#8, .roti (v 5) (v 2) 1#8,
   .movi (v 5) 0x8000#16, .movhi (v 1) 0xFFFF#16, .imuli (v 5) (v 1) 0xFF#8, .iaddk (v 5) (v 1) 0xFFFFFFFF#32,
   .movk (v 5) 7#32, .andk (v 5) (v 1) 6#32, .ork (v 5) (v 1) 6#32, .fabs (v 5) (v 2), .fneg (v 5) (v 2),
   .fclass (v 5) (v 2), .imad (v 5) (v 1) (v 2) (v 1), .iamin (v 5) (v 1) (v 2) (v 2), .sel (v 5) (v 1) (v 2) 1#4,
   .bfe (v 5) (v 2) true 28#5 8#8, .bfi (v 5) (v 1) (v 2) 28#5 8#8, .logt (v 5) (v 1) (v 2) (v 1) 0x96#8,
   .dot4I8 (v 5) (v 1) (v 2) (v 1), .ptov (v 5) 1#4, .xrd (v 5) 1#3]

theorem witness_IntegerResults :
    (intForms.all fun i => steady i (at_ i filled) && (intResult i (grp (at_ i filled)) 0).isSome) = true := by
  decide +kernel

/-- The group with fp32 1.5 in v1 and -2.0 in v2 (in both halves for the packed forms) and rounding toward zero. -/
def floats (g : Group) : Group :=
  { g with
    v := ((List.range 8).map fun k => (64 + k, 0x3FC03FC0#32)) ++
      ((List.range 8).map fun k => (128 + k, 0xC000C000#32)) ++ (List.range 8).map fun k => (192 + k, 0x00000001#32)
    lanes := { g.lanes with rmode := 1#2 } }

/-- One instruction for each line of fpResult. -/
def fpForms : List Instr :=
  [.fadd (v 5) (v 1) (v 2), .fsub (v 5) (v 1) (v 2), .fmul (v 5) (v 1) (v 3), .faddk (v 5) (v 1) 0x7F800000#32,
   .fmulk (v 5) (v 1) 0x80000000#32, .fmin (v 5) (v 1) (v 2), .fmax (v 5) (v 1) (v 2),
   .ffmaF32 (v 5) (v 1) (v 2) (v 3), .frcp (v 5) (v 1), .frsq (v 5) (v 1), .fsqrt (v 5) (v 2), .fexp2 (v 5) (v 3),
   .flog2 (v 5) (v 1), .fsin (v 5) (v 3), .fcos (v 5) (v 3), .frnd (v 5) (v 1) 3#8, .haddF16 (v 5) (v 1) (v 2),
   .hmulF16 (v 5) (v 1) (v 2), .hminF16 (v 5) (v 1) (v 2), .hmaxF16 (v 5) (v 1) (v 2), .haddBf16 (v 5) (v 1) (v 2),
   .hmulBf16 (v 5) (v 1) (v 2), .hminBf16 (v 5) (v 1) (v 2), .hmaxBf16 (v 5) (v 1) (v 2),
   .hfmaF16 (v 5) (v 1) (v 2) (v 1), .hfmaBf16 (v 5) (v 1) (v 2) (v 1), .pkh (v 5) (v 1) 0#8, .cvt (v 5) (v 1) 0x01#8]

theorem witness_FloatResults :
    (fpForms.all fun i => steady i (at_ i floats) && (fpResult i (grp (at_ i floats)) 0).isSome) = true := by
  decide +kernel

theorem witness_FixedLatency :
    (([(Target.v 5 0, 1#32), (Target.p 3 63, 0#32)] : List (Target × Word)).map Prod.fst).Nodup ∧
    (∀ w ∈ ([(Target.v 5 0, 1#32), (Target.p 3 63, 0#32)] : List (Target × Word)), w.1.inLanes ∧ truthValue w) ∧
    (Target.p 3 63).inLanes ∧ (grp (at_ .nop id)).inflight = [] := by
  refine ⟨by decide, ?_, by simp [Target.inLanes], by decide +kernel⟩
  simp [Target.inLanes, truthValue]

/-- One instruction for each line of predResult. -/
def predForms : List Instr :=
  [.icmpI32 2#4 5#4 (v 1) (v 2), .icmpUi32 2#4 0#4 (v 1) (v 2), .fcmp 2#4 14#4 (v 1) (v 2), .plop 1#4 6#4 1#4 1#4,
   .vtop 15#4 (v 1), .gany 2#4 1#4, .gall 0#4 1#4]

theorem witness_PredicateResults :
    (predForms.all fun i => steady i (at_ i filled) && (predResult i (grp (at_ i filled)) 0).isSome) = true := by
  decide +kernel

/-- One instruction for each line of exchangeResult. -/
def exchangeForms : List Instr :=
  [.qswz (v 5) (v 1) 0x1B#8, .qbc (v 5) (v 1) 3#8, .lshup (v 5) (v 1) 63#8, .lshdn (v 5) (v 1) 0#8,
   .lshfx (v 5) (v 1) (v 1), .rdlane (r 5) (v 1) 7#8, .wrlane (v 5) (r 1) 7#8, .grediAdd (v 5) (v 1),
   .grediMin (v 5) (v 2), .grediMax (v 5) (v 2), .gscanAdd (v 5) (v 1)]

theorem witness_RoundedOnce :
    fpFinite 0x3FC00000 ∧ fpFinite 0xC0000001 ∧ fpFinite 1 ∧
    ([(fpUnits 0x3FC00000 + fpUnits 0xC0000001) * 2 ^ 149, (fpUnits 0x3FC00000 - fpUnits 0xC0000001) * 2 ^ 149,
      fpUnits 0x3FC00000 * fpUnits 0xC0000001,
      fpUnits 0x3FC00000 * fpUnits 0xC0000001 + fpUnits 1 * 2 ^ 149] : List Int).all (fun x =>
        Nat.ble x.natAbs (fpMost * 2 ^ 149)) = true := by
  refine ⟨by simp [fpFinite], by simp [fpFinite], by simp [fpFinite], by decide +kernel⟩

theorem witness_ExchangePairAndIndexResults_exchanges :
    (exchangeForms.all fun i => steady i (at_ i filled) && (exchangeResult i (grp (at_ i filled)) 0).isSome) = true := by
  decide +kernel

theorem witness_ExchangePairAndIndexResults_pairs :
    ([.upkh (v 5) (v 1) 0#8, .gbal (r 4) 1#4, .spcmp (v 6) (v 2) (v 8) .i8 false, .gredfAdd (v 5) (v 1),
      .xset 1#3 16#8 8#8, .xinc 1#3 0x80#8, .movxr (v 5) 1#3 0#8, .movxw (v 5) 1#3 7#8] : List Instr).all (fun i =>
      steady i (at_ i filled) && (i == .gredfAdd (v 5) (v 1) || (pairOrIndexWrites i (grp (at_ i filled))).isSome)) =
        true ∧
    ([.movxr (v 5) 1#3 8#8, .movxw (v 5) 1#3 0xFF#8] : List Instr).all (fun i =>
      let g := grp (at_ i filled)
      ready i (at_ i filled) && xBad g 1#3 8#8 != 0#64 && xBad g 1#3 0xFF#8 != 0#64) = true := by
  decide +kernel

/-! ### Control flow -/

/-- The state with group 0 changed. -/
def withGroup (s : State) (f : Group → Group) : State := { s with groups := Tab.mapVals s.groups fun _ g => f g }

/-- The state with a handler entry at the kernel's start. -/
def handled (s : State) : State :=
  { s with work := { s.work with launches := Tab.mapVals s.work.launches fun _ l => { l with handler := some 0 } } }

/-- The state with a data clause of one entry at word 4: 0xFFFFFFFC leads back to word 0. -/
def tabled (entry : Word) (s : State) : State :=
  { s with clusters := Tab.upd s.clusters 0 fun c => { c with
      code := c.code ++ [(4, plainHeader 6 1), (5, entry)], starts := [(0, true), (4, true)]
      loads := c.loads.map fun (l : CodeLoad) => { l with len := 6 } } }

/-- The group with only lanes 0 to 3 in Exec. -/
def half (g : Group) : Group := { g with clause := g.clause.map fun c => { c with exec := 0xF#64 } }

/-- The group with a count of one in every counter. -/
def counting (g : Group) : Group := { g with cnts := (List.range 6).map fun c => (c, [(9, false)]) }

theorem witness_IdleAndFlowWords :
    ([.nop, .waitC 0#4 15#4 0#4 0#4 0#4 0#4, .bkpt 1#8] : List Instr).all (fun i => steady i (at_ i id)) = true ∧
    steady (.waitC 1#4 15#4 1#4 1#4 1#4 1#4) (at_ (.waitC 1#4 15#4 1#4 1#4 1#4 1#4) counting) = true ∧
    ready (.waitC 15#4 0#4 15#4 15#4 15#4 15#4) (at_ (.waitC 15#4 0#4 15#4 15#4 15#4 15#4) counting) = true ∧
    (grp (at_ (.waitC 15#4 0#4 15#4 15#4 15#4 15#4) counting)).cnt 1 = 1 ∧
    ((at_ (.bkpt 1#8) id).launch? (grp (at_ (.bkpt 1#8) id))).bind Launch.handler = none ∧
    ([.yieldG, .repeatN 255#8, .sleepI 0xFFFF#16, .sleepI 0#16] : List Instr).all (fun i =>
      steady i (at_ i id) && (grp (at_ i id)).exec != 0#64 && i.wellFormed) = true ∧
    (Tab.get? (at_ .yieldG id).slices (sliceKey 0 0)).map Slice.active = some [0] := by
  decide +kernel

theorem witness_FlowTargets :
    (let s := at_ (.bra false 0#4 false 0#18) id
     steady (.bra false 0#4 false 0#18) s && s.legalTarget (grp s) 0) = true ∧
    (let s := at_ (.bra false 1#4 true 0x20000#18) filled
     steady (.bra false 1#4 true 0x20000#18) s && (grp s).rdP 1 == 2#64 && !s.legalTarget (grp s) (-131072)) = true ∧
    ([(0xFFFFFFFC#32, true), (100#32, false)] : List (Word × Bool)).all (fun e =>
      let s := tabled e.1 (at_ (.jmpx (v 0) 4#16) half)
      steady (.jmpx (v 0) 4#16) s && decide ((s.headerAt (grp s) 4).map hdrClass = some 6) && (grp s).exec == 0xF#64 &&
        s.legalTarget (grp s) (4 + (s.codeWord (grp s) 5).toInt) == e.2) = true ∧
    (let s := at_ (.jmpx (v 0) 4#16) half
     ready (.jmpx (v 0) 4#16) s && (grp s).exec != 0#64 && decide (s.headerAt (grp s) 4 = none)) = true := by
  decide +kernel

/-- The group with lanes 0 to 3 in Exec and active, the others parked as the masks say. -/
def parking (parked j : Tab Mask) (g : Group) : Group :=
  { half g with lanes := { g.lanes with active := 0xF#64, parked := parked, j := j } }

/-- The other lanes stay, are released, or stay parked on two masks that name each other's lanes. -/
theorem witness_ExitEnds :
    ([(half, true, false), (parking [(0, 0xF0#64)] [(0, 0xFF#64)], true, true),
      (parking [(0, 0x30#64), (1, 0xC0#64)] [(0, 0xFF#64), (1, 0xF0#64)], false, false)] :
      List ((Group → Group) × Bool × Bool)).all (fun e =>
        let s := at_ .exitG e.1
        let g := grp s
        let l := exitLanes g.lanes g.exec
        steady .exitG s && !allExited g l && !g.done && (l.active != 0#64) == e.2.1 &&
          (Tab.getD g.lanes.parked 0 0#64 != 0#64 &&
            (Tab.getD g.lanes.j 0 0#64 &&& ~~~g.exec &&& ~~~Tab.getD g.lanes.parked 0 0#64) == 0#64) == e.2.2) = true ∧
    (let g := grp (at_ .exitG id)
     steady .exitG (at_ .exitG id) && allExited g (exitLanes g.lanes g.exec)) = true := by
  decide +kernel

theorem witness_RejoinMasks :
    ([.enrol 7#3, .strike 0#3] : List Instr).all (fun i => steady i (at_ i half)) = true ∧
    (let g := grp (at_ (.park 0#3) half)
     steady (.park 0#3) (at_ (.park 0#3) half) && g.exec != 0#64 && (g.lanes.active &&& ~~~g.exec) != 0#64) = true ∧
    (let g := grp (at_ (.park 0#3) id)
     steady (.park 0#3) (at_ (.park 0#3) id) && g.exec != 0#64 &&
       (g.rdJ 0 &&& ~~~(Tab.getD g.lanes.parked 0 0#64 ||| g.exec)) == 0#64) = true ∧
    (let s := at_ (.strike 0#3) fun g => let g := parking [(0, 0xF0#64)] [(0, 0x1FF#64)] g
       { g with lanes := { g.lanes with active := 0#64 } }
     let g := grp s
     ready (.strike 0#3) s && !g.done && g.lanes.active == 0#64 &&
       (g.rdJ 0 &&& ~~~g.exec &&& ~~~Tab.getD g.lanes.parked 0 0#64) != 0#64) = true ∧
    (let s := at_ (.park 0#3) (parking [(1, 0xF0#64)] [(0, 0x1FF#64), (1, 0xFF#64)])
     let g := grp s
     ready (.park 0#3) s && !g.done && g.exec != 0#64 && (g.lanes.active &&& ~~~g.exec) == 0#64 &&
       (g.rdJ 0 &&& ~~~(Tab.getD g.lanes.parked 0 0#64 ||| g.exec)) != 0#64) = true := by
  decide +kernel

/-- A trap frame raised at word 1 of the clause at word 0, in the handler or not yet. -/
def frame (entered : Bool) (g : Group) : TrapFrame :=
  ⟨[0x00000416#32, 0#32, 0#32, 0x00000001#32, 0#32, 0#32, 0xFF#32, 0#32, 0xFF#32, 0#32], none, false, 1, entered,
    if entered then some 0 else none, g.lanes, [], [], []⟩

/-- The state whose group is in its handler. -/
def inHandler (s : State) : State :=
  let s := handled (withGroup s fun g => { g with trap := some (frame true g) })
  { s with cores := Tab.upd s.cores 0 fun c => { c with areas := [(0, 0)] } }

theorem witness_GroupEvents :
    (let s := at_ .nop fun g => { g with sleep := some 0 }
     (grp s).sleep == some 0 && decide (0 ≤ s.coreCycles 0) && (grp s).res != .saved) = true ∧
    (grp (at_ .nop fun g => { g with reports := [⟨0x13, 0, 0, 0, none, 16, 0, 0, 0, false⟩] })).reports ≠ [] ∧
    (let s := handled (at_ .nop fun g => { g with trap := some (frame false g), clause := none })
     let g := grp s
     decide ((g.trap.map fun f => (f.entered, f.area)) = some (false, none)) && g.res != .saved &&
       decide (((s.launch? g).bind Launch.handler) = some 0) && (s.codeOf (clusterOf g.core) g.launch).isSome &&
       !(s.freeAreas g.core).isEmpty && !s.trapAhead g 1 && s.retained.isEmpty) = true ∧
    (let s := inHandler (at_ .nop id)
     let first := s.setHub { s.hub with toHub := [(0, [.trap 0, .blockDone 7 0])] }
     (grp s).inHandler && !(grp (at_ .nop id)).inHandler && s.hub.toHub.isEmpty &&
       decide ((first.hub.toHub.find? fun e => e.2.head? = some (HubMsg.trap 0)) = some (0, [.trap 0, .blockDone 7 0]))) =
         true ∧
    (let s := at_ .nop fun g => { g with ctxwait := true }
     !(grp s).done && s.ctxStalled 0 (grp s) && s.hub.toHub.isEmpty) = true := by
  decide +kernel

theorem witness_CausesAfterWords :
    (let s := at_ (.trapI 0xFFFF#16) id
     steady (.trapI 0xFFFF#16) s && (grp s).active != 0#64) = true ∧
    (let s := at_ (.trapI 0#16) fun g => { g with helpers := 0xFF#64 }
     steady (.trapI 0#16) s && (grp s).active == 0#64) = true ∧
    (let s := handled (at_ (.bkpt 0#8) id)
     steady (.bkpt 0#8) s && ((s.launch? (grp s)).bind Launch.handler).isSome) = true ∧
    (intForms ++ fpForms ++ predForms ++ exchangeForms ++
      ([.upkh (v 5) (v 1) 0#8, .gredfAdd (v 5) (v 1), .movxw (v 5) 1#3 7#8] : List Instr)).all (fun i =>
        let s := at_ i fun g => { filled g with step := true }
        let g := grp s
        ready i s && g.step && !g.inHandler && !g.done && g.lanes.active != 0#64 &&
          ((intResult i g 0).isSome || (fpResult i g 0).isSome || (predResult i g 0).isSome ||
            (exchangeResult i g 0).isSome || (pairOrIndexWrites i g).isSome || i == .gredfAdd (v 5) (v 1))) = true := by
  decide +kernel

theorem witness_TrapsTaken :
    (let s := handled (at_ .nop id)
     let g := grp s
     decide (Tab.get? s.groups 0 = some g) && Tab.has s.cores 0 && g.trap.isNone && g.res != .saved &&
       decide ((s.launch? g).bind Launch.handler = some 0) && (s.codeOf (clusterOf g.core) g.launch).isSome &&
       !(s.freeAreas g.core).isEmpty && s.retained.isEmpty) = true ∧
    (∀ n, (handled (at_ .nop id)).trapAhead (grp (handled (at_ .nop id))) n = false) ∧
    (let s := at_ .nop id
     decide ((s.launch? (grp s)).map (fun l => (l.status, l.job, l.handler)) = some (none, 0, none)) &&
       Tab.has s.work.jobs 0) = true ∧
    (let s := inHandler (at_ .nop id)
     (grp s).trap.isSome && decide ((s.launch? (grp s)).map (fun l => (l.status, l.job)) = some (none, 0))) = true ∧
    ([0, 255] : List Nat).all (fun n =>
      let g := grp (at_ .nop fun g => { g with lanes := { g.lanes with rep := n, repN := n } })
      decide (g.lanes.rep ≤ g.lanes.repN ∧ g.lanes.repN < 2 ^ 8)) = true ∧
    (recWord (frame true (grp (at_ .nop id))).record 0).toNat % 2 ^ 8 = 0x16 ∧
    (recWord { frame true (grp (at_ .nop id)) with record := [0x10D#32] }.record 0).toNat % 2 ^ 8 = 0x0D := by
  refine ⟨by decide +kernel, fun n => ?_, by decide +kernel, by decide +kernel, by decide +kernel, by decide +kernel,
    by decide +kernel⟩
  have h : ((handled (at_ .nop id)).groups.map fun e => e.2.trap) = [none] := by decide +kernel
  simp only [State.trapAhead, List.any_eq_false]
  intro e he
  have : e.2.trap = none := by
    have := List.mem_map_of_mem (f := fun e : Nat × Group => e.2.trap) he
    simpa [h] using this
  simp [this]

theorem witness_TretReturns :
    (let s := inHandler (at_ .tret id)
     let g := grp s
     steady .tret s && g.exec != 0#64 && g.pend.isEmpty && s.bad.isEmpty && Tab.has s.cores g.core &&
       decide ((g.trap.map fun f => (s.resumeOk g f, f.sv, f.ss, f.more)) = some (true, [], [], [])) &&
       s.retained.isEmpty) = true ∧
    (let s := withGroup (inHandler (at_ .tret id)) fun g => { g with trap := some { frame true g with
       more := [.withDetail 0x12 1] } }
     steady .tret s && (grp s).trap.any fun f => s.resumeOk (grp s) f && f.more == [.withDetail 0x12 1]) = true ∧
    ([(0, 0#64), (0, 0xFF#64), (1, 0xFF#64)] : List (Nat × Mask)).all (fun e =>
      let s := withGroup (inHandler (at_ .tret id)) fun g => { g with trap := some { frame true g with
        record := (frame true g).record.set 3 (BitVec.ofNat 32 (1 + e.1 * 2 ^ 8)), more := []
        lanes := { g.lanes with active := e.2, parked := [(0, ~~~e.2 &&& 0xFF#64)] } } }
      let g := grp s
      steady .tret s && g.exec != 0#64 && !g.done && match g.trap with
        | some f => s.resumeOk g f && recResume f.record == e.1 && f.lanes.active == e.2
        | none => false) = true := by
  decide +kernel

/-- The frame with a resume point that TRET does not take, one for each test of R364. -/
def badFrames : List (TrapFrame → TrapFrame) :=
  [fun f => { f with record := f.record.set 6 0x1FF#32 }, fun f => { f with record := f.record.set 0 0x16#32 },
   fun f => { f with record := f.record.set 0 0x10D#32, lanes := { f.lanes with active := 0#64 } },
   fun f => { f with header := true, record := f.record.set 3 0x101#32 },
   fun f => { f with record := f.record.set 3 0xF01#32 },
   fun f => { f with record := f.record.set 3 0x101#32, lanes := { f.lanes with lpc := [(0, 9)] } }]

/-- The state with a two-word instruction after the header at word 4, and the group whose frame resumes at its second
word. -/
def secondWord : State :=
  let s := withGroup (inHandler (at_ .tret id)) fun g => { g with trap := some { frame true g with
    record := ((frame true g).record.set 2 4#32).set 3 0x201#32
    lanes := { g.lanes with lpc := (List.range 8).map fun k => (k, 4) } } }
  { s with clusters := Tab.upd s.clusters 0 fun c => { c with
      code := Tab.set (Tab.set c.code 4 (plainHeader 1 2)) 5 0xF1080001#32 } }

theorem witness_TretReturns_bad :
    (badFrames.all fun m =>
      let s := withGroup (inHandler (at_ .tret id)) fun g => { g with trap := some (m (frame true g)) }
      let g := grp s
      ready .tret s && g.exec != 0#64 && g.pend.isEmpty && s.bad.isEmpty && s.retained.isEmpty) = true ∧
    (∀ m ∈ badFrames, let s := withGroup (inHandler (at_ .tret id)) fun g => { g with trap := some (m (frame true g)) }
      ∀ f, (grp s).trap = some f → BadResume s (grp s) f) ∧
    (ready .tret secondWord = true ∧ ∀ f, (grp secondWord).trap = some f → BadResume secondWord (grp secondWord) f) := by
  refine ⟨by decide +kernel, ?_, by decide +kernel, ?_⟩
  · intro m hm
    simp only [badFrames, List.mem_cons, List.not_mem_nil, or_false] at hm
    rcases hm with rfl | rfl | rfl | rfl | rfl | rfl <;> (intro s f hf; cases hf)
    · exact ⟨.inl (by decide +kernel)⟩
    · exact ⟨.inr (.inl (by decide +kernel))⟩
    · exact ⟨.inr (.inr (.inl (by decide +kernel)))⟩
    · exact ⟨.inr (.inr (.inr (.inl (by decide +kernel))))⟩
    · exact ⟨.inr (.inr (.inr (.inr ⟨rfl, .inl (by decide +kernel)⟩)))⟩
    · exact ⟨.inr (.inr (.inr (.inr ⟨rfl, .inr (.inr ⟨by decide +kernel, 0, by decide +kernel, by decide +kernel,
        by decide +kernel⟩)⟩)))⟩
  · intro f hf
    cases hf
    exact ⟨.inr (.inr (.inr (.inr ⟨rfl, .inr (.inl ⟨0, by decide +kernel, by decide +kernel⟩)⟩)))⟩

theorem witness_DebugIsPrivileged :
    (let i : Instr := .dbrd (r 8) (r 10)
     let s := at_ i id
     (encode i).head?.map (·.extractLsb' 24 8) == some 0xF4#8 && (s.breakAt (grp s) (cls s)).isNone &&
       !illegalAt (grp s) (cls s) i && !(grp s).inHandler && decide ((grp s).clause = some (cls s)) &&
       decide (s.cur = some 0)) = true ∧
    (let s := inHandler (at_ (.bpset (r 8) (r 10) 7#3) id)
     (grp s).inHandler && (s.breakAt (grp s) (cls s)).isNone) = true := by
  decide +kernel

theorem witness_IllegalWords :
    (let s := at_ .nop id
     decide (s.cur = some 0) && (s.breakAt (grp s) (cls s)).isNone && decide ((grp s).clause = some (cls s)) &&
       decide ((Instr.iadd (v 0) (v 0) (v 0)).cls.map classNum ≠ some (hdrClass (cls s).hw)) &&
       decide ((Instr.iadd (v 0) (v 0) (v 0)).cls ≠ some .control)) = true ∧
    (let s := at_ .exitG fun g => { g with clause := g.clause.map fun c => { c with hw := plainHeader 4 2 } }
     endsFlow .exitG && decide ((cls s).pos + Instr.exitG.words ≠ hdrN (cls s).hw + 1)) = true := by
  decide +kernel

/-! ### Values, records and global memory -/

/-- A rank-1 byte tensor of 4,096 elements at the start of object 1 (R189). -/
def tensorWords : List Word :=
  [0x81000000#32, 1#32, 0#32, 0x00400000#32, 4096#32, 1#32, 1#32, 1#32, 1#32, 0#32, 0#32, 0#32, 0#32, 0x00010001#32,
    0x00010001#32, 0#32]

/-- The state whose die 0 holds the descriptor of tensor 0 and the place of the extent, the launch holding a lease. -/
def mapped (s : State) : State :=
  { s with
    dies := [0, hubPath].foldl (fun t k => Tab.upd t k fun _ => ⟨[((0, 1, 0), some 0x400000)], [((0, 0), tensorWords)]⟩) s.dies
    work := { s.work with launches := Tab.mapVals s.work.launches fun _ l => { l with
      leases := [⟨1, 0, 2 ^ 21, 7#3, false⟩] } } }

/-- The group with a record of tensor 0 in b0, with stride 4 and 64 elements, and lane numbers in v1. -/
def recorded (g : Group) : Group :=
  { g with b := [(0, 4#32), (3, 64#32)], v := (List.range 8).map fun k => (64 + k, BitVec.ofNat 32 k) }

/-- What the hypotheses of AccessPasses come to for an access through b0. -/
def accessOf (s : State) (lanes : List Nat) (uniform : Bool) (idx : Nat → Word) (off : Int) (size right : Nat)
    (nohelp : Bool) : Option Desc × Plan × Option (List (Nat × Nat)) :=
  let g := grp s
  let d := s.desc (some 0) 0 0 0
  let q := g.plan lanes uniform (fun k => laneAddress d.1 (g.recWord 0) (idx k).toNat off size (right ≠ rRead)) size
  let p := { q with accs := q.accs.filter fun a => !nohelp || !g.helpers.getLsbD a.1 }
  (d.1, p, (d.2.linesOk 0 0 ((d.1.map Desc.obj).getD 0) right (dedup (p.accs.map fun a => lineOf a.2))).1)

/-- AccessPasses and the other conditions of an access that is made, evaluated. -/
def passes (s : State) (lanes : List Nat) (uniform : Bool) (idx : Nat → Word) (off : Int) (size right cls : Nat)
    (ldx : Option Nat) (nohelp : Bool) : Bool :=
  let g := grp s
  let (t, p, ps) := accessOf s lanes uniform idx off size right nohelp
  p.mis == 0#64 && (p.out == 0#64 || !(g.recWord 0 2).getLsbD 16) && s.tagLive (s.jobOf g) g.lanes.ctag.toNat &&
    ldx.all (s.tagKnown (s.jobOf g)) && decide (g.cnt cls < cntLimit cls) && ps.isSome && !p.accs.isEmpty &&
    decide (s.requests g.core + (ps.getD []).length ≤ Config.requestEntries) &&
    (right == rRead || decide (s.queued g.core + (ps.getD []).length ≤ Config.sfqLines)) &&
    (((s.setGroup 0 g).watchLanes g (if right = rRead then wLoad else if right = rWrite then wStore else wAtomic)
      ((t.map Desc.obj).getD 0) (p.laneAccs (ps.getD []) fun _ => []) size).isEmpty) &&
    decide (dieOf g.core = 0 ∧ s.jobOf g = 0 ∧ bitsOf (g.recWord 0 0).toNat 20 12 = 0)

theorem witness_ValuesSentAndLanded :
    ([.srd (v 4) .laneid, .srd (r 4) .tick, .bget (r 4) 31#5, .ctxq (r 4) (r 5), .sgstat (r 4) 0#6 11#4] : List Instr).all
      (fun i => steady i (at_ i id) && (grp (at_ i id)).active != 0#64) = true ∧
    (let s := at_ .nop fun g => { g with pend := [⟨.v 4, 7, false, false⟩] }
     let s := { s with ops := { s.ops with vals := [(7, ⟨0, [(.v 4 0, 5#32), (.s 3, 6#32)]⟩)] } }
     (Tab.get? s.ops.mem 7).isNone && (Tab.get? s.ops.vals 7).isSome && (grp s).pend.all fun e => !e.saved) = true := by
  decide +kernel

theorem witness_WritesSpecials :
    ([.swr (r 1) .agelimit, .swr (r 1) .rmode, .swr (r 1) .fflags, .swr (r 1) .bounds, .bset (r 4) 31#5] : List Instr).all
      (fun i => steady i (at_ i filled) && (grp (at_ i filled)).active != 0#64) = true := by
  decide +kernel

theorem witness_LoadsIssue :
    ([.ld (v 5) 0#5 .b32 (v 1), .ldl (v 5) 0#5 .i8 (v 1) 4#24, .ldx (v 8) 0#5 .ui16 (v 1) 2#6 0#18,
      .sld (r 5) 0#5 .b32 63#8] : List Instr).all (fun i =>
        let s := mapped (at_ i recorded)
        steady i s && match loadForm i (grp s) with
          | some (d, _, sz, idx, off, ldx) =>
            passes s (if d.isScalar then [0] else maskList (grp s).exec) d.isScalar idx off sz.bytes rRead cLD ldx false
          | none => false) = true ∧
    (let i : Instr := .ld (v 6) 0#5 .b64 (v 1)
     let s := mapped (at_ i fun g => { recorded g with b := [(0, 8#32), (3, 4#32)] })
     steady i s && passes s (maskList (grp s).exec) false (fun k => (grp s).src (v 1) 0 k) 0 8 rRead cLD none false &&
       (accessOf s (maskList (grp s).exec) false (fun k => (grp s).src (v 1) 0 k) 0 8 rRead false).2.1.out ==
         0xF0#64) = true := by
  decide +kernel

theorem witness_StoresIssue :
    ([.st (v 5) 0#5 .b32 (v 1), .stl (v 5) 0#5 .ui8 (v 1) 4092#24] : List Instr).all (fun i =>
        let s := mapped (at_ i recorded)
        steady i s && match storeForm i (grp s) with
          | some (_, _, sz, idx, off) => passes s (maskList (grp s).exec) false idx off sz.bytes rWrite cST none true
          | none => false) = true := by
  decide +kernel

theorem witness_AtomicsIssue :
    ([.atom (v 5) 0#5 (v 1) .add .acq .i32 .dev (v 6), .red 0#5 (v 1) .fadd .rel .f32 .sys (v 6)] : List Instr).all
      (fun i =>
        let s := mapped (at_ i recorded)
        steady i s && passes s (maskList (grp s).exec) false (fun k => (grp s).src (v 1) 0 k) 0 4 rAtomic
          (match i with | .red _ _ _ _ _ _ _ => cST | _ => cLD) none true) = true := by
  decide +kernel

/-- The access instructions of the statements with their destination a lane's word at v1's index through b0. -/
def accessForms : List Instr :=
  [.ld (v 5) 0#5 .b32 (v 1), .ldl (v 5) 0#5 .b32 (v 1) 4#24, .ldx (v 8) 0#5 .b32 (v 1) 2#6 0#18, .st (v 5) 0#5 .b32 (v 1),
   .stl (v 5) 0#5 .b32 (v 1) 4#24, .atom (v 5) 0#5 (v 1) .add .acq .i32 .dev (v 6), .red 0#5 (v 1) .fadd .rel .f32 .sys (v 6)]

/-- The byte offset an access form adds, and whether it writes. -/
def accessParts : Instr → Int × Bool
  | .ldl _ _ _ _ _ => (4, false)
  | .stl _ _ _ _ _ => (4, true)
  | .st _ _ _ _ | .atom _ _ _ _ _ _ _ _ | .red _ _ _ _ _ _ _ => (0, true)
  | _ => (0, false)

/-- Lane k's address in an access form of 4 bytes. -/
def accessAddr (s : State) (i : Instr) (k : Nat) : Option Nat :=
  laneAddress (s.recDesc 0 (grp s) 0).1 ((grp s).recWord 0) ((grp s).src (v 1) 0 k).toNat (accessParts i).1 4
    (accessParts i).2

/-- Lanes 1 to 3 misaligned; lane 4 and more beyond the extent and the record asking for the trap; a context that is not
live; and no lease, so that the line fails. -/
theorem witness_AccessStops :
    accessForms.all (fun i =>
      let s := mapped (at_ i fun g => { recorded g with b := [(0, 1#32), (3, 64#32)] })
      let t := mapped (at_ i fun g => { recorded g with b := [(0, 4#32), (2, 0x10000#32), (3, 4#32)] })
      let u := mapped (at_ i fun g => { recorded g with lanes := { g.lanes with ctag := 9#16 } })
      ready i s && ready i t && ready i u && (accessAddr s i 1).any (fun a => a % 4 != 0) &&
        (accessAddr t i 7).isNone && !u.tagLive 0 9 && (List.range 8).all fun k =>
          (accessAddr t i k).all (fun a => a % 4 == 0) && (accessAddr u i k).any fun a => a % 4 == 0) = true ∧
    (let i : Instr := .sld (r 5) 0#5 .b32 1#8
     let s := mapped (at_ i fun g => { recorded g with b := [(0, 1#32), (3, 64#32)] })
     ready i s && (laneAddress (s.recDesc 0 (grp s) 0).1 ((grp s).recWord 0) 1 0 4 false).any fun a => a % 4 != 0) = true ∧
    (let i : Instr := .ldx (v 8) 0#5 .b32 (v 1) 2#6 0#18
     let s := mapped (at_ i fun g => { recorded g with s := [(2, 9#32)] })
     ready i s && s.tagLive 0 0 && !s.tagKnown 0 9 && (List.range 8).all fun k =>
       (accessAddr s i k).any fun a => a % 4 == 0) = true ∧
    (let i : Instr := .ld (v 5) 0#5 .b32 (v 1)
     let s := (mapped (at_ i recorded)).updLaunch 0 fun l => { l with leases := [] }
     let a := accessOf s (maskList (grp s).exec) false (fun k => (grp s).src (v 1) 0 k) 0 4 rRead false
     ready i s && a.2.1.mis == 0#64 && a.2.1.out == 0#64 && a.2.2.isNone && s.tagLive 0 0 &&
       decide ((grp s).cnt cLD < cntLimit cLD ∧ s.requests 0 + 1 ≤ Config.requestEntries)) = true := by
  decide +kernel

/-- A load of lane 0 from the first bytes of the extent, as operation 7. -/
def loading : MemOp :=
  { group := 0, core := 0, job := 0, launch := 0, kind := .load, size := .b32, dst := some (v 5), tag := 0
    rtag := 0, tagged := false, ldx := false, handler := false, obj := 1
    accs := [⟨0, 0, 0x400000, [], [], false, false⟩], zero := [1], lines := [0]
    all := [0], cls := 0 }

/-- A store line of two bytes. -/
def storedLine : SfqLine :=
  { op := 7, group := 0, core := 0, job := 0, launch := 0, tag := 0, tagged := false, obj := 1, off := 0
    phys := 0x400000, bytes := [(0, 1#8), (63, 2#8)], waiting := false, after := [] }

/-- The state with operation 7 under way. -/
def withMem (s : State) (o : MemOp) : State := { s with ops := { s.ops with mem := [(7, o)] } }

/-- The group that operation 7 owes its scalar s4. -/
def owing (g : Group) : Group :=
  { g with pend := [⟨.s 4, 7, false, false⟩], cnts := (List.range 6).map fun k => (k, [(7, false)]) }

/-- The state whose Kennel has the live tags 1 and 2, 2 a child of 1, with tag 9 in the pool, and a cell of each of the
two; the job may hold `cap` times 16,384 cells. -/
def withCells (cap : Nat) (s : State) : State :=
  { s with
    work := { s.work with jobs := Tab.mapVals s.work.jobs fun _ j => { j with capacity := cap } }
    kennel := { tags := [(1, ⟨0, 0, 0, false, .live, 0⟩), (2, ⟨0, 1, 0, false, .live, 0⟩)], pools := [(0, [9])], asked := []
                cells := [⟨1, 0, 1, 5, 0x400140, List.replicate 64 7#8, 3#64⟩,
                  ⟨2, 0, 1, 5, 0x400140, List.replicate 64 8#8, 2#64⟩]
                waits := [] } }

theorem witness_LinesPerform :
    (let o := loading
     let s := withMem (at_ .nop owing) o
     s.bad.isEmpty && (s.charge 0 0x400000 7 0).1 &&
       o.accs.all (fun a => lineOf a.off = 0 && !s.elder 0 7 1 a.off 4 && (List.range 4).all fun k =>
         (s.forwardLine 7 o (a.off + k)).isNone && !s.leftBehind o (a.off + k)) &&
       (grp s).pend.all (fun e => !e.saved) && decide ((grp s).outs 0 = [(7, false)]) &&
       decide ((o.writes.map Prod.fst).Nodup) && o.writes.all fun w => match w.1 with
         | .v _ k => Nat.blt k 64
         | _ => false) = true ∧
    ([(1, 1, true, false), (1, 0, true, true), (9, 1, false, false)] : List (Nat × Nat × Bool × Bool)).all (fun e =>
      let l := { storedLine with tagged := true, tag := e.1 }
      let s := withCells e.2.1 (withMem (at_ .nop owing) { loading with kind := .store, dst := none, cls := 1 })
      let s := { s with ops := { s.ops with sfq := [(8, l)] } }
      s.lineReady 8 l && (s.charge 0 0x400000 8 0).1 && (s.kennel.cell? 0 e.1 1 0).isNone &&
        s.tagLive 0 e.1 == e.2.2.1 && s.cellsFull 0 == e.2.2.2 && Tab.has s.work.launches 0) = true ∧
    (let o := { loading with kind := .store, dst := none, cls := 1 }
     let s := withMem (at_ .nop owing) o
     let s := { s with ops := { s.ops with sfq := [(8, storedLine)] } }
     s.lineReady 8 storedLine && (s.charge 0 0x400000 8 0).1 && decide ((storedLine.bytes.map Prod.fst).Nodup) &&
       o.kind == .store && decide (o.lines = [storedLine.off] ∧ (grp s).outs 1 = [(7, false)])) = true := by
  decide +kernel

theorem witness_AtomicsPerform :
    (let o : MemOp := { loading with
       kind := .atomic .add .i32 true .ar .dev, accs := [⟨0, 0, 0x400000, [1#8, 0#8, 0#8, 0#8], [], false, false⟩] }
     let s := withMem (at_ .nop id) o
     s.bad.isEmpty && (s.charge 0 0x400000 7 0).1 && o.accs.all (fun a => s.atomicReady 7 o .ar .dev a 4) &&
       (o.accs.find? fun x => x.lane = 0 && !x.performed).isSome) = true ∧
    ([(1, 1, true, false), (1, 0, true, true), (9, 1, false, false)] : List (Nat × Nat × Bool × Bool)).all (fun e =>
      let o : MemOp := { loading with
        kind := .atomic .exch .ui32 false .rlx .dev, tagged := true, tag := e.1, rtag := e.1
        accs := [⟨0, 0, 0x400000, [1#8, 0#8, 0#8, 0#8], [], false, false⟩] }
      let s := withCells e.2.1 (withMem (at_ .nop id) o)
      s.bad.isEmpty && (s.charge 0 0x400000 7 0).1 && o.accs.all (fun a => s.atomicReady 7 o .rlx .dev a 4) &&
        (s.kennel.cell? 0 e.1 1 0).isNone && s.tagLive 0 e.1 == e.2.2.1 && s.cellsFull 0 == e.2.2.2) = true ∧
    (let o : MemOp := { loading with
       kind := .atomic .add .i32 false .rlx .dev
       accs := [⟨0, 0, 0x400000, [], [], true, false⟩, ⟨1, 60, 0x40003C, [1#8, 0#8, 0#8, 0#8], [], false, false⟩] }
     let s := withMem (at_ .nop id) o
     s.bad.isEmpty && (o.accs.find? fun x => x.lane = 1 && !x.performed).isSome &&
       o.accs.all fun a => a.performed || s.atomicReady 7 o .rlx .dev a 4) = true := by
  decide +kernel

theorem witness_FencesAndWalks :
    ([.fence .ar .sys, .fence .acq .grp] : List Instr).all (fun i =>
      steady i (at_ i id) && match i with
        | .fence ord sc => ((at_ i id).setGroup 0 (grp (at_ i id))).fenceMet 0 (grp (at_ i id)) ord sc
        | _ => false) = true ∧
    (let i : Instr := .fence .acq .dev
     let s := withMem (at_ i id) loading
     ready i s && (grp s).exec != 0#64 && !(s.setGroup 0 (grp s)).fenceMet 0 (grp s) .acq .dev) = true ∧
    (let s := at_ (.fence .rel .gang) fun g => { g with clause := g.clause.map fun c => { c with exec := 0#64 } }
     steady (.fence .rel .gang) s && (grp s).exec == 0#64) = true ∧
    steady (.tfence .sys) (withMem (at_ (.tfence .sys) id) loading) = true ∧
    ready (.tfence .dev) (withMem (at_ (.tfence .dev) id) { loading with kind := .store }) = true ∧
    (let s := mapped (at_ .nop id)
     ([(0, some true), (3, some false), (hubPath, some true), (5, none)] : List (Nat × Option Bool)).all fun e =>
       (Tab.get? s.dies e.1).map (fun d => d.extents.any fun x => x.1 = (0, 1, 0)) == e.2) = true := by
  decide +kernel

/-! ### Scratchpads and copies -/

/-- The group with byte address 4k in v4 of lane k, the last word of the allotment in v6, 8k in v8, lane 0 of v9 one
byte off, lane 7 of v10 just past the allotment, and 1 in s7 and 4,096 in s8. -/
def addressed (g : Group) : Group :=
  { g with
    v := ((List.range 8).map fun k => (256 + k, BitVec.ofNat 32 (4 * k))) ++
      ((List.range 8).map fun k => (384 + k, 4092#32)) ++
      ((List.range 8).map fun k => (512 + k, BitVec.ofNat 32 (8 * k))) ++ [(576, 1#32), (647, 4096#32)]
    s := [(6, 4092#32), (7, 1#32), (8, 4096#32)] }

/-- Whether the lanes of Exec are aligned and inside for an address. -/
def fine (s : State) (a : Reg) (imm n : Nat) : Bool :=
  (List.range 8).all fun k => ((grp s).src a 0 k).toNat % n == 0 &&
    decide (((grp s).src a 0 k).toNat + 4 * imm + n ≤ s.allot (grp s))

theorem witness_ScratchAccesses :
    ([(.lds (v 5) (v 4) 255#8, v 4, 255), (.lds (r 5) (r 6) 0#8, r 6, 0), (.sts (v 5) (v 6) 0#8, v 6, 0)] :
      List (Instr × Reg × Nat)).all (fun e =>
        let s := at_ e.1 addressed
        steady e.1 s && (s.block? (grp s)).isSome && s.bad.isEmpty && s.retained.isEmpty && (grp s).exec != 0#64 &&
          decide ((grp s).cnt 0 < 63 ∧ (grp s).cnt 1 < 63) && fine s e.2.1 e.2.2 4) = true ∧
    ([.lds (v 5) (v 9) 0#8, .sts (v 5) (v 9) 0#8, .atoms (v 5) (v 9) .add .rlx .i32 .grp (v 4)] : List Instr).all (fun i =>
      let s := at_ i addressed
      ready i s && (grp s).active.getLsbD 0 && decide (((grp s).src (v 9) 0 0).toNat % 4 ≠ 0)) = true ∧
    ([(.lds (v 5) (v 6) 1#8, v 6, 4), (.sts (v 5) (v 6) 1#8, v 6, 4), (.sts (v 5) (v 10) 0#8, v 10, 0),
      (.atoms (v 5) (v 10) .min .rlx .ui32 .grp (v 4), v 10, 0)] : List (Instr × Reg × Nat)).all (fun e =>
        let s := at_ e.1 addressed
        ready e.1 s && (grp s).active.getLsbD 7 &&
          decide (s.allot (grp s) < ((grp s).src e.2.1 0 7).toNat + e.2.2 + 4) &&
          (List.range 8).all fun k => ((grp s).src e.2.1 0 k).toNat % 4 == 0) = true ∧
    ([(.lds (r 5) (r 7) 0#8, r 7, 1, true), (.lds (r 5) (r 8) 0#8, r 8, 0, true), (.lds (r 5) (r 6) 0#8, r 6, 0, false)] :
      List (Instr × Reg × Nat × Bool)).all (fun e =>
        let s := at_ e.1 addressed
        let a := ((grp s).src e.2.1 0 0).toNat
        ready e.1 s && (grp s).active != 0#64 && a % 4 == e.2.2.1 &&
          (a % 4 != 0 || decide (s.allot (grp s) < a + 4)) == e.2.2.2) = true ∧
    (let i : Instr := .atoms (v 6) (v 8) .cas .ar .b64 .blk (v 12)
     let s := at_ i addressed
     steady i s && (s.block? (grp s)).isSome && (grp s).exec != 0#64 && fine s (v 8) 0 8 &&
       (s.setGroup 0 (grp s)).releaseMet 0 (grp s) .blk) = true ∧
    ([(.lds (v 5) (v 9) 0#8, 1#64), (.atoms (v 5) (v 10) .add .ar .i32 .grp (v 4), 0x80#64)] : List (Instr × Mask)).all (fun e =>
      let s := at_ e.1 fun g => { addressed g with
        helpers := 0xFF#64, clause := g.clause.map fun c => { c with exec := e.2 } }
      steady e.1 s && (grp s).active == 0#64 && (grp s).exec == e.2 && decide ((grp s).cnt 0 < 63) &&
        decide (((grp s).src (v 9) 0 0).toNat % 4 ≠ 0 ∧ s.allot (grp s) < ((grp s).src (v 10) 0 7).toNat + 4)) = true := by
  decide +kernel

/-- The conditions on which an engine takes a command of the group. -/
def accepts (i : Instr) (s : State) : Bool :=
  steady i s && (grp s).active != 0#64 && decide ((grp s).cnt 2 < 15 ∧ (grp s).cnt 3 < 15 ∧ (grp s).cnt 4 < 15 ∧
    (grp s).cnt 5 < 15) && decide (s.copiesOf 0 < 32 ∧ s.matsOf 0 < 16) && s.tagLive 0 0

theorem witness_CopiesAccepted :
    ([.tcopyLd (r 4) (r 5) (r 8) .core (some ⟨.block, 15#4⟩) 5#3 3#4, .tcopySt (r 4) (r 5) (r 8) .cluster none 1#3 0#4,
      .tcopyiPack (r 4) (r 5) (r 8) .die none 2#3 0#4, .tcopyiUnpack (r 4) (r 5) (r 8) .core none 2#3 1#4] :
        List Instr).all (fun i => accepts i (at_ i id) && decide (((grp (at_ i id)).sval (r 8) 0).toNat % 64 = 0)) =
          true ∧
    (let i : Instr := .tmov (r 4) (r 8) .core .cluster (some ⟨.grid, 3#4⟩)
     let s := at_ i fun g => { g with s := [(8, 4032#32), (9, 64#32), (10, 0x00010040#32)] }
     let g := grp s
     let w := fun k => (g.sval (r 8) k).toNat
     accepts i s && decide (w 0 % 64 = 0 ∧ w 1 % 64 = 0 ∧ w 2 % 2 ^ 16 % 64 = 0) &&
       s.moveFits { s.newCopy g (.scalar 0 4) .move with
         level := .core, dst := .cluster, image := w 0
         move := [w 1, w 2 / 2 ^ 16, w 2 % 2 ^ 16, w 3 / 2 ^ 16, w 3 % 2 ^ 16] }) = true ∧
    ([0x00010000#32, 0x00000040#32] : List Word).all (fun n =>
      let i : Instr := .tmov (r 4) (r 8) .core .die none
      let s := at_ i fun g => { g with s := [(10, n)] }
      accepts i s && ((n.toNat / 2 ^ 16 == 0) || (n.toNat % 2 ^ 16 == 0)) && (grp s).pend.isEmpty) = true := by
  decide +kernel

/-- A misaligned image and a dead context; and TMOV's operands misaligned in each word, beyond the core's allotment and
beyond the cluster's. -/
theorem witness_CopiesAccepted_faults :
    ([.tcopyLd (r 4) (r 5) (r 8) .core none 5#3 3#4, .tcopySt (r 4) (r 5) (r 8) .cluster none 1#3 0#4,
      .tcopyiPack (r 4) (r 5) (r 8) .die none 2#3 0#4, .tcopyiUnpack (r 4) (r 5) (r 8) .core none 2#3 1#4] :
        List Instr).all (fun i => ([32#32, 64#32] : List Word).all fun w =>
          let s := at_ i fun g => { g with s := [(8, w)], lanes := { g.lanes with ctag := 9#16 } }
          ready i s && (grp s).active != 0#64 && (grp s).sval (r 8) 0 == w && !s.tagLive 0 9) = true ∧
    ([([32#32, 0#32, 0x00010040#32, 0#32], true, false), ([0#32, 32#32, 0x00010040#32, 0#32], true, false),
      ([0#32, 0#32, 0x00000020#32, 0#32], true, false), ([4096#32, 0#32, 0x00010040#32, 0#32], false, true),
      ([0#32, 0#32, 0x00020040#32, 64#32], false, true), ([0#32, 0#32, 0x00010040#32, 0#32], false, false)] :
        List (List Word × Bool × Bool)).all (fun e =>
          let i : Instr := .tmov (r 4) (r 8) .core .cluster none
          let s := at_ i fun g => { g with
            s := (List.range 4).map fun k => (8 + k, e.1.getD k 0#32), lanes := { g.lanes with ctag := 9#16 } }
          let w := fun k => ((grp s).sval (r 8) k).toNat
          let last := fun p a => w a + (w 2 / 2 ^ 16 - 1) * p * 64 + w 2 % 2 ^ 16
          ready i s && !s.tagLive 0 9 && (w 0 % 64 != 0 || w 1 % 64 != 0 || w 2 % 2 ^ 16 % 64 != 0) == e.2.1 &&
            (!e.2.1 && decide (4096 < last (w 3 / 2 ^ 16) 0 ∨ 4096 < last (w 3 % 2 ^ 16) 1)) == e.2.2 &&
            s.scrSize (.core 0) == 4096 && s.scrSize (.cluster 0 0) == 4096) = true := by
  decide +kernel

/-- A copy command of group 0 for the status scalar s4. -/
def copying (kind : CopyKind) : CopyCmd :=
  { (at_ .nop id).newCopy (grp (at_ .nop id)) (.scalar 0 4) kind with
    dst := .cluster, move := [64, 1, 64, 0, 0], desc := tensorWords, coords := [4064, 0, 0, 0, 0] }

/-- The state with copy command 7 under way. -/
def withCopy (c : CopyCmd) : State :=
  let s := mapped (at_ .nop fun g => { g with
    pend := [⟨.s 4, 7, false, false⟩], cnts := (List.range 6).map fun k => (k, [(7, false)]) })
  { s with ops := { s.ops with copies := [(7, c)] } }

theorem witness_MovesRun :
    (let c := copying .move
     (copying .move).kind == .move && !c.started && (withCopy c).postOk c && c.moveAligned && (withCopy c).moveFits c) =
       true ∧
    ((withCopy { copying .move with image := 4096 }).moveFits { copying .move with image := 4096 }) = false ∧
    (let c := { copying .move with started := true, total := 1 }
     let s := withCopy c
     c.code.isNone && decide (c.next < c.total) && s.ownerOrdered 7 c.owner && s.bad.isEmpty && !s.asleep (s.copySegs c) &&
       decide (c.loc .core = some (.core 0) ∧ c.loc .cluster = some (.cluster 0 0))) = true ∧
    (withCopy (copying .move)).AllotExists (.cluster 0 0) := by
  refine ⟨by decide +kernel, by decide +kernel, by decide +kernel, ?_⟩
  exact ⟨_, rfl, by decide +kernel⟩

/-- The same tensor in the gang's share of the cluster scratchpad. -/
def clusterTensor : List Word := 0xC1000000#32 :: 0#32 :: tensorWords.drop 2

/-- The same tensor mapped through contexts. -/
def taggedTensor : List Word := 0x91000000#32 :: tensorWords.drop 1

theorem witness_TensorLinesFill :
    ([(copying .ld, true), (copying .st, false), ({ copying .st with desc := clusterTensor }, false)] :
      List (CopyCmd × Bool)).all (fun e =>
        let c := { e.1 with started := true, total := 1 }
        let s := withCopy c
        let d := Desc.read c.desc
        let offs := ((lineMap c.kind d c.coords c.next).filter fun b => !b.pad && b.cls = .inside).map LineByte.place
        let r := (s.touch (s.copySegs c)).tensorLines c d (if c.kind.fills then rRead else rWrite) offs
        c.kind.fills == e.2 && s.ownerOrdered 7 c.owner && s.bad.isEmpty && !s.asleep (s.copySegs c) &&
          decide (c.loc c.level = some (.core 0)) && decide (offs.length = 32 ∧ offs.Nodup) &&
          (d.space == 0 || decide (c.loc (spaceLevel d.space) = some (.cluster 0 0))) &&
          match r.1 with
          | some ps => decide ((r.2.grantLines c.core 7 c.paid ps).1 = ps.length) &&
              decide (ps = if d.space = 0 then [(4032, 0x400FC0)] else [])
          | none => false) = true ∧
    ([(1, true), (9, false)] : List (Nat × Bool)).all (fun e =>
      let c := { copying .st with started := true, total := 1, tag := e.1, rtag := e.1, desc := taggedTensor }
      let s := withCells 1 (withCopy c)
      let d := Desc.read c.desc
      let offs := ((lineMap c.kind d c.coords c.next).filter fun b => !b.pad && b.cls = .inside).map LineByte.place
      let r := (s.touch (s.copySegs c)).tensorLines c d rWrite offs
      d.tagged && c.waitGran.isEmpty && s.tagLive 0 e.1 == e.2 && s.ownerOrdered 7 c.owner &&
        decide (r.1 = some [(4032, 0x400FC0)] ∧ (r.2.grantLines c.core 7 c.paid [(4032, 0x400FC0)]).1 = 1) &&
        decide ((s.kennel.cells.filter fun x => x.job = c.job).length + 1 ≤ 1 * 16384)) = true ∧
    (withCopy (copying .ld)).AllotExists (.core 0) ∧ (withCopy (copying .ld)).AllotExists (.cluster 0 0) ∧
    LinesApart [(4032, 0x400FC0)] := by
  refine ⟨by decide +kernel, by decide +kernel, ?_, ⟨_, rfl, by decide +kernel⟩, ⟨by decide, by decide⟩⟩
  show Tab.has (withCopy (copying .ld)).work.blocks 0 = true
  decide +kernel

theorem witness_CopiesComplete :
    ([{ copying .ld with started := true, total := 1, next := 1 }, { copying .st with started := true, code := some 0xA },
      { copying .st with started := true, code := some 8, post := some (.block 0 15) }] : List CopyCmd).all (fun c =>
        let s := withCopy c
        let g := grp s
        (c.code.isSome || decide (c.total ≤ c.next)) && s.ownerOrdered 7 c.owner &&
          decide ((g.pend.filter fun e => e.op = 7) = [⟨.s 4, 7, false, false⟩]) &&
          decide (g.outs 2 = [(7, false)]) && s.retained.isEmpty && !s.reportOwed 7 c.owner &&
          (withGroup s fun g => { g with reports := [⟨0x13, 1, 1, 0, none, 16, 512, 0, 7, false⟩] }).reportOwed 7 c.owner) =
        true := by
  decide +kernel

/-! ### Contexts and views -/

/-- The same with the capacity of the probe's job. -/
def kenneled (s : State) : State := withCells 1 s

/-- The state with the tag 1 or 2 retiring for operation 7. -/
def retiring (tag : Nat) (commit : Bool) (s : State) : State :=
  { s with kennel := { s.kennel with tags := Tab.upd s.kennel.tags tag fun x =>
    { x with state := .retiring commit (some 7) 3 false } } }

theorem witness_ContextsCreated :
    ([.ctxnew (r 4), .ctxtry (r 4) 1#4] : List Instr).all (fun i =>
      let s := kenneled (at_ i id)
      steady i s && (grp s).active != 0#64 && (s.childFault (grp s)).isNone && s.tagReady (grp s)) = true ∧
    ([.ctxnew (r 4), .ctxtry (r 4) 15#4] : List Instr).all (fun i =>
      let s := at_ i id
      steady i s && (grp s).active != 0#64 && (s.childFault (grp s)).isNone && !s.tagReady (grp s)) = true ∧
    (let s := kenneled (at_ (.ctxnew (r 4)) fun g => { g with ctxwait := true })
     let dead := (at_ (.ctxnew (r 4)) fun g => { g with ctxwait := true, lanes := { g.lanes with ctag := 9#16 } })
     let word := fun (s : State) => decide (wordStep (s.fetch (grp s) (cls s)) = .ctxnew (r 4)) && (grp s).ctxwait &&
       (grp s).res != .saved && decide ((grp s).clause = some (cls s))
     word s && s.tagReady (grp s) && (s.childFault (grp s)).isNone && (grp s).lanes.active != 0#64 && !(grp s).step &&
       word dead && dead.childFault (grp dead) == some 8) = true := by
  decide +kernel

/-- A kernel without a budget, a dead context and the third of its chain. -/
theorem witness_ContextsCreated_faults :
    ([(0, 0#16, 3), (4, 9#16, 8), (4, 7#16, 2)] : List (Nat × BitVec 16 × Nat)).all (fun e =>
      ([.ctxnew (r 4), .ctxtry (r 4) 15#4] : List Instr).all fun i =>
        let s := (at_ i fun g => { g with lanes := { g.lanes with ctag := e.2.1 } }).updLaunch 0 fun l =>
          { l with kernel := { l.kernel with ctxbudget := e.1 } }
        let s := s.setKennel { s.kennel with tags := [(5, ⟨0, 0, 0, false, .live, 0⟩), (6, ⟨0, 5, 0, false, .live, 0⟩),
          (7, ⟨0, 6, 0, false, .live, 0⟩)] }
        ready i s && (grp s).active != 0#64 && s.childFault (grp s) == some e.2.2 &&
          s.tagLive 0 (grp s).lanes.ctag.toNat == (e.2.2 != 8) && (s.tagDepth 7 == 3)) = true := by
  decide +kernel

theorem witness_ContextsSelectedAndRetired :
    (let i : Instr := .ctxset (r 1)
     let one := kenneled (at_ i fun g => { g with s := [(1, 2#32)] })
     let other := kenneled (at_ i fun g => { g with s := [(1, 9#32)] })
     steady i one && one.tagLive 0 2 && ready i other && !other.tagLive 0 9 && (grp one).active != 0#64) = true ∧
    ([.ctxretCommit (r 4) (r 1), .ctxretDrop (r 4) (r 1)] : List Instr).all (fun i =>
      let s := kenneled (at_ i fun g => { g with s := [(1, 2#32)] })
      let g := grp s
      steady i s && decide (g.cnt 1 = 0 ∧ g.cnt 2 = 0 ∧ g.cnt 5 < 15) && !(s.setGroup 0 g).atomsOut 0 &&
        decide ((s.tag? 2).map (fun x => (x.job, x.state)) = some (0, .live)) &&
        s.kennel.tags.all fun e => e.2.parent ≠ 2) = true ∧
    ([(0, 0, 4), (9, 0, 4), (2, 2, 6), (1, 0, 5)] : List (Nat × Nat × Nat)).all (fun e =>
      let i : Instr := .ctxretDrop (r 4) (r 1)
      let s := kenneled (at_ i fun g =>
        { g with s := [(1, BitVec.ofNat 32 e.1)], lanes := { g.lanes with ctag := BitVec.ofNat 16 e.2.1 } })
      let g := grp s
      ready i s && decide (g.cnt 1 = 0 ∧ g.cnt 2 = 0 ∧ g.cnt 5 < 15) && !(s.setGroup 0 g).atomsOut 0 && match e.2.2 with
        | 4 => e.1 == 0 || (s.tag? e.1).isNone
        | 6 => s.tagLive 0 e.1 && e.1 == g.lanes.ctag.toNat
        | _ => s.tagLive 0 e.1 && e.1 != g.lanes.ctag.toNat && s.hasChild e.1) = true := by
  decide +kernel

theorem witness_ContextEvents :
    ([(1, true), (2, true), (2, false)] : List (Nat × Bool)).all (fun e =>
      let s := retiring e.1 e.2 (kenneled (at_ .nop id))
      (s.kennel.cell? 0 e.1 1 5).isSome && s.bad.isEmpty && !s.granuleHeld 0 1 5) = true ∧
    (let s := retiring 1 true (kenneled (at_ .nop owing))
     let s := { s with kennel := { s.kennel with cells := [] } }
     !s.tagHeld 1 && s.retained.isEmpty && decide ((s.tag? 1).map Tag.state = some (.retiring true (some 7) 3 false)) &&
       decide (((grp s).pend.filter fun e => e.op = 7) = [⟨.s 4, 7, false, false⟩]) &&
       decide ((grp s).outs 5 = [(7, false)])) = true ∧
    (let s := at_ .nop id
     s.poolOwner 0 0 && decide ((s.pool 0 0).length < 8) && !Tab.getD s.kennel.asked (0 * 64 + 0) false) = true ∧
    (let s := kenneled (at_ .nop id)
     let s := s.setHub { s.hub with toHub := [(0, [.tagRequest 0])] }
     s.poolOwner 0 0 && decide ((s.pool 0 0).length ≤ 48) && s.tagFree 65535 &&
       s.hub.toPup.isEmpty && decide ((Tab.getD s.hub.toHub 0 []).head? = some (.tagRequest 0))) = true ∧
    (let s := { at_ .nop fun g => { g with ctxwait := true } with now := 100000 }
     let s := { s with work := { s.work with jobs := Tab.mapVals s.work.jobs fun _ j => { j with stalled := some 0 } } }
     let e := { storedLine with group := 1, launch := 1, waiting := true, tagged := true, tag := 1 }
     let s := { kenneled s with
       groups := s.groups ++ [(1, { grp s with launch := 1 })]
       work := { s.work with launches := s.work.launches ++ [(1, probeLaunch []), (2, probeLaunch [])] }
       ops := { s.ops with sfq := [(8, e)] } }
     let s := { s with kennel := { s.kennel with waits := [8] } }
     Tab.sorted s.groups && s.groups.all (fun x => !x.2.done && s.jobOf x.2 == 0 && s.ctxStalled x.1 x.2 &&
       s.waitsForCell x.1 x.2 == (x.1 == 1)) && s.groups.length == 2 &&
       s.work.launches.all fun x => x.2.status.isNone) = true ∧
    (let e := { storedLine with waiting := true, tagged := true, tag := 1 }
     let s := kenneled (at_ .nop id)
     let s := { s with ops := { s.ops with sfq := [(8, e)] }, kennel := { s.kennel with waits := [8] } }
     s.lineReady 8 e && !s.cellsFull 0) = true := by
  decide +kernel

theorem witness_ViewsWritten :
    ([(0x00010000#32, 0), (0x00020000#32, 3)] : List (Word × Nat)).all (fun e =>
      let i : Instr := .tdview (r 4) (r 8) true
      let s := mapped (at_ i fun g => { g with s := [(8, e.1), (9, 64#32), (14, 128#32), (15, 1#32), (16, 1#32),
        (17, 1#32), (18, 1#32)] })
      let s := { s with work := { s.work with launches := Tab.mapVals s.work.launches fun _ l =>
        { l with viewFirst := 1, viewCount := 1 } } }
      let words := fun k => (List.range 5).map fun n => ((grp s).sval (r 8) (k + n)).toNat
      steady i s && (grp s).active != 0#64 && Tab.has s.work.jobs 0 && match s.launch? (grp s), (s.desc (some 0) 0 0 0).1 with
        | some l, some pd => viewStatus l (e.1.toNat / 2 ^ 16) (words 1) (words 6) (some pd) == e.2
        | _, _ => false) = true := by
  decide +kernel

/-! ### Barriers -/

theorem witness_BarrierEvents :
    (let b := (barsInit 1 2 0).headD (0, ⟨0, 0, 0, 0, 0, false, false, 0, 0, 0, 0, 0, [], [], 0, []⟩)
     let s := fun (b : Barrier) => (at_ .nop id).updBlock 0 fun x => { x with bars := [(0, b)] }
     decide ((s b.2).bar? (.block 0 0) = some b.2) && !b.2.held && !(b.2.event (0, 0)).met &&
       ((b.2.event (0, 0)).event (0, 0)).met && !b.2.releasing && (b.2.event (0, 0)).held == false &&
       ((s { b.2 with held := true, releasing := true }).bar? (.block 0 0)).isSome &&
       ({ b.2 with releasing := true, expected := 1 }.event (0, 0)).met) = true ∧
    (let b := { (Tab.get? (barsInit 1 2 0) 0).getD ⟨0, 0, 0, 0, 0, false, false, 0, 0, 0, 0, 0, [], [], 0, []⟩ with
       releasing := true }
     let s := { at_ .nop id with now := 1000000 }
     let s := s.updLaunch 0 fun l => { l with gridBars := [(3, b)] }
     decide (s.bar? (.grid 0 3) = some b) && s.ownedBy (.grid 0 3) (grp s) && !s.evicted (grp s) &&
       Nat.ble (b.t0 * 13 + s.phase b.map 0 * s.spacing b.map * 10) (s.now * 13)) = true ∧
    (let b := { (Tab.get? (barsInit 1 2 0) 0).getD ⟨0, 0, 0, 0, 0, false, false, 0, 0, 0, 0, 0, [], [], 0, []⟩ with
       releasing := true, cleared := [0] }
     let s := { at_ .nop id with now := 1000000 }
     let s := s.updLaunch 0 fun l => { l with gridBars := [(3, { b with held := true })] }
     Nat.ble (b.t0 * 13 + (b.top * s.spacing b.map + 64) * 10) (s.now * 13) &&
       (s.members (.grid 0 3)).all fun e => b.cleared.contains e.2.core) = true := by
  decide +kernel

/-- The grid barrier in its fifth generation, the fourth in release, with the group's record of it; under map entry 1
every core has phase 3. -/
def windowed (f : Barrier → Barrier) : State :=
  let b := { (Tab.get? (barsInit 4 1 1) 3).getD ⟨0, 0, 0, 0, 0, false, false, 0, 0, 0, 0, 0, [], [], 0, []⟩ with
    num := 5, relNum := 4 }
  let s := { at_ .nop fun g => { g with arrivals := [(barKey (.grid 0 3), 4)] } with now := 1000000 }
  let s := s.updLaunch 0 fun l => { l with gridBars := [(3, f b)] }
  s.setHub { s.hub with maps := [(1, ⟨128, List.replicate 128 3, 0⟩)] }

/-- A window whose member came to a core of a later phase ends; its record is then one of an ended window, whose time there
has come. -/
theorem witness_BarrierEvents_tails :
    (let s := windowed fun b => { b with releasing := true }
     (s.bar? (.grid 0 3)).any fun b => b.releasing && b.cleared.isEmpty && (s.members (.grid 0 3)).length == 1 &&
       Nat.ble (b.t0 * 13 + (b.top * s.spacing b.map + 64) * 10) (s.now * 13) &&
       (s.members (.grid 0 3)).all fun e => decide (b.top < s.phase b.map e.2.core)) = true ∧
    (let s := windowed fun b => { b with tails := [(4, 10, 1)] }
     s.ownedBy (.grid 0 3) (grp s) && !s.evicted (grp s) && (s.bar? (.grid 0 3)).any fun b => b.tails == [(4, 10, 1)] &&
       b.tails.all fun w => Nat.ble (w.2.1 * 13 + s.phase w.2.2 0 * s.spacing w.2.2 * 10) (s.now * 13) &&
         Tab.get? (grp s).arrivals (barKey (.grid 0 3)) == some w.1) = true := by
  decide +kernel

theorem witness_BarrierInstructions :
    ([⟨.block, 15#4⟩, ⟨.gang, 7#4⟩, ⟨.grid, 3#4⟩] : List BarName).all (fun b =>
      ([.bara (r 4) b, .barexp (r 4) b, .barw (r 4) b, .bars b] : List Instr).all fun i =>
        let s := at_ i id
        let g := grp s
        steady i s && g.active != 0#64 && (s.bar? (s.barId g b)).isSome && !Tab.has g.arrivals (arrKey b) &&
          (s.setGroup 0 g).releaseMet 0 g (barScopeOf b.scope) && g.barsTok.isNone &&
          (s.setGroup 0 g).acquireMet 0) = true ∧
    (let b : BarName := ⟨.block, 0#4⟩
     let s := at_ (.barw (r 4) b) fun g => { g with arrivals := [(arrKey b, 6)] }
     ready (.barw (r 4) b) s && decide (Tab.get? (grp s).arrivals (arrKey b) = some 6) &&
       !((grp s).sval (r 4) 0).getLsbD 8) = true ∧
    ([6, 7] : List Nat).all (fun n =>
      let b : BarName := ⟨.block, 0#4⟩
      let s := at_ (.bars b) fun g => { g with barsTok := some 1, arrivals := [(arrKey b, n)] }
      steady (.bars b) s && decide ((grp s).barsTok = some 1 ∧ Tab.get? (grp s).arrivals (arrKey b) = some n)) = true := by
  decide +kernel

/-! ### Clauses and residency -/

/-- The state whose group stands before its clause at word 0. -/
def between (i : Instr) (f : Group → Group) : State := at_ i fun g => f { g with clause := none }

theorem witness_ClauseIssues :
    (let s := between .nop id
     let g := (Tab.get? s.groups 0).getD (grp s)
     g.res == .held && (s.activeOf 0 0).contains 0 && s.mayIssue g && g.clause.isNone && !badHeader (s.codeWord g 0) && decide (hdrClass (s.codeWord g 0) ≠ 6) &&
       g.dueReport.isNone && g.thresholds (s.codeWord g 0) && !(s.codeWord g 0).getLsbD 20 && !s.native g) = true ∧
    (IssuesAt (grp (between .nop id)) 0) := by
  refine ⟨by decide +kernel, by decide +kernel, fun h => absurd (by decide +kernel) h, ?_, ?_⟩
  · intro _ k hk _ h
    have : ∀ k, k < 64 → (grp (between .nop id)).lageOf k = 0 := by decide +kernel
    have h2 : (grp (between .nop id)).lanes.agelimit = 256 := by decide +kernel
    rw [this k hk, h2] at h
    omega
  · intro _ _
    exact ⟨⟨0, by decide +kernel, by decide +kernel, by decide +kernel⟩, fun k _ _ => Nat.zero_le _⟩

/-- A data clause's header at the issue address, and headers with a reserved class, with guard bits and no guard, with no
words and without the signature. -/
theorem witness_ClauseIssues_faults :
    ([(plainHeader 6 1, false), (plainHeader 6 1 ||| 0x8000#32, false), (plainHeader 7 1, true),
      (plainHeader 0 1 ||| 0x8000#32, true), (0xB0000000#32, true), (plainHeader 0 1 &&& 0x0FFFFFFF#32, true)] :
      List (Word × Bool)).all (fun e =>
        let s := between .nop id
        let s := { s with clusters := Tab.upd s.clusters 0 fun c => { c with code := Tab.set c.code 0 e.1 } }
        let g := (Tab.get? s.groups 0).getD (grp s)
        g.res == .held && (s.activeOf 0 0).contains 0 && s.mayIssue g && g.clause.isNone && s.codeWord g 0 == e.1 &&
          badHeader e.1 == e.2 && (hdrClass e.1 == 6) == !e.2) = true := by
  decide +kernel

/-- The state with a second group of the slice, waiting for a place. -/
def crowded (s : State) : State :=
  { s with groups := s.groups ++ [(1, { grp s with res := .waiting, readyCnt := 9, clause := none })] }

theorem witness_ResidencyEvents :
    (let s := crowded (at_ .nop id)
     let g := (Tab.get? s.groups 1).getD (grp s)
     g.res == .waiting && g.recov.isNone && decide (s.freePlaces 0 0 ≠ 0) && s.fits g && s.retained.isEmpty &&
       (s.setRes 1 .held).reserveKept 0) = true ∧
    (let s := (crowded (at_ .nop id)).updLaunch 0 fun l => { l with kernel := { l.kernel with
       regions := [⟨0, 1, 1, 2000, 0, 0⟩] } }
     let g := (Tab.get? s.groups 1).getD (grp s)
     g.res == .waiting && g.recov.isNone && s.fits g && !(s.setRes 1 .held).reserveKept 0) = true ∧
    (let s := at_ .nop id
     let wide := { grp s with width := 64, clause := none }
     let s := { s with groups := (List.range 6).map fun k => (k, if k < 5 then wide else { wide with res := .waiting }) }
     let g := (Tab.get? s.groups 5).getD (grp s)
     g.res == .waiting && !s.fits g && decide (s.freePlaces 0 0 ≠ 0) && Nat.ble g.image (s.swapRoom 0) &&
       (s.setRes 5 .swapped).reserveKept 0) = true ∧
    (let s := crowded { at_ .nop id with clusters := Tab.upd (at_ .nop id).clusters 0 fun c => { c with cyc := 2000000 } }
     let s := { s with groups := Tab.upd s.groups 0 fun g => { g with idleCnt := 1 } }
     let g := grp s
     g.res == .held && (s.activeOf 0 0).contains 0 && decide (0 < g.idleCnt) &&
       decide (2000 ≤ s.coreCycles 0 - g.since ∧ g.image ≤ s.swapRoom 0) && s.groups.any fun e => e.2.res = .waiting) =
         true ∧
    (let s := at_ .nop id
     let wide := { grp s with width := 64, clause := none }
     let s := { s with
       groups := (List.range 6).map fun k => (k, if k < 5 then wide else { wide with res := .swapped, readyCnt := 1 })
       clusters := Tab.upd s.clusters 0 fun c => { c with cyc := 2000000 } }
     let g := (Tab.get? s.groups 5).getD (grp s)
     decide (s.oldestReady 0 0 = some 5) && !s.fits g && s.bad.isEmpty && g.recov.isNone &&
       match s.longestStalled 0 0 with
       | some (out, o) => out == 1 && Nat.ble o.image (s.swapRoom 0 + g.image) && o.core == 0 && o.slice == 0 &&
           decide (Tab.get? s.groups out = some o) && Nat.ble g.vUnits o.vUnits && Nat.ble g.sUnits o.sUnits &&
           o.recov.isNone
       | none => false) = true ∧
    (let s := at_ .nop fun g => { g with res := .swapped, readyCnt := 1 }
     decide (s.oldestReady 0 0 = some 0) && s.fits (grp s) && (s.setRes 0 .held).reserveKept 0 &&
       ((Tab.get? s.work.launches 0).any fun l => l.status.isNone) &&
       (let s := { s with bad := [.registers 0] }
        decide (s.oldestReady 0 0 = some 0) && s.fits (grp s) && (s.setRes 0 .held).reserveKept 0)) = true ∧
    (let s := at_ .nop fun g => { g with readyCnt := 4 }
     let s := { s with slices := Tab.upd s.slices 0 fun x => { x with active := [1, 2, 3, 4, 5, 6, 7] } }
     (grp s).res == .held && decide ((Tab.get? s.slices 0).map Slice.active = some [1, 2, 3, 4, 5, 6, 7])) = true ∧
    (let s := crowded (at_ .nop fun g => { g with idleCnt := 256 })
     let s := { s with groups := Tab.mapVals s.groups fun _ g => { g with res := .held } }
     decide ((grp s).idleCnt = 256) && s.groups.any fun e => e.1 = 1 && 0 < e.2.readyCnt) = true ∧
    (let s := at_ .nop fun g => { g with done := true, clause := none }
     (grp s).done && (List.range 6).all (fun c => (grp s).cnt c == 0) && (grp s).pend.isEmpty) = true := by
  decide +kernel

theorem witness_RegisterOnlyFrame :
    (intForms ++ predForms ++ exchangeForms).all (fun i => match exec i (at_ i filled) with
      | .next _ => steady i (at_ i filled)
      | _ => false) = true ∧
    fpForms.all (fun i => match exec i (at_ i floats) with
      | .next _ => steady i (at_ i floats)
      | _ => false) = true := by
  decide +kernel

/-! ### Queue registers, collectives and the matrix engine -/

theorem witness_QueueRegisters :
    ([.qw 0#4 (r 4), .qw 4#4 (r 4)] : List Instr).all (fun i => steady i (at_ i id) && (grp (at_ i id)).active != 0#64) =
      true ∧
    ([(0x00010000, true, true), (0x30000000, false, true), (0xF0000000, false, false)] : List (Nat × Bool × Bool)).all
      (fun w => ([(0#4, 1, true), (4#4, 3, false)] : List (BitVec 4 × Nat × Bool)).all fun e =>
        let i : Instr := .qw e.1 (r 4)
        let s := at_ i fun g => { g with
          qbuf := [(e.1.toNat, BitVec.ofNat 32 (if e.2.2 then w.1 else w.1 / 2 ^ 28 * 2 ^ 28) :: List.replicate 6 0#32)] }
        let g := grp s
        let ws := Tab.getD g.qbuf e.1.toNat [] ++ [g.sval (r 4) 0]
        steady i s && s.tagLive (s.jobOf g) g.lanes.ctag.toNat && s.pairReady g e.1.toNat e.2.2 && !g.done &&
          (if e.2.2 then (rawCopy (s.barId g) (s.newCopy g (.raw 0 0 0#32) .ld) ws).isSome == w.2.1
           else !(rawColl (.raw 0 4 0#32) 0 0 (wnat ws 0 / 2 ^ 28 % 2 ^ 4) (wnat ws 0 / 2 ^ 26 % 2 ^ 2) (wnat ws 0 % 2 ^ 26)
             ((ws.drop 1).take 6)).bad == w.2.2) &&
          decide ((s.launch? g).map (fun l => l.bindings.getD e.1.toNat 0) = some e.2.1)) = true ∧
    (let i : Instr := .qw 0#4 (r 4)
     let s := at_ i fun g => { g with qbuf := [(0, List.replicate 7 0#32)], lanes := { g.lanes with ctag := 9#16 } }
     ready i s && s.retained.isEmpty && (grp s).active != 0#64 && !s.tagLive 0 9 &&
       (Tab.getD (grp s).qbuf 0 []).length == 7) = true ∧
    ([.qr 1#4 (r 4), .qtry 3#4 1#4 (r 4)] : List Instr).all (fun i =>
      let s := at_ i fun g => { g with qcmp := [(1, [5#32, 6#32])] }
      steady i s && decide (Tab.getD (grp s).qcmp 1 [] = [5#32, 6#32] ∧ Tab.getD (grp s).qclaims 1 [] = [])) = true ∧
    ([.qr 1#4 (r 4), .qtry 3#4 1#4 (r 4)] : List Instr).all (fun i =>
      let s := at_ i id
      let t := at_ i fun g => { g with qclaims := [(1, [7])] }
      steady i s && decide (Tab.getD (grp s).qcmp 1 [] = []) && steady i t &&
        decide (Tab.getD (grp t).qclaims 1 [] ≠ [])) = true := by
  decide +kernel

/-- A collective of group 0 from offset 0 of tensor 0 to its offset 64, of 64 bytes and rank 1, in communicator 0. -/
def collective (op : CollOp) : CollCmd :=
  ⟨.scalar 0 4, 0, 0, 5, op, 0#2, [0#32, 0#32, 0#32, 64#32, 64#32, 0x00010000#32], false⟩

/-- The state with that collective under way, its job's communicator 0 of the packages 0 and 1. -/
def joined (op : CollOp) : State :=
  let s := mapped (at_ .nop owing)
  { s with
    ops := { s.ops with colls := [(7, collective op)] }
    work := { s.work with jobs := Tab.mapVals s.work.jobs fun _ j => { j with comms := [(0, ⟨0, [(0, 0), (1, 0)], 6⟩)] } } }

/-- What the other rank brings. -/
def joiner (op : CollOp) : PeerCmd := ⟨1, 5, op, 0#2, 64, 1, List.replicate 64 9#8⟩

theorem witness_CollectivesRun :
    (let i : Instr := .coll (r 4) (r 8) .arMax 2#2
     accepts i (at_ i id) && ([2, 3, 4].all fun k => ((grp (at_ i id)).sval (r 8) k).toNat % 64 == 0)) = true ∧
    ([10, 11, 12] : List Nat).all (fun k =>
      let i : Instr := .coll (r 4) (r 8) .put 0#2
      let s := at_ i fun g => { g with s := [(k, 96#32)] }
      ready i s && (grp s).active != 0#64 && ((grp s).sval (r 8) (k - 8)).toNat % 64 == 32) = true ∧
    ([.put, .arAdd, .arMax, .gather, .bcast] : List CollOp).all (fun op =>
      let s := joined op
      let c := collective op
      let a := s.collSide c false (wnat c.words 0 % 2 ^ 12) (wnat c.words 2) c.bytes
      let b := a.2.collSide c true (wnat c.words 1 % 2 ^ 12) (wnat c.words 3) (c.reach 2)
      s.engineOrdered 0 7 && s.bad.isEmpty && s.retained.isEmpty && decide (s.commOf c = some ⟨0, [(0, 0), (1, 0)], 6⟩) && !s.localRank c ⟨0, [(0, 0), (1, 0)], 6⟩ 1 &&
        s.hub.lostPkgs.isEmpty && s.ownerOrdered 7 c.owner && !c.bad &&
        decide (c.bytes = 64 ∧ c.peer = 1) &&
        decide (((grp s).pend.filter fun e => e.op = 7) = [⟨.s 4, 7, false, false⟩]) &&
        decide ((grp s).outs 5 = [(7, false)]) &&
        decide (a.1 = .inr (1, 0, [(0, 0x400000)])) &&
        decide (b.1 = .inr (1, 64, (0x40, 0x400040) :: if op = .gather then [(0x80, 0x400080)] else [])) &&
        collAgree c (joiner op) && decide ((joiner op).source.length = c.bytes ∧ (joiner op).nth = c.nth)) = true ∧
    (let s := joined .arAdd
     let both : Comm := ⟨0, [(0, 0), (0, 2)], 6⟩
     let jobs := (Tab.mapVals s.work.jobs fun _ j => { j with comms := [(0, both)] }) ++
       [(2, { probeJob with comms := [(0, { both with own := 1, issued := 0 })] })]
     let s := s.setWork { s.work with jobs := jobs }
     decide (s.commOf (collective .arAdd) = some both) && s.localRank (collective .arAdd) both 1 &&
       decide (s.pairs 7 (collective .arAdd) both = none)) = true ∧
    LinesApart [(0x40, 0x400040), (0x80, 0x400080)] ∧ LinesApart [(0x40, 0x400040)] := by
  refine ⟨by decide +kernel, by decide +kernel, by decide +kernel, by decide +kernel, ⟨by decide, by decide⟩, ⟨by decide, by decide⟩⟩

/-- The state whose block has a parameter block at its scratchpad's last 32 bytes: int8 columns from 0, 64 apart. -/
def parametrized (s : State) : State := s.updBlock 0 fun b => { b with scratch := [(4068, 64#8)] }

/-- The group with that block's address in s8 and well-formed metadata in v2. -/
def multiplying (g : Group) : Group :=
  { g with s := [(8, 4064#32)], v := (List.range 8).map fun k => (128 + k, 0x06880688#32) }

theorem witness_MatrixCommandsIssue :
    ([(.mma 3#8 (v 20) (r 8) 0#1 false true .i8 1#8, none), (.mmaSp 0#8 (v 20) (r 8) 0#1 false false .i8 (v 2) 1#8,
      some (v 2))] : List (Instr × Option Reg)).all (fun e =>
        let s := parametrized (at_ e.1 multiplying)
        let g := grp s
        let ws := bytesToWords (s.scratchRead g 4064 32)
        accepts e.1 s && s.bad.isEmpty && decide ((g.sval (r 8) 0).toNat = 4064 ∧ 4064 + 32 ≤ s.allot g) &&
          e.2.all (fun m => (List.range 64).all fun k => !g.active.getLsbD k || !metaBad g m 1 k) &&
          decide (mmaFault .i8 1 (s.allot g) ws 0#64 = none)) = true ∧
    ([.accld (r 4) (r 5) .f32 15#6 0#9, .accst (r 4) (r 5) .t6 63#6 3#9] : List Instr).all (fun i =>
      let s := at_ i fun g => { g with s := [(4, 0#32), (5, 64#32)] }
      let g := grp s
      accepts i s && decide ((g.sval (r 4) 0).toNat = 0 ∧ (g.sval (r 5) 0).toNat = 64 ∧ 15 * 64 + 256 ≤ s.allot g ∧
        63 * 64 + rowB .t6 ≤ s.allot g)) = true ∧
    ([.accrd (v 40) .raw 7#3 0#9, .accwr (v 40) .bf16 0#3 1#9, .accclr 2#9, .accrel 3#9] : List Instr).all (fun i =>
      accepts i (at_ i id)) = true := by
  decide +kernel

/-- The parameter block's address and words and metadata's reserved bits for each fault of MMA in turn, and the cause. -/
def mmaFaults : List (Word × List Word × Nat) :=
  [(4065#32, [], 9), (4096#32, [], 7), (4064#32, [0#32, 64#32, 0#32, 0#32, 1#32], 11), (4064#32, [0#32, 0x00200040#32], 11),
   (4064#32, [1#32, 64#32], 9), (4064#32, [0#32, 66#32], 9), (4064#32, [64#32, 64#32], 7), (4064#32, [0#32, 64#32], 10)]

theorem witness_MatrixCommandsIssue_faults :
    mmaFaults.all (fun e =>
      ([(.mma 3#8 (v 20) (r 8) 0#1 false true .i8 1#8), (.mmaSp 0#8 (v 20) (r 8) 0#1 false false .i8 (v 2) 1#8)] :
        List Instr).all fun i =>
          let s := (at_ i fun g => { g with s := [(8, e.1)], v := [(130, 0x1000#32)] }).updBlock 0 fun b => { b with
            scratch := ((wordsToBytes e.2.1).mapIdx fun k x => (4064 + k, x)).filter fun x => x.2 != 0#8 }
          let g := grp s
          let ws := bytesToWords (s.scratchRead g e.1.toNat 32)
          ready i s && g.active != 0#64 && s.bad.isEmpty && s.retained.isEmpty && g.sval (r 8) 0 == e.1 &&
            (if e.2.1.isEmpty then if e.2.2 = 9 then e.1.toNat % 32 != 0
                else e.1.toNat % 32 == 0 && decide (s.allot g < e.1.toNat + 32)
             else mmaFault .i8 1 (s.allot g) ws 0xFF#64 == some (if e.2.2 = 10 then .at 10 0xFF#64 else .plain e.2.2)) &&
            (List.range 8).all fun k => metaBad g (v 2) 1 k) = true ∧
    ([(0#32, 2#32), (2#32, 0#32), (4#32, 1020#32), (0#32, 0x10000000#32)] : List (Word × Word)).all (fun e =>
      ([.accld (r 4) (r 5) .f32 15#6 0#9, .accst (r 4) (r 5) .t6 63#6 3#9] : List Instr).all fun i =>
        let s := at_ i fun g => { g with s := [(4, e.1), (5, e.2)] }
        let n := match i with
          | .accld _ _ _ _ _ => 15 * e.2.toNat + rowB .f32
          | _ => 63 * e.2.toNat + rowB .t6
        ready i s && (e.1.toNat % 4 != 0 || e.2.toNat % 4 != 0 || decide (s.allot (grp s) < e.1.toNat + n))) = true := by
  decide +kernel

/-- The state with matrix command 7 under way on core 0. -/
def commanding (op : MatOp) : State :=
  let s := at_ .nop fun g => { g with
    cnts := (List.range 6).map fun k => (k, [(7, false)])
    pend := match op with
      | .rd _ _ _ _ => (List.range 8).map fun k => ⟨.v (40 + k), 7, false, false⟩
      | _ => [] }
  { s with ops := { s.ops with mats := [(7, ⟨0, 0, 0, 0, 3, op, 8⟩)] } }

theorem witness_MatrixCommandsExecute :
    ([.mma .i8 false 1 (some (List.replicate 16 FVal.zero) :: List.replicate 7 none) [0#32, 64#32, 0#32, 0#32, 0#32, 0#32, 0#32, 0#32],
      .ld .bf16 0 64 64, .st .t8 0 64 1, .rd .raw 7 0xFF#64 40, .wr .f32 0 [(0, List.replicate 8 1#32)], .clr, .rel] :
        List MatOp).all (fun op =>
      let s := commanding op
      decide ((s.ops.mats.find? fun e => e.2.core = 0) = some (7, ⟨0, 0, 0, 0, 3, op, 8⟩)) && s.engineOrdered 0 7 &&
        Tab.has s.work.blocks 0 && s.bad.isEmpty && s.retained.isEmpty && decide ((grp s).outs 3 = [(7, false)]) &&
        (grp s).pend.all fun e => !e.saved) = true := by
  decide +kernel

/-! ### Surrogates -/

/-- A table of one input and one result (R307, R308): two entries, 1.0 and 2.0, and a linear predictor that gives 0. -/
def image : List Byte :=
  wordsToBytes ([0#32, 7#32, 0#32, 0x00100000#32, 0x3F800000#32, 0xF0#32, 0#32, 1#32, 64#32, 1#32, 0#32, 40#32, 0#32, 0#32,
    0#32, 0#32, 0x3F800000#32, 0#32] ++ List.replicate 6 0#32 ++ [0x3F800000#32, 0x40000000#32] ++ List.replicate 6 0#32)

/-- R309 and R310: the image is well formed, and halfway between the entries it gives 1.5. -/
theorem test_table_image : imageBad image = false ∧ evalLane image 0x3F800000 [0x3F000000] = some [0x3FC00000] := by
  decide +kernel

/-- A call of group `g` to slot 3 with 0.5 in its lanes, for v40 and p1. -/
def calling (g : Nat) (evaluated : Bool) (left : Nat) : Call :=
  { group := g, core := 0, job := 0, launch := 0, slot := 3, pd := 1, d := 40, resc := 1, argc := 1, lanes := 0x81#64
    exec := 0x83#64, args := [(0, [0x3F000000#32]), (7, [0x3F000000#32])], tag := 0#16, rmode := 0#2, version := 0
    evaluated := evaluated, left := left }

/-- The state with call 7 under way. -/
def withCall (s : State) (c : Call) : State := { s with ops := { s.ops with calls := [(7, c)] } }

/-- Core 0 with the image in slot 3. -/
def slotted (s : State) : State := s.updCore 0 fun c => { c with slots := [(3, Slot.loaded 0 image)] }

/-- What the group of the call owes. -/
def owingCall (g : Group) : Group :=
  { g with pend := [⟨.v 40, 7, false, false⟩, ⟨.p 1, 7, false, false⟩], cnts := (List.range 6).map fun k => (k, [(7, false)]) }

theorem witness_SurrogateCalls :
    (let i : Instr := .sgcall (v 40) (v 1) 63#6 1#4
     let s := at_ i filled
     let g := grp s
     accepts i s && decide ((maskList g.active).length ≤ s.freeEntries g.core) && match s.region? g 63 with
       | some r => (g.pregs (v 40) r.resc ++ g.pregs (v 1) r.argc).all fun x => !g.isPend x
       | none => false) = true ∧
    ([(0xF0#32, 0x3F000000#32, 0#64, 0#64, true), (0xF0#32, 0x7FC00000#32, 0#64, 0#64, false),
      (0xF4#32, 0x3F000000#32, 0x80#64, 0x80#64, false), (0xFC#32, 0x3F000000#32, 0x80#64, 0#64, true),
      (0xF4#32, 0x7FC00000#32, 0x80#64, 0x80#64, false)] : List (Word × Word × Mask × Mask × Bool)).all (fun e =>
        let c := { calling 0 false 0 with args := [(0, [0x3F000000#32]), (7, [e.2.1])] }
        let s := slotted (withCall (at_ .nop owingCall) c)
        let s := s.updSlot 0 3 fun x => { x with quality := e.1 }
        s.ops.sgs.isEmpty && s.retained.isEmpty && decide ((grp s).outs 4 = [(7, false)]) &&
          (grp s).pend.all (fun e => !e.saved) && decide (maskList c.lanes = [0, 7]) &&
          (s.slot? 0 3).any fun x => x.readyFor c false && decide (x.shift = 15) &&
            (List.range 64).all (fun k => e.2.2.2.1.getLsbD k == (c.lanes.getLsbD k && x.quality.getLsbD 2 &&
              !x.quality.getLsbD 3 && e.2.2.1.getLsbD k)) &&
            evalLane x.image x.bound.toNat [0x3F000000] == some [0x3FC00000] &&
            (!e.2.2.2.1.getLsbD 7 && (evalLane x.image x.bound.toNat [e.2.1.toNat]).isSome) == e.2.2.2.2) = true ∧
    (let s := withCall (at_ .nop owingCall) (calling 0 false 0)
     s.ops.sgs.isEmpty && (grp s).pend.all (fun e => !e.saved) &&
       ((Tab.get? s.cores 0).any fun k => !Tab.has k.slots 3)) = true := by
  decide +kernel

/-- A queued entry of call 7. -/
def entry (id lane : Nat) (running : Bool) : REntry :=
  { id := id, call := 7, group := 1, lane := lane, slot := 3, launch := 0, version := 0, tag := 0#16, rmode := 0#2
    args := [0x3F000000#32], shadow := none, running := running }

/-- The state whose group 0 is a recovery group of entry 11 in lane 0, for call 7 of group 1. -/
def merging (s : State) (left : Nat) : State :=
  let s := withCall s (calling 1 true left)
  let s := { s with groups := s.groups ++ [(1, owingCall { grp s with clause := none, recov := none })] }
  s.updCore 0 fun c => { c with recq := [entry 11 0 true, entry 12 7 false] }

/-- The group as a recovery group of slot 3 that stands in the given lanes. -/
def recovering (exec : Mask) (g : Group) : Group :=
  { g with recov := some (3, [11]), clause := g.clause.map fun c => { c with exec := exec } }

theorem witness_RecoveryRuns :
    (let s := (at_ .nop id).updCore 0 fun c => { c with recq := [entry 11 0 false, entry 12 7 false] }
     match Tab.get? s.cores 0, Tab.get? s.work.launches 0, s.codeOf 0 0 with
     | some k, some l, some code =>
       let q := k.recq.filter fun x => !x.running
       decide (q.head? = some (entry 11 0 false)) && decide (1 ≤ s.freePlaces 0 5) &&
         match l.kernel.regions.find? fun x => x.slot = 3 with
         | some r => s.fits (s.recoveryGroup 0 5 l r code.base (q.take 64))
         | none => false
     | _, _, _ => false) = true ∧
    ([(0xFF#64, 1), (1#64, 1), (1#64, 2)] : List (Mask × Nat)).all (fun e =>
      let i : Instr := .sgret (v 1)
      let s := merging (at_ i (recovering e.1)) e.2
      let g := grp s
      ready i s && !g.step && decide (g.recov = some (3, [11])) && (s.region? g 3).any (fun r =>
        (g.pregs (v 1) r.resc).all (fun x => !g.isPend x) && decide (r.resc = 1)) &&
        (allExited g (exitLanes g.lanes g.exec) || (exitLanes g.lanes g.exec).active != 0#64) &&
        (e.1 != 1#64 || decide (maskList g.exec = [0])) &&
        (match Tab.get? s.cores 0, Tab.get? s.groups 1 with
         | some q, some go => decide ((q.recq.find? fun x => x.id = 11) = some (entry 11 0 true)) &&
             go.pend.all (fun x => !x.saved)
         | _, _ => false) &&
        (Tab.get? s.ops.calls 7).any fun c => c.left == e.2 && c.group == 1) = true := by
  decide +kernel

/-- A shadow whose result differs, equals the surrogate's or is no number, in its owner's slot, whose threshold is one
violation, and in another job's. -/
theorem witness_RecoveryRuns_shadows :
    ([(0, 0x40000000#32, 1), (0, 0x3FC00000#32, 0), (0, 0x7FC00000#32, 1), (1, 0x40000000#32, 1)] :
      List (Nat × Word × Nat)).all (fun e =>
        let i : Instr := .sgret (v 1)
        let s := (at_ i fun g => { recovering 1#64 g with v := (List.range 8).map fun k => (64 + k, e.2.1) }).updCore 0
          fun c => { c with
            recq := [{ entry 11 0 true with shadow := some [0x3FC00000#32] }], slots := [(3, Slot.loaded e.1 image)] }
        let g := grp s
        ready i s && !g.step && s.retained.isEmpty && decide (maskList g.exec = [0]) && (s.region? g 3).any (fun r =>
          (g.pregs (v 1) r.resc).all (fun x => !g.isPend x) && r.resc == 1) &&
          (exitLanes g.lanes g.exec).active != 0#64 && (s.slot? 0 3).any fun x =>
            let err := largest [errAbs (imgRelative x.image) (g.src (v 1) 0 0).toNat 0x3FC00000]
            x.owner == e.1 && x.violations == 0 && !x.disabled && imgThreshold x.image == 1 &&
              ((fp32.unpack err).isNan || (fp32.unpack (imgLimit x.image)).lt (fp32.unpack err)) == (e.2.2 == 1)) =
      true := by
  decide +kernel

/-- The state with slot operation 7 on slot 3 under way, the image at the start of the block's scratchpad. -/
def slotting (op : Nat) (quality : List Word) (s : State) : State :=
  let s := s.updBlock 0 fun b => { b with
    scratch := ((List.range 128).zip image).filter fun e => e.2 != 0#8 }
  { s with ops := { s.ops with sgs := [(7, ⟨0, 0, 0, 0, some 0, 3, op, 0, quality⟩)] } }

theorem witness_SlotOperations :
    ([.sgloadLoad (r 4) (r 5) 63#6, .sgloadQual (r 4) (r 5) 0#6, .sgloadRel (r 4) 3#6, .sgloadClr (r 4) 3#6] :
      List Instr).all (fun i =>
        let s := at_ i fun g => { g with s := [(5, 4032#32)] }
        accepts i s && decide (((grp s).sval (r 5) 0).toNat = 4032 ∧ 4032 + 64 ≤ s.allot (grp s))) = true ∧
    ([4033#32, 4096#32] : List Word).all (fun w =>
      let i : Instr := .sgloadLoad (r 4) (r 5) 63#6
      let s := at_ i fun g => { g with s := [(5, w)] }
      ready i s && (grp s).active != 0#64 && (w.toNat % 64 != 0 || decide (s.allot (grp s) < w.toNat + 64))) = true ∧
    (let s := slotting 0 [] (at_ .nop owing)
     let g := grp s
     s.engineOrdered 0 7 && s.retained.isEmpty && decide ((g.pend.filter fun e => e.op = 7) = [⟨.s 4, 7, false, false⟩]) &&
       decide (g.outs 4 = [(7, false)]) && Tab.has s.cores 0 &&
       decide (s.checkImage 0 3 0 (s.blockAllot (some 0) - 0) (fun k => s.scratchLine 0 (0 + 64 * k))
         (regionMismatch (Tab.get? s.work.launches 0) 3) = (0, image))) = true ∧
    ([(1, [0x3F800000#32, 0x10#32]), (1, [0x80000001#32, 0#32]), (2, []), (3, [])] : List (Nat × List Word)).all (fun e =>
      let s := slotted (slotting e.1 e.2 (at_ .nop owing))
      s.engineOrdered 0 7 && ((s.slot? 0 3).map Slot.owner == some 0)) = true ∧
    qualityBad 0x3F800000 0x10 = false ∧ qualityBad 0x80000001 0 = true ∧
    (let s := (slotting 3 [] (at_ .nop owing)).updCore 0 fun c => { c with slots := [(3, Slot.loaded 1 image)] }
     (s.slot? 0 3).map Slot.owner == some 1) = true ∧
    (let s := slotting 3 [] (at_ .nop owing)
     (Tab.get? s.cores 0).any fun c => !Tab.has c.slots 3) = true ∧
    (let s := slotted { at_ .nop id with hub := { Hub.reset with
       toHub := [(0, [.disable 0 7#32])], toPup := [(0, [.disable 1 7#32, .disable 0 7#32])] } }
     Tab.has s.cores 0 && decide ((Tab.getD s.hub.toHub (clusterOf 0) []).head? = some (.disable 0 7#32) ∧
       Tab.getD s.hub.toPup 0 [] = [.disable 1 7#32] ++ HubMsg.disable 0 7#32 :: [])) = true := by
  decide +kernel

/-! ### Debug -/

/-- A handler's group with its status scalar s4, the words of s8 on, and 0 in s16. -/
def asking (ws : List Word) (g : Group) : Group :=
  { g with s := (List.range ws.length).map fun k => (8 + k, ws.getD k 0#32) }

/-- The handler's state at a debug instruction. -/
def debugging (i : Instr) (ws : List Word) : State := inHandler (at_ i (asking ws))

/-- The conditions common to the clauses of DebugWords. -/
def debugs (i : Instr) (s : State) : Bool := steady i s && (grp s).active != 0#64

/-- The same with group 1, number 2 of block 0 of a launch of the job that has no handler, in the middle of a clause. -/
def besides (s : State) : State :=
  let g := { grp s with launch := 1, block := some 1, gix := 2, trap := none }
  { s with
    groups := s.groups ++ [(1, g)]
    work := { s.work with
      launches := s.work.launches ++ [(1, { probeLaunch [] with number := 1 })]
      blocks := s.work.blocks ++ s.work.blocks.map fun e => (1, { e.2 with launch := 1 }) } }

theorem witness_DebugWords_points :
    ([(0x00000001#32, false), (0x80000001#32, true), (0x80000000#32, false)] : List (Word × Bool)).all (fun e =>
      let i : Instr := .bpset (r 4) (r 8) 7#3
      let s := debugging i [e.1, 0#32, 0#32, 0xFF#32, 0#32]
      debugs i s && match s.launch? (grp s) with
        | some l => Tab.has s.work.jobs l.job && (l.kernel.breakable (e.1.toNat % 2 ^ 18) == (e.1.toNat % 2 ^ 18 == 1))
        | none => false) = true ∧
    ([([0#32, 0#32, 0#32, 0#32], false), ([0x801F0000#32, 4080#32, 0#32, 0xFFFF0010#32], false),
      ([0x801F0000#32, 4080#32, 0#32, 0xFFFF0020#32], true)] : List (List Word × Bool)).all (fun e =>
      let i : Instr := .wpset (r 4) (r 8) 3#2
      let s := mapped (debugging i e.1)
      let len := (e.1.getD 3 0#32).toNat % 2 ^ 16
      debugs i s && !s.foreignUnit 0 0 3 && Tab.has s.cores 0 && match (s.desc (some 0) 0 0 0).1 with
        | some x => x.space == 0 && !x.tagged && (len == 0 || watchRangeBad x 4080 len == e.2)
        | none => false) = true ∧
    (let i : Instr := .wpset (r 4) (r 8) 0#2
     let s := mapped (debugging i [0x801F0001#32])
     debugs i s && (s.desc (some 0) 0 0 1).1.isNone) = true ∧
    ([0#32, 0x801F0000#32] : List Word).all (fun w =>
      let i : Instr := .wpset (r 4) (r 8) 3#2
      let s := besides (mapped (debugging i [w, 4080#32, 0#32, 0xFFFF0010#32]))
      let s := (s.updLaunch 1 fun l => { l with job := 1 }).updCore 0 fun c =>
        { c with watch := [(3, ⟨1, 31#5, 1, 0x400000, 0, 0, 16, 0xFFFF#16⟩)] }
      debugs i s && s.foreignUnit 0 0 3) = true ∧
    ([(.stepArm (r 4) (r 8), true), (.stepOff (r 4) (r 8), false)] : List (Instr × Bool)).all (fun e =>
      ([(0xFFFFFFFF#32, some 0), (1#32, none)] : List (Word × Option Nat)).all fun b =>
        let s := debugging e.1 [b.1, 0#32]
        let g := grp s
        debugs e.1 s && (s.setGroup 0 g).steppable 0 &&
          decide ((s.setGroup 0 g).dbTarget 0 g (g.sval (r 8) 0) (g.sval (r 8) 1) = b.2)) = true ∧
    (let i : Instr := .stepArm (r 4) (r 8)
     let s := besides (debugging i [0#32, 0x00010002#32])
     let g := grp s
     let s₀ := s.setGroup 0 g
     debugs i s && decide (s₀.dbTarget 0 g (g.sval (r 8) 0) (g.sval (r 8) 1) = some 1) && !s₀.steppable 1) = true := by
  decide +kernel

theorem witness_DebugWords_barriers :
    ([(0#32, true), (0xF#32, true), (0xC0#32, false)] : List (Word × Bool)).all (fun e =>
      let i : Instr := .barrd (r 4) (r 8)
      let s := debugging i [e.1]
      let n := s.dbBar (grp s) e.1
      debugs i s && n.isSome == e.2 && (n.all fun b => (s.bar? (s.barId (grp s) b)).isSome)) = true ∧
    ([(0x0000#32, 0x00010000#32, true), (0x30000#32, 0x00000002#32, false)] : List (Word × Word × Bool)).all (fun e =>
      let i : Instr := .barwr (r 4) (r 8) (r 9)
      let s := debugging i [e.1, e.2.1]
      let g := grp s
      debugs i s && match s.dbBar g e.1 with
        | some n => (s.bar? (s.barId g n)).any fun x =>
            (s.barEdit g (s.barId g n) x (e.1.toNat / 2 ^ 16 % 4) e.2.1).isSome == e.2.2
        | none => false) = true := by
  decide +kernel

/-- Selector and target words, and whether the target is there, the selector's own code and whether a write of 1 is
taken. -/
def selectors : List (List Word × Bool × Option Nat × Bool) :=
  [([0x00000507#32, 0xFFFFFFFF#32], true, none, true), ([0x10000300#32, 0xFFFFFFFF#32], true, none, true),
   ([0x90000000#32, 0xFFFFFFFF#32], true, none, false), ([0xC0000000#32, 0xFFFFFFFF#32], true, some 2, false),
   ([0x00000008#32, 0xFFFFFFFF#32], true, some 2, false), ([0x10000300#32, 1#32], false, none, false),
   ([0x80000600#32, 0xFFFFFFFF#32], true, none, true)]

theorem witness_DebugWords_selectors :
    selectors.all (fun e =>
      ([.dbrd (r 4) (r 8), .dbwr (r 4) (r 8) (r 16)] : List Instr).all fun i =>
        let s := debugging i (e.1 ++ List.replicate 6 0#32 ++ [1#32])
        let g := grp s
        let s₀ := s.setGroup 0 g
        let x := Selector.read (g.sval (r 8) 0)
        debugs i s && match s₀.dbTarget 0 g (g.sval (r 8) 1) (g.sval (r 8) 2) with
          | none => !e.2.1
          | some k => e.2.1 && match Tab.get? s₀.groups k with
            | none => false
            | some y => decide (s₀.selectorBad y x = e.2.2.1) && (e.2.2.1.isSome || (!s₀.dbHeld y &&
                x.pregs.all (fun q => !y.progPend q) && s.retained.isEmpty && (s₀.dbWrite y x (g.sval (r 16) 0)).isSome == e.2.2.2))) = true ∧
    ([(.dbrd (r 4) (r 8), true), (.dbwr (r 4) (r 8) (r 16), false)] : List (Instr × Bool)).all (fun e =>
      let s := besides (debugging e.1 [0x00000507#32, 0#32, 0x00010002#32])
      let s := { s with groups := Tab.upd s.groups 1 fun y => if e.2 then y else
        { y with clause := none, pend := [⟨.v 5, 9, false, false⟩] } }
      let g := grp s
      let s₀ := s.setGroup 0 g
      let x := Selector.read (g.sval (r 8) 0)
      debugs e.1 s && match s₀.dbTarget 0 g (g.sval (r 8) 1) (g.sval (r 8) 2) with
        | some 1 => (Tab.get? s₀.groups 1).any fun y => (s₀.selectorBad y x).isNone && !y.inHandler && y.res == .held &&
            s₀.dbHeld y == e.2 && x.pregs.any y.progPend == !e.2
        | _ => false) = true := by
  decide +kernel

theorem span_nonempty (arr : SramArray) (base n : Nat) (h : 0 < n) : spanSegs arr base n ≠ [] := by
  have : 0 < (base + n - 1) / 65536 + 1 - base / 65536 := by omega
  have hn : n ≠ 0 := by omega
  simp only [spanSegs, hn, if_false, ne_eq, List.map_eq_nil_iff, List.range_eq_nil]
  omega

/-- A record's word, whose save area is in retention. -/
def areaAsleep (i : Instr) : State := { debugging i [0x80000600#32, 0xFFFFFFFF#32] with retained := areaSegs 0 0 }

theorem witness_DebugWords_retention :
    ([.dbrd (r 4) (r 8), .dbwr (r 4) (r 8) (r 16)] : List Instr).all (fun i =>
      let s := areaAsleep i
      let g := grp s
      let x := Selector.read (g.sval (r 8) 0)
      debugs i s && decide ((s.setGroup 0 g).dbTarget 0 g (g.sval (r 8) 1) (g.sval (r 8) 2) = some 0) &&
        ((s.setGroup 0 g).selectorBad g x).isNone && x.space == 8 && g.inHandler && g.core == 0 &&
        decide (g.trap.bind TrapFrame.area = some 0)) = true ∧
    (∀ (g : Group) (x : Selector), x.space = 8 → g.inHandler = true → g.core = 0 → g.trap.bind TrapFrame.area = some 0 →
      x.segs 0 g = areaSegs 0 0) ∧
    (areaAsleep .nop).retained = areaSegs 0 0 ∧ ∃ e, e ∈ areaSegs 0 0 := by
  refine ⟨by decide +kernel, fun g x h1 h2 h3 h4 => by simp [Selector.segs, Group.homeSegs, h1, h2, h3, h4], by simp only [areaAsleep], ?_⟩
  exact List.exists_mem_of_ne_nil _ (span_nonempty _ _ 4224 (by decide))

/-! ### Power and health -/

/-- The state with every cluster changed, at a time past the first boundary. -/
def clustered (f : Cluster → Cluster) (s : State) : State :=
  { s with now := 5000, clusters := Tab.mapVals s.clusters fun _ c => f c }

theorem witness_PowerEvents :
    (steady (.boost (r 4) 40#16) (at_ (.boost (r 4) 40#16) id) && (grp (at_ .boostrel id)).active != 0#64 &&
      steady .boostrel (at_ .boostrel fun g => { g with claim := some ⟨none⟩ })) = true ∧
    ([(.nominal, 0, 64, some 1), (.nominal, 3, 64, none), (.boosted, 0, 1, some 2), (.boosted, 0, 0, some 2),
      (.falling, 0, 5, none)] : List (BoostState × Nat × Nat × Option Nat)).all (fun e =>
      let s := clustered (fun c => { c with boost := e.1, refill := e.2.1, balance := e.2.2.1 })
        (at_ .nop fun g => { g with claim := e.2.2.2.map fun n => ⟨some n⟩ })
      let s := { s with clusters := s.clusters.take 16 }
      decide (s.hub.lastBoundary < s.now / 5000) && Tab.sorted s.clusters &&
        decide ((s.clusters.filter fun x => x.2.boost != .nominal).length ≤ 16)) = true ∧
    (let s := (at_ .nop id).setHub { Hub.reset with sensors := [(.power1ms, 2400001), (.power10us, 2900001)] }
     decide (2400000 < s.sensor .power1ms ∧ 2900000 < s.sensor .power10us ∧ s.hub.emergency = false) &&
       s.clusters.all fun e => e.2.boost == .nominal) = true ∧
    (let s := { State.reset with now := 1000 }
     (Tab.get? s.slices (127 * 6 + 5)).any (fun x => decide (x.changed + 1000 ≤ s.now ∧ 4 < x.ratio)) &&
       ((Tab.get? (s.updSlice (127 * 6 + 5) fun x => { x with ratio := 4 }).slices (127 * 6 + 5)).any fun x =>
         decide (x.ratio < x.ceiling))) = true := by
  decide +kernel

theorem witness_HealthEvents :
    (let s := (at_ .nop id).updCore 127 fun c => { c with temp := 95 * 16, droops := [] }
     (Tab.get? s.cores 127).any fun c => decide (s.hub.tAvoid ≤ c.temp)) = true ∧
    (let s := (at_ .nop id).updCore 127 fun c => { c with droops := [0, 0, 0, 0, 0] }
     (Tab.get? s.cores 127).any fun c => decide (4 < (c.droops.filter fun n => decide (s.now < n + 1000000)).length)) =
       true ∧
    (let s := (at_ .nop id).updCore 127 fun c => { c with temp := 95 * 16 - 97, avoided := true }
     (Tab.get? s.cores 127).any fun c => decide (c.temp < s.hub.tAvoid - 6 * 16) && c.droops.isEmpty) = true ∧
    (let s := { at_ .nop id with now := 3600000000000 }
     decide (s.hub.lastWear < s.now / 1000) && decide (s.hub.lastReport < s.now / (3600 * 10 ^ 9)) &&
       decide (s.service < 720 * (3600 * 10 ^ 9))) = true ∧
    (let s := { at_ .nop id with now := 100000 }
     decide (5 < arrSegments (.coreScratch 0)) && s.retained.isEmpty && s.hub.noRetain.isEmpty &&
       decide (Tab.getD s.touched (segKey (.coreScratch 0, 5)) 0 + 1000 * s.hub.retainAfter ≤ s.now)) = true ∧
    (let s := { at_ .nop id with retained := [(.accStore 0, 0)] }
     s.retained.contains (.accStore 0, 0) && decide ((SramArray.accStore 0, 0) ∈ s.segsOfWord (.tile 0 3 2047))) = true := by
  decide +kernel

/-! ### Pre-emption, placement and bundles -/

/-- The state with job 0 changed. -/
def withJob (f : Job → Job) (s : State) : State :=
  { s with work := { s.work with jobs := Tab.mapVals s.work.jobs fun _ j => f j } }

/-- The state with block 0 changed, and with launch 0 changed. -/
def withBlock (f : Block → Block) (s : State) : State := s.updBlock 0 f
def withLaunch (f : Launch → Launch) (s : State) : State := s.updLaunch 0 f

/-- The state whose job 0 is in a phase of pre-emption 50 µs after its stop, its group between two clauses. -/
def sliced (st : SliceState) (res : Residency) : State :=
  withJob (fun j => { j with slice := st, coreMask := 3#128 })
    { between .nop (fun g => { g with res := res }) with now := 50000 }

theorem witness_PreemptionEvents_slices :
    (let s := sliced .running .held
     decide ((Tab.get? s.work.jobs 0).map Job.slice = some .running) && s.retained.isEmpty && s.sliceClear 0 &&
       s.hub.toPup.isEmpty && s.work.blocks.all (fun e => e.2.state == .running)) =
       true ∧
    (let s := sliced (.stopping 0) .held
     decide ((Tab.get? s.work.jobs 0).map Job.slice = some (.stopping 0)) && s.recovered 0 && Tab.sorted s.groups &&
       (s.jobGroups 0).all (fun e => s.drained e.1 e.2) && decide (0 + 50000 ≤ s.now) &&
       decide (s.jobOf (grp s) = 0 ∧ (grp s).recov = none) && s.drained 0 (grp s)) = true ∧
    (let s := { sliced (.out 0) .saved with slices := State.reset.slices }
     let s₁ := (s.updJob 0 fun j => { j with slice := .running, savedWatch := [] }).wakeWatch []
     let bs := s₁.jobBlocks 0
     let s₂ := (bs.flatMap fun e => e.2.groups).foldl State.wakeGroup
       (bs.foldl (fun (u : State) e => u.untangle e.1 e.2) s₁)
     decide ((Tab.get? s.work.jobs 0).map (fun j => (j.slice, j.savedWatch)) = some (.out 0, [])) &&
       !s.windowRuns 0 && s.sliceClear 0 && Tab.sorted s.work.blocks && s₁.holds 0 bs && bs.length == 1 && s.respects s₂ && bs.all fun e => s₂.seated e.1) = true ∧
    (let s := sliced .running .held
     (Tab.get? s.work.blocks 0).any (fun b => b.core == 0 && b.state == .running) && !s.evictKeeps 0 0 &&
       (grp s).clause.isNone && (List.range 5).all (fun n => (grp s).cnt n == 0) && s.enginesIdle 0 &&
       s.cores.all (fun c => c.2.recq.isEmpty) &&
       ((Tab.get? s.work.jobs 0).any fun j => j.coreMask.getLsbD 0)) = true := by
  decide +kernel

theorem witness_PreemptionEvents_moves :
    (let s := sliced .running .held
     s.jobRuns 0 && (Tab.get? s.work.blocks 0).any fun b =>
       b.state == .running && s.movable b && b.core == 0) = true ∧
    (let s := withBlock (fun b => { b with state := .migrating 1 0 }) (sliced .running .held)
     s.jobRuns 0 && (Tab.get? s.work.blocks 0).any fun b =>
       b.state == .migrating 1 0 && s.movable b && s.still b && ((s.moveBlock 0 b 1).any fun t => s.respects t) &&
         decide (0 + 50000 ≤ s.now ∧ s.now ≤ 0 + 50000)) = true := by
  decide +kernel

/-- A bundle of some sub-launches. -/
def bundle (subs : List Sub) (admitted : Bool) : Bundle :=
  { job := 0, port := 0, queue := 0, bid := 9, stop := true, count := 0, succs := [5], irq := some 3, record := 0x100
    malformed := false, cancelled := false, checking := false, admitted := admitted, subs := subs, order := 1 }

/-- The part with job 0 and its launch, which has started nothing, and bundle 0. -/
def pending (b : Bundle) : State :=
  let s := withLaunch (fun l => { l with gangs := [] }) (withJob (fun j => { j with coreMask := BitVec.allOnes 128 })
    { at_ .nop id with groups := [], slices := State.reset.slices })
  { s with work := { s.work with blocks := [], bundles := [(0, b)] } }

/-- The part with block 0 evicted, its group saved, and job 0 keeping some cores; cluster 5 has its code at the same place. -/
def evicted (mask : BitVec 128) : State :=
  let s := withJob (fun j => { j with coreMask := mask }) { between .nop (fun g => { g with res := .saved }) with
    slices := State.reset.slices }
  let loads := ((Tab.get? s.clusters 0).map Cluster.loads).getD []
  (s.updBlock 0 fun b => { b with state := .saved }).updCluster 5 fun c => { c with loads := loads }

theorem witness_PlacementEvents_evicted :
    ([(2#128, true, 0, 1), (0xF#128 <<< 20, false, 5, 20)] : List (BitVec 128 × Bool × Nat × Nat)).all (fun e =>
      let s := evicted e.1
      s.jobRuns 0 && s.retained.isEmpty && s.hub.toPup.isEmpty && (s.work.launches.all fun e => !s.unplaced e.2) &&
        s.keepsCluster 0 0 == e.2.1 &&
        match Tab.get? s.work.launches 0 with
        | none => false
        | some l => l.admitted && l.status.isNone && !l.retired && decide (1 ≤ l.kernel.gang) &&
          match l.gangs.find? fun e => !(s.savedOf 0 e.1).isEmpty with
          | some (gi, g) => decide (gi = 0) && (s.reseat 0 l gi g).any fun t =>
              (Tab.get? t.work.blocks 0).any fun b => b.state == .running && b.core / 4 == e.2.2.1
          | none => false) = true := by
  decide +kernel

/-- A co-operative launch of three blocks that fits, and one of more accumulator tiles than a core has. -/
theorem witness_PlacementEvents_coop :
    ([(4, true), (513, false)] : List (Nat × Bool)).all (fun e =>
      let s := withLaunch (fun l => { l with coop := true, gx := 3, kernel := { l.kernel with acc := e.1 } })
        (pending (bundle [] true))
      s.jobRuns 0 && s.retained.isEmpty && s.hub.toPup.isEmpty && (s.work.launches.all fun e => decide (0 ≤ e.1)) &&
        (Tab.get? s.work.launches 0).any fun l => l.admitted && l.status.isNone && !l.retired && l.coop && l.gangs.isEmpty &&
          decide (l.gangCount = 3 ∧ 1 ≤ l.kernel.gang) && (s.placeGangs 0 false l.todo).isSome == e.2) = true := by
  decide +kernel

theorem witness_PlacementEvents :
    (let s := pending (bundle [] true)
     s.jobRuns 0 && s.retained.isEmpty && s.hub.toPup.isEmpty && (s.work.launches.all fun e => !s.unplaced e.2) && (s.placeGang 0 0 false).isSome &&
       (Tab.get? s.work.launches 0).any fun l => l.admitted && l.status.isNone && !l.retired && !l.coop && l.gangs.isEmpty &&
         decide (l.gangs.length < l.gangCount ∧ 1 ≤ l.kernel.gang)) = true ∧
    (let s := { at_ .nop id with groups := [] }
     s.ops.copies.isEmpty && (Tab.get? s.work.blocks 0).any fun b => b.launch == 0 && b.groups.all fun g =>
       !Tab.has s.groups g) = true ∧
    (let s := pending (bundle [] true)
     let s := s.setHub { s.hub with toHub := [(31, [.blockDone 7 0])] }
     decide (s.doneMessage 7 = some (31, 0)) && !Tab.has s.work.blocks 7) = true ∧
    (let s := withLaunch (fun l => { l with blocksDone := 1 }) (pending (bundle [⟨[], some 0, false, 0, false, none⟩] true))
     !s.recovering 0 && !s.programRuns 0 && (s.launchTags 0).isEmpty && (Tab.get? s.work.launches 0).any fun l =>
       l.admitted && l.ended && !l.retired && l.ctx.isNone && l.bundle == 0 && l.sub == 0) = true ∧
    (let s := pending (bundle [] true)
     (s.codeOf 31 0).isNone && s.keepsCluster 0 31 && (Tab.get? s.clusters 31).any fun c =>
       c.roomAt (Config.codeWords - 3) 2 && ((Tab.get? s.work.launches 0).map fun l => l.kernel.code.length) == some 2) =
       true := by
  decide +kernel

/-- The port 0 of the part, up, with queue 0 of two entries at the start of a frame. -/
def portal (p : Port) : Port :=
  { p with up := true, queues := Tab.upd p.queues 0 fun x => { x with size := 1, bound := true, enable := true, wp := 1 } }

/-- The state with that port and frame 0 its own, or not. -/
def ported (own : Bool) (s : State) : State :=
  { s with
    hub := { Hub.reset with booted := true, frames := if own then [(0, 0)] else [] }
    ports := Tab.upd s.ports 0 portal }

/-- A sub-launch of a kind that runs. -/
def subOf (w0 : Word) (running : Bool) : Sub :=
  ⟨[w0, 0#32, 0#32, 0#32, 1#32] ++ List.replicate 27 0#32, none, running, 1, false, none⟩

theorem witness_BundleEvents_queues :
    ([true, false] : List Bool).all (fun own =>
      let s := ported own State.reset
      match s.sq? 0 0 with
      | some x => s.hub.booted && x.enable && x.bound && decide (x.rp ≠ x.wp) && (s.readEntry 0 x).1.isSome == own
      | none => false) = true ∧
    (let s := pending (bundle [subOf 0x40000000#32 false] false)
     match Tab.get? s.work.bundles 0 with
     | some b => b.ready && !b.checking && s.jobRuns b.job && s.work.bundles.length == 1 &&
         (b.subs[0]?).any fun x => x.launch.isNone && decide (4 ≤ wnat x.words 0 / 2 ^ 28 % 2 ^ 4)
     | none => false) = true ∧
    (let b := { bundle [subOf 0x20000000#32 false] false with checking := true }
     let s := pending b
     b.ready && (s.inAdmission b).isEmpty && (((s.showViews 0 []).invalidate 0 .sys).admitAll []).isSome) = true := by
  decide +kernel

/-- The part with launch 0 in admission, changed. -/
def admitting (f : Launch → Launch) : State :=
  withLaunch (fun l => f { l with admitted := false })
    (pending { bundle [{ subOf 0#32 false with launch := some 0 }] false with checking := true })

/-- A launch whose code is nowhere waits, one that needs more tags than its job's budget is unfit, and one that the
save area is large enough for (a free value, log 40) passes. -/
theorem witness_BundleEvents_checks (h : Config.saveNeed 0 [] = 0) :
    (let s := admitting fun l => { l with kernel := { l.kernel with name := [1#8] } }
     (s.inAdmission (bundle [{ subOf 0#32 false with launch := some 0 }] false)).all (fun e =>
       s.check e.2.1 e.2.2 == .wait)) = true ∧
    (let s := admitting fun l => { l with wantCtx := true }
     (s.inAdmission (bundle [{ subOf 0#32 false with launch := some 0 }] false)).all (fun e =>
       s.check e.2.1 e.2.2 == .unfit)) = true ∧
    (let s := admitting id
     ∃ l, s.inAdmission (bundle [{ subOf 0#32 false with launch := some 0 }] false) = [(0, 0, l)] ∧
       s.check 0 l = .pass) := by
  refine ⟨by decide +kernel, by decide +kernel, _, rfl, ?_⟩
  have h1 : ∀ (s : State) (l : Launch), s.check 0 l = (s.checkVersion l).then_ ((s.checkCode 0 l).then_ ((s.checkLeases 0 l).then_ ((s.checkTags 0 l).then_
    ((s.checkBars 0 l).then_ ((s.checkDie l).then_ ((s.checkFit 0 l).then_ (s.checkCoop 0 l))))))) := fun _ _ => rfl
  have h2 : ∀ (s : State) (l : Launch), l.job = 0 → l.kernel.name = [] → l.handler = none → s.everFits 0 = true →
      s.checkFit 0 l = .pass := by
    intro s l hj hn hl he
    simp [State.checkFit, hj, hn, hl, he, h, Check.must]
  have h3 : ∀ d, Check.then_ .pass d = d := fun _ => rfl
  rw [h1, h2 _ _ (by decide +kernel) (by decide +kernel) (by decide +kernel) (by decide +kernel)]
  decide +kernel

/-- A running launch, or one that a record before it in the bundle asks for, has the version from another code object. -/
theorem witness_BundleEvents_versions :
    ([true, false] : List Bool).all (fun admitted =>
      let s := admitting fun l => { l with sub := 1 }
      match Tab.get? s.work.launches 0 with
      | none => false
      | some l =>
        let e := { l with codeObj := (l.codeObj.1 + 1, 0), sub := 0, admitted := admitted }
        let s := s.setWork { s.work with launches := s.work.launches ++ [(1, e)] }
        !e.retired && e.job == l.job && e.bundle == l.bundle && decide (e.codeObj ≠ l.codeObj ∧ s.check 0 l = .malformed)) =
      true := by
  decide +kernel

theorem witness_BundleEvents_work :
    ([(0x10000000#32, 1), (0x20000000#32, 2), (0x30000000#32, 3)] : List (Word × Nat)).all (fun e =>
      let s := pending (bundle [subOf e.1 true] true)
      s.ops.copies.isEmpty && s.ops.colls.isEmpty && match s.sub? 0 0 e.2 with
        | some (_, x) => decide (wnat x.words 4 - x.left < wnat x.words 4)
        | none => false) = true ∧
    ([(some 7, 0), (none, 0), (some 7, 2), (none, 2)] : List (Option Nat × Nat)).all (fun e =>
      let b := bundle [{ subOf 0#32 false with status := some e.2 }] true
      let s := pending b
      let s := { s with work := { s.work with
        bundles := (0, b) :: (e.1.map fun n => (n, { b with bid := 5, count := 1, admitted := false })).toList } }
      s.bundleDone 0 b && ((Tab.get? s.work.jobs 0).any fun j => j.credits.isEmpty) &&
        decide (s.work.bundles.map Prod.fst).Nodup && (s.sq? 0 0).isSome &&
        decide (((s.setWork { s.work with bundles := Tab.del s.work.bundles 0 }).pendingBundle 0 5).map Prod.fst = e.1)) =
        true := by
  decide +kernel

/-! ### The hosts -/

theorem witness_HostEvents :
    (let s := ported true State.reset
     (Tab.get? s.ports 0).any fun p => s.hub.booted && p.up && s.bad.isEmpty && s.ownsRange 0 (2 ^ 21 - 8) 8 &&
       !s.ownsRange 0 (2 ^ 21 - 8) 9 && p.doorbell.isNone &&
       (Tab.get? p.queues 0).any fun x => x.bound && decide (1 ≤ x.size ∧ x.size ≤ 12)) = true ∧
    ([(true, 0), (false, 0)] : List (Bool × Nat)).all (fun e =>
      let f : Flit := ⟨1, 0, e.1, e.2, List.replicate 256 7#8⟩
      let s := State.reset.setHub { Hub.reset with graniale := [(7, ⟨true, 4, [], [], none, [], [], []⟩)] }
      (Tab.get? s.hub.graniale 7).any fun g => g.trained && g.retraining.isNone && g.buffer.isEmpty && !g.replay.contains f &&
        g.expected f == f.seq) = true ∧
    (let f : Flit := ⟨1, 0, true, 0, List.replicate 256 7#8⟩
     let late : Graniale := ⟨true, 4, [((1, 0), 1)], [], none, [], [], []⟩
     f.ordered && !late.replay.contains f && decide (f.seq < late.expected f)) = true ∧
    (let f : Flit := ⟨0, 1, true, 3, List.replicate 256 7#8⟩
     let s := State.reset.setHub { Hub.reset with graniale :=
       [(0, ⟨true, 4, [], [], some (1, 0), [], [f], []⟩), (1, ⟨true, 4, [], [], some (2, 0), [], [], [f]⟩)] }
     (Tab.get? s.hub.graniale 0).any (fun g => g.retraining == some (1, 0) && g.replay.isEmpty) &&
       (Tab.get? s.hub.graniale 1).any fun g => g.retraining == some (2, 0) && g.replay.contains f) = true ∧
    Tab.has State.reset.clusters 31 = true := by
  decide +kernel

/-- The state whose port 0 rings with a command and its words, job 1 registered on the port. -/
def ringing (code : Nat) (ws : List (Nat × Word)) : State :=
  let s := ported true State.reset
  { s with
    work := { s.work with jobs := [(1, { probeJob with port := if code = 4 then 1 else 0 })] }
    ports := Tab.upd s.ports 0 fun p => { p with doorbell := some code, mailIn := ws } }

/-- Words of each command that meet the hypotheses: an unfit registration, a job of the port and one that is none, the
last frames, two ranks, and a report at 64. -/
theorem witness_MailboxCommands :
    ([(1, []), (2, [(0, 1#32)]), (2, [(0, 2#32)]), (3, [(0, 196606#32), (1, 2#32)]), (4, [(0, 196606#32), (1, 2#32)]),
      (5, [(0, 1#32), (1, 63#32), (2, 2#32), (3, 1#32), (4, 64#32)]), (6, [(8, 64#32)])] : List (Nat × Tab Word)).all
      (fun e =>
        let s := ringing e.1 e.2
        (Tab.get? s.ports 0).any fun p => s.hub.booted && p.up && p.doorbell == some e.1 && match e.1 with
          | 1 => (s.registerJob 0 p).code != 0
          | 2 => s.jobOfPort 0 (p.arg 0) == (p.arg 0 == 1)
          | 3 => decide (p.arg 0 % 2 ^ 18 + p.arg 1 ≤ Config.hbmFrames)
          | 5 => decide (p.arg 1 ≤ 63 ∧ 2 ≤ p.arg 2 ∧ p.arg 2 ≤ 1024 ∧ p.arg 3 < p.arg 2) && Tab.has s.work.jobs (p.arg 0) &&
              s.ownsRange 0 (p.arg64 4) (4 * p.arg 2)
          | 6 => decide (p.arg64 8 % 64 = 0) && s.portFrame 0 (p.arg64 8) &&
              s.ownsRange 0 (p.arg64 8) (s.report 0 p ++ natToBytes (Config.sign (s.report 0 p)).toNat 64).length
          | _ => decide (p.arg 0 % 2 ^ 18 + p.arg 1 ≤ Config.hbmFrames) && (s.portJobs 0).isEmpty) = true := by
  decide +kernel

/-- A registration that the Kennel can back (a free value, log 5) is taken. -/
theorem witness_MailboxCommands_registers (h : Config.kennelCanBack 32768 = true) :
    let s := { ringing 1 [(1, 32768#32), (9, 2#32)] with work := Work.mk [] [] [] [] }
    ∃ p, Rings s 0 1 p ∧ (s.registerJob 0 p).code = 0 := by
  intro s
  refine ⟨_, ⟨rfl, by decide +kernel, by decide +kernel, by decide +kernel⟩, ?_⟩
  unfold State.registerJob
  dsimp only
  split
  · rename_i h1
    exact absurd h1 (by decide +kernel)
  · split
    · rename_i h2
      exact absurd h2 (by decide +kernel)
    · split
      · rename_i h3
        exact absurd h3 (by decide +kernel)
      · split
        · rename_i h4
          have h5 : (!Config.kennelCanBack 32768) = true := h4
          simp [h] at h5
        · rfl

/-! ### Encoding and stepping -/

theorem witness_DecodeOfEncode :
    (intForms ++ fpForms ++ predForms ++ exchangeForms).all (fun i => i.isInstruction) = true := by
  decide +kernel

theorem witness_EncodeOfDecode :
    decodeWords 0x30050301#32 (some 0xFFFFFFFF#32) = .ok (.iaddi (.v 5) (.v 3) 1#8) ∧
    decodeWords 0xF0050501#32 (some 0x07020000#32) = .ok (.iamin (.v 5) (.v 5) (.v 1) (.v 2)) := by
  decide +kernel

theorem witness_StepRunsDecoded :
    (let i : Instr := .iaddi (v 5) (v 1) 1#8
     let s := { at_ i id with cur := none }
     let s₁ := { s with turns := [] }.begin_ ⟨0, [], [], .slice 0 0 0⟩
     let active := ((Tab.get? s₁.slices (sliceKey 0 0)).map Slice.active).getD []
     let s₂ := active.foldl State.stallTick s₁
     let ready := ((s₂.resident 0 0).map Prod.fst).filter fun k => (s₂.trial exec k).isSome
     s.turns.length == 1 && s₂.choose (active.filter fun k => ready.contains k) == some 0 &&
       match Tab.get? s₂.groups 0 with
       | some g => g.clause.any fun cl => match decodeWords (s₂.codeWord g (cl.header + cl.pos))
           (some (s₂.codeWord g (cl.header + cl.pos + 1))) with
         | .ok j => decide (j = i)
         | .error _ => false
       | none => false) = true ∧
    (let s := { State.reset.withFetchWord 64 0x2B000000 with cur := none }
     let s₁ := { s with turns := [] }.begin_ ⟨0, [], [], .slice 0 0 0⟩
     let active := ((Tab.get? s₁.slices (sliceKey 0 0)).map Slice.active).getD []
     let s₂ := active.foldl State.stallTick s₁
     let ready := ((s₂.resident 0 0).map Prod.fst).filter fun k => (s₂.trial exec k).isSome
     s₂.choose (active.filter fun k => ready.contains k) == some 0 &&
       match Tab.get? s₂.groups 0 with
       | some g => g.clause.any fun (cl : Clause) => match decodeWords (s₂.codeWord g (cl.header + cl.pos))
           (some (s₂.codeWord g (cl.header + cl.pos + 1))) with
         | .ok _ => false
         | .error _ => true
       | none => false) = true ∧
    Instr.isTurn (.powerOnReset true true) = true := by
  decide +kernel

theorem witness_StepKeepsMemoryForm :
    (let s := { at_ .nop id with hbm := [(0, 1#8), (412316860415, 2#8)] }
     Memory.wf s.hbm && match step s with
       | .next _ => true
       | _ => false) = true := by
  decide +kernel

/-! ### Worked results of the spec -/

/-- The group that an instruction leaves, and a register of a lane in it. -/
def after (i : Instr) (f : Group → Group) : Group :=
  match exec i (at_ i f) with
  | .next t => grp t
  | _ => grp State.reset

/-- The T8 decodes of 02 (R72). -/
theorem test_t8_decodes :
    ([(0x40, 0x3F800000), (0x5A, 0x40500000), (0xB3, 0xBF180000), (0x74, 0x42000000), (0x03, 0x3B000000),
      (0x7F, 0x45800000), (0x01, 0x39800000), (0x80, 0x7FC00000)] : List (Nat × Nat)).all (fun e =>
        (toFp32Even (decodeTapered 8 e.1)).1 == e.2) = true := by
  decide +kernel

/-- The T8 block of 02 (R76, R77): its sixteen values, exponent, micro-exponents and codes. -/
def blockValues : List FVal :=
  ([0x45800000, 0x3F800000, 0x40500000, 0xBF180000, 0x42C80000, 0, 0x80000000, 0x7FC00000, 0x3F000000, 0x3E800000, 0x40E00000,
    0x41100000, 0x45000000, 0xC53B8000, 0x3C000000, 0] : List Nat).map fp32.unpack

theorem test_t8_block :
    blockExp 8 blockValues = 127 ∧ blockMu 8 127 blockValues = 0xBE ∧ blockCodes 8 127 0xBE blockValues =
      [0x7F, 0x40, 0x65, 0xC3, 0x7B, 0x00, 0x00, 0x80, 0x40, 0x30, 0x6E, 0x70, 0x7E, 0xFF, 0x08, 0x00] := by
  decide +kernel

/-- The exchange fragment of 05 in its group of 5 lanes in use and 3 helpers (R160 to R166). -/
def fragment (g : Group) : Group :=
  { g with
    helpers := 0xE0#64
    v := (List.range 8).map fun k => (k, BitVec.ofNat 32 (8 + k))
    lanes := { g.lanes with p := [(3, 0xAA#64)] } }

theorem test_exchange_fragment :
    ((List.range 8).map fun k => ((after (.gscanAdd (v 3) (v 0)) fragment).rdV 3 k).toNat) =
      [8, 17, 27, 38, 50, 50, 50, 50] ∧
    ((List.range 8).map fun k => ((after (.qswz (v 4) (v 0) 0x1B#8) fragment).rdV 4 k).toNat) =
      [11, 10, 9, 8, 15, 14, 13, 12] ∧
    ((List.range 8).map fun k => ((after (.grediAdd (v 2) (v 0)) fragment).rdV 2 k).toNat) = List.replicate 8 50 ∧
    (after (.gbal (r 10) 3#4) fragment).rdS 10 = 0xA#32 ∧ (after (.gbal (r 10) 3#4) fragment).rdS 11 = 0#32 := by
  decide +kernel

/-- The fixed tree of GREDF.add in 05: 1.0 and seven times 2^−24; inexact is bit 0 (R70). -/
theorem test_gredf_tree :
    let g := after (.gredfAdd (v 5) (v 1)) fun g => { g with
      v := (List.range 8).map fun k => (64 + k, if k = 0 then 0x3F800000#32 else 0x33800000#32) }
    g.rdV 5 0 = 0x3F800003#32 ∧ g.rdV 5 7 = 0x3F800003#32 ∧ g.lanes.fflags = 1#5 := by
  decide +kernel

/-- The first and second k-blocks of mma_demo in 11 (R292): one rounding for each. -/
def demoRow (codes : List Nat) : List FVal :=
  (codes ++ List.replicate (16 - codes.length) 0).mapIdx fun i c => blockDecode 8 127 0 i c

theorem test_mma_demo :
    mmaElem .t8 1 (some (demoRow [0x7F, 0x40, 0x40])) (demoRow [0x7F, 0x40, 0x40]) 0#32 = 0x4B800001#32 ∧
    mmaElem .t8 1 (some (demoRow [0, 0x40])) (demoRow [0x7F, 0x40, 0x40]) 0x4B800001#32 = 0x4B800002#32 := by
  decide +kernel

/-- A zero row of A adds an exact zero beside an infinity of B (R289); a lane's own zero does not (R79). -/
theorem test_zero_row :
    mmaElem .bf16 1 none (List.replicate 16 (.inf false)) 0x3F800000#32 = 0x3F800000#32 ∧
    mmaElem .bf16 1 (some (List.replicate 16 FVal.zero)) (List.replicate 16 (.inf false)) 0x3F800000#32 = 0x7FC00000#32 := by
  decide +kernel

/-- A clause guarded by p1 whose PLOP writes p1 (R132) and whose IADD reads the result of the IADD before it: no split, and
the third word waits; unguarded it is split there (R29, R35, R396). -/
theorem test_recode_guarded :
    let code := fun (h : Word) => [h, 0x63180203#32, 0x10050506#32, 0x100A0A05#32]
    let mask := fun k => if k = 3 then 1 else 0
    (recode mask [] 0 (code 0xB3107FFC#32)).waits = [] ∧
    (recode mask [] 0 (code 0xB3107FFC#32)).code.length = 5 ∧
    (recode mask [] 0 (code 0xB310FFFC#32)).waits = [3] ∧
    (recode mask [] 0 (code 0xB310FFFC#32)).code = code 0xB310FFFC#32 := by
  decide +kernel

/-- SHA-512 of "abc", the standard's own example (FIPS 180-4). -/
theorem test_sha512 :
    sha512 [0x61#8, 0x62#8, 0x63#8] =
      0xddaf35a193617abacc417349ae204131#128 ++ 0x12e6fa4e89a97ea20a9eeee64b55d39a#128 ++
        0x2192992a274fc1a836ba3c23a3feebbd#128 ++ 0x454d4423643ce80e2a9ac94fa54ca49f#128 := by
  decide +kernel

/-- The blocks and gangs of the grid in 01 (R62): 5 × 2 × 1 blocks in gangs of 4. -/
theorem test_grid_gangs :
    let l := probeLaunch []
    let l := { l with gx := 5, gy := 2, kernel := { l.kernel with gang := 4 } }
    l.gangCount = 3 ∧ l.gangBlocks 2 = [8, 9] := by
  decide +kernel

end Sys2Proof.Tests
end

