-- ==== Sys2Proof/Proofs/Fields.lean ====
section
/-!
PROOFS. What the fields of a word say: each field code is read back from its bits and no other bits stand for it, and a word
is its fields joined.
-/

namespace Sys2Proof

/-! ### Field codes (R40, R44 to R46, R51, R128) -/

theorem Reg.ofBits_toBits (r : Reg) : Reg.ofBits r.toBits = r := by
  cases r with
  | v n =>
    have h : (BitVec.ofNat 8 n.val).toNat = n.val := by rw [BitVec.toNat_ofNat]; omega
    simp only [Reg.toBits, Reg.ofBits, h, n.isLt, dite_true]
  | s n =>
    have h : (BitVec.ofNat 8 (192 + n.val)).toNat = 192 + n.val := by rw [BitVec.toNat_ofNat]; omega
    have hn : ¬ 192 + n.val < 192 := by omega
    simp only [Reg.toBits, Reg.ofBits, h, hn, dite_false, Nat.add_sub_cancel_left]

theorem Reg.toBits_ofBits (b : BitVec 8) : (Reg.ofBits b).toBits = b := by
  apply BitVec.eq_of_toNat_eq
  unfold Reg.ofBits
  split
  · simp [Reg.toBits]
  · have h : 192 + (b.toNat - 192) = b.toNat := by omega
    simp [Reg.toBits, h]

theorem Special.ofBits?_eq_some {b : BitVec 12} {x : Special} : Special.ofBits? b = some x ↔ x.toBits = b := by
  constructor
  · intro h
    apply BitVec.eq_of_toNat_eq
    unfold Special.ofBits? at h
    split at h <;> cases h
    all_goals
      rename_i hb
      rw [hb]
      rfl
  · rintro rfl
    cases x <;> rfl

theorem MemSize.ofBits?_eq_some {b : BitVec 3} {x : MemSize} : MemSize.ofBits? b = some x ↔ x.toBits = b := by
  cases x <;> decide +revert

theorem Order.toBits_ofBits (b : BitVec 2) : (Order.ofBits b).toBits = b := by decide +revert

theorem Order.ofBits_toBits (x : Order) : Order.ofBits x.toBits = x := by cases x <;> rfl

theorem Scope.ofBits?_eq_some {b : BitVec 3} {x : Scope} : Scope.ofBits? b = some x ↔ x.toBits = b := by
  cases x <;> decide +revert

theorem BarScope.ofBits?_eq_some {b : BitVec 2} {x : BarScope} : BarScope.ofBits? b = some x ↔ x.toBits = b := by
  cases x <;> decide +revert

theorem AtomOp.ofBits?_eq_some {b : BitVec 4} {x : AtomOp} : AtomOp.ofBits? b = some x ↔ x.toBits = b := by
  cases x <;> decide +revert

theorem AtomTy.toBits_ofBits (b : BitVec 2) : (AtomTy.ofBits b).toBits = b := by decide +revert

theorem AtomTy.ofBits_toBits (x : AtomTy) : AtomTy.ofBits x.toBits = x := by cases x <;> rfl

theorem Level.ofBits?_eq_some {b : BitVec 2} {x : Level} : Level.ofBits? b = some x ↔ x.toBits = b := by
  cases x <;> decide +revert

theorem MmaFmt.ofBits?_eq_some {b : BitVec 3} {x : MmaFmt} : MmaFmt.ofBits? b = some x ↔ x.toBits = b := by
  cases x <;> decide +revert

theorem TileFmt.ofBits?_eq_some {b : BitVec 3} {x : TileFmt} : TileFmt.ofBits? b = some x ↔ x.toBits = b := by
  cases x <;> decide +revert

theorem AccCv.ofBits?_eq_some {b : BitVec 3} {x : AccCv} : AccCv.ofBits? b = some x ↔ x.toBits = b := by
  cases x <;> decide +revert

theorem SpFmt.ofBits?_eq_some {b : BitVec 2} {x : SpFmt} : SpFmt.ofBits? b = some x ↔ x.toBits = b := by
  cases x <;> decide +revert

theorem CollOp.ofBits?_eq_some {b : BitVec 4} {x : CollOp} : CollOp.ofBits? b = some x ↔ x.toBits = b := by
  cases x <;> decide +revert

theorem ofBool_beq_one (b : BitVec 1) : BitVec.ofBool (b == 1#1) = b := by decide +revert

theorem beq_one_ofBool (b : Bool) : (BitVec.ofBool b == 1#1) = b := by cases b <;> rfl

/-! ### Words as joined fields (R19, R43) -/

/-- Joined fields are a run of a word's bits exactly when each field is its part of the run. -/
theorem append_eq_extract_iff {N m n s : Nat} {w : BitVec N} {x : BitVec m} {y : BitVec n} :
    x ++ y = w.extractLsb' s (m + n) ↔ x = w.extractLsb' (s + n) m ∧ y = w.extractLsb' s n := by
  rw [← BitVec.extractLsb'_append_extractLsb'_eq_extractLsb' (x := w) (rfl : s + n = s + n)]
  constructor
  · intro h
    have h1 := congrArg (BitVec.extractLsb' n m) h
    have h2 := congrArg (BitVec.extractLsb' 0 n) h
    rw [BitVec.extractLsb'_append_eq_left, BitVec.extractLsb'_append_eq_left] at h1
    rw [BitVec.extractLsb'_append_eq_right, BitVec.extractLsb'_append_eq_right] at h2
    exact ⟨h1, h2⟩
  · rintro ⟨rfl, rfl⟩
    rfl

theorem append_eq_word_iff {m n : Nat} {w : BitVec (m + n)} {x : BitVec m} {y : BitVec n} :
    x ++ y = w ↔ x = w.extractLsb' n m ∧ y = w.extractLsb' 0 n := by
  simpa using append_eq_extract_iff (s := 0) (w := w) (x := x) (y := y)

theorem append_eq_word_iff₃ {m n k : Nat} {w : BitVec (m + n + k)} {x : BitVec m} {y : BitVec n} {z : BitVec k} :
    x ++ y ++ z = w ↔ x = w.extractLsb' (k + n) m ∧ y = w.extractLsb' k n ∧ z = w.extractLsb' 0 k := by
  rw [append_eq_word_iff, append_eq_extract_iff, and_assoc]

/-- A field that a mask of reserved bits covers is 0 where the mask finds none of its bits set (R19). -/
theorem zero_eq_extract_of_reserved {w m : Word} (h : (w &&& m != 0#32) = false) {lo len : Nat}
    (hm : m.extractLsb' lo len = BitVec.allOnes len) : 0#len = w.extractLsb' lo len := by
  have h0 : w &&& m = 0#32 := by simpa using h
  have h1 := congrArg (BitVec.extractLsb' lo len) h0
  rw [BitVec.extractLsb'_and, hm, BitVec.and_allOnes, BitVec.extractLsb'_zero] at h1
  exact h1.symm

/-- A mask over joined fields finds no bit set where it finds none in either. -/
theorem append_and_eq_zero {m n : Nat} {x : BitVec m} {y : BitVec n} {k : BitVec (m + n)}
    (hx : x &&& k.extractLsb' n m = 0#m) (hy : y &&& k.extractLsb' 0 n = 0#n) : (x ++ y) &&& k = 0#(m + n) := by
  have hk : k = k.extractLsb' n m ++ k.extractLsb' 0 n := (append_eq_word_iff.2 ⟨rfl, rfl⟩).symm
  rw [hk, BitVec.and_append, hx, hy, BitVec.zero_append_zero]

/-- A field whose number is a literal is that literal. -/
theorem ofNat_eq_extract {w : Word} {lo len n : Nat} (h : (w.extractLsb' lo len).toNat = n) :
    BitVec.ofNat len n = w.extractLsb' lo len := by
  rw [← h, BitVec.ofNat_toNat, BitVec.setWidth_eq]

theorem BarName.ofBits?_eq_some {b : BitVec 8} {x : BarName} : BarName.ofBits? b = some x ↔ x.toBits = b := by
  obtain ⟨sc, ix⟩ := x
  have hw : sc.toBits ++ 0#2 ++ ix = b ↔
      sc.toBits = b.extractLsb' 6 2 ∧ 0#2 = b.extractLsb' 4 2 ∧ ix = b.extractLsb' 0 4 := append_eq_word_iff₃
  rw [BarName.toBits, hw, BarName.ofBits?]
  by_cases h : b.extractLsb' 4 2 = 0#2 
  · simp [h, BarScope.ofBits?_eq_some, @eq_comm _ (b.extractLsb' 0 4)]
  · simp [h, Ne.symm h]

theorem Post.ofBits?_eq_some {b : BitVec 7} {x : Option BarName} : Post.ofBits? b = some x ↔ Post.toBits x = b := by
  unfold Post.ofBits?
  by_cases hp : b.extractLsb' 6 1 = 1#1
  · have hb : 0#7 ≠ b := by
      rintro rfl
      simp at hp
    rw [if_pos (by simpa using hp)]
    obtain _ | ⟨sc, ix⟩ := x
    · simp [Post.toBits, hb]
    · have hw : 1#1 ++ sc.toBits ++ ix = b ↔
          1#1 = b.extractLsb' 6 1 ∧ sc.toBits = b.extractLsb' 4 2 ∧ ix = b.extractLsb' 0 4 := append_eq_word_iff₃
      simp [Post.toBits, hw, hp, BarScope.ofBits?_eq_some, @eq_comm _ (b.extractLsb' 0 4)]
  · rw [if_neg (by simpa using hp)]
    obtain _ | ⟨sc, ix⟩ := x
    · simp [Post.toBits, @eq_comm _ b]
    · have hw : 1#1 ++ sc.toBits ++ ix = b ↔
          1#1 = b.extractLsb' 6 1 ∧ sc.toBits = b.extractLsb' 4 2 ∧ ix = b.extractLsb' 0 4 := append_eq_word_iff₃
      simp [Post.toBits, hw, Ne.symm hp]

end Sys2Proof
end

