-- ==== Sys2Proof/Proofs/Encoding.lean ====
section
/-!
PROOFS. The decoder and the encoder agree (R43 to R52): whatever the decoder accepts is the encoding of a well-formed
instruction, and the encoding of every well-formed instruction decodes to it.
-/

namespace Sys2Proof

/-- An arm of the decoder accepts when no reserved bit is set, every field has a meaning and the instruction is well-formed. -/
theorem finishDecode_eq_ok {r : Bool} {o : Option Instr} {i : Instr} :
    finishDecode r o = .ok i ↔ r = false ∧ o = some i ∧ i.wellFormed = true := by
  cases r with
  | true => simp [finishDecode]
  | false =>
    cases o with
    | none => simp [finishDecode]
    | some j =>
      by_cases hj : j.wellFormed = true
      · simp only [finishDecode, hj, Bool.false_eq_true, if_false, if_true, Except.ok.injEq, Option.some.injEq, true_and]
        exact ⟨fun h => ⟨h, h ▸ hj⟩, And.left⟩
      · simp only [finishDecode, hj, Bool.false_eq_true, if_false, reduceCtorEq, Option.some.injEq, true_and, false_iff,
          not_and]
        rintro rfl
        exact hj

theorem Instr.isInstruction_iff {i : Instr} : i.isInstruction = true ↔ i.isEvent = false ∧ i.wellFormed = true := by
  simp [Instr.isInstruction]

/-! ### What the decoder accepts is an encoding -/

/-- Whatever instruction the decoder's answer holds is well-formed and has these words. -/
def AcceptsEncoding (ws : List Word) (e : Except DecodeError Instr) : Prop :=
  ∀ i, e = .ok i → i.isInstruction = true ∧ encode i = ws

theorem acceptsEncoding_error {e : DecodeError} {ws : List Word} : AcceptsEncoding ws (.error e) := fun _ h => nomatch h

theorem acceptsEncoding_finish {r : Bool} {j : Instr} {ws : List Word} (he : j.isEvent = false)
    (hj : r = false → encode j = ws) : AcceptsEncoding ws (finishDecode r (some j)) := by
  intro i h
  obtain ⟨hr, ho, hwf⟩ := finishDecode_eq_ok.1 h
  obtain rfl := Option.some.inj ho
  exact ⟨Instr.isInstruction_iff.2 ⟨he, hwf⟩, hj hr⟩

/-- A field with reserved codes has a meaning wherever the arm accepts. -/
theorem acceptsEncoding_bind {α : Type} {r : Bool} {o : Option α} {f : α → Option Instr} {ws : List Word}
    (hf : ∀ x, o = some x → AcceptsEncoding ws (finishDecode r (f x))) :
    AcceptsEncoding ws (finishDecode r (o.bind f)) := by
  intro i h
  obtain ⟨hr, ho, hwf⟩ := finishDecode_eq_ok.1 h
  obtain ⟨x, hx, hfx⟩ := Option.bind_eq_some_iff.1 ho
  exact hf x hx i (finishDecode_eq_ok.2 ⟨hr, hfx, hwf⟩)

/-- One-word instructions (R48). In every arm the word is its fields joined: the opcode and the secondary opcode are those
of the arm, a coded field is its meaning's code, and a reserved field is 0. -/
theorem decodeOne_accepts (w : Word) : AcceptsEncoding [w] (decodeOne w) := by
  unfold decodeOne
  split
  all_goals simp only [decodeControl, decodeInteger, decodeImmediate, decodeFloat, decodePacked,
    decodeCompare, decodeExchange, decodeIndex, decodeMemory, decodeSync, decodeTile, decodeConvert, decodeAsync,
    decodeSystem, acceptsEncoding_error]
  all_goals split
  any_goals exact acceptsEncoding_error
  any_goals split
  any_goals exact acceptsEncoding_error
  all_goals
    have hc := ofNat_eq_extract ‹(w.extractLsb' 24 8).toNat = _›
    repeat refine acceptsEncoding_bind fun _ _ => ?_
    refine acceptsEncoding_finish rfl fun hr => congrArg (· :: []) ?_
    rw [append_eq_word_iff]
    repeat rw [append_eq_extract_iff]
    simp only [Nat.reduceAdd, ← hc, Reg.toBits_ofBits, Special.ofBits?_eq_some, MemSize.ofBits?_eq_some,
      Order.toBits_ofBits, Scope.ofBits?_eq_some, BarName.ofBits?_eq_some, ofBool_beq_one, true_and, and_true] at *
  all_goals and_intros
  any_goals assumption
  any_goals (apply ofNat_eq_extract; assumption)
  all_goals exact zero_eq_extract_of_reserved ‹_› rfl

/-- Family 0xF1, whose second word is one field (R49). -/
theorem decodeF1_accepts {w : Word} (x : Word) (hc : (w.extractLsb' 24 8).toNat = 0xF1) :
    AcceptsEncoding [w, x] (decodeF1 w x) := by
  unfold decodeF1
  split
  any_goals exact acceptsEncoding_error
  all_goals
    refine acceptsEncoding_finish rfl fun hr => congrArg (fun a => [a, x]) ?_
    rw [append_eq_word_iff]
    repeat rw [append_eq_extract_iff]
    simp only [Nat.reduceAdd, Reg.toBits_ofBits, and_true]
  all_goals and_intros
  any_goals (apply ofNat_eq_extract; assumption)
  all_goals exact zero_eq_extract_of_reserved ‹_› rfl

/-- Two-word instructions (R49, R50), as the one-word ones, both words being joined fields. -/
theorem decodeTwo_accepts (w x : Word) : AcceptsEncoding [w, x] (decodeTwo w x) := by
  unfold decodeTwo
  split
  case h_2 hc => exact decodeF1_accepts x hc
  all_goals simp only [decodeF0, decodeF2, decodeF3, decodeF4, acceptsEncoding_error]
  all_goals split
  any_goals exact acceptsEncoding_error
  any_goals split
  any_goals exact acceptsEncoding_error
  all_goals
    have hc := ofNat_eq_extract ‹(w.extractLsb' 24 8).toNat = _›
    repeat refine acceptsEncoding_bind fun _ _ => ?_
    refine acceptsEncoding_finish rfl fun hr => congrArg₂ (fun a b => [a, b]) ?_ ?_
    all_goals
      rw [append_eq_word_iff]
      repeat rw [append_eq_extract_iff]
      simp only [Nat.reduceAdd, ← hc, Bool.or_eq_false_iff, Reg.toBits_ofBits, MemSize.ofBits?_eq_some,
        Order.toBits_ofBits, Scope.ofBits?_eq_some, AtomOp.ofBits?_eq_some, AtomTy.toBits_ofBits, Level.ofBits?_eq_some,
        Post.ofBits?_eq_some, MmaFmt.ofBits?_eq_some, TileFmt.ofBits?_eq_some, AccCv.ofBits?_eq_some,
        CollOp.ofBits?_eq_some, SpFmt.ofBits?_eq_some, ofBool_beq_one, true_and, and_true] at *
  all_goals
    repeat cases ‹_ ∧ _›
    and_intros
  any_goals assumption
  any_goals (apply ofNat_eq_extract; assumption)
  all_goals exact zero_eq_extract_of_reserved ‹_› rfl

/-! ### Every encoding is accepted -/

/-- One-word instructions (R48). The opcode chooses the arm, and the arm reads each field back from its own bits. -/
theorem decodeOne_encode {i : Instr} {w : Word} (hwf : i.wellFormed = true) (hw : encode i = [w]) :
    decodeOne w = .ok i := by
  cases i
  any_goals (cases hw; done)
  all_goals
    replace hw := (List.cons.inj hw).1
    have hf := hw
    rw [append_eq_word_iff] at hf
    repeat rw [append_eq_extract_iff] at hf
    simp only [Nat.reduceAdd] at hf
    simp only [decodeOne, opcodeOf, ← hf, BitVec.reduceToNat, Nat.reduceDiv, decodeControl, decodeInteger,
      decodeImmediate, decodeFloat, decodePacked, decodeCompare, decodeExchange, decodeIndex, decodeMemory, decodeSync,
      decodeTile, decodeConvert, decodeAsync, decodeSystem]
    refine finishDecode_eq_ok.2 ⟨?_, ?_, hwf⟩
    rotate_left
    · simp only [Reg.ofBits_toBits, Special.ofBits?_eq_some.2 rfl, MemSize.ofBits?_eq_some.2 rfl, Order.ofBits_toBits,
        Scope.ofBits?_eq_some.2 rfl, BarName.ofBits?_eq_some.2 rfl, Option.bind_some, beq_one_ofBool]
  any_goals rfl
  all_goals
    rw [← hw, bne_eq_false_iff_eq]
    repeat' apply append_and_eq_zero
    all_goals simp

/-- Two-word instructions (R49, R50): both opcodes choose the arm. The second word of family 0xF1 is one field. -/
theorem decodeTwo_encode {i : Instr} {w x : Word} (hwf : i.wellFormed = true) (hw : encode i = [w, x]) :
    decodeTwo w x = .ok i := by
  cases i
  any_goals (cases hw; done)
  all_goals
    obtain ⟨hw, hx⟩ := List.cons.inj hw
    replace hx := (List.cons.inj hx).1
    have hf := hw
    rw [append_eq_word_iff] at hf
    repeat rw [append_eq_extract_iff] at hf
    simp only [Nat.reduceAdd] at hf
  case iaddk | andk | ork | faddk | fmulk =>
    simp only [decodeTwo, opcodeOf, ← hf, BitVec.reduceToNat, decodeF1]
    exact finishDecode_eq_ok.2 ⟨rfl, by simp only [Reg.ofBits_toBits, hx], hwf⟩
  case movk =>
    simp only [decodeTwo, opcodeOf, ← hf, BitVec.reduceToNat, decodeF1]
    refine finishDecode_eq_ok.2 ⟨?_, by simp only [Reg.ofBits_toBits, hx], hwf⟩
    rw [← hw, bne_eq_false_iff_eq]
    repeat' apply append_and_eq_zero
    all_goals simp
  all_goals
    have hg := hx
    rw [append_eq_word_iff] at hg
    repeat rw [append_eq_extract_iff] at hg
    simp only [Nat.reduceAdd] at hg
    simp only [decodeTwo, opcodeOf, ← hf, ← hg, BitVec.reduceToNat, decodeF0, decodeF2, decodeF3, decodeF4]
    refine finishDecode_eq_ok.2 ⟨?_, ?_, hwf⟩
    rotate_left
    · simp only [Reg.ofBits_toBits, MemSize.ofBits?_eq_some.2 rfl, Order.ofBits_toBits, Scope.ofBits?_eq_some.2 rfl,
        AtomOp.ofBits?_eq_some.2 rfl, AtomTy.ofBits_toBits, Level.ofBits?_eq_some.2 rfl, Post.ofBits?_eq_some.2 rfl,
        MmaFmt.ofBits?_eq_some.2 rfl, TileFmt.ofBits?_eq_some.2 rfl, AccCv.ofBits?_eq_some.2 rfl,
        CollOp.ofBits?_eq_some.2 rfl, SpFmt.ofBits?_eq_some.2 rfl, Option.bind_some, beq_one_ofBool]
  any_goals rfl
  all_goals
    subst hw hx
    simp only [Bool.or_eq_false_iff, bne_eq_false_iff_eq]
    and_intros
    all_goals
      repeat' apply append_and_eq_zero
      all_goals simp

/-! ### Both lengths together (R43) -/

theorem not_isTwoWord_of_decodeOne {w : Word} {i : Instr} (h : decodeOne w = .ok i) : isTwoWord w = false := by
  rw [isTwoWord, decide_eq_false_iff_not]
  intro hc
  have h15 : opcodeOf w / 16 = 15 := by omega
  simp [decodeOne, h15] at h

theorem isTwoWord_of_decodeTwo {w x : Word} {i : Instr} (h : decodeTwo w x = .ok i) : isTwoWord w = true := by
  rw [isTwoWord, decide_eq_true_iff]
  unfold decodeTwo at h
  split at h
  case h_6 => cases h
  all_goals omega

theorem decodeWords_of_decodeOne {w : Word} {i : Instr} (h : decodeOne w = .ok i) (next : Option Word) :
    decodeWords w next = .ok i := by
  simp [decodeWords, not_isTwoWord_of_decodeOne h, h]

theorem decodeWords_of_decodeTwo {w x : Word} {i : Instr} (h : decodeTwo w x = .ok i) :
    decodeWords w (some x) = .ok i := by
  simp [decodeWords, isTwoWord_of_decodeTwo h, h]

theorem length_encode (i : Instr) : (encode i).length = i.words := by
  cases i <;> rfl

/-- An instruction that is no event has one word or two (R43). -/
theorem words_of_isEvent_eq_false {i : Instr} (h : i.isEvent = false) : i.words = 1 ∨ i.words = 2 := by
  cases i <;> simp [Instr.isEvent, Instr.words] at h ⊢

/-- Settles O2, by cases on the instruction's length: decodeOne_encode and decodeTwo_encode read every field back. -/
theorem decodeOfEncode : Obligations.DecodeOfEncode := by
  intro i hi
  obtain ⟨he, hwf⟩ := Instr.isInstruction_iff.1 hi
  have hlen := length_encode i
  obtain hn | hn := words_of_isEvent_eq_false he
  · obtain ⟨w, hw⟩ := List.length_eq_one_iff.1 (hlen.trans hn)
    exact .inl ⟨w, hw, decodeWords_of_decodeOne (decodeOne_encode hwf hw)⟩
  · obtain ⟨w, x, hw⟩ := List.length_eq_two.1 (hlen.trans hn)
    exact .inr ⟨w, x, hw, decodeWords_of_decodeTwo (decodeTwo_encode hwf hw)⟩

/-- Settles O3, by the arms of the decoder: each accepts only its own instruction's encoding. -/
theorem encodeOfDecode : Obligations.EncodeOfDecode := by
  intro w x i h
  unfold decodeWords at h
  split at h
  · obtain ⟨hi, he⟩ := decodeTwo_accepts w x i h
    exact ⟨hi, .inr he⟩
  · obtain ⟨hi, he⟩ := decodeOne_accepts w i h
    exact ⟨hi, .inl he⟩

/-- Settles O1: the decoder evaluated on the words. -/
theorem specWordsDecode : Obligations.SpecWordsDecode := by
  unfold Obligations.SpecWordsDecode
  decide

end Sys2Proof
end

