-- ==== Sys2Proof/Proofs/Latency.lean ====
section
/-!
PROOFS. When a fixed-latency result is read (R35, R38).
-/

namespace Sys2Proof.Machine

/-- Where a group stands in its issue slots, and what is on its way, is nothing it reads. -/
theorem Group.reads_with_slot_inflight (g : Group) (slot : Nat) (es : List Inflight) (t : Target) :
    { g with slot := slot, inflight := es }.reads t = g.reads t := by
  cases t <;> rfl

theorem Group.reads_with_inflight (g : Group) (es : List Inflight) (t : Target) :
    { g with inflight := es }.reads t = g.reads t := by
  cases t <;> rfl

/-- Results that all wait for one issue slot land together: before it none of them does, from it on all do. -/
theorem Group.reads_landDue_of_one_slot (g : Group) (land : Nat) (ws : List (Target × Word)) (t : Target)
    (h : g.inflight = ws.map fun w => ⟨land, w.1, w.2⟩) :
    g.landDue.reads t = if land ≤ g.slot then (g.landAll ws).reads t else g.reads t := by
  rw [Group.landDue, Group.reads_with_inflight, h, List.filter_map]
  by_cases hl : land ≤ g.slot
  · have hall : ws.filter ((fun e : Inflight => decide (e.land ≤ g.slot)) ∘ fun w => ⟨land, w.1, w.2⟩) = ws :=
      List.filter_eq_self.2 fun _ _ => decide_eq_true hl
    rw [hall, List.foldl_map, if_pos hl]
    rfl
  · have hnone : ws.filter ((fun e : Inflight => decide (e.land ≤ g.slot)) ∘ fun w => ⟨land, w.1, w.2⟩) = [] :=
      List.filter_eq_nil_iff.2 fun _ _ => by simpa using hl
    rw [hnone, if_neg hl]
    rfl

end Sys2Proof.Machine

namespace Sys2Proof

open Machine

/-- Settles O8: interlocked results land at once; native ones wait for one slot, `lat` after their instruction's. -/
theorem fixedLatency : Obligations.FixedLatency := by
  intro g lat k ws hn hw t ht
  refine ⟨Group.reads_landAll g ws t hw ht hn, fun hi => ?_⟩
  have hfixed : g.fixed true lat ws = { g with inflight := ws.map fun w => ⟨g.slot + lat, w.1, w.2⟩ } := by
    rw [Group.fixed_eq, if_pos rfl, hi, List.nil_append]
  rw [hfixed, Group.reads_landDue_of_one_slot _ (g.slot + lat) ws t rfl, Group.reads_landAll _ ws t hw ht hn,
    Group.reads_with_slot_inflight g]
  simp only [Nat.add_le_add_iff_left]

end Sys2Proof
end

