-- ==== Sys2Proof/Proofs/Checks.lean ====
section
/-!
PROOFS. The checks made before a word issues (R33, R48, R53, R54, R92, R355): every instruction issues through them, and the
cause that they raise is the word's only effect.
-/

namespace Sys2Proof.Machine

/-! ### Words issue through the checks -/

/-- A landed result leaves the group in its clause. -/
theorem Group.land_clause (g : Group) (t : Target) (w : Word) : (g.land t w).clause = g.clause := by
  cases t <;> rfl

theorem Group.landDue_clause (g : Group) : g.landDue.clause = g.clause := by
  have hfold : ∀ (es : List Inflight) (g : Group),
      (es.foldl (fun g e => g.land e.target e.val) g).clause = g.clause := by
    intro es
    induction es with
    | nil => exact fun _ => rfl
    | cons e es ih => exact fun g => (ih _).trans (g.land_clause e.target e.val)
  exact hfold _ _

/-- An event is what has no class, and what has no words (R27). -/
theorem Instr.isEvent_eq_isNone_cls (i : Instr) : i.isEvent = i.cls.isNone := by
  cases i <;> rfl

theorem Instr.isEvent_eq_words (i : Instr) : i.isEvent = (i.words == 0) := by
  cases i <;> rfl

/-- Every instruction runs as a word of the issuing group. The definitions named are those that write out their meaning in
place: unfolded, every instruction's is an `issue`. -/
theorem exec_eq_issue {i : Instr} (h : i.isEvent = false) : ∃ eff, ∀ s, exec i s = issue i eff s := by
  have hcases : i.isEvent = true ∨ ∃ eff, ∀ s, exec i s = issue i eff s := by
    cases i
    any_goals exact .inl rfl
    all_goals
      right
      simp only [exec, execNop, execEnrol, execPark, execStrike, execYieldG, execWaitC, execRepeatN, execTrapI, execBkpt,
      execSleepI, execSrd, execSwr, execIadd, execIsub, execImul, execImulhiI32, execImulhiUi32, execIminI32,
      execIminUi32, execImaxI32, execImaxUi32, execAndR, execOrR, execXorR, execShl, execShr, execSar, execRot,
      execMov, execNotR, execIneg, execIabs, execClz, execPopc, execBrev, execIaddsatI32, execIsubsatI32,
      execIaddsatUi32, execIamini, execIaddi, execAndi, execOri, execXori, execShli, execShri, execSari,
      execRoti, execMovi, execMovhi, execImuli, execFadd, execFsub, execFmul, execFmin, execFmax, execFabs,
      execFneg, execFrcp, execFrsq, execFsqrt, execFexp2, execFlog2, execFsin, execFcos, execFrnd, execFclass,
      execHaddF16, execHmulF16, execHminF16, execHmaxF16, execHaddBf16, execHmulBf16, execHminBf16,
      execHmaxBf16, execIcmpI32, execIcmpUi32, execFcmp, execPlop, execPtov, execVtop, execQswz, execQbc,
      execLshup, execLshdn, execLshfx, execGbal, execGrediAdd, execGrediMin, execGrediMax, execGredfAdd,
      execGscanAdd, execRdlane, execWrlane, execGany, execGall, execXset, execXinc, execXrd, execBset, execBget,
      execFence, execTfence, execAccclr, execAccrel, execPkh, execUpkh, execSgstat, execBoostrel, execFfmaF32,
      execHfmaF16, execHfmaBf16, execImad, execSel, execBfe, execBfi, execIamin, execLogt, execDot4I8,
      execSpcmp, execIaddk, execMovk, execAndk, execOrk, execFaddk, execFmulk, execAccrd, execAccwr]
      exact ⟨_, fun _ => rfl⟩
  exact hcases.resolve_left (by simp [h])

/-- A word that fails a check raises its cause and has no other effect. -/
theorem issue_of_checks {i : Instr} {s : State} {gid : Nat} {g : Group} {cl : Clause} {c : Cause}
    (hcur : s.cur = some gid) (hg : (Tab.get? s.groups gid).map Group.landDue = some g) (hcl : g.clause = some cl)
    (hc : s.checks g cl i = some c) (eff : State → Nat → Group → Clause → Eff) :
    issue i eff s = .next (s.raise gid cl c cl.pos cl.pos false) := by
  obtain ⟨g0, hg0, rfl⟩ := Option.map_eq_some_iff.1 hg
  rw [Group.landDue_clause] at hcl
  simp [issue, hcur, hg0, hcl, hc]

theorem exec_of_checks {i : Instr} {s : State} {gid : Nat} {g : Group} {cl : Clause} {c : Cause} (he : i.isEvent = false)
    (hcur : s.cur = some gid) (hg : (Tab.get? s.groups gid).map Group.landDue = some g) (hcl : g.clause = some cl)
    (hc : s.checks g cl i = some c) : exec i s = .next (s.raise gid cl c cl.pos cl.pos false) := by
  obtain ⟨eff, hexec⟩ := exec_eq_issue he
  rw [hexec, issue_of_checks hcur hg hcl hc]

/-! ### The checks in their order (R54, R355) -/

theorem State.checks_of_illegal {s : State} {g : Group} {cl : Clause} {i : Instr} (hb : s.breakAt g cl = none)
    (ht : g.barsTok = none) (hi : illegalAt g cl i = true) : s.checks g cl i = some (.plain 0x02) := by
  simp [State.checks, hb, ht, hi]

theorem State.checks_of_privilege {s : State} {g : Group} {cl : Clause} {i : Instr} (hb : s.breakAt g cl = none)
    (ht : g.barsTok = none) (hi : illegalAt g cl i = false) (hp : privilegeAt g i = true) :
    s.checks g cl i = some (.plain 0x04) := by
  simp [State.checks, hb, ht, hi, hp]

/-- Where no breakpoint matches, the only privilege faults are those of privilegeAt. -/
theorem State.checks_ne_privilege {s : State} {g : Group} {cl : Clause} {i : Instr} (hb : s.breakAt g cl = none)
    (hp : privilegeAt g i = false) : s.checks g cl i ≠ some (.plain 0x04) := by
  simp only [State.checks, hb, hp, Bool.false_eq_true, if_false]
  split
  · simp
  split
  · simp [Cause.plain]
  split
  · simp [Cause.plain]
  · simp

/-! ### Debug instructions (R53) -/

/-- The instructions of family 0xF4 are privileged, and only outside the handler. -/
theorem privilegeAt_of_debug {i : Instr} {w x : Word} (hw : encode i = [w, x]) (hop : w.extractLsb' 24 8 = 0xF4#8)
    (g : Group) : privilegeAt g i = !g.inHandler := by
  cases i
  case bpset | wpset | stepArm | stepOff | dbrd | dbwr | barrd | barwr => exact Bool.and_true _
  any_goals (cases hw; done)
  all_goals
    exfalso
    have hf := (List.cons.inj hw).1
    rw [append_eq_word_iff] at hf
    repeat rw [append_eq_extract_iff] at hf
    simp [hop] at hf

theorem privilegeAt_of_inHandler {g : Group} (h : g.inHandler = true) (i : Instr) : privilegeAt g i = false := by
  simp [privilegeAt, h]

theorem isEvent_of_encode {i : Instr} {w : Word} {ws : List Word} (h : encode i = w :: ws) : i.isEvent = false := by
  have hlen := length_encode i
  rw [h, List.length_cons] at hlen
  rw [Instr.isEvent_eq_words, ← hlen]
  rfl

/-! ### Classes and the end of the flow (R33, R92) -/

/-- The first and the third cause of an illegal instruction: its class, and an end of the flow (R33, R92). -/
theorem illegalAt_of_or {g : Group} {cl : Clause} {i : Instr}
    (h : (decide ((i.cls.map classNum).getD 7 ≠ hdrClass cl.hw) &&
        !(decide ((i.cls.map classNum).getD 7 = 4) && decide (cl.nextPos i = hdrN cl.hw + 1))) = true ∨
      (endsFlow i && !decide (cl.nextPos i = hdrN cl.hw + 1)) = true) : illegalAt g cl i = true := by
  unfold illegalAt
  iterate 4 refine Bool.or_eq_true_iff.2 (.inl ?_)
  rw [Bool.or_eq_true_iff, Bool.or_eq_true_iff]
  exact h.imp .inl id

/-- An instruction of another class than its clause's, which is no control instruction, is illegal there (R33). -/
theorem illegalAt_of_class {g : Group} {cl : Clause} {i : Instr} (h : i.isEvent = false) (hc : i.cls ≠ some .control)
    (hn : i.cls.map classNum ≠ some (hdrClass cl.hw)) : illegalAt g cl i = true := by
  rw [Instr.isEvent_eq_isNone_cls, Option.isNone_eq_false_iff] at h
  obtain ⟨c, hcls⟩ := Option.isSome_iff_exists.1 h
  have h4 : classNum c ≠ 4 := by
    rw [hcls] at hc
    cases c <;> simp_all [classNum]
  have hne : classNum c ≠ hdrClass cl.hw := by simpa [hcls] using hn
  exact illegalAt_of_or (.inl (by simp [hcls, h4, hne]))

/-- An instruction that ends the flow before its clause's last word is illegal there (R92). -/
theorem illegalAt_of_endsFlow {g : Group} {cl : Clause} {i : Instr} (he : endsFlow i = true)
    (hn : cl.pos + i.words ≠ hdrN cl.hw + 1) : illegalAt g cl i = true :=
  illegalAt_of_or (.inr (by simp [Clause.nextPos, he, hn]))

/-- A word that is no instruction meets a breakpoint or is an illegal instruction (R48, R54, R355). -/
theorem exec_illegalInstruction {s : State} {gid : Nat} {g : Group} {cl : Clause} (hcur : s.cur = some gid)
    (hg : Tab.get? s.groups gid = some g) (hcl : g.clause = some cl) (w x : Word) :
    exec (.illegalInstruction w x) s =
      .next (s.raise gid cl ((s.breakAt g cl).getD (.plain 0x02)) cl.pos cl.pos false) := by
  have hexec : exec (.illegalInstruction w x) s = execIllegalInstruction w x s := rfl
  rw [hexec]
  simp [execIllegalInstruction, hcur, hg, hcl]

end Sys2Proof.Machine

namespace Sys2Proof

open Machine

/-- Settles O22: of the checks only the privilege check raises cause 0x04, and it asks whether the handler runs. -/
theorem debugIsPrivileged : Obligations.DebugIsPrivileged := by
  rintro i s gid g cl ⟨w, x, hw, hop⟩
  have hp := privilegeAt_of_debug hw hop g
  constructor
  · intro hcur hg hcl hh ht hb hi
    rw [hh] at hp
    exact exec_of_checks (isEvent_of_encode hw) hcur hg hcl (State.checks_of_privilege hb ht hi hp)
  · intro hh hb
    exact State.checks_ne_privilege hb (privilegeAt_of_inHandler hh i)

/-- Settles O23, by the meaning of ILLEGAL_INSTRUCTION and the first of the checks before a word issues. -/
theorem illegalWords : Obligations.IllegalWords := by
  intro s gid g cl hcur
  constructor
  · intro w x hg hcl hb
    rw [exec_illegalInstruction hcur hg hcl, hb]
    rfl
  · intro i hi hg hcl ht hb hbad
    have he := (Instr.isInstruction_iff.1 hi).1
    refine exec_of_checks he hcur hg hcl (State.checks_of_illegal hb ht ?_)
    obtain ⟨hc, hn⟩ | ⟨hf, hn⟩ := hbad
    · exact illegalAt_of_class he hc hn
    · exact illegalAt_of_endsFlow hf hn

end Sys2Proof
end

