-- ==== Sys2Proof/Proofs/Exchange.lean ====
section
/-!
PROOFS. Why ExchangePairAndIndexResults fails: the checks, the one on LSHUP's destination among them (R161), are passed over
for a group whose BARS has arrived and waits (R343), and the statement does not ask that none does.
-/

namespace Sys2Proof.Machine

/-- A clause of two words, at its first. -/
def arrivedClause : Clause := ⟨0, 0x02000000#32, 1, 1#64, 1#64, 0, false⟩

/-- A group of one lane whose BARS has arrived and waits, at that clause. -/
def arrivedGroup : Group :=
  { Group.start 0 none 0 0 0 (probeKernel []) 1#64 0#64 0 with
    clause := some arrivedClause
    barsTok := some 0 }

/-- The machine after power-on with that group, which issues. -/
def arrivedState : State := { State.reset with cur := some 0, groups := [(0, arrivedGroup)] }

/-- LSHUP with a scalar destination, which R161 does not allow. -/
def lshupToScalar : Instr := .lshup (.s 1) (.s 0) 0#8

theorem lshupToScalar_ready : Ready lshupToScalar arrivedState 0 arrivedGroup arrivedClause where
  cur := rfl
  group := by decide
  clause := rfl
  checked := by decide
  free := by decide
  report := by decide

/-- What an answer leaves in the vector registers of group 0. -/
def answeredVectors : Res → Option (Tab Word)
  | .next t => (Tab.get? t.groups 0).map Group.v
  | _ => none

end Sys2Proof.Machine

namespace Sys2Proof

open Machine

/-- Refutes O13: with a BARS token, LSHUP to a scalar passes the checks; the model writes a vector register's lane, the
statement's result the scalar. -/
theorem not_exchangePairAndIndexResults : ¬ Obligations.ExchangePairAndIndexResults := by
  rintro ⟨hexchange, -, -⟩
  have h := congrArg answeredVectors
    (hexchange lshupToScalar arrivedState 0 arrivedGroup _ (.s 1) _ lshupToScalar_ready ⟨rfl, by decide⟩ rfl)
  have hmodel : answeredVectors (exec lshupToScalar arrivedState) = some [(64, 0#32)] := by decide
  have hstated : answeredVectors (.next (arrivedState.after 0
      (arrivedGroup.exchanged (arrivedState.native arrivedGroup) lshupToScalar (.s 1)) arrivedClause
      lshupToScalar)) = some [] := by decide
  rw [hmodel, hstated] at h
  cases h

end Sys2Proof
end

