-- ==== Sys2Proof/Proofs/Atomics.lean ====
section
/-!
PROOFS. Atomics at their homes (R179, R205, R223, R224, R227, R232): what a read in a context finds, what a line's write leaves,
and so what one lane of an atomic reads, writes and leaves behind.
-/

namespace Sys2Proof.Machine

/-! ### Bytes of memories and tables -/

theorem memBytes_eq_map (d : Byte) (m : Tab Byte) (a n : Nat) :
    memBytes d m a n = (List.range n).map fun k => memRead d m (a + k) := by
  induction n generalizing a with
  | zero => rfl
  | succ n ih =>
    rw [memBytes, ih, List.range_succ_eq_map, List.map_cons, List.map_map]
    simp only [Nat.add_zero, Function.comp_def, Nat.succ_eq_add_one, Nat.add_right_comm, Nat.add_assoc]

theorem map_getD_range_length {α : Type} (l : List α) (d : α) :
    (List.range l.length).map (fun k => l.getD k d) = l := by
  apply List.ext_getElem
  · simp
  · intro k hk _
    rw [List.length_map, List.length_range] at hk
    simp [hk]

/-- A table of consecutive places. -/
def Tab.run {α : Type} (base n : Nat) (f : Nat → α) : Tab α := (List.range n).map fun k => (base + k, f k)

theorem Tab.get?_run {α : Type} (base n : Nat) (f : Nat → α) (j : Nat) :
    Tab.get? (Tab.run base n f) j = if base ≤ j ∧ j < base + n then some (f (j - base)) else none := by
  induction n generalizing base f with
  | zero => simp [Tab.run]
  | succ n ih =>
    have hcons : Tab.run base (n + 1) f = (base, f 0) :: Tab.run (base + 1) n fun k => f (k + 1) := by
      simp only [Tab.run, List.range_succ_eq_map, List.map_cons, List.map_map, Nat.add_zero]
      congr 1
      apply List.map_congr_left
      intro k _
      simp only [Function.comp_apply, Nat.succ_eq_add_one]
      rw [Nat.add_assoc, Nat.add_comm 1]
    rw [hcons, Tab.get?_cons, ih]
    by_cases hj : base = j
    · subst hj
      simp
    · by_cases hr : base ≤ j ∧ j < base + (n + 1)
      · have h1 : base + 1 ≤ j ∧ j < base + 1 + n := by omega
        have h2 : j - (base + 1) + 1 = j - base := by omega
        simp only [if_neg hj, if_pos hr, if_pos h1, h2]
      · have h1 : ¬ (base + 1 ≤ j ∧ j < base + 1 + n) := by omega
        simp only [if_neg hj, if_neg hr, if_neg h1]

theorem Tab.nodup_run {α : Type} (base n : Nat) (f : Nat → α) : ((Tab.run base n f).map Prod.fst).Nodup := by
  have h : (Tab.run base n f).map Prod.fst = (List.range n).map (base + ·) := by
    simp [Tab.run, Function.comp_def]
  rw [h]
  exact List.nodup_range.map fun _ _ => Nat.add_left_cancel

/-- A run of bytes written to root memory reads as written. -/
theorem State.hbmRead_rootWrite_run (s : State) (base off : Nat) (new : List Byte) :
    (s.rootWrite base (Tab.run off new.length fun k => new.getD k 0#8)).hbmRead (base + off) new.length = new := by
  rw [State.hbmRead, memBytes_eq_map]
  conv_rhs => rw [← map_getD_range_length new 0#8]
  apply List.map_congr_left
  intro k hk
  have hlt : k < new.length := List.mem_range.1 hk
  have h1 : base ≤ base + off + k := by omega
  have h2 : base + off + k - base = off + k := by omega
  have h3 : off ≤ off + k ∧ off + k < off + new.length := by omega
  rw [State.rootWrite, memRead_writeAt _ _ _ _ (Tab.nodup_run ..), if_pos h1, h2, Tab.getD, Tab.get?_run, if_pos h3,
    Nat.add_sub_cancel_left]
  rfl

/-- A run of bytes written to root memory leaves every other byte. -/
theorem State.hbmRead_rootWrite_run_other (s : State) (base off n : Nat) (f : Nat → Byte) (x : Nat)
    (hx : x < base + off ∨ base + off + n ≤ x) :
    (s.rootWrite base (Tab.run off n f)).hbmRead x 1 = s.hbmRead x 1 := by
  have h : ¬ (off ≤ x - base ∧ x - base < off + n) ∨ ¬ base ≤ x := by omega
  simp only [State.hbmRead, memBytes, State.rootWrite, memRead_writeAt _ _ _ _ (Tab.nodup_run ..), Tab.getD, Tab.get?_run]
  rcases h with h | h
  · simp [h]
  · simp [h]

/-! ### What a read in a context finds (R223) -/

/-- The tag above another on its chain; 0 where there is none. -/
def Kennel.above (k : Kennel) (t : Nat) : Nat := if t = 0 then 0 else ((Tab.get? k.tags t).map Tag.parent).getD 0

/-- The byte of a granule that a context itself has written. -/
def Kennel.own? (k : Kennel) (job obj gran ix t : Nat) : Option Byte := (k.cell? job t obj gran).bind fun c => c.byte? ix

theorem Kennel.resolve_succ (k : Kennel) (job obj gran ix n t : Nat) :
    (k.resolve job obj gran ix (n + 1) t).map Prod.snd = if t = 0 then none else
      (k.own? job obj gran ix t).or ((k.resolve job obj gran ix n (k.above t)).map Prod.snd) := by
  by_cases ht : t = 0
  · simp [Kennel.resolve, ht]
  · simp only [Kennel.resolve, Kennel.above, Kennel.own?, ht, if_false]
    split
    · rename_i b hb
      simp [hb]
    · rename_i hb
      cases hx : Tab.get? k.tags t with
      | none => cases n <;> simp [hb, Kennel.resolve]
      | some x => simp [hb]

theorem findSome?_takeWhile_cons {α : Type} (f : Nat → Option α) (t : Nat) (ts : List Nat) :
    ((t :: ts).takeWhile fun t => t ≠ 0).findSome? f =
      if t = 0 then none else (f t).or ((ts.takeWhile fun t => t ≠ 0).findSome? f) := by
  by_cases ht : t = 0
  · simp [ht]
  · simp only [List.takeWhile_cons, ne_eq, ht, not_false_eq_true, decide_true, if_true, if_false, List.findSome?_cons]
    cases f t <;> rfl

/-- ResolveByte finds the nearest byte written on the chain. -/
theorem State.resolve_eq_findSome?_chain (s : State) (job obj gran ix t : Nat) :
    (s.kennel.resolve job obj gran ix 4 t).map Prod.snd = (s.chain t).findSome? (s.kennel.own? job obj gran ix) := by
  have hchain : s.chain t = [t, s.kennel.above t, s.kennel.above (s.kennel.above t),
      s.kennel.above (s.kennel.above (s.kennel.above t))].takeWhile fun t => t ≠ 0 := rfl
  rw [hchain]
  simp only [findSome?_takeWhile_cons, Kennel.resolve_succ]
  rfl

/-- Where nothing is uncorrectable, a read in a context finds the byte that R223 names. -/
theorem State.ctxByte_eq_resolved {s : State} (hbad : s.bad = []) (job : Nat) (tagged : Bool) (tag obj off phys : Nat) :
    s.ctxByte job tagged tag obj off phys = s.resolved job tagged tag obj off phys := by
  have hres : s.resolved job tagged tag obj off phys =
      ((if tagged then s.kennel.resolve job obj (off / 64) (off % 64) 4 tag else none).map Prod.snd).getD
        (memRead Config.hbmFill s.hbm phys) := by
    cases tagged
    · rfl
    · exact congrArg (Option.getD · _) (s.resolve_eq_findSome?_chain job obj (off / 64) (off % 64) tag).symm
  rw [hres, State.ctxByte]
  split
  · rename_i t b h
    simp [h, hbad]
  · rename_i h
    simp [h, hbad, State.homeByte]

/-! ### Cells (R222) -/

theorem Kennel.cell?_eq_of_cells {k k' : Kennel} (h : k'.cells = k.cells) (job tag obj gran : Nat) :
    k'.cell? job tag obj gran = k.cell? job tag obj gran := by
  rw [Kennel.cell?, Kennel.cell?, h]

theorem Kennel.cell?_fields {k : Kennel} {job tag obj gran : Nat} {c : Cell} (h : k.cell? job tag obj gran = some c) :
    c.tag = tag ∧ c.job = job ∧ c.obj = obj ∧ c.gran = gran := by
  have hc := List.find?_some h
  simpa [and_assoc] using hc

theorem Kennel.cell?_putCell {k : Kennel} {job tag obj gran : Nat} {c : Cell}
    (h : c.tag = tag ∧ c.job = job ∧ c.obj = obj ∧ c.gran = gran) : (k.putCell c).cell? job tag obj gran = some c := by
  obtain ⟨ht, hj, ho, hg⟩ := h
  simp [Kennel.cell?, Kennel.putCell, ht, hj, ho, hg]

/-- A written cell has the bytes written and its own others. -/
theorem Cell.byte?_write (c : Cell) (bytes : Tab Byte) {k : Nat} (hk : k < 64) :
    (c.write bytes).byte? k = (Tab.get? bytes k).or (c.byte? k) := by
  have hmask : (c.write bytes).mask.getLsbD k = (c.mask.getLsbD k || Tab.has bytes k) := by
    rw [Cell.write, BitVec.getLsbD_or, getLsbD_maskOf, decide_eq_true hk, Bool.true_and]
  have hdata : (c.write bytes).data.getD k 0#8 = Tab.getD bytes k (c.data.getD k 0#8) := by
    simp [Cell.write, hk]
  rw [Cell.byte?, hmask, hdata, Cell.byte?, Tab.has, Tab.getD]
  cases Tab.get? bytes k with
  | none => rw [Option.isSome_none, Bool.or_false]; rfl
  | some b => rw [Option.isSome_some, Bool.or_true]; rfl

/-- A fresh cell has no byte, whatever its data. -/
theorem Cell.byte?_fresh (tag job obj gran phys : Nat) (data : List Byte) (k : Nat) :
    Cell.byte? { Cell.fresh tag job obj gran phys with data := data } k = none := by
  simp [Cell.byte?, Cell.fresh]

/-- A live context's write goes to its cell. -/
theorem State.ctxWrite_cell {s : State} {job tag obj line : Nat} {c : Cell} (htag : tag ≠ 0) (hl : s.tagLive job tag = true)
    (hc : s.kennel.cell? job tag obj (line / 64) = some c) (launch phys : Nat) (bytes : Tab Byte) :
    s.ctxWrite job launch true tag obj line phys bytes false = some (s.setKennel (s.kennel.putCell (c.write bytes))) := by
  simp [State.ctxWrite, htag, hl, hc]

/-- The atomic's cell: the context's, or a fresh one that has no byte. -/
theorem State.atomicCell_cell {s : State} {job tag obj line : Nat} (phys : Nat)
    (h : s.kennel.cell? job tag obj (line / 64) ≠ none ∨ s.cellsFull job = false) :
    ∃ u c, s.atomicCell job tag obj line phys = some u ∧ u.hbm = s.hbm ∧ u.kennel.tags = s.kennel.tags ∧
      u.kennel.cell? job tag obj (line / 64) = some c ∧
      ∀ k, c.byte? k = (s.kennel.cell? job tag obj (line / 64)).bind fun x => x.byte? k := by
  cases hc : s.kennel.cell? job tag obj (line / 64) with
  | some c => exact ⟨s, c, by simp [State.atomicCell, hc], rfl, rfl, hc, fun _ => rfl⟩
  | none =>
    have hfree : s.cellsFull job = false := h.resolve_left fun hne => hne hc
    let data := (List.range 64).map fun k => s.ctxByte job true tag obj (line + k) (phys + k)
    let c : Cell := { Cell.fresh tag job obj (line / 64) phys with data := data }
    refine ⟨s.setKennel (s.kennel.putCell c), c, ?_, rfl, rfl, Kennel.cell?_putCell ⟨rfl, rfl, rfl, rfl⟩,
      fun k => Cell.byte?_fresh ..⟩
    simp only [State.atomicCell, hc, hfree, Bool.false_eq_true, if_false]
    rfl

/-! ### One lane at its home -/

/-- The bytes that a lane of an atomic finds. -/
def State.atomicOld (s : State) (o : MemOp) (ty : AtomTy) (a : LaneAcc) : List Byte :=
  (List.range ty.bytes).map fun k => s.resolved o.job o.tagged o.rtag o.obj (a.off + k) (a.phys + k)

/-- The bytes that it makes of them. -/
def LaneAcc.atomicNew (a : LaneAcc) (aop : AtomOp) (ty : AtomTy) (old : List Byte) : List Byte :=
  natToBytes (atomOp aop ty (bytesToNat old) (bytesToNat (a.data.take ty.bytes)) (bytesToNat (a.data.drop ty.bytes))) ty.bytes

/-- The places of its line and the bytes it writes there. -/
def LaneAcc.atomicRun (a : LaneAcc) (aop : AtomOp) (ty : AtomTy) (old : List Byte) : Tab Byte :=
  Tab.run (a.off % 64) ty.bytes fun k => (a.atomicNew aop ty old).getD k 0#8

section

variable {s : State} {o : MemOp} {aop : AtomOp} {ty : AtomTy} {a : LaneAcc}

theorem State.ctxBytes_eq_atomicOld (hbad : s.bad = []) :
    s.ctxBytes o.job o.tagged o.rtag o.obj a.off a.phys ty.bytes = s.atomicOld o ty a :=
  List.map_congr_left fun _ _ => State.ctxByte_eq_resolved hbad ..

theorem lineOf_div (x : Nat) : lineOf x / 64 = x / 64 := by
  simp [lineOf]

theorem State.atomicAt_eq (hbad : s.bad = []) :
    s.atomicAt o aop ty a =
      let old := s.atomicOld o ty a
      let write := fun (u : State) => (u.ctxWrite o.job o.launch o.tagged o.tag o.obj (lineOf a.off) (a.phys - a.off % 64)
        (a.atomicRun aop ty old) a.waits).map fun u => (old, u)
      if o.tagged && o.tag ≠ 0 && (a.waits || s.tagLive o.job o.tag) then
        (s.atomicCell o.job o.tag o.obj (lineOf a.off) (a.phys - a.off % 64)).bind write
      else write s := by
  simp only [State.atomicAt, State.ctxBytes_eq_atomicOld hbad]
  split
  · cases s.atomicCell o.job o.tag o.obj (lineOf a.off) (a.phys - a.off % 64) <;> rfl
  · rfl

/-- In the root context the new bytes go to root memory. -/
theorem State.atomicAt_root (hbad : s.bad = []) (hroot : o.tagged = false ∨ o.tag = 0) :
    s.atomicAt o aop ty a = some (s.atomicOld o ty a,
      s.rootWrite (a.phys - a.off % 64) (a.atomicRun aop ty (s.atomicOld o ty a))) := by
  rw [State.atomicAt_eq hbad]
  rcases hroot with h | h <;> simp [State.ctxWrite, h]

/-- There they read as written, and every other byte as before. -/
theorem State.hbmRead_atomicRun (s : State) (aop : AtomOp) (ty : AtomTy) (old : List Byte) (hphys : a.off % 64 ≤ a.phys) :
    let t := s.rootWrite (a.phys - a.off % 64) (a.atomicRun aop ty old)
    t.hbmRead a.phys ty.bytes = a.atomicNew aop ty old ∧
      ∀ x, (x < a.phys ∨ a.phys + ty.bytes ≤ x) → t.hbmRead x 1 = s.hbmRead x 1 := by
  have hbase : a.phys - a.off % 64 + a.off % 64 = a.phys := Nat.sub_add_cancel hphys
  have hlen : (a.atomicNew aop ty old).length = ty.bytes := length_natToBytes ..
  constructor
  · have h := s.hbmRead_rootWrite_run (a.phys - a.off % 64) (a.off % 64) (a.atomicNew aop ty old)
    rwa [hbase, hlen] at h
  · intro x hx
    exact s.hbmRead_rootWrite_run_other _ _ _ _ x (by rwa [hbase])

/-- In a dead context they are dropped, and counted. -/
theorem State.atomicAt_dead (hbad : s.bad = []) (htagged : o.tagged = true) (htag : o.tag ≠ 0)
    (hlive : s.tagLive o.job o.tag = false) (hw : a.waits = false) :
    s.atomicAt o aop ty a = some (s.atomicOld o ty a, s.lateWrite o.launch) := by
  rw [State.atomicAt_eq hbad]
  simp [State.ctxWrite, htagged, htag, hlive, hw]

/-- In a live context without a cell, where none is free, the lane waits. -/
theorem State.atomicAt_full (hbad : s.bad = []) (htagged : o.tagged = true) (htag : o.tag ≠ 0)
    (hlive : s.tagLive o.job o.tag = true) (hcell : s.kennel.cell? o.job o.tag o.obj (a.off / 64) = none)
    (hfull : s.cellsFull o.job = true) : s.atomicAt o aop ty a = none := by
  rw [← lineOf_div] at hcell
  rw [State.atomicAt_eq hbad]
  simp [State.atomicCell, htagged, htag, hlive, hcell, hfull]

/-- In a live context they go to its cell. -/
theorem State.atomicAt_live (hbad : s.bad = []) (htagged : o.tagged = true) (htag : o.tag ≠ 0)
    (hlive : s.tagLive o.job o.tag = true) (hw : a.waits = false)
    (hcell : s.kennel.cell? o.job o.tag o.obj (a.off / 64) ≠ none ∨ s.cellsFull o.job = false) :
    ∃ u, s.atomicAt o aop ty a = some (s.atomicOld o ty a, u) ∧ u.hbm = s.hbm ∧
      CellWritten s u o.job o.tag o.obj (a.off / 64) fun k =>
        if a.off % 64 ≤ k ∧ k < a.off % 64 + ty.bytes then
          some ((a.atomicNew aop ty (s.atomicOld o ty a)).getD (k - a.off % 64) 0#8) else none := by
  rw [← lineOf_div] at hcell ⊢
  obtain ⟨u, c, hu, huhbm, hutags, huc, hbyte⟩ := State.atomicCell_cell (a.phys - a.off % 64) hcell
  have hfields := Kennel.cell?_fields huc
  have hulive : u.tagLive o.job o.tag = true := by
    rw [← hlive]
    simp only [State.tagLive, State.tag?, hutags]
  have hwrite := State.ctxWrite_cell htag hulive huc o.launch (a.phys - a.off % 64)
    (a.atomicRun aop ty (s.atomicOld o ty a))
  refine ⟨u.setKennel (u.kennel.putCell (c.write (a.atomicRun aop ty (s.atomicOld o ty a)))), ?_, huhbm, _,
    Kennel.cell?_putCell hfields, fun k hk => ?_⟩
  · rw [State.atomicAt_eq hbad]
    simp [htagged, htag, hlive, hw, hu, hwrite]
  · rw [Cell.byte?_write _ _ hk, hbyte, LaneAcc.atomicRun, Tab.get?_run]
    by_cases hr : a.off % 64 ≤ k ∧ k < a.off % 64 + ty.bytes
    · simp only [if_pos hr, Option.some_or]
    · simp only [if_neg hr, Option.none_or]

end

/-! ### What follows a lane (R205, R210, R227, R370) -/

/-- Changes of groups alone, one after another, change the groups alone. -/
theorem foldl_groups {α : Type} (f : State → α → State) (h : ∀ s x, f s x = { s with groups := (f s x).groups })
    (l : List α) (s : State) : l.foldl f s = { s with groups := (l.foldl f s).groups } := by
  induction l generalizing s with
  | nil => rfl
  | cons x l ih =>
    rw [List.foldl_cons, ih, h]

theorem State.remoteReports_frame (s : State) (o : MemOp) (off n : Nat) :
    s.remoteReports o off n = { s with groups := (s.remoteReports o off n).groups } := by
  unfold State.remoteReports
  split
  · rfl
  · exact foldl_groups _ (fun s c => foldl_groups _ (fun _ _ => rfl) _ s) _ s

theorem State.releaseHold_frame (s : State) (gid : Nat) :
    s.releaseHold gid = { s with groups := (s.releaseHold gid).groups, views := (s.releaseHold gid).views } := by
  unfold State.releaseHold
  repeat' split
  all_goals rfl

theorem State.finishMem_ops (s : State) (op : Nat) (o : MemOp) :
    (s.finishMem op o).ops = { s.ops with mem := Tab.del s.ops.mem op } := by
  rw [State.finishMem, State.releaseHold_frame]
  rfl

theorem State.finishMem_kennel (s : State) (op : Nat) (o : MemOp) : (s.finishMem op o).kennel = s.kennel := by
  rw [State.finishMem, State.releaseHold_frame]
  rfl

/-- A lane's access once it has been performed. -/
def LaneAcc.perform (old : List Byte) (x : LaneAcc) : LaneAcc := { x with got := old, performed := true, waits := false }

/-- The operation after one of its lanes. -/
def MemOp.performLane (o : MemOp) (lane : Nat) (old : List Byte) : MemOp :=
  let o1 := o.updLane lane (LaneAcc.perform old)
  { o1 with lines := dedup ((o1.accs.filter fun x => !x.performed).map fun x => lineOf x.off) }

/-- The state after a lane that found `old`, `s` being the state with its bytes written. -/
def State.afterLane (s : State) (op : Nat) (o o' : MemOp) (ret : Bool) (ord : Order) (scope : Scope) (off n : Nat) : State :=
  let ws := if o'.accs.any LaneAcc.waits then s.kennel.waits else s.kennel.waits.filter fun w => w ≠ op
  let s := s.setKennel { s.kennel with waits := ws }
  let s := if ord.releases then s.released o.group scope else s
  let s := s.remoteReports o off n
  if o'.lines.isEmpty && !ret then s.finishMem op o' else s.setOps { s.ops with mem := Tab.set s.ops.mem op o' }

/-- The state after a lane that came to wait for a cell. -/
def State.afterWait (s : State) (op : Nat) (o : MemOp) (lane : Nat) : State :=
  let o' := o.updLane lane fun x => { x with waits := true }
  let ws := if s.kennel.waits.contains op then s.kennel.waits else s.kennel.waits ++ [op]
  (s.setOps { s.ops with mem := Tab.set s.ops.mem op o' }).setKennel { s.kennel with waits := ws }

/-- What is known of the state after a lane: which lanes of the operation are left, and that memory and cells are as the
lane's write left them. -/
structure LaneDone (s t : State) (op : Nat) (o' : MemOp) (ret : Bool) : Prop where
  left : (ret = true ∨ ∃ x ∈ o'.accs, x.performed = false) → (Tab.get? t.ops.mem op).map MemOp.accs = some o'.accs
  gone : ret = false → (∀ x ∈ o'.accs, x.performed = true) → Tab.get? t.ops.mem op = none
  hbm : t.hbm = s.hbm
  cells : t.kennel.cells = s.kennel.cells

theorem dedup_eq_nil {α : Type} [DecidableEq α] {l : List α} : dedup l = [] ↔ l = [] := by
  cases l <;> simp [dedup]

/-- No line is left exactly when every lane is performed. -/
theorem MemOp.performLane_lines_isEmpty (o : MemOp) (lane : Nat) (old : List Byte) :
    (o.performLane lane old).lines.isEmpty = true ↔ ∀ x ∈ (o.performLane lane old).accs, x.performed = true := by
  rw [List.isEmpty_iff]
  simp [MemOp.performLane, dedup_eq_nil, List.filter_eq_nil_iff]

/-- Until the operation is finished or kept, what follows a lane changes groups, views and the waiting lines. -/
theorem State.beforeFinish_frame (s : State) (o : MemOp) (ws : List Nat) (rel : Bool) (scope : Scope) (off n : Nat) :
    ∃ gs vs, State.remoteReports (if rel then (s.setKennel { s.kennel with waits := ws }).released o.group scope
        else s.setKennel { s.kennel with waits := ws }) o off n =
      { s with kennel := { s.kennel with waits := ws }, groups := gs, views := vs } := by
  rw [State.remoteReports_frame]
  cases rel
  · exact ⟨_, _, rfl⟩
  · exact ⟨_, _, rfl⟩

theorem State.afterLane_done (s : State) (op : Nat) (o : MemOp) (lane : Nat) (old : List Byte) (ret : Bool) (ord : Order)
    (scope : Scope) (off n : Nat) :
    LaneDone s (s.afterLane op o (o.performLane lane old) ret ord scope off n) op (o.performLane lane old) ret := by
  have hlines := o.performLane_lines_isEmpty lane old
  generalize o.performLane lane old = o' at hlines ⊢
  obtain ⟨gs, vs, hframe⟩ := s.beforeFinish_frame o
    (if o'.accs.any LaneAcc.waits then s.kennel.waits else s.kennel.waits.filter fun w => w ≠ op) ord.releases scope off n
  simp only [State.afterLane, hframe]
  by_cases hfin : o'.lines.isEmpty = true ∧ ret = false
  · obtain ⟨hempty, rfl⟩ := hfin
    have hall := hlines.1 hempty
    rw [hempty]
    refine ⟨?_, fun _ _ => ?_, State.finishMem_hbm .., ?_⟩
    · rintro (h | ⟨x, hx, hp⟩)
      · cases h
      · rw [hall x hx] at hp
        cases hp
    · simp [State.finishMem_ops, Tab.get?_del]
    · simp [State.finishMem_kennel]
  · have hkeep : (o'.lines.isEmpty && !ret) = false := by simpa using hfin
    rw [hkeep]
    refine ⟨fun _ => ?_, fun hr hall => absurd ⟨hlines.2 hall, hr⟩ hfin, rfl, rfl⟩
    simp [State.setOps]

/-- The state with other budgets and queues of its clusters' arbiters, which is all that metering changes. -/
def State.metered (s : State) (cs : Tab Cluster) : State := { s with clusters := cs }

/-- One lane that may be performed, and whose line is granted: it happens at its home, in the state but for its cluster's
budget and queue, or comes to wait there. -/
theorem State.atomicPerform_granted {s : State} {op lane : Nat} {o : MemOp} {aop : AtomOp} {ty : AtomTy} {ret : Bool}
    {ord : Order} {scope : Scope} {a : LaneAcc} (hop : Tab.get? s.ops.mem op = some o)
    (hkind : o.kind = .atomic aop ty ret ord scope)
    (hfind : o.accs.find? (fun x => x.lane = lane && !x.performed) = some a) (hw : a.waits = false)
    (hready : s.atomicReady op o ord scope a ty.bytes = true)
    (hgrant : (∃ x ∈ o.accs, lineOf x.off = lineOf a.off ∧ (x.performed = true ∨ x.waits = true)) ∨
      (s.charge o.core a.phys op (lineOf a.off)).1 = true) :
    ∃ cs, ((s.metered cs).atomicAt o aop ty a = none →
        exec (.atomicPerform op lane) s = .next ((s.metered cs).afterWait op o lane)) ∧
      ∀ old u, (s.metered cs).atomicAt o aop ty a = some (old, u) → exec (.atomicPerform op lane) s =
        .next (u.afterLane op o (o.performLane lane old) ret ord scope a.off ty.bytes) := by
  have hcharge : ∃ cs, (if o.accs.any fun x => lineOf x.off = lineOf a.off && (x.performed || x.waits) then (true, s)
      else s.charge o.core a.phys op (lineOf a.off)) = (true, s.metered cs) := by
    split
    · exact ⟨s.clusters, rfl⟩
    · rename_i hno
      have hg := hgrant.resolve_left fun ⟨x, hx, hl, hp⟩ => hno (List.any_eq_true.2 ⟨x, hx, by simpa [hl] using hp⟩)
      exact ⟨_, Prod.ext hg (State.charge_frame ..)⟩
  obtain ⟨cs, hcs⟩ := hcharge
  have hexec : exec (.atomicPerform op lane) s = .next (s.atomicPerform op lane) := rfl
  refine ⟨cs, fun hat => ?_, fun old u hat => ?_⟩ <;>
    rw [hexec] <;>
    simp only [State.atomicPerform, hop, hkind, hfind, hw, hready, Bool.not_true, Bool.not_false, Bool.and_false,
      Bool.false_eq_true, if_false, hcs, hat] <;>
    rfl

theorem State.mem_waits_afterWait (s : State) (op : Nat) (o : MemOp) (lane : Nat) :
    op ∈ (s.afterWait op o lane).kennel.waits := by
  simp only [State.afterWait, State.setKennel_kennel]
  split
  · rename_i h
    exact List.contains_iff_mem.1 h
  · exact List.mem_append_right _ (List.mem_singleton_self op)

theorem State.accs_afterWait (s : State) (op : Nat) (o : MemOp) (lane : Nat) :
    (Tab.get? (s.afterWait op o lane).ops.mem op).map MemOp.accs =
      some (o.accs.map fun x => if x.lane = lane then { x with waits := true } else x) := by
  simp [State.afterWait, State.setOps, MemOp.updLane]

/-! ### What the operations make of the old value (R179) -/

theorem signedOf_eq_toInt {n : Nat} (h : n < 2 ^ 32) : signedOf n 32 = (BitVec.ofNat 32 n).toInt := by
  rw [BitVec.toInt_eq_toNat_cond, BitVec.toNat_ofNat, Nat.mod_eq_of_lt h, signedOf]
  split <;> split <;> omega

theorem toInt_ofNat_atomOp_min (old v c : Nat) (hold : old < 2 ^ 32) (hv : v < 2 ^ 32) :
    (BitVec.ofNat 32 (atomOp .min .i32 old v c)).toInt = min (BitVec.ofNat 32 old).toInt (BitVec.ofNat 32 v).toInt := by
  simp only [atomOp, signedOf_eq_toInt hold, signedOf_eq_toInt hv]
  split <;> omega

theorem toInt_ofNat_atomOp_max (old v c : Nat) (hold : old < 2 ^ 32) (hv : v < 2 ^ 32) :
    (BitVec.ofNat 32 (atomOp .max .i32 old v c)).toInt = max (BitVec.ofNat 32 old).toInt (BitVec.ofNat 32 v).toInt := by
  simp only [atomOp, signedOf_eq_toInt hold, signedOf_eq_toInt hv]
  split <;> omega

end Sys2Proof.Machine

namespace Sys2Proof

open Machine

/-- Settles O30: a lane is performed in the state but for its cluster's metering, by the write of its context, and each
operation's value is that of its own arm. -/
theorem atomicsPerform : Obligations.AtomicsPerform := by
  constructor
  · intro s op lane o aop ty ret ord scope a hop hkind hfind hw hready hbad hgrant hphys old new accs cell performs
    obtain ⟨cs, hwait, hdone⟩ := State.atomicPerform_granted hop hkind hfind hw hready hgrant
    have hperforms : ∀ {u t}, LaneDone u t op (o.performLane lane old) ret → performs t := fun h => ⟨h.left, h.gone⟩
    refine ⟨fun hroot => ?_, fun htagged htag => ⟨fun hlive hcell => ?_, fun hlive hcell hfull => ?_, fun hlive => ?_⟩⟩
    · have hat : (s.metered cs).atomicAt o aop ty a =
          some (old, (s.metered cs).rootWrite (a.phys - a.off % 64) (a.atomicRun aop ty old)) :=
        State.atomicAt_root hbad hroot
      have hfin := State.afterLane_done ((s.metered cs).rootWrite (a.phys - a.off % 64) (a.atomicRun aop ty old)) op o lane
        old ret ord scope a.off ty.bytes
      have hnew := State.hbmRead_atomicRun (s.metered cs) aop ty old hphys
      refine ⟨_, hdone _ _ hat, hperforms hfin, ?_, fun x hx => ?_⟩
      · rw [State.hbmRead, hfin.hbm]
        exact hnew.1
      · rw [State.hbmRead, hfin.hbm]
        exact hnew.2 x hx
    · obtain ⟨u, hat, huhbm, c, hc, hbytes⟩ :=
        State.atomicAt_live (s := s.metered cs) (aop := aop) (ty := ty) hbad htagged htag hlive hw hcell
      have hfin := State.afterLane_done u op o lane old ret ord scope a.off ty.bytes
      exact ⟨_, hdone _ _ hat, hperforms hfin, hfin.hbm.trans huhbm, c,
        (Kennel.cell?_eq_of_cells hfin.cells ..).trans hc, hbytes⟩
    · have hat := State.atomicAt_full (s := s.metered cs) (aop := aop) (ty := ty) hbad htagged htag hlive hcell hfull
      exact ⟨_, hwait hat, rfl, rfl, State.mem_waits_afterWait .., State.accs_afterWait ..⟩
    · have hat := State.atomicAt_dead (s := s.metered cs) (aop := aop) (ty := ty) hbad htagged htag hlive hw
      have hfin := State.afterLane_done ((s.metered cs).lateWrite o.launch) op o lane old ret ord scope a.off ty.bytes
      exact ⟨_, hdone _ _ hat, hperforms hfin, hfin.hbm, hfin.cells⟩
  · intro ty old v c hold hv
    refine ⟨rfl, rfl, rfl, fun _ => Nat.testBit_and .., fun _ => Nat.testBit_or .., fun _ => Nat.testBit_xor ..,
      ?_, ?_, ?_, ?_⟩
    · rintro rfl
      exact toInt_ofNat_atomOp_min old v c hold hv
    · rintro rfl
      exact toInt_ofNat_atomOp_max old v c hold hv
    · rintro (rfl | rfl) <;> exact ⟨rfl, rfl⟩
    · rintro rfl
      exact ⟨rfl, rfl, rfl⟩

end Sys2Proof
end

