-- ==== Sys2Proof/Proofs/Placing.lean ====
section
/-!
PROOFS. Where PLACE_BLOCKS puts the blocks of a launch (R168, R388, R390, R391, R394): the blocks of a gang that starts, those of
several gangs one after the other, and the saved blocks that come back.
-/

namespace Sys2Proof.Machine

/-! ### Searches -/

theorem firstSome_eq_some {α β : Type} {f : α → Option β} {l : List α} {y : β} (h : firstSome f l = some y) :
    ∃ x ∈ l, f x = some y := by
  induction l with
  | nil => cases h
  | cons x l ih =>
    unfold firstSome at h
    split at h
    · rename_i z hz
      exact ⟨x, List.mem_cons_self, hz.trans h⟩
    · obtain ⟨w, hw, hfw⟩ := ih h
      exact ⟨w, List.mem_cons_of_mem _ hw, hfw⟩

theorem mem_of_bestOf_eq_some {α : Type} {l : List (Nat × α)} {x : Nat × α} (h : bestOf l = some x) : x ∈ l := by
  induction l generalizing x with
  | nil => cases h
  | cons a l ih =>
    unfold bestOf at h
    split at h
    · rename_i y hy
      obtain rfl := Option.some.inj h
      split
      · exact List.mem_cons_of_mem _ (ih hy)
      · exact List.mem_cons_self
    · obtain rfl := Option.some.inj h
      exact List.mem_cons_self

/-- The best core is one of the cluster's, and the block is put there. -/
theorem State.onBestCore_eq_some {s t : State} {job cluster : Nat} {k : Kernel} {put : Nat → Nat × State}
    (h : s.onBestCore job k cluster put = some t) : ∃ core, core / 4 = cluster ∧ t = (put core).2 := by
  obtain ⟨x, hx, rfl⟩ := Option.map_eq_some_iff.1 h
  obtain ⟨q, hq, hput⟩ := List.mem_filterMap.1 (mem_of_bestOf_eq_some hx)
  have hq4 : q < 4 := List.mem_range.1 hq
  refine ⟨4 * cluster + q, by omega, ?_⟩
  dsimp only at hput
  split at hput
  · split at hput
    · rw [← Option.some.inj hput]
    · cases hput
  · cases hput

theorem Tab.isSome_get?_of_mem {α : Type} {t : Tab α} {k : Nat} {x : α} (h : (k, x) ∈ t) : (Tab.get? t k).isSome = true := by
  induction t with
  | nil => cases h
  | cons e t ih =>
    rw [Tab.get?_cons]
    split
    · rfl
    · rename_i hne
      rcases List.mem_cons.1 h with rfl | ht
      · exact absurd rfl hne
      · exact ih ht

/-! ### A block starts (R61, R168) -/

/-- Putting a group on its slice changes groups, and the errors of registers written anew. -/
theorem State.putGroup_frame (s : State) (gid : Nat) (g : Group) :
    s.putGroup gid g = { s with groups := (s.putGroup gid g).groups, bad := (s.putGroup gid g).bad } := by
  unfold State.putGroup State.groupAdmit
  repeat' split
  all_goals rfl

/-- A block of a launch's gang runs. -/
def State.RunsBlock (t : State) (lid gi ix bid : Nat) : Prop :=
  ∃ b, Tab.get? t.work.blocks bid = some b ∧ b.launch = lid ∧ b.index = ix ∧ b.gang = gi ∧ b.state = .running

/-- Memory and the blocks that stand are as before; what is new has new numbers. -/
structure Grows (s t : State) : Prop where
  hbm : t.hbm = s.hbm
  ids : s.nextId ≤ t.nextId
  blocks : ∀ bid, bid < s.nextId → Tab.get? t.work.blocks bid = Tab.get? s.work.blocks bid

theorem Grows.refl (s : State) : Grows s s := ⟨rfl, Nat.le_refl _, fun _ _ => rfl⟩

theorem Grows.trans {s t u : State} (h : Grows s t) (h' : Grows t u) : Grows s u where
  hbm := h'.hbm.trans h.hbm
  ids := Nat.le_trans h.ids h'.ids
  blocks bid hb := (h'.blocks bid (Nat.lt_of_lt_of_le hb h.ids)).trans (h.blocks bid hb)

theorem Grows.runsBlock {s t : State} (h : Grows s t) {lid gi ix : Nat} (hr : ∃ bid < s.nextId, s.RunsBlock lid gi ix bid) :
    ∃ bid < t.nextId, t.RunsBlock lid gi ix bid := by
  obtain ⟨bid, hb, b, hget, hrest⟩ := hr
  exact ⟨bid, Nat.lt_of_lt_of_le hb h.ids, b, (h.blocks bid hb).trans hget, hrest⟩

/-- While a block's groups are put on their slices, block `bid` is there, with the groups put so far. -/
structure Opening (s t : State) (bid : Nat) (b : Block) : Prop where
  grows : Grows s t
  launches : t.work.launches = s.work.launches
  new : bid < t.nextId
  block : ∃ gs, Tab.get? t.work.blocks bid = some { b with groups := gs }

theorem Opening.putGroup {s t : State} {bid : Nat} {b : Block} (h : Opening s t bid b) (hnew : s.nextId ≤ bid) (gid : Nat)
    (g : Group) : Opening s ((t.fresh.2.updBlock bid fun b => { b with groups := b.groups ++ [gid] }).putGroup gid g) bid b := by
  rw [State.putGroup_frame]
  obtain ⟨gs, hgs⟩ := h.block
  refine ⟨⟨h.grows.hbm, Nat.le_succ_of_le h.grows.ids, fun k hk => ?_⟩, h.launches, Nat.lt_succ_of_lt h.new,
    gs ++ [gid], ?_⟩
  · have hne : k ≠ bid := by omega
    exact (Tab.get?_upd ..).trans ((if_neg hne).trans (h.grows.blocks k hk))
  · refine (Tab.get?_upd ..).trans ((if_pos rfl).trans ?_)
    rw [show Tab.get? t.fresh.2.work.blocks bid = _ from hgs]
    rfl

/-- A block of index `ix` starts: it has the next number, and runs. -/
theorem State.newBlock_opening (s : State) (lid : Nat) (l : Launch) (ix core base : Nat) :
    ∃ b : Block, b.launch = lid ∧ b.index = ix ∧ b.gang = ix / l.kernel.gang ∧ b.state = .running ∧
      Opening s (s.newBlock lid l ix core base).2 s.nextId b := by
  refine ⟨⟨lid, ix, ix / l.kernel.gang, core, [], [], s.fresh.2.freeTiles core l.kernel.acc, [],
    barsInit l.kernel.blockBars l.kernel.groups 0, .running⟩, rfl, rfl, rfl, rfl, ?_⟩
  unfold State.newBlock
  refine List.foldlRecOn (motive := fun t => Opening s t s.nextId _) _ _ ?_ fun t ht gi _ =>
    ht.putGroup (Nat.le_refl _) _ _
  refine ⟨⟨rfl, Nat.le_succ _, fun k hk => ?_⟩, rfl, Nat.lt_succ_self _, [], ?_⟩
  · exact Tab.get?_set_ne _ _ (Nat.ne_of_lt hk)
  · exact Tab.get?_set_same ..

/-! ### A gang starts (R391) -/

/-- Blocks placed one after the other all run, each in the gang its index has. -/
theorem State.placeIn_eq_some {s t : State} {lid : Nat} {l : Launch} {cluster base gi : Nat} {ixs : List Nat}
    (h : s.placeIn lid l cluster base ixs = some t) (hgi : ∀ ix ∈ ixs, ix / l.kernel.gang = gi) :
    Grows s t ∧ t.work.launches = s.work.launches ∧ ∀ ix ∈ ixs, ∃ bid < t.nextId, t.RunsBlock lid gi ix bid := by
  induction ixs generalizing s with
  | nil =>
    obtain rfl := Option.some.inj h
    exact ⟨Grows.refl s, rfl, fun _ hix => nomatch hix⟩
  | cons ix ixs ih =>
    unfold State.placeIn at h
    split at h
    · rename_i u hu
      obtain ⟨core, -, rfl⟩ := State.onBestCore_eq_some hu
      obtain ⟨b, hlid, hix, hgang, hrun, hopen⟩ := s.newBlock_opening lid l ix core base
      obtain ⟨hgrows, hlaunches, hruns⟩ := ih h fun j hj => hgi j (List.mem_cons_of_mem _ hj)
      refine ⟨hopen.grows.trans hgrows, hlaunches.trans hopen.launches, fun j hj => ?_⟩
      rcases List.mem_cons.1 hj with rfl | hj
      · obtain ⟨gs, hget⟩ := hopen.block
        exact hgrows.runsBlock ⟨s.nextId, hopen.new, _, hget, hlid, hix, hgang.trans (hgi j List.mem_cons_self), hrun⟩
      · exact hruns j hj
    · cases h

/-- The blocks of a gang have the indexes that divide to it (R62). -/
theorem Launch.div_of_mem_gangBlocks {l : Launch} {gi ix : Nat} (hg : 1 ≤ l.kernel.gang) (h : ix ∈ l.gangBlocks gi) :
    ix / l.kernel.gang = gi := by
  obtain ⟨k, hk, rfl⟩ := List.mem_map.1 h
  have hlt : k < l.kernel.gang := Nat.lt_of_lt_of_le (List.mem_range.1 hk) (Nat.min_le_left ..)
  rw [Nat.mul_comm, Nat.mul_add_div hg, Nat.div_eq_of_lt hlt, Nat.add_zero]

theorem Launch.mem_todo {l : Launch} {gi : Nat} : gi ∈ l.todo ↔ l.gangs.length ≤ gi ∧ gi < l.gangCount := by
  simp only [Launch.todo, List.mem_map, List.mem_range]
  constructor
  · rintro ⟨k, hk, rfl⟩
    omega
  · rintro ⟨hlo, hhi⟩
    exact ⟨gi - l.gangs.length, by omega, by omega⟩

/-- A gang of a launch has started, and its blocks run. -/
structure State.HoldsGang (t : State) (lid gi : Nat) (ixs : List Nat) : Prop where
  started : ((Tab.get? t.work.launches lid).map fun l => Tab.has l.gangs gi) = some true
  runs : ∀ ix ∈ ixs, ∃ bid < t.nextId, t.RunsBlock lid gi ix bid

/-- A launch with a kernel, the gangs of blocks and the started gangs of `l`, and maybe further ones. -/
def State.KeepsLaunch (t : State) (lid : Nat) (l : Launch) : Prop :=
  ∃ l', Tab.get? t.work.launches lid = some l' ∧ l'.kernel = l.kernel ∧ l'.gangBlocks = l.gangBlocks ∧
    ∀ gi, Tab.has l.gangs gi = true → Tab.has l'.gangs gi = true

/-- What starting a gang makes of its launch. -/
theorem State.startGang_launch {s : State} {lid : Nat} {l : Launch} (hl : Tab.get? s.work.launches lid = some l) (l0 : Launch)
    (gi cluster : Nat) :
    ∃ l', Tab.get? (s.startGang lid l0 gi cluster).work.launches lid = some l' ∧ l'.kernel = l.kernel ∧
      l'.gangBlocks = l.gangBlocks ∧ ∀ gj, Tab.has l'.gangs gj = (decide (gj = gi) || Tab.has l.gangs gj) := by
  have hopen : ∃ l1, Tab.get? (s.openDie lid (cluster / 8)).work.launches lid = some l1 ∧ l1.kernel = l.kernel ∧
      l1.gangBlocks = l.gangBlocks ∧ l1.gangs = l.gangs := by
    refine ⟨_, (Tab.get?_upd ..).trans ((if_pos rfl).trans (congrArg (Option.map _) hl)), ?_⟩
    dsimp only
    split <;> exact ⟨rfl, rfl, rfl⟩
  obtain ⟨l1, hl1, hkernel, hblocks, hgangs⟩ := hopen
  refine ⟨_, (Tab.get?_upd ..).trans ((if_pos rfl).trans (congrArg (Option.map _) hl1)), hkernel, hblocks, fun gj => ?_⟩
  rw [← hgangs]
  exact Tab.has_set ..

theorem State.startGang_grows (s : State) (lid : Nat) (l : Launch) (gi cluster : Nat) :
    Grows s (s.startGang lid l gi cluster) := ⟨rfl, Nat.le_refl _, fun _ _ => rfl⟩

/-- The next gang of a launch starts whole. -/
theorem State.placeGang_eq_some {s t : State} {lid gi : Nat} {idle : Bool} {l : Launch}
    (h : s.placeGang lid gi idle = some t) (hl : Tab.get? s.work.launches lid = some l) (hg : 1 ≤ l.kernel.gang) :
    Grows s t ∧ t.KeepsLaunch lid l ∧ t.HoldsGang lid gi (l.gangBlocks gi) := by
  simp only [State.placeGang, hl] at h
  split at h
  · rename_i c u hfirst
    have ht : u.startGang lid l gi c = t := by
      split at h
      · exact Option.some.inj h
      · cases h
    subst ht
    obtain ⟨c', -, hc'⟩ := firstSome_eq_some hfirst
    split at hc'
    · obtain ⟨u', hplace, hpair⟩ := Option.map_eq_some_iff.1 hc'
      obtain ⟨rfl, rfl⟩ := Prod.mk.inj hpair
      obtain ⟨hgrows, hlaunches, hruns⟩ := State.placeIn_eq_some hplace fun _ => Launch.div_of_mem_gangBlocks hg
      obtain ⟨l', hl', hkernel, hblocks, hhas⟩ :=
        State.startGang_launch (s := u') (lid := lid) (l := l) (by rw [hlaunches, hl]) l gi c'
      refine ⟨hgrows.trans (u'.startGang_grows ..), ⟨l', hl', hkernel, hblocks, fun gj hgj => ?_⟩, ?_, hruns⟩
      · rw [hhas, hgj, Bool.or_true]
      · simp [hl', hhas]
    · cases hc'
  · cases h

theorem State.HoldsGang.mono {s t : State} {lid gi : Nat} {ixs : List Nat} {l : Launch} (h : s.HoldsGang lid gi ixs)
    (hl : Tab.get? s.work.launches lid = some l) (hgrows : Grows s t) (hkeeps : t.KeepsLaunch lid l) :
    t.HoldsGang lid gi ixs := by
  obtain ⟨l', hl', -, -, hhas⟩ := hkeeps
  refine ⟨?_, fun ix hix => hgrows.runsBlock (h.runs ix hix)⟩
  have hstarted := h.started
  rw [hl] at hstarted
  rw [hl', Option.map_some, hhas gi (Option.some.inj hstarted)]

/-- Several gangs start, each whole. -/
theorem State.placeGangs_eq_some {s t : State} {lid : Nat} {idle : Bool} {gs : List Nat} {l : Launch}
    (h : s.placeGangs lid idle gs = some t) (hl : Tab.get? s.work.launches lid = some l) (hg : 1 ≤ l.kernel.gang) :
    Grows s t ∧ t.KeepsLaunch lid l ∧ ∀ gi ∈ gs, t.HoldsGang lid gi (l.gangBlocks gi) := by
  induction gs generalizing s l with
  | nil =>
    obtain rfl := Option.some.inj h
    exact ⟨Grows.refl s, ⟨l, hl, rfl, rfl, fun _ h => h⟩, fun _ hgi => nomatch hgi⟩
  | cons gi gs ih =>
    unfold State.placeGangs at h
    split at h
    · rename_i u hu
      obtain ⟨hgrows, ⟨l', hl', hkernel, hblocks, hhas⟩, hholds⟩ := State.placeGang_eq_some hu hl hg
      obtain ⟨hgrows', hkeeps', hholds'⟩ := ih h hl' (by rwa [hkernel])
      have hkeeps := hkeeps'
      obtain ⟨l'', hl'', hkernel', hblocks', hhas'⟩ := hkeeps'
      refine ⟨hgrows.trans hgrows', ⟨l'', hl'', hkernel'.trans hkernel, hblocks'.trans hblocks,
        fun gj hgj => hhas' gj (hhas gj hgj)⟩, fun gj hgj => ?_⟩
      rcases List.mem_cons.1 hgj with rfl | hgj
      · exact hholds.mono hl' hgrows' hkeeps
      · exact hblocks ▸ hholds' gj hgj
    · cases h

/-! ### Saved blocks come back (R376, R394) -/

theorem State.seatGroup_work (s : State) (core gid : Nat) : (s.seatGroup core gid).work = s.work := by
  unfold State.seatGroup
  split
  · rfl
  · dsimp only [State.settleBars, State.updGroup]
    rw [State.putGroup_frame]
    rfl

theorem State.seatGroup_hbm (s : State) (core gid : Nat) : (s.seatGroup core gid).hbm = s.hbm := by
  unfold State.seatGroup
  split
  · rfl
  · dsimp only [State.settleBars, State.updGroup]
    rw [State.putGroup_frame]
    rfl

theorem State.foldl_seatGroup_frame (core : Nat) (gids : List Nat) (s : State) :
    (gids.foldl (fun s gid => State.seatGroup s core gid) s).work = s.work ∧
      (gids.foldl (fun s gid => State.seatGroup s core gid) s).hbm = s.hbm := by
  induction gids generalizing s with
  | nil => exact ⟨rfl, rfl⟩
  | cons gid gids ih =>
    obtain ⟨hwork, hhbm⟩ := ih (s.seatGroup core gid)
    exact ⟨hwork.trans (s.seatGroup_work core gid), hhbm.trans (s.seatGroup_hbm core gid)⟩

/-- The block is on the core and runs; memory, launches and the other blocks are as before. -/
theorem State.seatBlock_frame {s : State} {bid : Nat} {b : Block} (h : Tab.get? s.work.blocks bid = some b) (core : Nat) :
    (s.seatBlock bid core).hbm = s.hbm ∧ (s.seatBlock bid core).work = { s.work with
      blocks := Tab.upd s.work.blocks bid fun x =>
        { x with core := core, tiles := s.freeTiles core b.tiles.length, state := .running } } := by
  simp only [State.seatBlock, h]
  obtain ⟨hwork, hhbm⟩ := State.foldl_seatGroup_frame core b.groups
    (s.updBlock bid fun x => { x with core := core, tiles := s.freeTiles core b.tiles.length, state := .running })
  exact ⟨hhbm, hwork⟩

theorem State.seatBlock_of_none {s : State} {bid : Nat} (h : Tab.get? s.work.blocks bid = none) (core : Nat) :
    s.seatBlock bid core = s := by
  simp only [State.seatBlock, h]

/-- A block runs on a cluster. -/
def State.RunsIn (t : State) (bid cluster : Nat) : Prop :=
  ∃ b, Tab.get? t.work.blocks bid = some b ∧ b.state = .running ∧ b.core / 4 = cluster

/-- What blocks that come to a cluster leave: memory, launches and which blocks there are, and those that run there do so. -/
structure Seated (cluster : Nat) (s t : State) : Prop where
  hbm : t.hbm = s.hbm
  launches : t.work.launches = s.work.launches
  blocks : ∀ bid, (Tab.get? s.work.blocks bid).isSome = true → (Tab.get? t.work.blocks bid).isSome = true
  runs : ∀ bid, s.RunsIn bid cluster → t.RunsIn bid cluster

theorem State.seatBlock_seated (s : State) (bid core : Nat) : Seated (core / 4) s (s.seatBlock bid core) ∧
    ((Tab.get? s.work.blocks bid).isSome = true → (s.seatBlock bid core).RunsIn bid (core / 4)) := by
  cases hb : Tab.get? s.work.blocks bid with
  | none =>
    rw [State.seatBlock_of_none hb]
    exact ⟨⟨rfl, rfl, fun _ h => h, fun _ h => h⟩, fun h => nomatch h⟩
  | some b =>
    obtain ⟨hhbm, hwork⟩ := State.seatBlock_frame hb core
    have hget : ∀ k, Tab.get? (s.seatBlock bid core).work.blocks k = if k = bid then
        some { b with core := core, tiles := s.freeTiles core b.tiles.length, state := .running }
        else Tab.get? s.work.blocks k := by
      intro k
      rw [hwork, Tab.get?_upd, hb]
      rfl
    have hself : (s.seatBlock bid core).RunsIn bid (core / 4) := ⟨_, (hget bid).trans (if_pos rfl), rfl, rfl⟩
    refine ⟨⟨hhbm, by rw [hwork], fun k hk => ?_, fun k hk => ?_⟩, fun _ => hself⟩
    · rw [hget]
      split
      · rfl
      · exact hk
    · by_cases hkb : k = bid
      · exact hkb ▸ hself
      · obtain ⟨x, hx, hrest⟩ := hk
        exact ⟨x, (hget k).trans ((if_neg hkb).trans hx), hrest⟩

/-- Blocks seated on a cluster one after the other all run there. -/
theorem State.seatIn_eq_some {s t : State} {l : Launch} {cluster : Nat} {bids : List Nat} (h : s.seatIn l cluster bids = some t)
    (hbids : ∀ bid ∈ bids, (Tab.get? s.work.blocks bid).isSome = true) :
    Seated cluster s t ∧ ∀ bid ∈ bids, t.RunsIn bid cluster := by
  induction bids generalizing s with
  | nil =>
    obtain rfl := Option.some.inj h
    exact ⟨⟨rfl, rfl, fun _ h => h, fun _ h => h⟩, fun _ hb => nomatch hb⟩
  | cons bid bids ih =>
    unfold State.seatIn at h
    split at h
    · rename_i u hu
      obtain ⟨core, rfl, rfl⟩ := State.onBestCore_eq_some hu
      obtain ⟨hseat, hself⟩ := s.seatBlock_seated bid core
      obtain ⟨hrest, hruns⟩ := ih h fun k hk => hseat.blocks k (hbids k (List.mem_cons_of_mem _ hk))
      refine ⟨⟨hrest.hbm.trans hseat.hbm, hrest.launches.trans hseat.launches, fun k hk => hrest.blocks k (hseat.blocks k hk),
        fun k hk => hrest.runs k (hseat.runs k hk)⟩, fun k hk => ?_⟩
      rcases List.mem_cons.1 hk with rfl | hk
      · exact hrest.runs _ (hself (hbids _ List.mem_cons_self))
      · exact hruns k hk
    · cases h

theorem State.isSome_of_mem_savedOf {s : State} {lid gi : Nat} {e : Nat × Block} (h : e ∈ s.savedOf lid gi) :
    (Tab.get? s.work.blocks e.1).isSome = true :=
  Tab.isSome_get?_of_mem (List.mem_filter.1 h).1

/-- The evicted blocks of a gang come back: the first where the job keeps its cluster, else all, and the gang, to another. -/
theorem State.reseat_eq_some {s t : State} {lid gi : Nat} {l : Launch} {g : Gang} (h : s.reseat lid l gi g = some t)
    (hl : Tab.get? s.work.launches lid = some l) (hg : (gi, g) ∈ l.gangs) (hsaved : s.savedOf lid gi ≠ []) :
    t.hbm = s.hbm ∧ if s.keepsCluster l.job g.cluster = true then
        ∃ e, (s.savedOf lid gi).head? = some e ∧ t.RunsIn e.1 g.cluster
      else ∃ c, ((Tab.get? t.work.launches lid).bind fun l' => (Tab.get? l'.gangs gi).map Gang.cluster) = some c ∧
        ∀ e ∈ s.savedOf lid gi, t.RunsIn e.1 c := by
  unfold State.reseat at h
  dsimp only at h
  by_cases hkeeps : s.keepsCluster l.job g.cluster = true
  · obtain ⟨e, es, hes⟩ := List.exists_cons_of_ne_nil hsaved
    rw [if_pos hkeeps, hes] at h
    rw [if_pos hkeeps, hes]
    have he : (Tab.get? s.work.blocks e.1).isSome = true :=
      State.isSome_of_mem_savedOf (lid := lid) (gi := gi) (hes ▸ List.mem_cons_self)
    obtain ⟨hseat, hruns⟩ := State.seatIn_eq_some h fun k hk => (List.mem_singleton.1 hk) ▸ he
    exact ⟨hseat.hbm, e, rfl, hruns e.1 (List.mem_singleton_self _)⟩
  · rw [if_neg hkeeps] at h
    rw [if_neg hkeeps]
    split at h
    · cases h
    obtain ⟨c, -, hc⟩ := firstSome_eq_some h
    split at hc
    · obtain ⟨u, hu, rfl⟩ := Option.map_eq_some_iff.1 hc
      obtain ⟨hseat, hruns⟩ := State.seatIn_eq_some hu fun k hk => by
        obtain ⟨e, he, rfl⟩ := List.mem_map.1 hk
        exact State.isSome_of_mem_savedOf he
      refine ⟨hseat.hbm, c, ?_, fun e he => hruns e.1 (List.mem_map_of_mem he)⟩
      have hopen : (Tab.get? (u.openDie lid (c / 8)).work.launches lid).map Launch.gangs = some l.gangs := by
        refine (congrArg _ (Tab.get?_upd ..)).trans ?_
        rw [if_pos rfl, hseat.launches, hl]
        dsimp only [Option.map_some]
        split <;> rfl
      obtain ⟨l1, hl1, hgangs⟩ := Option.map_eq_some_iff.1 hopen
      refine (congrArg (Option.bind · _) ((Tab.get?_upd ..).trans ((if_pos rfl).trans (congrArg (Option.map _) hl1)))).trans ?_
      obtain ⟨g', hg'⟩ := Option.isSome_iff_exists.1 (Tab.isSome_get?_of_mem hg)
      simp [Tab.get?_upd, hgangs, hg']
    · cases hc

/-! ### The order (R388, R390) -/

/-- With nothing in retention and nothing on the links, PLACE_BLOCKS acts at once. -/
theorem State.exec_placeBlocks {s t : State} {lid : Nat} (hret : s.retained = []) (hlinks : ∀ c, s.linkClear c = true)
    (ht : s.placeBlocks lid = t) (hhbm : t.hbm = s.hbm) :
    exec (.placeBlocks lid) s = .next (s.blocksMoved t) ∧ (s.blocksMoved t).hbm = s.hbm ∧
      (s.blocksMoved t).work = t.work := by
  have hexec : exec (.placeBlocks lid) s = .next (s.blocksMoved (s.delivered (s.placeBlocks lid))) := rfl
  obtain ⟨ps, hps⟩ := s.blocksMoved_awake t hret
  rw [hexec, State.delivered_clear _ _ hlinks, ht]
  exact ⟨rfl, s.blocksMoved_hbm t hhbm, by rw [hps]; rfl⟩

theorem moveSegs_self (l : List Spot) : moveSegs l l = [] := by
  have h : (l.filter fun x => !l.contains x) = [] := by
    simp [List.filter_eq_nil_iff]
  rw [moveSegs, h]
  rfl

/-- Where nothing moves, nothing is accessed. -/
theorem State.blocksMoved_self (s : State) : s.blocksMoved s = s := by
  simp only [State.blocksMoved, moveSegs_self]
  rfl

/-- A launch that may take places: admitted, with no status, its job running, and behind no co-operative launch. -/
structure Takes (s : State) (lid : Nat) (l : Launch) : Prop where
  launch : Tab.get? s.work.launches lid = some l
  admitted : l.admitted = true
  running : l.status = none
  there : l.retired = false
  job : s.jobRuns l.job = true
  first : ∀ e ∈ s.work.launches, s.unplaced e.2 = true → e.1 = lid ∨ (l.coop = true ∧ lid ≤ e.1)

theorem Takes.placeBlocks {s : State} {lid : Nat} {l : Launch} (h : Takes s lid l) :
    s.placeBlocks lid = match l.gangs.find? fun e => !(s.savedOf lid e.1).isEmpty with
      | some (gi, g) => (s.reseat lid l gi g).getD s
      | none => (s.placeGangs lid false (if l.coop then l.todo else l.nextGang)).getD s := by
  have hfirst : s.work.launches.any (fun e => s.unplaced e.2 && e.1 ≠ lid && (!l.coop || decide (e.1 < lid))) = false := by
    rw [List.any_eq_false]
    intro e he hbad
    simp only [Bool.and_eq_true, decide_eq_true_eq, Bool.or_eq_true, Bool.not_eq_true'] at hbad
    obtain ⟨⟨hun, hne⟩, hcoop⟩ := hbad
    rcases h.first e he hun with heq | ⟨hc, hle⟩
    · exact hne heq
    · rcases hcoop with hc' | hlt
      · rw [hc] at hc'
        cases hc'
      · omega
  simp only [State.placeBlocks, h.launch, h.admitted, h.running, h.there, h.job, hfirst]
  rfl

/-- With no evicted gang the launch's next gangs start, all or none. -/
theorem Takes.placeBlocks_next {s : State} {lid : Nat} {l : Launch} (h : Takes s lid l)
    (hsaved : ∀ e ∈ l.gangs, s.savedOf lid e.1 = []) :
    s.placeBlocks lid = (s.placeGangs lid false (if l.coop then l.todo else l.nextGang)).getD s := by
  have hnone : (l.gangs.find? fun e => !(s.savedOf lid e.1).isEmpty) = none := by
    rw [List.find?_eq_none]
    intro e he
    simp [hsaved e he]
  rw [h.placeBlocks, hnone]

end Sys2Proof.Machine
end

