-- ==== Sys2Proof/Proofs/Launches.lean ====
section
/-!
PROOFS. How blocks and launches end (R168, R220, R385, R390) and how code enters a cluster (R32, R397); with the placing of
blocks they make the placement events.
-/

namespace Sys2Proof.Machine

/-! ### What ends change besides (R217, R397) -/

theorem State.dropBad_frame (s : State) : s.dropBad = { s with bad := s.dropBad.bad } := rfl

theorem State.freeCode_frame (s : State) : s.freeCode = { s with clusters := s.freeCode.clusters } := rfl

theorem State.trimPools_frame (s : State) : s.trimPools = { s with kennel := s.trimPools.kennel } := rfl

/-! ### Blocks end (R168, R390) -/

/-- A block all of whose groups are gone is freed. -/
theorem State.blockDone_eq_blockFreed {s : State} {bid : Nat} {b : Block} (hb : Tab.get? s.work.blocks bid = some b)
    (hgroups : ∀ g ∈ b.groups, Tab.get? s.groups g = none) (hcopies : ∀ e ∈ s.ops.copies, e.2.block ≠ some bid) :
    s.blockDone bid = s.blockFreed bid b := by
  have h1 : b.groups.any (fun g => Tab.has s.groups g) = false := by
    rw [List.any_eq_false]
    intro g hg
    simp [Tab.has, hgroups g hg]
  have h2 : s.ops.copies.any (fun e => e.2.block = some bid) = false := by
    rw [List.any_eq_false]
    intro e he
    simp [hcopies e he]
  simp [State.blockDone, hb, h1, h2]

/-- What a freed block leaves of its launch. -/
def Launch.afterBlock (l : Launch) (gang : Nat) (last none_ : Bool) : Launch :=
  { l with
    gangs := if last then Tab.upd l.gangs gang fun g => { g with scratch := [], bars := [] } else l.gangs
    gridBars := if none_ && l.nextGang.isEmpty then [] else l.gridBars }

/-- The parts of the state that a freed block changes. -/
theorem State.blockFreed_frame (s : State) (bid : Nat) (b : Block) :
    let t := s.blockFreed bid b
    let none_ := !(Tab.del s.work.blocks bid).any fun e => e.2.launch = b.launch
    let last := !(Tab.del s.work.blocks bid).any fun e => e.2.launch = b.launch && e.2.gang = b.gang
    t.hbm = s.hbm ∧ t.work.blocks = Tab.del s.work.blocks bid ∧
    t.tiles = Tab.keep s.tiles (fun _ p => (p.owner.map Prod.snd) ≠ some bid) ∧
    t.hub.toHub = Tab.set s.hub.toHub (clusterOf b.core)
      (Tab.getD s.hub.toHub (clusterOf b.core) [] ++ [.blockDone bid b.launch]) ∧
    t.work.launches = Tab.upd s.work.launches b.launch fun l => l.afterBlock b.gang last none_ := by
  simp only [State.blockFreed]
  rw [State.dropBad_frame, State.trimPools_frame]
  exact ⟨rfl, rfl, rfl, rfl, rfl⟩

/-- The allotment and barriers of a gang go with its last block. -/
theorem Launch.gang_afterBlock_last {l : Launch} {gang : Nat} {none_ : Bool} {y : Gang}
    (h : Tab.get? (l.afterBlock gang true none_).gangs gang = some y) : y.scratch = [] ∧ y.bars = [] := by
  simp only [Launch.afterBlock, if_true, Tab.get?_upd] at h
  obtain ⟨g, -, rfl⟩ := Option.map_eq_some_iff.1 h
  exact ⟨rfl, rfl⟩

/-! ### Launches end (R220, R385) -/

/-- A launch that has ended, with nothing of it left, retires. -/
theorem State.launchComplete_eq_retireLaunch {s : State} {lid : Nat} {l : Launch}
    (hl : Tab.get? s.work.launches lid = some l) (hadmitted : l.admitted = true) (hthere : l.retired = false)
    (hended : l.ended = true) (hrec : s.recovering lid = false) (hprog : s.programRuns lid = false)
    (htags : s.launchTags lid = []) (hctx : l.ctx = none) : s.launchComplete lid = s.retireLaunch lid l := by
  simp [State.launchComplete, hl, hadmitted, hthere, hended, hrec, hprog, htags, State.launchContext, hctx]

theorem State.retireLaunch_frame (s : State) (lid : Nat) (l : Launch) :
    (s.retireLaunch lid l).hbm = s.hbm ∧
      (s.retireLaunch lid l).work.launches = Tab.upd s.work.launches lid (fun l => { l with
        retired := true, gangs := [], gridBars := [], scratch := [], status := some (l.status.getD 0) }) ∧
      (s.retireLaunch lid l).work.bundles = Tab.upd s.work.bundles l.bundle (fun b => { b with
        subs := b.subs.mapIdx fun i x => if i = l.sub then { x with status := some (l.status.getD 0) } else x }) := by
  simp only [State.retireLaunch]
  rw [State.dropBad_frame, State.freeCode_frame]
  split <;> exact ⟨rfl, rfl, rfl⟩

/-! ### Code enters a cluster (R32, R397) -/

/-- Each of some places set to its own value reads so. -/
theorem Tab.get?_foldl_set {α β : Type} (l : List β) (key : β → Nat) (f : β → α)
    (hinj : ∀ x ∈ l, ∀ y ∈ l, key x = key y → f x = f y) (t : Tab α) (x : β) (hx : x ∈ l) : Tab.get? (l.foldl (fun t y => Tab.set t (key y) (f y)) t) (key x) = some (f x) := by
  induction l using List.reverseRecOn with
  | nil => cases hx
  | append_singleton l y ih =>
    rw [List.foldl_append, List.foldl_cons, List.foldl_nil, Tab.get?_set]
    have hy : y ∈ l ++ [y] := List.mem_append_right _ (List.mem_singleton_self y)
    split
    · rename_i hk
      rw [hinj x hx y hy hk]
    · rename_i hk
      rcases List.mem_append.1 hx with hx | hx
      · exact ih (fun a ha b hb => hinj a (List.mem_append_left _ ha) b (List.mem_append_left _ hb)) hx
      · rw [List.mem_singleton.1 hx] at hk
        exact absurd rfl hk

theorem Cluster.get?_load_code (c : Cluster) (job : Nat) (k : Kernel) (obj : Nat × Nat) (base : Nat) {n : Nat} {w : Word}
    (hw : k.code[n]? = some w) : Tab.get? (c.load job k obj base).code (base + n) = some w := by
  obtain ⟨hn, hval⟩ := List.getElem?_eq_some_iff.1 hw
  have h := Tab.get?_foldl_set (List.range k.code.length) (base + ·) (fun i => k.code.getD i 0#32)
    (fun x _ y _ h => by rw [Nat.add_left_cancel h]) c.code n (List.mem_range.2 hn)
  refine h.trans ?_
  simp [hw]

theorem Cluster.getD_load_starts (c : Cluster) (job : Nat) (k : Kernel) (obj : Nat × Nat) (base : Nat) {h : Nat}
    (hh : h ∈ k.headers) : Tab.getD (c.load job k obj base).starts (base + h) false = true := by
  have hget := Tab.get?_foldl_set k.headers (base + ·) (fun _ => true) (fun _ _ _ _ _ => rfl) c.starts h hh
  exact congrArg (Option.getD · false) hget

theorem State.digestCode_frame (s : State) (l : Launch) :
    (s.digestCode l).hbm = s.hbm ∧ (s.digestCode l).clusters = s.clusters := by
  unfold State.digestCode
  split <;> exact ⟨rfl, rfl⟩

theorem State.codeLoad_eq {s : State} {cluster lid base : Nat} {l : Launch} {c : Cluster}
    (hl : Tab.get? s.work.launches lid = some l) (hc : Tab.get? s.clusters cluster = some c) (hthere : l.retired = false)
    (hrun : l.status = none) (hcode : s.codeOf cluster lid = none) (hkeeps : s.keepsCluster l.job cluster = true)
    (hroom : c.roomAt base l.kernel.code.length = true) :
    s.codeLoad cluster lid base = (s.updCluster cluster fun c => c.load l.job l.kernel l.codeObj base).digestCode l := by
  simp [State.codeLoad, hl, hc, hthere, hrun, hcode, hkeeps, hroom]

end Sys2Proof.Machine

namespace Sys2Proof

open Machine

/-- Settles O57: each event is the model's own change of blocks, launches or code, where its conditions let it act. -/
theorem placementEvents : Obligations.PlacementEvents := by
  intro s starts answers
  have hstarts : ∀ {t lid l gi}, State.HoldsGang t lid gi (Launch.gangBlocks l gi) → starts t lid l gi := by
    intro t lid l gi h
    refine ⟨h.started, fun ix hix => ?_⟩
    obtain ⟨bid, -, b, hb⟩ := h.runs ix hix
    exact ⟨bid, b, hb⟩
  refine ⟨?_, ?_, ?_, ?_, ?_⟩
  · intro lid l hl hadm hst hret hjob hgang hawake hlinks
    refine ⟨?_, ?_, ?_⟩
    · intro t hfirst hcoop hsaved hleft hplace
      have htakes : Takes s lid l := ⟨hl, hadm, hst, hret, hjob, fun e he hun => .inl (hfirst e he hun)⟩
      obtain ⟨hgrows, -, hholds⟩ := State.placeGang_eq_some hplace hl hgang
      refine ⟨State.exec_placeBlocks hawake hlinks ?_ hgrows.hbm, hstarts hholds⟩
      rw [htakes.placeBlocks_next hsaved]
      simp [hcoop, Launch.nextGang, hleft, State.placeGangs, hplace]
    · intro hfirst hcoop hsaved
      have htakes : Takes s lid l := ⟨hl, hadm, hst, hret, hjob, fun e he hun => .inr ⟨hcoop, hfirst e he hun⟩⟩
      have hnext := htakes.placeBlocks_next hsaved
      rw [if_pos hcoop] at hnext
      constructor
      · intro t hplace
        obtain ⟨hgrows, -, hholds⟩ := State.placeGangs_eq_some hplace hl hgang
        refine ⟨State.exec_placeBlocks hawake hlinks (by rw [hnext, hplace]; rfl) hgrows.hbm, fun gi hlo hhi => ?_⟩
        exact hstarts (hholds gi (Launch.mem_todo.2 ⟨hlo, hhi⟩))
      · intro hplace
        obtain ⟨hexec, -, -⟩ := State.exec_placeBlocks (t := s) hawake hlinks (by rw [hnext, hplace]; rfl) rfl
        rw [hexec, State.blocksMoved_self]
    · intro gi g t hfirst hfind hreseat
      have htakes : Takes s lid l := ⟨hl, hadm, hst, hret, hjob, fun e he hun => .inl (hfirst e he hun)⟩
      have hsaved : s.savedOf lid gi ≠ [] := by simpa using List.find?_some hfind
      obtain ⟨hhbm, hruns⟩ := State.reseat_eq_some hreseat hl (List.mem_of_find?_eq_some hfind) hsaved
      exact ⟨State.exec_placeBlocks hawake hlinks (by rw [htakes.placeBlocks, hfind]; simp [hreseat]) hhbm, hruns⟩
  · intro bid b l hb hl hgroups hcopies
    obtain ⟨hhbm, hblocks, htiles, hhub, hlaunches⟩ := s.blockFreed_frame bid b
    have hget := congrArg (Tab.get? · b.launch) hlaunches
    simp only [Tab.get?_upd, if_true, hl, Option.map_some] at hget
    refine ⟨s.blockFreed bid b, congrArg Host.Outcome.next (State.blockDone_eq_blockFreed hb hgroups hcopies), ?_, hhbm,
      fun e he => ?_, ?_, ?_, fun hlast x y hx hy => ?_⟩
    · rw [hblocks, Tab.get?_del, if_pos rfl]
    · rw [htiles] at he
      exact of_decide_eq_true (List.mem_filter.1 he).2
    · rw [hhub, Tab.getD_set, if_pos rfl]
    · rw [hget]
      rfl
    · have hnone : ((Tab.del s.work.blocks bid).any fun e => e.2.launch = b.launch && e.2.gang = b.gang) = false := by
        rw [List.any_eq_false]
        intro e he hsame
        obtain ⟨hmem, hne⟩ := List.mem_filter.1 he
        obtain ⟨hlaunch, hgang⟩ := by simpa using hsame
        exact hlast e hmem (of_decide_eq_true hne) hlaunch hgang
      rw [hnone, Bool.not_false] at hget
      obtain rfl := Option.some.inj (hget.symm.trans hx)
      exact Launch.gang_afterBlock_last hy
  · intro bid cluster lid l hb hmsg hl
    refine ⟨(s.takeHub cluster).updLaunch lid fun l => { l with blocksDone := l.blocksDone + 1 }, ?_, rfl, ?_, ?_⟩
    · exact congrArg Host.Outcome.next (by simp [State.blockDone, hb, hmsg])
    · exact (Tab.getD_set ..).trans (if_pos rfl)
    · refine (congrArg _ ((Tab.get?_upd ..).trans ((if_pos rfl).trans (congrArg _ hl)))).trans ?_
      rfl
  · intro lid l bd sub x hl hadm hret hended hrec hprog htags hctx hbd hsub hx
    obtain ⟨hhbm, hlaunches, hbundles⟩ := s.retireLaunch_frame lid l
    have hget := congrArg (Tab.get? · lid) hlaunches
    simp only [Tab.get?_upd, if_true, hl, Option.map_some] at hget
    refine ⟨s.retireLaunch lid l, congrArg Host.Outcome.next
      (State.launchComplete_eq_retireLaunch hl hadm hret hended hrec hprog htags hctx), hhbm, ⟨_, hget, rfl, rfl⟩, ?_⟩
    rw [hbundles, Tab.get?_upd, if_pos rfl, hbd]
    simp [hsub, hx]
  · intro cluster lid base l c hl hc hret hst hcode hkeeps hroom
    obtain ⟨hhbm, hclusters⟩ := State.digestCode_frame (s.updCluster cluster fun c => c.load l.job l.kernel l.codeObj base) l
    refine ⟨_, congrArg Host.Outcome.next (State.codeLoad_eq hl hc hret hst hcode hkeeps hroom), hhbm,
      c.load l.job l.kernel l.codeObj base, ?_, rfl, fun n w hw => Cluster.get?_load_code _ _ _ _ _ hw,
      fun h hh => Cluster.getD_load_starts _ _ _ _ _ hh⟩
    rw [hclusters]
    exact (Tab.get?_upd ..).trans ((if_pos rfl).trans (congrArg _ hc))

end Sys2Proof
end

