-- ==== Sys2Proof/Proofs/Completion.lean ====
section
/-!
PROOFS. A word whose meaning changes its own group alone (R90): it completes, the group moves on, and nothing else differs
but which descriptors the group has observed (R210).
-/

namespace Sys2Proof.Machine

/-! ### What moving on leaves unchanged -/

theorem Tab.set_set {α : Type} (t : Tab α) (k : Nat) (x y : α) : Tab.set (Tab.set t k x) k y = Tab.set t k y := by
  induction t with
  | nil => simp [Tab.set]
  | cons e t ih =>
    obtain ⟨n, z⟩ := e
    obtain h | rfl | h := Nat.lt_trichotomy k n
    · simp [Tab.set, h]
    · simp [Tab.set]
    · simp [Tab.set, Nat.lt_asymm h, Nat.ne_of_gt h, ih]

theorem State.setGroup_setGroup (s : State) (gid : Nat) (g g' : Group) :
    (s.setGroup gid g).setGroup gid g' = s.setGroup gid g' := by
  simp [State.setGroup, Tab.set_set]

/-- The end of a clause changes addresses and the repeat only. -/
theorem endClause_frame (l : LaneState) (cl : Clause) (own : Bool) :
    endClause l cl own = { l with
      lpc := (endClause l cl own).lpc, rep := (endClause l cl own).rep, repN := (endClause l cl own).repN } := by
  unfold endClause
  dsimp only
  repeat' split
  all_goals rfl

/-- Moving on changes the place in the clause, the issue slot, the reports' ages, addresses and the repeat only. -/
theorem Group.advance_frame (g : Group) (cl : Clause) (i : Instr) (flow : Flow) :
    g.advance cl i flow = { g with
      slot := g.slot + 1, reports := g.reports.map countReport, clause := (g.advance cl i flow).clause
      lanes := { g.lanes with
        lpc := (g.advance cl i flow).lanes.lpc
        rep := (g.advance cl i flow).lanes.rep
        repN := (g.advance cl i flow).lanes.repN } } := by
  unfold Group.advance
  dsimp only
  split
  · rfl
  · conv_lhs => rw [endClause_frame]

theorem Steady.advance {g : Group} (h : Steady g) (cl : Clause) (i : Instr) (flow : Flow) :
    Steady (g.advance cl i flow) := by
  rw [Group.advance_frame]
  exact ⟨h.step, h.lanes⟩

theorem Steady.fixed {g : Group} (h : Steady g) (native : Bool) (lat : Nat) (ws : List (Target × Word)) :
    Steady (g.fixed native lat ws) := by
  rw [Group.fixed_eq]
  split
  · exact ⟨h.step, h.lanes⟩
  · rw [Group.landAll_frame]
    exact ⟨h.step, h.lanes⟩

theorem Steady.addFlags {g : Group} (h : Steady g) (fl : FFlags) : Steady (g.addFlags fl) := ⟨h.step, h.lanes⟩

theorem Steady.deadlocked_eq_false {g : Group} (h : Steady g) : g.deadlocked = false := by
  simp [Group.deadlocked, h.lanes]

/-! ### Completion -/

/-- A ready word whose meaning leaves its group as `g'` and changes nothing else completes. -/
theorem issue_of_doneG {i : Instr} {s : State} {gid : Nat} {g g' : Group} {cl : Clause}
    {eff : State → Nat → Group → Clause → Eff} (hr : Ready i s gid g cl) (hs : Steady g')
    (he : eff (s.setGroup gid g) gid g cl = doneG (s.setGroup gid g) gid g' .seq) :
    issue i eff s = .next (s.after gid g' cl i) := by
  have hnext := hs.advance cl i .seq
  rw [issue_ready hr, he, doneG, State.setGroup_setGroup]
  exact congrArg Host.Outcome.next
    (finish_after _ gid g' cl i .seq nofun (Tab.get?_set_same ..) hnext.deadlocked_eq_false hnext.step)

/-- What a word observes is all that it changes in a view. -/
theorem State.observe_views (s : State) (gid : Nat) (i : Instr) :
    (s.observe gid i).views.map (fun v => { v with observed := false, lost := none }) =
      s.views.map fun v => { v with observed := false, lost := none } := by
  have hlost : ∀ (v : View) (g : Group),
      { v.overwrite g with observed := false, lost := none } = { v with observed := false, lost := none } := by
    intro v g
    unfold View.overwrite
    split <;> rfl
  unfold State.observe
  repeat' split
  any_goals rfl
  rw [List.map_map]
  refine List.map_congr_left fun v _ => ?_
  simp only [Function.comp_apply]
  split
  · rfl
  · repeat' split
    all_goals simp only [hlost]

theorem State.after_groups (s : State) (gid : Nat) (g' : Group) (cl : Clause) (i : Instr) :
    (s.after gid g' cl i).groups = Tab.set s.groups gid (g'.advance cl i .seq) := by
  simp [State.after, Tab.set_set]

theorem State.after_onlyGroup (s : State) (gid : Nat) (g' : Group) (cl : Clause) (i : Instr) :
    OnlyGroup s (s.after gid g' cl i) gid where
  others k hk := by rw [State.after_groups, Tab.get?_set_ne _ _ hk]
  rest := by
    unfold State.after
    rw [State.observe_frame]
    rfl
  views := (s.setGroup gid g').observe_views gid i

/-- The group after a completed word has every property that moving on keeps. -/
theorem State.after_groupIs {s : State} {gid : Nat} {g' : Group} {cl : Clause} {i : Instr} {P : Group → Prop}
    (h : P (g'.advance cl i .seq)) : (s.after gid g' cl i).GroupIs gid P :=
  ⟨_, by rw [State.after_groups, Tab.get?_set_same], h⟩

end Sys2Proof.Machine
end

