-- ==== Sys2Proof/Proofs/FloatResults.lean ====
section
/-!
PROOFS. The floating-point instructions, the packed ones and the conversions (R145 to R152, R158): the meaning of each is
fpEff with the results and flags that the rules give its lanes.
-/

namespace Sys2Proof.Machine

/-- Results with flags in a ready word's destination (R70). -/
theorem issue_fpEff {i : Instr} {s : State} {gid : Nat} {g : Group} {cl : Clause} (hr : Ready i s gid g cl)
    (hs : Steady g) (lat : Nat) (d : Reg) (f : Group → Nat → Nat × FFlags) :
    issue i (fpEff lat d f) s = .next (s.after gid
      ((g.fixed (s.native g) lat (g.dest d 0 fun k => BitVec.ofNat 32 (f g k).1)).addFlags
        (g.flagsOf d fun k => (f g k).2)) cl i) :=
  issue_of_doneG hr ((hs.fixed ..).addFlags _) rfl

/-- Each instruction that fpResult names has fpEff as its meaning, with fpResult's latency, destination, results and flags.
Of the conversions the two block codes have results of their own (R85). -/
theorem exec_eq_fpEff {i : Instr} {g : Group} {lat : Nat} {d : Reg} {w : Nat × FFlags}
    (h : fpResult i g 0 = some (lat, d, w)) :
    ∃ f, (∀ s, exec i s = issue i (fpEff lat d f) s) ∧ ∀ k, fpResult i g k = some (lat, d, f g k) := by
  cases i
  case cvt d' a code =>
    by_cases h8 : code = 0x24#8
    · subst h8
      cases h
      simp only [exec, execCvt, if_true]
      exact ⟨_, fun _ => rfl, fun _ => rfl⟩
    by_cases h6 : code = 0x25#8
    · subst h6
      cases h
      simp only [exec, execCvt, if_true]
      exact ⟨_, fun _ => rfl, fun _ => rfl⟩
    simp only [fpResult, h8, h6, if_false] at h ⊢
    cases h
    simp only [exec, execCvt, h8, h6, if_false]
    exact ⟨_, fun _ => rfl, fun _ => rfl⟩
  any_goals (cases h; done)
  all_goals
    cases h
    simp only [exec]
    exact ⟨_, fun _ => rfl, fun _ => rfl⟩

end Sys2Proof.Machine

namespace Sys2Proof

open Machine

/-- Settles O10: exec_eq_fpEff gives the instruction's meaning, and issue_fpEff its completion. -/
theorem floatResults : Obligations.FloatResults := by
  intro i s gid g cl lat d w hready hsteady hres
  obtain ⟨f, hexec, hf⟩ := exec_eq_fpEff hres
  simp only [hf, Option.map_some, Option.getD_some]
  rw [hexec, issue_fpEff hready hsteady]

end Sys2Proof
end

