-- ==== Sys2Proof/Proofs/Specials.lean ====
section
/-!
PROOFS. SWR and BSET (R131, R206): each changes fields of its group alone, which moving on keeps.
-/

namespace Sys2Proof.Machine

/-! ### Fields of a group that moving on keeps (R90) -/

section
variable (g : Group) (cl : Clause) (i : Instr) (flow : Flow)

@[simp] theorem Group.advance_v : (g.advance cl i flow).v = g.v := by rw [Group.advance_frame]
@[simp] theorem Group.advance_s : (g.advance cl i flow).s = g.s := by rw [Group.advance_frame]
@[simp] theorem Group.advance_b : (g.advance cl i flow).b = g.b := by rw [Group.advance_frame]
@[simp] theorem Group.advance_bounds : (g.advance cl i flow).bounds = g.bounds := by rw [Group.advance_frame]
@[simp] theorem Group.advance_p : (g.advance cl i flow).lanes.p = g.lanes.p := by rw [Group.advance_frame]
@[simp] theorem Group.advance_agelimit : (g.advance cl i flow).lanes.agelimit = g.lanes.agelimit := by
  rw [Group.advance_frame]
@[simp] theorem Group.advance_rmode : (g.advance cl i flow).lanes.rmode = g.lanes.rmode := by rw [Group.advance_frame]
@[simp] theorem Group.advance_fflags : (g.advance cl i flow).lanes.fflags = g.lanes.fflags := by
  rw [Group.advance_frame]

end

/-! ### What the two words write -/

/-- The group as SWR leaves it before it moves on (R131). -/
def Group.withSpecial (g : Group) (sp : Special) (w : Word) : Group :=
  { g with lanes := (writeSpecial g g.lanes sp w).1, bounds := (writeSpecial g g.lanes sp w).2 }

/-- A write of a special changes the one special it names, if that is writable (R67, R70, R95, R200). -/
theorem Group.withSpecial_eq (g : Group) (sp : Special) (w : Word) :
    g.withSpecial sp w = { g with
      lanes := { g.lanes with
        agelimit := if sp = .agelimit then max 16 (w.toNat % 2 ^ 12) else g.lanes.agelimit
        rmode := if sp = .rmode then BitVec.ofNat 2 w.toNat else g.lanes.rmode
        fflags := if sp = .fflags then BitVec.ofNat 5 w.toNat else g.lanes.fflags }
      bounds := if sp = .bounds then decide (w.toNat % 2 = 1) else g.bounds } := by
  have hbit : w.getLsbD 0 = decide (w.toNat % 2 = 1) := by rw [BitVec.getLsbD, Nat.testBit_zero]
  cases sp
  case agelimit => simp [Group.withSpecial, writeSpecial, bitsOf_eq]
  case bounds => simp only [Group.withSpecial, writeSpecial, hbit, reduceCtorEq, if_true, if_false]
  all_goals rfl

/-- The group as BSET leaves it before it moves on (R206). -/
def Group.withRecord (g : Group) (b : BitVec 5) (a : Reg) : Group :=
  { g with b := (List.range 4).foldl (fun t k => Tab.set t (4 * b.toNat + k) (g.sval a k)) g.b }

/-- The four words of the record are written, every other word stays. -/
theorem Group.getD_withRecord (g : Group) (b : BitVec 5) (a : Reg) (n : Nat) :
    Tab.getD (g.withRecord b a).b n 0#32 = if n / 4 = b.toNat then g.sval a (n % 4) else Tab.getD g.b n 0#32 := by
  have hrange : List.range 4 = [0, 1, 2, 3] := rfl
  simp only [Group.withRecord, hrange, List.foldl_cons, List.foldl_nil, Tab.getD_set]
  by_cases hn : n / 4 = b.toNat
  · rw [if_pos hn]
    have hcases : n % 4 = 0 ∨ n % 4 = 1 ∨ n % 4 = 2 ∨ n % 4 = 3 := by omega
    obtain h | h | h | h := hcases
    all_goals
      have hval : n = 4 * b.toNat + n % 4 := by omega
      rw [h] at hval ⊢
      simp [hval]
  · rw [if_neg hn]
    repeat rw [if_neg (by omega)]

/-! ### Completion -/

section
variable {s : State} {gid : Nat} {g : Group} {cl : Clause} (hs : Steady g) (hact : g.active ≠ 0#64)
include hs hact

theorem exec_swr {a : Reg} {sp : Special} (hr : Ready (.swr a sp) s gid g cl) :
    exec (.swr a sp) s = .next (s.after gid (g.withSpecial sp (g.sval a 0)) cl (.swr a sp)) := by
  simp only [exec, execSwr]
  refine issue_of_doneG hr ?_ ?_
  · rw [Group.withSpecial_eq]
    exact ⟨hs.step, hs.lanes⟩
  · rw [beq_eq_false_iff_ne.2 hact]
    rfl

theorem exec_bset {a : Reg} {b : BitVec 5} (hr : Ready (.bset a b) s gid g cl) :
    exec (.bset a b) s = .next (s.after gid (g.withRecord b a) cl (.bset a b)) := by
  simp only [exec, execBset]
  refine issue_of_doneG hr ⟨hs.step, hs.lanes⟩ ?_
  rw [beq_eq_false_iff_ne.2 hact]
  rfl

end

end Sys2Proof.Machine

namespace Sys2Proof

open Machine

/-- Settles O25: each word leaves its group as withSpecial or withRecord says, and moving on keeps what they write. -/
theorem writesSpecials : Obligations.WritesSpecials := by
  intro s gid g cl hsteady hact
  refine ⟨fun a sp hready => ?_, fun a b hready => ?_⟩
  · refine ⟨_, exec_swr hsteady hact hready, s.after_onlyGroup .., State.after_groupIs ?_⟩
    simp [Group.withSpecial_eq]
  · refine ⟨_, exec_bset hsteady hact hready, s.after_onlyGroup .., State.after_groupIs ⟨?_, ?_, fun n => ?_⟩⟩
    · simp [Group.withRecord]
    · simp [Group.withRecord]
    · rw [Group.advance_b, Group.getD_withRecord]

end Sys2Proof
end

