-- ==== Sys2Proof/Proofs/Grid.lean ====
section
/-!
PROOFS. Rounding a magnitude to a whole number of steps of 2^q (R65, R67), and the finite fp32 codes as numbers of such steps:
none lies strictly between two neighbouring multiples of the step that fp32 rounding takes.
-/

namespace Sys2Proof.Machine

/-! ### Rounding to a grid -/

theorem roundsUp_even {neg odd : Bool} {r q : Nat} :
    roundsUp .even neg odd r q = true ↔ 2 ^ q < 2 * r ∨ (2 ^ q = 2 * r ∧ odd = true) := by
  have hq := Nat.two_pow_pos q
  obtain rfl | hr := Nat.eq_zero_or_pos r
  · simp [roundsUp]
  · simp [roundsUp, Nat.ne_of_gt hr]

/-- Whether a part moves its magnitude up depends only on its ratio to the step. -/
theorem roundsUp_mul_two_pow (mode : RMode) (neg odd : Bool) (r q k : Nat) :
    roundsUp mode neg odd (r * 2 ^ k) (q + k) = roundsUp mode neg odd r q := by
  have hk := Nat.two_pow_pos k
  have hlt : 2 ^ (q + k) < 2 * (r * 2 ^ k) ↔ 2 ^ q < 2 * r := by
    rw [Nat.pow_add, ← Nat.mul_assoc, Nat.mul_lt_mul_right hk]
  have heq : 2 ^ (q + k) = 2 * (r * 2 ^ k) ↔ 2 ^ q = 2 * r := by
    rw [Nat.pow_add, ← Nat.mul_assoc, Nat.mul_left_inj (Nat.ne_of_gt hk)]
  simp [roundsUp, hlt, heq]

/-- How many steps of 2^q the magnitude x is rounded to. -/
def gridRound (mode : RMode) (neg : Bool) (x q : Nat) : Nat :=
  x / 2 ^ q + (roundsUp mode neg (x / 2 ^ q % 2 = 1) (x % 2 ^ q) q).toNat

/-- roundTo rounds to the grid: with x = m × 2^e and the step 2^q, both in units of 2^-b. -/
theorem roundTo_eq_gridRound (mode : RMode) (neg : Bool) (m : Nat) {e q : Int} {b : Nat} (he : -b ≤ e) (hq : -b ≤ q) :
    (roundTo mode neg m e q).1 = gridRound mode neg (m * 2 ^ (e + b).toNat) (q + b).toNat := by
  unfold roundTo gridRound
  by_cases hqe : q ≤ e
  · have hsplit : (e + b).toNat = (e - q).toNat + (q + b).toNat := by omega
    rw [if_pos hqe, hsplit, Nat.pow_add, ← Nat.mul_assoc, Nat.mul_div_cancel _ (Nat.two_pow_pos _), Nat.mul_mod_left]
    simp [roundsUp, Nat.shiftLeft_eq]
  · have hsplit : (q + b).toNat = (q - e).toNat + (e + b).toNat := by omega
    have hdiv : m * 2 ^ (e + b).toNat / 2 ^ (q + b).toNat = m / 2 ^ (q - e).toNat := by
      rw [hsplit, Nat.pow_add, Nat.mul_div_mul_right _ _ (Nat.two_pow_pos _)]
    have hmod : m * 2 ^ (e + b).toNat % 2 ^ (q + b).toNat = m % 2 ^ (q - e).toNat * 2 ^ (e + b).toNat := by
      rw [hsplit, Nat.pow_add, Nat.mul_mod_mul_right]
    rw [if_neg hqe, hdiv, hmod, hsplit, roundsUp_mul_two_pow]
    simp only [Nat.shiftRight_eq_div_pow]
    generalize roundsUp mode neg _ _ _ = up
    cases up <;> rfl

/-- In units of 2^-298 the least step of fp32 is 2^149. A number of fewer than 2^24 steps of 2^j does not lie strictly between
the two multiples of 2^q beside x, where 2^q is the least step or x comes to 2^23 of its steps. -/
theorem mul_two_pow_le_or_ge {x q n j : Nat} (hn : n < 2 ^ 24) (hj : 149 ≤ j) (hq : q = 149 ∨ 2 ^ 23 ≤ x / 2 ^ q) :
    n * 2 ^ j ≤ x / 2 ^ q * 2 ^ q ∨ x / 2 ^ q * 2 ^ q + 2 ^ q ≤ n * 2 ^ j := by
  obtain hqj | hjq := le_or_gt q j
  · obtain ⟨k, rfl⟩ := Nat.exists_eq_add_of_le hqj
    have hsplit : n * 2 ^ (q + k) = n * 2 ^ k * 2 ^ q := by rw [Nat.pow_add]; ring
    rw [hsplit, ← Nat.succ_mul]
    exact (le_or_gt (n * 2 ^ k) (x / 2 ^ q)).imp (Nat.mul_le_mul_right _) (Nat.mul_le_mul_right _)
  · left
    have hlarge := hq.resolve_left (by omega)
    calc n * 2 ^ j ≤ 2 ^ 24 * 2 ^ j := Nat.mul_le_mul_right _ (Nat.le_of_lt hn)
      _ = 2 ^ 23 * 2 ^ (j + 1) := by ring
      _ ≤ 2 ^ 23 * 2 ^ q := Nat.mul_le_mul_left _ (Nat.pow_le_pow_right Nat.two_pos hjq)
      _ ≤ x / 2 ^ q * 2 ^ q := Nat.mul_le_mul_right _ hlarge

/-! ### Finite fp32 codes -/

/-- The significand of a finite fp32 code. -/
def fpSig (w : Nat) : Nat := if w / 2 ^ 23 % 2 ^ 8 = 0 then w % 2 ^ 23 else w % 2 ^ 23 + 2 ^ 23

/-- The exponent of a finite fp32 code over that of the least subnormal. -/
def fpExp (w : Nat) : Nat := w / 2 ^ 23 % 2 ^ 8 - 1

theorem fpSig_lt (w : Nat) : fpSig w < 2 ^ 24 := by
  unfold fpSig
  split <;> omega

theorem fpUnits_eq (w : Nat) : fpUnits w = signedMant (w.testBit 31) (fpSig w * 2 ^ fpExp w) := by
  unfold fpUnits signedMant fpSig fpExp
  by_cases h : w / 2 ^ 23 % 2 ^ 8 = 0
  · simp only [h, if_true, Nat.zero_sub, Nat.pow_zero, Nat.mul_one]
  · simp only [h, if_false]

theorem unpack_fp32 {w : Nat} (h : fpFinite w) :
    fp32.unpack w = .fin (w.testBit 31) (fpSig w) (fpExp w - 149) := by
  obtain ⟨-, hexp⟩ := h
  have hemin : fp32.emin = -149 := by decide
  have hemax : fp32.emax = 255 := by decide
  have hw : fp32.fw = 23 ∧ fp32.ew = 8 := ⟨rfl, rfl⟩
  simp only [FFmt.unpack, hw, bitsOf_eq, hemax, hexp, hemin, if_false, Nat.pow_zero, Nat.div_one, fpSig, fpExp]
  by_cases h0 : w / 2 ^ 23 % 2 ^ 8 = 0
  · simp only [h0, if_true]
    rfl
  · simp only [h0, if_false, FVal.fin.injEq, true_and]
    omega

theorem natAbs_fpUnits (w : Nat) : (fpUnits w).natAbs = fpSig w * 2 ^ fpExp w := by
  rw [fpUnits_eq, signedMant]
  split <;> omega

/-- The code of k steps of 2^d units, but for its sign. -/
def fpCode (d k : Nat) : Nat := if k < 2 ^ 23 then k else d * 2 ^ 23 + k

theorem fpCode_mod_two (d k : Nat) : fpCode d k % 2 = k % 2 := by
  unfold fpCode
  split <;> omega

/-- A magnitude in the finite range has a finite code. -/
theorem fpCode_lt {d k : Nat} (hk : k ≤ 2 ^ 24) (h : k * 2 ^ d ≤ fpMost) : fpCode d k < 255 * 2 ^ 23 := by
  by_contra hlarge
  have hnormal : ¬ k < 2 ^ 23 := fun hlt => hlarge (by rw [fpCode, if_pos hlt]; omega)
  rw [fpCode, if_neg hnormal] at hlarge
  have hd : 254 ≤ d ∨ (k = 2 ^ 24 ∧ 253 ≤ d) := by omega
  have hmost : fpMost < 2 ^ 23 * 2 ^ 254 := by decide
  have hvalue : 2 ^ 23 * 2 ^ 254 ≤ k * 2 ^ d := by
    obtain hd | ⟨rfl, hd⟩ := hd
    · exact Nat.mul_le_mul (Nat.le_of_not_lt hnormal) (Nat.pow_le_pow_right Nat.two_pos hd)
    · calc 2 ^ 23 * 2 ^ 254 = 2 ^ 24 * 2 ^ 253 := by decide
        _ ≤ 2 ^ 24 * 2 ^ d := Nat.mul_le_mul_left _ (Nat.pow_le_pow_right Nat.two_pos hd)
  omega

section
variable {c : Nat} (neg : Bool) (hc : c < 255 * 2 ^ 23)
include hc

theorem testBit_sign_add : (fp32.sign neg + c).testBit 31 = neg := by
  have hsign : fp32.sign neg = if neg then 2 ^ 31 else 0 := rfl
  have hlow : c.testBit 31 = false := Nat.testBit_lt_two_pow (by omega)
  cases neg
  · simp [hsign, hlow]
  · rw [hsign, if_pos rfl, Nat.testBit_two_pow_add_eq, hlow]
    rfl

/-- The sign stands above the other fields. -/
theorem fields_sign_add : (fp32.sign neg + c) / 2 ^ 23 % 2 ^ 8 = c / 2 ^ 23 ∧ (fp32.sign neg + c) % 2 ^ 23 = c % 2 ^ 23 ∧
    (fp32.sign neg + c) % 2 = c % 2 ∧ fp32.sign neg + c < 2 ^ 32 := by
  have hsign : fp32.sign neg = if neg then 2 ^ 31 else 0 := rfl
  rw [hsign]
  split <;> omega

theorem fpFinite_sign_add : fpFinite (fp32.sign neg + c) := by
  obtain ⟨hexp, -, -, hlt⟩ := fields_sign_add neg hc
  refine ⟨hlt, ?_⟩
  rw [hexp]
  omega

end

/-- The code of k steps stands for them: a subnormal one has the least step. -/
theorem fpUnits_sign_add_fpCode (neg : Bool) {d k : Nat} (hk : k ≤ 2 ^ 24) (hd : d = 0 ∨ 2 ^ 23 ≤ k)
    (hc : fpCode d k < 255 * 2 ^ 23) : fpUnits (fp32.sign neg + fpCode d k) = signedMant neg (k * 2 ^ d) := by
  obtain ⟨hexp, hfrac, -, -⟩ := fields_sign_add neg hc
  rw [fpUnits_eq, testBit_sign_add neg hc]
  refine congrArg _ ?_
  rw [fpSig, fpExp, hexp, hfrac]
  unfold fpCode
  by_cases hsub : k < 2 ^ 23
  · obtain rfl : d = 0 := by omega
    have hzero : k / 2 ^ 23 = 0 := by omega
    simp only [if_pos hsub, hzero, if_true]
    omega
  · have hne : ¬ (d * 2 ^ 23 + k) / 2 ^ 23 = 0 := by omega
    simp only [if_neg hsub, hne, if_false]
    by_cases htop : k = 2 ^ 24
    · subst htop
      have h1 : (d * 2 ^ 23 + 2 ^ 24) / 2 ^ 23 - 1 = d + 1 := by omega
      have h2 : (d * 2 ^ 23 + 2 ^ 24) % 2 ^ 23 + 2 ^ 23 = 2 ^ 23 := by omega
      rw [h1, h2]
      ring
    · have h1 : (d * 2 ^ 23 + k) / 2 ^ 23 - 1 = d := by omega
      have h2 : (d * 2 ^ 23 + k) % 2 ^ 23 + 2 ^ 23 = k := by omega
      rw [h1, h2]

end Sys2Proof.Machine
end

