-- ==== Sys2Proof/Proofs/Rounding.lean ====
section
/-!
PROOFS. fp32 sums, differences, products and fused products are the exact results rounded once (R65, R67, R146, R152): the
rounding to the grid meets RoundsTo, FFmt.round answers its code, and the model's dyadic numbers are exact.
-/

namespace Sys2Proof.Machine

@[simp] theorem signedMant_true (m : Nat) : signedMant true m = -(m : Int) := rfl

@[simp] theorem signedMant_false (m : Nat) : signedMant false m = m := rfl

@[simp] theorem natAbs_signedMant (neg : Bool) (m : Nat) : (signedMant neg m).natAbs = m := by
  cases neg <;> simp

theorem signedMant_not (neg : Bool) (m : Nat) : signedMant (!neg) m = -signedMant neg m := by
  cases neg <;> simp

theorem signedMant_mul_two_pow (neg : Bool) (m k : Nat) : signedMant neg m * 2 ^ k = signedMant neg (m * 2 ^ k) := by
  cases neg <;> simp

theorem signedMant_mul (neg neg' : Bool) (m n : Nat) :
    signedMant neg m * signedMant neg' n = signedMant (neg != neg') (m * n) := by
  cases neg <;> cases neg' <;> simp

/-! ### What the grid's rounding takes in each mode -/

theorem gridRound_even (neg : Bool) (x q : Nat) :
    (gridRound .even neg x q = x / 2 ^ q ∧ 2 * (x % 2 ^ q) ≤ 2 ^ q ∧
      (2 * (x % 2 ^ q) = 2 ^ q → x / 2 ^ q % 2 = 0)) ∨
    (gridRound .even neg x q = x / 2 ^ q + 1 ∧ 2 ^ q ≤ 2 * (x % 2 ^ q) ∧
      (2 * (x % 2 ^ q) = 2 ^ q → x / 2 ^ q % 2 = 1)) := by
  unfold gridRound
  by_cases h : roundsUp .even neg (x / 2 ^ q % 2 = 1) (x % 2 ^ q) q = true
  · have hup := roundsUp_even.1 h
    rw [decide_eq_true_iff] at hup
    rw [h]
    exact .inr ⟨rfl, by omega, by omega⟩
  · have hup := mt roundsUp_even.2 h
    rw [decide_eq_true_iff] at hup
    rw [eq_false_of_ne_true h]
    exact .inl ⟨rfl, by omega, by omega⟩

theorem gridRound_zero (neg : Bool) (x q : Nat) : gridRound .zero neg x q = x / 2 ^ q := by
  simp [gridRound, roundsUp]

theorem gridRound_up_negative (x q : Nat) : gridRound .up true x q = x / 2 ^ q := by
  simp [gridRound, roundsUp]

theorem gridRound_up_positive (x q : Nat) :
    gridRound .up false x q = if x % 2 ^ q = 0 then x / 2 ^ q else x / 2 ^ q + 1 := by
  by_cases h : x % 2 ^ q = 0 <;> simp [gridRound, roundsUp, h]

theorem gridRound_down (neg : Bool) (x q : Nat) : gridRound .down neg x q = gridRound .up (!neg) x q := by
  simp [gridRound, roundsUp]

/-- A magnitude that moves up a step is no multiple of it. -/
theorem gridRound_cases (mode : RMode) (neg : Bool) (x q : Nat) :
    gridRound mode neg x q = x / 2 ^ q ∨ (gridRound mode neg x q = x / 2 ^ q + 1 ∧ x % 2 ^ q ≠ 0) := by
  unfold gridRound
  by_cases hr : x % 2 ^ q = 0
  · exact .inl (by rw [hr]; rfl)
  · cases roundsUp mode neg _ _ _
    · exact .inl rfl
    · exact .inr ⟨rfl, hr⟩

/-! ### It is the rounding of the rules

A magnitude x, in units of 2^-298, lies between the neighbours A = ⌊x / 2^q⌋ × 2^q and A + 2^q, and the magnitude of each
finite number u is at most the one or at least the other. Each clause compares u with the neighbour v that its mode takes. -/

/-- The number u does not lie strictly between the two multiples of 2^q beside x, nor between their negatives. -/
def Beside (x q : Nat) (u : Int) : Prop := u.natAbs ≤ x / 2 ^ q * 2 ^ q ∨ x / 2 ^ q * 2 ^ q + 2 ^ q ≤ u.natAbs

theorem beside_fpUnits {x q : Nat} (hq : q = 149 ∨ 2 ^ 23 ≤ x / 2 ^ q) (c : Nat) : Beside x q (fpUnits c * 2 ^ 149) := by
  have habs : (fpUnits c * 2 ^ 149).natAbs = fpSig c * 2 ^ (fpExp c + 149) := by
    rw [Int.natAbs_mul, natAbs_fpUnits, Nat.mul_assoc, Nat.pow_add]
    rfl
  rw [Beside, habs]
  exact mul_two_pow_le_or_ge (fpSig_lt c) (Nat.le_add_left ..) hq

section
variable {neg : Bool} {x q : Nat} {u v : Int} (hu : Beside x q u)
include hu

/-- To nearest: only another finite number as near, with the steps odd, would have the even code. -/
theorem nearest_of_gridRound (hx : 0 < x) (hv : v = signedMant neg (gridRound .even neg x q * 2 ^ q)) :
    (v - signedMant neg x).natAbs ≤ (u - signedMant neg x).natAbs ∧
    ((v - signedMant neg x).natAbs = (u - signedMant neg x).natAbs → u ≠ v → gridRound .even neg x q % 2 = 0) := by
  have hsplit : x / 2 ^ q * 2 ^ q + x % 2 ^ q = x := Nat.div_add_mod' x (2 ^ q)
  unfold Beside at hu
  obtain ⟨hround, hhalf, heven⟩ | ⟨hround, hhalf, heven⟩ := gridRound_even neg x q
  · rw [hround] at hv ⊢
    cases neg <;> simp only [signedMant_true, signedMant_false] at hv ⊢ <;> omega
  · rw [hround, Nat.add_one_mul] at hv
    rw [hround]
    cases neg <;> simp only [signedMant_true, signedMant_false] at hv ⊢ <;> omega

/-- Toward zero. -/
theorem truncated_of_gridRound (hv : v = signedMant neg (gridRound .zero neg x q * 2 ^ q)) :
    v.natAbs ≤ x ∧ (u.natAbs ≤ x → u.natAbs ≤ v.natAbs) := by
  have hsplit : x / 2 ^ q * 2 ^ q + x % 2 ^ q = x := Nat.div_add_mod' x (2 ^ q)
  have hrem : x % 2 ^ q < 2 ^ q := Nat.mod_lt _ (Nat.two_pow_pos q)
  unfold Beside at hu
  rw [hv, gridRound_zero, natAbs_signedMant]
  omega

/-- To the next one above. -/
theorem above_of_gridRound (hv : v = signedMant neg (gridRound .up neg x q * 2 ^ q)) :
    signedMant neg x ≤ v ∧ (signedMant neg x ≤ u → v ≤ u) := by
  have hsplit : x / 2 ^ q * 2 ^ q + x % 2 ^ q = x := Nat.div_add_mod' x (2 ^ q)
  have hrem : x % 2 ^ q < 2 ^ q := Nat.mod_lt _ (Nat.two_pow_pos q)
  unfold Beside at hu
  cases neg
  · rw [gridRound_up_positive] at hv
    split at hv
    · rw [signedMant_false] at hv ⊢
      omega
    · rw [signedMant_false, Nat.add_one_mul] at hv
      rw [signedMant_false]
      omega
  · rw [gridRound_up_negative, signedMant_true] at hv
    rw [signedMant_true]
    omega

/-- To the next one below: above, with the signs changed. -/
theorem below_of_gridRound (hv : v = signedMant neg (gridRound .down neg x q * 2 ^ q)) :
    v ≤ signedMant neg x ∧ (u ≤ signedMant neg x → u ≤ v) := by
  have hneg : -v = signedMant (!neg) (gridRound .up (!neg) x q * 2 ^ q) := by
    rw [hv, gridRound_down, signedMant_not]
  have habove := above_of_gridRound (u := -u) (by rwa [Beside, Int.natAbs_neg]) hneg
  rw [signedMant_not] at habove
  omega

end

/-- The code of the steps taken, with their sign and parity, is the number rounded once. -/
theorem roundsTo_of_gridRound {mode : RMode} {neg : Bool} {x q w : Nat} (hx : 0 < x)
    (hq : q = 149 ∨ 2 ^ 23 ≤ x / 2 ^ q) (hfin : fpFinite w) (hsign : w.testBit 31 = neg)
    (hval : fpUnits w * 2 ^ 149 = signedMant neg (gridRound mode neg x q * 2 ^ q))
    (hpar : w % 2 = gridRound mode neg x q % 2) : RoundsTo mode (signedMant neg x) w where
  finite := hfin
  sign := by
    rw [hsign]
    cases neg <;> simp
  even := by
    rintro rfl c -
    obtain ⟨hle, htie⟩ := nearest_of_gridRound (beside_fpUnits hq c) hx hval
    rw [hpar]
    exact ⟨hle, fun heq hne => htie heq (by omega)⟩
  zero := by
    rintro rfl
    rw [natAbs_signedMant]
    refine ⟨(truncated_of_gridRound (beside_fpUnits hq 0) hval).1, fun c _ hc => ?_⟩
    have hle := (truncated_of_gridRound (beside_fpUnits hq c) hval).2 hc
    omega
  up := by
    rintro rfl
    refine ⟨(above_of_gridRound (beside_fpUnits hq 0) hval).1, fun c _ hc => ?_⟩
    have hle := (above_of_gridRound (beside_fpUnits hq c) hval).2 hc
    omega
  down := by
    rintro rfl
    refine ⟨(below_of_gridRound (beside_fpUnits hq 0) hval).1, fun c _ hc => ?_⟩
    have hle := (below_of_gridRound (beside_fpUnits hq c) hval).2 hc
    omega

/-- Either zero is 0 rounded. -/
theorem roundsTo_zero (mode : RMode) (neg : Bool) : RoundsTo mode 0 (fp32.zero neg) := by
  have hfin : fpFinite (fp32.zero neg) := fpFinite_sign_add (c := 0) neg (by decide)
  have hval : fpUnits (fp32.zero neg) = 0 := by cases neg <;> decide
  exact {
    finite := hfin
    sign := by simp
    even := fun _ c _ => by rw [hval]; omega
    zero := fun _ => ⟨by rw [hval]; omega, fun c _ hc => by rw [hval]; omega⟩
    up := fun _ => ⟨by rw [hval]; omega, fun c _ hc => by rw [hval]; omega⟩
    down := fun _ => ⟨by rw [hval]; omega, fun c _ hc => by rw [hval]; omega⟩ }

/-! ### FFmt.round -/

theorem two_pow_bitLen {m : Nat} (h : m ≠ 0) : 2 ^ bitLen m ≤ 2 * m ∧ m < 2 ^ bitLen m ∧ 0 < bitLen m := by
  have hle := Nat.log2_self_le h
  rw [bitLen, if_neg h]
  exact ⟨by rw [Nat.pow_succ]; omega, Nat.lt_log2_self, Nat.succ_pos _⟩

/-- The exponent of the step that fp32 rounding takes, over that of the least subnormal (R65). -/
def fpStep (m : Nat) (e : Int) : Nat := ((bitLen m : Int) + e - 24 + 149).toNat

/-- How many of those steps m × 2^e is rounded to. -/
def fpSteps (mode : RMode) (neg : Bool) (m : Nat) (e : Int) : Nat :=
  gridRound mode neg (m * 2 ^ (e + 298).toNat) (fpStep m e + 149)

/-- With that step a number has at most 24 bits, and 24 unless the step is the least. -/
theorem steps_bounds {m : Nat} {e : Int} (hm : m ≠ 0) (he : -298 ≤ e) :
    m * 2 ^ (e + 298).toNat / 2 ^ (fpStep m e + 149) < 2 ^ 24 ∧
    (fpStep m e = 0 ∨ 2 ^ 23 ≤ m * 2 ^ (e + 298).toNat / 2 ^ (fpStep m e + 149)) := by
  obtain ⟨hlow, hhigh, hpos⟩ := two_pow_bitLen hm
  have hmul := Nat.two_pow_pos (e + 298).toNat
  rw [Nat.div_lt_iff_lt_mul (Nat.two_pow_pos _), Nat.le_div_iff_mul_le (Nat.two_pow_pos _), ← Nat.pow_add, ← Nat.pow_add]
  constructor
  · calc m * 2 ^ (e + 298).toNat < 2 ^ bitLen m * 2 ^ (e + 298).toNat := Nat.mul_lt_mul_of_pos_right hhigh hmul
      _ = 2 ^ (bitLen m + (e + 298).toNat) := (Nat.pow_add ..).symm
      _ ≤ 2 ^ (24 + (fpStep m e + 149)) := Nat.pow_le_pow_right Nat.two_pos (by unfold fpStep; omega)
  · by_cases h0 : fpStep m e = 0
    · exact .inl h0
    · right
      have hexp : 23 + (fpStep m e + 149) + 1 = bitLen m + (e + 298).toNat := by unfold fpStep at h0 ⊢; omega
      have hdouble : 2 * 2 ^ (23 + (fpStep m e + 149)) ≤ 2 * (m * 2 ^ (e + 298).toNat) := by
        calc 2 * 2 ^ (23 + (fpStep m e + 149)) = 2 ^ (23 + (fpStep m e + 149) + 1) := by rw [Nat.pow_succ, Nat.mul_comm]
          _ = 2 ^ bitLen m * 2 ^ (e + 298).toNat := by rw [hexp, Nat.pow_add]
          _ ≤ 2 * m * 2 ^ (e + 298).toNat := Nat.mul_le_mul_right _ hlow
          _ = 2 * (m * 2 ^ (e + 298).toNat) := Nat.mul_assoc ..
      exact Nat.le_of_mul_le_mul_left hdouble Nat.two_pos

/-- The steps taken of a number in the finite range are in it: its largest number is not passed. -/
theorem gridRound_le_fpMost {x d : Nat} (mode : RMode) (neg : Bool) (hd : d = 0 ∨ 2 ^ 23 ≤ x / 2 ^ (d + 149))
    (hx : x ≤ fpMost * 2 ^ 149) : gridRound mode neg x (d + 149) * 2 ^ d ≤ fpMost := by
  have hsplit : x / 2 ^ (d + 149) * 2 ^ (d + 149) + x % 2 ^ (d + 149) = x := Nat.div_add_mod' x _
  have hmost : fpMost * 2 ^ 149 = (2 ^ 24 - 1) * 2 ^ (253 + 149) := by
    rw [fpMost, Nat.pow_add, Nat.mul_assoc]
  have hbeside := mul_two_pow_le_or_ge (x := x) (q := d + 149) (n := 2 ^ 24 - 1) (j := 253 + 149) (by decide) (by decide)
    (hd.imp_left fun h => by rw [h])
  rw [← hmost] at hbeside
  have hle : gridRound mode neg x (d + 149) * 2 ^ (d + 149) ≤ fpMost * 2 ^ 149 := by
    obtain hround | ⟨hround, hrem⟩ := gridRound_cases mode neg x (d + 149)
    · rw [hround]
      omega
    · rw [hround, Nat.add_one_mul]
      omega
  rw [Nat.pow_add, ← Nat.mul_assoc] at hle
  exact Nat.le_of_mul_le_mul_right hle (Nat.two_pow_pos 149)

/-- Where their code is finite, FFmt.round answers it, with the sign. -/
theorem round_fp32 {mode : RMode} {neg : Bool} {m : Nat} {e : Int} (hm : m ≠ 0) (he : -298 ≤ e)
    (hfin : fpCode (fpStep m e) (fpSteps mode neg m e) < 255 * 2 ^ 23) :
    (fp32.round mode neg m e).1 = fp32.sign neg + fpCode (fpStep m e) (fpSteps mode neg m e) := by
  have hemin : fp32.emin = -149 := by decide
  have hemax : fp32.emax = 255 := by decide
  have hfw : fp32.fw = 23 := rfl
  have hq : (if (bitLen m : Int) + e - ((23 : Nat) + 1) < -149 then -149 else (bitLen m : Int) + e - ((23 : Nat) + 1)) =
      (fpStep m e : Int) - 149 := by
    unfold fpStep
    split <;> omega
  have hround : (roundTo mode neg m e ((fpStep m e : Int) - 149)).1 = fpSteps mode neg m e := by
    have hstep : ((fpStep m e : Int) - 149 + (298 : Nat)).toNat = fpStep m e + 149 := by omega
    rw [roundTo_eq_gridRound (b := 298) mode neg m he (by omega), hstep]
    rfl
  have hcode : ((fpStep m e : Int) - 149 - -149).toNat = fpStep m e := by omega
  rw [← hround, fpCode] at hfin ⊢
  simp only [FFmt.round, hm, hemin, hemax, hfw, hq, hcode, Nat.not_le.2 hfin, if_false]

/-- A number in the finite range, in units of 2^-298, rounded once (R65, R67). -/
theorem roundsTo_round (mode : RMode) (neg : Bool) {m : Nat} {e : Int} (he : -298 ≤ e)
    (hx : m * 2 ^ (e + 298).toNat ≤ fpMost * 2 ^ 149) :
    RoundsTo mode (signedMant neg (m * 2 ^ (e + 298).toNat)) (fp32.round mode neg m e).1 := by
  by_cases hm : m = 0
  · subst hm
    have hzero : signedMant neg (0 * 2 ^ (e + 298).toNat) = 0 := by cases neg <;> simp
    rw [hzero]
    exact roundsTo_zero mode neg
  have hpos : 0 < m * 2 ^ (e + 298).toNat := Nat.mul_pos (Nat.pos_of_ne_zero hm) (Nat.two_pow_pos _)
  obtain ⟨hbits, hnormal⟩ := steps_bounds hm he
  have hcases := gridRound_cases mode neg (m * 2 ^ (e + 298).toNat) (fpStep m e + 149)
  have hk : fpSteps mode neg m e ≤ 2 ^ 24 := by unfold fpSteps; omega
  have hd : fpStep m e = 0 ∨ 2 ^ 23 ≤ fpSteps mode neg m e := by unfold fpSteps; omega
  have hcode := fpCode_lt hk (gridRound_le_fpMost mode neg hnormal hx)
  obtain ⟨-, -, hpar, -⟩ := fields_sign_add neg hcode
  rw [round_fp32 hm he hcode]
  refine roundsTo_of_gridRound (q := fpStep m e + 149) hpos (hnormal.imp_left fun h => by rw [h])
    (fpFinite_sign_add neg hcode) (testBit_sign_add neg hcode) ?_ (hpar.trans (fpCode_mod_two ..))
  rw [fpUnits_sign_add_fpCode neg hk hd hcode, signedMant_mul_two_pow, Nat.pow_add, fpSteps, Nat.mul_assoc]

/-! ### Exact dyadic numbers -/

/-- The value of a dyadic number in units of 2^-b. -/
def dyUnits (b : Nat) (p : Int × Int) : Int := p.1 * 2 ^ (p.2 + b).toNat

theorem dyUnits_dyAdd {b : Nat} {p r : Int × Int} (hp : -b ≤ p.2) (hr : -b ≤ r.2) :
    dyUnits b (dyAdd p r) = dyUnits b p + dyUnits b r ∧ -b ≤ (dyAdd p r).2 := by
  unfold dyAdd
  by_cases hp0 : p.1 = 0
  · simp [dyUnits, hp0, hr]
  by_cases hr0 : r.1 = 0
  · simp [dyUnits, hp0, hr0, hp]
  simp only [hp0, hr0, if_false]
  by_cases hle : p.2 ≤ r.2
  · have hsplit : (r.2 + b).toNat = (r.2 - p.2).toNat + (p.2 + b).toNat := by omega
    rw [if_pos hle, dyUnits, dyUnits, dyUnits, hsplit, pow_add]
    exact ⟨by ring, hp⟩
  · have hsplit : (p.2 + b).toNat = (p.2 - r.2).toNat + (r.2 + b).toNat := by omega
    rw [if_neg hle, dyUnits, dyUnits, dyUnits, hsplit, pow_add]
    exact ⟨by ring, hr⟩

theorem dyUnits_dyMul {b c : Nat} {p r : Int × Int} (hp : -b ≤ p.2) (hr : -c ≤ r.2) :
    dyUnits (b + c) (dyMul p r) = dyUnits b p * dyUnits c r := by
  have hsplit : (p.2 + r.2 + (b + c : Nat)).toNat = (p.2 + b).toNat + (r.2 + c).toNat := by omega
  rw [dyMul, dyUnits, dyUnits, dyUnits, hsplit, pow_add]
  ring

/-- A dyadic number in the finite range rounded once. -/
theorem roundsTo_roundInt (mode : RMode) (zneg : Bool) {p : Int × Int} (he : -298 ≤ p.2)
    (hx : (dyUnits 298 p).natAbs ≤ fpMost * 2 ^ 149) :
    RoundsTo mode (dyUnits 298 p) (fp32.roundInt mode zneg p.1 p.2).1 := by
  unfold FFmt.roundInt
  split
  · next h0 =>
    rw [dyUnits, h0, Int.zero_mul]
    exact roundsTo_zero mode zneg
  · have hval : dyUnits 298 p = signedMant (decide (p.1 < 0)) (p.1.natAbs * 2 ^ (p.2 + 298).toNat) := by
      have hmant : p.1 = signedMant (decide (p.1 < 0)) p.1.natAbs := by
        by_cases h : p.1 < 0 <;> simp only [h, decide_true, decide_false, signedMant_true, signedMant_false] <;> omega
      conv_lhs => rw [dyUnits, hmant, signedMant_mul_two_pow]
      rfl
    rw [hval, natAbs_signedMant] at hx
    rw [hval]
    exact roundsTo_round mode _ he hx

/-- An exact sum in the finite range rounded once. -/
theorem roundsTo_dyAdd (mode : RMode) (zneg : Bool) {p r : Int × Int} {x : Int} (hp : -298 ≤ p.2) (hr : -298 ≤ r.2)
    (hsum : dyUnits 298 p + dyUnits 298 r = x) (hx : x.natAbs ≤ fpMost * 2 ^ 149) :
    RoundsTo mode x (fp32.roundInt mode zneg (dyAdd p r).1 (dyAdd p r).2).1 := by
  obtain ⟨hval, hexp⟩ := dyUnits_dyAdd (b := 298) hp hr
  rw [hsum] at hval
  rw [← hval] at hx ⊢
  exact roundsTo_roundInt mode zneg hexp hx

/-! ### Operands -/

/-- The dyadic number that a finite code stands for. -/
def fpDyadic (w : Nat) : Int × Int := (signedMant (w.testBit 31) (fpSig w), fpExp w - 149)

theorem neg149_le_fpDyadic (w : Nat) : -149 ≤ (fpDyadic w).2 := by
  unfold fpDyadic
  omega

theorem neg298_le_fpDyadic (w : Nat) : -298 ≤ (fpDyadic w).2 := Int.le_trans (by decide) (neg149_le_fpDyadic w)

theorem dyUnits_fpDyadic (b w : Nat) : dyUnits (149 + b) (fpDyadic w) = fpUnits w * 2 ^ b := by
  have hexp : ((fpExp w : Int) - 149 + (149 + b : Nat)).toNat = fpExp w + b := by omega
  rw [dyUnits, fpDyadic, hexp, fpUnits_eq, signedMant_mul_two_pow, signedMant_mul_two_pow, Nat.pow_add, Nat.mul_assoc]

/-- With its mantissa negated a dyadic number is negated. -/
theorem dyUnits_neg (b : Nat) (p : Int × Int) : dyUnits b (-p.1, p.2) = -dyUnits b p := Int.neg_mul ..

/-- The exact product of two finite numbers. -/
theorem dyUnits_dyMul_fpDyadic (a b : Nat) :
    dyUnits 298 (dyMul (fpDyadic a) (fpDyadic b)) = fpUnits a * fpUnits b := by
  have hprod := dyUnits_dyMul (b := 149) (c := 149) (neg149_le_fpDyadic a) (neg149_le_fpDyadic b)
  rwa [dyUnits_fpDyadic 0, dyUnits_fpDyadic 0, pow_zero, Int.mul_one, Int.mul_one] at hprod

section
variable {a b c : Nat} (mode : RMode) (ha : fpFinite a) (hb : fpFinite b)
include ha hb

theorem roundsTo_add (hx : ((fpUnits a + fpUnits b) * 2 ^ 149).natAbs ≤ fpMost * 2 ^ 149) :
    RoundsTo mode ((fpUnits a + fpUnits b) * 2 ^ 149) (fp32.add mode a b).1 := by
  rw [FFmt.add, unpack_fp32 ha, unpack_fp32 hb]
  refine roundsTo_dyAdd (p := fpDyadic a) (r := fpDyadic b) mode _ (neg298_le_fpDyadic a)
    (neg298_le_fpDyadic b) ?_ hx
  rw [dyUnits_fpDyadic 149, dyUnits_fpDyadic 149, Int.add_mul]

theorem roundsTo_sub (hx : ((fpUnits a - fpUnits b) * 2 ^ 149).natAbs ≤ fpMost * 2 ^ 149) :
    RoundsTo mode ((fpUnits a - fpUnits b) * 2 ^ 149) (fp32.sub mode a b).1 := by
  rw [FFmt.sub, unpack_fp32 ha, unpack_fp32 hb, FVal.negate, FFmt.addV, signedMant_not]
  refine roundsTo_dyAdd (p := fpDyadic a) (r := (-(fpDyadic b).1, (fpDyadic b).2)) mode _
    (neg298_le_fpDyadic a) (neg298_le_fpDyadic b) ?_ hx
  rw [dyUnits_neg, dyUnits_fpDyadic 149, dyUnits_fpDyadic 149, Int.sub_mul, Int.sub_eq_add_neg]

theorem roundsTo_mul (hx : (fpUnits a * fpUnits b).natAbs ≤ fpMost * 2 ^ 149) :
    RoundsTo mode (fpUnits a * fpUnits b) (fp32.mul mode a b).1 := by
  have hval := dyUnits_dyMul_fpDyadic a b
  rw [dyMul, dyUnits, fpDyadic, fpDyadic, signedMant_mul, signedMant_mul_two_pow] at hval
  rw [FFmt.mul, unpack_fp32 ha, unpack_fp32 hb]
  rw [← hval, natAbs_signedMant] at hx
  rw [← hval]
  exact roundsTo_round mode _ (by omega) hx

theorem roundsTo_fma (hc : fpFinite c)
    (hx : (fpUnits a * fpUnits b + fpUnits c * 2 ^ 149).natAbs ≤ fpMost * 2 ^ 149) :
    RoundsTo mode (fpUnits a * fpUnits b + fpUnits c * 2 ^ 149) (fp32.fma mode a b c).1 := by
  rw [FFmt.fma, unpack_fp32 ha, unpack_fp32 hb, unpack_fp32 hc]
  refine roundsTo_dyAdd (p := dyMul (fpDyadic a) (fpDyadic b)) (r := fpDyadic c) mode _
    (Int.add_le_add (neg149_le_fpDyadic a) (neg149_le_fpDyadic b)) (neg298_le_fpDyadic c) ?_ hx
  rw [dyUnits_dyMul_fpDyadic, dyUnits_fpDyadic 149]

end

end Sys2Proof.Machine

namespace Sys2Proof

open Machine

/-- Settles O12: each operation rounds an exact dyadic number, and the rounding takes the neighbour on its grid that the mode
asks for, between which and the other lies no finite number. -/
theorem roundedOnce : Obligations.RoundedOnce := by
  intro mode a b c ha hb hc inRange
  exact ⟨roundsTo_add mode ha hb, roundsTo_sub mode ha hb, roundsTo_mul mode ha hb, roundsTo_fma mode ha hb hc⟩

end Sys2Proof
end

