-- ==== Sys2Proof/Proofs/Turns.lean ====
section
/-!
PROOFS. One step (R103, R48, R54): the slice whose turn it is runs the word that its chosen group stands at, and an event's
turn is the event's meaning.
-/

namespace Sys2Proof.Machine

/-! ### The chosen group is a ready one (R103) -/

theorem State.mem_of_starving {s : State} {ready : List Nat} {k : Nat} (h : s.starving ready = some k) : k ∈ ready := by
  unfold State.starving at h
  dsimp only at h
  split at h
  · exact List.mem_of_find?_eq_some h
  · cases h

theorem State.mem_of_choose {s : State} {ready : List Nat} {k : Nat} (h : s.choose ready = some k) : k ∈ ready := by
  unfold State.choose at h
  split at h
  case h_1 hstarving => exact Option.some.inj h ▸ s.mem_of_starving hstarving
  split at h
  case h_1 hrecov => exact Option.some.inj h ▸ List.mem_of_find?_eq_some hrecov
  case h_2 => exact List.mem_of_head? h

/-- The chosen group's issue comes to something: a group that is not ready is not chosen. -/
theorem State.trial_of_choose {s : State} {run : Instr → State → Res} {active all : List Nat} {k : Nat}
    (h : s.choose (active.filter fun j => (all.filter fun j => (s.trial run j).isSome).contains j) = some k) :
    ∃ r, s.trial run k = some r := by
  have hready := (List.mem_filter.1 (s.mem_of_choose h)).2
  exact Option.isSome_iff_exists.1 (List.mem_filter.1 (List.contains_iff_mem.1 hready)).2

/-! ### What a group in a clause issues -/

/-- Results that land before a word leave the code as it is, so that the word is the same. -/
theorem State.runWord_eq (run : Instr → State → Res) (s : State) (gid : Nat) (g : Group) (cl : Clause) :
    s.runWord run gid g cl = run (wordStep (s.fetch g cl))
      { (if s.waitsAt g cl then s.updGroup gid Group.flush else s) with cur := some gid, waited := false } := by
  unfold State.runWord
  split <;> rfl

/-- A group in the middle of a clause that is ready runs its word. -/
theorem State.runWord_of_trial {s : State} {run : Instr → State → Res} {gid : Nat} {g : Group} {cl : Clause} {r : Res}
    (hg : Tab.get? s.groups gid = some g) (hcl : g.clause = some cl) (h : s.trial run gid = some r) :
    s.runWord run gid g cl = r := by
  simp only [State.trial, hg, hcl] at h
  split at h
  · cases h
  · generalize s.runWord run gid g cl = answer at h ⊢
    cases answer with
    | next t =>
      dsimp only at h
      split at h
      · cases h
      · exact Option.some.inj h
    | fault f => exact Option.some.inj h
    | refused f => exact Option.some.inj h

theorem wordStep_of_decoded {w x : Word} {i : Instr}
    (h : decodeWords w (some x) = .ok i ∨
      ((∃ e, decodeWords w (some x) = .error e) ∧ i = .illegalInstruction w x)) : wordStep (w, x) = i := by
  unfold wordStep
  obtain h | ⟨⟨e, h⟩, rfl⟩ := h
  · rw [h]
  · rw [h]

end Sys2Proof.Machine

namespace Sys2Proof

open Machine

/-- Settles O4: what the chosen group's issue comes to is its word run, and the slice cycle adds its counts. -/
theorem stepRunsDecoded : Obligations.StepRunsDecoded := by
  constructor
  · intro s turn rest core sl errors gid g cl i hturns hact s₁ active all s₂ ready hchoose hg hcl w x hdecoded s₃
    obtain ⟨r, htrial⟩ := State.trial_of_choose hchoose
    have hword : exec i { s₃ with cur := some gid, waited := false } = r := by
      rw [← wordStep_of_decoded hdecoded]
      exact (s₂.runWord_eq exec gid g cl).symm.trans (State.runWord_of_trial hg hcl htrial)
    have hstep : step s = s₁.sliceCycle exec core sl errors := by
      simp only [step, stepWith, State.nextTurn, hturns, hact]
      rfl
    have hactive : s₁.activeOf core sl = active := rfl
    rw [hword, hstep, State.sliceCycle, hactive]
    change (match s₂.choose (active.filter fun k => ready.contains k) with
      | none => _
      | some k => _) = _
    rw [hchoose]
    dsimp only
    rw [htrial]
    cases r <;> rfl
  · intro s turn rest i hturns hact hi
    simp only [step, stepWith, State.nextTurn, hturns, hact, hi, if_true]

end Sys2Proof
end

