-- ==== Sys2Proof/Proofs/ArrivedGroup.lean ====
section
/-!
PROOFS. Why IdleAndFlowWords, FlowTargets, ExitEnds, RejoinMasks and RegisterOnlyFrame fail. The checks are passed over for a
group whose BARS has arrived and waits (R343), and the statements do not ask that none does. At such a group a word that ends
the flow may stand before its clause's last word (R92), after which the clause goes on; and an exchange may name a scalar
destination (R161), for which the model writes a vector register's lane.
-/

namespace Sys2Proof.Machine

/-! ### The group -/

/-- The group of arrivedState with a second active lane, outside Exec, and a value in a scalar. -/
def twoLaneGroup : Group :=
  { arrivedGroup with
    s := [(0, 1#32)]
    lanes := { arrivedGroup.lanes with active := 3#64 } }

/-- The machine after power-on with that group, which issues. -/
def twoLaneState : State := { arrivedState with groups := [(0, twoLaneGroup)] }

/-- Nothing keeps any word of the group from issuing: it has passed the checks. -/
theorem twoLaneGroup_ready (i : Instr) : Ready i twoLaneState 0 twoLaneGroup arrivedClause where
  cur := rfl
  group := by decide
  clause := rfl
  checked := by
    have hbreak : twoLaneState.breakAt twoLaneGroup arrivedClause = none := by decide
    simp only [State.checks, hbreak]
    rfl
  free := by
    have hpend : twoLaneGroup.isPend = fun _ => false := rfl
    have hany : ∀ rs : List PReg, rs.any (fun _ => false) = false := by simp
    simp only [Group.blocked, hpend, hany]
    rfl
  report := by decide

theorem twoLaneGroup_steady : Steady twoLaneGroup := ⟨rfl, by decide⟩

/-! ### Words that end the flow go on in the clause -/

/-- The place in its clause that an answer leaves group 0 at, none between clauses. -/
def answeredPos : Res → Option (Option Nat)
  | .next t => (Tab.get? t.groups 0).map fun g => g.clause.map Clause.pos
  | _ => none

/-- Words that end the flow (R92): SLEEP, a branch that no lane takes, EXIT and PARK. -/
def flowEnders : List Instr := [.sleepI 1#16, .bra false 0#4 true 0#18, .exitG, .park 0#3]

/-- Each of them, at word 1 of the clause, leaves the group at word 2. -/
theorem answeredPos_flowEnders : ∀ i ∈ flowEnders, answeredPos (exec i twoLaneState) = some (some 2) := by decide

/-- No answer to one of them has left the clause. -/
theorem not_answers_left {i : Instr} (hi : i ∈ flowEnders) {Q : State → Prop} {P : Group → Prop}
    (hP : ∀ g, P g → g.clause = none) : ¬ Answers (exec i twoLaneState) fun t => Q t ∧ t.GroupIs 0 P := by
  rintro ⟨t, ht, -, g, hg, hPg⟩
  have hstays := answeredPos_flowEnders i hi
  simp [ht, answeredPos, hg, hP g hPg] at hstays

end Sys2Proof.Machine

namespace Sys2Proof

open Machine

/-- Refutes O14: with a BARS token, SLEEP before the clause's last word passes the checks, and the group is in its clause
still. -/
theorem not_idleAndFlowWords : ¬ Obligations.IdleAndFlowWords := by
  rintro ⟨-, h⟩
  obtain ⟨-, -, -, hsleep⟩ := h twoLaneState 0 twoLaneGroup arrivedClause (by decide) twoLaneGroup_steady
  exact not_answers_left (by decide) (fun _ hg => hg.2) (hsleep 1#16 (twoLaneGroup_ready _) (by decide))

/-- Refutes O15: with a BARS token, BRA before the clause's last word passes the checks; no lane takes it, its predicate being
false in all, and the group is in its clause still. -/
theorem not_flowTargets : ¬ Obligations.FlowTargets := by
  rintro ⟨h, -⟩
  obtain ⟨hbra, -⟩ := h twoLaneState 0 twoLaneGroup arrivedClause false 0#4 true 0#18 (twoLaneGroup_ready _)
  have hfalse : twoLaneGroup.rdP 0 = 0#64 := by decide
  exact not_answers_left (by decide) (fun _ hg => hg.1) (hbra twoLaneGroup_steady (.inl fun k _ => by simp [hfalse]))

/-- Refutes O16: with a BARS token, EXIT before the clause's last word passes the checks; another lane stays active, and the
group is in its clause still. -/
theorem not_exitEnds : ¬ Obligations.ExitEnds := by
  intro h
  obtain ⟨-, hexit, -⟩ := h twoLaneState 0 twoLaneGroup arrivedClause (twoLaneGroup_ready _)
  exact not_answers_left (by decide) (fun _ hg => hg.2.1) (hexit (by decide) (by decide) rfl)

/-- Refutes O17: with a BARS token, PARK before the clause's last word passes the checks; another lane stays active, and the
group is in its clause still. -/
theorem not_rejoinMasks : ¬ Obligations.RejoinMasks := by
  intro h
  obtain ⟨-, -, hpark, -⟩ := h twoLaneState 0 twoLaneGroup arrivedClause 0#3
  exact not_answers_left (by decide) (fun _ hg => hg.1) (hpark (twoLaneGroup_ready _) rfl (.inl (by decide)))

/-- Refutes O45: with a BARS token, LSHUP to a scalar passes the checks; the model writes lane 0 of a vector register, which
is not the place that the instruction names. -/
theorem not_registerOnlyFrame : ¬ Obligations.RegisterOnlyFrame := by
  intro h
  have hvectors : answeredVectors (exec lshupToScalar twoLaneState) = some [(64, 1#32)] := by decide
  cases hexec : exec lshupToScalar twoLaneState with
  | next t =>
    obtain ⟨-, -, -, hexchange⟩ := h lshupToScalar twoLaneState t 0 twoLaneGroup arrivedClause (twoLaneGroup_ready _)
      twoLaneGroup_steady hexec
    obtain ⟨g, hg, -, hkeeps, -⟩ := hexchange (.s 1) _ rfl
    have hold : g.rdV 1 0 = 0#32 := hkeeps.v 1 0 (by decide) (.inl (by simp [Group.placeOf]))
    have hv : g.v = [(64, 1#32)] := by simpa [hexec, answeredVectors, hg] using hvectors
    rw [Group.rdV, hv] at hold
    exact absurd hold (by decide)
  | fault f => simp [hexec, answeredVectors] at hvectors
  | refused f => simp [hexec, answeredVectors] at hvectors

end Sys2Proof
end

