-- ==== Sys2Proof/Proofs/ClauseIssue.lean ====
section
/-!
PROOFS. CLAUSE_ISSUE (R28 to R31, R35, R89, R90, R94): the address it chooses, the ages it leaves, and the clause it begins or
the fault its header raises.
-/

namespace Sys2Proof.Machine

/-! ### A repeat that is dropped changes nothing else (R89) -/

/-- The group with another repeat count and number. -/
def Group.withRepeat (g : Group) (rep repN : Nat) : Group := { g with lanes := { g.lanes with rep := rep, repN := repN } }

theorem Group.dropRepeat_frame (g : Group) : ∃ rep repN, g.dropRepeat = g.withRepeat rep repN := by
  unfold Group.dropRepeat
  split
  · exact ⟨0, 0, rfl⟩
  · exact ⟨g.lanes.rep, g.lanes.repN, rfl⟩

theorem Group.land_withRepeat (g : Group) (rep repN : Nat) (t : Target) (w : Word) :
    (g.withRepeat rep repN).land t w = (g.land t w).withRepeat rep repN := by
  cases t <;> rfl

theorem Group.landDue_withRepeat (g : Group) (rep repN : Nat) :
    (g.withRepeat rep repN).landDue = g.landDue.withRepeat rep repN := by
  have hfold : ∀ (es : List Inflight) (g : Group),
      es.foldl (fun g e => g.land e.target e.val) (g.withRepeat rep repN) =
        (es.foldl (fun g e => g.land e.target e.val) g).withRepeat rep repN := by
    intro es
    induction es with
    | nil => exact fun _ => rfl
    | cons e es ih => exact fun g => by rw [List.foldl_cons, List.foldl_cons, Group.land_withRepeat, ih]
  change ({ (List.foldl _ (g.withRepeat rep repN) _ : Group) with inflight := _ } : Group) = _
  rw [hfold]
  rfl

/-- Results that fall due change registers, predicates and index registers, and are on their way no more. -/
theorem Group.landDue_frame (g : Group) :
    g.landDue = { g with
      v := g.landDue.v, s := g.landDue.s, inflight := g.landDue.inflight
      lanes := { g.lanes with p := g.landDue.lanes.p, x := g.landDue.lanes.x } } := by
  have hland : (g.inflight.filter fun e => e.land ≤ g.slot).foldl (fun g e => g.land e.target e.val) g =
      g.landAll ((g.inflight.filter fun e => e.land ≤ g.slot).map fun e => (e.target, e.val)) := by
    rw [Group.landAll, List.foldl_map]
  unfold Group.landDue
  rw [hland, Group.landAll_frame]

@[simp] theorem Group.landDue_slot (g : Group) : g.landDue.slot = g.slot := by rw [Group.landDue_frame]
@[simp] theorem Group.landDue_active (g : Group) : g.landDue.lanes.active = g.lanes.active := by
  rw [Group.landDue_frame]
@[simp] theorem Group.lpcOf_landDue (g : Group) : g.landDue.lpcOf = g.lpcOf := by rw [Group.landDue_frame]; rfl
@[simp] theorem Group.lageOf_landDue (g : Group) : g.landDue.lageOf = g.lageOf := by rw [Group.landDue_frame]; rfl

/-! ### The issue address (R89) -/

theorem Group.any_lpcOf_iff {g : Group} {a : Nat} :
    ((maskList g.lanes.active).any fun k => g.lpcOf k = a) = true ↔
      ∃ k, k < 64 ∧ g.lanes.active.getLsbD k = true ∧ g.lpcOf k = a := by
  simp [mem_maskList, and_assoc]

/-- A repeat that is dropped was not looked at. -/
theorem Group.issueAddr_dropRepeat (g : Group) : g.dropRepeat.issueAddr = g.issueAddr := by
  unfold Group.dropRepeat
  split
  case isFalse => rfl
  case isTrue h =>
    rw [Bool.and_eq_true, Bool.not_eq_true'] at h
    unfold Group.issueAddr
    rw [if_neg (by simp), if_neg (by simp [h.2])]
    rfl

/-- The lowest lane past the age limit is the first that the list of lanes gives. -/
theorem Group.find?_aged {g : Group} {k : Nat}
    (h : (maskList g.lanes.active).find? (fun i => decide (g.lanes.agelimit ≤ g.lageOf i)) = some k) :
    k < 64 ∧ g.lanes.active.getLsbD k = true ∧ g.lanes.agelimit ≤ g.lageOf k ∧
      ∀ j, j < k → g.lanes.active.getLsbD j = true → g.lageOf j < g.lanes.agelimit := by
  obtain ⟨hk, as, bs, hsplit, has⟩ := List.find?_eq_some_iff_append.1 h
  have hmem := mem_maskList.1 (List.mem_of_find?_eq_some h)
  refine ⟨hmem.1, hmem.2, of_decide_eq_true hk, fun j hjk hj => ?_⟩
  have hsorted : (maskList g.lanes.active).Pairwise (· < ·) := List.Pairwise.filter _ List.pairwise_lt_range
  have hjmem : j ∈ as ++ k :: bs := hsplit ▸ mem_maskList.2 ⟨Nat.lt_trans hjk hmem.1, hj⟩
  rw [hsplit, List.pairwise_append, List.pairwise_cons] at hsorted
  obtain ⟨-, ⟨hkbs, -⟩, -⟩ := hsorted
  obtain hjas | hjk' | hjbs := by simpa only [List.mem_append, List.mem_cons] using hjmem
  · simpa using has j hjas
  · omega
  · have := hkbs j hjbs
    omega

/-- The least of the lanes' addresses. -/
theorem Group.min?_lpcOf {g : Group} {a : Nat} (hex : ∃ k, k < 64 ∧ g.lanes.active.getLsbD k = true ∧ g.lpcOf k = a)
    (hmin : ∀ k, k < 64 → g.lanes.active.getLsbD k = true → a ≤ g.lpcOf k) :
    ((maskList g.lanes.active).map g.lpcOf).min? = some a := by
  obtain ⟨k, hk, hact, rfl⟩ := hex
  rw [List.min?_eq_some_iff]
  refine ⟨List.mem_map_of_mem (mem_maskList.2 ⟨hk, hact⟩), fun b hb => ?_⟩
  obtain ⟨j, hj, rfl⟩ := List.mem_map.1 hb
  obtain ⟨hj64, hjact⟩ := mem_maskList.1 hj
  exact hmin j hj64 hjact

theorem Group.issueAddr_of_issuesAt {g : Group} {a : Nat} (h : IssuesAt g a) : g.issueAddr = some a := by
  unfold Group.issueAddr
  dsimp only
  split
  case isTrue hrep =>
    simp only [Bool.and_eq_true, Group.any_lpcOf_iff, decide_eq_true_eq] at hrep
    rw [h.repeating hrep.1 hrep.2]
  case isFalse hrep =>
    have hnone : g.lanes.rep = 0 ∨ ∀ k, k < 64 → g.lanes.active.getLsbD k = true → g.lpcOf k ≠ g.lanes.repAddr := by
      by_contra hcontra
      push Not at hcontra
      simp only [Bool.and_eq_true, Group.any_lpcOf_iff, decide_eq_true_eq] at hrep
      exact hrep hcontra
    split
    case h_1 k hk =>
      obtain ⟨hk64, hact, haged, hfirst⟩ := Group.find?_aged hk
      rw [h.aged hnone k hk64 hact haged hfirst]
    case h_2 hyoung =>
      have hall : ∀ k, k < 64 → g.lanes.active.getLsbD k = true → g.lageOf k < g.lanes.agelimit := by
        intro k hk hact
        simpa using List.find?_eq_none.1 hyoung k (mem_maskList.2 ⟨hk, hact⟩)
      exact Group.min?_lpcOf (h.least hnone hall).1 (h.least hnone hall).2

/-! ### Headers (R26, R29, R30) -/

theorem badHeader_iff (h : Word) : badHeader h = true ↔
    h.toNat / 2 ^ 28 ≠ 0xB ∨ hdrN h = 0 ∨ hdrClass h = 7 ∨
      (hdrClass h ≠ 6 ∧ h.getLsbD 20 = false ∧ h.toNat / 2 ^ 15 % 2 ^ 5 ≠ 0) := by
  have hlt : h.toNat / 2 ^ 28 % 2 ^ 4 = h.toNat / 2 ^ 28 := by
    have := h.isLt
    omega
  simp only [badHeader, bitsOf_eq, hlt, Bool.or_eq_true, Bool.and_eq_true, decide_eq_true_eq, bne_iff_ne,
    Bool.not_eq_true', or_assoc, and_assoc]

theorem Group.guard_getLsbD (g : Group) (h : Word) {k : Nat} (hk : k < 64) :
    (g.guard h).getLsbD k = (!h.getLsbD 20 || (h.getLsbD 19 != (g.rdP (hdrPred h)).getLsbD k)) := by
  have hones : (0xFFFFFFFFFFFFFFFF#64).getLsbD k = true := by
    rw [show 0xFFFFFFFFFFFFFFFF#64 = BitVec.allOnes 64 from rfl, BitVec.getLsbD_allOnes]
    exact decide_eq_true hk
  unfold Group.guard
  cases h.getLsbD 20 <;> cases h.getLsbD 19 <;> simp [hones, hk]

/-! ### The lanes of a clause and their ages (R90, R94) -/

theorem Group.lanesAt_getLsbD (g : Group) (m : Mask) (a : Nat) {k : Nat} (hk : k < 64) :
    (g.lanesAt m a).getLsbD k = (m.getLsbD k && decide (g.lpcOf k = a)) := by
  rw [Group.lanesAt, BitVec.getLsbD_and, getLsbD_maskOf, decide_eq_true hk, Bool.true_and, ← Bool.and_assoc,
    Bool.and_self]

theorem Tab.getD_del {α : Type} (t : Tab α) (k j : Nat) (d : α) :
    Tab.getD (Tab.del t k) j d = if j = k then d else Tab.getD t j d := by
  unfold Tab.getD
  rw [Tab.get?_del]
  split <;> rfl

theorem ageLanes_lage (l : LaneState) (served : Mask) {k : Nat} (hk : k < 64) (hact : l.active.getLsbD k = true) :
    Tab.getD (ageLanes l served).lage k 0 =
      if served.getLsbD k then 0 else min 4095 (Tab.getD l.lage k 0 + 1) := by
  have hfold : ∀ (ks : List Nat) (t : Tab Nat), ks.Nodup →
      Tab.getD (ks.foldl (fun t i => if served.getLsbD i then Tab.del t i
        else Tab.set t i (min 4095 (Tab.getD t i 0 + 1))) t) k 0 =
      if k ∈ ks then (if served.getLsbD k then 0 else min 4095 (Tab.getD t k 0 + 1)) else Tab.getD t k 0 := by
    intro ks
    induction ks with
    | nil => intros; rfl
    | cons j ks ih =>
      intro t hnodup
      obtain ⟨hj, hks⟩ := List.nodup_cons.1 hnodup
      rw [List.foldl_cons, ih _ hks]
      by_cases hjk : k = j
      · subst hjk
        rw [if_neg hj, if_pos (List.mem_cons_self ..)]
        split
        · rw [Tab.getD_del, if_pos rfl]
        · rw [Tab.getD_set, if_pos rfl]
      · have hsame : Tab.getD (if served.getLsbD j then Tab.del t j
            else Tab.set t j (min 4095 (Tab.getD t j 0 + 1))) k 0 = Tab.getD t k 0 := by
          split
          · rw [Tab.getD_del, if_neg hjk]
          · rw [Tab.getD_set, if_neg hjk]
        simp only [hsame, List.mem_cons, hjk, false_or]
  rw [ageLanes, hfold _ _ (nodup_maskList _), if_pos (mem_maskList.2 ⟨hk, hact⟩)]

/-! ### What the event comes to -/

theorem State.setGroup_onlyGroup (s : State) (gid : Nat) (g : Group) : OnlyGroup s (s.setGroup gid g) gid where
  others k hk := by rw [State.setGroup_groups, Tab.get?_set_ne _ _ hk]
  rest := rfl
  views := rfl

/-- The clause at an address as a fault of its header records it: at the header, with the lanes that stand there. -/
def Group.headerClause (g : Group) (a : Nat) (h : Word) : Clause :=
  ⟨a, h, 0, g.lanesAt g.lanes.active a, g.lanesAt g.lanes.active a, 0, false⟩

section
variable {s : State} {gid : Nat} {g : Group} {a : Nat} (hg : Tab.get? s.groups gid = some g) (hres : g.res = .held)
  (hset : gid ∈ s.activeOf g.core g.slice) (hmay : s.mayIssue g = true) (hcl : g.clause = none) (haddr : IssuesAt g a)
include hg hres hset hmay hcl haddr

/-- A group that may issue comes to its address's header. -/
theorem exec_clauseIssue :
    exec (.clauseIssue gid) s = .next (
      let h := s.codeWord g a
      if badHeader h then (s.setGroup gid g.dropRepeat).raise gid (g.headerClause a h) (.plain 0x01) 0 0 true
      else if hdrClass h = 6 then
        (s.setGroup gid g.dropRepeat).raise gid (g.headerClause a h) (.withDetail 0x05 a) 0 0 true
      else if !g.thresholds h || (h.getLsbD 20 && g.isPend (.p (hdrPred h))) ||
          (s.stallOf g h ≠ 0 && g.stallWait ≠ some 0) then s.notIssued
      else s.setGroup gid (g.dropRepeat.begin_ a h (s.stallOf g h))) := by
  have haddr' : g.dropRepeat.issueAddr = some a := g.issueAddr_dropRepeat.trans (Group.issueAddr_of_issuesAt haddr)
  have hin : (s.activeOf g.core g.slice).contains gid = true := List.contains_iff_mem.2 hset
  change Host.Outcome.next (s.clauseIssue gid) = _
  simp only [State.clauseIssue, hg, hmay, hcl, hres, hin, haddr']
  obtain ⟨rep, repN, hdrop⟩ := g.dropRepeat_frame
  rw [hdrop]
  rfl

end

theorem Group.begin_withRepeat (g : Group) (rep repN a : Nat) (h : Word) (stall : Nat) :
    (g.withRepeat rep repN).begin_ a h stall = (g.begin_ a h stall).withRepeat rep repN := by
  have hland : ({ g.withRepeat rep repN with slot := (g.withRepeat rep repN).slot + stall } : Group).landDue =
      ({ g with slot := g.slot + stall } : Group).landDue.withRepeat rep repN :=
    Group.landDue_withRepeat { g with slot := g.slot + stall } rep repN
  simp only [Group.begin_, hland]
  rfl

/-- The clause at an address as it begins: the results due by then have landed in the group, and it serves the lanes that
stand at the address (R29, R90, R94). -/
theorem Group.begins_clause (g : Group) (a : Nat) (h : Word) (stall : Nat) :
    let here := fun k : Nat => g.lanes.active.getLsbD k && decide (g.lpcOf k = a)
    let landed := ({ g with slot := g.slot + stall } : Group).landDue
    let g' := g.begin_ a h stall
    g'.slot = g.slot + stall ∧ g'.v = landed.v ∧ g'.s = landed.s ∧ g'.lanes.p = landed.lanes.p ∧
      g'.lanes.active = g.lanes.active ∧
      (∃ c, g'.clause = some c ∧ c.header = a ∧ c.hw = h ∧ c.pos = 1 ∧ c.reentry = false ∧ ∀ k, k < 64 →
        c.served.getLsbD k = here k ∧
        c.exec.getLsbD k = (here k && (!h.getLsbD 20 || (h.getLsbD 19 != (landed.rdP (hdrPred h)).getLsbD k)))) ∧
      ∀ k, k < 64 → g.lanes.active.getLsbD k = true →
        g'.lageOf k = if here k then 0 else min 4095 (g.lageOf k + 1) := by
  intro here landed g'
  have hslot : landed.slot = g.slot + stall := Group.landDue_slot _
  have hactive : landed.lanes.active = g.lanes.active := Group.landDue_active _
  have hlpc : landed.lpcOf = g.lpcOf := Group.lpcOf_landDue _
  have hlage : landed.lageOf = g.lageOf := Group.lageOf_landDue _
  have hserved : ∀ k, k < 64 → (landed.lanesAt landed.lanes.active a).getLsbD k = here k := by
    intro k hk
    rw [Group.lanesAt_getLsbD _ _ _ hk, hactive, hlpc]
  refine ⟨hslot, rfl, rfl, rfl, hactive, ⟨_, rfl, rfl, rfl, rfl, rfl, fun k hk => ⟨hserved k hk, ?_⟩⟩, fun k hk hact => ?_⟩
  · rw [BitVec.getLsbD_and, hserved k hk, Group.guard_getLsbD _ _ hk]
  · rw [← hserved k hk, ← hlage]
    exact ageLanes_lage _ _ hk (hactive ▸ hact)

end Sys2Proof.Machine

namespace Sys2Proof

open Machine

/-- Settles O43: the event comes to the header at the chosen address (exec_clauseIssue), which faults or begins its clause. -/
theorem clauseIssues : Obligations.ClauseIssues := by
  intro s gid g a h hg hres hset hmay hcl haddr hcode here stops malformed
  have hexec := exec_clauseIssue hg hres hset hmay hcl haddr
  rw [hcode] at hexec
  have hmasks : ∀ k, k < 64 → (g.lanesAt g.lanes.active a).getLsbD k = here k := fun k hk => g.lanesAt_getLsbD _ _ hk
  have hstops : ∀ c, exec (.clauseIssue gid) s = .next ((s.setGroup gid g.dropRepeat).raise gid
      (g.headerClause a h) c 0 0 true) → stops c :=
    fun c hc => ⟨_, rfl, rfl, rfl, fun k hk => ⟨hmasks k hk, hmasks k hk⟩, hc⟩
  refine ⟨fun hbad => hstops _ ?_, fun hgood hdata => hstops _ ?_, fun hgood hdata hthr hpred hstall => ?_⟩
  · rw [hexec]
    exact congrArg _ (if_pos ((badHeader_iff h).2 hbad))
  · rw [hexec]
    exact congrArg _ ((if_neg fun hbad => hgood ((badHeader_iff h).1 hbad)).trans (if_pos hdata))
  · have hpend : (h.getLsbD 20 && g.isPend (.p (hdrPred h))) = false := by
      cases hguard : h.getLsbD 20 with
      | false => rfl
      | true => rw [hpred hguard, Bool.and_false]
    have hwaited : (decide (s.stallOf g h ≠ 0) && decide (g.stallWait ≠ some 0)) = false := by
      cases hnative : s.native g with
      | false => simp [State.stallOf, hnative]
      | true =>
        by_cases hzero : hdrStall h = 0
        · simp [State.stallOf, hzero]
        · simp [hstall hnative hzero]
    have hbegin : exec (.clauseIssue gid) s = .next (s.setGroup gid (g.dropRepeat.begin_ a h (s.stallOf g h))) := by
      rw [hexec]
      simp only [hgood, hdata, hthr, hpend, hwaited, Bool.false_eq_true, if_false, Bool.not_true, Bool.or_self]
    obtain ⟨rep, repN, hdrop⟩ := g.dropRepeat_frame
    rw [hdrop, Group.begin_withRepeat] at hbegin
    exact ⟨_, hbegin, s.setGroup_onlyGroup .., _, Tab.get?_set_same .., g.begins_clause a h (s.stallOf g h)⟩

end Sys2Proof
end

