-- ==== Sys2Proof/Proofs/GroupEvents.lean ====
section
/-!
PROOFS. The events of a group (R114, R355, R357, R390): a change of the one group, the entry of a trap that waited for a save
area, and the messages on the links to the Sheepdog.
-/

namespace Sys2Proof.Machine

theorem State.updGroup_onlyGroup (s : State) (gid : Nat) (f : Group → Group) : OnlyGroup s (s.updGroup gid f) gid where
  others k hk := by rw [State.updGroup_groups, Tab.get?_upd, if_neg hk]
  rest := rfl
  views := rfl

/-! ### A trap is entered (R357, R358, R170) -/

theorem State.mem_freeAreas {s : State} {core area : Nat} (h : area ∈ s.freeAreas core) :
    area < 16 ∧ ∃ c, Tab.get? s.cores core = some c := by
  unfold State.freeAreas at h
  split at h
  case h_1 c hc => exact ⟨List.mem_range.1 (List.mem_filter.1 h).1, c, hc⟩
  case h_2 => cases h

/-- The area that a trap takes is one of those that are free. -/
theorem getD_mod_length_mem {l : List Nat} (h : l ≠ []) (n d : Nat) : l.getD (n % l.length) d ∈ l := by
  have hlt : n % l.length < l.length := Nat.mod_lt _ (List.length_pos_iff.2 h)
  rw [List.getD_eq_getElem _ _ hlt]
  exact List.getElem_mem hlt

/-- A handler starts with the lanes that were active or parked. -/
theorem handlerLanes_active (l : LaneState) (entry k : Nat) :
    (handlerLanes l entry).active.getLsbD k = true ↔
      l.active.getLsbD k = true ∨ ∃ e ∈ l.parked, e.2.getLsbD k = true := by
  have hfold : ∀ (t : Tab Mask) (m : Mask), (t.foldl (fun m e => m ||| e.2) m).getLsbD k = true ↔
      m.getLsbD k = true ∨ ∃ e ∈ t, e.2.getLsbD k = true := by
    intro t
    induction t with
    | nil => simp
    | cons e t ih => simp [ih, or_assoc]
  simp only [handlerLanes, BitVec.getLsbD_or, Bool.or_eq_true, hfold]
  simp

/-- Every lane of a handler starts at its entry. -/
theorem handlerLanes_lpc (l : LaneState) (entry k : Nat) (hk : k < 64)
    (h : (handlerLanes l entry).active.getLsbD k = true) : Tab.getD (handlerLanes l entry).lpc k 0 = entry := by
  have hget : ∀ ks : List Nat, k ∈ ks → Tab.get? (ks.map fun i => (i, entry)) k = some entry := by
    intro ks hmem
    induction ks with
    | nil => cases hmem
    | cons j ks ih =>
      rw [List.map_cons, Tab.get?_cons]
      by_cases hj : j = k
      · exact if_pos hj
      · rw [if_neg hj]
        exact ih ((List.mem_cons.1 hmem).resolve_left fun hkj => hj hkj.symm)
  exact congrArg (Option.getD · 0) (hget _ (mem_maskList.2 ⟨hk, h⟩))

/-- The group as the entry of its trap into a save area leaves it. -/
def Group.entering (g : Group) (f : TrapFrame) (entry area : Nat) : Group :=
  { g.flush with
    trap := some { f with
      entered := true, area := some area, lanes := g.flush.lanes
      sv := Tab.keep g.flush.v fun k _ => g.flush.savedReg (.v (k / 64))
      ss := Tab.keep g.flush.s fun k _ => g.flush.savedReg (.s k) }
    clause := none, barsTok := none, stallWait := none
    lanes := handlerLanes g.flush.lanes entry
    pend := g.flush.pend.map fun e => { e with saved := g.flush.savedReg e.reg } }

/-- Flushing lands results, which changes registers, predicates and index registers only. -/
theorem Group.flush_frame (g : Group) :
    g.flush = { g with
      v := g.flush.v, s := g.flush.s, inflight := []
      lanes := { g.lanes with p := g.flush.lanes.p, x := g.flush.lanes.x } } := by
  have hland : g.inflight.foldl (fun g e => g.land e.target e.val) g =
      g.landAll (g.inflight.map fun e => (e.target, e.val)) := by
    rw [Group.landAll, List.foldl_map]
  unfold Group.flush
  rw [hland, Group.landAll_frame]

@[simp] theorem Group.flush_core (g : Group) : g.flush.core = g.core := by rw [Group.flush_frame]

theorem State.enterTrap_eq {s : State} {gid area : Nat} {g : Group} {f : TrapFrame} {l : Launch} {code : CodeLoad}
    (hg : Tab.get? s.groups gid = some g) (hf : g.trap = some f) (hl : s.launch? g = some l)
    (hcode : s.codeOf (clusterOf g.core) g.launch = some code) :
    s.enterTrap gid area = (s.setGroup gid (g.entering f (code.base + l.handler.getD 0) area)).updCore g.flush.core fun c =>
      { c with areas := Tab.set c.areas area gid } := by
  simp only [State.enterTrap, hg, hf, hl, hcode]
  rfl

/-- A trap that waits, of a group on the part, takes a free area of its core and starts its handler, no earlier trap waiting
for one and no segment being in retention. -/
theorem State.tryEnter_inHandler {s : State} {gid handler : Nat} {g : Group} {f : TrapFrame} {l : Launch} {code : CodeLoad}
    (hg : Tab.get? s.groups gid = some g) (hf : g.trap = some f) (hentered : f.entered = false) (harea : f.area = none)
    (hres : g.res ≠ .saved) (hl : s.launch? g = some l) (hhandler : l.handler = some handler)
    (hcode : s.codeOf (clusterOf g.core) g.launch = some code) (hfree : s.freeAreas g.core ≠ [])
    (hfirst : s.trapAhead g f.raised = false) (hawake : s.retained = []) :
    ∃ g', InHandler (s.tryEnter gid) gid g (code.base + handler) f.record g' := by
  let area := (s.freeAreas g.core).getD (Config.pick s.free % (s.freeAreas g.core).length) 0
  let s₁ : State := { s with free := s.free + 1, bad := s.bad.filter fun b => b ≠ BadLoc.saveArea gid }
  obtain ⟨hlt, c, hc⟩ := State.mem_freeAreas (getD_mod_length_mem hfree (Config.pick s.free) 0)
  have htry : s.tryEnter gid = s.moved (s₁.enterTrap gid area) := by
    simp only [State.tryEnter, hg, hf, harea, hentered, hfirst, hfree, hres, Option.isSome_none, Bool.false_or,
      Bool.or_false, List.isEmpty_iff, beq_iff_eq, Bool.or_eq_true, or_self, Bool.false_eq_true, if_false,
      State.pickBelow]
    rfl
  obtain ⟨segs, hmoved⟩ := s.moved_awake (s₁.enterTrap gid area) hawake
  have henter : s₁.enterTrap gid area =
      (s₁.setGroup gid (g.entering f (code.base + handler) area)).updCore g.core fun c =>
        { c with areas := Tab.set c.areas area gid } := by
    rw [State.enterTrap_eq (s := s₁) hg hf hl hcode, hhandler, Group.flush_core]
    rfl
  rw [htry, hmoved, henter]
  exact ⟨g.entering f (code.base + handler) area, {
    here := Tab.get?_set_same ..
    entered := rfl
    frame := by
      refine ⟨_, area, rfl, rfl, rfl, rfl, hlt, ?_⟩
      change (Tab.get? (Tab.upd s.cores g.core _) g.core).bind _ = _
      rw [Tab.get?_upd, if_pos rfl, hc]
      exact Tab.get?_set_same ..
    clause := rfl
    landed := ⟨rfl, rfl, rfl⟩
    lanes := fun k _ => handlerLanes_active ..
    lpc := fun k hk h => ⟨handlerLanes_lpc _ _ k hk h, rfl⟩
    fresh := ⟨rfl, rfl, rfl, rfl, rfl, rfl, rfl, rfl, rfl, rfl⟩ }⟩

/-! ### Messages on the links (R390) -/

theorem State.relay_of_first {s : State} {m : HubMsg} {c : Nat} {ms : List HubMsg} (due : Option Nat)
    (h : (s.hub.toHub.find? fun e => e.2.head? = some m) = some (c, ms)) : s.relay m due = s.takeHub c := by
  simp [State.relay, h]

theorem State.relay_of_not_first {s : State} {m : HubMsg} (due : Option Nat)
    (h : ∀ e ∈ s.hub.toHub, e.2.head? ≠ some m) :
    s.relay m due = match due with
      | some c => if m ∈ Tab.getD s.hub.toHub c [] then s else s.sendHub c m
      | none => s := by
  have hnone : (s.hub.toHub.find? fun e => e.2.head? = some m) = none := by simpa using h
  cases due <;> simp [State.relay, hnone]

/-- The two messages go to the link of the group's Pup while the group stands as they say. -/
theorem exec_relay {s : State} {gid : Nat} {g : Group} (hg : Tab.get? s.groups gid = some g) {i : Instr} {m : HubMsg}
    {due : Bool}
    (h : (i, m, due) ∈ [(Instr.trapDispatch gid, HubMsg.trap gid, g.inHandler),
      (.stallReport gid, .stall gid, !g.done && s.ctxStalled gid g)]) :
    exec i s = .next (s.relay m (if due then some (clusterOf g.core) else none)) := by
  have hfilter : ∀ p : Group → Bool, (((Tab.get? s.groups gid).filter p).map fun g => clusterOf g.core) =
      if p g then some (clusterOf g.core) else none := by
    intro p
    rw [hg, Option.filter_some]
    split <;> rfl
  simp only [List.mem_cons, List.not_mem_nil, or_false, Prod.mk.injEq] at h
  obtain ⟨rfl, rfl, rfl⟩ | ⟨rfl, rfl, rfl⟩ := h
  · exact congrArg (fun d => Host.Outcome.next (s.relay (.trap gid) d)) (hfilter Group.inHandler)
  · exact congrArg (fun d => Host.Outcome.next (s.relay (.stall gid) d)) (hfilter fun g => !g.done && s.ctxStalled gid g)

end Sys2Proof.Machine

namespace Sys2Proof

open Machine

/-- Settles O18: the trap's entry is tryEnter_inHandler, and the messages go by exec_relay. -/
theorem groupEvents : Obligations.GroupEvents := by
  intro s gid g hg
  refine ⟨fun n hn hdue hres => ?_, fun r rs hr => ?_, fun f l code handler hf hentered harea hres hl hh hcode hfree hfirst
    hawake => ?_, fun i m due hi => ?_⟩
  · simp [exec, execSleepExpire, hg, hn, hdue, hres]
  · refine ⟨_, rfl, s.updGroup_onlyGroup .., ?_⟩
    rw [State.updGroup_groups, Tab.get?_upd, if_pos rfl, hg, Option.map_some, hr]
  · exact ⟨_, rfl, State.tryEnter_inHandler hg hf hentered harea hres hl hh hcode hfree hfirst hawake⟩
  · have hexec := exec_relay hg hi
    refine ⟨fun hnone => ?_, fun c ms hfirst => ?_⟩
    · rw [State.relay_of_not_first _ hnone] at hexec
      refine ⟨fun hdue hm => ?_, fun h => ?_⟩
      · subst hdue
        rw [hexec]
        simp only [if_true, hm, if_false]
        rfl
      · rw [hexec]
        cases due with
        | false => rfl
        | true => simp [h.resolve_left]
    · rw [hexec, State.relay_of_first _ hfirst]
      rfl

end Sys2Proof
end

