-- ==== Sys2Proof/Proofs/PredicateResults.lean ====
section
/-!
PROOFS. The comparisons and predicate operations (R132, R133, R157, R166): the meaning of each is predEff with the truth that
the rules give its lanes.
-/

namespace Sys2Proof.Machine

/-! ### Truths of the lanes -/

/-- A mask is not empty exactly when some lane is in it. -/
theorem mask_bne_zero (m : Mask) : (m != 0#64) = (List.range 64).any fun j => m.getLsbD j := by
  rw [Bool.eq_iff_iff, bne_iff_ne, ne_eq, ← maskList_eq_nil, List.any_eq_true, List.eq_nil_iff_forall_not_mem]
  simp [mem_maskList]

/-- A mask keeps all its lanes under another exactly when each of them is in the other. -/
theorem mask_and_beq_left (m n : Mask) :
    (m &&& n == m) = (List.range 64).all fun j => !m.getLsbD j || n.getLsbD j := by
  have hand : m &&& n = m ↔ ∀ j < 64, m.getLsbD j = true → n.getLsbD j = true := by
    rw [BitVec.eq_of_getLsbD_eq_iff]
    simp
  rw [Bool.eq_iff_iff, beq_iff_eq, hand]
  simp [imp_iff_not_or]

/-- GANY's truth (R166): some lane of Exec that is no helper lane has pa. -/
theorem Group.ballot_bne_zero (g : Group) (pa : BitVec 4) : (g.ballot pa != 0#64) =
    (List.range 64).any fun j => g.active.getLsbD j && (g.rdP pa.toNat).getLsbD j := by
  simp only [Group.ballot, mask_bne_zero, BitVec.getLsbD_and]

/-- GALL's truth (R166): every such lane has pa. -/
theorem Group.ballot_beq_active (g : Group) (pa : BitVec 4) : (g.ballot pa == g.active) =
    (List.range 64).all fun j => !g.active.getLsbD j || (g.rdP pa.toNat).getLsbD j :=
  mask_and_beq_left ..

/-- The conditions of R47 on unsigned views are those on the numbers. -/
theorem predResult_icmpUi32 (pd cond : BitVec 4) (a b : Reg) (g : Group) (k : Nat) :
    predResult (.icmpUi32 pd cond a b) g k =
      some (2, pd.toNat, condInt cond.toNat (g.src a 0 k).toNat (g.src b 0 k).toNat) := by
  simp only [predResult]
  generalize cond.toNat = c
  rcases c with _ | _ | _ | _ | _ | c <;> simp [condInt]

/-! ### Meanings -/

/-- Truths in a ready word's predicate (R157). -/
theorem issue_predEff {i : Instr} {s : State} {gid : Nat} {g : Group} {cl : Clause} (hr : Ready i s gid g cl)
    (hs : Steady g) (lat : Nat) (pd : BitVec 4) (f : Group → Nat → Bool) :
    issue i (predEff lat pd f) s =
      .next (s.after gid (g.fixed (s.native g) lat (g.destP pd.toNat (f g))) cl i) :=
  issue_of_doneG hr (hs.fixed ..) rfl

/-- Each instruction that predResult names has predEff as its meaning, with predResult's latency, predicate and truths. -/
theorem exec_eq_predEff {i : Instr} {g : Group} {lat pd : Nat} {b : Bool} (h : predResult i g 0 = some (lat, pd, b)) :
    ∃ (p : BitVec 4) (f : Group → Nat → Bool), (∀ s, exec i s = issue i (predEff lat p f) s) ∧
      p.toNat = pd ∧ ∀ k, predResult i g k = some (lat, pd, f g k) := by
  cases i
  case icmpUi32 =>
    rw [predResult_icmpUi32] at h
    cases h
    simp only [exec]
    exact ⟨_, _, fun _ => rfl, rfl, fun _ => predResult_icmpUi32 ..⟩
  case gany =>
    cases h
    simp only [exec]
    exact ⟨_, _, fun _ => rfl, rfl, fun _ => by rw [g.ballot_bne_zero]; rfl⟩
  case gall =>
    cases h
    simp only [exec]
    exact ⟨_, _, fun _ => rfl, rfl, fun _ => by rw [g.ballot_beq_active]; rfl⟩
  case vtop =>
    cases h
    simp only [exec]
    exact ⟨_, _, fun _ => rfl, rfl, fun _ => congrArg (fun t => some (2, _, t)) decide_not⟩
  case icmpI32 | fcmp | plop =>
    cases h
    simp only [exec]
    exact ⟨_, _, fun _ => rfl, rfl, fun _ => rfl⟩
  all_goals cases h

end Sys2Proof.Machine

namespace Sys2Proof

open Machine

/-- Settles O11: the words are encodings, which decodeOne_encode reads back; exec_eq_predEff gives the instruction's meaning,
and issue_predEff its completion. -/
theorem predicateResults : Obligations.PredicateResults := by
  refine ⟨fun pd pa pb tt next => ⟨?_, ?_, ?_⟩, fun i s gid g cl lat pd b hready hsteady hres => ?_⟩
  · exact decodeWords_of_decodeOne (decodeOne_encode (i := .plop pd tt pa pb) rfl rfl) next
  · exact decodeWords_of_decodeOne (decodeOne_encode (i := .gany pd pa) rfl rfl) next
  · exact decodeWords_of_decodeOne (decodeOne_encode (i := .gall pd pa) rfl rfl) next
  · obtain ⟨p, f, hexec, rfl, hf⟩ := exec_eq_predEff hres
    simp only [hf, Option.map_some, Option.getD_some]
    rw [hexec, issue_predEff hready hsteady]

end Sys2Proof
end

