-- ==== Sys2Proof/Proofs/IntegerResults.lean ====
section
/-!
PROOFS. The integer, bit and sign-bit instructions (R133, R136, R140 to R145, R147, R149, R152 to R156): the meaning of each is
aluEff with the words that the rules give its lanes. A rule forms a number and wraps it to a word (R64); the model computes on
words.
-/

namespace Sys2Proof.Machine

/-! ### Sums, products and views (R140, R141, R144, R152) -/

theorem ofInt_toNat_sub (a b : Word) : BitVec.ofInt 32 (a.toNat - b.toNat) = a - b := by
  rw [Int.sub_eq_add_neg, BitVec.ofInt_add, BitVec.ofInt_neg, BitVec.ofInt_natCast, BitVec.ofInt_natCast,
    BitVec.ofNat_toNat, BitVec.ofNat_toNat, BitVec.setWidth_eq, BitVec.setWidth_eq, BitVec.sub_eq_add_neg]

theorem ofInt_toInt_add (a b : Word) : BitVec.ofInt 32 (a.toInt + b.toInt) = a + b := by
  rw [BitVec.ofInt_add, BitVec.ofInt_toInt, BitVec.ofInt_toInt]

theorem ofInt_toInt_neg (a : Word) : BitVec.ofInt 32 (-a.toInt) = -a := by
  rw [BitVec.ofInt_neg, BitVec.ofInt_toInt]

/-- The signed view of an immediate is its sign extended (R144). -/
theorem ofInt_toInt_add_imm {n : Nat} (a : Word) (imm : BitVec n) :
    BitVec.ofInt 32 (a.toInt + imm.toInt) = a + imm.signExtend 32 := by
  rw [BitVec.ofInt_add, BitVec.ofInt_toInt, BitVec.signExtend]

theorem ofInt_toInt_mul_imm {n : Nat} (a : Word) (imm : BitVec n) :
    BitVec.ofInt 32 (a.toInt * imm.toInt) = a * imm.signExtend 32 := by
  rw [BitVec.ofInt_mul, BitVec.ofInt_toInt, BitVec.signExtend]

theorem ofNat_mul_add (a b c : Word) : BitVec.ofNat 32 (a.toNat * b.toNat + c.toNat) = a * b + c := by
  rw [BitVec.ofNat_add, BitVec.ofNat_mul]
  simp

theorem ofNat_max_sub (a : Word) : BitVec.ofNat 32 (2 ^ 32 - 1 - a.toNat) = ~~~a := by
  rw [← BitVec.toNat_not, BitVec.ofNat_toNat, BitVec.setWidth_eq]

theorem ofNat_natAbs (a : Word) : BitVec.ofNat 32 a.toInt.natAbs = if a.msb then -a else a := by
  cases h : a.msb with
  | false => simp [BitVec.toInt_eq_toNat_of_msb h]
  | true => rw [BitVec.toInt_eq_neg_toNat_neg_of_msb_true h, Int.natAbs_neg, Int.natAbs_natCast, BitVec.ofNat_toNat,
      BitVec.setWidth_eq, if_pos rfl]

/-- MOVHI (R144): the halves join. -/
theorem ofNat_halves (hi : BitVec 16) (a : Word) :
    BitVec.ofNat 32 (hi.toNat * 2 ^ 16 + a.toNat % 2 ^ 16) = hi ++ a.extractLsb' 0 16 := by
  apply BitVec.eq_of_toNat_eq
  rw [BitVec.toNat_append, ← Nat.shiftLeft_add_eq_or_of_lt (BitVec.isLt _)]
  simp [Nat.shiftLeft_eq]
  omega

/-! ### The smaller and the larger (R140) -/

theorem ofInt_min (a b : Word) : BitVec.ofInt 32 (min a.toInt b.toInt) = minI32 a b := by
  rw [minI32, sgn, sgn, min_comm, min_def_lt]
  split <;> exact BitVec.ofInt_toInt

theorem ofInt_max (a b : Word) : BitVec.ofInt 32 (max a.toInt b.toInt) = maxI32 a b := by
  rw [maxI32, sgn, sgn, max_def_lt]
  split <;> exact BitVec.ofInt_toInt

theorem ofNat_min (a b : Word) : BitVec.ofNat 32 (min a.toNat b.toNat) = minU32 a b := by
  rw [minU32, min_comm, min_def_lt]
  split <;> rw [BitVec.ofNat_toNat, BitVec.setWidth_eq]

theorem ofNat_max (a b : Word) : BitVec.ofNat 32 (max a.toNat b.toNat) = maxU32 a b := by
  rw [maxU32, max_def_lt]
  split <;> rw [BitVec.ofNat_toNat, BitVec.setWidth_eq]

theorem ofInt_min_add (a b c : Word) :
    BitVec.ofInt 32 (min a.toInt (BitVec.ofInt 32 (b.toInt + c.toInt)).toInt) = minI32 a (b + c) := by
  rw [ofInt_toInt_add, ofInt_min]

theorem ofInt_min_add_imm {n : Nat} (a b : Word) (imm : BitVec n) :
    BitVec.ofInt 32 (min a.toInt (BitVec.ofInt 32 (b.toInt + imm.toInt)).toInt) = minI32 a (b + imm.signExtend 32) := by
  rw [ofInt_toInt_add_imm, ofInt_min]

/-! ### Saturation (R142) -/

theorem clampInt_eq {lo hi : Int} (h : lo ≤ hi) (n : Int) : clampInt lo hi n = max lo (min hi n) := by
  unfold clampInt
  split
  · omega
  · split <;> omega

theorem ofNat_min_add (a b : Word) : BitVec.ofNat 32 (min (2 ^ 32 - 1) (a.toNat + b.toNat)) = addSatU a b := by
  rw [addSatU, clampInt_eq (by decide), wrap32, ← BitVec.ofInt_natCast]
  congr 1
  omega

/-! ### Shifts (R64, R140) -/

theorem ofNat_mul_two_pow (a : Word) (n : Nat) : BitVec.ofNat 32 (a.toNat * 2 ^ n) = a <<< n := by
  apply BitVec.eq_of_toNat_eq
  rw [BitVec.toNat_ofNat, BitVec.toNat_shiftLeft, Nat.shiftLeft_eq]

theorem ofNat_div_two_pow (a : Word) (n : Nat) : BitVec.ofNat 32 (a.toNat / 2 ^ n) = a >>> n := by
  rw [← Nat.shiftRight_eq_div_pow, ← BitVec.toNat_ushiftRight, BitVec.ofNat_toNat, BitVec.setWidth_eq]

theorem ofInt_div_two_pow (a : Word) (n : Nat) : BitVec.ofInt 32 (a.toInt / 2 ^ n) = a.sshiftRight n := by
  rw [BitVec.sshiftRight_eq, Int.shiftRight_eq_div_pow]
  rfl

theorem shifts_eq_rotateLeft (a : Word) (n : Nat) :
    a <<< (n % 32) ||| a >>> (32 - n % 32) = a.rotateLeft (n % 32) := by
  rw [BitVec.rotateLeft_mod_eq_rotateLeft, BitVec.rotateLeft_def]

/-! ### Counts of bits (R141) -/

theorem length_filter_le_range (m n : Nat) : ((List.range n).filter fun j => decide (m ≤ j)).length = n - m := by
  induction n with
  | zero => simp
  | succ n ih =>
    rw [List.range_succ, List.filter_append, List.length_append, ih]
    obtain h | h := Nat.lt_or_ge n m
    · simp [Nat.not_le_of_gt h]
      omega
    · simp [h]
      omega

theorem bitLen_le_iff (m k : Nat) : bitLen m ≤ k ↔ m < 2 ^ k := by
  unfold bitLen
  split
  · simp_all
  · next h => rw [← Nat.log2_lt h, Nat.succ_le_iff]

theorem ofNat_leading_zeros (a : Word) :
    BitVec.ofNat 32 ((List.range 32).filter fun j => decide (a.toNat < 2 ^ j)).length = clz32 a := by
  simp only [← bitLen_le_iff, length_filter_le_range, clz32]

theorem countOnes_eq (m n : Nat) : countOnes m n = ((List.range n).filter m.testBit).length := by
  induction n with
  | zero => rfl
  | succ n ih =>
    rw [List.range_succ, List.filter_append, List.length_append, ← ih, countOnes, Nat.add_comm, List.filter_singleton]
    cases m.testBit n <;> rfl

theorem ofNat_ones (a : Word) :
    BitVec.ofNat 32 ((List.range 32).filter fun j => a.getLsbD j).length = popc32 a := by
  rw [popc32, countOnes_eq]
  rfl

/-! ### The sign bit (R147) -/

theorem ofNat_mod_sign (a : Word) : BitVec.ofNat 32 (a.toNat % 2 ^ 31) = a &&& 0x7FFFFFFF#32 := by
  rw [← Nat.and_two_pow_sub_one_eq_mod, BitVec.ofNat_and, BitVec.ofNat_toNat, BitVec.setWidth_eq]

theorem ofNat_add_sign (a : Word) : BitVec.ofNat 32 (a.toNat + 2 ^ 31) = a ^^^ 0x80000000#32 := by
  apply BitVec.eq_of_getLsbD_eq
  intro k hk
  have hsign : (0x80000000#32).getLsbD k = decide (k = 31) := by decide +revert
  rw [BitVec.getLsbD_xor, hsign, BitVec.getLsbD_ofNat, decide_eq_true hk, Bool.true_and, Nat.add_comm]
  obtain h | rfl : k < 31 ∨ k = 31 := by omega
  · rw [Nat.testBit_two_pow_add_gt h, decide_eq_false (by omega), Bool.xor_false, BitVec.testBit_toNat]
  · rw [Nat.testBit_two_pow_add_eq, decide_eq_true rfl, Bool.xor_true, BitVec.testBit_toNat]

/-! ### Fields (R154) -/

theorem fieldWord_eq_bfeWord (a : Word) (sg : Bool) (pos len : Nat) :
    (if sg && decide (0 < fieldWidth pos len) &&
        decide (2 ^ (fieldWidth pos len - 1) ≤ a.toNat / 2 ^ pos % 2 ^ fieldWidth pos len) then
      BitVec.ofInt 32 ((a.toNat / 2 ^ pos % 2 ^ fieldWidth pos len : Nat) - 2 ^ fieldWidth pos len)
    else BitVec.ofNat 32 (a.toNat / 2 ^ pos % 2 ^ fieldWidth pos len)) = bfeWord a sg pos len := by
  rw [bfeWord, bitsOf_eq]
  generalize fieldWidth pos len = w
  obtain _ | w := w
  · simp [Nat.mod_one]
  · cases sg
    · simp
    · have hdouble : 2 ^ (w + 1) ≤ 2 * (a.toNat / 2 ^ pos % 2 ^ (w + 1)) ↔ 2 ^ w ≤ a.toNat / 2 ^ pos % 2 ^ (w + 1) := by
        rw [Nat.pow_succ]
        omega
      simp only [signedOf, hdouble, Bool.true_and, Nat.succ_pos, decide_true, decide_eq_true_eq, if_true,
        Nat.add_sub_cancel, Nat.add_eq_zero_iff, if_false, Nat.one_ne_zero, and_false]
      split <;> rfl

/-- A field of a number replaced: the bits below it, the field, and the bits above it, at their places. -/
theorem testBit_replaced (a b pos w k : Nat) :
    (b % 2 ^ pos + a % 2 ^ w * 2 ^ pos + b / 2 ^ (pos + w) * 2 ^ (pos + w)).testBit k =
      if k < pos then b.testBit k else if k < pos + w then a.testBit (k - pos) else b.testBit k := by
  have hsum : b % 2 ^ pos + a % 2 ^ w * 2 ^ pos + b / 2 ^ (pos + w) * 2 ^ (pos + w) =
      2 ^ pos * (2 ^ w * (b / 2 ^ (pos + w)) + a % 2 ^ w) + b % 2 ^ pos := by
    rw [Nat.pow_add]
    ring
  rw [hsum, Nat.testBit_two_pow_mul_add _ (Nat.mod_lt _ (Nat.two_pow_pos pos)),
    Nat.testBit_two_pow_mul_add _ (Nat.mod_lt _ (Nat.two_pow_pos w)), Nat.testBit_mod_two_pow, Nat.testBit_mod_two_pow,
    Nat.testBit_div_two_pow]
  split
  · next h => rw [decide_eq_true h, Bool.true_and]
  · have hfield : k - pos < w ↔ k < pos + w := by omega
    simp only [hfield]
    split
    · next h => rw [decide_eq_true h, Bool.true_and]
    · congr 1
      omega

theorem getLsbD_bfiWord (a b : Word) (pos len k : Nat) (hk : k < 32) :
    (bfiWord a b pos len).getLsbD k = if k < pos then b.getLsbD k
      else if k < pos + fieldWidth pos len then a.getLsbD (k - pos) else b.getLsbD k := by
  rw [bfiWord, bitsOf_eq]
  simp only [BitVec.getLsbD_or, BitVec.getLsbD_and, BitVec.getLsbD_not, BitVec.getLsbD_ofNat, Nat.testBit_mul_two_pow,
    Nat.testBit_mod_two_pow, Nat.testBit_two_pow_sub_one, hk, decide_true, Bool.true_and, Nat.pow_zero, Nat.div_one,
    BitVec.testBit_toNat]
  obtain h | h := Nat.lt_or_ge k pos
  · simp [h, Nat.not_le_of_gt h]
  · have hfield : k - pos < fieldWidth pos len ↔ k < pos + fieldWidth pos len := by omega
    by_cases hw : k < pos + fieldWidth pos len <;> simp [h, Nat.not_lt_of_ge h, hfield, hw]

theorem ofNat_replaced_eq_bfiWord (a b : Word) (pos len : Nat) :
    BitVec.ofNat 32 (b.toNat % 2 ^ pos + a.toNat % 2 ^ fieldWidth pos len * 2 ^ pos +
      b.toNat / 2 ^ (pos + fieldWidth pos len) * 2 ^ (pos + fieldWidth pos len)) = bfiWord a b pos len := by
  apply BitVec.eq_of_getLsbD_eq
  intro k hk
  rw [getLsbD_bfiWord _ _ _ _ _ hk, BitVec.getLsbD_ofNat, testBit_replaced, decide_eq_true hk, Bool.true_and]
  rfl

/-! ### Bit tables and dot products (R155, R156) -/

theorem ofFnLE_eq_logtWord (tt : BitVec 8) (a b c : Word) :
    (BitVec.ofFnLE fun (j : Fin 32) => tt.getLsbD
      ((a.getLsbD j).toNat + 2 * (b.getLsbD j).toNat + 4 * (c.getLsbD j).toNat)) = logtWord tt a b c := by
  apply BitVec.eq_of_getLsbD_eq
  intro k hk
  rw [logtWord, BitVec.getLsbD_ofNat, (maskSum_testBit _ 32).1 k, decide_eq_true hk, BitVec.getLsbD_eq_getElem hk,
    BitVec.getElem_ofFnLE _ _ hk]
  rfl

theorem toInt_extract_eq_signedOf (a : Word) (lo : Nat) :
    (a.extractLsb' lo 8).toInt = signedOf (bitsOf a.toNat lo 8) 8 := by
  have h := bitsOf_lt a.toNat lo 8
  rw [BitVec.toInt_eq_toNat_cond, signedOf, BitVec.extractLsb'_toNat, ← bitsOf]
  split <;> split <;> omega

theorem ofInt_dot4 (a b c : Word) :
    let el := fun (w : Word) (j : Nat) => (w.extractLsb' (8 * j) 8).toInt
    BitVec.ofInt 32 (c.toInt + el a 0 * el b 0 + el a 1 * el b 1 + el a 2 * el b 2 + el a 3 * el b 3) = dot4 a b c := by
  simp only [toInt_extract_eq_signedOf]
  rfl

/-! ### Meanings -/

/-- A word's results in its destination (R138, R139). -/
theorem issue_aluEff {i : Instr} {s : State} {gid : Nat} {g : Group} {cl : Clause} (hr : Ready i s gid g cl)
    (hs : Steady g) (lat : Nat) (d : Reg) (f : Group → Nat → Word) :
    issue i (aluEff lat d f) s = .next (s.after gid (g.fixed (s.native g) lat (g.dest d 0 (f g))) cl i) :=
  issue_of_doneG hr (hs.fixed ..) rfl

/-- Equal words make equal results. -/
theorem result_congr {lat : Nat} {d : Reg} {v w : Word} (h : v = w) :
    some (lat, d, v) = some (lat, d, w) := by rw [h]

/-- Each instruction that intResult names has aluEff as its meaning, with intResult's latency, destination and words. -/
theorem exec_eq_aluEff {i : Instr} {g : Group} {lat : Nat} {d : Reg} {w : Word}
    (h : intResult i g 0 = some (lat, d, w)) :
    ∃ f, (∀ s, exec i s = issue i (aluEff lat d f) s) ∧ ∀ k, intResult i g k = some (lat, d, f g k) := by
  cases i
  any_goals (cases h; done)
  all_goals
    cases h
    simp only [exec]
    refine ⟨_, fun _ => rfl, fun k => ?_⟩
  case isub => exact result_congr (ofInt_toNat_sub ..)
  case iminI32 => exact result_congr (ofInt_min ..)
  case imaxI32 => exact result_congr (ofInt_max ..)
  case iminUi32 => exact result_congr (ofNat_min ..)
  case imaxUi32 => exact result_congr (ofNat_max ..)
  case shl | shli => exact result_congr (ofNat_mul_two_pow ..)
  case shr | shri => exact result_congr (ofNat_div_two_pow ..)
  case sar | sari => exact result_congr (ofInt_div_two_pow ..)
  case rot | roti => exact result_congr (shifts_eq_rotateLeft ..)
  case notR => exact result_congr (ofNat_max_sub ..)
  case ineg => exact result_congr (ofInt_toInt_neg ..)
  case iabs => exact result_congr (ofNat_natAbs ..)
  case clz => exact result_congr (ofNat_leading_zeros ..)
  case popc => exact result_congr (ofNat_ones ..)
  case iaddsatI32 | isubsatI32 => exact result_congr (congrArg _ (clampInt_eq (by decide) _).symm)
  case iaddsatUi32 => exact result_congr (ofNat_min_add ..)
  case iamini => exact result_congr (ofInt_min_add_imm ..)
  case iamin => exact result_congr (ofInt_min_add ..)
  case iaddi => exact result_congr (ofInt_toInt_add_imm ..)
  case imuli => exact result_congr (ofInt_toInt_mul_imm ..)
  case movhi => exact result_congr (ofNat_halves ..)
  case fabs => exact result_congr (ofNat_mod_sign ..)
  case fneg => exact result_congr (ofNat_add_sign ..)
  case imad => exact result_congr (ofNat_mul_add ..)
  case bfe => exact result_congr (fieldWord_eq_bfeWord ..)
  case bfi => exact result_congr (ofNat_replaced_eq_bfiWord ..)
  case logt => exact result_congr (ofFnLE_eq_logtWord ..)
  case dot4I8 => exact result_congr (ofInt_dot4 ..)
  case andi => exact result_congr (congrArg (_ &&& ·) (BitVec.ofNat_toNat ..))
  case ori => exact result_congr (congrArg (_ ||| ·) (BitVec.ofNat_toNat ..))
  case xori => exact result_congr (congrArg (_ ^^^ ·) (BitVec.ofNat_toNat ..))
  case iadd | iaddk | imul | imulhiI32 | imulhiUi32 | andR | orR | xorR | andk | ork => rfl
  case mov | movi | movk | brev | fclass | sel | ptov | xrd => rfl

end Sys2Proof.Machine

namespace Sys2Proof

open Machine

/-- Settles O9: the saturating words are encodings, which decodeOne_encode reads back; exec_eq_aluEff gives the instruction's
meaning, and issue_aluEff its completion. -/
theorem integerResults : Obligations.IntegerResults := by
  refine ⟨fun d a b next => ⟨?_, ?_, ?_⟩, fun i s gid g cl lat d w hready hsteady hres => ?_⟩
  · exact decodeWords_of_decodeOne (decodeOne_encode (i := .iaddsatI32 d a b) rfl rfl) next
  · exact decodeWords_of_decodeOne (decodeOne_encode (i := .isubsatI32 d a b) rfl rfl) next
  · exact decodeWords_of_decodeOne (decodeOne_encode (i := .iaddsatUi32 d a b) rfl rfl) next
  · obtain ⟨f, hexec, hf⟩ := exec_eq_aluEff hres
    simp only [hf, Option.map_some, Option.getD_some]
    rw [hexec, issue_aluEff hready hsteady]

end Sys2Proof
end

