-- ==== Sys2Proof/Proofs/CopyAcceptance.lean ====
section
/-!
PROOFS. Why CopiesAccepted fails. The operand checks are passed over for a group whose BARS has arrived and waits (R343), and
the statement does not ask that none does. At such a group TMOV may name a vector destination (R182): a move of no bytes then
completes without a status word, since only a pending scalar takes one.
-/

namespace Sys2Proof.Machine

/-- TMOV with a vector destination, which R182 does not allow, and parameters that are all 0. -/
def tmovToVector : Instr := .tmov (.v 0) (.s 1) .core .core none

/-- What an answer leaves in scalar register 0 of group 0. -/
def answeredScalar : Res → Option Word
  | .next t => (Tab.get? t.groups 0).map fun g => g.rdS 0
  | _ => none

/-- The move completes and scalar 0, whose number the vector destination has, keeps its value. -/
theorem answeredScalar_tmovToVector : answeredScalar (exec tmovToVector twoLaneState) = some 1#32 := by decide

end Sys2Proof.Machine

namespace Sys2Proof

open Machine

/-- Refutes O33: with a BARS token, TMOV of no rows to a vector register passes the checks, and no scalar takes the status
word, which the statement has in the scalar of the register's number. -/
theorem not_copiesAccepted : ¬ Obligations.CopiesAccepted := by
  rintro ⟨-, h⟩
  obtain ⟨-, hmove⟩ := h twoLaneState 0 twoLaneGroup arrivedClause twoLaneGroup_steady (by decide) (by decide) (by decide)
    (by decide)
  obtain ⟨-, hempty⟩ := hmove (.v 0) (.s 1) .core .core none (twoLaneGroup_ready _) (by decide) (by decide) (by decide)
  obtain ⟨t, hexec, -, -, g, hg, -, hstatus, -⟩ := hempty (.inl (by decide)) (by decide)
  have hzero : twoLaneGroup.phys (.v 0) 0 = 0 := by decide
  have hkept := answeredScalar_tmovToVector
  rw [tmovToVector, hexec, answeredScalar, hg, Option.map_some, ← hzero, hstatus] at hkept
  exact absurd hkept (by decide)

end Sys2Proof
end

