-- ==== Sys2Proof/Proofs/Moves.lean ====
section
/-!
PROOFS. TMOV's command at its engine (R181 to R184, R264): its start, and the bytes of an allotment after one of its lines.
-/

namespace Sys2Proof.Machine

/-! ### Bytes of an allotment -/

/-- A run of bytes written one by one reads as written, every other byte as before. -/
theorem memRead_writes_run (d : Byte) (m : Tab Byte) (base n : Nat) (f : Nat → Byte) (x : Nat) :
    memRead d ((Tab.run base n f).foldl (fun m e => memWrite d m e.1 e.2) m) x =
      if base ≤ x ∧ x < base + n then f (x - base) else memRead d m x := by
  induction n with
  | zero =>
    rw [if_neg (by omega)]
    rfl
  | succ n ih =>
    have hlast : Tab.run base (n + 1) f = Tab.run base n f ++ [(base + n, f n)] := by
      simp [Tab.run, List.range_succ]
    rw [hlast, List.foldl_append, List.foldl_cons, List.foldl_nil, memRead_memWrite, ih]
    by_cases hx : x = base + n
    · subst hx
      rw [if_pos rfl, if_pos (by omega), Nat.add_sub_cancel_left]
    · rw [if_neg hx]
      exact if_congr (by omega) rfl rfl

/-- Bytes put to an allotment that exists are written to its memory. -/
theorem State.scrBytes_scrPut {s : State} {loc : ScrLoc} (h : s.AllotExists loc) (bytes : Tab Byte) :
    (s.scrPut loc bytes).scrBytes loc = bytes.foldl (fun m e => memWrite scratchFill m e.1 e.2) (s.scrBytes loc) := by
  cases loc with
  | core b =>
    obtain ⟨x, hx⟩ := Option.isSome_iff_exists.1 h
    simp [State.scrPut, State.scrBytes, State.updBlock, Tab.get?_upd, hx]
  | cluster l k =>
    obtain ⟨x, hx, hk⟩ := h
    obtain ⟨y, hy⟩ := Option.isSome_iff_exists.1 hk
    simp [State.scrPut, State.scrBytes, State.updLaunch, Tab.get?_upd, hx, hy]
  | die l k =>
    obtain ⟨x, hx, hk⟩ := h
    obtain ⟨y, hy⟩ := Option.isSome_iff_exists.1 hk
    simp [State.scrPut, State.scrBytes, State.updLaunch, Tab.get?_upd, hx, hy]

/-- A put to an allotment changes nothing but the errors and the work. -/
theorem State.scrPut_frame (s : State) (loc : ScrLoc) (bytes : Tab Byte) :
    s.scrPut loc bytes = { s with bad := (s.scrPut loc bytes).bad, work := (s.scrPut loc bytes).work } := by
  cases loc <;> rfl

/-! ### Start -/

/-- What COPY_START makes of a move: one that fits starts with its lines counted, one that does not ends in fault-bounds
(R264). -/
def State.startedMove (s : State) (c : CopyCmd) : CopyCmd :=
  if c.moveAligned = true ∧ s.moveFits c = true then
    { c with started := true, total := c.move.getD 1 0 * (c.move.getD 2 0 / 64) }
  else c.ended 0xA

theorem State.copyStart_move {s : State} {id : Nat} {c : CopyCmd} (hc : Tab.get? s.ops.copies id = some c)
    (hkind : c.kind = .move) (hs : c.started = false) (hpost : s.postOk c = true) :
    s.copyStart id = s.setOps { s.ops with copies := Tab.set s.ops.copies id (s.startedMove c) } := by
  simp only [State.copyStart, hc, hs, hpost, hkind, State.startedMove]
  by_cases ha : c.moveAligned = true <;> by_cases hf : s.moveFits c = true <;> simp [ha, hf]

/-! ### Lines -/

/-- Where a move's next line is read and where it is written (R181). -/
def CopyCmd.moveFrom (c : CopyCmd) : Nat :=
  c.image + (c.next / (c.move.getD 2 0 / 64) * c.move.getD 3 0 + c.next % (c.move.getD 2 0 / 64)) * 64

def CopyCmd.moveTo (c : CopyCmd) : Nat :=
  c.move.getD 0 0 + (c.next / (c.move.getD 2 0 / 64) * c.move.getD 4 0 + c.next % (c.move.getD 2 0 / 64)) * 64

/-- Without errors a line of a move is put to its destination (R183). -/
theorem State.moveLine_clean {s : State} {c : CopyCmd} {a b : ScrLoc} (ha : c.loc c.level = some a)
    (hb : c.loc c.dst = some b) (hbad : s.bad = []) :
    s.moveLine c = (none, s.scrPut b (Tab.run c.moveTo 64 fun k => s.scrByte a (c.moveFrom + k))) := by
  have hgood : ∀ x, s.scrBad a x = false := by simp [State.scrBad, hbad]
  simp only [State.moveLine, ha, hb, hgood]
  simp [Tab.run, CopyCmd.moveTo, CopyCmd.moveFrom]

/-- COPY_LINE of a move that is due: the line's put, after which the command stands at the next line. -/
theorem State.copyLine_move {s : State} {id : Nat} {c : CopyCmd} {a b : ScrLoc} (hc : Tab.get? s.ops.copies id = some c)
    (hkind : c.kind = .move) (hs : c.started = true) (hcode : c.code = none) (hnext : c.next < c.total)
    (hord : s.ownerOrdered id c.owner = true) (hbad : s.bad = []) (hawake : s.asleep (s.copySegs c) = false)
    (ha : c.loc c.level = some a) (hb : c.loc c.dst = some b) :
    let u := (s.touch (s.copySegs c)).scrPut b (Tab.run c.moveTo 64 fun k => s.scrByte a (c.moveFrom + k))
    s.copyLine id = (u.setOps { u.ops with copies := Tab.set u.ops.copies id { c with next := c.next + 1 } }).setKennel
      { u.kennel with waits := u.kennel.waits.filter fun w => w ≠ id } := by
  have hline := State.moveLine_clean (s := s.touch (s.copySegs c)) ha hb hbad
  have hdue : ¬ c.total ≤ c.next := by omega
  simp only [State.copyLine, hc, hs, hcode, hdue, hord, hawake, hkind, hline]
  rfl

end Sys2Proof.Machine

namespace Sys2Proof

open Machine

/-- Settles O34: copyStart_move gives the command as it starts, and copyLine_move the line's one put to the destination, which
scrBytes_scrPut and memRead_writes_run read back. -/
theorem movesRun : Obligations.MovesRun := by
  intro s id c hc hkind
  refine ⟨fun hs hpost => ⟨_, rfl, ?_⟩, fun a b hs hcode hnext hord hbad hawake ha hb hexists => ⟨_, rfl, ?_⟩⟩
  · rw [State.copyStart_move hc hkind hs hpost]
    refine ⟨⟨fun _ _ => rfl, rfl, rfl, rfl⟩, _, Tab.get?_set_same .., ?_⟩
    unfold State.startedMove
    by_cases hfits : c.moveAligned = true ∧ s.moveFits c = true
    · rw [if_pos hfits, if_pos hfits]
      exact ⟨rfl, rfl, rfl⟩
    · rw [if_neg hfits, if_neg hfits]
      exact ⟨rfl, rfl⟩
  · rw [State.copyLine_move hc hkind hs hcode hnext hord hbad hawake ha hb, State.scrPut_frame]
    refine ⟨rfl, by simp, fun x => ?_⟩
    exact (congrArg (memRead scratchFill · x) (State.scrBytes_scrPut (s := s.touch (s.copySegs c)) hexists _)).trans
      (memRead_writes_run ..)

end Sys2Proof
end

