-- ==== Sys2Proof/Proofs/Residency.lean ====
section
/-!
PROOFS. Residency (R107, R117 to R119, R122, R185): what each event of a slice does to the group it names where its conditions
hold, and what a group's move to or from its file leaves unchanged.
-/

namespace Sys2Proof.Machine

/-! ### Changes of residency -/

theorem State.get?_setRes_self {s : State} {gid : Nat} {g : Group} (hg : Tab.get? s.groups gid = some g)
    (r : Residency) : Tab.get? (s.setRes gid r).groups gid = some (g.moved s r) := by
  simp only [State.setRes, State.updGroup_groups, Tab.get?_upd, if_pos, hg]
  rfl

theorem State.get?_setRes_ne (s : State) {gid k : Nat} (hk : k ≠ gid) (r : Residency) :
    Tab.get? (s.setRes gid r).groups k = Tab.get? s.groups k := by
  simp only [State.setRes, State.updGroup_groups, Tab.get?_upd, if_neg hk]

/-- What moves images acts where nothing is in retention, and marks segments as accessed. -/
theorem State.answers_moved {s t : State} {P : State → Prop} (hawake : s.retained = []) (h : ∀ ps, P (t.touch ps)) :
    Answers (.next (s.moved t)) P := by
  obtain ⟨ps, hps⟩ := s.moved_awake t hawake
  exact ⟨_, congrArg _ hps, h ps⟩

/-- An event that is a change of one group's residency changes that group alone, where nothing is in retention. -/
theorem answers_of_setRes {s : State} {gid : Nat} {g : Group} {i : Instr} {r : Residency} {u : State}
    (hg : Tab.get? s.groups gid = some g) (hawake : s.retained = []) (hexec : exec i s = .next (s.moved u))
    (hu : u = s.setRes gid r) :
    Answers (exec i s) fun t =>
      t = { s with groups := t.groups, touched := t.touched, bad := s.bad.filter fun b => b ≠ .registers gid } ∧
      (∀ k, k ≠ gid → Tab.get? t.groups k = Tab.get? s.groups k) ∧
      Tab.get? t.groups gid = some (g.moved s r) := by
  rw [hexec, hu]
  exact State.answers_moved hawake fun _ => ⟨rfl, fun _ hk => s.get?_setRes_ne hk r, State.get?_setRes_self hg r⟩

/-- Where nothing changes no segment is accessed. -/
@[simp] theorem State.moved_self (s : State) : s.moved s = s := by
  simp only [State.moved, moveSegs_self]
  rfl

/-! ### Admission (R117) -/

section
variable {s : State} {gid : Nat} {g : Group} (hg : Tab.get? s.groups gid = some g)
include hg

theorem State.groupAdmit_held (hres : g.res = .waiting) (hplace : s.freePlaces g.core g.slice ≠ 0) (hfits : s.fits g = true)
    (hkept : (s.setRes gid .held).reserveKept g.core = true) : s.groupAdmit gid = s.setRes gid .held := by
  simp [State.groupAdmit, hg, hres, hplace, hfits, hkept]

theorem State.groupAdmit_reserve (hrec : g.recov = none) (hfits : s.fits g = true)
    (hkept : (s.setRes gid .held).reserveKept g.core = false) : s.groupAdmit gid = s := by
  simp [State.groupAdmit, hg, hrec, hfits, hkept]

theorem State.groupAdmit_swapped (hres : g.res = .waiting) (hplace : s.freePlaces g.core g.slice ≠ 0)
    (hfits : s.fits g = false) (hroom : g.image ≤ s.swapRoom g.core)
    (hkept : (s.setRes gid .swapped).reserveKept g.core = true) :
    s.groupAdmit gid = s.setRes gid .swapped := by
  simp [State.groupAdmit, hg, hres, hplace, hfits, hroom, hkept]

end

/-! ### Who waits and who stalls (R118, R119) -/

/-- The largest number of a list that is not empty stands in it. -/
theorem maxNat_mem {l : List Nat} (h : l ≠ []) : maxNat l ∈ l := by
  obtain ⟨x, xs, rfl⟩ := List.exists_cons_of_ne_nil h
  refine List.max?_mem ?_
  rw [List.max?_cons', maxNat, List.foldl_cons, Nat.zero_max]

/-- Some group of a slice is the oldest ready, if one is swapped and ready. -/
theorem State.oldestReady_isSome {s : State} {core sl : Nat} {e : Nat × Group} (he : e ∈ s.groups) (hcore : e.2.core = core)
    (hslice : e.2.slice = sl) (hres : e.2.res = .swapped) (hready : 0 < e.2.readyCnt) :
    (s.oldestReady core sl).isSome = true := by
  have hmem : e ∈ (s.resident core sl).filter fun e => e.2.res = .swapped && decide (0 < e.2.readyCnt) := by
    simp [State.resident, he, hcore, hslice, hres, hready]
  have hmax := maxNat_mem (l := ((s.resident core sl).filter fun e => e.2.res = .swapped && decide (0 < e.2.readyCnt)).map
    fun e => e.2.readyCnt) (by simpa using List.ne_nil_of_mem hmem)
  obtain ⟨x, hx, hxm⟩ := List.mem_map.1 hmax
  simp only [State.oldestReady, Option.isSome_map, List.find?_isSome]
  exact ⟨x, hx, by simpa using hxm⟩

/-- A group of the slice that is held, ready and outside the active set. -/
theorem State.mem_outside {s : State} {core sl : Nat} {e : Nat × Group} : e ∈ s.outside core sl ↔ e ∈ s.groups ∧
    e.2.core = core ∧ e.2.slice = sl ∧ e.2.res = .held ∧ e.1 ∉ s.activeOf core sl ∧ 0 < e.2.readyCnt := by
  simp only [State.outside, State.resident, List.mem_filter, Bool.and_eq_true, Bool.or_eq_true, Bool.not_eq_true',
    decide_eq_true_eq, ← Bool.not_eq_true, List.contains_iff_mem]
  tauto

/-! ### Leaving the active set (R119, R122) -/

theorem State.activeOf_eq {s : State} {core sl : Nat} {x : Slice} (h : Tab.get? s.slices (sliceKey core sl) = some x) :
    s.activeOf core sl = x.active := by
  rw [State.activeOf, h]
  rfl

theorem State.slices_inactive (s : State) (gid : Nat) (g : Group) {x : Slice}
    (h : Tab.get? s.slices (sliceKey g.core g.slice) = some x) :
    (Tab.get? (s.inactive gid g).slices (sliceKey g.core g.slice)).map Slice.active =
      some (x.active.filter fun k => k ≠ gid) := by
  simp [State.inactive, Tab.get?_upd, h]

theorem State.not_mem_activeOf_inactive (s : State) (gid : Nat) (g : Group) :
    gid ∉ (s.inactive gid g).activeOf g.core g.slice := by
  cases h : Tab.get? s.slices (sliceKey g.core g.slice) <;>
    simp [State.activeOf, State.inactive, Tab.get?_upd, h]

theorem State.get?_settle {s : State} {gid : Nat} {g : Group} (hg : Tab.get? s.groups gid = some g) :
    Tab.get? (s.settle gid).groups gid = some g.flush := by
  simp [State.settle, Tab.get?_upd, hg]

theorem State.get?_settle_ne (s : State) {gid k : Nat} (hk : k ≠ gid) :
    Tab.get? (s.settle gid).groups k = Tab.get? s.groups k := by
  simp [State.settle, Tab.get?_upd, hk]

/-! ### Coming in (R119, R185) -/

/-- SWAP_IN of a group whose units fit (R119). -/
theorem State.comesIn_fits {s : State} {gid : Nat} {g : Group}
    (hfits : (s.fits g && (g.recov.isSome || (s.setRes gid .held).reserveKept g.core)) = true) :
    s.comesIn gid g = some (s.setRes gid .held) := by
  rw [State.comesIn, if_pos hfits]

/-- An exchange with the group stalled longest, whose units are no fewer (R119). -/
theorem State.comesIn_exchange {s : State} {gid out : Nat} {g o : Group}
    (hfits : (s.fits g && (g.recov.isSome || (s.setRes gid .held).reserveKept g.core)) = false)
    (hout : s.longestStalled g.core g.slice = some (out, o)) (hroom : o.image ≤ s.swapRoom g.core + g.image)
    (horec : o.recov = none) (hv : g.vUnits ≤ o.vUnits) (hs : g.sUnits ≤ o.sUnits) :
    s.comesIn gid g = some ((((s.settle out).inactive out o).setRes out .swapped).setRes gid .held) := by
  have hvfree : g.vUnits ≤ s.freeV g.core g.slice + o.vUnits := by omega
  have hsfree : g.sUnits ≤ s.freeS g.core g.slice + o.sUnits := by omega
  have hrep : g.replaces o = true := by simp [Group.replaces, horec, hv, hs]
  simp [State.comesIn, hfits, hout, hroom, hvfree, hsfree, hrep]

theorem State.badImage_iff {s : State} {gid : Nat} : s.badImage gid = true ↔ BadLoc.registers gid ∈ s.bad := by
  rw [State.badImage, List.any_eq_true]
  constructor
  · rintro ⟨b, hb, heq⟩
    cases b
    case registers g =>
      rw [decide_eq_true_eq] at heq
      exact heq ▸ hb
    all_goals cases heq
  · exact fun h => ⟨_, h, by simp⟩

/-- An entry is kept where a test of its number says so. -/
theorem Tab.get?_keep_key {α : Type} (t : Tab α) (p : Nat → Bool) (k : Nat) :
    Tab.get? (Tab.keep t fun n _ => p n) k = if p k = true then Tab.get? t k else none := by
  induction t with
  | nil => simp [Tab.keep]
  | cons e t ih =>
    have hcons : Tab.keep (e :: t) (fun n _ => p n) =
        if p e.1 = true then e :: Tab.keep t (fun n _ => p n) else Tab.keep t fun n _ => p n := List.filter_cons ..
    rw [hcons]
    by_cases hk : e.1 = k
    · subst hk
      by_cases hp : p e.1 = true <;> simp [hp, ih, Tab.get?_cons]
    · split <;> simp [hk, ih, Tab.get?_cons]

/-- The groups of a launch whose task ends are gone (R356). -/
theorem State.get?_killLaunch {s : State} {k : Nat} {g : Group} (hg : Tab.get? s.groups k = some g) (status : Nat) :
    Tab.get? (s.killLaunch g.launch status).groups k = none := by
  have hgroups : (s.killLaunch g.launch status).groups = Tab.keep s.groups fun k _ =>
      !((Tab.get? s.groups k).map fun x => decide (x.launch = g.launch)).getD false := rfl
  rw [hgroups, Tab.get?_keep_key, hg]
  simp

/-! ### The events of a slice -/

theorem exec_groupAdmit (gid : Nat) (s : State) : exec (.groupAdmit gid) s = .next (s.moved (s.groupAdmit gid)) := rfl
theorem exec_swapOut (gid : Nat) (s : State) : exec (.swapOut gid) s = .next (s.moved (s.swapOut gid)) := rfl
theorem exec_swapIn (gid : Nat) (s : State) : exec (.swapIn gid) s = .next (s.moved (s.swapIn gid)) := rfl
theorem exec_activeSetEnter (gid : Nat) (s : State) : exec (.activeSetEnter gid) s = .next (s.activeEnter gid) := rfl
theorem exec_activeSetLeave (gid : Nat) (s : State) : exec (.activeSetLeave gid) s = .next (s.activeLeave gid) := rfl
theorem exec_groupFree (gid : Nat) (s : State) : exec (.groupFree gid) s = .next (s.groupFree gid) := rfl

section
variable {s : State} {gid : Nat} {g : Group} (hg : Tab.get? s.groups gid = some g)
include hg

/-- SWAP_OUT of a group that stalls, while units are wanted and its image has room (R118, R119). -/
theorem State.swapOut_eq {c : Core} (hc : Tab.get? s.cores g.core = some c) (hres : g.res = .held)
    (hidle : if gid ∈ s.activeOf g.core g.slice then 0 < g.idleCnt else g.readyCnt = 0)
    (hlong : c.swapmin ≤ s.coreCycles g.core - g.since)
    (hwanted : ∃ e ∈ s.groups, e.2.core = g.core ∧ e.2.slice = g.slice ∧
      (e.2.res = .waiting ∨ (e.2.res = .swapped ∧ 0 < e.2.readyCnt)))
    (hroom : g.image ≤ s.swapRoom g.core) :
    s.swapOut gid = ((s.settle gid).inactive gid g).setRes gid .swapped := by
  have hstalled : s.stalledLong gid g = true := by
    by_cases hin : gid ∈ s.activeOf g.core g.slice <;>
      simpa [State.stalledLong, State.idle, hres, hc, hlong, hin] using hidle
  have hunits : (s.oldestReady g.core g.slice).isSome = true ∨
      (s.groups.any fun e => e.2.core = g.core && e.2.slice = g.slice && e.2.res = .waiting) = true := by
    obtain ⟨e, he, hcore, hslice, hwaits | ⟨hswapped, hready⟩⟩ := hwanted
    · exact .inr (List.any_eq_true.2 ⟨e, he, by simp [hcore, hslice, hwaits]⟩)
    · exact .inl (State.oldestReady_isSome he hcore hslice hswapped hready)
  simp only [State.swapOut, hg, hstalled, Bool.or_eq_true, hunits, hroom, decide_true, Bool.and_true, Bool.true_and, if_true]

/-- SWAP_IN of the oldest ready group where it can come in: it does, unless its image has an error, which ends its task
(R185). -/
theorem State.swapIn_eq {u : State} (hold : s.oldestReady g.core g.slice = some gid) (hin : s.comesIn gid g = some u) :
    s.swapIn gid = if BadLoc.registers gid ∈ s.bad then s.killLaunch g.launch 5 else u := by
  simp only [State.swapIn, hg, hold, hin, State.badImage_iff, ne_eq, not_true, if_false]
  rfl

/-- ACTIVE_SET_ENTER of the group ready longest, where a place is free (R122). -/
theorem State.activeEnter_eq {x : Slice} (hx : Tab.get? s.slices (sliceKey g.core g.slice) = some x) (hres : g.res = .held)
    (hready : 0 < g.readyCnt) (hout : gid ∉ x.active) (hplace : x.active.length < 8)
    (hfirst : ∀ e ∈ s.groups, e.2.core = g.core → e.2.slice = g.slice → e.2.res = .held → e.1 ∉ x.active →
      e.2.readyCnt ≤ g.readyCnt) :
    s.activeEnter gid = (s.updGroup gid fun g => { g with readyCnt := 0, idleCnt := 0, waitCnt := 0 }).updSlice
      (sliceKey g.core g.slice) fun sl => { sl with active := sl.active ++ [gid] } := by
  have hact := State.activeOf_eq hx
  have hself : (s.outside g.core g.slice).any (fun e => e.1 = gid) = true :=
    List.any_eq_true.2 ⟨(gid, g), State.mem_outside.2 ⟨Tab.get?_mem hg, rfl, rfl, hres, hact ▸ hout, hready⟩, by simp⟩
  have hlongest : (s.outside g.core g.slice).all (fun e => decide (e.2.readyCnt ≤ g.readyCnt)) = true := by
    refine List.all_eq_true.2 fun e he => decide_eq_true ?_
    obtain ⟨hmem, hcore, hslice, hheld, hnot, -⟩ := State.mem_outside.1 he
    exact hfirst e hmem hcore hslice hheld (hact ▸ hnot)
  simp [State.activeEnter, hg, hact, hplace, hself, hlongest]

/-- ACTIVE_SET_LEAVE of a group not ready for 256 slice cycles, while another waits outside (R122). -/
theorem State.activeLeave_eq {x : Slice} (hx : Tab.get? s.slices (sliceKey g.core g.slice) = some x)
    (hidle : 256 ≤ g.idleCnt) (hwaits : ∃ e ∈ s.groups, e.2.core = g.core ∧ e.2.slice = g.slice ∧ e.2.res = .held ∧
      e.1 ∉ x.active ∧ 0 < e.2.readyCnt) : s.activeLeave gid = (s.settle gid).inactive gid g := by
  have hsome : (s.outside g.core g.slice).isEmpty = false := by
    obtain ⟨e, he, hcore, hslice, hres, hnot, hready⟩ := hwaits
    have hmem := State.mem_outside.2 ⟨he, hcore, hslice, hres, State.activeOf_eq hx ▸ hnot, hready⟩
    exact List.isEmpty_eq_false_iff.2 (List.ne_nil_of_mem hmem)
  simp [State.activeLeave, hg, hidle, hsome]

/-- GROUP_FREE of a group that is complete and owes nothing (R107). -/
theorem State.groupFree_eq (hdone : g.done = true) (hquiet : ∀ c, c < 6 → g.cnt c = 0) (hpend : g.pend = []) :
    s.groupFree gid = { s.inactive gid g with groups := Tab.del s.groups gid } := by
  have hq : g.quiet = true := by simpa [Group.quiet] using hquiet
  simp only [State.groupFree, hg, hdone, hq, hpend]
  rfl

end

end Sys2Proof.Machine

namespace Sys2Proof

open Machine

/-- Settles O44: each event is the model's own change of the group and of its slice where its conditions hold, and what moves
images waits for nothing where no segment is in retention (moved_awake). -/
theorem residencyEvents : Obligations.ResidencyEvents := by
  intro s gid g hg hawake
  refine ⟨fun hres _ hplace hfits hkept => ?_, fun _ hrec hfits hkept => ?_, fun hres _ hplace hfits hroom hkept => ?_,
    fun c hc hres hidle hlong hwanted hroom => ?_, fun l hold hbad hfits hkept hl hstatus => ?_,
    fun hold hbad => ⟨fun hfits => ?_, fun out o hfits hout ho hne hcore hslice hroom _ horec hv hs => ?_⟩,
    fun x hx hres hready hout hplace hfirst => ?_, fun x hx hidle hwaits => ?_, fun hdone hquiet hpend => ?_⟩
  · exact answers_of_setRes hg hawake (exec_groupAdmit gid s) (State.groupAdmit_held hg hres hplace hfits hkept)
  · rw [exec_groupAdmit, State.groupAdmit_reserve hg hrec hfits hkept, State.moved_self]
  · exact answers_of_setRes hg hawake (exec_groupAdmit gid s) (State.groupAdmit_swapped hg hres hplace hfits hroom hkept)
  · rw [exec_swapOut, State.swapOut_eq hg hc hres hidle hlong hwanted hroom]
    exact State.answers_moved hawake fun _ => ⟨fun x hx => (s.settle gid).slices_inactive gid g hx,
      State.get?_setRes_self (State.get?_settle hg) _, by simp [State.touch, State.setRes]⟩
  · have hin : s.comesIn gid g = some (s.setRes gid .held) := State.comesIn_fits (by simp [hfits, hkept])
    have hends := s.killLaunch_status g.launch 5 l hl
    rw [hstatus] at hends
    rw [exec_swapIn, State.swapIn_eq hg hold hin, if_pos hbad]
    exact State.answers_moved hawake fun _ => ⟨State.get?_killLaunch hg 5, hends⟩
  · have hin := State.swapIn_eq hg hold (State.comesIn_fits hfits)
    rw [if_neg hbad] at hin
    exact answers_of_setRes hg hawake (exec_swapIn gid s) hin
  · have hleft : Tab.get? (((s.settle out).inactive out o).setRes out .swapped).groups gid = some g :=
      (State.get?_setRes_ne _ hne.symm _).trans ((s.get?_settle_ne hne.symm).trans hg)
    have hwent : Tab.get? (((s.settle out).inactive out o).setRes out .swapped).groups out =
        some (o.flush.moved s .swapped) := State.get?_setRes_self (State.get?_settle ho) _
    have hgone := (s.settle out).not_mem_activeOf_inactive out o
    rw [hcore, hslice] at hgone
    rw [exec_swapIn, State.swapIn_eq hg hold (State.comesIn_exchange hfits hout hroom horec hv hs), if_neg hbad]
    exact State.answers_moved hawake fun _ =>
      ⟨State.get?_setRes_self hleft _, (State.get?_setRes_ne _ hne _).trans hwent, hgone⟩
  · rw [exec_activeSetEnter, State.activeEnter_eq hg hx hres hready hout hplace hfirst]
    exact ⟨_, rfl, by simp [Tab.get?_upd, hx], by simp [Tab.get?_upd, hg]⟩
  · rw [exec_activeSetLeave, State.activeLeave_eq hg hx hidle hwaits]
    exact ⟨_, rfl, fun y hy => (s.settle gid).slices_inactive gid g hy, State.get?_settle hg⟩
  · rw [exec_groupFree, State.groupFree_eq hg hdone hquiet hpend]
    exact ⟨_, rfl, fun y hy => s.slices_inactive gid g hy, by simp [Tab.get?_del], rfl,
      fun k hk => by simp [Tab.get?_del, hk]⟩

end Sys2Proof
end

