-- ==== Sys2Proof/Proofs/MigrationOrder.lean ====
section
/-!
PROOFS. Why PreemptionEvents fails. The statement asks for an ordered table of blocks where a job is restored (R376), but not
where a block migrates (R393). In a table that lists a number twice the later entry is what no lookup finds; but the rule that
orders act in turn on their links (R390) goes over all entries and compares each with what its number reads as. There the two
differ, and so the order to freeze a block waits behind a message on the link of another cluster.
-/

namespace Sys2Proof.Machine

/-- A block without groups, which runs on core 0. -/
def lonelyBlock : Block := { probeBlock with groups := [] }

/-- An entry under the same number that is being evicted from core 4, which is of cluster 1. -/
def shadowBlock : Block := { lonelyBlock with core := 4, state := .evicting }

/-- The machine after power-on with the probe's job and launch, block 0 and its shadow, and a message on the link to the Pup of
cluster 1. -/
def shadowedState : State :=
  { State.reset with
    hub := { State.reset.hub with toPup := [(1, [.stall 0])] }
    work := { State.reset.work with
      jobs := [(0, probeJob)]
      launches := [(0, probeLaunch [])]
      blocks := [(0, lonelyBlock), (0, shadowBlock)] } }

theorem linkClear_shadowedState : shadowedState.linkClear 0 = true := by decide

/-- The order to move block 0 to core 1 waits: its shadow reads as a running block's eviction, on cluster 1's link. -/
theorem delivered_migrate_shadowedState :
    shadowedState.delivered (shadowedState.migrate 0 1) = shadowedState := by
  have hwaits : ((shadowedState.migrate 0 1).work.blocks.all fun e =>
      !Block.ordered (Tab.get? shadowedState.work.blocks e.1) e.2 || shadowedState.linkClear (clusterOf e.2.core)) =
        false := by decide
  rw [State.delivered, hwaits]
  rfl

theorem exec_migrate_shadowedState : exec (.migrate 0 1) shadowedState = .next shadowedState := by
  change Host.Outcome.next (shadowedState.blocksMoved (shadowedState.delivered (shadowedState.migrate 0 1))) = _
  rw [delivered_migrate_shadowedState, State.blocksMoved_self]

end Sys2Proof.Machine

namespace Sys2Proof

open Machine

/-- Refutes O56: with a second entry of block 0 in the table, the order to migrate it waits behind a message on another
cluster's link, and it is not frozen. -/
theorem not_preemptionEvents : ¬ Obligations.PreemptionEvents := by
  intro h
  obtain ⟨-, hblocks⟩ := h shadowedState rfl
  obtain ⟨hmigrate, -⟩ := hblocks 0 lonelyBlock rfl
  obtain ⟨t, hexec, hstate, -⟩ := hmigrate 1 rfl (by decide) rfl (by decide) (by decide) linkClear_shadowedState
  cases exec_migrate_shadowedState.symm.trans hexec
  cases hstate

end Sys2Proof
end

