-- ==== Sys2Proof/Proofs/Translation.lean ====
section
/-!
PROOFS. What looking up a descriptor and translating lines do (R191, R197, R207, R210, R212): they change the caches of the dies
alone, and answer the same whether or not the group's landed results stand in the state.
-/

namespace Sys2Proof.Machine

/-! ### Only the dies' caches change -/

/-- The state with other caches of its dies, which is all that translation changes (R191, R197). -/
def State.withDies (s : State) (ds : Tab Die) : State := { s with dies := ds }

/-- Changes of the caches alone, one after another. -/
theorem State.withDies_trans {s t u : State} (h : t = s.withDies t.dies) (h' : u = t.withDies u.dies) :
    u = s.withDies u.dies := by
  rw [h] at h'
  exact h'

theorem State.descWords_frame (s : State) (who : Option Nat) (die job t : Nat) :
    (s.descWords who die job t).2 = s.withDies (s.descWords who die job t).2.dies := by
  unfold State.descWords
  repeat' split
  all_goals rfl

theorem State.desc_frame (s : State) (who : Option Nat) (die job t : Nat) :
    (s.desc who die job t).2 = s.withDies (s.desc who die job t).2.dies := by
  have hfirst := s.descWords_frame who die job t
  unfold State.desc
  dsimp only
  repeat' split
  any_goals exact hfirst
  all_goals exact State.withDies_trans hfirst (State.descWords_frame ..)

theorem State.extent_frame (s : State) (die job obj ext : Nat) :
    (s.extent die job obj ext).2 = s.withDies (s.extent die job obj ext).2.dies := by
  unfold State.extent
  repeat' split
  all_goals rfl

theorem State.lineOk_frame (s : State) (die job obj line right : Nat) :
    (s.lineOk die job obj line right).2 = s.withDies (s.lineOk die job obj line right).2.dies :=
  s.extent_frame die job obj (line / 2 ^ 21)

theorem State.linesOk_frame (s : State) (die job obj right : Nat) (ls : List Nat) :
    (s.linesOk die job obj right ls).2 = s.withDies (s.linesOk die job obj right ls).2.dies := by
  induction ls generalizing s with
  | nil => rfl
  | cons l ls ih => exact State.withDies_trans (s.lineOk_frame die job obj l right) (ih _)

/-! ### Landed results change no answer -/

section
variable {s : State} {gid : Nat} {g : Group} (hlaunch : (Tab.get? s.groups gid).map Group.launch = some g.launch)
include hlaunch

theorem State.sees_setGroup (who : Option Nat) (v : View) : (s.setGroup gid g).sees who v = s.sees who v := by
  cases who with
  | none => rfl
  | some k =>
    have hsame : ∀ n, ((Tab.get? (s.setGroup gid g).groups k).map fun x => decide (n ≤ x.launch)) =
        (Tab.get? s.groups k).map fun x => decide (n ≤ x.launch) := by
      intro n
      rw [State.setGroup_groups, Tab.get?_set]
      split
      · rename_i hk
        obtain ⟨g0, hg0, hl⟩ := Option.map_eq_some_iff.1 hlaunch
        simp [hk, hg0, hl]
      · rfl
    simp only [State.sees, hsame]

theorem State.viewOf_setGroup (who : Option Nat) (job t : Nat) :
    (s.setGroup gid g).viewOf who job t = s.viewOf who job t := by
  have hsees : (s.setGroup gid g).sees who = s.sees who := funext (State.sees_setGroup hlaunch who)
  simp only [State.viewOf, State.setGroup_views, hsees]

theorem State.descWords_setGroup (who : Option Nat) (die job t : Nat) :
    (s.setGroup gid g).descWords who die job t =
      ((s.descWords who die job t).1, (s.descWords who die job t).2.setGroup gid g) := by
  have hview := State.viewOf_setGroup hlaunch who job t
  simp only [State.descWords, hview, State.setGroup_dies]
  repeat' split
  all_goals rfl

theorem State.desc_setGroup (who : Option Nat) (die job t : Nat) :
    (s.setGroup gid g).desc who die job t = ((s.desc who die job t).1, (s.desc who die job t).2.setGroup gid g) := by
  have hnext : (Tab.get? (s.descWords who die job t).2.groups gid).map Group.launch = some g.launch := by
    rw [State.descWords_frame]
    exact hlaunch
  simp only [State.desc, State.descWords_setGroup hlaunch, State.descWords_setGroup hnext]
  repeat' split
  all_goals rfl

end

theorem State.extent_setGroup (s : State) (gid : Nat) (g : Group) (die job obj ext : Nat) :
    (s.setGroup gid g).extent die job obj ext =
      ((s.extent die job obj ext).1, (s.extent die job obj ext).2.setGroup gid g) := by
  simp only [State.extent, State.setGroup_dies]
  repeat' split
  all_goals rfl

theorem State.lineOk_setGroup (s : State) (gid : Nat) (g : Group) (die job obj line right : Nat) :
    (s.setGroup gid g).lineOk die job obj line right =
      ((s.lineOk die job obj line right).1, (s.lineOk die job obj line right).2.setGroup gid g) := by
  simp only [State.lineOk, State.physOf, State.extent_setGroup]
  rfl

theorem State.linesOk_setGroup (s : State) (gid : Nat) (g : Group) (die job obj right : Nat) (ls : List Nat) :
    (s.setGroup gid g).linesOk die job obj right ls =
      ((s.linesOk die job obj right ls).1, (s.linesOk die job obj right ls).2.setGroup gid g) := by
  induction ls generalizing s with
  | nil => rfl
  | cons l ls ih => simp only [State.linesOk, State.lineOk_setGroup, ih]

end Sys2Proof.Machine
end

