-- ==== Sys2Proof/Proofs/Accesses.lean ====
section
/-!
PROOFS. Global accesses up to their translation (R200, R202, R203, R212, R232, R240): which fault an access raises first, when it
ends its task, and what it goes on with where nothing stops it.
-/

namespace Sys2Proof.Machine

/-! ### Lanes of a plan (R200) -/

theorem getLsbD_foldl_laneBit (l : List Nat) (m : Mask) {k : Nat} (hk : k < 64) :
    (l.foldl (fun m i => m ||| laneBit i) m).getLsbD k = (m.getLsbD k || decide (k ∈ l)) := by
  induction l generalizing m with
  | nil => simp
  | cons i l ih =>
    rw [List.foldl_cons, ih, BitVec.getLsbD_or, getLsbD_laneBit]
    simp [hk, Bool.or_assoc, eq_comm]

/-- The lanes an access is checked for: one for a uniform access, else those of Exec (R177, R200). -/
def Group.accessLanes (g : Group) (uniform : Bool) : List Nat := if uniform then [0] else maskList g.exec

/-- The lane whose address stands for lane k's. -/
def addressLane (uniform : Bool) (k : Nat) : Nat := if uniform then 0 else k

/-- A mask of a plan holds the lanes of Exec, helpers apart, that its test names; a uniform access is tested as one lane. -/
theorem Group.getLsbD_planMask (g : Group) (uniform : Bool) (p : Nat → Bool) {k : Nat} (hk : k < 64) :
    (if uniform then (if (g.accessLanes uniform).any p then g.active else 0#64)
      else ((g.accessLanes uniform).filter p).foldl (fun m i => m ||| laneBit i) 0#64 &&& ~~~g.helpers).getLsbD k = true ↔
      g.active.getLsbD k = true ∧ p (addressLane uniform k) = true := by
  cases uniform with
  | true =>
    cases hp : p 0 <;> simp [Group.accessLanes, addressLane, hp]
  | false =>
    have hmem : k ∈ (maskList g.exec).filter p ↔ g.exec.getLsbD k = true ∧ p k = true := by
      simp [mem_maskList, hk]
    simp only [Group.accessLanes, addressLane, Bool.false_eq_true, if_false, BitVec.getLsbD_and,
      getLsbD_foldl_laneBit _ _ hk, hmem, Group.active, Bool.and_eq_true, BitVec.getLsbD_zero, Bool.false_or, decide_eq_true_eq]
    exact and_right_comm

section
variable (g : Group) (uniform : Bool) (addr : Nat → Option Nat) (size : Nat)

theorem Group.names_plan_mis : g.Names (g.plan (g.accessLanes uniform) uniform addr size).mis
    fun k => ∃ a, addr (addressLane uniform k) = some a ∧ a % size ≠ 0 := by
  intro k hk
  refine (g.getLsbD_planMask uniform _ hk).trans (and_congr_right fun _ => ?_)
  cases h : addr (addressLane uniform k) <;> simp [h]

theorem Group.names_plan_out : g.Names (g.plan (g.accessLanes uniform) uniform addr size).out
    fun k => addr (addressLane uniform k) = none := by
  intro k hk
  refine (g.getLsbD_planMask uniform _ hk).trans (and_congr_right fun _ => ?_)
  cases h : addr (addressLane uniform k) <;> simp [h]

end

/-- A mask that names lanes is not empty exactly when there is one. -/
theorem Group.Names.ne_zero_iff {g : Group} {m : Mask} {p : Nat → Prop} (h : g.Names m p) :
    m ≠ 0#64 ↔ ∃ k, k < 64 ∧ g.active.getLsbD k = true ∧ p k := by
  rw [← bne_iff_ne, mask_bne_zero, List.any_eq_true]
  constructor
  · rintro ⟨k, hk, hm⟩
    have hlt := List.mem_range.1 hk
    exact ⟨k, hlt, (h k hlt).1 hm⟩
  · rintro ⟨k, hk, hp⟩
    exact ⟨k, List.mem_range.2 hk, (h k hk).2 hp⟩

/-! ### An access -/

/-- The accesses of a plan, those of helper lanes apart where `nohelp` says so (R88). -/
def Plan.unhelped (p : Plan) (g : Group) (nohelp : Bool) : Plan :=
  { p with accs := p.accs.filter fun a => !nohelp || !g.helpers.getLsbD a.1 }

theorem Plan.unhelped_eq (p : Plan) (g : Group) (nohelp : Bool) :
    p.unhelped g nohelp = if nohelp then { p with accs := p.accs.filter fun a => !g.helpers.getLsbD a.1 } else p := by
  cases nohelp <;> simp [Plan.unhelped]

/-- What the lanes of an access come to (R199, R200). -/
def State.accessPlan (s : State) (gid : Nat) (g : Group) (b : Nat) (uniform : Bool) (idx : Nat → Word) (off : Int)
    (size right : Nat) (nohelp : Bool) : Plan :=
  (g.plan (g.accessLanes uniform) uniform
    (fun k => laneAddress (s.recDesc gid g b).1 (g.recWord b) (idx k).toNat off size (decide (right ≠ rRead)))
    size).unhelped g nohelp

section
variable {s : State} {gid : Nat} {g : Group} {b : Nat} {uniform : Bool} {idx : Nat → Word} {off : Int}
  {size right cls : Nat} {ldx : Option Nat} {nohelp : Bool}
  {k : State → Group → Option Desc → Plan → List (Nat × Nat) → Eff}

theorem State.recDesc_frame (s : State) (gid : Nat) (g : Group) (b : Nat) :
    ∃ ds, (s.recDesc gid g b).2 = s.withDies ds := ⟨_, s.desc_frame ..⟩

section
variable (hlaunch : (Tab.get? s.groups gid).map Group.launch = some g.launch)
include hlaunch

theorem State.recDesc_setGroup :
    (s.setGroup gid g).recDesc gid g b = ((s.recDesc gid g b).1, (s.recDesc gid g b).2.setGroup gid g) :=
  State.desc_setGroup hlaunch ..

/-- What an access goes by in the state that holds the landed results is what it goes by in the state itself. -/
theorem State.access_eq : (s.setGroup gid g).access gid g b (g.accessLanes uniform) uniform idx off size right cls ldx nohelp k =
    let p := s.accessPlan gid g b uniform idx off size right nohelp
    let lines := dedup (p.accs.map fun a => lineOf a.2)
    if p.mis != 0#64 then .trap (.at 0x09 p.mis)
    else if p.out != 0#64 && (g.recWord b 2).getLsbD 16 then .trap ⟨0x08, b, some p.out, 0, 0⟩
    else if !s.tagLive (s.jobOf g) g.lanes.ctag.toNat then .trap (.withDetail 0x0C 8)
    else if !(ldx.all fun t => s.tagKnown (s.jobOf g) t) then .trap (.withDetail 0x0C 7)
    else if cntLimit cls ≤ g.cnt cls || Config.requestEntries < s.requests g.core + lines.length ||
        (right ≠ rRead && Config.sfqLines < s.queued g.core + lines.length) then .wait
    else match s.translated gid g b (s.recDesc gid g b).1 right lines with
      | none => .kill stLease
      | some ps => k (((s.recDesc gid g b).2.linesOk (dieOf g.core) (s.jobOf g) (((s.recDesc gid g b).1.map Desc.obj).getD 0)
          right lines).2.setGroup gid g) { g with bounds := g.bounds || p.out != 0#64 } (s.recDesc gid g b).1 p ps := by
  have hdesc : (s.setGroup gid g).desc (some gid) (dieOf g.core) ((s.setGroup gid g).jobOf g)
      (bitsOf (g.recWord b 0).toNat 20 12) = ((s.recDesc gid g b).1, (s.recDesc gid g b).2.setGroup gid g) :=
    State.recDesc_setGroup hlaunch
  obtain ⟨ds, hds⟩ := s.recDesc_frame gid g b
  simp only [State.access, hdesc, State.translated, State.linesOk_setGroup, ← Plan.unhelped_eq]
  rw [hds]
  rfl

/-- An access that raises no fault and has room ends its task or goes on with its lines (R212). -/
theorem State.access_of_reaches {d : Option Desc} {p : Plan} {lines : List Nat}
    (h : AccessReaches s gid g b (g.accessLanes uniform) uniform idx off size right cls ldx nohelp d p lines) :
    (s.setGroup gid g).access gid g b (g.accessLanes uniform) uniform idx off size right cls ldx nohelp k =
      match s.translated gid g b d right lines with
      | none => .kill stLease
      | some ps => k (((s.recDesc gid g b).2.linesOk (dieOf g.core) (s.jobOf g) ((d.map Desc.obj).getD 0) right
          lines).2.setGroup gid g) { g with bounds := g.bounds || p.out != 0#64 } d p ps := by
  obtain ⟨rfl, hplan, haligned, hextent, htag, hknown, rfl, hcount, hrequests, hqueued⟩ := h
  replace hplan : p = s.accessPlan gid g b uniform idx off size right nohelp := hplan
  have hext : (p.out != 0#64 && (g.recWord b 2).getLsbD 16) = false := by
    simpa [or_iff_not_imp_left] using hextent
  have hctx : (ldx.all fun t => s.tagKnown (s.jobOf g) t) = true := (Option.all_eq_true ..).2 hknown
  rw [State.access_eq hlaunch, ← hplan]
  simp only [haligned, hext, htag, hctx, bne_self_eq_false, Bool.not_true, Bool.false_eq_true, if_false]
  refine if_neg ?_
  simpa [Nat.not_lt.2 hrequests] using ⟨hcount, hqueued⟩

end
end

/-! ### What stops an access -/

theorem Ready.launch {i : Instr} {s : State} {gid : Nat} {g : Group} {cl : Clause} (h : Ready i s gid g cl) :
    (Tab.get? s.groups gid).map Group.launch = some g.launch := by
  obtain ⟨g0, hg0, rfl⟩ := Option.map_eq_some_iff.1 h.group
  rw [hg0, Group.landDue_frame]
  rfl

section
variable {i : Instr} {s : State} {gid : Nat} {g : Group} {cl : Clause} {eff : State → Nat → Group → Clause → Eff}
  (hr : Ready i s gid g cl)
include hr

theorem issue_of_trap {c : Cause} (he : eff (s.setGroup gid g) gid g cl = .trap c) :
    issue i eff s = .next ((if c.code = 0x08 then s.updGroup gid (fun g => { g with bounds := true }) else s).raise gid cl c
      cl.pos cl.pos false) := by
  rw [issue_ready hr, he]

theorem issue_of_kill {status : Nat} (he : eff (s.setGroup gid g) gid g cl = .kill status) :
    issue i eff s = .next (s.killLaunch g.launch status) := by
  rw [issue_ready hr, he]

theorem issue_of_wait (he : eff (s.setGroup gid g) gid g cl = .wait) : issue i eff s = .next s.notIssued := by
  rw [issue_ready hr, he]

/-- A word that ends the task leaves no group of its launch, which completes with the status (R212, R356). -/
theorem endsTask_of_kill {status : Nat} (hexec : exec i s = issue i eff s)
    (he : eff (s.setGroup gid g) gid g cl = .kill status) : EndsTask i s g status := by
  refine ⟨_, hexec.trans (issue_of_kill hr he), rfl, fun k x hx hl => ?_, fun l hl hnone => ?_⟩
  · rw [← hl]
    exact State.get?_killLaunch hx status
  · rw [State.killLaunch_status s g.launch status l hl, hnone]
    rfl

/-- A word whose meaning is an access stops where AccessStops says. -/
theorem accessStops_of_access {b : Nat} {uniform : Bool} {idx : Nat → Word} {off : Int} {size right cls : Nat}
    {ldx : Option Nat} {nohelp : Bool} (hexec : exec i s = issue i eff s)
    (he : ∃ k, eff (s.setGroup gid g) gid g cl =
      (s.setGroup gid g).access gid g b (g.accessLanes uniform) uniform idx off size right cls ldx nohelp k) :
    AccessStops i s gid g cl b (g.accessLanes uniform) uniform idx off size right cls ldx nohelp := by
  obtain ⟨k, he⟩ := he
  have hmis := g.names_plan_mis uniform (fun k => laneAddress (s.recDesc gid g b).1 (g.recWord b) (idx k).toNat off size
    (decide (right ≠ rRead))) size
  have hout := g.names_plan_out uniform (fun k => laneAddress (s.recDesc gid g b).1 (g.recWord b) (idx k).toNat off size
    (decide (right ≠ rRead))) size
  have haccess := he.trans (State.access_eq hr.launch)
  change g.Names (s.accessPlan gid g b uniform idx off size right nohelp).mis _ at hmis
  change g.Names (s.accessPlan gid g b uniform idx off size right nohelp).out _ at hout
  generalize s.accessPlan gid g b uniform idx off size right nohelp = p at haccess hmis hout
  have hclear : (¬∃ j, j < 64 ∧ g.active.getLsbD j = true ∧ _) → ¬(p.mis != 0#64) = true :=
    fun hno hne => hno (hmis.ne_zero_iff.1 (bne_iff_ne.1 hne))
  refine ⟨fun hany => ⟨_, hmis, ?_⟩, fun hno hany hbit => ⟨_, hout, ?_⟩, fun hno hin => ?_, fun q lines h hnone => ?_⟩
  · exact hexec.trans (issue_of_trap hr (haccess.trans (if_pos (bne_iff_ne.2 (hmis.ne_zero_iff.2 hany)))))
  · have hfault : (p.out != 0#64 && (g.recWord b 2).getLsbD 16) = true := by
      rw [hbit, Bool.and_true, bne_iff_ne]
      exact hout.ne_zero_iff.2 hany
    exact hexec.trans (issue_of_trap hr (haccess.trans ((if_neg (hclear hno)).trans (if_pos hfault))))
  · have hpass : ¬(p.out != 0#64 && (g.recWord b 2).getLsbD 16) = true := by
      rw [Bool.and_eq_true, bne_iff_ne]
      rintro ⟨hne, hbit⟩
      rcases hin with hin | hin
      · exact hin (hout.ne_zero_iff.1 hne)
      · exact Bool.false_ne_true (hin.symm.trans hbit)
    refine ⟨fun hdead => ?_, fun hlive t ht hunknown => ?_⟩
    · have hnotlive : (!s.tagLive (s.jobOf g) g.lanes.ctag.toNat) = true := by rw [hdead]; rfl
      exact hexec.trans (issue_of_trap hr (haccess.trans ((if_neg (hclear hno)).trans ((if_neg hpass).trans
        (if_pos hnotlive)))))
    · have hpasses : ¬(!s.tagLive (s.jobOf g) g.lanes.ctag.toNat) = true := by rw [hlive]; exact Bool.false_ne_true
      have hnotknown : (!ldx.all fun t => s.tagKnown (s.jobOf g) t) = true := by rw [ht, Option.all_some, hunknown]; rfl
      exact hexec.trans (issue_of_trap hr (haccess.trans ((if_neg (hclear hno)).trans ((if_neg hpass).trans
        ((if_neg hpasses).trans (if_pos hnotknown))))))
  · refine endsTask_of_kill hr hexec (he.trans ((State.access_of_reaches hr.launch h).trans ?_))
    rw [hnone]
    rfl

end

end Sys2Proof.Machine
end

