-- ==== Sys2Proof/Proofs/MemoryIssue.lean ====
section
/-!
PROOFS. Loads, stores, atomics and reductions that nothing stops (R127, R199 to R205, R243, R253): each is an access that goes on
with its lines, becomes an operation under way, is counted and marks its destination pending.
-/

namespace Sys2Proof.Machine

/-! ### Completion of a word that changes more than its group (R90) -/

/-- The state after a completed word, which left the state `u` with its group as `g`, has moved on. -/
def State.completed (u : State) (gid : Nat) (g : Group) (cl : Clause) (i : Instr) : State :=
  (u.observe gid i).setGroup gid (g.advance cl i .seq)

theorem issue_of_done {i : Instr} {s u : State} {gid : Nat} {g g' : Group} {cl : Clause}
    {eff : State → Nat → Group → Clause → Eff} (hr : Ready i s gid g cl)
    (he : eff (s.setGroup gid g) gid g cl = .done u .seq []) (hg : Tab.get? u.groups gid = some g') (hs : Steady g') :
    issue i eff s = .next (u.completed gid g' cl i) := by
  have hnext := hs.advance cl i .seq
  rw [issue_ready hr, he]
  exact congrArg Host.Outcome.next (finish_after u gid g' cl i .seq nofun hg hnext.deadlocked_eq_false hnext.step)

section
variable (u : State) (gid : Nat) (g : Group) (cl : Clause) (i : Instr)

/-- Moving on changes groups and views only. -/
theorem State.completed_frame : u.completed gid g cl i =
    { u with groups := (u.completed gid g cl i).groups, views := (u.completed gid g cl i).views } := by
  rw [State.completed, State.observe_frame]
  rfl

@[simp] theorem State.completed_ops : (u.completed gid g cl i).ops = u.ops := by rw [State.completed_frame]
@[simp] theorem State.completed_hbm : (u.completed gid g cl i).hbm = u.hbm := by rw [State.completed_frame]
@[simp] theorem State.completed_work : (u.completed gid g cl i).work = u.work := by rw [State.completed_frame]
@[simp] theorem State.completed_kennel : (u.completed gid g cl i).kennel = u.kennel := by rw [State.completed_frame]
@[simp] theorem State.completed_dies : (u.completed gid g cl i).dies = u.dies := by rw [State.completed_frame]

theorem State.completed_groups : (u.completed gid g cl i).groups = Tab.set u.groups gid (g.advance cl i .seq) := by
  simp [State.completed]

variable {u gid g cl i}

theorem State.completed_groupIs {P : Group → Prop} (h : P (g.advance cl i .seq)) :
    (u.completed gid g cl i).GroupIs gid P :=
  ⟨_, by rw [State.completed_groups, Tab.get?_set_same], h⟩

end

theorem SameMemory.of_eq {s t : State} (hhbm : t.hbm = s.hbm) (hwork : t.work = s.work) (hkennel : t.kennel = s.kennel) :
    SameMemory s t where
  hbm a n := by rw [State.hbmRead, State.hbmRead, hhbm]
  blocks := by rw [hwork]
  launches := by rw [hwork]
  cells := hkennel

/-! ### The group of an access -/

/-- The group as an access of a plan leaves it before it moves on: the operation is counted and its registers are pending
(R127, R200, R243, R253). -/
def Group.accessed (g : Group) (p : Plan) (cls op : Nat) (regs : List PReg) (hold : Option Nat) : Group :=
  { ({ g with bounds := g.bounds || p.out != 0#64 }.count cls op).setPend op regs with hold := hold }

section
variable (g : Group) (p : Plan) (cls op : Nat) (regs : List PReg) (hold : Option Nat) (cl : Clause) (i : Instr)

variable {g p cls op regs hold} in
theorem Steady.accessed (h : Steady g) : Steady (g.accessed p cls op regs hold) := ⟨h.step, h.lanes⟩

theorem Group.accessed_sameRegisters : SameRegisters g ((g.accessed p cls op regs hold).advance cl i .seq) := by
  rw [Group.advance_frame]
  exact ⟨rfl, rfl, rfl, rfl, rfl, rfl⟩

theorem Group.accessed_cnt : ((g.accessed p cls op regs hold).advance cl i .seq).cnt cls = g.cnt cls + 1 := by
  rw [Group.advance_frame]
  exact Group.cnt_count { g with bounds := g.bounds || p.out != 0#64 } cls op

theorem Group.accessed_isPend : ∀ r ∈ regs, ((g.accessed p cls op regs hold).advance cl i .seq).isPend r = true := by
  intro r h
  rw [Group.advance_frame]
  refine List.any_eq_true.2 ⟨⟨r, op, false, g.inHandler⟩, List.mem_append_right _ (List.mem_map.2 ⟨r, h, rfl⟩), ?_⟩
  simp

theorem Group.accessed_bounds :
    ((g.accessed p cls op regs hold).advance cl i .seq).bounds = (g.bounds || p.out != 0#64) := by
  rw [Group.advance_bounds]
  rfl

theorem Group.accessed_hold : ((g.accessed p cls op regs hold).advance cl i .seq).hold = hold := by
  rw [Group.advance_frame]
  rfl

end

/-! ### The operation of an access -/

/-- The state with a memory operation under way and its group as `g'`, the caches of the dies being `ds`. -/
def State.started (s : State) (ds : Tab Die) (gid : Nat) (o : MemOp) (g' : Group) : State :=
  ((s.withDies ds).fresh.2.setOps { s.ops with mem := Tab.set s.ops.mem s.nextId o }).setGroup gid g'

/-- The landed results in the state make no difference. -/
theorem State.started_setGroup (s : State) (ds : Tab Die) (gid : Nat) (g g' : Group) (o : MemOp) :
    (((s.withDies ds).setGroup gid g).fresh.2.setOps { s.ops with mem := Tab.set s.ops.mem s.nextId o }).setGroup gid g' =
      s.started ds gid o g' :=
  State.setGroup_setGroup ((s.withDies ds).fresh.2.setOps { s.ops with mem := Tab.set s.ops.mem s.nextId o }) gid g g'

section
variable {s : State} {gid : Nat} {g : Group} {b : Nat} {uniform : Bool} {idx : Nat → Word} {off : Int}
  {size right cls : Nat} {ldx : Option Nat} {nohelp : Bool} {d : Option Desc} {p : Plan} {ps : List (Nat × Nat)}

/-- An access that nothing stops goes on with its lines (R212). -/
theorem State.access_of_passes (hlaunch : (Tab.get? s.groups gid).map Group.launch = some g.launch)
    (h : AccessPasses s gid g b (g.accessLanes uniform) uniform idx off size right cls ldx nohelp d p ps) :
    ∃ ds, ∀ k, (s.setGroup gid g).access gid g b (g.accessLanes uniform) uniform idx off size right cls ldx nohelp k =
      k ((s.withDies ds).setGroup gid g) { g with bounds := g.bounds || p.out != 0#64 } d p ps := by
  obtain ⟨ds, hframe⟩ : ∃ ds, ((s.recDesc gid g b).2.linesOk (dieOf g.core) (s.jobOf g) ((d.map Desc.obj).getD 0) right
      (ps.map Prod.fst)).2 = s.withDies ds :=
    ⟨_, State.withDies_trans (State.desc_frame ..) (State.linesOk_frame ..)⟩
  refine ⟨ds, fun k => ?_⟩
  rw [State.access_of_reaches hlaunch h.reaches, h.lines, hframe]

end

/-! ### Loads (R199, R200, R204, R240) -/

/-- The operation that a load becomes. -/
def State.loadOp (s : State) (gid : Nat) (g : Group) (d : Reg) (sz : MemSize) (ldx : Option Nat) (t : Option Desc) (p : Plan)
    (ps : List (Nat × Nat)) : MemOp where
  group := gid
  core := g.core
  job := s.jobOf g
  launch := g.launch
  kind := .load
  size := sz
  dst := some (g.physReg d)
  tag := ldx.getD g.lanes.ctag.toNat
  rtag := ldx.getD g.lanes.ctag.toNat
  tagged := (t.map Desc.tagged).getD false
  ldx := ldx.isSome
  handler := g.inHandler
  obj := (t.map Desc.obj).getD 0
  accs := p.laneAccs ps fun _ => []
  zero := p.zero
  lines := ps.map Prod.fst
  all := ps.map Prod.fst
  cls := cLD

theorem Plan.laneAccs_isEmpty {p : Plan} (ps : List (Nat × Nat)) (data : Nat → List Byte) (h : p.accs ≠ []) :
    ¬(p.laneAccs ps data).isEmpty = true := by
  simpa [Plan.laneAccs] using h

theorem Eff.done_congr {u u' : State} {cs : List Cause} (h : u = u') (hcs : cs = []) : Eff.done u .seq cs = .done u' .seq [] := by
  rw [h, hcs]

theorem loadEff_of_passes {s : State} {gid : Nat} {g : Group} {cl : Clause} {d : Reg} {b : BitVec 5} {sz : MemSize}
    {idx : Group → Nat → Word} {off : Int} {ldx : Group → Option Nat} {t : Option Desc} {p : Plan} {ps : List (Nat × Nat)}
    (hlaunch : (Tab.get? s.groups gid).map Group.launch = some g.launch)
    (hlanes : (if d.isScalar then g.active else g.exec) ≠ 0#64)
    (h : AccessPasses s gid g b.toNat (g.accessLanes d.isScalar) d.isScalar (idx g) off sz.bytes rRead cLD (ldx g) false t p ps)
    (hne : p.accs ≠ []) (hldx : ldx { g with bounds := g.bounds || p.out != 0#64 } = ldx g)
    (hwatch : (s.setGroup gid g).watchLanes g wLoad ((t.map Desc.obj).getD 0) (p.laneAccs ps fun _ => []) sz.bytes = []) :
    ∃ ds, loadEff d b sz idx off ldx (s.setGroup gid g) gid g cl =
      .done (s.started ds gid (s.loadOp gid g d sz (ldx g) t p ps)
        (g.accessed p cLD s.nextId (g.pregs d sz.regs) g.hold)) .seq [] := by
  obtain ⟨ds, hgo⟩ := State.access_of_passes hlaunch h
  refine ⟨ds, ?_⟩
  have hcauses : ∀ f : Cause → Cause, (((s.withDies ds).setGroup gid g).watchLanes
      { g with bounds := g.bounds || p.out != 0#64 } wLoad ((t.map Desc.obj).getD 0) (p.laneAccs ps fun _ => [])
      sz.bytes).map f = [] := fun f => congrArg (List.map f) hwatch
  rw [loadEff, if_neg (by simpa using hlanes)]
  refine (hgo _).trans (Eff.done_congr ?_ (hcauses _))
  simp only [hldx]
  exact (if_neg (p.laneAccs_isEmpty ps (fun _ => []) hne)).trans (s.started_setGroup ds gid g
    (g.accessed p cLD s.nextId (g.pregs d sz.regs) g.hold) (s.loadOp gid g d sz (ldx g) t p ps))

/-- The four loads have loadEff as their meaning, with the parts that they name. -/
theorem exec_eq_loadEff {i : Instr} {g : Group} {d : Reg} {b : BitVec 5} {sz : MemSize} {idx : Nat → Word} {off : Int}
    {ldx : Option Nat} (h : loadForm i g = some (d, b, sz, idx, off, ldx)) :
    ∃ idx' ldx', (∀ s, exec i s = issue i (loadEff d b sz idx' off ldx') s) ∧ idx' g = idx ∧ ldx' g = ldx ∧
      ∀ bounds, ldx' { g with bounds := bounds } = ldx' g := by
  cases i
  case ld | ldl | ldx =>
    cases h
    exact ⟨_, _, fun _ => rfl, rfl, rfl, fun _ => rfl⟩
  case sld d' b' sz' n =>
    cases h
    refine ⟨_, _, fun _ => rfl, ?_, rfl, fun _ => rfl⟩
    funext k
    exact (BitVec.ofNat_toNat 32 n).symm
  all_goals cases h

/-! ### Stores (R201, R203, R204) -/

/-- The operation that a store becomes. -/
def State.storeOp (s : State) (gid : Nat) (g : Group) (sz : MemSize) (t : Option Desc) (p : Plan) (ps : List (Nat × Nat))
    (data : Nat → List Byte) : MemOp where
  group := gid
  core := g.core
  job := s.jobOf g
  launch := g.launch
  kind := .store
  size := sz
  dst := none
  tag := g.lanes.ctag.toNat
  rtag := g.lanes.ctag.toNat
  tagged := (t.map Desc.tagged).getD false
  ldx := false
  handler := g.inHandler
  obj := (t.map Desc.obj).getD 0
  accs := p.laneAccs ps data
  zero := []
  lines := ps.map Prod.fst
  all := ps.map Prod.fst
  cls := cST

/-- The bytes that a store takes from a lane's registers. -/
def Group.storeBytes (g : Group) (d : Reg) (sz : MemSize) (k : Nat) : List Byte :=
  natToBytes (sumNat ((List.range sz.regs).map fun j => (g.src d j k).toNat * 2 ^ (32 * j))) sz.bytes

/-- The two stores have storeEff as their meaning, with the parts that they name. -/
theorem exec_eq_storeEff {i : Instr} {g : Group} {d : Reg} {b : BitVec 5} {sz : MemSize} {idx : Nat → Word} {off : Int}
    (h : storeForm i g = some (d, b, sz, idx, off)) :
    ∃ vi, (∀ s, exec i s = issue i (storeEff d b sz vi off) s) ∧ (fun k => g.src vi 0 k) = idx := by
  cases i
  case st | stl =>
    cases h
    exact ⟨_, fun _ => rfl, rfl⟩
  all_goals cases h

theorem storeEff_of_passes {s : State} {gid : Nat} {g : Group} {cl : Clause} {d : Reg} {b : BitVec 5} {sz : MemSize} {vi : Reg}
    {off : Int} {t : Option Desc} {p : Plan} {ps : List (Nat × Nat)}
    (hlaunch : (Tab.get? s.groups gid).map Group.launch = some g.launch) (hexec : g.exec ≠ 0#64)
    (h : AccessPasses s gid g b.toNat (g.accessLanes false) false (fun k => g.src vi 0 k) off sz.bytes rWrite cST none true
      t p ps)
    (hne : p.accs ≠ [])
    (hwatch : (s.setGroup gid g).watchLanes g wStore ((t.map Desc.obj).getD 0) (p.laneAccs ps (g.storeBytes d sz))
      sz.bytes = []) :
    ∃ ds, storeEff d b sz vi off (s.setGroup gid g) gid g cl =
      .done ((s.started ds gid (s.storeOp gid g sz t p ps (g.storeBytes d sz))
        (g.accessed p cST s.nextId [] g.hold)).enqueue s.nextId (s.storeOp gid g sz t p ps (g.storeBytes d sz)) ps) .seq [] := by
  obtain ⟨ds, hgo⟩ := State.access_of_passes hlaunch h
  refine ⟨ds, ?_⟩
  rw [storeEff, if_neg (by simpa using hexec)]
  refine (hgo _).trans (Eff.done_congr ?_ hwatch)
  rw [← s.started_setGroup ds gid g]
  exact if_neg (p.laneAccs_isEmpty ps (g.storeBytes d sz) hne)

/-- The queue line of a store's line and its address. -/
def State.queueLine (s : State) (op : Nat) (o : MemOp) (l : Nat × Nat) : SfqLine where
  op := op
  group := o.group
  core := o.core
  job := o.job
  launch := o.launch
  tag := o.tag
  tagged := o.tagged
  obj := o.obj
  off := l.1
  phys := l.2
  bytes := lineBytes l.1 o.accs
  waiting := false
  after := s.readFrom o.group o.job o.obj l.1 (lineBytes l.1 o.accs)

theorem State.enqueue_cons (s : State) (op : Nat) (o : MemOp) (l : Nat × Nat) (ls : List (Nat × Nat)) :
    s.enqueue op o (l :: ls) =
      (s.fresh.2.setOps { s.ops with sfq := Tab.set s.ops.sfq s.nextId (s.queueLine op o l) }).enqueue op o ls := rfl

/-- A line of a store in its core's queue: the operation, the line with its address, and the bytes of its lanes. -/
structure Queued (o : MemOp) (op : Nat) (l : Nat × Nat) (e : SfqLine) : Prop where
  op : e.op = op
  off : e.off = l.1
  phys : e.phys = l.2
  bytes : e.bytes = lineBytes l.1 o.accs

/-- Lines that enter the queue take the next operation numbers and change nothing else (R203). -/
theorem State.enqueue_frame (s : State) (op : Nat) (o : MemOp) (ls : List (Nat × Nat)) :
    s.enqueue op o ls = { s with
      nextId := (s.enqueue op o ls).nextId, ops := { s.ops with sfq := (s.enqueue op o ls).ops.sfq } } := by
  induction ls generalizing s with
  | nil => rfl
  | cons l ls ih =>
    rw [State.enqueue_cons, ih]
    rfl

/-- Lines in the queue before keep their places. -/
theorem State.get?_enqueue_of_lt (s : State) (op : Nat) (o : MemOp) (ls : List (Nat × Nat)) {k : Nat} (hk : k < s.nextId) :
    Tab.get? (s.enqueue op o ls).ops.sfq k = Tab.get? s.ops.sfq k := by
  induction ls generalizing s with
  | nil => rfl
  | cons l ls ih =>
    rw [State.enqueue_cons, ih _ (Nat.lt_succ_of_lt hk)]
    exact Tab.get?_set_ne _ _ (Nat.ne_of_lt hk)

theorem State.get?_enqueue (s : State) (op : Nat) (o : MemOp) (ls : List (Nat × Nat)) {n : Nat} (hn : n < ls.length) :
    ∃ e, Tab.get? (s.enqueue op o ls).ops.sfq (s.nextId + n) = some e ∧ Queued o op (ls.getD n (0, 0)) e := by
  induction ls generalizing s n with
  | nil => exact absurd hn (Nat.not_lt_zero n)
  | cons l ls ih =>
    rw [State.enqueue_cons]
    cases n with
    | zero =>
      exact ⟨_, (State.get?_enqueue_of_lt _ _ _ _ (Nat.lt_succ_self s.nextId)).trans (Tab.get?_set_same ..), rfl, rfl, rfl, rfl⟩
    | succ n =>
      rw [Nat.add_succ, ← Nat.succ_add]
      exact ih _ (Nat.lt_of_succ_lt_succ hn)

/-- Words laid end to end, the first lowest. -/
def joinWords (f : Nat → Word) (n : Nat) : Nat := sumNat ((List.range n).map fun j => (f j).toNat * 2 ^ (32 * j))

theorem joinWords_succ (f : Nat → Word) (n : Nat) :
    joinWords f (n + 1) = 2 ^ (32 * n) * (f n).toNat + joinWords f n := by
  simp [joinWords, sumNat, List.range_succ, Nat.add_comm, Nat.mul_comm]

theorem joinWords_lt (f : Nat → Word) (n : Nat) : joinWords f n < 2 ^ (32 * n) := by
  induction n with
  | zero => exact Nat.one_pos
  | succ n ih =>
    have hpow : 2 ^ (32 * (n + 1)) = 2 ^ (32 * n) * 2 ^ 32 := by rw [Nat.mul_succ, Nat.pow_add]
    have hw := (f n).isLt
    rw [joinWords_succ, hpow]
    calc 2 ^ (32 * n) * (f n).toNat + joinWords f n < 2 ^ (32 * n) * ((f n).toNat + 1) := by rw [Nat.mul_succ]; omega
      _ ≤ 2 ^ (32 * n) * 2 ^ 32 := Nat.mul_le_mul_left _ hw

/-- Bit i of words laid end to end is bit i % 32 of word i / 32. -/
theorem testBit_joinWords (f : Nat → Word) (n i : Nat) (hi : i < 32 * n) :
    (joinWords f n).testBit i = (f (i / 32)).getLsbD (i % 32) := by
  induction n with
  | zero => omega
  | succ n ih =>
    rw [joinWords_succ, Nat.testBit_two_pow_mul_add _ (joinWords_lt f n)]
    split
    · rename_i h
      exact ih h
    · have hdiv : i / 32 = n := by omega
      have hmod : i % 32 = i - 32 * n := by omega
      rw [hdiv, hmod]
      rfl

theorem natToBytes_eq_map (v n : Nat) : natToBytes v n = (List.range n).map fun j => BitVec.ofNat 8 (v / 2 ^ (8 * j)) := by
  induction n generalizing v with
  | zero => rfl
  | succ n ih =>
    rw [natToBytes, ih, List.range_succ_eq_map, List.map_cons, List.map_map]
    simp only [Function.comp_def, Nat.succ_eq_add_one, Nat.mul_succ, Nat.mul_zero, Nat.pow_zero, Nat.div_one]
    congr 1
    refine List.map_congr_left fun j _ => ?_
    rw [Nat.add_comm, Nat.pow_add, ← Nat.div_div_eq_div_mul]

/-- The bytes of words laid end to end are the bytes of each word in turn. -/
theorem natToBytes_joinWords (f : Nat → Word) {m n : Nat} (h : m ≤ 4 * n) :
    natToBytes (joinWords f n) m = (List.range m).map fun j => (f (j / 4)).extractLsb' (8 * (j % 4)) 8 := by
  rw [natToBytes_eq_map]
  refine List.map_congr_left fun j hj => BitVec.eq_of_getLsbD_eq fun i hi => ?_
  have hjm := List.mem_range.1 hj
  have hdiv : (8 * j + i) / 32 = j / 4 := by omega
  have hmod : (8 * j + i) % 32 = 8 * (j % 4) + i := by omega
  rw [BitVec.getLsbD_ofNat, Nat.testBit_div_two_pow, Nat.add_comm i, testBit_joinWords f n _ (by omega), hdiv, hmod,
    BitVec.getLsbD_extractLsb']

theorem bytes_le_regs (sz : MemSize) : sz.bytes ≤ 4 * sz.regs := by
  cases sz <;> decide

/-- A store's bytes are those of its registers (R204). -/
theorem Group.storeBytes_eq (g : Group) (d : Reg) (sz : MemSize) (k : Nat) :
    g.storeBytes d sz k = (List.range sz.bytes).map fun j => (g.src d (j / 4) k).extractLsb' (8 * (j % 4)) 8 :=
  natToBytes_joinWords (fun j => g.src d j k) (bytes_le_regs sz)

/-! ### Atomics and reductions (R205, R253) -/

/-- The operation that an atomic or a reduction becomes. -/
def State.atomicOp (s : State) (gid : Nat) (g : Group) (dst : Option Reg) (aop : AtomOp) (ty : AtomTy) (ord : Order)
    (scope : Scope) (t : Option Desc) (p : Plan) (ps : List (Nat × Nat)) (val : Reg) : MemOp where
  group := gid
  core := g.core
  job := s.jobOf g
  launch := g.launch
  kind := .atomic aop ty dst.isSome ord scope
  size := ty.size
  dst := dst.map g.physReg
  tag := g.lanes.ctag.toNat
  rtag := g.lanes.ctag.toNat
  tagged := (t.map Desc.tagged).getD false
  ldx := false
  handler := g.inHandler
  obj := (t.map Desc.obj).getD 0
  accs := p.laneAccs ps (g.atomData val aop ty)
  zero := p.zero.filter fun i => !g.helpers.getLsbD i
  lines := ps.map Prod.fst
  all := ps.map Prod.fst
  cls := if dst.isSome then cLD else cST

/-- The registers that an atomic's destination marks pending. -/
def Group.atomRegs (g : Group) (dst : Option Reg) (ty : AtomTy) : List PReg := (dst.map fun d => g.pregs d ty.regs).getD []

/-- The group's hold after an atomic: an acquiring one holds its later words (R253). -/
def Group.atomHold (g : Group) (ord : Order) (op : Nat) : Option Nat := if ord.acquires then some op else g.hold

theorem atomEff_of_passes {s : State} {gid : Nat} {g : Group} {cl : Clause} {dst : Option Reg} {b : BitVec 5} {vi : Reg}
    {aop : AtomOp} {ord : Order} {ty : AtomTy} {scope : Scope} {val : Reg} {t : Option Desc} {p : Plan} {ps : List (Nat × Nat)}
    (hlaunch : (Tab.get? s.groups gid).map Group.launch = some g.launch) (hexec : g.exec ≠ 0#64)
    (h : AccessPasses s gid g b.toNat (g.accessLanes false) false (fun k => g.src vi 0 k) 0 ty.bytes rAtomic
      (if dst.isSome then cLD else cST) none true t p ps)
    (hne : p.accs ≠ [])
    (hwatch : (s.setGroup gid g).watchLanes g wAtomic ((t.map Desc.obj).getD 0) (p.laneAccs ps (g.atomData val aop ty))
      ty.bytes = []) :
    ∃ ds, atomEff dst b vi aop ord ty scope val (s.setGroup gid g) gid g cl =
      .done (s.started ds gid (s.atomicOp gid g dst aop ty ord scope t p ps val)
        (g.accessed p (if dst.isSome then cLD else cST) s.nextId (g.atomRegs dst ty) (g.atomHold ord s.nextId))) .seq [] := by
  obtain ⟨ds, hgo⟩ := State.access_of_passes hlaunch h
  refine ⟨ds, ?_⟩
  rw [atomEff, if_neg (by simpa using hexec)]
  refine (hgo _).trans (Eff.done_congr ?_ hwatch)
  rw [← s.started_setGroup ds gid g, Group.atomHold]
  refine (if_neg (p.laneAccs_isEmpty ps (g.atomData val aop ty) hne)).trans ?_
  cases ord.acquires <;> rfl

/-! ### What the issued words leave -/

section
variable {s : State} {gid : Nat} {g g' : Group} {ds : Tab Die} {o : MemOp} {cl : Clause} {i : Instr}

theorem State.get?_started : Tab.get? (s.started ds gid o g').groups gid = some g' := Tab.get?_set_same ..

theorem State.started_sameMemory : SameMemory s ((s.started ds gid o g').completed gid g' cl i) :=
  SameMemory.of_eq (State.completed_hbm ..) (State.completed_work ..) (State.completed_kennel ..)

theorem State.get?_started_mem :
    Tab.get? ((s.started ds gid o g').completed gid g' cl i).ops.mem s.nextId = some o := by
  rw [State.completed_ops]
  exact Tab.get?_set_same ..

variable {op : Nat} {ls : List (Nat × Nat)}

theorem State.get?_queued : Tab.get? ((s.started ds gid o g').enqueue op o ls).groups gid = some g' := by
  rw [State.enqueue_frame]
  exact State.get?_started

theorem State.queued_sameMemory : SameMemory s (((s.started ds gid o g').enqueue op o ls).completed gid g' cl i) := by
  rw [State.enqueue_frame]
  exact SameMemory.of_eq (State.completed_hbm ..) (State.completed_work ..) (State.completed_kennel ..)

theorem State.get?_queued_mem :
    Tab.get? (((s.started ds gid o g').enqueue op o ls).completed gid g' cl i).ops.mem s.nextId = some o := by
  rw [State.completed_ops, State.enqueue_frame]
  exact Tab.get?_set_same ..

end

end Sys2Proof.Machine

namespace Sys2Proof

open Machine

/-- Settles O26: a load is an access (exec_eq_loadEff), which stops by accessStops_of_access or becomes an operation by
loadEff_of_passes. -/
theorem loadsIssue : Obligations.LoadsIssue := by
  intro i s gid g cl d b sz idx off ldx lanes hready hform hlanes
  obtain ⟨idx', ldx', hexec, rfl, rfl, hldx⟩ := exec_eq_loadEff hform
  refine ⟨accessStops_of_access hready (hexec s) ⟨_, if_neg (by simpa using hlanes)⟩, fun t p ps hsteady hpass hne hwatch => ?_⟩
  obtain ⟨ds, heff⟩ := loadEff_of_passes (cl := cl) hready.launch hlanes hpass hne (hldx _) hwatch
  rw [hexec, issue_of_done hready heff State.get?_started hsteady.accessed]
  exact ⟨_, rfl, State.started_sameMemory, ⟨_, State.get?_started_mem, rfl, rfl, rfl, rfl, rfl, rfl, rfl, rfl⟩,
    State.completed_groupIs ⟨Group.accessed_sameRegisters .., Group.accessed_cnt .., Group.accessed_isPend _ _ _ _ _ _ _ _,
      Group.accessed_bounds ..⟩⟩

/-- Settles O27: a store is an access, which stops by accessStops_of_access or becomes an operation whose lines enter the
queue by storeEff_of_passes. -/
theorem storesIssue : Obligations.StoresIssue := by
  intro i s gid g cl d b sz idx off hready hform hlanes
  obtain ⟨vi, hexec, rfl⟩ := exec_eq_storeEff hform
  refine ⟨accessStops_of_access (uniform := false) hready (hexec s) ?_, fun t p ps hsteady hpass hne => ?_⟩
  · exact ⟨_, if_neg (by simpa using hlanes)⟩
  simp only [← Group.storeBytes_eq]
  intro hwatch
  obtain ⟨ds, heff⟩ := storeEff_of_passes (cl := cl) hready.launch hlanes hpass hne hwatch
  rw [hexec, issue_of_done hready heff State.get?_queued hsteady.accessed]
  refine ⟨_, rfl, State.queued_sameMemory, ⟨_, State.get?_queued_mem, rfl, rfl, rfl, rfl, rfl⟩, fun n hn => ?_,
    State.completed_groupIs ⟨Group.accessed_sameRegisters .., Group.accessed_cnt ..⟩⟩
  obtain ⟨e, he, hop, hoff, hphys, hbytes⟩ := State.get?_enqueue (s.started ds gid _ _) s.nextId _ ps hn
  rw [State.completed_ops]
  exact ⟨e, he, hop, hoff, hphys, hoff ▸ hbytes⟩

/-- Settles O28: ATOM and RED are accesses, which stop by accessStops_of_access or become operations by atomEff_of_passes. -/
theorem atomicsIssue : Obligations.AtomicsIssue := by
  intro s gid g cl b vi op ord ty scope val dst i cls hready hlanes
  have hexec : exec i s = issue i (atomEff dst b vi op ord ty scope val) s := by
    cases dst <;> rfl
  refine ⟨accessStops_of_access (uniform := false) hready hexec ?_, ?_⟩
  · exact ⟨_, if_neg (by simpa using hlanes)⟩
  intro t p ps hsteady accs hpass hne hwatch
  obtain ⟨ds, heff⟩ := atomEff_of_passes (cl := cl) hready.launch hlanes hpass hne hwatch
  rw [hexec, issue_of_done hready heff State.get?_started hsteady.accessed]
  refine ⟨_, rfl, State.started_sameMemory, ⟨_, State.get?_started_mem, rfl, rfl, rfl, rfl, rfl⟩,
    State.completed_groupIs ⟨Group.accessed_sameRegisters .., Group.accessed_cnt .., ?_, ?_⟩⟩
  · rintro d rfl r hr
    exact Group.accessed_isPend _ _ _ _ _ _ _ _ r hr
  · rw [Group.accessed_hold, Group.atomHold]
    cases ord <;> simp [Order.acquires]

end Sys2Proof
end

