-- ==== Sys2Proof/Proofs/Fences.lean ====
section
/-!
PROOFS. FENCE and TFENCE (R207, R252, R255), walks of the object tables (R197) and metering windows (R399, R400): what each
changes, and when a fence does not issue.
-/

namespace Sys2Proof.Machine

/-! ### What a fence's halves change (R210, R252, R255) -/

/-- The group as a fence of an order leaves it: an acquire makes the queue lines it must observe known to it. -/
def State.fenced (s : State) (g : Group) (ord : Order) : Group :=
  { g with seen := if ord = .acq ∨ ord = .ar then s.seenBy g else g.seen }

section
variable (s : State) (gid : Nat) (ord : Order) (sc : Scope)

theorem State.ordered_frame : s.ordered gid ord sc =
    { s with groups := (s.ordered gid ord sc).groups, views := (s.ordered gid ord sc).views } := by
  cases ord <;> rfl

theorem State.get?_ordered (k : Nat) : Tab.get? (s.ordered gid ord sc).groups k =
    if k = gid then (Tab.get? s.groups gid).map fun g => s.fenced g ord else Tab.get? s.groups k := by
  have hacquired : ∀ u : State, u.groups = s.groups → u.ops = s.ops → Tab.get? (u.acquired gid).groups k =
      if k = gid then (Tab.get? s.groups gid).map fun g => { g with seen := s.seenBy g } else Tab.get? s.groups k := by
    intro u hgroups hops
    have hseen : ∀ g, u.seenBy g = s.seenBy g := fun g => by simp only [State.seenBy, State.queueOf, hops]
    simp only [← hseen, ← hgroups]
    exact Tab.get?_upd ..
  have hkept : Tab.get? s.groups k = if k = gid then (Tab.get? s.groups gid).map fun g => g else Tab.get? s.groups k := by
    split
    · rename_i h
      rw [h, Option.map_id']
    · rfl
  cases ord
  case rlx => exact hkept
  case rel => exact hkept
  case acq => exact hacquired s rfl rfl
  case ar => exact hacquired (s.released gid sc) rfl rfl

end

/-- What a fence leaves known to its group stays as the group moves on. -/
theorem State.fenced_advance (s : State) (g : Group) (ord : Order) (cl : Clause) (i : Instr) :
    (s.fenced g ord).advance cl i .seq =
      { g.advance cl i .seq with seen := if ord = .acq ∨ ord = .ar then s.seenBy g else g.seen } := by
  unfold Group.advance
  dsimp only
  split <;> rfl

/-! ### Fences that issue -/

section
variable {s : State} {gid : Nat} {g : Group} {cl : Clause} {ord : Order} {sc : Scope}

theorem exec_fence_met (hr : Ready (.fence ord sc) s gid g cl) (hs : Steady g) (hexec : g.exec ≠ 0#64)
    (hmet : (s.setGroup gid g).fenceMet gid g ord sc = true) :
    exec (.fence ord sc) s =
      .next (((s.setGroup gid g).ordered gid ord sc).completed gid (s.fenced g ord) cl (.fence ord sc)) := by
  simp only [exec, execFence]
  refine issue_of_done hr ?_ ?_ ⟨hs.step, hs.lanes⟩
  · rw [if_neg (by simpa using hexec), if_pos hmet, State.setGroup_setGroup]
  · rw [State.get?_ordered, if_pos rfl, State.setGroup_groups, Tab.get?_set_same]
    rfl

theorem exec_fence_idle (hr : Ready (.fence ord sc) s gid g cl) (hs : Steady g) (hexec : g.exec = 0#64) :
    exec (.fence ord sc) s = .next (s.after gid g cl (.fence ord sc)) := by
  simp only [exec, execFence]
  refine issue_of_doneG hr hs ?_
  rw [if_pos (by simpa using hexec)]

theorem exec_fence_unmet (hr : Ready (.fence ord sc) s gid g cl) (hexec : g.exec ≠ 0#64)
    (hunmet : (s.setGroup gid g).fenceMet gid g ord sc = false) : exec (.fence ord sc) s = .next s.notIssued := by
  simp only [exec, execFence]
  refine issue_of_wait hr ?_
  rw [if_neg (by simpa using hexec), hunmet, if_neg Bool.false_ne_true]

theorem exec_tfence_waits (hr : Ready (.tfence sc) s gid g cl) (hact : g.active ≠ 0#64)
    (hopen : ∃ e ∈ s.ops.mem, e.2.group = gid ∧ e.2.kind ≠ .load ∧ e.2.lines ≠ []) :
    exec (.tfence sc) s = .next s.notIssued := by
  obtain ⟨e, he, hgroup, hkind, hlines⟩ := hopen
  simp only [exec, execTfence]
  refine issue_of_wait hr ?_
  rw [if_neg (by simpa using hact), if_pos]
  exact List.any_eq_true.2 ⟨e, he, by simp [hgroup, hkind, hlines]⟩

theorem exec_tfence_acknowledged (hr : Ready (.tfence sc) s gid g cl) (hs : Steady g) (hact : g.active ≠ 0#64)
    (hack : ∀ e ∈ s.ops.mem, e.2.group = gid → e.2.kind ≠ .load → e.2.lines = []) :
    exec (.tfence sc) s =
      .next ((((s.setGroup gid g).invalidate (s.jobOf g) sc).setGroup gid g).completed gid g cl (.tfence sc)) := by
  simp only [exec, execTfence]
  refine issue_of_done hr ?_ (Tab.get?_set_same ..) hs
  rw [if_neg (by simpa using hact), if_neg]
  · rfl
  · rw [List.any_eq_true]
    rintro ⟨e, he, h⟩
    simp only [Bool.and_eq_true, decide_eq_true_eq, Bool.not_eq_true', List.isEmpty_eq_false_iff] at h
    exact h.1.2 (hack e he h.1.1 h.2)

end

/-! ### What a TFENCE leaves (R207) -/

theorem State.invalidate_frame (s : State) (job : Nat) (sc : Scope) : s.invalidate job sc =
    { s with views := (s.invalidate job sc).views, dies := (s.invalidate job sc).dies } := rfl

/-- The caches that the scope reaches hold nothing of the job. -/
theorem State.not_mem_invalidate {s : State} {job : Nat} {sc : Scope} {d : Nat × Die} (hd : d ∈ (s.invalidate job sc).dies)
    (hreach : d.1 ≠ hubPath ∨ sc = .sys) : (∀ e ∈ d.2.descs, e.1.1 ≠ job) ∧ ∀ e ∈ d.2.extents, e.1.1 ≠ job := by
  obtain ⟨d0, -, rfl⟩ := List.mem_map.1 hd
  have hin : ¬(decide (d0.1 = hubPath) && decide (sc ≠ .sys)) = true := by
    simpa [or_iff_not_imp_left] using hreach
  simp only [if_neg hin]
  exact ⟨fun e he => by simpa using (List.mem_filter.1 he).2, fun e he => by simpa using (List.mem_filter.1 he).2⟩

/-- Short of .sys the hub's request paths keep theirs. -/
theorem State.get?_invalidate_hubPath (s : State) (job : Nat) {sc : Scope} (h : sc ≠ .sys) :
    Tab.get? (s.invalidate job sc).dies hubPath = Tab.get? s.dies hubPath := by
  simp [State.invalidate, Tab.get?_mapVals, h]

/-! ### Walks and windows -/

theorem exec_tableWalk {s : State} {die : Nat} {d : Die} (job obj ext : Nat) (hd : Tab.get? s.dies die = some d) :
    exec (.tableWalk die job obj ext) s = .next (if d.extents.any (fun e => e.1 = (job, obj, ext)) then s
      else (s.fillExtent die job obj ext).2) := by
  simp only [exec, execTableWalk, hd]
  rfl

/-- A walk whose extent is not held fills the die's cache with it (R197). -/
theorem State.fillExtent_head (s : State) {die : Nat} {d : Die} (job obj ext : Nat) (hd : Tab.get? s.dies die = some d) :
    ∃ d', Tab.get? (s.fillExtent die job obj ext).2.dies die = some d' ∧
      d'.extents.head? = some ((job, obj, ext), s.walk job obj ext) := by
  exact ⟨_, (Tab.get?_upd ..).trans ((if_pos rfl).trans (congrArg (Option.map _) hd)), rfl⟩

end Sys2Proof.Machine

namespace Sys2Proof

open Machine

/-- Settles O31: the two fences leave what ordered and invalidate do, a walk fills on a miss, and a window begins by roll. -/
theorem fencesAndWalks : Obligations.FencesAndWalks := by
  intro s gid g cl
  refine ⟨?_, ?_, ?_, ?_, ?_, ?_, ?_⟩
  · intro ord sc hready hsteady hexec hmet
    refine ⟨_, exec_fence_met hready hsteady hexec hmet, ?_, fun k hk => ?_, ?_⟩
    · rw [State.completed_frame, State.ordered_frame]
      rfl
    · rw [State.completed_groups, Tab.get?_set_ne _ _ hk, State.get?_ordered, if_neg hk]
      exact Tab.get?_set_ne _ _ hk
    · rw [State.completed_groups, Tab.get?_set_same, State.fenced_advance]
  · intro ord sc hready hsteady hexec
    exact exec_fence_idle hready hsteady hexec
  · intro ord sc hready hexec hunmet
    exact exec_fence_unmet hready hexec hunmet
  · intro sc hready hsteady hact hack
    refine ⟨_, exec_tfence_acknowledged hready hsteady hact hack, ?_, fun d hd hreach => ?_, fun hsc => ?_, ?_⟩
    · exact SameMemory.of_eq (State.completed_hbm ..) (State.completed_work ..) (State.completed_kennel ..)
    · rw [State.completed_dies] at hd
      exact State.not_mem_invalidate (s := s.setGroup gid g) hd hreach
    · rw [State.completed_dies]
      exact (s.setGroup gid g).get?_invalidate_hubPath (s.jobOf g) hsc
    · rw [State.completed_groups, Tab.get?_set_same]
  · intro sc hready hact hopen
    exact exec_tfence_waits hready hact hopen
  · intro die job obj ext d hd
    rw [exec_tableWalk job obj ext hd]
    refine ⟨fun hmiss => ?_, fun ⟨e, he, hkey⟩ => ?_⟩
    · rw [if_neg fun hany => ?_]
      · exact ⟨_, rfl, SameMemory.of_eq rfl rfl rfl, s.fillExtent_head job obj ext hd⟩
      · obtain ⟨e, he, hkey⟩ := List.any_eq_true.1 hany
        exact hmiss e he (of_decide_eq_true hkey)
    · rw [if_pos (List.any_eq_true.2 ⟨e, he, by simp [hkey]⟩)]
  · refine ⟨_, rfl, SameMemory.of_eq rfl rfl rfl, rfl, fun k c hc => ?_⟩
    exact (Tab.get?_mapVals s.clusters (fun _ c => c.roll (s.now / 1000)) k).trans (congrArg (Option.map _) hc)

end Sys2Proof
end

