-- ==== Sys2Proof/Proofs/Views.lean ====
section
/-!
PROOFS. TDVIEW (R208 to R210): the view's words go to the child's place of the table, its maker reads them from then on, and
another group reads what it read before.
-/

namespace Sys2Proof.Machine

/-! ### Descriptors as a group reads them (R191, R210) -/

/-- The words a die holds of a job's descriptor. -/
def Die.held (d : Die) (job t : Nat) : Option (List Word) := (d.descs.find? fun e => e.1 = (job, t)).map Prod.snd

theorem Die.held_cons (d : Die) (job t job' k : Nat) (ws : List Word) :
    Die.held { d with descs := ((job, t), ws) :: d.descs } job' k = if (job, t) = (job', k) then some ws else d.held job' k := by
  by_cases h : (job, t) = (job', k) <;> simp [Die.held, h]

/-- A group reads the descriptor that it sees apart from others, else what its die holds or memory has. -/
theorem State.descWords_fst (s : State) (who : Option Nat) (die job t : Nat) : (s.descWords who die job t).1 =
    (s.viewOf who job t).getD
      (((Tab.get? s.dies die).map fun d => (d.held job t).getD (s.tableWords job t)).getD []) := by
  unfold State.descWords Die.held
  cases s.viewOf who job t with
  | some ws => rfl
  | none =>
    cases Tab.get? s.dies die with
    | none => rfl
    | some d => cases hf : d.descs.find? fun e => e.1 = (job, t) <;> simp [hf, State.tableWords]

/-- A lookup leaves the state, or its die holds the words of memory where it held none. -/
theorem State.descWords_snd (s : State) (who : Option Nat) (die job t : Nat) : (s.descWords who die job t).2 = s ∨
    ∃ d, Tab.get? s.dies die = some d ∧ d.held job t = none ∧ (s.descWords who die job t).2 =
      s.updDie die fun d => { d with descs := ((job, t), s.tableWords job t) :: d.descs } := by
  unfold State.descWords Die.held
  cases s.viewOf who job t with
  | some ws => exact .inl rfl
  | none =>
    cases hd : Tab.get? s.dies die with
    | none => exact .inl rfl
    | some d =>
      cases hf : d.descs.find? fun e => e.1 = (job, t) with
      | some e => exact .inl (by simp [hf])
      | none => exact .inr ⟨d, rfl, by simp [hf], by simp [hf, State.tableWords]⟩

/-- What any group reads of any descriptor is the same in two states. -/
def SameDescs (s t : State) : Prop := ∀ who die job k, (t.descWords who die job k).1 = (s.descWords who die job k).1

theorem State.descWords_sameDescs (s : State) (who : Option Nat) (die job t : Nat) :
    SameDescs s (s.descWords who die job t).2 := by
  obtain h | ⟨d, hd, hnone, h⟩ := s.descWords_snd who die job t
  · rw [h]
    exact fun _ _ _ _ => rfl
  · intro who' die' job' k
    have hheld : ((Tab.get? (s.descWords who die job t).2.dies die').map fun d => (d.held job' k).getD (s.tableWords job' k)) =
        (Tab.get? s.dies die').map fun d => (d.held job' k).getD (s.tableWords job' k) := by
      rw [h]
      refine (congrArg (Option.map _) (Tab.get?_upd s.dies die die' _)).trans ?_
      by_cases hdie : die' = die
      · rw [if_pos hdie, hdie, hd]
        simp only [Option.map_some, Die.held_cons]
        split
        · rename_i hkey
          cases hkey
          rw [hnone]
          rfl
        · rfl
      · rw [if_neg hdie]
    rw [State.descWords_fst, State.descWords_fst, ← hheld]
    rw [h]
    rfl

theorem SameDescs.trans {s t u : State} (h : SameDescs s t) (h' : SameDescs t u) : SameDescs s u :=
  fun who die job k => (h' who die job k).trans (h who die job k)

theorem State.desc_sameDescs (s : State) (who : Option Nat) (die job t : Nat) : SameDescs s (s.desc who die job t).2 := by
  have hfirst := s.descWords_sameDescs who die job t
  unfold State.desc
  dsimp only
  repeat' split
  any_goals exact hfirst
  all_goals exact hfirst.trans (State.descWords_sameDescs _ _ _ _ _)

/-! ### The view that TDVIEW makes -/

/-- Two views are the same up to what their maker has observed of them. -/
def SameView (v w : View) : Prop := { v with observed := false, lost := none } = { w with observed := false, lost := none }

/-- A view as TDVIEW makes it: what its maker reads from now on, and what another group reads. -/
structure MadeView (s : State) (v : View) (gid die j k : Nat) (ws : List Word) : Prop where
  job : v.job = j
  tensor : v.tensor = k
  words : v.words = ws
  old : v.old = (s.descWords (some gid) die j k).1
  owner : v.owner = gid
  seen : v.seen = []
  shown : v.shown = none

theorem MadeView.congr {s : State} {v w : View} {gid die job t : Nat} {ws : List Word} (h : MadeView s v gid die job t ws)
    (hw : SameView w v) : MadeView s w gid die job t ws where
  job := (congrArg View.job hw).trans h.job
  tensor := (congrArg View.tensor hw).trans h.tensor
  words := (congrArg View.words hw).trans h.words
  old := (congrArg View.old hw).trans h.old
  owner := (congrArg View.owner hw).trans h.owner
  seen := (congrArg View.seen hw).trans h.seen
  shown := (congrArg View.shown hw).trans h.shown

/-- The state with a view's words in the table, and the view the newest one. -/
def State.withView (s : State) (at_ : Nat) (v : View) : State :=
  { s.rootWrite at_ (Tab.run 0 64 fun k => (wordsToBytes v.words).getD k 0#8) with views := s.views ++ [v] }

theorem State.putDesc_eq (s : State) (gid op sd die job t : Nat) (ws : List Word) :
    ∃ ds v, s.putDesc gid op sd die job t ws = (s.withDies ds).withView
      (((Tab.get? s.work.jobs job).map Job.tensorTable).getD 0 + 64 * t) v ∧ MadeView s v gid die job t ws := by
  have hrun : ∀ f : Nat → Byte, (List.range 64).map (fun k => (k, f k)) = Tab.run 0 64 f := by
    simp [Tab.run]
  rw [State.putDesc]
  dsimp only
  rw [State.descWords_frame, hrun]
  exact ⟨(s.descWords (some gid) die job t).2.dies, ⟨_, _, _, _, _, _, _, _, _, _, _, _, _, _, _⟩, rfl,
    ⟨rfl, rfl, rfl, rfl, rfl, rfl, rfl⟩⟩

section
variable {s t : State} {v : View} {gid die job k : Nat} {ws : List Word}

/-- The views after TDVIEW, its group having observed some of them on the way. -/
theorem views_of_madeView (hviews : t.views.map (fun v => { v with observed := false, lost := none }) =
      (s.views ++ [v]).map fun v => { v with observed := false, lost := none }) (hv : MadeView s v gid die job k ws) :
    ∃ l w, t.views = l ++ [w] ∧ MadeView s w gid die job k ws ∧ ∀ x ∈ l, ∃ y ∈ s.views, SameView x y := by
  rw [List.map_append, List.map_eq_append_iff] at hviews
  obtain ⟨l, ls, hl, hold, hnew⟩ := hviews
  obtain ⟨w, rfl, hw⟩ := List.map_eq_singleton_iff.1 hnew
  refine ⟨l, w, hl, hv.congr hw, fun x hx => ?_⟩
  obtain ⟨y, hy, hxy⟩ := List.mem_map.1 (hold ▸ List.mem_map_of_mem hx)
  exact ⟨y, hy, hxy.symm⟩

variable (hviews : t.views.map (fun v => { v with observed := false, lost := none }) =
  (s.views ++ [v]).map fun v => { v with observed := false, lost := none }) (hv : MadeView s v gid die job k ws)
include hviews hv

/-- Its maker reads the view. -/
theorem State.descWords_maker : (t.descWords (some gid) die job k).1 = ws := by
  obtain ⟨l, w, hl, hw, -⟩ := views_of_madeView hviews hv
  have hsees : t.sees (some gid) w = true := by simp [State.sees, hw.owner]
  rw [State.descWords_fst, State.viewOf, hl]
  simp [List.filter_append, hw.job, hw.tensor, hsees, hw.words]

/-- Another group reads what it read before, where it saw no earlier view of the tensor. -/
theorem State.descWords_other {who : Nat} (hwho : who ≠ gid) (hfirst : ∀ x ∈ s.views, x.job = job → x.tensor ≠ k) :
    (t.descWords (some who) die job k).1 = (s.descWords (some who) die job k).1 := by
  obtain ⟨l, w, hl, hw, hfrom⟩ := views_of_madeView hviews hv
  have hnone : l.filter (fun v => v.job = job && v.tensor = k) = [] := by
    rw [List.filter_eq_nil_iff]
    intro x hx hkey
    obtain ⟨y, hy, hxy⟩ := hfrom x hx
    simp only [Bool.and_eq_true, decide_eq_true_eq] at hkey
    exact hfirst y hy ((congrArg View.job hxy).symm.trans hkey.1) ((congrArg View.tensor hxy).symm.trans hkey.2)
  have hsame : ∀ g, s.viewOf (some g) job k = none := by
    have hfilter : s.views.filter (fun v => v.job = job && v.tensor = k) = [] := by
      simpa [List.filter_eq_nil_iff] using hfirst
    intro g
    simp [State.viewOf, hfilter]
  have hunseen : t.sees (some who) w = false := by simp [State.sees, hw.owner, hw.seen, hw.shown, hwho]
  have hold : t.viewOf (some who) job k = some (s.descWords (some gid) die job k).1 := by
    simp [State.viewOf, hl, List.filter_append, hw.job, hw.tensor, hunseen, hw.old, hnone]
  rw [State.descWords_fst, hold, Option.getD_some, State.descWords_fst, State.descWords_fst, hsame, hsame]

end

/-- The table's 64 bytes at the view's place are its words', and every other byte is as before. -/
theorem State.hbmRead_withView (s : State) (at_ : Nat) (v : View) :
    (∀ k, k < 64 → (s.withView at_ v).hbmRead (at_ + k) 1 = [(wordsToBytes v.words).getD k 0#8]) ∧
    ∀ x, (x < at_ ∨ at_ + 64 ≤ x) → (s.withView at_ v).hbmRead x 1 = s.hbmRead x 1 := by
  refine ⟨fun k hk => ?_, fun x hx => s.hbmRead_rootWrite_run_other at_ 0 64
    (fun k => (wordsToBytes v.words).getD k 0#8) x hx⟩
  have hread := memRead_writeAt s.hbm at_ (at_ + k) _ (Tab.nodup_run 0 64 fun k => (wordsToBytes v.words).getD k 0#8)
  rw [if_pos (Nat.le_add_right ..), Nat.add_sub_cancel_left, Tab.getD, Tab.get?_run, if_pos ⟨Nat.zero_le k, by omega⟩] at hread
  exact congrArg (fun b => [b]) hread

/-! ### The status on its way (R36) -/

theorem Group.dest_ne_nil {g : Group} (hact : g.active ≠ 0#64) (d : Reg) (k : Nat) (f : Nat → Word) : g.dest d k f ≠ [] := by
  cases d with
  | v n =>
    have hexec : g.exec ≠ 0#64 := by
      rintro h
      exact hact (by rw [Group.active, h, BitVec.zero_and])
    simpa [Group.dest, maskList_eq_nil] using hexec
  | s n =>
    obtain ⟨i, l, hl⟩ := List.exists_cons_of_ne_nil (mt maskList_eq_nil.1 hact)
    simp [Group.dest, lowest, hl]

/-- The registers of some writes, each once. -/
def writtenRegs (ws : List (Target × Word)) : List PReg := dedup (ws.filterMap fun w => w.1.reg)

/-- The state with a group's writes on their way. -/
def State.sent (u : State) (gid : Nat) (g : Group) (ws : List (Target × Word)) : State :=
  (u.fresh.2.setOps { u.ops with vals := Tab.set u.ops.vals u.nextId ⟨gid, ws⟩ }).setGroup gid
    (g.setPend u.nextId (writtenRegs ws))

theorem mem_dedup {α : Type} [DecidableEq α] {l : List α} {x : α} : x ∈ dedup l ↔ x ∈ l := by
  induction l with
  | nil => rfl
  | cons y l ih =>
    by_cases h : x = y <;> simp [dedup, ih, h]

/-- A group whose writes are on their way, once it has moved on. -/
theorem State.sent_sends (u : State) (gid : Nat) (g : Group) (ws : List (Target × Word)) (cl : Clause) (i : Instr) :
    ((u.sent gid g ws).completed gid (g.setPend u.nextId (writtenRegs ws)) cl i).GroupIs gid fun g' =>
      Sends ((u.sent gid g ws).completed gid (g.setPend u.nextId (writtenRegs ws)) cl i) gid u.nextId g' ws := by
  refine State.completed_groupIs ⟨?_, fun w hw r hr => ?_⟩
  · rw [State.completed_ops]
    exact Tab.get?_set_same ..
  · have hmem : r ∈ writtenRegs ws := mem_dedup.2 (List.mem_filterMap.2 ⟨w, hw, hr⟩)
    rw [Group.advance_frame]
    refine List.any_eq_true.2 ⟨⟨r, u.nextId, false, g.inHandler⟩, List.mem_append_right _ (List.mem_map.2 ⟨r, hmem, rfl⟩), ?_⟩
    simp

/-- Sending is the last that a meaning does: the landed results in the state make no difference. -/
theorem doneG_sendVals {u : State} {gid : Nat} {g : Group} {ws : List (Target × Word)} (h : ws ≠ []) :
    doneG ((u.setGroup gid g).sendVals gid g ws).1 gid ((u.setGroup gid g).sendVals gid g ws).2 .seq =
      .done (u.sent gid g ws) .seq [] := by
  rw [State.sendVals_eq _ _ _ _ h]
  exact congrArg (Eff.done · .seq []) (State.setGroup_setGroup
    (u.fresh.2.setOps { u.ops with vals := Tab.set u.ops.vals u.nextId ⟨gid, ws⟩ }) gid g _)

/-! ### TDVIEW -/

section
variable {s : State} {gid : Nat} {g : Group} {cl : Clause} {l : Launch} {pd : Desc}

/-- The words of a scalar run, five from the k-th on. -/
def Group.five (g : Group) (a : Reg) (k : Nat) : List Nat := (List.range 5).map fun i => (g.sval a (k + i)).toNat

/-- TDVIEW sends its status; with status 0 it has written the view. -/
theorem tdviewEff_eq {d a : Reg} {ro : Bool} (hlaunch : (Tab.get? s.groups gid).map Group.launch = some g.launch)
    (hact : g.active ≠ 0#64) (hl : s.launch? g = some l)
    (hpd : (s.desc (some gid) (dieOf g.core) l.job ((g.sval a 0).toNat % 2 ^ 12)).1 = some pd) :
    let child := (g.sval a 0).toNat / 2 ^ 16 % 2 ^ 12
    let st := viewStatus l child (g.five a 1) (g.five a 6) (some pd)
    let ws := viewWords (s.descWords (some gid) (dieOf g.core) l.job ((g.sval a 0).toNat % 2 ^ 12)).1 pd (g.five a 1)
      (g.five a 6) ro
    let sends := fun (u : State) => tdviewEff d a ro (s.setGroup gid g) gid g cl =
      .done (u.sent gid g (g.dest d 0 fun _ => BitVec.ofNat 32 (st * 2 ^ 28))) .seq []
    (st ≠ 0 → ∃ ds, sends (s.withDies ds)) ∧
    (st = 0 → ∃ ds v, MadeView s v gid (dieOf g.core) l.job child ws ∧
      sends ((s.withDies ds).withView (((Tab.get? s.work.jobs l.job).map Job.tensorTable).getD 0 + 64 * child) v)) := by
  intro child st ws sends
  have hl' : (s.setGroup gid g).launch? g = some l := hl
  have hparent : bitsOf (g.sval a 0).toNat 0 12 = (g.sval a 0).toNat % 2 ^ 12 := by simp [bitsOf_eq]
  have hchild : bitsOf (g.sval a 0).toNat 16 12 = child := bitsOf_eq ..
  have hfirst := s.desc_frame (some gid) (dieOf g.core) l.job ((g.sval a 0).toNat % 2 ^ 12)
  have hsame := s.desc_sameDescs (some gid) (dieOf g.core) l.job ((g.sval a 0).toNat % 2 ^ 12)
  have hdesc := State.desc_setGroup hlaunch (some gid) (dieOf g.core) l.job ((g.sval a 0).toNat % 2 ^ 12)
  rw [hpd] at hdesc
  generalize (s.desc (some gid) (dieOf g.core) l.job ((g.sval a 0).toNat % 2 ^ 12)).2 = u0 at hfirst hsame hdesc
  have hlaunch0 : (Tab.get? u0.groups gid).map Group.launch = some g.launch := by rw [hfirst]; exact hlaunch
  have hsecond := u0.descWords_frame (some gid) (dieOf g.core) l.job ((g.sval a 0).toNat % 2 ^ 12)
  have hsame1 := hsame.trans (u0.descWords_sameDescs (some gid) (dieOf g.core) l.job ((g.sval a 0).toNat % 2 ^ 12))
  have hwords := State.descWords_setGroup hlaunch0 (some gid) (dieOf g.core) l.job ((g.sval a 0).toNat % 2 ^ 12)
  rw [hsame] at hwords
  generalize (u0.descWords (some gid) (dieOf g.core) l.job ((g.sval a 0).toNat % 2 ^ 12)).2 = u1 at hsecond hsame1 hwords
  have hframe := State.withDies_trans hfirst hsecond
  have hlaunch1 : (Tab.get? u1.groups gid).map Group.launch = some g.launch := by rw [hframe]; exact hlaunch
  have heff : tdviewEff d a ro (s.setGroup gid g) gid g cl =
      (let u := if st = 0 then (u1.setGroup gid g).putDesc gid u1.nextId (g.phys d 0) (dieOf g.core) l.job child ws
        else u1.setGroup gid g
      doneG (u.sendVals gid g (g.dest d 0 fun _ => BitVec.ofNat 32 (st * 2 ^ 28))).1 gid
        (u.sendVals gid g (g.dest d 0 fun _ => BitVec.ofNat 32 (st * 2 ^ 28))).2 .seq) := by
    rw [tdviewEff, if_neg (by simpa using hact)]
    simp only [hl', hparent, hchild, hdesc, hwords]
    rfl
  have hne := Group.dest_ne_nil hact d 0 fun _ => BitVec.ofNat 32 (st * 2 ^ 28)
  refine ⟨fun hst => ⟨u1.dies, ?_⟩, fun hst => ?_⟩
  · rw [← hframe]
    refine heff.trans ?_
    rw [if_neg hst]
    exact doneG_sendVals hne
  · obtain ⟨ds, v, hput, hmade⟩ := (u1.setGroup gid g).putDesc_eq gid u1.nextId (g.phys d 0) (dieOf g.core) l.job child ws
    refine ⟨ds, v, { hmade with old := ?_ }, ?_⟩
    · rw [hmade.old, State.descWords_setGroup hlaunch1, hsame1]
    · refine heff.trans ?_
      rw [if_pos hst, hput, hframe]
      exact doneG_sendVals (u := (s.withDies ds).withView _ v) hne

end

end Sys2Proof.Machine

namespace Sys2Proof

open Machine

/-- Settles O40: TDVIEW sends its status in the state with or without the view (tdviewEff_eq), whose readers
State.descWords_maker and State.descWords_other name. -/
theorem viewsWritten : Obligations.ViewsWritten := by
  intro s gid g cl d a ro l pd j ids words child hready hsteady hact hl hj hpd st ws
  have hcompletes : ∀ u : State, u.nextId = s.nextId → tdviewEff d a ro (s.setGroup gid g) gid g cl =
      .done (u.sent gid g (g.dest d 0 fun _ => BitVec.ofNat 32 (st * 2 ^ 28))) .seq [] →
      Answers (exec (.tdview d a ro) s) fun t => (t.GroupIs gid fun g' =>
        Sends t gid s.nextId g' (g.dest d 0 fun _ => BitVec.ofNat 32 (st * 2 ^ 28))) ∧ t.hbm = u.hbm ∧
        t.views.map (fun v => { v with observed := false, lost := none }) =
          u.views.map fun v => { v with observed := false, lost := none } := by
    intro u hnext heff
    refine ⟨_, issue_of_done hready heff (Tab.get?_set_same ..) ⟨hsteady.step, hsteady.lanes⟩, ?_, State.completed_hbm ..,
      State.observe_views ..⟩
    rw [← hnext]
    exact u.sent_sends ..
  obtain ⟨hnothing, hview⟩ := tdviewEff_eq (ro := ro) (cl := cl) (d := d) hready.launch hact hl hpd
  by_cases hst : st = 0
  · obtain ⟨ds, v, hmade, heff⟩ := hview hst
    rw [hj] at heff
    obtain ⟨t, hexec, hsends, hhbm, hviews⟩ := hcompletes _ (by rfl) heff
    have hread := (s.withDies ds).hbmRead_withView (j.tensorTable + 64 * child) v
    refine ⟨t, hexec, hsends, fun h => absurd hst h, fun _ => ⟨State.descWords_maker (s := s) hviews hmade,
      fun who hwho hfirst => State.descWords_other (s := s) hviews hmade hwho hfirst, fun k hk => ?_, fun x hx => ?_⟩⟩
    · have hwords : v.words = ws := hmade.words
      rw [State.hbmRead, hhbm, ← hwords]
      exact hread.1 k hk
    · rw [State.hbmRead, hhbm]
      exact hread.2 x hx
  · obtain ⟨ds, heff⟩ := hnothing hst
    obtain ⟨t, hexec, hsends, hhbm, -⟩ := hcompletes _ (by rfl) heff
    exact ⟨t, hexec, hsends, fun _ => hhbm, fun h => absurd h hst⟩

end Sys2Proof
end

