-- ==== Sys2Proof/Proofs/Lines.lean ====
section
/-!
PROOFS. Lines at their homes: a load's last line is read and the load completes (R200, R204, R223, R243, R245, R249), and a
store's line is written, waits or comes too late, and is acknowledged (R203, R222, R227, R232, R245).
-/

namespace Sys2Proof.Machine

/-! ### Results land (R127) -/

theorem Group.land_with_inflight (g : Group) (es : List Inflight) (t : Target) (w : Word) :
    { g with inflight := es }.land t w = { g.land t w with inflight := es } := by
  cases t <;> rfl

theorem Group.landAll_with_inflight (g : Group) (es : List Inflight) (ws : List (Target × Word)) :
    { g with inflight := es }.landAll ws = { g.landAll ws with inflight := es } := by
  induction ws generalizing g with
  | nil => rfl
  | cons w ws ih =>
    refine (congrArg (Group.landAll · ws) (g.land_with_inflight es w.1 w.2)).trans ?_
    exact ih (g.land w.1 w.2)

/-- Results whose registers are not in the save area land in the registers, and only what is on its way differs else. -/
theorem Group.foldl_landResult {g : Group} {op : Nat} (hsaved : ∀ e ∈ g.pend, e.op = op → e.saved = false)
    (ws : List (Target × Word)) :
    ∃ es, ws.foldl (fun g w => g.landResult op w) g = { g.landAll ws with inflight := es } := by
  induction ws generalizing g with
  | nil => exact ⟨g.inflight, rfl⟩
  | cons w ws ih =>
    have hpend : (g.land w.1 w.2).pend = g.pend := by rw [Group.land_frame]
    have hnone : g.pend.any (fun e => e.op = op && e.saved && some e.reg = w.1.reg) = false := by
      rw [List.any_eq_false]
      intro e he
      simp only [Bool.and_eq_true, decide_eq_true_eq]
      rintro ⟨⟨hop, hs⟩, -⟩
      exact Bool.false_ne_true ((hsaved e he hop).symm.trans hs)
    have hfirst : g.landResult op w = { g.land w.1 w.2 with inflight := g.inflight.filter fun e => e.target ≠ w.1 } := by
      rw [Group.landResult, if_neg (by simp [hnone]), Group.land_with_inflight]
    obtain ⟨es, hes⟩ := ih (g := g.landResult op w) (by rw [hfirst]; exact hpend ▸ hsaved)
    refine ⟨es, hes.trans ?_⟩
    rw [hfirst, Group.landAll_with_inflight]
    rfl

theorem Group.landResult_cnts (g : Group) (op : Nat) (w : Target × Word) : (g.landResult op w).cnts = g.cnts := by
  unfold Group.landResult
  split
  · split <;> rfl
  · rw [Group.land_frame]

theorem Group.foldl_landResult_cnts (g : Group) (op : Nat) (ws : List (Target × Word)) :
    (ws.foldl (fun g w => g.landResult op w) g).cnts = g.cnts :=
  List.foldlRecOn (motive := fun g' : Group => g'.cnts = g.cnts) ws _ rfl fun g' h w _ => (g'.landResult_cnts op w).trans h

/-- The group once an operation's results have landed, nothing of it is pending and its counter has fallen (R127, R245). -/
def Group.finished (g : Group) (c op : Nat) (ws : List (Target × Word)) : Group :=
  ((ws.foldl (fun g w => g.landResult op w) g).clearPend op).complete c op

section
variable {g : Group} {c op : Nat}

theorem Group.pend_finished (ws : List (Target × Word)) : ∀ e ∈ (g.finished c op ws).pend, e.op ≠ op := by
  intro e he
  exact of_decide_eq_true (List.mem_filter.1 he).2

theorem Group.outs_finished {rest : List (Nat × Bool)} (h : Eldest g c op rest) (ws : List (Target × Word)) :
    (g.finished c op ws).outs c = rest.dropWhile fun e => e.2 :=
  Group.outs_complete _ c op rest
    ⟨(congrArg (Tab.getD · c []) (Group.foldl_landResult_cnts g op ws)).trans h.first, h.once⟩

theorem Group.reads_finished (hsaved : ∀ e ∈ g.pend, e.op = op → e.saved = false) {ws : List (Target × Word)}
    (hws : ∀ w ∈ ws, w.1.inLanes ∧ truthValue w) (hn : (ws.map Prod.fst).Nodup) {u : Target} (hu : u.inLanes) :
    (g.finished c op ws).reads u = written ws u (g.reads u) := by
  obtain ⟨es, hes⟩ := Group.foldl_landResult hsaved ws
  have hread : (g.finished c op ws).reads u = { g.landAll ws with inflight := es }.reads u := by
    rw [Group.finished, hes]
    cases u <;> rfl
  rw [hread, Group.reads_with_inflight, Group.reads_landAll g ws u hws hu hn]

end

/-- What a memory operation writes are words of registers, not predicates. -/
theorem MemOp.truthValue_writes (o : MemOp) : ∀ w ∈ o.writes, truthValue w := by
  have hreg : ∀ (r : Reg) (k lane : Nat) (x : Word), truthValue (physTarget r k lane, x) := by
    intro r k lane x
    cases r <;> trivial
  intro w hw
  unfold MemOp.writes at hw
  split at hw
  · cases hw
  · obtain ⟨k, -, hk⟩ := List.mem_flatMap.1 hw
    rcases List.mem_append.1 hk with hk | hk <;> obtain ⟨x, -, rfl⟩ := List.mem_map.1 hk <;> exact hreg ..

/-! ### An operation completes (R127, R243, R253) -/

theorem Group.reads_with_hold (g : Group) (hold : Option Nat) (seen : List Nat) (t : Target) :
    { g with hold := hold, seen := seen }.reads t = g.reads t := by
  cases t <;> rfl

theorem Group.reads_with_fwd (g : Group) (fwd : List Nat) (t : Target) : { g with fwd := fwd }.reads t = g.reads t := by
  cases t <;> rfl

theorem State.acquired_group {s : State} {gid : Nat} {g : Group} (hg : Tab.get? s.groups gid = some g) :
    ∃ seen, Tab.get? (s.acquired gid).groups gid = some { g with seen := seen } :=
  ⟨_, (Tab.get?_upd s.groups gid gid _).trans ((if_pos rfl).trans (congrArg (Option.map _) hg))⟩

theorem State.releaseHold_group {s : State} {gid : Nat} {g : Group} (hg : Tab.get? s.groups gid = some g) :
    ∃ hold seen, Tab.get? (s.releaseHold gid).groups gid = some { g with hold := hold, seen := seen } := by
  unfold State.releaseHold
  simp only [hg]
  split
  · exact ⟨g.hold, g.seen, hg⟩
  · split
    · obtain ⟨seen, hseen⟩ := State.acquired_group (s := s.setGroup gid { g with hold := none }) (Tab.get?_set_same ..)
      exact ⟨none, seen, hseen⟩
    · exact ⟨g.hold, g.seen, hg⟩

theorem State.finishMem_frame (s : State) (op : Nat) (o : MemOp) :
    s.finishMem op o = { s with
      groups := (s.finishMem op o).groups, views := (s.finishMem op o).views
      ops := { s.ops with mem := Tab.del s.ops.mem op } } := by
  rw [State.finishMem, State.releaseHold_frame]
  rfl

theorem State.get?_finishMem_mem (s : State) (op : Nat) (o : MemOp) : Tab.get? (s.finishMem op o).ops.mem op = none := by
  rw [State.finishMem_ops, Tab.get?_del, if_pos rfl]

theorem State.finishMem_sameMemory (s : State) (op : Nat) (o : MemOp) : SameMemory s (s.finishMem op o) := by
  rw [State.finishMem_frame]
  exact SameMemory.of_eq rfl rfl rfl

theorem SameMemory.trans {s t u : State} (h : SameMemory s t) (h' : SameMemory t u) : SameMemory s u where
  hbm a n := (h'.hbm a n).trans (h.hbm a n)
  blocks := h'.blocks.trans h.blocks
  launches := h'.launches.trans h.launches
  cells := h'.cells.trans h.cells

theorem State.finishMem_group {s : State} {op : Nat} {o : MemOp} {g : Group} (hg : Tab.get? s.groups o.group = some g) :
    ∃ hold seen, Tab.get? (s.finishMem op o).groups o.group =
      some { g.finished o.cls op o.writes with hold := hold, seen := seen } := by
  refine State.releaseHold_group ?_
  refine (Tab.get?_upd ..).trans ((if_pos rfl).trans ?_)
  rw [hg]
  rfl

/-! ### A load's last line is read (R204, R223, R249) -/

/-- The bytes that a lane of a load finds. -/
def State.found (s : State) (o : MemOp) (a : LaneAcc) : List Byte :=
  (List.range o.size.bytes).map fun k => s.resolved o.job o.tagged o.rtag o.obj (a.off + k) (a.phys + k)

/-- The load with what each of its lanes finds, and no line left. -/
def MemOp.sampled (o : MemOp) (s : State) : MemOp :=
  { o with accs := o.accs.map fun (a : LaneAcc) => { a with got := s.found o a }, lines := [] }

section
variable {s : State} {op line : Nat} {o : MemOp}

/-- A load's line that waits for no other access. -/
theorem State.loadBarred_eq_false (helder : ∀ a ∈ o.accs, s.elder o.group op o.obj a.off o.size.bytes = false)
    (hhome : ∀ a ∈ o.accs, ∀ k, k < o.size.bytes →
      s.forwardLine op o (a.off + k) = none ∧ s.leftBehind o (a.off + k) = false) :
    s.loadBarred op o line = false := by
  rw [State.loadBarred, Bool.or_eq_false_iff]
  constructor
  · rw [List.any_eq_false]
    intro a ha
    simp [helder a (List.mem_of_mem_filter ha)]
  · rw [List.any_eq_false]
    intro x hx
    obtain ⟨a, ha, hxa⟩ := List.mem_flatMap.1 hx
    obtain ⟨k, hk, rfl⟩ := List.mem_map.1 hxa
    obtain ⟨hfwd, hleft⟩ := hhome a (List.mem_of_mem_filter ha) k (List.mem_range.1 hk)
    simp [hfwd, hleft]

theorem bytes_pos (sz : MemSize) : 0 < sz.bytes := by
  cases sz <;> decide

/-- The last line of a load, all of whose bytes are read at their homes: the load completes with them, in the state but for
its cluster's budget and queue and what its group knows of forwarded lines. -/
theorem State.sampleLine_last {g : Group} {first : LaneAcc} (hg : Tab.get? s.groups o.group = some g)
    (hlines : o.lines = [line]) (hfirst : o.accs.head? = some first)
    (hline : ∀ a ∈ o.accs, lineOf a.off = line) (hbad : s.bad = [])
    (helder : ∀ a ∈ o.accs, s.elder o.group op o.obj a.off o.size.bytes = false)
    (hhome : ∀ a ∈ o.accs, ∀ k, k < o.size.bytes →
      s.forwardLine op o (a.off + k) = none ∧ s.leftBehind o (a.off + k) = false)
    (hgrant : (s.charge o.core (first.phys - first.off % 64) op line).1 = true) :
    ∃ u fwd, s.sampleLine op o line = u.finishMem op (o.sampled s) ∧ SameMemory s u ∧
      Tab.get? u.groups o.group = some { g with fwd := fwd } := by
  have hmine : o.accs.filter (fun a => lineOf a.off = line) = o.accs :=
    List.filter_eq_self.2 fun a ha => decide_eq_true (hline a ha)
  obtain ⟨as, has⟩ : ∃ as, o.accs = first :: as := List.head?_eq_some_iff.1 hfirst
  let offs := o.accs.flatMap fun a => (List.range o.size.bytes).map fun k => a.off + k
  have hsrcs : offs.filterMap (fun a => (s.forwardLine op o a).map fun e => (e, a)) = [] := by
    rw [List.filterMap_eq_nil_iff]
    intro x hx
    obtain ⟨a, ha, hxa⟩ := List.mem_flatMap.1 hx
    obtain ⟨k, hk, rfl⟩ := List.mem_map.1 hxa
    rw [(hhome a ha k (List.mem_range.1 hk)).1]
    rfl
  have hoffs : ¬ ([] : List ((Nat × SfqLine) × Nat)).length = offs.length := by
    have := bytes_pos o.size
    simp only [offs, has, List.flatMap_cons, List.length_nil, List.length_append, List.length_map, List.length_range]
    omega
  have hcharge : s.charge o.core (first.phys - first.off % 64) op line =
      (true, s.metered (s.charge o.core (first.phys - first.off % 64) op line).2.clusters) :=
    Prod.ext hgrant (State.charge_frame ..)
  have hleft : o.lines.filter (fun l => l ≠ line) = [] := by simp [hlines]
  have hstays : ((o.accs.isEmpty || !o.lines.contains line) || s.loadBarred op o line) = false := by
    simp [has, hlines, State.loadBarred_eq_false helder hhome]
  refine ⟨(s.metered (s.charge o.core (first.phys - first.off % 64) op line).2.clusters).updGroup o.group fun g =>
    { g with fwd := dedup (g.fwd ++ []) }, dedup (g.fwd ++ []), ?_, SameMemory.of_eq rfl rfl rfl,
    (Tab.get?_upd s.groups o.group o.group _).trans ((if_pos rfl).trans (congrArg (Option.map _) hg))⟩
  unfold State.sampleLine
  dsimp only
  simp only [hmine, hstays]
  rw [hsrcs, if_neg Bool.false_ne_true, if_neg hoffs, hfirst, Option.map_some, Option.getD_some, hcharge]
  simp only [hleft, List.isEmpty_nil, if_true, List.foldl_nil, List.map_nil]
  refine congrArg (fun accs => State.finishMem _ op { o with accs := accs, lines := [] }) (List.map_congr_left fun a ha => ?_)
  rw [if_pos (hline a ha)]
  refine congrArg (fun got => { a with got := got }) (List.map_congr_left fun k hk => ?_)
  rw [(hhome a ha k (List.mem_range.1 hk)).1]
  exact State.ctxByte_eq_resolved hbad ..

end

/-! ### A store's line at its home (R203, R222, R227, R232) -/

/-- Queue line `id` is acknowledged: it has left its queue, and with its store's last line ST has fallen past the store. -/
def Acknowledged (s t : State) (id : Nat) (e : SfqLine) : Prop :=
  Tab.get? t.ops.sfq id = none ∧
    ∀ o g rest, Tab.get? s.ops.mem e.op = some o → o.kind = .store → o.dst = none → o.cls = 1 →
      o.lines = [e.off] → Tab.get? s.groups o.group = some g → Eldest g 1 e.op rest →
      Tab.get? t.ops.mem e.op = none ∧ t.GroupIs o.group fun g' => g'.outs 1 = rest.dropWhile fun e => e.2

section
variable {s : State} {id : Nat} {e : SfqLine}

/-- What an acknowledgement changes: operations, groups, views and the lines that wait for a cell. -/
theorem State.ackLine_frame (s : State) (id : Nat) (e : SfqLine) : s.ackLine id e = { s with
    groups := (s.ackLine id e).groups, views := (s.ackLine id e).views, ops := (s.ackLine id e).ops
    kennel := { s.kennel with waits := s.kennel.waits.filter fun w => w ≠ id } } := by
  unfold State.ackLine
  dsimp only
  split
  · rfl
  · split
    · rw [State.finishMem_frame]
      rfl
    · rfl

theorem State.ackLine_sfq (s : State) (id : Nat) (e : SfqLine) : (s.ackLine id e).ops.sfq = Tab.del s.ops.sfq id := by
  unfold State.ackLine
  dsimp only
  split
  · rfl
  · split
    · rw [State.finishMem_ops]
      rfl
    · rfl

theorem State.ackLine_cells (s : State) (id : Nat) (e : SfqLine) : (s.ackLine id e).kennel.cells = s.kennel.cells := by
  rw [State.ackLine_frame]

theorem State.ackLine_launches (s : State) (id : Nat) (e : SfqLine) :
    (s.ackLine id e).work.launches = s.work.launches := by
  rw [State.ackLine_frame]

/-- A line is acknowledged in a state whose operations and groups are those before its write. -/
theorem State.ackLine_acknowledged {u : State} (hops : u.ops = s.ops) (hgroups : u.groups = s.groups) :
    Acknowledged s (u.ackLine id e) id e := by
  refine ⟨?_, fun o g rest ho _ hdst hcls hlines hg heldest => ?_⟩
  · rw [State.ackLine_sfq, Tab.get?_del, if_pos rfl]
  · let o' : MemOp := { o with lines := [] }
    have hfin : u.ackLine id e = ((u.setOps { u.ops with sfq := Tab.del u.ops.sfq id }).setKennel
        { u.kennel with waits := u.kennel.waits.filter fun w => w ≠ id }).finishMem e.op o' := by
      have hmem : Tab.get? u.ops.mem e.op = some o := hops ▸ ho
      have hleft : o.lines.filter (fun l => l ≠ e.off) = [] := by simp [hlines]
      simp only [State.ackLine, State.setOps, State.setKennel, hmem, hleft, List.isEmpty_nil, if_true]
      rfl
    rw [hfin]
    obtain ⟨hold, seen, hgroup⟩ := State.finishMem_group (op := e.op) (o := o')
      (s := (u.setOps { u.ops with sfq := Tab.del u.ops.sfq id }).setKennel
        { u.kennel with waits := u.kennel.waits.filter fun w => w ≠ id }) (g := g) (hgroups ▸ hg)
    exact ⟨State.get?_finishMem_mem .., _, hgroup, hcls ▸ Group.outs_finished (hcls ▸ heldest) _⟩

/-- A line that is granted at its home is written there and acknowledged, or comes to wait for a cell, in the state but for
its cluster's budget and queue. -/
theorem State.lineArrive_granted (hline : Tab.get? s.ops.sfq id = some e) (hready : s.lineReady id e = true)
    (hw : e.waiting = false) (hgrant : (s.charge e.core e.phys id e.off).1 = true) :
    ∃ cs, (∀ u, (s.metered cs).ctxWrite e.job e.launch e.tagged e.tag e.obj e.off e.phys e.bytes false = some u →
        exec (.lineArriveHome id) s = .next (u.ackLine id e)) ∧
      ((s.metered cs).ctxWrite e.job e.launch e.tagged e.tag e.obj e.off e.phys e.bytes false = none →
        exec (.lineArriveHome id) s =
          .next (((s.metered cs).setOps { s.ops with sfq := Tab.set s.ops.sfq id { e with waiting := true } }).setKennel
            { s.kennel with waits := s.kennel.waits ++ [id] })) := by
  have hcharge : s.charge e.core e.phys id e.off = (true, s.metered (s.charge e.core e.phys id e.off).2.clusters) :=
    Prod.ext hgrant (State.charge_frame ..)
  have hexec : exec (.lineArriveHome id) s = .next (s.lineArrive id) := rfl
  refine ⟨(s.charge e.core e.phys id e.off).2.clusters, fun u hu => ?_, fun hnone => ?_⟩ <;>
    rw [hexec, State.lineArrive] <;>
    simp only [hline, hready, hw, Bool.not_true, Bool.false_eq_true, if_false]
  · rw [hcharge]
    simp only [hu]
  · rw [hcharge]
    simp only [hnone]
    rfl

end

/-- A write that comes too late is counted against its launch. -/
theorem State.lateWrite_late {s : State} {lid : Nat} {l : Launch} (hl : Tab.get? s.work.launches lid = some l) :
    (Tab.get? (s.lateWrite lid).work.launches lid).map Launch.late = some (min 0xFFFFFFFF (l.late + 1)) := by
  simp [State.lateWrite, State.updLaunch, State.setWork, Tab.get?_upd, hl]

/-- In the root context a line goes to memory. -/
theorem State.ctxWrite_root {tagged : Bool} {tag : Nat} (h : tagged = false ∨ tag = 0) (s : State)
    (job launch obj line phys : Nat) (bytes : Tab Byte) :
    s.ctxWrite job launch tagged tag obj line phys bytes false = some (s.rootWrite phys bytes) := by
  rcases h with h | h <;> simp [State.ctxWrite, h]

/-- A line's bytes in a cell that holds what the context's cell did. -/
theorem cellWritten_putCell {s : State} {job tag obj gran : Nat} {c : Cell}
    (hfields : c.tag = tag ∧ c.job = job ∧ c.obj = obj ∧ c.gran = gran)
    (hbyte : ∀ k, c.byte? k = (s.kennel.cell? job tag obj gran).bind fun x => x.byte? k) (bytes : Tab Byte) :
    CellWritten s (s.setKennel (s.kennel.putCell (c.write bytes))) job tag obj gran fun k => Tab.get? bytes k := by
  refine ⟨c.write bytes, Kennel.cell?_putCell hfields, fun k hk => ?_⟩
  rw [Cell.byte?_write c bytes hk, hbyte]
  beta_reduce
  cases Tab.get? bytes k <;> rfl

section
variable {s : State} {job tag obj line : Nat} (htag : tag ≠ 0)
include htag

/-- In a dead context it is dropped, and counted. -/
theorem State.ctxWrite_dead (hlive : s.tagLive job tag = false) (launch phys : Nat) (bytes : Tab Byte) :
    s.ctxWrite job launch true tag obj line phys bytes false = some (s.lateWrite launch) := by
  simp [State.ctxWrite, htag, hlive]

variable (hlive : s.tagLive job tag = true)
include hlive

/-- In a live context without a cell it waits where none is free. -/
theorem State.ctxWrite_full (hcell : s.kennel.cell? job tag obj (line / 64) = none) (hfull : s.cellsFull job = true)
    (launch phys : Nat) (bytes : Tab Byte) :
    s.ctxWrite job launch true tag obj line phys bytes false = none := by
  simp [State.ctxWrite, htag, hlive, hcell, hfull]

/-- In a live context that has a cell for it or finds one free it goes to the cell. -/
theorem State.ctxWrite_live (hcell : s.kennel.cell? job tag obj (line / 64) ≠ none ∨ s.cellsFull job = false)
    (launch phys : Nat) (bytes : Tab Byte) :
    ∃ k, s.ctxWrite job launch true tag obj line phys bytes false = some (s.setKennel k) ∧
      CellWritten s (s.setKennel k) job tag obj (line / 64) fun i => Tab.get? bytes i := by
  cases hc : s.kennel.cell? job tag obj (line / 64) with
  | some c =>
    exact ⟨_, State.ctxWrite_cell htag hlive hc launch phys bytes,
      cellWritten_putCell (Kennel.cell?_fields hc) (fun _ => by rw [hc]; rfl) bytes⟩
  | none =>
    have hfree : s.cellsFull job = false := hcell.resolve_left fun h => h hc
    refine ⟨s.kennel.putCell ((Cell.fresh tag job obj (line / 64) phys).write bytes), ?_,
      cellWritten_putCell ⟨rfl, rfl, rfl, rfl⟩ (fun k => (Cell.byte?_fresh ..).trans ?_) bytes⟩
    · simp [State.ctxWrite, htag, hlive, hc, hfree]
    · exact (congrArg (Option.bind · _) hc).symm

end

end Sys2Proof.Machine

namespace Sys2Proof

open Machine

/-- Settles O29: a load's last line completes the load with what sampleLine_last finds, and a store's line is acknowledged
after the write of its context (lineArrive_granted). -/
theorem linesPerform : Obligations.LinesPerform := by
  constructor
  · intro s op line o g rest first hop hg hkind hlines hcls heldest hfirst hline hbad helder hhome hgrant hsaved hawake
      found o' hnodup hlanes
    obtain ⟨u, fwd, hsample, hsame, hu⟩ := State.sampleLine_last hg hlines hfirst hline hbad helder hhome hgrant
    have hload : s.loadReturn op line = u.finishMem op (o.sampled s) := by
      simp only [State.loadReturn, hop, hkind, hsample]
    obtain ⟨ps, hland⟩ := s.landing_awake (u.finishMem op (o.sampled s)) (fun _ => false) hawake
    have hexec : exec (.loadReturn op line) s = .next (s.landing (s.loadReturn op line) fun _ => false) := rfl
    obtain ⟨hold, seen, hgroup⟩ := State.finishMem_group (op := op) (o := o.sampled s) hu
    have hmem := hsame.trans (u.finishMem_sameMemory op (o.sampled s))
    rw [hexec, hload, hland]
    refine ⟨_, rfl, State.get?_finishMem_mem .., ⟨hmem.hbm, hmem.blocks, hmem.launches, hmem.cells⟩, _, hgroup, ?_,
      Group.pend_finished (c := o.cls) _, fun w hw => ?_⟩
    · exact hcls ▸ Group.outs_finished (g := { g with fwd := fwd }) (hcls ▸ ⟨heldest.first, heldest.once⟩) _
    · rw [Group.reads_with_hold, ← Group.reads_with_fwd g fwd]
      exact Group.reads_finished (g := { g with fwd := fwd }) (c := o.cls) hsaved
        (fun w hw => ⟨hlanes w hw, o'.truthValue_writes w hw⟩) hnodup hw
  · intro s id e hline hready hw hgrant hnodup cell acknowledged
    obtain ⟨cs, hdone, hwait⟩ := State.lineArrive_granted hline hready hw hgrant
    refine ⟨fun hroot => ?_, fun htagged htag => ⟨fun hlive hcell => ?_, fun hlive hcell hfull => ?_,
      fun hlive l hl => ?_⟩⟩
    · have hwrite := State.ctxWrite_root hroot (s.metered cs) e.job e.launch e.obj e.off e.phys e.bytes
      refine ⟨_, hdone _ hwrite, State.ackLine_acknowledged rfl rfl, fun a => ?_⟩
      rw [State.ackLine_hbm]
      exact memRead_writeAt s.hbm e.phys a e.bytes hnodup
    · obtain ⟨k, hwrite, c, hc, hbyte⟩ :=
        State.ctxWrite_live (s := s.metered cs) htag hlive hcell e.launch e.phys e.bytes
      rw [← htagged] at hwrite
      exact ⟨_, hdone _ hwrite, State.ackLine_acknowledged rfl rfl, State.ackLine_hbm .., c,
        (Kennel.cell?_eq_of_cells (State.ackLine_cells ..) ..).trans hc, hbyte⟩
    · have hwrite := State.ctxWrite_full (s := s.metered cs) htag hlive hcell hfull e.launch e.phys e.bytes
      rw [← htagged] at hwrite
      exact ⟨_, hwait hwrite, rfl, rfl, Tab.get?_set_same .., List.mem_append_right _ (List.mem_singleton_self id)⟩
    · have hwrite := State.ctxWrite_dead (s := s.metered cs) (obj := e.obj) (line := e.off) htag hlive e.launch e.phys e.bytes
      rw [← htagged] at hwrite
      refine ⟨_, hdone _ hwrite, State.ackLine_acknowledged rfl rfl, State.ackLine_hbm .., State.ackLine_cells .., ?_⟩
      rw [State.ackLine_launches]
      exact State.lateWrite_late (s := s.metered cs) hl

end Sys2Proof
end

