-- ==== Sys2Proof/Proofs/Values.lean ====
section
/-!
PROOFS. Values that are sent at issue and land later (R36, R127): SRD, BGET, CTXQ and SGSTAT, and LOAD_RETURN of such a value.
-/

namespace Sys2Proof.Machine

/-! ### Sending (R36) -/

theorem State.GroupIs.and {t : State} {gid : Nat} {P Q : Group → Prop} (hp : t.GroupIs gid P) (hq : t.GroupIs gid Q) :
    t.GroupIs gid fun g => P g ∧ Q g := by
  obtain ⟨g, hg, hp⟩ := hp
  obtain ⟨g', hg', hq⟩ := hq
  cases hg.symm.trans hg'
  exact ⟨g, hg, hp, hq⟩

theorem State.GroupIs.imp {t : State} {gid : Nat} {P Q : Group → Prop} (h : t.GroupIs gid P) (hpq : ∀ g, P g → Q g) :
    t.GroupIs gid Q := by
  obtain ⟨g, hg, hp⟩ := h
  exact ⟨g, hg, hpq g hp⟩

theorem Answers.imp {r : Res} {P Q : State → Prop} (h : Answers r P) (hpq : ∀ t, P t → Q t) : Answers r Q := by
  obtain ⟨t, ht, hp⟩ := h
  exact ⟨t, ht, hpq t hp⟩

/-- The state `t` is `u` with writes of group `gid` on their way, after the word has moved the group on from `g` (R36, R90). -/
structure SentFrom (u t : State) (gid : Nat) (g : Group) (ws : List (Target × Word)) : Prop where
  hbm : t.hbm = u.hbm
  work : t.work = u.work
  kennel : t.kennel = u.kennel
  sends : t.GroupIs gid fun g' => Sends t gid u.nextId g' ws ∧
    ∃ op cl i, g' = (g.setPend op (writtenRegs ws)).advance cl i .seq

theorem State.completed_sentFrom (u : State) (gid : Nat) (g : Group) (ws : List (Target × Word)) (cl : Clause) (i : Instr) :
    SentFrom u ((u.sent gid g ws).completed gid (g.setPend u.nextId (writtenRegs ws)) cl i) gid g ws where
  hbm := State.completed_hbm ..
  work := State.completed_work ..
  kennel := State.completed_kennel ..
  sends := (u.sent_sends gid g ws cl i).and (State.completed_groupIs ⟨_, _, _, rfl⟩)

/-- A ready word whose last act is to send writes, its group having become `g'`, completes with them on their way. -/
theorem issue_of_sends {i : Instr} {s u : State} {gid : Nat} {g g₀ g' : Group} {cl : Clause} {ws : List (Target × Word)}
    {eff : State → Nat → Group → Clause → Eff} (hr : Ready i s gid g cl) (hs : Steady g') (hne : ws ≠ [])
    (he : eff (s.setGroup gid g) gid g cl = doneG ((u.setGroup gid g₀).sendVals gid g' ws).1 gid
      ((u.setGroup gid g₀).sendVals gid g' ws).2 .seq) :
    Answers (issue i eff s) fun t => SentFrom u t gid g' ws := by
  have hdone : eff (s.setGroup gid g) gid g cl = .done (u.sent gid g' ws) .seq [] := by
    rw [he, State.sendVals_eq _ _ _ _ hne]
    exact congrArg (Eff.done · .seq []) (State.setGroup_setGroup
      (u.fresh.2.setOps { u.ops with vals := Tab.set u.ops.vals u.nextId ⟨gid, ws⟩ }) gid g₀ _)
  exact ⟨_, issue_of_done hr hdone (Tab.get?_set_same ..) ⟨hs.step, hs.lanes⟩, u.completed_sentFrom ..⟩

theorem SentFrom.sameMemory {s t : State} {gid : Nat} {g : Group} {ws : List (Target × Word)} (h : SentFrom s t gid g ws) :
    SameMemory s t :=
  SameMemory.of_eq h.hbm h.work h.kennel

theorem Group.setPend_sameRegisters (g : Group) (op : Nat) (rs : List PReg) (cl : Clause) (i : Instr) :
    SameRegisters g ((g.setPend op rs).advance cl i .seq) := by
  rw [Group.advance_frame]
  exact ⟨rfl, rfl, rfl, rfl, rfl, rfl⟩

theorem SentFrom.values {s t : State} {gid : Nat} {g : Group} {ws : List (Target × Word)} (h : SentFrom s t gid g ws) :
    SameMemory s t ∧ t.GroupIs gid fun g' => Sends t gid s.nextId g' ws ∧ SameRegisters g g' := by
  refine ⟨h.sameMemory, h.sends.imp ?_⟩
  rintro _ ⟨hsends, op, cl, i, rfl⟩
  exact ⟨hsends, g.setPend_sameRegisters ..⟩

theorem Group.tagOf_eq (g : Group) (a : Reg) : g.tagOf a = (g.sval a 0).toNat % 2 ^ 16 := by
  simp [Group.tagOf, bitsOf_eq]

/-- What BGET does (R206). -/
def bgetEff (d : Reg) (b : BitVec 5) (s : State) (gid : Nat) (g : Group) (_ : Clause) : Eff :=
  doneG (s.sendVals gid g ((List.range 4).flatMap fun k => g.dest d k fun _ => g.recWord b.toNat k)).1 gid
    (s.sendVals gid g ((List.range 4).flatMap fun k => g.dest d k fun _ => g.recWord b.toNat k)).2 .seq

theorem exec_bget (d : Reg) (b : BitVec 5) (s : State) : exec (.bget d b) s = issue (.bget d b) (bgetEff d b) s := rfl

/-! ### Landing (R127) -/

/-- The group once a value's writes have landed and nothing of it is pending. -/
def Group.landed (g : Group) (op : Nat) (ws : List (Target × Word)) : Group :=
  (ws.foldl (fun g w => g.landResult op w) g).clearPend op

theorem Group.pend_landed (g : Group) (op : Nat) (ws : List (Target × Word)) : ∀ e ∈ (g.landed op ws).pend, e.op ≠ op :=
  fun _ he => of_decide_eq_true (List.mem_filter.1 he).2

theorem Group.reads_landed {g : Group} {op : Nat} (hsaved : ∀ e ∈ g.pend, e.op = op → e.saved = false)
    {ws : List (Target × Word)} (hws : ∀ w ∈ ws, w.1.inLanes ∧ truthValue w) (hn : (ws.map Prod.fst).Nodup) {u : Target}
    (hu : u.inLanes) : (g.landed op ws).reads u = written ws u (g.reads u) := by
  obtain ⟨es, hes⟩ := Group.foldl_landResult hsaved ws
  have hread : (g.landed op ws).reads u = { g.landAll ws with inflight := es }.reads u := by
    rw [Group.landed, hes]
    cases u <;> rfl
  rw [hread, Group.reads_with_inflight, Group.reads_landAll g ws u hws hu hn]

theorem State.get?_landVal_groups {s : State} {op : Nat} {v : ValOp} {g : Group} (hg : Tab.get? s.groups v.group = some g) :
    Tab.get? (s.landVal op v).groups v.group = some (g.landed op v.writes) :=
  (Tab.get?_upd ..).trans ((if_pos rfl).trans (congrArg (Option.map _) hg))

theorem State.get?_landVal_vals (s : State) (op : Nat) (v : ValOp) : Tab.get? (s.landVal op v).ops.vals op = none :=
  (Tab.get?_del ..).trans (if_pos rfl)

/-- LOAD_RETURN of a value that no counter counts, with nothing in retention. -/
theorem exec_loadReturn_value {s : State} {op : Nat} {v : ValOp} (line : Nat) (hmem : Tab.get? s.ops.mem op = none)
    (hv : Tab.get? s.ops.vals op = some v) (hawake : s.retained = []) :
    ∃ ps, exec (.loadReturn op line) s = .next ((s.landVal op v).touch ps) := by
  obtain ⟨ps, hland⟩ := s.landing_awake (s.loadReturn op line) (fun _ => false) hawake
  have hload : s.loadReturn op line = s.landVal op v := by simp only [State.loadReturn, hmem, hv]
  exact ⟨ps, congrArg Host.Outcome.next (hland.trans (congrArg (State.touch · ps) hload))⟩

end Sys2Proof.Machine

namespace Sys2Proof

open Machine

/-- Settles O24: each of the four words sends its value as its last act (issue_of_sends), and LOAD_RETURN lands it
(exec_loadReturn_value). -/
theorem valuesSentAndLanded : Obligations.ValuesSentAndLanded := by
  refine ⟨fun s gid g cl hsteady => ⟨fun d sp hr hne => ?_, fun d b hr hne => ?_, fun d a hr hact hne => ?_,
    fun d slot code hr hne => ?_⟩, fun s op line v g hmem hv hg hnodup hws hsaved hawake => ?_⟩
  · exact (issue_of_sends (u := s) (g₀ := g) (eff := srdEff d sp) hr hsteady hne rfl).imp fun _ => SentFrom.values
  · rw [exec_bget]
    exact (issue_of_sends (u := s) (g₀ := g) hr hsteady hne rfl).imp fun _ => SentFrom.values
  · refine (issue_of_sends (u := s) (g₀ := g) (eff := ctxqEff d a) hr hsteady hne ?_).imp fun _ => SentFrom.values
    rw [ctxqEff, if_neg (by simpa using hact), Group.tagOf_eq]
    rfl
  · exact (issue_of_sends (u := s) (g₀ := g) (eff := sgstatEff d slot code) hr hsteady hne rfl).imp
      fun _ => SentFrom.values
  · obtain ⟨ps, hexec⟩ := exec_loadReturn_value line hmem hv hawake
    exact ⟨_, hexec, s.get?_landVal_vals op v, SameMemory.of_eq rfl rfl rfl, _, State.get?_landVal_groups hg,
      g.pend_landed op v.writes, fun w hw => Group.reads_landed hsaved hws hnodup hw⟩

end Sys2Proof
end

