-- ==== Sys2Proof/Proofs/TagWait.lean ====
section
/-!
PROOFS. Why ContextsCreated fails. A CTXNEW without an active lane of its clause does not wait (R88, R236), but the statement's
part on CONTEXT_TAG_REGISTER asks only that its group waits, and not that a lane of Exec is no helper. For a group that waits
with helper lanes alone the event takes the tag, and the scalar destination has no write to send (R101, R138).
-/

namespace Sys2Proof.Machine

/-- A clause of one word, at it, with one lane in Exec. -/
def helperClause : Clause := ⟨0, plainHeader 3 1, 1, 1#64, 1#64, 0, false⟩

/-- A group whose one lane is a helper lane, waiting for a tag at that clause. -/
def helperGroup : Group :=
  { Group.start 0 none 0 0 0 (probeKernel []) 1#64 1#64 0 with
    clause := some helperClause
    ctxwait := true }

/-- CTXNEW to scalar 4. -/
def waitingWord : Instr := .ctxnew (.s 4)

/-- The machine after power-on with the probe's launch, that group, CTXNEW in its cluster's code memory, and tag 1 in the
cluster's pool. -/
def helperState : State :=
  { State.reset with
    groups := [(0, helperGroup)]
    clusters := [(0, { Cluster.reset with code := [(1, (encode waitingWord).getD 0 0#32)] })]
    kennel := { State.reset.kennel with pools := [(0, [1])] }
    work := { State.reset.work with launches := [(0, probeLaunch [])] } }

/-- The values on their way in an answer. -/
def answeredValues : Res → Option (Tab ValOp)
  | .next t => some t.ops.vals
  | _ => none

theorem helperState_waits : helperGroup.ctxwait = true ∧ wordStep (helperState.fetch helperGroup helperClause) = waitingWord ∧
    helperState.childFault helperGroup = none ∧ helperState.tagReady helperGroup = true := by
  decide

/-- The tag comes, and no value is on its way. -/
theorem answeredValues_helperState : answeredValues (exec (.contextTagRegister 0) helperState) = some [] := by
  decide

end Sys2Proof.Machine

namespace Sys2Proof

open Machine

/-- Refutes O37: CONTEXT_TAG_REGISTER sends nothing to a CTXNEW that waits with helper lanes only. -/
theorem not_contextsCreated : ¬ Obligations.ContextsCreated := by
  intro h
  obtain ⟨hwait, hword, hfault, htag⟩ := helperState_waits
  obtain ⟨-, -, -, -, -, hregister⟩ := h helperState 0 helperGroup helperClause
  obtain ⟨hserved, -⟩ := hregister (.s 4) rfl rfl hwait (by decide) hword
  obtain ⟨t, hexec, -, tag, -, -, -, g', -, -, hsends⟩ := hserved ⟨rfl, by decide⟩ hfault htag
  have hnone := answeredValues_helperState
  rw [hexec] at hnone
  have hvalue := hsends.value
  rw [Option.some.inj hnone] at hvalue
  cases hvalue

end Sys2Proof
end

