-- ==== Sys2Proof/Proofs/ContextWords.lean ====
section
/-!
PROOFS. CTXSET and CTXRET (R237, R238): which context faults they raise, and what they leave where they raise none.
-/

namespace Sys2Proof.Machine

/-- The group with a context selected. -/
def Group.selects (g : Group) (t : Nat) : Group := { g with lanes := { g.lanes with ctag := BitVec.ofNat 16 t } }

theorem Steady.selects {g : Group} (h : Steady g) (t : Nat) : Steady (g.selects t) := ⟨h.step, h.lanes⟩

section
variable {s : State} {gid : Nat} {g : Group} {cl : Clause} (hact : g.active ≠ 0#64)
include hact

/-! ### CTXSET (R237) -/

theorem ctxsetEff_live {a : Reg} (hlive : s.tagLive (s.jobOf g) (g.tagOf a) = true) :
    ctxsetEff a (s.setGroup gid g) gid g cl = doneG (s.setGroup gid g) gid (g.selects (g.tagOf a)) .seq :=
  (if_neg (by simpa using hact)).trans (if_pos hlive)

theorem ctxsetEff_dead {a : Reg} (hdead : s.tagLive (s.jobOf g) (g.tagOf a) = false) :
    ctxsetEff a (s.setGroup gid g) gid g cl = .trap (.withDetail 0x0C 1) :=
  (if_neg (by simpa using hact)).trans (if_neg (ne_true_of_eq_false hdead))

/-! ### CTXRET (R238) -/

variable (hst : g.cnt 1 = 0) (hcp : g.cnt 2 = 0) (hatoms : (s.setGroup gid g).atomsOut gid = false) (hcl : g.cnt 5 < 15)
include hst hcp hatoms hcl

/-- With its waits over, CTXRET traps or starts the retirement. -/
theorem ctxretEff_eq (commit : Bool) (d a : Reg) : ctxretEff commit d a (s.setGroup gid g) gid g cl =
    match s.retireFault g (g.tagOf a) with
    | some c => .trap (.withDetail 0x0C c)
    | none => doneG (((s.setGroup gid g).fresh.2).retireTag (g.tagOf a) (clusterOf g.core) commit (some s.nextId)) gid
        ((g.count cCL s.nextId).setPend s.nextId (g.pregs d 1)) .seq := by
  have hwaits : ¬(g.cnt cST ≠ 0 || g.cnt cCP ≠ 0 || (s.setGroup gid g).atomsOut gid || cntLimit cCL ≤ g.cnt cCL) = true := by
    have hlimit : ¬ cntLimit cCL ≤ g.cnt cCL := Nat.not_le.2 hcl
    rw [hatoms]
    simp [cST, cCP, hst, hcp, hlimit]
  refine (if_neg (by simpa using hact)).trans ((if_neg hwaits).trans ?_)
  have hfault : (s.setGroup gid g).retireFault g (g.tagOf a) = s.retireFault g (g.tagOf a) := rfl
  rw [hfault]
  rfl

end

/-- The two words of CTXRET have ctxretEff as their meaning. -/
theorem exec_eq_ctxretEff {d a : Reg} {commit : Bool} {i : Instr}
    (h : (i, commit) ∈ [(Instr.ctxretCommit d a, true), (.ctxretDrop d a, false)]) (s : State) :
    exec i s = issue i (ctxretEff commit d a) s := by
  rcases List.mem_cons.1 h with h | h
  · cases h
    rfl
  · cases List.mem_singleton.1 h
    rfl

theorem State.retireTag_hbm (s : State) (t cluster : Nat) (commit : Bool) (op : Option Nat) :
    (s.retireTag t cluster commit op).hbm = s.hbm := rfl

theorem State.retireTag_cells (s : State) (t cluster : Nat) (commit : Bool) (op : Option Nat) :
    (s.retireTag t cluster commit op).kennel.cells = s.kennel.cells := rfl

theorem State.get?_retireTag {s : State} {t : Nat} {x : Tag} (h : s.tag? t = some x) (cluster : Nat) (commit : Bool)
    (op : Option Nat) : Tab.get? (s.retireTag t cluster commit op).kennel.tags t =
      some { x with state := .retiring commit op 0 false, cluster := cluster } :=
  (Tab.get?_upd ..).trans ((if_pos rfl).trans (congrArg (Option.map _) h))

/-! ### Which tags CTXRET takes (R238) -/

theorem State.hasChild_iff {s : State} {t : Nat} : s.hasChild t = true ↔ ∃ e ∈ s.kennel.tags, e.2.parent = t := by
  simp [State.hasChild]

theorem State.tagLive_of_live {s : State} {job t : Nat} {x : Tag} (h : s.tag? t = some x) (hjob : x.job = job)
    (hlive : x.state = .live) : s.tagLive job t = true := by
  simp [State.tagLive, h, hjob, hlive]

theorem State.tagLive_eq_false {s : State} {job t : Nat} (ht : t ≠ 0)
    (h : ∀ x, s.tag? t = some x → x.job ≠ job ∨ x.state ≠ .live) : s.tagLive job t = false := by
  cases hx : s.tag? t with
  | none => simp [State.tagLive, hx, ht]
  | some x =>
    have hdead := h x hx
    simpa [State.tagLive, hx, ht, ← not_and_or] using hdead

section
variable {s : State} {g : Group} {t : Nat}

theorem State.retireFault_unknown (h : t = 0 ∨ s.tagLive (s.jobOf g) t = false) : s.retireFault g t = some 4 := by
  rcases h with h | h <;> simp [State.retireFault, h]

variable (ht : t ≠ 0) (hlive : s.tagLive (s.jobOf g) t = true)
include ht hlive

theorem State.retireFault_own (hown : t = g.lanes.ctag.toNat) : s.retireFault g t = some 6 := by
  simp [State.retireFault, ← hown, ht, hlive]

theorem State.retireFault_parent (hown : t ≠ g.lanes.ctag.toNat) (hchild : s.hasChild t = true) :
    s.retireFault g t = some 5 := by
  simp [State.retireFault, hown, ht, hlive, hchild]

theorem State.retireFault_none (hown : t ≠ g.lanes.ctag.toNat) (hchild : s.hasChild t = false) :
    s.retireFault g t = none := by
  simp [State.retireFault, hown, ht, hlive, hchild]

end

end Sys2Proof.Machine

namespace Sys2Proof

open Machine

/-- Settles O38: CTXSET by the liveness of its tag, CTXRET by the fault that retireFault names (ctxretEff_eq). -/
theorem contextsSelectedAndRetired : Obligations.ContextsSelectedAndRetired := by
  intro s gid g cl hact
  refine ⟨fun a hr => ?_, fun d a commit i hi hr hst hcp hatoms hcl => ?_⟩
  · rw [← Group.tagOf_eq]
    refine ⟨fun hsteady hlive => ⟨_, issue_of_doneG hr (hsteady.selects _) (ctxsetEff_live hact hlive),
      s.after_onlyGroup .., State.after_groupIs ?_⟩, fun hdead => issue_of_trap hr (ctxsetEff_dead hact hdead)⟩
    rw [Group.advance_frame]
    exact ⟨⟨rfl, rfl, rfl, rfl, rfl, rfl⟩, rfl⟩
  · rw [← Group.tagOf_eq]
    have heff := ctxretEff_eq (cl := cl) hact hst hcp hatoms hcl commit d a
    refine ⟨fun x hsteady ht hx hjob hlive hown hchild => ?_, fun cause hcause => ?_⟩
    · have hnone : s.retireFault g (g.tagOf a) = none := by
        refine State.retireFault_none ht (State.tagLive_of_live hx hjob hlive) hown (Bool.eq_false_iff.2 fun h => ?_)
        obtain ⟨e, he, hparent⟩ := State.hasChild_iff.1 h
        exact hchild e he hparent
      rw [hnone] at heff
      refine ⟨_, (exec_eq_ctxretEff hi s).trans (issue_of_done hr heff (Tab.get?_set_same ..)
        ⟨hsteady.step, hsteady.lanes⟩), State.completed_hbm .., ?_, ?_, State.completed_groupIs ⟨?_, fun r h => ?_⟩⟩
      · rw [State.completed_kennel]
        rfl
      · rw [State.completed_kennel]
        exact State.get?_retireTag (s := (s.setGroup gid g).fresh.2) hx ..
      · rw [Group.advance_frame]
        exact Group.cnt_count g cCL s.nextId
      · rw [Group.advance_frame]
        refine List.any_eq_true.2 ⟨⟨r, s.nextId, false, g.inHandler⟩,
          List.mem_append_right _ (List.mem_map.2 ⟨r, h, rfl⟩), ?_⟩
        simp
    · have hfault : s.retireFault g (g.tagOf a) = some cause := by
        rcases hcause with ⟨hunknown, rfl⟩ | ⟨ht, hlive, ⟨hown, rfl⟩ | ⟨hown, hchild, rfl⟩⟩
        · refine State.retireFault_unknown ?_
          by_cases ht : g.tagOf a = 0
          · exact .inl ht
          · exact .inr (State.tagLive_eq_false ht (hunknown.resolve_left ht))
        · exact State.retireFault_own ht hlive hown
        · exact State.retireFault_parent ht hlive hown (State.hasChild_iff.2 hchild)
      rw [hfault] at heff
      exact (exec_eq_ctxretEff hi s).trans (issue_of_trap hr heff)

end Sys2Proof
end

