-- ==== Sys2Proof/Proofs/Retirement.lean ====
section
/-!
PROOFS. Contexts that retire (R229 to R233): what a granule's merge leaves in cells and memory, and what the end of a
retirement lands.
-/

namespace Sys2Proof.Machine

/-! ### Cells beside the one replaced (R222) -/

theorem Kennel.cell?_dropCell (k : Kennel) (job tag obj gran : Nat) : (k.dropCell job tag obj gran).cell? job tag obj gran = none := by
  rw [Kennel.cell?, List.find?_eq_none]
  intro c hc
  have hkept := (List.mem_filter.1 hc).2
  simp only [Bool.not_eq_true', Bool.and_eq_false_iff, decide_eq_false_iff_not] at hkept
  simp only [Bool.and_eq_true, decide_eq_true_eq]
  tauto

/-- The cells of other contexts and granules stand. -/
theorem Kennel.cell?_putCell_ne {k : Kennel} {c : Cell} {job tag obj gran : Nat}
    (h : ¬ (c.tag = tag ∧ c.job = job ∧ c.obj = obj ∧ c.gran = gran)) :
    (k.putCell c).cell? job tag obj gran = k.cell? job tag obj gran := by
  rw [Kennel.cell?, Kennel.putCell, List.find?_cons_of_neg (by simpa [and_assoc] using h), List.find?_filter, Kennel.cell?]
  congr 1
  funext x
  by_cases hx : x.tag = tag ∧ x.job = job ∧ x.obj = obj ∧ x.gran = gran
  · obtain ⟨rfl, rfl, rfl, rfl⟩ := hx
    simp only [eq_comm (a := c.tag), eq_comm (a := c.job), eq_comm (a := c.obj), eq_comm (a := c.gran)] at h
    simpa [not_and_or, or_assoc, -not_and] using h
  · have hfalse : (decide (x.tag = tag) && decide (x.job = job) && decide (x.obj = obj) && decide (x.gran = gran)) = false := by
      simpa [and_assoc] using hx
    rw [hfalse, decide_eq_false (by simp)]

theorem Cell.get?_written (c : Cell) (k : Nat) :
    Tab.get? c.written k = if k < 64 ∧ c.mask.getLsbD k = true then some (c.data.getD k 0#8) else none := by
  have hmap : ∀ l : List Nat, Tab.get? (l.map fun k => (k, c.data.getD k 0#8)) k =
      if k ∈ l then some (c.data.getD k 0#8) else none := by
    intro l
    induction l with
    | nil => rfl
    | cons n l ih =>
      rw [List.map_cons, Tab.get?_cons, ih]
      by_cases hn : n = k
      · simp [hn]
      · simp [hn, Ne.symm hn]
  rw [Cell.written, hmap]
  simp only [mem_maskList]

theorem Cell.nodup_written (c : Cell) : (c.written.map Prod.fst).Nodup := by
  simpa [Cell.written, Function.comp_def] using nodup_maskList c.mask

/-! ### A granule is merged or freed (R229, R230) -/

/-- The state without a context's cell, its tag now standing at `st`. -/
def State.freeGranule (s : State) (job t obj gran : Nat) (st : TagState) : State :=
  { s with
    bad := s.bad.filter fun b => b ≠ BadLoc.cell t obj gran
    kennel := { s.kennel.dropCell job t obj gran with tags := Tab.upd s.kennel.tags t fun y => { y with state := st } } }

/-- The parent's cell once a granule's written bytes are merged into it. -/
def Kennel.merged (k : Kennel) (job parent obj gran : Nat) (c : Cell) : Cell :=
  match k.cell? job parent obj gran with
  | some p => p.write c.written
  | none => { c with tag := parent }

section
variable {s : State} {t obj gran : Nat} {x : Tag} {commit : Bool} {op : Option Nat} {n : Nat} {bad : Bool} {c : Cell}

theorem State.retireGranule_eq (hx : s.tag? t = some x) (hstate : x.state = .retiring commit op n bad)
    (hc : s.kennel.cell? x.job t obj gran = some c) (hgood : BadLoc.cell t obj gran ∉ s.bad)
    (hheld : commit = true → s.granuleHeld x.job obj gran = false) :
    s.retireGranule t obj gran =
      let u := s.freeGranule x.job t obj gran (.retiring commit op (n + 1) bad)
      if commit = false then u
      else if x.parent = 0 then u.rootWrite c.phys c.written
      else u.setKennel (u.kennel.putCell (u.kennel.merged x.job x.parent obj gran c)) := by
  have hwaits : (commit && s.granuleHeld x.job obj gran) = false := by
    cases commit with
    | false => rfl
    | true => exact hheld rfl
  have hlost : s.bad.contains (BadLoc.cell t obj gran) = false := by simpa using hgood
  unfold State.retireGranule
  simp only [hx, hstate, hc, hwaits, hlost, Bool.and_false, Bool.or_false, Bool.false_eq_true, if_false]
  cases commit with
  | false => rfl
  | true =>
    simp only [Bool.not_true, Bool.true_eq_false, Bool.false_eq_true, if_false]
    by_cases hroot : x.parent = 0
    · rw [if_pos hroot, if_pos hroot]
      rfl
    · rw [if_neg hroot, if_neg hroot, Kennel.merged]
      cases hp : (s.freeGranule x.job t obj gran (.retiring true op (n + 1) bad)).kennel.cell? x.job x.parent obj gran <;>
        simp only [State.freeGranule, Kennel.cell?, Kennel.dropCell, State.setKennel] at hp ⊢ <;> simp only [hp]

theorem State.cell?_freeGranule (s : State) (job t obj gran : Nat) (st : TagState) :
    (s.freeGranule job t obj gran st).kennel.cell? job t obj gran = none :=
  (Kennel.cell?_eq_of_cells rfl ..).trans (s.kennel.cell?_dropCell job t obj gran)

theorem State.tag?_freeGranule (hx : s.tag? t = some x) (job : Nat) (st : TagState) :
    ((s.freeGranule job t obj gran st).tag? t).map Tag.state = some st := by
  have hupd : (s.freeGranule job t obj gran st).tag? t = some { x with state := st } :=
    (Tab.get?_upd ..).trans ((if_pos rfl).trans (congrArg (Option.map _) hx))
  rw [hupd]
  rfl

/-- A merged cell stands for the parent, and its written bytes are the child's. -/
theorem Kennel.merged_fields {k : Kennel} {job parent : Nat} (hjob : c.job = job) (hobj : c.obj = obj) (hgran : c.gran = gran) :
    (k.merged job parent obj gran c).tag = parent ∧ (k.merged job parent obj gran c).job = job ∧
      (k.merged job parent obj gran c).obj = obj ∧ (k.merged job parent obj gran c).gran = gran := by
  unfold Kennel.merged
  cases hp : k.cell? job parent obj gran with
  | some p =>
    have hfields := Kennel.cell?_fields hp
    exact hfields
  | none => exact ⟨rfl, hjob, hobj, hgran⟩

theorem Kennel.byte?_merged (k : Kennel) (job parent obj gran : Nat) (c : Cell) {i : Nat} (hi : i < 64)
    (hmask : c.mask.getLsbD i = true) : (k.merged job parent obj gran c).byte? i = some (c.data.getD i 0#8) := by
  unfold Kennel.merged
  cases k.cell? job parent obj gran with
  | some p =>
    change (p.write c.written).byte? i = _
    rw [Cell.byte?_write p c.written hi, c.get?_written, if_pos ⟨hi, hmask⟩]
    rfl
  | none => exact if_pos hmask

theorem memRead_written (m : Tab Byte) (c : Cell) (a : Nat) :
    memRead Config.hbmFill (writeAt m c.phys c.written) a =
      if c.phys ≤ a ∧ a < c.phys + 64 ∧ c.mask.getLsbD (a - c.phys) = true then c.data.getD (a - c.phys) 0#8
      else memRead Config.hbmFill m a := by
  rw [memRead_writeAt _ _ _ _ c.nodup_written, Tab.getD, c.get?_written]
  by_cases hbase : c.phys ≤ a
  · have hlt : a - c.phys < 64 ↔ a < c.phys + 64 := by omega
    simp only [hbase, hlt, true_and, if_true]
    split <;> rfl
  · simp [hbase]

/-- The merge of one granule: the cell is free, the tag counts it, and a commit's written bytes are the parent's. -/
theorem State.retireGranule_merges (hx : s.tag? t = some x) (hstate : x.state = .retiring commit op n bad)
    (hc : s.kennel.cell? x.job t obj gran = some c) (hgood : BadLoc.cell t obj gran ∉ s.bad)
    (hheld : commit = true → s.granuleHeld x.job obj gran = false) :
    let u := s.retireGranule t obj gran
    (commit = false ∨ x.parent ≠ t → u.kennel.cell? x.job t obj gran = none) ∧
    (u.tag? t).map Tag.state = some (.retiring commit op (n + 1) bad) ∧
    (commit = false → u.hbm = s.hbm) ∧
    (commit = true → x.parent = 0 → ∀ a, memRead Config.hbmFill u.hbm a =
      if c.phys ≤ a ∧ a < c.phys + 64 ∧ c.mask.getLsbD (a - c.phys) = true then c.data.getD (a - c.phys) 0#8
      else memRead Config.hbmFill s.hbm a) ∧
    (commit = true → x.parent ≠ 0 → x.parent ≠ t → u.hbm = s.hbm ∧
      ∃ p, u.kennel.cell? x.job x.parent obj gran = some p ∧
        ∀ k, k < 64 → c.mask.getLsbD k = true → p.byte? k = some (c.data.getD k 0#8)) := by
  obtain ⟨-, hjob, hobj, hgran⟩ := Kennel.cell?_fields hc
  have hfree := s.cell?_freeGranule x.job t obj gran (.retiring commit op (n + 1) bad)
  have htag := State.tag?_freeGranule (obj := obj) (gran := gran) hx x.job (.retiring commit op (n + 1) bad)
  rw [State.retireGranule_eq hx hstate hc hgood hheld]
  cases commit with
  | false => exact ⟨fun _ => hfree, htag, fun _ => rfl, nofun, nofun⟩
  | true =>
    dsimp only
    rw [if_neg (by decide)]
    by_cases hroot : x.parent = 0
    · rw [if_pos hroot]
      exact ⟨fun _ => hfree, htag, nofun, fun _ _ a => memRead_written s.hbm c a, fun _ h => absurd hroot h⟩
    · rw [if_neg hroot]
      have hmerged := Kennel.merged_fields (parent := x.parent) (k := (s.freeGranule x.job t obj gran
        (.retiring true op (n + 1) bad)).kennel) hjob hobj hgran
      refine ⟨fun h => ?_, htag, nofun, fun _ h => absurd h hroot, fun _ _ _ => ⟨rfl, _, Kennel.cell?_putCell hmerged,
        fun k hk hmask => Kennel.byte?_merged _ _ _ _ _ _ hk hmask⟩⟩
      have hother : x.parent ≠ t := h.resolve_left (by decide)
      exact (Kennel.cell?_putCell_ne fun h => hother (hmerged.1.symm.trans h.1)).trans hfree

end

/-! ### A status word lands (R127, R245) -/

theorem firstSome_ite {α β : Type} (p : α → Prop) [DecidablePred p] (f : α → Option β) (l : List α) :
    firstSome (fun e => if p e then f e else none) l = firstSome f (l.filter p) := by
  induction l with
  | nil => rfl
  | cons x l ih => by_cases hx : p x <;> simp [firstSome, hx, ih]

theorem Group.pendTarget_of_owes {g : Group} {op sd : Nat} (h : OwesScalar g op sd) : g.pendTarget op = some (.s sd) := by
  obtain ⟨handler, hpend⟩ := h
  exact (firstSome_ite (fun e : Pend => e.op = op) _ g.pend).trans (congrArg (firstSome _) hpend)

theorem Group.saved_of_owes {g : Group} {op sd : Nat} (h : OwesScalar g op sd) : ∀ e ∈ g.pend, e.op = op → e.saved = false := by
  obtain ⟨handler, hpend⟩ := h
  intro e he hop
  have hmem : e ∈ g.pend.filter fun e => e.op = op := List.mem_filter.2 ⟨he, decide_eq_true hop⟩
  rw [hpend, List.mem_singleton] at hmem
  rw [hmem]

/-- The status word of the eldest operation of a counter, which owes the group a scalar, lands there. -/
theorem Group.statusLanded {g : Group} {c op sd : Nat} {rest : List (Nat × Bool)} (howes : OwesScalar g op sd)
    (heldest : Eldest g c op rest) (w : Word) : StatusLanded g ((g.landScalar op w).complete c op) c op sd rest w := by
  have hland : (g.landScalar op w).complete c op = g.finished c op [(.s sd, w)] := by
    rw [Group.landScalar, Group.pendTarget_of_owes howes]
    rfl
  obtain ⟨es, hes⟩ := Group.foldl_landResult (Group.saved_of_owes howes) [(.s sd, w)]
  have hs : (g.finished c op [(.s sd, w)]).s = Tab.set g.s sd w := by
    rw [Group.finished, hes]
    rfl
  have hv : (g.finished c op [(.s sd, w)]).v = g.v := by
    rw [Group.finished, hes]
    rfl
  rw [hland]
  refine ⟨Group.outs_finished heldest _, Group.pend_finished _, ?_, fun r hr => ?_, hv⟩
  · rw [Group.rdS, hs, Tab.getD_set, if_pos rfl]
  · rw [Group.rdS, hs, Tab.getD_set, if_neg hr]
    rfl

/-! ### The end of a retirement (R217, R231, R233) -/

/-- A group that counts a retirement hears of its end. -/
def Group.hears (g : Group) (op : Nat) (w : Word) : Group :=
  if (g.outs cCL).any fun e => e.1 = op then (g.landScalar op w).complete cCL op else g

theorem Group.hears_of_eldest {g : Group} {op : Nat} {rest : List (Nat × Bool)} (h : Eldest g 5 op rest) (w : Word) :
    g.hears op w = (g.landScalar op w).complete 5 op := by
  refine if_pos (List.any_eq_true.2 ⟨(op, false), ?_, by simp⟩)
  rw [cCL, h.first]
  exact List.mem_cons_self ..

/-- What reads in a context whose retirement has completed resolves through the parent (R233). -/
theorem State.rtag_orphan_mem {s : State} {t k : Nat} {m : MemOp} (hm : Tab.get? s.ops.mem k = some m) (ht : m.rtag = t)
    (parent : Nat) : (Tab.get? (s.orphan t parent).ops.mem k).map MemOp.rtag = some parent := by
  simp [State.orphan, State.setOps, Tab.get?_mapVals, hm, ht]

theorem State.rtag_orphan_copies {s : State} {t k : Nat} {m : CopyCmd} (hm : Tab.get? s.ops.copies k = some m)
    (ht : m.rtag = t) (parent : Nat) : (Tab.get? (s.orphan t parent).ops.copies k).map CopyCmd.rtag = some parent := by
  simp [State.orphan, State.setOps, Tab.get?_mapVals, hm, ht]

/-- A retirement that is complete: no cell of the tag is left and no write waits for one. -/
theorem State.retireComplete_eq {s : State} {t : Nat} {x : Tag} {commit : Bool} {o n : Nat} {bad : Bool}
    (hx : s.tag? t = some x) (hstate : x.state = .retiring commit (some o) n bad)
    (hcells : ∀ e ∈ s.kennel.cells, e.tag ≠ t) (hheld : s.tagHeld t = false) :
    ∃ pools, s.retireComplete t = { s.orphan t x.parent with
      kennel := { s.kennel with tags := Tab.del s.kennel.tags t, pools := pools }
      groups := Tab.mapVals s.groups fun _ g => g.hears o (retireStatus n bad) } := by
  have hnone : (s.kennel.cells.any fun c => c.tag = t) = false := by simpa using hcells
  unfold State.retireComplete
  simp only [hx, hstate, hnone, hheld, Bool.or_false, Bool.false_eq_true, if_false]
  exact ⟨_, rfl⟩

end Sys2Proof.Machine
end

