-- ==== Sys2Proof/Proofs/ContextEvents.lean ====
section
/-!
PROOFS. The events of contexts (R217, R227 to R231, R233): the Pups' pools of tags, the stall of a job on its contexts, and a
write that waits for a cell.
-/

namespace Sys2Proof.Machine

/-! ### Pools (R217) -/

theorem length_dedup_le {α : Type} [DecidableEq α] (l : List α) : (dedup l).length ≤ l.length := by
  induction l with
  | nil => exact Nat.le_refl 0
  | cons x l ih => exact Nat.succ_le_succ ((List.length_filter_le ..).trans ih)

theorem nodup_dedup {α : Type} [DecidableEq α] (l : List α) : (dedup l).Nodup := by
  induction l with
  | nil => exact List.nodup_nil
  | cons x l ih => exact List.nodup_cons.2 ⟨by simp, ih.filter _⟩

theorem State.tagRequest_asks {s : State} {cluster job : Nat} (howner : s.poolOwner cluster job = true)
    (hshort : (s.pool cluster job).length < 8) (hasked : Tab.getD s.kennel.asked (poolKey cluster job) false = false) :
    s.tagRequest cluster job =
      (s.setKennel { s.kennel with asked := Tab.set s.kennel.asked (poolKey cluster job) true }).sendHub cluster
        (.tagRequest job) := by
  simp [State.tagRequest, State.askTags, howner, hshort, hasked]

/-- The tags that a grant adds to a pool. -/
def State.grantedTags (s : State) (cluster job : Nat) (tags : List Nat) : List Nat :=
  if s.poolOwner cluster job then
    ((dedup tags).filter fun t => s.tagFree t).take (min 16 (64 - (s.pool cluster job).length))
  else []

/-- A grant consumes the request at the head of the link, and the granted tags join the pool. -/
theorem State.tagGrant_eq {s : State} {cluster job : Nat} (tags : List Nat)
    (hhead : (Tab.getD s.hub.toHub cluster []).head? = some (.tagRequest job)) (hclear : Tab.getD s.hub.toPup cluster [] = []) :
    s.tagGrant cluster job tags = (s.takeHub cluster).setKennel { s.kennel with
      asked := Tab.del s.kennel.asked (poolKey cluster job)
      pools := Tab.set s.kennel.pools (poolKey cluster job) (s.pool cluster job ++ s.grantedTags cluster job tags) } := by
  have hgo : (s.linkClear cluster && (Tab.getD s.hub.toHub cluster []).head? = some (.tagRequest job)) = true := by
    simp [State.linkClear, hclear, hhead]
  exact if_pos hgo

section
variable {s : State} {cluster job : Nat} {tags : List Nat}

theorem State.length_grantedTags_le : (s.grantedTags cluster job tags).length ≤ min 16 (64 - (s.pool cluster job).length) := by
  unfold State.grantedTags
  split
  · exact List.length_take_le ..
  · exact Nat.zero_le _

theorem State.mem_grantedTags {n : Nat} (h : n ∈ s.grantedTags cluster job tags) : n ∈ tags ∧ s.tagFree n = true := by
  unfold State.grantedTags at h
  split at h
  · obtain ⟨hmem, hfree⟩ := List.mem_filter.1 (List.mem_of_mem_take h)
    exact ⟨mem_dedup.1 hmem, hfree⟩
  · cases h

/-- A pool with room for sixteen takes every free tag of a grant of no more. -/
theorem State.mem_grantedTags_of_free (howner : s.poolOwner cluster job = true) (hroom : (s.pool cluster job).length ≤ 48)
    (hfew : tags.length ≤ 16) {n : Nat} (hn : n ∈ tags) (hfree : s.tagFree n = true) : n ∈ s.grantedTags cluster job tags := by
  have hlength := (List.length_filter_le (fun t => s.tagFree t) (dedup tags)).trans (length_dedup_le tags)
  rw [State.grantedTags, if_pos howner, List.take_of_length_le (by omega)]
  exact List.mem_filter.2 ⟨mem_dedup.2 hn, hfree⟩

end

/-! ### A job stalled on its contexts (R228) -/

/-- Launches end, one after another, each with a status of its own. -/
def State.killLaunches (s : State) (status : Nat → Nat) (ls : List Nat) : State :=
  ls.foldl (fun s l => s.killLaunch l (status l)) s

theorem State.killLaunch_groups_subset (s : State) (l status : Nat) : (s.killLaunch l status).groups ⊆ s.groups :=
  List.filter_subset_self _

theorem State.killLaunch_blocks_subset (s : State) (l status : Nat) : (s.killLaunch l status).work.blocks ⊆ s.work.blocks :=
  List.filter_subset_self _

theorem State.killLaunch_other (s : State) {l k : Nat} (h : k ≠ l) (status : Nat) :
    Tab.get? (s.killLaunch l status).work.launches k = Tab.get? s.work.launches k :=
  (Tab.get?_upd ..).trans (if_neg h)

theorem State.sorted_killLaunch {s : State} (hsorted : Tab.sorted s.groups = true) (l status : Nat) :
    Tab.sorted (s.killLaunch l status).groups = true :=
  Tab.sorted_filter _ hsorted

/-- In an ordered table no group of the launch is left. -/
theorem State.launch_ne_of_mem_killLaunch {s : State} (hsorted : Tab.sorted s.groups = true) (l status : Nat) :
    ∀ e ∈ (s.killLaunch l status).groups, e.2.launch ≠ l := by
  rintro ⟨k, g⟩ he rfl
  have hget := Tab.get?_of_mem hsorted (s.killLaunch_groups_subset _ _ he)
  have hkept := (List.mem_filter.1 he).2
  simp [hget] at hkept

section
variable {status : Nat → Nat} {ls : List Nat}

theorem State.killLaunches_subset (s : State) :
    (s.killLaunches status ls).groups ⊆ s.groups ∧ (s.killLaunches status ls).work.blocks ⊆ s.work.blocks := by
  induction ls generalizing s with
  | nil => exact ⟨fun _ h => h, fun _ h => h⟩
  | cons l ls ih =>
    obtain ⟨hgroups, hblocks⟩ := ih (s.killLaunch l (status l))
    exact ⟨fun _ h => s.killLaunch_groups_subset l _ (hgroups h), fun _ h => s.killLaunch_blocks_subset l _ (hblocks h)⟩

/-- A launch that is not among them stays as it is. -/
theorem State.killLaunches_other (s : State) {k : Nat} (h : k ∉ ls) :
    Tab.get? (s.killLaunches status ls).work.launches k = Tab.get? s.work.launches k := by
  induction ls generalizing s with
  | nil => rfl
  | cons l ls ih =>
    obtain ⟨hk, hls⟩ := not_or.1 (mt List.mem_cons.2 h)
    exact (ih (s.killLaunch l (status l)) hls).trans (s.killLaunch_other hk _)

/-- One among them that had not completed ends with its status, and none of its groups and blocks is left. -/
theorem State.killLaunches_ends {s : State} (hsorted : Tab.sorted s.groups = true) (hnodup : ls.Nodup) {k : Nat} (hk : k ∈ ls)
    {l : Launch} (hl : Tab.get? s.work.launches k = some l) (hopen : l.status = none) :
    (Tab.get? (s.killLaunches status ls).work.launches k).map Launch.status = some (some (status k)) ∧
      (∀ e ∈ (s.killLaunches status ls).groups, e.2.launch ≠ k) ∧
      ∀ e ∈ (s.killLaunches status ls).work.blocks, e.2.launch ≠ k := by
  induction ls generalizing s with
  | nil => cases hk
  | cons j ls ih =>
    obtain ⟨hj, hls⟩ := List.nodup_cons.1 hnodup
    by_cases hjk : k = j
    · subst hjk
      obtain ⟨hgroups, hblocks⟩ := (s.killLaunch k (status k)).killLaunches_subset (status := status) (ls := ls)
      refine ⟨?_, fun e he => State.launch_ne_of_mem_killLaunch hsorted k _ e (hgroups he), fun e he => ?_⟩
      · have hstatus := State.killLaunch_status s k (status k) l hl
        rw [hopen] at hstatus
        exact (congrArg (Option.map _) (State.killLaunches_other _ hj)).trans hstatus
      · exact of_decide_eq_true (List.mem_filter.1 (hblocks he)).2
    · exact ih (s := s.killLaunch j (status j)) (State.sorted_killLaunch hsorted j _) hls
        ((List.mem_cons.1 hk).resolve_left hjk) ((s.killLaunch_other hjk _).trans hl)

end

/-- The unfinished groups of a job. -/
def State.unfinished (s : State) (job : Nat) : List (Nat × Group) := s.groups.filter fun e => !e.2.done && s.jobOf e.2 = job

/-- After the timeout the launches of the stalled groups end. -/
theorem State.stallTimeout_eq {s : State} {job t₀ : Nat} {j : Job} (hj : Tab.get? s.work.jobs job = some j)
    (hsince : j.stalled = some t₀) (hlong : t₀ + 100000 ≤ s.now) (hne : s.unfinished job ≠ [])
    (hall : ∀ e ∈ s.unfinished job, s.ctxStalled e.1 e.2 = true) :
    s.stallTimeout job = s.killLaunches
      (fun l => if (s.unfinished job).any fun e => e.2.launch = l && s.waitsForCell e.1 e.2 then stCell else stTag)
      (dedup ((s.unfinished job).map fun e => e.2.launch)) := by
  have hstalled : s.allStalled job = true :=
    Bool.and_eq_true_iff.2 ⟨by simpa [State.unfinished] using hne, List.all_eq_true.2 hall⟩
  have hsome : (Tab.get? s.work.jobs job).bind Job.stalled = some t₀ := by rw [hj]; exact hsince
  unfold State.stallTimeout
  simp only [hsome, hstalled, hlong, decide_true, Bool.and_self, if_true]
  rfl

/-! ### A waiting write (R227) -/

/-- A write that waits at its home goes to its context's cell, or to one that is free. -/
theorem State.ctxWrite_waited {s : State} {job tag obj line : Nat} {tagged : Bool} (htagged : tagged = true) (htag : tag ≠ 0)
    (hfree : s.cellsFull job = false) (launch phys : Nat) (bytes : Tab Byte) :
    ∃ k, s.ctxWrite job launch tagged tag obj line phys bytes true = some (s.setKennel k) ∧
      CellWritten s (s.setKennel k) job tag obj (line / 64) fun i => Tab.get? bytes i := by
  cases hc : s.kennel.cell? job tag obj (line / 64) with
  | some c =>
    exact ⟨s.kennel.putCell (c.write bytes), by simp [State.ctxWrite, htagged, htag, hc],
      cellWritten_putCell (Kennel.cell?_fields hc) (fun _ => by rw [hc]; rfl) bytes⟩
  | none =>
    refine ⟨s.kennel.putCell ((Cell.fresh tag job obj (line / 64) phys).write bytes), by simp [State.ctxWrite, htagged, htag, hc, hfree],
      cellWritten_putCell ⟨rfl, rfl, rfl, rfl⟩ (fun k => (Cell.byte?_fresh ..).trans ?_) bytes⟩
    exact (congrArg (Option.bind · _) hc).symm

/-- The grant of a cell to a waiting store line, which is written and acknowledged. -/
theorem State.cellGrant_line {s u : State} {w : Nat} {e : SfqLine} (hw : w ∈ s.kennel.waits)
    (he : Tab.get? s.ops.sfq w = some e) (hready : s.lineReady w e = true) (hwaiting : e.waiting = true)
    (hwrite : s.ctxWrite e.job e.launch e.tagged e.tag e.obj e.off e.phys e.bytes true = some u) :
    s.cellGrant w = u.ackLine w e := by
  have hin : s.kennel.waits.contains w = true := List.contains_iff_mem.2 hw
  have hhas : Tab.has s.ops.sfq w = true := by rw [Tab.has, he]; rfl
  simp only [State.cellGrant, hin, hhas, State.lineArrive, he, hready, hwaiting, hwrite, Bool.not_true, Bool.false_eq_true,
    if_false, if_true]

end Sys2Proof.Machine

namespace Sys2Proof

open Machine

/-- Settles O39, event by event: retireGranule_merges, retireComplete_eq with the status word of Group.statusLanded,
tagRequest_asks, tagGrant_eq, stallTimeout_eq with killLaunches_ends, and cellGrant_line. -/
theorem contextEvents : Obligations.ContextEvents := by
  refine ⟨fun s tag obj gran x commit op n bad c hx hstate => ⟨fun hc hgood hheld => ⟨_, rfl,
      State.retireGranule_merges hx hstate hc hgood hheld⟩, fun hcells hheld hawake o gid g sd rest hop hg howes heldest => ?_⟩,
    fun s cluster job => ⟨fun howner hshort hasked => ⟨_, rfl, ?_⟩, fun tags hhead hclear => ⟨_, rfl, ?_⟩,
      fun j t₀ hj hsince hlong hsorted => ?_,
      fun w e hw he hready hwaiting htagged htag hfree => ?_⟩⟩
  · obtain ⟨pools, hend⟩ := State.retireComplete_eq hx (hop ▸ hstate) hcells hheld
    obtain ⟨ps, hland⟩ := s.landing_awake (s.retireComplete tag) (fun _ => false) hawake
    rw [hend] at hland
    have hexec : exec (.contextRetireComplete tag) s = .next (s.landing (s.retireComplete tag) fun _ => false) := rfl
    rw [hexec, hend, hland]
    have hgroup : Tab.get? (Tab.mapVals s.groups fun _ g => g.hears o (retireStatus n bad)) gid =
        some (g.hears o (retireStatus n bad)) := by rw [Tab.get?_mapVals, hg]; rfl
    refine ⟨_, rfl, (Tab.get?_del ..).trans (if_pos rfl), rfl, fun k m hm hrtag => State.rtag_orphan_mem hm hrtag _,
      fun k m hm hrtag => State.rtag_orphan_copies hm hrtag _, _, hgroup, ?_⟩
    rw [Group.hears_of_eldest heldest]
    exact Group.statusLanded howes heldest _
  · rw [State.tagRequest_asks howner hshort hasked]
    refine ⟨?_, rfl, ?_⟩
    · exact (Tab.getD_set ..).trans (if_pos rfl)
    · exact (Tab.getD_set ..).trans (if_pos rfl)
  · rw [State.tagGrant_eq tags hhead hclear]
    have hlength := State.length_grantedTags_le (s := s) (cluster := cluster) (job := job) (tags := tags)
    have hpool : ((s.takeHub cluster).setKennel { s.kennel with
        asked := Tab.del s.kennel.asked (poolKey cluster job)
        pools := Tab.set s.kennel.pools (poolKey cluster job)
          (s.pool cluster job ++ s.grantedTags cluster job tags) }).pool cluster job =
        s.pool cluster job ++ s.grantedTags cluster job tags := (Tab.getD_set ..).trans (if_pos rfl)
    refine ⟨?_, (Tab.getD_set ..).trans (if_pos rfl), s.grantedTags cluster job tags, hpool, by omega, fun hnew => ?_,
      fun n => State.mem_grantedTags, fun howner hroom hfew n => State.mem_grantedTags_of_free howner hroom hfew⟩
    · exact congrArg (Option.getD · false) ((Tab.get?_del ..).trans (if_pos rfl))
    · rw [hpool, List.length_append]
      have hpos := List.length_pos_of_ne_nil hnew
      omega
  · intro mine hne hall
    refine ⟨_, congrArg Host.Outcome.next (State.stallTimeout_eq hj hsince hlong hne hall), fun lid l hl => ?_⟩
    refine ⟨fun hmine hopen => ?_, fun hnone => (State.killLaunches_other s fun hmem => ?_).trans hl⟩
    · obtain ⟨e, he, rfl⟩ := hmine
      exact State.killLaunches_ends hsorted (nodup_dedup _) (mem_dedup.2 (List.mem_map_of_mem he)) hl hopen
    · obtain ⟨e, he, hlaunch⟩ := List.mem_map.1 (mem_dedup.1 hmem)
      exact hnone e he hlaunch
  · obtain ⟨k, hwrite, c, hc, hbyte⟩ := State.ctxWrite_waited htagged htag hfree e.launch e.phys e.bytes
    refine ⟨_, rfl, ?_⟩
    rw [State.cellGrant_line hw he hready hwaiting hwrite]
    refine ⟨?_, ?_, State.ackLine_hbm .., c, (Kennel.cell?_eq_of_cells (State.ackLine_cells ..) ..).trans hc,
      fun i b hi hb => ?_⟩
    · rw [State.ackLine_sfq, Tab.get?_del, if_pos rfl]
    · rw [State.ackLine_frame]
      simp
    · rw [hbyte i hi]
      simp only [hb]

end Sys2Proof
end

