-- ==== Sys2Proof/Proofs/QueueCommands.lean ====
section
/-!
PROOFS. Commands written into queue registers (R275, R276, R278, R279, R430): what a completion record leaves in its group, and
what the acceptance of a command of eight words leaves in the engines.
-/

namespace Sys2Proof.Machine

/-! ### A record enters its queue (R107, R276, R278) -/

/-- What landing a claimed word leaves of a group: its queues' commands, and what decides how it goes on. -/
structure KeepsCommands (g g' : Group) : Prop where
  qbuf : g'.qbuf = g.qbuf
  qout : g'.qout = g.qout
  done : g'.done = g.done
  step : g'.step = g.step
  active : g'.lanes.active = g.lanes.active

theorem KeepsCommands.trans {g h k : Group} (hgh : KeepsCommands g h) (hhk : KeepsCommands h k) : KeepsCommands g k where
  qbuf := hhk.qbuf.trans hgh.qbuf
  qout := hhk.qout.trans hgh.qout
  done := hhk.done.trans hgh.done
  step := hhk.step.trans hgh.step
  active := hhk.active.trans hgh.active

theorem KeepsCommands.steady {g g' : Group} (h : KeepsCommands g g') (hs : Steady g) : Steady g' :=
  ⟨h.step.trans hs.step, h.active ▸ hs.lanes⟩

theorem Group.landResult_keepsCommands (g : Group) (op : Nat) (w : Target × Word) : KeepsCommands g (g.landResult op w) := by
  unfold Group.landResult
  split
  · split <;> exact ⟨rfl, rfl, rfl, rfl, rfl⟩
  · rw [Group.land_frame]
    exact ⟨rfl, rfl, rfl, rfl, rfl⟩

theorem Group.landScalar_keepsCommands (g : Group) (op : Nat) (w : Word) : KeepsCommands g (g.landScalar op w) := by
  unfold Group.landScalar
  split
  · exact (g.landResult_keepsCommands ..).trans ⟨rfl, rfl, rfl, rfl, rfl⟩
  · exact ⟨rfl, rfl, rfl, rfl, rfl⟩

theorem serveClaims_keepsCommands (g : Group) (q : Nat) (ops : List Nat) (ws : List Word) :
    KeepsCommands g (serveClaims g q ops ws) := by
  induction ops generalizing g ws with
  | nil => exact ⟨rfl, rfl, rfl, rfl, rfl⟩
  | cons op ops ih =>
    cases ws with
    | nil => exact ⟨rfl, rfl, rfl, rfl, rfl⟩
    | cons w ws => exact (g.landScalar_keepsCommands op w).trans (ih ..)

/-- The record's command is outstanding no more. -/
theorem Group.popRecord_keepsCommands (g : Group) (q : Nat) (ws : List Word) :
    KeepsCommands { g with qout := Tab.set g.qout q (Tab.getD g.qout q 0 - 1) } (g.popRecord q ws) := by
  unfold Group.popRecord
  dsimp only
  split
  · exact (serveClaims_keepsCommands ..).trans ⟨rfl, rfl, rfl, rfl, rfl⟩
  · exact serveClaims_keepsCommands ..

/-- Without a claim the record's words stand in the queue of a group that has not completed. -/
theorem Group.qcmp_popRecord {g : Group} {q : Nat} (hdone : g.done = false) (hclaims : Tab.getD g.qclaims (q + 1) [] = [])
    (ws : List Word) : Tab.getD (g.popRecord q ws).qcmp (q + 1) [] = Tab.getD g.qcmp (q + 1) [] ++ ws := by
  unfold Group.popRecord
  simp [hclaims, serveClaims, hdone, Tab.getD_set]

/-! ### The group of a command -/

/-- The group as its eighth word leaves it: the words are gone and a command more is outstanding. -/
def Group.submits (g : Group) (k : Nat) : Group :=
  { g with qbuf := Tab.set g.qbuf k [], qout := Tab.set g.qout k (Tab.getD g.qout k 0 + 1) }

theorem Steady.submits {g : Group} (h : Steady g) (k : Nat) : Steady (g.submits k) := ⟨h.step, h.lanes⟩

theorem Steady.pops {g : Group} (h : Steady g) (k : Nat) (ws : List Word) : Steady ((g.submits k).popRecord k ws) :=
  ((g.submits k).popRecord_keepsCommands k ws).steady ⟨h.step, h.lanes⟩

/-- A command of pair `k` has entered its engine, the group having been `g`. -/
structure Enters (g g' : Group) (k : Nat) : Prop where
  words : Tab.getD g'.qbuf k [] = []
  outstanding : Tab.getD g'.qout k 0 = Tab.getD g.qout k 0 + 1

/-- A command of pair `k` has ended at once with the record `ws`. -/
structure Ends (g g' : Group) (k : Nat) (ws : List Word) : Prop where
  words : Tab.getD g'.qbuf k [] = []
  outstanding : Tab.getD g'.qout k 0 = Tab.getD g.qout k 0
  record : Tab.getD g.qclaims (k + 1) [] = [] → Tab.getD g'.qcmp (k + 1) [] = Tab.getD g.qcmp (k + 1) [] ++ ws

section
variable (g : Group) (k : Nat) (cl : Clause) (i : Instr)

theorem Group.submits_enters : Enters g ((g.submits k).advance cl i .seq) k := by
  rw [Group.advance_frame]
  exact ⟨(Tab.getD_set ..).trans (if_pos rfl), (Tab.getD_set ..).trans (if_pos rfl)⟩

theorem Group.submits_ends (hdone : g.done = false) (ws : List Word) :
    Ends g (((g.submits k).popRecord k ws).advance cl i .seq) k ws := by
  have hkeeps := (g.submits k).popRecord_keepsCommands k ws
  rw [Group.advance_frame]
  refine ⟨?_, ?_, fun hclaims => Group.qcmp_popRecord (g := g.submits k) hdone hclaims ws⟩
  · refine (congrArg (Tab.getD · k []) hkeeps.qbuf).trans ?_
    exact (Tab.getD_set ..).trans (if_pos rfl)
  · refine (congrArg (Tab.getD · k 0) hkeeps.qout).trans ?_
    simp [Group.submits, Tab.getD_set]

end

/-! ### The engines (R278, R279, R426, R430) -/

/-- An engine refuses a command with a reserved field (R279): its record. -/
def refusedRecord (engine : Nat) (user : Word) : List Word := [BitVec.ofNat 32 (0xC * 2 ^ 28 + engine * 2 ^ 24), user]

theorem copyStatus_refused (engine : Nat) : copyStatus 0xC engine 0 = BitVec.ofNat 32 (0xC * 2 ^ 28 + engine * 2 ^ 24) :=
  congrArg (BitVec.ofNat 32) (Nat.add_zero _)

section
variable {s : State} {gid : Nat} {g : Group} {k : Nat} {ws : List Word}

theorem State.acceptRaw_some {c : CopyCmd}
    (h : rawCopy (s.barId g) (s.newCopy g (.raw gid k (ws.getD 7 0#32)) .ld) ws = some c) :
    s.acceptRaw gid g k ws = s.fresh.2.setOps { s.ops with copies := Tab.set s.ops.copies s.nextId c } := by
  unfold State.acceptRaw
  simp only [h]
  rfl

theorem State.acceptRaw_none (h : rawCopy (s.barId g) (s.newCopy g (.raw gid k (ws.getD 7 0#32)) .ld) ws = none) :
    s.acceptRaw gid g k ws = s.updGroup gid fun g' => g'.popRecord k (refusedRecord (g.core % 4) (ws.getD 7 0#32)) := by
  have hengine : (s.newCopy g (.raw gid k (ws.getD 7 0#32)) .ld).engine = g.core % 4 := rfl
  unfold State.acceptRaw
  simp only [h, hengine, copyStatus_refused, refusedRecord]

/-- The collective that eight words are (R430). -/
def State.queuedColl (s : State) (gid : Nat) (g : Group) (k : Nat) (ws : List Word) : CollCmd :=
  rawColl (.raw gid k (ws.getD 7 0#32)) (s.jobOf g) g.launch (bitsOf (wnat ws 0) 28 4) (bitsOf (wnat ws 0) 26 2)
    (bitsOf (wnat ws 0) 0 26) ((ws.drop 1).take 6)

theorem rawColl_owner (owner : CopyOwner) (job launch op ty rest : Nat) (ws : List Word) :
    (rawColl owner job launch op ty rest ws).owner = owner := by
  unfold rawColl
  split <;> rfl

theorem State.enterColl_bad (s : State) (id : Nat) {c : CollCmd} {user : Word} (hbad : c.bad = true)
    (howner : c.owner = .raw gid k user) : s.enterColl id c =
      (s.setOps { s.ops with colls := Tab.del s.ops.colls id }).updGroup gid fun g => g.popRecord k (refusedRecord 0 user) := by
  rw [State.enterColl, if_pos hbad, State.collTell]
  simp only [howner, copyStatus_refused, refusedRecord]

theorem State.enterColl_good (s : State) (id : Nat) {c : CollCmd} (hgood : c.bad = false) :
    ∃ n f, s.enterColl id c =
      (s.updJob c.job f).setOps { s.ops with colls := Tab.set s.ops.colls id { c with nth := n } } :=
  ⟨_, _, if_neg (ne_true_of_eq_false hgood)⟩

end

/-! ### QW (R276, R278) -/

/-- A copy engine's place does not depend on the results that are due (R260, R278). -/
theorem Ready.copiesOf {i : Instr} {s : State} {gid : Nat} {g : Group} {cl : Clause} (h : Ready i s gid g cl) (core : Nat) :
    (s.setGroup gid g).copiesOf core = s.copiesOf core := by
  obtain ⟨g0, hg0, rfl⟩ := Option.map_eq_some_iff.1 h.group
  have hsame : ∀ {α : Type} (f : Group → α), f g0.landDue = f g0 → ∀ k,
      (Tab.get? (s.setGroup gid g0.landDue).groups k).map f = (Tab.get? s.groups k).map f := by
    intro α f hf k
    rw [State.setGroup_groups, Tab.get?_set]
    split
    · rename_i hk
      rw [hk, hg0, Option.map_some, Option.map_some, hf]
    · rfl
  have hres := hsame Group.res (by rw [Group.landDue_frame])
  have howed : ∀ id o, (s.setGroup gid g0.landDue).reportOwed id o = s.reportOwed id o := by
    intro id o
    have hreport := hsame (fun g => !g.done && g.reports.any fun r => r.src = id) (by rw [Group.landDue_frame])
    have hform : ∀ u : State, u.reportOwed id o =
        ((o.group.bind fun gid => (Tab.get? u.groups gid).map fun g => !g.done && g.reports.any fun r => r.src = id).getD
          false) := by
      intro u
      unfold State.reportOwed
      cases o.group with
      | none => rfl
      | some n => cases hn : Tab.get? u.groups n <;> simp [hn]
    rw [hform, hform]
    simp only [hreport]
  unfold State.copiesOf State.onlyOwes
  simp only [howed, Option.map_bind, Function.comp_def, hres]
  rfl

end Sys2Proof.Machine
end

