-- ==== Sys2Proof/Proofs/QueueWords.lean ====
section
/-!
PROOFS. QW, QR and QTRY (R232, R275, R276, R278, R279, R430): words collect in a pair's command and the eighth submits it, and
words of a completion queue are taken, claimed or asked for.
-/

namespace Sys2Proof.Machine

/-! ### QW (R276, R278) -/

/-- A command with one word more. -/
def Group.collects (g : Group) (k : Nat) (ws : List Word) : Group := { g with qbuf := Tab.set g.qbuf k ws }

theorem Steady.collects {g : Group} (h : Steady g) (k : Nat) (ws : List Word) : Steady (g.collects k ws) := ⟨h.step, h.lanes⟩

/-- The words of pair k's command with a scalar's value after them. -/
def Group.commandWords (g : Group) (k : Nat) (a : Reg) : List Word := Tab.getD g.qbuf k [] ++ [g.sval a 0]

/-- The state with a pair's command accepted, and the places touched where its record may have landed (R187). -/
def State.submitted (s : State) (gid : Nat) (g : Group) (k : Nat) (copy : Bool) (ws : List Word) : State :=
  (s.acceptPair gid g k copy ws).touch (s.landSegs (s.acceptPair gid g k copy ws) fun _ => false)

section
variable {s : State} {gid : Nat} {g : Group} {cl : Clause} {q : BitVec 4} {a : Reg} (hact : g.active ≠ 0#64)
include hact

theorem qwEff_short (hshort : (g.commandWords q.toNat a).length < 8) : qwEff q a (s.setGroup gid g) gid g cl =
    doneG (s.setGroup gid g) gid (g.collects q.toNat (g.commandWords q.toNat a)) .seq :=
  (if_neg (by simpa using hact)).trans (if_pos hshort)

variable (hfull : 8 ≤ (g.commandWords q.toNat a).length)
include hfull

theorem qwEff_dead (hdead : s.tagLive (s.jobOf g) g.lanes.ctag.toNat = false) :
    qwEff q a (s.setGroup gid g) gid g cl = .trap (.withDetail 0x0C 8) := by
  have hnotlive : (!(s.setGroup gid g).tagLive ((s.setGroup gid g).jobOf g) g.lanes.ctag.toNat) = true := congrArg (!·) hdead
  exact (if_neg (by simpa using hact)).trans ((if_neg (Nat.not_lt.2 hfull)).trans (if_pos hnotlive))

theorem qwEff_full {l : Launch} (hlive : s.tagLive (s.jobOf g) g.lanes.ctag.toNat = true) (hl : s.launch? g = some l)
    (hroom : (s.setGroup gid g).pairReady g q.toNat (decide (l.bindings.getD q.toNat 0 = 1)) = true)
    (hawake : s.retained = []) :
    qwEff q a (s.setGroup gid g) gid g cl =
      .done ((s.setGroup gid (g.submits q.toNat)).submitted gid g q.toNat (decide (l.bindings.getD q.toNat 0 = 1))
        (g.commandWords q.toNat a)) .seq [] := by
  have hpasses : ¬(!(s.setGroup gid g).tagLive ((s.setGroup gid g).jobOf g) g.lanes.ctag.toNat) = true := by
    rw [show (s.setGroup gid g).tagLive ((s.setGroup gid g).jobOf g) g.lanes.ctag.toNat = true from hlive]
    exact Bool.false_ne_true
  have hcopy : decide (((s.setGroup gid g).launch? g).map (fun l => l.bindings.getD q.toNat 0) = some 1) =
      decide (l.bindings.getD q.toNat 0 = 1) := by
    rw [show (s.setGroup gid g).launch? g = some l from hl]
    simp
  have hnever : ∀ (u : State) ps, u.retained = s.retained → u.asleep ps = false := by
    intro u ps hu
    simp [State.asleep, hu, hawake]
  have hlen : ¬(Tab.getD g.qbuf q.toNat [] ++ [g.sval a 0]).length < 8 := Nat.not_lt.2 hfull
  unfold qwEff
  dsimp only
  rw [if_neg (by simpa using hact), if_neg hlen, if_neg hpasses, hcopy, if_neg (by simpa using hroom)]
  refine (if_neg (ne_true_of_eq_false (hnever ((s.setGroup gid g).setGroup gid (g.submits q.toNat)) _ rfl))).trans ?_
  exact congrArg (fun u : State => Eff.done (u.submitted gid g q.toNat _ _) .seq [])
    (State.setGroup_setGroup s gid g (g.submits q.toNat))

end

/-- An accepted command leaves bytes and contexts as they were, and its group as `g'`. -/
structure PairTaken (s u : State) (gid : Nat) (g' : Group) : Prop where
  memory : SameMemory s u
  group : Tab.get? u.groups gid = some g'

section
variable {s : State} {gid : Nat} {g : Group} {k : Nat} {ws : List Word}

theorem State.acceptPair_copy {c : CopyCmd}
    (h : rawCopy (s.barId g) (s.newCopy g (.raw gid k (ws.getD 7 0#32)) .ld) ws = some c) :
    let u := (s.setGroup gid (g.submits k)).acceptPair gid g k true ws
    PairTaken s u gid (g.submits k) ∧ Tab.get? u.ops.copies s.nextId = some c := by
  have haccept : (s.setGroup gid (g.submits k)).acceptPair gid g k true ws = _ :=
    State.acceptRaw_some (s := s.setGroup gid (g.submits k)) h
  rw [haccept]
  exact ⟨⟨SameMemory.of_eq rfl rfl rfl, Tab.get?_set_same ..⟩, Tab.get?_set_same ..⟩

theorem State.acceptPair_refusedCopy
    (h : rawCopy (s.barId g) (s.newCopy g (.raw gid k (ws.getD 7 0#32)) .ld) ws = none) :
    let u := (s.setGroup gid (g.submits k)).acceptPair gid g k true ws
    PairTaken s u gid ((g.submits k).popRecord k (refusedRecord (g.core % 4) (ws.getD 7 0#32))) ∧
      u.ops.copies = s.ops.copies := by
  have haccept : (s.setGroup gid (g.submits k)).acceptPair gid g k true ws = _ :=
    State.acceptRaw_none (s := s.setGroup gid (g.submits k)) h
  rw [haccept]
  refine ⟨⟨SameMemory.of_eq rfl rfl rfl, (Tab.get?_upd ..).trans ((if_pos rfl).trans ?_)⟩, rfl⟩
  rw [State.setGroup_groups, Tab.get?_set_same, Option.map_some]

theorem State.acceptPair_refusedColl (h : (s.queuedColl gid g k ws).bad = true) :
    let u := (s.setGroup gid (g.submits k)).acceptPair gid g k false ws
    PairTaken s u gid ((g.submits k).popRecord k (refusedRecord 0 (ws.getD 7 0#32))) ∧
      Tab.get? u.ops.colls s.nextId = none := by
  have haccept : (s.setGroup gid (g.submits k)).acceptPair gid g k false ws = _ :=
    State.enterColl_bad (s.setGroup gid (g.submits k)).fresh.2 s.nextId h (rawColl_owner ..)
  rw [haccept]
  refine ⟨⟨SameMemory.of_eq rfl rfl rfl, (Tab.get?_upd ..).trans ((if_pos rfl).trans ?_)⟩, (Tab.get?_del ..).trans (if_pos rfl)⟩
  exact congrArg (Option.map _) (Tab.get?_set_same s.groups gid (g.submits k))

theorem State.acceptPair_coll (h : (s.queuedColl gid g k ws).bad = false) :
    let u := (s.setGroup gid (g.submits k)).acceptPair gid g k false ws
    PairTaken s u gid (g.submits k) ∧ ∃ n, Tab.get? u.ops.colls s.nextId = some { s.queuedColl gid g k ws with nth := n } := by
  obtain ⟨n, f, henter⟩ := State.enterColl_good (s.setGroup gid (g.submits k)).fresh.2 s.nextId h
  have haccept : (s.setGroup gid (g.submits k)).acceptPair gid g k false ws = _ := henter
  rw [haccept]
  exact ⟨⟨⟨fun _ _ => rfl, rfl, rfl, rfl⟩, Tab.get?_set_same ..⟩, n, Tab.get?_set_same ..⟩

end

/-- The eighth word of a pair's command, accepted. -/
theorem exec_qw_submits {s : State} {gid : Nat} {g g' : Group} {cl : Clause} {q : BitVec 4} {a : Reg} {copy : Bool} {ws : List Word}
    (hr : Ready (.qw q a) s gid g cl) (heff : qwEff q a (s.setGroup gid g) gid g cl =
      .done ((s.setGroup gid (g.submits q.toNat)).submitted gid g q.toNat copy ws) .seq [])
    (h : PairTaken s ((s.setGroup gid (g.submits q.toNat)).acceptPair gid g q.toNat copy ws) gid g') (hs : Steady g')
    {P : Group → Prop} (hp : P (g'.advance cl (.qw q a) .seq)) :
    Answers (exec (.qw q a) s) fun t => SameMemory s t ∧
      t.ops = ((s.setGroup gid (g.submits q.toNat)).acceptPair gid g q.toNat copy ws).ops ∧ t.GroupIs gid P := by
  refine ⟨_, issue_of_done hr heff h.group hs, h.memory.trans ?_, State.completed_ops .., State.completed_groupIs hp⟩
  exact SameMemory.of_eq (State.completed_hbm ..) (State.completed_work ..) (State.completed_kennel ..)

/-- The eighth word makes a command that the copy engine takes or refuses. -/
theorem exec_qw_copy {s : State} {gid : Nat} {g : Group} {cl : Clause} {q : BitVec 4} {a : Reg} {ws : List Word}
    (hr : Ready (.qw q a) s gid g cl) (hsteady : Steady g) (hdone : g.done = false)
    (heff : qwEff q a (s.setGroup gid g) gid g cl =
      .done ((s.setGroup gid (g.submits q.toNat)).submitted gid g q.toNat true ws) .seq []) :
    Answers (exec (.qw q a) s) fun t => SameMemory s t ∧
      (∀ c, rawCopy (s.barId g) (s.newCopy g (.raw gid q.toNat (ws.getD 7 0#32)) .ld) ws = some c →
        Tab.get? t.ops.copies s.nextId = some c ∧ t.GroupIs gid fun g' => Enters g g' q.toNat) ∧
      (rawCopy (s.barId g) (s.newCopy g (.raw gid q.toNat (ws.getD 7 0#32)) .ld) ws = none →
        t.ops.copies = s.ops.copies ∧
          t.GroupIs gid fun g' => Ends g g' q.toNat (refusedRecord (g.core % 4) (ws.getD 7 0#32))) := by
  cases hraw : rawCopy (s.barId g) (s.newCopy g (.raw gid q.toNat (ws.getD 7 0#32)) .ld) ws with
  | some c =>
    obtain ⟨htaken, hc⟩ := State.acceptPair_copy hraw
    obtain ⟨t, hexec, hmem, hops, hgroup⟩ := exec_qw_submits (P := fun g' => Enters g g' q.toNat) hr heff htaken
      (hsteady.submits _) (g.submits_enters _ cl (.qw q a))
    exact ⟨t, hexec, hmem, fun _ heq => ⟨hops ▸ Option.some.inj heq ▸ hc, hgroup⟩, nofun⟩
  | none =>
    obtain ⟨htaken, hc⟩ := State.acceptPair_refusedCopy hraw
    obtain ⟨t, hexec, hmem, hops, hgroup⟩ := exec_qw_submits (P := fun g' => Ends g g' q.toNat _) hr heff htaken
      (hsteady.pops _ _) (g.submits_ends _ cl (.qw q a) hdone _)
    exact ⟨t, hexec, hmem, fun c h => absurd h.symm (Option.some_ne_none c), fun _ => ⟨hops ▸ hc, hgroup⟩⟩

/-- The eighth word makes a command that the collective engine takes or refuses. -/
theorem exec_qw_coll {s : State} {gid : Nat} {g : Group} {cl : Clause} {q : BitVec 4} {a : Reg} {ws : List Word}
    (hr : Ready (.qw q a) s gid g cl) (hsteady : Steady g) (hdone : g.done = false)
    (heff : qwEff q a (s.setGroup gid g) gid g cl =
      .done ((s.setGroup gid (g.submits q.toNat)).submitted gid g q.toNat false ws) .seq []) :
    Answers (exec (.qw q a) s) fun t => SameMemory s t ∧
      ((s.queuedColl gid g q.toNat ws).bad = true → Tab.get? t.ops.colls s.nextId = none ∧
        t.GroupIs gid fun g' => Ends g g' q.toNat (refusedRecord 0 (ws.getD 7 0#32))) ∧
      ((s.queuedColl gid g q.toNat ws).bad = false →
        ∃ n, Tab.get? t.ops.colls s.nextId = some { s.queuedColl gid g q.toNat ws with nth := n } ∧
          t.GroupIs gid fun g' => Enters g g' q.toNat) := by
  cases hbad : (s.queuedColl gid g q.toNat ws).bad with
  | true =>
    obtain ⟨htaken, hc⟩ := State.acceptPair_refusedColl hbad
    obtain ⟨t, hexec, hmem, hops, hgroup⟩ := exec_qw_submits (P := fun g' => Ends g g' q.toNat _) hr heff htaken
      (hsteady.pops _ _) (g.submits_ends _ cl (.qw q a) hdone _)
    exact ⟨t, hexec, hmem, fun _ => ⟨hops ▸ hc, hgroup⟩, nofun⟩
  | false =>
    obtain ⟨htaken, n, hc⟩ := State.acceptPair_coll hbad
    obtain ⟨t, hexec, hmem, hops, hgroup⟩ := exec_qw_submits (P := fun g' => Enters g g' q.toNat) hr heff htaken
      (hsteady.submits _) (g.submits_enters _ cl (.qw q a))
    exact ⟨t, hexec, hmem, nofun, fun _ => ⟨n, hops ▸ hc, hgroup⟩⟩

/-! ### QR and QTRY (R276) -/

/-- A group without the first word of a completion queue. -/
def Group.takes (g : Group) (k : Nat) (ws : List Word) : Group := { g with qcmp := Tab.set g.qcmp k ws }

theorem Steady.takes {g : Group} (h : Steady g) (k : Nat) (ws : List Word) : Steady (g.takes k ws) := ⟨h.step, h.lanes⟩

/-- A group with a claim more on a completion queue, whose register is pending. -/
def Group.claims (g : Group) (k op : Nat) (d : Reg) : Group :=
  { g.setPend op (g.pregs d 1) with qclaims := Tab.set g.qclaims k (Tab.getD g.qclaims k [] ++ [op]) }

section
variable {g : Group} {k : Nat}

theorem Group.takeWord_some {w : Word} {ws : List Word} (hclaims : Tab.getD g.qclaims k [] = [])
    (hwords : Tab.getD g.qcmp k [] = w :: ws) : g.takeWord k = some (w, g.takes k ws) := by
  unfold Group.takeWord
  simp only [hclaims, hwords, List.isEmpty_nil, Bool.not_true, Bool.false_eq_true, if_false]
  rfl

theorem Group.takeWord_none (h : Tab.getD g.qclaims k [] ≠ [] ∨ Tab.getD g.qcmp k [] = []) : g.takeWord k = none := by
  unfold Group.takeWord
  split
  · rfl
  · rename_i hclaims
    have hnil : Tab.getD g.qclaims k [] = [] := by simpa using hclaims
    simp only [h.resolve_left (absurd hnil)]

end

section
variable {s : State} {gid : Nat} {g : Group} {cl : Clause} {q : BitVec 4} {d : Reg} (hact : g.active ≠ 0#64)
include hact

theorem qrEff_takes {w : Word} {ws : List Word} (h : g.takeWord q.toNat = some (w, g.takes q.toNat ws)) :
    qrEff q d (s.setGroup gid g) gid g cl =
      doneG ((s.setGroup gid g).sendVals gid (g.takes q.toNat ws) (g.dest d 0 fun _ => w)).1 gid
        ((s.setGroup gid g).sendVals gid (g.takes q.toNat ws) (g.dest d 0 fun _ => w)).2 .seq := by
  rw [qrEff, if_neg (by simpa using hact), h]
  rfl

theorem qrEff_claims (h : g.takeWord q.toNat = none) : qrEff q d (s.setGroup gid g) gid g cl =
    doneG (s.setGroup gid g).fresh.2 gid (g.claims q.toNat s.nextId d) .seq := by
  rw [qrEff, if_neg (by simpa using hact), h]
  rfl

/-- A predicate's write in each lane of Exec. -/
def Group.truths (g : Group) (pd : BitVec 4) (w : Word) : List (Target × Word) :=
  (maskList g.exec).map fun k => (.p pd.toNat k, w)

variable {pd : BitVec 4}

theorem qtryEff_takes {w : Word} {ws : List Word} (h : g.takeWord q.toNat = some (w, g.takes q.toNat ws)) :
    qtryEff pd q d (s.setGroup gid g) gid g cl =
      doneG ((s.setGroup gid g).sendVals gid (g.takes q.toNat ws) ((g.dest d 0 fun _ => w) ++ g.truths pd 1#32)).1 gid
        ((s.setGroup gid g).sendVals gid (g.takes q.toNat ws) ((g.dest d 0 fun _ => w) ++ g.truths pd 1#32)).2 .seq := by
  rw [qtryEff, if_neg (by simpa using hact), h]
  rfl

theorem qtryEff_fails (h : g.takeWord q.toNat = none) : qtryEff pd q d (s.setGroup gid g) gid g cl =
    doneG ((s.setGroup gid g).sendVals gid g ((g.dest d 0 fun _ => 0#32) ++ g.truths pd 0#32)).1 gid
      ((s.setGroup gid g).sendVals gid g ((g.dest d 0 fun _ => 0#32) ++ g.truths pd 0#32)).2 .seq := by
  rw [qtryEff, if_neg (by simpa using hact), h]
  rfl

end

/-- What SentFrom tells of the group's completion queues. -/
theorem SentFrom.queues {s t : State} {gid : Nat} {g : Group} {ws : List (Target × Word)} (h : SentFrom s t gid g ws) :
    SameMemory s t ∧ t.GroupIs gid fun g' => g'.qcmp = g.qcmp ∧ Sends t gid s.nextId g' ws := by
  refine ⟨h.sameMemory, h.sends.imp ?_⟩
  rintro _ ⟨hsends, op, cl, i, rfl⟩
  refine ⟨?_, hsends⟩
  rw [Group.advance_frame]
  rfl

/-- A word taken from a queue leaves those after it. -/
theorem SentFrom.takes {s t : State} {gid k : Nat} {g : Group} {ws : List Word} {xs : List (Target × Word)}
    (h : SentFrom s t gid (g.takes k ws) xs) :
    SameMemory s t ∧ t.GroupIs gid fun g' => Tab.getD g'.qcmp k [] = ws ∧ Sends t gid s.nextId g' xs := by
  obtain ⟨hmem, hgroup⟩ := h.queues
  exact ⟨hmem, hgroup.imp fun g' h => ⟨h.1 ▸ (Tab.getD_set ..).trans (if_pos rfl), h.2⟩⟩

/-- Without a word of its own QR claims the next of its queue, its registers being pending. -/
theorem exec_qr_claims {s : State} {gid : Nat} {g : Group} {cl : Clause} {q : BitVec 4} {d : Reg}
    (hr : Ready (.qr q d) s gid g cl) (hsteady : Steady g) (hact : g.active ≠ 0#64) (hnone : g.takeWord q.toNat = none) :
    Answers (exec (.qr q d) s) fun t => SameMemory s t ∧ t.GroupIs gid fun g' =>
      Tab.getD g'.qclaims q.toNat [] = Tab.getD g.qclaims q.toNat [] ++ [s.nextId] ∧
        ∀ r ∈ g.pregs d 1, g'.isPend r = true := by
  refine ⟨_, issue_of_done hr (qrEff_claims hact hnone) (Tab.get?_set_same ..) ⟨hsteady.step, hsteady.lanes⟩,
    SameMemory.of_eq (State.completed_hbm ..) (State.completed_work ..) (State.completed_kennel ..),
    State.completed_groupIs ⟨?_, fun r h => ?_⟩⟩
  · rw [Group.advance_frame]
    exact (Tab.getD_set ..).trans (if_pos rfl)
  · rw [Group.advance_frame]
    refine List.any_eq_true.2 ⟨⟨r, s.nextId, false, g.inHandler⟩,
      List.mem_append_right _ (List.mem_map.2 ⟨r, h, rfl⟩), ?_⟩
    simp

end Sys2Proof.Machine

namespace Sys2Proof

open Machine

/-- Settles O46: QW by the number of its pair's words and what the engine makes of eight, QR and QTRY by whether their queue
has a word that no earlier QR claims. -/
theorem queueRegisters : Obligations.QueueRegisters := by
  intro s gid g cl q hsteady hact k words truths
  refine ⟨fun a hr hshort => ?_, fun a hr hfull hdead => ?_, ?_, fun d w ws hr hclaims hwords => ?_, fun d hr hnone => ?_,
    fun pd d w ws hr hclaims hwords => ?_, fun pd d hr hnone => ?_⟩
  · exact issue_of_doneG hr (hsteady.collects ..) (qwEff_short hact hshort)
  · exact issue_of_trap hr (qwEff_dead hact hfull hdead)
  · intro a l hr hdone hfull hawake hlive hl hroom user w raw coll ends enters
    have hpair : (s.setGroup gid g).pairReady g k (decide (l.bindings.getD k 0 = 1)) = true := by
      rw [State.pairReady, hr.copiesOf]
      exact hroom
    have heff := qwEff_full (cl := cl) hact hfull hlive hl hpair hawake
    by_cases hcopy : l.bindings.getD k 0 = 1
    · rw [decide_eq_true hcopy] at heff
      obtain ⟨t, hexec, hmem, htaken, hrefused⟩ := exec_qw_copy hr hsteady hdone heff
      refine ⟨t, hexec, hmem, fun _ => ?_, fun h => absurd hcopy h⟩
      have hraw : rawCopy (s.barId g) (s.newCopy g (.raw gid k ((words a).getD 7 0#32)) .ld) (words a) = raw := rfl
      clear_value raw
      cases raw with
      | some c => exact (htaken c hraw).imp_right fun h => h.imp fun _ h => ⟨h.words, h.outstanding⟩
      | none => exact (hrefused hraw).imp_right fun h => h.imp fun _ h => ⟨h.words, h.outstanding, h.record⟩
    · rw [decide_eq_false hcopy] at heff
      obtain ⟨t, hexec, hmem, hrefused, htaken⟩ := exec_qw_coll hr hsteady hdone heff
      refine ⟨t, hexec, hmem, fun h => absurd h hcopy, fun _ => ?_⟩
      have hcoll : s.queuedColl gid g k (words a) = coll := by
        simp only [State.queuedColl, bitsOf_eq, Nat.pow_zero, Nat.div_one]
        rfl
      rw [← hcoll]
      by_cases hbad : (s.queuedColl gid g k (words a)).bad = true
      · rw [if_pos hbad]
        exact (hrefused hbad).imp_right fun h => h.imp fun _ h => ⟨h.words, h.outstanding, h.record⟩
      · rw [if_neg hbad]
        obtain ⟨n, hc, hgroup⟩ := htaken (Bool.eq_false_iff.2 hbad)
        exact ⟨n, hc, hgroup.imp fun _ h => ⟨h.words, h.outstanding⟩⟩
  · have htake := Group.takeWord_some hclaims hwords
    exact (issue_of_sends hr (hsteady.takes ..) (Group.dest_ne_nil hact _ _ _) (qrEff_takes hact htake)).imp fun _ => SentFrom.takes
  · exact exec_qr_claims hr hsteady hact (Group.takeWord_none hnone)
  · have htake := Group.takeWord_some hclaims hwords
    have hne : (g.dest d 0 fun _ => w) ++ g.truths pd 1#32 ≠ [] :=
      List.append_ne_nil_of_left_ne_nil (Group.dest_ne_nil hact _ _ _) _
    exact (issue_of_sends hr (hsteady.takes ..) hne (qtryEff_takes hact htake)).imp fun _ => SentFrom.takes
  · have hne : (g.dest d 0 fun _ => 0#32) ++ g.truths pd 0#32 ≠ [] :=
      List.append_ne_nil_of_left_ne_nil (Group.dest_ne_nil hact _ _ _) _
    exact (issue_of_sends hr hsteady hne (qtryEff_fails hact (Group.takeWord_none hnone))).imp fun t ht => ht.queues

end Sys2Proof
end

