-- ==== Sys2Proof/Proofs/TensorBytes.lean ====
section
/-!
PROOFS. The bytes of an image line (R265 to R268): the table a line's bytes are put in, the places of an image, and the
elements of a line that a copy moves.
-/

namespace Sys2Proof.Machine

/-! ### Tables of bytes -/

theorem Tab.sorted_foldl_set {α β : Type} (l : List β) (key : β → Nat) (f : β → α) {t : Tab α} (h : Tab.sorted t = true) :
    Tab.sorted (l.foldl (fun t y => Tab.set t (key y) (f y)) t) = true := by
  induction l generalizing t with
  | nil => exact h
  | cons y l ih => exact ih (Tab.sorted_set _ _ h)

theorem Tab.nodup_of_sorted {α : Type} {t : Tab α} (h : Tab.sorted t = true) : (t.map Prod.fst).Nodup := by
  induction t with
  | nil => exact List.nodup_nil
  | cons e t ih =>
    obtain ⟨habove, hrest⟩ := (Tab.sorted_cons e.1 e.2 t).1 h
    refine List.nodup_cons.2 ⟨fun hmem => ?_, ih hrest⟩
    obtain ⟨f, hf, hfst⟩ := List.mem_map.1 hmem
    have := habove f hf
    omega

theorem Tab.get?_foldl_set_other {α β : Type} (l : List β) (key : β → Nat) (f : β → α) (t : Tab α) {k : Nat}
    (h : ∀ y ∈ l, key y ≠ k) : Tab.get? (l.foldl (fun t y => Tab.set t (key y) (f y)) t) k = Tab.get? t k := by
  induction l generalizing t with
  | nil => rfl
  | cons y l ih =>
    have hne : k ≠ key y := (h y List.mem_cons_self).symm
    exact (ih _ fun z hz => h z (List.mem_cons_of_mem _ hz)).trans (Tab.get?_set_ne t _ hne)

/-- Bytes written one by one from a table read as it has them, every other byte as before. -/
theorem memRead_writes (d : Byte) (m bytes : Tab Byte) (hn : (bytes.map Prod.fst).Nodup) (x : Nat) :
    memRead d (bytes.foldl (fun m e => memWrite d m e.1 e.2) m) x = (Tab.get? bytes x).getD (memRead d m x) := by
  induction bytes generalizing m with
  | nil => rfl
  | cons e bytes ih =>
    rw [List.map_cons, List.nodup_cons] at hn
    rw [List.foldl_cons, ih _ hn.2, memRead_memWrite, Tab.get?_cons]
    by_cases hx : e.1 = x
    · subst hx
      have hnone : Tab.get? bytes e.1 = none := by
        by_contra hsome
        obtain ⟨y, hy⟩ := Option.ne_none_iff_exists'.1 hsome
        exact hn.1 (List.mem_map.2 ⟨_, Tab.get?_mem hy, rfl⟩)
      simp [hnone]
    · rw [if_neg hx, if_neg (Ne.symm hx)]

/-- A byte of an allotment after a table of bytes is put to it. -/
theorem State.scrByte_scrPut {s : State} {loc : ScrLoc} (h : s.AllotExists loc) {bytes : Tab Byte}
    (hsorted : Tab.sorted bytes = true) (a : Nat) :
    (s.scrPut loc bytes).scrByte loc a = (Tab.get? bytes a).getD (s.scrByte loc a) := by
  rw [State.scrByte, State.scrBytes_scrPut h, memRead_writes _ _ _ (Tab.nodup_of_sorted hsorted)]
  rfl

/-! ### Swizzled places (R193) -/

/-- Bits from `hi` on stand when others below them change. -/
theorem bitsOf_xor_low {lo hi w : Nat} (h : lo + w ≤ hi) (o n : Nat) :
    bitsOf (o ^^^ bitsOf n hi w * 2 ^ lo) hi w = bitsOf o hi w := by
  have hlow : bitsOf n hi w * 2 ^ lo < 2 ^ hi := by
    calc bitsOf n hi w * 2 ^ lo < 2 ^ w * 2 ^ lo := Nat.mul_lt_mul_of_pos_right (bitsOf_lt n hi w) (Nat.two_pow_pos lo)
      _ = 2 ^ (lo + w) := by rw [← Nat.pow_add, Nat.add_comm]
      _ ≤ 2 ^ hi := Nat.pow_le_pow_right (by decide) h
  rw [bitsOf, Nat.shiftRight_xor_distrib, Nat.shiftRight_eq_div_pow (_ * _), Nat.div_eq_of_lt hlow, Nat.xor_zero, bitsOf]

/-- A change of low bits by higher ones undoes itself. -/
theorem xor_low_injective {lo hi w : Nat} (h : lo + w ≤ hi) {o p : Nat}
    (heq : o ^^^ bitsOf o hi w * 2 ^ lo = p ^^^ bitsOf p hi w * 2 ^ lo) : o = p := by
  have hbits : bitsOf o hi w = bitsOf p hi w := by rw [← bitsOf_xor_low h o o, heq, bitsOf_xor_low h]
  rw [hbits] at heq
  exact Nat.xor_left_inj.1 heq

theorem swizzle_injective (code : Nat) {o p : Nat} (h : swizzle code o = swizzle code p) : o = p := by
  unfold swizzle at h
  split at h
  · exact xor_low_injective (lo := 4) (hi := 7) (w := 2) (by decide) h
  · exact xor_low_injective (lo := 4) (hi := 7) (w := 3) (by decide) h
  · exact xor_low_injective (lo := 4) (hi := 8) (w := 4) (by decide) h
  · exact h

/-- The bytes of an image line stand at places of their own. -/
theorem imageAt_injective (c : CopyCmd) (line : Nat) {a b : Nat} (h : imageAt c line a = imageAt c line b) : a = b :=
  Nat.add_left_cancel (swizzle_injective c.sswz h)

/-! ### The elements a line moves to the tensor (R266, R268) -/

/-- The bytes of a command's next image line. -/
def CopyCmd.places (c : CopyCmd) : List LineByte := lineMap c.kind (Desc.read c.desc) c.coords c.next

/-- Those bytes, each with its number in the line. -/
def CopyCmd.numbered (c : CopyCmd) : List (Nat × LineByte) :=
  (List.range 64).map fun b => (b, c.places[b]?.getD ⟨true, .outside, 0, 0⟩)

/-- The bytes that go to the tensor: those of elements inside, then those of padding channels. -/
def CopyCmd.emptied (c : CopyCmd) : List (Nat × LineByte) :=
  (c.numbered.filter fun e => !e.2.pad && e.2.cls = .inside) ++ c.numbered.filter fun e => !e.2.pad && e.2.cls = .padding

/-- The byte that goes to the tensor from number `n` of the line: of the image inside, of the fill element in a padding
channel. -/
def State.emptyByte (s : State) (c : CopyCmd) (loc : ScrLoc) (n : Nat) : Byte :=
  match c.places[n]? with
  | some b => if b.cls = .inside then s.scrByte loc (imageAt c c.next n) else (Desc.read c.desc).fillBytes.getD b.q 0#8
  | none => 0#8

/-- The bytes that a line brings to the tensor, by place. -/
def State.emptyBytes (s : State) (c : CopyCmd) (loc : ScrLoc) : Tab Byte :=
  c.emptied.foldl (fun t e => Tab.set t e.2.place (s.emptyByte c loc e.1)) []

/-- Whether the byte of number `n` goes to a place, the places of the tensor standing as `at_` says. -/
def CopyCmd.goes (c : CopyCmd) (at_ : Nat → Nat) (a n : Nat) : Bool :=
  match c.places[n]? with
  | some b => (c.places.filter fun b => !b.pad && (b.cls = .inside || (b.cls = .padding && c.kind = .pack))).contains b &&
      at_ b.place == a
  | none => false

/-- The number in the line of the byte that goes to a place. -/
def CopyCmd.source (c : CopyCmd) (at_ : Nat → Nat) (a : Nat) : Option Nat := (List.range 64).find? (c.goes at_ a)

theorem CopyCmd.length_places (c : CopyCmd) : c.places.length = 64 := by simp [CopyCmd.places, lineMap]

theorem CopyCmd.numbered_snd (c : CopyCmd) : c.numbered.map Prod.snd = c.places := by
  refine List.ext_getElem? fun n => ?_
  by_cases hn : n < 64
  · simp [CopyCmd.numbered, hn, c.length_places]
  · simp [CopyCmd.numbered, hn, c.length_places]

theorem CopyCmd.emptied_places (c : CopyCmd) : c.emptied.map (fun e => e.2.place) =
    ((c.places.filter fun b => !b.pad && b.cls = .inside) ++
      c.places.filter fun b => !b.pad && b.cls = .padding).map LineByte.place := by
  rw [← c.numbered_snd]
  simp only [CopyCmd.emptied, List.filter_map, List.map_append, List.map_map]
  rfl

theorem CopyCmd.mem_emptied {c : CopyCmd} {n : Nat} {b : LineByte} :
    (n, b) ∈ c.emptied ↔ c.places[n]? = some b ∧ b.pad = false ∧ (b.cls = .inside ∨ b.cls = .padding) := by
  have hnum : (n, b) ∈ c.numbered ∧ b.pad = false ↔ c.places[n]? = some b ∧ b.pad = false := by
    refine and_congr_left fun hpad => ⟨fun h => ?_, fun h => ?_⟩
    · obtain ⟨k, hk, heq⟩ := List.mem_map.1 h
      obtain ⟨rfl, rfl⟩ := Prod.mk.inj heq
      have hk' : k < c.places.length := by simpa [c.length_places] using hk
      simp [hk']
    · obtain ⟨hn, -⟩ := List.getElem?_eq_some_iff.1 h
      exact List.mem_map.2 ⟨n, by simpa [c.length_places] using hn, by rw [h]; rfl⟩
  have hsplit : (n, b) ∈ c.emptied ↔ ((n, b) ∈ c.numbered ∧ b.pad = false) ∧ (b.cls = .inside ∨ b.cls = .padding) := by
    simp only [CopyCmd.emptied, List.mem_append, List.mem_filter, Bool.and_eq_true, Bool.not_eq_true', decide_eq_true_eq]
    tauto
  rw [hsplit, hnum, and_assoc]

/-- Only the channel-interleaved kinds have padding channels. -/
theorem interleaves_of_padding {k : CopyKind} {d : Desc} {co : List Int} {line : Nat} {b : LineByte}
    (hb : b ∈ lineMap k d co line) (hpad : b.cls = .padding) : k.interleaves = true := by
  obtain ⟨n, -, rfl⟩ := List.mem_map.1 hb
  dsimp only at hpad
  split at hpad
  · cases hpad
  · unfold elemClass at hpad
    dsimp only at hpad
    split at hpad
    · cases hpad
    · split at hpad
      · rename_i hcond
        simp only [Bool.and_eq_true] at hcond
        exact hcond.1.1.1
      · cases hpad

section
variable {c : CopyCmd} (hfills : c.kind.fills = false) (hmove : c.kind ≠ .move)
include hfills hmove

theorem CopyCmd.contains_moved {n : Nat} {b : LineByte} (hb : c.places[n]? = some b) :
    (c.places.filter fun b => !b.pad && (b.cls = .inside || (b.cls = .padding && c.kind = .pack))).contains b = true ↔
      b.pad = false ∧ (b.cls = .inside ∨ b.cls = .padding) := by
  have hmem : b ∈ c.places := List.mem_of_getElem? hb
  have hpack : b.cls = .padding → c.kind = .pack := fun h => by
    have hk := interleaves_of_padding hmem h
    revert hk hfills hmove
    cases c.kind <;> decide
  simp only [List.contains_iff_mem, List.mem_filter, hmem, true_and, Bool.and_eq_true, Bool.not_eq_true', Bool.or_eq_true,
    decide_eq_true_eq]
  tauto

theorem CopyCmd.goes_iff (at_ : Nat → Nat) (a n : Nat) :
    c.goes at_ a n = true ↔ ∃ b, (n, b) ∈ c.emptied ∧ at_ b.place = a := by
  unfold CopyCmd.goes
  cases hb : c.places[n]? with
  | none => simp [CopyCmd.mem_emptied, hb]
  | some b =>
    rw [Bool.and_eq_true, CopyCmd.contains_moved hfills hmove hb]
    simp [CopyCmd.mem_emptied, hb]

/-- The table of the bytes that go to the tensor has each at its place. -/
theorem State.get?_emptyBytes (s : State) (loc : ScrLoc) (hnodup : (c.emptied.map fun e => e.2.place).Nodup) (p : Nat) :
    Tab.get? (s.emptyBytes c loc) p = (c.source (fun x => x) p).map (s.emptyByte c loc) := by
  cases hs : c.source (fun x => x) p with
  | none =>
    refine Tab.get?_foldl_set_other _ _ _ _ fun e he hplace => ?_
    obtain ⟨hn, -⟩ := List.getElem?_eq_some_iff.1 (CopyCmd.mem_emptied.1 he).1
    refine List.find?_eq_none.1 hs e.1 (by simpa [c.length_places] using hn) ?_
    exact (CopyCmd.goes_iff hfills hmove _ _ _).2 ⟨e.2, he, hplace⟩
  | some n =>
    obtain ⟨b, hb, rfl⟩ := (CopyCmd.goes_iff hfills hmove (fun x => x) p n).1 (List.find?_some hs)
    exact Tab.get?_foldl_set c.emptied (fun e => e.2.place) (fun e => s.emptyByte c loc e.1)
      (fun x hx y hy h => by rw [List.inj_on_of_nodup_map hnodup hx hy h]) [] (n, b) hb

end

end Sys2Proof.Machine
end

