-- ==== Sys2Proof/Proofs/TensorLines.lean ====
section
/-!
PROOFS. A line of a tensor copy (R222, R232, R265 to R270): its lines of memory, what COPY_LINE leaves once the line is done,
and what its bytes leave in memory, in a context's cells and in a scratchpad.
-/

namespace Sys2Proof.Machine

/-! ### Its lines of memory (R212, R400) -/

theorem State.linesOk_lines {s : State} {die job obj right : Nat} {ls : List Nat} {ps : List (Nat × Nat)}
    (h : (s.linesOk die job obj right ls).1 = some ps) : ps.map Prod.fst = ls := by
  induction ls generalizing s ps with
  | nil =>
    obtain rfl := Option.some.inj h
    rfl
  | cons l ls ih =>
    dsimp only [State.linesOk] at h
    split at h
    · rename_i hrest
      obtain rfl := Option.some.inj h
      rw [List.map_cons, ih hrest]
    · cases h

theorem State.tensorLines_lines {s s' : State} {c : CopyCmd} {d : Desc} {right : Nat} {offs : List Nat}
    {ps : List (Nat × Nat)} (hspace : d.space = 0) (h : s.tensorLines c d right offs = (some ps, s')) :
    ps.map Prod.fst = dedup (offs.map lineOf) := by
  rw [State.tensorLines, if_pos hspace] at h
  exact State.linesOk_lines (congrArg Prod.fst h)

theorem State.tensorLines_frame {s s' : State} {c : CopyCmd} {d : Desc} {right : Nat} {offs : List Nat}
    {r : Option (List (Nat × Nat))} (h : s.tensorLines c d right offs = (r, s')) : s' = s.withDies s'.dies := by
  unfold State.tensorLines at h
  split at h
  · obtain rfl := congrArg Prod.snd h
    exact State.linesOk_frame ..
  · obtain rfl := congrArg Prod.snd h
    rfl

/-- What granting lines changes is budgets and queues. -/
theorem State.grantLines_frame (s : State) (core id n : Nat) (ls : List (Nat × Nat)) :
    (s.grantLines core id n ls).2 = s.metered (s.grantLines core id n ls).2.clusters := by
  induction ls generalizing s n with
  | nil => rfl
  | cons e es ih =>
    unfold State.grantLines
    split
    · exact ih ..
    · have hcharge := State.charge_frame s core e.2 id e.1
      split <;> rename_i hc <;> rw [hc] at hcharge <;> dsimp only at hcharge ⊢
      · exact hcharge
      · rw [ih, hcharge]
        rfl

/-- Once a line's lines are translated and granted, only caches, budgets and queues have changed. -/
theorem State.tensorLines_granted {s s' : State} {c : CopyCmd} {d : Desc} {right : Nat} {offs : List Nat}
    {r : Option (List (Nat × Nat))} (h : s.tensorLines c d right offs = (r, s')) {core id n : Nat} {ls : List (Nat × Nat)}
    (hgrant : (s'.grantLines core id n ls).1 = ls.length) :
    ∃ ds cs, s'.grantLines core id n ls = (ls.length, (s.withDies ds).metered cs) :=
  ⟨_, _, Prod.ext hgrant ((s'.grantLines_frame core id n ls).trans
    (congrArg (State.metered · (s'.grantLines core id n ls).2.clusters) (State.tensorLines_frame h)))⟩

/-! ### The command's line is done -/

/-- A command's next line is due at its home, and nothing is uncorrectable. -/
structure LineDue (s : State) (id : Nat) (c : CopyCmd) : Prop where
  copy : Tab.get? s.ops.copies id = some c
  started : c.started = true
  clean : c.code = none
  due : c.next < c.total
  ordered : s.ownerOrdered id c.owner = true
  awake : s.asleep (s.copySegs c) = false
  tensor : c.kind ≠ .move

/-- State `t` has what the bytes of a line left in `u`, the command standing at the next line. -/
structure LineMade (id : Nat) (c : CopyCmd) (u t : State) : Prop where
  hbm : t.hbm = u.hbm
  work : t.work = u.work
  cells : t.kennel.cells = u.kennel.cells
  next : (Tab.get? t.ops.copies id).map CopyCmd.next = some (c.next + 1)

/-- Reports change the groups alone. -/
theorem State.copyReports_frame (s : State) (id : Nat) (c : CopyCmd) (obj : Nat) (offs : List Nat) :
    s.copyReports id c obj offs = { s with groups := (s.copyReports id c obj offs).groups } := by
  have hfold : ∀ (l : List Nat) (step : State → Nat → State) (u : State),
      (∀ v x, step v x = { v with groups := (step v x).groups }) →
      l.foldl step u = { u with groups := (l.foldl step u).groups } := by
    intro l step u hstep
    induction l generalizing u with
    | nil => rfl
    | cons x l ih => rw [List.foldl_cons, ih, hstep u x]
  unfold State.copyReports
  split
  · rfl
  · split
    · rfl
    · exact hfold _ _ _ fun _ _ => rfl

theorem LineDue.answers {s u : State} {id obj : Nat} {c : CopyCmd} {offs : List Nat} (h : LineDue s id c)
    (hend : (if c.kind.fills then (s.touch (s.copySegs c)).fillLine id c (Desc.read c.desc)
      else (s.touch (s.copySegs c)).emptyLine id c (Desc.read c.desc)) = (.done obj offs, u)) :
    ∃ t, exec (.copyLine id) s = .next t ∧ LineMade id c u t := by
  obtain ⟨hc, hs, hcode, hnext, hord, hawake, hmove⟩ := h
  have hdue : ¬ c.total ≤ c.next := by omega
  refine ⟨_, rfl, ?_⟩
  simp only [State.copyLine, hc, hs, hcode, hdue, hord, hawake, hmove, hend, Bool.not_true, Bool.false_or,
    Option.isSome_none, decide_false, Bool.false_eq_true, if_false]
  rw [State.copyReports_frame]
  exact ⟨rfl, rfl, rfl, by simp [State.setOps, State.setKennel]⟩

/-- An allotment's bytes are the work's. -/
theorem State.scrByte_of_work {s t : State} (h : t.work = s.work) (loc : ScrLoc) (a : Nat) :
    t.scrByte loc a = s.scrByte loc a := by
  unfold State.scrByte State.scrBytes
  rw [h]

/-! ### A line into the image (R265 to R270) -/

theorem State.tensorBad_clean {s : State} (hbad : s.bad = []) (c : CopyCmd) (d : Desc) (ps : List (Nat × Nat)) (o : Nat) :
    s.tensorBad c d ps o = false := by
  unfold State.tensorBad State.byteBad State.scrBad
  rw [hbad]
  split
  · split <;> rfl
  · cases c.loc (spaceLevel d.space) <;> rfl

/-- The byte that a line of the image has under a number. -/
def State.fillByte (s : State) (c : CopyCmd) (ps : List (Nat × Nat)) (n : Nat) : Byte :=
  (c.places[n]?.map fun b =>
    if b.pad then 0#8
    else if b.cls = .inside then s.tensorByte c (Desc.read c.desc) ps b.place
    else (Desc.read c.desc).fillBytes.getD b.q 0#8).getD 0#8

theorem State.fillLine_clean {s s' u : State} {c : CopyCmd} {loc : ScrLoc} {ps : List (Nat × Nat)} {id : Nat}
    (hbad : s.bad = []) (hloc : c.loc c.level = some loc)
    (hlines : s.tensorLines c (Desc.read c.desc) rRead
      ((c.places.filter fun b => !b.pad && b.cls = .inside).map LineByte.place) = (some ps, s'))
    (hgranted : s'.grantLines c.core id c.paid ps = (ps.length, u)) :
    s.fillLine id c (Desc.read c.desc) = (.done 0 [], u.scrPut loc
      ((List.range 64).foldl (fun t n => Tab.set t (imageAt c c.next n) (u.fillByte c ps n)) [])) := by
  have hbad' : s'.bad = [] := (congrArg State.bad (State.tensorLines_frame hlines)).trans hbad
  have hgood : ∀ l : List Nat, (l.any fun o => s'.tensorBad c (Desc.read c.desc) ps o) = false := fun l =>
    List.any_eq_false.2 fun o _ => by simp [State.tensorBad_clean hbad']
  unfold CopyCmd.places at hlines
  simp only [State.fillLine, hlines, hgood, hgranted, Nat.lt_irrefl, hloc, Bool.false_eq_true, if_false]
  rfl

/-- A byte of the tensor is read from memory, cells and allotments alone. -/
theorem State.tensorByte_congr {s t : State} (hhbm : t.hbm = s.hbm) (hkennel : t.kennel = s.kennel) (hwork : t.work = s.work)
    (hbad : s.bad = []) (hbad' : t.bad = []) (c : CopyCmd) (d : Desc) (ps : List (Nat × Nat)) (o : Nat) :
    t.tensorByte c d ps o = s.tensorByte c d ps o := by
  unfold State.tensorByte
  split
  · rw [State.ctxByte_eq_resolved hbad', State.ctxByte_eq_resolved hbad]
    unfold State.resolved State.chain
    rw [hhbm, hkennel]
  · cases c.loc (spaceLevel d.space) with
    | none => rfl
    | some loc => simp [State.scrByte_of_work hwork]

/-- The bytes of an image line after they are put. -/
theorem State.scrByte_filled {u : State} {c : CopyCmd} {loc : ScrLoc} (hexists : u.AllotExists loc) (ps : List (Nat × Nat))
    {n : Nat} (hn : n < 64) :
    (u.scrPut loc ((List.range 64).foldl (fun t n => Tab.set t (imageAt c c.next n) (u.fillByte c ps n)) [])).scrByte loc
      (imageAt c c.next n) = u.fillByte c ps n := by
  rw [State.scrByte_scrPut hexists (Tab.sorted_foldl_set _ _ _ rfl)]
  rw [Tab.get?_foldl_set (List.range 64) (imageAt c c.next) (u.fillByte c ps)
    (fun x _ y _ h => by rw [imageAt_injective c c.next h]) [] n (List.mem_range.2 hn), Option.getD_some]

/-! ### A line out of the image (R266 to R270) -/

theorem State.sorted_emptyBytes (s : State) (c : CopyCmd) (loc : ScrLoc) : Tab.sorted (s.emptyBytes c loc) = true :=
  Tab.sorted_foldl_set _ _ _ rfl

theorem State.emptyByte_of_work {s t : State} (h : t.work = s.work) (c : CopyCmd) (loc : ScrLoc) :
    t.emptyByte c loc = s.emptyByte c loc := by
  funext n
  simp only [State.emptyByte, State.scrByte_of_work h]

theorem State.emptyBytes_of_work {s t : State} (h : t.work = s.work) (c : CopyCmd) (loc : ScrLoc) :
    t.emptyBytes c loc = s.emptyBytes c loc := by
  rw [State.emptyBytes, State.emptyByte_of_work h, State.emptyBytes]

/-- Bytes of elements inside and bytes of padding channels are together the line's. -/
theorem State.emptyBytes_eq (s : State) (c : CopyCmd) (loc : ScrLoc) :
    (((c.numbered.filter fun e => !e.2.pad && e.2.cls = .inside).map fun e =>
        (e.2.place, s.scrByte loc (imageAt c c.next e.1))) ++
      (c.numbered.filter fun e => !e.2.pad && e.2.cls = .padding).map fun e =>
        (e.2.place, (Desc.read c.desc).fillBytes.getD e.2.q 0#8)).foldl (fun t e => Tab.set t e.1 e.2) [] =
      s.emptyBytes c loc := by
  have hmap : c.emptied.map (fun e => (e.2.place, s.emptyByte c loc e.1)) =
      ((c.numbered.filter fun e => !e.2.pad && e.2.cls = .inside).map fun e =>
        (e.2.place, s.scrByte loc (imageAt c c.next e.1))) ++
      (c.numbered.filter fun e => !e.2.pad && e.2.cls = .padding).map fun e =>
        (e.2.place, (Desc.read c.desc).fillBytes.getD e.2.q 0#8) := by
    rw [CopyCmd.emptied, List.map_append]
    refine congrArg₂ _ (List.map_congr_left fun e he => ?_) (List.map_congr_left fun e he => ?_)
    · obtain ⟨hb, -⟩ := CopyCmd.mem_emptied.1 (List.mem_append_left _ he)
      have hcls : e.2.cls = .inside := by simpa using (Bool.and_eq_true_iff.1 (List.mem_filter.1 he).2).2
      simp [State.emptyByte, hb, hcls]
    · obtain ⟨hb, -⟩ := CopyCmd.mem_emptied.1 (List.mem_append_right _ he)
      have hcls : e.2.cls = .padding := by simpa using (Bool.and_eq_true_iff.1 (List.mem_filter.1 he).2).2
      simp [State.emptyByte, hb, hcls]
  rw [← hmap, List.foldl_map, State.emptyBytes]

/-- Without errors, and with its lines of memory granted, a line is the put of its bytes. -/
theorem State.emptyLine_clean {s s' u : State} {c : CopyCmd} {loc : ScrLoc} {ps : List (Nat × Nat)} {id : Nat}
    (hbad : s.bad = []) (hloc : c.loc c.level = some loc)
    (hlines : s.tensorLines c (Desc.read c.desc) rWrite (c.emptied.map fun e => e.2.place) = (some ps, s'))
    (hgranted : s'.grantLines c.core id c.paid ps = (ps.length, u)) :
    s.emptyLine id c (Desc.read c.desc) =
      if (Desc.read c.desc).space = 0 then
        match u.putLines c (Desc.read c.desc) (u.emptyBytes c loc) ps with
        | some t => (.done (Desc.read c.desc).obj (c.emptied.map fun e => e.2.place), t)
        | none => (.cells (Desc.read c.desc).obj (ps.map fun e => e.1 / 64) ps.length, u)
      else match c.loc (spaceLevel (Desc.read c.desc).space) with
        | some t => (.done 0 [], u.scrPut t (u.emptyBytes c loc))
        | none => (.fault 0x8, u) := by
  have hgood : ∀ l : List (Nat × LineByte), (l.any fun e => s.scrBad loc (imageAt c c.next e.1)) = false := fun l =>
    List.any_eq_false.2 fun e _ => by simp [State.scrBad, hbad]
  simp only [← State.emptyBytes_eq]
  unfold CopyCmd.emptied CopyCmd.numbered CopyCmd.places at *
  simp only [State.emptyLine, hloc, hgood, hlines, hgranted, Nat.lt_irrefl, Bool.false_eq_true, if_false] <;> rfl

end Sys2Proof.Machine
end

