-- ==== Sys2Proof/Proofs/TensorStores.lean ====
section
/-!
PROOFS. What the bytes of a line leave at their homes, line by line of memory (R222, R225, R232): in root memory, in the
cells of a live context, and nothing in a dead one.
-/

namespace Sys2Proof.Machine

/-! ### The bytes of one line of memory -/

/-- Of a table of bytes those of a line, by place in it. -/
def bytesOfLine (bytes : Tab Byte) (line : Nat) : Tab Byte :=
  (bytes.filter fun e => lineOf e.1 = line).map fun e => (e.1 % 64, e.2)

theorem lineOf_eq_iff {line a : Nat} (hline : line % 64 = 0) : lineOf a = line ↔ line ≤ a ∧ a < line + 64 := by
  unfold lineOf
  omega

theorem get?_bytesOfLine (bytes : Tab Byte) {line : Nat} (hline : line % 64 = 0) (k : Nat) :
    Tab.get? (bytesOfLine bytes line) k = if k < 64 then Tab.get? bytes (line + k) else none := by
  induction bytes with
  | nil => simp [bytesOfLine]
  | cons e bytes ih =>
    by_cases he : lineOf e.1 = line
    · have hcons : bytesOfLine (e :: bytes) line = (e.1 % 64, e.2) :: bytesOfLine bytes line := by simp [bytesOfLine, he]
      have hplace : e.1 % 64 = k ↔ k < 64 ∧ e.1 = line + k := by
        have := (lineOf_eq_iff hline).1 he
        omega
      rw [hcons, Tab.get?_cons, Tab.get?_cons, ih]
      simp only [hplace]
      by_cases hk : k < 64 <;> simp [hk]
    · have hskip : bytesOfLine (e :: bytes) line = bytesOfLine bytes line := by simp [bytesOfLine, he]
      rw [hskip, ih, Tab.get?_cons]
      refine ite_congr rfl (fun hk => ?_) fun _ => rfl
      rw [if_neg]
      intro heq
      exact he ((lineOf_eq_iff hline).2 (by omega))

theorem nodup_bytesOfLine {bytes : Tab Byte} (h : (bytes.map Prod.fst).Nodup) (line : Nat) :
    ((bytesOfLine bytes line).map Prod.fst).Nodup := by
  have hmap : (bytesOfLine bytes line).map Prod.fst = ((bytes.filter fun e => lineOf e.1 = line).map Prod.fst).map (· % 64) := by
    simp [bytesOfLine, Function.comp_def]
  rw [hmap]
  refine List.Nodup.map_on (fun a ha b hb hab => ?_) (h.sublist (List.filter_sublist.map _))
  have hlineOf : ∀ x ∈ (bytes.filter fun e => lineOf e.1 = line).map Prod.fst, lineOf x = line := by
    intro x hx
    obtain ⟨e, he, rfl⟩ := List.mem_map.1 hx
    simpa using (List.mem_filter.1 he).2
  have := (hlineOf a ha).trans (hlineOf b hb).symm
  unfold lineOf at this
  omega

/-! ### Root memory -/

/-- The line of memory that an address stands in. -/
def lineAt (ps : List (Nat × Nat)) (a : Nat) : Option (Nat × Nat) := ps.find? fun e => e.2 ≤ a && a < e.2 + 64

/-- Lines that lie apart in memory and that are whole lines of their object. -/
structure LinesPlaced (ps : List (Nat × Nat)) : Prop extends LinesApart ps where
  whole : ∀ e ∈ ps, e.1 % 64 = 0

/-- The state after the lines of a table are written to root memory. -/
def State.rootLines (s : State) (bytes : Tab Byte) (ps : List (Nat × Nat)) : State :=
  ps.foldl (fun s e => s.rootWrite e.2 (bytesOfLine bytes e.1)) s

theorem State.putLines_root {c : CopyCmd} {d : Desc} (hroot : d.tagged = false ∨ c.tag = 0) (s : State) (bytes : Tab Byte)
    (ps : List (Nat × Nat)) : s.putLines c d bytes ps = some (s.rootLines bytes ps) := by
  induction ps generalizing s with
  | nil => rfl
  | cons e ps ih =>
    obtain ⟨line, phys⟩ := e
    have hwrite : s.ctxWrite c.job c.launch d.tagged c.tag d.obj line phys (bytesOfLine bytes line)
        (c.waitGran.contains (line / 64)) = some (s.rootWrite phys (bytesOfLine bytes line)) := by
      rcases hroot with h | h <;> simp [State.ctxWrite, h]
    unfold bytesOfLine at hwrite
    simp only [State.putLines, hwrite, ih]
    rfl

theorem State.rootLines_frame (s : State) (bytes : Tab Byte) (ps : List (Nat × Nat)) :
    s.rootLines bytes ps = { s with hbm := (s.rootLines bytes ps).hbm, bad := (s.rootLines bytes ps).bad } := by
  unfold State.rootLines
  induction ps generalizing s with
  | nil => rfl
  | cons e ps ih => rw [List.foldl_cons, ih, State.rootWrite]

/-- Root memory after lines apart from each other are written. -/
theorem State.memRead_rootLines {bytes : Tab Byte} (hbytes : (bytes.map Prod.fst).Nodup) {ps : List (Nat × Nat)}
    (hps : LinesPlaced ps) (s : State) (a : Nat) :
    memRead Config.hbmFill (s.rootLines bytes ps).hbm a =
      ((lineAt ps a).bind fun e => Tab.get? bytes (e.1 + (a - e.2))).getD (memRead Config.hbmFill s.hbm a) := by
  induction ps generalizing s with
  | nil => rfl
  | cons e ps ih =>
    have hapart : ∀ f ∈ ps, e.2 + 64 ≤ f.2 ∨ f.2 + 64 ≤ e.2 := fun f hf => hps.places e List.mem_cons_self f
      (List.mem_cons_of_mem _ hf) fun h => (List.nodup_cons.1 hps.lines).1 (List.mem_map.2 ⟨f, hf, h.symm⟩)
    have hrest : LinesPlaced ps := ⟨⟨(List.nodup_cons.1 hps.lines).2, fun f hf g hg => hps.places f
      (List.mem_cons_of_mem _ hf) g (List.mem_cons_of_mem _ hg)⟩, fun f hf => hps.whole f (List.mem_cons_of_mem _ hf)⟩
    have hstep : (s.rootLines bytes (e :: ps)).hbm = ((s.rootWrite e.2 (bytesOfLine bytes e.1)).rootLines bytes ps).hbm := rfl
    have hwrite : memRead Config.hbmFill (s.rootWrite e.2 (bytesOfLine bytes e.1)).hbm a =
        if e.2 ≤ a ∧ a < e.2 + 64 then (Tab.get? bytes (e.1 + (a - e.2))).getD (memRead Config.hbmFill s.hbm a)
        else memRead Config.hbmFill s.hbm a := by
      rw [State.rootWrite, memRead_writeAt _ _ _ _ (nodup_bytesOfLine hbytes _), Tab.getD,
        get?_bytesOfLine bytes (hps.whole e List.mem_cons_self)]
      by_cases h1 : e.2 ≤ a
      · by_cases h2 : a < e.2 + 64
        · simp [h1, h2, show a - e.2 < 64 by omega]
        · simp [h1, h2, show ¬ a - e.2 < 64 by omega]
      · simp [h1]
    rw [hstep, ih hrest, hwrite, lineAt, lineAt, List.find?_cons]
    by_cases hin : e.2 ≤ a ∧ a < e.2 + 64
    · have hnone : ps.find? (fun e => e.2 ≤ a && a < e.2 + 64) = none := by
        refine List.find?_eq_none.2 fun f hf => ?_
        have := hapart f hf
        simp only [Bool.and_eq_true, decide_eq_true_eq]
        omega
      simp [hin, hnone]
    · simp [hin, ← Bool.decide_and]

theorem LinesPlaced.lineAt_iff {ps : List (Nat × Nat)} (hps : LinesPlaced ps) {a : Nat} {e : Nat × Nat} :
    lineAt ps a = some e ↔ e ∈ ps ∧ e.2 ≤ a ∧ a < e.2 + 64 := by
  refine ⟨fun h => ⟨List.mem_of_find?_eq_some h, by simpa using List.find?_some h⟩, fun ⟨he, hin⟩ => ?_⟩
  cases hf : lineAt ps a with
  | none => exact absurd (by simpa using hin) (List.find?_eq_none.1 hf e he)
  | some f =>
    have hin' : f.2 ≤ a ∧ a < f.2 + 64 := by simpa using List.find?_some hf
    have hmem : f ∈ ps := List.mem_of_find?_eq_some hf
    have hsame : f.1 = e.1 := by
      by_contra hne
      have := hps.places f hmem e he hne
      omega
    rw [List.inj_on_of_nodup_map hps.lines hmem he hsame]

theorem LinesPlaced.physIn_of_mem {ps : List (Nat × Nat)} (hps : LinesPlaced ps) {e : Nat × Nat} (he : e ∈ ps) {p : Nat}
    (hp : lineOf p = e.1) : physIn ps p = e.2 + p % 64 := by
  rw [physIn]
  split
  · rename_i f hf
    have hfst : f.1 = lineOf p := by simpa using List.find?_some hf
    rw [List.inj_on_of_nodup_map hps.lines (List.mem_of_find?_eq_some hf) he (hfst.trans hp)]
  · rename_i hnone
    exact absurd hp (by simpa [eq_comm] using List.find?_eq_none.1 hnone e he)

/-- A byte of a line stands at the address of memory whose line has it there. -/
theorem LinesPlaced.physIn_eq_iff {ps : List (Nat × Nat)} (hps : LinesPlaced ps) {p : Nat} (hp : lineOf p ∈ ps.map Prod.fst)
    (a : Nat) : physIn ps p = a ↔ ∃ e, lineAt ps a = some e ∧ p = e.1 + (a - e.2) := by
  obtain ⟨f, hf, hline⟩ := List.mem_map.1 hp
  have hat := (lineOf_eq_iff (hps.whole f hf)).1 hline.symm
  have hwhole := hps.whole f hf
  rw [hps.physIn_of_mem hf hline.symm]
  constructor
  · rintro rfl
    exact ⟨f, hps.lineAt_iff.2 ⟨hf, by omega⟩, by omega⟩
  · rintro ⟨e, he, rfl⟩
    obtain ⟨hmem, hin⟩ := hps.lineAt_iff.1 he
    have hsame : lineOf (e.1 + (a - e.2)) = e.1 := (lineOf_eq_iff (hps.whole e hmem)).2 (by omega)
    obtain rfl := List.inj_on_of_nodup_map hps.lines hf hmem (hline.trans hsame)
    omega

/-- The byte that goes to an address of memory is the one that goes to the place which the address's line has there. -/
theorem CopyCmd.source_physIn {c : CopyCmd} (hfills : c.kind.fills = false) (hmove : c.kind ≠ .move) {ps : List (Nat × Nat)}
    (hps : LinesPlaced ps) (hcover : ∀ e ∈ c.emptied, lineOf e.2.place ∈ ps.map Prod.fst) (a : Nat) :
    c.source (physIn ps) a = (lineAt ps a).bind fun e => c.source (fun x => x) (e.1 + (a - e.2)) := by
  have hgoes : ∀ n, c.goes (physIn ps) a n = true ↔
      ∃ e, lineAt ps a = some e ∧ c.goes (fun x => x) (e.1 + (a - e.2)) n = true := by
    intro n
    simp only [CopyCmd.goes_iff hfills hmove]
    constructor
    · rintro ⟨b, hb, hplace⟩
      obtain ⟨e, he, hp⟩ := (hps.physIn_eq_iff (hcover _ hb) a).1 hplace
      exact ⟨e, he, b, hb, hp⟩
    · rintro ⟨e, he, b, hb, hp⟩
      exact ⟨b, hb, (hps.physIn_eq_iff (hcover _ hb) a).2 ⟨e, he, hp⟩⟩
  cases hl : lineAt ps a with
  | none => exact List.find?_eq_none.2 fun n _ h => by simp [hl, hgoes] at h
  | some e =>
    refine congrArg (List.find? · _) (funext fun n => Bool.eq_iff_iff.2 ?_)
    simp [hgoes, hl]

/-! ### Cells of a live context (R222, R227) -/

/-- What a write leaves in a cell is a matter of that granule's cells before and after. -/
theorem CellWritten.congr {s s' t t' : State} {job tag obj gran : Nat} {bytes bytes' : Nat → Option Byte}
    (h : CellWritten s t job tag obj gran bytes)
    (hs : s'.kennel.cell? job tag obj gran = s.kennel.cell? job tag obj gran)
    (ht : t'.kennel.cell? job tag obj gran = t.kennel.cell? job tag obj gran) (hbytes : ∀ k < 64, bytes' k = bytes k) :
    CellWritten s' t' job tag obj gran bytes' := by
  obtain ⟨c, hc, hbyte⟩ := h
  refine ⟨c, ht.trans hc, fun k hk => ?_⟩
  rw [hbyte k hk, hbytes k hk, hs]

/-- The cells that a job holds. -/
def State.jobCells (s : State) (job : Nat) : Nat := (s.kennel.cells.filter fun x => x.job = job).length

theorem State.jobCells_putCell (s : State) (c : Cell) (job : Nat) :
    (s.setKennel (s.kennel.putCell c)).jobCells job ≤ s.jobCells job + 1 := by
  have hkept := (List.filter_sublist (l := s.kennel.cells)
    (p := fun x => !(x.tag = c.tag && x.job = c.job && x.obj = c.obj && x.gran = c.gran))).filter fun x => decide (x.job = job)
  have hle := hkept.length_le
  simp only [State.jobCells, State.setKennel, Kennel.putCell, List.filter_cons]
  split
  · rw [List.length_cons]
    omega
  · omega

/-- A line goes to its granule's cell where the context has one or the job has room for one. -/
theorem State.ctxWrite_put {s : State} {job tag obj line : Nat} (htag : tag ≠ 0) (hlive : s.tagLive job tag = true)
    (hroom : ∃ j, Tab.get? s.work.jobs job = some j ∧ s.jobCells job < j.capacity * 16384)
    (launch phys : Nat) (bytes : Tab Byte) :
    ∃ c, s.ctxWrite job launch true tag obj line phys bytes false = some (s.setKennel (s.kennel.putCell c)) ∧
      (c.tag = tag ∧ c.job = job ∧ c.obj = obj ∧ c.gran = line / 64) ∧
      CellWritten s (s.setKennel (s.kennel.putCell c)) job tag obj (line / 64) fun i => Tab.get? bytes i := by
  cases hc : s.kennel.cell? job tag obj (line / 64) with
  | some c =>
    have hfields := Kennel.cell?_fields hc
    exact ⟨_, State.ctxWrite_cell htag hlive hc launch phys bytes, hfields,
      cellWritten_putCell hfields (fun _ => by rw [hc]; rfl) bytes⟩
  | none =>
    have hfree : s.cellsFull job = false := by
      obtain ⟨j, hj, hcount⟩ := hroom
      simpa [State.cellsFull, State.jobCells, hj] using hcount
    refine ⟨(Cell.fresh tag job obj (line / 64) phys).write bytes, ?_, ⟨rfl, rfl, rfl, rfl⟩,
      cellWritten_putCell ⟨rfl, rfl, rfl, rfl⟩ (fun k => (Cell.byte?_fresh ..).trans ?_) bytes⟩
    · simp [State.ctxWrite, htag, hlive, hc, hfree]
    · exact (congrArg (Option.bind · _) hc).symm

section
variable {c : CopyCmd} {d : Desc} (htagged : d.tagged = true) (htag : c.tag ≠ 0) (hwait : c.waitGran = [])
include htagged htag hwait

theorem State.putLines_live {s : State} (bytes : Tab Byte) {ps : List (Nat × Nat)}
    (hgran : (ps.map fun e => e.1 / 64).Nodup) (hlive : s.tagLive c.job c.tag = true)
    (hroom : ∃ j, Tab.get? s.work.jobs c.job = some j ∧ s.jobCells c.job + ps.length ≤ j.capacity * 16384) :
    ∃ k, s.putLines c d bytes ps = some (s.setKennel k) ∧
      (∀ e ∈ ps, CellWritten s (s.setKennel k) c.job c.tag d.obj (e.1 / 64) fun i => Tab.get? (bytesOfLine bytes e.1) i) ∧
      ∀ gran, gran ∉ ps.map (fun e => e.1 / 64) →
        k.cell? c.job c.tag d.obj gran = s.kennel.cell? c.job c.tag d.obj gran := by
  induction ps generalizing s with
  | nil => exact ⟨s.kennel, rfl, nofun, fun _ _ => rfl⟩
  | cons e ps ih =>
    obtain ⟨line, phys⟩ := e
    obtain ⟨j, hj, hcount⟩ := hroom
    rw [List.map_cons, List.nodup_cons] at hgran
    rw [List.length_cons] at hcount
    obtain ⟨x, hwrite, hfields, hcell⟩ := State.ctxWrite_put (obj := d.obj) (line := line) htag hlive
      ⟨j, hj, by omega⟩ c.launch phys (bytesOfLine bytes line)
    have hput := s.jobCells_putCell x c.job
    obtain ⟨k, hk, hcells, hkept⟩ := ih hgran.2 (s := s.setKennel (s.kennel.putCell x)) hlive ⟨j, hj, by omega⟩
    have hother : ∀ gran, gran ≠ line / 64 →
        (s.kennel.putCell x).cell? c.job c.tag d.obj gran = s.kennel.cell? c.job c.tag d.obj gran := fun gran hne =>
      Kennel.cell?_putCell_ne fun h => hne (h.2.2.2.symm.trans hfields.2.2.2)
    refine ⟨k, ?_, fun e he => ?_, fun gran hne => ?_⟩
    · unfold bytesOfLine at hwrite
      simp only [State.putLines, htagged, hwait, List.contains_nil, hwrite, hk]
      rfl
    · rcases List.mem_cons.1 he with rfl | he
      · exact hcell.congr rfl (hkept _ hgran.1) fun _ _ => rfl
      · exact (hcells e he).congr (hother _ fun h => hgran.1 (List.mem_map.2 ⟨e, he, h⟩)).symm rfl fun _ _ => rfl
    · rw [List.map_cons, List.mem_cons, not_or] at hne
      exact (hkept gran hne.2).trans (hother gran hne.1)

/-- In a dead context every line is dropped. -/
theorem State.putLines_dead {s : State} (bytes : Tab Byte) (ps : List (Nat × Nat)) (hdead : s.tagLive c.job c.tag = false) :
    ∃ t, s.putLines c d bytes ps = some t ∧ t.hbm = s.hbm ∧ t.kennel = s.kennel := by
  induction ps generalizing s with
  | nil => exact ⟨s, rfl, rfl, rfl⟩
  | cons e ps ih =>
    obtain ⟨line, phys⟩ := e
    obtain ⟨t, ht, hhbm, hkennel⟩ := ih (s := s.lateWrite c.launch) hdead
    have hwrite := State.ctxWrite_dead (s := s) (obj := d.obj) (line := line) htag hdead c.launch phys
      (bytesOfLine bytes line)
    unfold bytesOfLine at hwrite
    refine ⟨t, ?_, hhbm, hkennel⟩
    simp only [State.putLines, htagged, hwait, List.contains_nil, hwrite, ht]

end

end Sys2Proof.Machine
end

