-- ==== Sys2Proof/Proofs/TensorCopies.lean ====
section
/-!
PROOFS. COPY_LINE of a tensor copy (R222, R223, R232, R265 to R270): the image line it fills, and what the line it empties
leaves in memory, in its context's cells or in a scratchpad.
-/

namespace Sys2Proof.Machine

section
variable {s s' : State} {id : Nat} {c : CopyCmd} {loc : ScrLoc} {ps : List (Nat × Nat)} (hdue : LineDue s id c)
  (hbad : s.bad = []) (hloc : c.loc c.level = some loc) (hgrant : (s'.grantLines c.core id c.paid ps).1 = ps.length)
include hdue hbad hloc hgrant

/-- The bytes of the image line after a copy into the image. -/
theorem LineDue.fills (hfills : c.kind.fills = true) (hexists : s.AllotExists loc)
    (hlines : (s.touch (s.copySegs c)).tensorLines c (Desc.read c.desc) rRead
      ((c.places.filter fun b => !b.pad && b.cls = .inside).map LineByte.place) = (some ps, s')) :
    Answers (exec (.copyLine id) s) fun t => t.hbm = s.hbm ∧
      (Tab.get? t.ops.copies id).map CopyCmd.next = some (c.next + 1) ∧
      ∀ n < 64, t.scrByte loc (imageAt c c.next n) = s.fillByte c ps n := by
  obtain ⟨ds, cs, hgranted⟩ := State.tensorLines_granted hlines hgrant
  have hend := State.fillLine_clean (s := s.touch (s.copySegs c)) (id := id) hbad hloc hlines hgranted
  let u := ((s.touch (s.copySegs c)).withDies ds).metered cs
  obtain ⟨t, hexec, hmade⟩ := hdue.answers (by rw [if_pos hfills]; exact hend)
  refine ⟨t, hexec, hmade.hbm.trans ?_, hmade.next, fun n hn => ?_⟩
  · rw [State.scrPut_frame]
    rfl
  · rw [State.scrByte_of_work hmade.work, State.scrByte_filled (u := u) hexists ps hn]
    unfold State.fillByte
    simp only [State.tensorByte_congr (s := s) (t := u) rfl rfl rfl hbad hbad]

variable (hfills : c.kind.fills = false)
  (hlines : (s.touch (s.copySegs c)).tensorLines c (Desc.read c.desc) rWrite (c.emptied.map fun e => e.2.place) =
    (some ps, s'))
include hfills hlines

/-- A copy out of the image to memory or a context leaves what its lines' writes leave. -/
theorem LineDue.empties_memory (hspace : (Desc.read c.desc).space = 0) :
    ∃ ds cs, ∀ v, (((s.touch (s.copySegs c)).withDies ds).metered cs).putLines c (Desc.read c.desc) (s.emptyBytes c loc) ps =
      some v → ∃ t, exec (.copyLine id) s = .next t ∧ LineMade id c v t := by
  obtain ⟨ds, cs, hgranted⟩ := State.tensorLines_granted hlines hgrant
  have hend := State.emptyLine_clean (s := s.touch (s.copySegs c)) hbad hloc hlines hgranted
  rw [if_pos hspace, State.emptyBytes_of_work (s := s) (t := ((s.touch (s.copySegs c)).withDies ds).metered cs) rfl] at hend
  refine ⟨ds, cs, fun v hv => ?_⟩
  rw [hv] at hend
  exact hdue.answers (by rw [if_neg (by simp [hfills])]; exact hend)

/-- A copy out of the image to a scratchpad puts its bytes there. -/
theorem LineDue.empties_scratch (hspace : (Desc.read c.desc).space ≠ 0) {to_ : ScrLoc}
    (hto : c.loc (spaceLevel (Desc.read c.desc).space) = some to_) (hexists : s.AllotExists to_) :
    Answers (exec (.copyLine id) s) fun t => t.hbm = s.hbm ∧
      (Tab.get? t.ops.copies id).map CopyCmd.next = some (c.next + 1) ∧
      ∀ a, t.scrByte to_ a = (Tab.get? (s.emptyBytes c loc) a).getD (s.scrByte to_ a) := by
  obtain ⟨ds, cs, hgranted⟩ := State.tensorLines_granted hlines hgrant
  have hend := State.emptyLine_clean (s := s.touch (s.copySegs c)) hbad hloc hlines hgranted
  rw [if_neg hspace, hto, State.emptyBytes_of_work (s := s) (t := ((s.touch (s.copySegs c)).withDies ds).metered cs) rfl] at hend
  obtain ⟨t, hexec, hmade⟩ := hdue.answers (by rw [if_neg (by simp [hfills])]; exact hend)
  refine ⟨t, hexec, hmade.hbm.trans ?_, hmade.next, fun a => ?_⟩
  · rw [State.scrPut_frame]
    rfl
  · rw [State.scrByte_of_work hmade.work]
    exact State.scrByte_scrPut (s := ((s.touch (s.copySegs c)).withDies ds).metered cs) hexists
      (s.sorted_emptyBytes c loc) a

section
variable (hspace : (Desc.read c.desc).space = 0) (hapart : LinesApart ps)
include hspace

omit hdue hbad hloc hgrant hfills in
include hapart in
/-- The lines are whole, and those of every byte are among them. -/
theorem linesPlaced_of_emptied : LinesPlaced ps ∧ ∀ e ∈ c.emptied, lineOf e.2.place ∈ ps.map Prod.fst := by
  have hfst := State.tensorLines_lines hspace hlines
  refine ⟨⟨hapart, fun e he => ?_⟩, fun e he => ?_⟩
  · obtain ⟨p, -, hp⟩ := List.mem_map.1 (mem_dedup.1 (hfst ▸ List.mem_map_of_mem he))
    unfold lineOf at hp
    omega
  · rw [hfst]
    exact mem_dedup.2 (List.mem_map_of_mem (List.mem_map_of_mem he))

include hapart in
/-- In root memory each byte goes to its place's address. -/
theorem LineDue.empties_root (hnodup : (c.emptied.map fun e => e.2.place).Nodup)
    (hroot : (Desc.read c.desc).tagged = false ∨ c.tag = 0) :
    Answers (exec (.copyLine id) s) fun t => t.work.blocks = s.work.blocks ∧ t.work.launches = s.work.launches ∧
      (Tab.get? t.ops.copies id).map CopyCmd.next = some (c.next + 1) ∧
      ∀ a, memRead Config.hbmFill t.hbm a =
        ((c.source (physIn ps) a).map (s.emptyByte c loc)).getD (memRead Config.hbmFill s.hbm a) := by
  obtain ⟨ds, cs, hput⟩ := hdue.empties_memory hbad hloc hgrant hfills hlines hspace
  obtain ⟨hps, hcover⟩ := linesPlaced_of_emptied hlines hspace hapart
  obtain ⟨t, hexec, hmade⟩ := hput _ (State.putLines_root hroot ..)
  have hwork : t.work = s.work := hmade.work.trans (by rw [State.rootLines_frame]; rfl)
  refine ⟨t, hexec, congrArg _ hwork, congrArg _ hwork, hmade.next, fun a => ?_⟩
  rw [hmade.hbm, State.memRead_rootLines (Tab.nodup_of_sorted (s.sorted_emptyBytes c loc)) hps,
    CopyCmd.source_physIn hfills hdue.tensor hps hcover, Option.map_bind]
  simp only [s.get?_emptyBytes hfills hdue.tensor loc hnodup]
  rfl

variable (htagged : (Desc.read c.desc).tagged = true) (htag : c.tag ≠ 0) (hwait : c.waitGran = [])
include htagged htag hwait

include hapart in
/-- In a live context with room each byte goes to its granule's cell. -/
theorem LineDue.empties_cells (hnodup : (c.emptied.map fun e => e.2.place).Nodup) (hlive : s.tagLive c.job c.tag = true)
    (hroom : ∃ j, Tab.get? s.work.jobs c.job = some j ∧ s.jobCells c.job + ps.length ≤ j.capacity * 16384) :
    Answers (exec (.copyLine id) s) fun t => t.hbm = s.hbm ∧
      (Tab.get? t.ops.copies id).map CopyCmd.next = some (c.next + 1) ∧
      ∀ e ∈ ps, CellWritten s t c.job c.tag (Desc.read c.desc).obj (e.1 / 64) fun k =>
        (c.source (fun x => x) (e.1 + k)).map (s.emptyByte c loc) := by
  obtain ⟨ds, cs, hput⟩ := hdue.empties_memory hbad hloc hgrant hfills hlines hspace
  obtain ⟨hps, -⟩ := linesPlaced_of_emptied hlines hspace hapart
  have hgran : (ps.map fun e => e.1 / 64).Nodup := by
    have hdiv := hps.lines.map_on (f := (· / 64)) fun a ha b hb hab => by
      obtain ⟨e, he, rfl⟩ := List.mem_map.1 ha
      obtain ⟨f, hf, rfl⟩ := List.mem_map.1 hb
      have := hps.whole e he
      have := hps.whole f hf
      omega
    rwa [List.map_map] at hdiv
  obtain ⟨k, hk, hcells, -⟩ := State.putLines_live (s := ((s.touch (s.copySegs c)).withDies ds).metered cs) htagged htag hwait
    (s.emptyBytes c loc) hgran hlive hroom
  obtain ⟨t, hexec, hmade⟩ := hput _ hk
  refine ⟨t, hexec, hmade.hbm, hmade.next, fun e he => ?_⟩
  refine (hcells e he).congr rfl (Kennel.cell?_eq_of_cells hmade.cells ..) fun i hi => ?_
  rw [get?_bytesOfLine _ (hps.whole e he), if_pos hi, s.get?_emptyBytes hfills hdue.tensor loc hnodup]

/-- In a dead context every byte is dropped. -/
theorem LineDue.empties_dead (hdead : s.tagLive c.job c.tag = false) :
    Answers (exec (.copyLine id) s) fun t => t.hbm = s.hbm ∧ t.kennel.cells = s.kennel.cells ∧
      (Tab.get? t.ops.copies id).map CopyCmd.next = some (c.next + 1) := by
  obtain ⟨ds, cs, hput⟩ := hdue.empties_memory hbad hloc hgrant hfills hlines hspace
  obtain ⟨u, hu, hhbm, hkennel⟩ := State.putLines_dead (s := ((s.touch (s.copySegs c)).withDies ds).metered cs)
    (d := Desc.read c.desc) htagged htag hwait (s.emptyBytes c loc) ps hdead
  obtain ⟨t, hexec, hmade⟩ := hput _ hu
  exact ⟨t, hexec, hmade.hbm.trans hhbm, hmade.cells.trans (congrArg Kennel.cells hkennel), hmade.next⟩

end

end

/-- A byte that a line of the image has, by the class of its element. -/
theorem State.fillByte_eq {s : State} {c : CopyCmd} (hbad : s.bad = []) (ps : List (Nat × Nat)) {n : Nat} {b : LineByte}
    (hb : c.places[n]? = some b) :
    s.fillByte c ps n =
      if b.pad then 0#8
      else if b.cls = .inside then
        if (Desc.read c.desc).space = 0 then
          s.resolved c.job (Desc.read c.desc).tagged c.rtag (Desc.read c.desc).obj b.place (physIn ps b.place)
        else s.tensorByte c (Desc.read c.desc) ps b.place
      else (Desc.read c.desc).fillBytes.getD b.q 0#8 := by
  have hroot : (Desc.read c.desc).space = 0 → s.tensorByte c (Desc.read c.desc) ps b.place =
      s.resolved c.job (Desc.read c.desc).tagged c.rtag (Desc.read c.desc).obj b.place (physIn ps b.place) := fun h => by
    rw [State.tensorByte, if_pos h, State.ctxByte_eq_resolved hbad]
  rw [State.fillByte, hb, Option.map_some, Option.getD_some]
  by_cases hspace : (Desc.read c.desc).space = 0
  · rw [if_pos hspace, hroot hspace]
  · rw [if_neg hspace]

end Sys2Proof.Machine

namespace Sys2Proof

open Machine

/-- Settles O35: LineDue.fills gives the image line that is put, and empties_root, empties_cells, empties_dead and
empties_scratch what a line's bytes leave in memory, in cells, nowhere and in a scratchpad. -/
theorem tensorLinesFill : Obligations.TensorLinesFill := by
  intro s s' id c ps loc hc hs hcode hnext hord hbad hawake hloc hexists hmove d places moved right offs hlines hgrant
  have hdue : LineDue s id c := ⟨hc, hs, hcode, hnext, hord, hawake, hmove⟩
  constructor
  · intro hfills
    have hoffs : offs = (c.places.filter fun b => !b.pad && b.cls = .inside).map LineByte.place := by
      simp only [offs, hfills, if_true, List.append_nil]
      rfl
    have hright : right = rRead := if_pos hfills
    rw [hoffs, hright] at hlines
    obtain ⟨t, hexec, hhbm, hat, hbytes⟩ := hdue.fills hbad hloc hgrant hfills hexists hlines
    refine ⟨t, hexec, hhbm, hat, fun n b hb => ?_⟩
    have hn : n < c.places.length := (List.getElem?_eq_some_iff.1 hb).1
    rw [hbytes n (c.length_places ▸ hn)]
    exact State.fillByte_eq hbad ps hb
  · intro hfills hnodup value source
    have hoffs : offs = c.emptied.map fun e => e.2.place := by
      rw [CopyCmd.emptied_places]
      simp only [offs, hfills, Bool.false_eq_true, if_false]
      rfl
    have hright : right = rWrite := if_neg (by simp [hfills])
    rw [hoffs] at hnodup
    rw [hoffs, hright] at hlines
    refine ⟨fun hspace hroot hapart => ?_, fun hspace htagged htag hwait hapart => ⟨fun hlive hroom => ?_, fun hdead => ?_⟩,
      fun to_ hspace hto hthere => ?_⟩
    · exact hdue.empties_root hbad hloc hgrant hfills hlines hspace hapart hnodup hroot
    · exact hdue.empties_cells hbad hloc hgrant hfills hlines hspace hapart htagged htag hwait hnodup hlive hroom
    · exact hdue.empties_dead hbad hloc hgrant hfills hlines hspace htagged htag hwait hdead
    · obtain ⟨t, hexec, hhbm, hat, hbytes⟩ := hdue.empties_scratch hbad hloc hgrant hfills hlines hspace hto hthere
      refine ⟨t, hexec, hhbm, hat, fun a => (hbytes a).trans ?_⟩
      rw [s.get?_emptyBytes hfills hmove loc hnodup]
      rfl

end Sys2Proof
end

