-- ==== Sys2Proof/Proofs/ScratchAccess.lean ====
section
/-!
PROOFS. An access of the core scratchpad (R88, R175, R177, R244): which fault it raises with which mask, which lanes it performs
where it raises none, and the two ways its word may then complete: at once, or with a result on its way.
-/

namespace Sys2Proof.Machine

/-! ### Lanes of a scratchpad access (R175, R177) -/

/-- Whether a lane's address is aligned and inside the allotment. -/
def fitsAllot (addr : Nat → Nat) (size allot k : Nat) : Bool := decide (addr k % size = 0 ∧ addr k + size ≤ allot)

theorem fitsAllot_eq_true {addr : Nat → Nat} {size allot k : Nat} :
    fitsAllot addr size allot k = true ↔ addr k % size = 0 ∧ addr k + size ≤ allot := decide_eq_true_iff

/-- The lanes that an access performs: those that fit, helper lanes apart where `nohelp` says so (R88). -/
def Group.scratchLanes (g : Group) (uniform : Bool) (addr : Nat → Nat) (size allot : Nat) (nohelp : Bool) : List Nat :=
  if nohelp then ((g.accessLanes uniform).filter (fitsAllot addr size allot)).filter fun k => !g.helpers.getLsbD k
  else (g.accessLanes uniform).filter (fitsAllot addr size allot)

section
variable (g : Group) (uniform : Bool) (addr : Nat → Nat) (size allot : Nat)

theorem scratchPlan_lanes (lanes : List Nat) :
    (scratchPlan g lanes uniform addr size allot).lanes = lanes.filter (fitsAllot addr size allot) := by
  refine List.filter_congr fun k _ => ?_
  by_cases h : addr k % size = 0
  · simp [fitsAllot, h, ← decide_not]
  · simp [fitsAllot, h]

theorem Group.names_scratchPlan_mis : g.Names (scratchPlan g (g.accessLanes uniform) uniform addr size allot).mis
    fun k => addr (addressLane uniform k) % size ≠ 0 := by
  intro k hk
  exact (g.getLsbD_planMask uniform (fun k => decide (addr k % size ≠ 0)) hk).trans
    (and_congr_right fun _ => decide_eq_true_iff)

theorem Group.names_scratchPlan_oob : g.Names (scratchPlan g (g.accessLanes uniform) uniform addr size allot).oob
    fun k => addr (addressLane uniform k) % size = 0 ∧ allot < addr (addressLane uniform k) + size := by
  intro k hk
  refine (g.getLsbD_planMask uniform (fun k => decide (addr k % size = 0) && decide (allot < addr k + size)) hk).trans
    (and_congr_right fun _ => ?_)
  rw [Bool.and_eq_true, decide_eq_true_iff, decide_eq_true_iff]

end

theorem Group.getLsbD_active (g : Group) {k : Nat} (hk : k < 64) :
    g.active.getLsbD k = (g.exec.getLsbD k && !g.helpers.getLsbD k) := by
  simp [Group.active, hk]

theorem Group.maskList_active (g : Group) : maskList g.active = (maskList g.exec).filter fun k => !g.helpers.getLsbD k := by
  rw [maskList, maskList, List.filter_filter]
  refine List.filter_congr fun k hk => ?_
  rw [g.getLsbD_active (List.mem_range.1 hk), Bool.and_comm]

theorem mask_ne_zero_iff {m : Mask} : m ≠ 0#64 ↔ ∃ k, k < 64 ∧ m.getLsbD k = true := by
  rw [← bne_iff_ne, mask_bne_zero, List.any_eq_true]
  simp

theorem Group.exec_ne_zero_of_active {g : Group} {p : Nat → Prop} (h : ∃ k, k < 64 ∧ g.active.getLsbD k = true ∧ p k) :
    g.exec ≠ 0#64 := by
  obtain ⟨k, hk, hact, -⟩ := h
  rw [g.getLsbD_active hk, Bool.and_eq_true] at hact
  exact mask_ne_zero_iff.2 ⟨k, hk, hact.1⟩

/-- Where one test stands for all lanes, the mask that names them is that of Exec's non-helper lanes. -/
theorem Group.Names.eq_active {g : Group} {m : Mask} {p : Prop} (h : g.Names m fun _ => p) (hp : p) : m = g.active :=
  BitVec.eq_of_getLsbD_eq fun k hk => Bool.eq_iff_iff.2 ((h k hk).trans (and_iff_left hp))

theorem Group.Names.not_bne_zero {g : Group} {m : Mask} {p : Nat → Prop} (h : g.Names m p)
    (hnone : ∀ k, k < 64 → g.active.getLsbD k = true → ¬p k) : ¬(m != 0#64) = true := fun hne =>
  let ⟨k, hk, hact, hp⟩ := h.ne_zero_iff.1 (bne_iff_ne.1 hne)
  hnone k hk hact hp

theorem Group.mem_scratchLanes {g : Group} {addr : Nat → Nat} {size allot k : Nat} :
    k ∈ g.scratchLanes false addr size allot false ↔
      (k < 64 ∧ g.exec.getLsbD k = true) ∧ addr k % size = 0 ∧ addr k + size ≤ allot := by
  rw [← fitsAllot_eq_true, ← mem_maskList]
  exact List.mem_filter

/-- Where the lanes of Exec are helper lanes or fit, those that are no helper lanes fit. -/
theorem Group.fitsAllot_of_fine {g : Group} {addr : Nat → Nat} {size allot : Nat}
    (h : ∀ k, k < 64 → g.exec.getLsbD k = true →
      g.helpers.getLsbD k = true ∨ addr k % size = 0 ∧ addr k + size ≤ allot) :
    ∀ k, k < 64 → g.active.getLsbD k = true → fitsAllot addr size allot k = true := by
  intro k hk hact
  rw [g.getLsbD_active hk, Bool.and_eq_true, Bool.not_eq_true'] at hact
  refine fitsAllot_eq_true.2 ((h k hk hact.1).resolve_left ?_)
  rw [hact.2]
  exact Bool.false_ne_true

/-- Where Exec's non-helper lanes fit, they are the lanes performed without helper lanes. -/
theorem Group.scratchLanes_nohelp {g : Group} {addr : Nat → Nat} {size allot : Nat}
    (h : ∀ k, k < 64 → g.active.getLsbD k = true → fitsAllot addr size allot k = true) :
    g.scratchLanes false addr size allot true = maskList g.active := by
  rw [g.maskList_active, Group.scratchLanes, if_pos rfl, Group.accessLanes, if_neg Bool.false_ne_true, List.filter_filter]
  refine List.filter_congr fun k hk => ?_
  obtain ⟨hlt, hexec⟩ := mem_maskList.1 hk
  cases hhelp : g.helpers.getLsbD k
  · simpa using h k hlt (by rw [g.getLsbD_active hlt, hexec, hhelp]; rfl)
  · rfl

/-- The helper lanes that access something. -/
theorem Group.filter_helpers_scratchLanes (g : Group) (addr : Nat → Nat) (size allot : Nat) :
    (g.scratchLanes false addr size allot false).filter (fun k => g.helpers.getLsbD k) = (maskList g.exec).filter fun k =>
      g.helpers.getLsbD k && decide (addr k % size = 0 ∧ addr k + size ≤ allot) :=
  List.filter_filter

/-! ### An access (R175, R185, R187) -/

section
variable {i : Instr} {s : State} {gid : Nat} {g : Group} {cl : Clause}
  {uniform : Bool} {addr : Nat → Nat} {size cls : Nat} {nohelp waits : Bool} {k : State → List Nat → Eff}

/-- The segments of an access's lanes (R186). -/
def State.scratchSegs (s : State) (g : Group) (addr : Nat → Nat) (lanes : List Nat) : List (SramArray × Nat) :=
  lanes.map fun i => s.segOf (.core (g.block.getD 0)) (addr i)

/-- What an access goes by in the state that holds the landed results is what it goes by in the state itself. -/
theorem State.scratchAccess_eq :
    (s.setGroup gid g).scratchAccess g (g.accessLanes uniform) uniform addr size cls nohelp waits k =
      let p := scratchPlan g (g.accessLanes uniform) uniform addr size (s.allot g)
      let acc := g.scratchLanes uniform addr size (s.allot g) nohelp
      if p.mis != 0#64 then .trap (.at 0x09 p.mis)
      else if p.oob != 0#64 then .trap (.at 0x07 p.oob)
      else if cntLimit cls ≤ g.cnt cls || (waits && !acc.isEmpty) || s.asleep (s.scratchSegs g addr acc) then .wait
      else if acc.any fun i => s.badScratch (g.block.getD 0) (addr i) size then .kill stSram
      else k ((s.touch (s.scratchSegs g addr acc)).setGroup gid g) acc := by
  rw [Group.scratchLanes, ← scratchPlan_lanes g uniform addr size (s.allot g) (g.accessLanes uniform)]
  rfl

/-- The word's meaning is an access of the scratchpad at these addresses. -/
def ScratchWord (i : Instr) (s : State) (gid : Nat) (g : Group) (cl : Clause) (uniform : Bool) (addr : Nat → Nat)
    (size : Nat) : Prop :=
  ∃ eff cls nohelp waits k, exec i s = issue i eff s ∧ eff (s.setGroup gid g) gid g cl =
    (s.setGroup gid g).scratchAccess g (g.accessLanes uniform) uniform addr size cls nohelp waits k

section
variable (hr : Ready i s gid g cl) (hword : ScratchWord i s gid g cl uniform addr size)
include hr hword

theorem traps_misaligned (hany : ∃ k, k < 64 ∧ g.active.getLsbD k = true ∧ addr (addressLane uniform k) % size ≠ 0) :
    ∃ m, g.Names m (fun k => addr (addressLane uniform k) % size ≠ 0) ∧ Traps i s gid cl (.at 0x09 m) := by
  obtain ⟨eff, cls, nohelp, waits, k, hexec, he⟩ := hword
  have hmis := g.names_scratchPlan_mis uniform addr size (s.allot g)
  exact ⟨_, hmis, hexec.trans (issue_of_trap hr (he.trans (State.scratchAccess_eq.trans
    (if_pos (bne_iff_ne.2 (hmis.ne_zero_iff.2 hany))))))⟩

theorem traps_outOfBounds (haligned : ∀ k, k < 64 → g.active.getLsbD k = true → addr (addressLane uniform k) % size = 0)
    (hany : ∃ k, k < 64 ∧ g.active.getLsbD k = true ∧ s.allot g < addr (addressLane uniform k) + size) :
    ∃ m, g.Names m (fun k => s.allot g < addr (addressLane uniform k) + size) ∧ Traps i s gid cl (.at 0x07 m) := by
  obtain ⟨eff, cls, nohelp, waits, k, hexec, he⟩ := hword
  have hmis := g.names_scratchPlan_mis uniform addr size (s.allot g)
  have hoob : g.Names (scratchPlan g (g.accessLanes uniform) uniform addr size (s.allot g)).oob
      fun k => s.allot g < addr (addressLane uniform k) + size := fun k hk =>
    (g.names_scratchPlan_oob uniform addr size (s.allot g) k hk).trans
      (and_congr_right fun hact => and_iff_right (haligned k hk hact))
  have hclear := hmis.not_bne_zero fun k hk hact hne => hne (haligned k hk hact)
  exact ⟨_, hoob, hexec.trans (issue_of_trap hr (he.trans (State.scratchAccess_eq.trans ((if_neg hclear).trans
    (if_pos (bne_iff_ne.2 (hoob.ne_zero_iff.2 hany)))))))⟩

end

/-- An access without a fault performs its lanes. That nothing is asleep, in error or awaited counts only where some lane is
performed. -/
theorem State.scratchAccess_of_fits
    (hfits : ∀ k, k < 64 → g.active.getLsbD k = true → fitsAllot addr size (s.allot g) (addressLane uniform k) = true)
    (hcnt : g.cnt cls < cntLimit cls)
    (hclear : g.scratchLanes uniform addr size (s.allot g) nohelp = [] ∨ s.bad = [] ∧ s.retained = [] ∧ waits = false) :
    ∃ ps, ∀ k, (s.setGroup gid g).scratchAccess g (g.accessLanes uniform) uniform addr size cls nohelp waits k =
      k ((s.touch ps).setGroup gid g) (g.scratchLanes uniform addr size (s.allot g) nohelp) := by
  have hmis := (g.names_scratchPlan_mis uniform addr size (s.allot g)).not_bne_zero fun k hk hact hne =>
    hne (fitsAllot_eq_true.1 (hfits k hk hact)).1
  have hoob := (g.names_scratchPlan_oob uniform addr size (s.allot g)).not_bne_zero fun k hk hact hout =>
    Nat.not_lt.2 (fitsAllot_eq_true.1 (hfits k hk hact)).2 hout.2
  refine ⟨s.scratchSegs g addr (g.scratchLanes uniform addr size (s.allot g) nohelp), fun k =>
    State.scratchAccess_eq.trans ((if_neg hmis).trans ((if_neg hoob).trans ?_))⟩
  generalize g.scratchLanes uniform addr size (s.allot g) nohelp = acc at hclear ⊢
  have hlimit : decide (cntLimit cls ≤ g.cnt cls) = false := decide_eq_false (Nat.not_le.2 hcnt)
  rcases hclear with rfl | ⟨hbad, hretained, hwaits⟩
  · simp [hlimit, State.scratchSegs, State.asleep]
  · simp [hlimit, hbad, hretained, hwaits, State.asleep, State.badScratch]

end

/-! ### Words that perform nothing (R244) -/

/-- The group with an operation counted that is complete at once. -/
def Group.idled (g : Group) (cls op : Nat) : Group := (g.count cls op).complete cls op

theorem Group.cnt_idled {g : Group} {cls : Nat} (op : Nat) (h : g.cnt cls = 0) : (g.idled cls op).cnt cls = 0 := by
  have heldest : Eldest (g.count cls op) cls op [] :=
    ⟨by rw [Group.outs_count, if_pos rfl, List.length_eq_zero_iff.1 h]; rfl, nofun⟩
  rw [Group.cnt, Group.idled, Group.outs_complete _ _ _ _ heldest]
  rfl

section
variable (g : Group) (cls op : Nat) (cl : Clause) (i : Instr)

theorem Group.idled_sameRegisters : SameRegisters g ((g.idled cls op).advance cl i .seq) := by
  rw [Group.advance_frame]
  exact ⟨rfl, rfl, rfl, rfl, rfl, rfl⟩

theorem Group.idled_pend : ((g.idled cls op).advance cl i .seq).pend = g.pend := by
  rw [Group.advance_frame]
  rfl

theorem Group.idled_hold : ((g.idled cls op).advance cl i .seq).hold = g.hold := by
  rw [Group.advance_frame]
  rfl

theorem Group.idled_cnt : g.cnt cls = 0 → ((g.idled cls op).advance cl i .seq).cnt cls = 0 := by
  rw [Group.advance_frame]
  exact Group.cnt_idled op

end

theorem Steady.idled {g : Group} (h : Steady g) (cls op : Nat) : Steady (g.idled cls op) := ⟨h.step, h.lanes⟩

theorem idleOp_eq {cls : Nat} {s : State} {gid : Nat} {g : Group} (hcnt : g.cnt cls < cntLimit cls) :
    idleOp cls s gid g = .done (s.fresh.2.setGroup gid (g.idled cls s.nextId)) .seq [] :=
  if_neg (Nat.not_le.2 hcnt)

theorem idles_of_idleOp {i : Instr} {s : State} {gid : Nat} {g : Group} {cl : Clause}
    {eff : State → Nat → Group → Clause → Eff} {ps : List (SramArray × Nat)} (hr : Ready i s gid g cl) (hs : Steady g)
    (hexec : exec i s = issue i eff s) (hcnt : g.cnt 0 < 63)
    (he : eff (s.setGroup gid g) gid g cl = idleOp cLD ((s.touch ps).setGroup gid g) gid g) : Idles i s gid g :=
  ⟨_, hexec.trans (issue_of_done hr (he.trans (idleOp_eq hcnt)) (Tab.get?_set_same ..) (hs.idled ..)),
    SameMemory.of_eq (State.completed_hbm ..) (State.completed_work ..) (State.completed_kennel ..),
    State.completed_groupIs ⟨g.idled_sameRegisters .., g.idled_pend .., g.idled_hold .., g.idled_cnt _ _ _ _⟩⟩

/-! ### Results on their way to their registers (R177, R179) -/

/-- The group that waits for a scratchpad result. -/
def Group.awaits (g : Group) (op : Nat) (regs : List PReg) (hold : Option Nat) : Group :=
  { (g.count cLD op).setPend op regs with hold := hold }

section
variable (g : Group) (op : Nat) (regs : List PReg) (hold : Option Nat) (cl : Clause) (i : Instr)

theorem Group.awaits_sameRegisters : SameRegisters g ((g.awaits op regs hold).advance cl i .seq) := by
  rw [Group.advance_frame]
  exact ⟨rfl, rfl, rfl, rfl, rfl, rfl⟩

theorem Group.awaits_cnt : ((g.awaits op regs hold).advance cl i .seq).cnt 0 = g.cnt 0 + 1 := by
  rw [Group.advance_frame]
  exact g.cnt_count cLD op

theorem Group.awaits_isPend : ∀ r ∈ regs, ((g.awaits op regs hold).advance cl i .seq).isPend r = true := by
  intro r h
  rw [Group.advance_frame]
  refine List.any_eq_true.2 ⟨⟨r, op, false, g.inHandler⟩, List.mem_append_right _ (List.mem_map.2 ⟨r, h, rfl⟩), ?_⟩
  simp

end

theorem scratchOp_results (s : State) (gid : Nat) (g : Group) (sz : MemSize) (d : Reg) (got : List (Nat × List Byte)) :
    ((scratchOp s gid g sz d got).accs.map fun x => (x.lane, x.got)) = got := by
  simp [scratchOp, Function.comp_def]

/-- A word has sent the result `o` from the state `u`, and its group waits for it. -/
structure ResultSent (u t : State) (gid : Nat) (g : Group) (o : MemOp) (regs : List PReg) : Prop where
  hbm : t.hbm = u.hbm
  work : t.work = u.work
  kennel : t.kennel = u.kennel
  op : Tab.get? t.ops.mem u.nextId = some o
  group : t.GroupIs gid fun g' => SameRegisters g g' ∧ g'.cnt 0 = g.cnt 0 + 1 ∧ ∀ r ∈ regs, g'.isPend r = true

theorem issue_of_result {i : Instr} {s u : State} {gid : Nat} {g : Group} {cl : Clause} {o : MemOp} {regs : List PReg}
    {hold : Option Nat} {eff : State → Nat → Group → Clause → Eff} (hr : Ready i s gid g cl) (hs : Steady g)
    (he : eff (s.setGroup gid g) gid g cl = .done (u.started u.dies gid o (g.awaits u.nextId regs hold)) .seq []) :
    Answers (issue i eff s) fun t => ResultSent u t gid g o regs :=
  ⟨_, issue_of_done hr he State.get?_started ⟨hs.step, hs.lanes⟩, State.completed_hbm .., State.completed_work ..,
    State.completed_kennel .., State.get?_started_mem,
    State.completed_groupIs ⟨g.awaits_sameRegisters .., g.awaits_cnt .., g.awaits_isPend _ _ _ _ _⟩⟩

end Sys2Proof.Machine
end

