-- ==== Sys2Proof/Proofs/ScratchWords.lean ====
section
/-!
PROOFS. LDS, STS and ATOMS (R88, R173 to R179, R244): what follows their access, the bytes they leave in the allotment and those
they send to their lanes.
-/

namespace Sys2Proof.Machine

/-! ### The three words, by their access and what follows it -/

/-- The addresses of LDS and STS (R176). -/
def Group.wordAddr (g : Group) (a : Reg) (imm : BitVec 8) (k : Nat) : Nat := (g.src a 0 k).toNat + 4 * imm.toNat

section
variable (s : State) (gid : Nat) (g : Group) (cl : Clause)

/-- LDS sends the words that its lanes read; it idles where none reads. -/
theorem ldsEff_eq {d : Reg} {uniform : Bool} (a : Reg) (imm : BitVec 8) (hd : d.isScalar = uniform)
    (hlanes : (if uniform then g.active else g.exec) ≠ 0#64) :
    ∃ k, ldsEff d a imm s gid g cl =
        s.scratchAccess g (g.accessLanes uniform) uniform (g.wordAddr a imm) 4 cLD false false k ∧
      (∀ u, k u [] = idleOp cLD u gid g) ∧
      ∀ u lanes, lanes ≠ [] → k u lanes = .done (u.started u.dies gid
        (scratchOp u gid g .b32 d (lanes.map fun k => (k, u.scratchRead g (g.wordAddr a imm k) 4)))
        (g.awaits u.nextId (g.pregs d 1) g.hold)) .seq [] := by
  subst hd
  exact ⟨_, if_neg (by simpa using hlanes), fun _ => rfl, fun _ _ hne => if_neg (by simpa using hne)⟩

/-- STS writes its lanes' words in ascending order, so that the highest lane's stands (R174). -/
theorem stsEff_eq (d a : Reg) (imm : BitVec 8) (hexec : g.exec ≠ 0#64) :
    ∃ k, stsEff d a imm s gid g cl = s.scratchAccess g (g.accessLanes false) false (g.wordAddr a imm) 4 cST true false k ∧
      ∀ u lanes, k u lanes = .done ((u.fresh.2.updBlock (g.block.getD 0) fun b =>
        b.writeLanes (lanes.map fun k => (g.wordAddr a imm k, natToBytes (g.src d 0 k).toNat 4))).setGroup gid
          (g.idled cST u.nextId)) .seq [] :=
  ⟨_, if_neg (by simpa using hexec), fun _ _ => rfl⟩

/-- The state with a block's allotment as ATOMS leaves it; one that releases has released (R210). -/
def State.atomsDone (u : State) (gid : Nat) (g : Group) (ord : Order) (scope : Scope) (b : Block) : State :=
  if ord.releases then (u.updBlock (g.block.getD 0) fun _ => b).released gid scope
  else u.updBlock (g.block.getD 0) fun _ => b

theorem State.atomsDone_frame (u : State) (gid : Nat) (g : Group) (ord : Order) (scope : Scope) (b : Block) :
    u.atomsDone gid g ord scope b = { u.updBlock (g.block.getD 0) fun _ => b with
      views := (u.atomsDone gid g ord scope b).views } := by
  cases ord <;> rfl

/-- What ATOMS sends: the old bytes of its own lanes, and what its helper lanes read afterwards (R88). -/
def Group.atomsSent (g : Group) (addr : Nat → Nat) (n : Nat) (lanes : List Nat) (r : List (Nat × List Byte) × Block) :
    List (Nat × List Byte) :=
  r.1 ++ (lanes.filter fun k => g.helpers.getLsbD k).map fun k => (k, r.2.read (addr k) n)

/-- ATOMS performs its lanes that are no helper lanes, and sends what they found; it idles where no lane accesses. -/
theorem atomsEff_eq (d vi : Reg) (aop : AtomOp) (ord : Order) (ty : AtomTy) (scope : Scope) (val : Reg)
    (hexec : g.exec ≠ 0#64) :
    let addr := fun k => (g.src vi 0 k).toNat
    ∃ k, atomsEff d vi aop ord ty scope val s gid g cl = s.scratchAccess g (g.accessLanes false) false addr ty.bytes cLD
        false (ord.releases && !s.releaseMet gid g scope) k ∧
      (∀ u, k u [] = idleOp cLD u gid g) ∧
      ∀ u lanes blk, lanes ≠ [] → u.block? g = some blk →
        let r := atomicLanes aop ty addr (g.atomData val aop ty) blk (lanes.filter fun k => !g.helpers.getLsbD k)
        let v := u.atomsDone gid g ord scope r.2
        k u lanes = .done (v.started v.dies gid (scratchOp v gid g ty.size d (g.atomsSent addr ty.bytes lanes r))
          (g.awaits v.nextId (g.pregs d ty.regs) (g.atomHold ord v.nextId))) .seq [] := by
  refine ⟨_, if_neg (by simpa using hexec), fun _ => rfl, fun u lanes blk hne hblk => ?_⟩
  refine (if_neg (by simpa using hne)).trans ?_
  rw [hblk]
  cases ord <;> rfl

end

/-! ### Bytes of an allotment (R174, R176) -/

theorem Block.read_write_one (b : Block) (a : Nat) (bs : List Byte) (x : Nat) :
    (b.write a bs).read x 1 = if a ≤ x ∧ x < a + bs.length then [bs.getD (x - a) scratchFill] else b.read x 1 := by
  have hread : ∀ c : Block, c.read x 1 = [memRead scratchFill c.scratch x] := fun _ => rfl
  rw [hread, hread, Block.write, memRead_memWriteBytes]
  split <;> rfl

theorem natToBytes_getD (w : Word) {j : Nat} (hj : j < 4) (d : Byte) :
    (natToBytes w.toNat 4).getD j d = w.extractLsb' (8 * j) 8 := by
  rw [natToBytes_eq_map, List.getD_eq_getElem?_getD, List.getElem?_map, List.getElem?_range hj, BitVec.extractLsb',
    Nat.shiftRight_eq_div_pow]
  rfl

/-- A byte after lanes have written their words is that of the last lane that names it, else it is unchanged. -/
theorem Block.read_writeLanes (b : Block) (addr : Nat → Nat) (word : Nat → Word) (lanes : List Nat) (x : Nat) :
    (b.writeLanes (lanes.map fun k => (addr k, natToBytes (word k).toNat 4))).read x 1 =
      (((lanes.filter fun k => decide (addr k ≤ x ∧ x < addr k + 4)).getLast?.map fun k =>
        [(word k).extractLsb' (8 * (x - addr k)) 8]).getD (b.read x 1)) := by
  induction lanes using List.reverseRecOn with
  | nil => rfl
  | append_singleton lanes k ih =>
    have hlast : b.writeLanes ((lanes ++ [k]).map fun k => (addr k, natToBytes (word k).toNat 4)) =
        (b.writeLanes (lanes.map fun k => (addr k, natToBytes (word k).toNat 4))).write (addr k)
          (natToBytes (word k).toNat 4) := by
      simp [Block.writeLanes]
    rw [hlast, Block.read_write_one, ih, List.filter_append]
    by_cases h : addr k ≤ x ∧ x < addr k + 4
    · rw [if_pos (by simpa [natToBytes] using h), natToBytes_getD _ (by omega)]
      simp [h]
    · rw [if_neg (by simpa [natToBytes] using h)]
      simp [h]

/-- One lane of ATOMS on what the lanes before it have found and left (R179). -/
def performAtom (aop : AtomOp) (ty : AtomTy) (addr : Nat → Nat) (data : Nat → List Byte)
    (st : List (Nat × List Byte) × Block) (k : Nat) : List (Nat × List Byte) × Block :=
  let old := st.2.read (addr k) ty.bytes
  (st.1 ++ [(k, old)], st.2.write (addr k) (natToBytes (atomOp aop ty (bytesToNat old)
    (bytesToNat ((data k).take ty.bytes)) (bytesToNat ((data k).drop ty.bytes))) ty.bytes))

theorem foldl_performAtom (aop : AtomOp) (ty : AtomTy) (addr : Nat → Nat) (data : Nat → List Byte) (lanes : List Nat)
    (st : List (Nat × List Byte) × Block) : lanes.foldl (performAtom aop ty addr data) st =
      (st.1 ++ (atomicLanes aop ty addr data st.2 lanes).1, (atomicLanes aop ty addr data st.2 lanes).2) := by
  induction lanes generalizing st with
  | nil => simp [atomicLanes]
  | cons k lanes ih => simp [ih, performAtom, atomicLanes]

theorem State.scratchRead_eq {s : State} {g : Group} {blk : Block} (h : s.block? g = some blk) (a n : Nat) :
    s.scratchRead g a n = blk.read a n := by
  rw [State.scratchRead, h]
  rfl

theorem State.get?_updBlock_own {s : State} {g : Group} {blk : Block} (h : s.block? g = some blk) (f : Block → Block) :
    Tab.get? (s.updBlock (g.block.getD 0) f).work.blocks (g.block.getD 0) = some (f blk) := by
  obtain ⟨b, hb, hblk⟩ := Option.bind_eq_some_iff.1 h
  rw [hb]
  exact (Tab.get?_upd ..).trans ((if_pos rfl).trans (congrArg (Option.map f) hblk))

/-! ### The words as they complete (R88, R244) -/

section
variable {s : State} {gid : Nat} {g : Group} {cl : Clause} {blk : Block}

theorem lds_scratchWord {d : Reg} {uniform : Bool} (a : Reg) (imm : BitVec 8) (hd : d.isScalar = uniform)
    (h : (if uniform then g.active else g.exec) ≠ 0#64) :
    ScratchWord (.lds d a imm) s gid g cl uniform (g.wordAddr a imm) 4 := by
  obtain ⟨k, he, -⟩ := ldsEff_eq (s.setGroup gid g) gid g cl a imm hd h
  exact ⟨_, _, _, _, k, rfl, he⟩

theorem sts_scratchWord (d a : Reg) (imm : BitVec 8) (h : g.exec ≠ 0#64) :
    ScratchWord (.sts d a imm) s gid g cl false (g.wordAddr a imm) 4 := by
  obtain ⟨k, he, -⟩ := stsEff_eq (s.setGroup gid g) gid g cl d a imm h
  exact ⟨_, _, _, _, k, rfl, he⟩

theorem atoms_scratchWord (d vi val : Reg) (op : AtomOp) (ord : Order) (ty : AtomTy) (scope : Scope) (h : g.exec ≠ 0#64) :
    ScratchWord (.atoms d vi op ord ty scope val) s gid g cl false (fun k => (g.src vi 0 k).toNat) ty.bytes := by
  obtain ⟨k, he, -⟩ := atomsEff_eq (s.setGroup gid g) gid g cl d vi op ord ty scope val h
  exact ⟨_, _, _, _, k, rfl, he⟩

/-- LDS or ATOMS that no lane accesses idles. -/
theorem idles_of_no_lane {i : Instr} {eff : State → Nat → Group → Clause → Eff} {addr : Nat → Nat} {size : Nat} {waits : Bool}
    (hr : Ready i s gid g cl) (hs : Steady g) (hexec : exec i s = issue i eff s) (hcnt : g.cnt 0 < 63) (hact : g.active = 0#64)
    (hnone : ∀ k, k < 64 → g.exec.getLsbD k = true → ¬(addr k % size = 0 ∧ addr k + size ≤ s.allot g))
    (he : ∃ k, eff (s.setGroup gid g) gid g cl = (s.setGroup gid g).scratchAccess g (g.accessLanes false) false addr size cLD
        false waits k ∧ ∀ u, k u [] = idleOp cLD u gid g) : Idles i s gid g := by
  obtain ⟨k, he, hidle⟩ := he
  have hempty : g.scratchLanes false addr size (s.allot g) false = [] := List.eq_nil_iff_forall_not_mem.2 fun k hk =>
    let ⟨⟨hlt, hex⟩, hin⟩ := Group.mem_scratchLanes.1 hk
    hnone k hlt hex hin
  obtain ⟨ps, hgo⟩ := State.scratchAccess_of_fits (gid := gid) (uniform := false) (waits := waits)
    (fun k _ h => by simp [hact] at h) hcnt (.inl hempty)
  refine idles_of_idleOp (ps := ps) hr hs hexec hcnt (he.trans ((hgo k).trans ?_))
  rw [hempty]
  exact hidle _

variable (hblk : s.block? g = some blk) (hbad : s.bad = []) (hawake : s.retained = [])
include hblk hbad hawake

/-- LDS sends each of its lanes the word at its address. -/
theorem lds_completes {d a : Reg} {uniform : Bool} {imm : BitVec 8}
    (hr : Ready (.lds d a imm) s gid g cl) (hs : Steady g) (hcnt : g.cnt 0 < 63) (hd : d.isScalar = uniform)
    (hlanes : (if uniform then g.active else g.exec) ≠ 0#64)
    (hfits : ∀ k, k < 64 → g.active.getLsbD k = true →
      fitsAllot (g.wordAddr a imm) 4 (s.allot g) (addressLane uniform k) = true)
    (hne : g.scratchLanes uniform (g.wordAddr a imm) 4 (s.allot g) false ≠ []) :
    Answers (exec (.lds d a imm) s) fun t => SameMemory s t ∧
      (∃ o, Tab.get? t.ops.mem s.nextId = some o ∧ o.group = gid ∧ o.kind = .value ∧
        (o.accs.map fun x => (x.lane, x.got)) = (g.scratchLanes uniform (g.wordAddr a imm) 4 (s.allot g) false).map
          fun k => (k, blk.read (g.wordAddr a imm k) 4)) ∧
      t.GroupIs gid fun g' => SameRegisters g g' ∧ g'.cnt 0 = g.cnt 0 + 1 ∧ ∀ r ∈ g.pregs d 1, g'.isPend r = true := by
  obtain ⟨k, he, -, hsend⟩ := ldsEff_eq (s.setGroup gid g) gid g cl a imm hd hlanes
  obtain ⟨ps, hgo⟩ := State.scratchAccess_of_fits (gid := gid) (nohelp := false) hfits hcnt (.inr ⟨hbad, hawake, rfl⟩)
  refine (issue_of_result hr hs (he.trans ((hgo k).trans (hsend _ _ hne)))).imp fun t h =>
    ⟨.of_eq h.hbm h.work h.kennel, ⟨_, h.op, rfl, rfl, ?_⟩, h.group⟩
  rw [scratchOp_results]
  exact List.map_congr_left fun k _ => congrArg (Prod.mk k) (State.scratchRead_eq hblk ..)

/-- STS leaves in the allotment the words of Exec's non-helper lanes. -/
theorem sts_completes {d a : Reg} {imm : BitVec 8}
    (hr : Ready (.sts d a imm) s gid g cl) (hs : Steady g) (hcnt : g.cnt 1 < 63) (hlanes : g.exec ≠ 0#64)
    (hfits : ∀ k, k < 64 → g.active.getLsbD k = true → fitsAllot (g.wordAddr a imm) 4 (s.allot g) k = true) :
    Answers (exec (.sts d a imm) s) fun t => t.hbm = s.hbm ∧
      (t.GroupIs gid fun g' => SameRegisters g g' ∧ (g.cnt 1 = 0 → g'.cnt 1 = 0)) ∧
      Tab.get? t.work.blocks (g.block.getD 0) = some (blk.writeLanes ((maskList g.active).map fun k =>
        (g.wordAddr a imm k, natToBytes (g.src d 0 k).toNat 4))) := by
  obtain ⟨k, he, hstore⟩ := stsEff_eq (s.setGroup gid g) gid g cl d a imm hlanes
  obtain ⟨ps, hgo⟩ := State.scratchAccess_of_fits (gid := gid) (uniform := false) (nohelp := true) hfits hcnt
    (.inr ⟨hbad, hawake, rfl⟩)
  rw [Group.scratchLanes_nohelp hfits] at hgo
  refine ⟨_, issue_of_done hr (he.trans ((hgo k).trans (hstore _ _))) (Tab.get?_set_same ..) (hs.idled ..),
    State.completed_hbm .., State.completed_groupIs ⟨g.idled_sameRegisters .., g.idled_cnt _ _ _ _⟩, ?_⟩
  rw [State.completed_work]
  exact State.get?_updBlock_own (s := (s.touch ps).setGroup gid g) hblk _

/-- ATOMS leaves in the allotment what its lanes make of it one after another, and sends each the bytes that it found. -/
theorem atoms_completes {d vi val : Reg} {op : AtomOp} {ord : Order} {ty : AtomTy} {scope : Scope}
    (hr : Ready (.atoms d vi op ord ty scope val) s gid g cl) (hs : Steady g) (hcnt : g.cnt 0 < 63)
    (hmet : ord.releases = true → (s.setGroup gid g).releaseMet gid g scope = true) :
    let addr := fun k => (g.src vi 0 k).toNat
    (∀ k, k < 64 → g.active.getLsbD k = true → fitsAllot addr ty.bytes (s.allot g) k = true) →
    g.scratchLanes false addr ty.bytes (s.allot g) false ≠ [] →
    let r := (maskList g.active).foldl (performAtom op ty addr (g.atomData val op ty)) ([], blk)
    Answers (exec (.atoms d vi op ord ty scope val) s) fun t => t.hbm = s.hbm ∧
      Tab.get? t.work.blocks (g.block.getD 0) = some r.2 ∧
      (∃ o, Tab.get? t.ops.mem s.nextId = some o ∧ o.kind = .value ∧ o.group = gid ∧
        (o.accs.map fun x => (x.lane, x.got)) =
          g.atomsSent addr ty.bytes (g.scratchLanes false addr ty.bytes (s.allot g) false) r) ∧
      t.GroupIs gid fun g' => g'.cnt 0 = g.cnt 0 + 1 ∧ ∀ p ∈ g.pregs d ty.regs, g'.isPend p = true := by
  intro addr hfits hne
  have hlanes : g.exec ≠ 0#64 := by
    obtain ⟨k, hk⟩ := List.exists_mem_of_ne_nil _ hne
    exact mask_ne_zero_iff.2 ⟨k, (Group.mem_scratchLanes.1 hk).1⟩
  have hwaits : (ord.releases && !(s.setGroup gid g).releaseMet gid g scope) = false := by
    cases hrel : ord.releases
    · rfl
    · simp [hmet hrel]
  obtain ⟨k, he, -, hsend⟩ := atomsEff_eq (s.setGroup gid g) gid g cl d vi op ord ty scope val hlanes
  obtain ⟨ps, hgo⟩ := State.scratchAccess_of_fits (gid := gid) (uniform := false) (nohelp := false) hfits hcnt
    (.inr ⟨hbad, hawake, hwaits⟩)
  have hmine : (g.scratchLanes false addr ty.bytes (s.allot g) false).filter (fun k => !g.helpers.getLsbD k) =
      maskList g.active := Group.scratchLanes_nohelp hfits
  have hdone := hsend ((s.touch ps).setGroup gid g) _ blk hne hblk
  rw [hmine] at hdone
  rw [foldl_performAtom]
  obtain ⟨t, ht, hsent⟩ := issue_of_result hr hs (he.trans ((hgo k).trans hdone))
  rw [State.atomsDone_frame] at hsent
  refine ⟨t, ht, hsent.hbm, ?_, ⟨_, hsent.op, rfl, rfl, ?_⟩, hsent.group.imp fun _ h => h.2⟩
  · rw [hsent.work]
    exact State.get?_updBlock_own (s := (s.touch ps).setGroup gid g) hblk _
  · exact scratchOp_results ..

end

end Sys2Proof.Machine

namespace Sys2Proof

open Machine

/-- Settles O32: a word that raises a fault is an access (lds_scratchWord, sts_scratchWord, atoms_scratchWord), which stops by
traps_misaligned or traps_outOfBounds; the others complete (lds_completes, sts_completes, atoms_completes) or idle. -/
theorem scratchAccesses : Obligations.ScratchAccesses := by
  refine ⟨fun s gid g cl blk d a imm => ?_, fun s gid g cl blk d vi val op ord ty scope => ?_⟩
  · intro addr inside fine hblk hbad hawake
    refine ⟨fun hr hs hcnt hv hsc => ?_, fun hr hs hcnt hd hexec hact hnone => ?_, fun hr hs hcnt hexec hfine => ?_,
      fun hr hd hany => ?_, fun hr hany => ?_, fun i hi hr haligned hany => ?_, fun hr hd hact => ?_⟩
    · cases hd : d.isScalar
      · obtain ⟨hsome, hfine⟩ := hv hd
        obtain ⟨k, hk, hexec, hin⟩ := hsome
        have hmem : k ∈ g.scratchLanes false (g.wordAddr a imm) 4 (s.allot g) false :=
          Group.mem_scratchLanes.2 ⟨⟨hk, hexec⟩, hin⟩
        exact lds_completes hblk hbad hawake hr hs hcnt hd (mask_ne_zero_iff.2 ⟨k, hk, hexec⟩)
          (Group.fitsAllot_of_fine hfine) (List.ne_nil_of_mem hmem)
      · obtain ⟨hact, hin⟩ := hsc hd
        have hmem : 0 ∈ g.scratchLanes true (g.wordAddr a imm) 4 (s.allot g) false :=
          List.mem_filter.2 ⟨List.mem_singleton_self 0, fitsAllot_eq_true.2 hin⟩
        exact lds_completes hblk hbad hawake hr hs hcnt hd hact (fun _ _ _ => fitsAllot_eq_true.2 hin)
          (List.ne_nil_of_mem hmem)
    · obtain ⟨k, he, hidle, -⟩ := ldsEff_eq (s.setGroup gid g) gid g cl a imm hd hexec
      exact idles_of_no_lane hr hs rfl hcnt hact hnone ⟨k, he, hidle⟩
    · obtain ⟨t, ht, hhbm, hgroup, hblocks⟩ := sts_completes hblk hbad hawake hr hs hcnt hexec (Group.fitsAllot_of_fine hfine)
      refine ⟨t, ht, hhbm, hgroup, _, hblocks, fun x => ?_⟩
      rw [Block.read_writeLanes blk (g.wordAddr a imm) fun k => g.src d 0 k]
      cases hlast : ((maskList g.active).filter fun k => decide (addr k ≤ x ∧ x < addr k + 4)).getLast? <;>
        exact congrArg (fun o : Option Nat => (o.map fun k => [(g.src d 0 k).extractLsb' (8 * (x - addr k)) 8]).getD
          (blk.read x 1)) hlast
    · exact traps_misaligned hr (lds_scratchWord a imm hd (Group.exec_ne_zero_of_active hany)) hany
    · exact traps_misaligned hr (sts_scratchWord d a imm (Group.exec_ne_zero_of_active hany)) hany
    · have hexec := Group.exec_ne_zero_of_active hany
      have hword : ScratchWord i s gid g cl false (g.wordAddr a imm) 4 := by
        rcases hi with rfl | ⟨rfl, hd⟩
        · exact sts_scratchWord d a imm hexec
        · exact lds_scratchWord a imm hd hexec
      exact traps_outOfBounds hr hword haligned hany
    · have hword : ScratchWord (.lds d a imm) s gid g cl true (g.wordAddr a imm) 4 := lds_scratchWord a imm hd hact
      obtain ⟨k, hk, hlane⟩ := mask_ne_zero_iff.1 hact
      refine ⟨fun hmis => ?_, fun haligned hout => ?_⟩
      · obtain ⟨m, hm, htraps⟩ := traps_misaligned hr hword ⟨k, hk, hlane, hmis⟩
        rwa [hm.eq_active hmis] at htraps
      · obtain ⟨m, hm, htraps⟩ := traps_outOfBounds hr hword (fun _ _ _ => haligned) ⟨k, hk, hlane, hout⟩
        rwa [hm.eq_active hout] at htraps
  · intro i addr n perform traps
    refine ⟨fun hr hany => ?_, fun hr haligned hany => ?_, fun hr hs hcnt hexec hact hnone => ?_,
      fun hr hs hblk hbad hawake hsome hcnt hfine hmet => ?_⟩
    · exact traps_misaligned hr (atoms_scratchWord d vi val op ord ty scope (Group.exec_ne_zero_of_active hany)) hany
    · exact traps_outOfBounds hr (atoms_scratchWord d vi val op ord ty scope (Group.exec_ne_zero_of_active hany)) haligned
        hany
    · obtain ⟨k, he, hidle, -⟩ := atomsEff_eq (s.setGroup gid g) gid g cl d vi op ord ty scope val hexec
      exact idles_of_no_lane hr hs rfl hcnt hact hnone ⟨k, he, hidle⟩
    · obtain ⟨k, hk, hexec, hin⟩ := hsome
      have hmem : k ∈ g.scratchLanes false addr n (s.allot g) false := Group.mem_scratchLanes.2 ⟨⟨hk, hexec⟩, hin⟩
      have h := atoms_completes hblk hbad hawake hr hs hcnt hmet
        (fun k hk hact => fitsAllot_eq_true.2 (hfine k hk hact)) (List.ne_nil_of_mem hmem)
      simp only [Group.atomsSent, g.filter_helpers_scratchLanes] at h
      exact h

end Sys2Proof
end

