-- ==== Sys2Proof/Proofs/CopyCompletion.lean ====
section
/-!
PROOFS. The end of a copy command (R259, R271 to R273, R370): what its post leaves of the state, and what its status
leaves in its group.
-/

namespace Sys2Proof.Machine

/-! ### What an event on a barrier leaves (R336 to R351) -/

/-- From `s` to `t` nothing has changed but the groups and the work, in which the barriers stand, and every group is as it was
but for its arrival records. -/
structure ChangesBarriers (s t : State) : Prop where
  rest : t = { s with groups := t.groups, work := t.work }
  groups : ∀ gid g, Tab.get? s.groups gid = some g →
    ∃ arrivals, Tab.get? t.groups gid = some { g with arrivals := arrivals }

theorem ChangesBarriers.refl (s : State) : ChangesBarriers s s := ⟨rfl, fun _ _ hg => ⟨_, hg⟩⟩

theorem ChangesBarriers.trans {s t u : State} (hst : ChangesBarriers s t) (htu : ChangesBarriers t u) :
    ChangesBarriers s u where
  rest := by rw [htu.rest, hst.rest]
  groups gid g hg := by
    obtain ⟨_, ht⟩ := hst.groups gid g hg
    obtain ⟨_, hu⟩ := htu.groups gid _ ht
    exact ⟨_, hu⟩

theorem State.setBar_changesBarriers (s : State) (id : BarId) (b : Barrier) : ChangesBarriers s (s.setBar id b) := by
  cases id <;> exact ⟨rfl, fun _ _ hg => ⟨_, hg⟩⟩

theorem State.clearArrivals_changesBarriers (s : State) (id : BarId) (gen : Nat) (p : Group → Bool) :
    ChangesBarriers s (s.clearArrivals id gen p) := by
  refine ⟨rfl, fun gid g hg => ?_⟩
  simp only [State.clearArrivals, Tab.get?_mapVals, hg, Option.map_some]
  split <;> exact ⟨_, rfl⟩

theorem State.completeBar_changesBarriers (s : State) (id : BarId) (b : Barrier) :
    ChangesBarriers s (s.completeBar id b) := by
  cases id with
  | block => exact (s.setBar_changesBarriers ..).trans (State.clearArrivals_changesBarriers ..)
  | gang l k ix => exact s.setBar_changesBarriers (.gang l k ix) _
  | grid l ix => exact s.setBar_changesBarriers (.grid l ix) _

theorem State.evalBar_changesBarriers (s : State) (id : BarId) : ChangesBarriers s (s.evalBar id) := by
  unfold State.evalBar
  split
  · exact .refl s
  split
  · exact .refl s
  split
  · exact s.setBar_changesBarriers ..
  · exact s.completeBar_changesBarriers ..

theorem State.barEvent_changesBarriers (s : State) (id : BarId) (e : Nat × Int) : ChangesBarriers s (s.barEvent id e) := by
  unfold State.barEvent
  split
  · exact .refl s
  split
  · exact s.setBar_changesBarriers ..
  · exact (s.setBar_changesBarriers ..).trans (State.evalBar_changesBarriers ..)

/-! ### A barrier's unit does not see what the engines hold -/

section
variable (s : State) (o : Ops) (id : BarId)

theorem State.setBar_setOps (b : Barrier) : (s.setOps o).setBar id b = (s.setBar id b).setOps o := by cases id <;> rfl

theorem State.bar?_setOps : (s.setOps o).bar? id = s.bar? id := by cases id <;> rfl

theorem State.completeBar_setOps (b : Barrier) : (s.setOps o).completeBar id b = (s.completeBar id b).setOps o := by
  cases id <;> rfl

theorem State.evalBar_setOps : (s.setOps o).evalBar id = (s.evalBar id).setOps o := by
  simp only [State.evalBar, State.bar?_setOps, State.setBar_setOps, State.completeBar_setOps]
  split
  · rfl
  · simp only [apply_ite (State.setOps · o)]

theorem State.barEvent_setOps (e : Nat × Int) : (s.setOps o).barEvent id e = (s.barEvent id e).setOps o := by
  simp only [State.barEvent, State.bar?_setOps, State.setBar_setOps, State.evalBar_setOps]
  split
  · rfl
  · simp only [apply_ite (State.setOps · o)]

end

/-! ### The post (R259, R272) -/

/-- The code in a command's status (R271). -/
def CopyCmd.outcome (c : CopyCmd) : Nat := c.code.getD c.clean

/-- The state once a command has posted its bytes, which it does once, and not after a fault that moves nothing. -/
def State.postedBy (s : State) (c : CopyCmd) : State :=
  match c.post with
  | some b => if c.posted || 0xA ≤ c.outcome then s else s.barEvent b (2, c.next * 64)
  | none => s

theorem State.postedBy_changesBarriers (s : State) (c : CopyCmd) : ChangesBarriers s (s.postedBy c) := by
  unfold State.postedBy
  split
  · split
    · exact .refl s
    · exact s.barEvent_changesBarriers ..
  · exact .refl s

theorem State.postedBy_setOps (s : State) (o : Ops) (c : CopyCmd) : (s.setOps o).postedBy c = (s.postedBy c).setOps o := by
  unfold State.postedBy
  split
  · simp only [State.barEvent_setOps, apply_ite (State.setOps · o)]
  · rfl

theorem State.postedBy_work (s : State) (c : CopyCmd) : (s.postedBy c).work = match c.post with
    | some b => if c.posted = false ∧ c.outcome < 0xA then (s.barEvent b (2, c.next * 64)).work else s.work
    | none => s.work := by
  unfold State.postedBy
  cases c.post with
  | none => rfl
  | some b =>
    have hskip : (c.posted || decide (0xA ≤ c.outcome)) = true ↔ ¬(c.posted = false ∧ c.outcome < 0xA) := by
      rw [Bool.or_eq_true, decide_eq_true_iff, not_and_or, Bool.not_eq_false, Nat.not_lt]
    by_cases hpost : c.posted = false ∧ c.outcome < 0xA
    · exact (congrArg State.work (if_neg fun h => hskip.1 h hpost)).trans (if_pos hpost).symm
    · exact (congrArg State.work (if_pos (hskip.2 hpost))).trans (if_neg hpost).symm

/-- A report is owed after a barrier's event as before it (R370). -/
theorem ChangesBarriers.reportOwed {s t : State} {gid : Nat} {g : Group} (h : ChangesBarriers s t)
    (hg : Tab.get? s.groups gid = some g) (id sd : Nat) :
    t.reportOwed id (.scalar gid sd) = s.reportOwed id (.scalar gid sd) := by
  obtain ⟨arrivals, ht⟩ := h.groups gid g hg
  simp only [State.reportOwed, CopyOwner.group, Option.bind_some, hg, ht]

/-! ### The status in the group (R271 to R273) -/

/-- The status word of a command at its end. -/
def CopyCmd.status (c : CopyCmd) : Word := copyStatus c.outcome c.engine (if 0xA ≤ c.outcome then 0 else c.next)

theorem CopyCmd.status_eq (c : CopyCmd) : c.status =
    BitVec.ofNat 32 (c.outcome * 2 ^ 28 + c.engine * 2 ^ 24 + (if 0xA ≤ c.outcome then 0 else c.next % 2 ^ 24)) := by
  unfold CopyCmd.status copyStatus loWord
  split <;> rfl

/-- The group that counted a command when its status lands. -/
def Group.copyEnded (g : Group) (id : Nat) (c : CopyCmd) : Group :=
  let g := (g.landScalar id c.status).complete cCP id
  if 0x8 ≤ c.outcome then { g with cpfault := loWord (if 0xA ≤ c.outcome then 0xFFFFFFFF else c.elem) } else g

theorem Group.landResult_cpfault (g : Group) (op : Nat) (w : Target × Word) : (g.landResult op w).cpfault = g.cpfault := by
  unfold Group.landResult
  split
  · split <;> rfl
  · rw [Group.land_frame]

theorem Group.landScalar_cpfault (g : Group) (op : Nat) (w : Word) : (g.landScalar op w).cpfault = g.cpfault := by
  unfold Group.landScalar
  split
  · exact g.landResult_cpfault ..
  · rfl

theorem Group.copyEnded_cpfault (g : Group) (id : Nat) (c : CopyCmd) : (g.copyEnded id c).cpfault =
    if c.outcome < 8 then g.cpfault else if 0xA ≤ c.outcome then 0xFFFFFFFF#32 else BitVec.ofNat 32 c.elem := by
  unfold Group.copyEnded
  by_cases hfault : c.outcome < 8
  · rw [if_neg (by omega), if_pos hfault]
    exact g.landScalar_cpfault ..
  · rw [if_pos (by omega), if_neg hfault]
    exact apply_ite loWord ..

theorem Group.copyEnded_landed {g : Group} {id sd : Nat} {rest : List (Nat × Bool)} (howes : OwesScalar g id sd)
    (heldest : Eldest g 2 id rest) (c : CopyCmd) : StatusLanded g (g.copyEnded id c) 2 id sd rest c.status := by
  have hland := Group.statusLanded howes heldest c.status
  unfold Group.copyEnded
  dsimp only
  split
  · exact ⟨hland.counter, hland.pending, hland.scalar, hland.others, hland.vectors⟩
  · exact hland

/-- A group's arrival records have no part in it. -/
theorem StatusLanded.of_arrivals {g g' : Group} {arrivals : Tab Nat} {c op sd : Nat} {rest : List (Nat × Bool)} {w : Word}
    (h : StatusLanded { g with arrivals := arrivals } g' c op sd rest w) : StatusLanded g g' c op sd rest w :=
  ⟨h.counter, h.pending, h.scalar, h.others, h.vectors⟩

/-! ### COPY_COMPLETE -/

/-- The issuer of a command hears of its end (R271, R278, R386). -/
def State.copyTold (s : State) (id : Nat) (c : CopyCmd) : State :=
  match c.owner with
  | .scalar gid _ => s.updGroup gid fun g => g.copyEnded id c
  | .raw gid q user => s.updGroup gid fun g => g.popRecord q [c.status, user]
  | .program b sub => s.subDone b sub (decide (0x8 ≤ c.outcome))

theorem State.copyTold_scalar {c : CopyCmd} {gid sd : Nat} (h : c.owner = .scalar gid sd) (s : State) (id : Nat) :
    s.copyTold id c = s.updGroup gid fun g => g.copyEnded id c := by
  unfold State.copyTold
  rw [h]

/-- The engines' work with a command marked as having made its post. -/
def Ops.copyPosted (o : Ops) (id : Nat) (c : CopyCmd) : Ops :=
  { o with copies := Tab.set o.copies id { c with posted := true } }

/-- The engines' work without a command. -/
def Ops.copyGone (o : Ops) (id : Nat) : Ops := { o with copies := Tab.del o.copies id }

section
variable {s : State} {id : Nat} {c : CopyCmd}

/-- COPY_COMPLETE of a command whose lines are done makes the post, and ends the command where no report is owed. -/
theorem State.copyComplete_done (hc : Tab.get? s.ops.copies id = some c) (hs : c.started = true)
    (hdone : c.code ≠ none ∨ c.total ≤ c.next) (hord : s.ownerOrdered id c.owner = true) :
    s.copyComplete id =
      if ((s.postedBy c).setOps (s.ops.copyPosted id c)).reportOwed id c.owner then
        (s.postedBy c).setOps (s.ops.copyPosted id c)
      else ((s.postedBy c).setOps ((s.ops.copyPosted id c).copyGone id)).copyTold id c := by
  have hdue : (c.code.isNone && decide (c.next < c.total)) = false := by
    rcases hdone with hcode | htotal
    · simp [hcode]
    · simp [htotal]
  have hmodel : s.copyComplete id =
      let u := (s.setOps (s.ops.copyPosted id c)).postedBy c
      if u.reportOwed id c.owner then u else (u.setOps (u.ops.copyGone id)).copyTold id c := by
    unfold State.copyComplete
    rw [hc]
    exact if_neg (by simp [hs, hdue, hord])
  rw [hmodel, State.postedBy_setOps]
  rfl

/-- What holds after COPY_COMPLETE whatever segments are touched holds of its answer, where nothing is in retention. -/
theorem answers_copyComplete {P : State → Prop} (hawake : s.retained = []) (h : ∀ ps, P ((s.copyComplete id).touch ps)) :
    Answers (exec (.copyComplete id) s) P := by
  obtain ⟨ps, hland⟩ := s.landing_awake (s.copyComplete id) (fun _ => false) hawake
  exact ⟨_, congrArg Host.Outcome.next hland, h ps⟩

end

end Sys2Proof.Machine

namespace Sys2Proof

open Machine

/-- Settles O36: copyComplete_done gives the state with and without an owed report; the post leaves the group's registers
(postedBy_changesBarriers), in which the status lands (copyEnded_landed, copyEnded_cpfault). -/
theorem copiesComplete : Obligations.CopiesComplete := by
  intro s id c gid sd g rest hc howner hg hs hdone hord howes heldest hawake
  have hbars := s.postedBy_changesBarriers c
  have hhbm : (s.postedBy c).hbm = s.hbm := by rw [hbars.rest]
  have howed : ((s.postedBy c).setOps (s.ops.copyPosted id c)).reportOwed id c.owner = s.reportOwed id c.owner := by
    rw [howner]
    exact hbars.reportOwed hg id sd
  have hend := State.copyComplete_done hc hs hdone hord
  rw [howed] at hend
  obtain ⟨arrivals, hg'⟩ := hbars.groups gid g hg
  refine ⟨fun hreport => answers_copyComplete hawake fun ps => ?_,
    fun hreport => answers_copyComplete hawake fun ps => ?_⟩
  · rw [hend, if_pos hreport]
    exact ⟨hhbm, s.postedBy_work c, Tab.get?_set_same .., _, hg', rfl, rfl, rfl⟩
  · rw [hreport, if_neg Bool.false_ne_true, State.copyTold_scalar howner] at hend
    have hlanded : Tab.get? (s.copyComplete id).groups gid = some ({ g with arrivals := arrivals }.copyEnded id c) := by
      rw [hend, State.updGroup_groups, Tab.get?_upd, if_pos rfl]
      exact congrArg _ hg'
    have hstatus := Group.copyEnded_landed (g := { g with arrivals := arrivals }) howes ⟨heldest.first, heldest.once⟩ c
    rw [c.status_eq] at hstatus
    refine ⟨?_, ?_, ?_, _, hlanded, hstatus.of_arrivals, Group.copyEnded_cpfault ..⟩ <;> rw [hend]
    · exact (Tab.get?_del ..).trans (if_pos rfl)
    · exact hhbm
    · exact s.postedBy_work c

end Sys2Proof
end

