-- ==== Sys2Proof/Proofs/MatrixIssue.lean ====
section
/-!
PROOFS. Matrix-engine commands at issue (R284, R288 to R291, R293, R298, R301, R303): what one captures when it is accepted,
and the faults of a parameter block and of a tile transfer.
-/

namespace Sys2Proof.Machine

/-! ### Acceptance (R243, R284) -/

/-- The group with matrix command `op` counted and its destinations pending. -/
def Group.commands (g : Group) (op : Nat) (regs : List PReg) : Group := (g.count cTL op).setPend op regs

section
variable (g : Group) (op : Nat) (regs : List PReg) (cl : Clause) (i : Instr)

theorem Group.commands_sameRegisters : SameRegisters g ((g.commands op regs).advance cl i .seq) := by
  rw [Group.advance_frame]
  exact ⟨rfl, rfl, rfl, rfl, rfl, rfl⟩

theorem Group.commands_cnt : ((g.commands op regs).advance cl i .seq).cnt cTL = g.cnt cTL + 1 := by
  rw [Group.advance_frame]
  exact g.cnt_count cTL op

theorem Group.commands_isPend : ∀ r ∈ regs, ((g.commands op regs).advance cl i .seq).isPend r = true := by
  intro r h
  rw [Group.advance_frame]
  refine List.any_eq_true.2 ⟨⟨r, op, false, g.inHandler⟩, List.mem_append_right _ (List.mem_map.2 ⟨r, h, rfl⟩), ?_⟩
  simp

end

/-- The command that a group gives its core's engine. -/
def State.matCmd (s : State) (gid : Nat) (g : Group) (tile : Nat) (op : MatOp) : MatCmd :=
  ⟨gid, g.core, g.block.getD 0, s.jobOf g, tile, op, g.width⟩

theorem State.acceptMat_of_room {s : State} {g : Group} (gid tile : Nat) (op : MatOp) (regs : List PReg)
    (hcnt : g.cnt cTL < 15) (hroom : s.matsOf g.core < 16) : s.acceptMat gid g tile op regs =
      .done ((s.fresh.2.setOps { s.ops with mats := Tab.set s.ops.mats s.nextId (s.matCmd gid g tile op) }).setGroup gid
        (g.commands s.nextId regs)) .seq [] := by
  have hfull : ¬Config.matrixQueue ≤ s.matsOf g.core := Nat.not_le.2 hroom
  exact if_neg (by simp [hcnt.ne, hfull])

/-- The state has accepted the command as its next operation. -/
def TakesCommand (s t : State) (gid : Nat) (g : Group) (tile : Nat) (op : MatOp) (regs : List PReg) : Prop :=
  Accepted s t gid g cTL regs ∧ Tab.get? t.ops.mats s.nextId = some (s.matCmd gid g tile op)

section
variable {i : Instr} {s : State} {gid : Nat} {g : Group} {cl : Clause} {eff : State → Nat → Group → Clause → Eff}

/-- A word whose meaning is to give the engine a command, once some segments are accessed, does so where there is room. -/
theorem takesCommand_of_acceptMat {ps : List (SramArray × Nat)} {tile : Nat} {op : MatOp} {regs : List PReg}
    (hr : Ready i s gid g cl) (hs : Steady g) (hcnt : g.cnt cTL < 15) (hroom : s.matsOf g.core < 16)
    (hexec : exec i s = issue i eff s)
    (he : eff (s.setGroup gid g) gid g cl = ((s.setGroup gid g).touch ps).acceptMat gid g tile op regs) :
    Answers (exec i s) fun t => TakesCommand s t gid g tile op regs := by
  have hdone := he.trans (State.acceptMat_of_room gid tile op regs hcnt hroom)
  refine ⟨_, hexec.trans (issue_of_done hr hdone (Tab.get?_set_same ..) ⟨hs.step, hs.lanes⟩), ⟨?_, ?_⟩, ?_⟩
  · exact SameMemory.of_eq (State.completed_hbm ..) (State.completed_work ..) (State.completed_kennel ..)
  · exact State.completed_groupIs ⟨g.commands_sameRegisters .., g.commands_cnt .., g.commands_isPend _ _ _ _⟩
  · rw [State.completed_ops]
    exact Tab.get?_set_same ..

/-- The meaning of the register transfers, ACCCLR and ACCREL (R298, R303): the command is given at once, where a lane of Exec
is no helper lane. -/
def commandEff (tile : Nat) (op : Group → MatOp) (regs : Group → List PReg) (s : State) (gid : Nat) (g : Group)
    (_ : Clause) : Eff :=
  if g.active == 0#64 then doneG s gid g .seq else s.acceptMat gid g tile (op g) (regs g)

theorem takesCommand_of_commandEff {tile : Nat} {op : Group → MatOp} {regs : Group → List PReg}
    (hr : Ready i s gid g cl) (hs : Steady g) (hact : g.active ≠ 0#64) (hcnt : g.cnt cTL < 15) (hroom : s.matsOf g.core < 16)
    (hexec : exec i s = issue i (commandEff tile op regs) s) :
    Answers (exec i s) fun t => TakesCommand s t gid g tile (op g) (regs g) :=
  takesCommand_of_acceptMat (ps := []) hr hs hcnt hroom hexec (if_neg (by simpa using hact))

/-- A word whose meaning comes to a fault other than that of an extent raises it. -/
theorem traps_of_eff {c : Cause} (hr : Ready i s gid g cl) (hexec : exec i s = issue i eff s)
    (he : eff (s.setGroup gid g) gid g cl = .trap c) (hcode : c.code ≠ 0x08) : Traps i s gid cl c := by
  rw [Traps, hexec, issue_of_trap hr he, if_neg hcode]

end

/-! ### The parameter block (R290, R291) -/

section
variable (fmt : MmaFmt) (kb allot : Nat) (ws : List Word)

/-- A reserved bit is set, or the formats do not pair. -/
def ParamWrong : Prop :=
  wnat ws 1 / 2 ^ 21 ≠ 0 ∨ wnat ws 3 / 2 ^ 16 ≠ 0 ∨ (∃ k, k < 4 ∧ wnat ws (4 + k) ≠ 0) ∨
    pairsWith fmt (pFmt ws) = false ∨ (pPlane ws = true ∧ blockFmt (pFmt ws) = false) ∨
    (pPlane ws = false ∧ (wnat ws 2 ≠ 0 ∨ pPlanePitch ws ≠ 0))

/-- An address or a pitch is no multiple of 4. -/
def ParamUnaligned : Prop :=
  wnat ws 0 % 4 ≠ 0 ∨ pPitch ws % 4 ≠ 0 ∨ wnat ws 2 % 4 ≠ 0 ∨ pPlanePitch ws % 4 ≠ 0

/-- The last column of B or of its scales ends beyond the allotment. -/
def ColumnsBeyond : Prop :=
  allot < wnat ws 0 + 63 * pPitch ws + colBytes (pFmt ws) kb (pPlane ws) ∨
    (pPlane ws = true ∧ allot < wnat ws 2 + 63 * pPlanePitch ws + 2 * kb)

theorem wnat_lt (k : Nat) : wnat ws k < 2 ^ 32 := (ws.getD k 0#32).isLt

theorem pPitch_eq : pPitch ws = wnat ws 1 % 2 ^ 16 := by rw [pPitch, bitsOf_eq, Nat.pow_zero, Nat.div_one]
theorem pPlanePitch_eq : pPlanePitch ws = wnat ws 3 % 2 ^ 16 := by
  rw [pPlanePitch, bitsOf_eq, Nat.pow_zero, Nat.div_one]
theorem pFmt_eq : pFmt ws = wnat ws 1 / 2 ^ 16 % 2 ^ 4 := bitsOf_eq ..

variable {fmt kb allot ws}

theorem paramBad_iff : paramBad fmt ws = true ↔ ParamWrong fmt ws := by
  have h1 : bitsOf (wnat ws 1) 21 11 = wnat ws 1 / 2 ^ 21 := by
    have := wnat_lt ws 1
    rw [bitsOf_eq]
    omega
  have h3 : bitsOf (wnat ws 3) 16 16 = wnat ws 3 / 2 ^ 16 := by
    have := wnat_lt ws 3
    rw [bitsOf_eq]
    omega
  simp only [paramBad, ParamWrong, h1, h3, Bool.or_eq_true, Bool.and_eq_true, Bool.not_eq_true', decide_eq_true_eq,
    List.any_eq_true, List.mem_range, or_assoc]

theorem unaligned_iff :
    ([wnat ws 0, pPitch ws, wnat ws 2, pPlanePitch ws].any fun x => decide (x % 4 ≠ 0)) = true ↔ ParamUnaligned ws := by
  simp [ParamUnaligned]

theorem beyond_iff :
    (decide (allot < wnat ws 0 + 63 * pPitch ws + colBytes (pFmt ws) kb (pPlane ws)) ||
      (pPlane ws && decide (allot < wnat ws 2 + 63 * pPlanePitch ws + 2 * kb))) = true ↔ ColumnsBeyond kb allot ws := by
  simp [ColumnsBeyond]

/-! The faults of R291 in their order. -/

theorem mmaFault_of_wrong (h : ParamWrong fmt ws) (bad : Mask) : mmaFault fmt kb allot ws bad = some (.plain 0x0B) :=
  if_pos (paramBad_iff.2 h)

section
variable (hright : ¬ParamWrong fmt ws)
include hright

theorem mmaFault_of_unaligned (h : ParamUnaligned ws) (bad : Mask) :
    mmaFault fmt kb allot ws bad = some (.plain 0x09) :=
  (if_neg (mt paramBad_iff.1 hright)).trans (if_pos (unaligned_iff.2 h))

variable (haligned : ¬ParamUnaligned ws)
include haligned

theorem mmaFault_of_beyond (h : ColumnsBeyond kb allot ws) (bad : Mask) :
    mmaFault fmt kb allot ws bad = some (.plain 0x07) :=
  (if_neg (mt paramBad_iff.1 hright)).trans ((if_neg (mt unaligned_iff.1 haligned)).trans (if_pos (beyond_iff.2 h)))

theorem mmaFault_of_badMeta (hinside : ¬ColumnsBeyond kb allot ws) {bad : Mask} (hbad : bad ≠ 0#64) :
    mmaFault fmt kb allot ws bad = some (.at 0x0A bad) :=
  (if_neg (mt paramBad_iff.1 hright)).trans ((if_neg (mt unaligned_iff.1 haligned)).trans
    ((if_neg (mt beyond_iff.1 hinside)).trans (if_pos (bne_iff_ne.2 hbad))))

end

end

/-! ### MMA (R288, R289, R291, R293) -/

/-- The lanes whose sparse metadata is malformed. -/
def Group.badMeta (g : Group) (m : Option Reg) (kb : Nat) : Mask :=
  match m with
  | some r => maskOf fun k => g.active.getLsbD k && metaBad g r kb k
  | none => 0#64

theorem Group.names_badMeta (g : Group) (r : Reg) (kb : Nat) :
    g.Names (g.badMeta (some r) kb) fun k => metaBad g r kb k = true := by
  intro k hk
  rw [Group.badMeta, getLsbD_maskOf, decide_eq_true hk, Bool.true_and, Bool.and_eq_true]

theorem Group.Names.unique {g : Group} {m m' : Mask} {p : Nat → Prop} (h : g.Names m p) (h' : g.Names m' p) : m = m' :=
  BitVec.eq_of_getLsbD_eq fun k hk => Bool.eq_iff_iff.2 ((h k hk).trans (h' k hk).symm)

theorem Group.badMeta_eq_zero {g : Group} {m : Option Reg} {kb : Nat}
    (h : ∀ r, m = some r → ∀ k, k < 64 → g.active.getLsbD k = true → metaBad g r kb k = false) : g.badMeta m kb = 0#64 := by
  cases m with
  | none => rfl
  | some r =>
    by_contra hne
    obtain ⟨k, hk, hact, hbad⟩ := (g.names_badMeta r kb).ne_zero_iff.1 hne
    exact Bool.false_ne_true ((h r rfl k hk hact).symm.trans hbad)

/-- The words of the parameter block that scalar `b` gives the address of. -/
def State.paramWords (s : State) (g : Group) (b : Reg) : List Word := bytesToWords (s.scratchRead g (g.sval b 0).toNat 32)

/-- The rows of A as an MMA captures them: none for a lane outside Exec. -/
def Group.aRows (g : Group) (fmt : MmaFmt) (a : Reg) (m : Option Reg) (kb : Nat) : List (Option (List FVal)) :=
  (List.range g.width).map fun r => if g.active.getLsbD r then some (aRow g fmt a m kb r) else none

/-- The segments of the parameter block. -/
def State.paramSegs (s : State) (g : Group) (b : Reg) : List (SramArray × Nat) :=
  s.rangeSegs (g.block.getD 0) [((g.sval b 0).toNat, 32)]

section
variable {i : Instr} {s : State} {gid : Nat} {g : Group} {cl : Clause} {tile : Nat} {a b : Reg} {zf : Bool} {fmt : MmaFmt}
  {m : Option Reg} {kb : Nat}

/-- What an MMA goes by in the state that holds the landed results is what it goes by in the state itself. -/
theorem mmaEff_eq (hact : g.active ≠ 0#64) : mmaEff tile a b zf fmt m kb (s.setGroup gid g) gid g cl =
    if (g.sval b 0).toNat % 32 ≠ 0 then .trap (.plain 0x09)
    else if s.allot g < (g.sval b 0).toNat + 32 then .trap (.plain 0x07)
    else if s.asleep (s.paramSegs g b) then .wait
    else if s.badScratch (g.block.getD 0) (g.sval b 0).toNat 32 then .kill stSram
    else match mmaFault fmt kb (s.allot g) (s.paramWords g b) (g.badMeta m kb) with
      | some c => .trap c
      | none => ((s.setGroup gid g).touch (s.paramSegs g b)).acceptMat gid g tile
          (.mma fmt zf kb (g.aRows fmt a m kb) (s.paramWords g b)) [] := by
  have hsome : ¬(g.active == 0#64) = true := by simpa using hact
  exact if_neg hsome

theorem mmaEff_of_block (hact : g.active ≠ 0#64) (halign : (g.sval b 0).toNat % 32 = 0)
    (hfits : (g.sval b 0).toNat + 32 ≤ s.allot g) (hbad : s.bad = []) (hawake : s.retained = []) :
    mmaEff tile a b zf fmt m kb (s.setGroup gid g) gid g cl =
      match mmaFault fmt kb (s.allot g) (s.paramWords g b) (g.badMeta m kb) with
      | some c => .trap c
      | none => ((s.setGroup gid g).touch (s.paramSegs g b)).acceptMat gid g tile
          (.mma fmt zf kb (g.aRows fmt a m kb) (s.paramWords g b)) [] := by
  have hasleep : ¬s.asleep (s.paramSegs g b) = true := by simp [State.asleep, hawake]
  have hgood : ¬s.badScratch (g.block.getD 0) (g.sval b 0).toNat 32 = true := by simp [State.badScratch, hbad]
  rw [mmaEff_eq hact, if_neg (not_not.2 halign), if_neg (Nat.not_lt.2 hfits), if_neg hasleep, if_neg hgood]

variable (hr : Ready i s gid g cl) (hexec : exec i s = issue i (mmaEff tile a b zf fmt m kb) s) (hact : g.active ≠ 0#64)
include hr hexec hact

theorem mma_traps_misaligned (halign : (g.sval b 0).toNat % 32 ≠ 0) : Traps i s gid cl (.plain 0x09) :=
  traps_of_eff hr hexec ((mmaEff_eq hact).trans (if_pos halign)) (by decide)

theorem mma_traps_outOfBounds (halign : (g.sval b 0).toNat % 32 = 0) (hout : s.allot g < (g.sval b 0).toNat + 32) :
    Traps i s gid cl (.plain 0x07) :=
  traps_of_eff hr hexec ((mmaEff_eq hact).trans ((if_neg (not_not.2 halign)).trans (if_pos hout))) (by decide)

section
variable (halign : (g.sval b 0).toNat % 32 = 0) (hfits : (g.sval b 0).toNat + 32 ≤ s.allot g) (hbad : s.bad = [])
  (hawake : s.retained = [])
include halign hfits hbad hawake

theorem mma_traps_fault {c : Cause} (hfault : mmaFault fmt kb (s.allot g) (s.paramWords g b) (g.badMeta m kb) = some c)
    (hcode : c.code ≠ 0x08) : Traps i s gid cl c :=
  traps_of_eff hr hexec (by rw [mmaEff_of_block hact halign hfits hbad hawake, hfault]) hcode

theorem mma_taken (hs : Steady g) (hcnt : g.cnt cTL < 15) (hroom : s.matsOf g.core < 16)
    (hfault : mmaFault fmt kb (s.allot g) (s.paramWords g b) (g.badMeta m kb) = none) :
    Answers (exec i s) fun t =>
      TakesCommand s t gid g tile (.mma fmt zf kb (g.aRows fmt a m kb) (s.paramWords g b)) [] :=
  takesCommand_of_acceptMat hr hs hcnt hroom hexec (by rw [mmaEff_of_block hact halign hfits hbad hawake, hfault])

end

end

/-! ### Tile transfers (R301) -/

/-- The command of a transfer of n rows. -/
def moveOp (store : Bool) (fmt : TileFmt) (addr pitch rows : Nat) : MatOp :=
  if store then .st fmt addr pitch rows else .ld fmt addr pitch rows

section
variable {i : Instr} {s : State} {gid : Nat} {g : Group} {cl : Clause} {store : Bool} {a b : Reg} {fmt : TileFmt}
  {rows : BitVec 6} {acc : BitVec 9}

theorem accMoveEff_eq (hact : g.active ≠ 0#64) : accMoveEff store a b fmt rows acc (s.setGroup gid g) gid g cl =
    if (g.sval a 0).toNat % 4 ≠ 0 ∨ (g.sval b 0).toNat % 4 ≠ 0 then .trap (.plain 0x09)
    else if s.allot g < (g.sval a 0).toNat + rows.toNat * (g.sval b 0).toNat + rowB fmt then .trap (.plain 0x07)
    else (s.setGroup gid g).acceptMat gid g acc.toNat
      (moveOp store fmt (g.sval a 0).toNat (g.sval b 0).toNat (rows.toNat + 1)) [] := by
  rw [accMoveEff, if_neg (by simpa using hact)]
  simp only [Bool.or_eq_true, decide_eq_true_eq]
  rfl

theorem accMoveEff_of_fits (hact : g.active ≠ 0#64) (ha : (g.sval a 0).toNat % 4 = 0) (hb : (g.sval b 0).toNat % 4 = 0)
    (hfits : (g.sval a 0).toNat + rows.toNat * (g.sval b 0).toNat + rowB fmt ≤ s.allot g) :
    accMoveEff store a b fmt rows acc (s.setGroup gid g) gid g cl = (s.setGroup gid g).acceptMat gid g acc.toNat
      (moveOp store fmt (g.sval a 0).toNat (g.sval b 0).toNat (rows.toNat + 1)) [] := by
  rw [accMoveEff_eq hact, if_neg (by simp [ha, hb]), if_neg (Nat.not_lt.2 hfits)]

end

end Sys2Proof.Machine

namespace Sys2Proof

open Machine

/-- Settles O48: a parameter block raises the faults that mmaFault has in their order (mma_traps_fault), a transfer those of
accMoveEff_eq; a word that raises none gives its command to the engine (mma_taken, takesCommand_of_acceptMat). -/
theorem matrixCommandsIssue : Obligations.MatrixCommandsIssue := by
  refine ⟨fun s gid g cl hact => ⟨fun lo a b hi ru zf fmt m kb i hform hr => ?_, fun a b fmt rows acc i hform hr => ?_⟩,
    fun s gid g cl hs hact hcnt hroom => ?_⟩
  · intro p ws pitch f plane planePitch wrong unaligned beyond
    have hexec : exec i s = issue i (mmaEff (lo.toNat + 256 * hi.toNat) a b zf fmt m kb.toNat) s := by
      cases m <;> rw [hform] <;> rfl
    have hwrong : wrong ↔ ParamWrong fmt ws := by
      simp only [wrong, ParamWrong, plane, f, planePitch, pFmt_eq, pPlanePitch_eq, pPlane]
    have hunaligned : unaligned ↔ ParamUnaligned ws := by
      simp only [unaligned, ParamUnaligned, pitch, planePitch, pPitch_eq, pPlanePitch_eq]
    have hbeyond : beyond ↔ ColumnsBeyond kb.toNat (s.allot g) ws := by
      simp only [beyond, ColumnsBeyond, pitch, planePitch, f, plane, pPitch_eq, pPlanePitch_eq, pFmt_eq, pPlane]
    refine ⟨mma_traps_misaligned hr hexec hact, mma_traps_outOfBounds hr hexec hact, fun halign hfits hbad hawake => ?_⟩
    have htraps := fun c => mma_traps_fault hr hexec hact halign hfits hbad hawake (c := c)
    rw [hwrong, hunaligned, hbeyond]
    refine ⟨fun h => htraps _ (mmaFault_of_wrong h _) (by decide),
      fun hright h => htraps _ (mmaFault_of_unaligned hright h _) (by decide),
      fun hright haligned h => htraps _ (mmaFault_of_beyond hright haligned h _) (by decide),
      fun r mask hm hright haligned hinside hne hnames => ?_⟩
    subst hm
    have hmask : g.badMeta (some r) kb.toNat = mask := (g.names_badMeta r kb.toNat).unique hnames
    exact htraps _ (by rw [hmask]; exact mmaFault_of_badMeta hright haligned hinside hne) (by simp [Cause.at])
  · intro sa sb
    have hmove : ∃ store, exec i s = issue i (accMoveEff store a b fmt rows acc) s := by
      simp only [List.mem_cons, List.not_mem_nil, or_false] at hform
      rcases hform with rfl | rfl
      · exact ⟨false, rfl⟩
      · exact ⟨true, rfl⟩
    obtain ⟨store, hexec⟩ := hmove
    refine ⟨fun h => traps_of_eff hr hexec ((accMoveEff_eq hact).trans (if_pos h)) (by decide), fun ha hb hout => ?_⟩
    have haligned : ¬(sa % 4 ≠ 0 ∨ sb % 4 ≠ 0) := by simp [ha, hb]
    exact traps_of_eff hr hexec ((accMoveEff_eq hact).trans ((if_neg haligned).trans (if_pos hout))) (by decide)
  · intro accepted
    have hcommand : ∀ (i : Instr) (tile : Nat) (op : Group → MatOp) (regs : Group → List PReg),
        exec i s = issue i (commandEff tile op regs) s → accepted i tile (op g) (regs g) :=
      fun i tile op regs hexec hr => takesCommand_of_commandEff hr hs hact hcnt hroom hexec
    refine ⟨?_, fun a b fmt rows acc ha hb hfits => ?_,
      fun d cv cg acc => hcommand _ _ (fun g => .rd cv cg.toNat g.exec (g.phys d 0)) (fun g => g.pregs d 8) rfl,
      fun d cv cg acc => hcommand _ _ (fun g => .wr cv cg.toNat ((maskList g.active).map fun k =>
        (k, (List.range 8).map fun j => g.src d j k))) (fun _ => []) rfl,
      fun acc => ⟨hcommand _ _ (fun _ => .clr) (fun _ => []) rfl, hcommand _ _ (fun _ => .rel) (fun _ => []) rfl⟩⟩
    · intro lo a b hi ru zf fmt m kb i hform p ws halign hfits hbad hawake hmeta hfault hr
      have hexec : exec i s = issue i (mmaEff (lo.toNat + 256 * hi.toNat) a b zf fmt m kb.toNat) s := by
        cases m <;> rw [hform] <;> rfl
      exact mma_taken hr hexec hact halign hfits hbad hawake hs hcnt hroom
        (by rw [Group.badMeta_eq_zero hmeta]; exact hfault)
    · have hmoves : ∀ store i, exec i s = issue i (accMoveEff store a b fmt rows acc) s → accepted i acc.toNat
          (moveOp store fmt (g.sval a 0).toNat (g.sval b 0).toNat (rows.toNat + 1)) [] :=
        fun store i hexec hr => takesCommand_of_acceptMat (ps := []) hr hs hcnt hroom hexec
          (accMoveEff_of_fits hact ha hb hfits)
      exact ⟨hmoves false _ rfl, hmoves true _ rfl⟩

end Sys2Proof
end

