-- ==== Sys2Proof/Proofs/Tiles.lean ====
section
/-!
PROOFS. The elements of a tile (R280): what elements written by place leave of it, and what each matrix command makes of it
(R292, R297 to R303).
-/

namespace Sys2Proof.Machine

/-! ### Elements written by place (R280) -/

theorem TileData.el_putAll (t : TileData) (ws : List (Nat × Nat × Word)) :
    (t.putAll ws).el = ws.foldl (fun el w => Tab.set el (w.1 * 64 + w.2.1) w.2.2) t.el := by
  induction ws generalizing t with
  | nil => rfl
  | cons w ws ih => exact ih _

/-- Where the writes are those of a partial function of the place, each element reads as it says or as before. -/
theorem TileData.get_putAll {ws : List (Nat × Nat × Word)} {f : Nat → Nat → Option Word}
    (hws : ∀ r n x, (r, n, x) ∈ ws ↔ n < 64 ∧ f r n = some x) (t : TileData) (r : Nat) {n : Nat} (hn : n < 64) :
    (t.putAll ws).get r n = (f r n).getD (t.get r n) := by
  have hplace : ∀ w ∈ ws, ∀ r' n', n' < 64 → w.1 * 64 + w.2.1 = r' * 64 + n' → w.1 = r' ∧ w.2.1 = n' := by
    intro w hw r' n' hn' hkey
    have := ((hws w.1 w.2.1 w.2.2).1 hw).1
    omega
  rw [TileData.get, TileData.get, Tab.getD, TileData.el_putAll]
  cases hf : f r n with
  | some x =>
    have hmem := (hws r n x).2 ⟨hn, hf⟩
    have hsame : ∀ w ∈ ws, ∀ w' ∈ ws, w.1 * 64 + w.2.1 = w'.1 * 64 + w'.2.1 → w.2.2 = w'.2.2 := by
      intro w hw w' hw' hkey
      obtain ⟨hcol, hval⟩ := (hws w'.1 w'.2.1 w'.2.2).1 hw'
      obtain ⟨hrow, hcol'⟩ := hplace w hw _ _ hcol hkey
      have hval' := ((hws w.1 w.2.1 w.2.2).1 hw).2
      rw [hrow, hcol', hval] at hval'
      exact (Option.some.inj hval').symm
    rw [Tab.get?_foldl_set ws (fun w => w.1 * 64 + w.2.1) (fun w => w.2.2) hsame t.el _ hmem]
    rfl
  | none =>
    have hother : ∀ w ∈ ws, w.1 * 64 + w.2.1 ≠ r * 64 + n := by
      intro w hw hkey
      obtain ⟨hrow, hcol⟩ := hplace w hw r n hn hkey
      have hval := ((hws w.1 w.2.1 w.2.2).1 hw).2
      rw [hrow, hcol, hf] at hval
      exact Option.some_ne_none _ hval.symm
    rw [Tab.get?_foldl_set_other ws (fun w => w.1 * 64 + w.2.1) (fun w => w.2.2) t.el hother]
    rfl

/-- In a table with no number twice, an entry is what its number reads as. -/
theorem Tab.get?_eq_some_iff_mem {α : Type} {t : Tab α} (h : (t.map Prod.fst).Nodup) {k : Nat} {x : α} :
    Tab.get? t k = some x ↔ (k, x) ∈ t := by
  refine ⟨Tab.get?_mem, fun hmem => ?_⟩
  induction t with
  | nil => cases hmem
  | cons e t ih =>
    rw [List.map_cons, List.nodup_cons] at h
    rw [Tab.get?_cons]
    rcases List.mem_cons.1 hmem with rfl | hmem
    · exact if_pos rfl
    · have hne : e.1 ≠ k := fun heq => h.1 (heq ▸ List.mem_map_of_mem hmem)
      rw [if_neg hne]
      exact ih h.2 hmem

/-! ### What a command makes of its tile -/

section
variable (t : TileData) (r : Nat) {n : Nat} (hn : n < 64)
include hn

/-- All 64 columns of the rows that a list gives, as an MMA writes them (R289, R292). -/
theorem TileData.get_putAll_columns {α : Type} (a : List α) (x : Nat → Nat → α → Word) :
    (t.putAll ((List.range 64).flatMap fun n => a.mapIdx fun r row => (r, n, x r n row))).get r n =
      ((a[r]?).map (x r n)).getD (t.get r n) := by
  have hws : ∀ r n y, (r, n, y) ∈ (List.range 64).flatMap (fun n => a.mapIdx fun r row => (r, n, x r n row)) ↔
      n < 64 ∧ (a[r]?).map (x r n) = some y := by
    intro r n y
    simp only [List.mem_flatMap, List.mem_range, List.mem_mapIdx, Prod.mk.injEq, Option.map_eq_some_iff,
      List.getElem?_eq_some_iff]
    constructor
    · rintro ⟨n, hn, r, hr, rfl, rfl, rfl⟩
      exact ⟨hn, _, ⟨hr, rfl⟩, rfl⟩
    · rintro ⟨hn, row, ⟨hr, rfl⟩, rfl⟩
      exact ⟨n, hn, r, hr, rfl, rfl, rfl⟩
  exact TileData.get_putAll hws t r hn

/-- Rows of 64 elements, as an ACCLD writes them (R300). -/
theorem TileData.get_putAll_rows (rows : Nat) {row : Nat → List Word} (hrow : ∀ r, (row r).length = 64) :
    (t.putAll ((List.range rows).flatMap fun r => (row r).mapIdx fun n w => (r, n, w))).get r n =
      if r < rows then (row r).getD n 0#32 else t.get r n := by
  have hws : ∀ r n y, (r, n, y) ∈ (List.range rows).flatMap (fun r => (row r).mapIdx fun n w => (r, n, w)) ↔
      n < 64 ∧ (if r < rows then (row r)[n]? else none) = some y := by
    intro r n y
    simp only [List.mem_flatMap, List.mem_range, List.mem_mapIdx, Prod.mk.injEq]
    constructor
    · rintro ⟨r, hr, n, hn, rfl, rfl, rfl⟩
      exact ⟨hrow r ▸ hn, by rw [if_pos hr, List.getElem?_eq_getElem hn]⟩
    · rintro ⟨-, hy⟩
      split at hy
      · obtain ⟨hn, rfl⟩ := List.getElem?_eq_some_iff.1 hy
        exact ⟨r, ‹_›, n, hn, rfl, rfl, rfl⟩
      · cases hy
  rw [TileData.get_putAll hws t r hn]
  split
  · rw [List.getElem?_eq_getElem (hrow r ▸ hn), List.getD_eq_getElem _ _ (hrow r ▸ hn)]
    rfl
  · rfl

/-- Eight columns of some rows, each row named once, as an ACCWR writes them (R298). -/
theorem TileData.get_putAll_group {cg : Nat} {rows : Tab (List Word)} (x : Word → Word) (hcg : cg < 8)
    (hnodup : (rows.map Prod.fst).Nodup) (hlength : ∀ e ∈ rows, e.2.length = 8) :
    (t.putAll (rows.flatMap fun e => e.2.mapIdx fun j w => (e.1, 8 * cg + j, x w))).get r n =
      (if n / 8 = cg then (Tab.get? rows r).map fun ws => x (ws.getD (n % 8) 0#32) else none).getD (t.get r n) := by
  have hws : ∀ r n y, (r, n, y) ∈ rows.flatMap (fun e => e.2.mapIdx fun j w => (e.1, 8 * cg + j, x w)) ↔
      n < 64 ∧ (if n / 8 = cg then (Tab.get? rows r).map fun ws => x (ws.getD (n % 8) 0#32) else none) = some y := by
    intro r n y
    simp only [List.mem_flatMap, List.mem_mapIdx, Prod.mk.injEq]
    constructor
    · rintro ⟨⟨r, ws⟩, he, j, hj, rfl, rfl, rfl⟩
      have hlen : ws.length = 8 := hlength _ he
      dsimp only at hj ⊢
      have hdiv : (8 * cg + j) / 8 = cg := by omega
      have hmod : (8 * cg + j) % 8 = j := by omega
      rw [hdiv, if_pos rfl, hmod, (Tab.get?_eq_some_iff_mem hnodup).2 he, Option.map_some, List.getD_eq_getElem _ _ hj]
      exact ⟨by omega, rfl⟩
    · rintro ⟨-, hy⟩
      split at hy
      · obtain ⟨ws, he, rfl⟩ := Option.map_eq_some_iff.1 hy
        have hmem := Tab.get?_mem he
        have hlt : n % 8 < ws.length := by rw [hlength _ hmem]; omega
        exact ⟨_, hmem, n % 8, hlt, rfl, by omega, by rw [List.getD_eq_getElem _ _ hlt]⟩
      · cases hy
  exact TileData.get_putAll hws t r hn

end

/-- A row read from the scratchpad has an element for each column. -/
theorem length_rowIn (fmt : TileFmt) (bs : List Byte) : (rowIn fmt bs).length = 64 := by
  unfold rowIn
  split
  · simp
  · simp [List.length_flatMap]

theorem MatCmd.tileBecomes_tileAfter (c : MatCmd) (b : Block) (old : TileData) :
    TileBecomes c b old (c.tileAfter b.read old) := by
  unfold TileBecomes MatCmd.tileAfter
  cases c.op with
  | mma fmt zf kb a ws =>
    refine ⟨rfl, fun r n hn => (old.get_putAll_columns r hn a fun r n row =>
      mmaElem fmt kb row (bCol b.read ws kb n) (if zf then 0#32 else old.get r n)).trans ?_⟩
    cases a[r]? <;> rfl
  | ld fmt addr pitch rows => exact ⟨rfl, fun r n hn => old.get_putAll_rows r hn rows fun r => length_rowIn ..⟩
  | wr cv cg rows =>
    refine ⟨rfl, fun hcg hnodup hlength => ?_⟩
    have hget := fun r n hn => old.get_putAll_group r (n := n) hn (accIn cv) hcg hnodup hlength
    refine ⟨fun e he j hj => (hget e.1 (8 * cg + j) (by omega)).trans ?_, fun r n hn h => (hget r n hn).trans ?_⟩
    · have hdiv : (8 * cg + j) / 8 = cg := by omega
      have hmod : (8 * cg + j) % 8 = j := by omega
      rw [if_pos hdiv, hmod, (Tab.get?_eq_some_iff_mem hnodup).2 he]
      rfl
    · split
      · rename_i hcol
        have hnone : Tab.get? rows r = none := Option.eq_none_iff_forall_ne_some.2 fun ws hws =>
          h.resolve_left (not_not.2 hcol) _ (Tab.get?_mem hws) rfl
        rw [hnone]
        rfl
      · rfl
  | clr => exact ⟨rfl, fun _ _ => rfl⟩
  | rel => rfl
  | st | rd => rfl

end Sys2Proof.Machine
end

