-- ==== Sys2Proof/Proofs/MatrixExecution.lean ====
section
/-!
PROOFS. MATRIX_COMMAND_EXECUTE (R282, R285, R297 to R303): the state in which the core's eldest command has reached its tile
and run, with the block's scratchpad and the group's registers.
-/

namespace Sys2Proof.Machine

/-! ### A command reaches its tile (R282) -/

section
variable (s : State) (bid : Nat) (b : Block) (job t : Nat)

/-- Reaching a tile changes tiles and saved tiles of blocks only. -/
theorem State.reachTile_frame : (s.reachTile bid b job t).2 = { s with
    tiles := (s.reachTile bid b job t).2.tiles, work := (s.reachTile bid b job t).2.work } := by
  unfold State.reachTile
  dsimp only
  split
  · rfl
  · split <;> rfl

theorem State.reachTile_touch (ps : List (SramArray × Nat)) :
    ((s.touch ps).reachTile bid b job t).1 = (s.reachTile bid b job t).1 := by
  unfold State.reachTile
  dsimp only [State.touch]
  split <;> rfl

/-- The blocks of `t` are those of `s`, their scratchpads as they were. -/
def KeepsScratch (s t : State) : Prop :=
  ∀ k x, Tab.get? s.work.blocks k = some x → ∃ y, Tab.get? t.work.blocks k = some y ∧ y.scratch = x.scratch

variable {s} in
theorem KeepsScratch.updBlock {u : State} (h : KeepsScratch s u) (bid : Nat) {f : Block → Block}
    (hf : ∀ x, (f x).scratch = x.scratch) : KeepsScratch s (u.updBlock bid f) := by
  intro k x hx
  obtain ⟨y, hy, hscratch⟩ := h k x hx
  rw [State.updBlock_work, Tab.get?_upd]
  split
  · rename_i hk
    exact ⟨f y, by rw [← hk, hy, Option.map_some], (hf y).trans hscratch⟩
  · exact ⟨y, hy, hscratch⟩

theorem State.reachTile_keepsScratch : KeepsScratch s (s.reachTile bid b job t).2 := by
  have hself : KeepsScratch s s := fun k x hx => ⟨x, hx, rfl⟩
  unfold State.reachTile
  dsimp only
  split
  · exact hself
  · split
    · refine KeepsScratch.updBlock (hself.updBlock _ fun x => ?_) bid fun _ => rfl
      split <;> rfl
    · exact hself.updBlock bid fun _ => rfl

end

/-! ### The block's scratchpad (R300, R301) -/

theorem Block.read_congr {b b' : Block} (h : b.scratch = b'.scratch) (a n : Nat) : b.read a n = b'.read a n :=
  congrArg (memBytes scratchFill · a n) h

theorem MatCmd.scratchAfter_scratch (c : MatCmd) (t : TileData) {b b' : Block} (h : b.scratch = b'.scratch) :
    (c.scratchAfter t b).scratch = (c.scratchAfter t b').scratch := by
  unfold MatCmd.scratchAfter
  cases c.op with
  | st fmt addr pitch rows =>
    have hfold : ∀ x : Block, ((List.range rows).foldl (fun b r =>
        b.write (addr + r * pitch) (rowOut fmt t.isI32 ((List.range 64).map fun n => t.get r n))) x).scratch =
        (List.range rows).foldl (fun m r => memWriteBytes scratchFill m (addr + r * pitch)
          (rowOut fmt t.isI32 ((List.range 64).map fun n => t.get r n))) x.scratch :=
      fun x => (List.foldl_hom Block.scratch fun _ _ => rfl).symm
    rw [hfold, hfold, h]
  | mma | ld | rd | wr | clr | rel => exact h

/-! ### The registers of an ACCRD (R298) -/

theorem MatCmd.regWrites_vectors (c : MatCmd) (t : TileData) :
    ∀ w ∈ c.regWrites t, ∃ r k, w.1 = .v r k ∧ k < 64 := by
  unfold MatCmd.regWrites
  cases c.op with
  | rd cv cg lanes d =>
    intro w hw
    obtain ⟨j, -, hw⟩ := List.mem_flatMap.1 hw
    obtain ⟨k, hk, rfl⟩ := List.mem_map.1 hw
    exact ⟨_, _, rfl, (mem_maskList.1 hk).1⟩
  | mma | ld | st | wr | clr | rel => exact nofun

theorem MatCmd.nodup_regWrites (c : MatCmd) (t : TileData) : ((c.regWrites t).map Prod.fst).Nodup := by
  unfold MatCmd.regWrites
  cases c.op with
  | rd cv cg lanes d =>
    rw [List.map_flatMap]
    refine List.nodup_flatMap.2 ⟨fun j _ => ?_, ?_⟩
    · rw [List.map_map]
      exact (nodup_maskList lanes).map fun k k' h => (Target.v.inj h).2
    · refine List.nodup_range.imp fun {j j'} hne => ?_
      refine List.disjoint_iff_ne.2 ?_
      intro x hx y hy hxy
      simp only [List.mem_map] at hx hy
      obtain ⟨_, ⟨k, -, rfl⟩, rfl⟩ := hx
      obtain ⟨_, ⟨k', -, rfl⟩, rfl⟩ := hy
      have := (Target.v.inj hxy).1
      omega
  | mma | ld | st | wr | clr | rel => exact List.nodup_nil

theorem Group.s_landAll_of_vectors (g : Group) {ws : List (Target × Word)} (h : ∀ w ∈ ws, ∃ r k, w.1 = .v r k) :
    (g.landAll ws).s = g.s := by
  induction ws generalizing g with
  | nil => rfl
  | cons w ws ih =>
    obtain ⟨r, k, hw⟩ := h w List.mem_cons_self
    refine (ih (g.land w.1 w.2) fun w' hw' => h w' (List.mem_cons_of_mem _ hw')).trans ?_
    rw [hw]
    rfl

/-- What a command leaves of its group: TL has fallen past it, nothing of it is pending, and an ACCRD's registers hold its
elements. -/
theorem Group.finished_matrix {g : Group} {id : Nat} {rest : List (Nat × Bool)} (heldest : Eldest g 3 id rest)
    (hsaved : ∀ e ∈ g.pend, e.op = id → e.saved = false) (c : MatCmd) (t : TileData) :
    let g' := g.finished cTL id (c.regWrites t)
    g'.outs 3 = (rest.dropWhile fun e => e.2) ∧ (∀ e ∈ g'.pend, e.op ≠ id) ∧ g'.s = g.s ∧
      ∀ r lane, lane < 64 → g'.rdV r lane = written (c.regWrites t) (.v r lane) (g.rdV r lane) := by
  have hvectors := c.regWrites_vectors t
  refine ⟨Group.outs_finished heldest _, Group.pend_finished _, ?_, fun r lane hlane => ?_⟩
  · obtain ⟨es, hes⟩ := Group.foldl_landResult hsaved (c.regWrites t)
    rw [Group.finished, hes]
    exact g.s_landAll_of_vectors fun w hw => let ⟨r, k, h, _⟩ := hvectors w hw; ⟨r, k, h⟩
  · refine Group.reads_finished hsaved (fun w hw => ?_) (c.nodup_regWrites t) (u := .v r lane) hlane
    obtain ⟨r', k, hw', hk⟩ := hvectors w hw
    obtain ⟨target, x⟩ := w
    subst hw'
    exact ⟨hk, trivial⟩

/-! ### The command runs (R285) -/

/-- What a command leaves where its tile stood (R282, R303). -/
def MatCmd.leaves (c : MatCmd) (b : Block) (t : TileData) : PhysTile :=
  if c.op = .rel then ⟨none, TileData.blank⟩ else ⟨some (c.job, c.block), c.tileAfter b.read t⟩

theorem MatCmd.leaves_eq (c : MatCmd) (b : Block) (t : TileData) :
    c.leaves b t = ⟨if c.op = .rel then none else some (c.job, c.block), c.tileAfter b.read t⟩ := by
  unfold MatCmd.leaves
  split
  · rename_i hrel
    rw [MatCmd.tileAfter, hrel]
  · rfl

theorem MatCmd.tileBecomes_leaves (c : MatCmd) (b : Block) (t : TileData) : TileBecomes c b t (c.leaves b t).data := by
  rw [c.leaves_eq]
  exact c.tileBecomes_tileAfter b t

theorem MatCmd.leaves_owner (c : MatCmd) (b : Block) (t : TileData) :
    (c.leaves b t).owner = if c.op = .rel then none else some (c.job, c.block) := by
  rw [c.leaves_eq]

/-- The state `u` without errors, in which a command has reached its tile `t`, once it has run. -/
def State.ran (u : State) (id : Nat) (c : MatCmd) (b : Block) (t : TileData) : State :=
  ({ u.setOps { u.ops with mats := Tab.del u.ops.mats id } with
    tiles := Tab.set u.tiles (b.physTile c.tile) (c.leaves b t), bad := [] }.updBlock c.block (c.scratchAfter t)).updGroup
      c.group fun g => g.finished cTL id (c.regWrites t)

/-- Without errors and with nothing in retention, the core's eldest command reaches its tile and runs. -/
theorem State.matExecute_clean {s : State} {core id : Nat} {c : MatCmd} {b : Block}
    (hfind : (s.ops.mats.find? fun e => e.2.core = core) = some (id, c)) (hb : Tab.get? s.work.blocks c.block = some b)
    (hord : s.engineOrdered c.group id = true) (hbad : s.bad = []) (hawake : s.retained = []) :
    ∃ ps, s.matExecute core = ((s.touch ps).reachTile c.block b c.job c.tile).2.ran id c b
      (s.reachTile c.block b c.job c.tile).1 := by
  have hasleep : s.asleep (s.matSegs c b) = false := by simp [State.asleep, hawake]
  have hgood : ∀ ps, (s.touch ps).matBad c = false := fun ps => by
    simp [State.matBad, State.badScratch, State.touch, hbad]
  refine ⟨s.matSegs c b, ?_⟩
  have hclean : ((s.touch (s.matSegs c b)).reachTile c.block b c.job c.tile).2.bad = [] :=
    (congrArg State.bad ((s.touch (s.matSegs c b)).reachTile_frame c.block b c.job c.tile)).trans hbad
  rw [← s.reachTile_touch c.block b c.job c.tile (s.matSegs c b)]
  simp only [State.matExecute, hfind, hb, hord, hasleep, hgood, Bool.not_true, Bool.or_false, Bool.false_eq_true, if_false]
  generalize (s.touch (s.matSegs c b)).reachTile c.block b c.job c.tile = r at hclean
  obtain ⟨t, u⟩ := r
  have hu : (u.setOps { u.ops with mats := Tab.del u.ops.mats id }).bad = [] := hclean
  rw [State.ran, MatCmd.leaves]
  simp only [hu, List.filter_nil]
  split <;> rfl

end Sys2Proof.Machine

namespace Sys2Proof

open Machine

/-- Settles O49: matExecute_clean gives the state, in which the command has reached its tile without changing a scratchpad
(reachTile_keepsScratch); the tile is what tileBecomes_leaves says, the group what finished_matrix says. -/
theorem matrixCommandsExecute : Obligations.MatrixCommandsExecute := by
  intro s core id c b g rest hfind hb hord hbad hawake hg heldest hsaved old
  obtain ⟨ps, hran⟩ := State.matExecute_clean hfind hb hord hbad hawake
  obtain ⟨ps', hland⟩ := s.landing_awake (s.matExecute core) (fun _ => false) hawake
  have hframe := (s.touch ps).reachTile_frame c.block b c.job c.tile
  have hkeeps := (s.touch ps).reachTile_keepsScratch c.block b c.job c.tile
  generalize ((s.touch ps).reachTile c.block b c.job c.tile).2 = u at hran hframe hkeeps
  obtain ⟨x, hx, hscratch⟩ := hkeeps c.block b hb
  have hhbm : u.hbm = s.hbm := by rw [hframe]; rfl
  have hgroups : u.groups = s.groups := by rw [hframe]; rfl
  refine ⟨_, congrArg Host.Outcome.next hland, ?_⟩
  rw [hran]
  refine ⟨hhbm, ?_, ⟨_, ?_, c.tileBecomes_leaves b old, c.leaves_owner b old⟩, ⟨c.scratchAfter old x, ?_, fun a => ?_⟩,
    g.finished cTL id (c.regWrites old), ?_, Group.finished_matrix heldest hsaved c old⟩
  · exact (Tab.get?_del ..).trans (if_pos rfl)
  · exact Tab.get?_set_same ..
  · exact (Tab.get?_upd ..).trans ((if_pos rfl).trans (congrArg _ hx))
  · exact Block.read_congr (c.scratchAfter_scratch old hscratch) a 1
  · refine (Tab.get?_upd ..).trans ((if_pos rfl).trans ?_)
    exact (congrArg (fun gs => (Tab.get? gs c.group).map _) hgroups).trans (congrArg _ hg)

end Sys2Proof
end

