-- ==== Sys2Proof/Proofs/Steps.lean ====
section
/-!
PROOFS. Why a step always goes on, and the state after reset. A word's meaning asks only that a group stands at a word, and the
slice cycle runs a meaning at such a group alone; an event's meaning is a next state.
-/

namespace Sys2Proof.Machine

/-- A word is issued for the group that stands at it. -/
theorem exec_word {i : Instr} (h : i.isEvent = false) (s : State) : ∃ eff, exec i s = issue i eff s := by
  unfold exec
  cases i
  all_goals first
    | exact ⟨_, rfl⟩
    | cases h

/-- An event's meaning is a next state. -/
theorem exec_event {i : Instr} (h : Instr.isTurn i = true) (s : State) : ∃ t, exec i s = .next t := by
  unfold exec
  cases i
  all_goals first
    | exact ⟨_, rfl⟩
    | cases h

/-- The issuing group stands at a word. -/
def State.Standing (s : State) : Prop :=
  ∃ gid g cl, s.cur = some gid ∧ Tab.get? s.groups gid = some g ∧ g.clause = some cl

theorem issue_next (i : Instr) (eff : State → Nat → Group → Clause → Eff) {s : State} (h : s.Standing) :
    ∃ t, issue i eff s = .next t := by
  obtain ⟨gid, g, cl, hcur, hg, hcl⟩ := h
  simp only [issue, hcur, hg, hcl]
  repeat' split
  all_goals exact ⟨_, rfl⟩

/-- With a group that stands at a word, no meaning ends in a fault or a refusal. -/
theorem exec_next (i : Instr) {s : State} (h : s.Standing) : ∃ t, exec i s = .next t := by
  cases he : i.isEvent with
  | false =>
    obtain ⟨eff, hi⟩ := exec_word he s
    exact hi ▸ issue_next i eff h
  | true =>
    cases ht : Instr.isTurn i with
    | true => exact exec_event ht s
    | false =>
      simp only [Instr.isTurn, he, Bool.true_and] at ht
      split at ht
      · obtain ⟨gid, g, cl, hcur, hg, hcl⟩ := h
        exact ⟨_, by simp only [exec, execIllegalInstruction, hcur, hg, hcl]; rfl⟩
      · exact ⟨_, rfl⟩
      · cases ht

theorem State.runWord_next {s : State} {gid : Nat} {g : Group} {cl : Clause} (hg : Tab.get? s.groups gid = some g)
    (hcl : g.clause = some cl) : ∃ t, s.runWord exec gid g cl = .next t := by
  rw [State.runWord_eq]
  apply exec_next
  split
  · exact ⟨gid, g.flush, cl, rfl, (Tab.get?_upd ..).trans (by rw [if_pos rfl, hg]; rfl), by rw [Group.flush_frame]; exact hcl⟩
  · exact ⟨gid, g, cl, rfl, hg, hcl⟩

/-- What the issue of a ready group comes to, at its word or at its clause's header (R103, R355), is a next state. -/
theorem State.trial_next {s : State} {gid : Nat} {r : Res} (h : s.trial exec gid = some r) : ∃ t, r = .next t := by
  unfold State.trial at h
  split at h
  · cases h
  rename_i g hg
  split at h
  · cases h
  dsimp only at h
  split at h
  · rename_i cl hcl
    obtain ⟨t, ht⟩ := State.runWord_next hg hcl
    rw [ht] at h
    dsimp only at h
    split at h
    · cases h
    · exact ⟨t, (Option.some.inj h).symm⟩
  · split at h
    · rename_i s' hs'
      split at h
      · obtain ⟨t, -, ht⟩ := Option.map_eq_some_iff.1 h
        exact ⟨t, ht.symm⟩
      split at h
      · exact ⟨s', (Option.some.inj h).symm⟩
      rename_i g' hg'
      have hword : ∀ (u : State) (cl : Clause), u.groups = s'.groups → g'.clause = some cl →
          ∃ t, u.runWord exec gid g' cl = .next t := fun u cl hu hcl => State.runWord_next (hu ▸ hg') hcl
      split at h
      · exact ⟨s', (Option.some.inj h).symm⟩
      · obtain ⟨t, ht⟩ := hword s' _ rfl ‹g'.clause = some _›
        rw [ht] at h
        dsimp only at h
        split at h
        · cases h
        · exact ⟨t, (Option.some.inj h).symm⟩
      · split at h
        · exact ⟨_, (Option.some.inj h).symm⟩
        · obtain ⟨t, ht⟩ := hword (s'.pickBelow 2).2 _ rfl ‹g'.clause = some _›
          rw [ht] at h
          dsimp only at h
          split at h
          · cases h
          · exact ⟨t, (Option.some.inj h).symm⟩
    · rename_i hnot
      exact absurd rfl (hnot _)

theorem State.sliceCycle_next (s : State) (core sl errors : Nat) : ∃ t, s.sliceCycle exec core sl errors = .next t := by
  unfold State.sliceCycle
  dsimp only
  split
  · exact ⟨_, rfl⟩
  · split
    · exact ⟨_, rfl⟩
    · rename_i r _ hr
      obtain ⟨t, rfl⟩ := State.trial_next hr
      exact ⟨t, rfl⟩
    · exact ⟨_, rfl⟩

end Sys2Proof.Machine

namespace Sys2Proof

open Machine

/-- Settles O7: a slice cycle goes on since the group it runs stands at a word, and an event's meaning is a next state. -/
theorem stepAlwaysGoesOn : Obligations.StepAlwaysGoesOn := by
  intro s
  unfold step stepWith
  dsimp only
  split
  · split
    · rename_i hi
      exact exec_event hi _
    · exact ⟨_, rfl⟩
  · exact ⟨_, rfl⟩
  · exact ⟨_, rfl⟩
  · exact State.sliceCycle_next ..

/-- Settles O6: the tables of slices, cores and clusters repeat one entry, and the rest is written out. -/
theorem resetState : Obligations.ResetState := by
  have hclusters : ∀ e ∈ State.reset.clusters, e.2 = Cluster.reset := by simp [State.reset]
  have hslices : ∀ e ∈ State.reset.slices, e.2 = Slice.reset := by simp [State.reset]
  have hcores : ∀ e ∈ State.reset.cores, e.2 = Core.reset := by simp [State.reset]
  have hcycles : ∀ core, State.reset.coreCycles core = 0 := by
    intro core
    unfold State.coreCycles
    cases hc : Tab.get? State.reset.clusters (clusterOf core) with
    | none => rfl
    | some c => exact congrArg (fun c : Cluster => c.cyc / 1000) (hclusters _ (Tab.get?_mem hc))
  refine ⟨fun e he => hclusters e he ▸ rfl, hcycles, State.reset_wf, rfl, rfl, ?_, ?_, ?_,
    fun e he => hslices e he ▸ ⟨rfl, rfl, rfl⟩, fun e he => hcores e he ▸ rfl,
    fun e he => hclusters e he ▸ ⟨rfl, rfl⟩⟩
  all_goals simp [State.reset]

end Sys2Proof
end

