-- ==== Sys2Proof/Proofs/MemoryKept.lean ====
section
/-!
PROOFS. What leaves device memory as it was: one lemma for each function of the state, in the order of the model.
-/

namespace Sys2Proof.Machine

/-- A list of changes, each of which leaves device memory as it was. -/
@[simp] theorem State.foldl_hbm {β : Type} {f : State → β → State} (h : ∀ s b, (f s b).hbm = s.hbm) (l : List β)
    (s : State) :
    (l.foldl f s).hbm = s.hbm := by
  induction l generalizing s with
  | nil => rfl
  | cons b l ih => rw [List.foldl_cons, ih, h]

/-! ### Ops -/

@[simp] theorem State.trimPools_hbm (s : State) : (s.trimPools).hbm = s.hbm := rfl

@[simp] theorem State.removeGroups_hbm (s : State) (dead : Nat → Bool) : (s.removeGroups dead).hbm = s.hbm := rfl

@[simp] theorem State.touch_hbm (s : State) (ps : List (SramArray × Nat)) : (s.touch ps).hbm = s.hbm := rfl

@[simp] theorem State.sendHub_hbm (s : State) (cluster : Nat) (m : HubMsg) : (s.sendHub cluster m).hbm = s.hbm := rfl

@[simp] theorem State.takeHub_hbm (s : State) (cluster : Nat) : (s.takeHub cluster).hbm = s.hbm := rfl

@[simp] theorem State.sendPup_hbm (s : State) (cluster : Nat) (m : HubMsg) : (s.sendPup cluster m).hbm = s.hbm := rfl

@[simp] theorem State.relay_hbm (s : State) (m : HubMsg) (due : Option Nat) : (s.relay m due).hbm = s.hbm := by
  unfold State.relay
  repeat' split
  all_goals rfl

/-! ### Link -/

@[simp] theorem State.updGraniale_hbm (s : State) (port : Nat) (f : Graniale → Graniale) :
    (s.updGraniale port f).hbm = s.hbm := rfl

@[simp] theorem State.offerFlit_hbm (s : State) (port : Nat) (f : Flit) : (s.offerFlit port f).hbm = s.hbm := rfl

/-! ### Ordering -/

@[simp] theorem State.released_hbm (s : State) (gid : Nat) (sc : Scope) : (s.released gid sc).hbm = s.hbm := rfl

@[simp] theorem State.acquired_hbm (s : State) (gid : Nat) : (s.acquired gid).hbm = s.hbm := rfl

@[simp] theorem State.ordered_hbm (s : State) (gid : Nat) (o : Order) (sc : Scope) :
    (s.ordered gid o sc).hbm = s.hbm := by
  unfold State.ordered
  repeat' split
  all_goals rfl

@[simp] theorem State.settleBars_hbm (s : State) (gid : Nat) : (s.settleBars gid).hbm = s.hbm := rfl

/-! ### Control -/

@[simp] theorem State.latest_hbm (s : State) (gid : Nat) (g : Group) : (s.latest gid g).hbm = s.hbm := rfl

@[simp] theorem State.tretDone_hbm (s : State) (gid : Nat) (g : Group) (cl : Clause) (f : TrapFrame) :
    (s.tretDone gid g cl f).hbm = s.hbm := by
  unfold State.tretDone
  dsimp only
  repeat' split
  all_goals simp

/-! ### Memory -/

@[simp] theorem State.unqueue_hbm (s : State) (core phys id line : Nat) :
    (s.unqueue core phys id line).hbm = s.hbm := rfl

@[simp] theorem State.orderAfter_hbm (s : State) (id other : Nat) : (s.orderAfter id other).hbm = s.hbm := by
  unfold State.orderAfter
  repeat' split
  all_goals rfl

@[simp] theorem State.orderForward_hbm (s : State) (op : Nat) (o : MemOp) (src a : Nat) :
    (s.orderForward op o src a).hbm = s.hbm := by
  simp [State.orderForward]

@[simp] theorem State.sampleLine_hbm (s : State) (op : Nat) (o : MemOp) (line : Nat) :
    (s.sampleLine op o line).hbm = s.hbm := by
  have hfold : ∀ (l : List ((Nat × SfqLine) × Nat)) (u : State),
      (l.foldl (fun (u : State) e => u.orderForward op o e.1.1 e.2) u).hbm = u.hbm :=
    State.foldl_hbm fun _ _ => State.orderForward_hbm ..
  have hpaid : ∀ (p : Prop) [Decidable p] (phys : Nat),
      (if p then (true, s.unqueue o.core phys op line) else s.charge o.core phys op line).2.hbm = s.hbm := by
    intro p _ phys
    split <;> simp
  unfold State.sampleLine
  dsimp only
  split
  · rfl
  split
  · rename_i u hu
    exact (congrArg (fun r => r.2.hbm) hu).symm.trans (hpaid ..)
  · rename_i u hu
    have hu' : u.hbm = s.hbm := (congrArg (fun r => r.2.hbm) hu).symm.trans (hpaid ..)
    split <;> simp [hfold, hu']

@[simp] theorem State.loadReturn_hbm (s : State) (op line : Nat) : (s.loadReturn op line).hbm = s.hbm := by
  unfold State.loadReturn
  repeat' split
  all_goals simp

@[simp] theorem State.remoteReports_hbm (s : State) (o : MemOp) (off n : Nat) :
    (s.remoteReports o off n).hbm = s.hbm := by
  unfold State.remoteReports
  split
  · rfl
  · exact State.foldl_hbm (fun _ _ => State.foldl_hbm (fun _ _ => State.updGroup_hbm ..) _ _) _ _

@[simp] theorem State.invalidate_hbm (s : State) (job : Nat) (sc : Scope) : (s.invalidate job sc).hbm = s.hbm := rfl

/-! ### Residency -/

@[simp] theorem State.clauseIssue_hbm (s : State) (gid : Nat) : (s.clauseIssue gid).hbm = s.hbm := by
  unfold State.clauseIssue
  dsimp only
  repeat' split
  all_goals simp

@[simp] theorem State.stallTick_hbm (s : State) (gid : Nat) : (s.stallTick gid).hbm = s.hbm := by
  unfold State.stallTick
  dsimp only
  repeat' split
  all_goals rfl

@[simp] theorem State.setRes_hbm (s : State) (gid : Nat) (r : Residency) : (s.setRes gid r).hbm = s.hbm := rfl

@[simp] theorem State.groupAdmit_hbm (s : State) (gid : Nat) : (s.groupAdmit gid).hbm = s.hbm := by
  unfold State.groupAdmit
  repeat' split
  all_goals rfl

@[simp] theorem State.settle_hbm (s : State) (gid : Nat) : (s.settle gid).hbm = s.hbm := rfl

@[simp] theorem State.inactive_hbm (s : State) (gid : Nat) (g : Group) : (s.inactive gid g).hbm = s.hbm := rfl

@[simp] theorem State.swapOut_hbm (s : State) (gid : Nat) : (s.swapOut gid).hbm = s.hbm := by
  unfold State.swapOut
  dsimp only
  repeat' split
  all_goals simp

theorem State.comesIn_hbm {s t : State} {gid : Nat} {g : Group} (h : s.comesIn gid g = some t) : t.hbm = s.hbm := by
  unfold State.comesIn at h
  split at h
  · rw [← Option.some.inj h, State.setRes_hbm]
  split at h
  · cases h
  dsimp only at h
  split at h
  · rw [← Option.some.inj h, State.setRes_hbm, State.setRes_hbm, State.inactive_hbm, State.settle_hbm]
  · cases h

@[simp] theorem State.swapIn_hbm (s : State) (gid : Nat) : (s.swapIn gid).hbm = s.hbm := by
  unfold State.swapIn
  split
  · rfl
  split
  · rfl
  split
  · rfl
  · rename_i t ht
    split
    · rfl
    · exact State.comesIn_hbm ht

@[simp] theorem State.groupFree_hbm (s : State) (gid : Nat) : (s.groupFree gid).hbm = s.hbm := by
  unfold State.groupFree
  repeat' split
  all_goals rfl

@[simp] theorem State.activeEnter_hbm (s : State) (gid : Nat) : (s.activeEnter gid).hbm = s.hbm := by
  unfold State.activeEnter
  dsimp only
  repeat' split
  all_goals simp

@[simp] theorem State.activeLeave_hbm (s : State) (gid : Nat) : (s.activeLeave gid).hbm = s.hbm := by
  unfold State.activeLeave
  repeat' split
  all_goals rfl

/-! ### Contexts -/

@[simp] theorem State.askTags_hbm (s : State) (cluster job : Nat) : (s.askTags cluster job).hbm = s.hbm := by
  unfold State.askTags
  repeat' split
  all_goals rfl

@[simp] theorem State.tagRequest_hbm (s : State) (cluster job : Nat) : (s.tagRequest cluster job).hbm = s.hbm := by
  unfold State.tagRequest
  repeat' split
  all_goals simp

@[simp] theorem State.tagGrant_hbm (s : State) (cluster job : Nat) (tags : List Nat) :
    (s.tagGrant cluster job tags).hbm = s.hbm := by
  unfold State.tagGrant
  repeat' split
  all_goals rfl

@[simp] theorem State.takeTag_hbm (s : State) (g : Group) (parent : Nat) : (s.takeTag g parent).2.hbm = s.hbm := rfl

@[simp] theorem State.tagRegister_hbm (s : State) (gid : Nat) : (s.tagRegister gid).hbm = s.hbm := by
  unfold State.tagRegister
  dsimp only
  repeat' split
  all_goals simp [State.sendVals_hbm]

@[simp] theorem State.orphan_hbm (s : State) (t parent : Nat) : (s.orphan t parent).hbm = s.hbm := rfl

@[simp] theorem State.retireComplete_hbm (s : State) (t : Nat) : (s.retireComplete t).hbm = s.hbm := by
  unfold State.retireComplete
  repeat' split
  all_goals rfl

/-! ### Copy -/

@[simp] theorem State.scrPut_hbm (s : State) (loc : ScrLoc) (bytes : Tab Byte) : (s.scrPut loc bytes).hbm = s.hbm := by
  unfold State.scrPut
  repeat' split
  all_goals rfl

@[simp] theorem State.acceptRaw_hbm (s : State) (gid : Nat) (g : Group) (q : Nat) (ws : List Word) :
    (s.acceptRaw gid g q ws).hbm = s.hbm := by
  unfold State.acceptRaw
  dsimp only
  repeat' split
  all_goals simp

@[simp] theorem State.copyStart_hbm (s : State) (id : Nat) : (s.copyStart id).hbm = s.hbm := by
  unfold State.copyStart
  dsimp only
  repeat' split
  all_goals simp

@[simp] theorem State.copyReports_hbm (s : State) (id : Nat) (c : CopyCmd) (obj : Nat) (offs : List Nat) :
    (s.copyReports id c obj offs).hbm = s.hbm := by
  unfold State.copyReports
  split
  · rfl
  split
  · rfl
  · exact State.foldl_hbm (fun _ _ => State.updGroup_hbm ..) _ _

@[simp] theorem State.moveLine_hbm (s : State) (c : CopyCmd) : (s.moveLine c).2.hbm = s.hbm := by
  unfold State.moveLine
  dsimp only
  repeat' split
  all_goals simp

@[simp] theorem State.tensorLines_hbm (s : State) (c : CopyCmd) (d : Desc) (right : Nat) (offs : List Nat) :
    (s.tensorLines c d right offs).2.hbm = s.hbm := by
  unfold State.tensorLines
  repeat' split
  all_goals simp

@[simp] theorem State.fillLine_hbm (s : State) (id : Nat) (c : CopyCmd) (d : Desc) :
    (s.fillLine id c d).2.hbm = s.hbm := by
  unfold State.fillLine
  dsimp only
  repeat' split
  all_goals simp

@[simp] theorem State.subDone_hbm (s : State) (bundle sub : Nat) (bad : Bool) :
    (s.subDone bundle sub bad).hbm = s.hbm := rfl

@[simp] theorem State.copyComplete_hbm (s : State) (id : Nat) : (s.copyComplete id).hbm = s.hbm := by
  unfold State.copyComplete
  dsimp only
  repeat' split
  all_goals simp

/-! ### Matrix -/

@[simp] theorem State.reachTile_hbm (s : State) (bid : Nat) (b : Block) (job t : Nat) :
    (s.reachTile bid b job t).2.hbm = s.hbm := by
  unfold State.reachTile
  dsimp only
  repeat' split
  all_goals simp

@[simp] theorem State.matExecute_hbm (s : State) (core : Nat) : (s.matExecute core).hbm = s.hbm := by
  unfold State.matExecute
  split
  · rfl
  split
  · rfl
  split
  · rfl
  dsimp only
  split
  · rfl
  · exact State.reachTile_hbm ..

/-! ### Place -/

@[simp] theorem State.putGroup_hbm (s : State) (gid : Nat) (g : Group) : (s.putGroup gid g).hbm = s.hbm := by
  simp [State.putGroup]

@[simp] theorem State.newBlock_hbm (s : State) (lid : Nat) (l : Launch) (ix core base : Nat) :
    (s.newBlock lid l ix core base).2.hbm = s.hbm := by
  simp [State.newBlock]

theorem State.onBestCore_hbm {s t : State} {job cluster : Nat} {k : Kernel} {put : Nat → Nat × State}
    (hput : ∀ core, (put core).2.hbm = s.hbm) (h : s.onBestCore job k cluster put = some t) : t.hbm = s.hbm := by
  obtain ⟨core, -, -, rfl⟩ := State.onBestCore_eq_some h
  exact hput core

theorem State.placeIn_hbm {s t : State} {lid cluster base : Nat} {l : Launch} {ixs : List Nat}
    (h : s.placeIn lid l cluster base ixs = some t) : t.hbm = s.hbm := by
  induction ixs generalizing s with
  | nil => exact Option.some.inj h ▸ rfl
  | cons ix ixs ih =>
    unfold State.placeIn at h
    split at h
    · rename_i u hu
      exact (ih h).trans (State.onBestCore_hbm (fun _ => State.newBlock_hbm ..) hu)
    · cases h

@[simp] theorem State.openDie_hbm (s : State) (lid die : Nat) : (s.openDie lid die).hbm = s.hbm := rfl

@[simp] theorem State.startGang_hbm (s : State) (lid : Nat) (l : Launch) (gi cluster : Nat) :
    (s.startGang lid l gi cluster).hbm = s.hbm := rfl

theorem State.placeGang_hbm {s t : State} {lid gi : Nat} {idle : Bool} (h : s.placeGang lid gi idle = some t) :
    t.hbm = s.hbm := by
  unfold State.placeGang at h
  split at h
  · cases h
  dsimp only at h
  split at h
  · rename_i c u hfirst
    obtain ⟨x, -, hx⟩ := firstSome_eq_some hfirst
    split at hx
    · obtain ⟨v, hv, hcu⟩ := Option.map_eq_some_iff.1 hx
      cases hcu
      split at h
      · rw [← Option.some.inj h, State.startGang_hbm, State.placeIn_hbm hv]
      · cases h
    · cases hx
  · cases h

theorem State.placeGangs_hbm {s t : State} {lid : Nat} {idle : Bool} {gs : List Nat}
    (h : s.placeGangs lid idle gs = some t) : t.hbm = s.hbm := by
  induction gs generalizing s with
  | nil => exact Option.some.inj h ▸ rfl
  | cons g gs ih =>
    unfold State.placeGangs at h
    split at h
    · rename_i u hu
      exact (ih h).trans (State.placeGang_hbm hu)
    · cases h

@[simp] theorem State.emptied_hbm (s : State) : (s.emptied).hbm = s.hbm := rfl

@[simp] theorem State.reserved_hbm (s : State) (lid : Nat) : (s.reserved lid).hbm = s.hbm := by
  refine State.foldl_hbm (fun u e => ?_) _ _
  split
  · cases h : u.placeGangs e.1 true e.2.todo with
    | none => rfl
    | some v => exact State.placeGangs_hbm h
  · rfl

@[simp] theorem State.liftTiles_hbm (s : State) (bid : Nat) : (s.liftTiles bid).hbm = s.hbm := by
  unfold State.liftTiles
  split
  · rfl
  · refine State.foldl_hbm (fun u t => ?_) _ _
    repeat' split
    all_goals rfl

@[simp] theorem State.seatBlock_hbm (s : State) (bid core : Nat) : (s.seatBlock bid core).hbm = s.hbm := by
  cases hb : Tab.get? s.work.blocks bid with
  | none => rw [State.seatBlock_of_none hb]
  | some b => exact (State.seatBlock_frame hb core).1

theorem State.seatIn_hbm {s t : State} {l : Launch} {cluster : Nat} {bids : List Nat}
    (h : s.seatIn l cluster bids = some t) : t.hbm = s.hbm := by
  induction bids generalizing s with
  | nil => exact Option.some.inj h ▸ rfl
  | cons bid bids ih =>
    unfold State.seatIn at h
    split at h
    · rename_i u hu
      exact (ih h).trans (State.onBestCore_hbm (fun _ => State.seatBlock_hbm ..) hu)
    · cases h

theorem State.reseat_hbm {s t : State} {lid gi : Nat} {l : Launch} {g : Gang} (h : s.reseat lid l gi g = some t) :
    t.hbm = s.hbm := by
  unfold State.reseat at h
  dsimp only at h
  split at h
  · exact State.seatIn_hbm h
  split at h
  · cases h
  obtain ⟨c, -, hc⟩ := firstSome_eq_some h
  split at hc
  · obtain ⟨u, hu, rfl⟩ := Option.map_eq_some_iff.1 hc
    rw [State.updLaunch_hbm, State.openDie_hbm, State.seatIn_hbm hu]
  · cases hc

@[simp] theorem State.placeBlocks_hbm (s : State) (lid : Nat) : (s.placeBlocks lid).hbm = s.hbm := by
  have hgetD : ∀ o : Option State, (∀ t, o = some t → t.hbm = s.hbm) → (o.getD s).hbm = s.hbm := by
    rintro (_ | t) h
    · rfl
    · exact h t rfl
  unfold State.placeBlocks
  split
  · rfl
  split
  · rfl
  split
  · exact hgetD _ fun t ht => State.reseat_hbm ht
  · exact hgetD _ fun t ht => State.placeGangs_hbm ht

theorem State.delivered_hbm (s t : State) (h : t.hbm = s.hbm) : (s.delivered t).hbm = s.hbm := by
  unfold State.delivered
  split
  · exact h
  · rfl

@[simp] theorem State.dropBad_hbm (s : State) : (s.dropBad).hbm = s.hbm := rfl

@[simp] theorem State.blockFreed_hbm (s : State) (bid : Nat) (b : Block) : (s.blockFreed bid b).hbm = s.hbm := by
  exact (s.blockFreed_frame bid b).1

@[simp] theorem State.blockDone_hbm (s : State) (bid : Nat) : (s.blockDone bid).hbm = s.hbm := by
  unfold State.blockDone
  repeat' split
  all_goals simp

@[simp] theorem State.dropTags_hbm (s : State) (lid : Nat) : (s.dropTags lid).hbm = s.hbm :=
  State.foldl_hbm (fun _ _ => by split <;> simp [State.retireTag_hbm]) _ _

@[simp] theorem State.freeCode_hbm (s : State) : (s.freeCode).hbm = s.hbm := rfl

@[simp] theorem State.retireLaunch_hbm (s : State) (lid : Nat) (l : Launch) : (s.retireLaunch lid l).hbm = s.hbm := by
  exact (s.retireLaunch_frame lid l).1

@[simp] theorem State.launchComplete_hbm (s : State) (lid : Nat) : (s.launchComplete lid).hbm = s.hbm := by
  unfold State.launchComplete
  repeat' split
  all_goals simp [State.retireTag_hbm]

/-! ### Collective -/

@[simp] theorem State.collSide_hbm (s : State) (c : CollCmd) (write : Bool) (t off n : Nat) :
    (s.collSide c write t off n).2.hbm = s.hbm := by
  unfold State.collSide
  dsimp only
  split
  · simp
  · split
    · simp
    · split <;> simp

@[simp] theorem State.collTell_hbm (s : State) (id : Nat) (c : CollCmd) (code lines : Nat) :
    (s.collTell id c code lines).hbm = s.hbm := by
  unfold State.collTell
  repeat' split
  all_goals rfl

@[simp] theorem State.enterColl_hbm (s : State) (id : Nat) (c : CollCmd) : (s.enterColl id c).hbm = s.hbm := by
  unfold State.enterColl
  dsimp only
  repeat' split
  all_goals simp

@[simp] theorem State.sides_hbm (s : State) (n : Nat) (x : Member) : (s.sides n x).2.hbm = s.hbm := by
  unfold State.sides
  dsimp only
  split
  · rfl
  · repeat' split
    all_goals simp

@[simp] theorem State.allSides_hbm (s : State) (n : Nat) (xs : List Member) : (s.allSides n xs).2.hbm = s.hbm := by
  induction xs generalizing s with
  | nil => rfl
  | cons x xs ih => simp [State.allSides, ih]

@[simp] theorem State.acceptPair_hbm (s : State) (gid : Nat) (g : Group) (q : Nat) (copy : Bool) (ws : List Word) :
    (s.acceptPair gid g q copy ws).hbm = s.hbm := by
  unfold State.acceptPair
  dsimp only
  repeat' split
  all_goals simp

/-! ### Stalls -/

@[simp] theorem State.without_hbm (s : State) (ws : List (Nat × Nat)) : (s.without ws).hbm = s.hbm := rfl

@[simp] theorem State.markStalls_hbm (s : State) : (s.markStalls).hbm = s.hbm := rfl

@[simp] theorem State.stallTimeout_hbm (s : State) (job : Nat) : (s.stallTimeout job).hbm = s.hbm := by
  unfold State.stallTimeout
  split
  · rfl
  split
  · exact State.foldl_hbm (fun _ _ => State.killLaunch_hbm ..) _ _
  · rfl

/-! ### Cycle -/

@[simp] theorem State.handled_hbm (s : State) (g : Group) : (s.handled g).hbm = s.hbm := rfl

@[simp] theorem State.asActive_hbm (s : State) (gid : Nat) (g : Group) : (s.asActive gid g).hbm = s.hbm := by
  unfold State.asActive
  repeat' split
  all_goals rfl

@[simp] theorem State.endCycle_hbm (core sl errors : Nat) (active : List Nat) (all : List Nat) (ready : List Nat)
    (chosen : Option Nat) (s : State) :
    (State.endCycle core sl errors active all ready chosen s).hbm = s.hbm := rfl

@[simp] theorem State.applySetting_hbm (s : State) (f : Setting) : (s.applySetting f).hbm = s.hbm := by
  unfold State.applySetting
  repeat' split
  all_goals rfl

/-! ### Barriers -/

@[simp] theorem State.arrive_hbm (s : State) (gid : Nat) (g : Group) (b : BarName) :
    (s.arrive gid g b).2.hbm = s.hbm := by
  simp [State.arrive]

/-! ### Surrogate -/

@[simp] theorem State.updSlot_hbm (s : State) (core slot : Nat) (f : Slot → Slot) :
    (s.updSlot core slot f).hbm = s.hbm := rfl

@[simp] theorem State.enqueueEntry_hbm (s : State) (c : Call) (call lane : Nat) (shadow : Option (List Word)) :
    (s.enqueueEntry c call lane shadow).hbm = s.hbm := rfl

@[simp] theorem State.sampleShadows_hbm (s : State) (c : Call) (call kept : Nat) (ys : List (Nat × List Nat)) :
    (s.sampleShadows c call kept ys).hbm = s.hbm := by
  refine State.foldl_hbm (fun u e => ?_) _ _
  dsimp only
  split
  · rfl
  · rw [State.updSlot_hbm]
    split <;> simp

@[simp] theorem State.sgEvaluate_hbm (s : State) (id : Nat) (timing : BitVec 64) :
    (s.sgEvaluate id timing).hbm = s.hbm := by
  unfold State.sgEvaluate
  dsimp only
  repeat' split
  all_goals simp [State.foldl_hbm fun _ _ => State.enqueueEntry_hbm ..]

@[simp] theorem State.formRecovery_hbm (s : State) (core sl : Nat) : (s.formRecovery core sl).hbm = s.hbm := by
  unfold State.formRecovery
  dsimp only
  split
  · rfl
  split
  · split
    · rfl
    · split <;> rfl
  · rfl

@[simp] theorem State.mergeEntry_hbm (s : State) (e : REntry) (vals : List Word) :
    (s.mergeEntry e vals).hbm = s.hbm := by
  unfold State.mergeEntry
  repeat' split
  all_goals rfl

@[simp] theorem State.compareShadow_hbm (s : State) (core job slot : Nat) (y vals : List Word) :
    (s.compareShadow core job slot y vals).hbm = s.hbm := by
  unfold State.compareShadow
  dsimp only
  repeat' split
  all_goals rfl

@[simp] theorem State.sgretLane_hbm (s : State) (g : Group) (a : Reg) (resc : Nat) (ids : List Nat) (lane : Nat) :
    (s.sgretLane g a resc ids lane).hbm = s.hbm := by
  unfold State.sgretLane
  dsimp only
  repeat' split
  all_goals simp

@[simp] theorem State.installImage_hbm (s : State) (core slot job : Nat) (img : List Byte) :
    (s.installImage core slot job img).hbm = s.hbm := rfl

@[simp] theorem State.sgAct_hbm (s : State) (o : SgOp) : (s.sgAct o).2.hbm = s.hbm := by
  unfold State.sgAct
  split
  · dsimp only
    split <;> rfl
  · split
    · rfl
    · dsimp only
      repeat' split
      all_goals rfl

@[simp] theorem State.sgloadComplete_hbm (s : State) (id : Nat) : (s.sgloadComplete id).hbm = s.hbm := by
  unfold State.sgloadComplete
  dsimp only
  repeat' split
  all_goals simp

@[simp] theorem State.disableReport_hbm (s : State) (core : Nat) (sid : Word) :
    (s.disableReport core sid).hbm = s.hbm := by
  unfold State.disableReport
  split
  · rw [State.foldl_hbm fun _ _ => State.sendPup_hbm ..]
    simp
  · rfl

@[simp] theorem State.sgDisable_hbm (s : State) (core : Nat) (sid : Word) : (s.sgDisable core sid).hbm = s.hbm := by
  unfold State.sgDisable
  dsimp only
  repeat' split
  all_goals simp

/-! ### Bundle -/

@[simp] theorem State.hostRead_hbm (s : State) (port a n : Nat) : (s.hostRead port a n).2.hbm = s.hbm := rfl

@[simp] theorem State.hostWrite_hbm (s : State) (port a : Nat) (bs : List Byte) :
    (s.hostWrite port a bs).hbm = s.hbm := rfl

@[simp] theorem State.updSq_hbm (s : State) (port q : Nat) (f : Sq → Sq) : (s.updSq port q f).hbm = s.hbm := rfl

@[simp] theorem State.draw_hbm (s : State) : (s.draw).2.hbm = s.hbm := rfl

@[simp] theorem State.readEntry_hbm (s : State) (port : Nat) (x : Sq) : (s.readEntry port x).2.hbm = s.hbm := by
  unfold State.readEntry
  dsimp only
  repeat' split
  all_goals simp

@[simp] theorem State.newBundle_hbm (s : State) (port q job : Nat) (ws : List Word) :
    (s.newBundle port q job ws).hbm = s.hbm := by
  unfold State.newBundle
  dsimp only
  repeat' split
  all_goals simp

@[simp] theorem State.bundleFetch_hbm (s : State) (port q : Nat) : (s.bundleFetch port q).hbm = s.hbm := by
  unfold State.bundleFetch
  split
  · rfl
  rename_i x _
  split
  · rfl
  have h := s.readEntry_hbm port x
  split <;> rename_i hr <;> simpa [hr] using h

@[simp] theorem State.freeNumber_hbm (s : State) (lid job : Nat) : (s.freeNumber lid job).2.hbm = s.hbm := rfl

@[simp] theorem State.loadMap_hbm (s : State) (lid : Nat) (m : Nat × List Nat) : (s.loadMap lid m).2.hbm = s.hbm := rfl

@[simp] theorem State.updSub_hbm (s : State) (bid sub : Nat) (f : Sub → Sub) : (s.updSub bid sub f).hbm = s.hbm := rfl

@[simp] theorem State.endSub_hbm (s : State) (bid sub status : Nat) : (s.endSub bid sub status).hbm = s.hbm := rfl

@[simp] theorem State.enterSub_hbm (s : State) (bid : Nat) (b : Bundle) (sub : Nat) (ws : List Word) :
    (s.enterSub bid b sub ws).hbm = s.hbm := by
  unfold State.enterSub
  dsimp only
  repeat' split
  all_goals simp

@[simp] theorem State.enterSubs_hbm (s : State) (bid : Nat) (b : Bundle) : (s.enterSubs bid b).hbm = s.hbm := by
  simp [State.enterSubs]

@[simp] theorem State.refuseLaunch_hbm (s : State) (bid sub lid status : Nat) :
    (s.refuseLaunch bid sub lid status).hbm = s.hbm := rfl

@[simp] theorem State.showViews_hbm (s : State) (job : Nat) (ls : List (Nat × Nat × Launch)) :
    (s.showViews job ls).hbm = s.hbm := rfl

@[simp] theorem State.releaseViews_hbm (s : State) (bid : Nat) : (s.releaseViews bid).hbm = s.hbm := rfl

@[simp] theorem State.digestCode_hbm (s : State) (l : Launch) : (s.digestCode l).hbm = s.hbm := by
  unfold State.digestCode
  repeat' split
  all_goals rfl

@[simp] theorem State.codeLoad_hbm (s : State) (cluster lid base : Nat) :
    (s.codeLoad cluster lid base).hbm = s.hbm := by
  unfold State.codeLoad
  repeat' split
  all_goals simp

@[simp] theorem State.copyProgram_hbm (s : State) (bid sub : Nat) : (s.copyProgram bid sub).hbm = s.hbm := by
  unfold State.copyProgram
  dsimp only
  repeat' split
  all_goals simp

@[simp] theorem State.loadEverywhere_hbm (s : State) (job slot : Nat) (rd : Nat → Option (List Byte)) (cs : List Nat) :
    (s.loadEverywhere job slot rd cs).2.hbm = s.hbm := by
  induction cs generalizing s with
  | nil => rfl
  | cons c cs ih =>
    dsimp only [State.loadEverywhere]
    rw [ih]
    split <;> simp

@[simp] theorem State.surrogateSub_hbm (s : State) (bid sub : Nat) : (s.surrogateSub bid sub).hbm = s.hbm := by
  unfold State.surrogateSub
  dsimp only
  repeat' split
  all_goals simp

@[simp] theorem State.collectiveSub_hbm (s : State) (bid sub : Nat) : (s.collectiveSub bid sub).hbm = s.hbm := by
  unfold State.collectiveSub
  dsimp only
  repeat' split
  all_goals simp

@[simp] theorem State.tellSuccessor_hbm (s : State) (job : Nat) (cancel : Bool) (id : Nat) :
    (s.tellSuccessor job cancel id).hbm = s.hbm := by
  unfold State.tellSuccessor
  repeat' split
  all_goals rfl

/-! ### Debug -/

@[simp] theorem State.unwant_hbm (s : State) (gid k : Nat) : (s.unwant gid k).hbm = s.hbm := rfl

/-! ### Power -/

@[simp] theorem State.followWear_hbm (s : State) : (s.followWear).hbm = s.hbm := rfl

@[simp] theorem State.boostBoundary_hbm (s : State) : (s.boostBoundary).hbm = s.hbm := by
  unfold State.boostBoundary
  repeat' split
  all_goals rfl

@[simp] theorem State.sustainedLimit_hbm (s : State) : (s.sustainedLimit).hbm = s.hbm := by
  unfold State.sustainedLimit
  repeat' split
  all_goals rfl

@[simp] theorem State.emergencyLimit_hbm (s : State) : (s.emergencyLimit).hbm = s.hbm := by
  unfold State.emergencyLimit
  repeat' split
  all_goals rfl

@[simp] theorem State.sample_hbm (s : State) (x : Sensor) (v : ℤ) : (s.sample x v).hbm = s.hbm := by
  unfold State.sample
  repeat' split
  all_goals rfl

@[simp] theorem State.wearAccumulate_hbm (s : State) : (s.wearAccumulate).hbm = s.hbm := by
  unfold State.wearAccumulate
  repeat' split
  all_goals rfl

@[simp] theorem State.reportWear_hbm (s : State) : (s.reportWear).hbm = s.hbm := rfl

@[simp] theorem State.wearRefresh_hbm (s : State) : (s.wearRefresh).hbm = s.hbm := by
  unfold State.wearRefresh
  repeat' split
  all_goals rfl

@[simp] theorem State.retain_hbm (s : State) (a : SramArray) (seg : Nat) : (s.retain a seg).hbm = s.hbm := by
  unfold State.retain
  repeat' split
  all_goals rfl

/-! ### Host -/

@[simp] theorem State.revokeLeases_hbm (s : State) (job : Nat) : (s.revokeLeases job).hbm = s.hbm := rfl

@[simp] theorem State.command_hbm (s : State) (port code : Nat) (act : Port → Reply) (h : ∀ p, (act p).state.hbm = s.hbm) :
    (s.command port code act).hbm = s.hbm := by
  unfold State.command
  split
  · rfl
  · split
    · exact h _
    · rfl

@[simp] theorem State.portLost_hbm (s : State) (port : Nat) : (s.portLost port).hbm = s.hbm := rfl

/-! ### Preempt -/

@[simp] theorem State.saveGroup_hbm (s : State) (gid : Nat) : (s.saveGroup gid).hbm = s.hbm := by
  unfold State.saveGroup
  repeat' split
  all_goals rfl

@[simp] theorem State.stopSleep_hbm (s : State) (gid : Nat) : (s.stopSleep gid).hbm = s.hbm := rfl

@[simp] theorem State.resumeSleep_hbm (s : State) (gid : Nat) : (s.resumeSleep gid).hbm = s.hbm := rfl

@[simp] theorem State.saveSlice_hbm (s : State) (gid : Nat) : (s.saveSlice gid).hbm = s.hbm := by
  simp [State.saveSlice]

@[simp] theorem State.saveWatch_hbm (s : State) (job : Nat) : (s.saveWatch job).hbm = s.hbm := rfl

@[simp] theorem State.jobOut_hbm (s : State) (job : Nat) : (s.jobOut job).hbm = s.hbm := by
  unfold State.jobOut
  split
  · rw [State.updJob_hbm, State.saveWatch_hbm, State.foldl_hbm fun _ _ => State.stopSleep_hbm ..]
  · rfl

@[simp] theorem State.timeSlice_hbm (s : State) (job : Nat) : (s.timeSlice job).hbm = s.hbm := by
  unfold State.timeSlice
  split
  · split <;> rfl
  · dsimp only
    split
    · rw [State.jobOut_hbm, State.foldl_hbm fun _ _ => State.saveSlice_hbm ..]
    · rfl
  · rfl
  · rfl

@[simp] theorem State.drainTimeout_hbm (s : State) (job : Nat) : (s.drainTimeout job).hbm = s.hbm := by
  unfold State.drainTimeout
  split
  · split
    · rfl
    · rw [State.jobOut_hbm, State.foldl_hbm fun _ _ => State.saveSlice_hbm ..]
  · rfl

@[simp] theorem State.untangle_hbm (s : State) (bid : Nat) (b : Block) : (s.untangle bid b).hbm = s.hbm := by
  unfold State.untangle
  dsimp only
  repeat' split
  all_goals simp

@[simp] theorem State.wakeGroup_hbm (s : State) (gid : Nat) : (s.wakeGroup gid).hbm = s.hbm := by
  unfold State.wakeGroup
  dsimp only
  repeat' split
  all_goals simp

@[simp] theorem State.wakeWatch_hbm (s : State) (units : List (Nat × Nat × Watch)) : (s.wakeWatch units).hbm = s.hbm :=
  State.foldl_hbm (fun _ _ => State.updCore_hbm ..) _ _

@[simp] theorem State.jobRestore_hbm (s : State) (job : Nat) : (s.jobRestore job).hbm = s.hbm := by
  have hwoken : ∀ (u : State) (units : List (Nat × Nat × Watch)) (bs : List (Nat × Block)) (gids : List Nat),
      (gids.foldl State.wakeGroup (bs.foldl (fun u e => u.untangle e.1 e.2) (u.wakeWatch units))).hbm = u.hbm := by
    intro u units bs gids
    rw [State.foldl_hbm State.wakeGroup_hbm, State.foldl_hbm fun _ _ => State.untangle_hbm .., State.wakeWatch_hbm]
  unfold State.jobRestore
  split
  · rfl
  split
  · rfl
  · rfl
  dsimp only
  split
  · rfl
  split
  · rw [State.foldl_hbm State.resumeSleep_hbm]
    exact hwoken ..
  · rfl

@[simp] theorem State.freeze_hbm (s : State) (bid : Nat) (st : BlockState) (on : Bool) :
    (s.freeze bid st on).hbm = s.hbm := by
  unfold State.freeze
  split
  · rfl
  · rw [State.foldl_hbm fun _ _ => State.updGroup_hbm ..]
    rfl

@[simp] theorem State.saveBlock_hbm (s : State) (bid : Nat) : (s.saveBlock bid).hbm = s.hbm := by
  unfold State.saveBlock
  split
  · rfl
  split
  · apply State.blocksMoved_hbm
    rw [State.trimPools_frame, State.updBlock_hbm, State.liftTiles_hbm, State.foldl_hbm fun _ _ => State.saveGroup_hbm ..]
  · rfl

@[simp] theorem State.evict_hbm (s : State) (job : Nat) (cores : BitVec 128) : (s.evict job cores).hbm = s.hbm := by
  unfold State.evict
  dsimp only
  repeat' split
  all_goals simp

theorem State.moveBlock_hbm {s t : State} {bid core : Nat} {b : Block} (h : s.moveBlock bid b core = some t) :
    t.hbm = s.hbm := by
  unfold State.moveBlock at h
  split at h
  · cases h
  dsimp only at h
  repeat' split at h
  all_goals cases h
  rw [State.seatBlock_hbm, State.updBlock_hbm, State.liftTiles_hbm, State.foldl_hbm]
  simp

@[simp] theorem State.migrate_hbm (s : State) (bid core : Nat) : (s.migrate bid core).hbm = s.hbm := by
  unfold State.migrate
  split
  · rfl
  dsimp only
  split
  · split <;> simp
  · split
    · split
      · rename_i t ht
        split
        · exact State.moveBlock_hbm ht
        · rfl
      · rfl
    · rfl
  · rfl
  · rfl

@[simp] theorem State.abandon_hbm (s : State) (bid : Nat) : (s.abandon bid).hbm = s.hbm := by
  unfold State.abandon
  repeat' split
  all_goals simp

end Sys2Proof.Machine
end

