-- ==== Sys2Proof/Proofs/MemoryWritten.lean ====
section
/-!
PROOFS. What writes device memory: error records, collectives, completion records, copies and stores at their homes, extents
brought in, the host and the attestation report. Each goes through a write that keeps the one form of device memory (log 6).
-/

namespace Sys2Proof.Machine

@[simp] theorem State.defineComm_hbm (s : State) (port : Nat) (p : Port) : (s.defineComm port p).state.hbm = s.hbm := by
  unfold State.defineComm
  dsimp only
  repeat' split
  all_goals rfl

@[simp] theorem State.releaseFrames_hbm (s : State) (port : Nat) (p : Port) :
    (s.releaseFrames port p).state.hbm = s.hbm := by
  unfold State.releaseFrames
  dsimp only
  repeat' split
  all_goals rfl

@[simp] theorem State.claimFrames_hbm (s : State) (port : Nat) (p : Port) :
    (s.claimFrames port p).state.hbm = s.hbm := by
  unfold State.claimFrames
  dsimp only
  repeat' split
  all_goals rfl

@[simp] theorem State.registerJob_hbm (s : State) (port : Nat) (p : Port) :
    (s.registerJob port p).state.hbm = s.hbm := by
  have hbind : ∀ (qs : List Nat) (id : Nat) (u : State),
      (qs.foldl (fun u q => State.updSq u port q fun x => { x with bound := true, job := id }) u).hbm = u.hbm :=
    fun qs id => State.foldl_hbm (fun _ _ => State.updSq_hbm ..) qs
  simp only [State.registerJob]
  repeat' split
  all_goals simp [hbind]

theorem State.contextTag_hbm {s : State} {lid job : Nat} {r : Nat × State} (h : s.contextTag lid job = some r) :
    r.2.hbm = s.hbm := by
  obtain ⟨n, -, rfl⟩ := Option.map_eq_some_iff.1 h
  rfl

theorem State.admitLaunch_hbm {s t : State} {lid : Nat} {l : Launch} (h : s.admitLaunch lid l = some t) :
    t.hbm = s.hbm := by
  unfold State.admitLaunch at h
  dsimp only at h
  have hmap : ∀ o : Option (Nat × List Nat), (match o with
      | some img => (s.freeNumber lid l.job).2.loadMap lid img
      | none => (0, (s.freeNumber lid l.job).2)).2.hbm = s.hbm := by
    rintro (_ | img) <;> simp
  split at h
  · obtain ⟨r, hr, rfl⟩ := Option.map_eq_some_iff.1 h
    rw [State.updLaunch_hbm, State.contextTag_hbm hr]
    exact hmap _
  · rw [← Option.some.inj h, State.updLaunch_hbm]
    exact hmap _

theorem State.admitAll_hbm {s t : State} {ls : List (Nat × Nat × Launch)} (h : s.admitAll ls = some t) :
    t.hbm = s.hbm := by
  induction ls generalizing s with
  | nil => exact Option.some.inj h ▸ rfl
  | cons l ls ih =>
    unfold State.admitAll at h
    split at h
    · split at h
      · rename_i u hu
        exact (ih h).trans (State.admitLaunch_hbm hu)
      · cases h
    · cases h

/-! ### What writes device memory keeps its one form -/

/-- Device memory has its one form (log 6). -/
def State.Formed (s : State) : Prop := Memory.wf s.hbm = true

theorem State.Formed.of_eq {s t : State} (hs : s.Formed) (h : t.hbm = s.hbm) : t.Formed := by
  unfold State.Formed
  rw [h]
  exact hs

/-- A list of changes, each of which keeps the form. -/
theorem State.Formed.foldl {β : Type} {f : State → β → State} (h : ∀ s b, s.Formed → (f s b).Formed) (l : List β)
    {s : State} (hs : s.Formed) : (l.foldl f s).Formed := by
  induction l generalizing s with
  | nil => exact hs
  | cons b l ih => exact ih (h s b hs)

theorem State.Formed.ite {p : Prop} [Decidable p] {s t : State} (hs : s.Formed) (ht : t.Formed) :
    (if p then s else t).Formed := by
  split
  · exact hs
  · exact ht

section
variable {s : State} (hs : s.Formed)
include hs

theorem State.Formed.rootWrite (base : Nat) (bytes : Tab Byte) : (s.rootWrite base bytes).Formed :=
  s.rootWrite_wf base bytes hs

theorem State.Formed.hbmWrite (a : Nat) (bs : List Byte) : (s.hbmWrite a bs).Formed := s.hbmWrite_wf a bs hs

theorem State.Formed.rootPut (ps : List (Nat × Nat)) (bytes : Tab Byte) : (s.rootPut ps bytes).Formed :=
  .foldl (fun _ _ h => h.rootWrite _ _) ps hs

theorem State.Formed.eventRecord (job : Nat) : (s.eventRecord job).Formed := by
  unfold State.eventRecord
  split
  · exact hs
  · dsimp only
    split
    · exact hs
    · exact State.hbmWrite_wf _ _ _ hs

theorem State.Formed.tellError (job : Nat) : (s.tellError job).Formed := hs.eventRecord job

theorem State.Formed.upset (b : BadLoc) : (s.upset b).Formed := by
  unfold State.upset
  refine .foldl (fun _ _ h => h.tellError _) _ (hs.of_eq ?_)
  dsimp only
  repeat' split
  all_goals rfl

theorem State.Formed.begin_ (t : Turn) : (s.begin_ t).Formed :=
  .foldl (fun _ _ h => h.upset _) _ (hs.of_eq (by simp))

theorem State.Formed.unretain (a : SramArray) (seg : Nat) (bad : List BadLoc) : (s.unretain a seg bad).Formed := by
  unfold State.unretain
  split
  · exact .foldl (fun _ _ h => h.upset _) _ hs
  · exact hs

theorem State.Formed.collFault (n : Nat) (e : Sides) (code : Nat) (ranks : List (Option PeerCmd)) :
    (s.collFault n e code ranks).Formed := by
  unfold State.collFault
  dsimp only
  refine State.Formed.of_eq ?_ (State.collTell_hbm ..)
  split
  · refine State.Formed.rootPut ?_ _ _
    exact hs
  · exact hs

theorem State.Formed.collWrite (ranks : List PeerCmd) (pick : Nat) (e : Sides) : (s.collWrite ranks pick e).Formed := by
  unfold State.collWrite
  dsimp only
  refine State.Formed.of_eq ?_ (State.collTell_hbm ..)
  split
  · exact hs.rootPut _ _
  · exact hs

theorem State.Formed.collCut (id : Nat) (c : CollCmd) (m : Comm) : (s.collCut id c m).Formed := by
  unfold State.collCut
  dsimp only
  exact .foldl (fun _ _ h => h.collFault ..) _ (hs.of_eq (State.allSides_hbm ..))

theorem State.Formed.collEnd (id : Nat) (peers : List PeerCmd) (fault : Nat) : (s.collEnd id peers fault).Formed := by
  unfold State.collEnd
  split
  · exact hs
  split
  · exact hs.of_eq (State.collTell_hbm ..)
  dsimp only
  split
  · exact hs.collCut ..
  split
  · exact hs
  split
  · exact hs
  have hsides : ∀ n ms, (s.allSides n ms).2.Formed := fun n ms => hs.of_eq (State.allSides_hbm ..)
  exact .ite (.foldl (fun _ _ h => h.collFault ..) _ (hsides ..))
    (.ite (.foldl (fun _ _ h => h.collFault ..) _ (hsides ..))
      (.ite (hsides ..) (.foldl (fun _ _ h => h.collWrite ..) _ ((hsides ..).of_eq (State.pickBelow_hbm ..)))))

theorem State.Formed.landing {t : State} (ht : t.Formed) (part : Nat → Bool) : (s.landing t part).Formed := by
  obtain h | ⟨ps, h⟩ := s.landing_cases t part
  · rw [h]
    exact hs
  · rw [h]
    exact ht

theorem State.Formed.moved {t : State} (ht : t.Formed) : (s.moved t).Formed := by
  obtain h | ⟨ps, h⟩ := s.moved_cases t
  · rw [h]
    exact hs
  · rw [h]
    exact ht

theorem State.Formed.collLost (pkg : Nat) : (s.collLost pkg).Formed :=
  .foldl (fun _ e h => h.landing (h.collEnd e.1 [] 0) _) _ (hs.of_eq (State.setHub_hbm ..))

theorem State.Formed.putRecord (b : Bundle) (ws : List Word) : (s.putRecord b ws).Formed := by
  unfold State.putRecord
  dsimp only
  split
  · exact hs.of_eq (State.hostWrite_hbm ..)
  split
  · exact hs.rootWrite _ _
  · exact hs

theorem State.Formed.endBundles (job status : Nat) : (s.endBundles job status).Formed := by
  refine .foldl (fun u e h => ?_) _ hs
  dsimp only
  split
  · exact (h.putRecord _ _).of_eq (State.updPort_hbm ..)
  · exact h.putRecord _ _

theorem State.Formed.dropJob (job status : Nat) : (s.dropJob job status).Formed := by
  have hkilled : ∀ ls : List Nat, (ls.foldl (fun u l => State.killLaunch u l status) s).Formed :=
    fun ls => .foldl (fun _ _ h => h.of_eq (State.killLaunch_hbm ..)) ls hs
  have hended := (hkilled ((s.work.launches.filter fun e => e.2.job = job).map Prod.fst)).endBundles job status
  exact hended.of_eq (by simp [State.dropJob])

theorem State.Formed.linkDown (port : Nat) : (s.linkDown port).Formed :=
  .foldl (fun _ _ h => h.dropJob ..) _ (.foldl (fun _ _ h => h.of_eq (State.revokeLeases_hbm ..)) _ hs)

theorem State.Formed.hostAccess (port a n : Nat) (data : Option (List Byte)) : (s.hostAccess port a n data).Formed := by
  unfold State.hostAccess
  split
  · exact hs
  split
  · exact hs
  split
  · exact hs
  · exact (hs.rootWrite _ _).of_eq (State.updPort_hbm ..)

theorem State.Formed.attestPort (port : Nat) (p : Port) : (s.attestPort port p).state.Formed := by
  simp only [State.attestPort]
  split
  · exact hs
  · exact hs.rootWrite _ _

theorem State.Formed.unregisterJob (port : Nat) (p : Port) : (s.unregisterJob port p).state.Formed := by
  unfold State.unregisterJob
  split
  · exact hs.dropJob ..
  · exact hs

theorem State.Formed.command {port code : Nat} {act : Port → Reply} (h : ∀ p, (act p).state.Formed) :
    (s.command port code act).Formed := by
  unfold State.command
  split
  · exact hs
  · split
    · exact (h _).of_eq (State.updPort_hbm ..)
    · exact hs

theorem State.Formed.bundleRetire (bid : Nat) : (s.bundleRetire bid).Formed := by
  unfold State.bundleRetire
  split
  · exact hs
  dsimp only
  split
  · exact hs
  refine State.Formed.of_eq ?_ (State.setWork_hbm ..)
  refine .foldl (fun _ _ h => h.of_eq (State.tellSuccessor_hbm ..)) _ ?_
  have hput : ∀ w b ws, (((s.setWork w).releaseViews bid).putRecord b ws).Formed := fun w b ws =>
    State.Formed.putRecord (hs.of_eq (by simp)) b ws
  split
  · exact (hput ..).of_eq (State.updPort_hbm ..)
  · exact hput ..

theorem State.Formed.bringIn (job : Nat) (l : Lease) (ext : Nat) : (s.bringIn job l ext).Formed := by
  unfold State.bringIn
  split
  · dsimp only
    split
    · exact hs
    split
    · exact hs
    · refine State.Formed.hbmWrite (State.Formed.hbmWrite (hs.of_eq ?_) _ _) _ _
      rw [State.hostRead_hbm, State.pickBelow_hbm]
  · exact hs

theorem State.Formed.checkBundle (bid : Nat) (b : Bundle) : (s.checkBundle bid b).Formed := by
  unfold State.checkBundle
  dsimp only
  split
  · split
    · exact hs.of_eq (State.refuseLaunch_hbm ..)
    · exact hs.of_eq (State.refuseLaunch_hbm ..)
    · exact hs.bringIn ..
    · exact hs
    · exact hs
  · split
    · rename_i u hu
      exact hs.of_eq (by rw [State.updBundle_hbm, State.admitAll_hbm hu, State.invalidate_hbm, State.showViews_hbm])
    · exact hs

theorem State.Formed.bundleAdmit (bid : Nat) : (s.bundleAdmit bid).Formed := by
  have hentered : ∀ b, ((s.enterSubs bid b).updBundle bid fun b => { b with checking := true }).Formed := fun b =>
    hs.of_eq (by simp)
  unfold State.bundleAdmit
  split
  · exact hs
  split
  · exact hs
  split
  · exact hs.checkBundle ..
  dsimp only
  split
  · exact (hentered _).checkBundle ..
  · exact hentered _

theorem State.Formed.retireGranule (t obj gran : Nat) : (s.retireGranule t obj gran).Formed := by
  unfold State.retireGranule
  split
  · exact hs
  split
  · exact hs
  split
  · exact hs
  split
  · exact hs
  dsimp only
  split
  · exact hs
  split
  · exact State.Formed.rootWrite (s := State.setKennel _ _) hs _ _
  · split <;> exact hs

theorem State.Formed.emptyLine (id : Nat) (c : CopyCmd) (d : Desc) : (s.emptyLine id c d).2.Formed := by
  have hlines : ∀ offs n ps, ((s.tensorLines c d rWrite offs).2.grantLines c.core id n ps).2.Formed := fun offs n ps =>
    hs.of_eq (by simp)
  unfold State.emptyLine
  dsimp only
  split
  · exact hs
  split
  · exact hs
  split
  · exact hs.of_eq (State.tensorLines_hbm ..)
  split
  · exact hlines ..
  split
  · split
    · rename_i hput
      exact State.putLines_wf _ hput (hlines ..)
    · exact hlines ..
  · split
    · exact (hlines ..).of_eq (State.scrPut_hbm ..)
    · exact hlines ..

theorem State.Formed.copyLine (id : Nat) : (s.copyLine id).Formed := by
  unfold State.copyLine
  split
  · exact hs
  rename_i c _
  dsimp only
  split
  · exact hs
  have htouch : (s.touch (s.copySegs c)).Formed := hs
  split
  · split
    · rename_i u hu
      exact htouch.of_eq ((congrArg (fun r => r.2.hbm) hu).symm.trans (State.moveLine_hbm ..))
    · rename_i u hu
      exact htouch.of_eq ((congrArg (fun r => r.2.hbm) hu).symm.trans (State.moveLine_hbm ..))
  have hline : ∀ r, (if c.kind.fills then (s.touch (s.copySegs c)).fillLine id c (Desc.read c.desc)
      else (s.touch (s.copySegs c)).emptyLine id c (Desc.read c.desc)) = r → r.2.Formed := by
    rintro r rfl
    split
    · exact htouch.of_eq (State.fillLine_hbm ..)
    · exact htouch.emptyLine ..
  split <;> rename_i u hu
  · exact hline _ hu
  · exact hline _ hu
  · exact hline _ hu
  · exact (hline _ hu).of_eq (by rw [State.copyReports_hbm]; rfl)

theorem State.Formed.atomicPerform (op lane : Nat) : (s.atomicPerform op lane).Formed := by
  unfold State.atomicPerform
  split
  · exact hs
  rename_i o _
  split
  · dsimp only
    split
    · exact hs
    have hpaid : ∀ (p : Bool) (phys line : Nat) (r : Bool × State),
        (if p then (true, s) else s.charge o.core phys op line) = r → r.2.Formed := by
      rintro (_ | _) phys line r rfl
      · exact hs.of_eq (State.charge_hbm ..)
      · exact hs
    split <;> rename_i u hu
    · exact hpaid _ _ _ _ hu
    split
    · exact hpaid _ _ _ _ hu
    · rename_i old v hv
      have hv' : v.Formed := State.atomicAt_wf hv (hpaid _ _ _ _ hu)
      refine hv'.of_eq ?_
      repeat' split
      all_goals simp
  · exact hs

theorem State.Formed.cellGrant (w : Nat) : (s.cellGrant w).Formed := by
  unfold State.cellGrant
  split
  · exact hs
  split
  · exact State.lineArrive_wf s w hs
  split
  · exact hs.copyLine w
  split
  · split
    · exact hs.atomicPerform ..
    · exact hs
  · exact hs

end
end Sys2Proof.Machine
end

