-- ==== Sys2Proof/Proofs/MemoryForm.lean ====
section
/-!
PROOFS. Every step keeps the one form of device memory (log 6): a word leaves device memory as it was, but for TDVIEW, and an
event leaves it or writes it in that form.
-/

namespace Sys2Proof.Machine
/-- What a meaning leaves of device memory, where it is done with its word. -/
def Eff.Leaves (m : Tab Byte) (e : Eff) : Prop := ∀ s flow after, e = .done s flow after → s.hbm = m

@[simp] theorem Eff.leaves_wait (m : Tab Byte) : Eff.wait.Leaves m := fun _ _ _ h => nomatch h

@[simp] theorem Eff.leaves_trap (m : Tab Byte) (c : Cause) : (Eff.trap c).Leaves m := fun _ _ _ h => nomatch h

@[simp] theorem Eff.leaves_kill (m : Tab Byte) (status : Nat) : (Eff.kill status).Leaves m := fun _ _ _ h => nomatch h

@[simp] theorem Eff.leaves_done (m : Tab Byte) (s : State) (flow : Flow) (after : List Cause) :
    (Eff.done s flow after).Leaves m ↔ s.hbm = m :=
  ⟨fun h => h s flow after rfl, fun h _ _ _ he => by cases he; exact h⟩

theorem Eff.Leaves.ite {m : Tab Byte} {p : Prop} [Decidable p] {a b : Eff} (ha : a.Leaves m) (hb : b.Leaves m) :
    (if p then a else b).Leaves m := by
  split
  · exact ha
  · exact hb

theorem State.access_leaves {s : State} {m : Tab Byte} (hs : s.hbm = m) (gid : Nat) (g : Group) (b : Nat)
    (lanes : List Nat) (uniform : Bool) (idx : Nat → Word) (off : Int) (size right cls : Nat) (ldx : Option Nat) (nohelp : Bool)
    {k : State → Group → Option Desc → Plan → List (Nat × Nat) → Eff}
    (h : ∀ u g d p ps, u.hbm = m → (k u g d p ps).Leaves m) :
    (s.access gid g b lanes uniform idx off size right cls ldx nohelp k).Leaves m := by
  unfold State.access
  dsimp only
  refine .ite (by simp) (.ite (by simp) (.ite (by simp) (.ite (by simp) (.ite (by simp) ?_))))
  split
  · simp
  · exact h _ _ _ _ _ (by simp [hs])

theorem State.scratchAccess_leaves {s : State} {m : Tab Byte} (hs : s.hbm = m) (g : Group) (lanes : List Nat)
    (uniform : Bool) (addr : Nat → Nat) (size cls : Nat) (nohelp waits : Bool) {k : State → List Nat → Eff} (h : ∀ u acc, u.hbm = m → (k u acc).Leaves m) :
    (s.scratchAccess g lanes uniform addr size cls nohelp waits k).Leaves m := by
  unfold State.scratchAccess
  exact .ite (by simp) (.ite (by simp) (.ite (by simp) (.ite (by simp) (h _ _ hs))))

section

variable {m : Tab Byte} {s : State} {gid : Nat} {g : Group} {cl : Clause} (h : s.hbm = m)
include h

@[simp] theorem doneG_leaves (flow : Flow) : (doneG s gid g flow).Leaves m := by
  simp [doneG, h]

@[simp] theorem exitEff_leaves : (exitEff s gid g cl).Leaves m := by
  unfold exitEff
  dsimp only
  repeat' split
  all_goals simp [h]

@[simp] theorem braEff_leaves (neg : Bool) (p : BitVec 4) (pen : Bool) (off : BitVec 18) :
    (braEff neg p pen off s gid g cl).Leaves m := by
  unfold braEff
  dsimp only
  repeat' split
  all_goals simp [h]

@[simp] theorem jmpxEff_leaves (a : Reg) (off : BitVec 16) : (jmpxEff a off s gid g cl).Leaves m := by
  unfold jmpxEff
  dsimp only
  repeat' split
  all_goals simp [h]

@[simp] theorem afterWord_leaves (c : Cause) : (afterWord s gid g c).Leaves m := by
  simp [afterWord, h]

@[simp] theorem srdEff_leaves (d : Reg) (sp : Special) : (srdEff d sp s gid g cl).Leaves m := by
  unfold srdEff
  dsimp only
  simp [h, State.sendVals_hbm]

@[simp] theorem tretEff_leaves : (tretEff s gid g cl).Leaves m := by
  unfold tretEff
  repeat' split
  all_goals simp [h]

@[simp] theorem aluEff_leaves (lat : Nat) (d : Reg) (f : Group → Nat → Word) :
    (aluEff lat d f s gid g cl).Leaves m := by
  simp [aluEff, h]

@[simp] theorem fpEff_leaves (lat : Nat) (d : Reg) (f : Group → Nat → Nat × FFlags) :
    (fpEff lat d f s gid g cl).Leaves m := by
  simp [fpEff, h]

@[simp] theorem predEff_leaves (lat : Nat) (pd : BitVec 4) (f : Group → Nat → Bool) :
    (predEff lat pd f s gid g cl).Leaves m := by
  simp [predEff, h]

@[simp] theorem idleOp_leaves (cls : Nat) : (idleOp cls s gid g).Leaves m := by
  unfold idleOp
  dsimp only
  repeat' split
  all_goals simp [h]

@[simp] theorem loadEff_leaves (d : Reg) (b : BitVec 5) (sz : MemSize) (idx : Group → Nat → Word) (off : Int)
    (ldx : Group → Option Nat) :
    (loadEff d b sz idx off ldx s gid g cl).Leaves m :=
  .ite (idleOp_leaves h _) (State.access_leaves h _ _ _ _ _ _ _ _ _ _ _ _ fun u g dd p ps hu => by
    dsimp only
    rw [Eff.leaves_done]
    split <;> simp [hu])

@[simp] theorem storeEff_leaves (d : Reg) (b : BitVec 5) (sz : MemSize) (vi : Reg) (off : Int) :
    (storeEff d b sz vi off s gid g cl).Leaves m :=
  .ite (idleOp_leaves h _) (State.access_leaves h _ _ _ _ _ _ _ _ _ _ _ _ fun u g dd p ps hu => by
    dsimp only
    rw [Eff.leaves_done]
    split <;> simp [hu])

@[simp] theorem atomEff_leaves (dst : Option Reg) (b : BitVec 5) (vi : Reg) (aop : AtomOp) (ord : Order) (ty : AtomTy)
    (scope : Scope) (val : Reg) :
    (atomEff dst b vi aop ord ty scope val s gid g cl).Leaves m :=
  .ite (idleOp_leaves h _) (State.access_leaves h _ _ _ _ _ _ _ _ _ _ _ _ fun u g dd p ps hu => by
    dsimp only
    rw [Eff.leaves_done]
    split <;> simp [hu])

@[simp] theorem ctxnewEff_leaves (d : Reg) : (ctxnewEff d s gid g cl).Leaves m := by
  unfold ctxnewEff
  dsimp only
  repeat' split
  all_goals simp [h, State.sendVals_hbm]

@[simp] theorem ctxtryEff_leaves (d : Reg) (pd : BitVec 4) : (ctxtryEff d pd s gid g cl).Leaves m := by
  unfold ctxtryEff
  dsimp only
  repeat' split
  all_goals simp [h, State.sendVals_hbm]

@[simp] theorem ctxsetEff_leaves (a : Reg) : (ctxsetEff a s gid g cl).Leaves m := by
  unfold ctxsetEff
  repeat' split
  all_goals simp [h]

@[simp] theorem ctxqEff_leaves (d a : Reg) : (ctxqEff d a s gid g cl).Leaves m := by
  unfold ctxqEff
  dsimp only
  repeat' split
  all_goals simp [h, State.sendVals_hbm]

@[simp] theorem ctxretEff_leaves (commit : Bool) (d a : Reg) : (ctxretEff commit d a s gid g cl).Leaves m := by
  unfold ctxretEff
  dsimp only
  repeat' split
  all_goals simp [h, State.retireTag_hbm]

@[simp] theorem ldsEff_leaves (d a : Reg) (imm : BitVec 8) : (ldsEff d a imm s gid g cl).Leaves m :=
  .ite (idleOp_leaves h _) (State.scratchAccess_leaves h _ _ _ _ _ _ _ _ fun u acc hu =>
    .ite (idleOp_leaves hu _) (by simp [hu]))

@[simp] theorem stsEff_leaves (d a : Reg) (imm : BitVec 8) : (stsEff d a imm s gid g cl).Leaves m :=
  .ite (idleOp_leaves h _) (State.scratchAccess_leaves h _ _ _ _ _ _ _ _ fun u acc hu => by simp [hu])

@[simp] theorem atomsEff_leaves (d vi : Reg) (aop : AtomOp) (ord : Order) (ty : AtomTy) (scope : Scope) (val : Reg) :
    (atomsEff d vi aop ord ty scope val s gid g cl).Leaves m :=
  .ite (idleOp_leaves h _) (State.scratchAccess_leaves h _ _ _ _ _ _ _ _ fun u acc hu =>
    .ite (idleOp_leaves hu _) (by
      dsimp only
      split
      · simp [hu]
      · split <;> simp [hu]))

@[simp] theorem State.acceptCopy_leaves (d : Reg) (c : CopyCmd) : (State.acceptCopy s gid g d c).Leaves m := by
  unfold State.acceptCopy
  dsimp only
  repeat' split
  all_goals simp [h]

@[simp] theorem tcopyEff_leaves (kind : CopyKind) (d a b : Reg) (lvl : Level) (post : Option BarName) (n : BitVec 3)
    (sswz : BitVec 4) :
    (tcopyEff kind d a b lvl post n sswz s gid g cl).Leaves m := by
  unfold tcopyEff
  repeat' split
  all_goals simp [h]

@[simp] theorem State.emptyMove_leaves (d : Reg) (c : CopyCmd) : (State.emptyMove s gid g d c).Leaves m := by
  unfold State.emptyMove
  dsimp only
  repeat' split
  all_goals simp [h]

@[simp] theorem tmovEff_leaves (d a : Reg) (src dst : Level) (post : Option BarName) :
    (tmovEff d a src dst post s gid g cl).Leaves m := by
  unfold tmovEff
  dsimp only
  repeat' split
  all_goals simp [h]

@[simp] theorem State.acceptMat_leaves (tile : Nat) (op : MatOp) (regs : List PReg) :
    (State.acceptMat s gid g tile op regs).Leaves m := by
  unfold State.acceptMat
  dsimp only
  repeat' split
  all_goals simp [h]

@[simp] theorem mmaEff_leaves (tile : Nat) (a b : Reg) (zf : Bool) (fmt : MmaFmt) (meta? : Option Reg) (kb : Nat) :
    (mmaEff tile a b zf fmt meta? kb s gid g cl).Leaves m := by
  unfold mmaEff
  dsimp only
  repeat' split
  all_goals simp [h]

@[simp] theorem accMoveEff_leaves (store : Bool) (a b : Reg) (fmt : TileFmt) (rows : BitVec 6) (acc : BitVec 9) :
    (accMoveEff store a b fmt rows acc s gid g cl).Leaves m := by
  unfold accMoveEff
  dsimp only
  repeat' split
  all_goals simp [h]

@[simp] theorem collEff_leaves (d a : Reg) (op : CollOp) (ty : BitVec 2) : (collEff d a op ty s gid g cl).Leaves m := by
  unfold collEff
  dsimp only
  repeat' split
  all_goals simp [h]

@[simp] theorem qwEff_leaves (q : BitVec 4) (a : Reg) : (qwEff q a s gid g cl).Leaves m := by
  unfold qwEff
  dsimp only
  repeat' split
  all_goals simp [h]

@[simp] theorem qrEff_leaves (q : BitVec 4) (d : Reg) : (qrEff q d s gid g cl).Leaves m := by
  unfold qrEff
  dsimp only
  repeat' split
  all_goals simp [h, State.sendVals_hbm]

@[simp] theorem qtryEff_leaves (pd : BitVec 4) (q : BitVec 4) (d : Reg) : (qtryEff pd q d s gid g cl).Leaves m := by
  unfold qtryEff
  dsimp only
  repeat' split
  all_goals simp [h, State.sendVals_hbm]

@[simp] theorem baraEff_leaves (d : Reg) (b : BarName) : (baraEff d b s gid g cl).Leaves m := by
  unfold baraEff
  dsimp only
  repeat' split
  all_goals simp [h, State.sendVals_hbm]

@[simp] theorem barResume_leaves : (barResume s gid g).Leaves m := by
  simp [barResume, h]

@[simp] theorem barwEff_leaves (a : Reg) (b : BarName) : (barwEff a b s gid g cl).Leaves m := by
  unfold barwEff
  repeat' split
  all_goals simp [h]

@[simp] theorem barsEff_leaves (b : BarName) : (barsEff b s gid g cl).Leaves m := by
  unfold barsEff
  dsimp only
  repeat' split
  all_goals simp [h]

@[simp] theorem barexpEff_leaves (a : Reg) (b : BarName) : (barexpEff a b s gid g cl).Leaves m := by
  unfold barexpEff
  repeat' split
  all_goals simp [h]

@[simp] theorem sgcallEff_leaves (d a : Reg) (slot : BitVec 6) (pd : BitVec 4) :
    (sgcallEff d a slot pd s gid g cl).Leaves m := by
  unfold sgcallEff
  dsimp only
  repeat' split
  all_goals simp [h]

@[simp] theorem sgretEff_leaves (a : Reg) : (sgretEff a s gid g cl).Leaves m := by
  unfold sgretEff
  dsimp only
  repeat' split
  all_goals simp [h]

@[simp] theorem sgstatEff_leaves (d : Reg) (slot : BitVec 6) (code : BitVec 4) :
    (sgstatEff d slot code s gid g cl).Leaves m := by
  unfold sgstatEff
  dsimp only
  simp [h, State.sendVals_hbm]

@[simp] theorem sgloadAccept_leaves (d : Reg) (slot op addr : Nat) (quality : List Word) :
    (sgloadAccept d slot op addr quality s gid g).Leaves m := by
  unfold sgloadAccept
  dsimp only
  repeat' split
  all_goals simp [h]

@[simp] theorem sgloadLoadEff_leaves (d a : Reg) (slot : BitVec 6) : (sgloadLoadEff d a slot s gid g cl).Leaves m := by
  unfold sgloadLoadEff
  dsimp only
  repeat' split
  all_goals simp [h]

@[simp] theorem sgloadQualEff_leaves (d a : Reg) (slot : BitVec 6) : (sgloadQualEff d a slot s gid g cl).Leaves m := by
  unfold sgloadQualEff
  repeat' split
  all_goals simp [h]

@[simp] theorem sgloadBareEff_leaves (d : Reg) (slot : BitVec 6) (op : Nat) :
    (sgloadBareEff d slot op s gid g cl).Leaves m := by
  unfold sgloadBareEff
  repeat' split
  all_goals simp [h]

@[simp] theorem dbSend_leaves (d : Reg) (code : Nat) : (dbSend s gid g d code).Leaves m := by
  unfold dbSend
  dsimp only
  simp [h, State.sendVals_hbm]

@[simp] theorem dbSendVal_leaves (d : Reg) (code : Nat) (v : Option Word) : (dbSendVal s gid g d code v).Leaves m := by
  unfold dbSendVal
  dsimp only
  repeat' split
  all_goals simp [h, State.sendVals_hbm]

@[simp] theorem bpsetEff_leaves (d a : Reg) (k : BitVec 3) : (bpsetEff d a k s gid g cl).Leaves m := by
  unfold bpsetEff
  dsimp only
  repeat' split
  all_goals simp [h]

@[simp] theorem wpsetEff_leaves (d a : Reg) (k : BitVec 2) : (wpsetEff d a k s gid g cl).Leaves m := by
  unfold wpsetEff
  dsimp only
  repeat' split
  all_goals simp [h]

@[simp] theorem stepEff_leaves (arm : Bool) (d a : Reg) : (stepEff arm d a s gid g cl).Leaves m := by
  unfold stepEff
  repeat' split
  all_goals simp [h]

@[simp] theorem State.dbAwait_leaves (k : Nat) (t : Group) : (State.dbAwait s gid k t).Leaves m := by
  unfold State.dbAwait
  repeat' split
  all_goals simp [h]

@[simp] theorem dbrdEff_leaves (d a : Reg) : (dbrdEff d a s gid g cl).Leaves m := by
  unfold dbrdEff
  dsimp only
  repeat' split
  all_goals simp [h]

@[simp] theorem dbwrEff_leaves (d a b : Reg) : (dbwrEff d a b s gid g cl).Leaves m := by
  unfold dbwrEff
  dsimp only
  repeat' split
  all_goals simp [h]

@[simp] theorem barrdEff_leaves (d a : Reg) : (barrdEff d a s gid g cl).Leaves m := by
  unfold barrdEff
  dsimp only
  repeat' split
  all_goals simp [h]

@[simp] theorem barwrEff_leaves (d a b : Reg) : (barwrEff d a b s gid g cl).Leaves m := by
  unfold barwrEff
  dsimp only
  repeat' split
  all_goals simp [h]

@[simp] theorem boostEff_leaves (d : Reg) (imm : BitVec 16) : (boostEff d imm s gid g cl).Leaves m := by
  unfold boostEff
  dsimp only
  repeat' split
  all_goals simp [h, State.sendVals_hbm]

@[simp] theorem boostrelEff_leaves : (boostrelEff s gid g cl).Leaves m := by
  simp [boostrelEff, h]

@[simp] theorem indexEff_leaves (k : BitVec 3) (f : Word → Word) : (indexEff k f s gid g cl).Leaves m := by
  simp [indexEff, h]

@[simp] theorem movxEff_leaves (k : BitVec 3) (imm : BitVec 8) (f : Group → Nat → Nat → Target × Word) :
    (movxEff k imm f s gid g cl).Leaves m := by
  unfold movxEff
  repeat' split
  all_goals simp [h]

end

theorem State.Formed.putDesc {s : State} (hs : s.Formed) (gid op sd die job t : Nat) (ws : List Word) :
    (s.putDesc gid op sd die job t ws).Formed :=
  State.Formed.rootWrite (hs.of_eq (State.descWords_hbm ..)) _ _

theorem tdviewEff_formed {d a : Reg} {ro : Bool} {s u : State} {gid : Nat} {g : Group} {cl : Clause} {flow : Flow}
    {after : List Cause} (hs : s.Formed) (h : tdviewEff d a ro s gid g cl = .done u flow after) : u.Formed := by
  unfold tdviewEff at h
  split at h
  · cases h
    exact hs
  split at h
  · cases h
    exact hs
  · cases h
    refine State.Formed.of_eq ?_ (State.sendVals_hbm ..)
    have hread : ∀ who die job t t', ((s.desc who die job t).2.descWords who die job t').2.Formed :=
      fun who die job t t' => hs.of_eq (by simp)
    split
    · exact .ite ((hread ..).putDesc ..) (hread ..)
    · exact hread ..

theorem State.Formed.powerOn (s : State) (ok : Bool) : (s.powerOn ok).Formed := by
  refine State.Formed.of_eq (s := State.reset) State.reset_wf ?_
  unfold State.powerOn
  dsimp only
  split <;> simp

/-- An issued word keeps the form where its meaning does. -/
theorem issue_formed {i : Instr} {eff : State → Nat → Group → Clause → Eff} {s t : State} (hs : s.Formed)
    (h : issue i eff s = .next t)
    (he : ∀ u gid g cl s' flow after, u.Formed → eff u gid g cl = .done s' flow after → s'.Formed) : t.Formed :=
  issue_memory (fun m => Memory.wf m = true) h hs fun gid g cl _ _ _ hd => he (s.setGroup gid g) gid g cl _ _ _ hs hd

/-- A word's meaning leaves device memory as it was, but for TDVIEW, which writes a descriptor (R208). -/
theorem exec_word_formed {i : Instr} (hi : i.isEvent = false) {s t : State} (hs : s.Formed) (h : exec i s = .next t) :
    t.Formed := by
  have hleaves : ∀ {eff : State → Nat → Group → Clause → Eff}, issue i eff s = .next t →
      (∀ u gid g cl, (eff u gid g cl).Leaves u.hbm) → t.Formed := fun h hl =>
    issue_formed hs h fun u gid g cl _ _ _ hu hd => hu.of_eq (hl u gid g cl _ _ _ hd)
  unfold exec at h
  cases i
  case tdview d a ro => exact issue_formed hs h fun _ _ _ _ _ _ _ hu hd => tdviewEff_formed hu hd
  all_goals first
    | cases hi; done
    | refine hleaves h fun u gid g cl => ?_
      repeat' split
      all_goals simp [State.sendVals_hbm]

theorem State.Formed.blocksMoved {s t : State} (hs : s.Formed) (ht : t.Formed) : (s.blocksMoved t).Formed := by
  obtain h | ⟨ps, h⟩ := s.blocksMoved_cases t
  · rw [h]
    exact hs
  · rw [h]
    exact ht

theorem State.Formed.peerLost {pkg : Nat} {s t : State} (hs : s.Formed) (h : execPeerLost pkg s = .next t) : t.Formed := by
  unfold execPeerLost at h
  cases h
  refine .foldl (fun _ _ hu => hu.tellError _) _ (State.Formed.of_eq ?_ (State.portLost_hbm ..))
  exact hs.collLost pkg

/-- What an event makes of device memory: most leave it as it was. -/
theorem exec_event_formed {i : Instr} (hi : Instr.isTurn i = true) {s t : State} (hs : s.Formed) (h : exec i s = .next t) :
    t.Formed := by
  have hkeeps : ∀ {u : State}, u.hbm = s.hbm → u.Formed := hs.of_eq
  have hsame : ∀ {u : State} (part : Nat → Bool), u.hbm = s.hbm → (s.landing u part).Formed :=
    fun part hu => hs.landing (hs.of_eq hu) part
  unfold exec at h
  cases i
  case illegalInstruction => cases hi
  case peerLost => exact hs.peerLost h
  all_goals first
    | cases hi; done
    | cases h
  case lineArriveHome line => exact s.lineArrive_wf line hs
  case atomicPerform op lane => exact hs.atomicPerform op lane
  case cellWaitGrant w => exact hs.cellGrant w
  case copyLine c => exact hs.copyLine c
  case retireGranule tag obj gran => exact hs.retireGranule tag obj gran
  case bundleAdmit bundle => exact hs.bundleAdmit bundle
  case bundleRetire bundle => exact hs.bundleRetire bundle
  case retentionExit arr seg bad => exact hs.unretain arr seg bad
  case hostLinkDown port => exact hs.linkDown port
  case hostMemoryAccess port addr len data => exact hs.hostAccess ..
  case registerJob port => exact hs.command fun p => hkeeps (by simp)
  case unregisterJob port => exact hs.command (hs.unregisterJob port)
  case claimFrames port => exact hs.command fun p => hkeeps (by simp)
  case releaseFrames port => exact hs.command fun p => hkeeps (by simp)
  case defineCommunicator port => exact hs.command fun p => hkeeps (by simp)
  case attest port => exact hs.command (hs.attestPort port)
  case powerOnReset => exact State.Formed.powerOn ..
  case loadReturn => exact hsame _ (by simp)
  case copyComplete => exact hsame _ (by simp)
  case matrixCommandExecute => exact hsame _ (by simp)
  case surrogateEvaluate => exact hsame _ (by simp)
  case sgloadComplete => exact hsame _ (by simp)
  case contextRetireComplete => exact hsame _ (by simp)
  case groupAdmit => exact hs.moved (hkeeps (by simp))
  case swapOut => exact hs.moved (hkeeps (by simp))
  case swapIn => exact hs.moved (hkeeps (by simp))
  case timeSlice => exact hs.blocksMoved (hkeeps (by simp))
  case preemptDrainTimeout => exact hs.blocksMoved (hkeeps (by simp))
  case jobRestore => exact hs.blocksMoved (hkeeps (by simp))
  case placeBlocks => exact hs.blocksMoved (hkeeps (State.delivered_hbm _ _ (by simp)))
  case migrate => exact hs.blocksMoved (hkeeps (State.delivered_hbm _ _ (by simp)))
  case evict => exact hkeeps (State.delivered_hbm _ _ (by simp))
  case collectiveComplete =>
    split
    · exact .ite (hs.landing (hs.collEnd ..) _) hs
    · exact hs
  all_goals
    refine hkeeps ?_
    repeat' split
    all_goals simp

/-- A clause that issues, and an illegal word's fault, are no turns of their own. -/
theorem exec_formed {i : Instr} {s t : State} (hs : s.Formed) (h : exec i s = .next t) : t.Formed := by
  cases he : i.isEvent with
  | false => exact exec_word_formed he hs h
  | true =>
    cases ht : Instr.isTurn i with
    | true => exact exec_event_formed ht hs h
    | false =>
      simp only [Instr.isTurn, he, Bool.true_and] at ht
      split at ht
      · simp only [exec, execIllegalInstruction] at h
        repeat' split at h
        all_goals cases h
        exact hs.of_eq (State.raise_hbm ..)
      · simp only [exec, execClauseIssue] at h
        cases h
        exact hs.of_eq (State.clauseIssue_hbm ..)
      · cases ht

/-! ### Steps -/

theorem State.Formed.runWord {s t : State} (hs : s.Formed) {gid : Nat} {g : Group} {cl : Clause}
    (h : s.runWord exec gid g cl = .next t) : t.Formed := by
  rw [State.runWord_eq] at h
  refine exec_formed (hs.of_eq ?_) h
  dsimp only
  split <;> rfl

theorem State.Formed.asActive {s : State} (hs : s.Formed) (gid : Nat) (g : Group) : (s.asActive gid g).Formed :=
  hs.of_eq (by simp)

theorem State.Formed.headerReport {s t : State} (hs : s.Formed) {gid : Nat} (h : s.headerReport exec gid = some t) :
    t.Formed := by
  unfold State.headerReport at h
  split at h
  · cases h
  split at h
  · split at h
    · cases h
      exact hs.of_eq (by simp)
    · cases h
  · cases h

theorem State.Formed.trial {s t : State} (hs : s.Formed) {gid : Nat} (h : s.trial exec gid = some (.next t)) : t.Formed := by
  have hword : ∀ {u v : State} {g : Group} {cl : Clause}, u.Formed → u.runWord exec gid g cl = .next v →
      (if v.waited then none else some (Host.Outcome.next v : Res)) = some (.next t) → t.Formed := by
    intro u v g cl hu hv hwaited
    split at hwaited
    · cases hwaited
    · cases hwaited
      exact hu.runWord hv
  unfold State.trial at h
  split at h
  · cases h
  rename_i g _
  split at h
  · cases h
  dsimp only at h
  have hactive := hs.asActive gid g
  split at h
  · split at h
    · exact hword hs ‹_› h
    · rename_i hnot
      exact absurd (Option.some.inj h) (hnot t)
  · split at h
    · rename_i s' hs'
      have hissued : s'.Formed := exec_formed (s := { s.asActive gid g with waited := false }) hactive hs'
      have hheader : ∀ {u : State} {r : Option Report},
          (if r.isSome then (s.asActive gid g).headerReport exec gid else none) = some u → u.Formed := by
        intro u r hu
        split at hu
        · exact hactive.headerReport hu
        · cases hu
      split at h
      · obtain ⟨u, hu, hut⟩ := Option.map_eq_some_iff.1 h
        cases hut
        exact hheader hu
      split at h
      · cases h
        exact hissued
      split at h
      · cases h
        exact hissued
      · split at h
        · exact hword hissued ‹_› h
        · rename_i hnot
          exact absurd (Option.some.inj h) (hnot t)
      · rename_i s0 _ hs0
        split at h
        · cases h
          exact (hheader hs0).of_eq (State.pickBelow_hbm s0 2)
        · split at h
          · rename_i hv
            exact hword (hissued.of_eq (State.pickBelow_hbm s' 2)) hv h
          · rename_i hnot
            exact absurd (Option.some.inj h) (hnot t)
    · rename_i hnot
      exact absurd (Option.some.inj h) (hnot t)

theorem State.Formed.endCycle {s : State} (hs : s.Formed) (core sl errors : Nat) (active all ready : List Nat)
    (chosen : Option Nat) : (s.endCycle core sl errors active all ready chosen).Formed :=
  hs.of_eq (by simp)

theorem State.Formed.sliceCycle {s t : State} (hs : s.Formed) {core sl errors : Nat}
    (h : s.sliceCycle exec core sl errors = .next t) : t.Formed := by
  unfold State.sliceCycle at h
  dsimp only at h
  have hticked : ∀ gids : List Nat, (gids.foldl State.stallTick s).Formed := fun gids =>
    .foldl (fun _ _ hu => hu.of_eq (State.stallTick_hbm ..)) gids hs
  split at h
  · cases h
    exact (hticked _).endCycle ..
  · split at h
    · rename_i hrun
      cases h
      exact ((hticked _).trial hrun).endCycle ..
    · rename_i r hnot _
      exact absurd h (hnot t)
    · cases h
      exact hticked _

end Sys2Proof.Machine

namespace Sys2Proof

open Machine

/-- Settles O5: what time and errors do before a turn's act, the events, firmware's settings, the flits offered and the word
of a slice cycle all keep the form. -/
theorem stepKeepsMemoryForm : Obligations.StepKeepsMemoryForm := by
  intro s t hs h
  unfold step stepWith at h
  dsimp only at h
  have hbegun : (s.nextTurn.2.begin_ s.nextTurn.1).Formed := by
    refine State.Formed.begin_ (State.Formed.of_eq (s := s) hs ?_) _
    unfold State.nextTurn
    split <;> rfl
  split at h
  · split at h
    · exact exec_formed hbegun h
    · cases h
      exact hbegun
  · cases h
    exact hbegun.of_eq (State.applySetting_hbm ..)
  · cases h
    exact hbegun.of_eq (State.offerFlit_hbm ..)
  · exact hbegun.sliceCycle h

end Sys2Proof
end

