-- ==== Sys2Proof/Proofs/BarrierWindows.lean ====
section
/-!
PROOFS. Events on barriers, release phases and the end of a window (R338 to R351): what each leaves of the barrier's record,
and which arrival records it clears.
-/

namespace Sys2Proof.Machine

/-! ### Reading a barrier -/

theorem State.bar?_setBar {s : State} {id : BarId} {b : Barrier} (h : s.bar? id = some b) (n : Barrier) :
    (s.setBar id n).bar? id = some n := by
  cases id <;> simp only [State.bar?, Option.bind_eq_some_iff] at h
  case block k ix =>
    obtain ⟨x, hx, hb⟩ := h
    simp [State.bar?, State.setBar, State.updBlock, Tab.get?_upd, hx, hb]
  case gang l k ix =>
    obtain ⟨y, ⟨x, hx, hy⟩, hb⟩ := h
    simp [State.bar?, State.setBar, State.updLaunch, Tab.get?_upd, hx, hy, hb]
  case grid l ix =>
    obtain ⟨x, hx, hb⟩ := h
    simp [State.bar?, State.setBar, State.updLaunch, Tab.get?_upd, hx, hb]

theorem State.bar?_congr {s t : State} (h : t.work = s.work) (id : BarId) : t.bar? id = s.bar? id := by
  cases id <;> simp only [State.bar?, h]

@[simp] theorem State.setBar_groups (s : State) (id : BarId) (b : Barrier) : (s.setBar id b).groups = s.groups := by
  cases id <;> rfl

@[simp] theorem State.clearArrivals_work (s : State) (id : BarId) (gen : Nat) (p : Group → Bool) :
    (s.clearArrivals id gen p).work = s.work := rfl

theorem Barrier.event_eq (b : Barrier) (e : Nat × Int) : ∃ a x p, b.event e = { b with arrived := a, expbytes := x, posted := p } := by
  unfold Barrier.event
  repeat' split
  all_goals exact ⟨_, _, _, rfl⟩

/-! ### Clearing records -/

/-- The group `g'` is `g` but for its arrival records, and its record of a barrier stands or is clear. -/
structure Group.Clears (id : BarId) (g g' : Group) : Prop where
  rest : ∃ a, g' = { g with arrivals := a }
  record : Tab.get? g'.arrivals (barKey id) = Tab.get? g.arrivals (barKey id) ∨ Tab.get? g'.arrivals (barKey id) = none

/-- What clears the records of group `gid` for a barrier leaves: the work, and the group but for its records. It clears the
record of every generation of `gens`. -/
structure ClearsRecords (id : BarId) (gid : Nat) (g : Group) (gens : Nat → Prop) (s t : State) : Prop where
  work : t.work = s.work
  group : t.GroupIs gid fun g' => g.Clears id g' ∧
    ∀ n, gens n → Tab.get? g.arrivals (barKey id) = some n → Tab.get? g'.arrivals (barKey id) = none

theorem ClearsRecords.refl {id : BarId} {s : State} {gid : Nat} {g : Group} (hg : Tab.get? s.groups gid = some g) :
    ClearsRecords id gid g (fun _ => False) s s :=
  ⟨rfl, g, hg, ⟨⟨_, rfl⟩, .inl rfl⟩, nofun⟩

/-- A core's own records: of a group that belongs to the barrier, stands on the core and is not evicted. -/
structure State.Holds (s : State) (id : BarId) (core : Nat) (g : Group) : Prop where
  owned : s.ownedBy id g = true
  core : g.core = core
  stands : s.evicted g = false

theorem State.block?_congr {s t : State} (h : t.work = s.work) (g : Group) (a : Tab Nat) :
    t.block? { g with arrivals := a } = s.block? g := by
  simp only [State.block?, h]

theorem State.ownedBy_congr {s t : State} (h : t.work = s.work) (id : BarId) (g : Group) (a : Tab Nat) :
    t.ownedBy id { g with arrivals := a } = s.ownedBy id g := by
  cases id with
  | block | grid => rfl
  | gang => simp [State.ownedBy, State.block?_congr h]

theorem State.evicted_congr {s t : State} (h : t.work = s.work) (g : Group) (a : Tab Nat) :
    t.evicted { g with arrivals := a } = s.evicted g := by
  simp [State.evicted, State.block?_congr h]

/-- Clearing one more generation on the groups a test names. -/
theorem ClearsRecords.clearArrivals {id : BarId} {s t : State} {gid : Nat} {g : Group} {gens : Nat → Prop}
    (h : ClearsRecords id gid g gens s t) (ho : s.ownedBy id g = true) (gen : Nat) (p : Group → Bool)
    (hp : ∀ a, p { g with arrivals := a } = true) :
    ClearsRecords id gid g (fun n => gens n ∨ n = gen) s (t.clearArrivals id gen p) := by
  obtain ⟨hwork, g', hg', ⟨⟨a, rfl⟩, hrec⟩, hclear⟩ := h
  refine ⟨hwork, ?_⟩
  simp only [State.GroupIs, State.clearArrivals, Tab.get?_mapVals, hg', Option.map_some]
  split
  · exact ⟨_, rfl, ⟨⟨_, rfl⟩, .inr (by simp [Tab.get?_del])⟩, fun _ _ _ => by simp [Tab.get?_del]⟩
  next hne =>
    refine ⟨_, rfl, ⟨⟨_, rfl⟩, hrec⟩, ?_⟩
    rintro n (hn | rfl) hrec'
    · exact hclear n hn hrec'
    · exact hrec.resolve_left fun he => hne (by simp [State.ownedBy_congr hwork, ho, hp, he.trans hrec'])

theorem State.Holds.test {s t : State} {id : BarId} {core : Nat} {g : Group} (h : s.Holds id core g) (ht : t.work = s.work)
    (a : Tab Nat) : (decide (g.core = core) && !t.evicted { g with arrivals := a }) = true :=
  Bool.and_eq_true_iff.2 ⟨decide_eq_true h.core, by rw [State.evicted_congr ht, h.stands]; rfl⟩

/-- The records of a list of generations clear on a core in turn. -/
theorem State.Holds.foldl_clears {s : State} {id : BarId} {core gid : Nat} {g : Group} (h : s.Holds id core g)
    (ws : List (Nat × Nat × Nat)) : ∀ {t : State} {gens : Nat → Prop}, ClearsRecords id gid g gens s t →
    ClearsRecords id gid g (fun n => gens n ∨ n ∈ ws.map Prod.fst) s (ws.foldl
      (fun (s' : State) w => s'.clearArrivals id w.1 fun g => g.core = core && !s.evicted g) t) := by
  induction ws with
  | nil => exact fun ht => by simpa using ht
  | cons w ws ih =>
    intro t gens ht
    simpa [or_assoc] using ih (ht.clearArrivals h.owned w.1 _ (h.test rfl))

theorem State.Holds.clearTails {s : State} {id : BarId} {core gid : Nat} {g : Group} (h : s.Holds id core g) (b : Barrier)
    (hg : Tab.get? s.groups gid = some g) :
    ClearsRecords id gid g (fun n => ∃ w ∈ b.tails, s.phaseTime w.2.1 w.2.2 core = true ∧ w.1 = n) s
      (s.clearTails id b core) := by
  have hclears := h.foldl_clears (b.tails.filter fun w => s.phaseTime w.2.1 w.2.2 core) (.refl hg)
  simpa [State.clearTails, and_assoc] using hclears

theorem State.foldl_clearArrivals_frame (id : BarId) (p : Group → Bool) (ws : List (Nat × Nat × Nat)) : ∀ t : State,
    (ws.foldl (fun (s' : State) w => s'.clearArrivals id w.1 p) t).work = t.work ∧
    (ws.foldl (fun (s' : State) w => s'.clearArrivals id w.1 p) t).hub = t.hub ∧
    (ws.foldl (fun (s' : State) w => s'.clearArrivals id w.1 p) t).now = t.now := by
  induction ws with
  | nil => exact fun _ => ⟨rfl, rfl, rfl⟩
  | cons w ws ih => exact fun t => ih (t.clearArrivals id w.1 p)

theorem State.clearTails_frame (s : State) (id : BarId) (b : Barrier) (core : Nat) :
    (s.clearTails id b core).work = s.work ∧ (s.clearTails id b core).hub = s.hub ∧ (s.clearTails id b core).now = s.now :=
  State.foldl_clearArrivals_frame id _ _ s

theorem State.phaseTime_clearTails (s : State) (id : BarId) (b : Barrier) (core t0 map k : Nat) :
    (s.clearTails id b core).phaseTime t0 map k = s.phaseTime t0 map k := by
  obtain ⟨-, hhub, hnow⟩ := s.clearTails_frame id b core
  simp [State.phaseTime, State.cyclesSince, State.phase, State.spacing, hhub, hnow]

/-! ### Events (R338 to R347) -/

theorem State.barEvent_held {s : State} {id : BarId} {b : Barrier} (h : s.bar? id = some b) (hb : b.held = true)
    (e : Nat × Int) : s.barEvent id e = s.setBar id { b with queue := b.queue ++ [e] } := by
  simp [State.barEvent, h, hb]

theorem Barrier.event_held (b : Barrier) (e : Nat × Int) : (b.event e).held = b.held := by
  obtain ⟨a, x, p, h⟩ := b.event_eq e
  rw [h]

theorem Barrier.event_releasing (b : Barrier) (e : Nat × Int) : (b.event e).releasing = b.releasing := by
  obtain ⟨a, x, p, h⟩ := b.event_eq e
  rw [h]

/-- A counted event is evaluated at once. -/
theorem State.barEvent_counted {s : State} {id : BarId} {b : Barrier} (h : s.bar? id = some b) (hb : b.held = false)
    (e : Nat × Int) : s.barEvent id e =
      if (b.event e).met = false then s.setBar id (b.event e)
      else if b.releasing = true then (s.setBar id (b.event e)).setBar id { b.event e with held := true }
      else (s.setBar id (b.event e)).completeBar id (b.event e) := by
  simp only [State.barEvent, h, hb, State.evalBar, State.bar?_setBar h, Barrier.event_held, Barrier.event_releasing]
  cases (b.event e).met <;> simp

/-- The record of a barrier whose generation completes (R338). -/
structure Barrier.Renewed (b n : Barrier) (id : BarId) : Prop where
  gen : n.gen = !b.gen
  counts : n.arrived = 0 ∧ n.expbytes = 0 ∧ n.posted = 0
  expected : n.expected = b.members + b.kept
  held : n.held = b.held
  releasing : n.releasing = true ↔ ∀ k ix, id ≠ .block k ix

theorem Barrier.gen_succ {b n : Barrier} (h : n.num = b.num + 1) : n.gen = !b.gen := by
  simp only [Barrier.gen, h]
  rcases Nat.mod_two_eq_zero_or_one b.num with hm | hm <;> simp [Nat.add_mod, hm]

theorem State.completeBar_renews {s : State} {id : BarId} {b : Barrier} (h : s.bar? id = some b) (b' : Barrier) :
    ∃ n, (s.completeBar id b').bar? id = some n ∧ b'.Renewed n id := by
  cases id with
  | block k ix =>
    refine ⟨_, (State.bar?_congr (State.clearArrivals_work ..) _).trans (State.bar?_setBar h _), Barrier.gen_succ rfl,
      ⟨rfl, rfl, rfl⟩, rfl, rfl, ?_⟩
    exact ⟨nofun, fun hn => absurd rfl (hn k ix)⟩
  | gang l k ix =>
    exact ⟨_, State.bar?_setBar (id := .gang l k ix) h _, Barrier.gen_succ rfl, ⟨rfl, rfl, rfl⟩, rfl, rfl, fun _ => nofun,
      fun _ => rfl⟩
  | grid l ix =>
    exact ⟨_, State.bar?_setBar (id := .grid l ix) h _, Barrier.gen_succ rfl, ⟨rfl, rfl, rfl⟩, rfl, rfl, fun _ => nofun,
      fun _ => rfl⟩

/-- A block's barrier releases its records at once (R347). -/
theorem State.completeBar_block {s : State} {k ix gid : Nat} {g : Group} {b : Barrier}
    (hg : Tab.get? s.groups gid = some g) (ho : s.ownedBy (.block k ix) g = true)
    (hrec : Tab.get? g.arrivals (barKey (.block k ix)) = some b.num) :
    (s.completeBar (.block k ix) b).GroupIs gid fun g' => Tab.get? g'.arrivals (barKey (.block k ix)) = none := by
  have hclears : ClearsRecords (.block k ix) gid g _ (s.setBar (.block k ix) _)
      (s.completeBar (.block k ix) b) :=
    (ClearsRecords.refl (by simpa using hg)).clearArrivals (by simpa [State.ownedBy] using ho) b.num (fun _ => true)
      fun _ => rfl
  obtain ⟨-, g', hg', -, hclear⟩ := hclears
  exact ⟨g', hg', hclear _ (.inr rfl) hrec⟩

/-! ### A core's phase and the window's end (R350, R351) -/

theorem State.phaseRelease_eq {s : State} {id : BarId} {b : Barrier} (h : s.bar? id = some b) (core : Nat) :
    s.phaseRelease id core =
      if b.releasing = true ∧ s.phaseTime b.t0 b.map core = true then
        ((s.clearTails id b core).clearArrivals id b.relNum fun g =>
          g.core = core && !(s.clearTails id b core).evicted g).setBar id { b with cleared := dedup (b.cleared ++ [core]) }
      else s.clearTails id b core := by
  simp only [State.phaseRelease, h, State.phaseTime_clearTails, Bool.and_eq_true]

theorem State.Holds.phaseRelease {s : State} {id : BarId} {core gid : Nat} {g : Group} (h : s.Holds id core g) {b : Barrier}
    (hb : s.bar? id = some b) (hg : Tab.get? s.groups gid = some g) :
    (s.phaseRelease id core).GroupIs gid fun g' => ∀ n,
      ((∃ w ∈ b.tails, s.phaseTime w.2.1 w.2.2 core = true ∧ w.1 = n) ∨
        (b.releasing = true ∧ s.phaseTime b.t0 b.map core = true ∧ n = b.relNum)) →
      Tab.get? g.arrivals (barKey id) = some n → Tab.get? g'.arrivals (barKey id) = none := by
  have htails := h.clearTails b hg
  rw [State.phaseRelease_eq hb]
  split
  · have hclears := htails.clearArrivals h.owned b.relNum
      (fun g => g.core = core && !(s.clearTails id b core).evicted g)
      (h.test htails.work)
    obtain ⟨-, g', hg', -, hclear⟩ := hclears
    refine ⟨g', by simpa using hg', fun n hn => hclear n ?_⟩
    exact hn.imp_right fun ⟨_, _, he⟩ => he
  next hnot =>
    obtain ⟨-, g', hg', -, hclear⟩ := htails
    exact ⟨g', hg', fun n hn => hclear n (hn.resolve_right fun ⟨hr, ht, _⟩ => hnot ⟨hr, ht⟩)⟩

theorem State.phaseRelease_bar {s : State} {id : BarId} {b : Barrier} (h : s.bar? id = some b) {core : Nat}
    (hr : b.releasing = true) (ht : s.phaseTime b.t0 b.map core = true) :
    (s.phaseRelease id core).bar? id = some { b with cleared := dedup (b.cleared ++ [core]) } := by
  rw [State.phaseRelease_eq h, if_pos ⟨hr, ht⟩]
  exact State.bar?_setBar ((State.bar?_congr (t := State.clearArrivals ..) (s.clearTails_frame id b core).1 id).trans h) _

/-- The window of a barrier ends (R351). -/
theorem State.windowEnd_ends {s : State} {id : BarId} {b : Barrier} (h : s.bar? id = some b) (hr : b.releasing = true)
    (ht : s.cyclesSince b.t0 (b.top * s.spacing b.map + 64) = true)
    (hcores : ∀ e ∈ s.members id, s.evicted e.2 = false → e.2.core ∈ b.cleared ∨ b.top < s.phase b.map e.2.core) :
    s.windowEnd id =
      if b.held then
        ((s.setBar id { b with tails := s.tailsOf id b, held := false, releasing := false, queue := [] }).completeBar id
          { b with tails := s.tailsOf id b, held := false, releasing := false, queue := [] }).drainBar id b.queue
      else s.setBar id { b with tails := s.tailsOf id b, releasing := false } := by
  have hall : ((s.members id).all fun e =>
      s.evicted e.2 || b.cleared.contains e.2.core || decide (b.top < s.phase b.map e.2.core)) = true := by
    rw [List.all_eq_true]
    intro e he
    cases hev : s.evicted e.2
    · simpa using hcores e he hev
    · simp
  simp only [State.windowEnd, h, hr, ht, hall, Bool.and_self, if_true]

theorem State.mem_tailsOf (s : State) (id : BarId) (b : Barrier) (w : Nat × Nat × Nat) :
    w ∈ s.tailsOf id b ↔ (w ∈ b.tails ∨ w = (b.relNum, b.t0, b.map)) ∧
      ∃ e ∈ s.members id, Tab.get? e.2.arrivals (barKey id) = some w.1 := by
  simp [State.tailsOf, or_and_right]

end Sys2Proof.Machine

namespace Sys2Proof
open Machine

/-- Settles O41: each event goes through the equation for what the barrier's unit does with it, and what a phase clears is
followed through the ended windows and the released generation. -/
theorem barrierEvents : Obligations.BarrierEvents := by
  unfold Obligations.BarrierEvents
  refine ⟨?_, ?_, ?_⟩
  · intro s id b e hb b' t
    refine ⟨fun hheld => ?_, fun hheld hmet => ?_, fun hheld hmet hr => ?_, fun hheld hmet hr => ?_⟩
    · simp only [t, State.barEvent_held hb hheld]
      exact ⟨State.bar?_setBar hb _, State.setBar_groups ..⟩
    · simp only [t, State.barEvent_counted hb hheld, if_pos hmet, b']
      exact ⟨State.bar?_setBar hb _, State.setBar_groups ..⟩
    · simp only [t, State.barEvent_counted hb hheld, b', hr] at hmet ⊢
      simp only [hmet, Bool.true_eq_false, if_false, if_true]
      exact State.bar?_setBar (State.bar?_setBar hb _) _
    · have heq : t = (s.setBar id b').completeBar id b' := by
        simp only [t, State.barEvent_counted hb hheld, b', hr] at hmet ⊢
        simp [hmet]
      obtain ⟨a, x, p, hevent⟩ := b.event_eq e
      obtain ⟨n, hn, hgen, ⟨harr, hexp, hpost⟩, hexpected, -, hrel⟩ := State.completeBar_renews (State.bar?_setBar hb b') b'
      simp only [b', hevent] at hgen hexpected
      rw [heq]
      refine ⟨n, hn, hgen, harr, hexp, hpost, hexpected, hrel, ?_⟩
      rintro ⟨k, ix, rfl⟩ gid g hg ho hrec
      refine State.completeBar_block (by simpa using hg) (by simpa [State.ownedBy] using ho) ?_
      simpa only [b', hevent] using hrec
  · intro s id b hb hr
    refine ⟨fun core ht => ⟨_, rfl, ⟨_, State.phaseRelease_bar hb hr (decide_eq_true ht), rfl, ?_⟩, ?_⟩, fun ht hcores =>
      ⟨_, rfl, fun hheld => ?_, fun hheld hq => ?_⟩⟩
    · simp [mem_dedup]
    · intro gid g hg ho hc hev hrec
      exact (State.Holds.phaseRelease ⟨ho, hc, hev⟩ hb hg).imp fun g' hclear =>
        hclear _ (.inr ⟨hr, decide_eq_true ht, rfl⟩) hrec
    · rw [State.windowEnd_ends hb hr (decide_eq_true ht) hcores, if_neg (by simp [hheld])]
      exact ⟨_, State.bar?_setBar hb _, rfl, s.mem_tailsOf id b⟩
    · rw [State.windowEnd_ends hb hr (decide_eq_true ht) hcores, if_pos hheld, hq]
      obtain ⟨n, hn, hgen, ⟨harr, -, -⟩, -, hnheld, -⟩ := State.completeBar_renews (State.bar?_setBar hb _) _
      exact ⟨n, hn, hgen, hnheld, harr⟩
  · intro s id b core gid g hb hg ho hc hev w hw ht hrec
    exact ⟨_, rfl, (State.Holds.phaseRelease ⟨ho, hc, hev⟩ hb hg).imp fun g' hclear =>
      hclear _ (.inl ⟨w, hw, decide_eq_true ht, rfl⟩) hrec⟩

end Sys2Proof
end

