-- ==== Sys2Proof/Proofs/BarrierWords.lean ====
section
/-!
PROOFS. The barrier words (R340 to R344): an arrival with its token, the wait of BARW and of an arrived BARS, and BAREXP.
-/

namespace Sys2Proof.Machine

section
variable {s : State} {gid : Nat} {g : Group} {cl : Clause} {bar : BarName} {b : Barrier}

/-- The state once group `gid` has arrived at a barrier in the generation `gen` (R341). -/
def State.arrivedAt (s : State) (gid : Nat) (g : Group) (bar : BarName) (gen : Nat) : State :=
  ((s.released gid (barScopeOf bar.scope)).setGroup gid
    { g with arrivals := Tab.set g.arrivals (arrKey bar) gen }).barEvent (s.barId g bar) (0, 0)

theorem State.arrive_eq (hb : s.bar? (s.barId g bar) = some b) :
    (s.setGroup gid g).arrive gid g bar = (b.arriveGen, s.arrivedAt gid g bar b.arriveGen) := by
  have hbar : (s.setGroup gid g).bar? (s.barId g bar) = some b := (State.bar?_congr rfl _).trans hb
  have hset : ∀ g', ((s.setGroup gid g).released gid (barScopeOf bar.scope)).setGroup gid g' =
      (s.released gid (barScopeOf bar.scope)).setGroup gid g' := fun g' => State.setGroup_setGroup (s.released ..) gid g g'
  have hid : (s.setGroup gid g).barId g bar = s.barId g bar := rfl
  simp only [State.arrive, hid, hbar, Option.map_some, Option.getD_some, hset]
  rfl

theorem State.arrivedAt_group (s : State) (gid : Nat) (g : Group) (bar : BarName) (gen : Nat) :
    ∃ a, Tab.get? (s.arrivedAt gid g bar gen).groups gid = some { g with arrivals := a } :=
  (State.barEvent_changesBarriers ..).groups gid { g with arrivals := Tab.set g.arrivals (arrKey bar) gen }
    (Tab.get?_set_same ..)

@[simp] theorem State.arrivedAt_hbm (s : State) (gid : Nat) (g : Group) (bar : BarName) (gen : Nat) :
    (s.arrivedAt gid g bar gen).hbm = s.hbm :=
  State.barEvent_hbm ..

/-! ### Arriving (R341, R343) -/

theorem exec_bara_arrives {d : Reg} (hr : Ready (.bara d bar) s gid g cl) (hs : Steady g) (hact : g.active ≠ 0#64)
    (hb : s.bar? (s.barId g bar) = some b) (harr : Tab.has g.arrivals (arrKey bar) = false)
    (hmet : (s.setGroup gid g).releaseMet gid g (barScopeOf bar.scope) = true) :
    ∃ a, Answers (exec (.bara d bar) s) fun t => SentFrom (s.arrivedAt gid g bar b.arriveGen) t gid { g with arrivals := a }
      (g.dest d 0 fun _ => barToken b.arriveGen bar) := by
  obtain ⟨a, ha⟩ := s.arrivedAt_group gid g bar b.arriveGen
  have hne := Group.dest_ne_nil hact d 0 fun _ => barToken b.arriveGen bar
  have heff : baraEff d bar (s.setGroup gid g) gid g cl =
      .done ((s.arrivedAt gid g bar b.arriveGen).sent gid { g with arrivals := a }
        (g.dest d 0 fun _ => barToken b.arriveGen bar)) .seq [] := by
    simp only [baraEff, State.arrive_eq hb, beq_iff_eq, if_neg hact, harr, hmet, ha, Option.getD_some, Bool.not_true,
      Bool.or_self, Bool.false_eq_true, if_false, State.sendVals_eq _ _ _ _ hne]
    rfl
  exact ⟨a, _, issue_of_done hr heff (Tab.get?_set_same ..) ⟨hs.step, hs.lanes⟩, State.completed_sentFrom ..⟩

theorem exec_bars_arrives (hr : Ready (.bars bar) s gid g cl) (hact : g.active ≠ 0#64) (htok : g.barsTok = none)
    (hb : s.bar? (s.barId g bar) = some b) (harr : Tab.has g.arrivals (arrKey bar) = false)
    (hmet : (s.setGroup gid g).releaseMet gid g (barScopeOf bar.scope) = true) :
    exec (.bars bar) s = .next ((s.arrivedAt gid g bar b.arriveGen).updGroup gid fun g =>
      { g with barsTok := some (b.arriveGen % 2) }) := by
  have heff : barsEff bar (s.setGroup gid g) gid g cl = .done ((s.arrivedAt gid g bar b.arriveGen).updGroup gid fun g =>
      { g with barsTok := some (b.arriveGen % 2) }) .gone [] := by
    simp only [barsEff, State.arrive_eq hb, beq_iff_eq, if_neg hact, htok, harr, hmet, Bool.not_true, Bool.or_self,
      Bool.false_eq_true, if_false]
  show issue (.bars bar) (barsEff bar) s = _
  rw [issue_ready hr, heff]
  rfl

/-! ### Going on (R342, R343) -/

/-- What keeps a group that waits with the generation bit `t` (R342): its record of that generation, or its loads. -/
def State.Waits (s : State) (gid : Nat) (g : Group) (bar : BarName) (t : Bool) : Prop :=
  (∃ n, Tab.get? g.arrivals (arrKey bar) = some n ∧ decide (n % 2 = 1) = t) ∨ (s.setGroup gid g).acquireMet gid = false

theorem State.barwMet_iff (t : Bool) : (s.setGroup gid g).barwMet gid g bar t = true ↔ ¬s.Waits gid g bar t := by
  simp [State.barwMet, State.Waits, not_or]

theorem State.acquired_setGroup (s : State) (gid : Nat) (g : Group) :
    Tab.get? ((s.setGroup gid g).acquired gid).groups gid = some { g with seen := s.seenBy g } :=
  (Tab.get?_upd ..).trans (by rw [if_pos rfl, State.setGroup_groups, Tab.get?_set_same]; rfl)

theorem Group.advance_seen (g : Group) (seen : List Nat) (cl : Clause) (i : Instr) (flow : Flow) :
    { g with seen := seen }.advance cl i flow = { g.advance cl i flow with seen := seen } := by
  unfold Group.advance
  dsimp only
  split <;> rfl

/-- A group that goes on from a barrier has moved on and seen the lines of its acquire; nothing else has changed but what
descriptors have been observed. -/
structure GoesOn (s t : State) (gid : Nat) (g : Group) (cl : Clause) (i : Instr) : Prop where
  rest : t = { s with groups := t.groups, views := t.views }
  others : ∀ k, k ≠ gid → Tab.get? t.groups k = Tab.get? s.groups k
  group : Tab.get? t.groups gid = some { g.advance cl i .seq with seen := s.seenBy g }

theorem goesOn_of_barResume {i : Instr} {eff : State → Nat → Group → Clause → Eff} {g' : Group} (hr : Ready i s gid g cl)
    (hs : Steady g') (hexec : exec i s = issue i eff s)
    (heff : eff (s.setGroup gid g) gid g cl = barResume (s.setGroup gid g) gid g') :
    Answers (exec i s) fun t => GoesOn s t gid g' cl i := by
  have hres : barResume (s.setGroup gid g) gid g' = .done ((s.setGroup gid g').acquired gid) .seq [] := by
    rw [barResume, State.setGroup_setGroup]
  refine ⟨_, hexec.trans (issue_of_done hr (heff.trans hres) (s.acquired_setGroup gid g') ⟨hs.step, hs.lanes⟩), ?_, ?_, ?_⟩
  · rw [State.completed_frame]
    rfl
  · intro k hk
    rw [State.completed_groups, Tab.get?_set_ne _ _ hk]
    refine (Tab.get?_upd ..).trans ?_
    rw [if_neg hk, State.setGroup_groups, Tab.get?_set_ne _ _ hk]
  · rw [State.completed_groups, Tab.get?_set_same, Group.advance_seen]

theorem barw_goesOn {a : Reg} (hr : Ready (.barw a bar) s gid g cl) (hs : Steady g) (hact : g.active ≠ 0#64)
    (hgo : ¬s.Waits gid g bar ((g.sval a 0).getLsbD 8)) :
    Answers (exec (.barw a bar) s) fun t => GoesOn s t gid g cl (.barw a bar) :=
  goesOn_of_barResume (eff := barwEff a bar) hr hs rfl (by
    simp only [barwEff, beq_iff_eq, if_neg hact, if_pos ((State.barwMet_iff _).2 hgo)])

theorem exec_barw_waits {a : Reg} (hr : Ready (.barw a bar) s gid g cl) (hact : g.active ≠ 0#64)
    (hwait : s.Waits gid g bar ((g.sval a 0).getLsbD 8)) : exec (.barw a bar) s = .next s.notIssued :=
  issue_of_wait (eff := barwEff a bar) hr (by
    simp only [barwEff, beq_iff_eq, if_neg hact, if_neg (mt (State.barwMet_iff _).1 (not_not.2 hwait))])

theorem bars_goesOn {t : Nat} (hr : Ready (.bars bar) s gid g cl) (hs : Steady g) (hact : g.active ≠ 0#64)
    (htok : g.barsTok = some t) (hgo : ¬s.Waits gid g bar (decide (t = 1))) :
    Answers (exec (.bars bar) s) fun u => GoesOn s u gid { g with barsTok := none } cl (.bars bar) :=
  goesOn_of_barResume (eff := barsEff bar) hr ⟨hs.step, hs.lanes⟩ rfl (by
    simp only [barsEff, beq_iff_eq, if_neg hact, htok, if_pos ((State.barwMet_iff _).2 hgo)])

theorem exec_bars_waits {t : Nat} (hr : Ready (.bars bar) s gid g cl) (hact : g.active ≠ 0#64) (htok : g.barsTok = some t)
    (hwait : s.Waits gid g bar (decide (t = 1))) : exec (.bars bar) s = .next s.notIssued :=
  issue_of_wait (eff := barsEff bar) hr (by
    simp only [barsEff, beq_iff_eq, if_neg hact, htok, if_neg (mt (State.barwMet_iff _).1 (not_not.2 hwait))])

/-! ### BAREXP (R344) -/

theorem exec_barexp_adds {a : Reg} (hr : Ready (.barexp a bar) s gid g cl) (hs : Steady g) (hact : g.active ≠ 0#64) :
    Answers (exec (.barexp a bar) s) fun t => t.hbm = s.hbm ∧
      t.work = ((s.setGroup gid g).barEvent (s.barId g bar) (1, (g.sval a 0).toInt)).work := by
  obtain ⟨arrivals, hg⟩ := (State.barEvent_changesBarriers (s.setGroup gid g) (s.barId g bar)
    (1, (g.sval a 0).toInt)).groups gid g (Tab.get?_set_same ..)
  have heff : barexpEff a bar (s.setGroup gid g) gid g cl =
      .done ((s.setGroup gid g).barEvent (s.barId g bar) (1, (g.sval a 0).toInt)) .seq [] := by
    simp only [barexpEff, beq_iff_eq, if_neg hact, State.setGroup_setGroup]
    rfl
  refine ⟨_, issue_of_done (eff := barexpEff a bar) hr heff hg ⟨hs.step, hs.lanes⟩, ?_, State.completed_work ..⟩
  rw [State.completed_hbm, State.barEvent_hbm, State.setGroup_hbm]

end

end Sys2Proof.Machine

namespace Sys2Proof
open Machine

/-- Settles O42: an arrival is the same for BARA and BARS, and so is going on for BARW and an arrived BARS. -/
theorem barrierInstructions : Obligations.BarrierInstructions := by
  unfold Obligations.BarrierInstructions
  intro s gid g cl bar b hact id arrived token waits goesOn
  have hgoesOn : ∀ {i : Instr} {g₁ : Group}, s.seenBy g₁ = s.seenBy g →
      Answers (exec i s) (fun t => GoesOn s t gid g₁ cl i) → goesOn i g₁ := fun hseen h =>
    h.imp fun t ⟨hrest, hothers, hgroup⟩ => ⟨hrest, hothers, by rw [hgroup, hseen]⟩
  refine ⟨fun d hr hs hb harr hmet => ?_, fun a hr hs _ => exec_barexp_adds hr hs hact,
    fun a hr hs hgo => hgoesOn rfl (barw_goesOn hr hs hact hgo), fun a hr hwait => exec_barw_waits hr hact hwait,
    fun hr htok hb harr hmet => ⟨_, exec_bars_arrives hr hact htok hb harr hmet, rfl, ?_⟩, fun t hr htok =>
    ⟨fun hs hgo => hgoesOn rfl (bars_goesOn hr hs hact htok hgo), fun hwait => exec_bars_waits hr hact htok hwait⟩⟩
  · obtain ⟨a, hsent⟩ := exec_bara_arrives hr hs hact hb harr hmet
    exact hsent.imp fun t ht => ⟨ht.hbm.trans (s.arrivedAt_hbm ..), ht.work, ht.sends.imp fun _ hsends => hsends.1⟩
  · obtain ⟨a, ha⟩ := s.arrivedAt_group gid g bar b.arriveGen
    exact ⟨{ g with arrivals := a, barsTok := some (b.arriveGen % 2) }, (Tab.get?_upd ..).trans (by rw [if_pos rfl, ha]; rfl),
      rfl, hr.clause⟩

end Sys2Proof
end

