-- ==== Sys2Proof/Proofs/SteppedGroup.lean ====
section
/-!
PROOFS. Why CausesAfterWords fails: its results of a register-only word are those of RanOnce, and a group whose BARS has arrived
and waits passes over the checks (R343), so LSHUP with a scalar destination (R161) issues, which writes a vector register's lane.
-/

namespace Sys2Proof.Machine

/-- The group of twoLaneState with a single step armed (R372). -/
def steppedGroup : Group := { twoLaneGroup with step := true }

/-- A launch with a trap handler. -/
def handledLaunch : Launch := { probeLaunch [] with handler := some 0 }

/-- The machine with that group and launch, whose core has no save area. -/
def steppedState : State :=
  { twoLaneState with
    groups := [(0, steppedGroup)]
    cores := []
    work := { twoLaneState.work with launches := [(0, handledLaunch)] } }

theorem lshupToScalar_stepped : Ready lshupToScalar steppedState 0 steppedGroup arrivedClause where
  cur := rfl
  group := by decide
  clause := rfl
  checked := by decide
  free := by decide
  report := by decide

/-- The group as LSHUP's result would leave it, in the scalar that the word names. -/
def shiftedGroup : Group := steppedGroup.exchanged (steppedState.native steppedGroup) lshupToScalar (.s 1)

theorem lshupToScalar_ranOnce :
    RanOnce lshupToScalar steppedGroup (steppedState.native steppedGroup) shiftedGroup where
  ran := .inr (.inr (.inr (.inl ⟨.s 1, some 1#32, by decide, rfl⟩)))

end Sys2Proof.Machine

namespace Sys2Proof

open Machine

/-- Refutes O19: with a BARS token, LSHUP to a scalar passes the checks; before the single step is taken, the model has written
a vector register's lane, and the stated result is in the scalar. -/
theorem not_causesAfterWords : ¬ Obligations.CausesAfterWords := by
  intro h
  obtain ⟨-, -, -, hstep⟩ := h steppedState 0 steppedGroup arrivedClause
  have heq := congrArg answeredVectors
    (hstep lshupToScalar shiftedGroup lshupToScalar_stepped lshupToScalar_ranOnce (by decide) rfl rfl rfl)
  have hmodel : answeredVectors (exec lshupToScalar steppedState) = some [(64, 1#32)] := by decide
  have hstated : answeredVectors (.next (((steppedState.after 0 shiftedGroup arrivedClause lshupToScalar).updGroup 0 fun x =>
      { x with step := false }).raise 0 arrivedClause (.plain 0x15) arrivedClause.pos
        (resumeAfter arrivedClause lshupToScalar) false)) = some [] := by decide
  rw [hmodel, hstated] at heq
  cases heq

end Sys2Proof
end

