-- ==== Sys2Proof/Proofs/TrapsTaken.lean ====
section
/-!
PROOFS. A trap that is raised (R354 to R360): its entry where a save area is free, the end of the task otherwise, and the first ten
words of its record.
-/

namespace Sys2Proof.Machine

/-! ### Entering the handler (R357, R358) -/

section
variable {s : State} {gid : Nat} {g : Group} {l : Launch} {code : CodeLoad} {handler : Nat}

/-- The group with its trap raised and its clause left. -/
def Group.raised (g : Group) (f : TrapFrame) : Group := { g.flush with trap := some f, clause := none, ctxwait := false }

theorem Group.raised_core (g : Group) (f : TrapFrame) : (g.raised f).core = g.core := g.flush_core

/-- The frame of a trap that is raised (R354 to R360). -/
def State.raisedFrame (s : State) (g : Group) (cl : Clause) (c : Cause) (word resume : Nat) (header : Bool) : TrapFrame :=
  ⟨s.record g cl c word resume g.dropped,
    if resume = 0 then none else some { cl with
      pos := resume, skipBp := if c.code = 0x10 ∨ cl.skipBp = resume then resume else 0, reentry := true },
    header, s.nextId, false, none, g.flush.lanes, [], [], []⟩

/-- Nothing is left to land once the writes have landed. -/
theorem Group.raised_flush (g : Group) (f : TrapFrame) : (g.raised f).flush = g.raised f := by
  rw [Group.flush, Group.raised]
  rfl

/-- A trap with the newest number waits for no other. -/
theorem State.trapAhead_newest {n : Nat} {f : TrapFrame} (h : s.trapAhead g n = false) (hf : f.raised = n) :
    (s.setGroup gid (g.raised f)).trapAhead (g.raised f) n = false := by
  simp only [State.trapAhead, List.any_eq_false, State.setGroup_groups, Group.raised_core] at h ⊢
  intro e he
  obtain rfl | he := Tab.mem_set he
  · simp [Group.raised, hf]
  · exact h e he

/-- A raised trap that enters at once interrupts the group as it stood. -/
theorem InHandler.of_raised {t : State} {entry : Nat} {f : TrapFrame} {record : List Word} {g' : Group}
    (h : InHandler t gid (g.raised f) entry record g') : InHandler t gid g entry record g' := by
  obtain ⟨hhere, hentered, ⟨f', area, hf', hrecord, hlanes, harea, hlt, hareas⟩, hclause, ⟨hin, hv, hs⟩, hact, hlpc, hfresh⟩ := h
  rw [Group.raised_flush] at hlanes hv hs hact
  rw [Group.raised_core] at hareas
  exact ⟨hhere, hentered, ⟨f', area, hf', hrecord, hlanes, harea, hlt, hareas⟩, hclause, ⟨hin, hv, hs⟩, hact, hlpc, hfresh⟩

theorem TrapEnters.handler_some (h : TrapEnters s g l code handler) : (s.launch? g).bind Launch.handler = some handler := by
  rw [h.launch]
  exact h.handler

theorem TrapEnters.inHandler (h : TrapEnters s g l code handler) (hg : Tab.get? s.groups gid = some g) (cl : Clause) (c : Cause)
    (word resume : Nat) (header : Bool) :
    ∃ g', InHandler (s.raise gid cl c word resume header) gid g (code.base + handler)
      (s.record g cl c word resume g.dropped) g' := by
  let f := s.raisedFrame g cl c word resume header
  have hraise : s.raise gid cl c word resume header = (s.fresh.2.setGroup gid (g.raised f)).tryEnter gid :=
    State.raise_takes s gid cl c word resume header g handler hg h.trap h.handler_some
  rw [hraise]
  have hlaunch : g.flush.launch = g.launch := by rw [Group.flush_frame]
  have hres : g.flush.res = g.res := by rw [Group.flush_frame]
  obtain ⟨g', hin⟩ := State.tryEnter_inHandler (s := s.fresh.2.setGroup gid (g.raised f)) (g := g.raised f) (code := code)
    (handler := handler) (Tab.get?_set_same ..) rfl rfl rfl (hres ▸ h.res)
    (show Tab.get? s.work.launches g.flush.launch = some l from hlaunch ▸ h.launch) h.handler
    (show s.codeOf (clusterOf g.flush.core) g.flush.launch = some code by rw [Group.flush_core, hlaunch]; exact h.code)
    (show s.freeAreas g.flush.core ≠ [] by rw [Group.flush_core]; exact h.free)
    (State.trapAhead_newest (s := s.fresh.2) (h.first s.nextId) rfl) h.awake
  exact ⟨g', hin.of_raised⟩

end

/-! ### Ending the task (R356, R359) -/

/-- A task that ends on a trap: its status, its faults, and no group left. -/
theorem ends_of_kill {s : State} {gid : Nat} {g : Group} {l : Launch} {j : Job} (hg : Tab.get? s.groups gid = some g)
    (hl : s.launch? g = some l) (hnone : l.status = none) (hj : Tab.get? s.work.jobs l.job = some j) (rs : List (List Word))
    (status : Nat) :
    let t := (s.updJob (s.jobOf g) fun j => { j with faults := j.faults ++ rs }).killLaunch g.launch status
    (Tab.get? t.work.launches g.launch).map Launch.status = some (some status) ∧
      (Tab.get? t.work.jobs l.job).map Job.faults = some (j.faults ++ rs) ∧ Tab.get? t.groups gid = none := by
  have hjob : s.jobOf g = l.job := by simp [State.jobOf, hl]
  refine ⟨?_, ?_, State.get?_killLaunch hg status⟩
  · exact (State.killLaunch_status (s.updJob ..) g.launch status l hl).trans (by rw [hnone]; rfl)
  · show (Tab.get? (Tab.upd s.work.jobs (s.jobOf g) _) l.job).map Job.faults = _
    rw [hjob, Tab.get?_upd, if_pos rfl, hj]
    rfl

/-! ### The record (R360) -/

theorem loWord_toNat (n : Nat) : (loWord n).toNat = n % 2 ^ 32 := BitVec.toNat_ofNat ..

/-- The two words of a mask. -/
theorem hiWord_append_loWord (m : Mask) : hiWord m.toNat ++ loWord m.toNat = m := by
  refine BitVec.eq_of_toNat_eq ?_
  have hm := m.isLt
  rw [BitVec.toNat_append, loWord_toNat, hiWord, BitVec.toNat_ofNat,
    ← Nat.shiftLeft_add_eq_or_of_lt (Nat.mod_lt _ (by decide)), Nat.shiftLeft_eq]
  omega

theorem State.record_cause (s : State) (g : Group) (cl : Clause) {c : Cause} (word resume dropped : Nat)
    (hc : c.code < 2 ^ 8) : (recWord (s.record g cl c word resume dropped) 0).toNat =
      c.code + (if c.code = 0x13 ∨ c.code = 0x14 then 0 else 2 ^ 8) + (if g.recov.isSome then 2 ^ 9 else 0) +
        (if c.code = 0x0D ∨ (c.code = 0x01 ∧ cl.hw = 0#32) then 0 else 2 ^ 10) := by
  have hprecise : (if c.precise = true then 256 else 0) = if c.code = 0x13 ∨ c.code = 0x14 then 0 else 2 ^ 8 := by
    by_cases h13 : c.code = 0x13 <;> by_cases h14 : c.code = 0x14 <;> simp [Cause.precise, h13, h14]
  have hresumable : (if (!(c.code = 0x0D || (c.code = 0x01 && cl.hw = 0#32))) = true then 1024 else 0) =
      if c.code = 0x0D ∨ (c.code = 0x01 ∧ cl.hw = 0#32) then 0 else 2 ^ 10 := by
    by_cases h0D : c.code = 0x0D <;> by_cases h01 : c.code = 0x01 ∧ cl.hw = 0#32 <;> simp [h0D, h01]
  refine (loWord_toNat _).trans ((Nat.mod_eq_of_lt ?_).trans ?_)
  · repeat' split
    all_goals omega
  · rw [hprecise, hresumable]
    rfl

theorem State.record_place (s : State) {g : Group} (cl : Clause) (c : Cause) {word resume : Nat} (dropped : Nat)
    (hw : word < 16) (hr : resume < 16) (hrep : g.lanes.rep ≤ g.lanes.repN) (hn : g.lanes.repN < 2 ^ 8) :
    (recWord (s.record g cl c word resume dropped) 3).toNat = word + resume * 2 ^ 8 + g.lanes.rep * 2 ^ 16 +
      (if g.lanes.rep = 0 then 0 else g.lanes.repN - g.lanes.rep + 1) * 2 ^ 24 := by
  refine (loWord_toNat _).trans ?_
  split <;> omega

/-- Bit 10 of a park deadlock's record (R360). -/
theorem TrapFrame.current_resumable (f : TrapFrame) (h : (recWord f.record 0).toNat % 2 ^ 8 = 0x0D) :
    (recWord f.current 0).getLsbD 10 = decide (f.lanes.active ≠ 0#64) := by
  have hhead : f.record.headD 0#32 = recWord f.record 0 := by cases hf : f.record <;> rfl
  have hdead : bitsOf (recWord f.record 0).toNat 0 8 = 0x0D := by rw [bitsOf_eq, Nat.pow_zero, Nat.div_one, h]
  have hword : recWord f.current 0 = loWord ((recWord f.record 0).toNat - bitsOf (recWord f.record 0).toNat 10 1 * 1024 +
      (if f.lanes.active != 0#64 then 1024 else 0)) := by
    simp only [TrapFrame.current, hhead, hdead, if_true]
    rfl
  have hlt := (recWord f.record 0).isLt
  rw [hword, ← BitVec.testBit_toNat, loWord_toNat, bitsOf_eq, Nat.testBit_eq_decide_div_mod_eq]
  by_cases hact : f.lanes.active = 0#64 <;> simp [hact] <;> omega

end Sys2Proof.Machine

namespace Sys2Proof

open Machine

/-- Settles O20: the entry is that of a trap that waits (tryEnter_inHandler), and a task without one ends by ends_of_kill. -/
theorem trapsTaken : Obligations.TrapsTaken := by
  unfold Obligations.TrapsTaken
  refine ⟨fun s gid g cl c word resume header l code handler hg _ henters => henters.inHandler hg cl c word resume header,
    fun s gid g cl c word resume header l j hg hl hnone hj => ⟨fun htrap hhandler => ?_, fun f hf => ?_⟩,
    fun s g cl c word resume dropped hc hd hh hw hr hrep hn => ?_, fun f => f.current_resumable⟩
  · rw [State.raise_ends s gid cl c word resume header g hg htrap (by rw [hl]; exact hhandler)]
    exact ends_of_kill hg hl hnone hj _ 6
  · rw [State.raise_again s gid cl c word resume header g f hg hf]
    exact ends_of_kill hg hl hnone hj _ 7
  · have hhead : cl.header < 2 ^ 32 := Nat.lt_trans hh (by decide)
    exact ⟨s.record_cause g cl word resume dropped hc, (loWord_toNat _).trans (Nat.mod_eq_of_lt hd),
      (loWord_toNat _).trans (Nat.mod_eq_of_lt hhead), s.record_place cl c dropped hw hr hrep hn, hiWord_append_loWord _,
      hiWord_append_loWord _, hiWord_append_loWord _⟩

end Sys2Proof
end

