-- ==== Sys2Proof/Proofs/TrapReturn.lean ====
section
/-!
PROOFS. TRET (R363, R364, R370): which resume points it takes, what the return restores, and where it raises a cause of its own.
-/

namespace Sys2Proof.Machine

/-! ### Resume points (R364) -/

theorem maskWords_eq (lo hi : Word) : maskWords lo hi = hi ++ lo := by
  refine BitVec.eq_of_toNat_eq ?_
  have hlo := lo.isLt
  have hhi := hi.isLt
  rw [maskWords, BitVec.toNat_ofNat, BitVec.toNat_append, ← Nat.shiftLeft_add_eq_or_of_lt hlo, Nat.shiftLeft_eq]
  omega

theorem recResume_lt (r : List Word) : recResume r < 16 := bitsOf_lt ..

section
variable (words : Nat → Word)

theorem wordStart_lt_succ (n : Nat) : wordStart words n < wordStart words (n + 1) := by
  simp only [wordStart]
  split <;> omega

theorem wordStart_strictMono : StrictMono (wordStart words) := strictMono_nat_of_lt_succ (wordStart_lt_succ words)

theorem lt_wordStart (n : Nat) : n < wordStart words n := by
  induction n with
  | zero => exact Nat.one_pos
  | succ n ih => exact Nat.lt_of_le_of_lt ih (wordStart_lt_succ words n)

/-- The walk over a clause's words finds the second word of each two-word instruction that it comes to. -/
theorem secondWord_of_start {r n : Nat} (hr : wordStart words n + 1 = r) (htwo : isTwoWord (words (wordStart words n)) = true) :
    ∀ fuel m, m ≤ n → n < m + fuel → secondWord words r (wordStart words m) fuel = true := by
  intro fuel
  induction fuel with
  | zero => exact fun m _ _ => by omega
  | succ fuel ih =>
    intro m hm hfuel
    have hle : wordStart words m ≤ wordStart words n := (wordStart_strictMono words).monotone hm
    unfold secondWord
    rw [if_neg (by omega), if_neg (by omega)]
    obtain rfl | hlt := hm.eq_or_lt
    · simp [htwo, hr]
    · have hnext : (if isTwoWord (words (wordStart words m)) = true then wordStart words m + 2 else wordStart words m + 1) =
          wordStart words (m + 1) := by
        simp only [wordStart]
        split <;> rfl
      simp only [hnext, ih (m + 1) hlt (by omega), ite_self]

end

section
variable {s : State} {g : Group} {f : TrapFrame}

/-- What the rule asks of a resume point (R364). -/
theorem State.resumeOk_elim (h : s.resumeOk g f = true) :
    (recWord f.record 7 ++ recWord f.record 6) &&& ~~~(recWord f.record 9 ++ recWord f.record 8) = 0#64 ∧
    ((recWord f.record 0).toNat % 2 ^ 8 = 0x0D → f.lanes.active ≠ 0#64) ∧
    ((recWord f.record 0).toNat % 2 ^ 8 ≠ 0x0D → (recWord f.record 0).getLsbD 10 = true) ∧
    (f.header = true → recResume f.record = 0) ∧
    (f.header = false → recResume f.record ≠ 0 →
      recResume f.record ≤ hdrN (s.codeWord g (recWord f.record 2).toNat) ∧
      secondWord (fun i => s.codeWord g ((recWord f.record 2).toNat + i)) (recResume f.record) 1 15 = false ∧
      ∀ k, k < 64 → (recWord f.record 9 ++ recWord f.record 8).getLsbD k = true →
        Tab.getD f.lanes.lpc k 0 = (recWord f.record 2).toNat) := by
  simp only [State.resumeOk, maskWords_eq, Bool.and_eq_true, beq_iff_eq, bitsOf_eq, Nat.pow_zero, Nat.div_one] at h
  obtain ⟨⟨hserved, hcause⟩, hplace⟩ := h
  refine ⟨hserved, fun hd => bne_iff_ne.1 ((if_pos hd).symm.trans hcause),
    fun hd => (if_neg hd).symm.trans hcause,
    fun hh => by simpa [hh] using hplace, fun hh hr => ?_⟩
  simpa [hh, hr, mem_maskList, and_assoc] using hplace

/-- A resume point that the rule rejects is rejected. -/
theorem BadResume.resumeOk (h : BadResume s g f) : s.resumeOk g f = false := by
  refine Bool.eq_false_iff.2 fun hok => ?_
  obtain ⟨hserved, hdead, hresumable, hheader, hplace⟩ := State.resumeOk_elim hok
  obtain hbad | ⟨hcause, hbit⟩ | ⟨hcause, hact⟩ | ⟨hh, hr⟩ | ⟨hh, hbad⟩ := h.bad
  · exact hbad hserved
  · exact Bool.eq_false_iff.1 hbit (hresumable hcause)
  · exact hdead hcause hact
  · exact hr (hheader hh)
  · have hr : recResume f.record ≠ 0 := by
      rintro h0
      obtain hlt | ⟨n, hn, -⟩ | ⟨hr, -⟩ := hbad
      · exact Nat.not_lt_zero _ (h0 ▸ hlt)
      · exact Nat.succ_ne_zero _ (hn.trans h0)
      · exact hr h0
    obtain ⟨hle, hsecond, hlanes⟩ := hplace hh hr
    obtain hlt | ⟨n, hn, htwo⟩ | ⟨-, k, hk, hserved, hne⟩ := hbad
    · exact Nat.not_lt.2 hle hlt
    · have hn15 : n < 0 + 15 := by
        have := lt_wordStart (fun k => s.codeWord g ((recWord f.record 2).toNat + k)) n
        have := recResume_lt f.record
        omega
      exact Bool.eq_false_iff.1 hsecond (secondWord_of_start _ hn htwo 15 0 n.zero_le hn15)
    · exact hne (hlanes k hk hserved)

end

/-! ### What the return restores (R363) -/

theorem Tab.get?_restore {α : Type} {es : Tab α} (hn : (es.map Prod.fst).Nodup) (k : Nat) : ∀ t : Tab α,
    Tab.get? (es.foldl (fun t e => Tab.set t e.1 e.2) t) k = (Tab.get? es k).or (Tab.get? t k) := by
  induction es with
  | nil => exact fun _ => rfl
  | cons e es ih =>
    intro t
    obtain ⟨hnot, hn⟩ := List.nodup_cons.1 hn
    rw [List.foldl_cons, ih hn, Tab.get?_set, Tab.get?_cons]
    by_cases hk : e.1 = k
    · have hnone : Tab.get? es k = none := by
        cases hes : Tab.get? es k with
        | none => rfl
        | some x => exact absurd (List.mem_map.2 ⟨_, Tab.get?_mem hes, hk.symm⟩) hnot
      simp [hk, hnone]
    · simp [hk, Ne.symm hk]

/-- Registers that hold saved values where the trap saved them (R363). -/
def restored (saved : Nat → Bool) (old new : Tab Word) : Tab Word :=
  new.foldl (fun t e => Tab.set t e.1 e.2) (Tab.keep old fun k _ => !saved k)

theorem getD_restored_saved {saved : Nat → Bool} {old new : Tab Word} (hn : (new.map Prod.fst).Nodup) {k : Nat}
    (hk : saved k = true) : Tab.getD (restored saved old new) k 0#32 = Tab.getD new k 0#32 := by
  rw [Tab.getD, Tab.getD, restored, Tab.get?_restore hn, Tab.get?_keep_key, hk]
  simp

theorem getD_restored_other {saved : Nat → Bool} {old new : Tab Word} (hn : (new.map Prod.fst).Nodup) {k : Nat}
    (hk : saved k = false) (hsaved : ∀ e ∈ new, saved e.1 = true) :
    Tab.getD (restored saved old new) k 0#32 = Tab.getD old k 0#32 := by
  have hnone : Tab.get? new k = none := by
    cases hnew : Tab.get? new k with
    | none => rfl
    | some x => exact absurd (hsaved _ (Tab.get?_mem hnew)) (by simp [hk])
  rw [Tab.getD, Tab.getD, restored, Tab.get?_restore hn, Tab.get?_keep_key, hk, hnone]
  simp

/-- The clause that a return re-enters (R364). -/
def State.resumeClause (s : State) (g : Group) (f : TrapFrame) : Clause :=
  ⟨(recWord f.record 2).toNat, s.codeWord g (recWord f.record 2).toNat, recResume f.record,
    maskWords (recWord f.record 6) (recWord f.record 7), maskWords (recWord f.record 8) (recWord f.record 9),
    if (f.clause.map Clause.skipBp).getD 0 = recResume f.record then recResume f.record else 0, true⟩

/-- The group as its return leaves it (R363). -/
def State.returned (s : State) (g : Group) (f : TrapFrame) : Group :=
  { g.flush with
    v := restored (fun k => g.flush.savedReg (.v (k / 64))) g.flush.v f.sv
    s := restored (fun k => g.flush.savedReg (.s k)) g.flush.s f.ss
    lanes := if f.clause.isSome && recResume f.record = 0 && !f.header then
      endClause f.lanes (s.resumeClause g.flush f) false else f.lanes
    trap := none
    clause := if recResume f.record = 0 then none else some (s.resumeClause g.flush f)
    pend := g.flush.pend.map fun e => { e with saved := false } }

section
variable (s : State) (gid : Nat) (g : Group) (f : TrapFrame)

theorem State.leaveTrap_eq : s.leaveTrap gid g f = (s.setGroup gid (s.returned g f)).updCore g.flush.core fun c =>
    { c with areas := Tab.keep c.areas fun _ k => k ≠ gid } := rfl

theorem State.leaveTrap_group : Tab.get? (s.leaveTrap gid g f).groups gid = some (s.returned g f) := Tab.get?_set_same ..

theorem State.leaveTrap_areas {c : Core} (hc : Tab.get? (s.leaveTrap gid g f).cores g.core = some c) (area : Nat) :
    (area, gid) ∉ c.areas := by
  rw [State.leaveTrap_eq, Group.flush_core] at hc
  obtain ⟨c₀, -, rfl⟩ := Option.map_eq_some_iff.1 (((Tab.get?_upd ..).trans (if_pos rfl)).symm.trans hc)
  simp [Tab.keep]

theorem State.returned_lanes :
    (s.returned g f).lanes.active = f.lanes.active ∧ (s.returned g f).lanes.parked = f.lanes.parked := by
  unfold State.returned
  dsimp only
  split
  · rw [endClause_frame]
    exact ⟨rfl, rfl⟩
  · exact ⟨rfl, rfl⟩

theorem Group.flush_savedReg (r : PReg) : g.flush.savedReg r = g.savedReg r := by rw [Group.flush_frame]; cases r <;> rfl

theorem State.returned_deadlocked : (s.returned g f).deadlocked =
    (!g.done && f.lanes.active == 0#64 && f.lanes.parked.any fun e => e.2 != 0#64) := by
  obtain ⟨hact, hparked⟩ := s.returned_lanes g f
  have hdone : (s.returned g f).done = g.done := by
    show g.flush.done = g.done
    rw [Group.flush_frame]
  rw [Group.deadlocked, hact, hparked, hdone]

end

/-! ### TRET -/

section
variable {s : State} {gid : Nat} {g : Group} {cl : Clause} {f : TrapFrame}

/-- The return, or the fault, of a TRET that nothing holds up. -/
theorem tretEff_eq (hf : g.trap = some f) (hexec : g.exec ≠ 0#64) (hpend : ∀ e ∈ g.pend, e.handler = false)
    (hbad : BadLoc.saveArea gid ∉ s.bad) (hawake : s.asleep ((f.area.map (areaSegs g.core)).getD []) = false) :
    tretEff s gid g cl = if s.resumeOk g f then
      .done ((s.touch ((f.area.map (areaSegs g.core)).getD [])).tretDone gid g cl f) .gone [] else .trap (.plain 0x02) := by
  have hpend : (g.pend.any fun e => e.handler) = false := by simpa using hpend
  have hbad : (s.bad.any fun b => b = .saveArea gid) = false := by
    simp only [List.any_eq_false, decide_eq_true_eq]
    rintro b hb rfl
    exact hbad hb
  simp only [tretEff, hf, beq_iff_eq, hexec, if_false, hpend, hawake, hbad, Bool.false_eq_true]

/-- A cause in the handler ends the task (R359). -/
theorem endsTask_of_again {i : Instr} {c : Cause} (hr : Ready i s gid g cl) (hf : g.trap = some f)
    (htraps : Traps i s gid cl c) : EndsTask i s g 7 := by
  obtain ⟨g₀, hg₀, rfl⟩ := Option.map_eq_some_iff.1 hr.group
  rw [Group.landDue_frame] at hf
  refine ⟨_, htraps, State.raise_hbm .., ?_⟩
  rw [State.raise_again s gid cl c cl.pos cl.pos false g₀ f hg₀ hf, Group.landDue_frame]
  refine ⟨fun k x hx hl => ?_, fun l hl hnone => ?_⟩
  · rw [show g₀.launch = x.launch from hl.symm]
    exact State.get?_killLaunch hx 7
  · exact (State.killLaunch_status (s.updJob ..) g₀.launch 7 l hl).trans (by rw [hnone]; rfl)

variable (hr : Ready .tret s gid g cl) (hf : g.trap = some f) (hexec : g.exec ≠ 0#64)
  (hpend : ∀ e ∈ g.pend, e.handler = false) (hbad : BadLoc.saveArea gid ∉ s.bad)
  (hawake : s.asleep ((f.area.map (areaSegs g.core)).getD []) = false)
include hr hf hexec hpend hbad hawake

theorem tret_rejects (h : BadResume s g f) : Traps .tret s gid cl (.plain 0x02) := by
  have hno : (s.setGroup gid g).resumeOk g f = false := h.resumeOk
  have heff : tretEff (s.setGroup gid g) gid g cl = .trap (.plain 0x02) := by
    rw [tretEff_eq (s := s.setGroup gid g) hf hexec hpend hbad hawake, hno, if_neg Bool.false_ne_true]
  exact issue_of_trap (eff := tretEff) hr heff

theorem exec_tret_returns (hok : s.resumeOk g f = true) :
    exec .tret s = .next
      (((s.setGroup gid g).touch ((f.area.map (areaSegs g.core)).getD [])).tretDone gid g cl f) := by
  have hok : (s.setGroup gid g).resumeOk g f = true := hok
  show issue .tret tretEff s = _
  rw [issue_ready hr, tretEff_eq (s := s.setGroup gid g) hf hexec hpend hbad hawake, if_pos hok]
  rfl

end

/-- A return with no further cause raises a park deadlock, or none (R100). -/
theorem State.tretDone_eq (s : State) (gid : Nat) (g : Group) (cl : Clause) {f : TrapFrame} (hmore : f.more = []) :
    s.tretDone gid g cl f =
      if recResume f.record = 0 ∧ (!g.done && f.lanes.active == 0#64 && f.lanes.parked.any fun e => e.2 != 0#64) = true then
        (s.leaveTrap gid g f).raise gid cl (.plain 0x0D) cl.pos 0 false
      else s.leaveTrap gid g f := by
  have hclause : (s.returned g f).clause.isNone = decide (recResume f.record = 0) := by
    show (ite _ _ _ : Option Clause).isNone = _
    split <;> simp_all
  simp only [State.tretDone, hmore, State.leaveTrap_group, hclause, State.returned_deadlocked, Bool.and_eq_true,
    decide_eq_true_eq]

/-- What a return restores (R363, R364). -/
structure Returns (s t : State) (gid : Nat) (g : Group) (f : TrapFrame) : Prop where
  areas : ∀ area c, Tab.get? t.cores g.core = some c → (area, gid) ∉ c.areas
  group : Tab.get? t.groups gid = some (s.returned g f)

theorem State.leaveTrap_returns (s : State) (gid : Nat) (g : Group) (f : TrapFrame) :
    Returns s (s.leaveTrap gid g f) gid g f :=
  ⟨fun area _ hc => s.leaveTrap_areas gid g f hc area, s.leaveTrap_group gid g f⟩

end Sys2Proof.Machine

namespace Sys2Proof

open Machine

/-- Settles O21: TRET does what tretDone says or raises the handler fault, and State.returned gives the group it leaves. -/
theorem tretReturns : Obligations.TretReturns := by
  unfold Obligations.TretReturns
  intro s gid g cl f hr hf hexec hpend hbad area hawake
  refine ⟨fun h => ?_, fun hsv hss hok _ => ?_⟩
  · have htraps := tret_rejects hr hf hexec hpend hbad hawake h
    exact ⟨htraps, endsTask_of_again hr hf htraps⟩
  intro r left
  have hdone := exec_tret_returns hr hf hexec hpend hbad hawake hok
  refine ⟨fun hmore hr0 hact hparked hlive => ?_, fun c cs hmore => ?_, fun hmore hquiet => ?_⟩
  · have hany : (f.lanes.parked.any fun e => e.2 != 0#64) = true := by simpa using hparked
    rw [hdone, State.tretDone_eq _ _ _ _ hmore, if_pos ⟨hr0, by simp [hlive, hact, hany]⟩]
  · rw [hdone, State.tretDone, hmore]
  · have hleft : exec .tret s = .next left := by
      rw [hdone, State.tretDone_eq _ _ _ _ hmore, if_neg]
      rintro ⟨hr0, hdead⟩
      simp only [Bool.and_eq_true, beq_iff_eq, List.any_eq_true, bne_iff_ne] at hdead
      obtain ⟨⟨-, hact⟩, e, he, hne⟩ := hdead
      exact hne (hquiet hr0 hact e he)
    obtain ⟨hareas, hgroup⟩ := State.leaveTrap_returns ((s.setGroup gid g).touch area) gid g f
    refine ⟨left, hleft, hareas, _, hgroup, rfl, rfl, fun k lane hl hk => ?_, fun k lane hl hk hsaved => ?_, fun k hk => ?_,
      fun hr0 => ⟨?_, _, if_neg hr0, rfl, rfl, rfl, maskWords_eq .., maskWords_eq ..⟩, fun hr0 => ⟨if_pos hr0, fun h => ?_⟩⟩
    · have hkey : (k * 64 + lane) / 64 = k := by omega
      exact getD_restored_saved hsv (by rw [hkey, Group.flush_savedReg, hk])
    · have hkey : (k * 64 + lane) / 64 = k := by omega
      exact getD_restored_other hsv (by rw [hkey, Group.flush_savedReg, hk])
        fun e he => by rw [Group.flush_savedReg]; exact hsaved e he
    · exact getD_restored_saved (saved := fun k => g.flush.savedReg (.s k)) hss (by rw [Group.flush_savedReg, hk])
    · exact if_neg (by simp [show recResume f.record ≠ 0 from hr0])
    · refine if_neg ?_
      obtain h | h := h <;> simp [h]

end Sys2Proof
end

