-- ==== Sys2Proof/Proofs/RecoveringGroup.lean ====
section
/-!
PROOFS. Why RecoveryRuns fails: a recovery group whose BARS has arrived and waits passes over the checks (R343), and the statement
does not ask that none does. At such a group SGRET may stand before its clause's last word (R92), after which the clause goes on.
-/

namespace Sys2Proof.Machine

/-- The group of twoLaneState as a recovery group, for one entry of slot 0. -/
def recoveringGroup : Group := { twoLaneGroup with recov := some (0, [0]) }

/-- The machine with that group, of a launch whose kernel has a region for slot 0. -/
def recoveringState : State :=
  { twoLaneState with
    groups := [(0, recoveringGroup)]
    work := { twoLaneState.work with launches := [(0, probeLaunch [])] } }

theorem sgret_recovering : Ready (.sgret (.v 0)) recoveringState 0 recoveringGroup arrivedClause where
  cur := rfl
  group := by decide
  clause := rfl
  checked := by decide
  free := by decide
  report := by decide

end Sys2Proof.Machine

namespace Sys2Proof

open Machine

/-- Refutes O51: with a BARS token, SGRET before the clause's last word passes the checks; another lane stays active, and the
group is in its clause still. -/
theorem not_recoveryRuns : ¬ Obligations.RecoveryRuns := by
  intro h
  obtain ⟨-, hsgret⟩ := h recoveringState
  obtain ⟨⟨t, ht, -, -, g, hg, hclause, -⟩, -⟩ := hsgret 0 recoveringGroup arrivedClause (.v 0) 0 [0] ⟨0, 1, 1, 16, 0, 0⟩
    sgret_recovering rfl rfl (by decide) (by decide) rfl (.inr (by decide))
  have hstays : answeredPos (exec (.sgret (.v 0)) recoveringState) = some (some 2) := by decide
  simp [ht, answeredPos, hg, hclause] at hstays

end Sys2Proof
end

