-- ==== Sys2Proof/Proofs/SelfStep.lean ====
section
/-!
PROOFS. Why DebugWords fails: a group whose BARS has arrived and waits passes over the checks (R343), the privilege check among
them (R53), and the statement does not ask that none does. At such a group, outside the handler, a STEP that arms the group's own
step is followed by that step at once (R372).
-/

namespace Sys2Proof.Machine

/-- The group of twoLaneState with the target word of the issuing group in scalar 0. -/
def selfTargetGroup : Group := { twoLaneGroup with s := [(0, 0xFFFFFFFF#32)] }

/-- The machine with that group and a launch with a handler, whose core has no save area. -/
def selfTargetState : State := { steppedState with groups := [(0, selfTargetGroup)] }

/-- STEP of the group by itself. -/
def stepSelf : Instr := .stepArm (.s 1) (.s 0)

theorem stepSelf_ready : Ready stepSelf selfTargetState 0 selfTargetGroup arrivedClause where
  cur := rfl
  group := by decide
  clause := rfl
  checked := by decide
  free := by decide
  report := by decide

/-- Whether an answer leaves a step armed at group 0. -/
def answeredStep : Res → Option Bool
  | .next t => (Tab.get? t.groups 0).map Group.step
  | _ => none

end Sys2Proof.Machine

namespace Sys2Proof

open Machine

/-- Refutes O53: with a BARS token, STEP of a group by itself passes the checks outside the handler; the step is taken after the
word, and none is armed. -/
theorem not_debugWords : ¬ Obligations.DebugWords := by
  rintro ⟨h, -⟩
  obtain ⟨-, -, hstep, -⟩ := h selfTargetState 0 selfTargetGroup arrivedClause (.s 1) (.s 0) ⟨rfl, by decide⟩ (by decide)
  obtain ⟨htarget, -⟩ := hstep stepSelf true (by decide) stepSelf_ready
  obtain ⟨harmed, -⟩ := htarget 0 selfTargetGroup (by decide) (by decide)
  obtain ⟨t, ht, -, -, g, hg, harm⟩ := harmed (.inr (by decide))
  have hnone : answeredStep (exec stepSelf selfTargetState) = some false := by decide
  simp [ht, answeredStep, hg, harm] at hnone

end Sys2Proof
end

