-- ==== Sys2Proof/Proofs/UnpairedCollective.lean ====
section
/-!
PROOFS. Why CollectivesRun fails. An event at which values may land touches the segments in which registers of a group stand that
are pending no more (R186). With a second entry of a group in the table, whose registers the first does not hold pending, a
collective that waits for its pair counts as such an event, and the state is not as it was.
-/

namespace Sys2Proof.Machine

/-- A swapped group with a scalar pending. -/
def awaitingGroup : Group := { arrivedGroup with res := .swapped, pend := [⟨.s 0, 5, false, false⟩] }

/-- Two jobs of one package, as the ranks of a communicator. -/
def pairJob (own : Nat) : Job := { probeJob with comms := [(0, ⟨own, [(0, 0), (0, 1)], 1⟩)] }

/-- A broadcast over that communicator, of a bundle of job 0. -/
def loneColl : CollCmd := ⟨.program 0 0, 0, 0, 0, .bcast, 0#2, [], false⟩

/-- The machine with that collective, for which job 1 has issued none, and with two entries of group 0. -/
def unpairedState : State :=
  { State.reset with
    groups := [(0, arrivedGroup), (0, awaitingGroup)]
    ops := { State.reset.ops with colls := [(0, loneColl)] }
    work := { State.reset.work with jobs := [(0, pairJob 0), (1, pairJob 1)] } }

/-- The segments of the second entry's image. -/
theorem unpairedState_landSegs : unpairedState.landSegs unpairedState (fun _ => false) = awaitingGroup.imageSegs 0 := by
  have hgroups : unpairedState.groups = [(0, arrivedGroup), (0, awaitingGroup)] := rfl
  have hfirst : arrivedGroup.pend = [] := rfl
  have hsecond : awaitingGroup.pend = [⟨.s 0, 5, false, false⟩] := rfl
  have hhome : awaitingGroup.homeSegs 0 false [.s 0] = awaitingGroup.imageSegs 0 := rfl
  simp [State.landSegs, hgroups, Tab.get?_cons, hfirst, hsecond, hhome]

theorem spanSegs_ne_nil (arr : SramArray) (base : Nat) {n : Nat} (h : n ≠ 0) : spanSegs arr base n ≠ [] := by
  have hlen : 0 < (base + n - 1) / 65536 + 1 - base / 65536 := by omega
  rw [spanSegs, if_neg h]
  simpa using hlen.ne'

theorem Tab.set_ne_nil {α : Type} (t : Tab α) (k : Nat) (x : α) : Tab.set t k x ≠ [] := by
  intro h
  have hget := Tab.get?_set_same t k x
  rw [h] at hget
  cases hget

/-- An access to some segment leaves its time. -/
theorem State.touch_touched_ne_nil {ps : List (SramArray × Nat)} (h : ps ≠ []) (s : State) : (s.touch ps).touched ≠ [] := by
  cases hd : dedup ps with
  | nil => exact absurd (dedup_eq_nil.1 hd) h
  | cons p qs =>
    have htouched : (s.touch ps).touched =
        qs.foldl (fun t p => Tab.set t (segKey p) s.now) (Tab.set s.touched (segKey p) s.now) := by
      rw [State.touch, hd, List.foldl_cons]
    rw [htouched]
    exact List.foldlRecOn (motive := fun t : Tab Nat => t ≠ []) qs _ (Tab.set_ne_nil _ _ _) fun _ _ _ _ =>
      Tab.set_ne_nil _ _ _

/-- The collective waits. -/
theorem unpairedState_collEnd : unpairedState.collEnd 0 [] 0 = unpairedState := by
  have hcoll : Tab.get? unpairedState.ops.colls 0 = some loneColl := rfl
  have hcomm : unpairedState.commOf loneColl = some ⟨0, [(0, 0), (0, 1)], 1⟩ := rfl
  have hpairs : unpairedState.pairs 0 loneColl ⟨0, [(0, 0), (0, 1)], 1⟩ = none := rfl
  have hlost : unpairedState.hub.lostPkgs = [] := rfl
  simp [State.collEnd, hcoll, hcomm, hpairs, hlost]

/-- The event touches those segments. -/
theorem exec_unpaired : exec (.collectiveComplete 0 [] 0) unpairedState =
    .next (unpairedState.touch (awaitingGroup.imageSegs 0)) := by
  have hawake : ∀ ps, unpairedState.asleep ps = false := by
    intro ps
    have hretained : unpairedState.retained = [] := rfl
    simp [State.asleep, hretained]
  have hcoll : Tab.get? unpairedState.ops.colls 0 = some loneColl := rfl
  have hordered : unpairedState.ownerOrdered 0 loneColl.owner = true := rfl
  have hexec : exec (.collectiveComplete 0 [] 0) unpairedState = execCollectiveComplete 0 [] 0 unpairedState := rfl
  rw [hexec, execCollectiveComplete, hcoll]
  simp only [hordered, decide_true, Bool.true_or, Bool.and_self, if_true, unpairedState_collEnd]
  rw [ State.landing, unpairedState_landSegs, hawake, if_neg Bool.false_ne_true]

end Sys2Proof.Machine

namespace Sys2Proof

open Machine

/-- Refutes O47: where the table holds a second entry of a group, a collective that waits for its pair touches segments. -/
theorem not_collectivesRun : ¬ Obligations.CollectivesRun := by
  intro h
  obtain ⟨-, -, hwait, -⟩ := h unpairedState
  have hsame := hwait 0 loneColl ⟨0, [(0, 0), (0, 1)], 1⟩ [] 0 rfl rfl (by decide) rfl
  rw [exec_unpaired] at hsame
  have htouched := congrArg State.touched (Host.Outcome.next.inj hsame)
  exact State.touch_touched_ne_nil (spanSegs_ne_nil _ _ (by decide)) _ htouched

end Sys2Proof
end

