-- ==== Sys2Proof/Proofs/FarReadPointer.lean ====
section
/-!
PROOFS. Why HostEvents fails. A write of a queue's write pointer keeps the entries between the pointers, whose number the model
counts with the read pointer modulo the ring's size, and the statement with the read pointer as it is (R379). They differ where
the read pointer lies beyond the ring, which the statement does not exclude.
-/

namespace Sys2Proof.Machine

/-- A ring of two entries, whose read pointer lies beyond it. -/
def farQueue : Sq := ⟨0, false, 1, true, 0, 0, 5, false, false, []⟩

/-- An open port with that queue. -/
def farPort : Port := { Port.reset with up := true, queues := [(0, farQueue)] }

/-- The machine with that port. -/
def farPointerState : State := { State.reset with hub := { Hub.reset with booted := true }, ports := [(0, farPort)] }

/-- The number of entries that an answer has kept for the queue. -/
def answeredKept : Res → Option Nat
  | .next t => (t.sq? 0 0).map fun x => x.snap.length
  | _ => none

end Sys2Proof.Machine

namespace Sys2Proof

open Machine

/-- Refutes O59: where the read pointer 5 stands in a ring of two entries, a write pointer of 0 keeps one entry, and none by the
statement. -/
theorem not_hostEvents : ¬ Obligations.HostEvents := by
  intro h
  obtain ⟨hports, -⟩ := h farPointerState
  obtain ⟨-, -, hopen⟩ := hports 0 farPort rfl
  obtain ⟨-, -, -, -, -, -, hpointer, -⟩ := hopen rfl rfl
  obtain ⟨t, ht, -, y, hy, -, hwp, hsnap⟩ := hpointer 0 farQueue 0#32 rfl
  have hkept : answeredKept (exec (.sqWritePointer 0 0 0#32) farPointerState) = some 1 := by decide
  have hnone : y.snap = [] := by
    rw [hsnap rfl rfl, hwp]
    rfl
  simp [ht, answeredKept, hy, hnone] at hkept

end Sys2Proof
end

