-- ==== Sys2Proof/Proofs/Health.lean ====
section
/-!
PROOFS. Sensors, avoided cores, wear and retention (R186, R187, R392, R411, R414, R416).
-/

namespace Sys2Proof.Machine

section
variable (s : State)

/-! ### Sensors (R411) -/

/-- A sample keeps the sensor's value and changes nothing that a task works with. -/
theorem State.sample_keeps (x : Sensor) (v : Int) :
    SameMemory s (s.sample x v) ∧ (s.sample x v).hub.sensors = (x, v) :: s.hub.sensors.filter fun e => e.1 ≠ x := by
  have hrelax : ∀ (h : Hub) (now : Nat) (p : Int), (h.relax now p).sensors = h.sensors := by
    intro h now p
    unfold Hub.relax
    repeat' split
    all_goals rfl
  cases x
  case power1ms => exact ⟨SameMemory.of_eq rfl rfl rfl, hrelax ..⟩
  all_goals exact ⟨SameMemory.of_eq rfl rfl rfl, rfl⟩

theorem State.sensor_sample_same (x : Sensor) (v : Int) : (s.sample x v).sensor x = v := by
  rw [State.sensor, (s.sample_keeps x v).2]
  simp

theorem State.sensor_sample_other {x y : Sensor} (h : y ≠ x) (v : Int) : (s.sample x v).sensor y = s.sensor y := by
  have hfind : (s.hub.sensors.filter fun e => e.1 ≠ x).find? (fun e => decide (e.1 = y)) =
      s.hub.sensors.find? fun e => decide (e.1 = y) := by
    rw [List.find?_filter]
    refine congrArg (List.find? · s.hub.sensors) (funext fun e => ?_)
    by_cases hy : e.1 = y <;> simp [hy, h]
  rw [State.sensor, (s.sample_keeps x v).2, List.find?_cons_of_neg (by simpa using h.symm), hfind]
  rfl

/-- What a change of a core leaves of it. -/
theorem State.updCore_core {core : Nat} {c : Core} (hc : Tab.get? s.cores core = some c) (f : Core → Core) :
    SameMemory s (s.updCore core f) ∧ Tab.get? (s.updCore core f).cores core = some (f c) :=
  ⟨SameMemory.of_eq rfl rfl rfl, (Tab.get?_upd ..).trans (by rw [if_pos rfl, hc]; rfl)⟩

theorem State.sample_coreTemp {c : Nat} (h : Tab.has s.cores c = true) (v : Int) :
    (Tab.get? (s.sample (.coreTemp c) v).cores c).map Core.temp = some v := by
  obtain ⟨k, hk⟩ := Option.isSome_iff_exists.1 h
  have hcore : Tab.get? (s.sample (.coreTemp c) v).cores c = some { k with temp := v } :=
    (State.updCore_core (s.setHub _) (c := k) hk _).2
  rw [hcore]
  rfl

/-! ### Wear (R414, R416) -/

theorem get?_map_self {α : Type} (f : Nat → α) {k : Nat} {l : List Nat} (hk : k ∈ l) :
    Tab.get? (l.map fun d => (d, f d)) k = some (f k) := by
  induction l with
  | nil => cases hk
  | cons d l ih =>
    rw [List.map_cons, Tab.get?_cons]
    by_cases hd : d = k
    · rw [if_pos hd, hd]
    · rw [if_neg hd, ih ((List.mem_cons.1 hk).resolve_left fun he => hd he.symm)]

theorem get?_map_range {α : Type} (f : Nat → α) {k n : Nat} (h : k < n) :
    Tab.get? ((List.range n).map fun d => (d, f d)) k = some (f k) :=
  get?_map_self f (List.mem_range.2 h)

theorem State.wearAccumulate_counts (h : s.hub.lastWear < s.now / 1000) {n : Nat} (hn : n < 37) :
    s.wearAccumulate.hub.lastWear = s.hub.lastWear + 1 ∧ Tab.get? s.wearAccumulate.hub.wear n =
      some (min (2 ^ 64 - 1) (Tab.getD s.hub.wear n 0 + wearStep (s.sensor (.domainVoltage n)) (s.domainTemp n))) := by
  rw [State.wearAccumulate, if_neg (Nat.not_le.2 h)]
  exact ⟨rfl, get?_map_range (fun d => min (2 ^ 64 - 1) (Tab.getD s.hub.wear d 0 +
    wearStep (s.sensor (.domainVoltage d)) (s.domainTemp d))) hn⟩

theorem State.wearRefresh_reports (h : s.hub.lastReport < s.now / hourNs) {n : Nat} (hn : n < 37) :
    Tab.get? s.wearRefresh.hub.report n = some (s.wearReport n) := by
  rw [State.wearRefresh, if_neg (Nat.not_le.2 h)]
  exact get?_map_range s.wearReport hn

theorem State.wearReport_old {n : Nat} (h : 2 ^ 56 ≤ Tab.getD s.hub.wear n 0) : (s.wearReport n).2.2 = 0 := if_pos h

/-- In its first thirty days the mean rate of a domain is that of its whole life. -/
theorem State.wearReport_young {n : Nat} (h : Tab.getD s.hub.wear n 0 < 2 ^ 56) (hpos : 0 < Tab.getD s.hub.wear n 0)
    (hnow : 0 < s.now) (hyoung : s.service < monthNs) : (s.wearReport n).2.2 =
      min 0xFFFFFFFF ((2 ^ 56 - Tab.getD s.hub.wear n 0) * s.service / (Tab.getD s.hub.wear n 0 * hourNs)) := by
  have haged : s.agedLog = [] := List.filter_eq_nil_iff.2 fun e _ => by
    rw [decide_eq_true_eq]
    omega
  have hservice : 0 < s.service := Nat.lt_of_lt_of_le hnow (Nat.le_add_left ..)
  have hlife : (s.wearReport n).2.2 = wearEnd s.service (Tab.getD s.hub.wear n 0) 0 0 := by
    rw [State.wearReport, haged]
    rfl
  have hrate : (decide (Tab.getD s.hub.wear n 0 ≤ 0) || decide (s.service ≤ 0)) = false := by
    simp [hpos.ne', hservice.ne']
  rw [hlife, wearEnd, if_neg (Nat.not_le.2 h), hrate, if_neg Bool.false_ne_true, Nat.sub_zero, Nat.sub_zero]

/-! ### Retention (R186, R187) -/

theorem State.retain_enters {a : SramArray} {n : Nat} (hn : n < arrSegments a) (hout : (a, n) ∉ s.retained)
    (hmay : a ∉ s.hub.noRetain) (htime : Tab.getD s.touched (segKey (a, n)) 0 + 1000 * s.hub.retainAfter ≤ s.now) :
    s.retain a n = { s with retained := s.retained ++ [(a, n)] } := by
  simp [State.retain, hn, hout, hmay, htime]

end

/-- A place in data, which the table of errors holds; errors elsewhere are counted only. -/
def BadLoc.inData : BadLoc → Bool
  | .array _ _ _ => false
  | _ => true

theorem State.tellError_errors (s : State) (job : Nat) :
    (s.tellError job).bad = s.bad ∧ (s.tellError job).retained = s.retained := by
  have hrecord : (s.eventRecord job).bad = s.bad ∧ (s.eventRecord job).retained = s.retained := by
    unfold State.eventRecord
    split
    · exact ⟨rfl, rfl⟩
    · dsimp only
      split <;> exact ⟨rfl, rfl⟩
  exact hrecord

/-- An error's place joins the table where it is in data; its count and the jobs' records leave the table. -/
theorem State.upset_errors (s : State) (b : BadLoc) :
    (s.upset b).bad = (if BadLoc.inData b then dedup (b :: s.bad) else s.bad) ∧ (s.upset b).retained = s.retained := by
  unfold State.upset
  refine List.foldlRecOn (motive := fun t : State =>
    t.bad = (if BadLoc.inData b then dedup (b :: s.bad) else s.bad) ∧ t.retained = s.retained) _ _ ?_
    fun t ht j _ => ⟨(t.tellError_errors j).1.trans ht.1, (t.tellError_errors j).2.trans ht.2⟩
  dsimp only
  split <;> cases b <;> exact ⟨rfl, rfl⟩

theorem State.upsets_errors (bs : List BadLoc) : ∀ s : State, (bs.foldl State.upset s).retained = s.retained ∧
    ∀ c, c ∈ (bs.foldl State.upset s).bad ↔ c ∈ s.bad ∨ (c ∈ bs ∧ BadLoc.inData c = true) := by
  induction bs with
  | nil => exact fun s => ⟨rfl, fun c => by simp⟩
  | cons b bs ih =>
    intro s
    obtain ⟨hretained, hbad⟩ := ih (s.upset b)
    obtain ⟨hfirst, hkeep⟩ := s.upset_errors b
    refine ⟨hretained.trans hkeep, fun c => ?_⟩
    rw [List.foldl_cons, hbad, hfirst]
    by_cases hb : BadLoc.inData b = true
    · rw [if_pos hb, mem_dedup, List.mem_cons, List.mem_cons]
      by_cases hc : c = b
      · simp [hc, hb]
      · simp [hc]
    · rw [if_neg hb, List.mem_cons]
      by_cases hc : c = b
      · simp [hc, hb]
      · simp [hc]

theorem inData_codeword {b c : BadLoc} (hb : BadLoc.inData b = true) (hc : c ∈ BadLoc.codeword b) :
    BadLoc.inData c = true := by
  obtain ⟨k, -, rfl⟩ := List.mem_map.1 hc
  cases b
  case array => cases hb
  all_goals rfl

theorem State.unretain_leaves {s : State} {a : SramArray} {n : Nat} {bad : List BadLoc} (hin : (a, n) ∈ s.retained)
    (hhit : ∀ b ∈ bad, (a, n) ∈ s.segsOfWord b) :
    let t := s.unretain a n bad
    t.retained = s.retained.erase (a, n) ∧ (bad = [] → t.hbm = s.hbm) ∧
      ∀ c, c ∈ t.bad ↔ c ∈ s.bad ∨ ∃ b ∈ bad, c ∈ BadLoc.codeword b := by
  have hall : (bad.filter fun b => (s.segsOfWord b).contains (a, n)) = bad :=
    List.filter_eq_self.2 fun b hb => List.contains_iff_mem.2 (hhit b hb)
  have ht : s.unretain a n bad = (dedup (bad.flatMap BadLoc.codeword)).foldl State.upset
      { s with retained := s.retained.erase (a, n) } := by
    simp only [State.unretain, List.contains_iff_mem.2 hin, if_true, hall]
  have hdata : ∀ b ∈ bad, BadLoc.inData b = true := by
    intro b hb
    cases b
    case array => cases hhit _ hb
    all_goals rfl
  intro t
  obtain ⟨hretained, hbad⟩ := State.upsets_errors (dedup (bad.flatMap BadLoc.codeword))
    { s with retained := s.retained.erase (a, n) }
  refine ⟨?_, fun hnone => ?_, fun c => ?_⟩
  · exact (congrArg State.retained ht).trans hretained
  · simp only [t, ht, hnone]
    rfl
  · simp only [t, ht, hbad, mem_dedup, List.mem_flatMap]
    refine or_congr_right ⟨fun h => h.1, fun h => ⟨h, ?_⟩⟩
    obtain ⟨b, hb, hc⟩ := h
    exact inData_codeword (hdata b hb) hc

end Sys2Proof.Machine

namespace Sys2Proof

open Machine

/-- Settles O55: each event is the model's own change of a sensor, a core, the wear or the retained segments. -/
theorem healthEvents : Obligations.HealthEvents := by
  unfold Obligations.HealthEvents
  intro s
  refine ⟨fun x v => ⟨_, rfl, (s.sample_keeps x v).1, s.sensor_sample_same x v, fun y hy => s.sensor_sample_other hy v,
    fun c hx hc => hx ▸ s.sample_coreTemp hc v⟩, fun core c hc => ?_, fun hdue => ?_, fun hdue => ?_,
    fun a n hn hout hmay htime => congrArg Host.Outcome.next (s.retain_enters hn hout hmay htime),
    fun a n bad hin hhit => ?_⟩
  · intro recent
    refine ⟨⟨_, rfl, s.updCore_core hc _⟩, fun havoid => ⟨_, rfl, ?_⟩, fun hcool hquiet => ⟨_, rfl, ?_⟩⟩
    · obtain ⟨hmem, hcore⟩ := s.updCore_core hc fun c =>
        if s.hub.tAvoid ≤ c.temp || decide (4 < (c.recent s.now).length) then { c with avoided := true } else c
      exact ⟨hmem, hcore.trans (congrArg some (if_pos (by simp only [Bool.or_eq_true, decide_eq_true_eq]; exact havoid)))⟩
    · obtain ⟨hmem, hcore⟩ := s.updCore_core hc fun c =>
        if c.temp < s.hub.tAvoid - 96 && (c.recent s.now).isEmpty then { c with avoided := false } else c
      have hempty : (c.recent s.now).isEmpty = true := by rw [List.isEmpty_iff]; exact hquiet
      exact ⟨hmem, hcore.trans (congrArg some (if_pos (by rw [hempty]; simpa using hcool)))⟩
  · have hkeeps : SameMemory s s.wearAccumulate := by
      unfold State.wearAccumulate
      split <;> exact SameMemory.of_eq rfl rfl rfl
    exact ⟨_, rfl, hkeeps, (s.wearAccumulate_counts hdue (n := 0) (by decide)).1, fun n hn => (s.wearAccumulate_counts hdue hn).2⟩
  · have hdue : s.hub.lastReport < s.now / hourNs := hdue
    have hnow : 0 < s.now := Nat.pos_of_ne_zero fun h0 => by simp [h0] at hdue
    refine ⟨_, rfl, ?_, ?_, fun n hn => ⟨_, s.wearRefresh_reports hdue hn, s.wearReport_old, fun hlt hpos hyoung =>
      s.wearReport_young hlt hpos hnow hyoung⟩⟩
    · unfold State.wearRefresh
      split <;> exact SameMemory.of_eq rfl rfl rfl
    · rw [State.wearRefresh, if_neg (Nat.not_le.2 hdue)]
      rfl
  · obtain ⟨hretained, hhbm, hbad⟩ := State.unretain_leaves hin hhit
    exact ⟨_, rfl, hretained, hhbm, fun b hb c hc => (hbad c).2 (.inr ⟨b, hb, hc⟩), fun c hc => (hbad c).1 hc⟩

end Sys2Proof
end

