-- ==== Sys2Proof/Proofs/Mailbox.lean ====
section
/-!
PROOFS. The mailbox commands (R378, R419, R421, R426, R435).
-/

namespace Sys2Proof.Machine

/-! ### What every command shares -/

/-- What a command leaves of its port: the answer, and the queues as they were. -/
theorem Port.answerCommand_fields (p : Port) (code : Nat) (out : List Word) :
    (p.answerCommand code out).queues = p.queues ∧ (p.answerCommand code out).doorbell = none ∧
    (p.answerCommand code out).result = BitVec.ofNat 32 (code * 2 ^ 28) ∧
    (p.answerCommand code out).mailOut =
      (List.range out.length).foldl (fun t k => Tab.set t k (out.getD k 0#32)) p.mailOut := by
  unfold Port.answerCommand
  dsimp only
  split
  · unfold Port.raise
    split <;> exact ⟨rfl, rfl, rfl, rfl⟩
  · exact ⟨rfl, rfl, rfl, rfl⟩

theorem Port.answerCommand_mailOut (p : Port) (code : Nat) {out : List Word} {k : Nat} {w : Word} (h : out[k]? = some w) :
    Tab.getD (p.answerCommand code out).mailOut k 0#32 = w := by
  obtain ⟨hk, hw⟩ := List.getElem?_eq_some_iff.1 h
  obtain ⟨-, -, -, hout⟩ := p.answerCommand_fields code out
  have hget : Tab.get? ((List.range out.length).foldl (fun t k => Tab.set t k (out.getD k 0#32)) p.mailOut) k = some (out.getD k 0#32) :=
    Tab.get?_foldl_set (List.range out.length) id (fun k => out.getD k 0#32) (fun _ _ _ _ h => congrArg (out.getD · 0#32) h)
      p.mailOut k (List.mem_range.2 hk)
  rw [hout, Tab.getD, hget, List.getD_eq_getElem?_getD, h]
  rfl

/-- The state in which a command has ended. -/
def Reply.ended (r : Reply) (port : Nat) : State := r.state.updPort port fun p => p.answerCommand r.code r.out

theorem State.command_eq {s : State} {port code : Nat} {p : Port} (h : Rings s port code p) (act : Port → Reply) :
    s.command port code act = (act p).ended port := by
  have hopen : s.portOpen port = true := by simp [State.portOpen, h.booted, h.port, h.up]
  simp [State.command, h.port, hopen, h.code, Reply.ended]

theorem Reply.replied {r : Reply} {port : Nat} (h : Tab.has r.state.ports port = true) :
    Replied (r.ended port) port r.code r.out := by
  obtain ⟨p, hp⟩ := Option.isSome_iff_exists.1 h
  obtain ⟨-, hbell, hres, -⟩ := p.answerCommand_fields r.code r.out
  refine ⟨⟨p.answerCommand r.code r.out, ?_, hbell, hres, fun k w hk => p.answerCommand_mailOut r.code hk⟩⟩
  rw [Reply.ended, State.updPort_ports, Tab.get?_upd, if_pos rfl, hp]
  rfl

theorem Rings.has {s : State} {port code : Nat} {p : Port} (h : Rings s port code p) : Tab.has s.ports port = true := by
  rw [Tab.has, h.port]
  rfl

theorem Tab.has_upd {α : Type} (t : Tab α) (k : Nat) (f : α → α) (j : Nat) : Tab.has (Tab.upd t k f) j = Tab.has t j := by
  rw [Tab.has, Tab.has, Tab.get?_upd]
  split
  · rename_i hj
    rw [Option.isSome_map, hj]
  · rfl

theorem Reply.sq?_ended (r : Reply) (port q : Nat) : (r.ended port).sq? port q = r.state.sq? port q := by
  simp only [State.sq?, Reply.ended, State.updPort_ports, Tab.get?_upd, if_true, Option.bind_map]
  exact congrArg (Option.bind _) (funext fun p => congrArg (Tab.get? · q) (p.answerCommand_fields r.code r.out).1)

/-! ### Registered and unregistered jobs (R378) -/

theorem State.sq?_updSq (s : State) (port q : Nat) (f : Sq → Sq) (q' : Nat) :
    (s.updSq port q f).sq? port q' = if q' = q then (s.sq? port q).map f else s.sq? port q' := by
  simp only [State.sq?, State.updSq, State.updPort_ports, Tab.get?_upd, if_true]
  cases Tab.get? s.ports port with
  | none => simp
  | some p => simp [Tab.get?_upd]

/-- A queue of a job. -/
def Sq.bind (job : Nat) (x : Sq) : Sq := { x with bound := true, job := job }

/-- Binding queues changes the ports only, keeps them present, and binds every queue named. -/
theorem State.bindQueues (port job : Nat) (qs : List Nat) : ∀ s : State,
    let t := qs.foldl (fun (s : State) q => s.updSq port q (Sq.bind job)) s
    t.hbm = s.hbm ∧ t.work = s.work ∧ Tab.has t.ports port = Tab.has s.ports port ∧
      ∀ q x, t.sq? port q = some x → (q ∈ qs ∨ ∀ y, s.sq? port q = some y → y.bound = true ∧ y.job = job) →
        x.bound = true ∧ x.job = job := by
  induction qs with
  | nil => exact fun s => ⟨rfl, rfl, rfl, fun q x hx h => (h.resolve_left List.not_mem_nil) x hx⟩
  | cons q qs ih =>
    intro s
    obtain ⟨hhbm, hwork, hhas, hbound⟩ := ih (s.updSq port q (Sq.bind job))
    refine ⟨hhbm, hwork, hhas.trans ?_, fun q' x hx h => hbound q' x hx ?_⟩
    · exact Tab.has_upd ..
    · rw [State.sq?_updSq]
      by_cases hq : q' = q
      · right
        intro y hy
        rw [if_pos hq] at hy
        obtain ⟨z, -, rfl⟩ := Option.map_eq_some_iff.1 hy
        exact ⟨rfl, rfl⟩
      · rw [if_neg hq]
        exact h.imp_left fun h => (List.mem_cons.1 h).resolve_left hq

/-- What a registered job leaves. -/
theorem State.registered (s : State) (port id : Nat) (j : Job) (qs : List Nat) :
    let r : Reply := ⟨mbOk, [loWord id], qs.foldl (fun (s : State) q => s.updSq port q (Sq.bind id))
      (s.setWork { s.work with jobs := Tab.set s.work.jobs id j })⟩
    Tab.has r.state.ports port = Tab.has s.ports port ∧ (r.ended port).hbm = s.hbm ∧
      Tab.get? (r.ended port).work.jobs id = some j ∧
      ∀ q ∈ qs, ∀ x, (r.ended port).sq? port q = some x → x.bound = true ∧ x.job = id := by
  intro r
  obtain ⟨hhbm, hwork, hhas, hbound⟩ := State.bindQueues port id qs
    (s.setWork { s.work with jobs := Tab.set s.work.jobs id j })
  refine ⟨hhas, hhbm, ?_, fun q hq x hx => hbound q x ((r.sq?_ended port q).symm.trans hx) (.inl hq)⟩
  exact (congrArg (fun w => Tab.get? w.jobs id) hwork).trans (Tab.get?_set_same ..)

/-- A job is registered, or its command refused with nothing done. -/
theorem State.registerJob_cases (s : State) (port : Nat) (p : Port) :
    ((s.registerJob port p).code ≠ 0 ∧ (s.registerJob port p).state = s) ∨
    ∃ id j, id < 64 ∧ Tab.get? s.work.jobs id = none ∧ j.port = port ∧ j.tagBudget = p.arg 0 % 2 ^ 16 ∧
      j.capacity = p.arg 1 % 2 ^ 16 ∧ j.tensorTable = p.arg64 2 ∧ j.objectTable = p.arg64 4 ∧ j.slice = .running ∧
      s.registerJob port p = ⟨mbOk, [loWord id], ((List.range 64).filter fun q => (p.arg64 9).testBit q).foldl
        (fun (s : State) q => s.updSq port q (Sq.bind id)) (s.setWork { s.work with jobs := Tab.set s.work.jobs id j })⟩ := by
  simp only [State.registerJob]
  split
  · exact .inl ⟨Nat.succ_ne_zero _, rfl⟩
  · split
    · exact .inl ⟨Nat.succ_ne_zero _, rfl⟩
    · rename_i id hid
      split
      · exact .inl ⟨Nat.succ_ne_zero _, rfl⟩
      · split
        · exact .inl ⟨Nat.succ_ne_zero _, rfl⟩
        · have hfree : Tab.get? s.work.jobs id = none := by simpa [Tab.has] using List.find?_some hid
          refine .inr ⟨id, _, List.mem_range.1 (List.mem_of_find?_eq_some hid), hfree, rfl, ?_, ?_, rfl, rfl, rfl, rfl⟩
          · exact bitsOf_eq ..|>.trans (by simp)
          · exact bitsOf_eq ..|>.trans (by simp)

theorem State.hasPort_putRecord (s : State) (b : Bundle) (ws : List Word) (k : Nat) :
    Tab.has (s.putRecord b ws).ports k = Tab.has s.ports k := by
  unfold State.putRecord
  dsimp only
  split
  · exact Tab.has_upd ..
  · split <;> rfl

theorem State.hasPort_endBundles (s : State) (job status k : Nat) :
    Tab.has (s.endBundles job status).ports k = Tab.has s.ports k := by
  unfold State.endBundles
  refine List.foldlRecOn (motive := fun t : State => Tab.has t.ports k = Tab.has s.ports k) _ _ rfl fun t ht e _ => ?_
  dsimp only
  split
  · exact (Tab.has_upd ..).trans ((State.hasPort_putRecord ..).trans ht)
  · exact (State.hasPort_putRecord ..).trans ht

/-- A job that is dropped leaves no entry, launch or tag; the ports stay present. -/
theorem State.dropJob_leaves (s : State) (job status : Nat) :
    let t := s.dropJob job status
    (∀ k, Tab.has t.ports k = Tab.has s.ports k) ∧ Tab.get? t.work.jobs job = none ∧
      (∀ e ∈ t.work.launches, e.2.job ≠ job) ∧ ∀ e ∈ t.kennel.tags, e.2.job ≠ job := by
  refine ⟨fun k => ?_, (Tab.get?_del ..).trans (if_pos rfl), fun e he => ?_, fun e he => ?_⟩
  · have hkilled : ∀ ls : List Nat,
        Tab.has (ls.foldl (fun (s : State) l => s.killLaunch l status) s).ports k = Tab.has s.ports k := fun ls =>
      List.foldlRecOn (motive := fun t : State => Tab.has t.ports k = Tab.has s.ports k) ls _ rfl fun t ht l _ => ht
    have hports : ∀ u : State, u.freeCode.dropBad.ports = u.ports := fun _ => rfl
    unfold State.dropJob
    refine (congrArg (Tab.has · k) (hports _)).trans ?_
    rw [State.setWork_ports, State.setHub_ports, Tab.has, Tab.get?_mapVals, Option.isSome_map]
    exact (State.hasPort_endBundles ..).trans (hkilled _)
  · exact of_decide_eq_true (List.mem_filter.1 he).2
  · exact of_decide_eq_true (List.mem_filter.1 he).2

/-! ### Frames and the report (R419, R435) -/

theorem State.hbmRead_rootWrite_bytes (s : State) (a : Nat) (bs : List Byte) :
    (s.rootWrite a ((List.range bs.length).map fun k => (k, bs.getD k 0#8))).hbmRead a bs.length = bs := by
  have hrun : ((List.range bs.length).map fun k => (k, bs.getD k 0#8)) = Tab.run 0 bs.length fun k => bs.getD k 0#8 := by
    simp [Tab.run]
  rw [hrun]
  exact s.hbmRead_rootWrite_run a 0 bs

/-- The frames with those of a range given to a port. -/
def claimedFrames (port first n : Nat) (fs : Tab Nat) : Tab Nat :=
  (List.range n).foldl (fun t k => Tab.set t (first + k) port) fs

theorem get?_claimed (port first n : Nat) (fs : Tab Nat) :
    (∀ k, k < n → Tab.get? (claimedFrames port first n fs) (first + k) = some port) ∧
      ∀ k, (k < first ∨ first + n ≤ k) → Tab.get? (claimedFrames port first n fs) k = Tab.get? fs k :=
  ⟨fun k hk => Tab.get?_foldl_set (List.range n) (first + ·) (fun _ => port) (fun _ _ _ _ _ => rfl) fs k
      (List.mem_range.2 hk),
    fun k hk => Tab.get?_foldl_set_other (List.range n) (first + ·) (fun _ => port) fs fun y hy => by
      have := List.mem_range.1 hy
      omega⟩

theorem Port.frameRange_eq (p : Port) : p.frameRange = (p.arg 0 % 2 ^ 18, p.arg 1) := by
  rw [Port.frameRange, bitsOf_eq, pow_zero, Nat.div_one]

/-- The frames but those of a range that belong to a port. -/
def releasedFrames (port first n : Nat) (fs : Tab Nat) : Tab Nat :=
  fs.filter fun f => !(decide (first ≤ f.1) && decide (f.1 < first + n) && f.2 = port)

theorem mem_releasedFrames {port first n : Nat} {fs : Tab Nat} {f : Nat × Nat} :
    f ∈ releasedFrames port first n fs ↔ f ∈ fs ∧ (f.1 < first ∨ first + n ≤ f.1 ∨ f.2 ≠ port) := by
  rw [releasedFrames, List.mem_filter]
  refine and_congr_right fun _ => ?_
  simp only [Bool.not_eq_true', Bool.and_eq_false_iff, decide_eq_false_iff_not]
  omega

theorem State.claimFrames_granted (s : State) {port : Nat} {p : Port}
    (hfit : p.arg 0 % 2 ^ 18 + p.arg 1 ≤ Config.hbmFrames)
    (hown : ∀ f ∈ s.hub.frames, p.arg 0 % 2 ^ 18 ≤ f.1 → f.1 < p.arg 0 % 2 ^ 18 + p.arg 1 → f.2 = port) :
    let t := s.setHub { s.hub with frames := claimedFrames port (p.arg 0 % 2 ^ 18) (p.arg 1) s.hub.frames }
    s.claimFrames port p = ⟨mbOk, [t.frameCount port], t⟩ := by
  have hnone : (s.hub.frames.any fun f => decide (p.arg 0 % 2 ^ 18 ≤ f.1) &&
      decide (f.1 < p.arg 0 % 2 ^ 18 + p.arg 1) && decide (f.2 ≠ port)) = false :=
    List.any_eq_false.2 fun f hf => by simpa using hown f hf
  simp only [State.claimFrames, Port.frameRange_eq, if_neg (Nat.not_lt.2 hfit), hnone]
  rfl

theorem State.releaseFrames_granted (s : State) {port : Nat} {p : Port}
    (hfit : p.arg 0 % 2 ^ 18 + p.arg 1 ≤ Config.hbmFrames)
    (hfree : ∀ e ∈ s.portJobs port, s.namesFrame e.2 (p.arg 0 % 2 ^ 18) (p.arg 1) = false) :
    let t := s.setHub { s.hub with frames := releasedFrames port (p.arg 0 % 2 ^ 18) (p.arg 1) s.hub.frames }
    s.releaseFrames port p = ⟨mbOk, [t.frameCount port], t⟩ := by
  have hnone : ((s.portJobs port).any fun e => s.namesFrame e.2 (p.arg 0 % 2 ^ 18) (p.arg 1)) = false :=
    List.any_eq_false.2 fun e he => Bool.eq_false_iff.1 (hfree e he)
  simp only [State.releaseFrames, Port.frameRange_eq, if_neg (Nat.not_lt.2 hfit), hnone]
  rfl

/-- The communicator that a command defines in a job (R426). -/
def State.withComm (s : State) (p : Port) (j : Job) : Job :=
  { j with comms := Tab.set j.comms (p.arg 1) ⟨p.arg 3, (bytesToWords (s.hbmRead (p.arg64 4) (4 * p.arg 2))).map fun w =>
    (w.toNat % 2 ^ 16, w.toNat / 2 ^ 16 % 2 ^ 6), 0⟩ }

theorem State.defineComm_granted (s : State) {port : Nat} {p : Port} (hid : p.arg 1 ≤ 63) (hranks : 2 ≤ p.arg 2)
    (hmax : p.arg 2 ≤ 1024) (hrank : p.arg 3 < p.arg 2) (hjob : s.jobOfPort port (p.arg 0) = true)
    (hown : s.ownsRange port (p.arg64 4) (4 * p.arg 2) = true) :
    s.defineComm port p = ⟨mbOk, [], s.updJob (p.arg 0) (s.withComm p)⟩ := by
  have hform : (decide (63 < p.arg 1) || decide (p.arg 2 < 2) || decide (1024 < p.arg 2) ||
      decide (p.arg 2 ≤ p.arg 3)) = false := by
    simp [hid, Nat.lt_of_succ_le hranks, hmax, hrank]
  simp only [State.defineComm, hform, hjob, hown, bitsOf_eq, pow_zero, Nat.div_one]
  rfl

theorem State.jobOfPort_of {s : State} {port job : Nat} {j : Job} (hj : Tab.get? s.work.jobs job = some j)
    (hport : j.port = port) : s.jobOfPort port job = true := by
  simp [State.jobOfPort, hj, hport]

end Sys2Proof.Machine

namespace Sys2Proof

open Machine

/-- Settles O60: a command that rings ends in its own reply's state, of which each clause reads what the command does. -/
theorem mailboxCommands : Obligations.MailboxCommands := by
  unfold Obligations.MailboxCommands
  intro s port p
  refine ⟨?register, ?unregister, ?claim, ?release, ?communicator, ?attest⟩
  case register =>
    rintro r hring rfl
    refine ⟨_, congrArg Host.Outcome.next (State.command_eq hring _), ?_⟩
    rcases s.registerJob_cases port p with ⟨hcode, hstate⟩ | ⟨id, j, hid, hfree, hport, hbudget, hcap, htensor, hobject, hslice, hr⟩
    · refine ⟨Reply.replied (by rw [hstate]; exact hring.has), ?_, fun h => absurd h hcode, fun _ => ?_⟩
      · rw [Reply.ended, hstate]
        rfl
      · rw [Reply.ended, hstate]
        rfl
    · have hnamed : ∀ q, q < 64 → (p.arg64 9).testBit q = true →
          q ∈ (List.range 64).filter fun q => (p.arg64 9).testBit q := fun q hq hbit =>
        List.mem_filter.2 ⟨List.mem_range.2 hq, hbit⟩
      generalize (List.range 64).filter (fun q => (p.arg64 9).testBit q) = qs at hr hnamed
      obtain ⟨hhas, hhbm, hjob, hbound⟩ := s.registered port id j qs
      rw [hr]
      exact ⟨Reply.replied (hhas.trans hring.has), hhbm, fun _ => ⟨id, j, rfl, hid, hfree, hjob, hport, hbudget, hcap,
        htensor, hobject, hslice, fun q hq hbit => hbound q (hnamed q hq hbit)⟩, fun h => absurd rfl h⟩
  case unregister =>
    refine fun hring => ⟨fun hjob => ?_, fun hjob => ?_⟩
    · obtain ⟨hports, hgone, hlaunches, htags⟩ := s.dropJob_leaves (p.arg 0) stCancelled
      have hr : s.unregisterJob port p = ⟨mbOk, [], s.dropJob (p.arg 0) stCancelled⟩ := if_pos hjob
      refine ⟨_, congrArg Host.Outcome.next (State.command_eq hring _), ?_⟩
      rw [hr]
      exact ⟨Reply.replied ((hports port).trans hring.has), hgone, hlaunches, htags⟩
    · have hr : s.unregisterJob port p = ⟨mbRefused, [], s⟩ := if_neg (by simp [hjob])
      refine ⟨_, congrArg Host.Outcome.next (State.command_eq hring _), ?_⟩
      rw [hr]
      exact ⟨Reply.replied hring.has, SameMemory.of_eq rfl rfl rfl⟩
  case claim =>
    intro hring hfit hown
    obtain ⟨hclaimed, hother⟩ := get?_claimed port (p.arg 0 % 2 ^ 18) (p.arg 1) s.hub.frames
    refine ⟨_, congrArg Host.Outcome.next (State.command_eq hring _), ?_⟩
    rw [s.claimFrames_granted hfit hown]
    exact ⟨SameMemory.of_eq rfl rfl rfl, Reply.replied hring.has, hclaimed, hother⟩
  case release =>
    intro hring hfit hfree
    refine ⟨_, congrArg Host.Outcome.next (State.command_eq hring _), ?_⟩
    rw [s.releaseFrames_granted hfit hfree]
    exact ⟨SameMemory.of_eq rfl rfl rfl, Reply.replied hring.has, fun f => mem_releasedFrames⟩
  case communicator =>
    intro j hring hid hranks hmax hrank hjob hport hown
    refine ⟨_, congrArg Host.Outcome.next (State.command_eq hring _), ?_⟩
    rw [s.defineComm_granted hid hranks hmax hrank (State.jobOfPort_of hjob hport) hown]
    refine ⟨Reply.replied hring.has, rfl, ?_⟩
    have hset : Tab.get? (Reply.ended ⟨mbOk, [], s.updJob (p.arg 0) (s.withComm p)⟩ port).work.jobs (p.arg 0) =
        some (s.withComm p j) := (Tab.get?_upd ..).trans (by rw [if_pos rfl, hjob]; rfl)
    rw [hset, Option.bind_some]
    exact Tab.get?_set_same ..
  case attest =>
    intro hring r bs halign hframe hown
    have hown' : s.ownsRange port (p.arg64 8) (s.report port p ++
        natToBytes (Config.sign (s.report port p)).toNat 64).length = true := hown
    have hr : s.attestPort port p = ⟨mbOk, [loWord bs.length], s.rootWrite (p.arg64 8)
        ((List.range bs.length).map fun k => (k, bs.getD k 0#8))⟩ :=
      if_neg (by rw [hown', State.portPlace, halign, hframe]; simp)
    refine ⟨_, congrArg Host.Outcome.next (State.command_eq hring _), ?_⟩
    rw [hr]
    exact ⟨Reply.replied hring.has, rfl, s.hbmRead_rootWrite_bytes (p.arg64 8) bs⟩

end Sys2Proof
end

