-- ==== Sys2Proof/Proofs/SlotWords.lean ====
section
/-!
PROOFS. The slots of a core's surrogates: SGLOAD, its effect, and the disabling of an id (R304, R305, R325, R327 to R330,
R390).
-/

namespace Sys2Proof.Machine

/-! ### Commands that SG counts -/

section
variable {i : Instr} {s u : State} {gid : Nat} {g : Group} {cl : Clause} {eff : State → Nat → Group → Clause → Eff}

/-- The group with operation `op` counted by counter `c` and its destinations pending. -/
def Group.gives (g : Group) (c op : Nat) (regs : List PReg) : Group := (g.count c op).setPend op regs

theorem Group.gives_advance (g : Group) (c op : Nat) (regs : List PReg) (cl : Clause) (i : Instr) :
    let g' := (g.gives c op regs).advance cl i .seq
    SameRegisters g g' ∧ g'.cnt c = g.cnt c + 1 ∧ ∀ r ∈ regs, g'.isPend r = true := by
  intro g'
  have hframe : g' = _ := (g.gives c op regs).advance_frame cl i .seq
  rw [hframe]
  refine ⟨⟨rfl, rfl, rfl, rfl, rfl, rfl⟩, g.cnt_count c op, fun r h => ?_⟩
  exact List.any_eq_true.2 ⟨⟨r, op, false, g.inHandler⟩, List.mem_append_right _ (List.mem_map.2 ⟨r, h, rfl⟩), by simp⟩

/-- A word whose meaning is done with a command given to an engine, device memory and the blocks as they were, accepts it. -/
theorem accepted_of_gives {c op : Nat} {regs : List PReg} (hr : Ready i s gid g cl) (hs : Steady g)
    (hexec : exec i s = issue i eff s) (hkeep : SameMemory s u)
    (he : eff (s.setGroup gid g) gid g cl = .done (u.setGroup gid (g.gives c op regs)) .seq []) :
    Answers (exec i s) fun t => Accepted s t gid g c regs ∧ t.ops = u.ops := by
  refine ⟨_, hexec.trans (issue_of_done hr he (Tab.get?_set_same ..) ⟨hs.step, hs.lanes⟩), ⟨?_, ?_⟩, ?_⟩
  · rw [State.completed_frame]
    exact ⟨hkeep.hbm, hkeep.blocks, hkeep.launches, hkeep.cells⟩
  · exact State.completed_groupIs (g.gives_advance ..)
  · rw [State.completed_ops]
    rfl

end

/-! ### SGLOAD (R328) -/

section
variable {i : Instr} {s : State} {gid : Nat} {g : Group} {cl : Clause} {eff : State → Nat → Group → Clause → Eff}

/-- The command that SGLOAD captures. -/
def State.sgCmd (s : State) (gid : Nat) (g : Group) (slot op addr : Nat) (quality : List Word) : SgOp :=
  ⟨gid, g.core, s.jobOf g, g.launch, g.block, slot, op, addr, quality⟩

theorem sgload_accepted {d : Reg} {slot op addr : Nat} {quality : List Word} (hr : Ready i s gid g cl) (hs : Steady g)
    (hcnt : g.cnt 4 < 15) (hexec : exec i s = issue i eff s)
    (he : eff (s.setGroup gid g) gid g cl = sgloadAccept d slot op addr quality (s.setGroup gid g) gid g) :
    Answers (exec i s) fun t => Accepted s t gid g 4 (g.pregs d 1) ∧
      Tab.get? t.ops.sgs s.nextId = some (s.sgCmd gid g slot op addr quality) := by
  have hroom : ¬g.cnt cSG = 15 := hcnt.ne
  obtain ⟨t, ht, hacc, hops⟩ := accepted_of_gives (u := (s.setGroup gid g).fresh.2.setOps { s.ops with
    sgs := Tab.set s.ops.sgs s.nextId (s.sgCmd gid g slot op addr quality) }) (c := 4) (op := s.nextId)
    (regs := g.pregs d 1) hr hs hexec (SameMemory.of_eq rfl rfl rfl) (he.trans (if_neg hroom))
  exact ⟨t, ht, hacc, (congrArg (fun o => Tab.get? o.sgs s.nextId) hops).trans (Tab.get?_set_same ..)⟩

end

/-! ### Its effect (R305, R325, R329, R330) -/

section
variable {s : State} {o : SgOp}

/-- The effect of a slot operation answers a code and leaves the slot. -/
def State.SlotAct (s : State) (o : SgOp) (code : Nat) (slot' : Option Slot) : Prop :=
  (s.sgAct o).1 = code ∧ (s.sgAct o).2.slot? o.core o.slot = slot'

/-- A slot operation changes the cores only. -/
theorem State.sgAct_frame (s : State) (o : SgOp) : (s.sgAct o).2 = { s with cores := (s.sgAct o).2.cores } := by
  unfold State.sgAct
  dsimp only
  repeat' split
  all_goals rfl

theorem State.slot?_updCore {core : Nat} {c : Core} (hc : Tab.get? s.cores core = some c) (f : Core → Core) (slot : Nat) :
    (s.updCore core f).slot? core slot = Tab.get? (f c).slots slot := by
  rw [State.slot?, (s.updCore_core hc f).2]
  rfl

theorem State.slotAct_install {c : Core} (hc : Tab.get? s.cores o.core = some c) {img : List Byte} (hop : o.op = 0)
    (himg : s.checkImage o.core o.slot o.job (s.blockAllot o.block - o.addr)
      (fun k => s.scratchLine (o.block.getD 0) (o.addr + 64 * k))
      (regionMismatch (Tab.get? s.work.launches o.launch) o.slot) = (0, img)) :
    s.SlotAct o 0 (some (Slot.loaded o.job img)) := by
  have hact : s.sgAct o = (0, s.installImage o.core o.slot o.job img) := by
    simp only [State.sgAct, hop, himg, if_true]
  rw [State.SlotAct, hact]
  exact ⟨rfl, (State.slot?_updCore hc _ _).trans (Tab.get?_set_same ..)⟩

theorem State.slotAct_busy {x : Slot} (hx : s.slot? o.core o.slot = some x) (howner : x.owner ≠ o.job) :
    s.SlotAct o 1 (some x) := by
  have hact : s.sgAct o = (1, s) := by
    unfold State.sgAct
    split
    · simp [State.checkImage, hx, howner]
    · simp [hx, howner]
  rw [State.SlotAct, hact]
  exact ⟨rfl, hx⟩

theorem State.slotAct_empty (hx : s.slot? o.core o.slot = none) (hop : o.op ≠ 0) : s.SlotAct o 6 none := by
  have hact : s.sgAct o = (6, s) := by
    unfold State.sgAct
    split
    · rename_i h0
      exact absurd h0 hop
    · rw [hx]
  rw [State.SlotAct, hact]
  exact ⟨rfl, hx⟩

/-- The operations on a slot of the job's own. -/
theorem State.sgAct_own {x : Slot} (hx : s.slot? o.core o.slot = some x) (howner : x.owner = o.job) :
    (o.op = 1 → s.sgAct o = if qualityBad (wnat o.quality 0) (wnat o.quality 1) then (3, s) else
      (0, s.updSlot o.core o.slot fun x => { x with bound := o.quality.getD 0 0#32, quality := o.quality.getD 1 0#32 })) ∧
    (o.op = 2 → s.sgAct o = (0, s.updCore o.core fun c => { c with slots := Tab.del c.slots o.slot })) ∧
    (o.op = 3 → s.sgAct o = (0, s.updSlot o.core o.slot Slot.cleared)) := by
  refine ⟨fun hop => ?_, fun hop => ?_, fun hop => ?_⟩ <;> simp [State.sgAct, hop, hx, howner, wnat]

theorem State.slot?_updSlot {c : Core} {x : Slot} {core slot : Nat} (hc : Tab.get? s.cores core = some c)
    (hx : Tab.get? c.slots slot = some x) (f : Slot → Slot) : (s.updSlot core slot f).slot? core slot = some (f x) := by
  refine (State.slot?_updCore hc _ slot).trans ?_
  rw [Tab.get?_upd, if_pos rfl, hx]
  rfl

theorem State.slotAct_own {c : Core} {x : Slot} (hc : Tab.get? s.cores o.core = some c)
    (hx : Tab.get? c.slots o.slot = some x) (howner : x.owner = o.job) :
    (o.op = 1 → qualityBad (wnat o.quality 0) (wnat o.quality 1) = false → s.SlotAct o 0
      (some { x with bound := o.quality.getD 0 0#32, quality := o.quality.getD 1 0#32 })) ∧
    (o.op = 1 → qualityBad (wnat o.quality 0) (wnat o.quality 1) = true → s.SlotAct o 3 (some x)) ∧
    (o.op = 2 → s.SlotAct o 0 none) ∧ (o.op = 3 → s.SlotAct o 0 (some x.cleared)) := by
  have hslot : s.slot? o.core o.slot = some x := by rw [State.slot?, hc]; exact hx
  obtain ⟨hqual, hrel, hclr⟩ := State.sgAct_own hslot howner
  refine ⟨fun hop hgood => ?_, fun hop hbad => ?_, fun hop => ?_, fun hop => ?_⟩
  · rw [State.SlotAct, hqual hop, hgood]
    exact ⟨rfl, State.slot?_updSlot hc hx _⟩
  · rw [State.SlotAct, hqual hop, hbad]
    exact ⟨rfl, hslot⟩
  · rw [State.SlotAct, hrel hop]
    exact ⟨rfl, (State.slot?_updCore hc _ _).trans ((Tab.get?_del ..).trans (if_pos rfl))⟩
  · rw [State.SlotAct, hclr hop]
    exact ⟨rfl, State.slot?_updSlot hc hx _⟩

/-- An operation whose effect is known lands its status word. -/
theorem sgloadComplete_lands {id sd code : Nat} {g : Group} {rest : List (Nat × Bool)} {slot' : Option Slot}
    (ho : Tab.get? s.ops.sgs id = some o) (hordered : s.engineOrdered o.group id = true) (hawake : s.retained = [])
    (hg : Tab.get? s.groups o.group = some g) (howes : OwesScalar g id sd) (heldest : Eldest g 4 id rest)
    (hact : (s.touch (s.sgSegs o)).SlotAct o code slot') :
    Answers (exec (.sgloadComplete id) s) fun t => Tab.get? t.ops.sgs id = none ∧ SameMemory s t ∧
      t.slot? o.core o.slot = slot' ∧ t.GroupIs o.group fun g' => StatusLanded g g' 4 id sd rest
        (BitVec.ofNat 32 (code * 2 ^ 28 + (slot'.map Slot.units).getD 0)) := by
  obtain ⟨hcode, hslot⟩ := hact
  obtain ⟨ps, hland⟩ := s.landing_awake (s.sgloadComplete id) (fun _ => false) hawake
  refine ⟨_, congrArg Host.Outcome.next hland, ?_⟩
  generalize hu : ((s.touch (s.sgSegs o)).sgAct o).2 = u at hslot
  have hframe : u = { s.touch (s.sgSegs o) with cores := u.cores } := hu ▸ State.sgAct_frame _ o
  have hwake : s.asleep (s.sgSegs o) = false := List.any_eq_false.2 fun p _ => by simp [hawake]
  have hend : s.sgloadComplete id = (u.setOps { u.ops with sgs := Tab.del u.ops.sgs id }).updGroup o.group fun g =>
      (g.landScalar id (sgStatus code (((u.slot? o.core o.slot).map Slot.units).getD 0))).complete cSG id := by
    simp only [State.sgloadComplete, ho, hordered, hwake, Bool.not_true, Bool.or_false, Bool.false_eq_true, if_false, hcode, hu]
  rw [hend, hslot]
  have hgroups : u.groups = s.groups := by rw [hframe]; rfl
  refine ⟨(Tab.get?_del ..).trans (if_pos rfl), ?_, hslot, _, ?_, Group.statusLanded howes heldest _⟩
  · exact SameMemory.of_eq (by rw [hframe]; rfl) (by rw [hframe]; rfl) (by rw [hframe]; rfl)
  · refine (Tab.get?_upd ..).trans ?_
    rw [if_pos rfl]
    exact congrArg (Option.map _) ((congrArg (Tab.get? · o.group) hgroups).trans hg)

end

/-! ### Disabling (R327, R390) -/

theorem State.sendsPups (m : Nat → HubMsg) (cs : List Nat) : ∀ s : State,
    let t := cs.foldl (fun (s : State) c => s.sendPup (clusterOf c) (m c)) s
    SameMemory s t ∧ t.hub.toHub = s.hub.toHub ∧
      (∀ p, ∃ new, Tab.getD t.hub.toPup p [] = Tab.getD s.hub.toPup p [] ++ new) ∧
      ∀ c ∈ cs, m c ∈ Tab.getD t.hub.toPup (clusterOf c) [] := by
  induction cs with
  | nil => exact fun s => ⟨SameMemory.of_eq rfl rfl rfl, rfl, fun p => ⟨[], by simp⟩, fun c hc => absurd hc List.not_mem_nil⟩
  | cons c cs ih =>
    intro s
    obtain ⟨hmem, hhub, hgrow, hin⟩ := ih (s.sendPup (clusterOf c) (m c))
    have hsent : ∀ p, Tab.getD (s.sendPup (clusterOf c) (m c)).hub.toPup p [] =
        if p = clusterOf c then Tab.getD s.hub.toPup (clusterOf c) [] ++ [m c] else Tab.getD s.hub.toPup p [] := fun p =>
      Tab.getD_set ..
    refine ⟨⟨hmem.hbm, hmem.blocks, hmem.launches, hmem.cells⟩, hhub, fun p => ?_, fun c' hc' => ?_⟩
    · obtain ⟨new, hnew⟩ := hgrow p
      rw [List.foldl_cons, hnew, hsent]
      split
      · rename_i hp
        exact ⟨m c :: new, by rw [hp, List.append_assoc]; rfl⟩
      · exact ⟨new, rfl⟩
    · rcases List.mem_cons.1 hc' with rfl | hc'
      · obtain ⟨new, hnew⟩ := hgrow (clusterOf c')
        rw [List.foldl_cons, hnew, hsent, if_pos rfl]
        simp
      · exact hin c' hc'

theorem State.sgDisable_eq {s : State} {core : Nat} {sid : Word} {pre post : List HubMsg}
    (hq : Tab.getD s.hub.toPup (clusterOf core) [] = pre ++ HubMsg.disable core sid :: post)
    (hpre : ∀ m ∈ pre, ∃ k, k ≠ core ∧ m = .disable k sid) : s.sgDisable core sid =
      (s.setHub { s.hub with toPup := Tab.set s.hub.toPup (clusterOf core) (pre ++ post) }).updCore core fun c =>
        { c with slots := Tab.mapVals c.slots fun _ x => if imgId x.image = sid then { x with disabled := true } else x } := by
  have hnot : HubMsg.disable core sid ∉ pre := fun h => by
    obtain ⟨k, hk, he⟩ := hpre _ h
    exact hk (HubMsg.disable.inj he).1.symm
  have herase : (pre ++ HubMsg.disable core sid :: post).erase (.disable core sid) = pre ++ post := by
    rw [List.erase_append_right _ hnot, List.erase_cons_head]
  unfold State.sgDisable
  dsimp only
  rw [hq, herase, List.takeWhile_append_of_pos, List.takeWhile_cons_of_pos, if_pos]
  · simp
  · simp
  · intro m hm
    obtain ⟨k, -, rfl⟩ := hpre m hm
    simp

end Sys2Proof.Machine

namespace Sys2Proof

open Machine

/-- Settles O52: SGLOAD as an accepted command, its effect by what the operation and the slot are, and the two ends of a
disabling. -/
theorem slotOperations : Obligations.SlotOperations := by
  unfold Obligations.SlotOperations
  intro s
  refine ⟨fun gid g cl d a slot hact hr => ⟨fun halign => ?_, fun halign hallot => ?_⟩,
    fun gid g cl d a slot hs hact hcnt => ?_,
    fun id o g sd rest c ho hordered hawake hg howes heldest hc => ?_, fun core sid hhead => ?_,
    fun core sid c pre post hc hq hpre => ?_⟩
  · refine traps_of_eff hr rfl (eff := sgloadLoadEff d a slot) ?_ (by decide)
    simp [sgloadLoadEff, hact, halign]
  · refine traps_of_eff hr rfl (eff := sgloadLoadEff d a slot) ?_ (by decide)
    have hout : (s.setGroup gid g).allot g < (g.sval a 0).toNat + 64 := hallot
    simp [sgloadLoadEff, hact, halign, hout]
  · have hsome : ¬(g.active == 0#64) = true := by simpa using hact
    refine ⟨fun halign hfits hr => sgload_accepted hr hs hcnt rfl ?_, fun hr => sgload_accepted hr hs hcnt rfl (if_neg hsome),
      fun hr => sgload_accepted hr hs hcnt rfl (if_neg hsome), fun hr => sgload_accepted hr hs hcnt rfl (if_neg hsome)⟩
    have hin : ¬(s.setGroup gid g).allot g < (g.sval a 0).toNat + 64 := Nat.not_lt.2 hfits
    exact (if_neg hsome).trans ((if_neg (not_not.2 halign)).trans (if_neg hin))
  · intro run
    have hlands : ∀ code slot', (s.touch (s.sgSegs o)).SlotAct o code slot' → run code slot' := fun code slot' h =>
      sgloadComplete_lands ho hordered hawake hg howes heldest h
    have hown := fun x hx howner => State.slotAct_own (s := s.touch (s.sgSegs o)) (o := o) (c := c) (x := x) hc hx howner
    have hslot : (s.touch (s.sgSegs o)).slot? o.core o.slot = Tab.get? c.slots o.slot := by
      rw [State.slot?]
      exact congrArg (Option.bind · _) hc
    refine ⟨fun img hop himg => hlands _ _ (State.slotAct_install (s := s.touch (s.sgSegs o)) hc hop himg), fun x hx howner hop hgood => ?_,
      fun x hx howner hop hbad => ?_, fun x hx howner hop => ?_, fun x hx howner hop => ?_,
      fun x hx howner => hlands _ _ (State.slotAct_busy (hslot.trans hx) howner),
      fun hx hop => hlands _ _ (State.slotAct_empty (hslot.trans hx) hop)⟩
    all_goals obtain ⟨hqual, hrefused, hrel, hclr⟩ := hown x hx howner
    · exact hlands _ _ (hqual hop hgood)
    · exact hlands _ _ (hrefused hop hbad)
    · exact hlands _ _ (hrel hop)
    · exact hlands _ _ (hclr hop)
  · obtain ⟨hmem, hhub, hgrow, hin⟩ := State.sendsPups (fun c => .disable c sid) (List.range 128) (s.takeHub (clusterOf core))
    have hstep : s.disableReport core sid = (List.range 128).foldl
        (fun (s : State) c => s.sendPup (clusterOf c) (.disable c sid)) (s.takeHub (clusterOf core)) := if_pos hhead
    refine ⟨_, congrArg Host.Outcome.next hstep, ⟨hmem.hbm, hmem.blocks, hmem.launches, hmem.cells⟩, ?_, hgrow,
      fun k hk => hin k (List.mem_range.2 hk)⟩
    rw [hhub]
    exact (Tab.getD_set ..).trans (if_pos rfl)
  · refine ⟨_, congrArg Host.Outcome.next (State.sgDisable_eq hq hpre), SameMemory.of_eq rfl rfl rfl,
      (Tab.getD_set ..).trans (if_pos rfl), fun n x hx => ?_⟩
    refine (State.slot?_updCore (s := s.setHub _) hc _ n).trans ?_
    rw [Tab.get?_mapVals, hx]
    rfl

end Sys2Proof
end

