-- ==== Sys2Proof/Proofs/SurrogateCalls.lean ====
section
/-!
PROOFS. Surrogate calls: SGCALL, and what SURROGATE_EVALUATE makes of a call's lanes (R313, R315 to R319, R325).
-/

namespace Sys2Proof.Machine

/-! ### What an evaluated call writes (R318) -/

theorem written_of_mem {ws : List (Target × Word)} (hn : (ws.map Prod.fst).Nodup) {t : Target} {w old : Word}
    (h : (t, w) ∈ ws) : written ws t old = w := by
  rw [written]
  cases hfind : ws.find? fun w => w.1 = t with
  | none => exact absurd (List.find?_eq_none.1 hfind _ h) (by simp)
  | some e =>
    have he : e.1 = t := by simpa using List.find?_some hfind
    have hsame : e = (t, w) := List.inj_on_of_nodup_map hn (List.mem_of_find?_eq_some hfind) h he
    rw [hsame]
    rfl

theorem written_of_untouched {ws : List (Target × Word)} {t : Target} (old : Word) (h : ∀ w ∈ ws, w.1 ≠ t) :
    written ws t old = old := by
  have hnone : (ws.find? fun w => w.1 = t) = none := List.find?_eq_none.2 fun w hw => by simpa using h w hw
  rw [written, hnone]
  rfl

section
variable (c : Call) (ys : List (Nat × List Nat))

/-- The results of the accepted lanes. -/
def Call.regWrites : List (Target × Word) :=
  ys.flatMap fun e => (List.range c.resc).map fun k => (.v (c.d + k) e.1, loWord (e.2.getD k 0))

/-- The predicate, in the lanes of Exec. -/
def Call.predWrites : List (Target × Word) :=
  (maskList c.exec).map fun i => (.p c.pd i, if ys.any (fun e => e.1 = i) then 1#32 else 0#32)

def Call.sgWrites : List (Target × Word) := c.regWrites ys ++ c.predWrites ys

variable {c ys}

theorem Call.mem_regWrites {w : Target × Word} : w ∈ c.regWrites ys ↔
    ∃ e ∈ ys, ∃ k, k < c.resc ∧ w = (.v (c.d + k) e.1, loWord (e.2.getD k 0)) := by
  simp only [Call.regWrites, List.mem_flatMap, List.mem_map, List.mem_range, eq_comm]

theorem Call.mem_predWrites {w : Target × Word} : w ∈ c.predWrites ys ↔
    ∃ i, i < 64 ∧ c.exec.getLsbD i = true ∧ w = (.p c.pd i, if ys.any (fun e => e.1 = i) then 1#32 else 0#32) := by
  simp only [Call.predWrites, List.mem_map, mem_maskList, and_assoc, eq_comm]

theorem Call.nodup_sgWrites (hys : (ys.map Prod.fst).Nodup) : ((c.sgWrites ys).map Prod.fst).Nodup := by
  have hreg : ((c.regWrites ys).map Prod.fst).Nodup := by
    rw [Call.regWrites, List.map_flatMap]
    refine List.nodup_flatMap.2 ⟨fun e _ => ?_, (List.pairwise_map.1 hys).imp fun hne t ht ht' => ?_⟩
    · rw [List.map_map]
      exact List.nodup_range.map fun a b h => Nat.add_left_cancel (Target.v.inj h).1
    · simp only [List.map_map, List.mem_map, Function.comp_apply] at ht ht'
      obtain ⟨k, -, rfl⟩ := ht
      obtain ⟨k', -, h'⟩ := ht'
      exact hne (Target.v.inj h').2.symm
  have hpred : ((c.predWrites ys).map Prod.fst).Nodup := by
    rw [Call.predWrites, List.map_map]
    exact (nodup_maskList c.exec).map fun a b h => (Target.p.inj h).2
  rw [Call.sgWrites, List.map_append]
  refine List.nodup_append.2 ⟨hreg, hpred, fun t ht t' ht' => ?_⟩
  obtain ⟨w, hw, rfl⟩ := List.mem_map.1 ht
  obtain ⟨w', hw', rfl⟩ := List.mem_map.1 ht'
  obtain ⟨e, -, k, -, rfl⟩ := Call.mem_regWrites.1 hw
  obtain ⟨i, -, -, rfl⟩ := Call.mem_predWrites.1 hw'
  exact Target.noConfusion

theorem Call.sgWrites_fit (hys : ∀ e ∈ ys, e.1 < 64) : ∀ w ∈ c.sgWrites ys, w.1.inLanes ∧ truthValue w := by
  intro w hw
  rcases List.mem_append.1 hw with hw | hw
  · obtain ⟨e, he, k, -, rfl⟩ := Call.mem_regWrites.1 hw
    exact ⟨hys e he, trivial⟩
  · obtain ⟨i, hi, -, rfl⟩ := Call.mem_predWrites.1 hw
    refine ⟨hi, ?_⟩
    dsimp only [truthValue]
    split
    · exact .inr rfl
    · exact .inl rfl

end

/-- The pending registers of a group but the predicate of a call. -/
def Group.withoutPred (g : Group) (id : Nat) (c : Call) : List Pend := g.pend.filter fun e => !(e.op = id && e.reg = .p c.pd)

section
variable {g : Group} {id : Nat} {c : Call} {ys : List (Nat × List Nat)}

/-- The results of a call land as its writes do. -/
theorem Group.landCall_eq (hsaved : ∀ e ∈ g.pend, e.op = id → e.saved = false) :
    ∃ es, g.landCall id c ys = { g.landAll (c.sgWrites ys) with inflight := es, pend := g.withoutPred id c } := by
  obtain ⟨es, hes⟩ := Group.foldl_landResult hsaved (c.sgWrites ys)
  have hfold : g.landCall id c ys = { (c.sgWrites ys).foldl (fun g w => g.landResult id w) g with
      pend := ((c.sgWrites ys).foldl (fun g w => g.landResult id w) g).withoutPred id c } := by
    simp only [Call.sgWrites, Call.regWrites, Call.predWrites, List.foldl_append, List.foldl_flatMap, List.foldl_map]
    rfl
  have hpend : (g.landAll (c.sgWrites ys)).pend = g.pend := by rw [Group.landAll_frame]
  refine ⟨es, hfold.trans ?_⟩
  rw [hes]
  simp only [Group.withoutPred, hpend]

theorem Group.landCall_reads (hsaved : ∀ e ∈ g.pend, e.op = id → e.saved = false) (hys : (ys.map Prod.fst).Nodup)
    (hlanes : ∀ e ∈ ys, e.1 < 64) {u : Target} (hu : u.inLanes) :
    (g.landCall id c ys).reads u = written (c.sgWrites ys) u (g.reads u) := by
  obtain ⟨es, hes⟩ := Group.landCall_eq (c := c) (ys := ys) hsaved
  rw [hes, ← Group.reads_landAll g _ u (Call.sgWrites_fit hlanes) hu (Call.nodup_sgWrites hys)]
  cases u <;> rfl

theorem Group.landCall_rdP (hsaved : ∀ e ∈ g.pend, e.op = id → e.saved = false) (hys : (ys.map Prod.fst).Nodup)
    (hlanes : ∀ e ∈ ys, e.1 < 64) {k : Nat} (hk : k < 64) : ((g.landCall id c ys).rdP c.pd).getLsbD k =
      if c.exec.getLsbD k then ys.any (fun e => e.1 = k) else (g.rdP c.pd).getLsbD k := by
  have hread := Group.landCall_reads (c := c) hsaved hys hlanes (u := .p c.pd k) hk
  have hbit : ∀ a b : Bool, (if a then 1#32 else 0#32) = (if b then 1#32 else 0#32) → a = b := by decide
  refine hbit _ _ (hread.trans ?_)
  by_cases hexec : c.exec.getLsbD k = true
  · rw [if_pos hexec]
    exact written_of_mem (Call.nodup_sgWrites hys) (List.mem_append_right _ (Call.mem_predWrites.2 ⟨k, hk, hexec, rfl⟩))
  · rw [if_neg hexec]
    refine written_of_untouched _ fun w hw => ?_
    rcases List.mem_append.1 hw with hw | hw
    · obtain ⟨e, -, j, -, rfl⟩ := Call.mem_regWrites.1 hw
      exact Target.noConfusion
    · obtain ⟨i, -, hi, rfl⟩ := Call.mem_predWrites.1 hw
      exact fun he => hexec ((Target.p.inj he).2 ▸ hi)

theorem Group.landCall_outs (hsaved : ∀ e ∈ g.pend, e.op = id → e.saved = false) (k : Nat) :
    (g.landCall id c ys).outs k = g.outs k := by
  obtain ⟨es, hes⟩ := Group.landCall_eq (c := c) (ys := ys) hsaved
  rw [hes, Group.landAll_frame]
  rfl

theorem Group.landCall_pend (hsaved : ∀ e ∈ g.pend, e.op = id → e.saved = false) :
    ∀ e ∈ (g.landCall id c ys).pend, e.op = id → e.reg ≠ .p c.pd := by
  obtain ⟨es, hes⟩ := Group.landCall_eq (c := c) (ys := ys) hsaved
  intro e he hop hreg
  rw [hes] at he
  have := (List.mem_filter.1 he).2
  simp [hop, hreg] at this

end

/-! ### The lanes of a mask -/

theorem maskList_sub {m lanes : Mask} {p : Nat → Bool} (h : ∀ k, k < 64 → (m.getLsbD k = true ↔ lanes.getLsbD k = true ∧ p k = true)) :
    maskList m = (maskList lanes).filter p := by
  rw [maskList, maskList, List.filter_filter]
  refine List.filter_congr fun k hk => ?_
  have := h k (List.mem_range.1 hk)
  rw [Bool.eq_iff_iff, this, Bool.and_eq_true, and_comm]

/-- What a lane becomes, by the lanes accepted and those rejected for their timing. -/
def laneClass (acc tim : Mask) (y : Nat → List Nat) (k : Nat) : SgLane :=
  if acc.getLsbD k then .accept (y k) else if tim.getLsbD k then .timing else .fallback

/-- The accepted lanes with their results. -/
def acceptedLanes (acc : Mask) (y : Nat → List Nat) : List (Nat × List Nat) := (maskList acc).map fun k => (k, y k)

section
variable {lanes acc tim : Mask} {y : Nat → List Nat}

theorem accepted_laneClass (k : Nat) : (laneClass acc tim y k).accepted = if acc.getLsbD k then some (y k) else none := by
  rw [laneClass]
  split
  · rfl
  · split <;> rfl

/-- The accepted lanes of a call, those that are left, and the timing rejects. -/
theorem laneClasses_split (hacc : ∀ k, k < 64 → acc.getLsbD k = true → lanes.getLsbD k = true ∧ tim.getLsbD k = false)
    (htim : ∀ k, k < 64 → tim.getLsbD k = true → lanes.getLsbD k = true) :
    let cls := (maskList lanes).map fun k => (k, laneClass acc tim y k)
    (cls.filterMap fun e => e.2.accepted.map fun y => (e.1, y)) = acceptedLanes acc y ∧
      (cls.filter fun e => e.2.accepted.isNone).map Prod.fst = maskList (lanes &&& ~~~acc) ∧
      (cls.filter fun e => e.2 = .timing).length = (maskList tim).length := by
  intro cls
  have haccs : maskList acc = (maskList lanes).filter fun k => acc.getLsbD k :=
    maskList_sub fun k hk => ⟨fun h => ⟨(hacc k hk h).1, h⟩, fun h => h.2⟩
  have hleft : maskList (lanes &&& ~~~acc) = (maskList lanes).filter fun k => !acc.getLsbD k :=
    maskList_sub fun k hk => by simp [hk]
  have htims : maskList tim = (maskList lanes).filter fun k => tim.getLsbD k :=
    maskList_sub fun k hk => ⟨fun h => ⟨htim k hk h, h⟩, fun h => h.2⟩
  refine ⟨?_, ?_, ?_⟩
  · rw [acceptedLanes, haccs, ← List.filterMap_eq_map, List.filterMap_filter, List.filterMap_map]
    refine List.filterMap_congr fun k _ => ?_
    simp only [Function.comp_apply, accepted_laneClass]
    split <;> simp_all
  · rw [hleft, List.filter_map, List.map_map]
    refine (List.map_id'' (fun _ => rfl) _).trans (List.filter_congr fun k _ => ?_)
    simp only [Function.comp_apply, accepted_laneClass]
    split <;> simp_all
  · rw [htims, List.filter_map, List.length_map]
    refine congrArg List.length (List.filter_congr fun k hk => ?_)
    obtain ⟨hlt, -⟩ := mem_maskList.1 hk
    by_cases ha : acc.getLsbD k = true
    · simp [laneClass, ha, (hacc k hlt ha).2]
    · by_cases ht : tim.getLsbD k = true
      · simp [laneClass, ha, ht]
      · simp [laneClass, ha, ht]

theorem fallbackClasses_split (l : List Nat) :
    let cls := l.map fun k => (k, SgLane.fallback)
    (cls.filterMap fun e => e.2.accepted.map fun y => (e.1, y)) = [] ∧
      (cls.filter fun e => e.2.accepted.isNone).map Prod.fst = l ∧ (cls.filter fun e => e.2 = .timing).length = 0 := by
  refine ⟨?_, ?_, ?_⟩
  · rw [List.filterMap_map]
    exact List.filterMap_eq_nil_iff.2 fun k _ => rfl
  · rw [List.filter_map, List.map_map]
    exact (List.map_id'' (fun _ => rfl) _).trans (List.filter_eq_self.2 fun k _ => rfl)
  · rw [List.filter_map, List.length_map, List.length_eq_zero_iff]
    exact List.filter_eq_nil_iff.2 fun k _ => by simp

theorem count_fallbacks (htim : ∀ k, k < 64 → tim.getLsbD k = true → lanes.getLsbD k = true) :
    (maskList lanes).length - (maskList tim).length = (maskList (lanes &&& ~~~tim)).length := by
  have htims : maskList tim = (maskList lanes).filter fun k => tim.getLsbD k :=
    maskList_sub fun k hk => ⟨fun h => ⟨htim k hk h, h⟩, fun h => h.2⟩
  have hleft : maskList (lanes &&& ~~~tim) = (maskList lanes).filter fun k => !tim.getLsbD k :=
    maskList_sub fun k hk => by simp [hk]
  have hsum := List.length_eq_length_filter_add (l := maskList lanes) fun k => tim.getLsbD k
  rw [htims, hleft]
  omega

end

/-! ### Entries and counters (R318, R319, R325) -/

theorem State.cores_updCore (s : State) (core : Nat) (f : Core → Core) :
    Tab.get? (s.updCore core f).cores core = (Tab.get? s.cores core).map f :=
  (Tab.get?_upd ..).trans (if_pos rfl)

/-- Entries of a call for some lanes: each waits, as a normal one. -/
def Call.Queued (c : Call) (id : Nat) (lanes : List Nat) (new : List REntry) : Prop :=
  new.map REntry.lane = lanes ∧ ∀ e ∈ new, e.call = id ∧ e.group = c.group ∧ e.slot = c.slot ∧ e.shadow = none ∧
    e.running = false ∧ e.args = Tab.getD c.args e.lane []

/-- Entries that are queued change the end of the core's queue, and nothing that a task reads. -/
theorem State.enqueues (c : Call) (id : Nat) (lanes : List Nat) : ∀ s : State,
    let t := lanes.foldl (fun (s : State) i => s.enqueueEntry c id i none) s
    t.hbm = s.hbm ∧ t.groups = s.groups ∧ t.ops = s.ops ∧ ∃ new, c.Queued id lanes new ∧
      Tab.get? t.cores c.core = (Tab.get? s.cores c.core).map fun q => { q with recq := q.recq ++ new } := by
  induction lanes with
  | nil => exact fun s => ⟨rfl, rfl, rfl, [], ⟨rfl, fun e he => absurd he List.not_mem_nil⟩, by simp⟩
  | cons i lanes ih =>
    intro s
    obtain ⟨hhbm, hgroups, hops, new, ⟨hlanes, hnew⟩, hcores⟩ := ih (s.enqueueEntry c id i none)
    refine ⟨hhbm, hgroups, hops, c.entry id s.nextId i none :: new, ⟨congrArg (i :: ·) hlanes, fun e he => ?_⟩, ?_⟩
    · rcases List.mem_cons.1 he with rfl | he
      · exact ⟨rfl, rfl, rfl, rfl, rfl, rfl⟩
      · exact hnew e he
    · refine hcores.trans ?_
      have hone : Tab.get? (s.enqueueEntry c id i none).cores c.core =
          (Tab.get? s.cores c.core).map fun q => { q with recq := q.recq ++ [c.entry id s.nextId i none] } :=
        State.cores_updCore ..
      rw [hone, Option.map_map]
      refine congrArg (Option.map · _) (funext fun q => ?_)
      simp

/-- A slot whose sampling is off takes no shadow; its sample count alone changes. -/
theorem State.sampleShadows_off (c : Call) (id kept : Nat) (ys : List (Nat × List Nat)) : ∀ s : State,
    (∀ x, s.slot? c.core c.slot = some x → x.shift = 15) →
    let t := s.sampleShadows c id kept ys
    t.hbm = s.hbm ∧ t.groups = s.groups ∧ t.ops = s.ops ∧
      (Tab.get? t.cores c.core).map Core.recq = (Tab.get? s.cores c.core).map Core.recq ∧
      ∀ x, s.slot? c.core c.slot = some x → ∃ n, t.slot? c.core c.slot = some { x with sampleCount := n } := by
  induction ys with
  | nil => exact fun s _ => ⟨rfl, rfl, rfl, rfl, fun x hx => ⟨x.sampleCount, hx⟩⟩
  | cons e ys ih =>
    intro s hoff
    cases hx : s.slot? c.core c.slot with
    | none =>
      have hstep : s.sampleShadows c id kept (e :: ys) = s.sampleShadows c id kept ys := by
        simp only [State.sampleShadows, List.foldl_cons, hx]
      rw [hstep]
      obtain ⟨hhbm, hgroups, hops, hrecq, -⟩ := ih s hoff
      exact ⟨hhbm, hgroups, hops, hrecq, fun x hx => by cases hx⟩
    | some x =>
      have hstep : s.sampleShadows c id kept (e :: ys) = (s.updSlot c.core c.slot fun x =>
          { x with sampleCount := (x.sampleCount + 1) % 2 ^ 32 }).sampleShadows c id kept ys := by
        simp [State.sampleShadows, hx, hoff x hx]
      obtain ⟨k, hk, hslot⟩ := Option.bind_eq_some_iff.1 hx
      have hnext := State.slot?_updSlot hk hslot fun x => { x with sampleCount := (x.sampleCount + 1) % 2 ^ 32 }
      rw [hstep]
      obtain ⟨hhbm, hgroups, hops, hrecq, hsample⟩ := ih (s.updSlot c.core c.slot fun x =>
        { x with sampleCount := (x.sampleCount + 1) % 2 ^ 32 }) fun x' hx' => by
          rw [← Option.some.inj (hnext.symm.trans hx')]
          exact hoff x hx
      refine ⟨hhbm, hgroups, hops, hrecq.trans ?_, fun x' hx' => ?_⟩
      · rw [State.updSlot, State.cores_updCore, Option.map_map]
        rfl
      · cases hx'
        obtain ⟨n, hn⟩ := hsample _ hnext
        exact ⟨n, hn⟩

/-! ### SGCALL (R316, R317) -/

/-- The call that SGCALL captures. -/
def State.sgCall (s : State) (gid : Nat) (g : Group) (d a : Reg) (slot : BitVec 6) (pd : BitVec 4) (r : Region) : Call :=
  { group := gid, core := g.core, job := s.jobOf g, launch := g.launch, slot := slot.toNat, pd := pd.toNat
    d := g.phys d 0, resc := r.resc, argc := r.argc, lanes := g.active, exec := g.exec
    args := (maskList g.active).map fun i => (i, (List.range r.argc).map fun k => g.src a k i)
    tag := g.lanes.ctag, rmode := g.lanes.rmode
    version := ((s.launch? g).map fun l => l.kernel.version).getD 0, evaluated := false, left := 0 }

theorem sgcallEff_accepts {s : State} {gid : Nat} {g : Group} {cl : Clause} {d a : Reg} {slot : BitVec 6} {pd : BitVec 4}
    {r : Region} (hact : g.active ≠ 0#64) (hregion : s.region? g slot.toNat = some r) (hcnt : g.cnt 4 < 15)
    (hfree : (maskList g.active).length ≤ s.freeEntries g.core)
    (hclear : ∀ x ∈ g.pregs d r.resc ++ g.pregs a r.argc, g.isPend x = false) :
    sgcallEff d a slot pd (s.setGroup gid g) gid g cl = .done (((s.setGroup gid g).fresh.2.setOps { s.ops with
      calls := Tab.set s.ops.calls s.nextId (s.sgCall gid g d a slot pd r) }).setGroup gid
        (g.gives 4 s.nextId (g.pregs d r.resc ++ [.p pd.toNat]))) .seq [] := by
  have hsome : ¬(g.active == 0#64) = true := by simpa using hact
  have hregion' : (s.setGroup gid g).region? g slot.toNat = some r := hregion
  have hfree' : ¬(s.setGroup gid g).freeEntries g.core < (maskList g.active).length := Nat.not_lt.2 hfree
  have hroom : ¬g.cnt cSG = 15 := hcnt.ne
  have hpend : (g.pregs d r.resc ++ g.pregs a r.argc).any g.isPend = false :=
    List.any_eq_false.2 fun x hx => by simp [hclear x hx]
  rw [sgcallEff, if_neg hsome]
  simp only [hregion', hroom, hfree', hpend, decide_false, Bool.or_false, Bool.false_eq_true, if_false]
  rfl

/-! ### Evaluation (R318, R319) -/

/-- A call's lanes have become accepted ones and others, which wait in the core's queue; `tim` of them are timing rejects. -/
def State.callQueued (s : State) (id : Nat) (c : Call) (all tim : Nat) (ys : List (Nat × List Nat)) (rest : List Nat) : State :=
  let s := s.updSlot c.core c.slot fun x => x.countCall c all ys.length (rest.length - tim) tim
  let s := s.updGroup c.group fun g => g.landCall id c ys
  let s := s.setOps { s.ops with calls := Tab.set s.ops.calls id { c with evaluated := true, left := rest.length } }
  let s := rest.foldl (fun (s : State) i => s.enqueueEntry c id i none) s
  s.sampleShadows c id (all - rest.length) ys

/-- A call of which no lane is left completes. -/
def State.callEnded (s : State) (id : Nat) (c : Call) (rest : List Nat) : State :=
  if rest.isEmpty then
    (s.setOps { s.ops with calls := Tab.del s.ops.calls id }).updGroup c.group fun g => g.endCall id
  else s

section
variable {s : State} {id : Nat} {c : Call}

theorem State.sgEvaluate_eq {timing : BitVec 64} {ys : List (Nat × List Nat)} {rest : List Nat} {tim : Nat}
    (hc : Tab.get? s.ops.calls id = some c) (heval : c.evaluated = false) (hloads : s.ops.sgs = [])
    (hys : ((c.classes (s.slot? c.core c.slot) false timing).filterMap fun e => e.2.accepted.map fun y => (e.1, y)) = ys)
    (hrest : ((c.classes (s.slot? c.core c.slot) false timing).filter fun e => e.2.accepted.isNone).map Prod.fst = rest)
    (htim : ((c.classes (s.slot? c.core c.slot) false timing).filter fun e => e.2 = .timing).length = tim) :
    s.sgEvaluate id timing = (s.callQueued id c (maskList c.lanes).length tim ys rest).callEnded id c rest := by
  have hall : (c.classes (s.slot? c.core c.slot) false timing).length = (maskList c.lanes).length := List.length_map ..
  have hnone : (s.ops.sgs.any fun e => e.2.op = 0 && e.2.core = c.core && e.2.slot = c.slot && e.2.job = c.job) = false := by
    rw [hloads]
    rfl
  have hidle : decide ((0 : Nat) = 1) = false := rfl
  subst hys hrest htim
  simp only [State.sgEvaluate, hc, heval, hnone, Bool.false_eq_true, if_false, hidle, hall]
  rfl

/-- What evaluation leaves where no shadow is sampled. -/
structure CallQueued (s t : State) (id : Nat) (c : Call) (ys : List (Nat × List Nat)) (rest : List Nat) : Prop where
  hbm : t.hbm = s.hbm
  groups : t.groups = Tab.upd s.groups c.group fun g => g.landCall id c ys
  call : Tab.get? t.ops.calls id = some { c with evaluated := true, left := rest.length }
  queue : ∃ new, c.Queued id rest new ∧
    (Tab.get? t.cores c.core).map Core.recq = (Tab.get? s.cores c.core).map fun q => q.recq ++ new

theorem Slot.countCall_shift (x : Slot) (c : Call) (all acc fall tim : Nat) :
    (x.countCall c all acc fall tim).shift = x.shift := by
  unfold Slot.countCall
  split <;> rfl

theorem Slot.countCall_own (x : Slot) {c : Call} (h : x.owner = c.job) (all acc fall tim : Nat) :
    (x.countCall c all acc fall tim).calls = min 0xFFFFFFFF (x.calls + all) ∧
    (x.countCall c all acc fall tim).accepted = min 0xFFFFFFFF (x.accepted + acc) ∧
    (x.countCall c all acc fall tim).fallbacks = min 0xFFFFFFFF (x.fallbacks + fall) ∧
    (x.countCall c all acc fall tim).timing = min 0xFFFFFFFF (x.timing + tim) := by
  rw [Slot.countCall, if_pos h]
  exact ⟨rfl, rfl, rfl, rfl⟩

theorem State.slot?_counted {x : Slot} (hx : s.slot? c.core c.slot = some x) (f : Slot → Slot) :
    (s.updSlot c.core c.slot f).slot? c.core c.slot = some (f x) := by
  obtain ⟨k, hk, hslot⟩ := Option.bind_eq_some_iff.1 hx
  exact State.slot?_updSlot hk hslot f

theorem State.slot?_counted_none (hx : s.slot? c.core c.slot = none) (f : Slot → Slot) :
    (s.updSlot c.core c.slot f).slot? c.core c.slot = none := by
  rw [State.slot?, State.updSlot, State.cores_updCore, Option.bind_map]
  refine Option.bind_eq_none_iff.2 fun k hk => ?_
  have hnone : Tab.get? k.slots c.slot = none := by rw [State.slot?, hk] at hx; exact hx
  simp [Tab.get?_upd, hnone]

theorem State.callQueued_leaves (all tim : Nat) (ys : List (Nat × List Nat)) (rest : List Nat)
    (hoff : ∀ x, s.slot? c.core c.slot = some x → x.shift = 15) :
    CallQueued s (s.callQueued id c all tim ys rest) id c ys rest ∧ ∀ x, s.slot? c.core c.slot = some x →
      ∃ n, (s.callQueued id c all tim ys rest).slot? c.core c.slot =
        some { x.countCall c all ys.length (rest.length - tim) tim with sampleCount := n } := by
  generalize hu : ((s.updSlot c.core c.slot fun x => x.countCall c all ys.length (rest.length - tim) tim).updGroup c.group
    fun g => g.landCall id c ys).setOps { s.ops with
      calls := Tab.set s.ops.calls id { c with evaluated := true, left := rest.length } } = u
  obtain ⟨hhbm, hgroups, hops, new, hqueued, hcores⟩ := State.enqueues c id rest u
  have hslot : (rest.foldl (fun (s : State) i => s.enqueueEntry c id i none) u).slot? c.core c.slot =
      u.slot? c.core c.slot := by
    rw [State.slot?, State.slot?, hcores, Option.bind_map]
    rfl
  have hslotu : u.slot? c.core c.slot = (s.updSlot c.core c.slot fun x =>
      x.countCall c all ys.length (rest.length - tim) tim).slot? c.core c.slot := hu ▸ rfl
  obtain ⟨hhbm', hgroups', hops', hrecq, hsample⟩ := State.sampleShadows_off c id (all - rest.length) ys
    (rest.foldl (fun (s : State) i => s.enqueueEntry c id i none) u) fun x' hx' => by
      rw [hslot, hslotu] at hx'
      cases hx : s.slot? c.core c.slot with
      | none => rw [State.slot?_counted_none hx] at hx'; cases hx'
      | some x =>
        rw [State.slot?_counted hx] at hx'
        cases hx'
        exact (x.countCall_shift ..).trans (hoff x hx)
  have ht : s.callQueued id c all tim ys rest =
      (rest.foldl (fun (s : State) i => s.enqueueEntry c id i none) u).sampleShadows c id (all - rest.length) ys := hu ▸ rfl
  rw [ht]
  refine ⟨⟨hhbm'.trans (hhbm.trans (hu ▸ rfl)), hgroups'.trans (hgroups.trans (hu ▸ rfl)), ?_, new, hqueued, ?_⟩, fun x hx => ?_⟩
  · rw [hops', hops, ← hu]
    exact Tab.get?_set_same ..
  · have hbase : (Tab.get? u.cores c.core).map Core.recq = (Tab.get? s.cores c.core).map Core.recq := by
      rw [← hu]
      refine (congrArg (Option.map Core.recq) (State.cores_updCore ..)).trans ?_
      rw [Option.map_map]
      rfl
    have hadd : ∀ k : Option Core, (k.map fun q => { q with recq := q.recq ++ new }).map Core.recq =
        (k.map Core.recq).map (· ++ new) := fun k => by cases k <;> rfl
    rw [hrecq, hcores, hadd, hbase, Option.map_map]
    rfl
  · exact hsample _ (hslot.trans (hslotu.trans (State.slot?_counted hx _)))

/-- The group of a call once its lanes have become what they become. -/
def Group.callDone (g : Group) (id : Nat) (c : Call) (ys : List (Nat × List Nat)) (rest : List Nat) : Group :=
  if rest.isEmpty then (g.landCall id c ys).endCall id else g.landCall id c ys

/-- What the end of a call leaves of the state in which its lanes are queued. -/
theorem CallQueued.ended {t : State} {g : Group} {ys : List (Nat × List Nat)} {rest : List Nat}
    (h : CallQueued s t id c ys rest) (hg : Tab.get? s.groups c.group = some g) :
    let u := t.callEnded id c rest
    u.hbm = s.hbm ∧ u.cores = t.cores ∧ Tab.get? u.groups c.group = some (g.callDone id c ys rest) ∧
      (rest ≠ [] → Tab.get? u.ops.calls id = some { c with evaluated := true, left := rest.length }) ∧
      (rest = [] → Tab.get? u.ops.calls id = none) := by
  have hgroup : Tab.get? t.groups c.group = some (g.landCall id c ys) := by
    rw [h.groups, Tab.get?_upd, if_pos rfl, hg]
    rfl
  cases rest with
  | nil =>
    refine ⟨h.hbm, rfl, ?_, fun hne => absurd rfl hne, fun _ => (Tab.get?_del ..).trans (if_pos rfl)⟩
    refine (Tab.get?_upd ..).trans ?_
    rw [if_pos rfl]
    exact congrArg (Option.map _) hgroup
  | cons i rest => exact ⟨h.hbm, rfl, hgroup, fun _ => h.call, fun hnil => by cases hnil⟩

/-- The registers of a call's group are those that its results leave. -/
theorem Group.callDone_registers (g : Group) (ys : List (Nat × List Nat)) (rest : List Nat) :
    (g.callDone id c ys rest).v = (g.landCall id c ys).v ∧ (g.callDone id c ys rest).lanes = (g.landCall id c ys).lanes ∧
      ∀ e ∈ (g.callDone id c ys rest).pend, e ∈ (g.landCall id c ys).pend := by
  unfold Group.callDone
  split
  · exact ⟨rfl, rfl, fun e he => List.mem_of_mem_filter he⟩
  · exact ⟨rfl, rfl, fun e he => he⟩

theorem Group.callDone_outs {g : Group} {ys : List (Nat × List Nat)} {rest : List Nat}
    (hsaved : ∀ e ∈ g.pend, e.op = id → e.saved = false) :
    (rest ≠ [] → (g.callDone id c ys rest).outs 4 = g.outs 4) ∧
    (rest = [] → ∀ elder, Eldest g 4 id elder → (g.callDone id c ys rest).outs 4 = (elder.dropWhile fun e => e.2) ∧
      ∀ e ∈ (g.callDone id c ys rest).pend, e.op ≠ id) := by
  refine ⟨fun hne => ?_, fun hnil elder helder => ?_⟩
  · rw [Group.callDone, if_neg (by simpa using hne)]
    exact Group.landCall_outs hsaved 4
  · subst hnil
    refine ⟨Group.outs_complete ((g.landCall id c ys).clearPend id) 4 id elder ⟨?_, helder.once⟩, fun e he => ?_⟩
    · exact (Group.landCall_outs hsaved 4).trans helder.first
    · exact of_decide_eq_true (List.mem_filter.1 he).2

/-- The classes of a call's lanes in a slot that is ready for it (R313, R315). -/
theorem Call.classes_ready {x : Slot} {timing acc tim : Mask} {y : Nat → List Nat} (hready : x.readyFor c false = true)
    (htim : ∀ k, k < 64 → (tim.getLsbD k = true ↔ c.lanes.getLsbD k = true ∧ x.quality.getLsbD 2 = true ∧
      x.quality.getLsbD 3 = false ∧ timing.getLsbD k = true))
    (hacc : ∀ k, k < 64 → acc.getLsbD k = true → c.lanes.getLsbD k = true ∧ tim.getLsbD k = false ∧
      evalLane x.image x.bound.toNat ((Tab.getD c.args k []).map BitVec.toNat) = some (y k) ∧ (y k).length = c.resc)
    (hleft : ∀ k, k < 64 → c.lanes.getLsbD k = true → tim.getLsbD k = false → acc.getLsbD k = false →
      evalLane x.image x.bound.toNat ((Tab.getD c.args k []).map BitVec.toNat) = none) :
    c.classes (some x) false timing = (maskList c.lanes).map fun k => (k, laneClass acc tim y k) := by
  refine List.map_congr_left fun k hk => congrArg (k, ·) ?_
  obtain ⟨hlt, hlane⟩ := mem_maskList.1 hk
  simp only [hready, if_true, Slot.classify, laneClass]
  cases ht : tim.getLsbD k with
  | true =>
    obtain ⟨-, hrelaxed, hfree, hlate⟩ := (htim k hlt).1 ht
    have hnot : ¬acc.getLsbD k = true := fun ha => by
      obtain ⟨-, hf, -, -⟩ := hacc k hlt ha
      exact Bool.false_ne_true (hf.symm.trans ht)
    have hrelaxed : x.relaxed = true := hrelaxed
    have hfree : x.reproducible = false := hfree
    simp [hnot, hrelaxed, hfree, hlate]
  | false =>
    have hkeep : (x.relaxed && !x.reproducible && timing.getLsbD k) = false := by
      refine Bool.eq_false_iff.2 fun h => ?_
      simp only [Bool.and_eq_true, Bool.not_eq_true'] at h
      exact Bool.false_ne_true (ht.symm.trans ((htim k hlt).2 ⟨hlane, h.1.1, h.1.2, h.2⟩))
    simp only [hkeep, Bool.false_eq_true, if_false]
    cases ha : acc.getLsbD k with
    | true =>
      obtain ⟨-, -, hval, -⟩ := hacc k hlt ha
      simp [hval]
    | false => simp [hleft k hlt hlane ht ha]

/-- A call without a slot leaves all its lanes. -/
theorem Call.classes_none (timing : BitVec 64) :
    c.classes none false timing = (maskList c.lanes).map fun k => (k, SgLane.fallback) := rfl

theorem acceptedLanes_any {acc : Mask} (y : Nat → List Nat) {k : Nat} (hk : k < 64) :
    (acceptedLanes acc y).any (fun e => e.1 = k) = acc.getLsbD k := by
  rw [Bool.eq_iff_iff, List.any_eq_true]
  constructor
  · rintro ⟨e, he, hek⟩
    obtain ⟨i, hi, rfl⟩ := List.mem_map.1 he
    rw [← of_decide_eq_true hek]
    exact (mem_maskList.1 hi).2
  · exact fun h => ⟨(k, y k), List.mem_map.2 ⟨k, mem_maskList.2 ⟨hk, h⟩, rfl⟩, by simp⟩

theorem acceptedLanes_lanes (acc : Mask) (y : Nat → List Nat) :
    ((acceptedLanes acc y).map Prod.fst).Nodup ∧ ∀ e ∈ acceptedLanes acc y, e.1 < 64 := by
  have hfst : (acceptedLanes acc y).map Prod.fst = maskList acc := by simp [acceptedLanes, Function.comp_def]
  refine ⟨hfst ▸ nodup_maskList acc, fun e he => ?_⟩
  have := List.mem_map_of_mem (f := Prod.fst) he
  exact (mem_maskList.1 (hfst ▸ this)).1

/-- The registers that the accepted lanes' results leave. -/
theorem Group.landCall_rdV {g : Group} {acc : Mask} {y : Nat → List Nat}
    (hsaved : ∀ e ∈ g.pend, e.op = id → e.saved = false) {k n : Nat} (hk : k < 64) (hn : n < c.resc) :
    (g.landCall id c (acceptedLanes acc y)).rdV (c.d + n) k =
      if acc.getLsbD k then BitVec.ofNat 32 ((y k).getD n 0) else g.rdV (c.d + n) k := by
  obtain ⟨hnodup, hlanes⟩ := acceptedLanes_lanes acc y
  refine (Group.landCall_reads hsaved hnodup hlanes (u := .v (c.d + n) k) hk).trans ?_
  by_cases ha : acc.getLsbD k = true
  · rw [if_pos ha]
    exact written_of_mem (Call.nodup_sgWrites hnodup) (List.mem_append_left _ (Call.mem_regWrites.2
      ⟨(k, y k), List.mem_map.2 ⟨k, mem_maskList.2 ⟨hk, ha⟩, rfl⟩, n, hn, rfl⟩))
  · rw [if_neg ha]
    refine written_of_untouched _ fun w hw he => ?_
    rcases List.mem_append.1 hw with hw | hw
    · obtain ⟨e, hin, j, -, rfl⟩ := Call.mem_regWrites.1 hw
      obtain ⟨i, hi, rfl⟩ := List.mem_map.1 hin
      exact ha ((Target.v.inj he).2 ▸ (mem_maskList.1 hi).2)
    · obtain ⟨i, -, -, rfl⟩ := Call.mem_predWrites.1 hw
      exact Target.noConfusion he

theorem Group.landCall_v_none {g : Group} (hsaved : ∀ e ∈ g.pend, e.op = id → e.saved = false) :
    (g.landCall id c []).v = g.v := by
  obtain ⟨es, hes⟩ := Group.landCall_eq (c := c) (ys := []) hsaved
  have hkeep : (g.landAll (c.sgWrites [])).v = g.v := by
    refine List.foldlRecOn (motive := fun g' : Group => g'.v = g.v) _ _ rfl fun g' hg' w hw => ?_
    obtain ⟨i, -, -, rfl⟩ := Call.mem_predWrites.1 ((List.mem_append.1 hw).resolve_left List.not_mem_nil)
    exact hg'
  rw [hes]
  exact hkeep

end

end Sys2Proof.Machine

namespace Sys2Proof

open Machine

/-- Settles O50: SGCALL as an accepted command, and a call's evaluation by the lanes its slot accepts. -/
theorem surrogateCalls : Obligations.SurrogateCalls := by
  unfold Obligations.SurrogateCalls
  intro s
  refine ⟨fun gid g cl d a slot pd r hr hs hact hregion hcnt hfree hclear => ?_,
    fun id c g x rest timing acc tim y hc heval hloads hawake hg hsaved hx hready hoff htim hacc hleft => ?_,
    fun id c g k timing hc heval hloads hawake hg hsaved hk hempty hlanes => ?_⟩
  · obtain ⟨t, ht, hacc, hops⟩ := accepted_of_gives (u := (s.setGroup gid g).fresh.2.setOps { s.ops with
      calls := Tab.set s.ops.calls s.nextId (s.sgCall gid g d a slot pd r) }) (c := 4) (op := s.nextId)
      (regs := g.pregs d r.resc ++ [.p pd.toNat]) hr hs rfl (SameMemory.of_eq rfl rfl rfl)
      (sgcallEff_accepts hact hregion hcnt hfree hclear)
    refine ⟨t, ht, hacc, _, (congrArg (fun o => Tab.get? o.calls s.nextId) hops).trans (Tab.get?_set_same ..),
      rfl, rfl, rfl, rfl, rfl, rfl, rfl, rfl, rfl, rfl, rfl, rfl, fun k hk hlane => ?_⟩
    exact get?_map_self (fun i => (List.range r.argc).map fun j => g.src a j i) (mem_maskList.2 ⟨hk, hlane⟩)
  · intro count left
    have htimSub : ∀ k, k < 64 → tim.getLsbD k = true → c.lanes.getLsbD k = true := fun k hk h => ((htim k hk).1 h).1
    have haccSub : ∀ k, k < 64 → acc.getLsbD k = true → c.lanes.getLsbD k = true ∧ tim.getLsbD k = false := fun k hk h => by
      obtain ⟨hlane, hnot, -, -⟩ := hacc k hk h
      exact ⟨hlane, hnot⟩
    have hcls := Call.classes_ready hready htim hacc hleft
    obtain ⟨hys, hrest, htims⟩ := laneClasses_split (y := y) haccSub htimSub
    rw [← hcls, ← hx] at hys hrest htims
    have hstep := State.sgEvaluate_eq hc heval hloads hys hrest htims
    obtain ⟨hqueued, hslot⟩ := State.callQueued_leaves (s := s) (id := id) (c := c) (maskList c.lanes).length
      (maskList tim).length (acceptedLanes acc y) (maskList left) fun x' hx' => by
        rw [hx] at hx'
        cases hx'
        exact hoff
    obtain ⟨hhbm, hcores, hgroup, hwaits, hends⟩ := hqueued.ended hg
    obtain ⟨new, ⟨hlanes, hnew⟩, hqueue⟩ := hqueued.queue
    obtain ⟨hv, hl, hpend⟩ := Group.callDone_registers (id := id) (c := c) g (acceptedLanes acc y) (maskList left)
    obtain ⟨houts, hdone⟩ := Group.callDone_outs (c := c) (ys := acceptedLanes acc y) (rest := maskList left) hsaved
    obtain ⟨hnodup, hlt⟩ := acceptedLanes_lanes acc y
    obtain ⟨n, hn⟩ := hslot x hx
    have hnil : maskList left = [] ↔ left = 0#64 := maskList_eq_nil
    obtain ⟨ps, hland⟩ := s.landing_awake (s.sgEvaluate id timing) _ hawake
    rw [hstep] at hland
    have howner : x.owner = c.job := by
      simp only [Slot.readyFor, Bool.and_eq_true, decide_eq_true_eq] at hready
      obtain ⟨⟨⟨⟨-, howner⟩, -⟩, -⟩, -⟩ := hready
      exact howner
    have hfall : (maskList left).length - (maskList tim).length = count (left &&& ~~~tim) :=
      count_fallbacks fun k hk ht => by
        have hnot : acc.getLsbD k = false := Bool.eq_false_iff.2 fun ha =>
          Bool.false_ne_true ((haccSub k hk ha).2.symm.trans ht)
        simp only [left, BitVec.getLsbD_and, BitVec.getLsbD_not, htimSub k hk ht, hnot, hk]
        rfl
    have hslots : ((s.callQueued id c (maskList c.lanes).length (maskList tim).length (acceptedLanes acc y)
        (maskList left)).callEnded id c (maskList left)).slot? c.core c.slot = some _ :=
      (congrArg (fun k : Tab Core => (Tab.get? k c.core).bind fun q => Tab.get? q.slots c.slot) hcores).trans hn
    obtain ⟨hcalls, haccepted, hfallbacks, htiming⟩ := x.countCall_own howner (maskList c.lanes).length
      (acceptedLanes acc y).length ((maskList left).length - (maskList tim).length) (maskList tim).length
    refine ⟨_, congrArg Host.Outcome.next ((congrArg (s.landing · _) hstep).trans hland), hhbm,
      ⟨_, hslots, hcalls, haccepted.trans ?_, hfallbacks.trans ?_, htiming⟩, ⟨new, ?_, hlanes, hnew⟩,
      fun hne => ⟨hwaits (mt hnil.1 hne), _, hgroup, houts (mt hnil.1 hne)⟩,
      fun h0 helder => ⟨hends (hnil.2 h0), _, hgroup, hdone (hnil.2 h0) _ helder⟩,
      _, hgroup, fun e he hop => Group.landCall_pend hsaved e (hpend e he) hop, fun k n hk hn => ?_, fun k hk => ?_⟩
    · rw [acceptedLanes, List.length_map]
    · rw [hfall]
    · exact (congrArg (fun k : Tab Core => (Tab.get? k c.core).map Core.recq) hcores).trans hqueue
    · rw [Group.rdV, hv]
      exact Group.landCall_rdV hsaved hk hn
    · rw [Group.rdP, hl]
      refine (Group.landCall_rdP hsaved hnodup hlt hk).trans ?_
      rw [acceptedLanes_any y hk]
  · have hx : s.slot? c.core c.slot = none := by rw [State.slot?, hk]; exact hempty
    have hcls : c.classes (s.slot? c.core c.slot) false timing = (maskList c.lanes).map fun k => (k, SgLane.fallback) :=
      hx ▸ Call.classes_none timing
    obtain ⟨hys, hrest, htims⟩ := fallbackClasses_split (maskList c.lanes)
    rw [← hcls] at hys hrest htims
    have hstep := State.sgEvaluate_eq hc heval hloads hys hrest htims
    obtain ⟨hqueued, -⟩ := State.callQueued_leaves (s := s) (id := id) (c := c) (maskList c.lanes).length 0 []
      (maskList c.lanes) fun x' hx' => by
        rw [hx] at hx'
        cases hx'
    obtain ⟨hhbm, hcores, hgroup, hwaits, -⟩ := hqueued.ended hg
    obtain ⟨new, ⟨hlist, hnew⟩, hqueue⟩ := hqueued.queue
    obtain ⟨hv, hl, -⟩ := Group.callDone_registers (id := id) (c := c) g [] (maskList c.lanes)
    obtain ⟨houts, -⟩ := Group.callDone_outs (c := c) (ys := []) (rest := maskList c.lanes) hsaved
    have hsome : maskList c.lanes ≠ [] := mt maskList_eq_nil.1 hlanes
    obtain ⟨ps, hland⟩ := s.landing_awake (s.sgEvaluate id timing) _ hawake
    rw [hstep] at hland
    refine ⟨_, congrArg Host.Outcome.next ((congrArg (s.landing · _) hstep).trans hland), hwaits hsome,
      ⟨new, ?_, hlist, hnew⟩, _, hgroup, houts hsome, hv.trans (Group.landCall_v_none hsaved), fun n hn => ?_⟩
    · refine (congrArg (fun k : Tab Core => (Tab.get? k c.core).map Core.recq) hcores).trans (hqueue.trans ?_)
      rw [hk]
      rfl
    · rw [Group.rdP, hl]
      exact Group.landCall_rdP (ys := []) hsaved List.nodup_nil (fun e he => absurd he List.not_mem_nil) hn

end Sys2Proof
end

