-- ==== Sys2Proof/Proofs/Power.lean ====
section
/-!
PROOFS. Power and clocks: BOOST and BOOSTREL, the boost arbiter, the power limits and the slice ratios (R401, R403 to R405,
R408, R409, R412, R413, R415).
-/

namespace Sys2Proof.Machine

/-! ### The clusters that win a free place (R404) -/

theorem before_trans {a b c : Nat × Cluster} (hab : before a b = true) (hbc : before b c = true) : before a c = true := by
  simp only [before, Bool.or_eq_true, Bool.and_eq_true, decide_eq_true_eq] at *
  omega

theorem before_total {a b : Nat × Cluster} (h : a.1 ≠ b.1) : before a b = true ∨ before b a = true := by
  simp only [before, Bool.or_eq_true, Bool.and_eq_true, decide_eq_true_eq]
  omega

/-- One of some clusters comes after all the others. -/
theorem exists_last {cs : List (Nat × Cluster)} (hn : (cs.map Prod.fst).Nodup) (hne : cs ≠ []) :
    ∃ e ∈ cs, ∀ x ∈ cs, x ≠ e → before x e = true := by
  induction cs with
  | nil => exact absurd rfl hne
  | cons a cs ih =>
    obtain ⟨hnot, hn⟩ := List.nodup_cons.1 hn
    by_cases hcs : cs = []
    · subst hcs
      exact ⟨a, List.mem_cons_self, fun x hx hxa => absurd (List.mem_singleton.1 hx) hxa⟩
    · obtain ⟨e, he, hlast⟩ := ih hn hcs
      have hkey : a.1 ≠ e.1 := fun h => hnot (List.mem_map.2 ⟨e, he, h.symm⟩)
      rcases before_total hkey with h | h
      · refine ⟨e, List.mem_cons_of_mem _ he, fun x hx hxe => ?_⟩
        rcases List.mem_cons.1 hx with rfl | hx
        · exact h
        · exact hlast x hx hxe
      · refine ⟨a, List.mem_cons_self, fun x hx hxa => ?_⟩
        have hx := (List.mem_cons.1 hx).resolve_left hxa
        by_cases hxe : x = e
        · exact hxe ▸ h
        · exact before_trans (hlast x hx hxe) h

/-- No more clusters come within the first n than n. -/
theorem winners_le {cs : List (Nat × Cluster)} (hn : (cs.map Prod.fst).Nodup) (n : Nat) :
    (cs.filter fun e => decide ((cs.filter fun x => before x e).length < n)).length ≤ n := by
  generalize hw : (cs.filter fun e => decide ((cs.filter fun x => before x e).length < n)) = winners
  have hsub : winners.Sublist cs := hw ▸ List.filter_sublist
  by_cases hne : winners = []
  · rw [hne]
    exact Nat.zero_le n
  · have hnodup := hn.sublist (hsub.map Prod.fst)
    obtain ⟨e, he, hlast⟩ := exists_last hnodup hne
    have hrank : (cs.filter fun x => before x e).length < n := by
      rw [← hw] at he
      exact of_decide_eq_true (List.mem_filter.1 he).2
    have hothers : (winners.filter fun x => x ≠ e).Sublist (cs.filter fun x => before x e) := by
      have hfilter : (winners.filter fun x => x ≠ e) = (winners.filter fun x => x ≠ e).filter fun x => before x e := by
        refine (List.filter_eq_self.2 fun x hx => ?_).symm
        obtain ⟨hx, hxe⟩ := List.mem_filter.1 hx
        exact hlast x hx (of_decide_eq_true hxe)
      rw [hfilter]
      exact (List.filter_sublist.trans hsub).filter _
    have hcount : (winners.filter fun x => x ≠ e).length + 1 = winners.length := by
      have herase : (winners.filter fun x => x ≠ e) = winners.erase e :=
        ((hnodup.of_map _).erase_eq_filter e).trans (List.filter_congr fun x _ =>
          Bool.eq_iff_iff.2 (by simp)) |>.symm
      rw [herase, List.length_erase_of_mem he]
      have := List.length_pos_of_mem he
      omega
    have := hothers.length_le
    omega

/-! ### One boundary (R403, R404) -/

/-- Whether a cluster may be boosted. -/
def Cluster.mayBoost (c : Cluster) (claims emergency : Bool) : Bool :=
  claims && !emergency && decide (1 ≤ c.balance) && decide (nominalMhz < c.ceil)

/-- A cluster after a boundary; `first` says that it comes within the free places. -/
def Cluster.arbitrated (c : Cluster) (claims emergency first : Bool) : Cluster :=
  let mid := c.stepDown claims emergency
  let done : Cluster :=
    if mid.competes claims emergency && first then { mid with boost := .boosted, balance := mid.balance - 1, refill := 0 }
    else if mid.boost == .nominal && c.boost == .nominal then mid.earn
    else mid
  { done with mhz := boostMhz done.boost done.ceil }

section
variable (c : Cluster) (claims emergency first : Bool)

theorem Cluster.stepDown_of_boosted (h : c.boost = .boosted) : c.stepDown claims emergency =
    if c.mayBoost claims emergency then { c with balance := c.balance - 1 } else { c with boost := .falling } := by
  rw [Cluster.stepDown, h]
  rfl

theorem Cluster.stepDown_of_free (h : c.boost ≠ .boosted) : c.stepDown claims emergency = { c with boost := .nominal } := by
  obtain ⟨mhz, cyc, code, starts, loads, boost, ceil, balance, refill, meter, window, spent, arb⟩ := c
  cases boost with
  | nominal => rfl
  | falling => rfl
  | boosted => exact absurd rfl h

theorem Cluster.stepDown_nominal : ((c.stepDown claims emergency).boost != .nominal) = (c.boost == .boosted) := by
  by_cases h : c.boost = .boosted
  · rw [c.stepDown_of_boosted _ _ h]
    split
    · rw [h]; rfl
    · rw [h]; rfl
  · rw [c.stepDown_of_free _ _ h]
    exact (beq_eq_false_iff_ne.2 h).symm

theorem Cluster.competes_stepDown : (c.stepDown claims emergency).competes claims emergency =
    (c.boost != .boosted && c.mayBoost claims emergency) := by
  by_cases h : c.boost = .boosted
  · have hmid := c.stepDown_nominal claims emergency
    rw [h] at hmid
    have hbusy : ((c.stepDown claims emergency).boost == .nominal) = false := by
      simpa [bne] using hmid
    rw [Cluster.competes, hbusy, h]
    rfl
  · rw [c.stepDown_of_free _ _ h, bne_iff_ne.2 h]
    simp [Cluster.competes, Cluster.mayBoost]

theorem Cluster.arbitrated_ceil : (c.arbitrated claims emergency first).ceil = c.ceil := by
  have hmid : (c.stepDown claims emergency).ceil = c.ceil := by
    unfold Cluster.stepDown
    repeat' split
    all_goals rfl
  simp only [Cluster.arbitrated, Cluster.earn]
  repeat' split
  all_goals exact hmid

theorem Cluster.arbitrated_mhz : (c.arbitrated claims emergency first).mhz =
    boostMhz (c.arbitrated claims emergency first).boost (c.arbitrated claims emergency first).ceil := rfl

theorem Cluster.arbitrated_of_boosted (h : c.boost = .boosted) :
    if c.mayBoost claims emergency then (c.arbitrated claims emergency first).boost = .boosted ∧
      (c.arbitrated claims emergency first).balance = c.balance - 1
    else (c.arbitrated claims emergency first).boost = .falling ∧
      (c.arbitrated claims emergency first).balance = c.balance := by
  have hno : (c.stepDown claims emergency).competes claims emergency = false := by
    rw [Cluster.competes_stepDown, h]
    rfl
  simp only [Cluster.arbitrated, hno, Bool.false_and, Bool.false_eq_true, if_false, h]
  rw [c.stepDown_of_boosted _ _ h]
  split <;> simp [h]

theorem Cluster.arbitrated_of_free (p : Prop) [Decidable p] (h : c.boost ≠ .boosted) :
    if c.mayBoost claims emergency = true ∧ p then (c.arbitrated claims emergency (decide p)).boost = .boosted ∧
      (c.arbitrated claims emergency (decide p)).balance = c.balance - 1
    else (c.arbitrated claims emergency (decide p)).boost = .nominal := by
  have hcompetes := c.competes_stepDown claims emergency
  rw [bne_iff_ne.2 h, Bool.true_and] at hcompetes
  simp only [Cluster.arbitrated, hcompetes, Bool.and_eq_true, decide_eq_true_eq]
  rw [c.stepDown_of_free _ _ h]
  split
  · exact ⟨rfl, rfl⟩
  · simp only [Cluster.earn]
    split
    · split <;> rfl
    · rfl

/-- A cluster that stays nominal, by whether it was falling or nominal. -/
theorem Cluster.arbitrated_nominal (h : (c.arbitrated claims emergency first).boost = .nominal) :
    (c.boost = .falling → (c.arbitrated claims emergency first).balance = c.balance) ∧
    (c.boost = .nominal → if c.refill = 3 then (c.arbitrated claims emergency first).refill = 0 ∧
        (c.arbitrated claims emergency first).balance = min 64 (c.balance + 1)
      else (c.arbitrated claims emergency first).refill = c.refill + 1 ∧
        (c.arbitrated claims emergency first).balance = c.balance) := by
  have hlost : c.boost ≠ .boosted → ((c.stepDown claims emergency).competes claims emergency && first) = false := by
    intro hfree
    refine Bool.eq_false_iff.2 fun hwon => ?_
    have hboosted : (c.arbitrated claims emergency first).boost = .boosted := by
      simp only [Cluster.arbitrated, hwon, if_true]
    rw [hboosted] at h
    cases h
  refine ⟨fun hb => ?_, fun hb => ?_⟩
  all_goals
    have hfree : c.boost ≠ .boosted := by rw [hb]; exact nofun
    have hno := hlost hfree
    rw [c.stepDown_of_free _ _ hfree] at hno
    simp only [Cluster.arbitrated, c.stepDown_of_free _ _ hfree, hno, Bool.false_eq_true, if_false, hb, Cluster.earn]
  · rfl
  · split
    · simp
    · simp

end

theorem length_filter_mapVals {α β : Type} (t : Tab α) (f : Nat → α → β) (p : Nat × β → Bool) :
    ((Tab.mapVals t f).filter p).length = (t.filter fun e => p (e.1, f e.1 e.2)).length := by
  rw [Tab.mapVals, List.filter_map, List.length_map]
  rfl

section
variable (cs : Tab Cluster) (claims : Nat → Bool) (emergency : Bool)

/-- The free places of a boundary. -/
def freeBoosts : Nat := 16 - (cs.filter fun e => e.2.boost == .boosted).length

/-- How many competing clusters go before a cluster. -/
def boostRank (k : Nat) (c : Cluster) : Nat :=
  (cs.filter fun e => e.2.boost != .boosted && e.2.mayBoost (claims e.1) emergency && before e (k, c)).length

/-- What is left of a cluster in the middle of a boundary decides its place as it does before. -/
theorem before_stepDown {x y : Nat × Cluster} (hx : x.2.boost ≠ .boosted) (hy : y.2.boost ≠ .boosted) (a b : Bool) :
    before (x.1, x.2.stepDown a emergency) (y.1, y.2.stepDown b emergency) = before x y := by
  rw [x.2.stepDown_of_free _ _ hx, y.2.stepDown_of_free _ _ hy]
  rfl

theorem rank_stepDown {k : Nat} {c : Cluster} (hc : c.boost ≠ .boosted) :
    (((Tab.mapVals cs fun k c => c.stepDown (claims k) emergency).filter fun e =>
      e.2.competes (claims e.1) emergency).filter fun x => before x (k, c.stepDown (claims k) emergency)).length =
      boostRank cs claims emergency k c := by
  rw [List.filter_filter, length_filter_mapVals, boostRank]
  refine congrArg List.length (List.filter_congr fun e _ => ?_)
  rw [Cluster.competes_stepDown]
  by_cases he : e.2.boost = .boosted
  · simp [he]
  · rw [before_stepDown emergency he (y := (k, c)) hc]
    exact Bool.and_comm ..

/-- A competing cluster comes within the free places of a boundary's middle state. -/
def wonPlace (mid : Tab Cluster) (e : Nat × Cluster) : Bool :=
  let cand := mid.filter fun e => e.2.competes (claims e.1) emergency
  cand.contains e &&
    decide ((cand.filter fun x => before x e).length < 16 - (mid.filter fun e => e.2.boost != .nominal).length)

/-- What a boundary makes of a cluster in its middle state. -/
def arbitratedMid (mid : Tab Cluster) (k : Nat) (c : Cluster) : Cluster :=
  let was := ((Tab.get? cs k).map Cluster.boost).getD .nominal
  let done : Cluster :=
    if wonPlace claims emergency mid (k, c) then
      { c with boost := .boosted, balance := c.balance - 1, refill := 0 }
    else if c.boost == .nominal && was == .nominal then c.earn
    else c
  { done with mhz := boostMhz done.boost done.ceil }

theorem arbitrate_eq : arbitrate cs claims emergency =
    Tab.mapVals (Tab.mapVals cs fun k c => c.stepDown (claims k) emergency) (arbitratedMid cs claims emergency
      (Tab.mapVals cs fun k c => c.stepDown (claims k) emergency)) := rfl

theorem get?_arbitrate {k : Nat} {c : Cluster} (hc : Tab.get? cs k = some c) :
    Tab.get? (arbitrate cs claims emergency) k =
      some (c.arbitrated (claims k) emergency (decide (boostRank cs claims emergency k c < freeBoosts cs))) := by
  have hfree : 16 - ((Tab.mapVals cs fun k c => c.stepDown (claims k) emergency).filter fun e =>
      e.2.boost != .nominal).length = freeBoosts cs := by
    rw [length_filter_mapVals]
    simp only [Cluster.stepDown_nominal]
    rfl
  have hmid : Tab.get? (Tab.mapVals cs fun k c => c.stepDown (claims k) emergency) k =
      some (c.stepDown (claims k) emergency) := by
    rw [Tab.get?_mapVals, hc]
    rfl
  have hwas : ((Tab.get? cs k).map Cluster.boost).getD .nominal = c.boost := by rw [hc]; rfl
  have hin : ((Tab.mapVals cs fun k c => c.stepDown (claims k) emergency).filter fun e =>
      e.2.competes (claims e.1) emergency).contains (k, c.stepDown (claims k) emergency) =
      (c.stepDown (claims k) emergency).competes (claims k) emergency := by
    rw [Bool.eq_iff_iff, List.contains_iff_mem, List.mem_filter, and_iff_right (Tab.get?_mem hmid)]
  rw [arbitrate_eq, Tab.get?_mapVals, hmid]
  refine congrArg some ?_
  simp only [arbitratedMid, wonPlace, hfree, hin, hwas, Cluster.arbitrated]
  by_cases hcomp : (c.stepDown (claims k) emergency).competes (claims k) emergency = true
  · have hno : c.boost ≠ .boosted := by
      rw [Cluster.competes_stepDown, Bool.and_eq_true, bne_iff_ne] at hcomp
      exact hcomp.1
    rw [rank_stepDown cs claims emergency hno]
  · rw [Bool.eq_false_iff.2 hcomp, Bool.false_and, Bool.false_and]

theorem length_filter_or_le {α : Type} (p q r : α → Bool) (l : List α) (h : ∀ x ∈ l, r x = true → p x = true ∨ q x = true) :
    (l.filter r).length ≤ (l.filter p).length + (l.filter q).length := by
  induction l with
  | nil => exact Nat.le_refl 0
  | cons x l ih =>
    have hl := ih fun x hx => h x (List.mem_cons_of_mem _ hx)
    have hx : (if r x then 1 else 0) ≤ (if p x then 1 else 0) + (if q x then 1 else 0) := by
      cases hr : r x with
      | false => simp
      | true => rcases h x List.mem_cons_self hr with hp | hq <;> simp [*]
    simp only [← List.countP_eq_length_filter, List.countP_cons] at hl ⊢
    omega

/-- A cluster that is not nominal after a boundary has won a place, or was not nominal in the middle of it. -/
theorem arbitratedMid_boost (mid : Tab Cluster) (k : Nat) (c : Cluster)
    (h : (arbitratedMid cs claims emergency mid k c).boost ≠ .nominal) :
    wonPlace claims emergency mid (k, c) = true ∨ (c.boost != .nominal) = true := by
  simp only [arbitratedMid] at h
  split at h
  · exact .inl ‹_›
  · right
    rw [bne_iff_ne]
    intro hb
    simp only [Cluster.earn] at h
    repeat' split at h
    all_goals exact h hb

theorem filter_wonPlace (mid : Tab Cluster) : mid.filter (wonPlace claims emergency mid) =
    (mid.filter fun e => e.2.competes (claims e.1) emergency).filter fun e =>
      decide (((mid.filter fun e => e.2.competes (claims e.1) emergency).filter fun x => before x e).length <
        16 - (mid.filter fun e => e.2.boost != .nominal).length) := by
  rw [List.filter_filter]
  refine List.filter_congr fun e he => ?_
  have hin : (mid.filter fun e => e.2.competes (claims e.1) emergency).contains e =
      e.2.competes (claims e.1) emergency := by
    rw [Bool.eq_iff_iff, List.contains_iff_mem, List.mem_filter, and_iff_right he]
  rw [wonPlace, hin, Bool.and_comm]

/-- At most 16 clusters are out of the nominal state after a boundary, as before it (R404). -/
theorem boosted_arbitrate (hnodup : (cs.map Prod.fst).Nodup)
    (hle : (cs.filter fun e => e.2.boost != .nominal).length ≤ 16) :
    ((arbitrate cs claims emergency).filter fun e => e.2.boost != .nominal).length ≤ 16 := by
  generalize hmid : (Tab.mapVals cs fun k c => c.stepDown (claims k) emergency) = mid
  have hkeys : (mid.map Prod.fst).Nodup := by
    rw [← hmid, Tab.mapVals, List.map_map]
    exact hnodup
  have hbusy : (mid.filter fun e => e.2.boost != .nominal).length ≤ 16 := by
    rw [← hmid, length_filter_mapVals]
    simp only [Cluster.stepDown_nominal]
    refine Nat.le_trans (List.Sublist.length_le (List.monotone_filter_right cs fun e he => ?_)) hle
    rw [beq_iff_eq] at he
    rw [he]
    rfl
  have hwon := winners_le (hkeys.sublist (List.Sublist.map Prod.fst (List.filter_sublist (p := fun e =>
    e.2.competes (claims e.1) emergency) (l := mid)))) (16 - (mid.filter fun e => e.2.boost != .nominal).length)
  rw [arbitrate_eq, hmid, length_filter_mapVals]
  refine Nat.le_trans (length_filter_or_le (wonPlace claims emergency mid) (fun e => e.2.boost != .nominal) _ mid fun e _ he =>
    arbitratedMid_boost cs claims emergency mid e.1 e.2 (bne_iff_ne.1 he)) ?_
  rw [filter_wonPlace]
  omega

end

/-! ### The boundary's state, claims and words -/

section
variable (s : State)

/-- The clusters under the ceilings that their wear gives (R415). -/
def State.followed (s : State) (k : Nat) (c : Cluster) : Cluster := { c with ceil := boostCeil (Tab.getD s.hub.wear k 0) }

/-- The state in which a boundary asks which clusters claim: every claim has had its boundary. -/
def State.ticked (s : State) : State :=
  { s with groups := Tab.mapVals s.groups fun _ g => { g with claim := g.claim.bind Claim.tick } }

theorem State.boostBoundary_eq (h : s.hub.lastBoundary < s.now / 5000) : s.boostBoundary =
    { s.ticked with
      hub := { s.hub with lastBoundary := s.hub.lastBoundary + 1 }
      clusters := arbitrate (Tab.mapVals s.clusters s.followed) s.ticked.claiming s.hub.emergency } := by
  rw [State.boostBoundary, if_neg (Nat.not_le.2 h)]
  rfl

theorem freeBoosts_followed : freeBoosts (Tab.mapVals s.clusters s.followed) = freeBoosts s.clusters := by
  rw [freeBoosts, freeBoosts, length_filter_mapVals]
  rfl

theorem boostRank_followed (claims : Nat → Bool) (emergency : Bool) (k : Nat) (c : Cluster) :
    boostRank (Tab.mapVals s.clusters s.followed) claims emergency k (s.followed k c) =
      (s.clusters.filter fun e => e.2.boost != .boosted && (s.followed e.1 e.2).mayBoost (claims e.1) emergency &&
        before e (k, c)).length :=
  length_filter_mapVals ..

theorem State.keys_followed : (Tab.mapVals s.clusters s.followed).map Prod.fst = s.clusters.map Prod.fst := by
  rw [Tab.mapVals, List.map_map]
  rfl

end

/-- BOOST's group, its claim made or refused (R408). -/
theorem boost_answers {s : State} {gid : Nat} {g : Group} {cl : Clause} {d : Reg} {imm : BitVec 16}
    (hr : Ready (.boost d imm) s gid g cl) (hs : Steady g) (hact : g.active ≠ 0#64) :
    let c := s.clusterAt (clusterOf g.core)
    let refused := decide (c.ceil ≤ 1300) || Config.boostForbidden (s.jobOf g)
    Answers (exec (.boost d imm) s) fun t => SameMemory s t ∧ t.clusters = s.clusters ∧ t.GroupIs gid fun g' =>
      g'.claim = (if refused then none else some ⟨if imm = 0#16 then none else some imm.toNat⟩) ∧
      Sends t gid s.nextId g' (g.dest d 0 fun _ => BitVec.ofNat 32
        ((if refused then 2 else if c.boost = .boosted then 0 else 1) * 2 ^ 28 + c.balance)) := by
  intro c refused
  have hsome : ¬(g.active == 0#64) = true := by simpa using hact
  generalize hg' : ({ g with claim := if refused then none else some ⟨if imm = 0#16 then none else some imm.toNat⟩ } : Group) = g'
  generalize hws : (g.dest d 0 fun _ => BitVec.ofNat 32
    ((if refused then 2 else if c.boost = .boosted then 0 else 1) * 2 ^ 28 + c.balance)) = ws
  have hne : ws ≠ [] := hws ▸ Group.dest_ne_nil hact d 0 _
  have he : boostEff d imm (s.setGroup gid g) gid g cl = .done (s.sent gid g' ws) .seq [] := by
    have hsend : boostEff d imm (s.setGroup gid g) gid g cl = doneG ((s.setGroup gid g).sendVals gid g' ws).1 gid
        ((s.setGroup gid g).sendVals gid g' ws).2 .seq := by
      rw [boostEff, if_neg hsome, ← hg', ← hws]
      simp only [beq_iff_eq]
      rfl
    rw [hsend, State.sendVals_eq _ _ _ _ hne]
    exact congrArg (Eff.done · .seq []) (State.setGroup_setGroup
      (s.fresh.2.setOps { s.ops with vals := Tab.set s.ops.vals s.nextId ⟨gid, ws⟩ }) gid g _)
  have hsteady : Steady g' := hg' ▸ ⟨hs.step, hs.lanes⟩
  have hsent := s.completed_sentFrom gid g' ws cl (.boost d imm)
  refine ⟨_, issue_of_done hr he (Tab.get?_set_same ..) ⟨hsteady.step, hsteady.lanes⟩, hsent.sameMemory, ?_, hsent.sends.imp ?_⟩
  · rw [State.completed_frame]
    rfl
  · rintro _ ⟨hsends, op, cl, i, rfl⟩
    refine ⟨?_, hsends⟩
    rw [Group.advance_frame, ← hg']
    rfl

end Sys2Proof.Machine

namespace Sys2Proof

open Machine

/-- Settles O54: BOOST and BOOSTREL as words that send or do nothing else, a boundary cluster by cluster, and the limits. -/
theorem powerEvents : Obligations.PowerEvents := by
  unfold Obligations.PowerEvents
  intro s
  refine ⟨fun gid g cl d imm hr hs hact => boost_answers hr hs hact, fun gid g cl hr hs hact => ?_, fun hdue => ?_,
    fun hpower hall => ?_, fun hpower hcalm => ?_, fun core sl up x hsl hx hlate hroom => ?_⟩
  · have hsome : ¬(g.active == 0#64) = true := by simpa using hact
    exact issue_of_doneG (g' := { g with claim := none }) (eff := boostrelEff) hr ⟨hs.step, hs.lanes⟩
      (congrArg (doneG _ gid · .seq) (if_neg hsome))
  · intro claims may places first
    refine ⟨_, congrArg Host.Outcome.next (s.boostBoundary_eq hdue), rfl, SameMemory.of_eq rfl rfl rfl, fun k g hg => ?_,
      fun k c hc => ?_, fun hsorted hle => ?_⟩
    · have hgroup : Tab.get? s.ticked.groups k = some { g with claim := g.claim.bind Claim.tick } := by
        simp only [State.ticked, Tab.get?_mapVals, hg, Option.map_some]
      exact congrArg (Option.map Group.claim) hgroup
    · have hfollowed : Tab.get? (Tab.mapVals s.clusters s.followed) k = some (s.followed k c) := by
        rw [Tab.get?_mapVals, hc]
        rfl
      have hget := get?_arbitrate (Tab.mapVals s.clusters s.followed) s.ticked.claiming s.hub.emergency hfollowed
      have hplaces : freeBoosts s.clusters = places := rfl
      have hrank : boostRank (Tab.mapVals s.clusters s.followed) s.ticked.claiming s.hub.emergency k (s.followed k c) =
          first k c := by
        rw [boostRank_followed]
        refine congrArg List.length (List.filter_congr fun e _ =>
          congrArg (and (e.2.boost != .boosted && may e.1 e.2)) ?_)
        simp only [before, eq_comm (a := e.2.balance)]
      rw [freeBoosts_followed, hplaces, hrank] at hget
      refine ⟨_, hget, (Cluster.arbitrated_ceil ..), fun hb => ?_, fun hb => ?_, fun hb hn => ?_, fun hb hn => ?_, ?_⟩
      · exact (s.followed k c).arbitrated_of_boosted (claims k) s.hub.emergency _ hb
      · exact (s.followed k c).arbitrated_of_free (claims k) s.hub.emergency (first k c < places) hb
      · exact (Cluster.arbitrated_nominal _ _ _ _ hn).1 hb
      · exact (Cluster.arbitrated_nominal _ _ _ _ hn).2 hb
      · exact (Cluster.arbitrated_mhz ..)
    · refine boosted_arbitrate _ _ _ (s.keys_followed ▸ Tab.nodup_of_sorted hsorted) ?_
      rw [length_filter_mapVals]
      exact hle
  · have hstep : s.sustainedLimit = { s with slices := Tab.mapVals s.slices fun _ x =>
        { x with ceiling := max 4 (x.ceiling - 1) } } :=
      if_pos (by
        rw [Bool.and_eq_true, decide_eq_true_eq, List.all_eq_true]
        exact ⟨hpower, fun e he => beq_iff_eq.2 (hall e he)⟩)
    refine ⟨_, congrArg Host.Outcome.next hstep, SameMemory.of_eq rfl rfl rfl, fun k x hx => ?_⟩
    simp only [Tab.get?_mapVals, hx, Option.map_some]
  · have hstep : s.emergencyLimit = { s with
        slices := Tab.mapVals s.slices fun _ x => { x with ceiling := max 4 (x.ceiling / 2) }
        hub := { s.hub with emergency := true, emergClear := none } } :=
      if_pos (by simp [hpower, hcalm])
    refine ⟨_, congrArg Host.Outcome.next hstep, SameMemory.of_eq rfl rfl rfl, rfl, fun k x hx => ?_⟩
    simp only [Tab.get?_mapVals, hx, Option.map_some]
  · refine ⟨_, congrArg Host.Outcome.next (if_pos hsl), SameMemory.of_eq rfl rfl rfl, ?_⟩
    refine (Tab.get?_upd ..).trans ((if_pos rfl).trans ((congrArg (Option.map _) hx).trans (congrArg some ?_)))
    refine (if_neg (Nat.not_lt.2 hlate)).trans ?_
    cases up with
    | true => exact if_pos hroom
    | false => exact if_pos hroom

end Sys2Proof
end

