-- ==== Sys2Proof/Proofs/BundleRetire.lean ====
section
/-!
PROOFS. The retirement of a bundle: its successors hear of it, and its completion record is written (R381 to R383).
-/

namespace Sys2Proof.Machine

/-! ### Tables whose numbers are all different -/

section
variable {α : Type} {t : Tab α}

theorem Tab.get?_of_nodup (hn : (t.map Prod.fst).Nodup) {e : Nat × α} (he : e ∈ t) : Tab.get? t e.1 = some e.2 := by
  induction t with
  | nil => cases he
  | cons x t ih =>
    obtain ⟨hnot, hn⟩ := List.nodup_cons.1 hn
    rw [Tab.get?_cons]
    rcases List.mem_cons.1 he with rfl | he
    · rw [if_pos rfl]
    · rw [if_neg fun hx => hnot (List.mem_map.2 ⟨e, he, hx.symm⟩), ih hn he]

theorem Tab.upd_eq_map (hn : (t.map Prod.fst).Nodup) (k : Nat) (f : α → α) :
    Tab.upd t k f = t.map fun e => if e.1 = k then (e.1, f e.2) else e := by
  induction t with
  | nil => rfl
  | cons x t ih =>
    obtain ⟨hnot, hn⟩ := List.nodup_cons.1 hn
    rw [List.map_cons, Tab.upd]
    by_cases hx : x.1 = k
    · have hrest : (t.map fun e => if e.1 = k then (e.1, f e.2) else e) = t := by
        refine (List.map_congr_left fun e he => if_neg fun hk => hnot ?_).trans (List.map_id t)
        exact List.mem_map.2 ⟨e, he, hk.trans hx.symm⟩
      rw [if_pos hx, if_pos hx, hrest]
    · rw [if_neg hx, if_neg hx, ih hn]

theorem Tab.keys_upd (t : Tab α) (k : Nat) (f : α → α) : (Tab.upd t k f).map Prod.fst = t.map Prod.fst := by
  induction t with
  | nil => rfl
  | cons x t ih =>
    rw [Tab.upd]
    split
    · rfl
    · rw [List.map_cons, ih, List.map_cons]

theorem Tab.nodup_del (hn : (t.map Prod.fst).Nodup) (k : Nat) : ((Tab.del t k).map Prod.fst).Nodup :=
  hn.sublist (List.Sublist.map Prod.fst List.filter_sublist)

end

/-! ### Successors (R381, R383) -/

/-- A bundle that has heard of a retirement once. -/
def Bundle.told (cancel : Bool) (x : Bundle) : Bundle :=
  if x.count = 0 then x else if cancel then { x with cancelled := true } else { x with count := x.count - 1 }

theorem Bundle.told_name (cancel : Bool) (x : Bundle) :
    (x.told cancel).job = x.job ∧ (x.told cancel).bid = x.bid ∧ (x.told cancel).malformed = x.malformed := by
  unfold Bundle.told
  split
  · exact ⟨rfl, rfl, rfl⟩
  · split <;> exact ⟨rfl, rfl, rfl⟩

/-- A bundle that hears of it n + 1 times. -/
theorem Bundle.told_often (cancel : Bool) (n : Nat) (x : Bundle) : (Bundle.told cancel)^[n + 1] x =
    if x.count = 0 then x else if cancel then { x with cancelled := true } else { x with count := x.count - (n + 1) } := by
  induction n with
  | zero => rfl
  | succ n ih =>
    rw [Function.iterate_succ_apply', ih]
    by_cases h0 : x.count = 0
    · simp [h0, Bundle.told]
    · cases cancel with
      | true => simp [h0, Bundle.told]
      | false =>
        simp only [h0, Bool.false_eq_true, if_false, Bundle.told]
        split
        · rename_i hz
          congr 1
          omega
        · rfl

/-- Whether a bundle is the pending one of a job with an id. -/
def Bundle.named (job id : Nat) (e : Nat × Bundle) : Bool := e.2.job = job && e.2.bid = id && !e.2.malformed

theorem State.pendingBundle_eq (s : State) (job id : Nat) : s.pendingBundle job id = s.work.bundles.find? (Bundle.named job id) := rfl

/-- A change of one bundle that keeps its name leaves what is pending but for that bundle. -/
theorem State.pendingBundle_updBundle {s : State} (hn : (s.work.bundles.map Prod.fst).Nodup) {job id n : Nat} {x : Bundle}
    (hx : s.pendingBundle job id = some (n, x)) {f : Bundle → Bundle}
    (hf : ∀ y : Bundle, (f y).job = y.job ∧ (f y).bid = y.bid ∧ (f y).malformed = y.malformed) (i : Nat) :
    (s.updBundle n f).pendingBundle job i = if i = id then some (n, f x) else s.pendingBundle job i := by
  have hfind : (s.updBundle n f).pendingBundle job i =
      (s.pendingBundle job i).map fun e => if e.1 = n then (e.1, f e.2) else e := by
    have hsame : (Bundle.named job i ∘ fun e : Nat × Bundle => if e.1 = n then (e.1, f e.2) else e) = Bundle.named job i := by
      funext e
      obtain ⟨hjob, hbid, hbad⟩ := hf e.2
      rw [Function.comp_apply]
      split
      · rw [Bundle.named, Bundle.named, hjob, hbid, hbad]
      · rfl
    rw [State.pendingBundle_eq, State.updBundle_work, Tab.upd_eq_map hn, List.find?_map, hsame]
    rfl
  rw [hfind]
  split
  · rename_i hi
    rw [hi, hx, Option.map_some, if_pos rfl]
  · rename_i hi
    cases hy : s.pendingBundle job i with
    | none => rfl
    | some y =>
      have hother : y.1 ≠ n := by
        intro hyn
        have hget := Tab.get?_of_nodup hn (List.mem_of_find?_eq_some hy)
        rw [hyn, Tab.get?_of_nodup hn (List.mem_of_find?_eq_some hx)] at hget
        have hyname := List.find?_some hy
        have hxname := List.find?_some hx
        simp only [Bool.and_eq_true, decide_eq_true_eq] at hyname hxname
        rw [← Option.some.inj hget] at hyname
        exact hi (hyname.1.2.symm.trans hxname.1.2)
      rw [Option.map_some, if_neg hother]

/-- What the retirement tells a list of successors: those pending hear of it, each as often as it is named, and a credit
stands for each time one is not. -/
theorem State.tellSuccessors (job : Nat) (cancel : Bool) (ids : List Nat) : ∀ (s : State) (j : Job),
    (s.work.bundles.map Prod.fst).Nodup → Tab.get? s.work.jobs job = some j →
    let t := ids.foldl (fun (s : State) i => s.tellSuccessor job cancel i) s
    t.hbm = s.hbm ∧ t.ports = s.ports ∧ t.work.launches = s.work.launches ∧
      t.work.bundles.map Prod.fst = s.work.bundles.map Prod.fst ∧
      (Tab.get? t.work.jobs job).map Job.credits = some (j.credits ++
        (ids.filter fun i => (s.pendingBundle job i).isNone).map fun i => (i, cancel)) ∧
      ∀ i, t.pendingBundle job i = (s.pendingBundle job i).map fun e => (e.1, (Bundle.told cancel)^[ids.count i] e.2) := by
  induction ids with
  | nil =>
    intro s j hn hj
    refine ⟨rfl, rfl, rfl, rfl, ?_, fun i => ?_⟩
    · rw [List.foldl_nil, hj]
      simp
    · simp
  | cons id ids ih =>
    intro s j hn hj
    cases hx : s.pendingBundle job id with
    | none =>
      have hstep : s.tellSuccessor job cancel id =
          s.updJob job fun j => { j with credits := j.credits ++ [(id, cancel)] } := by
        rw [State.tellSuccessor, hx]
      have hj' : Tab.get? (s.tellSuccessor job cancel id).work.jobs job =
          some { j with credits := j.credits ++ [(id, cancel)] } := by
        rw [hstep]
        exact (Tab.get?_upd ..).trans ((if_pos rfl).trans (congrArg (Option.map _) hj))
      have hpend : ∀ i, (s.tellSuccessor job cancel id).pendingBundle job i = s.pendingBundle job i := by
        rw [hstep]
        exact fun i => rfl
      have hframe : (s.tellSuccessor job cancel id).work.bundles = s.work.bundles := by rw [hstep]; rfl
      obtain ⟨hhbm, hports, hlaunches, hkeys, hcredits, htold⟩ := ih _ _ (hframe ▸ hn) hj'
      refine ⟨hhbm.trans (by rw [hstep]; rfl), hports.trans (by rw [hstep]; rfl), hlaunches.trans (by rw [hstep]; rfl),
        hkeys.trans (by rw [hframe]), hcredits.trans ?_, fun i => (htold i).trans ?_⟩
      · simp only [hpend]
        rw [List.filter_cons_of_pos (by rw [hx]; rfl), List.map_cons, List.append_assoc]
        rfl
      · rw [hpend]
        cases hi : s.pendingBundle job i with
        | none => rfl
        | some e =>
          have hne : id ≠ i := fun h => by rw [← h, hx] at hi; cases hi
          rw [List.count_cons_of_ne hne]
    | some e =>
      obtain ⟨n, x⟩ := e
      have hstep : s.tellSuccessor job cancel id = s.updBundle n (Bundle.told cancel) := by
        rw [State.tellSuccessor, hx]
        rfl
      have hpend : ∀ i, (s.tellSuccessor job cancel id).pendingBundle job i =
          if i = id then some (n, x.told cancel) else s.pendingBundle job i := fun i => by
        rw [hstep]
        exact State.pendingBundle_updBundle hn hx (Bundle.told_name cancel) i
      have hkeys' : (s.tellSuccessor job cancel id).work.bundles.map Prod.fst = s.work.bundles.map Prod.fst := by
        rw [hstep]
        exact Tab.keys_upd ..
      obtain ⟨hhbm, hports, hlaunches, hkeys, hcredits, htold⟩ := ih _ j (hkeys' ▸ hn) (by rw [hstep]; exact hj)
      refine ⟨hhbm.trans (by rw [hstep]; rfl), hports.trans (by rw [hstep]; rfl), hlaunches.trans (by rw [hstep]; rfl),
        hkeys.trans hkeys', hcredits.trans ?_, fun i => (htold i).trans ?_⟩
      · have hnone : ∀ i, ((s.tellSuccessor job cancel id).pendingBundle job i).isNone = (s.pendingBundle job i).isNone :=
          fun i => by
            rw [hpend]
            split
            · rename_i hi
              rw [hi, hx]
              rfl
            · rfl
        simp only [hnone]
        rw [List.filter_cons_of_neg (by rw [hx]; simp)]
      · rw [hpend]
        split
        · rename_i hi
          rw [hi, hx, List.count_cons_self, Option.map_some, Option.map_some, Function.iterate_succ_apply]
        · rename_i hi
          rw [List.count_cons_of_ne (Ne.symm hi)]

/-! ### The completion record (R383) -/

theorem extract_byte (w : Word) (k : Nat) : w.extractLsb' (8 * k) 8 = BitVec.ofNat 8 (w.toNat / 256 ^ k) := by
  refine BitVec.eq_of_toNat_eq ?_
  rw [BitVec.extractLsb'_toNat, BitVec.toNat_ofNat, Nat.shiftRight_eq_div_pow, Nat.pow_mul]

theorem getD_wordsToBytes (ws : List Word) : ∀ k, k < 4 * ws.length →
    (wordsToBytes ws).getD k 0#8 = (ws.getD (k / 4) 0#32).extractLsb' (8 * (k % 4)) 8 := by
  induction ws with
  | nil => exact fun k hk => absurd hk (Nat.not_lt_zero k)
  | cons w ws ih =>
    intro k hk
    have hcons : wordsToBytes (w :: ws) = BitVec.ofNat 8 w.toNat :: BitVec.ofNat 8 (w.toNat / 256) ::
        BitVec.ofNat 8 (w.toNat / 256 / 256) :: BitVec.ofNat 8 (w.toNat / 256 / 256 / 256) :: wordsToBytes ws := rfl
    rw [hcons, extract_byte]
    match k with
    | 0 => simp
    | 1 => simp
    | 2 => simp [Nat.div_div_eq_div_mul]
    | 3 => simp [Nat.div_div_eq_div_mul]
    | k + 4 =>
      have hlt : k < 4 * ws.length := by
        rw [List.length_cons] at hk
        omega
      rw [show (k + 4) / 4 = k / 4 + 1 by omega, Nat.add_mod_right, List.getD_cons_succ, List.getD_cons_succ,
        List.getD_cons_succ, List.getD_cons_succ, List.getD_cons_succ, ih k hlt, extract_byte]

theorem State.completion_words (s : State) (bid : Nat) (b : Bundle) : s.completion bid b =
    [BitVec.ofNat 32 (b.status.1 * 2 ^ 28 + b.status.2 * 2 ^ 16 + b.bid), BitVec.ofNat 32 (min (2 ^ 32 - 1)
      ((s.work.launches.filter fun e => e.2.bundle = bid).map fun e => e.2.late).sum), BitVec.ofNat 32 s.now,
      BitVec.ofNat 32 (s.now / 2 ^ 32)] := by
  have hsum : ∀ l : List Nat, sumNat l = l.sum := fun l => List.sum_eq_foldl.symm
  rw [State.completion, hsum]
  rfl

/-- A record of a host's queue goes to the host's memory, and no byte of device memory changes. -/
theorem State.putRecord_host {s : State} {b : Bundle} (h : ((s.sq? b.port b.queue).map Sq.host).getD false = true)
    (ws : List Word) : s.putRecord b ws = s.hostWrite b.port b.record (wordsToBytes ws) := if_pos h

theorem Port.hostMem_raise (p : Port) (v : Nat) : (p.raise v).hostMem = p.hostMem := by
  unfold Port.raise
  split <;> rfl

/-- The memory of a host once a record of 16 bytes is in it. -/
theorem State.hostWrite_hostMem {s : State} {port : Nat} {p : Port} (hp : Tab.get? s.ports port = some p) (a : Nat)
    (bs : List Byte) : ∃ p', Tab.get? (s.hostWrite port a bs).ports port = some p' ∧
      ∀ k, k < bs.length → Tab.get? p'.hostMem (a + k) = some (bs.getD k 0#8) := by
  refine ⟨_, (Tab.get?_upd ..).trans ((if_pos rfl).trans (congrArg (Option.map _) hp)), fun k hk => ?_⟩
  exact Tab.get?_foldl_set (List.range bs.length) (a + ·) (fun k => bs.getD k 0#8)
    (fun x _ y _ h => congrArg (bs.getD · 0#8) (Nat.add_left_cancel h)) p.hostMem k (List.mem_range.2 hk)

/-- A record of a queue in device memory goes there where its port owns the place. -/
theorem State.putRecord_device {s : State} {b : Bundle} (h : ((s.sq? b.port b.queue).map Sq.host).getD false = false)
    {ws : List Word} (hws : ws.length = 4) (a : Nat) : memRead Config.hbmFill (s.putRecord b ws).hbm a =
      if s.portRange b.port b.record 16 = true ∧ b.record ≤ a ∧ a < b.record + 16
      then (ws.getD ((a - b.record) / 4) 0#32).extractLsb' (8 * ((a - b.record) % 4)) 8
      else memRead Config.hbmFill s.hbm a := by
  unfold State.putRecord
  dsimp only
  rw [h, if_neg Bool.false_ne_true]
  by_cases hin : s.portRange b.port b.record 16 = true
  · have hrun : ((List.range 16).map fun k => (k, (wordsToBytes ws).getD k 0#8)) =
        Tab.run 0 16 fun k => (wordsToBytes ws).getD k 0#8 := by simp [Tab.run]
    rw [if_pos hin, hrun]
    refine (memRead_writeAt s.hbm b.record a _ (Tab.nodup_run 0 16 fun k => (wordsToBytes ws).getD k 0#8)).trans ?_
    rw [Tab.getD, Tab.get?_run]
    by_cases ha : b.record ≤ a
    · by_cases hlt : a < b.record + 16
      · rw [if_pos ha, if_pos ⟨Nat.zero_le _, by omega⟩, if_pos ⟨hin, ha, hlt⟩, Nat.sub_zero]
        exact getD_wordsToBytes ws _ (by omega)
      · rw [if_pos ha, if_neg fun h => hlt (by omega), if_neg fun h => hlt h.2.2]
        rfl
    · rw [if_neg ha, if_neg fun h => ha h.2.1]
  · rw [if_neg hin, if_neg fun h => hin h.1]

/-! ### Retirement (R382) -/

/-- The state once a bundle's record is written and its vector raised. -/
def State.recorded (s : State) (bid : Nat) (b : Bundle) : State :=
  let s1 := ((s.setWork { s.work with bundles := Tab.del s.work.bundles bid }).releaseViews bid).putRecord b (s.completion bid b)
  match b.irq with
  | some v => s1.updPort b.port fun p => p.raise v
  | none => s1

theorem State.bundleRetire_eq {s : State} {bid : Nat} {b : Bundle} {j : Job} (hb : Tab.get? s.work.bundles bid = some b)
    (hdone : s.bundleDone bid b = true) (hj : Tab.get? s.work.jobs b.job = some j)
    (hroom : let missing := b.succs.filter fun i =>
        ((s.setWork { s.work with bundles := Tab.del s.work.bundles bid }).pendingBundle b.job i).isNone
      missing = [] ∨ j.credits.length + missing.length ≤ 1024) :
    let t := b.succs.foldl (fun (s : State) i => s.tellSuccessor b.job (b.stop && b.status.1 ≠ 0) i) (s.recorded bid b)
    s.bundleRetire bid = t.setWork { t.work with launches := Tab.keep t.work.launches fun _ l => l.bundle ≠ bid } := by
  have hheld : ((Tab.get? s.work.jobs b.job).map fun j => j.credits.length).getD 0 = j.credits.length := by rw [hj]; rfl
  have hgo : (!s.bundleDone bid b || (!(b.succs.filter fun i => ((s.setWork { s.work with
      bundles := Tab.del s.work.bundles bid }).pendingBundle b.job i).isNone).isEmpty &&
      decide (1024 < j.credits.length + (b.succs.filter fun i => ((s.setWork { s.work with
        bundles := Tab.del s.work.bundles bid }).pendingBundle b.job i).isNone).length))) = false := by
    rcases hroom with h | h
    · rw [hdone, h]
      rfl
    · rw [hdone, decide_eq_false (Nat.not_lt.2 h), Bool.and_false]
      rfl
  simp only [State.bundleRetire, hb, hheld, hgo, Bool.false_eq_true, if_false]
  rfl

theorem State.recorded_frame (s : State) (bid : Nat) (b : Bundle) : (s.recorded bid b).work =
    { s.work with bundles := Tab.del s.work.bundles bid } ∧ (s.recorded bid b).hbm = (((s.setWork { s.work with
      bundles := Tab.del s.work.bundles bid }).releaseViews bid).putRecord b (s.completion bid b)).hbm := by
  have hwork : ∀ (u : State) (ws : List Word), (u.putRecord b ws).work = u.work := by
    intro u ws
    unfold State.putRecord
    dsimp only
    split
    · rfl
    · split <;> rfl
  unfold State.recorded
  dsimp only
  split
  · exact ⟨hwork _ _, rfl⟩
  · exact ⟨hwork _ _, rfl⟩

/-- The host's memory with the record of a bundle of its queue. -/
theorem State.recorded_hostMem {s : State} {bid : Nat} {b : Bundle} {p : Port}
    (h : ((s.sq? b.port b.queue).map Sq.host).getD false = true) (hp : Tab.get? s.ports b.port = some p) :
    ∃ p', Tab.get? (s.recorded bid b).ports b.port = some p' ∧
      ∀ k, k < 16 → Tab.get? p'.hostMem (b.record + k) = some ((wordsToBytes (s.completion bid b)).getD k 0#8) := by
  obtain ⟨p', hp', hmem⟩ := State.hostWrite_hostMem (s := (s.setWork { s.work with
    bundles := Tab.del s.work.bundles bid }).releaseViews bid) hp b.record (wordsToBytes (s.completion bid b))
  have hput := State.putRecord_host (s := (s.setWork { s.work with
    bundles := Tab.del s.work.bundles bid }).releaseViews bid) h (s.completion bid b)
  unfold State.recorded
  dsimp only
  rw [hput]
  split
  · refine ⟨_, (Tab.get?_upd ..).trans ((if_pos rfl).trans (congrArg (Option.map _) hp')), fun k hk => ?_⟩
    rw [Port.hostMem_raise]
    exact hmem k hk
  · exact ⟨p', hp', hmem⟩

/-- A bundle that is done leaves the table with its launches, its record stands where its queue's ring lies, and its
successors have heard of it. -/
theorem bundleRetire_answers {s : State} {bid : Nat} {b : Bundle} {j : Job} (hb : Tab.get? s.work.bundles bid = some b)
    (hdone : s.bundleDone bid b = true) (hj : Tab.get? s.work.jobs b.job = some j)
    (hnodup : (s.work.bundles.map Prod.fst).Nodup) :
    let s' := s.setWork { s.work with bundles := Tab.del s.work.bundles bid }
    let missing := b.succs.filter fun i => (s'.pendingBundle b.job i).isNone
    missing = [] ∨ j.credits.length + missing.length ≤ 1024 →
    let cancel := b.stop && decide (b.status.1 ≠ 0)
    let late := ((s.work.launches.filter fun e => e.2.bundle = bid).map fun e => e.2.late).sum
    let bytes := fun (k : Nat) => ([BitVec.ofNat 32 (b.status.1 * 2 ^ 28 + b.status.2 * 2 ^ 16 + b.bid),
      BitVec.ofNat 32 (min (2 ^ 32 - 1) late), BitVec.ofNat 32 s.now, BitVec.ofNat 32 (s.now / 2 ^ 32)].getD (k / 4) 0#32).extractLsb'
        (8 * (k % 4)) 8
    let host := ((s.sq? b.port b.queue).map Sq.host).getD false
    Answers (exec (.bundleRetire bid) s) fun t => Tab.get? t.work.bundles bid = none ∧
      (∀ e ∈ t.work.launches, e.2.bundle ≠ bid) ∧
      (host = true → t.hbm = s.hbm ∧ ∀ p, Tab.get? s.ports b.port = some p → ∃ p', Tab.get? t.ports b.port = some p' ∧
        ∀ k, k < 16 → Tab.get? p'.hostMem (b.record + k) = some (bytes k)) ∧
      (host = false → ∀ a, memRead Config.hbmFill t.hbm a =
        if s.portRange b.port b.record 16 = true ∧ b.record ≤ a ∧ a < b.record + 16 then bytes (a - b.record)
        else memRead Config.hbmFill s.hbm a) ∧
      (Tab.get? t.work.jobs b.job).map Job.credits = some (j.credits ++ missing.map fun i => (i, cancel)) ∧
      ∀ i n x, i ∈ b.succs → s'.pendingBundle b.job i = some (n, x) → Tab.get? t.work.bundles n = some
        (if x.count = 0 then x else if cancel then { x with cancelled := true }
         else { x with count := x.count - b.succs.count i }) := by
  intro s' missing hroom cancel late bytes host
  have hwords : s.completion bid b = _ := s.completion_words bid b
  obtain ⟨hwork, hrecorded⟩ := s.recorded_frame bid b
  have hdel : ((s.recorded bid b).work.bundles.map Prod.fst).Nodup := by
    rw [hwork]
    exact Tab.nodup_del hnodup bid
  have hpend : ∀ i, (s.recorded bid b).pendingBundle b.job i = s'.pendingBundle b.job i := fun i => by
    rw [State.pendingBundle_eq, State.pendingBundle_eq, hwork]
    rfl
  obtain ⟨hhbm, hports, hlaunches, hkeys, hcredits, htold⟩ := State.tellSuccessors b.job cancel b.succs (s.recorded bid b) j
    hdel (by rw [hwork]; exact hj)
  refine ⟨_, congrArg Host.Outcome.next (State.bundleRetire_eq hb hdone hj hroom), ?_, fun e he => ?_,
    fun hhost => ⟨hhbm.trans (hrecorded.trans ?_), fun p hp => ?_⟩, fun hhost a => ?_, hcredits.trans ?_,
    fun i n x hi hx => ?_⟩
  · have hgone : bid ∉ (Tab.del s.work.bundles bid).map Prod.fst := fun h => by
      obtain ⟨e, he, hk⟩ := List.mem_map.1 h
      exact of_decide_eq_true (List.mem_filter.1 he).2 hk
    rw [hwork] at hkeys
    rw [← hkeys] at hgone
    refine Option.eq_none_iff_forall_ne_some.2 fun x hx => hgone ?_
    exact List.mem_map.2 ⟨(bid, x), Tab.get?_mem hx, rfl⟩
  · exact of_decide_eq_true (List.mem_filter.1 he).2
  · exact (congrArg State.hbm (State.putRecord_host (s := s'.releaseViews bid) hhost (s.completion bid b))).trans rfl
  · obtain ⟨p', hp', hmem⟩ := State.recorded_hostMem (bid := bid) hhost hp
    refine ⟨p', (congrArg (Tab.get? · b.port) hports).trans hp', fun k hk => (hmem k hk).trans (congrArg some ?_)⟩
    exact (getD_wordsToBytes _ k (by rw [hwords]; exact hk)).trans (by rw [hwords])
  · have hput := State.putRecord_device (s := s'.releaseViews bid) (ws := s.completion bid b) hhost (by rw [hwords]; rfl) a
    refine ((congrArg (memRead Config.hbmFill · a) (hhbm.trans hrecorded)).trans hput).trans ?_
    rw [hwords]
    rfl
  · simp only [hpend]
    rfl
  · have hfound := htold i
    obtain ⟨m, hm⟩ := Nat.exists_eq_succ_of_ne_zero (List.count_pos_iff.2 hi).ne'
    rw [hpend, hx, Option.map_some, hm, Bundle.told_often] at hfound
    rw [hm]
    exact Tab.get?_of_nodup (hkeys ▸ hdel) (List.mem_of_find?_eq_some hfound)

end Sys2Proof.Machine
end

