-- ==== Sys2Proof/Proofs/BundleAdmit.lean ====
section
/-!
PROOFS. Bundles come to admission, are checked and admitted (R381, R382, R384, R387, R397).
-/

namespace Sys2Proof.Machine

/-! ### The sub-launches of a bundle -/

/-- A sub-launch of a bundle. -/
def State.subAt (s : State) (bid sub : Nat) : Option Sub := (Tab.get? s.work.bundles bid).bind fun y => y.subs[sub]?

section
variable {s : State} {bid sub : Nat} {b : Bundle}

theorem State.subAt_of {x : Sub} (hb : Tab.get? s.work.bundles bid = some b) (hx : b.subs[sub]? = some x) :
    s.subAt bid sub = some x := by
  rw [State.subAt, hb]
  exact hx

theorem State.subAt_updSub (s : State) (bid sub : Nat) (f : Sub → Sub) (i : Nat) :
    (s.updSub bid sub f).subAt bid i = if i = sub then (s.subAt bid i).map f else s.subAt bid i := by
  have hget : Tab.get? (s.updSub bid sub f).work.bundles bid = (Tab.get? s.work.bundles bid).map fun b =>
      { b with subs := b.subs.mapIdx fun i x => if i = sub then f x else x } :=
    (Tab.get?_upd ..).trans (if_pos rfl)
  rw [State.subAt, hget, State.subAt]
  cases Tab.get? s.work.bundles bid with
  | none => simp
  | some b =>
    simp only [Option.map_some, Option.bind_some, List.getElem?_mapIdx]
    by_cases hi : i = sub
    · simp [hi]
    · simp [hi]

theorem State.subAt_endSub (s : State) (bid sub status : Nat) : (s.endSub bid sub status).subAt bid sub =
    (s.subAt bid sub).map fun x => { x with status := some status } :=
  (s.subAt_updSub ..).trans (if_pos rfl)

theorem State.subAt_endSub_other (s : State) (bid sub status : Nat) {i : Nat} (h : i ≠ sub) :
    (s.endSub bid sub status).subAt bid i = s.subAt bid i :=
  (s.subAt_updSub ..).trans (if_neg h)

/-! ### Records are read (R384, R386) -/

/-- A sub-launch that comes to admission changes no other one. -/
theorem State.subAt_enterSub_other (s : State) (bid : Nat) (b : Bundle) {k i : Nat} (ws : List Word) (h : i ≠ k) :
    (s.enterSub bid b k ws).subAt bid i = s.subAt bid i := by
  unfold State.enterSub
  split
  · split
    · exact s.subAt_endSub_other bid k _ h
    · exact (State.subAt_updSub ..).trans (if_neg h)
  · split
    · rfl
    · exact s.subAt_endSub_other bid k _ h
  · rfl
  · rfl
  · exact s.subAt_endSub_other bid k _ h

/-- A record of a reserved kind ends its sub-launch. -/
theorem State.enterSub_reserved (s : State) (bid : Nat) (b : Bundle) (k : Nat) {ws : List Word}
    (h : 4 ≤ wnat ws 0 / 2 ^ 28 % 2 ^ 4) : s.enterSub bid b k ws = s.endSub bid k 8 := by
  rw [← bitsOf_eq] at h
  unfold State.enterSub
  split
  · omega
  · omega
  · omega
  · omega
  · rfl

theorem State.subAt_enterSubs {x : Sub} (hb : Tab.get? s.work.bundles bid = some b) (hx : b.subs[sub]? = some x)
    (hkind : 4 ≤ wnat x.words 0 / 2 ^ 28 % 2 ^ 4) :
    (s.enterSubs bid b).subAt bid sub = some { x with status := some 8 } := by
  have hfold : ∀ n, ((List.range n).foldl (fun (s : State) k =>
      s.enterSub bid b k (((b.subs[k]?).map Sub.words).getD [])) s).subAt bid sub =
        some (if sub < n then { x with status := some 8 } else x) := by
    intro n
    induction n with
    | zero => exact State.subAt_of hb hx
    | succ n ih =>
      rw [List.range_succ, List.foldl_append, List.foldl_cons, List.foldl_nil]
      by_cases hn : sub = n
      · subst hn
        have hwords : ((b.subs[sub]?).map Sub.words).getD [] = x.words := by rw [hx]; rfl
        rw [hwords, State.enterSub_reserved _ bid b sub hkind, State.subAt_endSub, ih, Option.map_some,
          if_neg (Nat.lt_irrefl sub), if_pos (Nat.lt_succ_self sub)]
      · rw [State.subAt_enterSub_other _ bid b _ hn, ih]
        by_cases hlt : sub < n
        · rw [if_pos hlt, if_pos (by omega)]
        · rw [if_neg hlt, if_neg (by omega)]
  refine (hfold b.subs.length).trans ?_
  rw [if_pos (List.getElem?_eq_some_iff.1 hx).1]

/-! ### The checks (R387, R397) -/

theorem State.mem_inAdmission {e : Nat × Nat × Launch} (h : e ∈ s.inAdmission b) :
    ∃ x, b.subs[e.1]? = some x ∧ x.launch = some e.2.1 := by
  obtain ⟨k, -, hk⟩ := List.mem_filterMap.1 h
  obtain ⟨x, hx, hk⟩ := Option.bind_eq_some_iff.1 hk
  obtain ⟨lid, hlid, hk⟩ := Option.bind_eq_some_iff.1 hk
  obtain ⟨l, -, hk⟩ := Option.bind_eq_some_iff.1 hk
  split at hk
  · cases hk
  · cases hk
    exact ⟨x, hx, hlid⟩

theorem State.subAt_refuseLaunch (s : State) (bid sub lid status : Nat) (i : Nat) :
    (s.refuseLaunch bid sub lid status).subAt bid i =
      if i = sub then (s.subAt bid i).map fun x => { x with launch := none, status := some status } else s.subAt bid i :=
  State.subAt_updSub ..

/-- A launch that is refused leaves the table, and its sub-launch has the status. -/
theorem State.refuseLaunch_leaves {x : Sub} (hx : s.subAt bid sub = some x) (lid status : Nat) :
    (s.refuseLaunch bid sub lid status).hbm = s.hbm ∧
    ((s.refuseLaunch bid sub lid status).subAt bid sub).bind Sub.status = some status ∧
    Tab.get? (s.refuseLaunch bid sub lid status).work.launches lid = none := by
  refine ⟨rfl, ?_, (Tab.get?_del ..).trans (if_pos rfl)⟩
  rw [State.subAt_refuseLaunch, if_pos rfl, hx]
  rfl

theorem State.admitLaunch_bundles {t : State} {lid : Nat} {l : Launch} (h : s.admitLaunch lid l = some t) :
    t.work.bundles = s.work.bundles := by
  have htag : ∀ (u : State) r, u.contextTag lid l.job = some r → r.2.work = u.work := by
    intro u r hr
    obtain ⟨n, -, rfl⟩ := Option.map_eq_some_iff.1 hr
    rfl
  cases hmap : l.ownMap <;> cases hctx : l.wantCtx
  all_goals
    simp only [State.admitLaunch, hmap, hctx, Bool.false_eq_true, if_false, if_true] at h
  · cases h
    rfl
  · obtain ⟨r, hr, rfl⟩ := Option.map_eq_some_iff.1 h
    exact (congrArg Work.bundles (htag _ r hr) : r.2.work.bundles = _)
  · cases h
    rfl
  · obtain ⟨r, hr, rfl⟩ := Option.map_eq_some_iff.1 h
    exact (congrArg Work.bundles (htag _ r hr) : r.2.work.bundles = _)

theorem State.admitAll_bundles {ls : List (Nat × Nat × Launch)} : ∀ {s t : State}, s.admitAll ls = some t →
    t.work.bundles = s.work.bundles := by
  induction ls with
  | nil =>
    intro s t h
    cases h
    rfl
  | cons e ls ih =>
    intro s t h
    unfold State.admitAll at h
    split at h
    · split at h
      · rename_i u hu
        exact (ih h).trans (State.admitLaunch_bundles hu)
      · cases h
    · cases h

theorem State.bringIn_work (s : State) (job : Nat) (l : Lease) (ext : Nat) : (s.bringIn job l ext).work = s.work := by
  unfold State.bringIn
  split
  · dsimp only
    split
    · rfl
    · split <;> rfl
  · rfl

/-- A sub-launch without a launch that has a status keeps it through the checks of its bundle. -/
theorem State.subAt_checkBundle {x : Sub} {n : Nat} (hb : Tab.get? s.work.bundles bid = some b) (hx : b.subs[sub]? = some x)
    (hlaunch : x.launch = none) (hstatus : x.status = some n) :
    ((s.checkBundle bid b).subAt bid sub).bind Sub.status = some n := by
  have hkeep : (s.subAt bid sub).bind Sub.status = some n := by
    rw [State.subAt_of hb hx]
    exact hstatus
  unfold State.checkBundle
  dsimp only
  split
  · rename_i sub' lid l hfind
    obtain ⟨y, hy, hylaunch⟩ := State.mem_inAdmission (List.mem_of_find?_eq_some hfind)
    have hne : sub ≠ sub' := by
      intro he
      rw [← he, hx] at hy
      rw [← Option.some.inj hy, hlaunch] at hylaunch
      cases hylaunch
    split
    · rw [State.subAt_refuseLaunch, if_neg hne]
      exact hkeep
    · rw [State.subAt_refuseLaunch, if_neg hne]
      exact hkeep
    · rw [State.subAt, State.bringIn_work]
      exact hkeep
    · exact hkeep
    · exact hkeep
  · split
    · rename_i t ht
      have hbundles : t.work.bundles = s.work.bundles := (State.admitAll_bundles ht).trans rfl
      have hget : Tab.get? (t.updBundle bid fun b => { b with
          admitted := true, checking := false, subs := b.subs.map Sub.start }).work.bundles bid =
          some { b with admitted := true, checking := false, subs := b.subs.map Sub.start } :=
        (Tab.get?_upd ..).trans ((if_pos rfl).trans (by rw [hbundles, hb]; rfl))
      have hstart : x.start = x := by
        rw [Sub.start, hstatus]
        rfl
      rw [State.subAt, hget, Option.bind_some, List.getElem?_map, hx, Option.map_some, hstart]
      exact hstatus
    · exact hkeep

/-! ### BUNDLE_ADMIT (R382) -/

/-- No ready bundle of its queue is earlier. -/
theorem State.no_earlier
    (hfirst : ∀ e ∈ s.work.bundles, e.2.port = b.port → e.2.queue = b.queue → e.2.ready = true → b.order ≤ e.2.order) :
    (s.work.bundles.any fun e =>
    e.2.port = b.port && e.2.queue = b.queue && e.2.ready && decide (e.2.order < b.order)) = false := by
  refine List.any_eq_false.2 fun e he h => ?_
  simp only [Bool.and_eq_true, decide_eq_true_eq] at h
  obtain ⟨⟨⟨hport, hqueue⟩, hr⟩, hlt⟩ := h
  exact absurd (hfirst e he hport hqueue hr) (Nat.not_le.2 hlt)

section
variable (hb : Tab.get? s.work.bundles bid = some b) (hready : b.ready = true) (hruns : s.jobRuns b.job = true)
  (hfirst : ∀ e ∈ s.work.bundles, e.2.port = b.port → e.2.queue = b.queue → e.2.ready = true → b.order ≤ e.2.order)
include hb hready hruns hfirst

theorem State.bundleAdmit_of_checking (hchecking : b.checking = true) : s.bundleAdmit bid = s.checkBundle bid b := by
  have hno := State.no_earlier hfirst
  simp only [State.bundleAdmit, hb, hready, hruns, hno, hchecking, Bool.not_true, Bool.or_false, Bool.false_eq_true,
    if_false, if_true]

theorem State.bundleAdmit_of_new {b' : Bundle} (hnew : b.checking = false)
    (hb' : Tab.get? ((s.enterSubs bid b).updBundle bid fun b => { b with checking := true }).work.bundles bid = some b') :
    s.bundleAdmit bid = ((s.enterSubs bid b).updBundle bid fun b => { b with checking := true }).checkBundle bid b' := by
  have hno := State.no_earlier hfirst
  simp only [State.bundleAdmit, hb, hready, hruns, hno, hnew, hb', Bool.not_true, Bool.or_false, Bool.false_eq_true,
    if_false]

theorem State.bundleAdmit_reserved {x : Sub} (hnew : b.checking = false) (hx : b.subs[sub]? = some x)
    (hlaunch : x.launch = none) (hkind : 4 ≤ wnat x.words 0 / 2 ^ 28 % 2 ^ 4) :
    ((s.bundleAdmit bid).subAt bid sub).bind Sub.status = some 8 := by
  have hentered : ((s.enterSubs bid b).updBundle bid fun b => { b with checking := true }).subAt bid sub =
      some { x with status := some 8 } := by
    refine Eq.trans ?_ (State.subAt_enterSubs hb hx hkind)
    rw [State.subAt, State.subAt, State.updBundle_work, Tab.get?_upd, if_pos rfl, Option.bind_map]
    rfl
  obtain ⟨b', hb', hx'⟩ := Option.bind_eq_some_iff.1 hentered
  rw [State.bundleAdmit_of_new hb hready hruns hfirst hnew hb']
  exact State.subAt_checkBundle hb' hx' hlaunch rfl

theorem State.bundleAdmit_admits {t : State} (hchecking : b.checking = true)
    (hpass : ∀ e ∈ s.inAdmission b, s.check e.2.1 e.2.2 = .pass)
    (ht : ((s.showViews b.job (s.inAdmission b)).invalidate b.job .sys).admitAll (s.inAdmission b) = some t) :
    s.bundleAdmit bid = t.updBundle bid fun b => { b with admitted := true, checking := false, subs := b.subs.map Sub.start } := by
  have hnone : ((s.inAdmission b).find? fun e => s.check e.2.1 e.2.2 ≠ .pass) = none :=
    List.find?_eq_none.2 fun e he => by simp [hpass e he]
  rw [State.bundleAdmit_of_checking hb hready hruns hfirst hchecking]
  simp only [State.checkBundle, hnone, ht]

theorem State.bundleAdmit_checks {sub lid : Nat} {l : Launch} (hchecking : b.checking = true)
    (hfind : ((s.inAdmission b).find? fun e => s.check e.2.1 e.2.2 ≠ .pass) = some (sub, lid, l)) :
    (s.check lid l = .wait → s.bundleAdmit bid = s) ∧
    (s.check lid l = .unfit → s.bundleAdmit bid = s.refuseLaunch bid sub lid 1) ∧
    (s.check lid l = .malformed → s.bundleAdmit bid = s.refuseLaunch bid sub lid 8) := by
  rw [State.bundleAdmit_of_checking hb hready hruns hfirst hchecking]
  refine ⟨fun h => ?_, fun h => ?_, fun h => ?_⟩
  · simp only [State.checkBundle, hfind, h]
  · simp only [State.checkBundle, hfind, h]
    rfl
  · simp only [State.checkBundle, hfind, h]
    rfl

end

end

/-- Another code object of the launch's kernel and version is referenced (R397). -/
theorem State.check_malformed {s : State} {lid : Nat} {l : Launch} {e : Nat × Launch} (he : e ∈ s.work.launches)
    (hjob : e.2.job = l.job) (hlive : e.2.retired = false) (hname : e.2.kernel.name = l.kernel.name)
    (hversion : e.2.kernel.version = l.kernel.version) (hcode : e.2.codeObj ≠ l.codeObj)
    (hheld : e.2.admitted = true ∨ (e.2.bundle = l.bundle ∧ e.2.sub < l.sub)) : s.check lid l = .malformed := by
  have hclash : e.2.clashes l.kernel l.codeObj = true := by simp [Launch.clashes, hname, hversion, hcode]
  have hversion : s.checkVersion l = .malformed := by
    refine if_pos (Bool.or_eq_true_iff.2 ?_)
    cases hadm : e.2.admitted with
    | true =>
      exact .inl (List.any_eq_true.2 ⟨e, List.mem_filter.2 ⟨he, by simp [hjob, hadm, hlive]⟩, hclash⟩)
    | false =>
      obtain ⟨hbundle, hsub⟩ := hheld.resolve_left (by rw [hadm]; exact Bool.false_ne_true)
      exact .inr (List.any_eq_true.2 ⟨e, he, by simp [hbundle, hadm, hsub, hclash]⟩)
  rw [State.check, hversion]
  rfl

end Sys2Proof.Machine
end

