-- ==== Sys2Proof/Proofs/BundleEvents.lean ====
section
/-!
PROOFS. Bundles are fetched, and their other sub-launches give their work out (R379, R380, R386, R431); O58.
-/

namespace Sys2Proof.Machine

/-! ### BUNDLE_FETCH (R379, R422) -/

section
variable {s s₁ : State} {port q : Nat} {x : Sq}

/-- Reading an entry draws free values and changes nothing else. -/
theorem State.readEntry_frame {r : Option (List Word)} (h : s.readEntry port x = (r, s₁)) : s₁ = { s with free := s₁.free } := by
  unfold State.readEntry at h
  dsimp only at h
  split at h
  · cases h
    rfl
  · split at h <;> cases h <;> rfl

theorem State.bundleFetch_taken (hx : s.sq? port q = some x) (hbooted : s.hub.booted = true) (henable : x.enable = true)
    (hbound : x.bound = true) (hne : x.rp ≠ x.wp) {ws : List Word} (hread : s.readEntry port x = (some ws, s₁)) :
    s.bundleFetch port q = (s₁.newBundle port q x.job ws).updSq port q fun x =>
      { x with rp := (x.rp + 1) % 2 ^ x.size, snap := x.snap.tail } := by
  simp [State.bundleFetch, hx, hbooted, henable, hbound, hne, hread]

theorem State.bundleFetch_failed (hx : s.sq? port q = some x) (hbooted : s.hub.booted = true) (henable : x.enable = true)
    (hbound : x.bound = true) (hne : x.rp ≠ x.wp) (hread : s.readEntry port x = (none, s₁)) :
    s.bundleFetch port q = s₁.updSq port q fun x => { x with enable := false, error := true } := by
  simp [State.bundleFetch, hx, hbooted, henable, hbound, hne, hread]

/-- A new bundle changes the work alone, and stands under the next number. -/
theorem State.newBundle_leaves (s : State) (port q job : Nat) (ws : List Word) :
    (s.newBundle port q job ws).hbm = s.hbm ∧ (s.newBundle port q job ws).ports = s.ports ∧
    ∃ b, Tab.get? (s.newBundle port q job ws).work.bundles s.nextId = some b ∧ b.job = job ∧ b.port = port ∧ b.queue = q ∧
      b.bid = wnat ws 0 / 2 ^ 16 ∧ b.admitted = false := by
  have hbid : bitsOf (wnat ws 0) 16 16 = wnat ws 0 / 2 ^ 16 := by
    rw [bitsOf_eq, Nat.mod_eq_of_lt]
    have hlt : wnat ws 0 < 2 ^ 32 := BitVec.isLt _
    omega
  unfold State.newBundle
  dsimp only
  split
  · exact ⟨rfl, rfl, _, Tab.get?_set_same .., rfl, rfl, rfl, hbid, rfl⟩
  · exact ⟨rfl, rfl, _, Tab.get?_set_same .., rfl, rfl, rfl, hbid, rfl⟩

end

/-! ### The other sub-launches (R386, R431) -/

section
variable {s : State} {bid sub kind : Nat} {b : Bundle} {x : Sub}

/-- A sub-launch that gives work out is one of its bundle, of its kind. -/
theorem State.sub?_eq_some (h : s.sub? bid sub kind = some (b, x)) :
    Tab.get? s.work.bundles bid = some b ∧ b.subs[sub]? = some x ∧ wnat x.words 0 / 2 ^ 28 % 2 ^ 4 = kind := by
  unfold State.sub? at h
  split at h
  · cases h
  · rename_i b' hb
    split at h
    · cases h
    · rename_i x' hx
      split at h
      · rename_i hgo
        cases h
        simp only [Bool.and_eq_true, decide_eq_true_eq, bitsOf_eq] at hgo
        exact ⟨hb, hx, hgo.2⟩
      · cases h

theorem rawCopy_keeps {bar : BarName → BarId} {base c : CopyCmd} {ws : List Word} (h : rawCopy bar base ws = some c) :
    c.owner = base.owner ∧ c.core = base.core := by
  unfold rawCopy at h
  dsimp only at h
  repeat' split at h
  all_goals cases h
  all_goals exact ⟨rfl, rfl⟩

theorem programCopy_keeps (base : CopyCmd) (ws : List Word) :
    (programCopy base ws).owner = base.owner ∧ (programCopy base ws).core = base.core := by
  unfold programCopy
  dsimp only
  split
  · exact ⟨rfl, rfl⟩
  · rename_i c hc
    split
    · exact rawCopy_keeps hc
    · exact ⟨rfl, rfl⟩

/-- A command of a copy program goes to an engine of the die that its record names. -/
theorem State.copyProgram_takes (hsub : s.sub? bid sub 1 = some (b, x)) :
    let flying := (s.ops.copies.filter fun e => e.2.owner = .program bid sub).length
    flying < 8 → wnat x.words 4 - x.left + flying < wnat x.words 4 →
    ∃ c : CopyCmd, c.owner = .program bid sub ∧ c.core = 128 + wnat x.words 1 ∧ 8 ≤ c.engine ∧ c.engine < 16 ∧
      s.copyProgram bid sub = s.fresh.2.setOps { s.ops with copies := Tab.set s.ops.copies s.nextId c } := by
  intro flying hflying hnext
  have hgo : (decide (8 ≤ flying) || decide (wnat x.words 4 ≤ wnat x.words 4 - x.left + flying)) = false := by
    rw [decide_eq_false (Nat.not_le.2 hflying), decide_eq_false (Nat.not_le.2 hnext)]
    rfl
  have hbase := programCopy_keeps (programBase bid sub (wnat x.words 1) b.job b.kernelLaunch)
  have hengine : 8 ≤ 8 + Config.dieEngine s.nextId % 8 ∧ 8 + Config.dieEngine s.nextId % 8 < 16 := by omega
  unfold State.copyProgram
  rw [hsub]
  dsimp only
  rw [if_neg (by rw [hgo]; exact Bool.false_ne_true)]
  split
  · rename_i ws _ _
    obtain ⟨howner, hcore⟩ := hbase ws
    exact ⟨{ programCopy (programBase bid sub (wnat x.words 1) b.job b.kernelLaunch) ws with
      engine := 8 + Config.dieEngine s.nextId % 8 }, howner, hcore, hengine.1, hengine.2, rfl⟩
  · exact ⟨{ (programBase bid sub (wnat x.words 1) b.job b.kernelLaunch).ended 0xC with
      engine := 8 + Config.dieEngine s.nextId % 8 }, rfl, rfl, hengine.1, hengine.2, rfl⟩

theorem State.loadEverywhere_frame (job slot : Nat) (rd : Nat → Option (List Byte)) (cs : List Nat) : ∀ s : State,
    (s.loadEverywhere job slot rd cs).2 = { s with cores := (s.loadEverywhere job slot rd cs).2.cores } := by
  induction cs with
  | nil => exact fun s => rfl
  | cons c cs ih =>
    intro s
    unfold State.loadEverywhere
    dsimp only
    split
    · exact ih _
    · exact ih _

theorem State.enterColl_misaligned (s : State) (id : Nat) {c : CollCmd} (hbad : c.bad = true)
    (howner : c.owner = .program bid sub) : s.enterColl id c =
      (s.setOps { s.ops with colls := Tab.del s.ops.colls id }).subDone bid sub true := by
  rw [State.enterColl, if_pos hbad, State.collTell]
  simp only [howner]
  rfl

theorem State.subAt_subDone (s : State) (bid sub : Nat) (bad : Bool) :
    (s.subDone bid sub bad).subAt bid sub = (s.subAt bid sub).map fun x => x.tell bad :=
  (s.subAt_updSub bid sub (fun x => x.tell bad) sub).trans (if_pos rfl)

/-- A collective sub-launch enters the engine where it is not full, or ends where it is malformed. -/
theorem State.collectiveSub_eq (hsub : s.sub? bid sub 3 = some (b, x)) (hroom : s.ops.colls.length < 256) :
    s.collectiveSub bid sub = (s.fresh.2.updSub bid sub fun x => { x with running := false }).enterColl s.nextId
      (rawColl (.program bid sub) b.job 0 (wnat x.words 0 / 2 ^ 24 % 2 ^ 4) (wnat x.words 0 / 2 ^ 22 % 2 ^ 2)
        (wnat x.words 0 % 2 ^ 22) ((x.words.drop 1).take 6)) := by
  have hfull : s.collFull = false := decide_eq_false (Nat.not_le.2 hroom)
  simp only [State.collectiveSub, hsub, hfull, Bool.false_eq_true, if_false, bitsOf_eq, pow_zero, Nat.div_one]
  rfl

/-- What a collective sub-launch leaves. -/
theorem State.collectiveSub_leaves (hsub : s.sub? bid sub 3 = some (b, x)) (hroom : s.ops.colls.length < 256) :
    let w := wnat x.words 0
    let c := rawColl (.program bid sub) b.job 0 (w / 2 ^ 24 % 2 ^ 4) (w / 2 ^ 22 % 2 ^ 2) (w % 2 ^ 22)
      ((x.words.drop 1).take 6)
    let t := s.collectiveSub bid sub
    t.hbm = s.hbm ∧ (t.subAt bid sub).map Sub.running = some false ∧
      (c.bad = false → ∃ n, Tab.get? t.ops.colls s.nextId = some { c with nth := n }) ∧
      (c.bad = true → x.left ≤ 1 → Tab.get? t.ops.colls s.nextId = none ∧
        (t.subAt bid sub).bind Sub.status = some 0xC) := by
  intro w c t
  obtain ⟨hb, hx, hkind⟩ := State.sub?_eq_some hsub
  have ht : t = (s.fresh.2.updSub bid sub fun x => { x with running := false }).enterColl s.nextId c :=
    State.collectiveSub_eq hsub hroom
  have hstopped : (s.fresh.2.updSub bid sub fun x => { x with running := false }).subAt bid sub =
      some { x with running := false } :=
    (State.subAt_updSub ..).trans ((if_pos rfl).trans (congrArg (Option.map _) (State.subAt_of hb hx)))
  rw [ht]
  rcases Bool.dichotomy c.bad with hbad | hbad
  · obtain ⟨n, f, hgood⟩ := State.enterColl_good (s.fresh.2.updSub bid sub fun x => { x with running := false }) s.nextId hbad
    rw [hgood]
    exact ⟨rfl, congrArg (Option.map Sub.running) hstopped, fun _ => ⟨n, Tab.get?_set_same ..⟩,
      fun h => absurd (hbad.symm.trans h) Bool.false_ne_true⟩
  · have howner : c.owner = .program bid sub := rawColl_owner ..
    have htold := State.subAt_subDone ((s.fresh.2.updSub bid sub fun x => { x with running := false }).setOps { s.ops with
      colls := Tab.del s.ops.colls s.nextId }) bid sub true
    rw [State.enterColl_misaligned _ _ hbad howner]
    refine ⟨rfl, (congrArg (Option.map Sub.running) (htold.trans (congrArg (Option.map _) hstopped))),
      fun h => absurd (h.symm.trans hbad) Bool.false_ne_true,
      fun _ hlast => ⟨(Tab.get?_del ..).trans (if_pos rfl), ?_⟩⟩
    refine (congrArg (Option.bind · Sub.status) (htold.trans (congrArg (Option.map _) hstopped))).trans ?_
    have hother : ¬bitsOf (wnat x.words 0) 28 4 = 1 := by
      rw [bitsOf_eq, hkind]
      decide
    simp only [Option.map_some, Option.bind_some, Sub.tell, hlast, Bool.or_true, if_true, hother, if_false]
    rfl

end

end Sys2Proof.Machine

namespace Sys2Proof

open Machine

/-- Settles O58: each event's own lemma, of bundles that are fetched, admitted, run and retired. -/
theorem bundleEvents : Obligations.BundleEvents := by
  unfold Obligations.BundleEvents
  intro s
  refine ⟨fun port q x p hp hq hbooted henable hbound hne => ?fetch, fun bid b hb hready hruns hfirst => ?admission,
    fun lid l e he hjob hlive hname hversion hcode hheld =>
      State.check_malformed he hjob hlive hname hversion hcode hheld,
    fun bid sub b x hsub => ?copies, fun bid sub b x hsub => ?surrogate, fun bid sub b x hsub hroom => ?collective,
    fun bid b j hb hdone hj hnodup => bundleRetire_answers hb hdone hj hnodup⟩
  case fetch =>
    have hx : s.sq? port q = some x := by rw [State.sq?, hp]; exact hq
    refine ⟨fun ws s₁ hread => ?_, fun s₁ hread => ?_⟩
    all_goals
      have hframe := State.readEntry_frame hread
      have hx₁ : s₁.sq? port q = some x := by rw [hframe]; exact hx
    · obtain ⟨hhbm, hports, b, hget, hb⟩ := s₁.newBundle_leaves port q x.job ws
      have hsq : (s₁.newBundle port q x.job ws).sq? port q = some x := by rw [State.sq?, hports]; exact hx₁
      refine ⟨_, congrArg Host.Outcome.next (State.bundleFetch_taken hx hbooted henable hbound hne hread),
        hhbm.trans (by rw [hframe]), ?_, b, ?_, hb⟩
      · rw [State.sq?_updSq, if_pos rfl, hsq]
        rfl
      · rw [hframe] at hget
        rw [hframe]
        exact hget
    · refine ⟨_, congrArg Host.Outcome.next (State.bundleFetch_failed hx hbooted henable hbound hne hread), ?_, ?_⟩
      · rw [State.sq?_updSq, if_pos rfl, hx₁]
        rfl
      · rw [hframe]
        rfl
  case admission =>
    intro ls status
    have hstatus : ∀ t sub, status t sub = (t.subAt bid sub).bind Sub.status := fun t sub =>
      (Option.bind_assoc ..).symm
    refine ⟨fun sub x hnew hx hlaunch hkind => ⟨_, rfl, ?_⟩, fun t hchecking hpass ht => ?_,
      fun sub lid l hchecking hfind => ?_⟩
    · exact (hstatus ..).trans (State.bundleAdmit_reserved hb hready hruns hfirst hnew hx hlaunch hkind)
    · refine ⟨_, congrArg Host.Outcome.next (State.bundleAdmit_admits hb hready hruns hfirst hchecking hpass ht), rfl, ?_⟩
      have hbundles : t.work.bundles = s.work.bundles := (State.admitAll_bundles ht).trans rfl
      refine (congrArg (Option.map Bundle.admitted) ((Tab.get?_upd ..).trans (if_pos rfl))).trans ?_
      rw [hbundles, hb]
      rfl
    · obtain ⟨hwait, hunfit, hmalformed⟩ := State.bundleAdmit_checks hb hready hruns hfirst hchecking hfind
      obtain ⟨x, hx, -⟩ := State.mem_inAdmission (List.mem_of_find?_eq_some hfind)
      have hleaves : ∀ n, (s.refuseLaunch bid sub lid n).hbm = s.hbm ∧ status (s.refuseLaunch bid sub lid n) sub = some n ∧
          Tab.get? (s.refuseLaunch bid sub lid n).work.launches lid = none := fun n => by
        rw [hstatus]
        exact State.refuseLaunch_leaves (State.subAt_of hb hx) lid n
      exact ⟨fun h => congrArg Host.Outcome.next (hwait h),
        fun h => ⟨_, congrArg Host.Outcome.next (hunfit h), hleaves 1⟩,
        fun h => ⟨_, congrArg Host.Outcome.next (hmalformed h), hleaves 8⟩⟩
  case copies =>
    intro flying hflying hnext
    obtain ⟨c, howner, hcore, hlow, hhigh, hstep⟩ := State.copyProgram_takes hsub hflying hnext
    exact ⟨_, congrArg Host.Outcome.next hstep, SameMemory.of_eq rfl rfl rfl, c, Tab.get?_set_same .., howner, hcore, hlow, hhigh⟩
  case surrogate =>
    intro r
    obtain ⟨hb, hx, -⟩ := State.sub?_eq_some hsub
    have hframe : r.2 = { s with cores := r.2.cores } := State.loadEverywhere_frame ..
    have hstep : s.surrogateSub bid sub = r.2.endSub bid sub (if r.1 then 0xB else 0) := by
      simp only [State.surrogateSub, hsub, bitsOf_eq, pow_zero, Nat.div_one]
      rfl
    refine ⟨_, congrArg Host.Outcome.next hstep, ?_, rfl, ?_⟩
    · refine Eq.trans (b := r.2.hbm) rfl ?_
      rw [hframe]
    · have hsub' : r.2.subAt bid sub = some x := by
        rw [hframe]
        exact State.subAt_of hb hx
      refine (Option.bind_assoc ..).symm.trans ?_
      refine (congrArg (Option.bind · Sub.status) (r.2.subAt_endSub bid sub _)).trans ?_
      rw [hsub']
      rfl
  case collective =>
    intro w c
    obtain ⟨hhbm, hrunning, hgood, hbad⟩ := State.collectiveSub_leaves hsub hroom
    refine ⟨_, rfl, hhbm, (Option.map_bind ..).symm.trans hrunning, hgood, fun hb hlast => ?_⟩
    obtain ⟨hnone, hstatus⟩ := hbad hb hlast
    exact ⟨hnone, (Option.bind_assoc ..).symm.trans hstatus⟩

end Sys2Proof
end
